-- ==== Sys2Proof/Word.lean ====
section
/-! DEFINITION. The word types of the part and its plainest arithmetic (00_scope.md, Arithmetic). -/

namespace Sys2Proof

/-- A byte of a bus frame or of the configuration image. -/
abbrev Byte := BitVec 8

/-- A time stamp: the 32-bit free-running microsecond count (00_scope.md, Time stamps). -/
abbrev Stamp := BitVec 32

/-- The time from stamp `old` to stamp `new`, modulo 2^32. -/
def elapsed (new old : Stamp) : Nat := (new - old).toNat

/-- "Clamped" and "saturates" of 00_scope.md for a signed value: the nearer end of `lo` to `hi`. -/
def clampInt (lo hi v : Int) : Int := max lo (min hi v)

/-- "Clamped" for an unsigned value. -/
def clampNat (lo hi v : Nat) : Nat := max lo (min hi v)

/-- Division truncating toward zero (00_scope.md, Arithmetic). -/
def truncDiv (a b : Int) : Int := Int.tdiv a b

end Sys2Proof
end

