-- ==== Sys2Proof/Config.lean ====
section
/-! DEFINITION. The fixed lists of the part (channels, outputs, clutches, groups), tables indexed by
them, the configuration image's contents by named field, and the free values. -/

namespace Sys2Proof

/-- The four pulse channels (R1). -/
inductive PulseChannel where
  | inp | out | frt | rad
  deriving DecidableEq, Repr

/-- One entry per pulse channel. -/
structure PulseTable (α : Type) where
  inp : α
  out : α
  frt : α
  rad : α
  deriving DecidableEq, Repr

/-- Every entry the same value. -/
def PulseTable.const (x : α) : PulseTable α := ⟨x, x, x, x⟩

def PulseTable.get (t : PulseTable α) : PulseChannel → α
  | .inp => t.inp
  | .out => t.out
  | .frt => t.frt
  | .rad => t.rad

def PulseTable.set (t : PulseTable α) (i : PulseChannel) (x : α) : PulseTable α :=
  match i with
  | .inp => { t with inp := x }
  | .out => { t with out := x }
  | .frt => { t with frt := x }
  | .rad => { t with rad := x }

/-- The table with `f` applied to every entry. -/
def PulseTable.map (f : PulseChannel → α → β) (t : PulseTable α) : PulseTable β :=
  ⟨f .inp t.inp, f .out t.out, f .frt t.frt, f .rad t.rad⟩

/-- All indices, in the order of the spec's table. -/
def PulseChannel.all : List PulseChannel := [.inp, .out, .frt, .rad]

/-- The nine sensor channels, 0 to 8 (02, section 2.1). -/
inductive Sensor where
  | drl | drr | hps | sup | chg | tbr | tcl | tsl | oil
  deriving DecidableEq, Repr

/-- One entry per sensor channel. -/
structure SensorTable (α : Type) where
  drl : α
  drr : α
  hps : α
  sup : α
  chg : α
  tbr : α
  tcl : α
  tsl : α
  oil : α
  deriving DecidableEq, Repr

/-- Every entry the same value. -/
def SensorTable.const (x : α) : SensorTable α := ⟨x, x, x, x, x, x, x, x, x⟩

def SensorTable.get (t : SensorTable α) : Sensor → α
  | .drl => t.drl
  | .drr => t.drr
  | .hps => t.hps
  | .sup => t.sup
  | .chg => t.chg
  | .tbr => t.tbr
  | .tcl => t.tcl
  | .tsl => t.tsl
  | .oil => t.oil

def SensorTable.set (t : SensorTable α) (i : Sensor) (x : α) : SensorTable α :=
  match i with
  | .drl => { t with drl := x }
  | .drr => { t with drr := x }
  | .hps => { t with hps := x }
  | .sup => { t with sup := x }
  | .chg => { t with chg := x }
  | .tbr => { t with tbr := x }
  | .tcl => { t with tcl := x }
  | .tsl => { t with tsl := x }
  | .oil => { t with oil := x }

/-- The table with `f` applied to every entry. -/
def SensorTable.map (f : Sensor → α → β) (t : SensorTable α) : SensorTable β :=
  ⟨f .drl t.drl, f .drr t.drr, f .hps t.hps, f .sup t.sup, f .chg t.chg, f .tbr t.tbr, f .tcl t.tcl, f .tsl t.tsl, f .oil t.oil⟩

/-- All indices, in the order of the spec's table. -/
def Sensor.all : List Sensor := [.drl, .drr, .hps, .sup, .chg, .tbr, .tcl, .tsl, .oil]

/-- The fifteen valve outputs, 0 to 14 (03, section 3.1). -/
inductive Output where
  | ca | cb | cc | cd | cl | cm | ch | cfw | crv | pkv | fdv | hrv | hlv | tcv | tsv
  deriving DecidableEq, Repr

/-- One entry per valve output. -/
structure OutputTable (α : Type) where
  ca : α
  cb : α
  cc : α
  cd : α
  cl : α
  cm : α
  ch : α
  cfw : α
  crv : α
  pkv : α
  fdv : α
  hrv : α
  hlv : α
  tcv : α
  tsv : α
  deriving DecidableEq, Repr

/-- Every entry the same value. -/
def OutputTable.const (x : α) : OutputTable α := ⟨x, x, x, x, x, x, x, x, x, x, x, x, x, x, x⟩

def OutputTable.get (t : OutputTable α) : Output → α
  | .ca => t.ca
  | .cb => t.cb
  | .cc => t.cc
  | .cd => t.cd
  | .cl => t.cl
  | .cm => t.cm
  | .ch => t.ch
  | .cfw => t.cfw
  | .crv => t.crv
  | .pkv => t.pkv
  | .fdv => t.fdv
  | .hrv => t.hrv
  | .hlv => t.hlv
  | .tcv => t.tcv
  | .tsv => t.tsv

def OutputTable.set (t : OutputTable α) (i : Output) (x : α) : OutputTable α :=
  match i with
  | .ca => { t with ca := x }
  | .cb => { t with cb := x }
  | .cc => { t with cc := x }
  | .cd => { t with cd := x }
  | .cl => { t with cl := x }
  | .cm => { t with cm := x }
  | .ch => { t with ch := x }
  | .cfw => { t with cfw := x }
  | .crv => { t with crv := x }
  | .pkv => { t with pkv := x }
  | .fdv => { t with fdv := x }
  | .hrv => { t with hrv := x }
  | .hlv => { t with hlv := x }
  | .tcv => { t with tcv := x }
  | .tsv => { t with tsv := x }

/-- The table with `f` applied to every entry. -/
def OutputTable.map (f : Output → α → β) (t : OutputTable α) : OutputTable β :=
  ⟨f .ca t.ca, f .cb t.cb, f .cc t.cc, f .cd t.cd, f .cl t.cl, f .cm t.cm, f .ch t.ch, f .cfw t.cfw, f .crv t.crv, f .pkv t.pkv, f .fdv t.fdv, f .hrv t.hrv, f .hlv t.hlv, f .tcv t.tcv, f .tsv t.tsv⟩

/-- All indices, in the order of the spec's table. -/
def Output.all : List Output := [.ca, .cb, .cc, .cd, .cl, .cm, .ch, .cfw, .crv, .pkv, .fdv, .hrv, .hlv, .tcv, .tsv]

/-- The two valve supply switches (R55). -/
inductive Supply where
  | vsa | vsb
  deriving DecidableEq, Repr

/-- One entry per supply switch. -/
structure SupplyTable (α : Type) where
  vsa : α
  vsb : α
  deriving DecidableEq, Repr

/-- Every entry the same value. -/
def SupplyTable.const (x : α) : SupplyTable α := ⟨x, x⟩

def SupplyTable.get (t : SupplyTable α) : Supply → α
  | .vsa => t.vsa
  | .vsb => t.vsb

def SupplyTable.set (t : SupplyTable α) (i : Supply) (x : α) : SupplyTable α :=
  match i with
  | .vsa => { t with vsa := x }
  | .vsb => { t with vsb := x }

/-- The table with `f` applied to every entry. -/
def SupplyTable.map (f : Supply → α → β) (t : SupplyTable α) : SupplyTable β :=
  ⟨f .vsa t.vsa, f .vsb t.vsb⟩

/-- All indices, in the order of the spec's table. -/
def Supply.all : List Supply := [.vsa, .vsb]

/-- The nine clutches in the order of the clutch table (R65). -/
inductive Clutch where
  | a | b | c | d | l | m | h | fwd | rev
  deriving DecidableEq, Repr

/-- One entry per clutch. -/
structure ClutchTable (α : Type) where
  a : α
  b : α
  c : α
  d : α
  l : α
  m : α
  h : α
  fwd : α
  rev : α
  deriving DecidableEq, Repr

/-- Every entry the same value. -/
def ClutchTable.const (x : α) : ClutchTable α := ⟨x, x, x, x, x, x, x, x, x⟩

def ClutchTable.get (t : ClutchTable α) : Clutch → α
  | .a => t.a
  | .b => t.b
  | .c => t.c
  | .d => t.d
  | .l => t.l
  | .m => t.m
  | .h => t.h
  | .fwd => t.fwd
  | .rev => t.rev

def ClutchTable.set (t : ClutchTable α) (i : Clutch) (x : α) : ClutchTable α :=
  match i with
  | .a => { t with a := x }
  | .b => { t with b := x }
  | .c => { t with c := x }
  | .d => { t with d := x }
  | .l => { t with l := x }
  | .m => { t with m := x }
  | .h => { t with h := x }
  | .fwd => { t with fwd := x }
  | .rev => { t with rev := x }

/-- The table with `f` applied to every entry. -/
def ClutchTable.map (f : Clutch → α → β) (t : ClutchTable α) : ClutchTable β :=
  ⟨f .a t.a, f .b t.b, f .c t.c, f .d t.d, f .l t.l, f .m t.m, f .h t.h, f .fwd t.fwd, f .rev t.rev⟩

/-- All indices, in the order of the spec's table. -/
def Clutch.all : List Clutch := [.a, .b, .c, .d, .l, .m, .h, .fwd, .rev]

/-- The nine published groups: 3, 6, 10, 14, 18, 24, 41, 44, 45 (10, section 10.3). -/
inductive Group where
  | torqueLimit | motion | gearbox | driveHitch | trailer | faultReport | serviceResult | identity | quietNotice
  deriving DecidableEq, Repr

/-- One entry per published group. -/
structure GroupTable (α : Type) where
  torqueLimit : α
  motion : α
  gearbox : α
  driveHitch : α
  trailer : α
  faultReport : α
  serviceResult : α
  identity : α
  quietNotice : α
  deriving DecidableEq, Repr

/-- Every entry the same value. -/
def GroupTable.const (x : α) : GroupTable α := ⟨x, x, x, x, x, x, x, x, x⟩

def GroupTable.get (t : GroupTable α) : Group → α
  | .torqueLimit => t.torqueLimit
  | .motion => t.motion
  | .gearbox => t.gearbox
  | .driveHitch => t.driveHitch
  | .trailer => t.trailer
  | .faultReport => t.faultReport
  | .serviceResult => t.serviceResult
  | .identity => t.identity
  | .quietNotice => t.quietNotice

def GroupTable.set (t : GroupTable α) (i : Group) (x : α) : GroupTable α :=
  match i with
  | .torqueLimit => { t with torqueLimit := x }
  | .motion => { t with motion := x }
  | .gearbox => { t with gearbox := x }
  | .driveHitch => { t with driveHitch := x }
  | .trailer => { t with trailer := x }
  | .faultReport => { t with faultReport := x }
  | .serviceResult => { t with serviceResult := x }
  | .identity => { t with identity := x }
  | .quietNotice => { t with quietNotice := x }

/-- The table with `f` applied to every entry. -/
def GroupTable.map (f : Group → α → β) (t : GroupTable α) : GroupTable β :=
  ⟨f .torqueLimit t.torqueLimit, f .motion t.motion, f .gearbox t.gearbox, f .driveHitch t.driveHitch, f .trailer t.trailer, f .faultReport t.faultReport, f .serviceResult t.serviceResult, f .identity t.identity, f .quietNotice t.quietNotice⟩

/-- All indices, in the order of the spec's table. -/
def Group.all : List Group := [.torqueLimit, .motion, .gearbox, .driveHitch, .trailer, .faultReport, .serviceResult, .identity, .quietNotice]

/-- The six consumed groups: 5, 8, 12, 13, 16, 40 (10, section 10.2). -/
inductive PeerGroup where
  | engine | brake | cabDrive | cabHitch | implement | service
  deriving DecidableEq, Repr

/-- Direction of a gear (R63): FORWARD uses clutch FWD, REVERSE clutch REV. -/
inductive Dir where
  | forward | reverse
  deriving DecidableEq, Repr

/-- A gear name: F`num` or RV`num` (R63). -/
structure Gear where
  dir : Dir
  num : Nat
  deriving DecidableEq, Repr

/-- The speed clutches A to D. -/
inductive SpeedClutch where
  | a | b | c | d
  deriving DecidableEq, Repr

/-- The range clutches L, M, H. -/
inductive RangeClutch where
  | l | m | h
  deriving DecidableEq, Repr

/-- A front drive mode (R100). -/
inductive FrontMode where
  | off | on | auto
  deriving DecidableEq, Repr

/-- The two headland sequences (R167). -/
inductive SeqKind where
  | entry | exit
  deriving DecidableEq, Repr

/-- A step's action with the value it carries (R167). -/
inductive HAction where
  | hitchRaise
  | hitchWork
  | frontMode (m : FrontMode)
  | shiftUp (n : Nat)
  | shiftDown (n : Nat)
  | slipControl (on : Bool)
  | wait
  deriving DecidableEq, Repr

/-- A step's trigger: DISTANCE in 0.1 m, TIME in 0.1 s (R167). -/
inductive Trigger where
  | immediate
  | distance (d : Nat)
  | time (t : Nat)
  deriving DecidableEq, Repr

/-- One step of a headland list (R167). -/
structure HStep where
  action : HAction
  trigger : Trigger
  deriving DecidableEq, Repr

/-- Section 1: station numbers (R188). -/
structure Stations where
  own : Nat
  engine : Nat
  brake : Nat
  cab : Nat
  implement : Nat
  service : Nat
  deriving DecidableEq, Repr

/-- Section 2, one channel: the configured constants of R1. -/
structure PulseCfg where
  perRev : Nat
  travelPer : Nat
  minSpacing : Nat
  deriving DecidableEq, Repr

/-- Section 3, one channel: the configured fields of R25. -/
structure SensorCfg where
  configured : Bool
  mainOrder : Nat
  mainOsr : Nat
  fastOrder : Nat
  fastOsr : Nat
  zero : Nat
  gain : Int
  highOn : Bool
  lowOn : Bool
  high : Int
  highHyst : Int
  low : Int
  lowHyst : Int
  deriving DecidableEq, Repr

/-- Section 4, one gear (R63). The direction clutch is that of the name (log 33). -/
structure GearEntry where
  gear : Gear
  speed : SpeedClutch
  range : RangeClutch
  ratio : Nat
  start : Bool
  auto : Bool
  deriving DecidableEq, Repr

/-- Section 5, one clutch: the configured fields of R65. -/
structure ClutchCfg where
  fillCurrent : Nat
  fillTime : Nat
  minFill : Nat
  maxFill : Nat
  touch : Nat
  take : Nat
  hold : Nat
  deriving DecidableEq, Repr

/-- The contents of the image's thirteen sections by named field (R207). The byte layout of a section
body is not in the spec: the command that reads the image carries its contents beside its bytes
(log 6). -/
structure Image where
  stations : Stations
  pulse : PulseTable PulseCfg
  radFitted : Bool
  sensors : SensorTable SensorCfg
  /-- the excitation pattern, bit 0 first, L bits (R40) -/
  pattern : List Bool
  aTop : Int
  aBottom : Int
  gears : List GearEntry
  clutches : ClutchTable ClutchCfg
  startGear : Gear
  /-- engage ramp in ms (R64, R84) -/
  engageRamp : Nat
  /-- torque limit in percent (R64, R74) -/
  torqueLimit : Nat
  lead : Nat
  draftSpan : Nat
  /-- the brake characteristic's points (R145) -/
  brakeCurve : List (Nat × Nat)
  /-- the trailer table's points (R145) -/
  trailerCurve : List (Nat × Nat)
  entry : List HStep
  exit : List HStep
  /-- maximum currents, read for proportional outputs only (R46) -/
  maxima : OutputTable Nat
  wakeThreshold : Nat
  pulsePitch : Nat
  deriving DecidableEq, Repr

/-- FREE INPUT (log 3): the bit that the sensor module of a channel places on its line at a modulator
clock, by channel number and index of the clock. -/
opaque Config.moduleBit : Nat → Nat → Bool

/-- FREE INPUT (log 81): whether the coil of an output is shorted when an acknowledgement re-arms it, by
output number and index of the modulator clock. -/
opaque Config.coilShorted : Nat → Nat → Bool

/-- FREE VALUE (log 10): the silicon revision byte of 44 IDENTITY, which the spec does not give. -/
opaque Config.siliconRevision : Byte

/-- FREE VALUE (log 17): the single-edge ceiling of R6 where no time at all has passed since the reference
and the manual's quotient divides by 0, by channel, whether it is the shaft's, and stamp. -/
opaque Config.noSilenceCeiling : PulseChannel → Bool → Stamp → Nat

end Sys2Proof
end

