-- ==== Sys2Proof/Syntax.lean ====
section
/-! DEFINITION. The commands of the part: one constructor per row of spec/opcode_table.json, in the
table's order. The operands are what the step must be told from outside (log 5). -/

namespace Sys2Proof

/-- What the sense timer finds at one coil: its current in mA, and whether the sense voltage stands
above the open level (R49, R51). -/
structure CoilSample where
  current : Nat
  senseHigh : Bool
  deriving DecidableEq, Repr

/-- The two draft pins (R137). -/
inductive DraftPin where
  | left | right
  deriving DecidableEq, Repr

inductive Instr where
  | powerOnReset (strap0 strap1 couplingClosed : Bool)
  | keyStateChange (on : Bool)
  | loadingComplete (bytes : List Byte) (image : Image)
  | calibratingComplete
  | keyOffTaken
  | quietOrder
  | quietTimeout
  | controlRestart
  | wake (strap0 strap1 couplingClosed : Bool)
  | couplingWake (couplingClosed : Bool)
  | linkWake
  | wakeTimeout
  | secondsTick
  | pulseEdge (channel : PulseChannel)
  | speedEvaluation
  | channelLost (channel : PulseChannel)
  | channelRecovered (channel : PulseChannel)
  | groundPulseTimer
  | groundPulseEnd
  | mainOutput (sensor : Sensor)
  | fastOutput (sensor : Sensor)
  | streamFailed (sensor : Sensor)
  | streamRecovery (sensor : Sensor)
  | excitationSlot
  | calibrationTimeout
  | recalibratePosition
  | senseTimer (samples : OutputTable CoilSample)
  | openDetected (output : Output)
  | openRecovered (output : Output)
  | shortTrip (output : Output)
  | retryTimerExpiry (output : Output)
  | deferredRetry (output : Output)
  | retrySuccess (output : Output)
  | pullInEnd (output : Output)
  | supplyRiseComplete (supply : Supply)
  | supplyFallComplete (supply : Supply) (couplingClosed : Bool)
  | grantSupEvent
  | shcControlInterval
  | cabShiftUp
  | cabShiftDown
  | cabSelect
  | fillComplete (clutch : Clutch)
  | torquePhaseEnd
  | syncReached
  | shiftTimeout
  | abortComplete
  | engageRampEnd
  | shuttleDrainEnd
  | driveAwayEnd
  | clutchDrainComplete (clutch : Clutch)
  | pedalHoldExpiry
  | autoShiftTimer
  | autoUp
  | autoDown
  | shcChgEvent
  | shcOilEvent
  | resetAdaptation
  | fdcControlInterval
  | fdcRelease
  | releasingComplete
  | engagingComplete
  | autoSlipClear
  | frontSlipRaise
  | frontSlipClear
  | fdcChgEvent
  | htcControlInterval (leftPressed rightPressed : Bool)
  | switchUp
  | switchDown
  | htcDraftEvent (pin : DraftPin)
  | htcHpsFailed
  | tbcControlInterval (couplingClosed : Bool)
  | couplingChange
  | chargeTimeout
  | supplyLowTimeout
  | supplyRecovered
  | brakeUnknown
  | brakeDisagree
  | brakeDisagreeClear
  | tbrStateEvent
  | tclEvent
  | tslEvent
  | hsqControlInterval
  | headlandStart
  | headlandCancel
  | distanceTrigger
  | timeTrigger
  | frameReceived (identifier : BitVec 11) (data : List Byte)
  | peerTimeout (group : PeerGroup)
  | periodTimer (group : Group)
  | torqueLimitTimer
  | transmitAttempt
  | attemptSuccess
  | arbitrationLost
  | attemptFailure
  | muteRecovery
  | listenWindowEnd
  | serviceRequestUnknown
  | faultAcknowledge
  | faultAck
  deriving DecidableEq, Repr

end Sys2Proof
end

