-- ==== Sys2Proof/Machine/State.lean ====
section
/-! DEFINITION. The state of the part as plain data, block by block, and its values after power-on
reset (R22, R45, R61, R99, R114, R143, R166, R178, R185, R204, R206). -/

namespace Sys2Proof.Machine

/-! ## SCU -/

/-- Motion state of a pulse channel (R1). -/
inductive MotionState where
  | stopped | moving
  deriving DecidableEq, Repr

/-- Reported state of a pulse channel (R1). -/
inductive Validity where
  | stopped | moving | lost
  deriving DecidableEq, Repr

/-- Ground source (R10). -/
inductive GroundSource where
  | none | radar | front
  deriving DecidableEq, Repr

/-- Slip validity (R12). -/
inductive SlipValidity where
  | unavailable | lowSpeed | valid
  deriving DecidableEq, Repr

/-- Direction of the motion record (R17). -/
inductive TravelDir where
  | unknown | forward | reverse
  deriving DecidableEq, Repr

/-- One pulse channel record (R1) without its configured constants, which stand in `State.cfg`. -/
structure PulseRec where
  refPresent : Bool
  refStamp : Stamp
  count : Nat
  newest : Stamp
  shaft : Nat
  travel : Nat
  motion : MotionState
  lost : Bool
  lossTimer : Nat
  recTimer : Nat
  deriving DecidableEq, Repr

/-- The motion record (R21). -/
structure MotionRec where
  vRear : Nat
  rearVal : Validity
  vFront : Nat
  frontVal : Validity
  vRadar : Nat
  radarVal : Validity
  radarFitted : Bool
  vGround : Nat
  source : GroundSource
  inpRpm : Nat
  inputVal : Validity
  outRpm : Nat
  slip : Int
  filtered : Int
  slipVal : SlipValidity
  standstill : Bool
  direction : TravelDir
  travel : BitVec 32
  deriving DecidableEq, Repr

structure Scu where
  chans : PulseTable PulseRec
  motion : MotionRec
  /-- the pulse accumulator in µm (R19) -/
  acc : Nat
  /-- the ground-speed pulse output (R20) -/
  pulseHigh : Bool
  /-- µs since the pulse began, 0 to 500 -/
  pulseAge : Nat
  deriving DecidableEq, Repr

def PulseRec.reset : PulseRec :=
  { refPresent := false, refStamp := 0, count := 0, newest := 0, shaft := 0, travel := 0,
    motion := .stopped, lost := false, lossTimer := 0, recTimer := 0 }

/-- R22; the radar-fitted flag is the configuration's. -/
def MotionRec.reset (radarFitted : Bool) : MotionRec :=
  { vRear := 0, rearVal := .stopped, vFront := 0, frontVal := .stopped, vRadar := 0,
    radarVal := .stopped, radarFitted := radarFitted, vGround := 0, source := .none, inpRpm := 0,
    inputVal := .stopped, outRpm := 0, slip := 0, filtered := 0, slipVal := .lowSpeed,
    standstill := true, direction := .unknown, travel := 0 }

def Scu.reset (radarFitted : Bool) : Scu :=
  { chans := .const .reset, motion := .reset radarFitted, acc := 0, pulseHigh := false,
    pulseAge := 0 }

/-! ## SFE -/

/-- State of a sensor channel (R25). -/
inductive ChannelState where
  | off | starting | valid | failed
  deriving DecidableEq, Repr

/-- Comparator state (R35, R36). -/
inductive CmpState where
  | inRange | high | low
  deriving DecidableEq, Repr

/-- Calibration state (R41). -/
inductive CalState where
  | notRun | running | done | failed
  deriving DecidableEq, Repr

/-- A sinc filter: its integrator sums and comb memories in order, and the clocks since its last
output (R28). -/
structure Sinc where
  sums : List Int
  combs : List Int
  clocks : Nat
  deriving DecidableEq, Repr

/-- One sensor channel record (R25) without its configured fields. `mainDone` and `fastDone` hold a raw
output completed by the clock and not yet taken by its step (log 2). -/
structure SensorRec where
  state : ChannelState
  value : Int
  atLimit : Bool
  discard : Nat
  cmp : CmpState
  runCount : Nat
  recCount : Nat
  lastBit : Option Bool
  main : Sinc
  fast : Sinc
  mainDone : Option Int
  fastDone : Option Int
  deriving DecidableEq, Repr

/-- The calibration record (R41). -/
structure CalRec where
  state : CalState
  offset : Option Nat
  start : Stamp
  signs : List Bool
  /-- the period in progress is being recorded (R42) -/
  recording : Bool
  /-- tag of the RECALIBRATE_POSITION that waits for its DONE (R44) -/
  tag : Option Byte
  deriving DecidableEq, Repr

structure Sfe where
  chans : SensorTable SensorRec
  cal : CalRec
  posValid : Bool
  /-- the pattern bit being driven (R40) -/
  slot : Nat
  /-- the slot value of the latest HPS fast output (R39) -/
  slotValue : Int
  /-- the amplitude of the demodulated period in progress (R43) -/
  amplitude : Option Int
  deriving DecidableEq, Repr

/-- A cleared filter of a given order (R28). -/
def Sinc.clear (order : Nat) : Sinc :=
  { sums := List.replicate order 0, combs := List.replicate order 0, clocks := 0 }

/-- A channel after reset: STARTING if configured, else OFF (R45). -/
def SensorRec.reset (c : SensorCfg) : SensorRec :=
  { state := if c.configured then .starting else .off, value := 0, atLimit := false, discard := 3,
    cmp := .inRange, runCount := 0, recCount := 0, lastBit := none, main := .clear c.mainOrder,
    fast := .clear c.fastOrder, mainDone := none, fastDone := none }

/-- R45; the calibration's start time, the sign list and the mark of a recorded period are the model's
(log 7, log 88). -/
def CalRec.reset : CalRec :=
  { state := .notRun, offset := none, start := 0, signs := [], recording := false, tag := none }

def Sfe.reset (c : SensorTable SensorCfg) : Sfe :=
  { chans := c.map fun _ x => .reset x, cal := .reset, posValid := false, slot := 0,
    slotValue := 0, amplitude := none }

/-! ## VDB -/

/-- Short stage of an output (R46). -/
inductive ShortStage where
  | none | retry | latched
  deriving DecidableEq, Repr

/-- Reported state of an output (R49). -/
inductive OutState where
  | disabled | off | on | openCoil | shortRetry | shortLatched
  deriving DecidableEq, Repr

/-- State of a supply switch (R55). -/
inductive SupplyState where
  | off | rising | enabled | falling
  deriving DecidableEq, Repr

/-- Cause of a suspended grant (R57). -/
inductive GrantCause where
  | lowPressure | supplyUnknown
  deriving DecidableEq, Repr

/-- One output record (R46). The command is in mA for a proportional output, 0 or 1 for OFF or ON of an
on/off output. Times in µs (log 14). The reported state is `OutRec.reported`. -/
structure OutRec where
  command : Nat
  withheld : Bool
  pullIn : Option Nat
  target : Nat
  measured : Nat
  openFlag : Bool
  openCount : Nat
  recCount : Nat
  short : ShortStage
  retries : Nat
  retryTimer : Nat
  window : Option Nat
  deriving DecidableEq, Repr

/-- One supply record (R55); settle timer in µs. -/
structure SupplyRec where
  state : SupplyState
  settle : Nat
  pendingOn : Bool
  deriving DecidableEq, Repr

/-- The hitch supply grant (R57): SUSPENDED exactly while a cause is present. -/
structure Grant where
  suspended : Bool
  cause : Option GrantCause
  count : Nat
  deriving DecidableEq, Repr

structure Vdb where
  outs : OutputTable OutRec
  supplies : SupplyTable SupplyRec
  grant : Grant
  deriving DecidableEq, Repr

def OutRec.reset : OutRec :=
  { command := 0, withheld := false, pullIn := none, target := 0, measured := 0, openFlag := false,
    openCount := 0, recCount := 0, short := .none, retries := 0, retryTimer := 0, window := none }

/-- R61; the table gives the settle timer no value, and the model takes 0 (log 88). -/
def SupplyRec.reset : SupplyRec := { state := .off, settle := 0, pendingOn := false }

def Grant.reset : Grant := { suspended := false, cause := none, count := 0 }

def Vdb.reset : Vdb := { outs := .const .reset, supplies := .const .reset, grant := .reset }

/-! ## SHC -/

/-- Gearbox state (R67). -/
inductive GearState where
  | parked | neutral | engaging | inGear | shifting | shuttling | faultHold
  deriving DecidableEq, Repr

/-- Phases of ENGAGING, SHIFTING and SHUTTLING (R67). -/
inductive Phase where
  | preselect | ramp | fill | torque | inertia | lockup | abort | drain | reverseBrake | driveAway
  deriving DecidableEq, Repr

/-- Kind of a shift and of a request (R67, R70). -/
inductive ShiftKind where
  | up | down
  deriving DecidableEq, Repr

/-- Direction lever (R67). -/
inductive Lever where
  | n | f | r | park
  deriving DecidableEq, Repr

/-- Origin of a request or refusal (R70, R71). -/
inductive Origin where
  | cab | headland | auto
  deriving DecidableEq, Repr

/-- Refusal reasons of the SHC (R71). -/
inductive ShcReason where
  | full | overspeed | lugging | noCharge | noGear | fault | speed | noEngine
  deriving DecidableEq, Repr

/-- Clutch states (R66). -/
inductive ClutchState where
  | off | filling | ramping | locked | draining
  deriving DecidableEq, Repr

/-- Adaptation marks (R81). -/
inductive Mark where
  | flare | tieUp
  deriving DecidableEq, Repr

/-- One entry of the request queue (R70). -/
structure QueueEntry where
  kind : ShiftKind
  steps : Nat
  origin : Origin
  deriving DecidableEq, Repr

/-- The working state of one clutch (R65). `value` is the phase value before the pedal cap (R88),
`command` what the SHC last wrote, `held` the time at fill current and `fillTime` the fill time in use in
ms (R73), `entryValue` the value at entry to ABORT (R80) or DRIVE_AWAY (R86). -/
structure ClutchRec where
  learned : Nat
  state : ClutchState
  value : Nat
  command : Nat
  drain : Option Nat
  adapted : Bool
  mark : Option Mark
  held : Nat
  fillTime : Nat
  entryValue : Nat
  deriving DecidableEq, Repr

/-- The shift controller: the drive state record (R67), the queue (R70), the clutch table (R65) and what
the rules count. -/
structure Shc where
  state : GearState
  phase : Option Phase
  kind : Option ShiftKind
  current : Option Gear
  target : Option Gear
  selected : Option Gear
  lever : Lever
  ignored : Option Lever
  pedal : Nat
  parkReleased : Bool
  pendingPark : Bool
  pendingShuttle : Bool
  auto : Bool
  rate : Nat
  torque : Option Nat
  queue : List QueueEntry
  lastRefusal : Option (ShcReason × Origin)
  refusals : BitVec 8
  overrun : Nat
  clutches : ClutchTable ClutchRec
  shuttleMap : List (Gear × Gear)
  /-- origin of the shift in flight (R72) -/
  shiftOrigin : Option Origin
  /-- intervals made in the phase -/
  interval : Nat
  /-- length of TORQUE in intervals, as fixed at its start and as in use (R74) -/
  torqueFixed : Nat
  torqueLen : Nat
  echoSeen : Bool
  sync : Nat
  /-- µs of the pedal hold timer (R94) -/
  pedalHold : Option Nat
  upCount : Nat
  downCount : Nat
  /-- the cab drive record was FRESH at the last interval (R94) -/
  cabFresh : Bool
  /-- OUT or INP was LOST at the last interval (R95) -/
  speedLost : Bool
  /-- the interval timer has just started (R68) -/
  starting : Bool
  /-- the park request as last tested (R90) -/
  parkForce : Bool
  /-- the MC's park order (R92) -/
  parkOrder : Bool
  /-- the gear whose PRESELECT goes on in NEUTRAL (R89) -/
  preselect : Option Gear
  deriving DecidableEq, Repr

/-- R99; the working values of a fill, a drain, an adaptation and an abort are 0 or absent (log 88). -/
def ClutchRec.reset (learned : Nat) : ClutchRec :=
  { learned := learned, state := .off, value := 0, command := 0, drain := none, adapted := false,
    mark := none, held := 0, fillTime := 0, entryValue := 0 }

/-- R99, with the learned fill times, the start gear and the shuttle map given. -/
def Shc.reset (learned : ClutchTable Nat) (start : Option Gear) (map : List (Gear × Gear)) : Shc :=
  { state := .parked, phase := none, kind := none, current := none, target := none,
    selected := start, lever := .park, ignored := none, pedal := 0, parkReleased := false,
    pendingPark := false, pendingShuttle := false, auto := false, rate := 8, torque := none,
    queue := [], lastRefusal := none, refusals := 0, overrun := 0,
    clutches := learned.map fun _ t => .reset t, shuttleMap := map, shiftOrigin := none,
    interval := 0, torqueFixed := 0, torqueLen := 0, echoSeen := false, sync := 0,
    pedalHold := none, upCount := 0, downCount := 0, cabFresh := false, speedLost := false,
    starting := false, parkForce := true, parkOrder := false, preselect := none }

/-! ## FDC -/

/-- State of the front axle (R100). -/
inductive FdcState where
  | engaged | releasing | released | engaging
  deriving DecidableEq, Repr

/-- Source of a mode in use (R100, R130). -/
inductive ModeSource where
  | cab | headland
  deriving DecidableEq, Repr

/-- The reason set as ten flags in the order of the table of 05, section 5.4. -/
structure Reasons where
  modeOn : Bool
  autoSpeed : Bool
  autoSlip : Bool
  braking : Bool
  brakeUnmeasured : Bool
  lowCharge : Bool
  shuttle : Bool
  standstill : Bool
  fault : Bool
  start : Bool
  deriving DecidableEq, Repr

/-- The front drive record (R100). -/
structure Fdc where
  state : FdcState
  time : Nat
  reasons : Reasons
  mode : FrontMode
  source : ModeSource
  cabSeen : Option FrontMode
  empty : Nat
  slipClear : Nat
  deviation : Nat
  agreement : Nat
  fdvOn : Bool
  deriving DecidableEq, Repr

def Reasons.none : Reasons := ⟨false, false, false, false, false, false, false, false, false, false⟩

def Fdc.reset : Fdc :=
  { state := .engaged, time := 0, reasons := { Reasons.none with start := true }, mode := .on,
    source := .cab, cabSeen := .none, empty := 0, slipClear := 0, deviation := 0, agreement := 0,
    fdvOn := false }

/-! ## HTC -/

/-- Hitch state (R115). -/
inductive HitchState where
  | startLock | held | raising | transport | working | fender | faultHold
  deriving DecidableEq, Repr

inductive HoldCause where
  | fender | cabLost | sourceLost | stop | fault
  deriving DecidableEq, Repr

inductive FaultCause where
  | position | valve
  deriving DecidableEq, Repr

inductive DepthSource where
  | cab | implement
  deriving DecidableEq, Repr

/-- The cab values (R122). -/
structure CabValues where
  lever : Nat
  mix : Nat
  dropRate : Nat
  upper : Nat
  slipLimit : Nat
  slipControl : Bool
  damping : Bool
  authority : Bool
  deriving DecidableEq, Repr

/-- One fender button: the settled state (pressed or not), absent until settled, and the line as last
read (R127). -/
structure Button where
  settled : Option Bool
  last : Option Bool
  deriving DecidableEq, Repr

/-- The hitch record (R115). -/
structure Htc where
  state : HitchState
  holdCause : Option HoldCause
  faultCause : Option FaultCause
  lockReleased : Bool
  position : Int
  posValid : Bool
  draft : Int
  draftValid : Bool
  source : DepthSource
  depth : Nat
  cab : CabValues
  leverRef : Option Nat
  slipOn : Bool
  slipSource : ModeSource
  cabSlipSeen : Option Bool
  mixed : Option Int
  slipOverride : Bool
  pinLeft : Bool
  pinRight : Bool
  overload : Bool
  dAvg : Int
  reload : Bool
  damping : Bool
  left : Button
  right : Button
  refused : Bool
  hrv : Nat
  hlv : Nat
  /-- the cab hitch record was FRESH at the last interval (R122) -/
  cabFresh : Bool
  /-- either draft pin was FAILED at the last interval (R136) -/
  pinFailed : Bool
  deriving DecidableEq, Repr

/-- R143; position, draft and pin high flags are those of an SFE at its own reset values (R45, R137). -/
def Htc.reset : Htc :=
  { state := .startLock, holdCause := none, faultCause := none, lockReleased := false,
    position := 0, posValid := false, draft := 0, draftValid := false, source := .cab, depth := 0,
    cab := { lever := 0, mix := 0, dropRate := 1, upper := 1000, slipLimit := 400,
             slipControl := false, damping := false, authority := false },
    leverRef := none, slipOn := false, slipSource := .cab, cabSlipSeen := none, mixed := none,
    slipOverride := false, pinLeft := false, pinRight := false, overload := false, dAvg := 0,
    reload := true, damping := false, left := ⟨none, none⟩, right := ⟨none, none⟩,
    refused := false, hrv := 0, hlv := 0, cabFresh := false, pinFailed := false }

/-! ## TBC -/

/-- Trailer state (R144). -/
inductive TrailerState where
  | absent | charging | ready | parked | supplyFault | breakaway
  deriving DecidableEq, Repr

inductive BrakeSource where
  | none | station | own
  deriving DecidableEq, Repr

inductive Contributor where
  | none | brake | overrun | shuttle
  deriving DecidableEq, Repr

/-- The trailer record (R144). `brake` absent is UNKNOWN; brake source `own` is LOCAL. -/
structure Tbc where
  state : TrailerState
  coupled : Bool
  samples : Nat
  brake : Option Nat
  brakeSource : BrakeSource
  disagree : Nat
  agree : Nat
  unknown : Nat
  demand : Nat
  contributor : Contributor
  tcl : Int
  tclState : ChannelState
  tsl : Int
  tslState : ChannelState
  correction : Int
  overpressure : Bool
  supplyLow : Bool
  timer : Nat
  lowTimer : Nat
  stopOrder : Bool
  tcv : Nat
  tsvOn : Bool
  /-- the station value at the last interval (R147) -/
  station : Option Nat
  deriving DecidableEq, Repr

/-- R166, with the coupling line and the SFE's TCL and TSL given. No interval has read the station, so no
station value stands (log 86). -/
def Tbc.reset (coupled : Bool) (tcl tsl : SensorRec) : Tbc :=
  { state := .parked, coupled := coupled, samples := 0, brake := none, brakeSource := .none,
    disagree := 0, agree := 0, unknown := 0, demand := 0, contributor := .none, tcl := tcl.value,
    tclState := tcl.state, tsl := tsl.value, tslState := tsl.state, correction := 0,
    overpressure := tcl.cmp == .high, supplyLow := tsl.state != .valid || tsl.cmp == .low, timer := 0,
    lowTimer := 0, stopOrder := false, tcv := 0, tsvOn := false, station := none }

/-! ## HSQ -/

inductive RunState where
  | idle | running | done | aborted
  deriving DecidableEq, Repr

inductive AbortCause where
  | cancel | cabRequest | lever | shuttle | mode
  deriving DecidableEq, Repr

/-- Reasons an HTC step is refused (R129). -/
inductive HtcReason where
  | fault | locked | busyLocal | stale
  deriving DecidableEq, Repr

/-- The reason of a refused step (R173). -/
inductive StepReason where
  | shc (r : ShcReason)
  | htc (r : HtcReason)
  deriving DecidableEq, Repr

/-- A step of a run: kind, index, action (R168). -/
structure StepRef where
  kind : SeqKind
  index : Nat
  action : HAction
  deriving DecidableEq, Repr

/-- The run record (R168). -/
structure Hsq where
  state : RunState
  kind : Option SeqKind
  stepCount : Nat
  index : Nat
  trigStart : Option (BitVec 32)
  progress : Nat
  nextKind : SeqKind
  cause : Option AbortCause
  lastRefused : Option (StepRef × StepReason)
  lastShift : Option StepRef
  refusalsSeen : BitVec 8
  frontSeen : Option FrontMode
  slipSeen : Option Bool
  leverRef : Option Nat
  /-- the cab hitch record was FRESH at the last interval of the run (R176) -/
  hitchFresh : Bool
  deriving DecidableEq, Repr

/-- R178. -/
def Hsq.reset : Hsq :=
  { state := .idle, kind := none, stepCount := 0, index := 0, trigStart := none, progress := 0,
    nextKind := .entry, cause := none, lastRefused := none, lastShift := none, refusalsSeen := 0,
    frontSeen := none, slipSeen := none, leverRef := none, hitchFresh := false }

/-! ## LC -/

inductive LinkState where
  | offline | listen | active | muted | conflict
  deriving DecidableEq, Repr

inductive Freshness where
  | absent | fresh | stale
  deriving DecidableEq, Repr

/-- The cab's shift command (R205). -/
inductive ShiftCmd where
  | up | down | select (g : Option Gear)
  deriving DecidableEq, Repr

/-- 5 ENGINE STATE as filed (R190). -/
structure EngineFields where
  speed : Nat
  torque : Nat
  echo : Nat
  deriving DecidableEq, Repr

/-- 8 BRAKE STATE as filed (R190). -/
structure BrakeFields where
  left : Nat
  right : Nat
  park : Bool
  deriving DecidableEq, Repr

/-- 12 CAB DRIVE REQUEST as filed (R191, R205): the level fields, then the edge-type fields, the shift
command, the gear of a SELECT and the headland command as their codes. -/
structure CabDriveFields where
  lever : Lever
  pedal : Nat
  auto : Bool
  aggressiveness : Nat
  front : Nat
  shift : Nat
  select : Nat
  headland : Nat
  acknowledge : Bool
  deriving DecidableEq, Repr

/-- 13 CAB HITCH REQUEST as filed (R191, R205): the level fields, on/off fields as their two-bit code, then
the edge-type up/down switch as its code. -/
structure CabHitchFields where
  lever : Nat
  mix : Nat
  dropRate : Nat
  upper : Nat
  slipLimit : Nat
  slipControl : Nat
  damping : Nat
  authority : Nat
  switch : Nat
  deriving DecidableEq, Repr

/-- 16 IMPLEMENT HITCH REQUEST as filed (R190). -/
structure ImplementFields where
  position : Nat
  positionMode : Bool
  deriving DecidableEq, Repr

/-- 40 SERVICE REQUEST as filed (R190). -/
structure ServiceFields where
  code : Byte
  tag : Byte
  deriving DecidableEq, Repr

/-- A peer record (R191); time since last frame in µs, saturating at 65,535 ms. -/
structure Peer (α : Type) where
  values : Option α
  fresh : Freshness
  since : Nat
  lastActed : Option (BitVec 4)
  deriving DecidableEq, Repr

/-- One queued frame (R198, R199). -/
structure TxEntry where
  group : Group
  data : List Byte
  attempting : Bool
  replaced : Bool
  deriving DecidableEq, Repr

/-- An attempt on the bus (R199). -/
structure Attempt where
  group : Group
  data : List Byte
  deriving DecidableEq, Repr

/-- The station numbers in use (R188, R208): a group without a source is filed from no station. -/
structure Sources where
  own : Nat
  engine : Option Nat
  brake : Option Nat
  cab : Option Nat
  implement : Option Nat
  service : Option Nat
  deriving DecidableEq, Repr

structure Lc where
  link : LinkState
  /-- µs in LISTEN -/
  listen : Nat
  queue : List TxEntry
  attempt : Option Attempt
  errors : Nat
  /-- µs of the mute timer -/
  muteTimer : Nat
  received : Nat
  engine : Peer EngineFields
  brake : Peer BrakeFields
  cabDrive : Peer CabDriveFields
  cabHitch : Peer CabHitchFields
  implement : Peer ImplementFields
  service : Peer ServiceFields
  sendCounts : GroupTable (BitVec 4)
  motionPage : Nat
  drivePage : Nat
  cursor : Nat
  quiet : Bool
  /-- µs since the quiet order while quiet has not been reported (R203) -/
  quietTimer : Option Nat
  /-- in CONFLICT: frames are taken (R200) -/
  conflictTakes : Bool
  sources : Sources
  deriving DecidableEq, Repr

/-- R204; the time since the last frame is 0 (log 7). -/
def Peer.absent (α : Type) : Peer α := { values := none, fresh := .absent, since := 0, lastActed := none }

/-- Station 31, with which no consumed group has a source (R208). -/
def Sources.station31 : Sources :=
  { own := 31, engine := none, brake := none, cab := none, implement := none, service := none }

/-- R204; the attempt on the bus and the station numbers are given, and the listen time, which no table
gives, is 0 (log 88). -/
def Lc.reset (attempt : Option Attempt) (sources : Sources) : Lc :=
  { link := .offline, listen := 0, queue := [], attempt := attempt, errors := 0, muteTimer := 0,
    received := 0, engine := .absent _, brake := .absent _, cabDrive := .absent _,
    cabHitch := .absent _, implement := .absent _, service := .absent _,
    sendCounts := .const 0, motionPage := 0, drivePage := 0, cursor := 0, quiet := false,
    quietTimer := none, conflictTakes := true, sources := sources }

/-! ## MC -/

/-- The fault codes (R187). -/
inductive FaultCode where
  | lost (c : PulseChannel)
  | stream (s : Sensor)
  | outOpen (o : Output)
  | outShort (o : Output)
  | engineStale | brakeStale | cabDriveStale | cabHitchStale | implementStale
  | stationConflict | linkMuted
  | cfgInvalid | hpsCalFailed
  | brakeDisagree | brakeUnknown | frontSlip
  | shiftTimeout | chargeLow | oilHot
  | draftUnavailable
  | tclFailed | tclOverpressure | trailerSupplyLost | trailerBreakaway | trailerChargeFailed
  deriving DecidableEq, Repr

/-- One fault entry (R179). Severity follows from the code, state from condition and latch. -/
structure FaultEntry where
  code : FaultCode
  present : Bool
  latched : Bool
  count : Nat
  first : Nat
  last : Nat
  deriving DecidableEq, Repr

/-- Operating modes (R206). -/
inductive Mode where
  | loading | limp | calibrating | operating | restarting | stopping | dormant | awakeNoKey
  deriving DecidableEq, Repr

/-- The step of the sequence in progress, named by what the MC waits for (R209, R210, R212). -/
inductive SeqStep where
  | idle
  | calVsa | calVsb
  | parkWait | quietWait | stopVsb | stopVsa
  | offVsb | offVsa | onVsa | onVsb
  deriving DecidableEq, Repr

structure Mc where
  mode : Mode
  slot : Nat
  version : Nat
  /-- ON is true; absent until the line has first held one level for 20 ms (R206) -/
  key : Option Bool
  keyOffPending : Bool
  step : SeqStep
  /-- µs of the wake timer (R211) -/
  wakeTimer : Nat
  faults : List FaultEntry
  full : Bool
  seconds : Nat
  /-- the LC has reported the end of its window (R200, R209) -/
  windowEnded : Bool
  /-- tag of the accepted CONTROL_RESTART (R212) -/
  restartTag : Option Byte
  /-- this LOADING follows a power-on reset, not a wake (R99) -/
  cold : Bool
  deriving DecidableEq, Repr

/-- R185, R206 at power-on reset; no rule gives the wake timer a value before AWAKE_NO_KEY, and the model
takes 0 (log 88). -/
def Mc.powerOn (slot : Nat) : Mc :=
  { mode := .loading, slot := slot, version := 0, key := none, keyOffPending := false, step := .idle,
    wakeTimer := 0, faults := [], full := false, seconds := 0, windowEnded := false,
    restartTag := none, cold := true }

/-! ## The whole part -/

/-- The blocks that take SFE events (R33, R38). -/
inductive Owner where
  | vdb | shc | fdc | htc | tbc
  deriving DecidableEq, Repr

/-- State events and comparator events (R33, R35, R36). -/
inductive SfeEvent where
  | failed | starting | valid | highEnter | highLeave | lowEnter | lowLeave
  deriving DecidableEq, Repr

/-- An SFE event delivered to one owner and not yet taken (R38); `value` is the fast value of a
comparator event, 0 for a state event. -/
structure Delivery where
  owner : Owner
  sensor : Sensor
  event : SfeEvent
  value : Int
  deriving DecidableEq, Repr

/-- A request event delivered by the LC and not yet taken by its owner (R193). -/
inductive Request where
  | shift (cmd : ShiftCmd)
  | hitchSwitch (up : Bool)
  | headland (start : Bool)
  | acknowledge
  | service (code tag : Byte)
  deriving DecidableEq, Repr

/-- The lines read by the part, as last presented (00_scope.md, Signal lines). -/
structure Pins where
  keyOn : Bool
  coupling : Bool
  fenderLeft : Bool
  fenderRight : Bool
  strap0 : Bool
  strap1 : Bool
  deriving DecidableEq, Repr

structure State where
  /-- the free-running microsecond count -/
  now : Stamp
  /-- modulator clocks into the present microsecond, 0 to 4 (log 2) -/
  sub : Nat
  /-- index of the next modulator clock (log 3) -/
  clock : Nat
  pins : Pins
  cfg : Image
  scu : Scu
  sfe : Sfe
  vdb : Vdb
  shc : Shc
  fdc : Fdc
  htc : Htc
  tbc : Tbc
  hsq : Hsq
  lc : Lc
  mc : Mc
  events : List Delivery
  requests : List Request
  pending : List Instr
  deriving DecidableEq, Repr

/-- No command makes the part stop: what the manual calls a fault is an entry of the fault table, and a
step that meets one answers a next state (R179). So no reason to fault exists. -/
inductive Fault where
  deriving DecidableEq, Repr

/-- Reasons a command has no meaning. -/
inductive Refusal where
  /-- raised by `exec` for a row that has no meaning yet (none of this model); safe -/
  | notModelled (mnemonic : String)
  deriving DecidableEq, Repr

/-- What the blocks hold before an image is loaded: nothing is configured (log 8). -/
def blankImage : Image :=
  { stations := ⟨0, 0, 0, 0, 0, 0⟩
    pulse := .const ⟨0, 0, 0⟩
    radFitted := false
    sensors := .const ⟨false, 0, 0, 0, 0, 0, 0, false, false, 0, 0, 0, 0⟩
    pattern := []
    aTop := 0
    aBottom := 0
    gears := []
    clutches := .const ⟨0, 0, 0, 0, 0, 0, 0⟩
    startGear := ⟨.forward, 1⟩
    engageRamp := 0
    torqueLimit := 0
    lead := 0
    draftSpan := 0
    brakeCurve := []
    trailerCurve := []
    entry := []
    exit := []
    maxima := .const 0
    wakeThreshold := 3
    pulsePitch := 0 }

/-- The state right after a power-on reset made with the lines as given: every block at its reset
values and the mode LOADING (R206). -/
def State.powerOn (pins : Pins) : State :=
  { now := 0, sub := 0, clock := 0, pins := pins, cfg := blankImage
    scu := .reset false
    sfe := .reset blankImage.sensors
    vdb := .reset
    shc := .reset (.const 0) none []
    fdc := .reset
    htc := .reset
    tbc := .reset pins.coupling (.reset blankImage.sensors.tcl) (.reset blankImage.sensors.tsl)
    hsq := .reset
    lc := .reset none .station31
    mc := .powerOn ((if pins.strap0 then 1 else 0) + (if pins.strap1 then 2 else 0))
    events := [], requests := [], pending := [] }

/-- The state right after power-on reset with the key off, the coupling open, the buttons released and
both straps low (log 7). -/
def State.reset : State :=
  .powerOn { keyOn := false, coupling := false, fenderLeft := false, fenderRight := false,
             strap0 := false, strap1 := false }

end Sys2Proof.Machine
end

