-- ==== Sys2Proof/Machine/Ops.lean ====
section
/-! DEFINITION. The named operations every family uses: replacing a block of the state, the fault table
(R179 to R185), and the events and requests on their way to an owner (R33, R38, R193). -/

namespace Sys2Proof

/-- The number of a sensor channel (02, section 2.1). -/
def Sensor.number : Sensor → Nat
  | .drl => 0 | .drr => 1 | .hps => 2 | .sup => 3 | .chg => 4 | .tbr => 5 | .tcl => 6 | .tsl => 7
  | .oil => 8

/-- The number of an output (03, section 3.1). -/
def Output.number : Output → Nat
  | .ca => 0 | .cb => 1 | .cc => 2 | .cd => 3 | .cl => 4 | .cm => 5 | .ch => 6 | .cfw => 7
  | .crv => 8 | .pkv => 9 | .fdv => 10 | .hrv => 11 | .hlv => 12 | .tcv => 13 | .tsv => 14

/-- The owners of a channel (02, section 2.1). -/
def Sensor.owners : Sensor → List Machine.Owner
  | .drl | .drr | .hps => [.htc]
  | .sup => [.vdb]
  | .chg => [.shc, .fdc]
  | .tbr | .tcl | .tsl => [.tbc]
  | .oil => [.shc]

end Sys2Proof

namespace Sys2Proof.Machine

/-! ## Replacing a block -/

def State.withScu (s : State) (x : Scu) : State := { s with scu := x }
def State.withSfe (s : State) (x : Sfe) : State := { s with sfe := x }
def State.withVdb (s : State) (x : Vdb) : State := { s with vdb := x }
def State.withShc (s : State) (x : Shc) : State := { s with shc := x }
def State.withFdc (s : State) (x : Fdc) : State := { s with fdc := x }
def State.withHtc (s : State) (x : Htc) : State := { s with htc := x }
def State.withTbc (s : State) (x : Tbc) : State := { s with tbc := x }
def State.withHsq (s : State) (x : Hsq) : State := { s with hsq := x }
def State.withLc (s : State) (x : Lc) : State := { s with lc := x }
def State.withMc (s : State) (x : Mc) : State := { s with mc := x }
def State.withEvents (s : State) (x : List Delivery) : State := { s with events := x }
def State.withRequests (s : State) (x : List Request) : State := { s with requests := x }
def State.withPins (s : State) (x : Pins) : State := { s with pins := x }
def State.withCfg (s : State) (x : Image) : State := { s with cfg := x }

/-! ## Which blocks run in a mode (11, the table of modes) -/

/-- The control interval timers of SHC, FDC, HTC and TBC run (R68, R101, R116, R146). -/
def Mode.controllersRun (m : Mode) : Bool := m == .operating || m == .stopping

/-- The SCU and the SFE run (R4, R27). -/
def Mode.sensingRuns (m : Mode) : Bool :=
  m == .calibrating || m == .operating || m == .restarting || m == .stopping

/-- The HSQ's control interval timer runs (R169). -/
def Mode.headlandRuns (m : Mode) : Bool := m == .operating

/-- The LC delivers request events (R193). -/
def Mode.delivers (m : Mode) : Bool :=
  m == .calibrating || m == .operating || m == .restarting || m == .stopping || m == .awakeNoKey

/-! ## The fault table -/

/-- The number of a code (R187). -/
def FaultCode.number : FaultCode → Nat
  | .lost .inp => 1 | .lost .out => 2 | .lost .frt => 3 | .lost .rad => 4
  | .stream x => 16 + Sensor.number x
  | .outOpen o => 32 + Output.number o
  | .outShort o => 48 + Output.number o
  | .engineStale => 64 | .brakeStale => 65 | .cabDriveStale => 66 | .cabHitchStale => 67
  | .implementStale => 68
  | .stationConflict => 80 | .linkMuted => 81
  | .cfgInvalid => 96 | .hpsCalFailed => 97
  | .brakeDisagree => 112 | .brakeUnknown => 113 | .frontSlip => 114
  | .shiftTimeout => 128 | .chargeLow => 129 | .oilHot => 130
  | .draftUnavailable => 144
  | .tclFailed => 160 | .tclOverpressure => 161 | .trailerSupplyLost => 162
  | .trailerBreakaway => 163 | .trailerChargeFailed => 164

/-- Severities (R179). -/
inductive Severity where
  | info | degraded | stop
  deriving DecidableEq, Repr

/-- The severity of a code (R187). -/
def FaultCode.severity : FaultCode → Severity
  | .cfgInvalid | .trailerBreakaway => .stop
  | .implementStale | .brakeDisagree | .frontSlip | .oilHot => .info
  | _ => .degraded

/-- ACTIVE while the condition is present or the latch is set, STORED otherwise (R179). -/
def FaultEntry.active (e : FaultEntry) : Bool := e.present || e.latched

/-- The table with its full flag. -/
structure FaultTable where
  entries : List FaultEntry
  full : Bool
  deriving DecidableEq, Repr

/-- The table holds no more entries than this (R179). -/
def maxFaults : Nat := 16

/-- Applies `f` to the entry of `code`, if the table holds one. -/
def updateEntry (code : FaultCode) (f : FaultEntry → FaultEntry) (t : List FaultEntry) :
    List FaultEntry :=
  t.map fun e => if e.code = code then f e else e

/-- The list without its earliest STORED entry (R183). -/
def dropStored : List FaultEntry → List FaultEntry
  | [] => []
  | e :: t => if e.active then e :: dropStored t else t

/-- A raise (R181, R183). -/
def FaultTable.raise (t : FaultTable) (code : FaultCode) (latch : Bool) (seconds : Nat) : FaultTable :=
  let fresh : FaultEntry :=
    { code := code, present := true, latched := latch, count := 1, first := seconds, last := seconds }
  if t.entries.any fun e => e.code = code then
    { t with entries := updateEntry code (fun e =>
        { e with present := true, latched := e.latched || latch, count := min 255 (e.count + 1),
                 last := seconds }) t.entries }
  else if t.entries.length < maxFaults then { t with entries := t.entries ++ [fresh] }
  else if t.entries.any fun e => !e.active then
    { entries := dropStored t.entries ++ [fresh], full := false }
  else { t with full := true }

/-- A clear (R182). -/
def FaultTable.clear (t : FaultTable) (code : FaultCode) : FaultTable :=
  { t with entries := updateEntry code (fun e => { e with present := false }) t.entries }

/-- A mark as latched without a raise (R182). -/
def FaultTable.latch (t : FaultTable) (code : FaultCode) : FaultTable :=
  { t with entries := updateEntry code (fun e => { e with latched := true }) t.entries }

/-- Step 1 of an acknowledgement: every latch is cleared (R184). -/
def FaultTable.unlatch (t : FaultTable) : FaultTable :=
  { t with entries := t.entries.map fun e => { e with latched := false } }

/-- Step 3 of an acknowledgement: every STORED entry leaves the table (R184); the full flag is cleared
when one does (R183). -/
def FaultTable.sweep (t : FaultTable) : FaultTable :=
  { entries := t.entries.filter FaultEntry.active,
    full := t.full && t.entries.all FaultEntry.active }

/-- The wake values of the table (R185). -/
def FaultTable.wake (t : FaultTable) : FaultTable :=
  { entries := t.entries.map fun e => { e with present := false, latched := false, first := 0, last := 0 },
    full := false }

/-- The MC's fault table. -/
def State.faultTable (s : State) : FaultTable := { entries := s.mc.faults, full := s.mc.full }

def State.withFaults (s : State) (t : FaultTable) : State :=
  s.withMc { s.mc with faults := t.entries, full := t.full }

/-- An owner raises a code. -/
def raise (code : FaultCode) (s : State) : State :=
  s.withFaults (s.faultTable.raise code false s.mc.seconds)

/-- An owner raises a code latched. -/
def raiseLatched (code : FaultCode) (s : State) : State :=
  s.withFaults (s.faultTable.raise code true s.mc.seconds)

/-- An owner clears a code. -/
def clearFault (code : FaultCode) (s : State) : State := s.withFaults (s.faultTable.clear code)

/-- An owner marks a code latched. -/
def latchFault (code : FaultCode) (s : State) : State := s.withFaults (s.faultTable.latch code)

/-- The table holds an entry of the code whose condition is present. -/
def State.faultPresent (s : State) (code : FaultCode) : Bool :=
  s.mc.faults.any fun e => e.code = code && e.present

/-- The number of ACTIVE entries (R186). -/
def State.activeCount (s : State) : Nat := (s.mc.faults.filter FaultEntry.active).length

/-! ## Events and requests on their way -/

/-- The owner takes SFE events in this mode: the controllers while their timers run (R68, R101, R116,
R146), the grant of the VDB while the SFE runs (R27, R211). -/
def Owner.takes (o : Owner) (m : Mode) : Bool :=
  match o with
  | .vdb => m.sensingRuns
  | _ => m.controllersRun

/-- Delivers an event of a channel to every owner that takes events now, behind the earlier ones (R33,
R38). -/
def deliver (x : Sensor) (ev : SfeEvent) (value : Int) (s : State) : State :=
  s.withEvents (s.events ++
    ((x.owners.filter fun o => o.takes s.mc.mode).map fun o => ⟨o, x, ev, value⟩))

/-- The first element that satisfies `p`, and the list without it. -/
def takeFirst (p : α → Bool) : List α → Option (α × List α)
  | [] => none
  | a :: l =>
    if p a then some (a, l)
    else match takeFirst p l with
      | some (b, rest) => some (b, a :: rest)
      | none => none

/-- The oldest event of a channel on its way to an owner: events of one channel are taken in the order
the SFE produced them (R38). -/
def takeEvent (o : Owner) (x : Sensor) (s : State) : Option (SfeEvent × State) :=
  match takeFirst (fun d : Delivery => d.owner = o && d.sensor = x) s.events with
  | some (d, rest) => some (d.event, s.withEvents rest)
  | none => none

/-- The oldest request that satisfies `p`. -/
def takeRequest (p : Request → Bool) (s : State) : Option (Request × State) :=
  match takeFirst p s.requests with
  | some (r, rest) => some (r, s.withRequests rest)
  | none => none

/-- When the controllers' timers stop, what was on its way to them is not taken (R68, R116, R146, R169,
R193); acknowledgements and service requests stay. -/
def dropUntaken (s : State) : State :=
  (s.withEvents (s.events.filter fun d => d.owner = .vdb)).withRequests
    (s.requests.filter fun r => match r with
      | .acknowledge | .service _ _ => true
      | _ => false)

end Sys2Proof.Machine
end

