-- ==== Sys2Proof/Machine/Flags.lean ====
section
/-! DEFINITION. The conditions the chapters compute from records of other blocks, as they stand. -/

namespace Sys2Proof

/-- The supply of an output (03, section 3.1). -/
def Output.supply : Output → Supply
  | .hrv | .hlv | .tcv | .tsv => .vsb
  | _ => .vsa

/-- PKV, FDV and TSV are on/off outputs, the others proportional (03, section 3.1). -/
def Output.onOff : Output → Bool
  | .pkv | .fdv | .tsv => true
  | _ => false

/-! ## Gears -/

/-- The entry of a gear in the gear table. -/
def Image.entryOf (c : Image) (g : Gear) : Option GearEntry := c.gears.find? fun e => e.gear = g

/-- The ratio of a gear, 0 for a gear the table does not hold. -/
def Image.ratioOf (c : Image) (g : Gear) : Nat :=
  match c.entryOf g with
  | some e => e.ratio
  | none => 0

/-- "The gears of a direction": its entries in order of name (R63). -/
def Image.gearsOf (c : Image) (d : Dir) : List GearEntry :=
  (List.range 13).filterMap fun n => c.entryOf ⟨d, n⟩

/-- The direction clutch of a gear's direction (R63). -/
def Dir.clutch : Dir → Clutch
  | .forward => .fwd
  | .reverse => .rev

def SpeedClutch.clutch : SpeedClutch → Clutch
  | .a => .a | .b => .b | .c => .c | .d => .d

def RangeClutch.clutch : RangeClutch → Clutch
  | .l => .l | .m => .m | .h => .h

/-- The output a clutch is driven by (R65). -/
def Clutch.output : Clutch → Output
  | .a => .ca | .b => .cb | .c => .cc | .d => .cd | .l => .cl | .m => .cm | .h => .ch
  | .fwd => .cfw | .rev => .crv

/-- The lever position of a direction. -/
def Dir.lever : Dir → Machine.Lever
  | .forward => .f
  | .reverse => .r

end Sys2Proof

namespace Sys2Proof.Machine

/-! ## Outputs -/

/-- The supply of the output is ENABLED. -/
def Vdb.powered (v : Vdb) (o : Output) : Bool := (v.supplies.get o.supply).state == .enabled

/-- A condition of R48 holds, so the drive target is 0. -/
def Vdb.blocked (v : Vdb) (o : Output) : Bool :=
  let r := v.outs.get o
  !v.powered o || r.short == .latched || (r.short == .retry && r.window.isNone) || r.withheld

/-- The reported state (R49). -/
def Vdb.reported (v : Vdb) (o : Output) : OutState :=
  let r := v.outs.get o
  if r.short = .latched then .shortLatched
  else if !v.powered o then .disabled
  else if r.short = .retry then .shortRetry
  else if r.openFlag then .openCoil
  else if r.target ≠ 0 then .on
  else .off

/-- OPEN, SHORT_RETRY or SHORT_LATCHED. -/
def OutState.faulted : OutState → Bool
  | .openCoil | .shortRetry | .shortLatched => true
  | _ => false

def Vdb.faulted (v : Vdb) (o : Output) : Bool := (v.reported o).faulted

/-- Outputs 0 to 9, which the SHC owns (R96). -/
def gearboxOutputs : List Output := [.ca, .cb, .cc, .cd, .cl, .cm, .ch, .cfw, .crv, .pkv]

/-- Any of outputs 0 to 9 is faulted (R91, R96). -/
def State.gearboxFaulted (s : State) : Bool := gearboxOutputs.any s.vdb.faulted

/-- Either hitch valve is faulted (R119). -/
def State.hitchFaulted (s : State) : Bool := s.vdb.faulted .hrv || s.vdb.faulted .hlv

/-! ## Channels -/

/-- Charge is in doubt: the CHG comparator is LOW or CHG is not VALID (R93, R110). -/
def State.chargeDoubt (s : State) : Bool :=
  s.sfe.chans.chg.cmp == .low || s.sfe.chans.chg.state != .valid

/-- Oil below 20 °C or of unknown temperature (R73). -/
def State.oilCold (s : State) : Bool :=
  s.sfe.chans.oil.state != .valid || decide (s.sfe.chans.oil.value < 20)

/-- OIL VALID at 40 °C or above, the condition of adaptation (R81). -/
def State.oilAdapts (s : State) : Bool :=
  s.sfe.chans.oil.state == .valid && decide (40 ≤ s.sfe.chans.oil.value)

/-- TSL is VALID and reads 350 or more (R152, R154). -/
def State.tslGood (s : State) : Bool :=
  s.sfe.chans.tsl.state == .valid && decide (350 ≤ s.sfe.chans.tsl.value)

/-- The supply line reads low from the channel as it stands (R153, R166). -/
def State.tslLow (s : State) : Bool :=
  s.sfe.chans.tsl.state != .valid || s.sfe.chans.tsl.cmp == .low

/-! ## Peers -/

/-- The record is FRESH. -/
def Peer.isFresh (p : Peer α) : Bool := p.fresh == .fresh

/-- The record's values while it is FRESH. -/
def Peer.current (p : Peer α) : Option α := if p.isFresh then p.values else none

/-- The engine speed as read, saturated at 8,000, while the record is FRESH (R190). -/
def State.engineSpeed (s : State) : Option Nat := s.lc.engine.current.map fun e => min 8000 e.speed

/-- The engine's actual torque as read, clamped to 100, while the record is FRESH (R190). -/
def State.engineTorque (s : State) : Option Nat := s.lc.engine.current.map fun e => min 100 e.torque

/-- The echoed torque limit as filed, clamped to 100 (R74, R190). -/
def State.engineEcho (s : State) : Option Nat := s.lc.engine.values.map fun e => min 100 e.echo

/-- The brake station's park request: FRESH or STALE with the request set (R90). -/
def State.brakeParkRequest (s : State) : Bool :=
  (s.lc.brake.fresh == .fresh || s.lc.brake.fresh == .stale) &&
    (match s.lc.brake.values with
     | some b => b.park
     | none => false)

/-- OUT or INP reports LOST in the motion record (R69, R95). -/
def State.speedsLost (s : State) : Bool :=
  s.scu.motion.rearVal == .lost || s.scu.motion.inputVal == .lost

/-- The link takes frames (R188, R200). -/
def Lc.takesFrames (l : Lc) : Bool :=
  match l.link with
  | .offline => false
  | .conflict => l.conflictTakes
  | _ => true

end Sys2Proof.Machine
end

