-- ==== Sys2Proof/Machine/Operands.lean ====
section
/-! DEFINITION. What the operands of commands hold: the fields of a received frame (R188 to R190,
R205), and the levels of the lines a step samples (log 5). -/

namespace Sys2Proof.Machine

/-! ## Bits and bytes -/

/-- Byte `i` of a frame; 0 beyond its end. -/
def byteAt (d : List Byte) (i : Nat) : Nat := (d.getD i 0).toNat

/-- The field of `len` bits from bit `lo` of a value. -/
def field (v lo len : Nat) : Nat := v / 2 ^ lo % 2 ^ len

/-- Bit `i` of a value. -/
def bitOf (v i : Nat) : Bool := field v i 1 == 1

/-- The 16-bit value at bytes `i` and `i + 1`, high byte first (R190, R205). -/
def word16 (d : List Byte) (i : Nat) : Nat := byteAt d i * 256 + byteAt d (i + 1)

/-- The rolling count: the low four bits of the last data byte (R189). -/
def rollingCount (d : List Byte) : BitVec 4 := BitVec.ofNat 4 (byteAt d (d.length - 1))

/-! ## Identifiers (R188) -/

/-- The station field of an identifier. -/
def stationOf (id : BitVec 11) : Nat := id.toNat % 32

/-- The group field of an identifier. -/
def groupOf (id : BitVec 11) : Nat := id.toNat / 32

/-- The consumed group of a group number (10, section 10.2). -/
def consumedGroup : Nat → Option PeerGroup
  | 5 => some .engine
  | 8 => some .brake
  | 12 => some .cabDrive
  | 13 => some .cabHitch
  | 16 => some .implement
  | 40 => some .service
  | _ => none

/-- The data length of a consumed group (10, section 10.2). -/
def peerLength : PeerGroup → Nat
  | .engine => 5 | .brake => 5 | .cabDrive => 4 | .cabHitch => 8 | .implement => 3 | .service => 3

/-- The timeout of a consumed group in µs, five periods (R192); none for 40 SERVICE REQUEST. -/
def peerTimeoutUs : PeerGroup → Option Nat
  | .engine => some 100000 | .brake => some 100000 | .cabDrive => some 250000
  | .cabHitch => some 500000 | .implement => some 500000 | .service => none

/-- The source station of a consumed group (R188). -/
def Sources.of (x : Sources) : PeerGroup → Option Nat
  | .engine => x.engine
  | .brake => x.brake
  | .cabDrive => x.cab
  | .cabHitch => x.cab
  | .implement => x.implement
  | .service => x.service

/-! ## The consumed groups (R190, R205) -/

/-- Direction lever codes (R205). -/
def leverOfCode : Nat → Lever
  | 0 => .n | 1 => .f | 2 => .r | _ => .park

/-- Gear codes: 1 to 12 F1 to F12, 17 to 24 RV1 to RV8 (R205); any other names no gear. -/
def gearOfCode (n : Nat) : Option Gear :=
  if 1 ≤ n ∧ n ≤ 12 then some ⟨.forward, n⟩
  else if 17 ≤ n ∧ n ≤ 24 then some ⟨.reverse, n - 16⟩
  else none

/-- A front drive mode field, any value other than OFF, ON or AUTO taken as ON (R105). -/
def frontOfCode : Nat → FrontMode
  | 0 => .off | 2 => .auto | _ => .on

/-- An on/off field: 1 is on, any other value off (R122, R205). -/
def onOfCode (n : Nat) : Bool := n == 1

def engineFields (d : List Byte) : EngineFields :=
  { speed := word16 d 0, torque := byteAt d 2, echo := byteAt d 3 }

def brakeFields (d : List Byte) : BrakeFields :=
  { left := word16 d 0, right := word16 d 2, park := bitOf (byteAt d 4) 4 }

def cabDriveFields (d : List Byte) : CabDriveFields :=
  { lever := leverOfCode (field (byteAt d 0) 0 2), pedal := byteAt d 2, auto := bitOf (byteAt d 3) 4,
    aggressiveness := field (byteAt d 1) 5 3, front := field (byteAt d 0) 4 2,
    shift := field (byteAt d 0) 2 2, select := field (byteAt d 1) 0 5,
    headland := field (byteAt d 0) 6 2, acknowledge := bitOf (byteAt d 3) 5 }

def cabHitchFields (d : List Byte) : CabHitchFields :=
  { lever := field (word16 d 0) 0 10, mix := byteAt d 6, dropRate := field (word16 d 2) 12 4,
    upper := field (word16 d 2) 0 10, slipLimit := field (word16 d 4) 0 10,
    slipControl := field (word16 d 2) 10 2, damping := field (word16 d 0) 12 2,
    authority := field (word16 d 0) 14 2, switch := field (word16 d 0) 10 2 }

def implementFields (d : List Byte) : ImplementFields :=
  { position := word16 d 0, positionMode := field (byteAt d 2) 4 2 == 1 }

def serviceFields (d : List Byte) : ServiceFields :=
  { code := d.getD 0 0, tag := d.getD 1 0 }

/-- The edge-type fields of 12 CAB DRIVE REQUEST that are not NONE, in the order of the table of
section 10.2 (R193). -/
def CabDriveFields.edges (f : CabDriveFields) : List Request :=
  (match f.shift with
   | 1 => [.shift .up]
   | 2 => [.shift .down]
   | 3 => [.shift (.select (gearOfCode f.select))]
   | _ => []) ++
  (match f.headland with
   | 1 => [.headland true]
   | 2 => [.headland false]
   | _ => []) ++
  (if f.acknowledge then [.acknowledge] else [])

/-- The edge-type fields that a frame of 12 carries. -/
def cabDriveEdges (d : List Byte) : List Request := (cabDriveFields d).edges

/-- The edge-type field of 13 CAB HITCH REQUEST (R193). -/
def CabHitchFields.edges (f : CabHitchFields) : List Request :=
  match f.switch with
  | 1 => [.hitchSwitch true]
  | 2 => [.hitchSwitch false]
  | _ => []

/-- The edge-type field that a frame of 13 carries. -/
def cabHitchEdges (d : List Byte) : List Request := (cabHitchFields d).edges

/-! ## Cab values as their readers take them -/

/-- The cab's level fields for the HTC, each clamped or replaced (R122). -/
def cabValuesOf (f : CabHitchFields) : CabValues :=
  { lever := min 1000 f.lever, mix := min 100 f.mix, dropRate := clampNat 1 10 f.dropRate,
    upper := clampNat 100 1000 f.upper, slipLimit := clampNat 50 400 f.slipLimit,
    slipControl := onOfCode f.slipControl, damping := onOfCode f.damping,
    authority := onOfCode f.authority }

/-- The shuttle rate of an aggressiveness, clamped to 1 to 5 (R68). -/
def shuttleRate (aggressiveness : Nat) : Nat := 2 + 2 * clampNat 1 5 aggressiveness

/-! ## Lines -/

/-- The coupling sense line stands as given. -/
def presentCoupling (closed : Bool) (s : State) : State :=
  s.withPins { s.pins with coupling := closed }

/-- The two fender button lines stand as given. -/
def presentButtons (left right : Bool) (s : State) : State :=
  s.withPins { s.pins with fenderLeft := left, fenderRight := right }

/-- The two slot straps and the coupling sense line stand as given. -/
def presentStraps (strap0 strap1 coupling : Bool) (p : Pins) : Pins :=
  { p with strap0 := strap0, strap1 := strap1, coupling := coupling }

/-- Strap 0 gives the low bit of the slot, strap 1 the high bit (R206). -/
def slotOf (p : Pins) : Nat := (if p.strap0 then 1 else 0) + (if p.strap1 then 2 else 0)

end Sys2Proof.Machine
end

