-- ==== Sys2Proof/Machine/Frames.lean ====
section
/-! DEFINITION. The part's own frames: their layouts (R194, R196, R197, R205), when one may be made
(R195), its rolling count (R189) and its place in the transmit queue (R198). -/

namespace Sys2Proof.Machine

/-! ## Bytes -/

def toByte (n : Nat) : Byte := BitVec.ofNat 8 n

/-- A 16-bit value, high byte first. -/
def be16 (n : Nat) : List Byte := [toByte (n / 256), toByte n]

/-- A signed 16-bit value, high byte first. -/
def be16Int (i : Int) : List Byte := be16 (BitVec.ofInt 16 i).toNat

/-- A flag at bit `i`. -/
def flagAt (b : Bool) (i : Nat) : Nat := if b then 2 ^ i else 0

/-! ## Field codes (R205) -/

def gearCode : Option Gear → Nat
  | none => 0
  | some ⟨.forward, n⟩ => n
  | some ⟨.reverse, n⟩ => 16 + n

def leverCode : Lever → Nat
  | .n => 0 | .f => 1 | .r => 2 | .park => 3

def ignoredCode : Option Lever → Nat
  | none => 0
  | some l => leverCode l + 1

def gearStateCode : GearState → Nat
  | .parked => 0 | .neutral => 1 | .engaging => 2 | .inGear => 3 | .shifting => 4 | .shuttling => 5
  | .faultHold => 6

def phaseCode : Option Phase → Nat
  | none => 0
  | some .preselect => 1 | some .ramp => 2 | some .fill => 3 | some .torque => 4 | some .inertia => 5
  | some .lockup => 6 | some .abort => 7 | some .drain => 8 | some .reverseBrake => 9
  | some .driveAway => 10

def shiftKindCode : Option ShiftKind → Nat
  | none => 0 | some .up => 1 | some .down => 2

def originCode : Origin → Nat
  | .cab => 0 | .headland => 1 | .auto => 2

def shcReasonCode : ShcReason → Nat
  | .full => 1 | .overspeed => 2 | .lugging => 3 | .noCharge => 4 | .noGear => 5 | .fault => 6
  | .speed => 7 | .noEngine => 8

def frontCode : FrontMode → Nat
  | .off => 0 | .on => 1 | .auto => 2

def sourceCode : GroundSource → Nat
  | .none => 0 | .radar => 1 | .front => 2

def slipValCode : SlipValidity → Nat
  | .unavailable => 0 | .lowSpeed => 1 | .valid => 2

def dirCode : TravelDir → Nat
  | .unknown => 0 | .forward => 1 | .reverse => 2

def validityCode : Validity → Nat
  | .stopped => 0 | .moving => 1 | .lost => 2

def trailerCode : TrailerState → Nat
  | .absent => 0 | .charging => 1 | .ready => 2 | .parked => 3 | .supplyFault => 4 | .breakaway => 5

def brakeSourceCode : BrakeSource → Nat
  | .none => 0 | .own => 1 | .station => 2

def contributorCode : Contributor → Nat
  | .none => 0 | .brake => 1 | .overrun => 2 | .shuttle => 3

def severityCode : Severity → Nat
  | .info => 0 | .degraded => 1 | .stop => 2

def fdcCode : FdcState → Nat
  | .engaged => 0 | .releasing => 1 | .released => 2 | .engaging => 3

def modeSourceCode : ModeSource → Nat
  | .cab => 0 | .headland => 1

def grantCauseCode : Option GrantCause → Nat
  | none => 0 | some .lowPressure => 1 | some .supplyUnknown => 2

def hitchCode : HitchState → Nat
  | .startLock => 0 | .held => 1 | .raising => 2 | .transport => 3 | .working => 4 | .fender => 5
  | .faultHold => 6

def holdCode : Option HoldCause → Nat
  | none => 0 | some .fender => 1 | some .cabLost => 2 | some .sourceLost => 3 | some .stop => 4
  | some .fault => 5

def faultCauseCode : Option FaultCause → Nat
  | none => 0 | some .position => 1 | some .valve => 2

def runCode : RunState → Nat
  | .idle => 0 | .running => 1 | .done => 2 | .aborted => 3

def seqCode : Option SeqKind → Nat
  | none => 0 | some .entry => 1 | some .exit => 2

def causeCode : Option AbortCause → Nat
  | none => 0 | some .cancel => 1 | some .cabRequest => 2 | some .lever => 3 | some .shuttle => 4
  | some .mode => 5

def actionCode : HAction → Nat
  | .hitchRaise => 1 | .hitchWork => 2 | .frontMode _ => 3 | .shiftUp _ => 4 | .shiftDown _ => 5
  | .slipControl _ => 6 | .wait => 7

def stepReasonCode : StepReason → Nat
  | .shc r => shcReasonCode r
  | .htc .fault => 6 | .htc .locked => 9 | .htc .busyLocal => 10 | .htc .stale => 11

def modeCode : Mode → Nat
  | .loading => 0 | .limp => 1 | .calibrating => 2 | .operating => 3 | .restarting => 4
  | .stopping => 5 | .dormant => 6 | .awakeNoKey => 7

/-! ## Layouts -/

/-- 3 TORQUE LIMIT REQUEST (R196). -/
def torqueBytes (s : State) : List Byte :=
  match s.shc.torque with
  | some limit => [toByte limit, toByte 16]
  | none => [0, 0]

/-- 6 MOTION, pages 0, 1 and 2 (R205). -/
def motionBytes (s : State) : List Byte :=
  let m := s.scu.motion
  match s.lc.motionPage with
  | 0 => be16 m.vGround ++ be16 m.vRear ++ be16Int m.filtered ++
      [toByte (sourceCode m.source + 4 * slipValCode m.slipVal + flagAt m.standstill 4 +
        32 * dirCode m.direction + flagAt m.radarFitted 7), toByte 0]
  | 1 => be16 m.vFront ++ be16 m.vRadar ++ be16Int m.slip ++
      [toByte (validityCode m.rearVal + 4 * validityCode m.frontVal + 16 * validityCode m.radarVal +
        64 * validityCode m.inputVal), toByte 16]
  | _ => be16 m.inpRpm ++ be16 m.outRpm ++
      [toByte (m.travel.toNat / 2 ^ 24), toByte (m.travel.toNat / 2 ^ 16),
       toByte (m.travel.toNat / 2 ^ 8), toByte 32]

/-- 10 GEARBOX STATE (R205). -/
def gearboxBytes (s : State) : List Byte :=
  let k := s.shc
  [toByte (gearStateCode k.state + 8 * phaseCode k.phase + flagAt k.auto 7),
   toByte (gearCode k.current + 32 * shiftKindCode k.kind + flagAt (!k.parkReleased) 7),
   toByte (gearCode k.target + 32 * leverCode k.lever + flagAt k.pendingPark 7),
   toByte (gearCode k.selected + 32 * ignoredCode k.ignored),
   toByte (k.pedal + flagAt k.pendingShuttle 7),
   (match k.lastRefusal with
    | some (r, o) => toByte (shcReasonCode r + 16 * originCode o)
    | none => 0),
   k.refusals,
   toByte (16 * (4 - k.queue.length))]

/-- The reason set as bits 0 to 9, MODE_ON in bit 0 (R205). -/
def reasonBits (r : Reasons) : Nat :=
  flagAt r.modeOn 0 + flagAt r.autoSpeed 1 + flagAt r.autoSlip 2 + flagAt r.braking 3 +
  flagAt r.brakeUnmeasured 4 + flagAt r.lowCharge 5 + flagAt r.shuttle 6 + flagAt r.standstill 7 +
  flagAt r.fault 8 + flagAt r.start 9

/-- 14 DRIVE AND HITCH STATE, pages 0 to 3 (R205). -/
def driveHitchBytes (s : State) : List Byte :=
  let h := s.htc
  match s.lc.drivePage with
  | 0 =>
    [toByte (fdcCode s.fdc.state + 4 * frontCode s.fdc.mode + 16 * modeSourceCode s.fdc.source +
      flagAt s.vdb.grant.suspended 5 + 64 * grantCauseCode s.vdb.grant.cause)] ++
    be16 (reasonBits s.fdc.reasons) ++ be16 s.vdb.grant.count ++ [0, 0, toByte 0]
  | 1 =>
    [toByte (hitchCode h.state + 8 * holdCode h.holdCause + 64 * faultCauseCode h.faultCause)] ++
    be16 (h.position.toNat + flagAt h.posValid 10 + flagAt (h.source == .implement) 11 +
      flagAt h.slipOn 12 + flagAt (h.slipSource == .headland) 13) ++
    be16 h.depth ++
    [toByte (flagAt h.overload 0 + flagAt h.damping 1 + flagAt h.slipOverride 2 +
      flagAt h.refused 3 + flagAt (h.holdCause == some .sourceLost) 4), 0, toByte 16]
  | 2 =>
    be16Int h.draft ++ be16Int (h.mixed.getD 0) ++
    [toByte (h.hrv / 5), toByte (h.hlv / 5),
     toByte (flagAt h.draftValid 0 + flagAt h.mixed.isNone 1), toByte 32]
  | _ =>
    let q := s.hsq
    [toByte (runCode q.state + 4 * seqCode q.kind + flagAt (q.nextKind == .exit) 4 +
      32 * causeCode q.cause)] ++
    (match q.lastRefused with
     | some (r, why) =>
       [toByte (q.index + 16 * stepReasonCode why), toByte (seqCode (some r.kind) + 4 * r.index),
        toByte (actionCode r.action)]
     | none => [toByte q.index, 0, 0]) ++ [0, 0, 0, toByte 48]

/-- 18 TRAILER STATE (R205). -/
def trailerBytes (s : State) : List Byte :=
  let t := s.tbc
  be16 (t.brake.getD 2047 + 2048 * brakeSourceCode t.brakeSource + 8192 * trailerCode t.state) ++
  be16 (t.demand + 2048 * contributorCode t.contributor + flagAt t.coupled 13 +
    flagAt t.overpressure 14 + flagAt t.supplyLow 15) ++
  [toByte (t.tcl.toNat / 10), toByte (t.tsl.toNat / 10), BitVec.ofInt 8 (truncDiv t.correction 2),
   toByte (flagAt (t.tclState == .valid) 4 + flagAt (t.tslState == .valid) 5)]

/-- The cursor a 24 FAULT REPORT is made at: back to 0 at or beyond the number of entries (R197). -/
def reportCursor (s : State) : Nat := if s.mc.faults.length ≤ s.lc.cursor then 0 else s.lc.cursor

/-- 24 FAULT REPORT (R197, R205). -/
def faultBytes (s : State) : List Byte :=
  match s.mc.faults[reportCursor s]? with
  | none => [0, 0, 0, 0, 0, 0, 0, toByte 64]
  | some e =>
    [toByte e.code.number,
     toByte (severityCode e.code.severity + flagAt e.active 2 + 8 * s.activeCount),
     toByte e.count] ++ be16 e.first ++ be16 e.last ++
    [toByte (flagAt s.mc.full 4 + flagAt e.latched 5 +
      flagAt (reportCursor s + 1 == s.mc.faults.length) 6)]

/-- 44 IDENTITY (R196). -/
def identityBytes (s : State) : List Byte :=
  [toByte 94] ++ be16 4200 ++ [Config.siliconRevision, toByte s.mc.slot] ++ be16 s.mc.version ++
  [toByte (16 * modeCode s.mc.mode + flagAt (s.mc.mode == .restarting) 7)]

/-- 45 QUIET NOTICE (R196). -/
def quietBytes (s : State) : List Byte :=
  [toByte (gearCode s.shc.current),
   toByte (flagAt (!s.shc.parkReleased) 4 + 32 * trailerCode s.tbc.state)]

/-- Results of a service request (R194). -/
inductive ServiceResult where
  | accepted | refused | done
  deriving DecidableEq, Repr

/-- Reasons of a service result (R194). -/
inductive ServiceReason where
  | none | busy | notParked | calFailed | unknown
  deriving DecidableEq, Repr

def resultCode : ServiceResult → Nat
  | .accepted => 0 | .refused => 1 | .done => 2

def serviceReasonCode : ServiceReason → Nat
  | .none => 0 | .busy => 1 | .notParked => 2 | .calFailed => 3 | .unknown => 4

/-- 41 SERVICE RESULT (R194). -/
def serviceBytes (code tag : Byte) (r : ServiceResult) (why : ServiceReason) : List Byte :=
  [tag, code, toByte (resultCode r), toByte (serviceReasonCode why), 0]

/-! ## Making and placing a frame -/

/-- The group number (10, section 10.3). -/
def groupNumber : Group → Nat
  | .torqueLimit => 3 | .motion => 6 | .gearbox => 10 | .driveHitch => 14 | .trailer => 18
  | .faultReport => 24 | .serviceResult => 41 | .identity => 44 | .quietNotice => 45

/-- 6, 10, 14, 18 and 44 are periodic; 3, 24, 41 and 45 are event-type (R198). -/
def periodicGroup : Group → Bool
  | .motion | .gearbox | .driveHitch | .trailer | .identity => true
  | _ => false

/-- The identifier of one of the part's own frames (R188). -/
def ownIdentifier (l : Lc) (g : Group) : Nat := groupNumber g * 32 + l.sources.own

/-- The groups made in a mode (R195). -/
def modeAllows (m : Mode) (quiet : Bool) (g : Group) : Bool :=
  match m with
  | .limp => g == .faultReport || g == .identity
  | .calibrating => g == .motion || g == .faultReport || g == .serviceResult || g == .identity
  | .operating | .restarting => g != .quietNotice
  | .stopping => if quiet then g == .serviceResult || g == .quietNotice else true
  | .awakeNoKey => g == .faultReport || g == .serviceResult || g == .identity
  | .loading | .dormant => false

/-- A frame of the group is made in this link state and mode (R195). -/
def State.mayMake (s : State) (g : Group) : Bool :=
  (match s.lc.link with
   | .active => true
   | .listen => !periodicGroup g
   | .offline | .muted | .conflict => false) && modeAllows s.mc.mode s.lc.quiet g

/-- The transmit queue never holds more frames than this (R198). -/
def maxQueue : Nat := 8

/-- The periodic entry of highest identifier that is not being attempted (R198). -/
def displaced (q : List TxEntry) : Option TxEntry :=
  q.foldl (fun best e =>
    if periodicGroup e.group && !e.attempting then
      match best with
      | some b => if groupNumber b.group < groupNumber e.group then some e else best
      | none => some e
    else best) none

/-- Placing a made frame (R198). -/
def placeFrame (g : Group) (d : List Byte) (q : List TxEntry) : List TxEntry :=
  let e : TxEntry := { group := g, data := d, attempting := false, replaced := false }
  if q.any fun x => x.group = g then
    q.map fun x => if x.group = g then { x with data := d, replaced := x.attempting } else x
  else if q.length < maxQueue then q ++ [e]
  else if periodicGroup g then q
  else match displaced q with
    | some x => q.filter (fun y => y.group ≠ x.group) ++ [e]
    | none => q

/-- The frame's data with the rolling count in the low bits of its last byte (R189). -/
def sealCount (d : List Byte) (c : BitVec 4) : List Byte :=
  d.dropLast ++ [d.getLastD 0 ||| c.setWidth 8]

/-- The LC makes a frame of the group from the given bytes and offers it to the queue, if the group is
allowed now; the send count rises by 1 for each frame made (R189, R195, R198, log 29). -/
def makeFrame (g : Group) (d : List Byte) (s : State) : State :=
  if s.mayMake g then
    let c := s.lc.sendCounts.get g + 1
    s.withLc { s.lc with sendCounts := s.lc.sendCounts.set g c,
                         queue := placeFrame g (sealCount d c) s.lc.queue }
  else s

/-- After a frame of a paged group or of 24 is made its page or cursor moves on (R196, R197). -/
def nextPage (g : Group) (s : State) : State :=
  match g with
  | .motion => s.withLc { s.lc with motionPage := if s.lc.motionPage < 2 then s.lc.motionPage + 1 else 0 }
  | .driveHitch => s.withLc { s.lc with drivePage := if s.lc.drivePage < 3 then s.lc.drivePage + 1 else 0 }
  | .faultReport => s.withLc { s.lc with cursor := (reportCursor s + 1) % 16 }
  | _ => s

/-- The bytes of a group, from the owners' records as they stand (R195). -/
def groupBytes (g : Group) (s : State) : List Byte :=
  match g with
  | .torqueLimit => torqueBytes s
  | .motion => motionBytes s
  | .gearbox => gearboxBytes s
  | .driveHitch => driveHitchBytes s
  | .trailer => trailerBytes s
  | .faultReport => faultBytes s
  | .identity => identityBytes s
  | .quietNotice => quietBytes s
  | .serviceResult => []

/-- The LC makes the group's frame from the records as they stand (R195). -/
def publish (g : Group) (s : State) : State :=
  if s.mayMake g then nextPage g (makeFrame g (groupBytes g s) s) else s

/-- An owner hands a service result to the LC, which makes a 41 SERVICE RESULT frame (R194). -/
def serviceAnswer (code tag : Byte) (r : ServiceResult) (why : ServiceReason) (s : State) : State :=
  makeFrame .serviceResult (serviceBytes code tag r why) s

/-! ## Service request codes (R194) -/

def codeFaultAck : Byte := 1
def codeResetAdaptation : Byte := 2
def codeRecalibrate : Byte := 3
def codeControlRestart : Byte := 4

end Sys2Proof.Machine
end

