-- ==== Sys2Proof/Machine/Drivers.lean ====
section
/-! DEFINITION. The valve driver bank (03): commands and drive targets (R47 to R50), open and shorted
coils (R51 to R54), the supply switches (R55, R56), the hitch supply grant (R57 to R60), and the
meanings of its commands. -/

namespace Sys2Proof.Machine

/-! ## Records -/

def State.out (s : State) (o : Output) : OutRec := s.vdb.outs.get o

def Vdb.withOut (v : Vdb) (o : Output) (r : OutRec) : Vdb := { v with outs := v.outs.set o r }

def State.withOut (s : State) (o : Output) (r : OutRec) : State := s.withVdb (s.vdb.withOut o r)

def State.supplyOf (s : State) (x : Supply) : SupplyRec := s.vdb.supplies.get x

def State.withSupply (s : State) (x : Supply) (r : SupplyRec) : State :=
  s.withVdb { s.vdb with supplies := s.vdb.supplies.set x r }

/-! ## Commands and drive targets -/

/-- Pull-in current and hold current of an on/off output, and the length of pull-in in µs (R50). -/
def pullInCurrent : Nat := 1500
def holdCurrent : Nat := 500
def pullInUs : Nat := 100000

/-- A window that a condition other than the short stage takes away (R53). -/
def Vdb.windowLost (v : Vdb) (o : Output) : Bool :=
  (v.outs.get o).window.isSome && (!v.powered o || (v.outs.get o).withheld)

/-- The drive target and the pull-in timer that R48 and R50 give an output. -/
def driveOf (blocked : Bool) (o : Output) (r : OutRec) : Nat × Option Nat :=
  if blocked then (0, none)
  else if o.onOff then
    if r.command = 0 then (0, none)
    else if r.target = 0 then (pullInCurrent, some 0)
    else (r.target, r.pullIn)
  else (r.command, none)

/-- The drive target is recomputed (R48): a window lost to another condition is removed (R53), the
measured current of an output without supply is 0 (R49), and both open counts start afresh when the
target changes between 0 and nonzero (R51). -/
def Vdb.refresh (o : Output) (v : Vdb) : Vdb :=
  let v := if v.windowLost o then v.withOut o { v.outs.get o with window := none } else v
  let r := v.outs.get o
  let d := driveOf (v.blocked o) o r
  let turned := decide (r.target = 0) != decide (d.1 = 0)
  v.withOut o
    { r with target := d.1, pullIn := d.2,
             measured := if v.powered o then r.measured else 0,
             openCount := if turned then 0 else r.openCount,
             recCount := if turned then 0 else r.recCount }

/-- The value an owner's write is stored as: clamped to the maximum of a proportional output (R47). -/
def storedCommand (c : Image) (o : Output) (v : Nat) : Nat :=
  if o.onOff then (if v = 0 then 0 else 1) else min v (c.maxima.get o)

/-- An owner writes a command (R47): an equal command leaves the record unchanged. -/
def writeCommand (o : Output) (v : Nat) (s : State) : State :=
  if storedCommand s.cfg o v = (s.out o).command then s
  else s.withVdb
    ((s.vdb.withOut o { s.out o with command := storedCommand s.cfg o v }).refresh o)

/-- Every output of a list recomputed. -/
def Vdb.refreshAll (v : Vdb) (l : List Output) : Vdb := l.foldl (fun v o => v.refresh o) v

/-- The outputs of a supply (03, section 3.1). -/
def outputsOf (x : Supply) : List Output := Output.all.filter fun o => o.supply = x

/-! ## Open coils (R51, R52) -/

/-- Consecutive samples to an open flag and back. -/
def openSamples : Nat := 50

/-- An open count has reached 50. -/
def openDue (o : Output) (s : State) : Bool :=
  !(s.out o).openFlag && decide (openSamples ≤ (s.out o).openCount)

/-- The open flag is set, the count becomes 0 and OUT_n_OPEN is raised (R51). -/
def setOpen (o : Output) (s : State) : State :=
  raise (.outOpen o) (s.withOut o { s.out o with openFlag := true, openCount := 0 })

/-- A recovery count has reached 50. -/
def recoveredDue (o : Output) (s : State) : Bool :=
  (s.out o).openFlag && decide (openSamples ≤ (s.out o).recCount)

/-- The open flag is cleared, the count becomes 0 and OUT_n_OPEN is cleared (R52). -/
def clearOpen (o : Output) (s : State) : State :=
  clearFault (.outOpen o) (s.withOut o { s.out o with openFlag := false, recCount := 0 })

/-- The open test that fits the drive target (R51). "Less than one quarter" is taken exactly, without a
truncated division (log 71). -/
def openTest (r : OutRec) (x : CoilSample) : Bool :=
  if r.target ≠ 0 then decide (4 * r.measured < r.target) else x.senseHigh

/-- One sample counted on one output (R51, R52). -/
def countOpen (x : CoilSample) (r : OutRec) : OutRec :=
  if r.openFlag then { r with recCount := if openTest r x then 0 else r.recCount + 1 }
  else { r with openCount := if openTest r x then r.openCount + 1 else 0 }

/-- The measured current of an output with supply: the sample, and 0 at a drive target of 0 (R49, R51). -/
def sampled (r : OutRec) (x : CoilSample) : Nat := if r.target = 0 then 0 else min 4000 x.current

/-- One output at a sense-timer expiry (R49, R51, R52). -/
def senseOne (samples : OutputTable CoilSample) (s : State) (o : Output) : State :=
  if s.vdb.powered o then
    let x := samples.get o
    let s := s.withOut o { s.out o with measured := sampled (s.out o) x }
    if (s.out o).short = .none then
      let s := s.withOut o (countOpen x (s.out o))
      if openDue o s then setOpen o s
      else if recoveredDue o s then clearOpen o s
      else s
    else s
  else s.withOut o { s.out o with measured := 0 }

/-- The sense timer runs while either supply switch is not OFF (R49). -/
def State.senseRuns (s : State) : Bool :=
  s.vdb.supplies.vsa.state != .off || s.vdb.supplies.vsb.state != .off

/-- The outputs are taken, and their faults raised, by ascending number, an order R51 does not give
(log 72). -/
def execSenseTimer (samples : OutputTable CoilSample) (s : State) :
    Host.Outcome State Fault Refusal :=
  .next (if s.senseRuns then Output.all.foldl (senseOne samples) s else s)

def execOpenDetected (o : Output) (s : State) : Host.Outcome State Fault Refusal :=
  .next (if openDue o s then setOpen o s else s)

def execOpenRecovered (o : Output) (s : State) : Host.Outcome State Fault Refusal :=
  .next (if recoveredDue o s then clearOpen o s else s)

/-! ## Shorted coils (R53, R54) -/

/-- The retry timer's length and the retry window's, in µs (R53). -/
def retryUs : Nat := 1000000
def windowUs : Nat := 100000

/-- A trip (R53): into RETRY, or a failed retry, the third of which latches the output (R54). -/
def trip (o : Output) (s : State) : State :=
  let r := s.out o
  match r.short with
  | .none =>
    raise (.outShort o) (s.withVdb ((s.vdb.withOut o
      { r with short := .retry, retries := 0, retryTimer := 0, window := none }).refresh o))
  | .retry =>
    if r.window.isSome then
      if r.retries + 1 = 3 then
        latchFault (.outShort o) (raise (.outShort o) (s.withVdb ((s.vdb.withOut o
          { r with short := .latched, retries := 3, window := none }).refresh o)))
      else
        raise (.outShort o) (s.withVdb ((s.vdb.withOut o
          { r with retries := r.retries + 1, retryTimer := 0, window := none }).refresh o))
    else s
  | .latched => s

/-- The current exceeded 2,500 mA; it trips while the drive target is nonzero (R53). -/
def execShortTrip (o : Output) (s : State) : Host.Outcome State Fault Refusal :=
  .next (if (s.out o).target ≠ 0 then trip o s else s)

/-- A retry waits: RETRY, no window, and the retry timer at 1,000 ms (R53). -/
def retryWaits (o : Output) (s : State) : Bool :=
  (s.out o).short == .retry && (s.out o).window.isNone && decide (retryUs ≤ (s.out o).retryTimer)

/-- The output could carry current: ENABLED, a nonzero command, not withheld (R53). -/
def couldCarry (o : Output) (s : State) : Bool :=
  s.vdb.powered o && decide ((s.out o).command ≠ 0) && !(s.out o).withheld

/-- The retry opens its window at 0 and the output gets its command again (R53). -/
def openWindow (o : Output) (s : State) : State :=
  s.withVdb ((s.vdb.withOut o { s.out o with window := some 0 }).refresh o)

def execRetryTimerExpiry (o : Output) (s : State) : Host.Outcome State Fault Refusal :=
  .next (if retryWaits o s && couldCarry o s then openWindow o s else s)

def execDeferredRetry (o : Output) (s : State) : Host.Outcome State Fault Refusal :=
  .next (if couldCarry o s && retryWaits o s then openWindow o s else s)

/-- The window has reached 100 ms without a trip. -/
def retrySucceeds (o : Output) (s : State) : Bool :=
  (s.out o).short == .retry &&
    (match (s.out o).window with
     | some t => decide (windowUs ≤ t)
     | none => false)

/-- The window is removed, the stage becomes NONE, the retry count 0, and OUT_n_SHORT is cleared (R53). -/
def endRetry (o : Output) (s : State) : State :=
  clearFault (.outShort o) (s.withVdb ((s.vdb.withOut o
    { s.out o with short := .none, retries := 0, window := none }).refresh o))

def execRetrySuccess (o : Output) (s : State) : Host.Outcome State Fault Refusal :=
  .next (if retrySucceeds o s then endRetry o s else s)

/-- The coil of an output is shorted at this moment (log 81). -/
def coilShorted (o : Output) (s : State) : Bool := Config.coilShorted (Output.number o) s.clock

/-- A latched output is re-armed by an acknowledgement (R54, R62): its fault is cleared within it, and a
coil still shorted that is driven again trips at once, a new RETRY (R53, R184). -/
def rearm (s : State) (o : Output) : State :=
  if (s.out o).short = .latched then
    let s := clearFault (.outShort o) (s.withVdb ((s.vdb.withOut o
      { s.out o with short := .none, retries := 0 }).refresh o))
    if coilShorted o s = true ∧ (s.out o).target ≠ 0 then trip o s else s
  else s

/-- The release of every latch reaches the VDB (R62, R184), by ascending output number (log 82). -/
def releaseOutputs (s : State) : State := Output.all.foldl rearm s

/-- Pull-in has lasted 100 ms (R50). -/
def pullInOver (o : Output) (s : State) : Bool :=
  decide ((s.out o).target ≠ 0) &&
    (match (s.out o).pullIn with
     | some t => decide (pullInUs ≤ t)
     | none => false)

def execPullInEnd (o : Output) (s : State) : Host.Outcome State Fault Refusal :=
  .next (if pullInOver o s then s.withOut o { s.out o with target := holdCurrent } else s)

/-! ## Supply switches (R55, R56) -/

/-- The settle times of RISING and FALLING in µs (R55). -/
def riseUs : Nat := 20000
def fallUs : Nat := 10000

/-- An on request (R55). -/
def onRequest (x : Supply) (s : State) : State :=
  let r := s.supplyOf x
  match r.state with
  | .off => s.withSupply x { r with state := .rising, settle := 0 }
  | .falling => s.withSupply x { r with pendingOn := true }
  | .rising | .enabled => s

/-- At entry to FALLING every command of the supply's outputs is set to 0 or OFF (R56). -/
def dropCommands (x : Supply) (v : Vdb) : Vdb :=
  (outputsOf x).foldl (fun v o => (v.withOut o { v.outs.get o with command := 0 }).refresh o) v

/-- An off request (R55). -/
def offRequest (x : Supply) (s : State) : State :=
  let r := s.supplyOf x
  match r.state with
  | .enabled | .rising =>
    let s := s.withSupply x { r with state := .falling, settle := 0 }
    s.withVdb (dropCommands x s.vdb)
  | .falling => s.withSupply x { r with pendingOn := false }
  | .off => s

/-- RISING has lasted 20 ms. -/
def riseOver (x : Supply) (s : State) : Bool :=
  (s.supplyOf x).state == .rising && decide (riseUs ≤ (s.supplyOf x).settle)

/-- The supply becomes ENABLED and its outputs are driven (R55, R56). -/
def enableSupply (x : Supply) (s : State) : State :=
  let s := s.withSupply x { s.supplyOf x with state := .enabled }
  s.withVdb ((outputsOf x).foldl (fun v o =>
    (v.withOut o { v.outs.get o with openCount := 0 }).refresh o) s.vdb)

/-- FALLING has lasted 10 ms. -/
def fallOver (x : Supply) (s : State) : Bool :=
  (s.supplyOf x).state == .falling && decide (fallUs ≤ (s.supplyOf x).settle)

/-- The switch opens to OFF, and closes again into RISING when an on request is pending (R55). -/
def finishFall (x : Supply) (s : State) : State :=
  let r := s.supplyOf x
  if r.pendingOn then s.withSupply x { state := .rising, settle := 0, pendingOn := false }
  else s.withSupply x { r with state := .off }

/-! ## The hitch supply grant (R57 to R60) -/

/-- The demand at which the grant acts, 5 bar (R58). -/
def grantDemand : Nat := 50

/-- The withheld flags of HRV and HLV, with their drive targets (R60). -/
def withhold (w : Bool) (v : Vdb) : Vdb :=
  let v := (v.withOut .hrv { v.outs.get .hrv with withheld := w }).refresh .hrv
  (v.withOut .hlv { v.outs.get .hlv with withheld := w }).refresh .hlv

/-- The grant becomes SUSPENDED (R58, R60). -/
def suspendGrant (cause : GrantCause) (s : State) : State :=
  s.withVdb (withhold true { s.vdb with grant :=
    { suspended := true, cause := some cause, count := min 65535 (s.vdb.grant.count + 1) } })

/-- The grant becomes ALLOWED (R59, R60). -/
def allowGrant (s : State) : State :=
  s.withVdb (withhold false { s.vdb with grant :=
    { s.vdb.grant with suspended := false, cause := none } })

/-- The test of an ALLOWED grant (R58). -/
def testGrant (s : State) : State :=
  if grantDemand ≤ s.tbc.demand then
    if s.sfe.chans.sup.cmp = .low then suspendGrant .lowPressure s
    else if s.sfe.chans.sup.state = .failed ∨ s.sfe.chans.sup.state = .off then
      suspendGrant .supplyUnknown s
    else s
  else s

/-- The TBC has written a new demand (R58, R59). -/
def grantOnDemand (s : State) : State :=
  if s.vdb.grant.suspended then
    if s.tbc.demand < grantDemand then allowGrant s else s
  else testGrant s

/-- The grant takes a SUP event (R58, R59): a suspension with cause SUPPLY_UNKNOWN does not end at
LOW_LEAVE. -/
def grantOnEvent (ev : SfeEvent) (s : State) : State :=
  if s.vdb.grant.suspended then
    if ev = .lowLeave ∧ s.vdb.grant.cause ≠ some .supplyUnknown then allowGrant s else s
  else if ev = .lowEnter ∨ ev = .failed then testGrant s
  else s

def execGrantSupEvent (s : State) : Host.Outcome State Fault Refusal :=
  .next (match takeEvent .vdb .sup s with
    | some (ev, s) => if s.mc.mode.sensingRuns then grantOnEvent ev s else s
    | none => s)

/-! ## Control restart (R61) -/

/-- An output at a control restart; the conditions it held are gone (R61, log 20). -/
def restartOutput (s : State) (o : Output) : State :=
  let s := if (s.out o).openFlag then clearFault (.outOpen o) s else s
  let s := if (s.out o).short ≠ .none then clearFault (.outShort o) s else s
  s.withOut o .reset

/-- The VDB's control-restart values: the suspension count and the supplies stay (R61). -/
def restartVdb (s : State) : State :=
  let s := Output.all.foldl restartOutput s
  s.withVdb { s.vdb with grant := { s.vdb.grant with suspended := false, cause := none } }

end Sys2Proof.Machine
end

