-- ==== Sys2Proof/Machine/Link.lean ====
section
/-! DEFINITION. The link controller (10): orders of the MC (R200, R203), received frames (R188 to R194),
the transmit queue and its attempts (R198, R199), muting (R201) and conflict (R202), and the meanings of
its commands. -/

namespace Sys2Proof.Machine

/-! ## Orders and states of the link -/

/-- The listen window, the mute time and the quiet time in µs (R200, R201, R203). -/
def listenUs : Nat := 500000
def muteUs : Nat := 1000000
def quietUs : Nat := 200000

/-- Frames to be heard before a MUTED link returns (R201). -/
def muteFrames : Nat := 16

/-- The error count at which the link becomes MUTED, and what a failure adds (R199, R201). -/
def errorLimit : Nat := 256
def errorStep : Nat := 8

/-- The queue is flushed (R198). -/
def Lc.flush (l : Lc) : Lc := { l with queue := [] }

/-- A record becomes ABSENT, its values and last acted count removed; its time stops where it stands
(R192). -/
def Peer.drop (p : Peer α) : Peer α := { p with values := none, fresh := .absent, lastActed := none }

/-- Every peer record becomes ABSENT (R192). -/
def Lc.dropPeers (l : Lc) : Lc :=
  { l with engine := l.engine.drop, brake := l.brake.drop, cabDrive := l.cabDrive.drop,
           cabHitch := l.cabHitch.drop, implement := l.implement.drop, service := l.service.drop }

/-- The off order: OFFLINE, or CONFLICT taking no frames (R200); it ends quiet (R203). DESIGN CHOICE (log 96):
out of MUTED it leaves the transmit error count at 256 and the condition of LINK_MUTED present. -/
def Lc.offOrder (l : Lc) : Lc :=
  { (l.flush.dropPeers) with
      link := if l.link = .conflict then .conflict else .offline,
      conflictTakes := false, quiet := false, quietTimer := none }

/-- The listen order (R200). -/
def Lc.listenOrder (l : Lc) : Lc :=
  match l.link with
  | .offline => { l with link := .listen, listen := 0 }
  | .conflict => { l with conflictTakes := true }
  | .listen | .active | .muted => l

/-- The MC gives the LC its off order. -/
def offOrder (s : State) : State := s.withLc s.lc.offOrder

/-- The MC gives the LC its listen order; the MC waits for the end of the window anew. -/
def listenOrder (s : State) : State :=
  (s.withLc s.lc.listenOrder).withMc { s.mc with windowEnded := false }

/-- The LC reports quiet; an MC that waits for it sends VSB its off request (R203, R210). -/
def reportQuiet (s : State) : State :=
  let s := s.withLc { s.lc with quietTimer := none }
  if s.mc.step = .quietWait then offRequest .vsb (s.withMc { s.mc with step := .stopVsb }) else s

/-- The report due when the link has left ACTIVE while quiet (R203). -/
def reportIfWaiting (s : State) : State := if s.lc.quietTimer.isSome then reportQuiet s else s

/-- Entry to ACTIVE: the page counters start and an IDENTITY frame is made (R196, R200). -/
def enterActive (s : State) : State :=
  publish .identity (s.withLc { s.lc with link := .active, motionPage := 0, drivePage := 0 })

/-- Entry to MUTED (R201). -/
def enterMuted (s : State) : State :=
  reportIfWaiting (raise .linkMuted
    (s.withLc { s.lc.flush with link := .muted, muteTimer := 0, received := 0 }))

/-- Entry to CONFLICT (R202); out of LISTEN it ends the window (R200). -/
def enterConflict (s : State) : State :=
  let ended := s.mc.windowEnded || s.lc.link == .listen
  let s := s.withLc { s.lc.flush with link := .conflict, conflictTakes := true }
  let s := s.withMc { s.mc with windowEnded := ended }
  reportIfWaiting (raiseLatched .stationConflict (clearFault .linkMuted s))

/-- The quiet order (R203): the notice is made, the LC is quiet, and it reports at once when the link is
not ACTIVE. -/
def quietOrder (s : State) : State :=
  let s := publish .quietNotice s
  let s := s.withLc { s.lc with quiet := true, quietTimer := some 0 }
  if s.lc.link = .active then s else reportQuiet s

/-! ## Received frames -/

/-- A record with a frame's fields and count filed (R191, R193). The last acted count takes the frame's
count in each of the three cases of R193. -/
def Peer.file (v : α) (c : BitVec 4) : Peer α :=
  { values := some v, fresh := .fresh, since := 0, lastActed := some c }

/-- The edge-type fields of a frame with this count act (R193): the record is FRESH and the count differs
from the last acted count. -/
def Peer.acts (p : Peer α) (c : BitVec 4) : Bool := p.isFresh && p.lastActed != some c

/-- The stale fault of a group (R192). -/
def staleFault : PeerGroup → Option FaultCode
  | .engine => some .engineStale
  | .brake => some .brakeStale
  | .cabDrive => some .cabDriveStale
  | .cabHitch => some .cabHitchStale
  | .implement => some .implementStale
  | .service => none

/-- Freshness of a group's record. -/
def Lc.freshness (l : Lc) : PeerGroup → Freshness
  | .engine => l.engine.fresh
  | .brake => l.brake.fresh
  | .cabDrive => l.cabDrive.fresh
  | .cabHitch => l.cabHitch.fresh
  | .implement => l.implement.fresh
  | .service => l.service.fresh

/-- Time since the last frame of a group's record, in µs. -/
def Lc.since (l : Lc) : PeerGroup → Nat
  | .engine => l.engine.since
  | .brake => l.brake.since
  | .cabDrive => l.cabDrive.since
  | .cabHitch => l.cabHitch.since
  | .implement => l.implement.since
  | .service => l.service.since

/-- Last acted count of a group's record. -/
def Lc.lastActed (l : Lc) : PeerGroup → Option (BitVec 4)
  | .engine => l.engine.lastActed
  | .brake => l.brake.lastActed
  | .cabDrive => l.cabDrive.lastActed
  | .cabHitch => l.cabHitch.lastActed
  | .implement => l.implement.lastActed
  | .service => l.service.lastActed

/-- The record of a group becomes STALE and keeps its values (R191, R192). -/
def Lc.makeStale (l : Lc) : PeerGroup → Lc
  | .engine => { l with engine := { l.engine with fresh := .stale } }
  | .brake => { l with brake := { l.brake with fresh := .stale } }
  | .cabDrive => { l with cabDrive := { l.cabDrive with fresh := .stale } }
  | .cabHitch => { l with cabHitch := { l.cabHitch with fresh := .stale } }
  | .implement => { l with implement := { l.implement with fresh := .stale } }
  | .service => l

/-- The record of a group with a frame's data filed. -/
def Lc.fileData (l : Lc) (g : PeerGroup) (d : List Byte) : Lc :=
  let c := rollingCount d
  match g with
  | .engine => { l with engine := .file (engineFields d) c }
  | .brake => { l with brake := .file (brakeFields d) c }
  | .cabDrive => { l with cabDrive := .file (cabDriveFields d) c }
  | .cabHitch => { l with cabHitch := .file (cabHitchFields d) c }
  | .implement => { l with implement := .file (implementFields d) c }
  | .service => { l with service := .file (serviceFields d) c }

/-- The request events of a frame, from the record as it stood before it was filed (R193). A service
frame is a request when its count differs from the last acted count or meets none. -/
def Lc.edges (l : Lc) (g : PeerGroup) (d : List Byte) : List Request :=
  let c := rollingCount d
  match g with
  | .cabDrive => if l.cabDrive.acts c then cabDriveEdges d else []
  | .cabHitch => if l.cabHitch.acts c then cabHitchEdges d else []
  | .service =>
    if l.service.lastActed = some c then []
    else [.service (serviceFields d).code (serviceFields d).tag]
  | .engine | .brake | .implement => []

/-- The owner of a request takes it in this mode: an owner whose timers are stopped does not (R68, R116,
R169, R193). -/
def Request.takenIn (m : Mode) : Request → Bool
  | .shift _ | .hitchSwitch _ => m.controllersRun
  | .headland _ => m.headlandRuns
  | .acknowledge | .service _ _ => true

/-- Request events are delivered to their owners (R193). -/
def deliverRequests (l : List Request) (s : State) : State :=
  if s.mc.mode.delivers then
    s.withRequests (s.requests ++ l.filter fun r => r.takenIn s.mc.mode)
  else s

/-- The stale fault of a group is cleared. -/
def clearStale (g : PeerGroup) (s : State) : State :=
  match staleFault g with
  | some c => clearFault c s
  | none => s

/-- A frame of a consumed group is filed, then its edges are delivered (R191, R193). -/
def fileFrame (g : PeerGroup) (d : List Byte) (s : State) : State :=
  let edges := s.lc.edges g d
  let t := s.withLc (s.lc.fileData g d)
  let t := if s.lc.freshness g = .fresh then t else clearStale g t
  deliverRequests edges t

/-- A frame of a consumed group from the group's source, with the group's data length (R188, R189). -/
def filesAs (l : Lc) (id : BitVec 11) (d : List Byte) : Option PeerGroup :=
  match consumedGroup (groupOf id) with
  | some g => if l.sources.of g = some (stationOf id) ∧ d.length = peerLength g then some g else none
  | none => none

/-- A MUTED link counts every frame it takes (R201). -/
def countHeard (s : State) : State :=
  if s.lc.link = .muted then s.withLc { s.lc with received := s.lc.received + 1 } else s

/-- A frame taken without error (R188). -/
def takeFrame (id : BitVec 11) (d : List Byte) (s : State) : State :=
  let s := countHeard s
  if stationOf id = s.lc.sources.own then
    if s.lc.link = .conflict then s else enterConflict s
  else match filesAs s.lc id d with
    | some g => fileFrame g d s
    | none => s

def execFrameReceived (id : BitVec 11) (d : List Byte) (s : State) :
    Host.Outcome State Fault Refusal :=
  .next (if s.lc.takesFrames then takeFrame id d s else s)

/-- A FRESH record has reached its group's timeout (R192). -/
def peerExpired (g : PeerGroup) (s : State) : Bool :=
  s.lc.freshness g == .fresh &&
    (match peerTimeoutUs g with
     | some t => decide (t ≤ s.lc.since g)
     | none => false)

/-- The record becomes STALE and its fault is raised (R192). -/
def loseGroup (g : PeerGroup) (s : State) : State :=
  let s := s.withLc (s.lc.makeStale g)
  match staleFault g with
  | some c => raise c s
  | none => s

def execPeerTimeout (g : PeerGroup) (s : State) : Host.Outcome State Fault Refusal :=
  .next (if peerExpired g s then loseGroup g s else s)

/-! ## Timers that make frames -/

/-- The period timers run while the link is ACTIVE (R195). -/
def execPeriodTimer (g : Group) (s : State) : Host.Outcome State Fault Refusal :=
  .next (if s.lc.link = .active ∧ (periodicGroup g ∨ g = .faultReport) then publish g s else s)

/-- The torque-limit timer runs while the SHC's request is active (R196). -/
def execTorqueLimitTimer (s : State) : Host.Outcome State Fault Refusal :=
  .next (if s.shc.torque.isSome then publish .torqueLimit s else s)

/-! ## Attempts (R199) -/

/-- The queued entry of lowest identifier (R198). -/
def lowestEntry (q : List TxEntry) : Option TxEntry :=
  q.foldl (fun best e => match best with
    | some b => if groupNumber e.group < groupNumber b.group then some e else best
    | none => some e) none

/-- An attempt is started with an entry: its data goes to the bus and the entry is marked. -/
def startAttempt (e : TxEntry) (l : Lc) : Lc :=
  { l with
      attempt := some { group := e.group, data := e.data },
      queue := l.queue.map fun x =>
        if x.group = e.group then { x with attempting := true, replaced := false } else x }

/-- An attempt can start (R199). -/
def Lc.nextEntry (l : Lc) : Option TxEntry :=
  if l.link = .active ∧ l.attempt.isNone then lowestEntry l.queue else none

def execTransmitAttempt (s : State) : Host.Outcome State Fault Refusal :=
  .next (match s.lc.nextEntry with
    | some e => s.withLc (startAttempt e s.lc)
    | none => s)

/-- The entry of the attempt stays in the queue, no longer attempted. -/
def Lc.endAttempt (l : Lc) : Lc :=
  { l with attempt := none, queue := l.queue.map fun x => { x with attempting := false, replaced := false } }

/-- The entry that leaves the queue by the success of an attempt: attempted and not replaced. -/
def leaves (g : Group) (x : TxEntry) : Bool := x.group == g && x.attempting && !x.replaced

/-- Success (R199). -/
def Lc.succeed (g : Group) (l : Lc) : Lc :=
  { { l with queue := l.queue.filter fun x => !leaves g x, errors := l.errors - 1 }.endAttempt with
      attempt := none }

/-- The notice leaves the queue by this success (R203). -/
def noticeSent (g : Group) (s : State) : Bool :=
  g == .quietNotice && s.lc.quietTimer.isSome && s.lc.queue.any (leaves g)

def execAttemptSuccess (s : State) : Host.Outcome State Fault Refusal :=
  .next (match s.lc.attempt with
    | some a =>
      let t := s.withLc (s.lc.succeed a.group)
      if noticeSent a.group s then reportQuiet t else t
    | none => s)

def execArbitrationLost (s : State) : Host.Outcome State Fault Refusal :=
  .next (if s.lc.attempt.isSome then s.withLc s.lc.endAttempt else s)

/-- Failure: the error count rises by 8, and at 256 in ACTIVE the link becomes MUTED (R199, R201). -/
def failAttempt (s : State) : State :=
  let s := s.withLc { s.lc.endAttempt with errors := min errorLimit (s.lc.errors + errorStep) }
  if s.lc.link = .active ∧ s.lc.errors = errorLimit then enterMuted s else s

def execAttemptFailure (s : State) : Host.Outcome State Fault Refusal :=
  .next (if s.lc.attempt.isSome then failAttempt s else s)

/-! ## Link timers -/

/-- The mute timer and the received count let the link return (R201). -/
def muteOver (s : State) : Bool :=
  s.lc.link == .muted && decide (muteUs ≤ s.lc.muteTimer) && decide (muteFrames ≤ s.lc.received)

/-- The link returns from MUTED (R201). -/
def leaveMuted (s : State) : State :=
  enterActive (clearFault .linkMuted (s.withLc { s.lc with errors := 0 }))

def execMuteRecovery (s : State) : Host.Outcome State Fault Refusal :=
  .next (if muteOver s then leaveMuted s else s)

/-- LISTEN has lasted 500 ms. -/
def windowOver (s : State) : Bool := s.lc.link == .listen && decide (listenUs ≤ s.lc.listen)

/-- The window ends into ACTIVE and the LC tells the MC (R200). -/
def endWindow (s : State) : State :=
  let s := enterActive s
  s.withMc { s.mc with windowEnded := true }

def execListenWindowEnd (s : State) : Host.Outcome State Fault Refusal :=
  .next (if windowOver s then endWindow s else s)

/-! ## Service requests -/

/-- A service request of a code. -/
def Request.isService (code : Byte) : Request → Bool
  | .service c _ => c == code
  | _ => false

/-- A service request of a code no block takes (R194). -/
def Request.isUnknown : Request → Bool
  | .service c _ =>
    c != codeFaultAck && c != codeResetAdaptation && c != codeRecalibrate && c != codeControlRestart
  | _ => false

def execServiceRequestUnknown (s : State) : Host.Outcome State Fault Refusal :=
  .next (match takeRequest Request.isUnknown s with
    | some (.service code tag, s) => serviceAnswer code tag .refused .unknown s
    | some (_, s) => s
    | none => s)

end Sys2Proof.Machine
end

