-- ==== Sys2Proof/Machine/Speed.lean ====
section
/-! DEFINITION. The speed capture unit (01): edges (R3), the evaluation (R4 to R18, R21), loss and
recovery of a channel (R7 to R9), the ground-speed pulse output (R19, R20), and the meanings of its
commands. -/

namespace Sys2Proof.Machine

/-! ## Channels -/

/-- A pulse channel is fitted: RAD as configured, the others always (R2). -/
def State.fitted (s : State) : PulseChannel → Bool
  | .rad => s.cfg.radFitted
  | _ => true

def State.chan (s : State) (c : PulseChannel) : PulseRec := s.scu.chans.get c

def State.withChan (s : State) (c : PulseChannel) (r : PulseRec) : State :=
  s.withScu { s.scu with chans := s.scu.chans.set c r }

/-- Channels with a shaft value (R1). -/
def hasShaft : PulseChannel → Bool
  | .inp | .out => true
  | _ => false

/-- Channels with a travel value (R1). -/
def hasTravel : PulseChannel → Bool
  | .inp => false
  | _ => true

def maxTravel : Nat := 32767
def maxShaft : Nat := 8000

/-- Reported state: LOST while the lost flag is set, the motion state otherwise (R1). -/
def PulseRec.validity (r : PulseRec) : Validity :=
  if r.lost then .lost
  else match r.motion with
    | .stopped => .stopped
    | .moving => .moving

/-! ## Edges (R3) -/

/-- An edge with stamp `t` at a channel whose minimum spacing is `spacing`. -/
def PulseRec.edge (spacing : Nat) (t : Stamp) (r : PulseRec) : PulseRec :=
  if !r.refPresent then { r with refPresent := true, refStamp := t, newest := t, count := 0 }
  else if elapsed t r.newest < spacing then r
  else { r with count := r.count + 1, newest := t }

def execPulseEdge (c : PulseChannel) (s : State) : Host.Outcome State Fault Refusal :=
  .next (if s.mc.mode.sensingRuns && s.fitted c then
      s.withChan c ((s.chan c).edge (s.cfg.pulse.get c).minSpacing s.now)
    else s)

/-! ## Speeds (R5, R6) -/

/-- Travel value of `k` edges of `p` µm over `t` µs (R5). -/
def travelOf (k p t : Nat) : Nat := min maxTravel (k * p * 1000 / t)

/-- Shaft value of `k` edges at `n` edges a revolution over `t` µs (R5). -/
def shaftOf (k n t : Nat) : Nat := min maxShaft (k * 60000000 / (n * t))

/-- One second in µs, at which the reference is discarded (R6). -/
def idleLimit : Nat := 1000000

/-- The smaller of a value and its single-edge ceiling (R6); at no silence at all the ceiling is a free
value (log 17). -/
def ceilBy (free : Nat) (ceiling : Nat → Nat) (idle v : Nat) : Nat :=
  min v (if idle = 0 then free else ceiling idle)

/-- Evaluation of one fitted channel at stamp `now` (R5, R6). -/
def PulseRec.evaluate (c : PulseChannel) (cfg : PulseCfg) (now : Stamp) (r : PulseRec) : PulseRec :=
  if 1 ≤ r.count then
    let span := elapsed r.newest r.refStamp
    { r with
        travel := if hasTravel c then travelOf r.count cfg.travelPer span else 0,
        shaft := if hasShaft c then shaftOf r.count cfg.perRev span else 0,
        refStamp := r.newest, count := 0, motion := .moving }
  else if !r.refPresent then { r with travel := 0, shaft := 0, motion := .stopped }
  else
    let idle := elapsed now r.refStamp
    if idleLimit ≤ idle then
      { r with travel := 0, shaft := 0, motion := .stopped, refPresent := false }
    else
      { r with
          travel := if hasTravel c then
            ceilBy (Config.noSilenceCeiling c false now) (travelOf 1 cfg.travelPer) idle r.travel
            else 0,
          shaft := if hasShaft c then
            ceilBy (Config.noSilenceCeiling c true now) (shaftOf 1 cfg.perRev) idle r.shaft
            else 0 }

/-- A channel not fitted keeps 0 and STOPPED (R2). -/
def evaluateChannel (s : State) (c : PulseChannel) : State :=
  s.withChan c (if s.fitted c then (s.chan c).evaluate c (s.cfg.pulse.get c) s.now
    else { s.chan c with travel := 0, shaft := 0, motion := .stopped })

/-! ## Loss and recovery (R7 to R9) -/

/-- The pedal and input conditions under which OUT should be turning (R7, R9). -/
def drivingThrough (s : State) : Bool :=
  s.shc.state == .inGear && decide (s.shc.pedal ≤ 10) && decide (800 < (s.chan .inp).shaft)

/-- A FRESH engine record reports a speed above 800 rpm (R7, R9). -/
def engineTurns (s : State) : Bool :=
  match s.engineSpeed with
  | some n => decide (800 < n)
  | none => false

/-- The loss check of a channel (R7). -/
def lossCheck (s : State) (c : PulseChannel) : Bool :=
  (s.chan c).motion == .stopped &&
    (match c with
     | .out => drivingThrough s
     | .frt => decide (1500 < (s.chan .out).travel)
     | .rad => decide (1500 < (s.chan .out).travel) && decide (1000 < (s.chan .frt).travel)
     | .inp => engineTurns s)

/-- Evaluations to LOST (R7). -/
def lossLimit : PulseChannel → Nat
  | .inp => 100
  | _ => 200

/-- Evaluations to recovery (R9). -/
def recoveryLimit : Nat := 200

/-- A loss timer has reached its limit (R7). -/
def lossDue (c : PulseChannel) (s : State) : Bool :=
  s.fitted c && !(s.chan c).lost && decide (lossLimit c ≤ (s.chan c).lossTimer)

/-- A channel enters LOST (R8). -/
def loseChannel (c : PulseChannel) (s : State) : State :=
  raise (.lost c) (s.withChan c { s.chan c with lost := true, lossTimer := 0, recTimer := 0 })

/-- The loss check of one channel, with the loss it may lead to. -/
def checkLoss (s : State) (c : PulseChannel) : State :=
  if s.fitted c && !(s.chan c).lost then
    let s := s.withChan c
      { s.chan c with lossTimer := if lossCheck s c then (s.chan c).lossTimer + 1 else 0 }
    if lossDue c s then loseChannel c s else s
  else s

/-- The expectation E of a LOST channel, where it is available (R9). -/
def expectation (s : State) (c : PulseChannel) : Option Nat :=
  match c with
  | .out =>
    if drivingThrough s && !(s.chan .inp).lost then
      s.shc.current.map fun g => (s.chan .inp).shaft * 1000 / s.cfg.ratioOf g
    else none
  | .frt =>
    if 1500 < (s.chan .out).travel ∧ (s.chan .out).lost = false then some (s.chan .out).travel else none
  | .rad =>
    if 1000 < (s.chan .frt).travel ∧ (s.chan .frt).lost = false then some (s.chan .frt).travel else none
  | .inp => if engineTurns s then s.engineSpeed else none

/-- The channel's own value in the recovery check (R9). -/
def ownValue (s : State) : PulseChannel → Nat
  | .out => (s.chan .out).shaft
  | .frt => (s.chan .frt).travel
  | .rad => (s.chan .rad).travel
  | .inp => (s.chan .inp).shaft

/-- `v` lies within 20 % of `e` (R9). -/
def within20 (v e : Nat) : Bool := decide (((v : Int) - e).natAbs * 5 ≤ e)

/-- The recovery check (R9). -/
def recoveryCheck (s : State) (c : PulseChannel) : Bool :=
  match expectation s c with
  | some e => within20 (ownValue s c) e
  | none => false

/-- A recovery timer has reached its limit (R9). -/
def recoveryDue (c : PulseChannel) (s : State) : Bool :=
  (s.chan c).lost && decide (recoveryLimit ≤ (s.chan c).recTimer)

/-- A channel leaves LOST (R9). -/
def recoverChannel (c : PulseChannel) (s : State) : State :=
  clearFault (.lost c) (s.withChan c { s.chan c with lost := false, recTimer := 0 })

/-- The recovery check of one channel, with the recovery it may lead to. -/
def checkRecovery (s : State) (c : PulseChannel) : State :=
  if (s.chan c).lost then
    let s := s.withChan c
      { s.chan c with recTimer := if recoveryCheck s c then (s.chan c).recTimer + 1 else 0 }
    if recoveryDue c s then recoverChannel c s else s
  else s

def execChannelLost (c : PulseChannel) (s : State) : Host.Outcome State Fault Refusal :=
  .next (if s.mc.mode.sensingRuns && lossDue c s then loseChannel c s else s)

def execChannelRecovered (c : PulseChannel) (s : State) : Host.Outcome State Fault Refusal :=
  .next (if s.mc.mode.sensingRuns && recoveryDue c s then recoverChannel c s else s)

/-! ## Ground reference and slip (R10 to R15) -/

/-- The ground source (R10). -/
def groundSource (s : State) : GroundSource :=
  if s.cfg.radFitted ∧ (s.chan .rad).lost = false then .radar
  else if (s.chan .frt).lost = false ∧ s.fdc.state = .released ∧ 500 ≤ s.fdc.time then .front
  else .none

/-- The reported ground speed (R11). -/
def groundSpeed (s : State) : GroundSource → Nat
  | .radar => (s.chan .rad).travel
  | .front => (s.chan .frt).travel
  | .none => (s.chan .out).travel

/-- Slip validity (R12). -/
def slipValidity (src : GroundSource) (vr vg : Nat) : SlipValidity :=
  if src = .none then .unavailable
  else if vr < 500 ∧ vg < 500 then .lowSpeed
  else .valid

/-- Slip S in per mille (R13). -/
def slipOf (v : SlipValidity) (vr vg : Nat) : Int :=
  if v = .valid then
    if vg ≤ vr then truncDiv (((vr : Int) - vg) * 1000) vr else truncDiv (((vr : Int) - vg) * 1000) vg
  else 0

/-- Division by 8 rounded to the nearest, ties away from zero (R14). -/
def roundEighth (x : Int) : Int :=
  if 0 ≤ x then truncDiv (x + 4) 8 else truncDiv (x - 4) 8

/-- The filtered slip (R14, R15), from the motion record before. -/
def filterSlip (old : MotionRec) (src : GroundSource) (v : SlipValidity) (slip : Int) : Int :=
  match v with
  | .valid =>
    if src ≠ old.source ∨ old.slipVal ≠ .valid then slip else roundEighth (7 * old.filtered + slip)
  | .lowSpeed => 0
  | .unavailable => old.filtered

/-! ## Standstill, direction, distance (R16 to R18) -/

def standstillOf (src : GroundSource) (vr vg : Nat) : Bool :=
  decide (vr < 100) && (src == .none || decide (vg < 100))

def directionOf (k : Shc) : TravelDir :=
  if k.clutches.fwd.state = .locked then .forward
  else if k.clutches.rev.state = .locked then .reverse
  else .unknown

/-- The motion record of one evaluation (R21). -/
def motionOf (s : State) : MotionRec :=
  let src := groundSource s
  let vr := (s.chan .out).travel
  let vg := groundSpeed s src
  let val := slipValidity src vr vg
  let slip := slipOf val vr vg
  { vRear := vr, rearVal := (s.chan .out).validity
    vFront := (s.chan .frt).travel, frontVal := (s.chan .frt).validity
    vRadar := (s.chan .rad).travel, radarVal := (s.chan .rad).validity
    radarFitted := s.cfg.radFitted
    vGround := vg, source := src
    inpRpm := (s.chan .inp).shaft, inputVal := (s.chan .inp).validity
    outRpm := (s.chan .out).shaft
    slip := slip, filtered := filterSlip s.scu.motion src val slip, slipVal := val
    standstill := standstillOf src vr vg, direction := directionOf s.shc
    travel := s.scu.motion.travel + BitVec.ofNat 32 (10 * vg) }

/-- The four channels evaluated, then checked for loss, then for recovery (R4, log 16). -/
def evaluateChannels (s : State) : State :=
  let s := PulseChannel.all.foldl evaluateChannel s
  let s := PulseChannel.all.foldl checkLoss s
  PulseChannel.all.foldl checkRecovery s

/-- One evaluation (R4, R21). -/
def evaluateSpeeds (s : State) : State :=
  let s := evaluateChannels s
  s.withScu { s.scu with motion := motionOf s }

def execSpeedEvaluation (s : State) : Host.Outcome State Fault Refusal :=
  .next (if s.mc.mode.sensingRuns then evaluateSpeeds s else s)

/-! ## Ground-speed pulse output (R19, R20) -/

/-- The pulse's length in µs. -/
def pulseUs : Nat := 500

/-- The accumulator and whether a pulse is emitted, at one expiry of the output timer (R19). -/
def accumulate (pitch vg acc : Nat) : Nat × Bool :=
  let sum := acc + vg
  let emit := decide (pitch ≤ sum)
  let rest := if emit then sum - pitch else sum
  (if 2 * pitch ≤ rest then pitch - 1 else rest, emit)

def pulseTick (s : State) : State :=
  let r := accumulate s.cfg.pulsePitch s.scu.motion.vGround s.scu.acc
  if r.2 then s.withScu { s.scu with acc := r.1, pulseHigh := true, pulseAge := 0 }
  else s.withScu { s.scu with acc := r.1 }

def execGroundPulseTimer (s : State) : Host.Outcome State Fault Refusal :=
  .next (if s.mc.mode.sensingRuns then pulseTick s else s)

/-- The pulse has lasted 500 µs (R20). -/
def pulseOver (s : State) : Bool := s.scu.pulseHigh && decide (pulseUs ≤ s.scu.pulseAge)

def execGroundPulseEnd (s : State) : Host.Outcome State Fault Refusal :=
  .next (if pulseOver s then s.withScu { s.scu with pulseHigh := false } else s)

/-- The SCU stops: the output low, the accumulator 0 (R20). -/
def stopScu (s : State) : State := s.withScu { s.scu with acc := 0, pulseHigh := false, pulseAge := 0 }

end Sys2Proof.Machine
end

