-- ==== Sys2Proof/Machine/Sensors.lean ====
section
/-! DEFINITION. The sensor front end (02): bits, sinc filters and the watchdog (R27 to R32), conversion
(R29), comparators (R34 to R38), phase calibration and demodulation (R39 to R44), and the meanings of its
commands. -/

namespace Sys2Proof

/-- The range of a channel in its unit (02, section 2.1). -/
def Sensor.range : Sensor → Int × Int
  | .drl | .drr => (-8000, 8000)
  | .hps => (0, 1000)
  | .sup => (0, 2500)
  | .chg => (0, 400)
  | .tbr => (0, 1600)
  | .tcl => (0, 2000)
  | .tsl => (0, 500)
  | .oil => (-40, 150)

end Sys2Proof

namespace Sys2Proof.Machine

def State.sensor (s : State) (x : Sensor) : SensorRec := s.sfe.chans.get x

def State.withSensor (s : State) (x : Sensor) (r : SensorRec) : State :=
  s.withSfe { s.sfe with chans := s.sfe.chans.set x r }

def State.withCal (s : State) (c : CalRec) : State := s.withSfe { s.sfe with cal := c }

/-! ## The lines the SFE drives (R27, R40) -/

/-- How the excitation coil stands (R27, R40). -/
inductive CoilDrive where
  | idle | positive | negative
  deriving DecidableEq, Repr

/-- The modulator clock line is driven while the SFE runs and held idle in the other modes (R27). -/
def State.clockDriven (s : State) : Bool := s.mc.mode.sensingRuns

/-- The excitation coil: positive for a 1 and negative for a 0 of the pattern bit being played, idle while
the SFE does not run (R27, R40) or no pattern is configured. -/
def State.coilDrive (s : State) : CoilDrive :=
  if s.mc.mode.sensingRuns then
    match s.cfg.pattern[s.sfe.slot]? with
    | some true => .positive
    | some false => .negative
    | none => .idle
  else .idle

/-! ## Sinc filters (R28) -/

/-- Each sum in turn takes itself plus what comes before it. -/
def integrate (carry : Int) : List Int → List Int
  | [] => []
  | x :: xs => (x + carry) :: integrate (x + carry) xs

/-- The combs in turn: the last output, and the memories after. -/
def comb (input : Int) : List Int → Int × List Int
  | [] => (input, [])
  | m :: ms =>
    let r := comb (input - m) ms
    (r.1, input :: r.2)

/-- One bit into a filter of a given OSR: the filter after, and a raw output at every OSR-th clock. -/
def Sinc.take (osr : Nat) (bit : Bool) (f : Sinc) : Sinc × Option Int :=
  let sums := integrate (if bit then 1 else 0) f.sums
  if osr ≤ f.clocks + 1 then
    let r := comb (sums.getLastD 0) f.combs
    ({ sums := sums, combs := r.2, clocks := 0 }, some r.1)
  else ({ f with sums := sums, clocks := f.clocks + 1 }, none)

/-! ## Bits and the watchdog (R27, R31, R32) -/

/-- Clocks without a change to FAILED, and healthy clocks to recovery. -/
def stuckClocks : Nat := 64
def healthyClocks : Nat := 1000

/-- The run count after a bit (R31); it is held at 64. -/
def nextRun (last : Option Bool) (bit : Bool) (run : Nat) : Nat :=
  match last with
  | none => 0
  | some b => if b = bit then min stuckClocks (run + 1) else 0

/-- The later of two outputs completed and not yet taken. -/
def keepLast (old new : Option Int) : Option Int :=
  match new with
  | some r => some r
  | none => old

/-- One modulator clock on a channel: its bit goes to the counts and, outside FAILED, to the filters
(R28, R31, R32, R34, R39). -/
def SensorRec.takeBit (hasMain : Bool) (c : SensorCfg) (bit : Bool) (r : SensorRec) : SensorRec :=
  let run := nextRun r.lastBit bit r.runCount
  match r.state with
  | .off => r
  | .failed =>
    { r with lastBit := some bit, runCount := run,
             recCount := if run < stuckClocks then min healthyClocks (r.recCount + 1) else 0 }
  | .starting | .valid =>
    let m := r.main.take c.mainOsr bit
    let f := r.fast.take c.fastOsr bit
    { r with lastBit := some bit, runCount := run,
             main := if hasMain then m.1 else r.main,
             mainDone := if hasMain then keepLast r.mainDone m.2 else r.mainDone,
             fast := f.1, fastDone := keepLast r.fastDone f.2 }

/-! ## Conversion (R29) -/

/-- A raw output normalised to 0 to 65,536. -/
def normalise (order osr : Nat) (r : Int) : Int := truncDiv (r * 65536) (osr ^ order : Nat)

/-- The engineering value before clamping. -/
def scale (c : SensorCfg) (n : Int) : Int := truncDiv ((n - c.zero) * c.gain) 65536

/-- A value clamped to the channel's range, and whether it was clamped. -/
def clampRange (x : Sensor) (v : Int) : Int × Bool :=
  let w := clampInt x.range.1 x.range.2 v
  (w, decide (w ≠ v))

/-! ## State changes of a channel (R30 to R33) -/

/-- A STARTING channel discards an output; at the third it becomes VALID and its owners are told (R30,
R33, R37). -/
def discardOutput (x : Sensor) (s : State) : State :=
  let r := s.sensor x
  if r.discard ≤ 1 then
    deliver x .valid 0 (s.withSensor x { r with discard := 0, state := .valid, cmp := .inRange })
  else s.withSensor x { r with discard := r.discard - 1 }

/-- The value and the mark are written together (R29). -/
def writeValue (x : Sensor) (v : Int × Bool) (s : State) : State :=
  s.withSensor x { s.sensor x with value := v.1, atLimit := v.2 }

/-- A completed main output is taken (R28 to R30). -/
def takeMain (x : Sensor) (raw : Int) (s : State) : State :=
  let s := s.withSensor x { s.sensor x with mainDone := none }
  let c := s.cfg.sensors.get x
  match (s.sensor x).state with
  | .starting => discardOutput x s
  | .valid => writeValue x (clampRange x (scale c (normalise c.mainOrder c.mainOsr raw))) s
  | .off | .failed => s

/-- The main output that waits, while the SFE runs (R27); HPS has no main path (R39). -/
def mainWaiting (x : Sensor) (s : State) : Option Int :=
  if s.mc.mode.sensingRuns && x != .hps then (s.sensor x).mainDone else none

def execMainOutput (x : Sensor) (s : State) : Host.Outcome State Fault Refusal :=
  .next (match mainWaiting x s with
    | some raw => takeMain x raw s
    | none => s)

/-! ## Comparators (R34 to R38) -/

/-- The comparator state after the leaving tests of R35 and R36, and the event that a change delivers. -/
def cmpLeave (c : SensorCfg) (v : Int) (k : CmpState) : CmpState × Option SfeEvent :=
  match k with
  | .high => if v < c.high - c.highHyst then (.inRange, some .highLeave) else (.high, none)
  | .low => if c.low + c.lowHyst < v then (.inRange, some .lowLeave) else (.low, none)
  | .inRange => (.inRange, none)

/-- The comparator state after the entering tests of the enabled sides, and the event of a change. -/
def cmpEnter (c : SensorCfg) (v : Int) (k : CmpState) : CmpState × Option SfeEvent :=
  if k ≠ .inRange then (k, none)
  else if c.lowOn = true ∧ v ≤ c.low then (.low, some .lowEnter)
  else if c.highOn = true ∧ c.high ≤ v then (.high, some .highEnter)
  else (.inRange, none)

/-- A comparator event goes to every owner; no event goes to none. -/
def deliverIf (x : Sensor) (ev : Option SfeEvent) (v : Int) (s : State) : State :=
  match ev with
  | some e => deliver x e v s
  | none => s

/-- A VALID channel's comparator evaluated at a fast value (R35, R36). -/
def compare (x : Sensor) (v : Int) (s : State) : State :=
  let c := s.cfg.sensors.get x
  let l := cmpLeave c v (s.sensor x).cmp
  let e := cmpEnter c v l.1
  let s := s.withSensor x { s.sensor x with cmp := e.1 }
  deliverIf x e.2 v (deliverIf x l.2 v s)

/-- A completed HPS fast output becomes the slot value, and is discarded in STARTING (R30, R39). -/
def takeSlotOutput (raw : Int) (s : State) : State :=
  let c := s.cfg.sensors.hps
  let s := s.withSensor .hps { s.sensor .hps with fastDone := none }
  let s := s.withSfe { s.sfe with slotValue := normalise c.fastOrder c.fastOsr raw - 32768 }
  if (s.sensor .hps).state = .starting then discardOutput .hps s else s

/-- A completed fast output of another channel (R34). -/
def takeFast (x : Sensor) (raw : Int) (s : State) : State :=
  let c := s.cfg.sensors.get x
  let s := s.withSensor x { s.sensor x with fastDone := none }
  if (s.sensor x).state = .valid then
    compare x (clampRange x (scale c (normalise c.fastOrder c.fastOsr raw))).1 s
  else s

/-- The fast output that waits, while the SFE runs (R27). -/
def fastWaiting (x : Sensor) (s : State) : Option Int :=
  if s.mc.mode.sensingRuns then (s.sensor x).fastDone else none

def execFastOutput (x : Sensor) (s : State) : Host.Outcome State Fault Refusal :=
  .next (match fastWaiting x s with
    | some raw => if x = .hps then takeSlotOutput raw s else takeFast x raw s
    | none => s)

/-! ## Phase calibration (R41, R42) -/

/-- Pattern bit `j` as +1 or −1 (R40). -/
def patternSign (p : List Bool) (j : Nat) : Int := if p.getD j false then 1 else -1

/-- The index (i − d) modulo L. -/
def shifted (len i d : Nat) : Nat := (i + len - d) % len

/-- The slots whose recorded sign equals the sign of the shifted pattern bit (R42). -/
def matchCount (p signs : List Bool) (d : Nat) : Nat :=
  ((List.range p.length).filter fun i =>
    signs.getD i false == p.getD (shifted p.length i d) false).length

/-- The smallest offset that matches all slots but two (R42). -/
def findOffset (p signs : List Bool) : Option Nat :=
  (List.range p.length).find? fun d => decide (p.length ≤ matchCount p signs d + 2)

/-- The second result of the service request that started the calibration (R44). -/
def answerCal (why : ServiceReason) (s : State) : State :=
  match s.sfe.cal.tag with
  | some tag =>
    serviceAnswer codeRecalibrate tag .done why (s.withCal { s.sfe.cal with tag := none })
  | none => s

/-- Calibration becomes DONE with an offset (R42); the sign list is emptied (log 87). -/
def calDone (d : Nat) (s : State) : State :=
  answerCal .none (clearFault .hpsCalFailed
    (s.withCal { s.sfe.cal with state := .done, offset := some d, signs := [], recording := false }))

/-- Calibration becomes FAILED (R41, R42); the sign list is emptied (log 87). -/
def calFailed (s : State) : State :=
  answerCal .calFailed (raise .hpsCalFailed
    (s.withCal { s.sfe.cal with state := .failed, offset := none, signs := [], recording := false }))

/-- Position validity is cleared and the amplitude in progress discarded (R43). -/
def dropPosition (s : State) : State := s.withSfe { s.sfe with posValid := false, amplitude := none }

/-- A calibration request that is not refused (R41), with the tag of a service request. -/
def requestCalibration (tag : Option Byte) (s : State) : State :=
  let s := dropPosition s
  if (s.sensor .hps).state = .off then calFailed (s.withCal { s.sfe.cal with tag := tag })
  else s.withCal { state := .running, offset := none, start := s.now, signs := [], recording := false,
                   tag := tag }

/-- 200 ms in µs (R42). -/
def calTimeout : Nat := 200000

/-- A RUNNING calibration is out of time. -/
def calOver (s : State) : Bool :=
  s.sfe.cal.state == .running && decide (calTimeout ≤ elapsed s.now s.sfe.cal.start)

def execCalibrationTimeout (s : State) : Host.Outcome State Fault Refusal :=
  .next (if s.mc.mode.sensingRuns && calOver s then calFailed s else s)

/-! ## Slots (R40, R42, R43) -/

/-- The slot that ends is recorded, and a full period is tested (R42). -/
def recordSlot (s : State) : State :=
  if s.sfe.cal.state = .running ∧ s.sfe.cal.recording = true then
    let signs := s.sfe.cal.signs ++ [decide (0 ≤ s.sfe.slotValue)]
    if s.cfg.pattern.length ≤ s.sfe.slot + 1 then
      match findOffset s.cfg.pattern signs with
      | some d => calDone d s
      | none => calFailed s
    else s.withCal { s.sfe.cal with signs := signs }
  else s

/-- The position of an amplitude, and whether it was clamped (R43). -/
def positionOf (c : Image) (a : Int) : Int × Bool :=
  clampRange .hps (truncDiv ((a - c.aBottom) * 1000) (c.aTop - c.aBottom))

/-- The slot that ends is added to the amplitude, and a full period gives a position (R43). -/
def demodulateSlot (s : State) : State :=
  match s.sfe.amplitude, s.sfe.cal.offset with
  | some a, some d =>
    let len := s.cfg.pattern.length
    let a := a + s.sfe.slotValue * patternSign s.cfg.pattern (shifted len s.sfe.slot d)
    if len ≤ s.sfe.slot + 1 then
      let s := writeValue .hps (positionOf s.cfg a) s
      s.withSfe { s.sfe with posValid := true, amplitude := none }
    else s.withSfe { s.sfe with amplitude := some a }
  | _, _ => s

/-- The next pattern bit; at bit 0 a period begins (R40, R42, R43), always with an empty sign list
(log 87). -/
def nextSlot (s : State) : State :=
  if s.sfe.slot + 1 < s.cfg.pattern.length then s.withSfe { s.sfe with slot := s.sfe.slot + 1 }
  else
    let valid := (s.sensor .hps).state == .valid
    s.withSfe { s.sfe with
      slot := 0,
      cal := { s.sfe.cal with recording := s.sfe.cal.state == .running && valid, signs := [] },
      amplitude := if s.sfe.cal.state == .done && valid then some 0 else none }

/-- A slot ends (R40). The amplitude is that of a DONE calibration as it stood in the period. -/
def endSlot (s : State) : State := nextSlot (recordSlot (demodulateSlot s))

def execExcitationSlot (s : State) : Host.Outcome State Fault Refusal :=
  .next (if s.mc.mode.sensingRuns then endSlot s else s)

/-! ## Watchdog events (R31, R32) -/

/-- The run count has reached 64 in STARTING or VALID (R31). -/
def streamStuck (x : Sensor) (s : State) : Bool :=
  ((s.sensor x).state == .starting || (s.sensor x).state == .valid) &&
    decide (stuckClocks ≤ (s.sensor x).runCount)

/-- HPS leaves VALID: validity, amplitude and recorded signs are gone (R42, R43). -/
def hpsLeavesValid (s : State) : State :=
  let s := dropPosition s
  s.withCal { s.sfe.cal with signs := [], recording := false }

/-- A channel enters FAILED (R31, R33). -/
def failStream (x : Sensor) (s : State) : State :=
  let s := s.withSensor x { s.sensor x with state := .failed, cmp := .inRange, recCount := 0 }
  let s := if x = .hps then hpsLeavesValid s else s
  deliver x .failed 0 (raise (.stream x) s)

def execStreamFailed (x : Sensor) (s : State) : Host.Outcome State Fault Refusal :=
  .next (if s.mc.mode.sensingRuns && streamStuck x s then failStream x s else s)

/-- The recovery count of a FAILED channel has reached 1,000 (R32). -/
def streamHealthy (x : Sensor) (s : State) : Bool :=
  (s.sensor x).state == .failed && decide (healthyClocks ≤ (s.sensor x).recCount)

/-- A channel's working state at entry to STARTING (R28, R30 to R32). R32 does not say what the recovery
count becomes; it becomes 0 (log 70). -/
def SensorRec.restart (c : SensorCfg) (r : SensorRec) : SensorRec :=
  { r with state := .starting, discard := 3, recCount := 0, lastBit := none,
           main := .clear c.mainOrder, fast := .clear c.fastOrder, mainDone := none, fastDone := none }

/-- A FAILED channel enters STARTING (R32, R33). -/
def restartStream (x : Sensor) (s : State) : State :=
  deliver x .starting 0 (clearFault (.stream x)
    (s.withSensor x ((s.sensor x).restart (s.cfg.sensors.get x))))

def execStreamRecovery (x : Sensor) (s : State) : Host.Outcome State Fault Refusal :=
  .next (if s.mc.mode.sensingRuns && streamHealthy x s then restartStream x s else s)

/-! ## Recalibration (R44) -/

/-- Parked at standstill, as R44 and R212 test it. -/
def State.parkedStill (s : State) : Bool := s.shc.state == .parked && s.scu.motion.standstill

/-- The request is taken (R44). -/
def recalibrate (tag : Byte) (s : State) : State :=
  if s.mc.mode ≠ .operating then serviceAnswer codeRecalibrate tag .refused .busy s
  else if s.parkedStill then
    if s.sfe.cal.state = .running then serviceAnswer codeRecalibrate tag .refused .busy s
    else requestCalibration (some tag) (serviceAnswer codeRecalibrate tag .accepted .none s)
  else serviceAnswer codeRecalibrate tag .refused .notParked s

def execRecalibratePosition (s : State) : Host.Outcome State Fault Refusal :=
  .next (match takeRequest (Request.isService codeRecalibrate) s with
    | some (.service _ tag, s) => recalibrate tag s
    | some (_, s) => s
    | none => s)

end Sys2Proof.Machine
end

