-- ==== Sys2Proof/Machine/FrontDrive.lean ====
section
/-! DEFINITION. The front drive controller (05): the reason set (R107 to R112), the state of the axle
(R101 to R104), the mode and its override (R105, R106), the front/rear check (R113), and the meanings of
its commands. -/

namespace Sys2Proof.Machine

/-! ## States (R102 to R104) -/

/-- The empty timer's length in intervals, and the times in state in ms (R102 to R104). -/
def emptyLimit : Nat := 200
def engagedHold : Nat := 1000
def travelHold : Nat := 200

/-- FDV is ON in RELEASING and RELEASED (05, section 5.2). -/
def FdcState.fdv : FdcState → Bool
  | .releasing | .released => true
  | .engaged | .engaging => false

/-- The FDC writes the FDV command of its state to output 10 (R101). -/
def writeFdv (s : State) : State :=
  writeCommand .fdv (if s.fdc.state.fdv then 1 else 0) (s.withFdc { s.fdc with fdvOn := s.fdc.state.fdv })

/-- A change of state: the time in state becomes 0 and FDV is commanded (R102, R103). -/
def enterFdc (st : FdcState) (s : State) : State :=
  writeFdv (s.withFdc { s.fdc with state := st, time := 0 })

def Reasons.isEmpty (r : Reasons) : Bool := r == .none

/-- Release is due (R102): the set has stayed empty. -/
def releaseDue (s : State) : Bool :=
  s.fdc.state == .engaged && s.fdc.reasons.isEmpty && decide (emptyLimit ≤ s.fdc.empty) &&
    decide (engagedHold ≤ s.fdc.time)

/-- A reason turns an opening or open axle back (R103). -/
def engageDue (s : State) : Bool :=
  (s.fdc.state == .releasing || s.fdc.state == .released) && !s.fdc.reasons.isEmpty

/-- RELEASING is complete (R103). -/
def releasedDue (s : State) : Bool :=
  s.fdc.state == .releasing && s.fdc.reasons.isEmpty && decide (travelHold ≤ s.fdc.time)

/-- ENGAGING is complete (R104). -/
def engagedDue (s : State) : Bool :=
  s.fdc.state == .engaging && decide (travelHold ≤ s.fdc.time)

/-- Step 5 of an interval (R101). -/
def actFdc (s : State) : State :=
  if releaseDue s then enterFdc .releasing s
  else if engageDue s then enterFdc .engaging s
  else if releasedDue s then enterFdc .released s
  else if engagedDue s then enterFdc .engaged s
  else s

/-- A reason set by an event acts at once under R103. -/
def actOnReason (s : State) : State := if engageDue s then enterFdc .engaging s else s

def State.withReasons (s : State) (r : Reasons) : State := s.withFdc { s.fdc with reasons := r }

/-! ## Mode (R105, R106) -/

/-- The cab's mode field as taken against the value seen (R105). -/
def Fdc.takeMode (m : FrontMode) (f : Fdc) : Fdc :=
  if f.cabSeen = some m then f else { f with cabSeen := some m, mode := m, source := .cab }

/-- Step 2 (R105). -/
def takeCabMode (s : State) : State :=
  match s.lc.cabDrive.current with
  | some d => s.withFdc (s.fdc.takeMode (frontOfCode d.front))
  | none => s

/-- The FDC is offered a FRONT_MODE step (R106). -/
def acceptFrontMode (m : FrontMode) (s : State) : State :=
  if s.mc.mode.controllersRun then s.withFdc { s.fdc with mode := m, source := .headland } else s

/-! ## Reasons (R107 to R112) -/

/-- The hitch suppresses automatic engagement (R108). -/
def hitchSuppresses (s : State) : Bool := s.htc.state == .raising || s.htc.state == .transport

/-- AUTO_SPEED and AUTO_SLIP apply (R107, R108). -/
def autoApplies (s : State) : Bool := s.fdc.mode == .auto && !hitchSuppresses s

/-- AUTO_SPEED at an interval (R107). -/
def autoSpeed (s : State) : Bool :=
  autoApplies s &&
    (if s.scu.motion.vGround < 4000 then true
     else if 4400 < s.scu.motion.vGround then false
     else s.fdc.reasons.autoSpeed)

/-- The slip clear timer's length in intervals (R108). -/
def slipClearLimit : Nat := 200

/-- AUTO_SLIP is cleared and its timer becomes 0 (R108). -/
def clearAutoSlip (s : State) : State :=
  s.withFdc { s.fdc with slipClear := 0, reasons := { s.fdc.reasons with autoSlip := false } }

/-- The slip clear timer has reached 200. -/
def slipClearDue (s : State) : Bool := decide (slipClearLimit ≤ s.fdc.slipClear)

/-- AUTO_SLIP at an interval (R108). -/
def updateAutoSlip (s : State) : State :=
  if !autoApplies s then clearAutoSlip s
  else if s.scu.motion.slipVal ≠ .valid then s.withFdc { s.fdc with slipClear := 0 }
  else if 150 < s.scu.motion.filtered then
    s.withFdc { s.fdc with slipClear := 0, reasons := { s.fdc.reasons with autoSlip := true } }
  else if s.scu.motion.filtered < 80 then
    let s := s.withFdc { s.fdc with slipClear := s.fdc.slipClear + 1 }
    if slipClearDue s then clearAutoSlip s else s
  else s.withFdc { s.fdc with slipClear := 0 }

/-- BRAKING and BRAKE_UNMEASURED from the brake pressure in force (R109). -/
def Reasons.withBrake (p : Option Nat) (r : Reasons) : Reasons :=
  match p with
  | Option.none => { r with brakeUnmeasured := true, braking := false }
  | Option.some v => { r with brakeUnmeasured := false, braking := decide (150 < v) }

/-- The TBC has written the brake pressure in force: the brake event (R109). The FDC takes it while its
timer runs. -/
def brakeEvent (s : State) : State :=
  if s.mc.mode.controllersRun then actOnReason (s.withReasons (s.fdc.reasons.withBrake s.tbc.brake)) else s

/-- Step 3 (R107 to R112): every reason from the records as they stand. -/
def updateReasons (s : State) : State :=
  let s := updateAutoSlip s
  let r : Reasons :=
    { s.fdc.reasons with
        modeOn := s.fdc.mode == .on
        autoSpeed := autoSpeed s
        lowCharge := s.chargeDoubt
        shuttle := s.shc.state == .shuttling || s.shc.state == .engaging
        standstill := s.shc.state == .parked
        fault := s.vdb.faulted .fdv
        start := s.fdc.reasons.start && !(s.mc.mode == .operating) }
  s.withReasons (r.withBrake s.tbc.brake)

/-- Step 4: the empty timer (R101). -/
def countEmpty (s : State) : State :=
  s.withFdc { s.fdc with empty := if s.fdc.reasons.isEmpty then min emptyLimit (s.fdc.empty + 1) else 0 }

/-! ## Front and rear plausibility (R113) -/

/-- The plausibility timers' length in intervals. -/
def plausibleLimit : Nat := 200

/-- The check is made (R113). -/
def checkMade (s : State) : Bool :=
  s.fdc.state == .engaged && decide (1000 < s.scu.motion.vRear) &&
    s.scu.motion.rearVal != .lost && s.scu.motion.frontVal != .lost

/-- The check finds a deviation (R113). -/
def deviates (lead vr vf : Nat) : Bool :=
  let e := vr * lead / 1000
  decide (15 * vr < ((vf : Int) - e).natAbs * 100)

/-- The deviation timer has reached 200. -/
def deviationDue (s : State) : Bool := decide (plausibleLimit ≤ s.fdc.deviation)

/-- FRONT_SLIP is raised and the deviation timer becomes 0 (R113). -/
def raiseFrontSlip (s : State) : State := raise .frontSlip (s.withFdc { s.fdc with deviation := 0 })

/-- The agreement timer has reached 200 while FRONT_SLIP is active. -/
def agreementDue (s : State) : Bool :=
  decide (plausibleLimit ≤ s.fdc.agreement) && s.faultPresent .frontSlip

/-- FRONT_SLIP is cleared and the agreement timer becomes 0 (R113). -/
def clearFrontSlip (s : State) : State := clearFault .frontSlip (s.withFdc { s.fdc with agreement := 0 })

/-- Step 6 (R113); the agreement timer stays at 200 where FRONT_SLIP is not active (log 85). -/
def checkPlausible (s : State) : State :=
  if checkMade s then
    if deviates s.cfg.lead s.scu.motion.vRear s.scu.motion.vFront then
      let s := s.withFdc { s.fdc with deviation := s.fdc.deviation + 1, agreement := 0 }
      if deviationDue s then raiseFrontSlip s else s
    else
      let s := s.withFdc
        { s.fdc with agreement := min plausibleLimit (s.fdc.agreement + 1), deviation := 0 }
      if agreementDue s then clearFrontSlip s else s
  else s.withFdc { s.fdc with deviation := 0, agreement := 0 }

/-! ## Commands -/

/-- Step 1: 10 ms more in the state (R101). -/
def ageFdc (s : State) : State := s.withFdc { s.fdc with time := min 65535 (s.fdc.time + 10) }

/-- One control interval (R101). -/
def fdcInterval (s : State) : State :=
  writeFdv (checkPlausible (actFdc (countEmpty (updateReasons (takeCabMode (ageFdc s))))))

def execFdcControlInterval (s : State) : Host.Outcome State Fault Refusal :=
  .next (if s.mc.mode.controllersRun then fdcInterval s else s)

def execFdcRelease (s : State) : Host.Outcome State Fault Refusal :=
  .next (if s.mc.mode.controllersRun && releaseDue s then enterFdc .releasing s else s)

def execReleasingComplete (s : State) : Host.Outcome State Fault Refusal :=
  .next (if s.mc.mode.controllersRun && releasedDue s then enterFdc .released s else s)

def execEngagingComplete (s : State) : Host.Outcome State Fault Refusal :=
  .next (if s.mc.mode.controllersRun && engagedDue s then enterFdc .engaged s else s)

def execAutoSlipClear (s : State) : Host.Outcome State Fault Refusal :=
  .next (if s.mc.mode.controllersRun && slipClearDue s then clearAutoSlip s else s)

def execFrontSlipRaise (s : State) : Host.Outcome State Fault Refusal :=
  .next (if s.mc.mode.controllersRun && deviationDue s then raiseFrontSlip s else s)

def execFrontSlipClear (s : State) : Host.Outcome State Fault Refusal :=
  .next (if s.mc.mode.controllersRun && agreementDue s then clearFrontSlip s else s)

/-- A CHG event at the FDC (R110). -/
def takeFdcCharge (ev : SfeEvent) (s : State) : State :=
  match ev with
  | .lowEnter | .failed | .starting =>
    actOnReason (s.withReasons { s.fdc.reasons with lowCharge := true })
  | .lowLeave => s.withReasons { s.fdc.reasons with lowCharge := false }
  | .valid =>
    if s.sfe.chans.chg.cmp = .inRange then s.withReasons { s.fdc.reasons with lowCharge := false } else s
  | .highEnter | .highLeave => s

def execFdcChgEvent (s : State) : Host.Outcome State Fault Refusal :=
  .next (match takeEvent .fdc .chg s with
    | some (ev, s) => if s.mc.mode.controllersRun then takeFdcCharge ev s else s
    | none => s)

end Sys2Proof.Machine
end

