-- ==== Sys2Proof/Machine/Trailer.lean ====
section
/-! DEFINITION. The trailer brake controller (07): the brake pressure in force (R147 to R149), the
trailer states (R150 to R158), the demand (R159 to R161), the control line (R162 to R164), and the
meanings of its commands. -/

namespace Sys2Proof.Machine

/-! ## Tables (R159) -/

/-- The value at `x` of the segment from one point to the next. -/
def interpolate (a b : Nat × Nat) (x : Nat) : Nat :=
  ((a.2 : Int) + truncDiv (((b.2 : Int) - a.2) * ((x : Int) - a.1)) ((b.1 : Int) - a.1)).toNat

/-- A table applied to an input (R159). -/
def applyTable : List (Nat × Nat) → Nat → Nat
  | [], _ => 0
  | [p], _ => p.2
  | p :: q :: rest, x =>
    if x < p.1 then p.2
    else if x < q.1 then interpolate p q x
    else applyTable (q :: rest) x

/-! ## Demand (R160, R161) -/

/-- The demand is regulated (R160). -/
def TrailerState.regulates : TrailerState → Bool
  | .ready | .supplyFault => true
  | _ => false

/-- TSV is ON (R165). -/
def TrailerState.tsv : TrailerState → Bool
  | .charging | .ready | .supplyFault => true
  | _ => false

/-- The brake term. -/
def brakeTerm (s : State) : Nat := applyTable s.cfg.brakeCurve (s.tbc.brake.getD 0)

/-- The overrun assist. -/
def overrunTerm (s : State) : Nat :=
  if s.scu.motion.direction = .unknown then 0 else min 600 (2 * s.shc.overrun)

/-- The shuttle assist. -/
def shuttleTerm (s : State) : Nat :=
  if s.shc.state = .shuttling ∧ 1000 < s.scu.motion.vGround then 200 else 0

/-- The demand and its contributor (R160). -/
def demandOf (s : State) : Nat × Contributor :=
  if s.tbc.state.regulates then
    let b := brakeTerm s
    let o := overrunTerm s
    let h := shuttleTerm s
    let d := min 1500 (max b (max o h))
    (d, if d = 0 then .none
        else if max o h ≤ b then .brake
        else if h ≤ o then .overrun
        else .shuttle)
  else (0, .none)

/-- The demand is computed and written; each write is tested by the grant (R58, R59, R160). -/
def writeDemand (s : State) : State :=
  let d := demandOf s
  grantOnDemand (s.withTbc { s.tbc with demand := d.1, contributor := d.2 })

/-! ## The control line (R162) -/

/-- TCL is VALID. -/
def State.tclValid (s : State) : Bool := s.sfe.chans.tcl.state == .valid

/-- The TCV command with the correction as it stands (R162). Once the SFE holds TCL not VALID it is the
table's value alone, also before the TBC has taken the event FAILED (R163, log 78). -/
def tcvCommand (s : State) : Nat :=
  if s.tbc.demand = 0 then 0
  else if s.tbc.overpressure then 0
  else if !s.tclValid then applyTable s.cfg.trailerCurve s.tbc.demand
  else (clampInt 0 2000 ((applyTable s.cfg.trailerCurve s.tbc.demand : Int) + s.tbc.correction)).toNat

/-- The TBC writes TCV. -/
def writeTcv (v : Nat) (s : State) : State := writeCommand .tcv v (s.withTbc { s.tbc with tcv := v })

/-- The TBC writes TSV as its state asks (R165). -/
def writeTsv (s : State) : State :=
  writeCommand .tsv (if s.tbc.state.tsv then 1 else 0) (s.withTbc { s.tbc with tsvOn := s.tbc.state.tsv })

/-- TCV recomputed with the correction as it stands (R162). -/
def recomputeTcv (s : State) : State := writeTcv (tcvCommand s) s

/-- A demand written between intervals, with the TCV that follows it. -/
def newDemand (s : State) : State := recomputeTcv (writeDemand s)

/-- The correction's move at an interval (R162). At a demand of 0 it is 0, also while the overpressure flag
stands, under which R164 keeps it otherwise (log 77). -/
def correctionOf (s : State) : Int :=
  if s.tbc.demand = 0 then 0
  else if s.tbc.overpressure then s.tbc.correction
  else if !s.tclValid then 0
  else clampInt (-200) 200
    (s.tbc.correction + truncDiv ((s.tbc.demand : Int) - s.sfe.chans.tcl.value) 4)

/-! ## States (R150 to R158) -/

/-- A change of state to one without demand: TSV and TCV as the state asks, the demand 0 and the
correction 0 (R151, R152, R155, R157). -/
def enterIdle (st : TrailerState) (s : State) : State :=
  let s := writeTsv (s.withTbc { s.tbc with state := st, correction := 0 })
  publish .trailer (writeTcv 0 (writeDemand s))

/-- Entry to CHARGING (R151, R158). -/
def enterCharging (s : State) : State := enterIdle .charging (s.withTbc { s.tbc with timer := 0 })

/-- Entry to ABSENT (R156, R158). -/
def enterAbsent (s : State) : State := enterIdle .absent s

/-- CHARGING when coupled, else ABSENT (R156, R158). -/
def enterReleased (s : State) : State := if s.tbc.coupled then enterCharging s else enterAbsent s

/-- Entry to PARKED (R157). -/
def enterTrailerParked (s : State) : State :=
  enterIdle .parked (s.withTbc { s.tbc with timer := 0, lowTimer := 0 })

/-- Entry to BREAKAWAY (R155). -/
def enterBreakaway (s : State) : State := raiseLatched .trailerBreakaway (enterIdle .breakaway s)

/-- Entry to a regulated state: the demand at once (R152, R160). The state timer and the low timer become 0
at each such entry, also at those for which R152 and R154 do not name them (log 76). -/
def enterRegulated (st : TrailerState) (s : State) : State :=
  publish .trailer (writeDemand (writeTsv (s.withTbc { s.tbc with state := st, timer := 0, lowTimer := 0 })))

/-- A coupling change to `closed` (R150). -/
def changeCoupling (closed : Bool) (s : State) : State :=
  let s := s.withTbc { s.tbc with coupled := closed, samples := 0 }
  match s.tbc.state with
  | .absent => if closed then enterCharging s else s
  | .charging | .ready | .supplyFault => if closed then s else enterBreakaway s
  | .breakaway | .parked => s

/-- Samples of a steady change (R150). -/
def couplingSamples : Nat := 3

/-- The coupling change is due (R150). -/
def couplingDue (s : State) : Bool := decide (couplingSamples ≤ s.tbc.samples)

/-- Step 1: the coupling sense line settles (R150). -/
def settleCoupling (s : State) : State :=
  if s.pins.coupling = s.tbc.coupled then s.withTbc { s.tbc with samples := 0 }
  else
    let s := s.withTbc { s.tbc with samples := s.tbc.samples + 1 }
    if couplingDue s then changeCoupling s.pins.coupling s else s

/-- States in which a park order, the gearbox found PARKED or a stop order parks the trailer (R157). -/
def TrailerState.parks : TrailerState → Bool
  | .absent | .charging | .ready | .supplyFault => true
  | .breakaway | .parked => false

/-- The SHC's park order (R157). -/
def trailerParkOrder (s : State) : State := if s.tbc.state.parks then enterTrailerParked s else s

/-- The MC's stop order (R157). -/
def trailerStopOrder (s : State) : State := trailerParkOrder (s.withTbc { s.tbc with stopOrder := true })

/-- Step 4: the park tests (R157, R158). -/
def parkTests (s : State) : State :=
  if s.shc.state = .parked then trailerParkOrder s
  else if s.tbc.state = .parked ∧ s.tbc.stopOrder = false then enterReleased s
  else s

/-- The release of an acknowledgement (R156): taken while the TBC's timer runs. -/
def releaseTrailer (s : State) : State :=
  if s.mc.mode.controllersRun && s.tbc.state == .breakaway then
    clearFault .trailerBreakaway
      (if s.shc.state = .parked ∨ s.tbc.stopOrder = true then enterTrailerParked s else enterReleased s)
  else s

/-! ## Brake pressure in force (R147 to R149) -/

/-- The local value (R147). -/
def localBrake (s : State) : Option Nat :=
  if s.sfe.chans.tbr.state = .valid then some s.sfe.chans.tbr.value.toNat else none

/-- The station value (R147). -/
def stationBrake (s : State) : Option Nat :=
  s.lc.brake.current.map fun b => max (min 1600 b.left) (min 1600 b.right)

/-- The brake pressure in force and its source (R147). -/
def brakeOf (own station : Option Nat) : Option Nat × BrakeSource :=
  match own, station with
  | some l, some r => if r ≤ l then (some l, .own) else (some r, .station)
  | some l, none => (some l, .own)
  | none, some r => (some r, .station)
  | none, none => (none, .none)

/-- The brake pressure in force is written: the FDC's brake event, and in a regulated state a new demand
(R148). -/
def writeBrake (s : State) : State :=
  let b := brakeOf (localBrake s) s.tbc.station
  let s := brakeEvent (s.withTbc { s.tbc with brake := b.1, brakeSource := b.2 })
  if s.tbc.state.regulates then writeDemand s else s

/-- The length of the three brake timers in intervals. -/
def brakeLimit : Nat := 50

/-- BRAKE_UNKNOWN is due: the timer stands at 50 and the fault has not been raised (R148, log 34). -/
def unknownDue (s : State) : Bool :=
  s.tbc.brake.isNone && decide (brakeLimit ≤ s.tbc.unknown) && !s.faultPresent .brakeUnknown

/-- The unknown timer at an interval (R148). -/
def countUnknown (s : State) : State :=
  if s.tbc.brake.isSome then clearFault .brakeUnknown (s.withTbc { s.tbc with unknown := 0 })
  else if s.tbc.unknown + 1 = brakeLimit then
    raise .brakeUnknown (s.withTbc { s.tbc with unknown := brakeLimit })
  else s.withTbc { s.tbc with unknown := min brakeLimit (s.tbc.unknown + 1) }

/-- The disagreement timer has reached 50. -/
def disagreeDue (s : State) : Bool := decide (brakeLimit ≤ s.tbc.disagree)

/-- BRAKE_DISAGREE is raised and the timer becomes 0 (R149). -/
def raiseDisagree (s : State) : State := raise .brakeDisagree (s.withTbc { s.tbc with disagree := 0 })

/-- The agreement timer has reached 50 while BRAKE_DISAGREE is active. -/
def agreeDue (s : State) : Bool := decide (brakeLimit ≤ s.tbc.agree) && s.faultPresent .brakeDisagree

/-- BRAKE_DISAGREE is cleared and the timer becomes 0 (R149). -/
def clearDisagree (s : State) : State := clearFault .brakeDisagree (s.withTbc { s.tbc with agree := 0 })

/-- The comparison of the two sources at an interval (R149); the agreement timer stays at 50 where
BRAKE_DISAGREE is not active (log 85). -/
def compareBrakes (s : State) : State :=
  match localBrake s, s.tbc.station with
  | some l, some r =>
    if 150 < ((l : Int) - r).natAbs then
      let s := s.withTbc { s.tbc with disagree := s.tbc.disagree + 1, agree := 0 }
      if disagreeDue s then raiseDisagree s else s
    else
      let s := s.withTbc { s.tbc with agree := min brakeLimit (s.tbc.agree + 1), disagree := 0 }
      if agreeDue s then clearDisagree s else s
  | _, _ => s.withTbc { s.tbc with disagree := 0, agree := 0 }

/-! ## Supply line tests (R152 to R154) -/

/-- Times and counts of the state tests: ms of charging, intervals of low supply, ms of recovery. -/
def chargeMs : Nat := 10000
def lowLimit : Nat := 20
def recoverMs : Nat := 1000

/-- A charge has failed (R152). -/
def chargeFailed (s : State) : Bool :=
  s.tbc.state == .charging && !s.tslGood && decide (chargeMs ≤ s.tbc.timer)

/-- The failed charge (R152). -/
def failCharge (s : State) : State := raise .trailerChargeFailed (enterRegulated .supplyFault s)

/-- The supply is lost (R153). -/
def supplyLost (s : State) : Bool := s.tbc.state == .ready && decide (lowLimit ≤ s.tbc.lowTimer)

/-- The lost supply (R153). -/
def loseSupply (s : State) : State := raise .trailerSupplyLost (enterRegulated .supplyFault s)

/-- The supply has recovered (R154). -/
def supplyBack (s : State) : Bool := s.tbc.state == .supplyFault && decide (recoverMs ≤ s.tbc.timer)

/-- READY is entered and each supply fault cleared if active (R152, R154): from SUPPLY_FAULT, and from
CHARGING, to which a trailer parked in SUPPLY_FAULT carries its supply faults (R154, R158). -/
def recoverSupply (s : State) : State :=
  clearFault .trailerChargeFailed (clearFault .trailerSupplyLost (enterRegulated .ready s))

/-- Step 5: the supply low flag from the channel, then the test of the state (R152 to R154). -/
def stateTests (s : State) : State :=
  let s := s.withTbc { s.tbc with supplyLow := s.tslLow }
  match s.tbc.state with
  | .charging =>
    let s := s.withTbc { s.tbc with timer := min chargeMs (s.tbc.timer + 10) }
    if s.tslGood then recoverSupply s
    else if chargeFailed s then failCharge s
    else s
  | .ready =>
    let s := s.withTbc { s.tbc with
      lowTimer := if s.tbc.supplyLow then s.tbc.lowTimer + 1 else 0 }
    if supplyLost s then loseSupply s else s
  | .supplyFault =>
    let s := s.withTbc { s.tbc with timer := if s.tslGood then s.tbc.timer + 10 else 0 }
    if supplyBack s then recoverSupply s else s
  | .absent | .breakaway | .parked => s

/-! ## The interval (R146) -/

/-- TCL and TSL as the SFE holds them (R146, R166). -/
def readPressures (s : State) : State :=
  s.withTbc { s.tbc with
    tcl := s.sfe.chans.tcl.value, tclState := s.sfe.chans.tcl.state
    tsl := s.sfe.chans.tsl.value, tslState := s.sfe.chans.tsl.state }

/-- Step 2: the line pressures and the station value as they stand. -/
def readLines (s : State) : State :=
  let s := readPressures s
  s.withTbc { s.tbc with station := stationBrake s }

/-- Step 3. -/
def takeBrakes (s : State) : State := compareBrakes (countUnknown (writeBrake s))

/-- Steps 6 to 8. -/
def driveLine (s : State) : State :=
  let s := writeDemand s
  let s := s.withTbc { s.tbc with correction := correctionOf s }
  writeTsv (recomputeTcv s)

/-- One control interval (R146). -/
def tbcInterval (s : State) : State :=
  driveLine (stateTests (parkTests (takeBrakes (readLines (settleCoupling s)))))

def execTbcControlInterval (closed : Bool) (s : State) : Host.Outcome State Fault Refusal :=
  .next (if s.mc.mode.controllersRun then tbcInterval (presentCoupling closed s)
    else presentCoupling closed s)

/-! ## Commands of single changes -/

def execCouplingChange (s : State) : Host.Outcome State Fault Refusal :=
  .next (if s.mc.mode.controllersRun && couplingDue s then recomputeTcv (changeCoupling (!s.tbc.coupled) s)
    else s)

def execChargeTimeout (s : State) : Host.Outcome State Fault Refusal :=
  .next (if s.mc.mode.controllersRun && chargeFailed s then recomputeTcv (failCharge s) else s)

def execSupplyLowTimeout (s : State) : Host.Outcome State Fault Refusal :=
  .next (if s.mc.mode.controllersRun && supplyLost s then recomputeTcv (loseSupply s) else s)

def execSupplyRecovered (s : State) : Host.Outcome State Fault Refusal :=
  .next (if s.mc.mode.controllersRun && supplyBack s then recomputeTcv (recoverSupply s) else s)

def execBrakeUnknown (s : State) : Host.Outcome State Fault Refusal :=
  .next (if s.mc.mode.controllersRun && unknownDue s then raise .brakeUnknown s else s)

def execBrakeDisagree (s : State) : Host.Outcome State Fault Refusal :=
  .next (if s.mc.mode.controllersRun && disagreeDue s then raiseDisagree s else s)

def execBrakeDisagreeClear (s : State) : Host.Outcome State Fault Refusal :=
  .next (if s.mc.mode.controllersRun && agreeDue s then clearDisagree s else s)

/-- A TBR state event: the brake pressure in force is recomputed with the station value of the last
interval, and TCV follows a new demand (R147, R148, R162). -/
def takeTbr (s : State) : State :=
  let s := writeBrake s
  if s.tbc.state.regulates then recomputeTcv s else s

def execTbrStateEvent (s : State) : Host.Outcome State Fault Refusal :=
  .next (match takeEvent .tbc .tbr s with
    | some (_, s) => if s.mc.mode.controllersRun then takeTbr s else s
    | none => s)

/-- A TCL event (R163, R164). -/
def takeTcl (ev : SfeEvent) (s : State) : State :=
  match ev with
  | .highEnter =>
    raise .tclOverpressure (writeTcv 0 (s.withTbc { s.tbc with overpressure := true }))
  | .highLeave =>
    clearFault .tclOverpressure (recomputeTcv (s.withTbc { s.tbc with overpressure := false }))
  | .failed =>
    raise .tclFailed (clearFault .tclOverpressure
      (recomputeTcv (s.withTbc { s.tbc with overpressure := false, correction := 0 })))
  | .valid => clearFault .tclFailed s
  | .starting | .lowEnter | .lowLeave => s

def execTclEvent (s : State) : Host.Outcome State Fault Refusal :=
  .next (match takeEvent .tbc .tcl s with
    | some (ev, s) => if s.mc.mode.controllersRun then takeTcl ev s else s
    | none => s)

/-- A TSL event (R153). -/
def takeTsl (ev : SfeEvent) (s : State) : State :=
  match ev with
  | .lowEnter | .failed | .starting => s.withTbc { s.tbc with supplyLow := true }
  | .lowLeave => s.withTbc { s.tbc with supplyLow := false }
  | .valid =>
    if s.sfe.chans.tsl.cmp = .inRange then s.withTbc { s.tbc with supplyLow := false } else s
  | .highEnter | .highLeave => s

def execTslEvent (s : State) : Host.Outcome State Fault Refusal :=
  .next (match takeEvent .tbc .tsl s with
    | some (ev, s) => if s.mc.mode.controllersRun then takeTsl ev s else s
    | none => s)

/-! ## Control restart (R166) -/

/-- The control-restart values; leaving BREAKAWAY clears its fault (R155, R166). -/
def restartTbc (s : State) : State :=
  let left := s.tbc.state == .breakaway
  let s := if left then clearFault .trailerBreakaway s else s
  let s := s.withTbc (.reset s.pins.coupling s.sfe.chans.tcl s.sfe.chans.tsl)
  if left then publish .trailer s else s

end Sys2Proof.Machine
end

