-- ==== Sys2Proof/Machine/Gearbox.lean ====
section
/-! DEFINITION. The shift controller's records and requests (04): clutches (R65, R66, R73, R88), the
request queue (R69 to R71), the shuttle map and the choice of a target (R64, R72), charge and oil events'
shared conditions, and writing clutch commands. -/

namespace Sys2Proof.Machine

/-! ## Clutches -/

def State.clutch (s : State) (x : Clutch) : ClutchRec := s.shc.clutches.get x

def State.withClutch (s : State) (x : Clutch) (r : ClutchRec) : State :=
  s.withShc { s.shc with clutches := s.shc.clutches.set x r }

/-- The configured fields of a clutch (R65). -/
def State.clutchCfg (s : State) (x : Clutch) : ClutchCfg := s.cfg.clutches.get x

/-- LOCKED at the hold current. -/
def ClutchRec.lock (hold : Nat) (r : ClutchRec) : ClutchRec :=
  { r with state := .locked, value := hold, drain := none }

/-- RAMPING at a value. -/
def ClutchRec.ramp (v : Nat) (r : ClutchRec) : ClutchRec :=
  { r with state := .ramping, value := v, drain := none }

/-- DRAINING at a value; the drain timer starts when the value reaches 0 and runs on if it was running
(R66). -/
def ClutchRec.drainTo (v : Nat) (r : ClutchRec) : ClutchRec :=
  { r with
      state := .draining, value := v,
      drain := if v = 0 then (if r.state = .draining ∧ r.drain.isSome then r.drain else some 0)
        else none }

/-- FILLING at the fill current for a fill time (R73). -/
def ClutchRec.fill (current time : Nat) (r : ClutchRec) : ClutchRec :=
  { r with state := .filling, value := current, drain := none, held := 0, fillTime := time }

def lockClutch (s : State) (x : Clutch) : State :=
  s.withClutch x ((s.clutch x).lock (s.clutchCfg x).hold)

def drainClutch (s : State) (x : Clutch) : State := s.withClutch x ((s.clutch x).drainTo 0)

/-- The fill time in use: the learned one, and a quarter more for cold oil (R73). -/
def fillTimeOf (s : State) (x : Clutch) : Nat :=
  if s.oilCold then (s.clutch x).learned + (s.clutch x).learned / 4 else (s.clutch x).learned

/-- A clutch starts its fill (R73). -/
def startFill (s : State) (x : Clutch) : State :=
  s.withClutch x ((s.clutch x).fill (s.clutchCfg x).fillCurrent (fillTimeOf s x))

/-- Every clutch of a list through one operation. -/
def overClutches (f : State → Clutch → State) (l : List Clutch) (s : State) : State := l.foldl f s

def directionClutches : List Clutch := [.fwd, .rev]
def gearClutches : List Clutch := [.a, .b, .c, .d, .l, .m, .h]

/-- The other clutches of a clutch's group (R65). -/
def othersOf (k : Clutch) : List Clutch :=
  (match k with
   | .a | .b | .c | .d => [Clutch.a, .b, .c, .d]
   | .l | .m | .h => [Clutch.l, .m, .h]
   | .fwd | .rev => directionClutches).filter fun x => x ≠ k

/-- A fill outside a swap: the other clutches of the group are set to 0 first (R66, R84). -/
def fillAlone (s : State) (x : Clutch) : State := startFill (overClutches drainClutch (othersOf x) s) x

/-- The speed and range clutches of a gear. -/
def gearPair (c : Image) (g : Gear) : List Clutch :=
  match c.entryOf g with
  | some e => [e.speed.clutch, e.range.clutch]
  | none => []

/-- The clutches of the second gear that the first does not use in the same group (04, section 4.6). -/
def swapped (c : Image) (old new : Option Gear) : List Clutch :=
  match old, new with
  | some g, some t => (gearPair c t).filter fun x => !(gearPair c g).contains x
  | _, _ => []

/-- The on-coming speed and range clutches. -/
def onComing (s : State) : List Clutch := swapped s.cfg s.shc.current s.shc.target

/-- The off-going speed and range clutches. -/
def offGoing (s : State) : List Clutch := swapped s.cfg s.shc.target s.shc.current

/-- The direction clutch of an optional gear. -/
def dirClutchOf (g : Option Gear) : List Clutch :=
  match g with
  | some g => [g.dir.clutch]
  | none => []

/-! ## Pedal and commands (R66, R88) -/

/-- The pedal's cap on a direction clutch (R88). -/
def pedalCap (pedal hold : Nat) : Nat :=
  if pedal ≤ 10 then hold else if 95 ≤ pedal then 0 else hold * (100 - pedal) / 90

/-- A RAMPING direction clutch is capped in these phases (R88). -/
def rampCapped (k : Shc) : Bool :=
  (k.state == .engaging && k.phase == some .ramp) ||
    (k.state == .shuttling && (k.phase == some .reverseBrake || k.phase == some .driveAway))

/-- The command of a clutch: its phase value, for a direction clutch under the cap (R66, R88). -/
def commandOf (s : State) (x : Clutch) : Nat :=
  let r := s.clutch x
  if directionClutches.contains x ∧ (r.state = .locked ∨ (r.state = .ramping ∧ rampCapped s.shc = true)) then
    min r.value (pedalCap s.shc.pedal (s.clutchCfg x).hold)
  else r.value

/-- One clutch's command is written to its output. -/
def writeClutch (s : State) (x : Clutch) : State :=
  let v := commandOf s x
  writeCommand x.output v (s.withClutch x { s.clutch x with command := v })

/-- Every clutch's command is written (R66). -/
def writeClutches (s : State) : State := overClutches writeClutch Clutch.all s

/-! ## Refusals and the queue (R69 to R71) -/

/-- A refusal (R71). -/
def refuse (why : ShcReason) (who : Origin) (s : State) : State :=
  s.withShc { s.shc with lastRefusal := some (why, who), refusals := s.shc.refusals + 1 }

/-- The queue is flushed (R71). -/
def flushQueue (s : State) : State := s.withShc { s.shc with queue := [] }

/-- Limits of the queue and of an entry (R70). -/
def maxEntries : Nat := 4
def maxSteps : Nat := 3

/-- The queue after a request is offered to it, absent when it is FULL (R70). -/
def offer (kind : ShiftKind) (who : Origin) (q : List QueueEntry) : Option (List QueueEntry) :=
  match q.getLast? with
  | none => some [⟨kind, 1, who⟩]
  | some tail =>
    if tail.kind = kind then
      if tail.steps < maxSteps then some (q.dropLast ++ [⟨kind, tail.steps + 1, who⟩])
      else if q.length < maxEntries then some (q ++ [⟨kind, 1, who⟩])
      else none
    else if tail.steps ≤ 1 then some q.dropLast
    else some (q.dropLast ++ [{ tail with steps := tail.steps - 1 }])

/-- The refusal of a request event as the gearbox stands (R69). -/
def requestRefusal (s : State) : Option ShcReason :=
  if s.shc.state = .faultHold then some .fault
  else if s.shc.state = .neutral ∨ s.shc.state = .parked then some .noGear
  else if s.chargeDoubt then some .noCharge
  else if !s.lc.cabDrive.isFresh || s.speedsLost then some .fault
  else none

/-- A request event UP or DOWN (R69, R70). -/
def shiftRequest (kind : ShiftKind) (who : Origin) (s : State) : State :=
  match requestRefusal s with
  | some why => refuse why who s
  | none =>
    match offer kind who s.shc.queue with
    | some q => s.withShc { s.shc with queue := q }
    | none => refuse .full who s

/-- A gear is start-permitted. -/
def Image.startable (c : Image) (g : Gear) : Bool :=
  match c.entryOf g with
  | some e => e.start
  | none => false

/-- A request event SELECT (R69); a code that names no gear selects nothing. -/
def selectRequest (g : Option Gear) (s : State) : State :=
  match g with
  | some g =>
    if (s.shc.state = .neutral ∨ s.shc.state = .parked) ∧ Image.startable s.cfg g = true then
      s.withShc { s.shc with selected := some g }
    else refuse .noGear .cab s
  | none => refuse .noGear .cab s

/-! ## The shuttle map (R64) -/

/-- Distance of two ratios. -/
def ratioGap (a b : Nat) : Nat := ((a : Int) - b).natAbs

/-- The entry of nearest ratio, the larger ratio on a tie (R64). -/
def nearest (ratio : Nat) (l : List GearEntry) : Option GearEntry :=
  l.foldl (fun best e => match best with
    | none => some e
    | some b =>
      if ratioGap ratio e.ratio < ratioGap ratio b.ratio then some e
      else if ratioGap ratio e.ratio = ratioGap ratio b.ratio ∧ b.ratio < e.ratio then some e
      else best) none

/-- The reverse gear a forward gear maps to (R64). -/
def reverseOf (c : Image) (e : GearEntry) : Option GearEntry :=
  let l := c.gearsOf .reverse
  match l.getLast? with
  | some last => if e.ratio < last.ratio then some last else nearest e.ratio l
  | none => none

/-- The forward gear a reverse gear is paired with (R64). -/
def forwardOf (c : Image) (e : GearEntry) : Option GearEntry :=
  let l := c.gearsOf .forward
  match l.find? fun f => (reverseOf c f).any fun r => r.gear = e.gear with
  | some f => some f
  | none => nearest e.ratio l

/-- The shuttle map, both ways (R64). -/
def buildMap (c : Image) : List (Gear × Gear) :=
  ((c.gearsOf .forward).filterMap fun e => (reverseOf c e).map fun r => (e.gear, r.gear)) ++
  ((c.gearsOf .reverse).filterMap fun e => (forwardOf c e).map fun f => (e.gear, f.gear))

/-- The partner of a gear. -/
def Shc.partner (k : Shc) (g : Gear) : Option Gear :=
  (k.shuttleMap.find? fun p => p.1 = g).map fun p => p.2

/-! ## Taking a request (R72) -/

/-- Synchronous input speed of a gear at an output speed. -/
def syncSpeed (out ratio : Nat) : Nat := out * ratio / 1000

/-- Where a gear stands among the gears of its direction. -/
def placeOf (l : List GearEntry) (g : Gear) : Option Nat := l.findIdx? fun e => e.gear = g

/-- The gears up to `n` steps from `g`, the farthest first (R72, step 1). -/
def stepsFrom (c : Image) (kind : ShiftKind) (g : Gear) (n : Nat) : List GearEntry :=
  let l := c.gearsOf g.dir
  match placeOf l g with
  | none => []
  | some p =>
    match kind with
    | .up => ((l.drop (p + 1)).take n).reverse
    | .down => ((l.take p).reverse.take n).reverse

/-- The lugging clamp applies (R72, step 3; R95). -/
def lugging (s : State) : Bool :=
  match s.engineTorque with
  | some t => decide (80 < t)
  | none => false

/-- The target of an entry, or the reason it is refused (R72). -/
def chooseTarget (s : State) (e : QueueEntry) (g : Gear) : ShcReason ⊕ Gear :=
  let out := s.scu.motion.outRpm
  let l := stepsFrom s.cfg e.kind g e.steps
  let l := if e.origin = .auto then l.dropWhile fun x => !x.auto else l
  match l with
  | [] => .inl .noGear
  | _ =>
    match e.kind with
    | .down =>
      match l.dropWhile fun x => decide (2400 < syncSpeed out x.ratio) with
      | [] => .inl .overspeed
      | x :: _ => .inr x.gear
    | .up =>
      match l.dropWhile fun x => lugging s && decide (syncSpeed out x.ratio < 900) with
      | [] => .inl .lugging
      | x :: _ => .inr x.gear

/-- The state becomes `st` and 10 GEARBOX STATE is made (R67, R195). -/
def enterGearbox (st : GearState) (s : State) : State :=
  publish .gearbox (s.withShc { s.shc with state := st })

/-- A clutch's adaptation memory is cleared (R73, log 24). -/
def forgetMark (s : State) (x : Clutch) : State :=
  s.withClutch x { s.clutch x with adapted := false, mark := none }

/-- A shift begins: FILL (R72, R73). -/
def beginShift (kind : ShiftKind) (who : Origin) (t : Gear) (s : State) : State :=
  let s := overClutches forgetMark Clutch.all s
  let s := s.withShc { s.shc with
    phase := some .fill, kind := some kind, target := some t, shiftOrigin := some who,
    interval := 0, sync := 0 }
  enterGearbox .shifting (overClutches startFill (onComing s) s)

/-- The head entry can be taken (R72). -/
def canTake (s : State) : Bool :=
  s.shc.state == .inGear && !s.shc.pendingShuttle && decide (s.shc.pedal < 95) &&
    (dirClutchOf s.shc.current).any fun x => (s.clutch x).state == .locked

/-- Step 3: the head entry is taken (R72). -/
def takeHead (s : State) : State :=
  match s.shc.queue, s.shc.current with
  | e :: rest, some g =>
    if canTake s then
      let s := s.withShc { s.shc with queue := rest }
      match chooseTarget s e g with
      | .inl why => refuse why e.origin s
      | .inr t => beginShift e.kind e.origin t s
    else s
  | _, _ => s

end Sys2Proof.Machine
end

