-- ==== Sys2Proof/Machine/Shifting.lean ====
section
/-! DEFINITION. The shift controller's operations in progress (04): fills, shifts (R73 to R78), aborts
(R79, R80), adaptation (R81), engagement (R83, R84), shuttles (R85 to R87), neutral (R89), park (R90 to
R92), charge (R93), lost peers (R94, R95), fault hold (R96) and the interval (R68). -/

namespace Sys2Proof.Machine

/-! ## Small helpers -/

def State.withPhase (s : State) (p : Option Phase) : State :=
  s.withShc { s.shc with phase := p, interval := 0 }

/-- One interval more in the phase. -/
def countInterval (s : State) : State := s.withShc { s.shc with interval := s.shc.interval + 1 }

/-- The torque-limit request is withdrawn, with one final frame (R76, R80, R196). -/
def withdrawTorque (s : State) : State :=
  if s.shc.torque.isSome then publish .torqueLimit (s.withShc { s.shc with torque := none }) else s

/-- The torque-limit request becomes active, with a frame at once (R74, R196). -/
def askTorque (s : State) : State :=
  publish .torqueLimit (s.withShc { s.shc with torque := some s.cfg.torqueLimit })

/-- Target, phase and shift kind are removed. -/
def dropOperation (s : State) : State :=
  s.withShc { s.shc with phase := none, kind := none, target := none, shiftOrigin := none, interval := 0 }

/-- All clutches of a list are in a state. -/
def allIn (s : State) (st : ClutchState) (l : List Clutch) : Bool := l.all fun x => (s.clutch x).state == st

/-! ## Shuttle requests (R85) -/

/-- Speed at which a shuttle is refused (R85). -/
def shuttleSpeed : Nat := 3333

/-- A shuttle starts: DRAIN (R85, R86). -/
def beginShuttle (g t : Gear) (s : State) : State :=
  let s := s.withShc { s.shc with
    pendingShuttle := false, queue := [], target := some t, phase := some .drain, interval := 0 }
  let s := overClutches (fun s x => s.withClutch x ((s.clutch x).drainTo (s.clutchCfg x).hold))
    (g.dir.clutch :: offGoing s) s
  enterGearbox .shuttling (overClutches startFill (t.dir.clutch :: onComing s) s)

/-- A shuttle request is taken (R85). -/
def shuttleRequest (s : State) : State :=
  if s.scu.motion.vGround < shuttleSpeed then
    match s.shc.current with
    | some g =>
      match s.shc.partner g with
      | some t => beginShuttle g t s
      | none => s
    | none => s
  else refuse .speed .cab
    (s.withShc { s.shc with pendingShuttle := false, ignored := some s.shc.lever })

/-- The lever stands in the direction other than that of a gear. -/
def leverOpposes (l : Lever) (g : Option Gear) : Bool :=
  (l == .f || l == .r) &&
    (match g with
     | some g => l != Dir.lever g.dir
     | none => false)

/-- A pending shuttle is tried where an operation ends, and is no longer pending where the lever does not
oppose the locked direction (R76, R85, log 84). -/
def tryShuttle (s : State) : State :=
  if s.shc.pendingShuttle then
    if leverOpposes s.shc.lever s.shc.current then shuttleRequest s
    else s.withShc { s.shc with pendingShuttle := false }
  else s

/-- An operation ends in gear (R76, R80, R84, R86). -/
def arriveInGear (s : State) : State := tryShuttle (enterGearbox .inGear (dropOperation s))

/-! ## Adaptation (R81, R82) -/

/-- The mark the speeds give a clutch (R81). -/
def markOf (s : State) (firstHalf : Bool) : Option Mark :=
  let old := match s.shc.current with
    | some g => syncSpeed s.scu.motion.outRpm (s.cfg.ratioOf g)
    | none => 0
  let inp := s.scu.motion.inpRpm
  if old + 50 < inp then some .flare
  else if firstHalf && decide (inp + 50 < old) then some .tieUp
  else none

/-- A first mark is kept (R81). -/
def markClutch (m : Option Mark) (s : State) (x : Clutch) : State :=
  if (s.clutch x).adapted = false ∧ m.isSome = true then
    s.withClutch x { s.clutch x with adapted := true, mark := m }
  else s

/-- The first half of TORQUE at its next interval (R81). -/
def inFirstHalf (k : Shc) : Bool :=
  k.phase == some .torque && decide (k.interval + 1 ≤ k.torqueFixed / 2)

/-- The tests of R81 at an interval of FILL or TORQUE of an upshift. -/
def adaptTests (s : State) : State :=
  if s.shc.kind = some .up ∧ (s.shc.phase = some .fill ∨ s.shc.phase = some .torque) ∧
      s.oilAdapts = true then
    overClutches (markClutch (markOf s (inFirstHalf s.shc))) (onComing s) s
  else s

/-- The step of adaptation in ms (R81). -/
def adaptMs : Nat := 8

/-- A marked clutch's learned fill time is corrected at LOCKUP (R81). -/
def applyMark (s : State) (x : Clutch) : State :=
  let r := s.clutch x
  let c := s.clutchCfg x
  match r.mark with
  | some .flare => s.withClutch x { r with learned := clampNat c.minFill c.maxFill (r.learned + adaptMs) }
  | some .tieUp => s.withClutch x { r with learned := clampNat c.minFill c.maxFill (r.learned - adaptMs) }
  | none => s

/-! ## Shifts (R73 to R78) -/

/-- Lengths of TORQUE in intervals: with a torque-limit request, without one, of a downshift (R74,
R77). -/
def torqueShort : Nat := 12
def torqueLong : Nat := 18
def torqueDown : Nat := 8

/-- TORQUE of an upshift begins (R74). -/
def beginTorqueUp (s : State) : State :=
  let asks := s.lc.engine.isFresh && s.lc.link == .active
  let n := if asks then torqueShort else torqueLong
  let s := overClutches (fun s x => s.withClutch x ((s.clutch x).drainTo (s.clutchCfg x).hold))
    (offGoing s) s
  let s := s.withShc { s.shc with
    phase := some .torque, interval := 0, torqueFixed := n, torqueLen := n, echoSeen := false }
  if asks then askTorque s else s

/-- INERTIA of a downshift begins (R77). -/
def beginInertiaDown (s : State) : State :=
  let s := overClutches (fun s x => s.withClutch x ((s.clutch x).ramp (s.clutchCfg x).touch))
    (offGoing s) s
  s.withShc { s.shc with phase := some .inertia, interval := 0, sync := 0 }

/-- TORQUE of a downshift begins (R77). -/
def beginTorqueDown (s : State) : State :=
  let s := overClutches (fun s x => s.withClutch x ((s.clutch x).drainTo (s.clutchCfg x).touch))
    (offGoing s) s
  s.withShc { s.shc with phase := some .torque, interval := 0, torqueFixed := torqueDown,
                         torqueLen := torqueDown }

/-- FILL has ended (R73, R77). -/
def endFill (s : State) : State :=
  if s.shc.kind = some .up then beginTorqueUp s else beginInertiaDown s

/-- LOCKUP of an upshift begins (R76, R81). -/
def beginLockupUp (s : State) : State :=
  let l := onComing s
  withdrawTorque (overClutches applyMark l (overClutches lockClutch l (s.withPhase (some .lockup))))

/-- Sync has been reached (R75, R77). -/
def syncPoint (s : State) : State :=
  if s.shc.kind = some .up then beginLockupUp s else beginTorqueDown s

/-- A shift ends at its target (R76). -/
def finishShift (s : State) : State := arriveInGear (s.withShc { s.shc with current := s.shc.target })

/-- The on-coming and off-going commands at interval `j` of an upshift's TORQUE; `stretched` from the
twelfth interval on when N has become 18 (R74). -/
def torqueUpValues (c off : ClutchCfg) (stretched : Bool) (n j : Nat) : Nat × Nat :=
  if stretched then
    let on11 := c.touch + (c.take - c.touch) * 11 / torqueShort
    let off11 := off.hold * (torqueShort - 11) / torqueShort
    (on11 + (c.take - on11) * (j - 11) / 7, off11 * (torqueLong - j) / 7)
  else (c.touch + (c.take - c.touch) * j / n, off.hold * (n - j) / n)

/-- TORQUE has reached its last interval (R74, R77). -/
def torqueOver (s : State) : Bool :=
  s.shc.state == .shifting && s.shc.phase == some .torque && decide (s.shc.torqueLen ≤ s.shc.interval)

/-- The end of TORQUE: off-going clutches at 0; INERTIA of an upshift, LOCKUP of a downshift (R74, R77). -/
def endTorque (s : State) : State :=
  let s := overClutches drainClutch (offGoing s) s
  if s.shc.kind = some .up then s.withShc { s.shc with phase := some .inertia, interval := 0, sync := 0 }
  else (overClutches lockClutch (onComing s) s).withPhase (some .lockup)

/-- The echo of the torque limit is compared, and TORQUE is lengthened at its twelfth interval without
one (R74). -/
def compareEcho (s : State) : State :=
  match s.shc.torque with
  | some limit =>
    let seen := s.shc.echoSeen || s.engineEcho == some limit
    s.withShc { s.shc with
      echoSeen := seen
      torqueLen := if !seen && s.shc.interval == torqueShort then torqueLong else s.shc.torqueLen }
  | none => s

/-- One clutch of a TORQUE interval. -/
def torqueOn (f : ClutchCfg → Nat) (s : State) (x : Clutch) : State :=
  s.withClutch x ((s.clutch x).ramp (f (s.clutchCfg x)))

def torqueOff (f : ClutchCfg → Nat) (s : State) (x : Clutch) : State :=
  s.withClutch x ((s.clutch x).drainTo (f (s.clutchCfg x)))

/-- One interval of TORQUE (R74, R77). -/
def torqueStep (s : State) : State :=
  let s := countInterval s
  let s := if s.shc.kind = some .up then compareEcho s else s
  let j := s.shc.interval
  let s :=
    if s.shc.kind = some .up then
      let stretched := s.shc.torqueLen != s.shc.torqueFixed && decide (torqueShort ≤ j)
      let n := s.shc.torqueLen
      overClutches (torqueOff fun c => (torqueUpValues c c stretched n j).2) (offGoing s)
        (overClutches (torqueOn fun c => (torqueUpValues c c stretched n j).1) (onComing s) s)
    else
      overClutches (torqueOff fun c => c.touch * (torqueDown - j) / torqueDown) (offGoing s)
        (overClutches (torqueOn fun c => c.touch + (c.hold - c.touch) * j / torqueDown) (onComing s) s)
  if torqueOver s then endTorque s else s

/-- Intervals of sync to pass, and of INERTIA to time out (R75). -/
def syncLimit : Nat := 3
def inertiaLimit : Nat := 150

/-- The sync test (R75). -/
def inSync (s : State) : Bool :=
  match s.shc.target with
  | some t =>
    decide (((s.scu.motion.inpRpm : Int) - syncSpeed s.scu.motion.outRpm (s.cfg.ratioOf t)).natAbs ≤ 30)
  | none => false

/-- The sync counter has reached 3 in INERTIA. -/
def syncDue (s : State) : Bool :=
  s.shc.state == .shifting && s.shc.phase == some .inertia && decide (syncLimit ≤ s.shc.sync)

/-- INERTIA has lasted 1,500 ms without sync (R75). -/
def timeoutDue (s : State) : Bool :=
  s.shc.state == .shifting && s.shc.phase == some .inertia && decide (s.shc.sync < syncLimit) &&
    decide (inertiaLimit ≤ s.shc.interval)

/-! ## Abort (R79, R80) -/

/-- An off-going clutch enters ABORT from where it stands (R80). -/
def abortClutch (s : State) (x : Clutch) : State :=
  s.withClutch x { (s.clutch x).ramp (s.clutch x).value with entryValue := (s.clutch x).value }

/-- ABORT begins (R80). -/
def beginAbort (s : State) : State :=
  let s := overClutches abortClutch (offGoing s) (overClutches drainClutch (onComing s) s)
  withdrawTorque (s.withPhase (some .abort))

/-- The timeout (R79): SHIFT_TIMEOUT's condition is gone as soon as it is raised (R181). -/
def timeOutShift (s : State) : State :=
  beginAbort (flushQueue (clearFault .shiftTimeout (raiseLatched .shiftTimeout s)))

/-- One interval of INERTIA (R75, R77). -/
def inertiaStep (s : State) : State :=
  let s := countInterval s
  let s := if s.shc.kind = some .up then
      overClutches (fun s x => s.withClutch x
        ((s.clutch x).ramp (min (s.clutchCfg x).hold ((s.clutch x).value + 15)))) (onComing s) s
    else s
  let s := s.withShc { s.shc with sync := if inSync s then s.shc.sync + 1 else 0 }
  if syncDue s then syncPoint s
  else if timeoutDue s then timeOutShift s
  else s

/-- Intervals of ABORT (R80). -/
def abortLimit : Nat := 20

/-- A value `k` of `n` intervals along the line from an entry value to hold (R80, R86). -/
def alongLine (entry hold k n : Nat) : Nat :=
  ((entry : Int) + truncDiv (((hold : Int) - entry) * k) n).toNat

/-- ABORT has run its 20 intervals. -/
def abortOver (s : State) : Bool :=
  s.shc.state == .shifting && s.shc.phase == some .abort && decide (abortLimit ≤ s.shc.interval)

/-- ABORT ends (R80). -/
def endAbort (s : State) : State := arriveInGear (overClutches lockClutch (offGoing s) s)

/-- One interval of ABORT (R80). -/
def abortStep (s : State) : State :=
  let s := countInterval s
  let s := overClutches (fun s x => s.withClutch x ((s.clutch x).ramp
    (alongLine (s.clutch x).entryValue (s.clutchCfg x).hold s.shc.interval abortLimit))) (offGoing s) s
  if abortOver s then endAbort s else s

/-! ## Engagement (R83, R84) -/

/-- The length of a ramp in intervals. -/
def rampIntervals (s : State) : Nat := max 1 (s.cfg.engageRamp / 10)

/-- RAMP begins: the current gear becomes the target and the direction clutch fills (R84). -/
def beginRamp (t : Gear) (s : State) : State :=
  let s := s.withShc { s.shc with current := some t, phase := some .ramp, interval := 0 }
  fillAlone s t.dir.clutch

/-- A clutch of PRESELECT fills unless it is LOCKED (R84). -/
def preselectClutch (s : State) (x : Clutch) : State :=
  if (s.clutch x).state = .locked then s else fillAlone s x

/-- ENGAGING begins with a target (R83, R84). While PRESELECT drains the former gear's clutches the current
gear stays the former one, until both of the target's are LOCKED (log 73). -/
def beginEngaging (t : Gear) (s : State) : State :=
  let s := s.withShc { s.shc with
    target := some t, phase := some .preselect, interval := 0, preselect := none }
  let l := gearPair s.cfg t
  enterGearbox .engaging
    (if allIn s .locked l then beginRamp t s else overClutches preselectClutch l s)

/-- The gear a lever direction engages (R83). -/
def gearToEngage (s : State) (d : Dir) : Option Gear :=
  match s.shc.selected with
  | some g => if g.dir = d then some g else s.shc.partner g
  | none => none

/-- The refusal of an engagement (R83). -/
def engageRefusal (s : State) (g : Gear) : Option ShcReason :=
  if Image.startable s.cfg g = false then some .noGear
  else if s.chargeDoubt then some .noCharge
  else if 2400 < syncSpeed s.scu.motion.outRpm (s.cfg.ratioOf g) then some .overspeed
  else none

/-- A refused engagement or release makes the lever the ignored lever (R83, R91). -/
def refuseLever (why : ShcReason) (s : State) : State :=
  refuse why .cab (s.withShc { s.shc with ignored := some s.shc.lever })

/-- An engagement request (R83). -/
def engageRequest (d : Dir) (s : State) : State :=
  match gearToEngage s d with
  | some g =>
    match engageRefusal s g with
    | some why => refuseLever why s
    | none => beginEngaging g s
  | none => refuseLever .noGear s

/-- The ramp has ended (R84). -/
def rampOver (s : State) : Bool :=
  s.shc.state == .engaging && s.shc.phase == some .ramp &&
    allIn s .ramping (dirClutchOf s.shc.target) && decide (rampIntervals s ≤ s.shc.interval)

/-- The end of RAMP and of DRIVE_AWAY: the direction clutch is LOCKED (R84, R86). -/
def endDirectionRamp (s : State) : State :=
  arriveInGear (overClutches lockClutch (dirClutchOf s.shc.target) s)

/-- One interval of the direction clutch's ramp (R84). -/
def rampStep (s : State) : State :=
  let s := countInterval s
  let s := overClutches (fun s x => s.withClutch x ((s.clutch x).ramp
    (alongLine (s.clutchCfg x).touch (s.clutchCfg x).hold s.shc.interval (rampIntervals s))))
    (dirClutchOf s.shc.target) s
  if rampOver s then endDirectionRamp s else s

/-! ## Fills (R73, R84, R86) -/

/-- A FILLING clutch has held its fill current for its fill time in use. -/
def fillDue (s : State) (x : Clutch) : Bool :=
  (s.clutch x).state == .filling && decide ((s.clutch x).fillTime ≤ (s.clutch x).held)

/-- Fills that lock at once: PRESELECT, also where it goes on in NEUTRAL (R84, R89). -/
def locksAtOnce (k : Shc) : Bool :=
  k.state == .neutral || (k.state == .engaging && k.phase == some .preselect)

/-- A clutch ends its fill (R73, R84, R86). -/
def settleFill (s : State) (x : Clutch) : State :=
  if locksAtOnce s.shc then lockClutch s x
  else
    let s := s.withClutch x ((s.clutch x).ramp (s.clutchCfg x).touch)
    if s.shc.state = .engaging then s.withShc { s.shc with interval := 0 } else s

/-- DRAIN's intervals (R86). -/
def drainIntervals : Nat := 10

/-- The on-coming clutches of a shuttle. -/
def shuttleOnComing (s : State) : List Clutch := dirClutchOf s.shc.target ++ onComing s

/-- DRAIN has ended (R86). -/
def drainOver (s : State) : Bool :=
  s.shc.state == .shuttling && s.shc.phase == some .drain && decide (drainIntervals ≤ s.shc.interval) &&
    allIn s .ramping (shuttleOnComing s)

/-- The end of DRAIN: the swap is complete and REVERSE_BRAKE begins (R86). -/
def endDrain (s : State) : State :=
  let s := overClutches lockClutch (onComing s) s
  s.withShc { s.shc with current := s.shc.target, phase := some .reverseBrake, interval := 0 }

/-- What the end of fills lets begin (R73, R84, R86, R89). -/
def afterFills (s : State) : State :=
  match s.shc.state, s.shc.phase with
  | .shifting, some .fill => if allIn s .ramping (onComing s) then endFill s else s
  | .engaging, some .preselect =>
    match s.shc.target with
    | some t => if allIn s .locked (gearPair s.cfg t) then beginRamp t s else s
    | none => s
  | .neutral, _ =>
    match s.shc.preselect with
    | some t =>
      if allIn s .locked (gearPair s.cfg t) then
        s.withShc { s.shc with current := some t, preselect := none }
      else s
    | none => s
  | .shuttling, some .drain => if drainOver s then endDrain s else s
  | _, _ => s

/-- A FILLING clutch counts one interval. -/
def holdFill (s : State) (x : Clutch) : State :=
  if (s.clutch x).state = .filling then s.withClutch x { s.clutch x with held := (s.clutch x).held + 10 }
  else s

/-- A fill that is due ends. -/
def settleDue (s : State) (x : Clutch) : State := if fillDue s x then settleFill s x else s

/-- One interval of every fill in progress. -/
def fillStep (s : State) : State :=
  overClutches settleDue Clutch.all (overClutches holdFill Clutch.all s)

/-! ## Shuttle phases (R86) -/

/-- The off-going commands at interval `j` of DRAIN; after the tenth they stand at 0 (R86). -/
def drainOffGoing (j : Nat) (s : State) : State :=
  if j ≤ drainIntervals then
    overClutches (torqueOff fun c => c.hold * (drainIntervals - j) / drainIntervals)
      (dirClutchOf s.shc.current ++ offGoing s) s
  else s

/-- One interval of DRAIN. -/
def drainStep (s : State) : State :=
  let s := countInterval s
  afterFills (fillStep (drainOffGoing s.shc.interval s))

/-- REVERSE_BRAKE ends (R86). -/
def brakeOver (s : State) : Bool := decide (s.scu.motion.outRpm < 30) || s.scu.motion.standstill

/-- DRIVE_AWAY begins from the phase value (R86, log 27). -/
def beginDriveAway (s : State) : State :=
  overClutches (fun s x => s.withClutch x { s.clutch x with entryValue := (s.clutch x).value })
    (dirClutchOf s.shc.target) (s.withPhase (some .driveAway))

/-- One interval of REVERSE_BRAKE. -/
def reverseBrakeStep (s : State) : State :=
  let s := countInterval s
  let s := overClutches (fun s x => s.withClutch x
    ((s.clutch x).ramp (min (s.clutchCfg x).hold ((s.clutch x).value + s.shc.rate))))
    (dirClutchOf s.shc.target) s
  if brakeOver s then beginDriveAway s else s

/-- DRIVE_AWAY has ended (R86). -/
def driveAwayOver (s : State) : Bool :=
  s.shc.state == .shuttling && s.shc.phase == some .driveAway &&
    decide (rampIntervals s ≤ s.shc.interval)

/-- One interval of DRIVE_AWAY. -/
def driveAwayStep (s : State) : State :=
  let s := countInterval s
  let s := overClutches (fun s x => s.withClutch x ((s.clutch x).ramp
    (alongLine (s.clutch x).entryValue (s.clutchCfg x).hold s.shc.interval (rampIntervals s))))
    (dirClutchOf s.shc.target) s
  if driveAwayOver s then endDirectionRamp s else s

/-- Step 4: the operation in progress by one interval (R73 to R87). -/
def advance (s : State) : State :=
  match s.shc.state, s.shc.phase with
  | .shifting, some .fill => afterFills (fillStep (adaptTests s))
  | .shifting, some .torque => torqueStep (adaptTests s)
  | .shifting, some .inertia => inertiaStep s
  | .shifting, some .lockup => finishShift s
  | .shifting, some .abort => abortStep s
  | .engaging, some .preselect => afterFills (fillStep s)
  | .engaging, some .ramp =>
    if allIn s .filling (dirClutchOf s.shc.target) then fillStep s else rampStep s
  | .shuttling, some .drain => drainStep s
  | .shuttling, some .reverseBrake => reverseBrakeStep s
  | .shuttling, some .driveAway => driveAwayStep s
  | .neutral, _ => afterFills (fillStep s)
  | _, _ => s

/-! ## Neutral (R87, R89) -/

/-- The swap of a shuttle in DRAIN is abandoned (R87). -/
def abandonSwap (s : State) : State :=
  if s.shc.phase = some .drain then
    overClutches lockClutch (offGoing s) (overClutches drainClutch (onComing s) s)
  else s

/-- The speed and range clutches where a shift is left for neutral (R89). -/
def leaveShift (s : State) : State :=
  match s.shc.phase with
  | some .fill => overClutches lockClutch (offGoing s) (overClutches drainClutch (onComing s) s)
  | some .torque =>
    if s.shc.kind = some .up then
      overClutches lockClutch (offGoing s) (overClutches drainClutch (onComing s) s)
    else
      let t := overClutches drainClutch (offGoing s) (overClutches lockClutch (onComing s) s)
      t.withShc { t.shc with current := s.shc.target }
  | some .inertia | some .lockup =>
    let t := overClutches drainClutch (offGoing s) (overClutches lockClutch (onComing s) s)
    t.withShc { t.shc with current := s.shc.target }
  | some .abort => overClutches lockClutch (offGoing s) s
  | _ => s

/-- A PRESELECT left for neutral goes on to LOCKED (R89, log 23). -/
def leaveEngaging (s : State) : State :=
  if s.shc.phase = some .preselect then s.withShc { s.shc with preselect := s.shc.target } else s

/-- The selected gear after neutral (R89), taken once at entry to NEUTRAL, also where a PRESELECT goes on and
makes its target current later (log 74). -/
def reselect (s : State) : State :=
  match s.shc.current with
  | some g =>
    match ((s.cfg.gearsOf g.dir).filter fun e => e.start && decide (e.gear.num ≤ g.num)).getLast? with
    | some e => s.withShc { s.shc with selected := some e.gear }
    | none => s
  | none => s

/-- What every way into neutral does (R89, log 22). -/
def dropToNeutral (s : State) : State :=
  let s := withdrawTorque (overClutches drainClutch directionClutches s)
  let s := s.withShc { s.shc with queue := [], pendingShuttle := false }
  enterGearbox .neutral (dropOperation s)

/-- A lever change to N (R89). -/
def neutralize (s : State) : State :=
  match s.shc.state with
  | .inGear => dropToNeutral (reselect s)
  | .shifting => dropToNeutral (reselect (leaveShift s))
  | .shuttling => dropToNeutral (reselect (abandonSwap s))
  | .engaging => dropToNeutral (reselect (leaveEngaging s))
  | .parked | .neutral | .faultHold => s

/-! ## Park (R90 to R92) -/

/-- The park request is in force (R90, R92). -/
def parkRequested (s : State) : Bool :=
  s.shc.lever == .park || (s.shc.state == .parked && s.shc.ignored.isSome) || s.brakeParkRequest ||
    s.shc.parkOrder

/-- A park request acts: as lever N, with pending-park set; without effect in PARKED (R90). -/
def takePark (s : State) : State :=
  if s.shc.state = .parked then s else neutralize (s.withShc { s.shc with pendingPark := true })

/-- The park request comes into force or leaves it (R90). -/
def followParkRequest (s : State) : State :=
  let now := parkRequested s
  let before := s.shc.parkForce
  let s := s.withShc { s.shc with parkForce := now }
  if now && !before then takePark s
  else if !now then s.withShc { s.shc with pendingPark := false }
  else s

/-- The MC's park order (R92, log 37). -/
def shcParkOrder (s : State) : State :=
  writeClutches (followParkRequest (takePark (s.withShc { s.shc with parkOrder := true })))

/-- The SHC commands PKV. -/
def writePkv (released : Bool) (s : State) : State :=
  writeCommand .pkv (if released then 1 else 0) (s.withShc { s.shc with parkReleased := released })

/-- The gearbox can park (R90). -/
def canPark (s : State) : Bool :=
  (s.shc.state == .neutral || s.shc.state == .faultHold) && s.shc.pendingPark && parkRequested s &&
    s.scu.motion.standstill && allIn s .off directionClutches

/-- The gearbox parks and the trailer takes its order (R90, R157). -/
def applyPark (s : State) : State :=
  let s := overClutches drainClutch gearClutches (writePkv false s)
  let s := s.withShc { s.shc with current := none, pendingPark := false, preselect := none }
  trailerParkOrder (enterGearbox .parked s)

/-- The refusal of a release (R91). Charge refuses it by R91's reading of CHG and, where R93 says so, while
it is in doubt by the comparator alone (log 75). -/
def releaseRefusal (s : State) : Option ShcReason :=
  if s.gearboxFaulted then some .fault
  else if (match s.engineSpeed with
      | some n => decide (n ≤ 500)
      | none => true) then some .noEngine
  else if s.chargeDoubt = true ∨ s.sfe.chans.chg.value < 140 then some .noCharge
  else none

/-- The engagement that a lever change to F or R asks for. -/
def engageLever (s : State) : State :=
  match s.shc.lever with
  | .f => engageRequest .forward s
  | .r => engageRequest .reverse s
  | .n | .park => s

/-- The release of park, tried; `ended` when a lever change of this interval ended the park request (R91,
log 80). -/
def tryRelease (ended : Bool) (s : State) : State :=
  match releaseRefusal s with
  | some why => refuseLever why s
  | none =>
    let s := enterGearbox .neutral (writePkv true s)
    if ended then engageLever s else s

/-- Step 5 (R90, R91). -/
def parkTest (ended : Bool) (s : State) : State :=
  if canPark s then applyPark s
  else if s.shc.state = .parked ∧ parkRequested s = false then tryRelease ended s
  else s

/-! ## Lever changes (R83 to R91) -/

/-- The direction of the gearbox a lever change is compared with (R85). -/
def gearboxGear (s : State) : Option Gear :=
  match s.shc.state with
  | .inGear | .shifting => s.shc.current
  | .engaging | .shuttling => s.shc.target
  | .parked | .neutral | .faultHold => none

/-- The lever position names a direction. -/
def Lever.drives : Lever → Bool
  | .f | .r => true
  | .n | .park => false

/-- A lever change from `old` to F or R (R83, R85, R87). In gear a change between F and R is a shuttle
request, and one from N, or from PARK (log 21), is first compared with the gearbox's direction. -/
def moveToDirection (old : Lever) (s : State) : State :=
  match s.shc.state with
  | .neutral => engageLever s
  | .inGear =>
    if old.drives = true ∨ leverOpposes s.shc.lever s.shc.current = true then shuttleRequest s
    else s.withShc { s.shc with pendingShuttle := false }
  | .shifting | .engaging | .shuttling =>
    s.withShc { s.shc with pendingShuttle := leverOpposes s.shc.lever (gearboxGear s) }
  | .parked | .faultHold => s

/-- A received lever that differs is taken and acts (R68). -/
def changeLever (l : Lever) (s : State) : State :=
  let old := s.shc.lever
  let s := s.withShc { s.shc with lever := l, ignored := none }
  match l with
  | .n => neutralize s
  | .f | .r => moveToDirection old s
  | .park => takePark s

/-- A received lever that is compared and does not act (R94). -/
def compareLever (l : Lever) (s : State) : State :=
  if l = s.shc.lever then s else s.withShc { s.shc with lever := l, ignored := some l }

/-! ## Step 1 (R68, R94, R95) -/

/-- The level fields of a FRESH record, but for the lever (R68). -/
def takeLevels (d : CabDriveFields) (s : State) : State :=
  s.withShc { s.shc with
    pedal := min 100 d.pedal, auto := d.auto, rate := shuttleRate d.aggressiveness, pedalHold := none,
    cabFresh := true }

/-- The cab record at an interval: the state after, and whether the lever changed and acted (R68, R94). -/
def takeCab (s : State) : State × Bool :=
  match s.lc.cabDrive.current with
  | some d =>
    let wasFresh := s.shc.cabFresh
    let s := takeLevels d s
    if wasFresh then
      if d.lever = s.shc.lever then (s, false) else (changeLever d.lever s, true)
    else (compareLever d.lever s, false)
  | none =>
    if s.shc.cabFresh then
      (flushQueue (s.withShc { s.shc with cabFresh := false, pedalHold := some 0 }), false)
    else (s, false)

/-- The test on OUT and INP (R95). -/
def takeSpeedLoss (s : State) : State :=
  let lost := s.speedsLost
  let s := if lost && !s.shc.speedLost then flushQueue s else s
  s.withShc { s.shc with speedLost := lost }

/-- What the SHC raises at its first interval after its timer started (R68). -/
def firstInterval (s : State) : State :=
  if s.shc.starting then
    let s := s.withShc { s.shc with starting := false }
    let s := if s.sfe.chans.chg.cmp = .low then raise .chargeLow s else clearFault .chargeLow s
    if s.sfe.chans.oil.cmp = .high then raise .oilHot s else clearFault .oilHot s
  else s

/-! ## Fault hold (R96) -/

/-- A clutch that carries anything drains (R96). -/
def drainCarrying (s : State) (x : Clutch) : State :=
  if (s.clutch x).command ≠ 0 ∨ (s.clutch x).value ≠ 0 then drainClutch s x else s

/-- Entry to FAULT_HOLD (R96). -/
def enterFaultHold (s : State) : State :=
  let s := withdrawTorque (overClutches drainCarrying Clutch.all s)
  let s := s.withShc { s.shc with queue := [], pendingShuttle := false, current := none, preselect := none }
  enterGearbox .faultHold (dropOperation s)

/-- Step 2 (R96). -/
def faultHoldTest (s : State) : State :=
  if s.shc.state = .faultHold then
    if s.shc.lever = .n ∧ s.gearboxFaulted = false then enterGearbox .neutral s else s
  else if s.shc.state = .parked then s
  else if s.gearboxFaulted then enterFaultHold s
  else s

/-! ## Step 6 and the interval (R66, R68, R98) -/

/-- The clutches whose drain timer runs. -/
def drainingClutches (s : State) : List Clutch := Clutch.all.filter fun x => (s.clutch x).drain.isSome

/-- The drain timer's length in ms (R66). -/
def drainMs : Nat := 100

/-- A drain timer has reached 100 ms. -/
def drainDue (s : State) (x : Clutch) : Bool :=
  (s.clutch x).state == .draining &&
    (match (s.clutch x).drain with
     | some t => decide (drainMs ≤ t)
     | none => false)

/-- The clutch becomes OFF (R66). -/
def openClutch (s : State) (x : Clutch) : State :=
  s.withClutch x { s.clutch x with state := .off, value := 0, drain := none }

/-- One drain timer counted, with the end it may reach (log 15). -/
def countDrain (s : State) (x : Clutch) : State :=
  match (s.clutch x).drain with
  | some t =>
    let s := s.withClutch x { s.clutch x with drain := some (min drainMs (t + 10)) }
    if drainDue s x then openClutch s x else s
  | none => s

/-- Overrun (R98). -/
def writeOverrun (s : State) : State := s.withShc { s.shc with overrun := s.scu.motion.inpRpm - 2500 }

/-- Step 6; `running` are the drain timers that ran when the interval began. -/
def finishInterval (running : List Clutch) (s : State) : State :=
  overClutches countDrain running (writeClutches (writeOverrun s))

/-- Steps 1 and 2; a park request that comes into force or leaves it acts between them (R90, log 83).
Answered beside the state: whether the lever moved. -/
def takeInputs (s : State) : State × Bool :=
  let r := takeCab (firstInterval s)
  (faultHoldTest (followParkRequest (takeSpeedLoss r.1)), r.2)

/-- Step 4 is made for an operation that was in progress when the interval began, and for the fills that
go on where this interval has left a PRESELECT for NEUTRAL (R89). -/
def advanceFrom (before : GearState) (s : State) : State :=
  if s.shc.state = before ∨ s.shc.state = .neutral then advance s else s

/-- The lever's part of the park request, which a lever change ends (R90, R91). -/
def leverParks (k : Shc) : Bool := k.lever == .park || k.ignored.isSome

/-- One control interval (R68). -/
def shcInterval (s : State) : State :=
  let running := drainingClutches s
  let before := s.shc.state
  let parked := leverParks s.shc
  let r := takeInputs s
  finishInterval running (parkTest (parked && r.2) (advanceFrom before (takeHead r.1)))

def execShcControlInterval (s : State) : Host.Outcome State Fault Refusal :=
  .next (if s.mc.mode.controllersRun then shcInterval s else s)

/-! ## Commands of single changes -/

/-- The SHC's timers run and a condition holds. -/
def shcDue (b : Bool) (s : State) : Bool := s.mc.mode.controllersRun && b

def execFillComplete (x : Clutch) (s : State) : Host.Outcome State Fault Refusal :=
  .next (if shcDue (fillDue s x) s then writeClutches (afterFills (settleFill s x)) else s)

def execTorquePhaseEnd (s : State) : Host.Outcome State Fault Refusal :=
  .next (if shcDue (torqueOver s) s then writeClutches (endTorque s) else s)

def execSyncReached (s : State) : Host.Outcome State Fault Refusal :=
  .next (if shcDue (syncDue s) s then writeClutches (syncPoint s) else s)

def execShiftTimeout (s : State) : Host.Outcome State Fault Refusal :=
  .next (if shcDue (timeoutDue s) s then writeClutches (timeOutShift s) else s)

def execAbortComplete (s : State) : Host.Outcome State Fault Refusal :=
  .next (if shcDue (abortOver s) s then writeClutches (endAbort s) else s)

def execEngageRampEnd (s : State) : Host.Outcome State Fault Refusal :=
  .next (if shcDue (rampOver s) s then writeClutches (endDirectionRamp s) else s)

def execShuttleDrainEnd (s : State) : Host.Outcome State Fault Refusal :=
  .next (if shcDue (drainOver s) s then writeClutches (endDrain s) else s)

def execDriveAwayEnd (s : State) : Host.Outcome State Fault Refusal :=
  .next (if shcDue (driveAwayOver s) s then writeClutches (endDirectionRamp s) else s)

def execClutchDrainComplete (x : Clutch) (s : State) : Host.Outcome State Fault Refusal :=
  .next (if shcDue (drainDue s x) s then openClutch s x else s)

/-- The pedal hold in µs (R94). -/
def pedalHoldUs : Nat := 1000000

/-- The pedal hold timer has reached 1 s. -/
def pedalHoldOver (s : State) : Bool :=
  match s.shc.pedalHold with
  | some t => decide (pedalHoldUs ≤ t)
  | none => false

/-- The pedal in use becomes 0 (R94). -/
def dropPedal (s : State) : State :=
  writeClutches (s.withShc { s.shc with pedal := 0, pedalHold := none })

def execPedalHoldExpiry (s : State) : Host.Outcome State Fault Refusal :=
  .next (if shcDue (pedalHoldOver s) s then dropPedal s else s)

/-! ## Automatic shifting (R97) -/

/-- Limits of the up and down counters (R97). -/
def autoUpLimit : Nat := 10
def autoDownLimit : Nat := 5

/-- The gearbox is eligible (R97). -/
def autoEligible (s : State) : Bool :=
  s.shc.auto && s.shc.state == .inGear && s.shc.queue.isEmpty && s.lc.engine.isFresh &&
    (match s.shc.current with
     | some g => (s.cfg.entryOf g).any fun e => e.auto
     | none => false)

/-- An AUTO request is offered and both counters become 0 (R97). -/
def offerAuto (kind : ShiftKind) (s : State) : State :=
  shiftRequest kind .auto (s.withShc { s.shc with upCount := 0, downCount := 0 })

/-- A counter has reached its limit. -/
def autoUpDue (s : State) : Bool := decide (autoUpLimit ≤ s.shc.upCount)
def autoDownDue (s : State) : Bool := decide (autoDownLimit ≤ s.shc.downCount)

/-- One expiry of the automatic-shift timer (R97). -/
def autoTick (s : State) : State :=
  if autoEligible s then
    let torque := s.engineTorque.getD 0
    let inp := s.scu.motion.inpRpm
    let s := s.withShc { s.shc with
      upCount := if 2100 < inp ∧ torque < 60 then s.shc.upCount + 1 else 0
      downCount := if inp < 1500 ∧ 85 < torque then s.shc.downCount + 1 else 0 }
    if autoUpDue s then offerAuto .up s
    else if autoDownDue s then offerAuto .down s
    else s
  else s.withShc { s.shc with upCount := 0, downCount := 0 }

def execAutoShiftTimer (s : State) : Host.Outcome State Fault Refusal :=
  .next (if s.mc.mode.controllersRun then autoTick s else s)

def execAutoUp (s : State) : Host.Outcome State Fault Refusal :=
  .next (if shcDue (autoUpDue s) s then offerAuto .up s else s)

def execAutoDown (s : State) : Host.Outcome State Fault Refusal :=
  .next (if shcDue (autoDownDue s) s then offerAuto .down s else s)

/-! ## Charge and oil events (R93, R98) -/

/-- A shuttle is abandoned for want of charge (R93). -/
def abandonShuttle (s : State) : State :=
  let s := abandonSwap s
  dropToNeutral (s.withShc { s.shc with ignored := some s.shc.lever })

/-- What charge loss does to the operation in progress (R93). -/
def loseCharge (s : State) : State :=
  let s := flushQueue s
  match s.shc.state, s.shc.phase with
  | .shifting, some .fill | .shifting, some .inertia => beginAbort s
  | .shifting, some .torque => if s.shc.kind = some .up then beginAbort s else s
  | .shuttling, _ => abandonShuttle s
  | .engaging, _ => neutralize s
  | _, _ => s

/-- A CHG event at the SHC (R93). -/
def takeShcCharge (ev : SfeEvent) (s : State) : State :=
  match ev with
  | .lowEnter => writeClutches (loseCharge (raise .chargeLow s))
  | .failed => writeClutches (loseCharge (clearFault .chargeLow s))
  | .lowLeave => clearFault .chargeLow s
  | .starting | .valid | .highEnter | .highLeave => s

def execShcChgEvent (s : State) : Host.Outcome State Fault Refusal :=
  .next (match takeEvent .shc .chg s with
    | some (ev, s) => if s.mc.mode.controllersRun then takeShcCharge ev s else s
    | none => s)

/-- An OIL event (R98). -/
def takeOil (ev : SfeEvent) (s : State) : State :=
  match ev with
  | .highEnter => raise .oilHot s
  | .highLeave | .failed => clearFault .oilHot s
  | .starting | .valid | .lowEnter | .lowLeave => s

def execShcOilEvent (s : State) : Host.Outcome State Fault Refusal :=
  .next (match takeEvent .shc .oil s with
    | some (ev, s) => if s.mc.mode.controllersRun then takeOil ev s else s
    | none => s)

/-! ## Service and restart (R82, R99) -/

/-- Gearbox states in which RESET_ADAPTATION is carried out (R82). -/
def GearState.resting : GearState → Bool
  | .parked | .neutral | .inGear | .faultHold => true
  | .engaging | .shifting | .shuttling => false

/-- Every learned fill time takes its configured value (R82). -/
def resetLearned (s : State) (x : Clutch) : State :=
  s.withClutch x { s.clutch x with learned := (s.clutchCfg x).fillTime }

/-- RESET_ADAPTATION is taken (R82). -/
def resetAdaptation (tag : Byte) (s : State) : State :=
  if s.mc.mode = .operating ∧ s.shc.state.resting = true then
    serviceAnswer codeResetAdaptation tag .done .none (overClutches resetLearned Clutch.all s)
  else serviceAnswer codeResetAdaptation tag .refused .busy s

def execResetAdaptation (s : State) : Host.Outcome State Fault Refusal :=
  .next (match takeRequest (Request.isService codeResetAdaptation) s with
    | some (.service _ tag, s) => resetAdaptation tag s
    | some (_, s) => s
    | none => s)

/-- The learned fill times. -/
def Shc.learnedTimes (k : Shc) : ClutchTable Nat := k.clutches.map fun _ r => r.learned

/-- The control-restart values (R99). -/
def restartShc (s : State) : State :=
  s.withShc (.reset s.shc.learnedTimes (some s.cfg.startGear) s.shc.shuttleMap)

end Sys2Proof.Machine
end

