-- ==== Sys2Proof/Machine/Hitch.lean ====
section
/-! DEFINITION. The hitch controller (06): valve writes (R117), states (R118 to R121), command sources
(R122 to R130), raising and transport (R131, R132), the control law (R133 to R136), overload relief
(R137, R138), ride damping (R139, R140), stop and restart (R142, R143), and the meanings of its
commands but the switch edges, which stand with the HSQ's notice. -/

namespace Sys2Proof.Machine

/-! ## Valves (R117) -/

/-- Currents of a full raise and of the fender buttons (R123, R128). -/
def fullRaise : Nat := 1200
def fenderRaise : Nat := 700
def fenderLower : Nat := 500

/-- The HTC writes both valves: a write of 0 to one goes before a nonzero write to the other (R117). -/
def setValves (hrv hlv : Nat) (s : State) : State :=
  let s := s.withHtc { s.htc with hrv := hrv, hlv := hlv }
  if hrv = 0 then writeCommand .hlv hlv (writeCommand .hrv hrv s)
  else writeCommand .hrv hrv (writeCommand .hlv hlv s)

/-- Position at or above the upper limit. -/
def atUpper (h : Htc) : Bool := decide ((h.cab.upper : Int) ≤ h.position)

/-- The relief's commands (R138). -/
def writeRelief (s : State) : State := setValves (if atUpper s.htc then 0 else fullRaise) 0 s

/-- Either pin high flag is set. -/
def pinsHigh (h : Htc) : Bool := h.pinLeft || h.pinRight

/-- The overload flag is set with its relief (R138). -/
def beginRelief (s : State) : State :=
  writeRelief (s.withHtc { s.htc with overload := true, mixed := none })

/-! ## Changes of state (R118, R119, R121, R123)

A change of state between intervals leaves the mixed error, the ride damping flag and the slip override flag
of the last interval as they stand; the next interval removes them (log 89). -/

/-- Entry to WORKING (R123, R138). -/
def enterWorking (s : State) : State :=
  let s := s.withHtc { s.htc with state := .working, holdCause := none, overload := false }
  if pinsHigh s.htc then beginRelief s else setValves 0 0 s

/-- Entry to RAISING (R123, R131). -/
def enterRaising (s : State) : State :=
  setValves fullRaise 0 (s.withHtc { s.htc with state := .raising, holdCause := none, overload := false })

/-- Entry to HELD; a hitch already HELD keeps its first cause (R121). -/
def enterHeld (cause : HoldCause) (s : State) : State :=
  setValves 0 0 (s.withHtc { s.htc with
    state := .held, overload := false,
    holdCause := if s.htc.state = .held then s.htc.holdCause else some cause })

/-- The fault cause as the record stands (R119). -/
def hitchFaultCause (s : State) : FaultCause := if s.htc.posValid then .valve else .position

/-- Entry to FAULT_HOLD (R119). -/
def enterHitchFault (s : State) : State :=
  setValves 0 0 (s.withHtc { s.htc with
    state := .faultHold, faultCause := some (hitchFaultCause s), holdCause := none, mixed := none,
    overload := false, damping := false })

/-- The condition of FAULT_HOLD (R119, R120). -/
def hitchFaultDue (s : State) : Bool := !s.htc.posValid || s.hitchFaulted

/-- Exit from FAULT_HOLD (R120, R142). -/
def leaveHitchFault (s : State) : State :=
  let s := s.withHtc { s.htc with faultCause := none }
  if s.mc.mode = .stopping then s.withHtc { s.htc with state := .held, holdCause := some .stop }
  else if s.htc.lockReleased then s.withHtc { s.htc with state := .held, holdCause := some .fault }
  else s.withHtc { s.htc with state := .startLock }

/-- Step 3 (R119, R120). -/
def hitchFaultTest (s : State) : State :=
  if s.htc.state = .faultHold then
    if hitchFaultDue s then s.withHtc { s.htc with faultCause := some (hitchFaultCause s) }
    else leaveHitchFault s
  else if hitchFaultDue s then enterHitchFault s
  else s

/-- An UP edge (R123). -/
def hitchUp (s : State) : State :=
  match s.htc.state with
  | .startLock => enterRaising (s.withHtc { s.htc with lockReleased := true })
  | .held | .working => enterRaising s
  | .raising | .transport | .fender | .faultHold => s

/-- A DOWN edge (R123). -/
def hitchDown (s : State) : State :=
  match s.htc.state with
  | .startLock => enterWorking (s.withHtc { s.htc with lockReleased := true })
  | .held | .raising | .transport => enterWorking s
  | .working | .fender | .faultHold => s

/-- A cab switch edge (R123): without effect in STOPPING and while the HTC takes no events. -/
def hitchSwitch (up : Bool) (s : State) : State :=
  if s.mc.mode = .operating then (if up then hitchUp s else hitchDown s) else s

/-- The refusal of a step of the HSQ (R129). -/
def hitchRefusal (s : State) : Option HtcReason :=
  match s.htc.state with
  | .faultHold => some .fault
  | .startLock => some .locked
  | .fender => some .busyLocal
  | _ => if s.lc.cabHitch.isFresh then none else some .stale

/-- The HSQ's SLIP_CONTROL step (R130). -/
def acceptSlipControl (on : Bool) (s : State) : State :=
  if s.mc.mode.controllersRun then s.withHtc { s.htc with slipOn := on, slipSource := .headland } else s

/-- The MC's stop order (R142). DESIGN CHOICE (log 93): the order that takes START_LOCK to HELD leaves lock
released clear, since R118 sets it at its three exits and R142 does not name it, though R115 has it clear
only until START_LOCK is first left. -/
def hitchStopOrder (s : State) : State :=
  if s.htc.state = .faultHold then setValves 0 0 s else enterHeld .stop s

/-! ## Step 1: inputs (R116, R136, R137) -/

/-- Both draft pins are VALID. -/
def pinsValid (s : State) : Bool :=
  s.sfe.chans.drl.state == .valid && s.sfe.chans.drr.state == .valid

/-- Either draft pin is FAILED. -/
def pinsFailed (s : State) : Bool :=
  s.sfe.chans.drl.state == .failed || s.sfe.chans.drr.state == .failed

/-- DRAFT_UNAVAILABLE at an interval (R136). DESIGN CHOICE (log 97): one pin that is FAILED raises it also where
the image configures that pin alone, and then no interval clears it, since the other pin is never VALID. -/
def testDraftFault (s : State) : State :=
  let failed := pinsFailed s
  let t := if failed && !s.htc.pinFailed then raise .draftUnavailable s
    else if pinsValid s then clearFault .draftUnavailable s
    else s
  t.withHtc { t.htc with pinFailed := failed }

/-- A record with position, draft and pin high flags as the SFE holds them (R116, R137, R143). -/
def Htc.read (s : State) (h : Htc) : Htc :=
  { h with
      position := s.sfe.chans.hps.value, posValid := s.sfe.posValid
      draft := s.sfe.chans.drl.value + s.sfe.chans.drr.value
      draftValid := pinsValid s && !s.sfe.chans.drl.atLimit && !s.sfe.chans.drr.atLimit
      pinLeft := s.sfe.chans.drl.cmp == .high, pinRight := s.sfe.chans.drr.cmp == .high }

/-- What an interval reads of the SFE (R116, R136, R137). -/
def readHitch (s : State) : State := testDraftFault (s.withHtc (s.htc.read s))

/-! ## Step 2: the cab's fields (R122, R130) -/

/-- The difference that makes a lever change (R122). -/
def leverStep : Nat := 10

/-- The lever differs from the reference by a change (R122). -/
def leverMoved (ref lever : Nat) : Bool := decide (leverStep ≤ ((lever : Int) - ref).natAbs)

/-- Hold causes a lever change releases (R121). -/
def leverReleases (c : Option HoldCause) : Bool := c == some .cabLost || c == some .sourceLost

/-- A lever change acts (R121, R142). -/
def actLever (s : State) : State :=
  if s.htc.state = .held ∧ leverReleases s.htc.holdCause = true ∧ s.mc.mode ≠ .stopping then enterWorking s
  else s

/-- The lever reference and the change it may find (R122); `wasFresh` for the interval before. -/
def testLever (wasFresh : Bool) (s : State) : State :=
  let lever := s.htc.cab.lever
  match s.htc.leverRef with
  | some ref =>
    if !wasFresh then s.withHtc { s.htc with leverRef := some lever }
    else if leverMoved ref lever then actLever (s.withHtc { s.htc with leverRef := some lever })
    else s
  | none => s.withHtc { s.htc with leverRef := some lever }

/-- The cab's slip control field (R130). -/
def testSlipField (s : State) : State :=
  if s.htc.cabSlipSeen = some s.htc.cab.slipControl then s
  else s.withHtc { s.htc with
    cabSlipSeen := some s.htc.cab.slipControl, slipOn := s.htc.cab.slipControl, slipSource := .cab }

/-- Step 2 (R122, R130). DESIGN CHOICE (log 94): a record was not FRESH, for the lever test of R122, where the
interval before found it so; one that goes STALE and FRESH again between two intervals counts as FRESH
throughout. -/
def takeCabHitch (s : State) : State :=
  match s.lc.cabHitch.current with
  | some f =>
    let wasFresh := s.htc.cabFresh
    let s := s.withHtc { s.htc with cab := cabValuesOf f, cabFresh := true }
    testSlipField (testLever wasFresh s)
  | none => s.withHtc { s.htc with cabFresh := false }

/-! ## Step 4: lost sources (R124 to R126) -/

/-- The cab loss test (R124). -/
def cabLossTest (s : State) : State :=
  if !s.lc.cabHitch.isFresh &&
      (s.htc.state == .working || s.htc.state == .raising || s.htc.state == .transport) then
    enterHeld .cabLost s
  else s

/-- The position request of a FRESH implement in mode POSITION, with the cab's authority (R125). -/
def implementDepth (s : State) : Option Nat :=
  if s.htc.cab.authority then
    match s.lc.implement.current with
    | some f => if f.positionMode then some (min 1000 f.position) else none
    | none => none
  else none

/-- The implement loss test and the choice of source (R125, R126). -/
def sourceTest (s : State) : State :=
  let lost := s.htc.source == .implement && s.htc.state == .working && !s.lc.implement.isFresh
  let s := if lost then enterHeld .sourceLost s else s
  match implementDepth s with
  | some c => s.withHtc { s.htc with source := .implement, depth := c }
  | none => s.withHtc { s.htc with source := .cab, depth := s.htc.cab.lever }

/-! ## Step 5: fender buttons (R127) -/

/-- A button line read once more: settled at two equal readings (R127). -/
def Button.read (line : Bool) (b : Button) : Button :=
  { settled := if b.last = some line then some line else b.settled, last := some line }

/-- A settled state that goes from RELEASED to PRESSED. -/
def Button.pressed (old new : Button) : Bool := old.settled == some false && new.settled == some true

/-- States in which a press is accepted (R127). -/
def HitchState.takesPress : HitchState → Bool
  | .startLock | .held | .raising | .transport | .working => true
  | .fender | .faultHold => false

/-- A press is taken (R127); in FENDER it changes only the button state. -/
def pressFender (s : State) : State :=
  if s.htc.state = .fender then s
  else if s.scu.motion.standstill ∧ s.mc.mode = .operating ∧ s.htc.state.takesPress = true then
    s.withHtc { s.htc with state := .fender, lockReleased := true, overload := false, holdCause := none }
  else s.withHtc { s.htc with refused := true }

/-- Both settled states are RELEASED. -/
def bothReleased (h : Htc) : Bool := h.left.settled == some false && h.right.settled == some false

/-- Step 5 (R127). -/
def settleFenders (s : State) : State :=
  let left := s.htc.left.read s.pins.fenderLeft
  let right := s.htc.right.read s.pins.fenderRight
  let presses := [s.htc.left.pressed left, s.htc.right.pressed right].filter id
  let s := s.withHtc { s.htc with left := left, right := right }
  let s := if bothReleased s.htc then s.withHtc { s.htc with refused := false } else s
  presses.foldl (fun s _ => pressFender s) s

/-! ## The control law (R133 to R135) -/

/-- The mixed error before the slip term (R133). -/
def mixedError (span depth mix : Nat) (p d : Int) (draftValid : Bool) : Int :=
  let ep := (depth : Int) - p
  let set := truncDiv ((span : Int) * (1000 - depth)) 1000
  let ed := truncDiv ((d - set) * 1000) span
  let m : Int := if draftValid then mix else 0
  truncDiv ((100 - m) * ep + m * ed) 100

/-- The slip error, where the slip term acts (R134). -/
def slipError (s : State) : Option Int :=
  if s.htc.slipOn = true ∧ s.scu.motion.slipVal = .valid ∧ (s.htc.cab.slipLimit : Int) < s.scu.motion.filtered
  then some ((s.scu.motion.filtered - s.htc.cab.slipLimit) * 4) else none

/-- HRV and HLV for an error (R135), with where raising and lowering stop. -/
def lawValves (e : Int) (noRaise noLower : Bool) (rate : Nat) : Nat × Nat :=
  if e.natAbs ≤ 10 then (0, 0)
  else if 0 < e then (if noRaise then 0 else min fullRaise (380 + (e.natAbs - 10) * 6), 0)
  else (0, if noLower then 0 else min (350 + rate * 65) (350 + (e.natAbs - 10) * 5))

/-- The law at an interval in WORKING (R133 to R135). -/
def actLaw (s : State) : State :=
  let h := s.htc
  let e := mixedError s.cfg.draftSpan h.depth h.cab.mix h.position h.draft h.draftValid
  let r : Int × Bool := match slipError s with
    | some es => (max e es, decide (e < es))
    | none => (e, false)
  let v := lawValves r.1 (atUpper h) false h.cab.dropRate
  setValves v.1 v.2 (s.withHtc { h with mixed := some r.1, slipOverride := r.2 })

/-! ## Step 6 (R118, R128, R131, R132, R138 to R140) -/

/-- WORKING: relief while a flag is set or overload stands, the law otherwise (R133, R138). -/
def actWorking (s : State) : State :=
  if s.htc.overload || pinsHigh s.htc then beginRelief s else actLaw s

/-- The start lock test (R118). -/
def leverMatches (s : State) : Bool :=
  s.lc.cabHitch.isFresh && decide (((s.htc.cab.lever : Int) - s.htc.position).natAbs ≤ 50)

/-- START_LOCK (R118). -/
def actStartLock (s : State) : State :=
  if leverMatches s then actWorking (enterWorking (s.withHtc { s.htc with lockReleased := true }))
  else setValves 0 0 s

/-- Entry to TRANSPORT (R131, R139). -/
def enterTransport (s : State) : State :=
  setValves 0 0 (s.withHtc { s.htc with
    state := .transport, reload := !s.htc.draftValid
    dAvg := if s.htc.draftValid then s.htc.draft else s.htc.dAvg })

/-- RAISING (R131). DESIGN CHOICE (log 98): the interval that enters TRANSPORT is not itself one in TRANSPORT
(R139, R140), so that damping acts from the next interval on. -/
def actRaising (s : State) : State :=
  if atUpper s.htc then enterTransport s else setValves fullRaise 0 s

/-- Ride damping acts (R140). -/
def dampingActs (s : State) : Bool :=
  s.htc.cab.damping && decide (2200 < s.scu.motion.vGround) && s.htc.draftValid && !s.htc.reload

/-- One interval of damping (R140). -/
def actDamping (s : State) : State :=
  let h := s.htc
  let e := truncDiv (-(h.draft - h.dAvg) * 1000) s.cfg.draftSpan
  let v := lawValves e (atUpper h) (decide (h.position ≤ (h.cab.upper : Int) - 30)) h.cab.dropRate
  setValves v.1 v.2 (s.withHtc { h with mixed := some e, damping := true })

/-- D_avg after an interval in TRANSPORT (R139). -/
def followDraft (h : Htc) : Htc :=
  if h.draftValid then
    if h.reload then { h with dAvg := h.draft, reload := false }
    else { h with dAvg := h.dAvg + truncDiv (h.draft - h.dAvg) 64 }
  else { h with reload := true }

/-- TRANSPORT (R132, R139, R140). An interval that goes back to RAISING leaves D_avg and reload pending as
they stand (log 90). -/
def actTransport (s : State) : State :=
  if s.htc.position + 50 < s.htc.cab.upper then enterRaising s
  else
    let s := if dampingActs s then actDamping s else setValves 0 0 s
    s.withHtc (followDraft s.htc)

/-- The button states PRESSED. -/
def Button.isPressed (b : Button) : Bool := b.settled == some true

/-- FENDER (R128). The refused fender request that rolling sets stands also at an interval at which both
buttons are RELEASED (R127, log 91). -/
def actFender (s : State) : State :=
  if !s.scu.motion.standstill then
    let s := enterHeld .fender s
    s.withHtc { s.htc with refused := true }
  else if bothReleased s.htc then enterHeld .fender s
  else
    match s.htc.left.isPressed, s.htc.right.isPressed with
    | true, false => setValves (if atUpper s.htc then 0 else fenderRaise) 0 s
    | false, true => setValves 0 fenderLower s
    | _, _ => setValves 0 0 s

/-- Step 6; what only an interval that computes it carries is absent before. -/
def actHitch (s : State) : State :=
  let s := s.withHtc { s.htc with mixed := none, damping := false, slipOverride := false }
  match s.htc.state with
  | .startLock => actStartLock s
  | .held | .faultHold => setValves 0 0 s
  | .raising => actRaising s
  | .transport => actTransport s
  | .working => actWorking s
  | .fender => actFender s

/-- One control interval (R116). -/
def htcInterval (s : State) : State :=
  actHitch (settleFenders (sourceTest (cabLossTest (hitchFaultTest (takeCabHitch (readHitch s))))))

def execHtcControlInterval (left right : Bool) (s : State) : Host.Outcome State Fault Refusal :=
  .next (if s.mc.mode.controllersRun then htcInterval (presentButtons left right s)
    else presentButtons left right s)

/-! ## Events (R119, R137, R138) -/

def DraftPin.sensor : DraftPin → Sensor
  | .left => .drl
  | .right => .drr

/-- A pin high flag. -/
def setPin (pin : DraftPin) (b : Bool) (s : State) : State :=
  match pin with
  | .left => s.withHtc { s.htc with pinLeft := b }
  | .right => s.withHtc { s.htc with pinRight := b }

/-- Relief ends at the event that leaves both flags clear (R138). -/
def endRelief (s : State) : State :=
  if s.htc.overload && !pinsHigh s.htc then setValves 0 0 (s.withHtc { s.htc with overload := false }) else s

/-- A draft pin event (R137, R138). -/
def takeDraft (pin : DraftPin) (ev : SfeEvent) (s : State) : State :=
  match ev with
  | .highEnter =>
    let s := setPin pin true s
    if s.htc.state = .working then beginRelief s else s
  | .highLeave | .failed => endRelief (setPin pin false s)
  | .starting | .valid | .lowEnter | .lowLeave => s

def execHtcDraftEvent (pin : DraftPin) (s : State) : Host.Outcome State Fault Refusal :=
  .next (match takeEvent .htc (DraftPin.sensor pin) s with
    | some (ev, s) => if s.mc.mode.controllersRun then takeDraft pin ev s else s
    | none => s)

/-- The HPS state event FAILED (R119). -/
def takeHps (ev : SfeEvent) (s : State) : State :=
  if ev = .failed then
    let s := s.withHtc { s.htc with posValid := false }
    if s.htc.state = .faultHold then s else enterHitchFault s
  else s

def execHtcHpsFailed (s : State) : Host.Outcome State Fault Refusal :=
  .next (match takeEvent .htc .hps s with
    | some (ev, s) => if s.mc.mode.controllersRun then takeHps ev s else s
    | none => s)

/-- The control-restart values, with position, draft and the pins' comparators as the SFE, which runs on,
holds them (R137, R143). -/
def restartHtc (s : State) : State := s.withHtc (Htc.reset.read s)

end Sys2Proof.Machine
end

