-- ==== Sys2Proof/Machine/Headland.lean ====
section
/-! DEFINITION. The headland sequencer (08): issuing steps (R170, R173), triggers (R171, R172), refusals
(R174), aborts (R176, R177), and the meanings of its commands and of the cab's edges, which it is told of
(R176, R193). -/

namespace Sys2Proof.Machine

/-! ## The list of the run -/

/-- The list of a sequence (R167). -/
def listOf (c : Image) : SeqKind → List HStep
  | .entry => c.entry
  | .exit => c.exit

/-- The other list (R170). -/
def otherKind : SeqKind → SeqKind
  | .entry => .exit
  | .exit => .entry

/-- The remaining steps: from the step index to the end of the list (R176). -/
def remaining (s : State) : List HStep :=
  match s.hsq.kind with
  | some k => (listOf s.cfg k).drop s.hsq.index
  | none => []

/-- The run is RUNNING. -/
def State.running (s : State) : Bool := s.hsq.state == .running

/-! ## Aborts (R176, R177) -/

/-- A run is aborted (R177). -/
def abortRun (cause : AbortCause) (s : State) : State :=
  if s.running then s.withHsq { s.hsq with state := .aborted, cause := some cause, trigStart := none } else s

/-- Actions by the function they use (R176). -/
def usesHitch : HAction → Bool
  | .hitchRaise | .hitchWork => true
  | _ => false

def usesShift : HAction → Bool
  | .shiftUp _ | .shiftDown _ => true
  | _ => false

def usesFront : HAction → Bool
  | .frontMode _ => true
  | _ => false

def usesSlip : HAction → Bool
  | .slipControl _ => true
  | _ => false

/-- A remaining step uses a function (R176). -/
def remainingUses (f : HAction → Bool) (s : State) : Bool := (remaining s).any fun x => f x.action

/-- A cab request that touches a function (R176). -/
def cabTouches (f : HAction → Bool) (s : State) : State :=
  if remainingUses f s then abortRun .cabRequest s else s

/-- A notice of a cab edge (R176): taken while the HSQ's timer runs. -/
def notice (f : HAction → Bool) (s : State) : State :=
  if s.mc.mode.headlandRuns then cabTouches f s else s

/-! ## Issuing (R170, R173) -/

/-- The step at the step index, with its action. -/
def stepRef (a : HAction) (s : State) : StepRef :=
  { kind := s.hsq.kind.getD .entry, index := s.hsq.index, action := a }

/-- A refused step is recorded (R174). -/
def recordRefusal (r : StepRef) (why : StepReason) (s : State) : State :=
  s.withHsq { s.hsq with lastRefused := some (r, why) }

/-- The reason of the SHC's last refusal. -/
def lastReason (s : State) : ShcReason :=
  match s.shc.lastRefusal with
  | some (r, _) => r
  | none => .fault

/-- A hitch step (R129, R173). -/
def issueHitch (up : Bool) (s : State) : State :=
  match hitchRefusal s with
  | some why =>
    recordRefusal (stepRef (if up then .hitchRaise else .hitchWork) s) (.htc why) s
  | none => if up then hitchUp s else hitchDown s

/-- `n` requests of one kind, one after another. -/
def shiftRequests (kind : ShiftKind) : Nat → State → State
  | 0, s => s
  | n + 1, s => shiftRequests kind n (shiftRequest kind .headland s)

/-- A shift step (R173). -/
def issueShift (kind : ShiftKind) (a : HAction) (n : Nat) (s : State) : State :=
  let before := s.shc.refusals
  let r := stepRef a s
  let s := shiftRequests kind n s
  let s := if s.shc.refusals ≠ before then recordRefusal r (.shc (lastReason s)) s else s
  s.withHsq { s.hsq with refusalsSeen := s.shc.refusals, lastShift := some r }

/-- An action goes to its target (R173). -/
def issueAction (a : HAction) (s : State) : State :=
  match a with
  | .hitchRaise => issueHitch true s
  | .hitchWork => issueHitch false s
  | .frontMode m => acceptFrontMode m s
  | .shiftUp n => issueShift .up a n s
  | .shiftDown n => issueShift .down a n s
  | .slipControl on => acceptSlipControl on s
  | .wait => s

/-- A step is issued and the index moves on (R170). -/
def issueStep (x : HStep) (s : State) : State :=
  let s := issueAction x.action s
  s.withHsq { s.hsq with index := s.hsq.index + 1 }

/-- From the step at the index onward: IMMEDIATE steps are issued, a DISTANCE or TIME step starts its
count, and the end of the list is DONE (R170 to R172). -/
def issueFrom : List HStep → State → State
  | [], s => s.withHsq { s.hsq with state := .done, trigStart := none }
  | x :: rest, s =>
    match x.trigger with
    | .immediate => issueFrom rest (issueStep x s)
    | .distance _ => s.withHsq { s.hsq with trigStart := some s.scu.motion.travel, progress := 0 }
    | .time _ => s.withHsq { s.hsq with trigStart := some s.now }

/-- The waiting step is issued with what follows it (R170). -/
def issueWaiting (s : State) : State :=
  match remaining s with
  | x :: rest => issueFrom rest (issueStep x s)
  | [] => s

/-! ## Triggers (R171, R172) -/

/-- The unit of both trigger values in µm and in µs. -/
def triggerUnit : Nat := 100000

/-- The distance progress never exceeds the largest trigger (R168). -/
def maxProgress : Nat := 500000000

/-- The trigger of the waiting step. -/
def waitingTrigger (s : State) : Option Trigger := (remaining s).head?.map fun x => x.trigger

/-- A DISTANCE trigger is satisfied (R171). -/
def distanceDue (s : State) : Bool :=
  s.running && (match waitingTrigger s with
    | some (.distance d) => decide (d * triggerUnit ≤ s.hsq.progress)
    | _ => false)

/-- A TIME trigger is satisfied (R172). -/
def timeDue (s : State) : Bool :=
  s.running && (match waitingTrigger s, s.hsq.trigStart with
    | some (.time t), some t0 => decide (t * triggerUnit ≤ elapsed s.now t0)
    | _, _ => false)

/-- Travel is counted toward a DISTANCE trigger (R171). -/
def countTravel (s : State) : State :=
  match waitingTrigger s, s.hsq.trigStart with
  | some (.distance _), some t0 =>
    let d := elapsed s.scu.motion.travel t0
    s.withHsq { s.hsq with
      trigStart := some s.scu.motion.travel
      progress := if s.scu.motion.standstill then s.hsq.progress
        else min maxProgress (s.hsq.progress + d) }
  | _, _ => s

/-- Step 4 (R169). -/
def followTrigger (s : State) : State :=
  let s := countTravel s
  if distanceDue s || timeDue s then issueWaiting s else s

/-! ## Level fields (R176) -/

/-- The front drive mode copy at an interval, and whether it is a change. -/
def takeFront (s : State) : State × Bool :=
  match s.lc.cabDrive.current with
  | some d =>
    let m := frontOfCode d.front
    (s.withHsq { s.hsq with frontSeen := some m }, s.hsq.frontSeen.isSome && s.hsq.frontSeen != some m)
  | none => (s, false)

/-- The slip control copy at an interval. -/
def takeSlip (s : State) : State × Bool :=
  match s.lc.cabHitch.current with
  | some f =>
    let b := onOfCode f.slipControl
    (s.withHsq { s.hsq with slipSeen := some b }, s.hsq.slipSeen.isSome && s.hsq.slipSeen != some b)
  | none => (s, false)

/-- The lever reference at an interval; after a gap it takes the lever with no change. -/
def takeDepth (s : State) : State × Bool :=
  match s.lc.cabHitch.current with
  | some f =>
    let lever := min 1000 f.lever
    let moved := match s.hsq.leverRef with
      | some ref => s.hsq.hitchFresh && leverMoved ref lever
      | none => false
    let keep := s.hsq.leverRef.isSome && s.hsq.hitchFresh && !moved
    (s.withHsq { s.hsq with hitchFresh := true,
                            leverRef := if keep then s.hsq.leverRef else some lever }, moved)
  | none => (s.withHsq { s.hsq with hitchFresh := false }, false)

/-- The level fields' comparison (R176). -/
def compareFields (s : State) : State :=
  let a := takeFront s
  let b := takeSlip a.1
  let c := takeDepth b.1
  let s := c.1
  let s := if a.2 then cabTouches usesFront s else s
  let s := if b.2 then cabTouches usesSlip s else s
  if c.2 then cabTouches usesHitch s else s

/-- The tests of R177 at an interval: LEVER before SHUTTLE. -/
def testGearbox (s : State) : State :=
  if s.shc.lever = .n ∨ s.shc.lever = .park then abortRun .lever s
  else if s.shc.state = .shuttling ∨ s.shc.pendingShuttle = true then abortRun .shuttle s
  else s

/-- Step 3: the SHC's refusal count (R174). -/
def checkRefusals (s : State) : State :=
  if s.shc.refusals = s.hsq.refusalsSeen then s
  else
    let s := s.withHsq { s.hsq with refusalsSeen := s.shc.refusals }
    match s.shc.lastRefusal, s.hsq.lastShift with
    | some (why, .headland), some r => recordRefusal r (.shc why) s
    | _, _ => s

/-- One control interval (R169). -/
def hsqInterval (s : State) : State :=
  if s.running then
    let s := checkRefusals (testGearbox (compareFields s))
    if s.running then followTrigger s else s
  else checkRefusals s

def execHsqControlInterval (s : State) : Host.Outcome State Fault Refusal :=
  .next (if s.mc.mode.headlandRuns then hsqInterval s else s)

/-- The row of a trigger is the control interval that finds the trigger satisfied (R171, R172, log 35). -/
def execDistanceTrigger (s : State) : Host.Outcome State Fault Refusal :=
  .next (if s.mc.mode.headlandRuns && distanceDue (countTravel s) then hsqInterval s else s)

def execTimeTrigger (s : State) : Host.Outcome State Fault Refusal :=
  .next (if s.mc.mode.headlandRuns && timeDue s then hsqInterval s else s)

/-! ## START and CANCEL (R170, R177) -/

/-- The cab copies as their owners take them, where the record is FRESH (R176). DESIGN CHOICE (log 95): the
hitch record's freshness at START stands for that of the interval before, so that the run's first interval
compares the lever with the copy, whatever an interval before the run would have found. -/
def takeCopies (s : State) : State :=
  s.withHsq { s.hsq with
    frontSeen := s.lc.cabDrive.current.map fun d => frontOfCode d.front
    slipSeen := s.lc.cabHitch.current.map fun f => onOfCode f.slipControl
    leverRef := s.lc.cabHitch.current.map fun f => min 1000 f.lever
    hitchFresh := s.lc.cabHitch.isFresh }

/-- A run of the next sequence begins (R170). -/
def startRun (s : State) : State :=
  let k := s.hsq.nextKind
  let l := listOf s.cfg k
  let s := s.withHsq { s.hsq with
    state := .running, kind := some k, stepCount := l.length, index := 0, cause := none,
    progress := 0, trigStart := none, nextKind := otherKind k }
  issueFrom l (takeCopies s)

/-- The oldest headland request. -/
def Request.isHeadland : Request → Bool
  | .headland _ => true
  | _ => false

/-- The oldest headland request, if it is the one asked for. -/
def takeHeadland (start : Bool) (s : State) : Option State :=
  match takeRequest Request.isHeadland s with
  | some (.headland b, t) => if b = start then some t else none
  | _ => none

def execHeadlandStart (s : State) : Host.Outcome State Fault Refusal :=
  .next (match takeHeadland true s with
    | some s => if s.mc.mode.headlandRuns && !s.running then startRun s else s
    | none => s)

def execHeadlandCancel (s : State) : Host.Outcome State Fault Refusal :=
  .next (match takeHeadland false s with
    | some s => if s.mc.mode.headlandRuns then abortRun .cancel s else s
    | none => s)

/-- The control-restart values (R178). -/
def restartHsq (s : State) : State := s.withHsq .reset

/-! ## The cab's edges (R69, R123, R176, R193) -/

/-- A shift command of the cab. -/
def Request.isShift : Request → Bool
  | .shift _ => true
  | _ => false

/-- The oldest shift command that waits. -/
def takeShift (s : State) : Option (ShiftCmd × State) :=
  match takeRequest Request.isShift s with
  | some (.shift c, t) => some (c, t)
  | _ => none

/-- A cab shift command at the SHC, while its timers run, and its notice at the HSQ. -/
def cabShift (f : State → State) (s : State) : State :=
  if s.mc.mode.controllersRun then notice usesShift (f s) else s

def execCabShiftUp (s : State) : Host.Outcome State Fault Refusal :=
  .next (match takeShift s with
    | some (.up, s) => cabShift (shiftRequest .up .cab) s
    | _ => s)

def execCabShiftDown (s : State) : Host.Outcome State Fault Refusal :=
  .next (match takeShift s with
    | some (.down, s) => cabShift (shiftRequest .down .cab) s
    | _ => s)

def execCabSelect (s : State) : Host.Outcome State Fault Refusal :=
  .next (match takeShift s with
    | some (.select g, s) => cabShift (selectRequest g) s
    | _ => s)

/-- A switch edge of the cab. -/
def Request.isSwitch : Request → Bool
  | .hitchSwitch _ => true
  | _ => false

/-- The oldest switch edge, if it is the one asked for. -/
def takeSwitch (up : Bool) (s : State) : Option State :=
  match takeRequest Request.isSwitch s with
  | some (.hitchSwitch b, t) => if b = up then some t else none
  | _ => none

/-- A switch edge at the HTC, and its notice at the HSQ. -/
def cabSwitch (up : Bool) (s : State) : State :=
  if s.mc.mode.controllersRun then notice usesHitch (hitchSwitch up s) else s

def execSwitchUp (s : State) : Host.Outcome State Fault Refusal :=
  .next (match takeSwitch true s with
    | some s => cabSwitch true s
    | none => s)

def execSwitchDown (s : State) : Host.Outcome State Fault Refusal :=
  .next (match takeSwitch false s with
    | some s => cabSwitch false s
    | none => s)

end Sys2Proof.Machine
end

