-- ==== Sys2Proof/Machine/Loading.lean ====
section
/-! DEFINITION. The checks of the configuration image (R207): header, CRC and sections of the bytes, and
the ranges and orders that the owners' chapters lay down (R1, R26, R46, R63 to R65, R100, R115, R145,
R167, R188). -/

namespace Sys2Proof.Machine

/-! ## Bytes: steps 1 to 3 of R207 -/

/-- One bit of the CRC: polynomial 0x1021, most significant bit first. -/
def crcBit (c : BitVec 16) : BitVec 16 := if c.msb then (c <<< 1) ^^^ 0x1021#16 else c <<< 1

/-- Eight bits of the CRC. -/
def crcEight (c : BitVec 16) : BitVec 16 :=
  crcBit (crcBit (crcBit (crcBit (crcBit (crcBit (crcBit (crcBit c)))))))

/-- The CRC of bytes, from 0xFFFF, without a final inversion (R207). -/
def crc16 (d : List Byte) : BitVec 16 :=
  d.foldl (fun (k : BitVec 16) (b : Byte) => crcEight (k ^^^ BitVec.ofNat 16 (b.toNat * 256))) 0xFFFF#16

/-- The length L of the header. -/
def imageLength (d : List Byte) : Nat := word16 d 4

/-- Step 1: the header. -/
def headerPasses (d : List Byte) : Bool :=
  byteAt d 0 == 17 && byteAt d 1 == 13 && byteAt d 6 == 0 && byteAt d 7 == 0 &&
    decide (8 ≤ imageLength d) && decide (imageLength d ≤ 2046)

/-- Step 2: the CRC. -/
def crcPasses (d : List Byte) : Bool :=
  (crc16 (d.take (imageLength d))).toNat == word16 d (imageLength d)

/-- The place after the sections of the given numbers, from a place; absent where one is out of order or
does not lie before `len`. -/
def sectionsFrom (d : List Byte) (len : Nat) : List Nat → Nat → Option Nat
  | [], pos => some pos
  | n :: rest, pos =>
    let stop := pos + 3 + word16 d (pos + 1)
    if byteAt d pos = n ∧ stop ≤ len then sectionsFrom d len rest stop else none

/-- Step 3: sections 1 to 13, each once, in order, the last ending at byte L − 1. -/
def sectionsPass (d : List Byte) : Bool :=
  sectionsFrom d (imageLength d) [1, 2, 3, 4, 5, 6, 7, 8, 9, 10, 11, 12, 13] 8 == some (imageLength d)

/-- Steps 1 to 3. -/
def bytesPass (d : List Byte) : Bool := headerPasses d && crcPasses d && sectionsPass d

/-! ## Sections: step 4 of R207 -/

def within (lo hi v : Nat) : Bool := decide (lo ≤ v) && decide (v ≤ hi)

def withinInt (lo hi v : Int) : Bool := decide (lo ≤ v) && decide (v ≤ hi)

/-- Section 1: six stations in 1 to 31, no two equal (R188). -/
def stationsPass (x : Stations) : Bool :=
  let l := [x.own, x.engine, x.brake, x.cab, x.implement, x.service]
  l.all (within 1 31) && decide l.Nodup

/-- One channel of section 2 (R1). -/
def pulsePasses (k : PulseChannel) (x : PulseCfg) : Bool :=
  (!hasShaft k || within 1 240 x.perRev) && (!hasTravel k || within 100 100000 x.travelPer) &&
    within 1 10000 x.minSpacing

/-- Section 2. -/
def pulsesPass (c : Image) : Bool := PulseChannel.all.all fun k => pulsePasses k (c.pulse.get k)

/-- Channels whose HIGH side, and whose LOW side, is listed (02, section 2.1). -/
def highListed : Sensor → Bool
  | .drl | .drr | .tcl | .oil => true
  | _ => false

def lowListed : Sensor → Bool
  | .sup | .chg | .tsl => true
  | _ => false

/-- An enabled side lies within the channel's range (R25); the threshold and hysteresis of a disabled side
are not checked (log 42). -/
def sidePasses (x : Sensor) (on : Bool) (t h : Int) : Bool :=
  !on || (withinInt x.range.1 x.range.2 t && withinInt 0 (x.range.2 - x.range.1) h)

/-- One configured channel of section 3 (R25, R26). -/
def sensorPasses (x : Sensor) (c : SensorCfg) : Bool :=
  (x == .hps || (within 1 3 c.mainOrder && within 16 256 c.mainOsr)) &&
    within 1 3 c.fastOrder && within 4 32 c.fastOsr && decide (c.zero ≤ 65535) &&
    withinInt (-262144) 262144 c.gain && c.gain != 0 &&
    (highListed x || !c.highOn) && (lowListed x || !c.lowOn) &&
    sidePasses x c.highOn c.high c.highHyst && sidePasses x c.lowOn c.low c.lowHyst &&
    (!c.highOn || !c.lowOn || decide (c.low + c.lowHyst < c.high - c.highHyst))

/-- The excitation pattern and the position's ends (R26). -/
def patternPasses (c : Image) : Bool :=
  within 16 64 c.pattern.length && c.pattern.contains true && c.pattern.contains false &&
    c.aTop != c.aBottom

/-- Section 3. -/
def sensorsPass (c : Image) : Bool :=
  (Sensor.all.all fun x => !(c.sensors.get x).configured || sensorPasses x (c.sensors.get x)) &&
    (!c.sensors.hps.configured || patternPasses c)

/-- A gear name of the table (R63). -/
def namePasses (g : Gear) : Bool :=
  match g.dir with
  | .forward => within 1 12 g.num
  | .reverse => within 1 8 g.num

/-- Ratios strictly fall along a list. -/
def falling : List GearEntry → Bool
  | a :: b :: rest => decide (b.ratio < a.ratio) && falling (b :: rest)
  | _ => true

/-- The gears of one direction (R63). -/
def directionPasses (c : Image) (d : Dir) : Bool :=
  let l := c.gearsOf d
  falling l && decide (l.map fun e => (e.speed, e.range)).Nodup && l.any fun e => e.start

/-- Section 4 (R63). -/
def gearsPass (c : Image) : Bool :=
  decide (c.gears.length ≤ 20) && (c.gears.all fun e => namePasses e.gear && within 1000 60000 e.ratio) &&
    decide (c.gears.map fun e => e.gear).Nodup && directionPasses c .forward && directionPasses c .reverse

/-- One clutch of section 5 (R65). -/
def clutchPasses (maximum : Nat) (x : ClutchCfg) : Bool :=
  within 100 2000 x.fillCurrent && within 40 400 x.fillTime && within 40 400 x.minFill &&
    within 40 400 x.maxFill && within 50 2000 x.touch && within 50 2000 x.take && within 50 2000 x.hold &&
    decide (x.touch < x.take) && decide (x.take ≤ x.hold) && decide (x.fillCurrent ≤ maximum) &&
    decide (x.hold ≤ maximum) && decide (x.minFill ≤ x.fillTime) && decide (x.fillTime ≤ x.maxFill)

/-- Section 5. -/
def clutchesPass (c : Image) : Bool :=
  Clutch.all.all fun k => clutchPasses (c.maxima.get k.output) (c.clutches.get k)

/-- Section 6 (R64). -/
def shiftParametersPass (c : Image) : Bool :=
  c.startGear.dir == .forward && Image.startable c c.startGear && c.engageRamp % 10 == 0 &&
    within 100 2000 c.engageRamp && decide (c.torqueLimit ≤ 100)

/-- Inputs strictly ascend along a table. -/
def ascending : List (Nat × Nat) → Bool
  | a :: b :: rest => decide (a.1 < b.1) && ascending (b :: rest)
  | _ => true

/-- One table of section 9 (R145). -/
def tablePasses (maxIn maxOut : Nat) (l : List (Nat × Nat)) : Bool :=
  within 2 8 l.length && ascending l && l.all fun p => decide (p.1 ≤ maxIn) && decide (p.2 ≤ maxOut)

/-- Section 9 (R145). -/
def brakesPass (c : Image) : Bool :=
  tablePasses 1600 1500 c.brakeCurve && tablePasses 1500 2000 c.trailerCurve &&
    c.sensors.tcl.configured && c.sensors.tsl.configured

/-- One step of section 10 (R167). -/
def stepPasses (x : HStep) : Bool :=
  (match x.action with
   | .shiftUp n | .shiftDown n => within 1 3 n
   | _ => true) &&
  (match x.trigger with
   | .immediate => true
   | .distance d => within 1 5000 d
   | .time t => within 1 600 t)

/-- One list of section 10 (R167). -/
def stepsPass (l : List HStep) : Bool := decide (l.length ≤ 12) && l.all stepPasses

/-- Section 11 (R46). -/
def maximaPass (c : Image) : Bool := Output.all.all fun o => o.onOff || within 100 2000 (c.maxima.get o)

/-- Step 4: every section. -/
def imagePasses (c : Image) : Bool :=
  stationsPass c.stations && pulsesPass c && sensorsPass c && gearsPass c && clutchesPass c &&
    shiftParametersPass c && within 900 1100 c.lead && within 1000 16000 c.draftSpan && brakesPass c &&
    stepsPass c.entry && stepsPass c.exit && maximaPass c && within 1 3 c.wakeThreshold &&
    within 1000 100000 c.pulsePitch

/-- The whole check (R207). -/
def imageValid (d : List Byte) (c : Image) : Bool := bytesPass d && imagePasses c

/-- The station numbers of section 1. -/
def Sources.ofStations (x : Stations) : Sources :=
  { own := x.own, engine := some x.engine, brake := some x.brake, cab := some x.cab,
    implement := some x.implement, service := some x.service }

/-- The station numbers in LIMP (R208, log 31). -/
def limpSources (d : List Byte) (c : Image) : Sources :=
  if bytesPass d && stationsPass c.stations then Sources.ofStations c.stations else .station31

end Sys2Proof.Machine
end

