-- ==== Sys2Proof/Machine/Modes.lean ====
section
/-! DEFINITION. The mode controller (09, 11): modes and their sequences (R206 to R212), the seconds count
(R180), acknowledgement (R184), and the meanings of its commands. -/

namespace Sys2Proof.Machine

/-! ## Mode and sequence -/

/-- The mode changes and 44 IDENTITY is made (R195). -/
def setMode (m : Mode) (s : State) : State := publish .identity (s.withMc { s.mc with mode := m })

/-- The step of the sequence in progress. -/
def setStep (x : SeqStep) (s : State) : State := s.withMc { s.mc with step := x }

/-- The controllers' timers start (R68, R209, R212). -/
def enterOperating (s : State) : State :=
  let s := setStep .idle (s.withShc { s.shc with starting := true })
  setMode .operating s

/-- Entry to DORMANT: the off order, everything stopped (R20, R200, R211). No event of the SFE is taken any
more, so that every block holds the values it last had. -/
def enterDormant (s : State) : State :=
  let s := stopScu (offOrder (setStep .idle s))
  let s := s.withShc { s.shc with parkOrder := false }
  (dropUntaken (setMode .dormant s)).withEvents []

/-- Entry to CALIBRATING (R209): the SFE starts at bit 0 (R40). -/
def enterCalibrating (s : State) : State :=
  let s := listenOrder s
  let s := requestCalibration none (s.withSfe { s.sfe with slot := 0 })
  let s := setStep .calVsa (onRequest .vsa s)
  setMode .calibrating s

/-! ## Power-on reset and wake (R206, R211) -/

/-- Power-on reset: the line levels given, the queue of commands and the index of the free module bits
carried on. -/
def powerOnReset (strap0 strap1 coupling : Bool) (s : State) : State :=
  { State.powerOn (presentStraps strap0 strap1 coupling s.pins) with
      clock := s.clock, pending := s.pending }

def execPowerOnReset (strap0 strap1 coupling : Bool) (s : State) : Host.Outcome State Fault Refusal :=
  .next (powerOnReset strap0 strap1 coupling s)

/-- The part sleeps: DORMANT or AWAKE_NO_KEY. -/
def State.sleeping (s : State) : Bool := s.mc.mode == .dormant || s.mc.mode == .awakeNoKey

/-- The wake values of every block, and LOADING (R22, R45, R61, R99, R114, R143, R166, R178, R185, R204,
R206); what no table names is 0 or absent (log 88). -/
def wakeUp (strap0 strap1 coupling : Bool) (s : State) : State :=
  let pins := presentStraps strap0 strap1 coupling s.pins
  let table := s.faultTable.wake
  { s with
      pins := pins
      scu := .reset s.cfg.radFitted
      sfe := .reset s.cfg.sensors
      vdb := .reset
      shc := .reset s.shc.learnedTimes (some s.cfg.startGear) s.shc.shuttleMap
      fdc := .reset
      htc := .reset
      tbc := .reset coupling (.reset s.cfg.sensors.tcl) (.reset s.cfg.sensors.tsl)
      hsq := .reset
      lc := .reset s.lc.attempt s.lc.sources
      mc := { s.mc with mode := .loading, slot := slotOf pins, keyOffPending := false, step := .idle,
                        wakeTimer := 0, faults := table.entries, full := table.full, seconds := 0,
                        windowEnded := false, restartTag := none, cold := false }
      events := [], requests := [] }

/-- A key event in DORMANT or AWAKE_NO_KEY (R211, log 32). A key-on of STOPPING is held as the key state it
left, so that a key-off before DORMANT takes it back (R210, log 79). -/
def wakeDue (s : State) : Bool := s.sleeping && s.mc.key == some true

def execWake (strap0 strap1 coupling : Bool) (s : State) : Host.Outcome State Fault Refusal :=
  .next (if wakeDue s then wakeUp strap0 strap1 coupling s else s)

/-! ## Key (R206, R210) -/

/-- Modes in which a key-off sets key-off-pending (R210). -/
def Mode.keepsKeyOff (m : Mode) : Bool := m == .calibrating || m == .operating || m == .restarting

/-- The key state changes (R206, R210, log 79). -/
def changeKey (on : Bool) (s : State) : State :=
  s.withMc { s.mc with
    key := some on
    keyOffPending := if on then false else s.mc.keyOffPending || s.mc.mode.keepsKeyOff }

def execKeyStateChange (on : Bool) (s : State) : Host.Outcome State Fault Refusal :=
  .next (
    let s := s.withPins { s.pins with keyOn := on }
    if s.mc.key = some on then s else changeKey on s)

/-! ## Loading (R206 to R208) -/

/-- The blocks load their configured values (R207); the TBC holds TCL and TSL as the SFE then does (R166). -/
def loadImage (version : Nat) (c : Image) (s : State) : State :=
  let learned := if s.mc.cold then c.clutches.map fun _ x => x.fillTime else s.shc.learnedTimes
  readPressures { s with
      cfg := c
      scu := .reset c.radFitted
      sfe := .reset c.sensors
      shc := .reset learned (some c.startGear) (buildMap c)
      lc := { s.lc with sources := Sources.ofStations c.stations }
      mc := { s.mc with version := version } }

/-- Entry to LIMP (R208). -/
def enterLimp (x : Sources) (s : State) : State :=
  let s := raise .cfgInvalid s
  let s := s.withLc { s.lc with sources := x }
  setMode .limp (listenOrder s)

/-- The checks have ended with the key state settled (R206). -/
def finishLoading (d : List Byte) (c : Image) (s : State) : State :=
  if imageValid d c then
    let s := loadImage (word16 d 2) c s
    if s.mc.key = some true then enterCalibrating s else enterDormant s
  else enterLimp (limpSources d c) s

/-- The length of a slot in bytes (R206). -/
def slotBytes : Nat := 2048

/-- The bytes of a slot in the serial memory, from byte slot × 2,048 on (R206). -/
def slotOfMemory (memory : List Byte) (slot : Nat) : List Byte :=
  (memory.drop (slot * slotBytes)).take slotBytes

/-- `c` are the contents of the slot that is read (log 6). -/
def execLoadingComplete (memory : List Byte) (c : Image) (s : State) : Host.Outcome State Fault Refusal :=
  .next (if s.mc.mode = .loading ∧ s.mc.key.isSome = true then
      finishLoading (slotOfMemory memory s.mc.slot) c s
    else s)

/-! ## Calibrating (R209) -/

/-- The three conditions under which CALIBRATING ends (R209). -/
def calibratingOver (s : State) : Bool :=
  s.mc.mode == .calibrating && s.mc.windowEnded && (s.supplyOf .vsb).state == .enabled &&
    (s.sfe.cal.state == .done || s.sfe.cal.state == .failed)

def execCalibratingComplete (s : State) : Host.Outcome State Fault Refusal :=
  .next (if calibratingOver s then enterOperating s else s)

/-! ## Key-off and stopping (R210) -/

/-- A key-off is taken (R210). -/
def keyOffDue (s : State) : Bool :=
  s.mc.mode == .operating && s.mc.keyOffPending && s.scu.motion.standstill

/-- The change to STOPPING with its orders (R92, R142, R157, R177, R210). -/
def takeKeyOff (s : State) : State :=
  let s := abortRun .mode (s.withMc { s.mc with keyOffPending := false, step := .parkWait })
  let s := setMode .stopping s
  trailerStopOrder (hitchStopOrder (shcParkOrder s))

def execKeyOffTaken (s : State) : Host.Outcome State Fault Refusal :=
  .next (if keyOffDue s then takeKeyOff s else s)

/-- The MC finds the gearbox PARKED in STOPPING (R210). -/
def quietDue (s : State) : Bool :=
  s.mc.mode == .stopping && s.mc.step == .parkWait && s.shc.state == .parked

def execQuietOrder (s : State) : Host.Outcome State Fault Refusal :=
  .next (if quietDue s then quietOrder (setStep .quietWait s) else s)

/-- 200 ms have passed since the quiet order (R203). -/
def quietOver (s : State) : Bool :=
  match s.lc.quietTimer with
  | some t => decide (quietUs ≤ t)
  | none => false

def execQuietTimeout (s : State) : Host.Outcome State Fault Refusal :=
  .next (if quietOver s then reportQuiet s else s)

/-! ## Dormancy (R211) -/

/-- Levels of the wake events (R211). -/
def couplingLevel : Nat := 2
def linkLevel : Nat := 1

/-- The wake timer's length in µs. -/
def wakeUs : Nat := 30000000

/-- A COUPLING or LINK event at or above the threshold (R211). -/
def wakeEvent (s : State) : State :=
  match s.mc.mode with
  | .dormant => setMode .awakeNoKey (listenOrder (s.withMc { s.mc with wakeTimer := 0 }))
  | .awakeNoKey => s.withMc { s.mc with wakeTimer := 0 }
  | _ => s

/-- The coupling sense line has held a level other than the one last presented (R211). -/
def couplingEvent (closed : Bool) (s : State) : Bool :=
  s.sleeping && s.pins.coupling != closed && decide (s.cfg.wakeThreshold ≤ couplingLevel)

def execCouplingWake (closed : Bool) (s : State) : Host.Outcome State Fault Refusal :=
  .next (if couplingEvent closed s then wakeEvent (presentCoupling closed s)
    else presentCoupling closed s)

def execLinkWake (s : State) : Host.Outcome State Fault Refusal :=
  .next (if s.sleeping && decide (s.cfg.wakeThreshold ≤ linkLevel) then wakeEvent s else s)

/-- The wake timer has reached 30 s (R211). -/
def wakeOver (s : State) : Bool := s.mc.mode == .awakeNoKey && decide (wakeUs ≤ s.mc.wakeTimer)

def execWakeTimeout (s : State) : Host.Outcome State Fault Refusal :=
  .next (if wakeOver s then enterDormant s else s)

/-- The seconds count (R180). -/
def execSecondsTick (s : State) : Host.Outcome State Fault Refusal :=
  .next (if s.mc.mode = .dormant then s
    else s.withMc { s.mc with seconds := min 65535 (s.mc.seconds + 1) })

/-! ## Control restart (R212) -/

/-- The change to RESTARTING (R212). -/
def beginRestart (tag : Byte) (s : State) : State :=
  let s := serviceAnswer codeControlRestart tag .accepted .none s
  let s := abortRun .mode (s.withMc { s.mc with step := .offVsb, restartTag := some tag })
  offRequest .vsb (dropUntaken (setMode .restarting s))

/-- CONTROL_RESTART is taken (R212). -/
def controlRestart (tag : Byte) (s : State) : State :=
  if s.mc.mode ≠ .operating then serviceAnswer codeControlRestart tag .refused .busy s
  else if s.parkedStill then beginRestart tag s
  else serviceAnswer codeControlRestart tag .refused .notParked s

def execControlRestart (s : State) : Host.Outcome State Fault Refusal :=
  .next (match takeRequest (Request.isService codeControlRestart) s with
    | some (.service _ tag, s) => controlRestart tag s
    | some (_, s) => s
    | none => s)

/-- The control-restart values (R61, R99, R114, R143, R166, R178). -/
def restartBlocks (s : State) : State :=
  restartHsq (restartTbc (restartHtc ((restartShc (restartVdb s)).withFdc .reset)))

/-- The restart ends (R212). -/
def finishRestart (s : State) : State :=
  let tag := s.mc.restartTag
  let s := enterOperating (s.withMc { s.mc with restartTag := none })
  match tag with
  | some t => serviceAnswer codeControlRestart t .done .none s
  | none => s

/-! ## Supply switches and the sequence that waits (R55, R209, R210, R212) -/

/-- The MC's sequence at a supply that has become ENABLED. -/
def stepAfterRise (x : Supply) (s : State) : State :=
  match s.mc.step, x with
  | .calVsa, .vsa => onRequest .vsb (setStep .calVsb s)
  | .onVsa, .vsa => onRequest .vsb (setStep .onVsb s)
  | .onVsb, .vsb => finishRestart s
  | _, _ => s

/-- The MC's sequence at a supply that has become OFF. -/
def stepAfterFall (x : Supply) (s : State) : State :=
  match s.mc.step, x with
  | .stopVsb, .vsb => offRequest .vsa (setStep .stopVsa s)
  | .stopVsa, .vsa => enterDormant s
  | .offVsb, .vsb => offRequest .vsa (setStep .offVsa s)
  | .offVsa, .vsa => onRequest .vsa (setStep .onVsa (restartBlocks s))
  | _, _ => s

def execSupplyRiseComplete (x : Supply) (s : State) : Host.Outcome State Fault Refusal :=
  .next (if riseOver x s then stepAfterRise x (enableSupply x s) else s)

/-- The switch falls, and where it stays OFF the sequence steps on. -/
def completeFall (x : Supply) (s : State) : State :=
  let s := finishFall x s
  if (s.supplyOf x).state = .off then stepAfterFall x s else s

def execSupplyFallComplete (x : Supply) (closed : Bool) (s : State) : Host.Outcome State Fault Refusal :=
  .next (if fallOver x s then completeFall x (presentCoupling closed s) else presentCoupling closed s)

/-! ## Acknowledgement (R184) -/

/-- Step 2: the release reaches the blocks whose timers run in the mode (R184), the VDB before the TBC
(log 92); the link stays as it is in CONFLICT (R202). -/
def passRelease (s : State) : State :=
  releaseTrailer (if s.mc.mode.sensingRuns then releaseOutputs s else s)

/-- The three steps of an acknowledgement. -/
def acknowledge (s : State) : State :=
  let s := passRelease (s.withFaults s.faultTable.unlatch)
  s.withFaults s.faultTable.sweep

/-- The cab's fault acknowledge. -/
def Request.isAcknowledge : Request → Bool
  | .acknowledge => true
  | _ => false

def execFaultAcknowledge (s : State) : Host.Outcome State Fault Refusal :=
  .next (match takeRequest Request.isAcknowledge s with
    | some (_, s) => if s.mc.mode.delivers then acknowledge s else s
    | none => s)

def execFaultAck (s : State) : Host.Outcome State Fault Refusal :=
  .next (match takeRequest (Request.isService codeFaultAck) s with
    | some (.service _ tag, s) =>
      if s.mc.mode.delivers then serviceAnswer codeFaultAck tag .done .none (acknowledge s) else s
    | some (_, s) => s
    | none => s)

end Sys2Proof.Machine
end

