-- ==== Sys2Proof/Machine/Clock.lean ====
section
/-! DEFINITION. One 5 MHz modulator clock, which is what passes on an empty queue (log 2): a bit at every
sensor channel (R27), and every microsecond the free-running count (R3) and the one-shot timers
(R20, R50, R53, R55, R94, R192, R200, R201, R203, R211). -/

namespace Sys2Proof.Machine

/-! ## Bits (R27) -/

/-- One channel takes the bit that its module places at this clock (R27, log 3). -/
def clockSensor (x : Sensor) (s : State) (r : SensorRec) : SensorRec :=
  r.takeBit (x != .hps) (s.cfg.sensors.get x) (Config.moduleBit (Sensor.number x) s.clock)

/-- Every channel takes its bit while the modulator clock is driven (R27). -/
def clockSensors (s : State) : State :=
  if s.clockDriven then
    s.withSfe { s.sfe with chans := s.sfe.chans.map fun x r => clockSensor x s r }
  else s

/-! ## Timers in microseconds (log 14) -/

/-- A timer counts on and stops at its end. -/
def countTo (limit t : Nat) : Nat := min limit (t + 1)

/-- The SCU's pulse (R20). -/
def Scu.micro (x : Scu) : Scu :=
  if x.pulseHigh then { x with pulseAge := countTo pulseUs x.pulseAge } else x

/-- The retry timers of a supply's outputs run; in FALLING and OFF they keep their values (R56). -/
def SupplyState.runsRetry : SupplyState → Bool
  | .rising | .enabled => true
  | .falling | .off => false

/-- An output's pull-in, retry window and, as its supply stands, retry timer (R50, R53, R56). -/
def OutRec.micro (supply : SupplyState) (r : OutRec) : OutRec :=
  { r with
      pullIn := r.pullIn.map (countTo pullInUs)
      window := r.window.map (countTo windowUs)
      retryTimer := if r.short = .retry ∧ r.window = none ∧ supply.runsRetry = true then
          countTo retryUs r.retryTimer
        else r.retryTimer }

/-- A supply's settle timer (R55). -/
def SupplyRec.micro (r : SupplyRec) : SupplyRec :=
  match r.state with
  | .rising => { r with settle := countTo riseUs r.settle }
  | .falling => { r with settle := countTo fallUs r.settle }
  | .off | .enabled => r

def Vdb.micro (v : Vdb) : Vdb :=
  { v with
      outs := v.outs.map fun o r => r.micro (v.supplies.get o.supply).state
      supplies := v.supplies.map fun _ r => r.micro }

/-- The pedal hold timer (R94), stopped with the controllers (R211). -/
def Shc.micro (runs : Bool) (k : Shc) : Shc :=
  if runs then { k with pedalHold := k.pedalHold.map (countTo pedalHoldUs) } else k

/-- The saturation of a peer record's time, 65,535 ms (R191). -/
def sinceLimit : Nat := 65535000

/-- The time since a record's last frame runs while the link takes frames, whatever the record's freshness
(R191, R192). -/
def Peer.micro (takes : Bool) (p : Peer α) : Peer α :=
  if takes then { p with since := countTo sinceLimit p.since } else p

/-- The link's timers (R200, R201, R203) and the peers' times, of which a service record keeps none
(R192). -/
def Lc.micro (l : Lc) : Lc :=
  { l with
      listen := if l.link = .listen then countTo listenUs l.listen else l.listen
      muteTimer := if l.link = .muted then countTo muteUs l.muteTimer else l.muteTimer
      quietTimer := l.quietTimer.map (countTo quietUs)
      engine := l.engine.micro l.takesFrames, brake := l.brake.micro l.takesFrames
      cabDrive := l.cabDrive.micro l.takesFrames, cabHitch := l.cabHitch.micro l.takesFrames
      implement := l.implement.micro l.takesFrames }

/-- The wake timer (R211). -/
def Mc.micro (x : Mc) : Mc :=
  if x.mode = .awakeNoKey then { x with wakeTimer := countTo wakeUs x.wakeTimer } else x

/-- One microsecond. -/
def microTick (s : State) : State :=
  { s with now := s.now + 1, scu := s.scu.micro, vdb := s.vdb.micro, shc := s.shc.micro s.mc.mode.controllersRun,
           lc := s.lc.micro, mc := s.mc.micro }

/-! ## The clock -/

/-- Modulator clocks in a microsecond, 5 MHz (R27). -/
def clocksPerMicro : Nat := 5

/-- The place in the microsecond moves on; at its end a microsecond has passed. -/
def clockMicro (s : State) : State :=
  if s.sub + 1 < clocksPerMicro then { s with sub := s.sub + 1 } else microTick { s with sub := 0 }

/-- One modulator clock (log 2). -/
def clockTick (s : State) : State :=
  let s := clockSensors s
  clockMicro { s with clock := s.clock + 1 }

end Sys2Proof.Machine
end

