-- ==== Sys2Proof/Machine/Dispatch.lean ====
section
/-! DEFINITION. The meaning of every command, one arm per row of spec/opcode_table.json. -/

namespace Sys2Proof.Machine

def exec (i : Instr) (s : State) : Host.Outcome State Fault Refusal :=
  match i with
  | .powerOnReset strap0 strap1 couplingClosed => Sys2Proof.Machine.execPowerOnReset strap0 strap1 couplingClosed s
  | .keyStateChange on => Sys2Proof.Machine.execKeyStateChange on s
  | .loadingComplete bytes image => Sys2Proof.Machine.execLoadingComplete bytes image s
  | .calibratingComplete => Sys2Proof.Machine.execCalibratingComplete s
  | .keyOffTaken => Sys2Proof.Machine.execKeyOffTaken s
  | .quietOrder => Sys2Proof.Machine.execQuietOrder s
  | .quietTimeout => Sys2Proof.Machine.execQuietTimeout s
  | .controlRestart => Sys2Proof.Machine.execControlRestart s
  | .wake strap0 strap1 couplingClosed => Sys2Proof.Machine.execWake strap0 strap1 couplingClosed s
  | .couplingWake couplingClosed => Sys2Proof.Machine.execCouplingWake couplingClosed s
  | .linkWake => Sys2Proof.Machine.execLinkWake s
  | .wakeTimeout => Sys2Proof.Machine.execWakeTimeout s
  | .secondsTick => Sys2Proof.Machine.execSecondsTick s
  | .pulseEdge channel => Sys2Proof.Machine.execPulseEdge channel s
  | .speedEvaluation => Sys2Proof.Machine.execSpeedEvaluation s
  | .channelLost channel => Sys2Proof.Machine.execChannelLost channel s
  | .channelRecovered channel => Sys2Proof.Machine.execChannelRecovered channel s
  | .groundPulseTimer => Sys2Proof.Machine.execGroundPulseTimer s
  | .groundPulseEnd => Sys2Proof.Machine.execGroundPulseEnd s
  | .mainOutput sensor => Sys2Proof.Machine.execMainOutput sensor s
  | .fastOutput sensor => Sys2Proof.Machine.execFastOutput sensor s
  | .streamFailed sensor => Sys2Proof.Machine.execStreamFailed sensor s
  | .streamRecovery sensor => Sys2Proof.Machine.execStreamRecovery sensor s
  | .excitationSlot => Sys2Proof.Machine.execExcitationSlot s
  | .calibrationTimeout => Sys2Proof.Machine.execCalibrationTimeout s
  | .recalibratePosition => Sys2Proof.Machine.execRecalibratePosition s
  | .senseTimer samples => Sys2Proof.Machine.execSenseTimer samples s
  | .openDetected output => Sys2Proof.Machine.execOpenDetected output s
  | .openRecovered output => Sys2Proof.Machine.execOpenRecovered output s
  | .shortTrip output => Sys2Proof.Machine.execShortTrip output s
  | .retryTimerExpiry output => Sys2Proof.Machine.execRetryTimerExpiry output s
  | .deferredRetry output => Sys2Proof.Machine.execDeferredRetry output s
  | .retrySuccess output => Sys2Proof.Machine.execRetrySuccess output s
  | .pullInEnd output => Sys2Proof.Machine.execPullInEnd output s
  | .supplyRiseComplete supply => Sys2Proof.Machine.execSupplyRiseComplete supply s
  | .supplyFallComplete supply couplingClosed => Sys2Proof.Machine.execSupplyFallComplete supply couplingClosed s
  | .grantSupEvent => Sys2Proof.Machine.execGrantSupEvent s
  | .shcControlInterval => Sys2Proof.Machine.execShcControlInterval s
  | .cabShiftUp => Sys2Proof.Machine.execCabShiftUp s
  | .cabShiftDown => Sys2Proof.Machine.execCabShiftDown s
  | .cabSelect => Sys2Proof.Machine.execCabSelect s
  | .fillComplete clutch => Sys2Proof.Machine.execFillComplete clutch s
  | .torquePhaseEnd => Sys2Proof.Machine.execTorquePhaseEnd s
  | .syncReached => Sys2Proof.Machine.execSyncReached s
  | .shiftTimeout => Sys2Proof.Machine.execShiftTimeout s
  | .abortComplete => Sys2Proof.Machine.execAbortComplete s
  | .engageRampEnd => Sys2Proof.Machine.execEngageRampEnd s
  | .shuttleDrainEnd => Sys2Proof.Machine.execShuttleDrainEnd s
  | .driveAwayEnd => Sys2Proof.Machine.execDriveAwayEnd s
  | .clutchDrainComplete clutch => Sys2Proof.Machine.execClutchDrainComplete clutch s
  | .pedalHoldExpiry => Sys2Proof.Machine.execPedalHoldExpiry s
  | .autoShiftTimer => Sys2Proof.Machine.execAutoShiftTimer s
  | .autoUp => Sys2Proof.Machine.execAutoUp s
  | .autoDown => Sys2Proof.Machine.execAutoDown s
  | .shcChgEvent => Sys2Proof.Machine.execShcChgEvent s
  | .shcOilEvent => Sys2Proof.Machine.execShcOilEvent s
  | .resetAdaptation => Sys2Proof.Machine.execResetAdaptation s
  | .fdcControlInterval => Sys2Proof.Machine.execFdcControlInterval s
  | .fdcRelease => Sys2Proof.Machine.execFdcRelease s
  | .releasingComplete => Sys2Proof.Machine.execReleasingComplete s
  | .engagingComplete => Sys2Proof.Machine.execEngagingComplete s
  | .autoSlipClear => Sys2Proof.Machine.execAutoSlipClear s
  | .frontSlipRaise => Sys2Proof.Machine.execFrontSlipRaise s
  | .frontSlipClear => Sys2Proof.Machine.execFrontSlipClear s
  | .fdcChgEvent => Sys2Proof.Machine.execFdcChgEvent s
  | .htcControlInterval leftPressed rightPressed => Sys2Proof.Machine.execHtcControlInterval leftPressed rightPressed s
  | .switchUp => Sys2Proof.Machine.execSwitchUp s
  | .switchDown => Sys2Proof.Machine.execSwitchDown s
  | .htcDraftEvent pin => Sys2Proof.Machine.execHtcDraftEvent pin s
  | .htcHpsFailed => Sys2Proof.Machine.execHtcHpsFailed s
  | .tbcControlInterval couplingClosed => Sys2Proof.Machine.execTbcControlInterval couplingClosed s
  | .couplingChange => Sys2Proof.Machine.execCouplingChange s
  | .chargeTimeout => Sys2Proof.Machine.execChargeTimeout s
  | .supplyLowTimeout => Sys2Proof.Machine.execSupplyLowTimeout s
  | .supplyRecovered => Sys2Proof.Machine.execSupplyRecovered s
  | .brakeUnknown => Sys2Proof.Machine.execBrakeUnknown s
  | .brakeDisagree => Sys2Proof.Machine.execBrakeDisagree s
  | .brakeDisagreeClear => Sys2Proof.Machine.execBrakeDisagreeClear s
  | .tbrStateEvent => Sys2Proof.Machine.execTbrStateEvent s
  | .tclEvent => Sys2Proof.Machine.execTclEvent s
  | .tslEvent => Sys2Proof.Machine.execTslEvent s
  | .hsqControlInterval => Sys2Proof.Machine.execHsqControlInterval s
  | .headlandStart => Sys2Proof.Machine.execHeadlandStart s
  | .headlandCancel => Sys2Proof.Machine.execHeadlandCancel s
  | .distanceTrigger => Sys2Proof.Machine.execDistanceTrigger s
  | .timeTrigger => Sys2Proof.Machine.execTimeTrigger s
  | .frameReceived identifier data => Sys2Proof.Machine.execFrameReceived identifier data s
  | .peerTimeout group => Sys2Proof.Machine.execPeerTimeout group s
  | .periodTimer group => Sys2Proof.Machine.execPeriodTimer group s
  | .torqueLimitTimer => Sys2Proof.Machine.execTorqueLimitTimer s
  | .transmitAttempt => Sys2Proof.Machine.execTransmitAttempt s
  | .attemptSuccess => Sys2Proof.Machine.execAttemptSuccess s
  | .arbitrationLost => Sys2Proof.Machine.execArbitrationLost s
  | .attemptFailure => Sys2Proof.Machine.execAttemptFailure s
  | .muteRecovery => Sys2Proof.Machine.execMuteRecovery s
  | .listenWindowEnd => Sys2Proof.Machine.execListenWindowEnd s
  | .serviceRequestUnknown => Sys2Proof.Machine.execServiceRequestUnknown s
  | .faultAcknowledge => Sys2Proof.Machine.execFaultAcknowledge s
  | .faultAck => Sys2Proof.Machine.execFaultAck s

end Sys2Proof.Machine
end

