-- ==== Sys2Proof/Safety.lean ====
section
/-! DEFINITION. What counts as a safe state, and what a command leaves unchanged, in the terms the
statements use. -/

namespace Sys2Proof.Machine

/-! ## Frames -/

/-- The parts of the state, one per field. -/
inductive Part where
  | now | sub | clock | pins | cfg | scu | sfe | vdb | shc | fdc | htc | tbc | hsq | lc | mc | events
  | requests | pending
  deriving DecidableEq, Repr

/-- A part is the same in two states. -/
def Part.same (s t : State) : Part → Prop
  | .now => t.now = s.now
  | .sub => t.sub = s.sub
  | .clock => t.clock = s.clock
  | .pins => t.pins = s.pins
  | .cfg => t.cfg = s.cfg
  | .scu => t.scu = s.scu
  | .sfe => t.sfe = s.sfe
  | .vdb => t.vdb = s.vdb
  | .shc => t.shc = s.shc
  | .fdc => t.fdc = s.fdc
  | .htc => t.htc = s.htc
  | .tbc => t.tbc = s.tbc
  | .hsq => t.hsq = s.hsq
  | .lc => t.lc = s.lc
  | .mc => t.mc = s.mc
  | .events => t.events = s.events
  | .requests => t.requests = s.requests
  | .pending => t.pending = s.pending

/-- From `s` to `t` only the parts of a list may have changed. -/
def Touches (l : List Part) (s t : State) : Prop := ∀ p : Part, p ∉ l → p.same s t

/-! ## Events -/

/-- What the SFE delivers for one event of a channel in this state (R33, R38). -/
def told (x : Sensor) (ev : SfeEvent) (value : Int) (s : State) : List Delivery :=
  (x.owners.filter fun o => o.takes s.mc.mode).map fun o => ⟨o, x, ev, value⟩

/-- The oldest event of channel `x` on its way to `o` is `ev`; `rest` is the list without it (R38). -/
def OldestEvent (o : Owner) (x : Sensor) (ev : SfeEvent) (rest : List Delivery) (s : State) : Prop :=
  ∃ (front back : List Delivery) (v : Int),
    s.events = front ++ ⟨o, x, ev, v⟩ :: back ∧ rest = front ++ back ∧
      ∀ d ∈ front, ¬(d.owner = o ∧ d.sensor = x)

/-- The oldest waiting request that satisfies `p` is `r`; `rest` is the list without it (R193). -/
def OldestRequest (p : Request → Bool) (r : Request) (rest : List Request) (s : State) : Prop :=
  p r = true ∧ ∃ front back : List Request,
    s.requests = front ++ r :: back ∧ rest = front ++ back ∧ ∀ q ∈ front, p q = false

/-! ## Frames in the transmit queue -/

/-- The queue holds a frame of the group with the given bytes before its rolling count (R189). -/
def Queued (g : Group) (d : List Byte) (s t : State) : Prop :=
  ∃ x ∈ t.lc.queue, x.group = g ∧ x.data = sealCount d (s.lc.sendCounts.get g + 1)

/-- A service result is made where the link and the mode let it be, and a queue with room holds it
(R194, R195, R198). -/
def Answered (code tag : Byte) (r : ServiceResult) (why : ServiceReason) (s t : State) : Prop :=
  s.mayMake .serviceResult = true → s.lc.queue.length < 7 →
    Queued .serviceResult (serviceBytes code tag r why) s t

/-! ## Outputs -/

/-- Every output but one, the supplies and the grant are as before. -/
def OutputsApart (o : Output) (s t : State) : Prop :=
  (∀ x : Output, x ≠ o → t.out x = s.out x) ∧ t.vdb.supplies = s.vdb.supplies ∧
    t.vdb.grant = s.vdb.grant

/-- Every output but the two hitch valves, every command and the supplies are as before, and where the
grant changes it withholds the hitch valves or drives them at their commands again (R60). -/
structure GrantFrame (s t : State) : Prop where
  commands : ∀ o : Output, (t.out o).command = (s.out o).command
  others : ∀ o : Output, o ≠ .hrv → o ≠ .hlv → t.out o = s.out o
  supplies : t.vdb.supplies = s.vdb.supplies
  turned : t.vdb.grant.suspended ≠ s.vdb.grant.suspended → ∀ o : Output, o = .hrv ∨ o = .hlv →
    (t.out o).withheld = t.vdb.grant.suspended ∧
    (t.vdb.grant.suspended = true → (t.out o).target = 0) ∧
    (t.vdb.grant.suspended = false → s.vdb.powered o = true → (s.out o).short = .none →
      (t.out o).target = (s.out o).command)

/-- The open test of one sample (R51), "one quarter" taken exactly (log 71). -/
def LooksOpen (target : Nat) (x : CoilSample) : Prop :=
  if target = 0 then x.senseHigh = true else 4 * min 4000 x.current < target

/-- The current measured for one sample at a drive target (R49, R51). -/
def measuredAt (target : Nat) (x : CoilSample) : Nat := if target = 0 then 0 else min 4000 x.current

/-- The value of a raw output of a filter of a channel before clamping (R29). -/
def engineering (c : SensorCfg) (order osr : Nat) (raw : Int) : Int :=
  Int.tdiv ((Int.tdiv (raw * 65536) (osr ^ order : Nat) - c.zero) * c.gain) 65536

/-! ## Bounds that hold in every reachable state -/

/-- At most 16 fault entries, no two with the same code (R179). -/
def FaultTableWhole (s : State) : Prop :=
  s.mc.faults.length ≤ 16 ∧ (s.mc.faults.map fun e => e.code).Nodup

/-- At most 8 frames in the transmit queue, no two of the same group (R198). -/
def TransmitQueueWhole (s : State) : Prop :=
  s.lc.queue.length ≤ 8 ∧ (s.lc.queue.map fun e => e.group).Nodup

/-- At most 4 entries in the request queue, each of 1 to 3 steps (R70). -/
def RequestQueueBounded (s : State) : Prop :=
  s.shc.queue.length ≤ 4 ∧ ∀ e ∈ s.shc.queue, 1 ≤ e.steps ∧ e.steps ≤ 3

/-- Hitch raise and hitch lower are never commanded together (R117). -/
def HitchValvesExclusive (s : State) : Prop := (s.out .hrv).command = 0 ∨ (s.out .hlv).command = 0

/-- The hitch valves carry no current while the grant is SUSPENDED (R60). -/
structure GrantHolds (s : State) : Prop where
  withheld : s.vdb.grant.suspended = true → (s.out .hrv).withheld = true ∧ (s.out .hlv).withheld = true
  raise : (s.out .hrv).withheld = true → (s.out .hrv).target = 0
  lower : (s.out .hlv).withheld = true → (s.out .hlv).target = 0

/-- The brake pressure in force is known and 150 or less (R109). -/
def BrakesFree (s : State) : Prop := ∃ p : Nat, s.tbc.brake = some p ∧ p ≤ 150

/-- The axle is opened only over free brakes, and its valve is driven only while it opens or is open
(R102, R103, R109). -/
structure FrontAxleSafe (s : State) : Prop where
  closed : s.fdc.state = .engaged ∨ s.fdc.state = .engaging → (s.out .fdv).command = 0
  undriven : (s.out .fdv).command = 0 → (s.out .fdv).target = 0
  free : s.fdc.state = .releasing ∨ s.fdc.state = .released → BrakesFree s
  seen : s.fdc.reasons.start = false →
    s.fdc.reasons.brakeUnmeasured = s.tbc.brake.isNone ∧
    (s.fdc.reasons.braking = true ↔ ∃ p : Nat, s.tbc.brake = some p ∧ 150 < p)

/-- A gear whose PRESELECT goes on stands only in NEUTRAL (R89). -/
def PreselectOnlyInNeutral (s : State) : Prop := s.shc.preselect ≠ none → s.shc.state = .neutral

/-- The step index of a run never exceeds its step count (R168); no run is RUNNING in LOADING. -/
structure RunBounded (s : State) : Prop where
  index : s.hsq.index ≤ s.hsq.stepCount
  listed : s.hsq.state = .running →
    ∃ k : SeqKind, s.hsq.kind = some k ∧ s.hsq.stepCount = (listOf s.cfg k).length
  loading : s.mc.mode = .loading → s.hsq.state ≠ .running

/-! ## Inputs that bring no change -/

/-- The lever of a FRESH cab record stands as it was taken, and the record was FRESH at the interval
before; or there is no FRESH record, and there was none (R68, R94). -/
def CabSteady (s : State) : Prop :=
  (s.lc.cabDrive.current = none ∧ s.shc.cabFresh = false) ∨
    ∃ d : CabDriveFields, s.lc.cabDrive.current = some d ∧ d.lever = s.shc.lever ∧ s.shc.cabFresh = true

/-- Step 1 of an SHC interval finds no lever change, no loss and no return of the cab record or of a
speed, and the park request as it was (R68). -/
structure SteadyGearbox (s : State) : Prop where
  runs : s.mc.mode.controllersRun = true
  started : s.shc.starting = false
  cab : CabSteady s
  speeds : s.speedsLost = false
  speedsBefore : s.shc.speedLost = false
  park : s.shc.parkForce = parkRequested s

/-- At the interval that counts 10 ms more, the fill of a clutch ends, or goes on (R73). -/
def FillEnds (s : State) (x : Clutch) : Prop :=
  (s.clutch x).state = .filling ∧ (s.clutch x).fillTime ≤ (s.clutch x).held + 10

def FillGoesOn (s : State) (x : Clutch) : Prop :=
  (s.clutch x).state = .filling ∧ (s.clutch x).held + 10 < (s.clutch x).fillTime

/-- What an interval of FILL or TORQUE of an upshift does to the mark of an on-coming clutch, from the record
`r` to `q`, with the input speed `inp`, the old sync `old` and, in the first half of TORQUE, tie-up tested
(R81). -/
structure MarkTested (inp old : Nat) (firstHalf : Prop) (r q : ClutchRec) : Prop where
  kept : r.adapted = true → q.adapted = true ∧ q.mark = r.mark
  flare : r.adapted = false → old + 50 < inp → q.adapted = true ∧ q.mark = some .flare
  tieUp : r.adapted = false → firstHalf → inp + 50 < old → q.adapted = true ∧ q.mark = some .tieUp
  unmarked : r.adapted = false → inp ≤ old + 50 → (firstHalf → old ≤ inp + 50) →
    q.adapted = false ∧ q.mark = r.mark

/-- A gearbox with its gear engaged or an operation in progress. -/
def GearState.busy (x : GearState) : Prop := x = .inGear ∨ x = .shifting ∨ x = .engaging ∨ x = .shuttling

/-- A shift that a change to neutral abandons: FILL, and TORQUE of an upshift (R89). -/
def ShiftAbandoned (k : Shc) : Prop :=
  k.state = .shifting ∧ (k.phase = some .fill ∨ (k.phase = some .torque ∧ k.kind = some .up))

/-- A shift that a change to neutral completes: INERTIA, LOCKUP, and TORQUE of a shift that is no upshift
(R89). -/
def ShiftCompleted (k : Shc) : Prop :=
  k.state = .shifting ∧
    (k.phase = some .inertia ∨ k.phase = some .lockup ∨ (k.phase = some .torque ∧ k.kind ≠ some .up))

/-- ENGAGING in PRESELECT, whose fills go on in neutral (R89). -/
def Preselecting (k : Shc) : Prop := k.state = .engaging ∧ k.phase = some .preselect

/-- A clutch commanded 0 that drains, or whose drain has ended. -/
def Emptied (t : State) (x : Clutch) : Prop :=
  (t.clutch x).command = 0 ∧ ((t.clutch x).state = .draining ∨ (t.clutch x).state = .off)

/-- A speed or range clutch LOCKED at its hold current. -/
def HeldLocked (t : State) (x : Clutch) : Prop :=
  (t.clutch x).state = .locked ∧ (t.clutch x).command = (t.cfg.clutches.get x).hold

/-- What an interval does that puts a gearbox with a gear or an operation in neutral (R87, R89). -/
structure PutInNeutral (s t : State) : Prop where
  state : t.shc.state = .neutral
  dropped : t.shc.queue = [] ∧ t.shc.torque = none ∧ t.shc.pendingShuttle = false ∧ t.shc.phase = none ∧
    t.shc.kind = none ∧ t.shc.target = none
  directions : Emptied t .fwd ∧ Emptied t .rev
  kept : ¬ ShiftCompleted s.shc → ¬ Preselecting s.shc → t.shc.current = s.shc.current
  pairKept : s.shc.state = .inGear → ∀ g : Gear, s.shc.current = some g → ∀ x ∈ gearPair s.cfg g,
    (s.clutch x).state = .locked → (t.clutch x).state = .locked ∧ (t.clutch x).command = (s.clutch x).value
  abandoned : ShiftAbandoned s.shc ∨ (s.shc.state = .shuttling ∧ s.shc.phase = some .drain) →
    (∀ x ∈ onComing s, Emptied t x) ∧ ∀ x ∈ offGoing s, HeldLocked t x
  aborted : s.shc.state = .shifting → s.shc.phase = some .abort → ∀ x ∈ offGoing s, HeldLocked t x
  completed : ShiftCompleted s.shc → t.shc.current = s.shc.target ∧ (∀ x ∈ onComing s, HeldLocked t x) ∧
    ∀ x ∈ offGoing s, Emptied t x
  fills : Preselecting s.shc → ∀ g : Gear, s.shc.target = some g →
    (∀ x ∈ gearPair s.cfg g,
      ((s.clutch x).state = .locked → (t.clutch x).state = .locked) ∧
      (FillEnds s x → HeldLocked t x) ∧
      (FillGoesOn s x → (t.clutch x).state = .filling ∧ (t.clutch x).held = (s.clutch x).held + 10)) ∧
    ((∀ x ∈ gearPair s.cfg g, (s.clutch x).state = .locked ∨ FillEnds s x) →
      t.shc.current = some g ∧ t.shc.preselect = none) ∧
    ((∃ x ∈ gearPair s.cfg g, FillGoesOn s x) →
      t.shc.current = s.shc.current ∧ t.shc.preselect = some g)
  selected : ∀ base : Option Gear,
    (Preselecting s.shc → base = s.shc.current) → (¬ Preselecting s.shc → base = t.shc.current) →
    (base = none → t.shc.selected = s.shc.selected) ∧
    ∀ (g : Gear) (l : List GearEntry), base = some g →
      l = ((s.cfg.gearsOf g.dir).filter fun e => e.start && decide (e.gear.num ≤ g.num)) →
      (l = [] → t.shc.selected = s.shc.selected) ∧
      ∀ (below : List GearEntry) (e : GearEntry), l = below ++ [e] → t.shc.selected = some e.gear
  learned : ∀ x : Clutch, (t.clutch x).learned = (s.clutch x).learned

/-- An operation that does not reach IN_GEAR at its next interval. -/
def OperationGoesOn (s : State) : Prop :=
  (s.shc.state = .shifting ∧ (s.shc.phase = some .fill ∨ s.shc.phase = some .torque ∨
      s.shc.phase = some .inertia ∨ (s.shc.phase = some .abort ∧ s.shc.interval + 1 < 20))) ∨
  (s.shc.state = .engaging ∧ (s.shc.phase = some .preselect ∨
      (s.shc.phase = some .ramp ∧ s.shc.interval + 1 < max 1 (s.cfg.engageRamp / 10)))) ∨
  (s.shc.state = .shuttling ∧ (s.shc.phase = some .drain ∨ s.shc.phase = some .reverseBrake ∨
      (s.shc.phase = some .driveAway ∧ s.shc.interval + 1 < max 1 (s.cfg.engageRamp / 10))))

/-- Neither fender button goes from RELEASED to PRESSED at an interval that reads the two lines (R127). -/
def NoPress (left right : Bool) (h : Htc) : Prop :=
  Button.pressed h.left (h.left.read left) = false ∧ Button.pressed h.right (h.right.read right) = false

/-- The HTC's interval finds a valid position and no faulted valve (R119). -/
structure HitchSound (s : State) : Prop where
  runs : s.mc.mode.controllersRun = true
  position : s.sfe.posValid = true
  valves : s.hitchFaulted = false

/-- The lever of a FRESH cab hitch record, FRESH at the interval before too, differs from its reference by a
change (R122). -/
def LeverMovedFresh (s : State) : Prop :=
  ∃ (f : CabHitchFields) (ref : Nat), s.lc.cabHitch.current = some f ∧ s.htc.cabFresh = true ∧
    s.htc.leverRef = some ref ∧ 10 ≤ ((min 1000 f.lever : Nat) - (ref : Int)).natAbs

/-- The commands of both hitch valves, each clamped to its output's maximum (R47, R117). -/
def ValvesAt (hrv hlv : Nat) (t : State) : Prop :=
  (t.out .hrv).command = min hrv (t.cfg.maxima.get .hrv) ∧
    (t.out .hlv).command = min hlv (t.cfg.maxima.get .hlv)

/-- A level field of a FRESH cab record differs from the sequencer's copy, and one of the steps `l` uses the
function it selects (R176). -/
def FieldTouched (l : List HStep) (s : State) : Prop :=
  (∃ (d : CabDriveFields) (m : FrontMode), s.lc.cabDrive.current = some d ∧ s.hsq.frontSeen = some m ∧
    frontOfCode d.front ≠ m ∧ ∃ x ∈ l, ∃ n : FrontMode, x.action = .frontMode n) ∨
  (∃ (f : CabHitchFields) (b : Bool), s.lc.cabHitch.current = some f ∧ s.hsq.slipSeen = some b ∧
    onOfCode f.slipControl ≠ b ∧ ∃ x ∈ l, ∃ on : Bool, x.action = .slipControl on) ∨
  (∃ (f : CabHitchFields) (ref : Nat), s.lc.cabHitch.current = some f ∧ s.hsq.leverRef = some ref ∧
    s.hsq.hitchFresh = true ∧ 10 ≤ ((min 1000 f.lever : Int) - ref).natAbs ∧
    ∃ x ∈ l, x.action = .hitchRaise ∨ x.action = .hitchWork)

/-- What the steps of a run do that are issued one after another, the first of them at the index `i` of the
list `k`, to their targets (R106, R129, R130, R170, R173, R174). -/
structure StepsCarriedOut (k : SeqKind) (i : Nat) (todo : List HAction) (s t : State) : Prop where
  wait : (∀ a ∈ todo, a = .wait) → Touches [.hsq] s t
  front : ∀ (m : FrontMode) (before after : List HAction), todo = before ++ .frontMode m :: after →
    (∀ a ∈ after, ∀ n : FrontMode, a ≠ .frontMode n) → t.fdc = { s.fdc with mode := m, source := .headland }
  noFront : (∀ a ∈ todo, ∀ n : FrontMode, a ≠ .frontMode n) → t.fdc = s.fdc
  slip : ∀ (on : Bool) (before after : List HAction), todo = before ++ .slipControl on :: after →
    (∀ a ∈ after, ∀ b : Bool, a ≠ .slipControl b) → t.htc.slipOn = on ∧ t.htc.slipSource = .headland
  noSlip : (∀ a ∈ todo, ∀ b : Bool, a ≠ .slipControl b) →
    t.htc.slipOn = s.htc.slipOn ∧ t.htc.slipSource = s.htc.slipSource
  hitch : ∀ (up : Bool) (before after : List HAction),
    todo = before ++ (if up = true then .hitchRaise else .hitchWork) :: after →
    (∀ a ∈ after, a ≠ .hitchRaise ∧ a ≠ .hitchWork) → s.lc.cabHitch.fresh = .fresh →
    s.htc.state = .held ∨ s.htc.state = .raising ∨ s.htc.state = .transport ∨ s.htc.state = .working →
    (up = true → t.htc.state = .raising ∨ t.htc.state = .transport) ∧ (up = false → t.htc.state = .working)
  noHitch : (∀ a ∈ todo, a ≠ .hitchRaise ∧ a ≠ .hitchWork ∧ ∀ b : Bool, a ≠ .slipControl b) → t.htc = s.htc
  hitchRefused : ∀ (a : HAction) (why : HtcReason), todo = [a] → a = .hitchRaise ∨ a = .hitchWork →
    (s.htc.state = .faultHold ∧ why = .fault) ∨ (s.htc.state = .startLock ∧ why = .locked) ∨
      (s.htc.state = .fender ∧ why = .busyLocal) ∨
      ((s.htc.state = .held ∨ s.htc.state = .raising ∨ s.htc.state = .transport ∨ s.htc.state = .working) ∧
        s.lc.cabHitch.fresh ≠ .fresh ∧ why = .stale) →
    t.htc = s.htc ∧ t.hsq.lastRefused = some (⟨k, i, a⟩, .htc why)
  shift : ∀ (up : Bool) (n : Nat) (a : HAction) (before after : List HAction),
    a = (if up = true then .shiftUp n else .shiftDown n) → todo = before ++ a :: after →
    (∀ b ∈ before ++ after, ∀ j : Nat, b ≠ .shiftUp j ∧ b ≠ .shiftDown j) → 1 ≤ n → n ≤ 3 →
    s.shc.state = .inGear → s.sfe.chans.chg.cmp ≠ .low → s.sfe.chans.chg.state = .valid →
    s.lc.cabDrive.fresh = .fresh → s.speedsLost = false → s.shc.queue = [] →
    t.shc = { s.shc with queue := [⟨if up = true then .up else .down, n, .headland⟩] } ∧
      t.hsq.lastShift = some ⟨k, i + before.length, a⟩ ∧ t.hsq.refusalsSeen = s.shc.refusals
  noShift : (∀ a ∈ todo, ∀ j : Nat, a ≠ .shiftUp j ∧ a ≠ .shiftDown j) →
    t.shc = s.shc ∧ t.hsq.lastShift = s.hsq.lastShift
  shiftRefused : ∀ (up : Bool) (a : HAction) (why : ShcReason), todo = [a] →
    a = (if up = true then .shiftUp 1 else .shiftDown 1) →
    (if s.shc.state = .faultHold then some .fault
      else if s.shc.state = .neutral ∨ s.shc.state = .parked then some .noGear
      else if s.sfe.chans.chg.cmp = .low ∨ s.sfe.chans.chg.state ≠ .valid then some .noCharge
      else if s.lc.cabDrive.fresh ≠ .fresh ∨ s.speedsLost = true then some .fault
      else if offer (if up = true then .up else .down) .headland s.shc.queue = none then some .full
      else none) = some why →
    t.shc = { s.shc with lastRefusal := some (why, .headland), refusals := s.shc.refusals + 1 } ∧
      t.hsq.lastShift = some ⟨k, i, a⟩ ∧ t.hsq.lastRefused = some (⟨k, i, a⟩, .shc why)

/-- The refusal of a release of park as the records stand; an engine record that is not FRESH refuses like
one that reads 0 (R91, log 75). -/
def releaseWhy (s : State) : Option ShcReason :=
  if s.gearboxFaulted = true then some .fault
  else if s.engineSpeed.getD 0 ≤ 500 then some .noEngine
  else if s.sfe.chans.chg.cmp = .low ∨ s.sfe.chans.chg.state ≠ .valid ∨ s.sfe.chans.chg.value < 140
  then some .noCharge
  else none

/-! ## Sinc filters (R28) -/

/-- A filter `f` of a given OSR takes the bit `b` and becomes `g`; `out` is the raw output this clock
completes. -/
structure SincTakes (osr : Nat) (b : Bool) (f g : Sinc) (out : Option Int) : Prop where
  order : g.sums.length = f.sums.length ∧ g.combs.length = f.combs.length
  first : 0 < f.sums.length → g.sums.getD 0 0 = f.sums.getD 0 0 + (if b = true then 1 else 0)
  further : ∀ i : Nat, i + 1 < f.sums.length →
    g.sums.getD (i + 1) 0 = f.sums.getD (i + 1) 0 + g.sums.getD i 0
  between : f.clocks + 1 < osr → g.combs = f.combs ∧ g.clocks = f.clocks + 1 ∧ out = none
  due : osr ≤ f.clocks + 1 → g.clocks = 0 ∧ ∃ v : Nat → Int,
    v 0 = g.sums.getLastD 0 ∧ out = some (v f.combs.length) ∧
      ∀ i : Nat, i < f.combs.length → v (i + 1) = v i - f.combs.getD i 0 ∧ g.combs.getD i 0 = v i

/-! ## The configuration image (R63 to R65, R207) -/

/-- One message bit into a CRC of polynomial 0x1021 (R207). -/
def crcShift (c : BitVec 16) (b : Bool) : BitVec 16 :=
  if c.msb = b then c <<< 1 else (c <<< 1) ^^^ 0x1021#16

/-- The bits of bytes in their order, the most significant bit of each first. -/
def bitsOf (d : List Byte) : List Bool := d.flatMap fun b => (List.range 8).map fun i => b.getMsbD i

/-- The header, the CRC over the bytes before it, and the thirteen sections one behind the other up to
byte L − 1; `place n` is the byte at which section n + 1 begins (11, section 11.2). -/
structure BytesSound (d : List Byte) : Prop where
  format : byteAt d 0 = 17 ∧ byteAt d 1 = 13 ∧ byteAt d 6 = 0 ∧ byteAt d 7 = 0
  length : 8 ≤ word16 d 4 ∧ word16 d 4 ≤ 2046
  crc : ((bitsOf (d.take (word16 d 4))).foldl crcShift 0xFFFF#16).toNat = word16 d (word16 d 4)
  sections : ∃ place : Nat → Nat, place 0 = 8 ∧ place 13 = word16 d 4 ∧
    ∀ n : Nat, n < 13 → byteAt d (place n) = n + 1 ∧
      place (n + 1) = place n + 3 + word16 d (place n + 1)

/-- Section 1 (R188). -/
structure StationsSound (x : Stations) : Prop where
  inRange : ∀ n ∈ [x.own, x.engine, x.brake, x.cab, x.implement, x.service], 1 ≤ n ∧ n ≤ 31
  distinct : [x.own, x.engine, x.brake, x.cab, x.implement, x.service].Nodup

/-- One configured channel of section 3 (R25, R26), a disabled side unchecked (log 42). -/
structure SensorSound (x : Sensor) (k : SensorCfg) : Prop where
  main : x ≠ .hps → (1 ≤ k.mainOrder ∧ k.mainOrder ≤ 3) ∧ (16 ≤ k.mainOsr ∧ k.mainOsr ≤ 256)
  fast : (1 ≤ k.fastOrder ∧ k.fastOrder ≤ 3) ∧ (4 ≤ k.fastOsr ∧ k.fastOsr ≤ 32)
  zero : k.zero ≤ 65535
  gain : -262144 ≤ k.gain ∧ k.gain ≤ 262144 ∧ k.gain ≠ 0
  highListed : k.highOn = true → x = .drl ∨ x = .drr ∨ x = .tcl ∨ x = .oil
  lowListed : k.lowOn = true → x = .sup ∨ x = .chg ∨ x = .tsl
  sides : ∀ lo hi : Int, (x, lo, hi) ∈ [(Sensor.drl, -8000, 8000), (.drr, -8000, 8000), (.hps, 0, 1000),
      (.sup, 0, 2500), (.chg, 0, 400), (.tbr, 0, 1600), (.tcl, 0, 2000), (.tsl, 0, 500),
      (.oil, -40, 150)] →
    (k.highOn = true → lo ≤ k.high ∧ k.high ≤ hi ∧ 0 ≤ k.highHyst ∧ k.highHyst ≤ hi - lo) ∧
    (k.lowOn = true → lo ≤ k.low ∧ k.low ≤ hi ∧ 0 ≤ k.lowHyst ∧ k.lowHyst ≤ hi - lo)
  apart : k.highOn = true → k.lowOn = true → k.low + k.lowHyst < k.high - k.highHyst

/-- Section 4 (R63); the direction is that of the name (log 33). -/
structure GearsSound (l : List GearEntry) : Prop where
  count : l.length ≤ 20
  names : ∀ e ∈ l, 1 ≤ e.gear.num ∧ e.gear.num ≤ (match e.gear.dir with | .forward => 12 | .reverse => 8)
  ratios : ∀ e ∈ l, 1000 ≤ e.ratio ∧ e.ratio ≤ 60000
  once : (l.map fun e => e.gear).Nodup
  falls : ∀ e ∈ l, ∀ f ∈ l, e.gear.dir = f.gear.dir → e.gear.num < f.gear.num → f.ratio < e.ratio
  apart : ∀ e ∈ l, ∀ f ∈ l, e.gear.dir = f.gear.dir → e.speed = f.speed → e.range = f.range → e = f
  starts : ∀ d : Dir, ∃ e ∈ l, e.gear.dir = d ∧ e.start = true

/-- One clutch of section 5 (R65); `maximum` is that of its output. -/
structure ClutchSound (maximum : Nat) (k : ClutchCfg) : Prop where
  fill : 100 ≤ k.fillCurrent ∧ k.fillCurrent ≤ 2000
  times : ∀ t ∈ [k.fillTime, k.minFill, k.maxFill], 40 ≤ t ∧ t ≤ 400
  currents : ∀ v ∈ [k.touch, k.take, k.hold], 50 ≤ v ∧ v ≤ 2000
  rising : k.touch < k.take ∧ k.take ≤ k.hold
  bounded : k.fillCurrent ≤ maximum ∧ k.hold ≤ maximum
  between : k.minFill ≤ k.fillTime ∧ k.fillTime ≤ k.maxFill

/-- One table of section 9 (R145). -/
structure CurveSound (maxIn maxOut : Nat) (l : List (Nat × Nat)) : Prop where
  length : 2 ≤ l.length ∧ l.length ≤ 8
  ascends : l.Pairwise fun p q => p.1 < q.1
  bounds : ∀ p ∈ l, p.1 ≤ maxIn ∧ p.2 ≤ maxOut

/-- One list of section 10 (R167). -/
structure StepsSound (l : List HStep) : Prop where
  length : l.length ≤ 12
  shifts : ∀ x ∈ l, ∀ n : Nat, x.action = .shiftUp n ∨ x.action = .shiftDown n → 1 ≤ n ∧ n ≤ 3
  distances : ∀ x ∈ l, ∀ d : Nat, x.trigger = .distance d → 1 ≤ d ∧ d ≤ 5000
  times : ∀ x ∈ l, ∀ t : Nat, x.trigger = .time t → 1 ≤ t ∧ t ≤ 600

/-- The range and order checks of the thirteen sections (R207, step 4). The constants of RAD are checked whether
or not RAD is fitted (log 47). -/
structure SectionsSound (c : Image) : Prop where
  stations : StationsSound c.stations
  shafts : ∀ k : PulseChannel, k = .inp ∨ k = .out →
    1 ≤ (c.pulse.get k).perRev ∧ (c.pulse.get k).perRev ≤ 240
  travels : ∀ k : PulseChannel, k = .out ∨ k = .frt ∨ k = .rad →
    100 ≤ (c.pulse.get k).travelPer ∧ (c.pulse.get k).travelPer ≤ 100000
  spacings : ∀ k : PulseChannel, 1 ≤ (c.pulse.get k).minSpacing ∧ (c.pulse.get k).minSpacing ≤ 10000
  sensors : ∀ x : Sensor, (c.sensors.get x).configured = true → SensorSound x (c.sensors.get x)
  pattern : c.sensors.hps.configured = true → (16 ≤ c.pattern.length ∧ c.pattern.length ≤ 64) ∧
    true ∈ c.pattern ∧ false ∈ c.pattern ∧ c.aTop ≠ c.aBottom
  gears : GearsSound c.gears
  clutches : ∀ k : Clutch, ClutchSound (c.maxima.get k.output) (c.clutches.get k)
  start : c.startGear.dir = .forward ∧ ∃ e ∈ c.gears, e.gear = c.startGear ∧ e.start = true
  ramp : c.engageRamp % 10 = 0 ∧ 100 ≤ c.engageRamp ∧ c.engageRamp ≤ 2000
  torqueLimit : c.torqueLimit ≤ 100
  lead : 900 ≤ c.lead ∧ c.lead ≤ 1100
  draftSpan : 1000 ≤ c.draftSpan ∧ c.draftSpan ≤ 16000
  brakeCurve : CurveSound 1600 1500 c.brakeCurve
  trailerCurve : CurveSound 1500 2000 c.trailerCurve
  trailerSensors : c.sensors.tcl.configured = true ∧ c.sensors.tsl.configured = true
  entry : StepsSound c.entry
  exit : StepsSound c.exit
  maxima : ∀ o : Output, o ≠ .pkv → o ≠ .fdv → o ≠ .tsv → 100 ≤ c.maxima.get o ∧ c.maxima.get o ≤ 2000
  wakeThreshold : 1 ≤ c.wakeThreshold ∧ c.wakeThreshold ≤ 3
  pulsePitch : 1000 ≤ c.pulsePitch ∧ c.pulsePitch ≤ 100000

/-- `r` is the gear of a direction whose ratio is nearest, the larger ratio on a tie (R64). -/
def NearestGear (l : List GearEntry) (d : Dir) (ratio : Nat) (r : GearEntry) : Prop :=
  r ∈ l ∧ r.gear.dir = d ∧ ∀ q ∈ l, q.gear.dir = d →
    ((ratio : Int) - r.ratio).natAbs < ((ratio : Int) - q.ratio).natAbs ∨
    (((ratio : Int) - r.ratio).natAbs = ((ratio : Int) - q.ratio).natAbs ∧ q.ratio ≤ r.ratio)

/-- The forward gear `e` maps to the reverse gear `r`: the last one where the ratio of `e` lies below that
one's, and else the nearest (R64). -/
def MapsTo (l : List GearEntry) (e r : GearEntry) : Prop :=
  r ∈ l ∧ r.gear.dir = .reverse ∧ ∀ last ∈ l, last.gear.dir = .reverse →
    (∀ q ∈ l, q.gear.dir = .reverse → q.gear.num ≤ last.gear.num) →
    (e.ratio < last.ratio → r = last) ∧ (last.ratio ≤ e.ratio → NearestGear l .reverse e.ratio r)

/-- The shuttle map of a gear table (R64). -/
structure ShuttleMapBuilt (l : List GearEntry) (partner : Gear → Option Gear) : Prop where
  forward : ∀ e ∈ l, e.gear.dir = .forward → ∃ r : GearEntry, MapsTo l e r ∧ partner e.gear = some r.gear
  paired : ∀ r ∈ l, r.gear.dir = .reverse → ∀ e ∈ l, e.gear.dir = .forward → MapsTo l e r →
    (∀ f ∈ l, f.gear.dir = .forward → MapsTo l f r → e.gear.num ≤ f.gear.num) →
    partner r.gear = some e.gear
  unmapped : ∀ r ∈ l, r.gear.dir = .reverse → (∀ e ∈ l, e.gear.dir = .forward → ¬ MapsTo l e r) →
    ∃ e : GearEntry, NearestGear l .forward r.ratio e ∧ partner r.gear = some e.gear
  unlisted : ∀ g : Gear, (∀ e ∈ l, e.gear ≠ g) → partner g = none

/-! ## The bytes of the cab's groups (R205) -/

/-- 12 CAB DRIVE REQUEST. -/
structure CabDriveOf (d : List Byte) (f : CabDriveFields) : Prop where
  lever : (byteAt d 0 % 4, f.lever) ∈ [(0, Lever.n), (1, .f), (2, .r), (3, .park)]
  shift : f.shift = byteAt d 0 / 4 % 4
  front : f.front = byteAt d 0 / 16 % 4
  headland : f.headland = byteAt d 0 / 64 % 4
  select : f.select = byteAt d 1 % 32
  aggressiveness : f.aggressiveness = byteAt d 1 / 32 % 8
  pedal : f.pedal = byteAt d 2
  auto : f.auto = true ↔ byteAt d 3 / 16 % 2 = 1
  acknowledge : f.acknowledge = true ↔ byteAt d 3 / 32 % 2 = 1

/-- 13 CAB HITCH REQUEST, with its three 16-bit values. -/
structure CabHitchOf (d : List Byte) (f : CabHitchFields) : Prop where
  first : ∀ v : Nat, v = byteAt d 0 * 256 + byteAt d 1 →
    f.lever = v % 1024 ∧ f.switch = v / 1024 % 4 ∧ f.damping = v / 4096 % 4 ∧ f.authority = v / 16384 % 4
  second : ∀ v : Nat, v = byteAt d 2 * 256 + byteAt d 3 →
    f.upper = v % 1024 ∧ f.slipControl = v / 1024 % 4 ∧ f.dropRate = v / 4096 % 16
  third : f.slipLimit = (byteAt d 4 * 256 + byteAt d 5) % 1024
  mix : f.mix = byteAt d 6

/-- The requests that the shift command of a 12 CAB DRIVE REQUEST makes. -/
def ShiftAsked (d : List Byte) (l : List Request) : Prop :=
  (byteAt d 0 / 4 % 4 = 0 → l = []) ∧ (byteAt d 0 / 4 % 4 = 1 → l = [.shift .up]) ∧
    (byteAt d 0 / 4 % 4 = 2 → l = [.shift .down]) ∧
    (byteAt d 0 / 4 % 4 = 3 → ∀ n : Nat, n = byteAt d 1 % 32 →
      (1 ≤ n → n ≤ 12 → l = [.shift (.select (some ⟨.forward, n⟩))]) ∧
      (17 ≤ n → n ≤ 24 → l = [.shift (.select (some ⟨.reverse, n - 16⟩))]) ∧
      (n = 0 ∨ (12 < n ∧ n < 17) ∨ 24 < n → l = [.shift (.select none)]))

/-- The requests of a 12 CAB DRIVE REQUEST: shift command, headland command, fault acknowledge. -/
def CabDriveAsks (d : List Byte) (l : List Request) : Prop :=
  ∃ shift headland acknowledge : List Request, l = shift ++ headland ++ acknowledge ∧
    ShiftAsked d shift ∧
    (byteAt d 0 / 64 % 4, headland) ∈ [(0, []), (1, [.headland true]), (2, [.headland false]), (3, [])] ∧
    (byteAt d 3 / 32 % 2, acknowledge) ∈ [(0, []), (1, [.acknowledge])]

/-- The request of a 13 CAB HITCH REQUEST: the up/down switch. -/
def CabHitchAsks (d : List Byte) (l : List Request) : Prop :=
  (byteAt d 0 / 4 % 4, l) ∈ [(0, []), (1, [.hitchSwitch true]), (2, [.hitchSwitch false]), (3, [])]

/-! ## The bytes of the published groups (R205) -/

/-- Bit `i` of `n` is set exactly where the flag is. -/
def BitIs (n i : Nat) (b : Bool) : Prop := n / 2 ^ i % 2 = if b = true then 1 else 0

/-- A 16-bit two's complement value. -/
def signed16 (i : Int) : Nat := (i % 65536).toNat

/-- The code of a gear, or 0. -/
def GearIs (n : Nat) (g : Option Gear) : Prop :=
  n = (match g with | none => 0 | some ⟨.forward, k⟩ => k | some ⟨.reverse, k⟩ => 16 + k)

/-- A gear name of the table, or none. -/
def NameInRange (g : Option Gear) : Prop := ∀ x : Gear, g = some x → x.num ≤ 12

/-- 6 MOTION, page by page. -/
def MotionBytes (page : Nat) (s : State) (d : List Byte) : Prop :=
  byteAt d 7 / 16 = page ∧ ∀ (m : MotionRec) (b : Nat), m = s.scu.motion → b = byteAt d 6 →
    (page = 0 → word16 d 0 = m.vGround % 65536 ∧ word16 d 2 = m.vRear % 65536 ∧
      word16 d 4 = signed16 m.filtered ∧
      (m.source, b % 4) ∈ [(.none, 0), (.radar, 1), (.front, 2)] ∧
      (m.slipVal, b / 4 % 4) ∈ [(.unavailable, 0), (.lowSpeed, 1), (.valid, 2)] ∧
      BitIs b 4 m.standstill ∧
      (m.direction, b / 32 % 4) ∈ [(.unknown, 0), (.forward, 1), (.reverse, 2)] ∧
      BitIs b 7 m.radarFitted) ∧
    (page = 1 → word16 d 0 = m.vFront % 65536 ∧ word16 d 2 = m.vRadar % 65536 ∧
      word16 d 4 = signed16 m.slip ∧
      ∀ (v : Validity) (i : Nat),
        (v, i) ∈ [(m.rearVal, 0), (m.frontVal, 1), (m.radarVal, 2), (m.inputVal, 3)] →
        (v, b / 4 ^ i % 4) ∈ [(.stopped, 0), (.moving, 1), (.lost, 2)]) ∧
    (page = 2 → word16 d 0 = m.inpRpm % 65536 ∧ word16 d 2 = m.outRpm % 65536 ∧
      byteAt d 4 * 65536 + byteAt d 5 * 256 + b = m.travel.toNat / 256)

/-- 10 GEARBOX STATE of a record within its ranges. -/
def GearboxBytes (k : Shc) (d : List Byte) : Prop :=
  NameInRange k.current → NameInRange k.target → NameInRange k.selected → k.pedal ≤ 100 →
  k.queue.length ≤ 4 →
    (k.state, byteAt d 0 % 8) ∈ [(.parked, 0), (.neutral, 1), (.engaging, 2), (.inGear, 3),
      (.shifting, 4), (.shuttling, 5), (.faultHold, 6)] ∧
    (k.phase, byteAt d 0 / 8 % 16) ∈ [(none, 0), (some .preselect, 1), (some .ramp, 2), (some .fill, 3),
      (some .torque, 4), (some .inertia, 5), (some .lockup, 6), (some .abort, 7), (some .drain, 8),
      (some .reverseBrake, 9), (some .driveAway, 10)] ∧
    BitIs (byteAt d 0) 7 k.auto ∧
    GearIs (byteAt d 1 % 32) k.current ∧
    (k.kind, byteAt d 1 / 32 % 4) ∈ [(none, 0), (some .up, 1), (some .down, 2)] ∧
    BitIs (byteAt d 1) 7 (!k.parkReleased) ∧
    GearIs (byteAt d 2 % 32) k.target ∧
    (k.lever, byteAt d 2 / 32 % 4) ∈ [(.n, 0), (.f, 1), (.r, 2), (.park, 3)] ∧
    BitIs (byteAt d 2) 7 k.pendingPark ∧
    GearIs (byteAt d 3 % 32) k.selected ∧
    (k.ignored, byteAt d 3 / 32) ∈ [(none, 0), (some .n, 1), (some .f, 2), (some .r, 3),
      (some .park, 4)] ∧
    byteAt d 4 % 128 = k.pedal ∧ BitIs (byteAt d 4) 7 k.pendingShuttle ∧
    (k.lastRefusal = none → byteAt d 5 = 0) ∧
    (∀ (r : ShcReason) (o : Origin), k.lastRefusal = some (r, o) →
      (r, byteAt d 5 % 16) ∈ [(.full, 1), (.overspeed, 2), (.lugging, 3), (.noCharge, 4), (.noGear, 5),
        (.fault, 6), (.speed, 7), (.noEngine, 8)] ∧
      (o, byteAt d 5 / 16) ∈ [(.cab, 0), (.headland, 1), (.auto, 2)]) ∧
    byteAt d 6 = k.refusals.toNat ∧ byteAt d 7 / 16 = 4 - k.queue.length

/-- 14 DRIVE AND HITCH STATE, page by page, of records within their ranges. -/
def DriveHitchBytes (page : Nat) (s : State) (d : List Byte) : Prop :=
  byteAt d 7 / 16 = page ∧
    (page = 0 → ∀ (f : Fdc) (g : Grant), f = s.fdc → g = s.vdb.grant →
      (f.state, byteAt d 0 % 4) ∈ [(.engaged, 0), (.releasing, 1), (.released, 2), (.engaging, 3)] ∧
      (f.mode, byteAt d 0 / 4 % 4) ∈ [(.off, 0), (.on, 1), (.auto, 2)] ∧
      (f.source, byteAt d 0 / 16 % 2) ∈ [(.cab, 0), (.headland, 1)] ∧
      BitIs (byteAt d 0) 5 g.suspended ∧
      (g.cause, byteAt d 0 / 64) ∈ [(none, 0), (some .lowPressure, 1), (some .supplyUnknown, 2)] ∧
      (∀ (i : Nat) (b : Bool), (i, b) ∈ [(0, f.reasons.modeOn), (1, f.reasons.autoSpeed),
          (2, f.reasons.autoSlip), (3, f.reasons.braking), (4, f.reasons.brakeUnmeasured),
          (5, f.reasons.lowCharge), (6, f.reasons.shuttle), (7, f.reasons.standstill),
          (8, f.reasons.fault), (9, f.reasons.start)] → BitIs (word16 d 1) i b) ∧
      word16 d 3 = g.count % 65536) ∧
    (page = 1 → ∀ h : Htc, h = s.htc → h.position.toNat ≤ 1000 → h.depth ≤ 1000 →
      (h.state, byteAt d 0 % 8) ∈ [(.startLock, 0), (.held, 1), (.raising, 2), (.transport, 3),
        (.working, 4), (.fender, 5), (.faultHold, 6)] ∧
      (h.holdCause, byteAt d 0 / 8 % 8) ∈ [(none, 0), (some .fender, 1), (some .cabLost, 2),
        (some .sourceLost, 3), (some .stop, 4), (some .fault, 5)] ∧
      (h.faultCause, byteAt d 0 / 64) ∈ [(none, 0), (some .position, 1), (some .valve, 2)] ∧
      word16 d 1 % 1024 = h.position.toNat ∧ BitIs (word16 d 1) 10 h.posValid ∧
      BitIs (word16 d 1) 11 (decide (h.source = .implement)) ∧ BitIs (word16 d 1) 12 h.slipOn ∧
      BitIs (word16 d 1) 13 (decide (h.slipSource = .headland)) ∧ word16 d 3 = h.depth ∧
      BitIs (byteAt d 5) 0 h.overload ∧ BitIs (byteAt d 5) 1 h.damping ∧
      BitIs (byteAt d 5) 2 h.slipOverride ∧ BitIs (byteAt d 5) 3 h.refused ∧
      BitIs (byteAt d 5) 4 (decide (h.holdCause = some .sourceLost))) ∧
    (page = 2 → ∀ h : Htc, h = s.htc → h.hrv ≤ 1200 → h.hlv ≤ 1200 →
      word16 d 0 = signed16 h.draft ∧ word16 d 2 = signed16 (h.mixed.getD 0) ∧
      byteAt d 4 = h.hrv / 5 ∧ byteAt d 5 = h.hlv / 5 ∧
      BitIs (byteAt d 6) 0 h.draftValid ∧ BitIs (byteAt d 6) 1 h.mixed.isNone) ∧
    (page = 3 → ∀ q : Hsq, q = s.hsq → q.index ≤ 12 →
      (q.state, byteAt d 0 % 4) ∈ [(.idle, 0), (.running, 1), (.done, 2), (.aborted, 3)] ∧
      (q.kind, byteAt d 0 / 4 % 4) ∈ [(none, 0), (some .entry, 1), (some .exit, 2)] ∧
      BitIs (byteAt d 0) 4 (decide (q.nextKind = .exit)) ∧
      (q.cause, byteAt d 0 / 32) ∈ [(none, 0), (some .cancel, 1), (some .cabRequest, 2),
        (some .lever, 3), (some .shuttle, 4), (some .mode, 5)] ∧
      byteAt d 1 % 16 = q.index ∧
      (q.lastRefused = none → byteAt d 1 / 16 = 0 ∧ byteAt d 2 = 0 ∧ byteAt d 3 = 0) ∧
      (∀ (r : StepRef) (why : StepReason), q.lastRefused = some (r, why) → r.index ≤ 12 →
        (why, byteAt d 1 / 16) ∈ [(.shc .full, 1), (.shc .overspeed, 2), (.shc .lugging, 3),
          (.shc .noCharge, 4), (.shc .noGear, 5), (.shc .fault, 6), (.htc .fault, 6), (.shc .speed, 7),
          (.shc .noEngine, 8), (.htc .locked, 9), (.htc .busyLocal, 10), (.htc .stale, 11)] ∧
        (r.kind, byteAt d 2 % 4) ∈ [(.entry, 1), (.exit, 2)] ∧ byteAt d 2 / 4 = r.index ∧
        byteAt d 3 = (match r.action with
          | .hitchRaise => 1 | .hitchWork => 2 | .frontMode _ => 3 | .shiftUp _ => 4
          | .shiftDown _ => 5 | .slipControl _ => 6 | .wait => 7)))

/-- 18 TRAILER STATE of a record within its ranges. -/
def TrailerBytes (t : Tbc) (d : List Byte) : Prop :=
  (∀ p : Nat, t.brake = some p → p ≤ 1600) → t.demand ≤ 1500 →
    word16 d 0 % 2048 = (match t.brake with | some p => p | none => 2047) ∧
    (t.brakeSource, word16 d 0 / 2048 % 4) ∈ [(.none, 0), (.own, 1), (.station, 2)] ∧
    (t.state, word16 d 0 / 8192) ∈ [(.absent, 0), (.charging, 1), (.ready, 2), (.parked, 3),
      (.supplyFault, 4), (.breakaway, 5)] ∧
    word16 d 2 % 2048 = t.demand ∧
    (t.contributor, word16 d 2 / 2048 % 4) ∈ [(.none, 0), (.brake, 1), (.overrun, 2), (.shuttle, 3)] ∧
    BitIs (word16 d 2) 13 t.coupled ∧ BitIs (word16 d 2) 14 t.overpressure ∧
    BitIs (word16 d 2) 15 t.supplyLow ∧
    byteAt d 4 = t.tcl.toNat / 10 % 256 ∧ byteAt d 5 = t.tsl.toNat / 10 % 256 ∧
    byteAt d 6 = (Int.tdiv t.correction 2 % 256).toNat ∧
    BitIs (byteAt d 7) 4 (decide (t.tclState = .valid)) ∧
    BitIs (byteAt d 7) 5 (decide (t.tslState = .valid))

end Sys2Proof.Machine
end

