-- ==== Sys2Proof/Certificates/Slice0/Obligations.lean ====
section
/-! DEFINITION. The statements for the provers, family by family. -/

open Sys2Proof Sys2Proof.Machine

/-! ## The queue and the clock -/

/-- The command at the front of the queue runs on the state with the queue's rest. -/
def Obligations.StepRunsFrontCommand : Prop :=
  ∀ (c : Instr) (rest : List Instr) (s : State), s.pending = c :: rest →
    step s = exec c { s with pending := rest }

/-- Every command answers a next state and leaves the queue as it is; only a power-on reset moves the
microsecond count (model's choices: log 1, log 2). -/
def Obligations.EveryCommandAnswersNext : Prop :=
  ∀ (c : Instr) (s : State), ∃ t : State,
    exec c s = .next t ∧ t.pending = s.pending ∧ t.clock = s.clock ∧
    ((∀ a b k : Bool, c ≠ .powerOnReset a b k) → t.now = s.now ∧ t.sub = s.sub)

/-- R20, R50, R53, R55, R56, R94, R191, R192, R200, R201, R203, R211: on an empty queue one modulator clock
passes, and every fifth is a microsecond, which each one-shot timer that runs counts up to its end (model's
choices: log 2 for the clock, log 14 for timers that stand at their end until their row is taken). -/
def Obligations.EmptyQueueIsOneClock : Prop :=
  ∀ s : State, s.pending = [] →
    ∃ t : State, step s = .next t ∧ t.clock = s.clock + 1 ∧
      t.sub = (if s.sub + 1 < 5 then s.sub + 1 else 0) ∧
      t.now = (if s.sub + 1 < 5 then s.now else s.now + 1) ∧
      (s.mc.mode.sensingRuns = false → t.sfe = s.sfe) ∧
      (s.sub + 1 < 5 → Touches [.clock, .sub, .sfe] s t) ∧
      (¬ s.sub + 1 < 5 →
        (∀ (o : Output) (x : SupplyState), x = (s.supplyOf o.supply).state →
          t.out o = { s.out o with
            window := (s.out o).window.map fun w => min 100000 (w + 1)
            pullIn := (s.out o).pullIn.map fun p => min 100000 (p + 1)
            retryTimer := if (s.out o).short = .retry ∧ (s.out o).window = none ∧
                (x = .rising ∨ x = .enabled)
              then min 1000000 ((s.out o).retryTimer + 1) else (s.out o).retryTimer }) ∧
        (∀ x : Supply, t.supplyOf x = { s.supplyOf x with
          settle := if (s.supplyOf x).state = .rising then min 20000 ((s.supplyOf x).settle + 1)
            else if (s.supplyOf x).state = .falling then min 10000 ((s.supplyOf x).settle + 1)
            else (s.supplyOf x).settle }) ∧
        t.vdb.grant = s.vdb.grant ∧
        t.scu = { s.scu with
          pulseAge := if s.scu.pulseHigh = true then min 500 (s.scu.pulseAge + 1)
            else s.scu.pulseAge } ∧
        (s.mc.mode.controllersRun = false → t.shc = s.shc) ∧
        (s.mc.mode.controllersRun = true → t.shc = { s.shc with
          pedalHold := s.shc.pedalHold.map fun p => min 1000000 (p + 1) }) ∧
        t.lc.queue = s.lc.queue ∧ t.lc.link = s.lc.link ∧
        t.lc.listen = (if s.lc.link = .listen then min 500000 (s.lc.listen + 1) else s.lc.listen) ∧
        t.lc.muteTimer = (if s.lc.link = .muted then min 1000000 (s.lc.muteTimer + 1)
          else s.lc.muteTimer) ∧
        t.lc.quietTimer = (s.lc.quietTimer.map fun q => min 200000 (q + 1)) ∧
        (∀ g : PeerGroup, t.lc.freshness g = s.lc.freshness g ∧
          t.lc.since g = (if s.lc.takesFrames = true ∧ g ≠ .service
            then min 65535000 (s.lc.since g + 1) else s.lc.since g)) ∧
        t.mc = { s.mc with
          wakeTimer := if s.mc.mode = .awakeNoKey then min 30000000 (s.mc.wakeTimer + 1)
            else s.mc.wakeTimer } ∧
        Touches [.now, .clock, .sub, .scu, .sfe, .vdb, .shc, .lc, .mc] s t)

/-! ## The fault table (09) -/

/-- R181 to R183: what a raise, with or without a latch, a clear and a mark do to the fault table. -/
def Obligations.FaultTableOperations : Prop :=
  (∀ (c : FaultCode) (latch : Bool) (s t : State),
     t = (if latch then raiseLatched c s else raise c s) →
     Touches [.mc] s t ∧ t.mc.seconds = s.mc.seconds ∧ t.mc.mode = s.mc.mode ∧
     ((∀ e ∈ s.mc.faults, e.code ≠ c) → s.mc.faults.length < 16 →
       t.mc.faults = s.mc.faults ++ [⟨c, true, latch, 1, s.mc.seconds, s.mc.seconds⟩] ∧
       t.mc.full = s.mc.full) ∧
     ((∀ e ∈ s.mc.faults, e.code ≠ c) → s.mc.faults.length = 16 →
       ∀ (front back : List FaultEntry) (e : FaultEntry), s.mc.faults = front ++ e :: back →
         (∀ x ∈ front, x.present = true ∨ x.latched = true) → e.present = false → e.latched = false →
         t.mc.faults = front ++ back ++ [⟨c, true, latch, 1, s.mc.seconds, s.mc.seconds⟩] ∧
         t.mc.full = false) ∧
     ((∀ e ∈ s.mc.faults, e.code ≠ c) → s.mc.faults.length = 16 →
       (∀ x ∈ s.mc.faults, x.present = true ∨ x.latched = true) →
       t.mc.faults = s.mc.faults ∧ t.mc.full = true) ∧
     (∀ (front back : List FaultEntry) (e : FaultEntry), s.mc.faults = front ++ e :: back → e.code = c →
       (∀ x ∈ front ++ back, x.code ≠ c) →
       t.mc.faults = front ++ { e with present := true, latched := e.latched || latch,
                                       count := min 255 (e.count + 1), last := s.mc.seconds } :: back ∧
       t.mc.full = s.mc.full)) ∧
  (∀ (c : FaultCode) (s : State),
     Touches [.mc] s (clearFault c s) ∧ Touches [.mc] s (latchFault c s) ∧
     (clearFault c s).mc.full = s.mc.full ∧ (latchFault c s).mc.full = s.mc.full ∧
     ((∀ e ∈ s.mc.faults, e.code ≠ c) → clearFault c s = s ∧ latchFault c s = s) ∧
     (∀ (front back : List FaultEntry) (e : FaultEntry), s.mc.faults = front ++ e :: back → e.code = c →
       (∀ x ∈ front ++ back, x.code ≠ c) →
       (clearFault c s).mc.faults = front ++ { e with present := false } :: back ∧
       (latchFault c s).mc.faults = front ++ { e with latched := true } :: back))

/-- R54, R62, R156, R184: FAULT_ACKNOWLEDGE and FAULT_ACK release every latch, re-arm the latched outputs, each
of which trips again where its coil is still shorted, take a trailer out of BREAKAWAY, and leave in the table
what is still present (model's choices: log 48, log 81 for what is shorted, log 92 for the order). -/
def Obligations.AcknowledgementSweeps : Prop :=
  ∀ (c : Instr) (r : Request) (rest : List Request) (s : State),
    ((c = .faultAcknowledge ∧ OldestRequest Request.isAcknowledge r rest s) ∨
      (c = .faultAck ∧ OldestRequest (Request.isService 1) r rest s)) →
    s.mc.mode.delivers = true →
    ∃ t : State, exec c s = .next t ∧ t.requests = rest ∧
      (∀ e ∈ t.mc.faults, e.latched = false ∧ e.present = true) ∧
      ((∀ o : Output, (s.out o).short = .latched →
          coilShorted o s = false ∨ ∃ e ∈ s.mc.faults, e.code = .outShort o) →
        (t.mc.faults.map fun e => e.code).Sublist (s.mc.faults.map fun e => e.code)) ∧
      (∀ e ∈ s.mc.faults, e.present = true →
        (e.code = .trailerBreakaway → ¬(s.tbc.state = .breakaway ∧ s.mc.mode.controllersRun = true)) →
        (∀ o : Output, e.code = .outShort o →
          ¬((s.out o).short = .latched ∧ s.mc.mode.sensingRuns = true)) →
        { e with latched := false } ∈ t.mc.faults) ∧
      (s.mc.mode.sensingRuns = true → ∀ o : Output,
        (t.out o).short ≠ .latched ∧ ((s.out o).short = .retry → (t.out o).short = .retry) ∧
        (¬(s.tbc.state = .breakaway ∧ (o = .tcv ∨ o = .tsv)) →
          (t.out o).command = (s.out o).command) ∧
        ((s.out o).short = .latched → (t.out o).retries = 0 ∧
          (coilShorted o s = true → s.vdb.powered o = true → (s.out o).command ≠ 0 →
            (s.out o).withheld = false →
            (t.out o).short = .retry ∧ (t.out o).target = 0 ∧
            ∀ e ∈ s.mc.faults, e.code = .outShort o → e.present = true →
              { e with latched := false, present := true, count := min 255 (e.count + 1),
                       last := s.mc.seconds } ∈ t.mc.faults) ∧
          (coilShorted o s = false ∨ s.vdb.powered o = false ∨ (s.out o).command = 0 ∨
              (s.out o).withheld = true →
            (t.out o).short = .none ∧ (∀ e ∈ t.mc.faults, e.code ≠ .outShort o) ∧
            (s.vdb.powered o = true → (s.out o).withheld = false → o.onOff = false →
              (t.out o).target = (t.out o).command)))) ∧
      (s.mc.mode.sensingRuns = false → t.vdb = s.vdb) ∧
      (s.tbc.state ≠ .breakaway ∨ s.mc.mode.controllersRun = false → t.tbc = s.tbc) ∧
      (s.tbc.state = .breakaway → s.mc.mode.controllersRun = true →
        t.tbc.demand = 0 ∧ t.tbc.contributor = .none ∧ t.tbc.correction = 0 ∧
        t.tbc.coupled = s.tbc.coupled ∧ t.tbc.stopOrder = s.tbc.stopOrder ∧
        t.tbc.tcv = 0 ∧ (t.out .tcv).command = 0 ∧
        (∀ e ∈ t.mc.faults, e.code ≠ .trailerBreakaway) ∧
        (s.shc.state = .parked ∨ s.tbc.stopOrder = true →
          t.tbc.state = .parked ∧ t.tbc.tsvOn = false ∧ (t.out .tsv).command = 0) ∧
        (s.shc.state ≠ .parked → s.tbc.stopOrder = false → s.tbc.coupled = true →
          t.tbc.state = .charging ∧ t.tbc.timer = 0 ∧ t.tbc.tsvOn = true ∧ (t.out .tsv).command = 1) ∧
        (s.shc.state ≠ .parked → s.tbc.stopOrder = false → s.tbc.coupled = false →
          t.tbc.state = .absent ∧ t.tbc.tsvOn = false ∧ (t.out .tsv).command = 0)) ∧
      (∀ code tag : Byte, c = .faultAck → r = .service code tag → Answered 1 tag .done .none s t) ∧
      Touches [.vdb, .tbc, .lc, .mc, .requests] s t

/-! ## The valve driver bank (03) -/

/-- R47, R48, R50: what a command write stores and drives. -/
def Obligations.CommandWriteDrives : Prop :=
  ∀ (s : State) (o : Output) (v : Nat),
    ((writeCommand o v s).out o).command =
      (if o.onOff then (if v = 0 then 0 else 1) else min v (s.cfg.maxima.get o)) ∧
    (((writeCommand o v s).out o).command = (s.out o).command → writeCommand o v s = s) ∧
    (((writeCommand o v s).out o).command ≠ (s.out o).command →
      (s.vdb.blocked o = true → ((writeCommand o v s).out o).target = 0 ∧
        ((writeCommand o v s).out o).pullIn = none) ∧
      (s.vdb.blocked o = false → o.onOff = false →
        ((writeCommand o v s).out o).target = min v (s.cfg.maxima.get o)) ∧
      (s.vdb.blocked o = false → o.onOff = true → v = 0 → ((writeCommand o v s).out o).target = 0) ∧
      (s.vdb.blocked o = false → o.onOff = true → v ≠ 0 → (s.out o).target = 0 →
        ((writeCommand o v s).out o).target = 1500 ∧ ((writeCommand o v s).out o).pullIn = some 0)) ∧
    OutputsApart o s (writeCommand o v s) ∧ Touches [.vdb] s (writeCommand o v s)

/-- R49, R51, R52: SENSE_TIMER writes every measured current and counts one sample on each tested output;
OPEN_DETECTED and OPEN_RECOVERED turn the flag where a count stands at its 50 (model's choices: log 1; log 5
for the sample's form, log 71 for the quarter). -/
def Obligations.OpenCoilsFound : Prop :=
  (∀ (x : OutputTable CoilSample) (s : State), s.senseRuns = true →
     ∃ t : State, exec (.senseTimer x) s = .next t ∧
       (∀ o : Output,
         (s.vdb.powered o = false → t.out o = { s.out o with measured := 0 }) ∧
         (s.vdb.powered o = true → (s.out o).short ≠ .none →
           t.out o = { s.out o with measured := measuredAt (s.out o).target (x.get o) }) ∧
         (s.vdb.powered o = true → (s.out o).short = .none → (s.out o).openFlag = false →
           (¬ LooksOpen (s.out o).target (x.get o) →
             t.out o = { s.out o with measured := measuredAt (s.out o).target (x.get o), openCount := 0 }) ∧
           (LooksOpen (s.out o).target (x.get o) → (s.out o).openCount + 1 < 50 →
             t.out o = { s.out o with
               measured := measuredAt (s.out o).target (x.get o), openCount := (s.out o).openCount + 1 }) ∧
           (LooksOpen (s.out o).target (x.get o) → 50 ≤ (s.out o).openCount + 1 →
             t.out o = { s.out o with
               measured := measuredAt (s.out o).target (x.get o), openCount := 0, openFlag := true })) ∧
         (s.vdb.powered o = true → (s.out o).short = .none → (s.out o).openFlag = true →
           (LooksOpen (s.out o).target (x.get o) →
             t.out o = { s.out o with measured := measuredAt (s.out o).target (x.get o), recCount := 0 }) ∧
           (¬ LooksOpen (s.out o).target (x.get o) → (s.out o).recCount + 1 < 50 →
             t.out o = { s.out o with
               measured := measuredAt (s.out o).target (x.get o), recCount := (s.out o).recCount + 1 }) ∧
           (¬ LooksOpen (s.out o).target (x.get o) → 50 ≤ (s.out o).recCount + 1 →
             t.out o = { s.out o with
               measured := measuredAt (s.out o).target (x.get o), recCount := 0, openFlag := false }))) ∧
       t.vdb.supplies = s.vdb.supplies ∧ t.vdb.grant = s.vdb.grant ∧
       ((∀ o : Output, (t.out o).openFlag = (s.out o).openFlag) → t.mc = s.mc) ∧
       (∀ o : Output, (∀ p : Output, p ≠ o → (t.out p).openFlag = (s.out p).openFlag) →
         ((s.out o).openFlag = false → (t.out o).openFlag = true → t.mc = (raise (.outOpen o) s).mc) ∧
         ((s.out o).openFlag = true → (t.out o).openFlag = false →
           t.mc = (clearFault (.outOpen o) s).mc)) ∧
       Touches [.vdb, .mc] s t) ∧
  (∀ (o : Output) (s : State),
     ((s.out o).openFlag = false → 50 ≤ (s.out o).openCount →
       ∃ t : State, exec (.openDetected o) s = .next t ∧
         t.out o = { s.out o with openFlag := true, openCount := 0 } ∧
         t.mc = (raise (.outOpen o) s).mc ∧ OutputsApart o s t ∧ Touches [.vdb, .mc] s t) ∧
     ((s.out o).openFlag = true → 50 ≤ (s.out o).recCount →
       ∃ t : State, exec (.openRecovered o) s = .next t ∧
         t.out o = { s.out o with openFlag := false, recCount := 0 } ∧
         t.mc = (clearFault (.outOpen o) s).mc ∧ OutputsApart o s t ∧ Touches [.vdb, .mc] s t))

/-- R53, R54: SHORT_TRIP enters RETRY from NONE, counts a failed retry in a window, and latches at the
third; at a drive target of 0 nothing trips. -/
def Obligations.TripEntersRetryOrLatches : Prop :=
  ∀ (o : Output) (s : State),
    ((s.out o).target = 0 → exec (.shortTrip o) s = .next s) ∧
    ((s.out o).target ≠ 0 → (s.out o).short = .none →
      ∃ t : State, exec (.shortTrip o) s = .next t ∧
        (t.out o).short = .retry ∧ (t.out o).retries = 0 ∧ (t.out o).retryTimer = 0 ∧
        (t.out o).window = none ∧ (t.out o).target = 0 ∧ (t.out o).command = (s.out o).command ∧
        (t.out o).openFlag = (s.out o).openFlag ∧ (t.out o).withheld = (s.out o).withheld ∧
        t.mc = (raise (.outShort o) s).mc ∧ OutputsApart o s t ∧ Touches [.vdb, .mc] s t) ∧
    ((s.out o).target ≠ 0 → (s.out o).short = .retry → (s.out o).window.isSome = true →
      ∃ t : State, exec (.shortTrip o) s = .next t ∧
        (t.out o).retries = (s.out o).retries + 1 ∧ (t.out o).window = none ∧ (t.out o).target = 0 ∧
        (t.out o).command = (s.out o).command ∧ (t.out o).openFlag = (s.out o).openFlag ∧
        (t.out o).withheld = (s.out o).withheld ∧
        ((s.out o).retries + 1 = 3 → (t.out o).short = .latched ∧
          t.mc = (latchFault (.outShort o) (raise (.outShort o) s)).mc) ∧
        ((s.out o).retries + 1 ≠ 3 → (t.out o).short = .retry ∧ (t.out o).retryTimer = 0 ∧
          t.mc = (raise (.outShort o) s).mc) ∧
        OutputsApart o s t ∧ Touches [.vdb, .mc] s t)

/-- R50, R53: RETRY_TIMER_EXPIRY and DEFERRED_RETRY open the window of an output that could carry
current, RETRY_SUCCESS ends a window that lasted 100 ms, and PULL_IN_END brings an on/off output that
pulled in for 100 ms to 500 mA and changes nothing else (model's choices: log 1, 14, 18). -/
def Obligations.OutputTimersEnd : Prop :=
  (∀ (o : Output) (s : State),
     (∀ c : Instr, c = .retryTimerExpiry o ∨ c = .deferredRetry o →
       (s.out o).short = .retry → (s.out o).window = none → 1000000 ≤ (s.out o).retryTimer →
       (s.vdb.powered o = true ∧ (s.out o).command ≠ 0 ∧ (s.out o).withheld = false →
         (s.out o).target = 0 →
         ∃ t : State, exec c s = .next t ∧ (t.out o).window = some 0 ∧ (t.out o).short = .retry ∧
           (t.out o).retries = (s.out o).retries ∧ (t.out o).retryTimer = (s.out o).retryTimer ∧
           (t.out o).command = (s.out o).command ∧
           (o.onOff = false → (t.out o).target = (s.out o).command) ∧
           (o.onOff = true → (t.out o).target = 1500 ∧ (t.out o).pullIn = some 0) ∧
           OutputsApart o s t ∧ Touches [.vdb] s t) ∧
       (¬ (s.vdb.powered o = true ∧ (s.out o).command ≠ 0 ∧ (s.out o).withheld = false) →
         exec c s = .next s)) ∧
     ((s.out o).short = .retry → (∃ w : Nat, (s.out o).window = some w ∧ 100000 ≤ w) →
       ∃ t : State, exec (.retrySuccess o) s = .next t ∧ (t.out o).window = none ∧
         (t.out o).short = .none ∧ (t.out o).retries = 0 ∧ (t.out o).command = (s.out o).command ∧
         (s.vdb.powered o = true → (s.out o).withheld = false → o.onOff = false →
           (t.out o).target = (s.out o).command) ∧
         (s.vdb.powered o = true → (s.out o).withheld = false → o.onOff = true →
           (s.out o).command ≠ 0 → (s.out o).target ≠ 0 → (t.out o).target = (s.out o).target) ∧
         t.mc = (clearFault (.outShort o) s).mc ∧ OutputsApart o s t ∧ Touches [.vdb, .mc] s t)) ∧
  (∀ (o : Output) (s : State), (s.out o).target ≠ 0 → (∃ p : Nat, (s.out o).pullIn = some p ∧ 100000 ≤ p) →
     ∃ t : State, exec (.pullInEnd o) s = .next t ∧ t.out o = { s.out o with target := 500 } ∧
       OutputsApart o s t ∧ Touches [.vdb] s t)

/-- R55, R56, R209, R212: SUPPLY_RISE_COMPLETE enables the supply, drives its outputs, and lets the
sequence that waits for it step on: a restart ends with its result, and in CALIBRATING VSB ENABLED only lets
CALIBRATING_COMPLETE follow (model's choices: log 1 for CALIBRATING_COMPLETE where it is not due, log 14,
19). -/
def Obligations.SupplyRiseDrivesOutputs : Prop :=
  ∀ (x : Supply) (s : State), (s.supplyOf x).state = .rising → 20000 ≤ (s.supplyOf x).settle →
    ∃ t : State, exec (.supplyRiseComplete x) s = .next t ∧ (t.supplyOf x).state = .enabled ∧
      (∀ o : Output, (t.out o).command = (s.out o).command ∧ (t.out o).short = (s.out o).short ∧
        (t.out o).openFlag = (s.out o).openFlag ∧ (t.out o).withheld = (s.out o).withheld) ∧
      (∀ o : Output, o.supply = x → (t.out o).openCount = 0 ∧
        ((s.out o).short = .none → (s.out o).withheld = false → o.onOff = false →
          (t.out o).target = (s.out o).command) ∧
        ((s.out o).short = .none → (s.out o).withheld = false → o.onOff = true →
          (s.out o).command ≠ 0 → (s.out o).target = 0 →
          (t.out o).target = 1500 ∧ (t.out o).pullIn = some 0) ∧
        ((s.out o).short = .latched ∨ (s.out o).withheld = true → (t.out o).target = 0)) ∧
      (∀ o : Output, o.supply ≠ x → t.out o = s.out o) ∧ t.vdb.grant = s.vdb.grant ∧
      (s.mc.step = .idle → Touches [.vdb] s t ∧ ∀ y : Supply, y ≠ x → t.supplyOf y = s.supplyOf y) ∧
      (x = .vsa → s.mc.step = .calVsa ∨ s.mc.step = .onVsa →
        t.mc.step = (if s.mc.step = .calVsa then .calVsb else .onVsb) ∧
        ((s.supplyOf .vsb).state = .off → (t.supplyOf .vsb).state = .rising) ∧
        Touches [.vdb, .mc] s t) ∧
      (x = .vsb → s.mc.step = .onVsb →
        t.mc.mode = .operating ∧ t.mc.step = .idle ∧ t.shc.starting = true ∧
        t.mc.faults = s.mc.faults ∧ t.mc.restartTag = none ∧
        (∀ tag : Byte, s.mc.restartTag = some tag → Answered 4 tag .done .none s t) ∧
        Touches [.vdb, .shc, .lc, .mc] s t) ∧
      (x = .vsb → s.mc.step = .calVsb →
        Touches [.vdb] s t ∧ t.supplyOf .vsa = s.supplyOf .vsa ∧
        exec .calibratingComplete s = .next s ∧
        ∀ ends : Prop, (ends ↔ s.mc.mode = .calibrating ∧ s.mc.windowEnded = true ∧
            (s.sfe.cal.state = .done ∨ s.sfe.cal.state = .failed)) →
          (ends → ∃ u : State, exec .calibratingComplete t = .next u ∧ u.mc.mode = .operating ∧
            u.mc.step = .idle ∧ u.shc.starting = true ∧ Touches [.shc, .lc, .mc] t u) ∧
          (¬ ends → exec .calibratingComplete t = .next t))

/-- R55, R143, R210, R211, R212: SUPPLY_FALL_COMPLETE opens the switch, closes it again for a pending on
request, and where it stays OFF lets the sequence that waits step on (model's choices: log 14, 20, and log 96 for
the entry of LINK_MUTED, which the off order leaves). -/
def Obligations.SupplyFallStepsSequence : Prop :=
  ∀ (x : Supply) (k : Bool) (s : State), (s.supplyOf x).state = .falling →
    10000 ≤ (s.supplyOf x).settle →
    ∃ t : State, exec (.supplyFallComplete x k) s = .next t ∧ t.pins = { s.pins with coupling := k } ∧
      ((s.supplyOf x).pendingOn = true →
        t.supplyOf x = { state := .rising, settle := 0, pendingOn := false } ∧
        t.vdb.outs = s.vdb.outs ∧ Touches [.pins, .vdb] s t) ∧
      ((s.supplyOf x).pendingOn = false →
        (s.mc.step = .idle → (t.supplyOf x).state = .off ∧ t.vdb.outs = s.vdb.outs ∧
          Touches [.pins, .vdb] s t) ∧
        (x = .vsb → s.mc.step = .stopVsb ∨ s.mc.step = .offVsb → (s.supplyOf .vsa).state = .enabled →
          t.mc.step = (if s.mc.step = .stopVsb then .stopVsa else .offVsa) ∧
          (t.supplyOf .vsb).state = .off ∧ (t.supplyOf .vsa).state = .falling ∧
          (∀ o : Output, o.supply = .vsa → (t.out o).command = 0 ∧ (t.out o).target = 0) ∧
          Touches [.pins, .vdb, .mc] s t) ∧
        (x = .vsa → s.mc.step = .stopVsa →
          (t.supplyOf .vsa).state = .off ∧ t.mc.mode = .dormant ∧ t.mc.step = .idle ∧
          t.lc.queue = [] ∧ t.lc.link ≠ .active ∧ t.scu.acc = 0 ∧ t.scu.pulseHigh = false ∧
          t.mc.faults = s.mc.faults ∧ t.vdb.outs = s.vdb.outs) ∧
        (x = .vsa → s.mc.step = .offVsa →
          (t.supplyOf .vsa).state = .rising ∧ t.mc.step = .onVsa ∧
          (∀ o : Output, t.out o = .reset) ∧
          t.vdb.grant = { suspended := false, cause := none, count := s.vdb.grant.count } ∧
          t.shc.state = .parked ∧ t.shc.lever = .park ∧ t.shc.selected = some s.cfg.startGear ∧
          (∀ y : Clutch, (t.clutch y).learned = (s.clutch y).learned ∧ (t.clutch y).state = .off) ∧
          t.fdc = .reset ∧ t.htc.state = .startLock ∧ t.htc.lockReleased = false ∧
          t.htc.hrv = 0 ∧ t.htc.hlv = 0 ∧ t.htc.dAvg = 0 ∧ t.htc.reload = true ∧ t.htc.slipOn = false ∧
          t.htc.position = s.sfe.chans.hps.value ∧ t.htc.posValid = s.sfe.posValid ∧
          t.htc.draft = s.sfe.chans.drl.value + s.sfe.chans.drr.value ∧
          (t.htc.draftValid = true ↔ s.sfe.chans.drl.state = .valid ∧ s.sfe.chans.drr.state = .valid ∧
            s.sfe.chans.drl.atLimit = false ∧ s.sfe.chans.drr.atLimit = false) ∧
          (t.htc.pinLeft = true ↔ s.sfe.chans.drl.cmp = .high) ∧
          (t.htc.pinRight = true ↔ s.sfe.chans.drr.cmp = .high) ∧
          t.tbc.state = .parked ∧ t.tbc.coupled = k ∧ t.tbc.brake = none ∧ t.tbc.demand = 0 ∧
          t.tbc.tcl = s.sfe.chans.tcl.value ∧ t.tbc.tclState = s.sfe.chans.tcl.state ∧
          t.tbc.tsl = s.sfe.chans.tsl.value ∧ t.tbc.tslState = s.sfe.chans.tsl.state ∧
          t.hsq = .reset ∧ t.scu = s.scu ∧ t.sfe = s.sfe ∧ t.mc.seconds = s.mc.seconds ∧
          t.mc.full = s.mc.full))

/-- R58 to R60: what the grant does at a SUP event (GRANT_SUP_EVENT) while the SFE runs, and when the TBC
has written a demand. -/
def Obligations.GrantYieldsToTrailer : Prop :=
  (∀ (ev : SfeEvent) (rest : List Delivery) (s : State), s.mc.mode.sensingRuns = true →
    OldestEvent .vdb .sup ev rest s →
    ∃ t : State, exec .grantSupEvent s = .next t ∧ t.events = rest ∧ Touches [.vdb, .events] s t ∧
      GrantFrame s t ∧
      (s.vdb.grant.suspended = false →
        (ev = .lowEnter ∨ ev = .failed → 50 ≤ s.tbc.demand → s.sfe.chans.sup.cmp = .low →
          t.vdb.grant = ⟨true, some .lowPressure, min 65535 (s.vdb.grant.count + 1)⟩) ∧
        (ev = .lowEnter ∨ ev = .failed → 50 ≤ s.tbc.demand → s.sfe.chans.sup.cmp ≠ .low →
          s.sfe.chans.sup.state = .failed ∨ s.sfe.chans.sup.state = .off →
          t.vdb.grant = ⟨true, some .supplyUnknown, min 65535 (s.vdb.grant.count + 1)⟩) ∧
        ((ev ≠ .lowEnter ∧ ev ≠ .failed) ∨ s.tbc.demand < 50 ∨
          (s.sfe.chans.sup.cmp ≠ .low ∧ s.sfe.chans.sup.state ≠ .failed ∧
            s.sfe.chans.sup.state ≠ .off) → t.vdb = s.vdb)) ∧
      (s.vdb.grant.suspended = true →
        (ev = .lowLeave → s.vdb.grant.cause ≠ some .supplyUnknown →
          t.vdb.grant = ⟨false, none, s.vdb.grant.count⟩) ∧
        (ev ≠ .lowLeave ∨ s.vdb.grant.cause = some .supplyUnknown → t.vdb = s.vdb))) ∧
  (∀ s : State, Touches [.vdb] s (grantOnDemand s) ∧ GrantFrame s (grantOnDemand s) ∧
    (s.vdb.grant.suspended = true → s.tbc.demand < 50 →
      (grantOnDemand s).vdb.grant = ⟨false, none, s.vdb.grant.count⟩) ∧
    (s.vdb.grant.suspended = true → 50 ≤ s.tbc.demand → grantOnDemand s = s) ∧
    (s.vdb.grant.suspended = false → s.tbc.demand < 50 → grantOnDemand s = s) ∧
    (s.vdb.grant.suspended = false → 50 ≤ s.tbc.demand → s.sfe.chans.sup.cmp = .low →
      (grantOnDemand s).vdb.grant = ⟨true, some .lowPressure, min 65535 (s.vdb.grant.count + 1)⟩) ∧
    (s.vdb.grant.suspended = false → 50 ≤ s.tbc.demand → s.sfe.chans.sup.cmp ≠ .low →
      s.sfe.chans.sup.state = .failed ∨ s.sfe.chans.sup.state = .off →
      (grantOnDemand s).vdb.grant = ⟨true, some .supplyUnknown, min 65535 (s.vdb.grant.count + 1)⟩) ∧
    (s.vdb.grant.suspended = false → 50 ≤ s.tbc.demand → s.sfe.chans.sup.cmp ≠ .low →
      s.sfe.chans.sup.state ≠ .failed → s.sfe.chans.sup.state ≠ .off → grantOnDemand s = s))

/-! ## The speed capture unit (01) -/

/-- R3: PULSE_EDGE at a fitted channel. -/
def Obligations.PulseEdgeTaken : Prop :=
  ∀ (c : PulseChannel) (s : State), s.mc.mode.sensingRuns = true → s.fitted c = true →
    ∃ t : State, exec (.pulseEdge c) s = .next t ∧
      ((s.chan c).refPresent = false →
        t.chan c = { s.chan c with refPresent := true, refStamp := s.now, newest := s.now, count := 0 }) ∧
      ((s.chan c).refPresent = true →
        (s.now - (s.chan c).newest).toNat < (s.cfg.pulse.get c).minSpacing → t.chan c = s.chan c) ∧
      ((s.chan c).refPresent = true →
        (s.cfg.pulse.get c).minSpacing ≤ (s.now - (s.chan c).newest).toNat →
        t.chan c = { s.chan c with count := (s.chan c).count + 1, newest := s.now }) ∧
      (∀ d : PulseChannel, d ≠ c → t.chan d = s.chan d) ∧
      t.scu = { s.scu with chans := t.scu.chans } ∧ Touches [.scu] s t

/-- R2, R5, R6: the speeds that SPEED_EVALUATION gives each channel. At no silence at all the manual's
ceiling divides by 0 and nothing is said here (model's choices: log 17). -/
def Obligations.SpeedsOfEvaluation : Prop :=
  ∀ s : State, s.mc.mode.sensingRuns = true →
    ∃ t : State, exec .speedEvaluation s = .next t ∧ Touches [.scu, .mc] s t ∧
      t.scu.acc = s.scu.acc ∧ t.scu.pulseHigh = s.scu.pulseHigh ∧
      (∀ (c : PulseChannel) (r u : PulseRec) (k : PulseCfg), r = s.chan c → u = t.chan c →
        k = s.cfg.pulse.get c →
        (s.fitted c = false → u.travel = 0 ∧ u.shaft = 0 ∧ u.motion = .stopped ∧
          (r.lost = false → u.lost = false)) ∧
        (s.fitted c = true → 1 ≤ r.count →
          u.motion = .moving ∧ u.count = 0 ∧ u.refStamp = r.newest ∧ u.newest = r.newest ∧
          (c ≠ .inp →
            u.travel = min 32767 (r.count * k.travelPer * 1000 / (r.newest - r.refStamp).toNat)) ∧
          (c = .inp ∨ c = .out →
            u.shaft = min 8000 (r.count * 60000000 / (k.perRev * (r.newest - r.refStamp).toNat)))) ∧
        (s.fitted c = true → r.count = 0 → r.refPresent = false →
          u.travel = 0 ∧ u.shaft = 0 ∧ u.motion = .stopped) ∧
        (s.fitted c = true → r.count = 0 → r.refPresent = true →
          1000000 ≤ (s.now - r.refStamp).toNat →
          u.travel = 0 ∧ u.shaft = 0 ∧ u.motion = .stopped ∧ u.refPresent = false) ∧
        (s.fitted c = true → r.count = 0 → r.refPresent = true →
          0 < (s.now - r.refStamp).toNat → (s.now - r.refStamp).toNat < 1000000 →
          u.motion = r.motion ∧ u.refPresent = true ∧ u.refStamp = r.refStamp ∧
          (c ≠ .inp →
            u.travel = min r.travel (min 32767 (k.travelPer * 1000 / (s.now - r.refStamp).toNat))) ∧
          (c = .inp ∨ c = .out →
            u.shaft = min r.shaft (min 8000 (60000000 / (k.perRev * (s.now - r.refStamp).toNat))))))

/-- R7 to R9: what SPEED_EVALUATION counts toward the loss and the recovery of a channel, from the speeds
and lost flags that the evaluation leaves (model's choices: log 16), and CHANNEL_LOST and CHANNEL_RECOVERED where a
timer stands at its limit (model's choices: log 1). -/
def Obligations.LossAndRecovery : Prop :=
  (∀ s : State, s.mc.mode.sensingRuns = true →
     ∃ t : State, exec .speedEvaluation s = .next t ∧
       (∀ (c : PulseChannel) (limit : Nat) (evidence : Prop),
         limit = (if c = .inp then 100 else 200) →
         (evidence ↔ (t.chan c).motion = .stopped ∧ match c with
           | .out => s.shc.state = .inGear ∧ s.shc.pedal ≤ 10 ∧ 800 < (t.chan .inp).shaft
           | .frt => 1500 < (t.chan .out).travel
           | .rad => 1500 < (t.chan .out).travel ∧ 1000 < (t.chan .frt).travel
           | .inp => ∃ n : Nat, s.engineSpeed = some n ∧ 800 < n) →
         s.fitted c = true → (s.chan c).lost = false →
         (evidence → (s.chan c).lossTimer + 1 < limit →
           (t.chan c).lost = false ∧ (t.chan c).lossTimer = (s.chan c).lossTimer + 1) ∧
         (evidence → limit ≤ (s.chan c).lossTimer + 1 →
           (t.chan c).lost = true ∧ (t.chan c).lossTimer = 0) ∧
         (¬ evidence → (t.chan c).lost = false ∧ (t.chan c).lossTimer = 0)) ∧
       (∀ (c : PulseChannel) (near : Prop),
         (near ↔ ∃ v e : Nat, ((v : Int) - e).natAbs * 5 ≤ e ∧ match c with
           | .out => v = (t.chan .out).shaft ∧ s.shc.state = .inGear ∧ s.shc.pedal ≤ 10 ∧
               800 < (t.chan .inp).shaft ∧ (t.chan .inp).lost = false ∧
               ∃ g : Gear, s.shc.current = some g ∧ e = (t.chan .inp).shaft * 1000 / s.cfg.ratioOf g
           | .frt => v = (t.chan .frt).travel ∧ 1500 < (t.chan .out).travel ∧
               (t.chan .out).lost = false ∧ e = (t.chan .out).travel
           | .rad => v = (t.chan .rad).travel ∧ 1000 < (t.chan .frt).travel ∧
               (t.chan .frt).lost = false ∧ e = (t.chan .frt).travel
           | .inp => v = (t.chan .inp).shaft ∧ s.engineSpeed = some e ∧ 800 < e) →
         (s.chan c).lost = true →
         (near → (s.chan c).recTimer + 1 < 200 →
           (t.chan c).lost = true ∧ (t.chan c).recTimer = (s.chan c).recTimer + 1) ∧
         (near → 200 ≤ (s.chan c).recTimer + 1 → (t.chan c).lost = false ∧ (t.chan c).recTimer = 0) ∧
         (¬ near → (t.chan c).lost = true ∧ (t.chan c).recTimer = 0)) ∧
       ((∀ c : PulseChannel, (t.chan c).lost = (s.chan c).lost) → t.mc = s.mc) ∧
       (∀ c : PulseChannel, (∀ d : PulseChannel, d ≠ c → (t.chan d).lost = (s.chan d).lost) →
         ((s.chan c).lost = false → (t.chan c).lost = true → t.mc = (raise (.lost c) s).mc) ∧
         ((s.chan c).lost = true → (t.chan c).lost = false → t.mc = (clearFault (.lost c) s).mc))) ∧
  (∀ (c : PulseChannel) (s : State), s.mc.mode.sensingRuns = true →
     (s.fitted c = true → (s.chan c).lost = false →
       (if c = .inp then 100 else 200) ≤ (s.chan c).lossTimer →
       ∃ t : State, exec (.channelLost c) s = .next t ∧
         t.chan c = { s.chan c with lost := true, lossTimer := 0, recTimer := 0 } ∧
         t.mc = (raise (.lost c) s).mc ∧ (∀ d : PulseChannel, d ≠ c → t.chan d = s.chan d) ∧
         t.scu.motion = s.scu.motion ∧ Touches [.scu, .mc] s t) ∧
     ((s.chan c).lost = true → 200 ≤ (s.chan c).recTimer →
       ∃ t : State, exec (.channelRecovered c) s = .next t ∧
         t.chan c = { s.chan c with lost := false, recTimer := 0 } ∧
         t.mc = (clearFault (.lost c) s).mc ∧ (∀ d : PulseChannel, d ≠ c → t.chan d = s.chan d) ∧
         t.scu.motion = s.scu.motion ∧ Touches [.scu, .mc] s t))

/-- R10 to R18, R21: the motion record that SPEED_EVALUATION leaves, from the channels as it leaves them
(model's choices: log 67 for both direction clutches LOCKED). -/
def Obligations.MotionRecordOfEvaluation : Prop :=
  ∀ s : State, s.mc.mode.sensingRuns = true →
    ∃ t : State, exec .speedEvaluation s = .next t ∧
      ∀ (m old : MotionRec), m = t.scu.motion → old = s.scu.motion →
        m.vRear = (t.chan .out).travel ∧ m.rearVal = (t.chan .out).validity ∧
        m.vFront = (t.chan .frt).travel ∧ m.frontVal = (t.chan .frt).validity ∧
        m.vRadar = (t.chan .rad).travel ∧ m.radarVal = (t.chan .rad).validity ∧
        m.inpRpm = (t.chan .inp).shaft ∧ m.inputVal = (t.chan .inp).validity ∧
        m.outRpm = (t.chan .out).shaft ∧ m.radarFitted = s.cfg.radFitted ∧
        (m.source = .radar ↔ s.cfg.radFitted = true ∧ (t.chan .rad).lost = false) ∧
        (m.source = .front ↔ ¬(s.cfg.radFitted = true ∧ (t.chan .rad).lost = false) ∧
          (t.chan .frt).lost = false ∧ s.fdc.state = .released ∧ 500 ≤ s.fdc.time) ∧
        (m.source = .radar → m.vGround = m.vRadar) ∧ (m.source = .front → m.vGround = m.vFront) ∧
        (m.source = .none → m.vGround = m.vRear) ∧
        (m.slipVal = .unavailable ↔ m.source = .none) ∧
        (m.slipVal = .lowSpeed ↔ m.source ≠ .none ∧ m.vRear < 500 ∧ m.vGround < 500) ∧
        (m.slipVal ≠ .valid → m.slip = 0) ∧
        (m.slipVal = .valid → m.vGround ≤ m.vRear →
          m.slip = (((m.vRear - m.vGround) * 1000 / m.vRear : Nat) : Int)) ∧
        (m.slipVal = .valid → m.vRear < m.vGround →
          m.slip = -(((m.vGround - m.vRear) * 1000 / m.vGround : Nat) : Int)) ∧
        (-1000 ≤ m.slip ∧ m.slip ≤ 1000) ∧
        (m.slipVal = .valid → m.source ≠ old.source ∨ old.slipVal ≠ .valid → m.filtered = m.slip) ∧
        (m.slipVal = .valid → m.source = old.source → old.slipVal = .valid →
          ∀ x : Int, x = 7 * old.filtered + m.slip →
            (0 ≤ x → 8 * m.filtered ≤ x + 4 ∧ x - 4 < 8 * m.filtered) ∧
            (x < 0 → x - 4 ≤ 8 * m.filtered ∧ 8 * m.filtered < x + 4)) ∧
        (m.slipVal = .lowSpeed → m.filtered = 0) ∧
        (m.slipVal = .unavailable → m.filtered = old.filtered) ∧
        (m.standstill = true ↔ m.vRear < 100 ∧ (m.source = .none ∨ m.vGround < 100)) ∧
        (m.direction = .forward ↔ s.shc.clutches.fwd.state = .locked) ∧
        (m.direction = .reverse ↔
          s.shc.clutches.fwd.state ≠ .locked ∧ s.shc.clutches.rev.state = .locked) ∧
        m.travel.toNat = (old.travel.toNat + 10 * m.vGround) % 2 ^ 32

/-- R19, R20: GROUND_PULSE_TIMER counts the ground speed into pulses, and GROUND_PULSE_END ends one that has
lasted 500 µs. That this row acts wherever it is due, in any mode (log 1) and however late (log 14), is the
model's choice. -/
def Obligations.GroundPulseOutput : Prop :=
  ∀ s : State,
    (s.mc.mode.sensingRuns = true → ∀ pitch sum rest : Nat,
      pitch = s.cfg.pulsePitch → sum = s.scu.acc + s.scu.motion.vGround →
      rest = (if pitch ≤ sum then sum - pitch else sum) →
      ∃ t : State, exec .groundPulseTimer s = .next t ∧
        t.scu = { s.scu with
          acc := if 2 * pitch ≤ rest then pitch - 1 else rest
          pulseHigh := if pitch ≤ sum then true else s.scu.pulseHigh
          pulseAge := if pitch ≤ sum then 0 else s.scu.pulseAge } ∧
        Touches [.scu] s t) ∧
    (s.scu.pulseHigh = true → 500 ≤ s.scu.pulseAge →
      ∃ t : State, exec .groundPulseEnd s = .next t ∧ t.scu = { s.scu with pulseHigh := false } ∧
        Touches [.scu] s t)

/-! ## The sensor front end (02) -/

/-- R28, R31, R32, R33, R34: the run count and the sinc filters at one clock, STREAM_FAILED at 64 clocks without
a change, and STREAM_RECOVERY after 1,000 healthy clocks (model's choices: log 2, 3). -/
def Obligations.StreamWatchdog : Prop :=
  ∀ (x : Sensor) (s : State), s.mc.mode.sensingRuns = true →
    (s.pending = [] → (s.sensor x).state ≠ .off →
      ∃ t : State, step s = .next t ∧
        ∀ b : Bool, b = Config.moduleBit (Sensor.number x) s.clock →
          (t.sensor x).lastBit = some b ∧ (t.sensor x).state = (s.sensor x).state ∧
          (t.sensor x).value = (s.sensor x).value ∧ (t.sensor x).cmp = (s.sensor x).cmp ∧
          ((s.sensor x).lastBit = some b → (t.sensor x).runCount = min 64 ((s.sensor x).runCount + 1)) ∧
          ((s.sensor x).lastBit ≠ some b → (t.sensor x).runCount = 0) ∧
          ((s.sensor x).state = .failed → (t.sensor x).recCount =
              (if (t.sensor x).runCount < 64 then min 1000 ((s.sensor x).recCount + 1) else 0) ∧
            (t.sensor x).main = (s.sensor x).main ∧ (t.sensor x).fast = (s.sensor x).fast ∧
            (t.sensor x).mainDone = (s.sensor x).mainDone ∧
            (t.sensor x).fastDone = (s.sensor x).fastDone) ∧
          ((s.sensor x).state = .starting ∨ (s.sensor x).state = .valid →
            (t.sensor x).recCount = (s.sensor x).recCount ∧
            (∃ out : Option Int,
              SincTakes (s.cfg.sensors.get x).fastOsr b (s.sensor x).fast (t.sensor x).fast out ∧
              (t.sensor x).fastDone = (if out = none then (s.sensor x).fastDone else out)) ∧
            (x ≠ .hps → ∃ out : Option Int,
              SincTakes (s.cfg.sensors.get x).mainOsr b (s.sensor x).main (t.sensor x).main out ∧
              (t.sensor x).mainDone = (if out = none then (s.sensor x).mainDone else out)) ∧
            (x = .hps → (t.sensor x).main = (s.sensor x).main ∧
              (t.sensor x).mainDone = (s.sensor x).mainDone))) ∧
    ((s.sensor x).state = .starting ∨ (s.sensor x).state = .valid → 64 ≤ (s.sensor x).runCount →
      ∃ t : State, exec (.streamFailed x) s = .next t ∧
        t.sensor x = { s.sensor x with state := .failed, cmp := .inRange, recCount := 0 } ∧
        t.mc = (raise (.stream x) s).mc ∧ t.events = s.events ++ told x .failed 0 s ∧
        (∀ y : Sensor, y ≠ x → t.sensor y = s.sensor y) ∧
        (x = .hps → t.sfe.posValid = false ∧ t.sfe.amplitude = none ∧ t.sfe.cal.signs = []) ∧
        Touches [.sfe, .mc, .events] s t) ∧
    ((s.sensor x).state = .failed → 1000 ≤ (s.sensor x).recCount →
      ∃ t : State, exec (.streamRecovery x) s = .next t ∧
        (t.sensor x).state = .starting ∧ (t.sensor x).discard = 3 ∧ (t.sensor x).lastBit = none ∧
        (t.sensor x).value = (s.sensor x).value ∧ (t.sensor x).atLimit = (s.sensor x).atLimit ∧
        (t.sensor x).main = .clear (s.cfg.sensors.get x).mainOrder ∧
        (t.sensor x).fast = .clear (s.cfg.sensors.get x).fastOrder ∧
        t.mc = (clearFault (.stream x) s).mc ∧ t.events = s.events ++ told x .starting 0 s ∧
        (∀ y : Sensor, y ≠ x → t.sensor y = s.sensor y) ∧ Touches [.sfe, .mc, .events] s t)

/-- R29, R30, R33: MAIN_OUTPUT converts a raw output of a VALID channel and discards one of a STARTING
channel, the third of which makes it VALID (model's choices: log 2). -/
def Obligations.MainOutputConverted : Prop :=
  ∀ (x : Sensor) (raw : Int) (s : State), s.mc.mode.sensingRuns = true → x ≠ .hps →
    (s.sensor x).mainDone = some raw →
    ∃ t : State, exec (.mainOutput x) s = .next t ∧
      ((s.sensor x).state = .valid → ∀ (c : SensorCfg) (v : Int), c = s.cfg.sensors.get x →
        v = engineering c c.mainOrder c.mainOsr raw →
        t.sensor x = { s.sensor x with
          mainDone := none, value := max x.range.1 (min x.range.2 v)
          atLimit := decide (v < x.range.1 ∨ x.range.2 < v) } ∧ t.events = s.events) ∧
      ((s.sensor x).state = .starting → 1 < (s.sensor x).discard →
        t.sensor x = { s.sensor x with mainDone := none, discard := (s.sensor x).discard - 1 } ∧
        t.events = s.events) ∧
      ((s.sensor x).state = .starting → (s.sensor x).discard ≤ 1 →
        t.sensor x = { s.sensor x with mainDone := none, discard := 0, state := .valid,
                                       cmp := .inRange } ∧
        t.events = s.events ++ told x .valid 0 s) ∧
      (∀ y : Sensor, y ≠ x → t.sensor y = s.sensor y) ∧ t.sfe.cal = s.sfe.cal ∧
      t.sfe.posValid = s.sfe.posValid ∧ Touches [.sfe, .events] s t

/-- R30, R34 to R39: FAST_OUTPUT tests the comparator of a VALID channel, LOW before HIGH, gives HPS its
slot value, and discards one of a STARTING HPS, the third of which makes it VALID (model's choices: log 2). -/
def Obligations.FastOutputCompared : Prop :=
  ∀ (x : Sensor) (raw : Int) (s : State), s.mc.mode.sensingRuns = true →
    (s.sensor x).fastDone = some raw →
    ∃ t : State, exec (.fastOutput x) s = .next t ∧ Touches [.sfe, .events] s t ∧
      (∀ y : Sensor, y ≠ x → t.sensor y = s.sensor y) ∧
      (t.sensor x).value = (s.sensor x).value ∧ (t.sensor x).atLimit = (s.sensor x).atLimit ∧
      (t.sensor x).fastDone = none ∧
      (x = .hps → ∀ c : SensorCfg, c = s.cfg.sensors.hps →
        t.sfe.slotValue = Int.tdiv (raw * 65536) (c.fastOsr ^ c.fastOrder : Nat) - 32768) ∧
      (x = .hps → (s.sensor x).state = .starting →
        (1 < (s.sensor x).discard → (t.sensor x).discard = (s.sensor x).discard - 1 ∧
          (t.sensor x).state = .starting ∧ t.events = s.events) ∧
        ((s.sensor x).discard ≤ 1 → (t.sensor x).discard = 0 ∧ (t.sensor x).state = .valid ∧
          (t.sensor x).cmp = .inRange ∧ t.events = s.events ++ told x .valid 0 s)) ∧
      (x = .hps → (s.sensor x).state ≠ .starting →
        (t.sensor x).state = (s.sensor x).state ∧ t.events = s.events) ∧
      (x ≠ .hps → (s.sensor x).state ≠ .valid →
        t.events = s.events ∧ (t.sensor x).cmp = (s.sensor x).cmp) ∧
      (x ≠ .hps → (s.sensor x).state = .valid →
        ∀ (c : SensorCfg) (v : Int), c = s.cfg.sensors.get x → (c.highOn = true → 0 ≤ c.highHyst) →
          (c.lowOn = true → 0 ≤ c.lowHyst) →
          (c.lowOn = true → c.highOn = true → c.low + c.lowHyst < c.high - c.highHyst) →
          v = max x.range.1 (min x.range.2 (engineering c c.fastOrder c.fastOsr raw)) →
          ((s.sensor x).cmp = .inRange → c.lowOn = true → v ≤ c.low →
            (t.sensor x).cmp = .low ∧ t.events = s.events ++ told x .lowEnter v s) ∧
          ((s.sensor x).cmp = .inRange → c.highOn = true → c.high ≤ v →
            (t.sensor x).cmp = .high ∧ t.events = s.events ++ told x .highEnter v s) ∧
          ((s.sensor x).cmp = .inRange → ¬(c.lowOn = true ∧ v ≤ c.low) →
            ¬(c.highOn = true ∧ c.high ≤ v) → (t.sensor x).cmp = .inRange ∧ t.events = s.events) ∧
          ((s.sensor x).cmp = .high → c.high - c.highHyst ≤ v →
            (t.sensor x).cmp = .high ∧ t.events = s.events) ∧
          ((s.sensor x).cmp = .high → v < c.high - c.highHyst → ¬(c.lowOn = true ∧ v ≤ c.low) →
            (t.sensor x).cmp = .inRange ∧ t.events = s.events ++ told x .highLeave v s) ∧
          ((s.sensor x).cmp = .high → v < c.high - c.highHyst → c.lowOn = true → v ≤ c.low →
            (t.sensor x).cmp = .low ∧
            t.events = s.events ++ told x .highLeave v s ++ told x .lowEnter v s) ∧
          ((s.sensor x).cmp = .low → v ≤ c.low + c.lowHyst →
            (t.sensor x).cmp = .low ∧ t.events = s.events) ∧
          ((s.sensor x).cmp = .low → c.low + c.lowHyst < v → ¬(c.highOn = true ∧ c.high ≤ v) →
            (t.sensor x).cmp = .inRange ∧ t.events = s.events ++ told x .lowLeave v s) ∧
          ((s.sensor x).cmp = .low → c.low + c.lowHyst < v → c.highOn = true → c.high ≤ v →
            (t.sensor x).cmp = .high ∧
            t.events = s.events ++ told x .lowLeave v s ++ told x .highEnter v s))

/-- R27, R40, R43: the coil follows the pattern bit being played, and is idle with the clock while the SFE
does not run; EXCITATION_SLOT moves to the next pattern bit, adds the slot to the amplitude of a DONE
calibration, and at a period's end writes the position. -/
def Obligations.PositionDemodulated : Prop :=
  (∀ s : State,
    (s.mc.mode.sensingRuns = true → s.clockDriven = true ∧ ∀ b : Bool,
      s.cfg.pattern[s.sfe.slot]? = some b → s.coilDrive = (if b = true then .positive else .negative)) ∧
    (s.mc.mode.sensingRuns = false →
      s.clockDriven = false ∧ s.coilDrive = .idle ∧ exec .excitationSlot s = .next s)) ∧
  ∀ s : State, s.mc.mode.sensingRuns = true → s.sfe.cal.state ≠ .running →
    ∃ t : State, exec .excitationSlot s = .next t ∧ Touches [.sfe] s t ∧
      (∀ y : Sensor, y ≠ .hps → t.sensor y = s.sensor y) ∧
      (∀ len : Nat, len = s.cfg.pattern.length →
        (s.sfe.slot + 1 < len → t.sfe.slot = s.sfe.slot + 1) ∧
        (len ≤ s.sfe.slot + 1 → t.sfe.slot = 0 ∧
          t.sfe.amplitude = (if s.sfe.cal.state = .done ∧ (s.sensor .hps).state = .valid then some 0
            else none)) ∧
        (∀ (a : Int) (d : Nat) (sum : Int), s.sfe.amplitude = some a → s.sfe.cal.offset = some d →
          sum = a + s.sfe.slotValue *
            (if s.cfg.pattern.getD ((s.sfe.slot + len - d) % len) false = true then 1 else -1) →
          (s.sfe.slot + 1 < len → t.sfe.amplitude = some sum ∧ t.sensor .hps = s.sensor .hps ∧
            t.sfe.posValid = s.sfe.posValid) ∧
          (len ≤ s.sfe.slot + 1 → ∀ p : Int,
            p = Int.tdiv ((sum - s.cfg.aBottom) * 1000) (s.cfg.aTop - s.cfg.aBottom) →
            t.sensor .hps = { s.sensor .hps with
              value := max 0 (min 1000 p), atLimit := decide (p < 0 ∨ 1000 < p) } ∧
            t.sfe.posValid = true)) ∧
        (s.sfe.amplitude = none → t.sensor .hps = s.sensor .hps ∧ t.sfe.posValid = s.sfe.posValid))

/-- R42: a RUNNING calibration starts to record at slot 0 with HPS VALID, records the sign of each slot,
takes the smallest offset that matches all slots but two at the end of a period, and fails where none does or 200
ms have passed (EXCITATION_SLOT, CALIBRATION_TIMEOUT). -/
def Obligations.CalibrationEnds : Prop :=
  ∀ s : State, s.mc.mode.sensingRuns = true → s.sfe.cal.state = .running → s.sfe.amplitude = none →
    (s.sfe.cal.recording = false →
      ∃ t : State, exec .excitationSlot s = .next t ∧ Touches [.sfe] s t ∧
        (s.sfe.slot + 1 < s.cfg.pattern.length →
          t.sfe = { s.sfe with slot := s.sfe.slot + 1 }) ∧
        (s.cfg.pattern.length ≤ s.sfe.slot + 1 →
          t.sfe = { s.sfe with
            slot := 0
            cal := { s.sfe.cal with
              recording := decide ((s.sensor .hps).state = .valid), signs := [] } })) ∧
    (s.sfe.cal.recording = true → ∀ (len : Nat) (signs : List Bool), len = s.cfg.pattern.length →
      signs = s.sfe.cal.signs ++ [decide (0 ≤ s.sfe.slotValue)] →
      ∃ t : State, exec .excitationSlot s = .next t ∧ Touches [.sfe, .lc, .mc] s t ∧
        (s.sfe.cal.tag = none → t.lc = s.lc) ∧
        (s.sfe.slot + 1 < len →
          t.sfe.cal = { s.sfe.cal with signs := signs } ∧ t.lc = s.lc ∧ t.mc = s.mc) ∧
        (len ≤ s.sfe.slot + 1 →
          (∀ d : Nat, d < len →
            len ≤ ((List.range len).filter fun i =>
              signs.getD i false == s.cfg.pattern.getD ((i + len - d) % len) false).length + 2 →
            (∀ e : Nat, e < d → ((List.range len).filter fun i =>
              signs.getD i false == s.cfg.pattern.getD ((i + len - e) % len) false).length + 2 < len) →
            t.sfe.cal.state = .done ∧ t.sfe.cal.offset = some d ∧
              t.mc = (clearFault .hpsCalFailed s).mc ∧
              ∀ tag : Byte, s.sfe.cal.tag = some tag → Answered 3 tag .done .none s t) ∧
          ((∀ e : Nat, e < len → ((List.range len).filter fun i =>
              signs.getD i false == s.cfg.pattern.getD ((i + len - e) % len) false).length + 2 < len) →
            t.sfe.cal.state = .failed ∧ t.sfe.cal.offset = none ∧
              t.mc = (raise .hpsCalFailed s).mc ∧
              ∀ tag : Byte, s.sfe.cal.tag = some tag → Answered 3 tag .done .calFailed s t))) ∧
    (200000 ≤ (s.now - s.sfe.cal.start).toNat →
      ∃ t : State, exec .calibrationTimeout s = .next t ∧ t.sfe.cal.state = .failed ∧
        t.sfe.cal.offset = none ∧ t.mc = (raise .hpsCalFailed s).mc ∧
        (s.sfe.cal.tag = none → t.lc = s.lc) ∧
        (∀ tag : Byte, s.sfe.cal.tag = some tag → Answered 3 tag .done .calFailed s t) ∧
        Touches [.sfe, .lc, .mc] s t)

/-- R41, R44: RECALIBRATE_POSITION starts a calibration of a parked tractor at standstill, and is refused
otherwise. -/
def Obligations.RecalibrationTaken : Prop :=
  ∀ (tag : Byte) (rest : List Request) (s : State),
    OldestRequest (Request.isService 3) (.service 3 tag) rest s →
    ∃ t : State, exec .recalibratePosition s = .next t ∧ t.requests = rest ∧
      (s.mc.mode = .operating → s.shc.state = .parked → s.scu.motion.standstill = true →
        s.sfe.cal.state ≠ .running → (s.sensor .hps).state ≠ .off →
        t.sfe.cal = { state := .running, offset := none, start := s.now, signs := [],
                      recording := false, tag := some tag } ∧
        t.sfe.posValid = false ∧ t.sfe.amplitude = none ∧ Answered 3 tag .accepted .none s t ∧
        Touches [.sfe, .lc, .requests] s t) ∧
      (s.mc.mode = .operating → s.shc.state = .parked → s.scu.motion.standstill = true →
        s.sfe.cal.state ≠ .running → (s.sensor .hps).state = .off →
        t.sfe.cal.state = .failed ∧ t.sfe.cal.offset = none ∧ t.mc = (raise .hpsCalFailed s).mc ∧
        Touches [.sfe, .lc, .mc, .requests] s t) ∧
      (s.mc.mode = .operating → s.shc.state = .parked → s.scu.motion.standstill = true →
        s.sfe.cal.state = .running →
        Answered 3 tag .refused .busy s t ∧ Touches [.lc, .requests] s t) ∧
      (s.mc.mode = .operating → ¬(s.shc.state = .parked ∧ s.scu.motion.standstill = true) →
        Answered 3 tag .refused .notParked s t ∧ Touches [.lc, .requests] s t) ∧
      (s.mc.mode ≠ .operating → Answered 3 tag .refused .busy s t ∧ Touches [.lc, .requests] s t)

/-! ## The shift controller (04) -/

/-- R70: how a request is placed in the request queue, and that the queue keeps its bounds. -/
def Obligations.RequestQueueMerges : Prop :=
  ∀ (kind : ShiftKind) (who : Origin) (q : List QueueEntry),
    offer kind who [] = some [⟨kind, 1, who⟩] ∧
    (∀ (l : List QueueEntry) (tail : QueueEntry), q = l ++ [tail] →
      (tail.kind = kind → tail.steps < 3 → offer kind who q = some (l ++ [⟨kind, tail.steps + 1, who⟩])) ∧
      (tail.kind = kind → tail.steps = 3 → q.length < 4 → offer kind who q = some (q ++ [⟨kind, 1, who⟩])) ∧
      (tail.kind = kind → tail.steps = 3 → 4 ≤ q.length → offer kind who q = none) ∧
      (tail.kind ≠ kind → tail.steps = 1 → offer kind who q = some l) ∧
      (tail.kind ≠ kind → 1 < tail.steps →
        offer kind who q = some (l ++ [{ tail with steps := tail.steps - 1 }]))) ∧
    (q.length ≤ 4 → (∀ e ∈ q, 1 ≤ e.steps ∧ e.steps ≤ 3) → ∀ r : List QueueEntry,
      offer kind who q = some r → r.length ≤ 4 ∧ ∀ e ∈ r, 1 ≤ e.steps ∧ e.steps ≤ 3)

/-- R69 to R71, R193: CAB_SHIFT_UP, CAB_SHIFT_DOWN and CAB_SELECT take the oldest shift command: offered
to the queue, selecting a gear, or refused with the first reason that applies (model's choices: log 12). -/
def Obligations.CabShiftCommandTaken : Prop :=
  ∀ (c : Instr) (cmd : ShiftCmd) (rest : List Request) (s : State),
    (c = .cabShiftUp ∧ cmd = .up) ∨ (c = .cabShiftDown ∧ cmd = .down) ∨
      (c = .cabSelect ∧ ∃ g : Option Gear, cmd = .select g) →
    OldestRequest Request.isShift (.shift cmd) rest s → s.mc.mode.controllersRun = true →
    ∃ t : State, exec c s = .next t ∧ t.requests = rest ∧ Touches [.shc, .hsq, .requests] s t ∧
      (s.mc.mode ≠ .operating ∨ s.hsq.state ≠ .running → t.hsq = s.hsq) ∧
      (∀ kind : ShiftKind, (kind = .up ∧ cmd = .up) ∨ (kind = .down ∧ cmd = .down) →
        ∀ why : Option ShcReason,
          why = (if s.shc.state = .faultHold then some .fault
            else if s.shc.state = .neutral ∨ s.shc.state = .parked then some .noGear
            else if s.sfe.chans.chg.cmp = .low ∨ s.sfe.chans.chg.state ≠ .valid then some .noCharge
            else if s.lc.cabDrive.fresh ≠ .fresh ∨ s.scu.motion.rearVal = .lost ∨
              s.scu.motion.inputVal = .lost then some .fault
            else if offer kind .cab s.shc.queue = none then some .full
            else none) →
          (∀ r : ShcReason, why = some r → t.shc = { s.shc with
            lastRefusal := some (r, .cab), refusals := s.shc.refusals + 1 }) ∧
          (why = none → offer kind .cab s.shc.queue = some t.shc.queue ∧
            t.shc = { s.shc with queue := t.shc.queue })) ∧
      (∀ g : Option Gear, cmd = .select g →
        (∀ x : Gear, g = some x → (s.shc.state = .neutral ∨ s.shc.state = .parked) →
          (∃ e : GearEntry, s.cfg.entryOf x = some e ∧ e.start = true) →
          t.shc = { s.shc with selected := some x }) ∧
        (¬(s.shc.state = .neutral ∨ s.shc.state = .parked) ∨
            (∀ (x : Gear) (e : GearEntry), g = some x → s.cfg.entryOf x = some e → e.start = false) →
          t.shc = { s.shc with
            lastRefusal := some (.noGear, .cab), refusals := s.shc.refusals + 1 }))

/-- R66, R68, R88, R98: every SHC_CONTROL_INTERVAL writes overrun, and each clutch's command, capped by
the pedal for a locked direction clutch, to its output. -/
def Obligations.ShcIntervalWrites : Prop :=
  ∀ s : State, s.mc.mode.controllersRun = true →
    ∃ t : State, exec .shcControlInterval s = .next t ∧
      t.shc.overrun = s.scu.motion.inpRpm - 2500 ∧ t.shc.starting = false ∧
      (∀ x : Clutch, (t.out x.output).command = min (t.clutch x).command (s.cfg.maxima.get x.output)) ∧
      (∀ x : Clutch, x ≠ .fwd → x ≠ .rev → (t.clutch x).state ≠ .off →
        (t.clutch x).command = (t.clutch x).value) ∧
      (∀ x : Clutch, x = .fwd ∨ x = .rev → (t.clutch x).state = .locked → ∀ hold p : Nat,
        hold = (s.cfg.clutches.get x).hold → p = t.shc.pedal →
        (t.clutch x).command = min (t.clutch x).value
          (if p ≤ 10 then hold else if p < 95 then hold * (100 - p) / 90 else 0)) ∧
      Touches [.vdb, .shc, .tbc, .lc, .mc] s t

/-- R72 to R81: one SHC_CONTROL_INTERVAL that finds no change in the cab record: a FILL interval, a TORQUE
interval of an upshift, also of a lengthened one, and of a downshift, the marks of both, an INERTIA interval, a
LOCKUP and an ABORT interval, at whose last a pending shuttle is tried at once (R76, R80, R85), and the taking of
the head request with its target or its refusal (model's
choices: log 25 for the request of a lengthened TORQUE, log 15, and log 84 for the pending shuttle that is dropped
at the end of ABORT where the lever does not oppose the gear). -/
def Obligations.ShiftIntervals : Prop :=
  ∀ s : State, SteadyGearbox s → s.gearboxFaulted = false →
    (s.shc.state = .shifting → s.shc.phase = some .torque → s.shc.kind = some .up →
      ∃ t : State, exec .shcControlInterval s = .next t ∧ t.shc.torque = s.shc.torque ∧
        t.shc.state = .shifting ∧ t.shc.queue = s.shc.queue ∧
        (∀ limit : Nat, s.shc.torque = some limit →
          (t.shc.echoSeen = true ↔ s.shc.echoSeen = true ∨ s.engineEcho = some limit)) ∧
        ∀ j : Nat, j = s.shc.interval + 1 →
          (∀ n : Nat, s.shc.torqueFixed = n → s.shc.torqueLen = n → n = 12 ∨ n = 18 → j ≤ n →
            (s.shc.torque = none ∨ s.shc.echoSeen = true ∨ s.engineEcho = s.shc.torque ∨ j < 12) →
            (∀ x ∈ onComing s, ∀ k : ClutchCfg, k = s.cfg.clutches.get x →
              (t.clutch x).command = k.touch + (k.take - k.touch) * j / n ∧
              (t.clutch x).state = .ramping) ∧
            (∀ x ∈ offGoing s, (t.clutch x).command = (s.cfg.clutches.get x).hold * (n - j) / n) ∧
            (j < n → t.shc.phase = some .torque ∧ t.shc.interval = j) ∧
            (j = n → t.shc.phase = some .inertia)) ∧
          (∀ limit : Nat, s.shc.torqueFixed = 12 → s.shc.torqueLen = 12 → j = 12 →
            s.shc.torque = some limit → s.shc.echoSeen = false → s.engineEcho ≠ some limit →
            t.shc.torqueLen = 18 ∧ t.shc.phase = some .torque ∧
            (∀ x ∈ onComing s, ∀ (k : ClutchCfg) (on : Nat), k = s.cfg.clutches.get x →
              on = k.touch + (k.take - k.touch) * 11 / 12 →
              (t.clutch x).command = on + (k.take - on) / 7) ∧
            (∀ x ∈ offGoing s, (t.clutch x).command =
              (s.cfg.clutches.get x).hold * 1 / 12 * 6 / 7)) ∧
          (s.shc.torqueFixed = 12 → s.shc.torqueLen = 18 → 12 < j → j ≤ 18 →
            (∀ x ∈ onComing s, ∀ (k : ClutchCfg) (on : Nat), k = s.cfg.clutches.get x →
              on = k.touch + (k.take - k.touch) * 11 / 12 →
              (t.clutch x).command = on + (k.take - on) * (j - 11) / 7 ∧
              (t.clutch x).state = .ramping) ∧
            (∀ x ∈ offGoing s, (t.clutch x).command =
              (s.cfg.clutches.get x).hold * 1 / 12 * (18 - j) / 7) ∧
            (j < 18 → t.shc.phase = some .torque ∧ t.shc.interval = j ∧ t.shc.torqueLen = 18) ∧
            (j = 18 → t.shc.phase = some .inertia))) ∧
    (s.shc.state = .shifting → s.shc.phase = some .fill →
      ∃ t : State, exec .shcControlInterval s = .next t ∧ t.shc.state = .shifting ∧
        t.shc.queue = s.shc.queue ∧ t.shc.current = s.shc.current ∧ t.shc.target = s.shc.target ∧
        (∀ x ∈ onComing s,
          (FillGoesOn s x → (t.clutch x).state = .filling ∧ (t.clutch x).held = (s.clutch x).held + 10 ∧
            (t.clutch x).command = (s.clutch x).value) ∧
          (FillEnds s x → (t.clutch x).state = .ramping ∧
            (t.clutch x).command = (s.cfg.clutches.get x).touch)) ∧
        ((∃ x ∈ onComing s, FillGoesOn s x) → t.shc.phase = some .fill ∧
          ∀ x ∈ offGoing s, (s.clutch x).state = .locked →
            (t.clutch x).state = .locked ∧ (t.clutch x).command = (s.clutch x).value) ∧
        ((∀ x ∈ onComing s, (s.clutch x).state = .ramping ∨ FillEnds s x) →
          t.shc.interval = 0 ∧
          (s.shc.kind = some .up → t.shc.phase = some .torque ∧
            (∀ x ∈ offGoing s, (s.clutch x).state = .locked → (t.clutch x).state = .draining ∧
              (t.clutch x).command = (s.cfg.clutches.get x).hold) ∧
            (s.lc.engine.fresh = .fresh ∧ s.lc.link = .active →
              t.shc.torqueFixed = 12 ∧ t.shc.torqueLen = 12 ∧ t.shc.echoSeen = false ∧
              t.shc.torque = some s.cfg.torqueLimit) ∧
            (¬(s.lc.engine.fresh = .fresh ∧ s.lc.link = .active) →
              t.shc.torqueFixed = 18 ∧ t.shc.torqueLen = 18 ∧ t.shc.torque = s.shc.torque)) ∧
          (s.shc.kind = some .down → t.shc.phase = some .inertia ∧ t.shc.sync = 0 ∧
            ∀ x ∈ offGoing s, (t.clutch x).state = .ramping ∧
              (t.clutch x).command = (s.cfg.clutches.get x).touch))) ∧
    (s.shc.state = .shifting → s.shc.phase = some .fill ∨ s.shc.phase = some .torque →
      s.shc.kind = some .up → ∀ (g : Gear) (old : Nat), s.shc.current = some g →
        old = s.scu.motion.outRpm * s.cfg.ratioOf g / 1000 →
        ∃ t : State, exec .shcControlInterval s = .next t ∧ ∀ x ∈ onComing s,
          (s.sfe.chans.oil.state = .valid ∧ 40 ≤ s.sfe.chans.oil.value →
            MarkTested s.scu.motion.inpRpm old
              (s.shc.phase = some .torque ∧ 2 * (s.shc.interval + 1) ≤ s.shc.torqueFixed)
              (s.clutch x) (t.clutch x)) ∧
          (s.sfe.chans.oil.state ≠ .valid ∨ s.sfe.chans.oil.value < 40 →
            (t.clutch x).adapted = (s.clutch x).adapted ∧ (t.clutch x).mark = (s.clutch x).mark)) ∧
    (s.shc.state = .shifting → s.shc.phase = some .torque → s.shc.kind = some .down →
      s.shc.torqueLen = 8 → ∀ j : Nat, j = s.shc.interval + 1 → j ≤ 8 →
        ∃ t : State, exec .shcControlInterval s = .next t ∧ t.shc.state = .shifting ∧
          (∀ x ∈ onComing s, ∀ k : ClutchCfg, k = s.cfg.clutches.get x →
            (j < 8 → (t.clutch x).state = .ramping ∧
              (t.clutch x).command = k.touch + (k.hold - k.touch) * j / 8) ∧
            (j = 8 → (t.clutch x).state = .locked ∧ (t.clutch x).command = k.hold)) ∧
          (∀ x ∈ offGoing s,
            (t.clutch x).command = (s.cfg.clutches.get x).touch * (8 - j) / 8 ∧
            ((s.clutch x).drain = none → (t.clutch x).state = .draining)) ∧
          (j < 8 → t.shc.phase = some .torque ∧ t.shc.interval = j) ∧
          (j = 8 → t.shc.phase = some .lockup)) ∧
    (s.shc.state = .shifting → s.shc.phase = some .lockup → s.shc.pendingShuttle = false →
      ∃ t : State, exec .shcControlInterval s = .next t ∧ t.shc.state = .inGear ∧
        t.shc.current = s.shc.target ∧ t.shc.target = none ∧ t.shc.phase = none ∧ t.shc.kind = none ∧
        t.shc.queue = s.shc.queue) ∧
    (s.shc.state = .shifting → s.shc.phase = some .abort →
      ∃ t : State, exec .shcControlInterval s = .next t ∧ t.shc.current = s.shc.current ∧
        ∀ k : Nat, k = s.shc.interval + 1 →
          (k < 20 ∨ s.shc.pendingShuttle = false → t.shc.queue = s.shc.queue) ∧
          (k < 20 → t.shc.state = .shifting ∧ t.shc.phase = some .abort ∧ t.shc.interval = k ∧
            ∀ x ∈ offGoing s, ∀ (hold : Nat) (r : ClutchRec), hold = (s.cfg.clutches.get x).hold →
              r = s.clutch x →
              (t.clutch x).state = .ramping ∧ (t.clutch x).entryValue = r.entryValue ∧
              (t.clutch x).command = ((r.entryValue : Int) +
                Int.tdiv (((hold : Int) - r.entryValue) * k) 20).toNat) ∧
          (20 ≤ k → s.shc.pendingShuttle = false → t.shc.state = .inGear ∧ t.shc.phase = none ∧
            t.shc.target = none ∧ t.shc.kind = none ∧
            ∀ x ∈ offGoing s, (t.clutch x).state = .locked ∧
              (t.clutch x).command = (s.cfg.clutches.get x).hold) ∧
          (20 ≤ k → s.shc.pendingShuttle = true → ∀ g : Gear, s.shc.current = some g →
            t.shc.kind = none ∧
            (t.shc.state = .inGear → t.shc.phase = none ∧ t.shc.target = none ∧
              ∀ x ∈ offGoing s, (t.clutch x).state = .locked ∧
                (t.clutch x).command = (s.cfg.clutches.get x).hold) ∧
            (s.shc.lever ≠ .f ∧ s.shc.lever ≠ .r ∨ s.shc.lever = Dir.lever g.dir →
              t.shc.state = .inGear ∧ t.shc.pendingShuttle = false ∧ t.shc.queue = s.shc.queue ∧
              t.shc.refusals = s.shc.refusals) ∧
            (s.shc.lever = .f ∨ s.shc.lever = .r → s.shc.lever ≠ Dir.lever g.dir →
              (3333 ≤ s.scu.motion.vGround →
                t.shc.state = .inGear ∧ t.shc.pendingShuttle = false ∧ t.shc.queue = s.shc.queue ∧
                t.shc.ignored = some s.shc.lever ∧ t.shc.lastRefusal = some (.speed, .cab) ∧
                t.shc.refusals = s.shc.refusals + 1) ∧
              (s.scu.motion.vGround < 3333 → ∀ x : Gear, s.shc.partner g = some x →
                t.shc.state = .shuttling ∧ t.shc.phase = some .drain ∧ t.shc.target = some x ∧
                t.shc.pendingShuttle = false ∧ t.shc.queue = [] ∧
                t.shc.refusals = s.shc.refusals)))) ∧
    (s.shc.state = .shifting → s.shc.phase = some .inertia →
      ∃ t : State, exec .shcControlInterval s = .next t ∧ t.shc.state = .shifting ∧
        t.shc.current = s.shc.current ∧
        ∀ (g : Gear) (j sync : Nat), s.shc.target = some g → j = s.shc.interval + 1 →
          sync = (if ((s.scu.motion.inpRpm : Int) -
              (s.scu.motion.outRpm * s.cfg.ratioOf g / 1000 : Nat)).natAbs ≤ 30
            then s.shc.sync + 1 else 0) →
          (sync < 3 → j < 150 →
            t.shc.phase = some .inertia ∧ t.shc.interval = j ∧ t.shc.sync = sync ∧
            t.shc.torque = s.shc.torque ∧
            (s.shc.kind = some .up → ∀ x ∈ onComing s, (t.clutch x).state = .ramping ∧
              (t.clutch x).command = min (s.cfg.clutches.get x).hold ((s.clutch x).value + 15)) ∧
            (s.shc.kind = some .down → ∀ x ∈ onComing s, (s.clutch x).state = .ramping →
              (t.clutch x).state = .ramping ∧ (t.clutch x).command = (s.clutch x).value)) ∧
          (3 ≤ sync → s.shc.kind = some .up →
            t.shc.phase = some .lockup ∧ t.shc.torque = none ∧
            ∀ x ∈ onComing s, (t.clutch x).state = .locked ∧
              (t.clutch x).command = (s.cfg.clutches.get x).hold) ∧
          (3 ≤ sync → s.shc.kind = some .down →
            t.shc.phase = some .torque ∧ t.shc.torqueLen = 8 ∧ t.shc.interval = 0 ∧
            ∀ x ∈ offGoing s, (t.clutch x).command = (s.cfg.clutches.get x).touch) ∧
          (sync < 3 → 150 ≤ j →
            t.shc.phase = some .abort ∧ t.shc.queue = [] ∧ t.shc.torque = none ∧
            t.mc = (clearFault .shiftTimeout (raiseLatched .shiftTimeout s)).mc)) ∧
    (∀ (e : QueueEntry) (rest : List QueueEntry) (g : Gear) (l : List GearEntry), s.shc.state = .inGear →
      s.shc.queue = e :: rest → s.shc.current = some g → s.shc.pendingShuttle = false →
      (s.clutch g.dir.clutch).state = .locked →
      (∀ d : CabDriveFields, s.lc.cabDrive.current = some d → min 100 d.pedal < 95) →
      (s.lc.cabDrive.current = none → s.shc.pedal < 95) →
      l = (if e.origin = .auto then (stepsFrom s.cfg e.kind g e.steps).dropWhile fun x => !x.auto
        else stepsFrom s.cfg e.kind g e.steps) →
      ∀ passes : GearEntry → Prop,
        (∀ x : GearEntry, passes x ↔ match e.kind with
          | .down => s.scu.motion.outRpm * x.ratio / 1000 ≤ 2400
          | .up => ∀ load : Nat, s.engineTorque = some load → 80 < load →
              900 ≤ s.scu.motion.outRpm * x.ratio / 1000) →
        ∃ t : State, exec .shcControlInterval s = .next t ∧ t.shc.queue = rest ∧
          t.shc.current = some g ∧
          ((∀ x ∈ l, ¬ passes x) →
            t.shc.state = .inGear ∧ t.shc.refusals = s.shc.refusals + 1 ∧
            (l = [] → t.shc.lastRefusal = some (.noGear, e.origin)) ∧
            (l ≠ [] → e.kind = .down → t.shc.lastRefusal = some (.overspeed, e.origin)) ∧
            (l ≠ [] → e.kind = .up → t.shc.lastRefusal = some (.lugging, e.origin))) ∧
          (∀ (x : GearEntry) (front back : List GearEntry), l = front ++ x :: back →
            (∀ y ∈ front, ¬ passes y) → passes x →
            t.shc.state = .shifting ∧ t.shc.phase = some .fill ∧ t.shc.kind = some e.kind ∧
            t.shc.target = some x.gear ∧ t.shc.refusals = s.shc.refusals ∧
            t.shc.shiftOrigin = some e.origin ∧
            ∀ y ∈ swapped s.cfg (some g) (some x.gear), (t.clutch y).state = .filling ∧
              (t.clutch y).command = (s.cfg.clutches.get y).fillCurrent ∧
              (t.clutch y).fillTime = (if s.oilCold = true
                then (s.clutch y).learned + (s.clutch y).learned / 4 else (s.clutch y).learned)))

/-- R74 to R81: TORQUE_PHASE_END, SYNC_REACHED, SHIFT_TIMEOUT and ABORT_COMPLETE where they are due (model's
choices: log 1; log 45 for the correction of the learned fill times by the marks, whatever the oil then is). -/
def Obligations.ShiftPhaseEnds : Prop :=
  ∀ s : State, s.mc.mode.controllersRun = true → s.shc.state = .shifting →
    (s.shc.phase = some .torque → s.shc.torqueLen ≤ s.shc.interval →
      ∃ t : State, exec .torquePhaseEnd s = .next t ∧
        (∀ x ∈ offGoing s, (t.clutch x).state = .draining ∧ (t.clutch x).command = 0) ∧
        (s.shc.kind = some .up → t.shc.phase = some .inertia ∧ t.shc.sync = 0 ∧
          ∀ x ∈ onComing s, (t.clutch x).state = (s.clutch x).state) ∧
        (s.shc.kind = some .down → t.shc.phase = some .lockup ∧
          ∀ x ∈ onComing s, (t.clutch x).state = .locked ∧
            (t.clutch x).command = (s.cfg.clutches.get x).hold) ∧
        t.shc.state = .shifting ∧ t.shc.queue = s.shc.queue ∧ Touches [.vdb, .shc] s t) ∧
    (s.shc.phase = some .inertia → 3 ≤ s.shc.sync →
      ∃ t : State, exec .syncReached s = .next t ∧ t.shc.state = .shifting ∧
        t.shc.current = s.shc.current ∧
        (s.shc.kind = some .up → t.shc.phase = some .lockup ∧ t.shc.torque = none ∧
          ∀ x ∈ onComing s, (t.clutch x).state = .locked ∧
            (t.clutch x).command = (s.cfg.clutches.get x).hold ∧
            (t.clutch x).learned = (match (s.clutch x).mark with
              | some .flare => max (s.cfg.clutches.get x).minFill
                  (min (s.cfg.clutches.get x).maxFill ((s.clutch x).learned + 8))
              | some .tieUp => max (s.cfg.clutches.get x).minFill
                  (min (s.cfg.clutches.get x).maxFill ((s.clutch x).learned - 8))
              | none => (s.clutch x).learned)) ∧
        (s.shc.kind = some .down → t.shc.phase = some .torque ∧ t.shc.torqueLen = 8 ∧
          t.shc.interval = 0 ∧
          ∀ x ∈ offGoing s, (t.clutch x).state = .draining ∧
            (t.clutch x).command = (s.cfg.clutches.get x).touch) ∧
        Touches [.vdb, .shc, .lc] s t) ∧
    (s.shc.phase = some .inertia → s.shc.sync < 3 → 150 ≤ s.shc.interval →
      ∃ t : State, exec .shiftTimeout s = .next t ∧ t.shc.state = .shifting ∧
        t.shc.phase = some .abort ∧ t.shc.queue = [] ∧ t.shc.torque = none ∧
        (∀ x ∈ onComing s, (t.clutch x).state = .draining ∧ (t.clutch x).command = 0) ∧
        (∀ x ∈ offGoing s, (t.clutch x).state = .ramping ∧
          (t.clutch x).entryValue = (s.clutch x).value) ∧
        t.mc = (clearFault .shiftTimeout (raiseLatched .shiftTimeout s)).mc ∧
        Touches [.vdb, .shc, .lc, .mc] s t) ∧
    (s.shc.phase = some .abort → 20 ≤ s.shc.interval → s.shc.pendingShuttle = false →
      ∃ t : State, exec .abortComplete s = .next t ∧ t.shc.state = .inGear ∧ t.shc.phase = none ∧
        t.shc.kind = none ∧ t.shc.target = none ∧ t.shc.current = s.shc.current ∧
        t.shc.queue = s.shc.queue ∧
        (∀ x ∈ offGoing s, (t.clutch x).state = .locked ∧
          (t.clutch x).command = (s.cfg.clutches.get x).hold) ∧
        Touches [.vdb, .shc, .lc] s t)

/-- R73, R84, R86, R89: FILL_COMPLETE of a clutch that has held its fill current for its time (model's choices: log 1,
23). -/
def Obligations.FillCompleteTaken : Prop :=
  ∀ (x : Clutch) (s : State), s.mc.mode.controllersRun = true → (s.clutch x).state = .filling →
    (s.clutch x).fillTime ≤ (s.clutch x).held →
    ∃ t : State, exec (.fillComplete x) s = .next t ∧ Touches [.vdb, .shc, .lc] s t ∧
      (s.shc.state = .shifting → s.shc.phase = some .fill → x ∈ onComing s →
        (t.clutch x).state = .ramping ∧ (t.clutch x).command = (s.cfg.clutches.get x).touch ∧
        ((∃ y ∈ onComing s, y ≠ x ∧ (s.clutch y).state ≠ .ramping) → t.shc.phase = some .fill) ∧
        ((∀ y ∈ onComing s, y ≠ x → (s.clutch y).state = .ramping) →
          t.shc.phase = (if s.shc.kind = some .up then some .torque else some .inertia))) ∧
      (s.shc.state = .engaging → s.shc.phase = some .preselect → x ≠ .fwd → x ≠ .rev →
        (t.clutch x).state = .locked ∧ (t.clutch x).command = (s.cfg.clutches.get x).hold ∧
        ∀ g : Gear, s.shc.target = some g → x ∈ gearPair s.cfg g →
          (∀ y ∈ gearPair s.cfg g, y ≠ x → (s.clutch y).state = .locked) →
          t.shc.phase = some .ramp ∧ t.shc.current = some g ∧
          (t.clutch g.dir.clutch).state = .filling) ∧
      (s.shc.state = .neutral → x ≠ .fwd → x ≠ .rev →
        (t.clutch x).state = .locked ∧ (t.clutch x).command = (s.cfg.clutches.get x).hold) ∧
      (s.shc.state = .engaging → s.shc.phase = some .ramp → x ∈ dirClutchOf s.shc.target →
        (t.clutch x).state = .ramping ∧ (t.clutch x).value = (s.cfg.clutches.get x).touch ∧
        t.shc.interval = 0) ∧
      (s.shc.state = .shuttling → s.shc.phase = some .drain → x ∈ dirClutchOf s.shc.target →
        (t.clutch x).state = .ramping ∧ (t.clutch x).value = (s.cfg.clutches.get x).touch)

/-- R84, R86, R88: ENGAGE_RAMP_END and DRIVE_AWAY_END lock the direction clutch and arrive in gear,
SHUTTLE_DRAIN_END completes the swap, an interval of REVERSE_BRAKE or DRIVE_AWAY moves the on-coming
direction clutch, capped by the pedal, an interval of DRAIN moves both sides of a shuttle, and one of PRESELECT
or RAMP those of an engagement (model's choices: log 1, 27). -/
def Obligations.DirectionClutchTakesOver : Prop :=
  ∀ s : State, s.mc.mode.controllersRun = true →
    (∀ c : Instr,
      (c = .engageRampEnd ∧ s.shc.state = .engaging ∧ s.shc.phase = some .ramp ∧
          ∀ x ∈ dirClutchOf s.shc.target, (s.clutch x).state = .ramping) ∨
        (c = .driveAwayEnd ∧ s.shc.state = .shuttling ∧ s.shc.phase = some .driveAway) →
      max 1 (s.cfg.engageRamp / 10) ≤ s.shc.interval → s.shc.pendingShuttle = false →
      ∃ t : State, exec c s = .next t ∧ t.shc.state = .inGear ∧ t.shc.phase = none ∧
        t.shc.target = none ∧ t.shc.current = s.shc.current ∧
        (∀ x ∈ dirClutchOf s.shc.target, (t.clutch x).state = .locked ∧
          (t.clutch x).value = (s.cfg.clutches.get x).hold) ∧
        (∀ x : Clutch, x ∉ dirClutchOf s.shc.target → (t.clutch x).state = (s.clutch x).state ∧
          (t.clutch x).value = (s.clutch x).value) ∧
        Touches [.vdb, .shc, .lc] s t) ∧
    (s.shc.state = .shuttling → s.shc.phase = some .drain → 10 ≤ s.shc.interval →
      (∀ x ∈ dirClutchOf s.shc.target ++ onComing s, (s.clutch x).state = .ramping) →
      ∃ t : State, exec .shuttleDrainEnd s = .next t ∧ t.shc.state = .shuttling ∧
        t.shc.phase = some .reverseBrake ∧ t.shc.current = s.shc.target ∧
        (∀ x ∈ onComing s, (t.clutch x).state = .locked ∧
          (t.clutch x).value = (s.cfg.clutches.get x).hold) ∧
        (∀ x ∈ dirClutchOf s.shc.target, (t.clutch x).state = .ramping) ∧
        Touches [.vdb, .shc] s t) ∧
    (∀ (x : Clutch) (r : ClutchRec) (hold : Nat), SteadyGearbox s → s.gearboxFaulted = false →
      s.shc.state = .shuttling → s.shc.pendingShuttle = false →
      dirClutchOf s.shc.target = [x] → r = s.clutch x →
      hold = (s.cfg.clutches.get x).hold →
      ∃ t : State, exec .shcControlInterval s = .next t ∧
        (∀ p cap : Nat, p = t.shc.pedal →
          cap = (if p ≤ 10 then hold else if p < 95 then hold * (100 - p) / 90 else 0) →
          s.shc.phase = some .reverseBrake ∨ s.shc.phase = some .driveAway →
          (t.clutch x).command = min (t.clutch x).value cap) ∧
        (s.shc.phase = some .reverseBrake →
          (t.clutch x).state = .ramping ∧ (t.clutch x).value = min hold (r.value + t.shc.rate) ∧
          t.shc.state = .shuttling ∧ t.shc.current = s.shc.current ∧
          (s.scu.motion.outRpm < 30 ∨ s.scu.motion.standstill = true →
            t.shc.phase = some .driveAway ∧ t.shc.interval = 0 ∧
            (t.clutch x).entryValue = (t.clutch x).value) ∧
          (30 ≤ s.scu.motion.outRpm → s.scu.motion.standstill = false →
            t.shc.phase = some .reverseBrake)) ∧
        (s.shc.phase = some .driveAway → ∀ j n : Nat, j = s.shc.interval + 1 →
          n = max 1 (s.cfg.engageRamp / 10) →
          (j < n → t.shc.phase = some .driveAway ∧ t.shc.interval = j ∧
            (t.clutch x).state = .ramping ∧
            (t.clutch x).value = ((r.entryValue : Int) +
              Int.tdiv (((hold : Int) - r.entryValue) * j) n).toNat) ∧
          (n ≤ j → t.shc.state = .inGear ∧ t.shc.phase = none ∧
            t.shc.target = none ∧ t.shc.current = s.shc.current ∧
            (t.clutch x).state = .locked ∧ (t.clutch x).value = hold))) ∧
    (∀ g h : Gear, SteadyGearbox s → s.gearboxFaulted = false → s.shc.state = .shuttling →
      s.shc.phase = some .drain → s.shc.current = some g → s.shc.target = some h → g.dir ≠ h.dir →
      ∃ t : State, exec .shcControlInterval s = .next t ∧ t.shc.state = .shuttling ∧
        t.shc.target = some h ∧ ∀ j : Nat, j = s.shc.interval + 1 →
          (∀ x ∈ g.dir.clutch :: offGoing s,
            (j ≤ 10 → (t.clutch x).command = (s.cfg.clutches.get x).hold * (10 - j) / 10 ∧
              ((s.clutch x).drain = none → (t.clutch x).state = .draining)) ∧
            (10 < j → (s.clutch x).state = .draining → (t.clutch x).command = (s.clutch x).value)) ∧
          (∀ x ∈ h.dir.clutch :: onComing s, FillGoesOn s x →
            (t.clutch x).state = .filling ∧ (t.clutch x).held = (s.clutch x).held + 10) ∧
          (FillEnds s h.dir.clutch → (t.clutch h.dir.clutch).state = .ramping ∧
            (t.clutch h.dir.clutch).value = (s.cfg.clutches.get h.dir.clutch).touch) ∧
          (j < 10 ∨ (∃ x ∈ h.dir.clutch :: onComing s, FillGoesOn s x) →
            t.shc.phase = some .drain ∧ t.shc.interval = j ∧ t.shc.current = some g ∧
            ∀ x ∈ onComing s, FillEnds s x → (t.clutch x).state = .ramping ∧
              (t.clutch x).command = (s.cfg.clutches.get x).touch) ∧
          (10 ≤ j → (∀ x ∈ h.dir.clutch :: onComing s, (s.clutch x).state = .ramping ∨ FillEnds s x) →
            t.shc.phase = some .reverseBrake ∧ t.shc.interval = 0 ∧ t.shc.current = some h ∧
            ∀ x ∈ onComing s, (t.clutch x).state = .locked ∧
              (t.clutch x).command = (s.cfg.clutches.get x).hold)) ∧
    (∀ g : Gear, SteadyGearbox s → s.gearboxFaulted = false → s.shc.state = .engaging →
      s.shc.phase = some .preselect → s.shc.target = some g →
      ∃ t : State, exec .shcControlInterval s = .next t ∧ t.shc.state = .engaging ∧
        t.shc.target = some g ∧
        (∀ x ∈ gearPair s.cfg g,
          (FillGoesOn s x → (t.clutch x).state = .filling ∧ (t.clutch x).held = (s.clutch x).held + 10) ∧
          (FillEnds s x → (t.clutch x).state = .locked ∧
            (t.clutch x).command = (s.cfg.clutches.get x).hold)) ∧
        ((∃ x ∈ gearPair s.cfg g, FillGoesOn s x) →
          t.shc.phase = some .preselect ∧ t.shc.current = s.shc.current) ∧
        ((∀ x ∈ gearPair s.cfg g, (s.clutch x).state = .locked ∨ FillEnds s x) →
          t.shc.phase = some .ramp ∧ t.shc.current = some g ∧
          (t.clutch g.dir.clutch).state = .filling ∧ (t.clutch g.dir.clutch).held = 0 ∧
          (t.clutch g.dir.clutch).command = (s.cfg.clutches.get g.dir.clutch).fillCurrent)) ∧
    (∀ (g : Gear) (x : Clutch) (touch hold : Nat), SteadyGearbox s → s.gearboxFaulted = false →
      s.shc.state = .engaging → s.shc.phase = some .ramp → s.shc.target = some g → x = g.dir.clutch →
      s.shc.pendingShuttle = false → touch = (s.cfg.clutches.get x).touch →
      hold = (s.cfg.clutches.get x).hold →
      ∃ t : State, exec .shcControlInterval s = .next t ∧ t.shc.current = s.shc.current ∧
        (∀ p cap : Nat, p = t.shc.pedal →
          cap = (if p ≤ 10 then hold else if p < 95 then hold * (100 - p) / 90 else 0) →
          (t.clutch x).state ≠ .filling → (t.clutch x).command = min (t.clutch x).value cap) ∧
        (FillGoesOn s x → t.shc.phase = some .ramp ∧ (t.clutch x).state = .filling ∧
          (t.clutch x).held = (s.clutch x).held + 10 ∧ (t.clutch x).command = (s.clutch x).value) ∧
        (FillEnds s x → t.shc.phase = some .ramp ∧ t.shc.interval = 0 ∧
          (t.clutch x).state = .ramping ∧ (t.clutch x).value = touch) ∧
        ((s.clutch x).state = .ramping → ∀ j n : Nat, j = s.shc.interval + 1 →
          n = max 1 (s.cfg.engageRamp / 10) →
          (j < n → t.shc.state = .engaging ∧ t.shc.phase = some .ramp ∧ t.shc.interval = j ∧
            (t.clutch x).state = .ramping ∧
            (t.clutch x).value = ((touch : Int) + Int.tdiv (((hold : Int) - touch) * j) n).toNat) ∧
          (n ≤ j → t.shc.state = .inGear ∧ t.shc.phase = none ∧ t.shc.target = none ∧
            (t.clutch x).state = .locked ∧ (t.clutch x).value = hold)))

/-- R66, R94, R97: CLUTCH_DRAIN_COMPLETE opens a drained clutch, PEDAL_HOLD_EXPIRY drops the pedal,
AUTO_SHIFT_TIMER counts toward an automatic shift, and AUTO_UP and AUTO_DOWN offer it (model's choices: log 1, 62). -/
def Obligations.ShcTimersExpire : Prop :=
  (∀ s : State, s.mc.mode.controllersRun = true →
     (∀ x : Clutch, (s.clutch x).state = .draining →
       (∃ d : Nat, (s.clutch x).drain = some d ∧ 100 ≤ d) →
       ∃ t : State, exec (.clutchDrainComplete x) s = .next t ∧
         t.clutch x = { s.clutch x with state := .off, value := 0, drain := none } ∧
         (∀ y : Clutch, y ≠ x → t.clutch y = s.clutch y) ∧
         t.shc = { s.shc with clutches := t.shc.clutches } ∧ Touches [.shc] s t) ∧
     ((∃ p : Nat, s.shc.pedalHold = some p ∧ 1000000 ≤ p) →
       ∃ t : State, exec .pedalHoldExpiry s = .next t ∧ t.shc.pedal = 0 ∧ t.shc.pedalHold = none ∧
         t.shc.queue = s.shc.queue ∧ t.shc.state = s.shc.state ∧
         (∀ x : Clutch, (t.clutch x).state = (s.clutch x).state ∧
           (t.clutch x).value = (s.clutch x).value) ∧
         (∀ x : Clutch, (s.clutch x).state = .locked → (t.clutch x).command =
           (if x = .fwd ∨ x = .rev then min (s.clutch x).value (s.cfg.clutches.get x).hold
             else (s.clutch x).value)) ∧
         Touches [.vdb, .shc] s t)) ∧
  (∀ s : State, s.mc.mode.controllersRun = true →
     (∀ eligible : Prop,
       (eligible ↔ s.shc.auto = true ∧ s.shc.state = .inGear ∧ s.shc.queue = [] ∧
         s.lc.engine.fresh = .fresh ∧
         ∃ (g : Gear) (e : GearEntry), s.shc.current = some g ∧ s.cfg.entryOf g = some e ∧ e.auto = true) →
       ∃ t : State, exec .autoShiftTimer s = .next t ∧ Touches [.shc] s t ∧
         (¬ eligible → t.shc = { s.shc with upCount := 0, downCount := 0 }) ∧
         (eligible → ∀ torque up down : Nat, s.engineTorque = some torque →
           up = (if 2100 < s.scu.motion.inpRpm ∧ torque < 60 then s.shc.upCount + 1 else 0) →
           down = (if s.scu.motion.inpRpm < 1500 ∧ 85 < torque then s.shc.downCount + 1 else 0) →
           (up < 10 → down < 5 → t.shc = { s.shc with upCount := up, downCount := down }) ∧
           (10 ≤ up → t = shiftRequest .up .auto
             (s.withShc { s.shc with upCount := 0, downCount := 0 })) ∧
           (up < 10 → 5 ≤ down → t = shiftRequest .down .auto
             (s.withShc { s.shc with upCount := 0, downCount := 0 })))) ∧
     (∀ (c : Instr) (kind : ShiftKind),
       (c = .autoUp ∧ kind = .up ∧ 10 ≤ s.shc.upCount) ∨
         (c = .autoDown ∧ kind = .down ∧ 5 ≤ s.shc.downCount) →
       s.shc.state = .inGear → s.sfe.chans.chg.cmp ≠ .low → s.sfe.chans.chg.state = .valid →
       s.lc.cabDrive.fresh = .fresh → s.scu.motion.rearVal ≠ .lost → s.scu.motion.inputVal ≠ .lost →
       s.shc.queue = [] →
       ∃ t : State, exec c s = .next t ∧
         t.shc = { s.shc with upCount := 0, downCount := 0, queue := [⟨kind, 1, .auto⟩] } ∧
         Touches [.shc] s t))

/-- R93, R98: what the SHC does at its CHG and OIL events (SHC_CHG_EVENT, SHC_OIL_EVENT) (model's choices: log 22,
26). -/
def Obligations.ShcTakesSfeEvents : Prop :=
  ∀ (ev : SfeEvent) (rest : List Delivery) (s : State), s.mc.mode.controllersRun = true →
    (OldestEvent .shc .oil ev rest s →
      ∃ t : State, exec .shcOilEvent s = .next t ∧ t.events = rest ∧ Touches [.mc, .events] s t ∧
        (ev = .highEnter → t.mc = (raise .oilHot s).mc) ∧
        (ev = .highLeave ∨ ev = .failed → t.mc = (clearFault .oilHot s).mc) ∧
        (ev ≠ .highEnter → ev ≠ .highLeave → ev ≠ .failed → t.mc = s.mc)) ∧
    (OldestEvent .shc .chg ev rest s →
      ∃ t : State, exec .shcChgEvent s = .next t ∧ t.events = rest ∧
        Touches [.vdb, .shc, .lc, .mc, .events] s t ∧
        (ev = .lowEnter → t.mc = (raise .chargeLow s).mc) ∧
        (ev = .failed ∨ ev = .lowLeave → t.mc = (clearFault .chargeLow s).mc) ∧
        (ev ≠ .lowEnter → ev ≠ .failed → t.shc = s.shc ∧ t.vdb = s.vdb ∧
          (ev ≠ .lowLeave → t.mc = s.mc)) ∧
        (ev = .lowEnter ∨ ev = .failed → t.shc.queue = [] ∧
          (s.shc.state = .shifting →
            s.shc.phase = some .fill ∨ s.shc.phase = some .inertia ∨
              (s.shc.phase = some .torque ∧ s.shc.kind = some .up) →
            t.shc.state = .shifting ∧ t.shc.phase = some .abort ∧ t.shc.torque = none ∧
            (∀ x ∈ onComing s, (t.clutch x).state = .draining ∧ (t.clutch x).command = 0) ∧
            (∀ x ∈ offGoing s, (t.clutch x).state = .ramping)) ∧
          (s.shc.state = .shifting →
            s.shc.phase = some .lockup ∨ (s.shc.phase = some .torque ∧ s.shc.kind = some .down) →
            t.shc.state = .shifting ∧ t.shc.phase = s.shc.phase) ∧
          (s.shc.state = .shuttling → t.shc.state = .neutral ∧ t.shc.phase = none ∧
            t.shc.target = none ∧ t.shc.ignored = some s.shc.lever ∧
            ∀ x : Clutch, x = .fwd ∨ x = .rev →
              (t.clutch x).state = .draining ∧ (t.clutch x).command = 0) ∧
          (s.shc.state = .engaging → t.shc.state = .neutral ∧ t.shc.phase = none ∧
            ∀ x : Clutch, x = .fwd ∨ x = .rev →
              (t.clutch x).state = .draining ∧ (t.clutch x).command = 0) ∧
          (s.shc.state = .inGear ∨ s.shc.state = .neutral ∨ s.shc.state = .parked →
            t.shc.state = s.shc.state ∧ t.shc.current = s.shc.current)))

/-- R82, R194: RESET_ADAPTATION gives every clutch its configured fill time where the gearbox rests, and a
service request of a code no block takes is refused with UNKNOWN (SERVICE_REQUEST_UNKNOWN). -/
def Obligations.AdaptationResetAndUnknownCodes : Prop :=
  ∀ (code tag : Byte) (rest : List Request) (s : State),
    (code = 2 → OldestRequest (Request.isService 2) (.service 2 tag) rest s →
      ∃ t : State, exec .resetAdaptation s = .next t ∧ t.requests = rest ∧
        (s.mc.mode = .operating → s.shc.state = .parked ∨ s.shc.state = .neutral ∨
            s.shc.state = .inGear ∨ s.shc.state = .faultHold →
          (∀ x : Clutch, t.clutch x =
            { s.clutch x with learned := (s.cfg.clutches.get x).fillTime }) ∧
          t.shc = { s.shc with clutches := t.shc.clutches } ∧ Answered 2 tag .done .none s t ∧
          Touches [.shc, .lc, .requests] s t) ∧
        (s.mc.mode ≠ .operating ∨ s.shc.state = .engaging ∨ s.shc.state = .shifting ∨
            s.shc.state = .shuttling →
          Answered 2 tag .refused .busy s t ∧ Touches [.lc, .requests] s t)) ∧
    (code ≠ 1 → code ≠ 2 → code ≠ 3 → code ≠ 4 →
      OldestRequest Request.isUnknown (.service code tag) rest s →
      ∃ t : State, exec .serviceRequestUnknown s = .next t ∧ t.requests = rest ∧
        Answered code tag .refused .unknown s t ∧ Touches [.lc, .requests] s t)

/-- R83, R90, R91, R96, R157: the SHC_CONTROL_INTERVAL that parks a gearbox that can park, with the trailer;
the one that finds the lever moved or the brake station's request gone and releases a PARKED gearbox or
refuses; and the ones that enter, keep and leave FAULT_HOLD (model's choices: log 75 for NO_CHARGE, log 80). -/
def Obligations.ParkReleaseAndFaultHold : Prop :=
  (∀ s : State, SteadyGearbox s →
    ((s.shc.state = .neutral ∧ s.gearboxFaulted = false) ∨ s.shc.state = .faultHold →
      s.shc.pendingPark = true → parkRequested s = true → s.scu.motion.standstill = true →
      (s.clutch .fwd).state = .off → (s.clutch .rev).state = .off →
      ∃ t : State, exec .shcControlInterval s = .next t ∧ t.shc.state = .parked ∧
        t.shc.parkReleased = false ∧ (t.out .pkv).command = 0 ∧ t.shc.current = none ∧
        t.shc.pendingPark = false ∧ (∀ x ∈ gearClutches, (t.clutch x).command = 0) ∧
        (s.tbc.state ≠ .breakaway → t.tbc.state = .parked) ∧
        (s.tbc.state = .breakaway → t.tbc = s.tbc)) ∧
    (s.shc.state ≠ .parked → s.shc.state ≠ .faultHold → s.gearboxFaulted = true →
      s.shc.pendingPark = false →
      ∃ t : State, exec .shcControlInterval s = .next t ∧ t.shc.state = .faultHold ∧
        t.shc.queue = [] ∧ t.shc.torque = none ∧ t.shc.current = none ∧ t.shc.target = none ∧
        t.shc.phase = none ∧ t.shc.pendingShuttle = false ∧
        (t.out .pkv).command = (s.out .pkv).command ∧
        ∀ x : Clutch, (s.clutch x).command ≠ 0 → (t.clutch x).command = 0 ∧
          ((s.clutch x).drain = none → (t.clutch x).state = .draining)) ∧
    (s.shc.state = .faultHold → s.shc.pendingPark = false →
      ∃ t : State, exec .shcControlInterval s = .next t ∧
        (s.shc.lever = .n → s.gearboxFaulted = false → t.shc.state = .neutral) ∧
        (s.shc.lever ≠ .n ∨ s.gearboxFaulted = true → t.shc.state = .faultHold))) ∧
  (∀ s : State, s.mc.mode.controllersRun = true → s.shc.state = .parked → s.shc.parkOrder = false →
    s.brakeParkRequest = false →
    (s.shc.lever ≠ .park → s.shc.ignored = none →
      (∀ d : CabDriveFields, s.lc.cabDrive.current = some d → d.lever = s.shc.lever) →
      ∃ t : State, exec .shcControlInterval s = .next t ∧ t.shc.lever = s.shc.lever ∧ t.tbc = s.tbc ∧
        (∀ why : ShcReason, releaseWhy s = some why →
          t.shc.state = .parked ∧ t.shc.ignored = some s.shc.lever ∧
          t.shc.lastRefusal = some (why, .cab) ∧ t.shc.refusals = s.shc.refusals + 1 ∧
          (t.out .pkv).command = (s.out .pkv).command) ∧
        (releaseWhy s = none → t.shc.state = .neutral ∧ t.shc.parkReleased = true ∧
          t.shc.refusals = s.shc.refusals ∧ (t.out .pkv).command = 1)) ∧
    (∀ d : CabDriveFields, s.shc.lever = .park ∨ s.shc.ignored ≠ none → s.shc.cabFresh = true →
      s.lc.cabDrive.current = some d → d.lever ≠ s.shc.lever → d.lever ≠ .park →
      ∃ t : State, exec .shcControlInterval s = .next t ∧ t.shc.lever = d.lever ∧ t.tbc = s.tbc ∧
        (∀ why : ShcReason, releaseWhy s = some why →
          t.shc.state = .parked ∧ t.shc.ignored = some d.lever ∧
          t.shc.lastRefusal = some (why, .cab) ∧ t.shc.refusals = s.shc.refusals + 1 ∧
          (t.out .pkv).command = (s.out .pkv).command) ∧
        (releaseWhy s = none → t.shc.parkReleased = true ∧ (t.out .pkv).command = 1) ∧
        (releaseWhy s = none → d.lever = .n → t.shc.state = .neutral ∧ t.shc.ignored = none) ∧
        (∀ (g : Gear) (e : GearEntry), releaseWhy s = none → d.lever = Dir.lever g.dir →
          s.cfg.entryOf g = some e → e.start = true →
          s.shc.selected = some g ∨
            (∃ h : Gear, s.shc.selected = some h ∧ h.dir ≠ g.dir ∧ s.shc.partner h = some g) →
          (s.scu.motion.outRpm * e.ratio / 1000 ≤ 2400 →
            t.shc.state = .engaging ∧ t.shc.target = some g ∧ t.shc.ignored = none) ∧
          (2400 < s.scu.motion.outRpm * e.ratio / 1000 →
            t.shc.state = .neutral ∧ t.shc.ignored = some d.lever ∧
            t.shc.lastRefusal = some (.overspeed, .cab)))))

/-- R68, R83 to R85, R87, R89, R90, R94: a changed lever of a FRESH cab record acts at the SHC_CONTROL_INTERVAL, from a
state in which a gear whose PRESELECT goes on stands only in NEUTRAL (see EveryStepKeepsQueuesAndRun): N and
PARK put a gearbox with a gear or an operation in neutral, a direction takes a NEUTRAL one into ENGAGING, a change
between F and R, or from N to the other direction, starts a shuttle or is refused with SPEED, and during an
operation it sets or clears pending-shuttle; a brake station's park request that comes into force acts as N; a
record lost is kept and flushes the queue, and one that returns is compared and does not act (model's choices: log
21, 22, 23, 60, 61, 74, and log 83 for the place of the park request in the interval). -/
def Obligations.LeverMovesGearbox : Prop :=
  (∀ (s : State) (d : CabDriveFields), PreselectOnlyInNeutral s →
    s.mc.mode.controllersRun = true → s.shc.starting = false →
    s.lc.cabDrive.fresh = .fresh → s.lc.cabDrive.values = some d → s.shc.cabFresh = true →
    d.lever ≠ s.shc.lever → s.gearboxFaulted = false → s.speedsLost = false →
    s.shc.parkOrder = false → s.brakeParkRequest = false → s.shc.parkForce = false →
    (s.shc.state = .inGear → d.lever = .n →
      ∃ t : State, exec .shcControlInterval s = .next t ∧ t.shc.state = .neutral ∧
        t.shc.queue = [] ∧ t.shc.torque = none ∧ t.shc.pendingShuttle = false ∧
        t.shc.lever = .n ∧ t.shc.ignored = none ∧ t.shc.current = s.shc.current ∧
        (t.clutch .fwd).command = 0 ∧ (t.clutch .rev).command = 0) ∧
    (s.shc.state.busy → d.lever = .n ∨ d.lever = .park →
      ∃ t : State, exec .shcControlInterval s = .next t ∧ PutInNeutral s t ∧ t.shc.lever = d.lever ∧
        t.shc.ignored = none ∧ (t.shc.parkForce = true ↔ d.lever = .park) ∧
        (t.shc.pendingPark = true ↔ d.lever = .park)) ∧
    (∀ g : Gear, (s.shc.state = .shifting ∧ s.shc.current = some g) ∨
        ((s.shc.state = .engaging ∨ s.shc.state = .shuttling) ∧ s.shc.target = some g) →
      d.lever = .f ∨ d.lever = .r → OperationGoesOn s →
      ∃ t : State, exec .shcControlInterval s = .next t ∧ t.shc.state = s.shc.state ∧
        t.shc.lever = d.lever ∧ t.shc.ignored = none ∧
        (t.shc.pendingShuttle = true ↔ d.lever ≠ Dir.lever g.dir)) ∧
    (∀ g : Gear, s.shc.state = .inGear → s.shc.lever = .n → s.shc.current = some g →
      d.lever = Dir.lever g.dir → s.shc.queue = [] →
      ∃ t : State, exec .shcControlInterval s = .next t ∧ t.shc.state = .inGear ∧
        t.shc.current = some g ∧ t.shc.pendingShuttle = false ∧ t.shc.lever = d.lever ∧
        t.shc.ignored = none ∧ t.shc.refusals = s.shc.refusals) ∧
    (s.shc.state = .neutral → ∀ (g : Gear) (e : GearEntry), s.shc.selected = some g →
      d.lever = (match g.dir with | .forward => .f | .reverse => .r) →
      s.cfg.entryOf g = some e → e.start = true → s.chargeDoubt = false →
      s.scu.motion.outRpm * e.ratio / 1000 ≤ 2400 →
      ∃ t : State, exec .shcControlInterval s = .next t ∧ t.shc.state = .engaging ∧
        t.shc.target = some g ∧ t.shc.lever = d.lever ∧ t.shc.ignored = none ∧
        ((∀ x ∈ gearPair s.cfg g, (s.clutch x).state = .locked) →
          t.shc.phase = some .ramp ∧ t.shc.current = some g ∧
          (t.clutch g.dir.clutch).state = .filling) ∧
        ((∃ x ∈ gearPair s.cfg g, (s.clutch x).state ≠ .locked) →
          t.shc.phase = some .preselect ∧
          ∀ x ∈ gearPair s.cfg g, (s.clutch x).state ≠ .locked → (t.clutch x).state = .filling)) ∧
    (∀ g p : Gear, s.shc.state = .inGear → s.shc.current = some g → s.shc.partner g = some p →
      (s.shc.lever = .f ∧ d.lever = .r) ∨ (s.shc.lever = .r ∧ d.lever = .f) ∨
        (s.shc.lever = .n ∧ (d.lever = .f ∨ d.lever = .r) ∧ d.lever ≠ Dir.lever g.dir) →
      (∀ x ∈ g.dir.clutch :: gearPair s.cfg g, (s.clutch x).state = .locked) →
      (s.scu.motion.vGround < 3333 → p.dir ≠ g.dir →
        ∃ t : State, exec .shcControlInterval s = .next t ∧ t.shc.state = .shuttling ∧
          t.shc.phase = some .drain ∧ t.shc.target = some p ∧ t.shc.current = some g ∧
          t.shc.queue = [] ∧ t.shc.pendingShuttle = false ∧ t.shc.lever = d.lever ∧
          (∀ x ∈ g.dir.clutch :: swapped s.cfg (some p) (some g), (t.clutch x).state = .draining ∧
            (t.clutch x).command = (s.cfg.clutches.get x).hold) ∧
          (∀ x ∈ p.dir.clutch :: swapped s.cfg (some g) (some p), (t.clutch x).state = .filling ∧
            (t.clutch x).command = (s.cfg.clutches.get x).fillCurrent)) ∧
      (3333 ≤ s.scu.motion.vGround → s.shc.queue = [] →
        ∃ t : State, exec .shcControlInterval s = .next t ∧ t.shc.state = .inGear ∧
          t.shc.lever = d.lever ∧ t.shc.ignored = some d.lever ∧
          t.shc.lastRefusal = some (.speed, .cab) ∧ t.shc.refusals = s.shc.refusals + 1 ∧
          t.shc.pendingShuttle = false ∧ t.shc.current = some g))) ∧
  (∀ s : State, PreselectOnlyInNeutral s → s.mc.mode.controllersRun = true → s.shc.starting = false →
    CabSteady s → s.gearboxFaulted = false → s.speedsLost = false → s.shc.parkForce = false →
    s.brakeParkRequest = true → s.shc.state.busy →
    ∃ t : State, exec .shcControlInterval s = .next t ∧ PutInNeutral s t ∧ t.shc.lever = s.shc.lever ∧
      t.shc.parkForce = true ∧ t.shc.pendingPark = true) ∧
  (∀ s : State, s.mc.mode.controllersRun = true →
    (∀ d : CabDriveFields, s.lc.cabDrive.current = some d →
      ∃ t : State, exec .shcControlInterval s = .next t ∧ t.shc.lever = d.lever ∧
        t.shc.pedal = min 100 d.pedal ∧ t.shc.auto = d.auto ∧ t.shc.pedalHold = none ∧
        t.shc.cabFresh = true ∧ t.shc.rate = 2 + 2 * max 1 (min 5 d.aggressiveness) ∧
        (s.shc.cabFresh = false → d.lever ≠ s.shc.lever → t.shc.ignored = some d.lever ∧
          (s.shc.state = .inGear → d.lever ≠ .park → s.gearboxFaulted = false → s.shc.queue = [] →
            s.brakeParkRequest = false → s.shc.parkOrder = false →
            t.shc.state = .inGear ∧ t.shc.current = s.shc.current))) ∧
    (s.lc.cabDrive.current = none →
      ∃ t : State, exec .shcControlInterval s = .next t ∧ t.shc.lever = s.shc.lever ∧
        t.shc.pedal = s.shc.pedal ∧ t.shc.auto = s.shc.auto ∧ t.shc.rate = s.shc.rate ∧
        t.shc.cabFresh = false ∧
        (s.shc.cabFresh = true → t.shc.queue = [] ∧ t.shc.pedalHold = some 0) ∧
        (s.shc.cabFresh = false → t.shc.pedalHold = s.shc.pedalHold)))

/-! ## The front drive controller (05) -/

/-- R101 to R113: one FDC_CONTROL_INTERVAL: the mode in use, every reason, the state of the axle, the FDV
command, and the counting of deviation and agreement between front and rear (model's choices: log 68, and log 85
for the agreement timer held at 200). -/
def Obligations.FrontDriveInterval : Prop :=
  ∀ s : State, s.mc.mode.controllersRun = true →
    ∃ t : State, exec .fdcControlInterval s = .next t ∧ Touches [.vdb, .fdc, .mc] s t ∧
      (s.lc.cabDrive.fresh ≠ .fresh → t.fdc.mode = s.fdc.mode ∧ t.fdc.source = s.fdc.source) ∧
      (∀ d : CabDriveFields, s.lc.cabDrive.fresh = .fresh → s.lc.cabDrive.values = some d →
        ∀ m : FrontMode, m = (match d.front with | 0 => .off | 2 => .auto | _ => .on) →
          (s.fdc.cabSeen = some m → t.fdc.mode = s.fdc.mode ∧ t.fdc.source = s.fdc.source) ∧
          (s.fdc.cabSeen ≠ some m → t.fdc.mode = m ∧ t.fdc.source = .cab ∧ t.fdc.cabSeen = some m)) ∧
      (t.fdc.reasons.modeOn = true ↔ t.fdc.mode = .on) ∧
      (t.fdc.reasons.autoSpeed = true ↔
        t.fdc.mode = .auto ∧ s.htc.state ≠ .raising ∧ s.htc.state ≠ .transport ∧
          (s.scu.motion.vGround < 4000 ∨
            (s.scu.motion.vGround ≤ 4400 ∧ s.fdc.reasons.autoSpeed = true))) ∧
      (t.fdc.mode ≠ .auto ∨ s.htc.state = .raising ∨ s.htc.state = .transport →
        t.fdc.reasons.autoSlip = false ∧ t.fdc.slipClear = 0) ∧
      (t.fdc.mode = .auto → s.htc.state ≠ .raising → s.htc.state ≠ .transport →
        (s.scu.motion.slipVal ≠ .valid →
          t.fdc.reasons.autoSlip = s.fdc.reasons.autoSlip ∧ t.fdc.slipClear = 0) ∧
        (s.scu.motion.slipVal = .valid → 150 < s.scu.motion.filtered →
          t.fdc.reasons.autoSlip = true ∧ t.fdc.slipClear = 0) ∧
        (80 ≤ s.scu.motion.filtered → s.scu.motion.filtered ≤ 150 →
          t.fdc.reasons.autoSlip = s.fdc.reasons.autoSlip ∧ t.fdc.slipClear = 0) ∧
        (s.scu.motion.slipVal = .valid → s.scu.motion.filtered < 80 → s.fdc.slipClear + 1 < 200 →
          t.fdc.reasons.autoSlip = s.fdc.reasons.autoSlip ∧ t.fdc.slipClear = s.fdc.slipClear + 1) ∧
        (s.scu.motion.slipVal = .valid → s.scu.motion.filtered < 80 → 200 ≤ s.fdc.slipClear + 1 →
          t.fdc.reasons.autoSlip = false ∧ t.fdc.slipClear = 0)) ∧
      (t.fdc.reasons.braking = true ↔ ∃ p : Nat, s.tbc.brake = some p ∧ 150 < p) ∧
      (t.fdc.reasons.brakeUnmeasured = true ↔ s.tbc.brake = none) ∧
      (t.fdc.reasons.lowCharge = true ↔
        s.sfe.chans.chg.cmp = .low ∨ s.sfe.chans.chg.state ≠ .valid) ∧
      (t.fdc.reasons.shuttle = true ↔ s.shc.state = .shuttling ∨ s.shc.state = .engaging) ∧
      (t.fdc.reasons.standstill = true ↔ s.shc.state = .parked) ∧
      (t.fdc.reasons.fault = true ↔ s.vdb.reported .fdv = .openCoil ∨
        s.vdb.reported .fdv = .shortRetry ∨ s.vdb.reported .fdv = .shortLatched) ∧
      (t.fdc.reasons.start = true ↔ s.fdc.reasons.start = true ∧ s.mc.mode ≠ .operating) ∧
      (∀ time : Nat, time = min 65535 (s.fdc.time + 10) →
        (s.fdc.state = .engaged → t.fdc.reasons = Reasons.none → 200 ≤ s.fdc.empty + 1 → 1000 ≤ time →
          t.fdc.state = .releasing ∧ t.fdc.time = 0) ∧
        (s.fdc.state = .engaged →
          t.fdc.reasons ≠ Reasons.none ∨ s.fdc.empty + 1 < 200 ∨ time < 1000 →
          t.fdc.state = .engaged ∧ t.fdc.time = time) ∧
        (s.fdc.state = .releasing ∨ s.fdc.state = .released → t.fdc.reasons ≠ Reasons.none →
          t.fdc.state = .engaging ∧ t.fdc.time = 0) ∧
        (s.fdc.state = .releasing → t.fdc.reasons = Reasons.none →
          (200 ≤ time → t.fdc.state = .released ∧ t.fdc.time = 0) ∧
          (time < 200 → t.fdc.state = .releasing ∧ t.fdc.time = time)) ∧
        (s.fdc.state = .released → t.fdc.reasons = Reasons.none →
          t.fdc.state = .released ∧ t.fdc.time = time) ∧
        (s.fdc.state = .engaging →
          (200 ≤ time → t.fdc.state = .engaged ∧ t.fdc.time = 0) ∧
          (time < 200 → t.fdc.state = .engaging ∧ t.fdc.time = time))) ∧
      t.fdc.empty = (if t.fdc.reasons = Reasons.none then min 200 (s.fdc.empty + 1) else 0) ∧
      (t.out .fdv).command =
        (if t.fdc.state = .releasing ∨ t.fdc.state = .released then 1 else 0) ∧
      OutputsApart .fdv s t ∧
      (∀ (made apart : Prop) (vr : Nat), vr = s.scu.motion.vRear →
        (made ↔ t.fdc.state = .engaged ∧ 1000 < vr ∧ s.scu.motion.rearVal ≠ .lost ∧
          s.scu.motion.frontVal ≠ .lost) →
        (apart ↔ 15 * vr < ((s.scu.motion.vFront : Int) - (vr * s.cfg.lead / 1000 : Nat)).natAbs * 100) →
        (¬ made → t.fdc.deviation = 0 ∧ t.fdc.agreement = 0 ∧ t.mc = s.mc) ∧
        (made → apart → t.fdc.agreement = 0 ∧
          (s.fdc.deviation + 1 < 200 → t.fdc.deviation = s.fdc.deviation + 1 ∧ t.mc = s.mc) ∧
          (200 ≤ s.fdc.deviation + 1 → t.fdc.deviation = 0 ∧ t.mc = (raise .frontSlip s).mc)) ∧
        (made → ¬ apart → t.fdc.deviation = 0 ∧
          (200 ≤ s.fdc.agreement + 1 → s.faultPresent .frontSlip = true →
            t.fdc.agreement = 0 ∧ t.mc = (clearFault .frontSlip s).mc) ∧
          (s.fdc.agreement + 1 < 200 ∨ s.faultPresent .frontSlip = false →
            t.fdc.agreement = min 200 (s.fdc.agreement + 1) ∧ t.mc = s.mc)))

/-- R102 to R104, R108, R110, R113: FDC_RELEASE, RELEASING_COMPLETE, ENGAGING_COMPLETE, AUTO_SLIP_CLEAR,
FRONT_SLIP_RAISE, FRONT_SLIP_CLEAR and FDC_CHG_EVENT where they are due (model's choices: log 1, 65, 68). -/
def Obligations.FrontDriveChanges : Prop :=
  ∀ s : State, s.mc.mode.controllersRun = true →
    (∀ (c : Instr) (into : FdcState) (fdv : Nat),
      (c = .fdcRelease ∧ into = .releasing ∧ fdv = 1 ∧ s.fdc.state = .engaged ∧
          s.fdc.reasons = Reasons.none ∧ 200 ≤ s.fdc.empty ∧ 1000 ≤ s.fdc.time) ∨
        (c = .releasingComplete ∧ into = .released ∧ fdv = 1 ∧ s.fdc.state = .releasing ∧
          s.fdc.reasons = Reasons.none ∧ 200 ≤ s.fdc.time) ∨
        (c = .engagingComplete ∧ into = .engaged ∧ fdv = 0 ∧ s.fdc.state = .engaging ∧
          200 ≤ s.fdc.time) →
      ∃ t : State, exec c s = .next t ∧
        t.fdc = { s.fdc with state := into, time := 0, fdvOn := decide (fdv = 1) } ∧
        (t.out .fdv).command = fdv ∧ OutputsApart .fdv s t ∧ Touches [.vdb, .fdc] s t) ∧
    (200 ≤ s.fdc.slipClear →
      ∃ t : State, exec .autoSlipClear s = .next t ∧
        t.fdc = { s.fdc with slipClear := 0, reasons := { s.fdc.reasons with autoSlip := false } } ∧
        Touches [.fdc] s t) ∧
    (200 ≤ s.fdc.deviation →
      ∃ t : State, exec .frontSlipRaise s = .next t ∧ t.fdc = { s.fdc with deviation := 0 } ∧
        t.mc = (raise .frontSlip s).mc ∧ Touches [.fdc, .mc] s t) ∧
    (200 ≤ s.fdc.agreement → s.faultPresent .frontSlip = true →
      ∃ t : State, exec .frontSlipClear s = .next t ∧ t.fdc = { s.fdc with agreement := 0 } ∧
        t.mc = (clearFault .frontSlip s).mc ∧ Touches [.fdc, .mc] s t) ∧
    (∀ (ev : SfeEvent) (rest : List Delivery), OldestEvent .fdc .chg ev rest s →
      ∃ t : State, exec .fdcChgEvent s = .next t ∧ t.events = rest ∧
        Touches [.vdb, .fdc, .events] s t ∧
        (ev = .lowEnter ∨ ev = .failed ∨ ev = .starting → t.fdc.reasons.lowCharge = true ∧
          (s.fdc.state = .releasing ∨ s.fdc.state = .released →
            t.fdc.state = .engaging ∧ t.fdc.time = 0 ∧ (t.out .fdv).command = 0) ∧
          (s.fdc.state = .engaged ∨ s.fdc.state = .engaging → t.fdc.state = s.fdc.state)) ∧
        (ev = .lowLeave ∨ (ev = .valid ∧ s.sfe.chans.chg.cmp = .inRange) →
          t.fdc = { s.fdc with reasons := { s.fdc.reasons with lowCharge := false } } ∧
          t.vdb = s.vdb))

/-! ## The hitch controller (06) -/

/-- R116 to R118, R121, R122, R124 to R128, R131 to R135, R138 to R140: one HTC_CONTROL_INTERVAL that finds a
valid position and no faulted valve: what it reads, the control law in WORKING under either source, and what
it does in START_LOCK, HELD, RAISING, TRANSPORT, FENDER and WORKING under relief, at a lever change, at a fender
press, and at a lost cab or implement (FAULT_HOLD is in HitchTakesSfeEvents; model's choices: log 28, 50, 64, log
57 for the relief that stands until the pin's event, log 94 for what counts as FRESH before, and log 91 for the
refused flag that a rolling tractor sets in FENDER also with both buttons RELEASED). -/
def Obligations.HitchInterval : Prop :=
  ∀ (l r : Bool) (s : State), HitchSound s →
    (∃ t : State, exec (.htcControlInterval l r) s = .next t ∧ Touches [.pins, .vdb, .htc, .mc] s t ∧
      t.htc.position = s.sfe.chans.hps.value ∧ t.htc.posValid = true ∧
      t.htc.draft = s.sfe.chans.drl.value + s.sfe.chans.drr.value ∧
      t.htc.draftValid = (s.sfe.chans.drl.state == .valid && s.sfe.chans.drr.state == .valid &&
        !s.sfe.chans.drl.atLimit && !s.sfe.chans.drr.atLimit) ∧
      t.htc.left = s.htc.left.read l ∧ t.htc.right = s.htc.right.read r ∧
      (s.lc.cabHitch.current = none → t.htc.cab = s.htc.cab) ∧
      (∀ f : CabHitchFields, s.lc.cabHitch.current = some f → t.htc.cab =
        { lever := min 1000 f.lever, mix := min 100 f.mix, dropRate := max 1 (min 10 f.dropRate)
          upper := max 100 (min 1000 f.upper), slipLimit := max 50 (min 400 f.slipLimit)
          slipControl := decide (f.slipControl = 1), damping := decide (f.damping = 1)
          authority := decide (f.authority = 1) }) ∧
      (s.lc.cabHitch.current = none → t.htc.cabFresh = false ∧ t.htc.leverRef = s.htc.leverRef ∧
        t.htc.slipOn = s.htc.slipOn ∧ t.htc.slipSource = s.htc.slipSource) ∧
      (∀ (f : CabHitchFields) (lever : Nat) (slip : Bool), s.lc.cabHitch.current = some f →
        lever = min 1000 f.lever → slip = decide (f.slipControl = 1) →
        t.htc.cabFresh = true ∧
        (∀ ref : Nat, s.htc.leverRef = some ref → s.htc.cabFresh = true →
          ((lever : Int) - ref).natAbs < 10 → t.htc.leverRef = some ref) ∧
        (s.htc.leverRef = none ∨ s.htc.cabFresh = false ∨
            (∃ ref : Nat, s.htc.leverRef = some ref ∧ 10 ≤ ((lever : Int) - ref).natAbs) →
          t.htc.leverRef = some lever) ∧
        t.htc.cabSlipSeen = some slip ∧
        (s.htc.cabSlipSeen = some slip →
          t.htc.slipOn = s.htc.slipOn ∧ t.htc.slipSource = s.htc.slipSource) ∧
        (s.htc.cabSlipSeen ≠ some slip → t.htc.slipOn = slip ∧ t.htc.slipSource = .cab)) ∧
      (∀ h : Htc, h = t.htc →
        (s.htc.state = .held → NoPress l r s.htc → ∀ acts : Prop,
          (acts ↔ LeverMovedFresh s ∧ s.mc.mode ≠ .stopping ∧
            (s.htc.holdCause = some .cabLost ∨ s.htc.holdCause = some .sourceLost)) →
          (¬ acts → h.state = .held ∧ h.holdCause = s.htc.holdCause ∧ h.mixed = none ∧
            ValvesAt 0 0 t) ∧
          (acts → (s.htc.source = .implement → s.lc.implement.fresh = .fresh) →
            h.state = .working ∧ h.holdCause = none ∧
            (s.sfe.chans.drl.cmp ≠ .high → s.sfe.chans.drr.cmp ≠ .high →
              h.overload = false ∧ h.mixed.isSome = true) ∧
            (s.sfe.chans.drl.cmp = .high ∨ s.sfe.chans.drr.cmp = .high →
              h.overload = true ∧ h.mixed = none ∧
              ValvesAt (if (h.cab.upper : Int) ≤ h.position then 0 else 1200) 0 t))) ∧
        (s.htc.state = .working → NoPress l r s.htc →
          (∃ f : CabHitchFields, s.lc.cabHitch.current = some f) →
          (s.htc.source = .implement → s.lc.implement.fresh = .fresh) →
          s.htc.overload = true ∨ s.sfe.chans.drl.cmp = .high ∨ s.sfe.chans.drr.cmp = .high →
          h.state = .working ∧ h.overload = true ∧ h.mixed = none ∧ h.slipOverride = false ∧
            ValvesAt (if (h.cab.upper : Int) ≤ h.position then 0 else 1200) 0 t) ∧
        (s.htc.state = .working → NoPress l r s.htc → s.htc.overload = false →
          (∃ f : CabHitchFields, s.lc.cabHitch.current = some f) →
          s.sfe.chans.drl.cmp ≠ .high → s.sfe.chans.drr.cmp ≠ .high →
          (s.htc.source = .implement → s.lc.implement.fresh = .fresh) →
          h.state = .working ∧ h.overload = false ∧
          (∀ i : ImplementFields, s.lc.implement.current = some i → i.positionMode = true →
            h.cab.authority = true → h.source = .implement ∧ h.depth = min 1000 i.position) ∧
          (s.lc.implement.current = none ∨ h.cab.authority = false ∨
              (∃ i : ImplementFields, s.lc.implement.current = some i ∧ i.positionMode = false) →
            h.source = .cab ∧ h.depth = h.cab.lever) ∧
          ∀ (span m e0 e : Int), span = s.cfg.draftSpan → m = (if h.draftValid = true then h.cab.mix else 0) →
            e0 = Int.tdiv ((100 - m) * (h.depth - h.position) +
              m * Int.tdiv ((h.draft - Int.tdiv (span * (1000 - h.depth)) 1000) * 1000) span) 100 →
            e = (if h.slipOn = true ∧ s.scu.motion.slipVal = .valid ∧
                (h.cab.slipLimit : Int) < s.scu.motion.filtered
              then max e0 ((s.scu.motion.filtered - h.cab.slipLimit) * 4) else e0) →
            h.mixed = some e ∧ (h.slipOverride = true ↔ e0 < e) ∧
            (e.natAbs ≤ 10 → ValvesAt 0 0 t) ∧
            (10 < e → ValvesAt (if (h.cab.upper : Int) ≤ h.position then 0
              else min 1200 (380 + (e.natAbs - 10) * 6)) 0 t) ∧
            (e < -10 → ValvesAt 0 (min (350 + h.cab.dropRate * 65) (350 + (e.natAbs - 10) * 5)) t)) ∧
        (s.htc.state = .working ∨ s.htc.state = .raising ∨ s.htc.state = .transport →
          s.lc.cabHitch.current = none → s.lc.cabHitch.fresh ≠ .fresh → NoPress l r s.htc →
          h.state = .held ∧ h.holdCause = some .cabLost ∧ h.overload = false ∧ h.mixed = none ∧
          ValvesAt 0 0 t) ∧
        (s.htc.state = .working → s.lc.cabHitch.fresh = .fresh → s.htc.source = .implement →
          s.lc.implement.fresh ≠ .fresh → NoPress l r s.htc →
          h.state = .held ∧ h.holdCause = some .sourceLost ∧ h.source = .cab ∧
          h.depth = h.cab.lever ∧ ValvesAt 0 0 t) ∧
        (s.htc.state = .startLock → NoPress l r s.htc →
          (s.lc.cabHitch.fresh = .fresh → ((h.cab.lever : Int) - h.position).natAbs ≤ 50 →
            h.state = .working ∧ h.lockReleased = true ∧
            (s.sfe.chans.drl.cmp ≠ .high → s.sfe.chans.drr.cmp ≠ .high → h.overload = false ∧
              h.mixed.isSome = true)) ∧
          (s.lc.cabHitch.fresh ≠ .fresh ∨ 50 < ((h.cab.lever : Int) - h.position).natAbs →
            h.state = .startLock ∧ h.lockReleased = s.htc.lockReleased ∧ ValvesAt 0 0 t)) ∧
        (s.htc.state = .raising → s.lc.cabHitch.fresh = .fresh → NoPress l r s.htc →
          ((h.cab.upper : Int) ≤ h.position → h.state = .transport ∧ ValvesAt 0 0 t ∧
            h.reload = !h.draftValid ∧
            h.dAvg = (if h.draftValid = true then h.draft else s.htc.dAvg)) ∧
          (h.position < h.cab.upper → h.state = .raising ∧ ValvesAt 1200 0 t)) ∧
        (s.htc.state = .transport → s.lc.cabHitch.fresh = .fresh → NoPress l r s.htc →
          (h.position + 50 < h.cab.upper → h.state = .raising ∧ ValvesAt 1200 0 t) ∧
          ((h.cab.upper : Int) ≤ h.position + 50 → h.state = .transport ∧
            (h.draftValid = false → h.reload = true ∧ h.dAvg = s.htc.dAvg) ∧
            (h.draftValid = true → h.reload = false ∧ h.dAvg = (if s.htc.reload = true then h.draft
              else s.htc.dAvg + Int.tdiv (h.draft - s.htc.dAvg) 64)) ∧
            ∀ (acts : Prop) (e : Int),
              (acts ↔ h.cab.damping = true ∧ 2200 < s.scu.motion.vGround ∧ h.draftValid = true ∧
                s.htc.reload = false) →
              e = Int.tdiv (-(h.draft - s.htc.dAvg) * 1000) s.cfg.draftSpan →
              (¬ acts → h.damping = false ∧ h.mixed = none ∧ ValvesAt 0 0 t) ∧
              (acts → h.damping = true ∧ h.mixed = some e ∧
                (e.natAbs ≤ 10 → ValvesAt 0 0 t) ∧
                (10 < e → ValvesAt (if (h.cab.upper : Int) ≤ h.position then 0
                  else min 1200 (380 + (e.natAbs - 10) * 6)) 0 t) ∧
                (e < -10 → ValvesAt 0 (if h.position ≤ (h.cab.upper : Int) - 30 then 0
                  else min (350 + h.cab.dropRate * 65) (350 + (e.natAbs - 10) * 5)) t)))) ∧
        (¬ NoPress l r s.htc → s.scu.motion.standstill = true → s.mc.mode = .operating →
          s.htc.state ≠ .faultHold →
          h.state = .fender ∧ h.lockReleased = (s.htc.lockReleased || s.htc.state != .fender)) ∧
        (¬ NoPress l r s.htc → s.scu.motion.standstill = false ∨ s.mc.mode ≠ .operating →
          s.htc.state = .held → s.htc.holdCause = some .fender →
          h.state = .held ∧ h.refused = true ∧ ValvesAt 0 0 t) ∧
        (s.htc.state = .fender →
          (s.scu.motion.standstill = false → h.state = .held ∧ h.holdCause = some .fender ∧
            h.refused = true ∧ ValvesAt 0 0 t) ∧
          (h.left.settled = some false → h.right.settled = some false →
            h.state = .held ∧ h.holdCause = some .fender ∧ ValvesAt 0 0 t) ∧
          (s.scu.motion.standstill = true → h.left.settled = some true → h.right.settled ≠ some true →
            h.state = .fender ∧
            ValvesAt (if (h.cab.upper : Int) ≤ h.position then 0 else 700) 0 t) ∧
          (s.scu.motion.standstill = true → h.left.settled ≠ some true → h.right.settled = some true →
            h.state = .fender ∧ ValvesAt 0 500 t) ∧
          (s.scu.motion.standstill = true → h.left.settled = some true → h.right.settled = some true →
            h.state = .fender ∧ ValvesAt 0 0 t)) ∧
        (NoPress l r s.htc → h.left.settled = some false → h.right.settled = some false →
          s.htc.state ≠ .fender → h.refused = false)))

/-- R123, R138: SWITCH_UP and SWITCH_DOWN in each state of the hitch; without effect in STOPPING. -/
def Obligations.HitchSwitchEdges : Prop :=
  ∀ (c : Instr) (up : Bool) (rest : List Request) (s : State),
    (c = .switchUp ∧ up = true) ∨ (c = .switchDown ∧ up = false) →
    OldestRequest Request.isSwitch (.hitchSwitch up) rest s → s.mc.mode.controllersRun = true →
    ∃ t : State, exec c s = .next t ∧ t.requests = rest ∧
      Touches [.vdb, .htc, .hsq, .requests] s t ∧
      (s.mc.mode = .stopping → t.htc = s.htc ∧ t.vdb = s.vdb) ∧
      (s.hsq.state ≠ .running → t.hsq = s.hsq) ∧
      (s.mc.mode = .operating → up = true →
        (s.htc.state = .startLock ∨ s.htc.state = .held ∨ s.htc.state = .working →
          t.htc.state = .raising ∧ t.htc.holdCause = none ∧ t.htc.overload = false ∧
          t.htc.lockReleased = (s.htc.lockReleased || s.htc.state == .startLock) ∧
          (t.out .hlv).command = 0 ∧ (t.out .hrv).command = min 1200 (s.cfg.maxima.get .hrv)) ∧
        (s.htc.state = .raising ∨ s.htc.state = .transport ∨ s.htc.state = .fender ∨
            s.htc.state = .faultHold → t.htc = s.htc ∧ t.vdb = s.vdb)) ∧
      (s.mc.mode = .operating → up = false →
        (s.htc.state = .startLock ∨ s.htc.state = .held ∨ s.htc.state = .raising ∨
            s.htc.state = .transport →
          t.htc.state = .working ∧ t.htc.holdCause = none ∧
          t.htc.lockReleased = (s.htc.lockReleased || s.htc.state == .startLock) ∧
          (s.htc.pinLeft = false → s.htc.pinRight = false → t.htc.overload = false ∧
            (t.out .hrv).command = 0 ∧ (t.out .hlv).command = 0) ∧
          (s.htc.pinLeft = true ∨ s.htc.pinRight = true → t.htc.overload = true ∧
            (t.out .hlv).command = 0 ∧
            (t.out .hrv).command = (if (s.htc.cab.upper : Int) ≤ s.htc.position then 0
              else min 1200 (s.cfg.maxima.get .hrv)))) ∧
        (s.htc.state = .working ∨ s.htc.state = .fender ∨ s.htc.state = .faultHold →
          t.htc = s.htc ∧ t.vdb = s.vdb))

/-- R119, R120, R136 to R138, R142: the draft pins' events set and end overload relief (HTC_DRAFT_EVENT), HPS
FAILED holds the hitch (HTC_HPS_FAILED), and an interval makes the fault hold test and its exit test and
raises or clears DRAFT_UNAVAILABLE (model's choices: log 57, and log 97 for a FAILED pin that is the only one
configured). -/
def Obligations.HitchTakesSfeEvents : Prop :=
  ∀ (ev : SfeEvent) (rest : List Delivery) (s : State), s.mc.mode.controllersRun = true →
    (∀ pin : DraftPin, OldestEvent .htc (DraftPin.sensor pin) ev rest s →
      ∃ t : State, exec (.htcDraftEvent pin) s = .next t ∧ t.events = rest ∧
        Touches [.vdb, .htc, .events] s t ∧ t.htc.state = s.htc.state ∧
        (∀ mine other mine' other' : Bool,
          (match pin with
            | .left => mine = s.htc.pinLeft ∧ other = s.htc.pinRight ∧ mine' = t.htc.pinLeft ∧
                other' = t.htc.pinRight
            | .right => mine = s.htc.pinRight ∧ other = s.htc.pinLeft ∧ mine' = t.htc.pinRight ∧
                other' = t.htc.pinLeft) →
          other' = other ∧
          (ev = .highEnter → mine' = true) ∧ (ev = .highLeave ∨ ev = .failed → mine' = false) ∧
          (ev ≠ .highEnter → ev ≠ .highLeave → ev ≠ .failed → mine' = mine ∧ t.vdb = s.vdb) ∧
          (ev = .highEnter → s.htc.state = .working → t.htc.overload = true ∧ t.htc.mixed = none ∧
            (t.out .hlv).command = 0 ∧
            (t.out .hrv).command = (if (s.htc.cab.upper : Int) ≤ s.htc.position then 0
              else min 1200 (s.cfg.maxima.get .hrv))) ∧
          (ev = .highEnter → s.htc.state ≠ .working → t.vdb = s.vdb ∧
            t.htc.overload = s.htc.overload) ∧
          (ev = .highLeave ∨ ev = .failed →
            (s.htc.overload = true → other = false → t.htc.overload = false ∧
              (t.out .hrv).command = 0 ∧ (t.out .hlv).command = 0) ∧
            (s.htc.overload = false ∨ other = true → t.htc.overload = s.htc.overload ∧
              t.vdb = s.vdb)))) ∧
    (OldestEvent .htc .hps ev rest s →
      ∃ t : State, exec .htcHpsFailed s = .next t ∧ t.events = rest ∧
        Touches [.vdb, .htc, .events] s t ∧
        (ev ≠ .failed → t.htc = s.htc ∧ t.vdb = s.vdb) ∧
        (ev = .failed → t.htc.posValid = false ∧ t.htc.state = .faultHold ∧
          (s.htc.state ≠ .faultHold → t.htc.faultCause = some .position ∧ t.htc.holdCause = none ∧
            t.htc.mixed = none ∧ (t.out .hrv).command = 0 ∧ (t.out .hlv).command = 0))) ∧
    (∀ l r : Bool, ∃ t : State, exec (.htcControlInterval l r) s = .next t ∧
      (s.sfe.posValid = false ∨ s.hitchFaulted = true →
        t.htc.state = .faultHold ∧ ValvesAt 0 0 t ∧
        t.htc.faultCause = (if s.sfe.posValid = true then some .valve else some .position)) ∧
      (s.htc.state = .faultHold → s.sfe.posValid = true → s.hitchFaulted = false →
        NoPress l r s.htc → t.htc.faultCause = none ∧
        (s.mc.mode = .stopping →
          t.htc.state = .held ∧ t.htc.holdCause = some .stop ∧ ValvesAt 0 0 t) ∧
        (s.mc.mode = .operating → s.htc.lockReleased = true →
          t.htc.state = .held ∧ t.htc.holdCause = some .fault ∧ ValvesAt 0 0 t) ∧
        (s.mc.mode = .operating → s.htc.lockReleased = false → s.lc.cabHitch.fresh ≠ .fresh →
          t.htc.state = .startLock ∧ ValvesAt 0 0 t)) ∧
      (∀ failed valid : Prop,
        (failed ↔ s.sfe.chans.drl.state = .failed ∨ s.sfe.chans.drr.state = .failed) →
        (valid ↔ s.sfe.chans.drl.state = .valid ∧ s.sfe.chans.drr.state = .valid) →
        (t.htc.pinFailed = true ↔ failed) ∧
        (failed → s.htc.pinFailed = false → t.mc = (raise .draftUnavailable s).mc) ∧
        (valid → t.mc = (clearFault .draftUnavailable s).mc) ∧
        (¬ valid → ¬ failed ∨ s.htc.pinFailed = true → t.mc = s.mc)))

/-! ## The trailer brake controller (07) -/

/-- R159: a table applied to an input, and that the result lies within the range of the table's outputs. -/
def Obligations.BrakeTableApplied : Prop :=
  ∀ (points : List (Nat × Nat)) (x : Nat), points ≠ [] →
    (∀ i j : Nat, i < j → j < points.length → (points.getD i (0, 0)).1 < (points.getD j (0, 0)).1) →
    (x < (points.getD 0 (0, 0)).1 → applyTable points x = (points.getD 0 (0, 0)).2) ∧
    ((points.getD (points.length - 1) (0, 0)).1 ≤ x →
      applyTable points x = (points.getD (points.length - 1) (0, 0)).2) ∧
    (∀ (i : Nat) (a b : Nat × Nat), i + 1 < points.length → a = points.getD i (0, 0) →
      b = points.getD (i + 1) (0, 0) → a.1 ≤ x → x < b.1 →
      (applyTable points x : Int) =
        a.2 + Int.tdiv (((b.2 : Int) - a.2) * ((x : Int) - a.1)) ((b.1 : Int) - a.1) ∧
      min a.2 b.2 ≤ applyTable points x ∧ applyTable points x ≤ max a.2 b.2) ∧
    (∀ limit : Nat, (∀ p ∈ points, p.2 ≤ limit) → applyTable points x ≤ limit)

/-- R147, R157, R160, R162, R165: what every TBC_CONTROL_INTERVAL leaves: the brake pressure in force and
its source, the demand and the commands of both valves (model's choices: log 38, and log 77 for the correction 0 at
demand 0 under overpressure). -/
def Obligations.TrailerInterval : Prop :=
  ∀ (k : Bool) (s : State), s.mc.mode.controllersRun = true →
    ∃ t : State, exec (.tbcControlInterval k) s = .next t ∧ t.pins = { s.pins with coupling := k } ∧
      Touches [.pins, .vdb, .fdc, .tbc, .lc, .mc] s t ∧
      (∀ own station : Option Nat,
        own = (if s.sfe.chans.tbr.state = .valid then some s.sfe.chans.tbr.value.toNat else none) →
        station = (if s.lc.brake.fresh = .fresh
          then s.lc.brake.values.map fun b => max (min 1600 b.left) (min 1600 b.right) else none) →
        t.tbc.station = station ∧
        (∀ a b : Nat, own = some a → station = some b → t.tbc.brake = some (max a b) ∧
          t.tbc.brakeSource = (if b ≤ a then .own else .station)) ∧
        (∀ a : Nat, own = some a → station = none →
          t.tbc.brake = some a ∧ t.tbc.brakeSource = .own) ∧
        (∀ b : Nat, own = none → station = some b →
          t.tbc.brake = some b ∧ t.tbc.brakeSource = .station) ∧
        (own = none → station = none → t.tbc.brake = none ∧ t.tbc.brakeSource = .none)) ∧
      (∀ b o h : Nat,
        b = applyTable s.cfg.brakeCurve (t.tbc.brake.getD 0) →
        o = (if s.scu.motion.direction = .unknown then 0 else min 600 (2 * s.shc.overrun)) →
        h = (if s.shc.state = .shuttling ∧ 1000 < s.scu.motion.vGround then 200 else 0) →
        (t.tbc.state = .ready ∨ t.tbc.state = .supplyFault →
          t.tbc.demand = min 1500 (max b (max o h)) ∧
          (t.tbc.demand ≠ 0 → t.tbc.contributor =
            (if o ≤ b ∧ h ≤ b then .brake else if h ≤ o then .overrun else .shuttle))) ∧
        (t.tbc.state ≠ .ready → t.tbc.state ≠ .supplyFault → t.tbc.demand = 0)) ∧
      (t.tbc.demand = 0 → t.tbc.contributor = .none ∧ t.tbc.correction = 0) ∧
      (∀ table : Nat, table = applyTable s.cfg.trailerCurve t.tbc.demand →
        (t.tbc.demand = 0 ∨ t.tbc.overpressure = true → t.tbc.tcv = 0) ∧
        (t.tbc.demand ≠ 0 → t.tbc.overpressure = false → s.sfe.chans.tcl.state ≠ .valid →
          t.tbc.tcv = table) ∧
        (t.tbc.demand ≠ 0 → t.tbc.overpressure = false → s.sfe.chans.tcl.state = .valid →
          (t.tbc.tcv : Int) = max 0 (min 2000 (table + t.tbc.correction)) ∧
          -200 ≤ t.tbc.correction ∧ t.tbc.correction ≤ 200)) ∧
      (t.out .tcv).command = min t.tbc.tcv (s.cfg.maxima.get .tcv) ∧
      (t.out .tsv).command = (if t.tbc.state = .charging ∨ t.tbc.state = .ready ∨
        t.tbc.state = .supplyFault then 1 else 0) ∧
      (s.shc.state = .parked → t.tbc.state = .parked ∨ t.tbc.state = .breakaway)

/-- R148 to R158, R162, R164: COUPLING_CHANGE, CHARGE_TIMEOUT, SUPPLY_LOW_TIMEOUT, SUPPLY_RECOVERED,
BRAKE_UNKNOWN, BRAKE_DISAGREE and BRAKE_DISAGREE_CLEAR where they are due, and the same changes, the release
from PARKED, the supply faults that PARKED and CHARGING carry until READY clears them, and the move of the
correction at TBC_CONTROL_INTERVAL (model's choices: log 1, 34, 55, 76, log 68 for
BRAKE_DISAGREE active, which is read as its condition present, and log 85 for the agreement timer held at 50). -/
def Obligations.TrailerChanges : Prop :=
  ∀ s : State, s.mc.mode.controllersRun = true →
    (3 ≤ s.tbc.samples →
      ∃ t : State, exec .couplingChange s = .next t ∧ t.tbc.coupled = !s.tbc.coupled ∧
        t.tbc.samples = 0 ∧ Touches [.vdb, .tbc, .lc, .mc] s t ∧
        (s.tbc.state = .absent → s.tbc.coupled = false → t.tbc.state = .charging ∧ t.tbc.timer = 0 ∧
          (t.out .tsv).command = 1 ∧ t.mc = s.mc) ∧
        (s.tbc.state = .charging ∨ s.tbc.state = .ready ∨ s.tbc.state = .supplyFault →
          s.tbc.coupled = true → t.tbc.state = .breakaway ∧ t.tbc.demand = 0 ∧
          (t.out .tsv).command = 0 ∧ (t.out .tcv).command = 0 ∧
          t.mc = (raiseLatched .trailerBreakaway s).mc) ∧
        (s.tbc.state = .breakaway ∨ s.tbc.state = .parked →
          t.tbc.state = s.tbc.state ∧ t.mc = s.mc)) ∧
    (∀ (c : Instr) (into : TrailerState) (f : State → State),
      (c = .chargeTimeout ∧ into = .supplyFault ∧ f = raise .trailerChargeFailed ∧
          s.tbc.state = .charging ∧ 10000 ≤ s.tbc.timer ∧
          ¬(s.sfe.chans.tsl.state = .valid ∧ 350 ≤ s.sfe.chans.tsl.value)) ∨
        (c = .supplyLowTimeout ∧ into = .supplyFault ∧ f = raise .trailerSupplyLost ∧
          s.tbc.state = .ready ∧ 20 ≤ s.tbc.lowTimer) ∨
        (c = .supplyRecovered ∧ into = .ready ∧
          f = (fun u => clearFault .trailerChargeFailed (clearFault .trailerSupplyLost u)) ∧
          s.tbc.state = .supplyFault ∧ 1000 ≤ s.tbc.timer) →
      ∃ t : State, exec c s = .next t ∧ t.tbc.state = into ∧ t.tbc.timer = 0 ∧ t.tbc.lowTimer = 0 ∧
        t.tbc.brake = s.tbc.brake ∧ (t.out .tsv).command = 1 ∧ t.mc = (f s).mc ∧
        t.tbc.demand = min 1500 (max (applyTable s.cfg.brakeCurve (s.tbc.brake.getD 0))
          (max (if s.scu.motion.direction = .unknown then 0 else min 600 (2 * s.shc.overrun))
            (if s.shc.state = .shuttling ∧ 1000 < s.scu.motion.vGround then 200 else 0))) ∧
        Touches [.vdb, .tbc, .lc, .mc] s t) ∧
    (s.tbc.brake = none → 50 ≤ s.tbc.unknown → s.faultPresent .brakeUnknown = false →
      ∃ t : State, exec .brakeUnknown s = .next t ∧ t = raise .brakeUnknown s) ∧
    (50 ≤ s.tbc.disagree →
      ∃ t : State, exec .brakeDisagree s = .next t ∧ t.tbc = { s.tbc with disagree := 0 } ∧
        t.mc = (raise .brakeDisagree s).mc ∧ Touches [.tbc, .mc] s t) ∧
    (50 ≤ s.tbc.agree → s.faultPresent .brakeDisagree = true →
      ∃ t : State, exec .brakeDisagreeClear s = .next t ∧ t.tbc = { s.tbc with agree := 0 } ∧
        t.mc = (clearFault .brakeDisagree s).mc ∧ Touches [.tbc, .mc] s t) ∧
    (∀ k : Bool, ∃ t : State, exec (.tbcControlInterval k) s = .next t ∧
      (k = s.tbc.coupled → t.tbc.coupled = k ∧ t.tbc.samples = 0) ∧
      (k ≠ s.tbc.coupled → s.tbc.samples + 1 < 3 →
        t.tbc.coupled = s.tbc.coupled ∧ t.tbc.samples = s.tbc.samples + 1) ∧
      (k ≠ s.tbc.coupled → 3 ≤ s.tbc.samples + 1 → t.tbc.coupled = k ∧ t.tbc.samples = 0) ∧
      (t.tbc.brake ≠ none → t.tbc.unknown = 0 ∧ t.faultPresent .brakeUnknown = false) ∧
      (t.tbc.brake = none → t.tbc.unknown = min 50 (s.tbc.unknown + 1) ∧
        (s.tbc.unknown + 1 = 50 → s.mc.faults.length < 14 → t.faultPresent .brakeUnknown = true)) ∧
      (∀ own station : Option Nat,
        own = (if s.sfe.chans.tbr.state = .valid then some s.sfe.chans.tbr.value.toNat else none) →
        station = (if s.lc.brake.fresh = .fresh
          then s.lc.brake.values.map fun b => max (min 1600 b.left) (min 1600 b.right) else none) →
        (own = none ∨ station = none → t.tbc.disagree = 0 ∧ t.tbc.agree = 0) ∧
        (∀ a b : Nat, own = some a → station = some b →
          (150 < ((a : Int) - b).natAbs → t.tbc.agree = 0 ∧
            (s.tbc.disagree + 1 < 50 → t.tbc.disagree = s.tbc.disagree + 1) ∧
            (50 ≤ s.tbc.disagree + 1 → t.tbc.disagree = 0 ∧
              (s.mc.faults.length < 14 → t.faultPresent .brakeDisagree = true))) ∧
          (((a : Int) - b).natAbs ≤ 150 → t.tbc.disagree = 0 ∧
            (50 ≤ s.tbc.agree + 1 → s.faultPresent .brakeDisagree = true →
              t.tbc.agree = 0 ∧ t.faultPresent .brakeDisagree = false) ∧
            (s.tbc.agree + 1 < 50 ∨ s.faultPresent .brakeDisagree = false →
              t.tbc.agree = min 50 (s.tbc.agree + 1))))) ∧
      (∀ (low good : Prop), (low ↔ s.sfe.chans.tsl.state ≠ .valid ∨ s.sfe.chans.tsl.cmp = .low) →
        (good ↔ s.sfe.chans.tsl.state = .valid ∧ 350 ≤ s.sfe.chans.tsl.value) →
        s.shc.state ≠ .parked →
        (k = s.tbc.coupled ∨ s.tbc.samples + 1 < 3 →
          (s.tbc.state = .charging →
            (good → t.tbc.state = .ready ∧ t.tbc.timer = 0 ∧ t.tbc.lowTimer = 0) ∧
            (¬ good → s.tbc.timer + 10 < 10000 →
              t.tbc.state = .charging ∧ t.tbc.timer = s.tbc.timer + 10) ∧
            (¬ good → 10000 ≤ s.tbc.timer + 10 → t.tbc.state = .supplyFault ∧ t.tbc.timer = 0 ∧
              (s.mc.faults.length < 14 → t.faultPresent .trailerChargeFailed = true))) ∧
          (s.tbc.state = .ready →
            (¬ low → t.tbc.state = .ready ∧ t.tbc.lowTimer = 0) ∧
            (low → s.tbc.lowTimer + 1 < 20 →
              t.tbc.state = .ready ∧ t.tbc.lowTimer = s.tbc.lowTimer + 1) ∧
            (low → 20 ≤ s.tbc.lowTimer + 1 → t.tbc.state = .supplyFault ∧ t.tbc.timer = 0 ∧
              (s.mc.faults.length < 14 → t.faultPresent .trailerSupplyLost = true))) ∧
          (s.tbc.state = .supplyFault →
            (¬ good → t.tbc.state = .supplyFault ∧ t.tbc.timer = 0) ∧
            (good → s.tbc.timer + 10 < 1000 →
              t.tbc.state = .supplyFault ∧ t.tbc.timer = s.tbc.timer + 10) ∧
            (good → 1000 ≤ s.tbc.timer + 10 → t.tbc.state = .ready ∧ t.tbc.lowTimer = 0 ∧
              t.faultPresent .trailerSupplyLost = false ∧
              t.faultPresent .trailerChargeFailed = false)) ∧
          (s.tbc.state = .absent → t.tbc.state = .absent) ∧
          (s.tbc.state = .breakaway → t.tbc.state = .breakaway)) ∧
        (k ≠ s.tbc.coupled → 3 ≤ s.tbc.samples + 1 →
          (s.tbc.state = .charging ∨ s.tbc.state = .ready ∨ s.tbc.state = .supplyFault → k = false →
            t.tbc.state = .breakaway ∧ t.tbc.demand = 0 ∧
            (s.mc.faults.length < 14 → t.faultPresent .trailerBreakaway = true)) ∧
          (s.tbc.state = .absent → k = true →
            t.tbc.state = (if s.tslGood = true then .ready else .charging))) ∧
        (s.tbc.state = .parked → s.tbc.stopOrder = true → t.tbc.state = .parked) ∧
        (s.tbc.state = .parked → s.tbc.stopOrder = false →
          (t.tbc.coupled = false → t.tbc.state = .absent) ∧
          (t.tbc.coupled = true → good → t.tbc.state = .ready) ∧
          (t.tbc.coupled = true → ¬ good → t.tbc.state = .charging ∧ t.tbc.timer = 10))) ∧
      (s.tbc.state ≠ .ready → t.tbc.state = .ready →
        t.faultPresent .trailerSupplyLost = false ∧ t.faultPresent .trailerChargeFailed = false) ∧
      (t.tbc.state = .parked ∨ t.tbc.state = .charging →
        t.faultPresent .trailerSupplyLost = s.faultPresent .trailerSupplyLost ∧
        t.faultPresent .trailerChargeFailed = s.faultPresent .trailerChargeFailed) ∧
      (s.tbc.state = .charging ∨ s.tbc.state = .ready ∨ s.tbc.state = .supplyFault →
        t.tbc.state = .ready ∨ t.tbc.state = .supplyFault → t.tbc.demand ≠ 0 →
        (s.tbc.overpressure = true → t.tbc.correction = s.tbc.correction) ∧
        (s.tbc.overpressure = false → s.sfe.chans.tcl.state ≠ .valid → t.tbc.correction = 0) ∧
        (s.tbc.overpressure = false → s.sfe.chans.tcl.state = .valid → t.tbc.correction =
          max (-200) (min 200 (s.tbc.correction +
            Int.tdiv ((t.tbc.demand : Int) - s.sfe.chans.tcl.value) 4)))))

/-- R109, R147, R148, R153, R163, R164: TBR_STATE_EVENT, TCL_EVENT and TSL_EVENT. -/
def Obligations.TrailerTakesSfeEvents : Prop :=
  ∀ (ev : SfeEvent) (rest : List Delivery) (s : State), s.mc.mode.controllersRun = true →
    (OldestEvent .tbc .tbr ev rest s →
      ∃ t : State, exec .tbrStateEvent s = .next t ∧ t.events = rest ∧
        Touches [.vdb, .fdc, .tbc, .events] s t ∧ t.tbc.station = s.tbc.station ∧
        (s.sfe.chans.tbr.state ≠ .valid → t.tbc.brake = s.tbc.station) ∧
        (s.sfe.chans.tbr.state = .valid →
          t.tbc.brake = some (max s.sfe.chans.tbr.value.toNat (s.tbc.station.getD 0))) ∧
        (t.fdc.reasons.brakeUnmeasured = true ↔ t.tbc.brake = none) ∧
        (t.fdc.reasons.braking = true ↔ ∃ p : Nat, t.tbc.brake = some p ∧ 150 < p) ∧
        (s.fdc.state = .releasing ∨ s.fdc.state = .released → ¬ BrakesFree t →
          t.fdc.state = .engaging ∧ (t.out .fdv).command = 0) ∧
        (s.tbc.state = .ready ∨ s.tbc.state = .supplyFault →
          applyTable s.cfg.brakeCurve (t.tbc.brake.getD 0) ≤ 1500 →
          applyTable s.cfg.brakeCurve (t.tbc.brake.getD 0) ≤ t.tbc.demand)) ∧
    (OldestEvent .tbc .tcl ev rest s →
      ∃ t : State, exec .tclEvent s = .next t ∧ t.events = rest ∧
        Touches [.vdb, .tbc, .mc, .events] s t ∧ t.tbc.state = s.tbc.state ∧
        t.tbc.demand = s.tbc.demand ∧
        (ev = .highEnter → t.tbc.overpressure = true ∧ (t.out .tcv).command = 0 ∧
          t.mc = (raise .tclOverpressure s).mc) ∧
        (ev = .highLeave → t.tbc.overpressure = false ∧ t.tbc.correction = s.tbc.correction ∧
          t.mc = (clearFault .tclOverpressure s).mc) ∧
        (ev = .failed → t.tbc.overpressure = false ∧ t.tbc.correction = 0 ∧
          t.mc = (raise .tclFailed (clearFault .tclOverpressure s)).mc ∧
          (s.sfe.chans.tcl.state = .failed → t.tbc.tcv = (if s.tbc.demand = 0 then 0
            else applyTable s.cfg.trailerCurve s.tbc.demand))) ∧
        (ev = .valid → t.tbc = s.tbc ∧ t.vdb = s.vdb ∧ t.mc = (clearFault .tclFailed s).mc)) ∧
    (OldestEvent .tbc .tsl ev rest s →
      ∃ t : State, exec .tslEvent s = .next t ∧ t.events = rest ∧ Touches [.tbc, .events] s t ∧
        (ev = .lowEnter ∨ ev = .failed ∨ ev = .starting →
          t.tbc = { s.tbc with supplyLow := true }) ∧
        (ev = .lowLeave ∨ (ev = .valid ∧ s.sfe.chans.tsl.cmp = .inRange) →
          t.tbc = { s.tbc with supplyLow := false }))

/-! ## The headland sequencer (08) -/

/-- R106, R129, R130, R170, R173, R176, R177: HEADLAND_START begins a run of the next list, takes its copies of
the cab's fields and issues its leading IMMEDIATE steps; HEADLAND_CANCEL aborts a run (model's choices: log 95 for
the hitch record's freshness at START, which stands for that of the interval before). -/
def Obligations.HeadlandStartAndCancel : Prop :=
  ∀ (rest : List Request) (s : State), s.mc.mode = .operating →
    (OldestRequest Request.isHeadland (.headland true) rest s →
      ∃ t : State, exec .headlandStart s = .next t ∧ t.requests = rest ∧
        Touches [.vdb, .shc, .fdc, .htc, .hsq, .lc, .requests] s t ∧
        (s.hsq.state = .running → t.hsq = s.hsq ∧ Touches [.requests] s t) ∧
        (s.hsq.state ≠ .running → ∀ (k : SeqKind) (l imm : List HStep), k = s.hsq.nextKind →
          l = (match k with | .entry => s.cfg.entry | .exit => s.cfg.exit) →
          imm = l.takeWhile (fun x => decide (x.trigger = .immediate)) →
          t.hsq.kind = some k ∧ t.hsq.stepCount = l.length ∧ t.hsq.index = imm.length ∧
          t.hsq.nextKind = (match k with | .entry => .exit | .exit => .entry) ∧
          t.hsq.cause = none ∧ t.hsq.progress = 0 ∧
          (∀ d : CabDriveFields, s.lc.cabDrive.current = some d →
            t.hsq.frontSeen = some (if d.front = 0 then .off else if d.front = 2 then .auto else .on)) ∧
          (s.lc.cabDrive.current = none → t.hsq.frontSeen = none) ∧
          (∀ f : CabHitchFields, s.lc.cabHitch.current = some f →
            t.hsq.slipSeen = some (decide (f.slipControl = 1)) ∧
            t.hsq.leverRef = some (min 1000 f.lever)) ∧
          (s.lc.cabHitch.current = none → t.hsq.slipSeen = none ∧ t.hsq.leverRef = none) ∧
          (t.hsq.hitchFresh = true ↔ s.lc.cabHitch.fresh = .fresh) ∧
          (imm = l → t.hsq.state = .done ∧ t.hsq.trigStart = none) ∧
          (∀ x : HStep, l[imm.length]? = some x → t.hsq.state = .running ∧
            (∀ d : Nat, x.trigger = .distance d → t.hsq.trigStart = some s.scu.motion.travel) ∧
            (∀ d : Nat, x.trigger = .time d → t.hsq.trigStart = some s.now)) ∧
          (∀ (m : FrontMode) (front back : List HStep),
            imm = front ++ ⟨.frontMode m, .immediate⟩ :: back →
            (∀ y ∈ back, ∀ n : FrontMode, y.action ≠ .frontMode n) →
            t.fdc = { s.fdc with mode := m, source := .headland }) ∧
          ((∀ y ∈ imm, ∀ n : FrontMode, y.action ≠ .frontMode n) → t.fdc = s.fdc) ∧
          (∀ (on : Bool) (front back : List HStep),
            imm = front ++ ⟨.slipControl on, .immediate⟩ :: back →
            (∀ y ∈ back, ∀ b : Bool, y.action ≠ .slipControl b) →
            t.htc.slipOn = on ∧ t.htc.slipSource = .headland) ∧
          ((∀ y ∈ imm, ∀ b : Bool, y.action ≠ .slipControl b) →
            t.htc.slipOn = s.htc.slipOn ∧ t.htc.slipSource = s.htc.slipSource) ∧
          (∀ (up : Bool) (front back : List HStep),
            imm = front ++ ⟨if up = true then .hitchRaise else .hitchWork, .immediate⟩ :: back →
            (∀ y ∈ back, y.action ≠ .hitchRaise ∧ y.action ≠ .hitchWork) →
            s.lc.cabHitch.fresh = .fresh →
            s.htc.state = .held ∨ s.htc.state = .raising ∨ s.htc.state = .transport ∨
              s.htc.state = .working →
            (up = true → t.htc.state = .raising ∨ t.htc.state = .transport) ∧
            (up = false → t.htc.state = .working)) ∧
          (∀ (n : Nat) (front back : List HStep),
            imm = front ++ ⟨.shiftUp n, .immediate⟩ :: back →
            (∀ y ∈ front ++ back, ∀ i : Nat, y.action ≠ .shiftUp i ∧ y.action ≠ .shiftDown i) →
            1 ≤ n → n ≤ 3 → s.shc.state = .inGear → s.sfe.chans.chg.cmp ≠ .low →
            s.sfe.chans.chg.state = .valid → s.lc.cabDrive.fresh = .fresh → s.speedsLost = false →
            s.shc.queue = [] →
            t.shc = { s.shc with queue := [⟨.up, n, .headland⟩] } ∧
            t.hsq.lastShift = some ⟨k, front.length, .shiftUp n⟩ ∧
            t.hsq.refusalsSeen = s.shc.refusals) ∧
          (l = [⟨.hitchRaise, .immediate⟩] → s.htc.state = .held →
            (s.lc.cabHitch.fresh = .fresh → t.htc.state = .raising) ∧
            (s.lc.cabHitch.fresh ≠ .fresh → t.htc = s.htc ∧
              t.hsq.lastRefused = some (⟨k, 0, .hitchRaise⟩, .htc .stale))) ∧
          (l = [⟨.shiftUp 1, .immediate⟩] → s.shc.state = .neutral →
            t.shc = { s.shc with
              lastRefusal := some (.noGear, .headland), refusals := s.shc.refusals + 1 } ∧
            t.hsq.lastRefused = some (⟨k, 0, .shiftUp 1⟩, .shc .noGear)))) ∧
    (OldestRequest Request.isHeadland (.headland false) rest s →
      ∃ t : State, exec .headlandCancel s = .next t ∧ t.requests = rest ∧
        Touches [.hsq, .requests] s t ∧
        (s.hsq.state = .running →
          t.hsq = { s.hsq with state := .aborted, cause := some .cancel, trigStart := none }) ∧
        (s.hsq.state ≠ .running → t.hsq = s.hsq))

/-- R106, R129, R130, R169, R171 to R174, R176, R177: HSQ_CONTROL_INTERVAL, and DISTANCE_TRIGGER and
TIME_TRIGGER where they are due, count a trigger, carry out the waiting step with the IMMEDIATE steps behind
it, record a late
refusal, and abort on the cab's level fields, the lever and the shuttle; a cab's shift command or switch edge
aborts a run whose remaining steps use it (model's choices: log 35, 51, and log 58 for the cap of 500,000,000). -/
def Obligations.HeadlandTriggersIssue : Prop :=
  (∀ (k : SeqKind) (x : HStep) (rest : List HStep) (s : State), s.mc.mode = .operating →
    s.hsq.state = .running → s.hsq.kind = some k →
    (match k with | .entry => s.cfg.entry | .exit => s.cfg.exit).drop s.hsq.index = x :: rest →
    (∀ (c : Instr) (done : Nat) (due : Prop),
      done = (match s.hsq.trigStart with
        | some t0 => if s.scu.motion.standstill = true then s.hsq.progress
            else min 500000000 (s.hsq.progress + (s.scu.motion.travel - t0).toNat)
        | none => s.hsq.progress) →
      (due ↔ (∃ d : Nat, x.trigger = .distance d ∧ d * 100000 ≤ done) ∨
        ∃ (d : Nat) (t0 : Stamp), x.trigger = .time d ∧ s.hsq.trigStart = some t0 ∧
          d * 100000 ≤ (s.now - t0).toNat) →
      ¬ FieldTouched (x :: rest) s → s.shc.lever = .f ∨ s.shc.lever = .r →
      s.shc.state ≠ .shuttling → s.shc.pendingShuttle = false →
      (c = .hsqControlInterval ∨ (c = .distanceTrigger ∧ ∃ d : Nat, x.trigger = .distance d) ∨
          (c = .timeTrigger ∧ ∃ d : Nat, x.trigger = .time d) →
        due →
        ∃ t : State, exec c s = .next t ∧ Touches [.vdb, .shc, .fdc, .htc, .hsq, .lc] s t ∧
          t.hsq.kind = some k ∧ t.hsq.stepCount = s.hsq.stepCount ∧
          ∀ (imm : List HStep) (todo : List HAction),
            imm = rest.takeWhile (fun y => decide (y.trigger = .immediate)) →
            todo = (x :: imm).map (fun y => y.action) →
            StepsCarriedOut k s.hsq.index todo s t ∧
            t.hsq.index = s.hsq.index + 1 + imm.length ∧
            (imm = rest → t.hsq.state = .done ∧ t.hsq.trigStart = none) ∧
            (∀ y : HStep, rest[imm.length]? = some y → t.hsq.state = .running ∧
              (∀ d : Nat, y.trigger = .distance d →
                t.hsq.trigStart = some s.scu.motion.travel ∧ t.hsq.progress = 0) ∧
              (∀ d : Nat, y.trigger = .time d → t.hsq.trigStart = some s.now))) ∧
      (c = .distanceTrigger ∨ c = .timeTrigger → ¬ due → exec c s = .next s) ∧
      (c = .hsqControlInterval → ¬ due →
        ∃ t : State, exec c s = .next t ∧ Touches [.hsq] s t ∧ t.hsq.state = .running ∧
          t.hsq.index = s.hsq.index ∧ t.hsq.refusalsSeen = s.shc.refusals ∧
          (∀ d : Nat, x.trigger = .distance d → s.hsq.trigStart.isSome = true →
            t.hsq.progress = done ∧ t.hsq.trigStart = some s.scu.motion.travel) ∧
          (∀ (r : StepRef) (why : ShcReason), s.shc.refusals ≠ s.hsq.refusalsSeen →
            s.shc.lastRefusal = some (why, .headland) → s.hsq.lastShift = some r →
            t.hsq.lastRefused = some (r, .shc why)) ∧
          (s.shc.refusals = s.hsq.refusalsSeen → t.hsq.lastRefused = s.hsq.lastRefused))) ∧
    (∃ t : State, exec .hsqControlInterval s = .next t ∧
      (FieldTouched (x :: rest) s →
        t.hsq.state = .aborted ∧ t.hsq.cause = some .cabRequest ∧ t.hsq.index = s.hsq.index ∧
        Touches [.hsq] s t) ∧
      (¬ FieldTouched (x :: rest) s → s.shc.lever = .n ∨ s.shc.lever = .park →
        t.hsq.state = .aborted ∧ t.hsq.cause = some .lever ∧ t.hsq.index = s.hsq.index ∧
        Touches [.hsq] s t) ∧
      (¬ FieldTouched (x :: rest) s → s.shc.lever = .f ∨ s.shc.lever = .r →
        s.shc.state = .shuttling ∨ s.shc.pendingShuttle = true →
        t.hsq.state = .aborted ∧ t.hsq.cause = some .shuttle ∧ t.hsq.index = s.hsq.index ∧
        Touches [.hsq] s t)) ∧
    (∀ (c : Instr) (r : Request) (others : List Request) (uses : Prop),
      (((c = .cabShiftUp ∧ r = .shift .up) ∨ (c = .cabShiftDown ∧ r = .shift .down) ∨
            (c = .cabSelect ∧ ∃ g : Option Gear, r = .shift (.select g))) ∧
          OldestRequest Request.isShift r others s ∧
          (uses ↔ ∃ y ∈ x :: rest, ∃ n : Nat, y.action = .shiftUp n ∨ y.action = .shiftDown n)) ∨
        (((c = .switchUp ∧ r = .hitchSwitch true) ∨ (c = .switchDown ∧ r = .hitchSwitch false)) ∧
          OldestRequest Request.isSwitch r others s ∧
          (uses ↔ ∃ y ∈ x :: rest, y.action = .hitchRaise ∨ y.action = .hitchWork)) →
      ∃ t : State, exec c s = .next t ∧
        (uses →
          t.hsq = { s.hsq with state := .aborted, cause := some .cabRequest, trigStart := none }) ∧
        (¬ uses → t.hsq = s.hsq))) ∧
  (∀ (r : StepRef) (why : ShcReason) (who : Origin) (s : State), s.mc.mode = .operating →
    s.hsq.state ≠ .running → s.shc.refusals ≠ s.hsq.refusalsSeen →
    s.shc.lastRefusal = some (why, who) → s.hsq.lastShift = some r →
    ∃ t : State, exec .hsqControlInterval s = .next t ∧ Touches [.hsq] s t ∧
      (who = .headland → t.hsq = { s.hsq with
        refusalsSeen := s.shc.refusals, lastRefused := some (r, .shc why) }) ∧
      (who ≠ .headland → t.hsq = { s.hsq with refusalsSeen := s.shc.refusals }))

/-! ## The link controller (10) -/

/-- R188 to R193, R201 to R203, R205: FRAME_RECEIVED files a consumed frame of its source with its rolling count and
its edges, enters CONFLICT on the part's own station number, where a quiet link reports, and passes over any
other frame (the model's choice: log 43, that the SERVICE record too becomes FRESH). -/
def Obligations.FrameReceivedFiled : Prop :=
  ∀ (id : BitVec 11) (d : List Byte) (s : State), s.lc.takesFrames = true →
    ∃ t : State, exec (.frameReceived id d) s = .next t ∧
      (id.toNat % 32 = s.lc.sources.own → s.lc.link ≠ .conflict → s.lc.quietTimer = none →
        t.lc.link = .conflict ∧ t.lc.queue = [] ∧ t.mc.windowEnded =
          (s.mc.windowEnded || s.lc.link == .listen) ∧
        t.mc.faults = (raiseLatched .stationConflict (clearFault .linkMuted s)).mc.faults ∧
        Touches [.lc, .mc] s t) ∧
      (id.toNat % 32 = s.lc.sources.own → s.lc.link ≠ .conflict → s.lc.quietTimer.isSome = true →
        t.lc.link = .conflict ∧ t.lc.queue = [] ∧ t.lc.quietTimer = none ∧
        t.mc.faults = (raiseLatched .stationConflict (clearFault .linkMuted s)).mc.faults ∧
        (s.mc.step = .quietWait → (s.supplyOf .vsb).state = .enabled →
          t.mc.step = .stopVsb ∧ (t.supplyOf .vsb).state = .falling) ∧
        (s.mc.step ≠ .quietWait → t.vdb = s.vdb ∧ t.mc.step = s.mc.step) ∧
        Touches [.vdb, .lc, .mc] s t) ∧
      (id.toNat % 32 = s.lc.sources.own → s.lc.link = .conflict → t = s) ∧
      (id.toNat % 32 ≠ s.lc.sources.own → ∀ g : PeerGroup, consumedGroup (id.toNat / 32) = some g →
        s.lc.sources.of g = some (id.toNat % 32) → d.length = peerLength g →
        t.lc.freshness g = .fresh ∧ t.lc.since g = 0 ∧
        t.lc.lastActed g = some (rollingCount d) ∧
        (∀ h : PeerGroup, h ≠ g → t.lc.freshness h = s.lc.freshness h ∧
          t.lc.since h = s.lc.since h ∧ t.lc.lastActed h = s.lc.lastActed h) ∧
        (g = .engine → t.lc.engine.values =
          some ⟨byteAt d 0 * 256 + byteAt d 1, byteAt d 2, byteAt d 3⟩) ∧
        (g = .brake → t.lc.brake.values = some ⟨byteAt d 0 * 256 + byteAt d 1,
          byteAt d 2 * 256 + byteAt d 3, decide (byteAt d 4 / 16 % 2 = 1)⟩) ∧
        (g = .cabDrive → ∃ f : CabDriveFields, t.lc.cabDrive.values = some f ∧ CabDriveOf d f) ∧
        (g = .cabHitch → ∃ f : CabHitchFields, t.lc.cabHitch.values = some f ∧ CabHitchOf d f) ∧
        (g = .implement → t.lc.implement.values = some ⟨byteAt d 0 * 256 + byteAt d 1,
          decide (byteAt d 2 / 16 % 4 = 1)⟩) ∧
        (g = .service → t.lc.service.values = some ⟨d.getD 0 0, d.getD 1 0⟩) ∧
        t.lc.received = (if s.lc.link = .muted then s.lc.received + 1 else s.lc.received) ∧
        t.lc.queue = s.lc.queue ∧ t.lc.link = s.lc.link ∧
        (s.mc.mode = .operating →
          (g = .cabDrive → s.lc.cabDrive.fresh = .fresh →
            s.lc.cabDrive.lastActed ≠ some (rollingCount d) →
            ∃ l : List Request, t.requests = s.requests ++ l ∧ CabDriveAsks d l) ∧
          (g = .cabDrive → s.lc.cabDrive.fresh ≠ .fresh ∨
            s.lc.cabDrive.lastActed = some (rollingCount d) → t.requests = s.requests) ∧
          (g = .cabHitch → s.lc.cabHitch.fresh = .fresh →
            s.lc.cabHitch.lastActed ≠ some (rollingCount d) →
            ∃ l : List Request, t.requests = s.requests ++ l ∧ CabHitchAsks d l) ∧
          (g = .cabHitch → s.lc.cabHitch.fresh ≠ .fresh ∨
            s.lc.cabHitch.lastActed = some (rollingCount d) → t.requests = s.requests) ∧
          (g = .service → s.lc.service.lastActed ≠ some (rollingCount d) →
            t.requests = s.requests ++ [.service (d.getD 0 0) (d.getD 1 0)]) ∧
          (g = .service → s.lc.service.lastActed = some (rollingCount d) → t.requests = s.requests)) ∧
        (g = .engine ∨ g = .brake ∨ g = .implement → t.requests = s.requests) ∧
        (s.lc.freshness g = .fresh → t.mc = s.mc) ∧
        (∀ c : FaultCode, (g, c) ∈ [(PeerGroup.engine, FaultCode.engineStale), (.brake, .brakeStale),
            (.cabDrive, .cabDriveStale), (.cabHitch, .cabHitchStale), (.implement, .implementStale)] →
          s.lc.freshness g ≠ .fresh → t.mc = (clearFault c s).mc) ∧
        (g = .service → t.mc = s.mc) ∧
        Touches [.lc, .mc, .requests] s t) ∧
      (id.toNat % 32 ≠ s.lc.sources.own →
        (∀ g : PeerGroup, consumedGroup (id.toNat / 32) = some g →
          s.lc.sources.of g = some (id.toNat % 32) → d.length ≠ peerLength g) →
        t.lc = { s.lc with received := t.lc.received } ∧ Touches [.lc] s t)

/-- R192, R200, R201: PEER_TIMEOUT, MUTE_RECOVERY and LISTEN_WINDOW_END where they are due (model's choices: log 1,
14, and log 96 for a LINK_MUTED that an off order left, which the end of a window leaves too). -/
def Obligations.LinkTimersExpire : Prop :=
  ∀ s : State,
    (∀ (g : PeerGroup) (limit : Nat) (c : FaultCode),
      (g, limit, c) ∈ [(PeerGroup.engine, 100000, FaultCode.engineStale),
        (.brake, 100000, .brakeStale), (.cabDrive, 250000, .cabDriveStale),
        (.cabHitch, 500000, .cabHitchStale), (.implement, 500000, .implementStale)] →
      s.lc.freshness g = .fresh → limit ≤ s.lc.since g →
      ∃ t : State, exec (.peerTimeout g) s = .next t ∧ t.lc.freshness g = .stale ∧
        (∀ h : PeerGroup, h ≠ g → t.lc.freshness h = s.lc.freshness h) ∧
        t.lc.engine.values = s.lc.engine.values ∧ t.lc.brake.values = s.lc.brake.values ∧
        t.lc.cabDrive.values = s.lc.cabDrive.values ∧ t.lc.cabHitch.values = s.lc.cabHitch.values ∧
        t.lc.implement.values = s.lc.implement.values ∧ t.lc.queue = s.lc.queue ∧
        t.mc = (raise c s).mc ∧ Touches [.lc, .mc] s t) ∧
    (s.lc.link = .muted → 1000000 ≤ s.lc.muteTimer → 16 ≤ s.lc.received →
      ∃ t : State, exec .muteRecovery s = .next t ∧ t.lc.link = .active ∧ t.lc.errors = 0 ∧
        t.mc = (clearFault .linkMuted s).mc ∧
        (s.mc.mode = .operating → s.lc.queue.length < 8 → ∃ e ∈ t.lc.queue, e.group = .identity) ∧
        Touches [.lc, .mc] s t) ∧
    (s.lc.link = .listen → 500000 ≤ s.lc.listen →
      ∃ t : State, exec .listenWindowEnd s = .next t ∧ t.lc.link = .active ∧
        t.mc = { s.mc with windowEnded := true } ∧ t.lc.motionPage = 0 ∧ t.lc.drivePage = 0 ∧
        (modeAllows s.mc.mode s.lc.quiet .identity = true → s.lc.queue.length < 8 →
          ∃ e ∈ t.lc.queue, e.group = .identity) ∧
        Touches [.lc, .mc] s t)

/-- R189, R195 to R198, R205: PERIOD_TIMER and TORQUE_LIMIT_TIMER make a frame of their group from the
records as they stand, with the next rolling count, and a queue with room holds it (model's choices: log 29, 44). -/
def Obligations.PeriodicFramesMade : Prop :=
  ∀ s : State, s.lc.link = .active → s.lc.queue.length < 8 →
    (∀ g : Group, periodicGroup g = true ∨ g = .faultReport → modeAllows s.mc.mode s.lc.quiet g = true →
      ∃ t : State, exec (.periodTimer g) s = .next t ∧ Touches [.lc] s t ∧
        t.lc.sendCounts = s.lc.sendCounts.set g (s.lc.sendCounts.get g + 1) ∧
        t.lc.motionPage = (if g = .motion then
          (if s.lc.motionPage < 2 then s.lc.motionPage + 1 else 0) else s.lc.motionPage) ∧
        t.lc.drivePage = (if g = .driveHitch then
          (if s.lc.drivePage < 3 then s.lc.drivePage + 1 else 0) else s.lc.drivePage) ∧
        t.lc.cursor = (if g = .faultReport then
          (if s.mc.faults.length ≤ s.lc.cursor then 1 else (s.lc.cursor + 1) % 16)
          else s.lc.cursor) ∧
        ∃ x ∈ t.lc.queue, x.group = g ∧ x.data.length = 8 ∧
          rollingCount x.data = s.lc.sendCounts.get g + 1 ∧
          (g = .motion → s.lc.motionPage ≤ 2 → MotionBytes s.lc.motionPage s x.data) ∧
          (g = .gearbox → GearboxBytes s.shc x.data) ∧
          (g = .driveHitch → s.lc.drivePage ≤ 3 → DriveHitchBytes s.lc.drivePage s x.data) ∧
          (g = .trailer → TrailerBytes s.tbc x.data) ∧
          (g = .identity → byteAt x.data 0 = 94 ∧ word16 x.data 1 = 4200 ∧
            byteAt x.data 4 = s.mc.slot % 256 ∧ word16 x.data 5 = s.mc.version % 65536 ∧
            BitIs (byteAt x.data 7) 7 (decide (s.mc.mode = .restarting)) ∧
            (s.mc.mode, byteAt x.data 7 / 16 % 8) ∈ [(.loading, 0), (.limp, 1), (.calibrating, 2),
              (.operating, 3), (.restarting, 4), (.stopping, 5), (.dormant, 6), (.awakeNoKey, 7)]) ∧
          (g = .faultReport → s.mc.faults = [] → byteAt x.data 0 = 0 ∧ byteAt x.data 7 / 16 = 4) ∧
          (∀ (e : FaultEntry) (i : Nat), g = .faultReport →
            i = (if s.mc.faults.length ≤ s.lc.cursor then 0 else s.lc.cursor) →
            s.mc.faults[i]? = some e → s.mc.faults.length ≤ 16 →
            byteAt x.data 0 = e.code.number ∧
            (e.code.severity, byteAt x.data 1 % 4) ∈ [(.info, 0), (.degraded, 1), (.stop, 2)] ∧
            BitIs (byteAt x.data 1) 2 (e.present || e.latched) ∧
            byteAt x.data 1 / 8 = (s.mc.faults.filter fun y => y.present || y.latched).length ∧
            byteAt x.data 2 = e.count % 256 ∧
            word16 x.data 3 = e.first % 65536 ∧ word16 x.data 5 = e.last % 65536 ∧
            BitIs (byteAt x.data 7) 4 s.mc.full ∧ BitIs (byteAt x.data 7) 5 e.latched ∧
            BitIs (byteAt x.data 7) 6 (decide (i + 1 = s.mc.faults.length)))) ∧
    (∀ limit : Nat, s.shc.torque = some limit → s.mc.mode = .operating →
      ∃ t : State, exec .torqueLimitTimer s = .next t ∧ Touches [.lc] s t ∧
        ∃ x ∈ t.lc.queue, x.group = .torqueLimit ∧
          x.data = [BitVec.ofNat 8 limit, 16 ||| (s.lc.sendCounts.torqueLimit + 1).setWidth 8])

/-- R198, R199, R201, R203: TRANSMIT_ATTEMPT takes the lowest identifier, and ATTEMPT_SUCCESS,
ARBITRATION_LOST and ATTEMPT_FAILURE end the attempt (model's choices: log 30). -/
def Obligations.TransmitAttemptsEnd : Prop :=
  ∀ s : State,
    (∀ e : TxEntry, s.lc.link = .active → s.lc.attempt = none → TransmitQueueWhole s →
      e ∈ s.lc.queue → (∀ x ∈ s.lc.queue, groupNumber e.group ≤ groupNumber x.group) →
      ∃ t : State, exec .transmitAttempt s = .next t ∧ Touches [.lc] s t ∧
        t.lc.attempt = some ⟨e.group, e.data⟩ ∧
        t.lc.queue = s.lc.queue.map (fun x =>
          if x = e then { e with attempting := true, replaced := false } else x)) ∧
    (∀ a : Attempt, s.lc.attempt = some a →
      (∃ t : State, exec .attemptSuccess s = .next t ∧ t.lc.attempt = none ∧
        t.lc.errors = s.lc.errors - 1 ∧
        t.lc.queue = (s.lc.queue.filter fun x =>
            !(decide (x.group = a.group) && x.attempting && !x.replaced)).map
          (fun x => { x with attempting := false, replaced := false }) ∧
        (a.group ≠ .quietNotice → Touches [.lc] s t) ∧
        (a.group = .quietNotice → s.lc.quietTimer.isSome = true →
          (∃ x ∈ s.lc.queue, x.group = .quietNotice ∧ x.attempting = true ∧ x.replaced = false) →
          t.lc.quietTimer = none ∧
          (s.mc.step = .quietWait → (s.supplyOf .vsb).state = .enabled →
            t.mc.step = .stopVsb ∧ (t.supplyOf .vsb).state = .falling))) ∧
      (∃ t : State, exec .arbitrationLost s = .next t ∧ t.lc.attempt = none ∧
        t.lc.errors = s.lc.errors ∧
        t.lc.queue = s.lc.queue.map (fun x => { x with attempting := false, replaced := false }) ∧
        Touches [.lc] s t) ∧
      (∃ t : State, exec .attemptFailure s = .next t ∧ t.lc.attempt = none ∧
        t.lc.errors = min 256 (s.lc.errors + 8) ∧
        (s.lc.link ≠ .active ∨ s.lc.errors + 8 < 256 →
          t.lc.queue = s.lc.queue.map (fun x => { x with attempting := false, replaced := false }) ∧
          t.lc.link = s.lc.link ∧ Touches [.lc] s t) ∧
        (s.lc.link = .active → 256 ≤ s.lc.errors + 8 → s.lc.quietTimer = none →
          t.lc.link = .muted ∧ t.lc.queue = [] ∧ t.lc.muteTimer = 0 ∧ t.lc.received = 0 ∧
          t.mc = (raise .linkMuted s).mc ∧ Touches [.lc, .mc] s t) ∧
        (s.lc.link = .active → 256 ≤ s.lc.errors + 8 → s.lc.quietTimer.isSome = true →
          t.lc.link = .muted ∧ t.lc.queue = [] ∧ t.lc.muteTimer = 0 ∧ t.lc.received = 0 ∧
          t.lc.quietTimer = none ∧ t.mc.faults = (raise .linkMuted s).mc.faults ∧
          (s.mc.step = .quietWait → (s.supplyOf .vsb).state = .enabled →
            t.mc.step = .stopVsb ∧ (t.supplyOf .vsb).state = .falling) ∧
          (s.mc.step ≠ .quietWait → t.vdb = s.vdb ∧ t.mc.step = s.mc.step) ∧
          Touches [.vdb, .lc, .mc] s t)))

/-! ## The mode controller (11) -/

/-- R185, R206 and the reset tables: POWER_ON_RESET, WAKE and KEY_STATE_CHANGE (model's choices: log 7 for the
microsecond count 0 at power-on, log 32 for the wake of a key ON by the row WAKE, log 52 for the events and
requests on their way, which a reset and a wake drop, and log 30, 53, 59). -/
def Obligations.ResetWakeAndKey : Prop :=
  ∀ s : State,
    (∀ (c : Instr) (a b k : Bool),
      c = .powerOnReset a b k ∨
        (c = .wake a b k ∧ (s.mc.mode = .dormant ∨ s.mc.mode = .awakeNoKey) ∧ s.mc.key = some true) →
      ∃ t : State, exec c s = .next t ∧ t.mc.mode = .loading ∧
        t.mc.slot = (if a then 1 else 0) + (if b then 2 else 0) ∧ t.mc.seconds = 0 ∧
        t.mc.full = false ∧ t.mc.keyOffPending = false ∧ t.mc.step = .idle ∧
        (∀ o : Output, t.out o = .reset) ∧ (∀ x : Supply, (t.supplyOf x).state = .off) ∧
        t.vdb.grant = .reset ∧ t.shc.state = .parked ∧ t.shc.lever = .park ∧ t.shc.queue = [] ∧
        t.fdc = .reset ∧ t.htc.state = .startLock ∧ t.tbc.state = .parked ∧ t.tbc.coupled = k ∧
        t.tbc.brake = none ∧ t.tbc.tcl = (t.sensor .tcl).value ∧
        t.tbc.tclState = (t.sensor .tcl).state ∧ t.tbc.tsl = (t.sensor .tsl).value ∧
        t.tbc.tslState = (t.sensor .tsl).state ∧
        t.hsq = .reset ∧ t.lc.link = .offline ∧ t.lc.queue = [] ∧
        t.lc.errors = 0 ∧ t.scu.motion.standstill = true ∧ t.scu.motion.vGround = 0 ∧
        t.sfe.posValid = false ∧ t.sfe.cal.state = .notRun ∧ t.events = [] ∧ t.requests = [] ∧
        t.pending = s.pending ∧
        (c = .powerOnReset a b k → t.mc.faults = [] ∧ t.mc.key = none ∧ t.now = 0) ∧
        (c = .wake a b k →
          t.mc.faults = s.mc.faults.map (fun e =>
            { e with present := false, latched := false, first := 0, last := 0 }) ∧
          (∀ x : Clutch, (t.clutch x).learned = (s.clutch x).learned) ∧
          t.shc.selected = some s.cfg.startGear ∧ t.cfg = s.cfg ∧ t.now = s.now ∧
          t.mc.key = some true ∧ t.lc.attempt = s.lc.attempt ∧ t.lc.sources = s.lc.sources)) ∧
    (∀ on : Bool, s.mc.key ≠ some on →
      ∃ t : State, exec (.keyStateChange on) s = .next t ∧ t.pins = { s.pins with keyOn := on } ∧
        t.mc = { s.mc with
          key := some on
          keyOffPending := !on && (s.mc.keyOffPending || s.mc.mode == .calibrating ||
            s.mc.mode == .operating || s.mc.mode == .restarting) } ∧
        Touches [.pins, .mc] s t)

/-- R64, R206 to R209, R211: LOADING_COMPLETE with the key settled checks the 2,048 bytes of the slot and the
sections, loads a sound image with its shuttle map and becomes CALIBRATING or DORMANT, and becomes LIMP with
any other (model's choices: log 6, 31, 33, 36, 42, and log 47 for the constants of RAD, which are checked
whether or not RAD is fitted). -/
def Obligations.LoadingCompleteTaken : Prop :=
  ∀ (memory bytes : List Byte) (c : Image) (key : Bool) (s : State), s.mc.mode = .loading →
    s.mc.key = some key → bytes = (memory.drop (s.mc.slot * 2048)).take 2048 →
    ∃ t : State, exec (.loadingComplete memory c) s = .next t ∧
      (BytesSound bytes → SectionsSound c →
        t.cfg = c ∧ t.mc.version = word16 bytes 2 ∧
        t.lc.sources = ⟨c.stations.own, some c.stations.engine, some c.stations.brake,
          some c.stations.cab, some c.stations.implement, some c.stations.service⟩ ∧
        t.shc.selected = some c.startGear ∧ ShuttleMapBuilt c.gears t.shc.partner ∧
        (∀ x : Clutch, (t.clutch x).learned =
          (if s.mc.cold = true then (c.clutches.get x).fillTime else (s.clutch x).learned)) ∧
        (∀ x : Sensor, (t.sensor x).state =
          (if (c.sensors.get x).configured = true then .starting else .off)) ∧
        t.scu.motion.radarFitted = c.radFitted ∧
        (key = true → t.mc.mode = .calibrating ∧ t.mc.step = .calVsa ∧
          t.mc.windowEnded = false ∧ t.sfe.slot = 0 ∧
          ((s.supplyOf .vsa).state = .off → (t.supplyOf .vsa).state = .rising) ∧
          (s.lc.link = .offline → t.lc.link = .listen ∧ t.lc.listen = 0) ∧
          (c.sensors.hps.configured = true → t.sfe.cal.state = .running ∧
            t.sfe.cal.start = s.now ∧ t.mc.faults = s.mc.faults) ∧
          (c.sensors.hps.configured = false → t.sfe.cal.state = .failed ∧
            t.mc.faults = (raise .hpsCalFailed s).mc.faults)) ∧
        (key = false → t.mc.mode = .dormant ∧ t.vdb = s.vdb ∧ t.mc.faults = s.mc.faults ∧
          t.lc.link ≠ .active)) ∧
      (¬(BytesSound bytes ∧ SectionsSound c) →
        t.mc.mode = .limp ∧ t.mc.faults = (raise .cfgInvalid s).mc.faults ∧ t.vdb = s.vdb ∧
        t.cfg = s.cfg ∧ (s.lc.link = .offline → t.lc.link = .listen) ∧
        (BytesSound bytes → StationsSound c.stations →
          t.lc.sources = ⟨c.stations.own, some c.stations.engine, some c.stations.brake,
            some c.stations.cab, some c.stations.implement, some c.stations.service⟩) ∧
        (¬ BytesSound bytes ∨ ¬ StationsSound c.stations →
          t.lc.sources = ⟨31, none, none, none, none, none⟩) ∧
        Touches [.lc, .mc] s t)

/-- R92, R142, R157, R177, R203, R209, R210: CALIBRATING_COMPLETE, KEY_OFF_TAKEN, QUIET_ORDER and
QUIET_TIMEOUT where they are due (model's choices: log 1, 37, 49). -/
def Obligations.RunStopAndQuiet : Prop :=
  ∀ s : State,
    (s.mc.mode = .calibrating → s.mc.windowEnded = true → (s.supplyOf .vsb).state = .enabled →
      s.sfe.cal.state = .done ∨ s.sfe.cal.state = .failed →
      ∃ t : State, exec .calibratingComplete s = .next t ∧ t.mc.mode = .operating ∧
        t.mc.step = .idle ∧ t.shc = { s.shc with starting := true } ∧
        t.mc.faults = s.mc.faults ∧ Touches [.shc, .lc, .mc] s t) ∧
    (s.mc.mode = .operating → s.mc.keyOffPending = true → s.scu.motion.standstill = true →
      ∃ t : State, exec .keyOffTaken s = .next t ∧ t.mc.mode = .stopping ∧
        t.mc.keyOffPending = false ∧ t.mc.step = .parkWait ∧ t.shc.parkOrder = true ∧
        (s.shc.state ≠ .parked → s.shc.state ≠ .faultHold → t.shc.state = .neutral ∧
          t.shc.pendingPark = true) ∧
        (s.shc.state = .parked → t.shc.state = .parked) ∧
        (s.htc.state ≠ .faultHold → s.htc.state ≠ .held →
          t.htc.state = .held ∧ t.htc.holdCause = some .stop) ∧
        (t.out .hrv).command = 0 ∧ (t.out .hlv).command = 0 ∧ t.tbc.stopOrder = true ∧
        (s.tbc.state ≠ .breakaway → t.tbc.state = .parked) ∧
        (s.tbc.state.parks = true → t.tbc.demand = 0 ∧ t.tbc.correction = 0) ∧
        (s.hsq.state = .running → t.hsq.state = .aborted ∧ t.hsq.cause = some .mode) ∧
        (s.hsq.state ≠ .running → t.hsq = s.hsq) ∧ t.mc.faults = s.mc.faults ∧
        Touches [.vdb, .shc, .htc, .tbc, .hsq, .lc, .mc] s t) ∧
    (s.mc.mode = .stopping → s.mc.step = .parkWait → s.shc.state = .parked →
      ∃ t : State, exec .quietOrder s = .next t ∧ t.lc.quiet = true ∧
        (s.lc.link = .active → t.mc.step = .quietWait ∧ t.lc.quietTimer = some 0 ∧
          t.vdb = s.vdb ∧
          (s.lc.quiet = false → s.lc.queue.length < 8 → ∃ e ∈ t.lc.queue, e.group = .quietNotice)) ∧
        (s.lc.link ≠ .active → t.mc.step = .stopVsb ∧ t.lc.quietTimer = none ∧
          ((s.supplyOf .vsb).state = .enabled → (t.supplyOf .vsb).state = .falling)) ∧
        Touches [.vdb, .lc, .mc] s t) ∧
    ((∃ q : Nat, s.lc.quietTimer = some q ∧ 200000 ≤ q) →
      ∃ t : State, exec .quietTimeout s = .next t ∧ t.lc = { s.lc with quietTimer := none } ∧
        (s.mc.step = .quietWait → t.mc = { s.mc with step := .stopVsb } ∧
          ((s.supplyOf .vsb).state = .enabled → (t.supplyOf .vsb).state = .falling ∧
            (t.out .hrv).target = 0 ∧ (t.out .tcv).target = 0)) ∧
        (s.mc.step ≠ .quietWait → Touches [.lc] s t) ∧ Touches [.vdb, .lc, .mc] s t)

/-- R180, R211: COUPLING_WAKE, LINK_WAKE, WAKE_TIMEOUT and SECONDS_TICK (model's choices: log 1 for
COUPLING_WAKE and LINK_WAKE where no wake event is due, log 13 for what is a change of the line, log 14 for a wake
timer that is taken at its end or later, log 96 for the entry of LINK_MUTED, which the off order leaves). -/
def Obligations.DormancyAndSeconds : Prop :=
  ∀ s : State,
    (∀ c : Instr,
      (∃ k : Bool, c = .couplingWake k ∧ k ≠ s.pins.coupling ∧ s.cfg.wakeThreshold ≤ 2) ∨
        (c = .linkWake ∧ s.cfg.wakeThreshold ≤ 1) →
      (s.mc.mode = .dormant →
        ∃ t : State, exec c s = .next t ∧ t.mc.mode = .awakeNoKey ∧ t.mc.wakeTimer = 0 ∧
          (s.lc.link = .offline → t.lc.link = .listen) ∧ t.mc.faults = s.mc.faults ∧
          (c = .couplingWake (!s.pins.coupling) → t.pins.coupling = !s.pins.coupling) ∧
          Touches [.pins, .lc, .mc] s t) ∧
      (s.mc.mode = .awakeNoKey →
        ∃ t : State, exec c s = .next t ∧ t.mc = { s.mc with wakeTimer := 0 } ∧
          Touches [.pins, .mc] s t)) ∧
    exec (.couplingWake s.pins.coupling) s = .next s ∧
    (∀ k : Bool, 2 < s.cfg.wakeThreshold ∨ (s.mc.mode ≠ .dormant ∧ s.mc.mode ≠ .awakeNoKey) →
      exec (.couplingWake k) s = .next (s.withPins { s.pins with coupling := k })) ∧
    (1 < s.cfg.wakeThreshold ∨ (s.mc.mode ≠ .dormant ∧ s.mc.mode ≠ .awakeNoKey) →
      exec .linkWake s = .next s) ∧
    (s.mc.mode = .awakeNoKey → 30000000 ≤ s.mc.wakeTimer →
      ∃ t : State, exec .wakeTimeout s = .next t ∧ t.mc.mode = .dormant ∧ t.lc.queue = [] ∧
        t.lc.link ≠ .active ∧ t.lc.link ≠ .listen ∧ t.lc.engine.fresh = .absent ∧
        t.mc.faults = s.mc.faults ∧ t.vdb = s.vdb) ∧
    (s.mc.mode ≠ .dormant →
      ∃ t : State, exec .secondsTick s = .next t ∧
        t.mc = { s.mc with seconds := min 65535 (s.mc.seconds + 1) } ∧ Touches [.mc] s t) ∧
    (s.mc.mode = .dormant → exec .secondsTick s = .next s)

/-- R194, R212: CONTROL_RESTART begins a restart of a parked tractor at standstill, and is refused
otherwise (model's choices: log 52). -/
def Obligations.ControlRestartTaken : Prop :=
  ∀ (tag : Byte) (rest : List Request) (s : State),
    OldestRequest (Request.isService 4) (.service 4 tag) rest s →
    ∃ t : State, exec .controlRestart s = .next t ∧
      (s.mc.mode = .operating → s.shc.state = .parked → s.scu.motion.standstill = true →
        t.mc.mode = .restarting ∧ t.mc.step = .offVsb ∧ t.mc.restartTag = some tag ∧
        ((s.supplyOf .vsb).state = .enabled → (t.supplyOf .vsb).state = .falling ∧
          ∀ o : Output, o.supply = .vsb → (t.out o).command = 0 ∧ (t.out o).target = 0) ∧
        (s.hsq.state = .running → t.hsq.state = .aborted ∧ t.hsq.cause = some .mode) ∧
        (∀ d ∈ t.events, d.owner = .vdb) ∧
        (∀ q ∈ t.requests, q ∈ rest ∧ (q = .acknowledge ∨ ∃ c g : Byte, q = .service c g)) ∧
        t.mc.faults = s.mc.faults ∧ Answered 4 tag .accepted .none s t ∧
        Touches [.vdb, .hsq, .lc, .mc, .events, .requests] s t) ∧
      (s.mc.mode = .operating → ¬(s.shc.state = .parked ∧ s.scu.motion.standstill = true) →
        t.requests = rest ∧ Answered 4 tag .refused .notParked s t ∧ Touches [.lc, .requests] s t) ∧
      (s.mc.mode ≠ .operating →
        t.requests = rest ∧ Answered 4 tag .refused .busy s t ∧ Touches [.lc, .requests] s t)

/-! ## What every step keeps -/

/-- R179: the fault table never holds more than 16 entries nor two of one code, whatever step is made. -/
def Obligations.EveryStepKeepsFaultTable : Prop :=
  ∀ s t : State, FaultTableWhole s → step s = .next t → FaultTableWhole t

/-- R70, R89, R168, R198: every step keeps the bounds of the request queue and of the transmit queue, the
step index of a run within its list, and a gear whose PRESELECT goes on in NEUTRAL alone. -/
def Obligations.EveryStepKeepsQueuesAndRun : Prop :=
  ∀ s t : State, step s = .next t →
    (RequestQueueBounded s → RequestQueueBounded t) ∧ (TransmitQueueWhole s → TransmitQueueWhole t) ∧
    (RunBounded s → RunBounded t) ∧ (PreselectOnlyInNeutral s → PreselectOnlyInNeutral t)

/-- R60, R117: no step commands raise and lower together, nor lets a withheld hitch valve carry
current. -/
def Obligations.EveryStepKeepsHitchValves : Prop :=
  ∀ s t : State, HitchValvesExclusive s → GrantHolds s → step s = .next t →
    HitchValvesExclusive t ∧ GrantHolds t ∧
      (t.vdb.grant.suspended = true → (t.out .hrv).target = 0 ∧ (t.out .hlv).target = 0)

/-- R102, R103, R109: no step opens the front axle, or leaves it open or its valve driven, while the
brake pressure in force is unknown or above 150. -/
def Obligations.EveryStepKeepsFrontAxle : Prop :=
  ∀ s t : State, FrontAxleSafe s → step s = .next t →
    FrontAxleSafe t ∧
      (¬ BrakesFree t → (t.fdc.state = .engaged ∨ t.fdc.state = .engaging) ∧ (t.out .fdv).target = 0)

/-- The state after reset meets every invariant above. -/
def Obligations.ResetMeetsInvariants : Prop :=
  FaultTableWhole State.reset ∧ RequestQueueBounded State.reset ∧ TransmitQueueWhole State.reset ∧
    RunBounded State.reset ∧ PreselectOnlyInNeutral State.reset ∧ HitchValvesExclusive State.reset ∧ GrantHolds State.reset ∧
    FrontAxleSafe State.reset
end

