-- ==== Sys2Proof/Laws/Filters.lean ====
section
/-! SUPPORT. What one bit does to a sinc filter (R28), in the terms the statements use. -/

namespace Sys2Proof.Laws

open Sys2Proof Sys2Proof.Machine

/-- Each sum in turn takes itself plus the one before it. -/
theorem integrate_spec (c : Int) (l : List Int) :
    (integrate c l).length = l.length ∧ (0 < l.length → (integrate c l).getD 0 0 = l.getD 0 0 + c) ∧
      ∀ i, i + 1 < l.length → (integrate c l).getD (i + 1) 0 = l.getD (i + 1) 0 + (integrate c l).getD i 0 := by
  induction l generalizing c with
  | nil => simp [integrate]
  | cons x xs ih =>
    obtain ⟨h1, h2, h3⟩ := ih (x + c)
    refine ⟨by simp [integrate, h1], by simp [integrate], fun i hi => ?_⟩
    cases i with
    | zero => simpa [integrate] using h2 (by simpa using hi)
    | succ i => simpa [integrate] using h3 i (by simpa using hi)

/-- Each comb gives its input less its memory and takes its input as its memory. -/
theorem comb_spec (v0 : Int) (l : List Int) :
    (comb v0 l).2.length = l.length ∧ ∃ v : Nat → Int, v 0 = v0 ∧ (comb v0 l).1 = v l.length ∧
      ∀ i, i < l.length → v (i + 1) = v i - l.getD i 0 ∧ (comb v0 l).2.getD i 0 = v i := by
  induction l generalizing v0 with
  | nil => exact ⟨rfl, fun _ => v0, rfl, rfl, by simp⟩
  | cons m ms ih =>
    obtain ⟨h1, v, h2, h3, h4⟩ := ih (v0 - m)
    refine ⟨by simp [comb, h1], fun n => match n with | 0 => v0 | n + 1 => v n, rfl, h3, fun i hi => ?_⟩
    cases i with
    | zero => simp [comb, h2]
    | succ i => simpa [comb] using h4 i (by simpa using hi)

/-- A filter takes a bit as R28 says. -/
theorem sinc_take (osr : Nat) (b : Bool) (f : Sinc) : SincTakes osr b f (f.take osr b).1 (f.take osr b).2 := by
  obtain ⟨h1, h2, h3⟩ := integrate_spec (if b then 1 else 0) f.sums
  by_cases h : osr ≤ f.clocks + 1
  · obtain ⟨g1, v, g2, g3, g4⟩ := comb_spec ((integrate (if b then 1 else 0) f.sums).getLastD 0) f.combs
    simp only [Sinc.take, if_pos h]
    exact ⟨⟨h1, g1⟩, h2, h3, fun h' => by omega, fun _ => ⟨rfl, v, g2, congrArg some g3, g4⟩⟩
  · simp only [Sinc.take, if_neg h]
    exact ⟨⟨h1, rfl⟩, h2, h3, fun _ => ⟨rfl, rfl, rfl⟩, fun h' => by omega⟩

end Sys2Proof.Laws
end

