-- ==== Sys2Proof/Laws/State.lean ====
section
/-! SUPPORT. One lemma per field per update of the state, so that no proof unfolds a record update. -/

namespace Sys2Proof.Machine

section
variable (s : State) (x : Scu)
@[simp] theorem State.withScu_now : (s.withScu x).now = s.now := rfl
@[simp] theorem State.withScu_sub : (s.withScu x).sub = s.sub := rfl
@[simp] theorem State.withScu_clock : (s.withScu x).clock = s.clock := rfl
@[simp] theorem State.withScu_pins : (s.withScu x).pins = s.pins := rfl
@[simp] theorem State.withScu_cfg : (s.withScu x).cfg = s.cfg := rfl
@[simp] theorem State.withScu_scu : (s.withScu x).scu = x := rfl
@[simp] theorem State.withScu_sfe : (s.withScu x).sfe = s.sfe := rfl
@[simp] theorem State.withScu_vdb : (s.withScu x).vdb = s.vdb := rfl
@[simp] theorem State.withScu_shc : (s.withScu x).shc = s.shc := rfl
@[simp] theorem State.withScu_fdc : (s.withScu x).fdc = s.fdc := rfl
@[simp] theorem State.withScu_htc : (s.withScu x).htc = s.htc := rfl
@[simp] theorem State.withScu_tbc : (s.withScu x).tbc = s.tbc := rfl
@[simp] theorem State.withScu_hsq : (s.withScu x).hsq = s.hsq := rfl
@[simp] theorem State.withScu_lc : (s.withScu x).lc = s.lc := rfl
@[simp] theorem State.withScu_mc : (s.withScu x).mc = s.mc := rfl
@[simp] theorem State.withScu_events : (s.withScu x).events = s.events := rfl
@[simp] theorem State.withScu_requests : (s.withScu x).requests = s.requests := rfl
@[simp] theorem State.withScu_pending : (s.withScu x).pending = s.pending := rfl
end

section
variable (s : State) (x : Sfe)
@[simp] theorem State.withSfe_now : (s.withSfe x).now = s.now := rfl
@[simp] theorem State.withSfe_sub : (s.withSfe x).sub = s.sub := rfl
@[simp] theorem State.withSfe_clock : (s.withSfe x).clock = s.clock := rfl
@[simp] theorem State.withSfe_pins : (s.withSfe x).pins = s.pins := rfl
@[simp] theorem State.withSfe_cfg : (s.withSfe x).cfg = s.cfg := rfl
@[simp] theorem State.withSfe_scu : (s.withSfe x).scu = s.scu := rfl
@[simp] theorem State.withSfe_sfe : (s.withSfe x).sfe = x := rfl
@[simp] theorem State.withSfe_vdb : (s.withSfe x).vdb = s.vdb := rfl
@[simp] theorem State.withSfe_shc : (s.withSfe x).shc = s.shc := rfl
@[simp] theorem State.withSfe_fdc : (s.withSfe x).fdc = s.fdc := rfl
@[simp] theorem State.withSfe_htc : (s.withSfe x).htc = s.htc := rfl
@[simp] theorem State.withSfe_tbc : (s.withSfe x).tbc = s.tbc := rfl
@[simp] theorem State.withSfe_hsq : (s.withSfe x).hsq = s.hsq := rfl
@[simp] theorem State.withSfe_lc : (s.withSfe x).lc = s.lc := rfl
@[simp] theorem State.withSfe_mc : (s.withSfe x).mc = s.mc := rfl
@[simp] theorem State.withSfe_events : (s.withSfe x).events = s.events := rfl
@[simp] theorem State.withSfe_requests : (s.withSfe x).requests = s.requests := rfl
@[simp] theorem State.withSfe_pending : (s.withSfe x).pending = s.pending := rfl
end

section
variable (s : State) (x : Vdb)
@[simp] theorem State.withVdb_now : (s.withVdb x).now = s.now := rfl
@[simp] theorem State.withVdb_sub : (s.withVdb x).sub = s.sub := rfl
@[simp] theorem State.withVdb_clock : (s.withVdb x).clock = s.clock := rfl
@[simp] theorem State.withVdb_pins : (s.withVdb x).pins = s.pins := rfl
@[simp] theorem State.withVdb_cfg : (s.withVdb x).cfg = s.cfg := rfl
@[simp] theorem State.withVdb_scu : (s.withVdb x).scu = s.scu := rfl
@[simp] theorem State.withVdb_sfe : (s.withVdb x).sfe = s.sfe := rfl
@[simp] theorem State.withVdb_vdb : (s.withVdb x).vdb = x := rfl
@[simp] theorem State.withVdb_shc : (s.withVdb x).shc = s.shc := rfl
@[simp] theorem State.withVdb_fdc : (s.withVdb x).fdc = s.fdc := rfl
@[simp] theorem State.withVdb_htc : (s.withVdb x).htc = s.htc := rfl
@[simp] theorem State.withVdb_tbc : (s.withVdb x).tbc = s.tbc := rfl
@[simp] theorem State.withVdb_hsq : (s.withVdb x).hsq = s.hsq := rfl
@[simp] theorem State.withVdb_lc : (s.withVdb x).lc = s.lc := rfl
@[simp] theorem State.withVdb_mc : (s.withVdb x).mc = s.mc := rfl
@[simp] theorem State.withVdb_events : (s.withVdb x).events = s.events := rfl
@[simp] theorem State.withVdb_requests : (s.withVdb x).requests = s.requests := rfl
@[simp] theorem State.withVdb_pending : (s.withVdb x).pending = s.pending := rfl
end

section
variable (s : State) (x : Shc)
@[simp] theorem State.withShc_now : (s.withShc x).now = s.now := rfl
@[simp] theorem State.withShc_sub : (s.withShc x).sub = s.sub := rfl
@[simp] theorem State.withShc_clock : (s.withShc x).clock = s.clock := rfl
@[simp] theorem State.withShc_pins : (s.withShc x).pins = s.pins := rfl
@[simp] theorem State.withShc_cfg : (s.withShc x).cfg = s.cfg := rfl
@[simp] theorem State.withShc_scu : (s.withShc x).scu = s.scu := rfl
@[simp] theorem State.withShc_sfe : (s.withShc x).sfe = s.sfe := rfl
@[simp] theorem State.withShc_vdb : (s.withShc x).vdb = s.vdb := rfl
@[simp] theorem State.withShc_shc : (s.withShc x).shc = x := rfl
@[simp] theorem State.withShc_fdc : (s.withShc x).fdc = s.fdc := rfl
@[simp] theorem State.withShc_htc : (s.withShc x).htc = s.htc := rfl
@[simp] theorem State.withShc_tbc : (s.withShc x).tbc = s.tbc := rfl
@[simp] theorem State.withShc_hsq : (s.withShc x).hsq = s.hsq := rfl
@[simp] theorem State.withShc_lc : (s.withShc x).lc = s.lc := rfl
@[simp] theorem State.withShc_mc : (s.withShc x).mc = s.mc := rfl
@[simp] theorem State.withShc_events : (s.withShc x).events = s.events := rfl
@[simp] theorem State.withShc_requests : (s.withShc x).requests = s.requests := rfl
@[simp] theorem State.withShc_pending : (s.withShc x).pending = s.pending := rfl
end

section
variable (s : State) (x : Fdc)
@[simp] theorem State.withFdc_now : (s.withFdc x).now = s.now := rfl
@[simp] theorem State.withFdc_sub : (s.withFdc x).sub = s.sub := rfl
@[simp] theorem State.withFdc_clock : (s.withFdc x).clock = s.clock := rfl
@[simp] theorem State.withFdc_pins : (s.withFdc x).pins = s.pins := rfl
@[simp] theorem State.withFdc_cfg : (s.withFdc x).cfg = s.cfg := rfl
@[simp] theorem State.withFdc_scu : (s.withFdc x).scu = s.scu := rfl
@[simp] theorem State.withFdc_sfe : (s.withFdc x).sfe = s.sfe := rfl
@[simp] theorem State.withFdc_vdb : (s.withFdc x).vdb = s.vdb := rfl
@[simp] theorem State.withFdc_shc : (s.withFdc x).shc = s.shc := rfl
@[simp] theorem State.withFdc_fdc : (s.withFdc x).fdc = x := rfl
@[simp] theorem State.withFdc_htc : (s.withFdc x).htc = s.htc := rfl
@[simp] theorem State.withFdc_tbc : (s.withFdc x).tbc = s.tbc := rfl
@[simp] theorem State.withFdc_hsq : (s.withFdc x).hsq = s.hsq := rfl
@[simp] theorem State.withFdc_lc : (s.withFdc x).lc = s.lc := rfl
@[simp] theorem State.withFdc_mc : (s.withFdc x).mc = s.mc := rfl
@[simp] theorem State.withFdc_events : (s.withFdc x).events = s.events := rfl
@[simp] theorem State.withFdc_requests : (s.withFdc x).requests = s.requests := rfl
@[simp] theorem State.withFdc_pending : (s.withFdc x).pending = s.pending := rfl
end

section
variable (s : State) (x : Htc)
@[simp] theorem State.withHtc_now : (s.withHtc x).now = s.now := rfl
@[simp] theorem State.withHtc_sub : (s.withHtc x).sub = s.sub := rfl
@[simp] theorem State.withHtc_clock : (s.withHtc x).clock = s.clock := rfl
@[simp] theorem State.withHtc_pins : (s.withHtc x).pins = s.pins := rfl
@[simp] theorem State.withHtc_cfg : (s.withHtc x).cfg = s.cfg := rfl
@[simp] theorem State.withHtc_scu : (s.withHtc x).scu = s.scu := rfl
@[simp] theorem State.withHtc_sfe : (s.withHtc x).sfe = s.sfe := rfl
@[simp] theorem State.withHtc_vdb : (s.withHtc x).vdb = s.vdb := rfl
@[simp] theorem State.withHtc_shc : (s.withHtc x).shc = s.shc := rfl
@[simp] theorem State.withHtc_fdc : (s.withHtc x).fdc = s.fdc := rfl
@[simp] theorem State.withHtc_htc : (s.withHtc x).htc = x := rfl
@[simp] theorem State.withHtc_tbc : (s.withHtc x).tbc = s.tbc := rfl
@[simp] theorem State.withHtc_hsq : (s.withHtc x).hsq = s.hsq := rfl
@[simp] theorem State.withHtc_lc : (s.withHtc x).lc = s.lc := rfl
@[simp] theorem State.withHtc_mc : (s.withHtc x).mc = s.mc := rfl
@[simp] theorem State.withHtc_events : (s.withHtc x).events = s.events := rfl
@[simp] theorem State.withHtc_requests : (s.withHtc x).requests = s.requests := rfl
@[simp] theorem State.withHtc_pending : (s.withHtc x).pending = s.pending := rfl
end

section
variable (s : State) (x : Tbc)
@[simp] theorem State.withTbc_now : (s.withTbc x).now = s.now := rfl
@[simp] theorem State.withTbc_sub : (s.withTbc x).sub = s.sub := rfl
@[simp] theorem State.withTbc_clock : (s.withTbc x).clock = s.clock := rfl
@[simp] theorem State.withTbc_pins : (s.withTbc x).pins = s.pins := rfl
@[simp] theorem State.withTbc_cfg : (s.withTbc x).cfg = s.cfg := rfl
@[simp] theorem State.withTbc_scu : (s.withTbc x).scu = s.scu := rfl
@[simp] theorem State.withTbc_sfe : (s.withTbc x).sfe = s.sfe := rfl
@[simp] theorem State.withTbc_vdb : (s.withTbc x).vdb = s.vdb := rfl
@[simp] theorem State.withTbc_shc : (s.withTbc x).shc = s.shc := rfl
@[simp] theorem State.withTbc_fdc : (s.withTbc x).fdc = s.fdc := rfl
@[simp] theorem State.withTbc_htc : (s.withTbc x).htc = s.htc := rfl
@[simp] theorem State.withTbc_tbc : (s.withTbc x).tbc = x := rfl
@[simp] theorem State.withTbc_hsq : (s.withTbc x).hsq = s.hsq := rfl
@[simp] theorem State.withTbc_lc : (s.withTbc x).lc = s.lc := rfl
@[simp] theorem State.withTbc_mc : (s.withTbc x).mc = s.mc := rfl
@[simp] theorem State.withTbc_events : (s.withTbc x).events = s.events := rfl
@[simp] theorem State.withTbc_requests : (s.withTbc x).requests = s.requests := rfl
@[simp] theorem State.withTbc_pending : (s.withTbc x).pending = s.pending := rfl
end

section
variable (s : State) (x : Hsq)
@[simp] theorem State.withHsq_now : (s.withHsq x).now = s.now := rfl
@[simp] theorem State.withHsq_sub : (s.withHsq x).sub = s.sub := rfl
@[simp] theorem State.withHsq_clock : (s.withHsq x).clock = s.clock := rfl
@[simp] theorem State.withHsq_pins : (s.withHsq x).pins = s.pins := rfl
@[simp] theorem State.withHsq_cfg : (s.withHsq x).cfg = s.cfg := rfl
@[simp] theorem State.withHsq_scu : (s.withHsq x).scu = s.scu := rfl
@[simp] theorem State.withHsq_sfe : (s.withHsq x).sfe = s.sfe := rfl
@[simp] theorem State.withHsq_vdb : (s.withHsq x).vdb = s.vdb := rfl
@[simp] theorem State.withHsq_shc : (s.withHsq x).shc = s.shc := rfl
@[simp] theorem State.withHsq_fdc : (s.withHsq x).fdc = s.fdc := rfl
@[simp] theorem State.withHsq_htc : (s.withHsq x).htc = s.htc := rfl
@[simp] theorem State.withHsq_tbc : (s.withHsq x).tbc = s.tbc := rfl
@[simp] theorem State.withHsq_hsq : (s.withHsq x).hsq = x := rfl
@[simp] theorem State.withHsq_lc : (s.withHsq x).lc = s.lc := rfl
@[simp] theorem State.withHsq_mc : (s.withHsq x).mc = s.mc := rfl
@[simp] theorem State.withHsq_events : (s.withHsq x).events = s.events := rfl
@[simp] theorem State.withHsq_requests : (s.withHsq x).requests = s.requests := rfl
@[simp] theorem State.withHsq_pending : (s.withHsq x).pending = s.pending := rfl
end

section
variable (s : State) (x : Lc)
@[simp] theorem State.withLc_now : (s.withLc x).now = s.now := rfl
@[simp] theorem State.withLc_sub : (s.withLc x).sub = s.sub := rfl
@[simp] theorem State.withLc_clock : (s.withLc x).clock = s.clock := rfl
@[simp] theorem State.withLc_pins : (s.withLc x).pins = s.pins := rfl
@[simp] theorem State.withLc_cfg : (s.withLc x).cfg = s.cfg := rfl
@[simp] theorem State.withLc_scu : (s.withLc x).scu = s.scu := rfl
@[simp] theorem State.withLc_sfe : (s.withLc x).sfe = s.sfe := rfl
@[simp] theorem State.withLc_vdb : (s.withLc x).vdb = s.vdb := rfl
@[simp] theorem State.withLc_shc : (s.withLc x).shc = s.shc := rfl
@[simp] theorem State.withLc_fdc : (s.withLc x).fdc = s.fdc := rfl
@[simp] theorem State.withLc_htc : (s.withLc x).htc = s.htc := rfl
@[simp] theorem State.withLc_tbc : (s.withLc x).tbc = s.tbc := rfl
@[simp] theorem State.withLc_hsq : (s.withLc x).hsq = s.hsq := rfl
@[simp] theorem State.withLc_lc : (s.withLc x).lc = x := rfl
@[simp] theorem State.withLc_mc : (s.withLc x).mc = s.mc := rfl
@[simp] theorem State.withLc_events : (s.withLc x).events = s.events := rfl
@[simp] theorem State.withLc_requests : (s.withLc x).requests = s.requests := rfl
@[simp] theorem State.withLc_pending : (s.withLc x).pending = s.pending := rfl
end

section
variable (s : State) (x : Mc)
@[simp] theorem State.withMc_now : (s.withMc x).now = s.now := rfl
@[simp] theorem State.withMc_sub : (s.withMc x).sub = s.sub := rfl
@[simp] theorem State.withMc_clock : (s.withMc x).clock = s.clock := rfl
@[simp] theorem State.withMc_pins : (s.withMc x).pins = s.pins := rfl
@[simp] theorem State.withMc_cfg : (s.withMc x).cfg = s.cfg := rfl
@[simp] theorem State.withMc_scu : (s.withMc x).scu = s.scu := rfl
@[simp] theorem State.withMc_sfe : (s.withMc x).sfe = s.sfe := rfl
@[simp] theorem State.withMc_vdb : (s.withMc x).vdb = s.vdb := rfl
@[simp] theorem State.withMc_shc : (s.withMc x).shc = s.shc := rfl
@[simp] theorem State.withMc_fdc : (s.withMc x).fdc = s.fdc := rfl
@[simp] theorem State.withMc_htc : (s.withMc x).htc = s.htc := rfl
@[simp] theorem State.withMc_tbc : (s.withMc x).tbc = s.tbc := rfl
@[simp] theorem State.withMc_hsq : (s.withMc x).hsq = s.hsq := rfl
@[simp] theorem State.withMc_lc : (s.withMc x).lc = s.lc := rfl
@[simp] theorem State.withMc_mc : (s.withMc x).mc = x := rfl
@[simp] theorem State.withMc_events : (s.withMc x).events = s.events := rfl
@[simp] theorem State.withMc_requests : (s.withMc x).requests = s.requests := rfl
@[simp] theorem State.withMc_pending : (s.withMc x).pending = s.pending := rfl
end

section
variable (s : State) (x : List Delivery)
@[simp] theorem State.withEvents_now : (s.withEvents x).now = s.now := rfl
@[simp] theorem State.withEvents_sub : (s.withEvents x).sub = s.sub := rfl
@[simp] theorem State.withEvents_clock : (s.withEvents x).clock = s.clock := rfl
@[simp] theorem State.withEvents_pins : (s.withEvents x).pins = s.pins := rfl
@[simp] theorem State.withEvents_cfg : (s.withEvents x).cfg = s.cfg := rfl
@[simp] theorem State.withEvents_scu : (s.withEvents x).scu = s.scu := rfl
@[simp] theorem State.withEvents_sfe : (s.withEvents x).sfe = s.sfe := rfl
@[simp] theorem State.withEvents_vdb : (s.withEvents x).vdb = s.vdb := rfl
@[simp] theorem State.withEvents_shc : (s.withEvents x).shc = s.shc := rfl
@[simp] theorem State.withEvents_fdc : (s.withEvents x).fdc = s.fdc := rfl
@[simp] theorem State.withEvents_htc : (s.withEvents x).htc = s.htc := rfl
@[simp] theorem State.withEvents_tbc : (s.withEvents x).tbc = s.tbc := rfl
@[simp] theorem State.withEvents_hsq : (s.withEvents x).hsq = s.hsq := rfl
@[simp] theorem State.withEvents_lc : (s.withEvents x).lc = s.lc := rfl
@[simp] theorem State.withEvents_mc : (s.withEvents x).mc = s.mc := rfl
@[simp] theorem State.withEvents_events : (s.withEvents x).events = x := rfl
@[simp] theorem State.withEvents_requests : (s.withEvents x).requests = s.requests := rfl
@[simp] theorem State.withEvents_pending : (s.withEvents x).pending = s.pending := rfl
end

section
variable (s : State) (x : List Request)
@[simp] theorem State.withRequests_now : (s.withRequests x).now = s.now := rfl
@[simp] theorem State.withRequests_sub : (s.withRequests x).sub = s.sub := rfl
@[simp] theorem State.withRequests_clock : (s.withRequests x).clock = s.clock := rfl
@[simp] theorem State.withRequests_pins : (s.withRequests x).pins = s.pins := rfl
@[simp] theorem State.withRequests_cfg : (s.withRequests x).cfg = s.cfg := rfl
@[simp] theorem State.withRequests_scu : (s.withRequests x).scu = s.scu := rfl
@[simp] theorem State.withRequests_sfe : (s.withRequests x).sfe = s.sfe := rfl
@[simp] theorem State.withRequests_vdb : (s.withRequests x).vdb = s.vdb := rfl
@[simp] theorem State.withRequests_shc : (s.withRequests x).shc = s.shc := rfl
@[simp] theorem State.withRequests_fdc : (s.withRequests x).fdc = s.fdc := rfl
@[simp] theorem State.withRequests_htc : (s.withRequests x).htc = s.htc := rfl
@[simp] theorem State.withRequests_tbc : (s.withRequests x).tbc = s.tbc := rfl
@[simp] theorem State.withRequests_hsq : (s.withRequests x).hsq = s.hsq := rfl
@[simp] theorem State.withRequests_lc : (s.withRequests x).lc = s.lc := rfl
@[simp] theorem State.withRequests_mc : (s.withRequests x).mc = s.mc := rfl
@[simp] theorem State.withRequests_events : (s.withRequests x).events = s.events := rfl
@[simp] theorem State.withRequests_requests : (s.withRequests x).requests = x := rfl
@[simp] theorem State.withRequests_pending : (s.withRequests x).pending = s.pending := rfl
end

section
variable (s : State) (x : Pins)
@[simp] theorem State.withPins_now : (s.withPins x).now = s.now := rfl
@[simp] theorem State.withPins_sub : (s.withPins x).sub = s.sub := rfl
@[simp] theorem State.withPins_clock : (s.withPins x).clock = s.clock := rfl
@[simp] theorem State.withPins_pins : (s.withPins x).pins = x := rfl
@[simp] theorem State.withPins_cfg : (s.withPins x).cfg = s.cfg := rfl
@[simp] theorem State.withPins_scu : (s.withPins x).scu = s.scu := rfl
@[simp] theorem State.withPins_sfe : (s.withPins x).sfe = s.sfe := rfl
@[simp] theorem State.withPins_vdb : (s.withPins x).vdb = s.vdb := rfl
@[simp] theorem State.withPins_shc : (s.withPins x).shc = s.shc := rfl
@[simp] theorem State.withPins_fdc : (s.withPins x).fdc = s.fdc := rfl
@[simp] theorem State.withPins_htc : (s.withPins x).htc = s.htc := rfl
@[simp] theorem State.withPins_tbc : (s.withPins x).tbc = s.tbc := rfl
@[simp] theorem State.withPins_hsq : (s.withPins x).hsq = s.hsq := rfl
@[simp] theorem State.withPins_lc : (s.withPins x).lc = s.lc := rfl
@[simp] theorem State.withPins_mc : (s.withPins x).mc = s.mc := rfl
@[simp] theorem State.withPins_events : (s.withPins x).events = s.events := rfl
@[simp] theorem State.withPins_requests : (s.withPins x).requests = s.requests := rfl
@[simp] theorem State.withPins_pending : (s.withPins x).pending = s.pending := rfl
end

section
variable (s : State) (x : Image)
@[simp] theorem State.withCfg_now : (s.withCfg x).now = s.now := rfl
@[simp] theorem State.withCfg_sub : (s.withCfg x).sub = s.sub := rfl
@[simp] theorem State.withCfg_clock : (s.withCfg x).clock = s.clock := rfl
@[simp] theorem State.withCfg_pins : (s.withCfg x).pins = s.pins := rfl
@[simp] theorem State.withCfg_cfg : (s.withCfg x).cfg = x := rfl
@[simp] theorem State.withCfg_scu : (s.withCfg x).scu = s.scu := rfl
@[simp] theorem State.withCfg_sfe : (s.withCfg x).sfe = s.sfe := rfl
@[simp] theorem State.withCfg_vdb : (s.withCfg x).vdb = s.vdb := rfl
@[simp] theorem State.withCfg_shc : (s.withCfg x).shc = s.shc := rfl
@[simp] theorem State.withCfg_fdc : (s.withCfg x).fdc = s.fdc := rfl
@[simp] theorem State.withCfg_htc : (s.withCfg x).htc = s.htc := rfl
@[simp] theorem State.withCfg_tbc : (s.withCfg x).tbc = s.tbc := rfl
@[simp] theorem State.withCfg_hsq : (s.withCfg x).hsq = s.hsq := rfl
@[simp] theorem State.withCfg_lc : (s.withCfg x).lc = s.lc := rfl
@[simp] theorem State.withCfg_mc : (s.withCfg x).mc = s.mc := rfl
@[simp] theorem State.withCfg_events : (s.withCfg x).events = s.events := rfl
@[simp] theorem State.withCfg_requests : (s.withCfg x).requests = s.requests := rfl
@[simp] theorem State.withCfg_pending : (s.withCfg x).pending = s.pending := rfl
end

section
variable (s : State) (o : Output) (r : OutRec)
@[simp] theorem State.withOut_now : (s.withOut o r).now = s.now := rfl
@[simp] theorem State.withOut_sub : (s.withOut o r).sub = s.sub := rfl
@[simp] theorem State.withOut_clock : (s.withOut o r).clock = s.clock := rfl
@[simp] theorem State.withOut_pins : (s.withOut o r).pins = s.pins := rfl
@[simp] theorem State.withOut_cfg : (s.withOut o r).cfg = s.cfg := rfl
@[simp] theorem State.withOut_scu : (s.withOut o r).scu = s.scu := rfl
@[simp] theorem State.withOut_sfe : (s.withOut o r).sfe = s.sfe := rfl
@[simp] theorem State.withOut_shc : (s.withOut o r).shc = s.shc := rfl
@[simp] theorem State.withOut_fdc : (s.withOut o r).fdc = s.fdc := rfl
@[simp] theorem State.withOut_htc : (s.withOut o r).htc = s.htc := rfl
@[simp] theorem State.withOut_tbc : (s.withOut o r).tbc = s.tbc := rfl
@[simp] theorem State.withOut_hsq : (s.withOut o r).hsq = s.hsq := rfl
@[simp] theorem State.withOut_lc : (s.withOut o r).lc = s.lc := rfl
@[simp] theorem State.withOut_mc : (s.withOut o r).mc = s.mc := rfl
@[simp] theorem State.withOut_events : (s.withOut o r).events = s.events := rfl
@[simp] theorem State.withOut_requests : (s.withOut o r).requests = s.requests := rfl
@[simp] theorem State.withOut_pending : (s.withOut o r).pending = s.pending := rfl
end

section
variable (s : State) (y : Supply) (r : SupplyRec)
@[simp] theorem State.withSupply_now : (s.withSupply y r).now = s.now := rfl
@[simp] theorem State.withSupply_sub : (s.withSupply y r).sub = s.sub := rfl
@[simp] theorem State.withSupply_clock : (s.withSupply y r).clock = s.clock := rfl
@[simp] theorem State.withSupply_pins : (s.withSupply y r).pins = s.pins := rfl
@[simp] theorem State.withSupply_cfg : (s.withSupply y r).cfg = s.cfg := rfl
@[simp] theorem State.withSupply_scu : (s.withSupply y r).scu = s.scu := rfl
@[simp] theorem State.withSupply_sfe : (s.withSupply y r).sfe = s.sfe := rfl
@[simp] theorem State.withSupply_shc : (s.withSupply y r).shc = s.shc := rfl
@[simp] theorem State.withSupply_fdc : (s.withSupply y r).fdc = s.fdc := rfl
@[simp] theorem State.withSupply_htc : (s.withSupply y r).htc = s.htc := rfl
@[simp] theorem State.withSupply_tbc : (s.withSupply y r).tbc = s.tbc := rfl
@[simp] theorem State.withSupply_hsq : (s.withSupply y r).hsq = s.hsq := rfl
@[simp] theorem State.withSupply_lc : (s.withSupply y r).lc = s.lc := rfl
@[simp] theorem State.withSupply_mc : (s.withSupply y r).mc = s.mc := rfl
@[simp] theorem State.withSupply_events : (s.withSupply y r).events = s.events := rfl
@[simp] theorem State.withSupply_requests : (s.withSupply y r).requests = s.requests := rfl
@[simp] theorem State.withSupply_pending : (s.withSupply y r).pending = s.pending := rfl
end

section
variable (s : State) (c : PulseChannel) (r : PulseRec)
@[simp] theorem State.withChan_now : (s.withChan c r).now = s.now := rfl
@[simp] theorem State.withChan_sub : (s.withChan c r).sub = s.sub := rfl
@[simp] theorem State.withChan_clock : (s.withChan c r).clock = s.clock := rfl
@[simp] theorem State.withChan_pins : (s.withChan c r).pins = s.pins := rfl
@[simp] theorem State.withChan_cfg : (s.withChan c r).cfg = s.cfg := rfl
@[simp] theorem State.withChan_sfe : (s.withChan c r).sfe = s.sfe := rfl
@[simp] theorem State.withChan_vdb : (s.withChan c r).vdb = s.vdb := rfl
@[simp] theorem State.withChan_shc : (s.withChan c r).shc = s.shc := rfl
@[simp] theorem State.withChan_fdc : (s.withChan c r).fdc = s.fdc := rfl
@[simp] theorem State.withChan_htc : (s.withChan c r).htc = s.htc := rfl
@[simp] theorem State.withChan_tbc : (s.withChan c r).tbc = s.tbc := rfl
@[simp] theorem State.withChan_hsq : (s.withChan c r).hsq = s.hsq := rfl
@[simp] theorem State.withChan_lc : (s.withChan c r).lc = s.lc := rfl
@[simp] theorem State.withChan_mc : (s.withChan c r).mc = s.mc := rfl
@[simp] theorem State.withChan_events : (s.withChan c r).events = s.events := rfl
@[simp] theorem State.withChan_requests : (s.withChan c r).requests = s.requests := rfl
@[simp] theorem State.withChan_pending : (s.withChan c r).pending = s.pending := rfl
end

section
variable (s : State) (y : Sensor) (r : SensorRec)
@[simp] theorem State.withSensor_now : (s.withSensor y r).now = s.now := rfl
@[simp] theorem State.withSensor_sub : (s.withSensor y r).sub = s.sub := rfl
@[simp] theorem State.withSensor_clock : (s.withSensor y r).clock = s.clock := rfl
@[simp] theorem State.withSensor_pins : (s.withSensor y r).pins = s.pins := rfl
@[simp] theorem State.withSensor_cfg : (s.withSensor y r).cfg = s.cfg := rfl
@[simp] theorem State.withSensor_scu : (s.withSensor y r).scu = s.scu := rfl
@[simp] theorem State.withSensor_vdb : (s.withSensor y r).vdb = s.vdb := rfl
@[simp] theorem State.withSensor_shc : (s.withSensor y r).shc = s.shc := rfl
@[simp] theorem State.withSensor_fdc : (s.withSensor y r).fdc = s.fdc := rfl
@[simp] theorem State.withSensor_htc : (s.withSensor y r).htc = s.htc := rfl
@[simp] theorem State.withSensor_tbc : (s.withSensor y r).tbc = s.tbc := rfl
@[simp] theorem State.withSensor_hsq : (s.withSensor y r).hsq = s.hsq := rfl
@[simp] theorem State.withSensor_lc : (s.withSensor y r).lc = s.lc := rfl
@[simp] theorem State.withSensor_mc : (s.withSensor y r).mc = s.mc := rfl
@[simp] theorem State.withSensor_events : (s.withSensor y r).events = s.events := rfl
@[simp] theorem State.withSensor_requests : (s.withSensor y r).requests = s.requests := rfl
@[simp] theorem State.withSensor_pending : (s.withSensor y r).pending = s.pending := rfl
end

section
variable (s : State) (c : CalRec)
@[simp] theorem State.withCal_now : (s.withCal c).now = s.now := rfl
@[simp] theorem State.withCal_sub : (s.withCal c).sub = s.sub := rfl
@[simp] theorem State.withCal_clock : (s.withCal c).clock = s.clock := rfl
@[simp] theorem State.withCal_pins : (s.withCal c).pins = s.pins := rfl
@[simp] theorem State.withCal_cfg : (s.withCal c).cfg = s.cfg := rfl
@[simp] theorem State.withCal_scu : (s.withCal c).scu = s.scu := rfl
@[simp] theorem State.withCal_vdb : (s.withCal c).vdb = s.vdb := rfl
@[simp] theorem State.withCal_shc : (s.withCal c).shc = s.shc := rfl
@[simp] theorem State.withCal_fdc : (s.withCal c).fdc = s.fdc := rfl
@[simp] theorem State.withCal_htc : (s.withCal c).htc = s.htc := rfl
@[simp] theorem State.withCal_tbc : (s.withCal c).tbc = s.tbc := rfl
@[simp] theorem State.withCal_hsq : (s.withCal c).hsq = s.hsq := rfl
@[simp] theorem State.withCal_lc : (s.withCal c).lc = s.lc := rfl
@[simp] theorem State.withCal_mc : (s.withCal c).mc = s.mc := rfl
@[simp] theorem State.withCal_events : (s.withCal c).events = s.events := rfl
@[simp] theorem State.withCal_requests : (s.withCal c).requests = s.requests := rfl
@[simp] theorem State.withCal_pending : (s.withCal c).pending = s.pending := rfl
end

section
variable (s : State) (y : Clutch) (r : ClutchRec)
@[simp] theorem State.withClutch_now : (s.withClutch y r).now = s.now := rfl
@[simp] theorem State.withClutch_sub : (s.withClutch y r).sub = s.sub := rfl
@[simp] theorem State.withClutch_clock : (s.withClutch y r).clock = s.clock := rfl
@[simp] theorem State.withClutch_pins : (s.withClutch y r).pins = s.pins := rfl
@[simp] theorem State.withClutch_cfg : (s.withClutch y r).cfg = s.cfg := rfl
@[simp] theorem State.withClutch_scu : (s.withClutch y r).scu = s.scu := rfl
@[simp] theorem State.withClutch_sfe : (s.withClutch y r).sfe = s.sfe := rfl
@[simp] theorem State.withClutch_vdb : (s.withClutch y r).vdb = s.vdb := rfl
@[simp] theorem State.withClutch_fdc : (s.withClutch y r).fdc = s.fdc := rfl
@[simp] theorem State.withClutch_htc : (s.withClutch y r).htc = s.htc := rfl
@[simp] theorem State.withClutch_tbc : (s.withClutch y r).tbc = s.tbc := rfl
@[simp] theorem State.withClutch_hsq : (s.withClutch y r).hsq = s.hsq := rfl
@[simp] theorem State.withClutch_lc : (s.withClutch y r).lc = s.lc := rfl
@[simp] theorem State.withClutch_mc : (s.withClutch y r).mc = s.mc := rfl
@[simp] theorem State.withClutch_events : (s.withClutch y r).events = s.events := rfl
@[simp] theorem State.withClutch_requests : (s.withClutch y r).requests = s.requests := rfl
@[simp] theorem State.withClutch_pending : (s.withClutch y r).pending = s.pending := rfl
end

section
variable (s : State) (p : Option Phase)
@[simp] theorem State.withPhase_now : (s.withPhase p).now = s.now := rfl
@[simp] theorem State.withPhase_sub : (s.withPhase p).sub = s.sub := rfl
@[simp] theorem State.withPhase_clock : (s.withPhase p).clock = s.clock := rfl
@[simp] theorem State.withPhase_pins : (s.withPhase p).pins = s.pins := rfl
@[simp] theorem State.withPhase_cfg : (s.withPhase p).cfg = s.cfg := rfl
@[simp] theorem State.withPhase_scu : (s.withPhase p).scu = s.scu := rfl
@[simp] theorem State.withPhase_sfe : (s.withPhase p).sfe = s.sfe := rfl
@[simp] theorem State.withPhase_vdb : (s.withPhase p).vdb = s.vdb := rfl
@[simp] theorem State.withPhase_fdc : (s.withPhase p).fdc = s.fdc := rfl
@[simp] theorem State.withPhase_htc : (s.withPhase p).htc = s.htc := rfl
@[simp] theorem State.withPhase_tbc : (s.withPhase p).tbc = s.tbc := rfl
@[simp] theorem State.withPhase_hsq : (s.withPhase p).hsq = s.hsq := rfl
@[simp] theorem State.withPhase_lc : (s.withPhase p).lc = s.lc := rfl
@[simp] theorem State.withPhase_mc : (s.withPhase p).mc = s.mc := rfl
@[simp] theorem State.withPhase_events : (s.withPhase p).events = s.events := rfl
@[simp] theorem State.withPhase_requests : (s.withPhase p).requests = s.requests := rfl
@[simp] theorem State.withPhase_pending : (s.withPhase p).pending = s.pending := rfl
end

section
variable (s : State) (r : Reasons)
@[simp] theorem State.withReasons_now : (s.withReasons r).now = s.now := rfl
@[simp] theorem State.withReasons_sub : (s.withReasons r).sub = s.sub := rfl
@[simp] theorem State.withReasons_clock : (s.withReasons r).clock = s.clock := rfl
@[simp] theorem State.withReasons_pins : (s.withReasons r).pins = s.pins := rfl
@[simp] theorem State.withReasons_cfg : (s.withReasons r).cfg = s.cfg := rfl
@[simp] theorem State.withReasons_scu : (s.withReasons r).scu = s.scu := rfl
@[simp] theorem State.withReasons_sfe : (s.withReasons r).sfe = s.sfe := rfl
@[simp] theorem State.withReasons_vdb : (s.withReasons r).vdb = s.vdb := rfl
@[simp] theorem State.withReasons_shc : (s.withReasons r).shc = s.shc := rfl
@[simp] theorem State.withReasons_htc : (s.withReasons r).htc = s.htc := rfl
@[simp] theorem State.withReasons_tbc : (s.withReasons r).tbc = s.tbc := rfl
@[simp] theorem State.withReasons_hsq : (s.withReasons r).hsq = s.hsq := rfl
@[simp] theorem State.withReasons_lc : (s.withReasons r).lc = s.lc := rfl
@[simp] theorem State.withReasons_mc : (s.withReasons r).mc = s.mc := rfl
@[simp] theorem State.withReasons_events : (s.withReasons r).events = s.events := rfl
@[simp] theorem State.withReasons_requests : (s.withReasons r).requests = s.requests := rfl
@[simp] theorem State.withReasons_pending : (s.withReasons r).pending = s.pending := rfl
end

section
variable (s : State) (t : FaultTable)
@[simp] theorem State.withFaults_now : (s.withFaults t).now = s.now := rfl
@[simp] theorem State.withFaults_sub : (s.withFaults t).sub = s.sub := rfl
@[simp] theorem State.withFaults_clock : (s.withFaults t).clock = s.clock := rfl
@[simp] theorem State.withFaults_pins : (s.withFaults t).pins = s.pins := rfl
@[simp] theorem State.withFaults_cfg : (s.withFaults t).cfg = s.cfg := rfl
@[simp] theorem State.withFaults_scu : (s.withFaults t).scu = s.scu := rfl
@[simp] theorem State.withFaults_sfe : (s.withFaults t).sfe = s.sfe := rfl
@[simp] theorem State.withFaults_vdb : (s.withFaults t).vdb = s.vdb := rfl
@[simp] theorem State.withFaults_shc : (s.withFaults t).shc = s.shc := rfl
@[simp] theorem State.withFaults_fdc : (s.withFaults t).fdc = s.fdc := rfl
@[simp] theorem State.withFaults_htc : (s.withFaults t).htc = s.htc := rfl
@[simp] theorem State.withFaults_tbc : (s.withFaults t).tbc = s.tbc := rfl
@[simp] theorem State.withFaults_hsq : (s.withFaults t).hsq = s.hsq := rfl
@[simp] theorem State.withFaults_lc : (s.withFaults t).lc = s.lc := rfl
@[simp] theorem State.withFaults_events : (s.withFaults t).events = s.events := rfl
@[simp] theorem State.withFaults_requests : (s.withFaults t).requests = s.requests := rfl
@[simp] theorem State.withFaults_pending : (s.withFaults t).pending = s.pending := rfl
end

end Sys2Proof.Machine
end

