-- ==== Sys2Proof/Laws/Tables.lean ====
section
/-! SUPPORT. Reading a table after a write, after a map and of a constant table. -/

namespace Sys2Proof

@[simp] theorem PulseTable.get_set (t : PulseTable α) (i j : PulseChannel) (x : α) :
    (t.set i x).get j = if j = i then x else t.get j := by
  cases i <;> cases j <;> rfl

@[simp] theorem PulseTable.get_map (t : PulseTable α) (f : PulseChannel → α → β) (i : PulseChannel) :
    (t.map f).get i = f i (t.get i) := by
  cases i <;> rfl

@[simp] theorem PulseTable.get_const (x : α) (i : PulseChannel) : (PulseTable.const x).get i = x := by
  cases i <;> rfl

/-- Two tables with the same entries are equal. -/
theorem PulseTable.ext_get (t u : PulseTable α) (h : ∀ i : PulseChannel, t.get i = u.get i) : t = u := by
  cases t; cases u
  simp only [PulseTable.mk.injEq]
  exact ⟨h .inp, h .out, h .frt, h .rad⟩

@[simp] theorem SensorTable.get_set (t : SensorTable α) (i j : Sensor) (x : α) :
    (t.set i x).get j = if j = i then x else t.get j := by
  cases i <;> cases j <;> rfl

@[simp] theorem SensorTable.get_map (t : SensorTable α) (f : Sensor → α → β) (i : Sensor) :
    (t.map f).get i = f i (t.get i) := by
  cases i <;> rfl

@[simp] theorem SensorTable.get_const (x : α) (i : Sensor) : (SensorTable.const x).get i = x := by
  cases i <;> rfl

/-- Two tables with the same entries are equal. -/
theorem SensorTable.ext_get (t u : SensorTable α) (h : ∀ i : Sensor, t.get i = u.get i) : t = u := by
  cases t; cases u
  simp only [SensorTable.mk.injEq]
  exact ⟨h .drl, h .drr, h .hps, h .sup, h .chg, h .tbr, h .tcl, h .tsl, h .oil⟩

@[simp] theorem OutputTable.get_set (t : OutputTable α) (i j : Output) (x : α) :
    (t.set i x).get j = if j = i then x else t.get j := by
  cases i <;> cases j <;> rfl

@[simp] theorem OutputTable.get_map (t : OutputTable α) (f : Output → α → β) (i : Output) :
    (t.map f).get i = f i (t.get i) := by
  cases i <;> rfl

@[simp] theorem OutputTable.get_const (x : α) (i : Output) : (OutputTable.const x).get i = x := by
  cases i <;> rfl

/-- Two tables with the same entries are equal. -/
theorem OutputTable.ext_get (t u : OutputTable α) (h : ∀ i : Output, t.get i = u.get i) : t = u := by
  cases t; cases u
  simp only [OutputTable.mk.injEq]
  exact ⟨h .ca, h .cb, h .cc, h .cd, h .cl, h .cm, h .ch, h .cfw, h .crv, h .pkv, h .fdv, h .hrv, h .hlv, h .tcv, h .tsv⟩

@[simp] theorem SupplyTable.get_set (t : SupplyTable α) (i j : Supply) (x : α) :
    (t.set i x).get j = if j = i then x else t.get j := by
  cases i <;> cases j <;> rfl

@[simp] theorem SupplyTable.get_map (t : SupplyTable α) (f : Supply → α → β) (i : Supply) :
    (t.map f).get i = f i (t.get i) := by
  cases i <;> rfl

@[simp] theorem SupplyTable.get_const (x : α) (i : Supply) : (SupplyTable.const x).get i = x := by
  cases i <;> rfl

/-- Two tables with the same entries are equal. -/
theorem SupplyTable.ext_get (t u : SupplyTable α) (h : ∀ i : Supply, t.get i = u.get i) : t = u := by
  cases t; cases u
  simp only [SupplyTable.mk.injEq]
  exact ⟨h .vsa, h .vsb⟩

@[simp] theorem ClutchTable.get_set (t : ClutchTable α) (i j : Clutch) (x : α) :
    (t.set i x).get j = if j = i then x else t.get j := by
  cases i <;> cases j <;> rfl

@[simp] theorem ClutchTable.get_map (t : ClutchTable α) (f : Clutch → α → β) (i : Clutch) :
    (t.map f).get i = f i (t.get i) := by
  cases i <;> rfl

@[simp] theorem ClutchTable.get_const (x : α) (i : Clutch) : (ClutchTable.const x).get i = x := by
  cases i <;> rfl

/-- Two tables with the same entries are equal. -/
theorem ClutchTable.ext_get (t u : ClutchTable α) (h : ∀ i : Clutch, t.get i = u.get i) : t = u := by
  cases t; cases u
  simp only [ClutchTable.mk.injEq]
  exact ⟨h .a, h .b, h .c, h .d, h .l, h .m, h .h, h .fwd, h .rev⟩

@[simp] theorem GroupTable.get_set (t : GroupTable α) (i j : Group) (x : α) :
    (t.set i x).get j = if j = i then x else t.get j := by
  cases i <;> cases j <;> rfl

@[simp] theorem GroupTable.get_map (t : GroupTable α) (f : Group → α → β) (i : Group) :
    (t.map f).get i = f i (t.get i) := by
  cases i <;> rfl

@[simp] theorem GroupTable.get_const (x : α) (i : Group) : (GroupTable.const x).get i = x := by
  cases i <;> rfl

/-- Two tables with the same entries are equal. -/
theorem GroupTable.ext_get (t u : GroupTable α) (h : ∀ i : Group, t.get i = u.get i) : t = u := by
  cases t; cases u
  simp only [GroupTable.mk.injEq]
  exact ⟨h .torqueLimit, h .motion, h .gearbox, h .driveHitch, h .trailer, h .faultReport, h .serviceResult, h .identity, h .quietNotice⟩

theorem Output.mem_all (o : Output) : o ∈ Output.all := by cases o <;> decide

theorem Clutch.mem_all (k : Clutch) : k ∈ Clutch.all := by cases k <;> decide

theorem PulseChannel.mem_all (c : PulseChannel) : c ∈ PulseChannel.all := by cases c <;> decide

theorem Output.nodup_all : Output.all.Nodup := by decide

theorem Clutch.nodup_all : Clutch.all.Nodup := by decide

end Sys2Proof
end

