-- ==== Sys2Proof/Laws/Frames.lean ====
section
/-! SUPPORT. Which parts of the state each shared operation may change, said once. -/

namespace Sys2Proof.Machine

/-! ## How frames compose -/

theorem Touches.refl (l : List Part) (s : State) : Touches l s s := by
  intro p _
  cases p <;> rfl

theorem Touches.mono {l m : List Part} {s t : State} (h : Touches l s t) (hs : ∀ p ∈ l, p ∈ m) :
    Touches m s t := fun p hp => h p fun hl => hp (hs p hl)

theorem Part.same_trans {p : Part} {s t u : State} (h : p.same s t) (k : p.same t u) : p.same s u := by
  cases p <;> exact Eq.trans k h

theorem Touches.trans {l : List Part} {s t u : State} (h : Touches l s t) (k : Touches l t u) :
    Touches l s u := fun p hp => Part.same_trans (h p hp) (k p hp)

/-- A change of the parts of `l` and then of those of `m`. -/
theorem Touches.then {l m : List Part} {s t u : State} (h : Touches l s t) (k : Touches m t u) :
    Touches (l ++ m) s u :=
  (h.mono fun _ hp => List.mem_append_left _ hp).trans (k.mono fun _ hp => List.mem_append_right _ hp)

theorem touches_foldl {α : Type} {l : List Part} (f : State → α → State)
    (h : ∀ (s : State) (a : α), Touches l s (f s a)) (as : List α) (s : State) :
    Touches l s (as.foldl f s) := by
  induction as generalizing s with
  | nil => exact .refl l s
  | cons a as ih => exact (h s a).trans (ih (f s a))

theorem touches_ite {l : List Part} {s t u : State} (c : Prop) [Decidable c] (h : Touches l s t)
    (k : Touches l s u) : Touches l s (if c then t else u) := by
  split
  · exact h
  · exact k

/-! ## Replacing a block -/

theorem touches_withScu (s : State) (x : Scu) : Touches [.scu] s (s.withScu x) := by
  intro p hp; cases p <;> first | rfl | simp at hp
theorem touches_withSfe (s : State) (x : Sfe) : Touches [.sfe] s (s.withSfe x) := by
  intro p hp; cases p <;> first | rfl | simp at hp
theorem touches_withVdb (s : State) (x : Vdb) : Touches [.vdb] s (s.withVdb x) := by
  intro p hp; cases p <;> first | rfl | simp at hp
theorem touches_withShc (s : State) (x : Shc) : Touches [.shc] s (s.withShc x) := by
  intro p hp; cases p <;> first | rfl | simp at hp
theorem touches_withFdc (s : State) (x : Fdc) : Touches [.fdc] s (s.withFdc x) := by
  intro p hp; cases p <;> first | rfl | simp at hp
theorem touches_withHtc (s : State) (x : Htc) : Touches [.htc] s (s.withHtc x) := by
  intro p hp; cases p <;> first | rfl | simp at hp
theorem touches_withTbc (s : State) (x : Tbc) : Touches [.tbc] s (s.withTbc x) := by
  intro p hp; cases p <;> first | rfl | simp at hp
theorem touches_withHsq (s : State) (x : Hsq) : Touches [.hsq] s (s.withHsq x) := by
  intro p hp; cases p <;> first | rfl | simp at hp
theorem touches_withLc (s : State) (x : Lc) : Touches [.lc] s (s.withLc x) := by
  intro p hp; cases p <;> first | rfl | simp at hp
theorem touches_withMc (s : State) (x : Mc) : Touches [.mc] s (s.withMc x) := by
  intro p hp; cases p <;> first | rfl | simp at hp
theorem touches_withEvents (s : State) (x : List Delivery) : Touches [.events] s (s.withEvents x) := by
  intro p hp; cases p <;> first | rfl | simp at hp
theorem touches_withRequests (s : State) (x : List Request) :
    Touches [.requests] s (s.withRequests x) := by
  intro p hp; cases p <;> first | rfl | simp at hp
theorem touches_withPins (s : State) (x : Pins) : Touches [.pins] s (s.withPins x) := by
  intro p hp; cases p <;> first | rfl | simp at hp

/-! ## The fault table, events and requests -/

theorem touches_raise (c : FaultCode) (s : State) : Touches [.mc] s (raise c s) := touches_withMc s _
theorem touches_raiseLatched (c : FaultCode) (s : State) : Touches [.mc] s (raiseLatched c s) :=
  touches_withMc s _
theorem touches_clearFault (c : FaultCode) (s : State) : Touches [.mc] s (clearFault c s) :=
  touches_withMc s _
theorem touches_latchFault (c : FaultCode) (s : State) : Touches [.mc] s (latchFault c s) :=
  touches_withMc s _
theorem touches_deliver (x : Sensor) (ev : SfeEvent) (v : Int) (s : State) :
    Touches [.events] s (deliver x ev v s) := touches_withEvents s _

/-! ## Frames and outputs -/

theorem touches_makeFrame (g : Group) (d : List Byte) (s : State) : Touches [.lc] s (makeFrame g d s) := by
  unfold makeFrame
  exact touches_ite _ (touches_withLc s _) (.refl _ s)

theorem touches_nextPage (g : Group) (s : State) : Touches [.lc] s (nextPage g s) := by
  cases g <;> first | exact .refl _ s | exact touches_withLc s _

theorem touches_publish (g : Group) (s : State) : Touches [.lc] s (publish g s) := by
  unfold publish
  exact touches_ite _ ((touches_makeFrame _ _ s).trans (touches_nextPage _ _)) (.refl _ s)

theorem touches_serviceAnswer (c g : Byte) (r : ServiceResult) (w : ServiceReason) (s : State) :
    Touches [.lc] s (serviceAnswer c g r w s) := touches_makeFrame _ _ s

theorem touches_writeCommand (o : Output) (v : Nat) (s : State) :
    Touches [.vdb] s (writeCommand o v s) := by
  unfold writeCommand
  exact touches_ite _ (.refl _ s) (touches_withVdb s _)

theorem touches_onRequest (x : Supply) (s : State) : Touches [.vdb] s (onRequest x s) := by
  unfold onRequest
  dsimp only
  split <;> first | exact .refl _ s | exact touches_withVdb s _

theorem touches_offRequest (x : Supply) (s : State) : Touches [.vdb] s (offRequest x s) := by
  unfold offRequest
  dsimp only
  split <;> first | exact .refl _ s | exact touches_withVdb s _

theorem touches_grantOnDemand (s : State) : Touches [.vdb] s (grantOnDemand s) := by
  unfold grantOnDemand testGrant suspendGrant allowGrant
  repeat' split
  all_goals first | exact .refl _ s | exact touches_withVdb s _

end Sys2Proof.Machine
end

