-- ==== Sys2Proof/Laws/Image.lean ====
section
/-! SUPPORT. What the checks of the configuration image pass (R207) and the shuttle map that a sound gear table
gives (R64), in the terms the statements use. -/

namespace Sys2Proof.Laws

open Sys2Proof Sys2Proof.Machine

/-! ## Header, CRC and sections -/

/-- A step of the CRC is linear. -/
theorem crcBit_xor (c x : BitVec 16) : crcBit (c ^^^ x) = crcBit c ^^^ crcBit x := by
  unfold crcBit
  rw [BitVec.msb_xor]
  cases c.msb <;> cases x.msb <;> simp [BitVec.shiftLeft_xor_distrib] <;> ext i <;>
    simp only [BitVec.getElem_xor] <;> cases (c <<< 1)[i] <;> cases (x <<< 1)[i] <;> simp

/-- A message bit enters the CRC at its most significant bit. -/
theorem crcShift_eq (c : BitVec 16) (b : Bool) :
    crcShift c b = crcBit (c ^^^ (if b then 0x8000#16 else 0#16)) := by
  unfold crcShift crcBit
  rw [BitVec.msb_xor]
  have : (0x8000#16).msb = true := by decide
  cases b <;> cases h : c.msb <;> simp [BitVec.shiftLeft_xor_distrib, this]

theorem crcEight_xor (c x : BitVec 16) : crcEight (c ^^^ x) = crcEight c ^^^ crcEight x := by
  unfold crcEight; simp only [crcBit_xor]

/-- The eight bits of one byte, entered one by one or at once. -/
theorem crc_byte (c : BitVec 16) (b : Byte) :
    (bitsOf [b]).foldl crcShift c = crcEight (c ^^^ BitVec.ofNat 16 (b.toNat * 256)) := by
  have h : ∀ b : Byte, ((List.range 8).map fun i => b.getMsbD i).foldl crcShift 0#16
      = crcEight (BitVec.ofNat 16 (b.toNat * 256)) := by decide +kernel
  rw [crcEight_xor, ← h b]
  simp [bitsOf, List.range_succ, crcShift_eq, crcBit_xor, crcEight, BitVec.xor_assoc]

/-- The CRC of bytes is the CRC of their bits (R207). -/
theorem crc16_serial (d : List Byte) : crc16 d = (bitsOf d).foldl crcShift 0xFFFF#16 := by
  unfold crc16
  generalize 0xFFFF#16 = c
  induction d generalizing c with
  | nil => rfl
  | cons b d ih =>
    have : bitsOf (b :: d) = bitsOf [b] ++ bitsOf d := by simp [bitsOf]
    rw [this, List.foldl_append, crc_byte, ← ih]; rfl

/-- The sections follow one another, none beyond `len` (R207). -/
theorem sectionsFrom_eq (d : List Byte) (len : Nat) (l : List Nat) (pos stop : Nat) :
    sectionsFrom d len l pos = some stop ↔
      ∃ p : Nat → Nat, p 0 = pos ∧ p l.length = stop ∧ ∀ n (h : n < l.length),
        byteAt d (p n) = l[n] ∧ p (n + 1) = p n + 3 + word16 d (p n + 1) ∧ p (n + 1) ≤ len := by
  induction l generalizing pos with
  | nil => 
    simp only [sectionsFrom, Option.some.injEq]
    constructor
    · rintro rfl; exact ⟨fun _ => pos, rfl, rfl, fun n h => by simp at h⟩
    · rintro ⟨p, h, h', _⟩; rw [← h, ← h']; rfl
  | cons a l ih =>
    simp only [sectionsFrom]
    constructor
    · split
      · rename_i h
        intro hs
        obtain ⟨p, h0, h1, h2⟩ := (ih _).1 hs
        refine ⟨fun n => match n with | 0 => pos | n + 1 => p n, rfl, h1, ?_⟩
        intro n hn
        cases n with
        | zero => simp [h0, h]
        | succ n => simpa using h2 n (by simpa using hn)
      · simp
    · rintro ⟨p, h0, h1, h2⟩
      have := h2 0 (by simp)
      simp only [h0] at this
      rw [if_pos ⟨this.1, by have := this.2; omega⟩]
      refine (ih _).2 ⟨fun n => p (n + 1), this.2.1, h1, fun n hn => ?_⟩
      have := h2 (n + 1) (by simpa using hn)
      simpa only [List.getElem_cons_succ] using this

/-- Steps 1 to 3 of R207 pass exactly sound bytes. -/
theorem bytesPass_iff (d : List Byte) : bytesPass d = true ↔ BytesSound d := by
  simp only [bytesPass, Bool.and_eq_true, headerPasses, crcPasses, sectionsPass, imageLength, crc16_serial,
    beq_iff_eq]
  constructor
  · rintro ⟨⟨⟨⟨⟨⟨⟨a, b⟩, c⟩, e⟩, f⟩, g⟩, h⟩, k⟩
    refine ⟨⟨a, b, c, e⟩, ⟨of_decide_eq_true f, of_decide_eq_true g⟩, h, ?_⟩
    obtain ⟨p, h0, h1, h2⟩ := (sectionsFrom_eq _ _ _ _ _).1 k
    refine ⟨p, h0, h1, fun n hn => ?_⟩
    have := h2 n hn
    refine ⟨?_, this.2.1⟩
    rw [this.1]
    clear this
    have hn : n < 13 := hn
    interval_cases n <;> rfl
  · rintro ⟨⟨a, b, c, e⟩, ⟨f, g⟩, h, p, h0, h1, h2⟩
    refine ⟨⟨⟨⟨⟨⟨⟨a, b⟩, c⟩, e⟩, decide_eq_true f⟩, decide_eq_true g⟩, h⟩,
      (sectionsFrom_eq _ _ _ _ _).2 ⟨p, h0, h1, fun n hn => ?_⟩⟩
    have hn' : n < 13 := hn
    have mono : ∀ k, n + 1 + k ≤ 13 → p (n + 1) ≤ p (n + 1 + k) := by
      intro k; induction k with
      | zero => intro _; exact Nat.le_refl _
      | succ k ih =>
        intro hk
        have := (h2 (n + 1 + k) (by omega)).2
        have := ih (by omega)
        show p (n + 1) ≤ p (n + 1 + k + 1)
        omega
    have := mono (12 - n) (by omega)
    rw [show n + 1 + (12 - n) = 13 by omega, h1] at this
    refine ⟨?_, (h2 n hn').2, this⟩
    rw [(h2 n hn').1]
    clear this mono
    interval_cases n <;> rfl

/-! ## The sections -/

theorem within_iff (a b v : Nat) : within a b v = true ↔ a ≤ v ∧ v ≤ b := by simp [within]
theorem withinInt_iff (a b v : Int) : withinInt a b v = true ↔ a ≤ v ∧ v ≤ b := by simp [withinInt]

/-- Section 1 (R188). -/
theorem stationsPass_iff (x : Stations) : stationsPass x = true ↔ StationsSound x := by
  simp only [stationsPass, Bool.and_eq_true, decide_eq_true_eq, List.all_eq_true, within_iff]
  exact ⟨fun h => ⟨h.1, h.2⟩, fun h => ⟨h.1, h.2⟩⟩

/-- A channel of section 3 (R25, R26). -/
theorem sensorPasses_iff (x : Sensor) (c : SensorCfg) : sensorPasses x c = true ↔ SensorSound x c := by
  constructor
  · intro h
    cases x <;>
    simp [sensorPasses, within_iff, withinInt_iff, sidePasses, Sensor.range, highListed, lowListed] at h <;>
    constructor <;> (try simp) <;> grind
  · rintro ⟨a, b, c, d, e, f, g, h⟩
    cases x <;> simp at a b e f g h <;>
    simp [sensorPasses, within_iff, withinInt_iff, sidePasses, Sensor.range, highListed, lowListed] <;> grind

/-- A clutch of section 5 (R65). -/
theorem clutchPasses_iff (m : Nat) (k : ClutchCfg) : clutchPasses m k = true ↔ ClutchSound m k := by
  simp only [clutchPasses, Bool.and_eq_true, decide_eq_true_eq, within_iff]
  constructor
  · intro h; constructor <;> (try simp) <;> omega
  · rintro ⟨a, b, c, d, e, f⟩; simp at b c; omega

theorem ascending_iff (l : List (Nat × Nat)) :
    ascending l = true ↔ l.Pairwise fun p q => p.1 < q.1 := by
  induction l with
  | nil => simp [ascending]
  | cons a l ih =>
    cases l with
    | nil => simp [ascending]
    | cons b l =>
      simp only [ascending, Bool.and_eq_true, decide_eq_true_eq, ih, List.pairwise_cons (a := a)]
      constructor
      · rintro ⟨h, h'⟩
        refine ⟨fun x hx => ?_, h'⟩
        rcases List.mem_cons.1 hx with rfl | hx
        · exact h
        · exact Nat.lt_trans h ((List.pairwise_cons.1 h').1 _ hx)
      · rintro ⟨h, h'⟩; exact ⟨h _ (by simp), h'⟩

/-- A table of section 9 (R145). -/
theorem tablePasses_iff (m n : Nat) (l : List (Nat × Nat)) : tablePasses m n l = true ↔ CurveSound m n l := by
  simp only [tablePasses, Bool.and_eq_true, within_iff, ascending_iff, List.all_eq_true, decide_eq_true_eq]
  exact ⟨fun h => ⟨h.1.1, h.1.2, h.2⟩, fun h => ⟨⟨h.length, h.ascends⟩, h.bounds⟩⟩

/-- A list of section 10 (R167). -/
theorem stepsPass_iff (l : List HStep) : stepsPass l = true ↔ StepsSound l := by
  simp only [stepsPass, Bool.and_eq_true, decide_eq_true_eq, List.all_eq_true]
  constructor
  · rintro ⟨h, h'⟩
    refine ⟨h, ?_, ?_, ?_⟩
    all_goals
      intro x hx n hn
      have := h' x hx
      obtain ⟨a, t⟩ := x
      cases a <;> cases t <;> simp [stepPasses, within_iff] at this hn <;> grind
  · rintro ⟨h, a, b, c⟩
    refine ⟨h, fun x hx => ?_⟩
    have a := a x hx
    have b := b x hx
    have c := c x hx
    obtain ⟨p, t⟩ := x
    cases p <;> cases t <;> simp [stepPasses, within_iff] at a b c ⊢ <;> grind

/-- Section 2 (R1). -/
theorem pulsesPass_iff (c : Image) : pulsesPass c = true ↔
    (∀ k : PulseChannel, k = .inp ∨ k = .out → 1 ≤ (c.pulse.get k).perRev ∧ (c.pulse.get k).perRev ≤ 240) ∧
    (∀ k : PulseChannel, k = .out ∨ k = .frt ∨ k = .rad →
      100 ≤ (c.pulse.get k).travelPer ∧ (c.pulse.get k).travelPer ≤ 100000) ∧
    (∀ k : PulseChannel, 1 ≤ (c.pulse.get k).minSpacing ∧ (c.pulse.get k).minSpacing ≤ 10000) := by
  simp only [pulsesPass, List.all_eq_true, pulsePasses, Bool.and_eq_true, Bool.or_eq_true, within_iff]
  constructor
  · intro h
    have mem : ∀ k : PulseChannel, k ∈ PulseChannel.all := by intro k; cases k <;> decide
    refine ⟨fun k hk => ?_, fun k hk => ?_, fun k => (h k (mem k)).2⟩
    · have := (h k (mem k)).1.1
      rcases hk with rfl | rfl <;> simpa [hasShaft] using this
    · have := (h k (mem k)).1.2
      rcases hk with rfl | rfl | rfl <;> simpa [hasTravel] using this
  · rintro ⟨a, b, e⟩ k -
    refine ⟨⟨?_, ?_⟩, e k⟩
    · cases k <;> simp [hasShaft] <;> exact a _ (by simp)
    · cases k <;> simp [hasTravel] <;> exact b _ (by simp)

/-- The gears of a direction are the entries of that direction (R63). -/
theorem mem_gearsOf (c : Image) (hn : ∀ e ∈ c.gears, e.gear.num ≤ 12)
    (ho : (c.gears.map fun e => e.gear).Nodup) (d : Dir) (e : GearEntry) :
    e ∈ c.gearsOf d ↔ e ∈ c.gears ∧ e.gear.dir = d := by
  simp only [Image.gearsOf, List.mem_filterMap, List.mem_range, Image.entryOf]
  constructor
  · rintro ⟨n, hn, h⟩
    have h1 := List.mem_of_find?_eq_some h
    have h2 := List.find?_some h
    simp at h2
    exact ⟨h1, by rw [h2]⟩
  · rintro ⟨h, rfl⟩
    refine ⟨e.gear.num, by have := hn e h; omega, ?_⟩
    rw [List.find?_eq_some_iff_append]
    refine ⟨by simp, ?_⟩
    obtain ⟨as, bs, hl⟩ := List.append_of_mem h
    refine ⟨as, bs, hl, fun a ha => ?_⟩
    rw [hl] at ho
    simp [List.nodup_append] at ho
    have := ho.2.2 a ha
    simp only [Bool.not_eq_true', decide_eq_false_iff_not]
    exact fun hh => this.1 hh

/-- The gears of a direction are in the order of their names (R63). -/
theorem gearsOf_sorted (c : Image) (d : Dir) :
    (c.gearsOf d).Pairwise fun e f => e.gear.num < f.gear.num := by
  unfold Image.gearsOf
  rw [List.pairwise_filterMap]
  refine List.Pairwise.imp ?_ (List.pairwise_lt_range (n := 13))
  intro a b hab e he f hf
  have he := List.find?_some he
  have hf := List.find?_some hf
  simp at he hf
  rw [he, hf]; exact hab

theorem falling_iff (l : List GearEntry) : falling l = true ↔ l.Pairwise fun e f => f.ratio < e.ratio := by
  induction l with
  | nil => simp [falling]
  | cons a l ih =>
    cases l with
    | nil => simp [falling]
    | cons b l =>
      simp only [falling, Bool.and_eq_true, decide_eq_true_eq, ih, List.pairwise_cons (a := a)]
      constructor
      · rintro ⟨h, h'⟩
        refine ⟨fun x hx => ?_, h'⟩
        rcases List.mem_cons.1 hx with rfl | hx
        · exact h
        · exact Nat.lt_trans ((List.pairwise_cons.1 h').1 _ hx) h
      · rintro ⟨h, h'⟩; exact ⟨h _ (by simp), h'⟩

theorem namePasses_iff (g : Gear) : namePasses g = true ↔
    1 ≤ g.num ∧ g.num ≤ (match g.dir with | .forward => 12 | .reverse => 8) := by
  obtain ⟨d, n⟩ := g
  cases d <;> simp [namePasses, within_iff]

/-- Two entries of sorted gears: which comes first. -/
theorem sorted_of (l : List GearEntry) (h : l.Pairwise fun e f => e.gear.num < f.gear.num)
    (R : GearEntry → GearEntry → Prop) : l.Pairwise R ↔ ∀ e ∈ l, ∀ f ∈ l, e.gear.num < f.gear.num → R e f := by
  constructor
  · intro hr
    have := List.Pairwise.and h hr
    intro e he f hf hlt
    rcases List.pairwise_iff_getElem.1 this with this
    obtain ⟨i, hi, rfl⟩ := List.getElem_of_mem he
    obtain ⟨j, hj, rfl⟩ := List.getElem_of_mem hf
    rcases Nat.lt_trichotomy i j with hij | rfl | hij
    · exact (this i j hi hj hij).2
    · omega
    · have := (this j i hj hi hij).1; omega
  · intro hr
    refine List.Pairwise.imp_of_mem ?_ h
    intro a b ha hb hab
    exact hr a ha b hb hab

/-- Section 4 (R63). -/
theorem gearsPass_iff (c : Image) : gearsPass c = true ↔ GearsSound c.gears := by
  simp only [gearsPass, Bool.and_eq_true, decide_eq_true_eq, List.all_eq_true, namePasses_iff, within_iff,
    directionPasses, falling_iff, List.any_eq_true]
  constructor
  · rintro ⟨⟨⟨⟨a, b⟩, ho⟩, hf⟩, hr⟩
    have hn : ∀ e ∈ c.gears, e.gear.num ≤ 12 := fun e he => by
      have := (b e he).1.2
      split at this <;> omega
    have mem := mem_gearsOf c hn ho
    have H : ∀ d, (((c.gearsOf d).Pairwise fun e f => f.ratio < e.ratio) ∧
        ((c.gearsOf d).map fun e => (e.speed, e.range)).Nodup) ∧ ∃ x ∈ c.gearsOf d, x.start = true := by
      intro d; cases d; exact hf; exact hr
    refine ⟨a, fun e he => (b e he).1, fun e he => (b e he).2, ho, ?_, ?_, ?_⟩
    · intro e he f hf hd
      have := (sorted_of _ (gearsOf_sorted c e.gear.dir) _).1 (H e.gear.dir).1.1
      exact this e ((mem _ _).2 ⟨he, rfl⟩) f ((mem _ _).2 ⟨hf, hd.symm⟩)
    · intro e he f hf hd h1 h2
      exact List.inj_on_of_nodup_map (H e.gear.dir).1.2 ((mem _ _).2 ⟨he, rfl⟩) ((mem _ _).2 ⟨hf, hd.symm⟩)
        (by simp [h1, h2])
    · intro d
      obtain ⟨x, hx, hs⟩ := (H d).2
      exact ⟨x, ((mem _ _).1 hx).1, ((mem _ _).1 hx).2, hs⟩
  · rintro ⟨a, b, r, ho, hf, hp, hs⟩
    have hn : ∀ e ∈ c.gears, e.gear.num ≤ 12 := fun e he => by
      have := (b e he).2
      split at this <;> omega
    have mem := mem_gearsOf c hn ho
    have H : ∀ d, (((c.gearsOf d).Pairwise fun e f => f.ratio < e.ratio) ∧
        ((c.gearsOf d).map fun e => (e.speed, e.range)).Nodup) ∧ ∃ x ∈ c.gearsOf d, x.start = true := by
      intro d
      refine ⟨⟨(sorted_of _ (gearsOf_sorted c d) _).2 ?_, ?_⟩, ?_⟩
      · intro e he f hf' hlt
        exact hf e ((mem _ _).1 he).1 f ((mem _ _).1 hf').1 (by rw [((mem _ _).1 he).2, ((mem _ _).1 hf').2]) hlt
      · refine List.Nodup.map_on ?_ ?_
        · intro e he f hf' h
          simp at h
          exact hp e ((mem _ _).1 he).1 f ((mem _ _).1 hf').1 (by rw [((mem _ _).1 he).2, ((mem _ _).1 hf').2]) h.1 h.2
        · exact (gearsOf_sorted c d).imp fun h hh => by rw [hh] at h; omega
      · obtain ⟨e, he, h1, h2⟩ := hs d
        exact ⟨e, (mem _ _).2 ⟨he, h1⟩, h2⟩
    exact ⟨⟨⟨⟨a, fun e he => ⟨b e he, r e he⟩⟩, ho⟩, H .forward⟩, H .reverse⟩

/-- The entry of a listed gear, names being distinct. -/
theorem entryOf_eq_some (c : Image) (ho : (c.gears.map fun e => e.gear).Nodup) (g : Gear) (e : GearEntry) :
    c.entryOf g = some e ↔ e ∈ c.gears ∧ e.gear = g := by
  constructor
  · intro h
    exact ⟨List.mem_of_find?_eq_some h, by simpa using List.find?_some h⟩
  · rintro ⟨h, rfl⟩
    cases hf : c.entryOf e.gear with
    | none =>
      have := List.find?_eq_none.1 hf e h
      simp at this
    | some f =>
      have h1 := List.mem_of_find?_eq_some hf
      have h2 := List.find?_some hf
      simp at h2
      rw [List.inj_on_of_nodup_map ho h1 h h2]

theorem startable_iff (c : Image) (ho : (c.gears.map fun e => e.gear).Nodup) (g : Gear) :
    Image.startable c g = true ↔ ∃ e ∈ c.gears, e.gear = g ∧ e.start = true := by
  unfold Image.startable
  constructor
  · split
    · rename_i e h
      have := (entryOf_eq_some c ho g e).1 h
      exact fun hs => ⟨e, this.1, this.2, hs⟩
    · simp
  · rintro ⟨e, he, hg, hs⟩
    rw [(entryOf_eq_some c ho g e).2 ⟨he, hg⟩]; exact hs

theorem maximaPass_iff (c : Image) : maximaPass c = true ↔ ∀ o : Output, o ≠ .pkv → o ≠ .fdv → o ≠ .tsv →
    100 ≤ c.maxima.get o ∧ c.maxima.get o ≤ 2000 := by
  simp only [maximaPass, List.all_eq_true, Bool.or_eq_true, within_iff]
  constructor
  · intro h o h1 h2 h3
    have := h o (by cases o <;> decide)
    cases o <;> simp_all [Output.onOff]
  · intro h o _
    by_cases hc : o.onOff = true
    · exact .inl hc
    · refine .inr (h o ?_ ?_ ?_) <;> rintro rfl <;> exact hc rfl

/-- Step 4 of R207 passes exactly sound sections. -/
theorem imagePasses_iff (c : Image) : imagePasses c = true ↔ SectionsSound c := by
  simp only [imagePasses, Bool.and_eq_true, stationsPass_iff, pulsesPass_iff, gearsPass_iff, maximaPass_iff,
    stepsPass_iff, within_iff, brakesPass, tablePasses_iff, clutchesPass, List.all_eq_true, clutchPasses_iff,
    sensorsPass, Bool.or_eq_true, Bool.not_eq_true', sensorPasses_iff, shiftParametersPass, beq_iff_eq,
    decide_eq_true_eq, patternPasses, List.contains_iff_mem, bne_iff_ne]
  have memS : ∀ x : Sensor, x ∈ Sensor.all := by intro x; cases x <;> decide
  have memC : ∀ x : Clutch, x ∈ Clutch.all := by intro x; cases x <;> decide
  constructor
  · intro h
    obtain ⟨⟨⟨⟨⟨⟨⟨⟨⟨⟨⟨⟨⟨h1, h2⟩, h3⟩, h4⟩, h5⟩, h6⟩, h7⟩, h8⟩, h9⟩, h10⟩, h11⟩, h12⟩, h13⟩, h14⟩ := h
    obtain ⟨⟨⟨⟨sa, sb⟩, sc⟩, sd⟩, se⟩ := h6
    exact { stations := h1, shafts := h2.1, travels := h2.2.1, spacings := h2.2.2,
            sensors := fun x hx => (h3.1 x (memS x)).resolve_left (by simp [hx]),
            pattern := fun hx => by
              have := h3.2.resolve_left (by simp [hx])
              exact ⟨this.1.1.1, this.1.1.2, this.1.2, this.2⟩
            gears := h4, clutches := fun k => h5 k (memC k),
            start := ⟨sa, (startable_iff c h4.once _).1 sb⟩, ramp := ⟨sc, sd⟩, torqueLimit := se,
            lead := h7, draftSpan := h8, brakeCurve := h9.1.1.1, trailerCurve := h9.1.1.2,
            trailerSensors := ⟨h9.1.2, h9.2⟩, entry := h10, exit := h11, maxima := h12,
            wakeThreshold := h13, pulsePitch := h14 }
  · intro h
    refine ⟨⟨⟨⟨⟨⟨⟨⟨⟨⟨⟨⟨⟨h.stations, h.shafts, h.travels, h.spacings⟩, ?_, ?_⟩, h.gears⟩, fun k _ => h.clutches k⟩,
      ⟨⟨⟨⟨h.start.1, (startable_iff c h.gears.once _).2 h.start.2⟩, h.ramp.1⟩, h.ramp.2⟩, h.torqueLimit⟩⟩,
      h.lead⟩, h.draftSpan⟩, ⟨⟨⟨h.brakeCurve, h.trailerCurve⟩, h.trailerSensors.1⟩, h.trailerSensors.2⟩⟩,
      h.entry⟩, h.exit⟩, h.maxima⟩, h.wakeThreshold⟩, h.pulsePitch⟩
    · intro x _
      cases hx : (c.sensors.get x).configured
      · exact .inl rfl
      · exact .inr (h.sensors x hx)
    · cases hx : c.sensors.hps.configured
      · exact .inl rfl
      · have := h.pattern hx
        exact .inr ⟨⟨⟨this.1, this.2.1⟩, this.2.2.1⟩, this.2.2.2⟩

/-- The whole check (R207). -/
theorem imageValid_iff (d : List Byte) (c : Image) :
    imageValid d c = true ↔ BytesSound d ∧ SectionsSound c := by
  rw [imageValid, Bool.and_eq_true, bytesPass_iff, imagePasses_iff]

/-! ## The shuttle map -/

theorem nearest_foldl (ratio : Nat) (l : List GearEntry) (b : GearEntry) :
    ∃ r, l.foldl (fun best e => match best with
      | none => some e
      | some b =>
        if ratioGap ratio e.ratio < ratioGap ratio b.ratio then some e
        else if ratioGap ratio e.ratio = ratioGap ratio b.ratio ∧ b.ratio < e.ratio then some e
        else best) (some b) = some r ∧ (r = b ∨ r ∈ l) ∧ ∀ q, (q = b ∨ q ∈ l) →
      ratioGap ratio r.ratio < ratioGap ratio q.ratio ∨
        (ratioGap ratio r.ratio = ratioGap ratio q.ratio ∧ q.ratio ≤ r.ratio) := by
  induction l generalizing b with
  | nil => exact ⟨b, rfl, .inl rfl, fun q hq => by rcases hq with rfl | hq; exact .inr ⟨rfl, Nat.le_refl _⟩; simp at hq⟩
  | cons a l ih =>
    simp only [List.foldl_cons]
    split
    · rename_i h
      obtain ⟨r, h1, h2, h3⟩ := ih a
      refine ⟨r, h1, ?_, ?_⟩
      · rcases h2 with rfl | h2 <;> simp [*]
      · intro q hq
        have ha := h3 a (.inl rfl)
        rcases hq with rfl | hq
        · omega
        · rcases List.mem_cons.1 hq with rfl | hq
          · exact ha
          · exact h3 q (.inr hq)
    · split
      · rename_i h h'
        obtain ⟨r, h1, h2, h3⟩ := ih a
        refine ⟨r, h1, ?_, ?_⟩
        · rcases h2 with rfl | h2 <;> simp [*]
        · intro q hq
          have ha := h3 a (.inl rfl)
          rcases hq with rfl | hq
          · omega
          · rcases List.mem_cons.1 hq with rfl | hq
            · exact ha
            · exact h3 q (.inr hq)
      · rename_i h h'
        obtain ⟨r, h1, h2, h3⟩ := ih b
        refine ⟨r, h1, ?_, ?_⟩
        · rcases h2 with rfl | h2 <;> simp [*]
        · intro q hq
          have hb := h3 b (.inl rfl)
          rcases hq with rfl | hq
          · exact hb
          · rcases List.mem_cons.1 hq with rfl | hq
            · omega
            · exact h3 q (.inr hq)

theorem nearest_spec (ratio : Nat) (l : List GearEntry) (h : l ≠ []) :
    ∃ r, nearest ratio l = some r ∧ r ∈ l ∧ ∀ q ∈ l, ratioGap ratio r.ratio < ratioGap ratio q.ratio ∨
      (ratioGap ratio r.ratio = ratioGap ratio q.ratio ∧ q.ratio ≤ r.ratio) := by
  cases l with
  | nil => exact absurd rfl h
  | cons a l =>
    obtain ⟨r, h1, h2, h3⟩ := nearest_foldl ratio l a
    exact ⟨r, h1, List.mem_cons.2 h2, fun q hq => h3 q (List.mem_cons.1 hq)⟩

theorem names_le {l : List GearEntry} (h : GearsSound l) : ∀ e ∈ l, e.gear.num ≤ 12 := fun e he => by
  have := (h.names e he).2
  split at this <;> omega

theorem entry_unique {l : List GearEntry} (ho : (l.map fun e => e.gear).Nodup) {e f : GearEntry} (he : e ∈ l)
    (hf : f ∈ l) (hd : e.gear.dir = f.gear.dir) (hn : e.gear.num = f.gear.num) : e = f := by
  refine List.inj_on_of_nodup_map ho he hf ?_
  show e.gear = f.gear
  revert hd hn; cases e.gear; cases f.gear; simp
  exact fun a b => ⟨a, b⟩

/-- The gear of nearest ratio, the larger on a tie (R64). -/
theorem nearest_iff (c : Image) (h : GearsSound c.gears) (d : Dir) (ratio : Nat) (r : GearEntry) :
    nearest ratio (c.gearsOf d) = some r ↔ NearestGear c.gears d ratio r := by
  have mem := mem_gearsOf c (names_le h) h.once
  have hne : c.gearsOf d ≠ [] := by
    obtain ⟨e, he, hd, -⟩ := h.starts d
    exact List.ne_nil_of_mem ((mem d e).2 ⟨he, hd⟩)
  obtain ⟨b, h1, h2, h3⟩ := nearest_spec ratio _ hne
  have hb := (mem d b).1 h2
  constructor
  · rw [h1]; rintro ⟨rfl⟩
    exact ⟨hb.1, hb.2, fun q hq hd => h3 q ((mem d q).2 ⟨hq, hd⟩)⟩
  · rintro ⟨hr, hd, hq⟩
    rw [h1]
    have i := h3 r ((mem d r).2 ⟨hr, hd⟩)
    have j := hq b hb.1 hb.2
    have hrat : b.ratio = r.ratio := by simp only [ratioGap] at i; omega
    have : ¬ b.gear.num < r.gear.num := fun hlt => by
      have := h.falls b hb.1 r hr (hb.2.trans hd.symm) hlt; omega
    have : ¬ r.gear.num < b.gear.num := fun hlt => by
      have := h.falls r hr b hb.1 (hd.trans hb.2.symm) hlt; omega
    rw [entry_unique h.once hb.1 hr (hb.2.trans hd.symm) (by omega)]

/-- The reverse gear a forward gear maps to (R64). -/
theorem reverseOf_iff (c : Image) (h : GearsSound c.gears) (e r : GearEntry) :
    reverseOf c e = some r ↔ MapsTo c.gears e r := by
  have mem := mem_gearsOf c (names_le h) h.once
  have hne : c.gearsOf .reverse ≠ [] := by
    obtain ⟨e, he, hd, -⟩ := h.starts .reverse
    exact List.ne_nil_of_mem ((mem _ e).2 ⟨he, hd⟩)
  have hl := List.getLast?_eq_some_getLast hne
  generalize (c.gearsOf .reverse).getLast hne = last at hl
  have hlast : last ∈ c.gearsOf .reverse := List.mem_of_getLast? hl
  have htop : ∀ q ∈ c.gears, q.gear.dir = .reverse → q.gear.num ≤ last.gear.num := by
    intro q hq hd
    have hq' := (mem _ q).2 ⟨hq, hd⟩
    have hs := gearsOf_sorted c .reverse
    obtain ⟨ys, hys⟩ := List.getLast?_eq_some_iff.1 hl
    rw [hys] at hs hq'
    rcases List.mem_append.1 hq' with hq' | hq'
    · exact Nat.le_of_lt ((List.pairwise_append.1 hs).2.2 q hq' last (by simp))
    · rw [List.mem_singleton.1 hq']
  have hlm := (mem _ last).1 hlast
  unfold reverseOf
  simp only [hl]
  constructor
  · have same : ∀ q ∈ c.gears, q.gear.dir = .reverse →
        (∀ p ∈ c.gears, p.gear.dir = .reverse → p.gear.num ≤ q.gear.num) → last = q := by
      intro q hq hd hmax
      have := htop q hq hd
      have := hmax last hlm.1 hlm.2
      exact entry_unique h.once hlm.1 hq (hlm.2.trans hd.symm) (by omega)
    split
    · rename_i hlt
      intro hr
      obtain rfl := Option.some.inj hr
      refine ⟨hlm.1, hlm.2, fun q hq hd hmax => ?_⟩
      have := same q hq hd hmax
      subst this
      exact ⟨fun _ => rfl, fun _ => by omega⟩
    · rename_i hlt
      rw [nearest_iff c h]
      intro hn
      refine ⟨hn.1, hn.2.1, fun q hq hd hmax => ⟨fun hlt' => ?_, fun _ => hn⟩⟩
      have := same q hq hd hmax
      subst this
      exact absurd hlt' hlt
  · rintro ⟨hr, hd, hq⟩
    have := hq last hlm.1 hlm.2 htop
    split
    · rename_i hlt; rw [this.1 hlt]
    · rename_i hlt; exact (nearest_iff c h _ _ _).2 (this.2 (by omega))

theorem reverseOf_isSome (c : Image) (h : GearsSound c.gears) (e : GearEntry) : ∃ r, reverseOf c e = some r := by
  have mem := mem_gearsOf c (names_le h) h.once
  have hne : c.gearsOf .reverse ≠ [] := by
    obtain ⟨e, he, hd, -⟩ := h.starts .reverse
    exact List.ne_nil_of_mem ((mem _ e).2 ⟨he, hd⟩)
  unfold reverseOf
  simp only [List.getLast?_eq_some_getLast hne]
  split
  · exact ⟨_, rfl⟩
  · obtain ⟨r, hr, -⟩ := nearest_spec e.ratio _ hne
    exact ⟨r, hr⟩

theorem find_map_of_mem (l : List GearEntry) (f : GearEntry → Option GearEntry)
    (ho : l.Pairwise fun e f => e.gear ≠ f.gear) (hf : ∀ e ∈ l, ∃ r, f e = some r) (g : Gear) :
    (l.filterMap fun e => (f e).map fun r => (e.gear, r.gear)).find? (fun p => decide (p.1 = g)) =
      (l.find? fun e => decide (e.gear = g)).bind fun e => (f e).map fun r => (e.gear, r.gear) := by
  induction l with
  | nil => rfl
  | cons a l ih =>
    obtain ⟨r, hr⟩ := hf a (by simp)
    rw [List.filterMap_cons]
    simp only [hr, Option.map_some, List.find?_cons]
    by_cases h : a.gear = g
    · simp [h, hr]
    · simp only [h, decide_false]
      exact ih (List.pairwise_cons.1 ho).2 fun e he => hf e (by simp [he])

/-- The shuttle map of a sound gear table (R64). -/
theorem shuttleMapBuilt (c : Image) (h : GearsSound c.gears) (k : Shc) (hk : k.shuttleMap = buildMap c) :
    ShuttleMapBuilt c.gears k.partner := by
  have mem := mem_gearsOf c (names_le h) h.once
  have ne : ∀ d, c.gearsOf d ≠ [] := fun d => by
    obtain ⟨e, he, hd, -⟩ := h.starts d
    exact List.ne_nil_of_mem ((mem d e).2 ⟨he, hd⟩)
  have dist : ∀ d, (c.gearsOf d).Pairwise fun e f => e.gear ≠ f.gear := fun d =>
    (gearsOf_sorted c d).imp fun h hh => by rw [hh] at h; omega
  have fwd : ∀ r, ∃ f, forwardOf c r = some f := by
    intro r
    unfold forwardOf
    simp only
    split
    · exact ⟨_, rfl⟩
    · obtain ⟨f, hf, -⟩ := nearest_spec r.ratio _ (ne .forward); exact ⟨f, hf⟩
  have find : ∀ d g, (c.gearsOf d).find? (fun e => decide (e.gear = g)) =
      if g.dir = d then c.entryOf g else none := by
    intro d g
    split
    · rename_i hd
      cases he : c.entryOf g with
      | none =>
        rw [List.find?_eq_none]
        intro x hx
        have := List.find?_eq_none.1 he x ((mem d x).1 hx).1
        simpa using this
      | some e =>
        have he := (entryOf_eq_some c h.once g e).1 he
        cases hf : (c.gearsOf d).find? (fun e => decide (e.gear = g)) with
        | none =>
          have := List.find?_eq_none.1 hf e ((mem d e).2 ⟨he.1, by rw [he.2, hd]⟩)
          simp [he.2] at this
        | some f =>
          have h1 := List.mem_of_find?_eq_some hf
          have h2 := List.find?_some hf
          simp at h2
          rw [List.inj_on_of_nodup_map h.once ((mem d f).1 h1).1 he.1 (by rw [h2, he.2])]
    · rename_i hd
      rw [List.find?_eq_none]
      intro x hx
      simp only [decide_eq_true_eq]
      rintro rfl
      exact hd ((mem d x).1 hx).2
  have partner : ∀ g, k.partner g = (c.entryOf g).bind fun e =>
      ((match g.dir with | .forward => reverseOf c e | .reverse => forwardOf c e).map fun r : GearEntry => r.gear) := by
    intro g
    unfold Shc.partner
    rw [hk, buildMap, List.find?_append, find_map_of_mem _ _ (dist _) (fun e _ => reverseOf_isSome c h e),
      find_map_of_mem _ _ (dist _) (fun e _ => fwd e), find, find]
    cases hd : g.dir <;> simp <;> cases c.entryOf g <;> simp
    · rename_i e
      cases reverseOf c e <;> simp
    · rename_i e
      cases forwardOf c e <;> simp
  constructor
  · intro e he hd
    obtain ⟨r, hr⟩ := reverseOf_isSome c h e
    refine ⟨r, (reverseOf_iff c h e r).1 hr, ?_⟩
    rw [partner, (entryOf_eq_some c h.once _ e).2 ⟨he, rfl⟩]
    simp [hd, hr]
  · intro r hr hd e he hde hm hmin
    rw [partner, (entryOf_eq_some c h.once _ r).2 ⟨hr, rfl⟩]
    have hf : forwardOf c r = some e := by
      unfold forwardOf
      simp only
      have hfind : (c.gearsOf .forward).find? (fun f => (reverseOf c f).any fun q => decide (q.gear = r.gear)) = some e := by
        rw [List.find?_eq_some_iff_append]
        refine ⟨by simp [(reverseOf_iff c h e r).2 hm], ?_⟩
        obtain ⟨as, bs, hl⟩ := List.append_of_mem ((mem .forward e).2 ⟨he, hde⟩)
        refine ⟨as, bs, hl, fun a ha => ?_⟩
        have ha' : a ∈ c.gearsOf .forward := by rw [hl]; simp [ha]
        have hs := gearsOf_sorted c .forward
        rw [hl] at hs
        have hlt := (List.pairwise_append.1 hs).2.2 a ha e (by simp)
        obtain ⟨q, hq⟩ := reverseOf_isSome c h a
        simp only [hq, Option.any_some, Bool.not_eq_true', decide_eq_false_iff_not]
        intro hg
        have hq' := (reverseOf_iff c h a q).1 hq
        have : q = r := List.inj_on_of_nodup_map h.once hq'.1 hr hg
        subst this
        have := hmin a ((mem _ a).1 ha').1 ((mem _ a).1 ha').2 hq'
        omega
      rw [hfind]
    simp [hd, hf]
  · intro r hr hd hno
    obtain ⟨f, hf⟩ := fwd r
    refine ⟨f, ?_, ?_⟩
    · unfold forwardOf at hf
      simp only at hf
      split at hf
      · rename_i x hx
        have h1 := (mem _ x).1 (List.mem_of_find?_eq_some hx)
        have h2 := List.find?_some hx
        obtain ⟨q, hq⟩ := reverseOf_isSome c h x
        simp [hq] at h2
        have hq' := (reverseOf_iff c h x q).1 hq
        have : q = r := List.inj_on_of_nodup_map h.once hq'.1 hr h2
        subst this
        exact absurd hq' (hno x h1.1 h1.2)
      · exact (nearest_iff c h _ _ _).1 hf
    · rw [partner, (entryOf_eq_some c h.once _ r).2 ⟨hr, rfl⟩]; simp [hd, hf]
  · intro g hg
    rw [partner]
    have : c.entryOf g = none := by
      unfold Image.entryOf
      rw [List.find?_eq_none]
      intro x hx; simpa using hg x hx
    simp [this]

end Sys2Proof.Laws
end

