-- ==== Sys2Proof/Laws/Ops.lean ====
section
/-! SUPPORT. What the shared operations do, said once: taking the oldest event or request, recomputing a
drive target, writing one output. -/

namespace Sys2Proof.Machine

/-! ## Taking from a list in order -/

/-- What `takeFirst` finds stands behind elements that do not fit. -/
theorem takeFirst_append {α : Type} (p : α → Bool) (front back : List α) (a : α)
    (h : ∀ b ∈ front, p b = false) (ha : p a = true) :
    takeFirst p (front ++ a :: back) = some (a, front ++ back) := by
  induction front with
  | nil => simp [takeFirst, ha]
  | cons b front ih =>
    have hb : p b = false := h b (by simp)
    have := ih fun c hc => h c (by simp [hc])
    simp [takeFirst, hb, this]

/-- `takeFirst` finds nothing exactly where nothing fits. -/
theorem takeFirst_none {α : Type} (p : α → Bool) (l : List α) :
    takeFirst p l = none ↔ ∀ b ∈ l, p b = false := by
  induction l with
  | nil => simp [takeFirst]
  | cons a l ih =>
    cases ha : p a with
    | true => simp [takeFirst, ha]
    | false =>
      cases hl : takeFirst p l with
      | none => simpa [takeFirst, ha, hl] using ih.mp hl
      | some b =>
        have : ¬ ∀ b ∈ l, p b = false := fun k => by simp [ih.mpr k] at hl
        simp [takeFirst, ha, hl]
        simpa using this

/-- Taking the oldest event of a channel (R38). -/
theorem takeEvent_oldest {o : Owner} {x : Sensor} {ev : SfeEvent} {rest : List Delivery} {s : State}
    (h : OldestEvent o x ev rest s) : takeEvent o x s = some (ev, s.withEvents rest) := by
  obtain ⟨front, back, v, hs, rfl, hf⟩ := h
  have := takeFirst_append (fun d : Delivery => decide (d.owner = o) && decide (d.sensor = x))
    front back ⟨o, x, ev, v⟩ (fun d hd => by simpa using hf d hd) (by simp)
  simp [takeEvent, hs, this]

/-- Taking the oldest request that fits (R193). -/
theorem takeRequest_oldest {p : Request → Bool} {r : Request} {rest : List Request} {s : State}
    (h : OldestRequest p r rest s) : takeRequest p s = some (r, s.withRequests rest) := by
  obtain ⟨hr, front, back, hs, rfl, hf⟩ := h
  simp [takeRequest, hs, takeFirst_append p front back r hf hr]

/-! ## Outputs -/

@[simp] theorem State.withOut_out (s : State) (o p : Output) (r : OutRec) :
    (s.withOut o r).out p = if p = o then r else s.out p := by
  simp [State.withOut, State.out, Vdb.withOut]

@[simp] theorem State.withOut_supplies (s : State) (o : Output) (r : OutRec) :
    (s.withOut o r).vdb.supplies = s.vdb.supplies := rfl

@[simp] theorem State.withOut_grant (s : State) (o : Output) (r : OutRec) :
    (s.withOut o r).vdb.grant = s.vdb.grant := rfl

@[simp] theorem Vdb.withOut_get (v : Vdb) (o p : Output) (r : OutRec) :
    (v.withOut o r).outs.get p = if p = o then r else v.outs.get p := by
  simp [Vdb.withOut]

@[simp] theorem Vdb.withOut_supplies (v : Vdb) (o : Output) (r : OutRec) :
    (v.withOut o r).supplies = v.supplies := rfl

@[simp] theorem Vdb.withOut_grant (v : Vdb) (o : Output) (r : OutRec) :
    (v.withOut o r).grant = v.grant := rfl

@[simp] theorem Vdb.withOut_powered (v : Vdb) (o p : Output) (r : OutRec) :
    (v.withOut o r).powered p = v.powered p := rfl

/-- The record of an output after its drive target is recomputed (R48 to R51, R53). -/
theorem Vdb.refresh_get (v : Vdb) (o p : Output) :
    (v.refresh o).outs.get p =
      if p = o then
        let r : OutRec := if v.windowLost o then { v.outs.get o with window := none } else v.outs.get o
        let d := driveOf (v.blocked o) o r
        { r with target := d.1, pullIn := d.2,
                 measured := if v.powered o then r.measured else 0,
                 openCount := if decide (r.target = 0) != decide (d.1 = 0) then 0 else r.openCount,
                 recCount := if decide (r.target = 0) != decide (d.1 = 0) then 0 else r.recCount }
      else v.outs.get p := by
  by_cases hw : v.windowLost o = true
  · have hb : (v.withOut o { v.outs.get o with window := none }).blocked o = v.blocked o := by
      simp only [Vdb.windowLost, Bool.and_eq_true, Bool.or_eq_true, Bool.not_eq_true'] at hw
      rcases hw.2 with h | h <;> simp [Vdb.blocked, h]
    by_cases hp : p = o
    · subst hp
      simp [Vdb.refresh, hw, hb]
    · simp [Vdb.refresh, hw, hp]
  · by_cases hp : p = o
    · subst hp
      simp [Vdb.refresh, hw]
    · simp [Vdb.refresh, hw, hp]

@[simp] theorem Vdb.refresh_supplies (v : Vdb) (o : Output) : (v.refresh o).supplies = v.supplies := by
  unfold Vdb.refresh
  dsimp only
  split <;> rfl

@[simp] theorem Vdb.refresh_grant (v : Vdb) (o : Output) : (v.refresh o).grant = v.grant := by
  unfold Vdb.refresh
  dsimp only
  split <;> rfl

/-- Recomputing a drive target changes no other output. -/
theorem Vdb.refresh_get_ne (v : Vdb) {o p : Output} (h : p ≠ o) :
    (v.refresh o).outs.get p = v.outs.get p := by
  simp [Vdb.refresh_get, h]

/-- Recomputing a drive target keeps what the owner wrote and what the coil tests hold. -/
theorem Vdb.refresh_keeps (v : Vdb) (o p : Output) :
    ((v.refresh o).outs.get p).command = (v.outs.get p).command ∧
    ((v.refresh o).outs.get p).withheld = (v.outs.get p).withheld ∧
    ((v.refresh o).outs.get p).openFlag = (v.outs.get p).openFlag ∧
    ((v.refresh o).outs.get p).short = (v.outs.get p).short ∧
    ((v.refresh o).outs.get p).retries = (v.outs.get p).retries ∧
    ((v.refresh o).outs.get p).retryTimer = (v.outs.get p).retryTimer := by
  by_cases hp : p = o
  · subst hp
    by_cases hw : v.windowLost p = true <;> simp [Vdb.refresh_get, hw]
  · simp [Vdb.refresh_get, hp]

/-- A blocked output has no drive target after it is recomputed (R48). -/
theorem Vdb.refresh_blocked (v : Vdb) (o : Output) (h : v.blocked o = true) :
    ((v.refresh o).outs.get o).target = 0 ∧ ((v.refresh o).outs.get o).pullIn = none := by
  simp [Vdb.refresh_get, h, driveOf]

/-- A proportional output that is not blocked is driven at its command (R48). -/
theorem Vdb.refresh_proportional (v : Vdb) (o : Output) (h : v.blocked o = false)
    (k : o.onOff = false) : ((v.refresh o).outs.get o).target = (v.outs.get o).command := by
  by_cases hw : v.windowLost o = true <;> simp [Vdb.refresh_get, h, k, driveOf, hw]

/-- An on/off output that is off has no drive target (R48). -/
theorem Vdb.refresh_off (v : Vdb) (o : Output) (k : o.onOff = true)
    (c : (v.outs.get o).command = 0) : ((v.refresh o).outs.get o).target = 0 := by
  by_cases hb : v.blocked o = true
  · exact (v.refresh_blocked o hb).1
  · by_cases hw : v.windowLost o = true <;> simp [Vdb.refresh_get, hb, k, driveOf, hw, c]

/-- An on/off output whose target would become nonzero from 0 pulls in (R50). -/
theorem Vdb.refresh_pullIn (v : Vdb) (o : Output) (h : v.blocked o = false) (k : o.onOff = true)
    (c : (v.outs.get o).command ≠ 0) (t : (v.outs.get o).target = 0) :
    ((v.refresh o).outs.get o).target = 1500 ∧ ((v.refresh o).outs.get o).pullIn = some 0 := by
  by_cases hw : v.windowLost o = true <;>
    simp [Vdb.refresh_get, h, k, driveOf, hw, c, t, pullInCurrent]

/-- An on/off output that is driven keeps its target (R50). -/
theorem Vdb.refresh_driven (v : Vdb) (o : Output) (h : v.blocked o = false) (k : o.onOff = true)
    (c : (v.outs.get o).command ≠ 0) (t : (v.outs.get o).target ≠ 0) :
    ((v.refresh o).outs.get o).target = (v.outs.get o).target := by
  by_cases hw : v.windowLost o = true <;> simp [Vdb.refresh_get, h, k, driveOf, hw, c, t]

/-- A window stays where nothing but the short stage stands against the output (R53). -/
theorem Vdb.refresh_window (v : Vdb) (o : Output) (h : v.powered o = true)
    (k : (v.outs.get o).withheld = false) :
    ((v.refresh o).outs.get o).window = (v.outs.get o).window := by
  have hw : v.windowLost o = false := by simp [Vdb.windowLost, h, k]
  simp [Vdb.refresh_get, hw]

/-- No window stays absent. -/
theorem Vdb.refresh_no_window (v : Vdb) (o : Output) (k : (v.outs.get o).window = none) :
    ((v.refresh o).outs.get o).window = none := by
  have hw : v.windowLost o = false := by simp [Vdb.windowLost, k]
  simp [Vdb.refresh_get, hw, k]

@[simp] theorem State.withVdb_out (s : State) (v : Vdb) (o : Output) :
    (s.withVdb v).out o = v.outs.get o := rfl

/-- The sample that SENSE_TIMER writes (R49, R51). -/
theorem sampled_eq (r : OutRec) (x : CoilSample) : sampled r x = measuredAt r.target x := rfl

/-! ## Lines that follow the mode and the pattern -/

/-- The coil is idle while the SFE does not run (R27). -/
theorem coilDrive_stopped {s : State} (h : s.mc.mode.sensingRuns = false) : s.coilDrive = .idle := by
  simp [State.coilDrive, h]

/-- The coil follows the pattern bit being played (R40). -/
theorem coilDrive_bit {s : State} {b : Bool} (h : s.mc.mode.sensingRuns = true)
    (k : s.cfg.pattern[s.sfe.slot]? = some b) :
    s.coilDrive = if b = true then .positive else .negative := by
  cases b <;> simp [State.coilDrive, h, k]

@[simp] theorem Owner.takes_vdb (m : Mode) : Owner.vdb.takes m = m.sensingRuns := rfl

/-! ## Inputs of the intervals -/

@[simp] theorem presentCoupling_pins (b : Bool) (s : State) :
    (presentCoupling b s).pins = { s.pins with coupling := b } := rfl

@[simp] theorem presentButtons_pins (l r : Bool) (s : State) :
    (presentButtons l r s).pins = { s.pins with fenderLeft := l, fenderRight := r } := rfl

/-- Reading the lines' pressures touches the TBC only. -/
theorem touches_readPressures (s : State) : Touches [.tbc] s (readPressures s) := touches_withTbc s _

/-- What the TBC reads of TCL and TSL (R146, R166). -/
theorem readPressures_tbc (s : State) :
    (readPressures s).tbc = { s.tbc with
      tcl := s.sfe.chans.tcl.value, tclState := s.sfe.chans.tcl.state
      tsl := s.sfe.chans.tsl.value, tslState := s.sfe.chans.tsl.state } := rfl

/-- What the hitch record keeps where it is read from the SFE. -/
@[simp] theorem Htc.read_state (s : State) (h : Htc) : (h.read s).state = h.state := rfl
@[simp] theorem Htc.read_cab (s : State) (h : Htc) : (h.read s).cab = h.cab := rfl
@[simp] theorem Htc.read_hrv (s : State) (h : Htc) : (h.read s).hrv = h.hrv := rfl
@[simp] theorem Htc.read_hlv (s : State) (h : Htc) : (h.read s).hlv = h.hlv := rfl
@[simp] theorem Htc.read_dAvg (s : State) (h : Htc) : (h.read s).dAvg = h.dAvg := rfl
@[simp] theorem Htc.read_position (s : State) (h : Htc) :
    (h.read s).position = s.sfe.chans.hps.value := rfl
@[simp] theorem Htc.read_posValid (s : State) (h : Htc) : (h.read s).posValid = s.sfe.posValid := rfl

/-- A control restart leaves the hitch record as an interval would read it from the SFE (R143). -/
theorem restartHtc_htc (s : State) : (restartHtc s).htc = Htc.reset.read s := rfl

/-! ## Filing a frame (R191, R193) -/

/-- A filed frame leaves its rolling count as the last acted count of its group, and no other's. -/
theorem Lc.fileData_lastActed (l : Lc) (g h : PeerGroup) (d : List Byte) :
    (l.fileData g d).lastActed h = if h = g then some (rollingCount d) else l.lastActed h := by
  cases g <;> cases h <;> rfl

/-- A filed record is FRESH, and no other record's freshness changes. -/
theorem Lc.fileData_freshness (l : Lc) (g h : PeerGroup) (d : List Byte) :
    (l.fileData g d).freshness h = if h = g then .fresh else l.freshness h := by
  cases g <;> cases h <;> rfl

/-- A filed record's time is 0, and no other record's time changes. -/
theorem Lc.fileData_since (l : Lc) (g h : PeerGroup) (d : List Byte) :
    (l.fileData g d).since h = if h = g then 0 else l.since h := by
  cases g <;> cases h <;> rfl

/-! ## The time since a record's last frame (R191, R192) -/

/-- A microsecond counts the time of every record but the service record's while the link takes frames. -/
theorem Lc.micro_since (l : Lc) (g : PeerGroup) :
    l.micro.since g =
      if l.takesFrames = true ∧ g ≠ .service then countTo sinceLimit (l.since g) else l.since g := by
  cases h : l.takesFrames <;> cases g <;> simp [Lc.micro, Lc.since, Peer.micro, h]

/-- A microsecond changes no record's freshness. -/
theorem Lc.micro_freshness (l : Lc) (g : PeerGroup) : l.micro.freshness g = l.freshness g := by
  cases h : l.takesFrames <;> cases g <;> simp [Lc.micro, Lc.freshness, Peer.micro, h]

/-- At an off order every record becomes ABSENT, and its time stands. -/
theorem Lc.dropPeers_freshness (l : Lc) (g : PeerGroup) : l.dropPeers.freshness g = .absent := by
  cases g <;> rfl

theorem Lc.dropPeers_since (l : Lc) (g : PeerGroup) : l.dropPeers.since g = l.since g := by
  cases g <;> rfl

theorem Lc.dropPeers_lastActed (l : Lc) (g : PeerGroup) : l.dropPeers.lastActed g = none := by
  cases g <;> rfl

/-! ## Bytes of a frame of eight (R189, R205) -/

theorem toByte_toNat (n : Nat) : (toByte n).toNat = n % 256 := by simp [toByte]

/-- The rolling count leaves the first seven bytes as they are. -/
theorem byteAt_sealCount {a b c d e f g h : Byte} (k : BitVec 4) {i : Nat} (hi : i < 7) :
    byteAt (sealCount [a, b, c, d, e, f, g, h] k) i = ([a, b, c, d, e, f, g].getD i 0).toNat := by
  unfold byteAt sealCount
  rw [show [a, b, c, d, e, f, g, h].dropLast = [a, b, c, d, e, f, g] from rfl]
  interval_cases i <;> rfl

/-- The last byte carries the rolling count in its low bits. -/
theorem byteAt_sealCount_last (a b c d e f g h : Byte) (k : BitVec 4) :
    byteAt (sealCount [a, b, c, d, e, f, g, h] k) 7 = (h ||| k.setWidth 8).toNat := rfl

/-- The rolling count leaves the high half of the last byte as it is. -/
theorem sealed_high {n : Nat} (hn : n < 16) (k : BitVec 4) :
    (toByte (16 * n) ||| k.setWidth 8).toNat / 16 = n := by
  have all : ∀ (n : Fin 16) (k : BitVec 4),
      (toByte (16 * n.val) ||| k.setWidth 8).toNat / 16 = n.val := by decide +kernel
  exact all ⟨n, hn⟩ k

end Sys2Proof.Machine
end

