-- ==== Sys2Proof/WellFormed.lean ====
section
/-! DEFINITION. Which commands a sender can send: the operand ranges the spec gives. -/

namespace Sys2Proof

/-- A frame's data is 1 to 8 bytes on the bus (R189); the serial memory holds four slots of 2,048 bytes
(R206); 24 FAULT REPORT and the five periodic groups have period timers (R195); a SERVICE record has no
timeout (R192). -/
def Instr.wellFormed : Instr → Bool
  | .loadingComplete memory _ => memory.length == 8192
  | .frameReceived _ data => decide (1 ≤ data.length) && decide (data.length ≤ 8)
  | .peerTimeout g => g != .service
  | .periodTimer g => g != .torqueLimit && g != .serviceResult && g != .quietNotice
  | .pullInEnd o => o == .pkv || o == .fdv || o == .tsv
  | .mainOutput s => s != .hps
  | _ => true

end Sys2Proof
end

