-- ==== Sys2Proof/Laws/PerInstr.lean ====
section
/-! SUPPORT. The family Operands: what well-formedness says of each command's operands, in the terms of the
tables the machine reads. -/

namespace Sys2Proof.Laws

open Sys2Proof.Machine

namespace Operands

/-- A command is well-formed exactly when its operands are what the spec lets a sender give: a memory of
8,192 bytes (R206), a frame of 1 to 8 bytes (R189), a group with a timeout (R192), a group with a period
timer (R195), an on/off output (R50), a channel with a main path (R39). Every other operand is free. -/
def Statement (i : Instr) : Prop :=
  i.wellFormed = true ↔
    match i with
    | .loadingComplete bytes _ => bytes.length = 8192
    | .frameReceived _ data => 1 ≤ data.length ∧ data.length ≤ 8
    | .peerTimeout g => (peerTimeoutUs g).isSome = true
    | .periodTimer g => periodicGroup g = true ∨ g = .faultReport
    | .pullInEnd o => o.onOff = true
    | .mainOutput x => x ≠ .hps
    | _ => True

theorem powerOnReset (strap0 strap1 couplingClosed : Bool) :
    Statement (.powerOnReset strap0 strap1 couplingClosed) := iff_of_true rfl trivial
theorem keyStateChange (on : Bool) : Statement (.keyStateChange on) := iff_of_true rfl trivial
theorem loadingComplete (bytes : List Byte) (image : Image) :
    Statement (.loadingComplete bytes image) := by simp [Statement, Instr.wellFormed]
theorem calibratingComplete : Statement .calibratingComplete := iff_of_true rfl trivial
theorem keyOffTaken : Statement .keyOffTaken := iff_of_true rfl trivial
theorem quietOrder : Statement .quietOrder := iff_of_true rfl trivial
theorem quietTimeout : Statement .quietTimeout := iff_of_true rfl trivial
theorem controlRestart : Statement .controlRestart := iff_of_true rfl trivial
theorem wake (strap0 strap1 couplingClosed : Bool) :
    Statement (.wake strap0 strap1 couplingClosed) := iff_of_true rfl trivial
theorem couplingWake (couplingClosed : Bool) :
    Statement (.couplingWake couplingClosed) := iff_of_true rfl trivial
theorem linkWake : Statement .linkWake := iff_of_true rfl trivial
theorem wakeTimeout : Statement .wakeTimeout := iff_of_true rfl trivial
theorem secondsTick : Statement .secondsTick := iff_of_true rfl trivial
theorem pulseEdge (channel : PulseChannel) : Statement (.pulseEdge channel) := iff_of_true rfl trivial
theorem speedEvaluation : Statement .speedEvaluation := iff_of_true rfl trivial
theorem channelLost (channel : PulseChannel) : Statement (.channelLost channel) := iff_of_true rfl trivial
theorem channelRecovered (channel : PulseChannel) :
    Statement (.channelRecovered channel) := iff_of_true rfl trivial
theorem groundPulseTimer : Statement .groundPulseTimer := iff_of_true rfl trivial
theorem groundPulseEnd : Statement .groundPulseEnd := iff_of_true rfl trivial
theorem mainOutput (sensor : Sensor) :
    Statement (.mainOutput sensor) := by cases sensor <;> simp [Statement, Instr.wellFormed]
theorem fastOutput (sensor : Sensor) : Statement (.fastOutput sensor) := iff_of_true rfl trivial
theorem streamFailed (sensor : Sensor) : Statement (.streamFailed sensor) := iff_of_true rfl trivial
theorem streamRecovery (sensor : Sensor) : Statement (.streamRecovery sensor) := iff_of_true rfl trivial
theorem excitationSlot : Statement .excitationSlot := iff_of_true rfl trivial
theorem calibrationTimeout : Statement .calibrationTimeout := iff_of_true rfl trivial
theorem recalibratePosition : Statement .recalibratePosition := iff_of_true rfl trivial
theorem senseTimer (samples : OutputTable CoilSample) :
    Statement (.senseTimer samples) := iff_of_true rfl trivial
theorem openDetected (output : Output) : Statement (.openDetected output) := iff_of_true rfl trivial
theorem openRecovered (output : Output) : Statement (.openRecovered output) := iff_of_true rfl trivial
theorem shortTrip (output : Output) : Statement (.shortTrip output) := iff_of_true rfl trivial
theorem retryTimerExpiry (output : Output) : Statement (.retryTimerExpiry output) := iff_of_true rfl trivial
theorem deferredRetry (output : Output) : Statement (.deferredRetry output) := iff_of_true rfl trivial
theorem retrySuccess (output : Output) : Statement (.retrySuccess output) := iff_of_true rfl trivial
theorem pullInEnd (output : Output) :
    Statement (.pullInEnd output) := by cases output <;> simp [Statement, Instr.wellFormed, Output.onOff]
theorem supplyRiseComplete (supply : Supply) :
    Statement (.supplyRiseComplete supply) := iff_of_true rfl trivial
theorem supplyFallComplete (supply : Supply) (couplingClosed : Bool) :
    Statement (.supplyFallComplete supply couplingClosed) := iff_of_true rfl trivial
theorem grantSupEvent : Statement .grantSupEvent := iff_of_true rfl trivial
theorem shcControlInterval : Statement .shcControlInterval := iff_of_true rfl trivial
theorem cabShiftUp : Statement .cabShiftUp := iff_of_true rfl trivial
theorem cabShiftDown : Statement .cabShiftDown := iff_of_true rfl trivial
theorem cabSelect : Statement .cabSelect := iff_of_true rfl trivial
theorem fillComplete (clutch : Clutch) : Statement (.fillComplete clutch) := iff_of_true rfl trivial
theorem torquePhaseEnd : Statement .torquePhaseEnd := iff_of_true rfl trivial
theorem syncReached : Statement .syncReached := iff_of_true rfl trivial
theorem shiftTimeout : Statement .shiftTimeout := iff_of_true rfl trivial
theorem abortComplete : Statement .abortComplete := iff_of_true rfl trivial
theorem engageRampEnd : Statement .engageRampEnd := iff_of_true rfl trivial
theorem shuttleDrainEnd : Statement .shuttleDrainEnd := iff_of_true rfl trivial
theorem driveAwayEnd : Statement .driveAwayEnd := iff_of_true rfl trivial
theorem clutchDrainComplete (clutch : Clutch) :
    Statement (.clutchDrainComplete clutch) := iff_of_true rfl trivial
theorem pedalHoldExpiry : Statement .pedalHoldExpiry := iff_of_true rfl trivial
theorem autoShiftTimer : Statement .autoShiftTimer := iff_of_true rfl trivial
theorem autoUp : Statement .autoUp := iff_of_true rfl trivial
theorem autoDown : Statement .autoDown := iff_of_true rfl trivial
theorem shcChgEvent : Statement .shcChgEvent := iff_of_true rfl trivial
theorem shcOilEvent : Statement .shcOilEvent := iff_of_true rfl trivial
theorem resetAdaptation : Statement .resetAdaptation := iff_of_true rfl trivial
theorem fdcControlInterval : Statement .fdcControlInterval := iff_of_true rfl trivial
theorem fdcRelease : Statement .fdcRelease := iff_of_true rfl trivial
theorem releasingComplete : Statement .releasingComplete := iff_of_true rfl trivial
theorem engagingComplete : Statement .engagingComplete := iff_of_true rfl trivial
theorem autoSlipClear : Statement .autoSlipClear := iff_of_true rfl trivial
theorem frontSlipRaise : Statement .frontSlipRaise := iff_of_true rfl trivial
theorem frontSlipClear : Statement .frontSlipClear := iff_of_true rfl trivial
theorem fdcChgEvent : Statement .fdcChgEvent := iff_of_true rfl trivial
theorem htcControlInterval (leftPressed rightPressed : Bool) :
    Statement (.htcControlInterval leftPressed rightPressed) := iff_of_true rfl trivial
theorem switchUp : Statement .switchUp := iff_of_true rfl trivial
theorem switchDown : Statement .switchDown := iff_of_true rfl trivial
theorem htcDraftEvent (pin : DraftPin) : Statement (.htcDraftEvent pin) := iff_of_true rfl trivial
theorem htcHpsFailed : Statement .htcHpsFailed := iff_of_true rfl trivial
theorem tbcControlInterval (couplingClosed : Bool) :
    Statement (.tbcControlInterval couplingClosed) := iff_of_true rfl trivial
theorem couplingChange : Statement .couplingChange := iff_of_true rfl trivial
theorem chargeTimeout : Statement .chargeTimeout := iff_of_true rfl trivial
theorem supplyLowTimeout : Statement .supplyLowTimeout := iff_of_true rfl trivial
theorem supplyRecovered : Statement .supplyRecovered := iff_of_true rfl trivial
theorem brakeUnknown : Statement .brakeUnknown := iff_of_true rfl trivial
theorem brakeDisagree : Statement .brakeDisagree := iff_of_true rfl trivial
theorem brakeDisagreeClear : Statement .brakeDisagreeClear := iff_of_true rfl trivial
theorem tbrStateEvent : Statement .tbrStateEvent := iff_of_true rfl trivial
theorem tclEvent : Statement .tclEvent := iff_of_true rfl trivial
theorem tslEvent : Statement .tslEvent := iff_of_true rfl trivial
theorem hsqControlInterval : Statement .hsqControlInterval := iff_of_true rfl trivial
theorem headlandStart : Statement .headlandStart := iff_of_true rfl trivial
theorem headlandCancel : Statement .headlandCancel := iff_of_true rfl trivial
theorem distanceTrigger : Statement .distanceTrigger := iff_of_true rfl trivial
theorem timeTrigger : Statement .timeTrigger := iff_of_true rfl trivial
theorem frameReceived (identifier : BitVec 11) (data : List Byte) :
    Statement (.frameReceived identifier data) := by simp [Statement, Instr.wellFormed]
theorem peerTimeout (group : PeerGroup) :
    Statement (.peerTimeout group) := by cases group <;> simp [Statement, Instr.wellFormed, peerTimeoutUs]
theorem periodTimer (group : Group) :
    Statement (.periodTimer group) := by cases group <;> simp [Statement, Instr.wellFormed, periodicGroup]
theorem torqueLimitTimer : Statement .torqueLimitTimer := iff_of_true rfl trivial
theorem transmitAttempt : Statement .transmitAttempt := iff_of_true rfl trivial
theorem attemptSuccess : Statement .attemptSuccess := iff_of_true rfl trivial
theorem arbitrationLost : Statement .arbitrationLost := iff_of_true rfl trivial
theorem attemptFailure : Statement .attemptFailure := iff_of_true rfl trivial
theorem muteRecovery : Statement .muteRecovery := iff_of_true rfl trivial
theorem listenWindowEnd : Statement .listenWindowEnd := iff_of_true rfl trivial
theorem serviceRequestUnknown : Statement .serviceRequestUnknown := iff_of_true rfl trivial
theorem faultAcknowledge : Statement .faultAcknowledge := iff_of_true rfl trivial
theorem faultAck : Statement .faultAck := iff_of_true rfl trivial

end Operands

end Sys2Proof.Laws
end

