-- ==== Sys2Proof/Tests/Slice0.lean ====
section
/-! SUPPORT. Tests: what WellFormed refuses, the manual's worked examples, one step of each family, and for
every statement a concrete state and operands that meet its hypotheses. -/

namespace Sys2Proof.Tests

open Sys2Proof Sys2Proof.Machine

/-! ## Ill-formed commands -/

theorem test_wellformed_refuses_short_image :
    (Instr.loadingComplete [0] blankImage).wellFormed = false := by decide

theorem test_wellformed_refuses_empty_frame : (Instr.frameReceived 0 []).wellFormed = false := by decide

theorem test_wellformed_refuses_long_frame :
    (Instr.frameReceived 0 [0, 0, 0, 0, 0, 0, 0, 0, 0]).wellFormed = false := by decide

theorem test_wellformed_takes_frames_of_1_and_8 :
    (Instr.frameReceived 0 [0]).wellFormed = true ∧
      (Instr.frameReceived 0 [0, 0, 0, 0, 0, 0, 0, 0]).wellFormed = true := by decide

theorem test_wellformed_refuses_service_timeout : (Instr.peerTimeout .service).wellFormed = false := by
  decide

theorem test_wellformed_refuses_event_type_timers :
    (Instr.periodTimer .torqueLimit).wellFormed = false ∧
      (Instr.periodTimer .serviceResult).wellFormed = false ∧
      (Instr.periodTimer .quietNotice).wellFormed = false := by decide

theorem test_wellformed_refuses_proportional_pull_in : (Instr.pullInEnd .hrv).wellFormed = false := by
  decide

theorem test_wellformed_refuses_main_output_of_hps : (Instr.mainOutput .hps).wellFormed = false := by
  decide

theorem test_no_word_is_a_command : decodeTableWord 8 5 = none := by decide

/-! ## A configuration from the manual's examples -/

/-- F5 to F10 with the ratios of the example table (04, section 4.1), RV1 of a ratio of its own. -/
def gears : List GearEntry :=
  [⟨⟨.forward, 5⟩, .a, .m, 6940, true, true⟩, ⟨⟨.forward, 6⟩, .b, .m, 5790, true, true⟩,
   ⟨⟨.forward, 7⟩, .c, .m, 4820, true, true⟩, ⟨⟨.forward, 8⟩, .d, .m, 4020, false, true⟩,
   ⟨⟨.forward, 9⟩, .a, .h, 3350, false, true⟩, ⟨⟨.forward, 10⟩, .b, .h, 2790, false, false⟩,
   ⟨⟨.reverse, 1⟩, .a, .l, 6000, true, false⟩]

/-- The examples' constants: pickups (01, 1.9), SUP (02, 2.7, 2.8), clutches (04, 4.22), tables (07, R145). -/
def image : Image :=
  { blankImage with
      stations := ⟨3, 1, 2, 4, 5, 6⟩
      pulse := ⟨⟨60, 0, 100⟩, ⟨40, 15000, 100⟩, ⟨0, 10000, 100⟩, ⟨0, 10000, 100⟩⟩
      radFitted := true
      sensors := (SensorTable.const ⟨true, 3, 64, 2, 16, 6554, 3125, false, false, 0, 0, 0, 0⟩).set .sup
        ⟨true, 3, 64, 2, 16, 6554, 3125, false, true, 0, 0, 1500, 100⟩
      pattern := [true, true, true, true, false, false, false, true, false, false, true, true, false,
        true, false, true]
      aTop := 140000, aBottom := 20000, gears := gears, clutches := .const ⟨1000, 120, 40, 400, 300, 600, 900⟩
      startGear := ⟨.forward, 5⟩, engageRamp := 600, torqueLimit := 70, lead := 1000, draftSpan := 8000
      brakeCurve := [(0, 0), (50, 0), (600, 1000), (1200, 1500)]
      trailerCurve := [(0, 200), (1500, 1700)]
      entry := [⟨.hitchRaise, .immediate⟩, ⟨.wait, .distance 20⟩, ⟨.shiftDown 1, .time 5⟩]
      exit := [⟨.hitchWork, .immediate⟩]
      maxima := .const 2000, wakeThreshold := 1, pulsePitch := 7692 }

/-- A machine in a mode with the configuration above. -/
def inMode (m : Mode) : State :=
  { State.reset with cfg := image, mc := { State.reset.mc with mode := m } }

def op : State := inMode .operating

/-- The state a command leaves. -/
def after (c : Instr) (s : State) : State :=
  match exec c s with
  | .next t => t
  | _ => s

/-! ## Worked examples of the manual -/

/-- 01, section 1.9. -/
theorem test_speeds_of_example :
    travelOf 2 15000 12480 = 2403 ∧ travelOf 2 10000 9500 = 2105 ∧ shaftOf 11 60 9500 = 1157 ∧
      shaftOf 2 40 12480 = 240 := by decide

/-- 01, sections 1.9 and 1.11. -/
theorem test_slip_of_example :
    slipOf .valid 2403 2105 = 124 ∧ roundEighth (7 * 100 + 124) = 103 ∧ roundEighth 1220 = 153 := by
  decide

/-- 01, section 1.10. -/
theorem test_decay_of_example :
    ceilBy 0 (travelOf 1 15000) 20000 300 = 300 ∧ ceilBy 0 (travelOf 1 15000) 60000 300 = 250 ∧
      ceilBy 0 (travelOf 1 15000) 70000 250 = 214 := by decide

/-- 02, section 2.7. -/
theorem test_conversion_of_example :
    clampRange .sup (scale (image.sensors.get .sup) (normalise 3 64 157286)) = (1562, false) ∧
      clampRange .sup (scale (image.sensors.get .sup) 65536) = (2500, true) ∧
      clampRange .sup (scale (image.sensors.get .sup) 0) = (0, true) := by decide

/-- 02, section 2.8. -/
theorem test_comparator_of_example :
    cmpEnter (image.sensors.get .sup) 1505 .inRange = (.inRange, none) ∧
      cmpEnter (image.sensors.get .sup) 1500 .inRange = (.low, some .lowEnter) ∧
      cmpLeave (image.sensors.get .sup) 1600 .low = (.low, none) ∧
      cmpLeave (image.sensors.get .sup) 1601 .low = (.inRange, some .lowLeave) := by decide

/-- 02, section 2.9. -/
theorem test_offset_of_example :
    findOffset image.pattern [true, false, true, true, true, true, true, false, false, true, true, false,
      false, true, true, false] = some 3 := by decide

/-- 04, section 4.21. -/
theorem test_queue_of_example :
    (offer .up .headland [⟨.up, 2, .cab⟩] = some [⟨.up, 3, .headland⟩]) ∧
      (offer .up .cab [⟨.up, 3, .headland⟩] = some [⟨.up, 3, .headland⟩, ⟨.up, 1, .cab⟩]) ∧
      (offer .down .cab [⟨.up, 3, .headland⟩, ⟨.up, 1, .cab⟩] = some [⟨.up, 3, .headland⟩]) ∧
      (offer .down .cab [⟨.up, 3, .headland⟩] = some [⟨.up, 2, .headland⟩]) := by decide

/-- 04, section 4.22. -/
theorem test_torque_of_example :
    torqueUpValues (image.clutches.get .d) (image.clutches.get .c) false 12 1 = (325, 825) ∧
      torqueUpValues (image.clutches.get .d) (image.clutches.get .c) false 12 6 = (450, 450) := by decide

/-- 06, section 6.10. -/
theorem test_law_of_example :
    mixedError 8000 400 30 380 5200 true = 29 ∧ lawValves 29 false false 4 = (494, 0) ∧
      lawValves (-11) false false 4 = (0, 355) ∧ lawValves (-200) false false 4 = (0, 610) ∧
      lawValves 147 false false 4 = (1200, 0) ∧ lawValves (-10) false false 4 = (0, 0) := by decide

/-- 07, R159 and section 7.9, rows 3 and 5. -/
theorem test_brake_table_of_example :
    applyTable image.brakeCurve 310 = 472 ∧ applyTable image.brakeCurve 700 = 1083 ∧
      applyTable image.trailerCurve 472 = 672 := by decide

/-! ## One step of each family -/

/-- R206: power-on reset puts the straps into the slot and the part into LOADING. -/
theorem test_power_on_slot :
    (after (.powerOnReset true true false) op).mc.slot = 3 ∧
      (after (.powerOnReset true true false) op).mc.mode = .loading := by decide

/-- R3: a first edge becomes the reference. -/
theorem test_first_edge :
    ((after (.pulseEdge .out) { op with now := 7 }).chan .out).refStamp = 7 ∧
      ((after (.pulseEdge .out) { op with now := 7 }).chan .out).count = 0 := by decide

/-- 01, section 1.9: OUT's two edges over 12,480 µs. -/
theorem test_evaluation_of_example :
    (after .speedEvaluation ((({ op with now := 20000 } : State)).withChan .out
      { PulseRec.reset with refPresent := true, count := 2, newest := 12480 })).scu.motion.vRear = 2403 := by
  decide

/-- R29: the main output of 02, section 2.7, taken by a VALID SUP. -/
theorem test_main_output_of_example :
    ((after (.mainOutput .sup) (op.withSensor .sup
      { SensorRec.reset (image.sensors.get .sup) with state := .valid, mainDone := some 157286 })).sensor
        .sup).value = 1562 := by decide

/-- R53: a third failed retry latches. -/
theorem test_third_failed_retry_latches :
    ((after (.shortTrip .ca) (op.withOut .ca { OutRec.reset with
      short := .retry, retries := 2, window := some 0, target := 900 })).out .ca).short = .latched := by decide

/-- R70: a cab UP makes the first entry. -/
theorem test_cab_up_in_parked_is_no_gear :
    (after .cabShiftUp (op.withRequests [.shift .up])).shc.lastRefusal = some (.noGear, .cab) := by decide

/-- R103: charge lost opens no axle. -/
theorem test_charge_lost_engages_axle :
    (after .fdcChgEvent ((op.withFdc { Fdc.reset with state := .released }).withEvents
      [⟨.fdc, .chg, .lowEnter, 0⟩])).fdc.state = .engaging := by decide

/-- R118: an UP edge releases the start lock. -/
theorem test_up_edge_raises :
    (after .switchUp (op.withRequests [.hitchSwitch true])).htc.state = .raising ∧
      ((after .switchUp (op.withRequests [.hitchSwitch true])).out .hrv).command = 1200 := by decide

/-- 07, section 7.9, row 3: brake term, correction and TCV. -/
theorem test_tcv_of_example :
    (recomputeTcv (op.withTbc { op.tbc with demand := 472, correction := 92 })).tbc.tcv = 672 := by decide

/-- R170: START issues the leading IMMEDIATE steps of ENTRY and waits at the DISTANCE step. -/
theorem test_start_waits_at_distance :
    (after .headlandStart (op.withRequests [.headland true])).hsq.index = 1 ∧
      (after .headlandStart (op.withRequests [.headland true])).hsq.state = .running := by decide

/-- R191: a frame of the cab is filed and its lever read. -/
theorem test_cab_frame_filed :
    (after (.frameReceived (12 * 32 + 4) [1, 0, 50, 0]) ((op.withLc { op.lc with
      link := .active, sources := { op.lc.sources with cab := some 4 } }))).lc.cabDrive.values =
        some ⟨.f, 50, false, 0, 0, 0, 0, 0, false⟩ := by decide

/-- R207: an image of zeros fails its header and leads to LIMP. -/
theorem test_bad_header_limps :
    (after (.loadingComplete [] blankImage) ((inMode .loading).withMc
      { (inMode .loading).mc with key := some true })).mc.mode = .limp := by decide

/-! ## Hypotheses met -/

theorem oldest_event (o : Owner) (x : Sensor) (ev : SfeEvent) (s : State) :
    OldestEvent o x ev [] (s.withEvents [⟨o, x, ev, 0⟩]) := ⟨[], [], 0, rfl, rfl, by simp⟩

theorem oldest_request (p : Request → Bool) (r : Request) (s : State) (h : p r = true) :
    OldestRequest p r [] (s.withRequests [r]) := ⟨h, [], [], rfl, rfl, by simp⟩

/-- Both supplies ENABLED. -/
def lit : State := { op with vdb := { op.vdb with supplies := .const ⟨.enabled, 0, false⟩ } }

/-- Output A with a record. -/
def withA (r : OutRec) : State := lit.withOut .ca r

theorem witness_StepRunsFrontCommand : ({ op with pending := [.linkWake] } : State).pending = [.linkWake] :=
  rfl

theorem witness_EveryCommandAnswersNext (a b k : Bool) : Instr.linkWake ≠ .powerOnReset a b k := by
  intro h; cases h

theorem witness_EmptyQueueIsOneClock :
    op.pending = [] ∧ State.reset.mc.mode.sensingRuns = false ∧ op.sub + 1 < 5 ∧
      ¬ ({ op with sub := 4 } : State).sub + 1 < 5 ∧
      (op.withLc { op.lc with link := .listen }).lc.link = .listen ∧
      op.lc.takesFrames = false ∧ (op.withLc { op.lc with link := .listen }).lc.takesFrames = true ∧
      (op.withLc { op.lc with link := .listen }).lc.freshness .implement = .absent ∧
      (op.supplyOf (Output.supply .ca)).state = .off ∧
      (inMode .restarting).mc.mode.controllersRun = false := by decide

/-- A clock that ends a microsecond takes the settle, pull-in, retry, mute, quiet, wake and pedal hold timers
of a part in which each of them runs one further, the last ones to their ends. -/
theorem witness_EmptyQueueIsOneClock_timers :
    let s : State := { (lit.withOut .pkv { OutRec.reset with command := 1, target := 1500, pullIn := some 99999 })
      with sub := 4 }
    let s := s.withOut .ca { OutRec.reset with short := .retry, retryTimer := 999999 }
    let s := (s.withSupply .vsb ⟨.rising, 19999, false⟩).withShc { s.shc with pedalHold := some 7 }
    let s := s.withLc { s.lc with link := .muted, muteTimer := 999999, quietTimer := some 199998 }
    let t := microTick { s with sub := 0 }
    s.pending = [] ∧ ¬ s.sub + 1 < 5 ∧ (s.supplyOf (Output.supply .ca)).state = .enabled ∧
      (t.out .pkv).pullIn = some 100000 ∧ (t.out .ca).retryTimer = 1000000 ∧
      (t.supplyOf .vsb).settle = 20000 ∧ t.shc.pedalHold = some 8 ∧ t.lc.muteTimer = 1000000 ∧
      t.lc.quietTimer = some 199999 ∧ (inMode .awakeNoKey).mc.mode = .awakeNoKey ∧
      (microTick ((inMode .awakeNoKey).withSupply .vsa ⟨.falling, 9999, true⟩)).mc.wakeTimer = 1 ∧
      ((microTick ((inMode .awakeNoKey).withSupply .vsa ⟨.falling, 9999, true⟩)).supplyOf .vsa).settle =
        10000 := by decide +kernel

/-- `n` ACTIVE entries, of one code, and one STORED behind them. -/
def entries (n : Nat) : List FaultEntry := List.replicate n ⟨.engineStale, true, false, 1, 0, 0⟩
def stored : FaultEntry := ⟨.linkMuted, false, false, 1, 0, 0⟩
def withEntries (l : List FaultEntry) : State := op.withMc { op.mc with faults := l }

theorem witness_FaultTableOperations :
    (∀ e ∈ (withEntries (entries 15)).mc.faults, e.code ≠ .outOpen .ca) ∧
      (withEntries (entries 15)).mc.faults.length < 16 ∧
      (∀ e ∈ (withEntries (entries 15 ++ [stored])).mc.faults, e.code ≠ .outOpen .ca) ∧
      (withEntries (entries 15 ++ [stored])).mc.faults.length = 16 ∧
      (withEntries (entries 15 ++ [stored])).mc.faults = entries 15 ++ stored :: [] ∧
      (∀ x ∈ entries 15, x.present = true ∨ x.latched = true) ∧
      (∀ e ∈ (withEntries (entries 16)).mc.faults, e.code ≠ .outOpen .ca) ∧
      (withEntries (entries 16)).mc.faults.length = 16 ∧
      (∀ x ∈ entries 16, x.present = true ∨ x.latched = true) ∧
      (withEntries [stored]).mc.faults = [] ++ stored :: [] ∧ stored.code = .linkMuted := by
  decide

/-- A latched output that would drive; whether its coil is still shorted is free, and both cases are stated. -/
def tripped : OutRec := { OutRec.reset with short := .latched, command := 900 }

/-- A trailer in BREAKAWAY behind a gearbox in NEUTRAL, its coupling line as given. -/
def tornOff (coupled : Bool) : State :=
  (op.withShc { op.shc with state := .neutral }).withTbc
    { op.tbc with state := .breakaway, coupled := coupled }

theorem witness_AcknowledgementSweeps :
    OldestRequest Request.isAcknowledge .acknowledge [] (op.withRequests [.acknowledge]) ∧
      OldestRequest (Request.isService 1) (.service 1 9) [] (op.withRequests [.service 1 9]) ∧
      op.mc.mode.delivers = true ∧ op.mc.mode.sensingRuns = true ∧
      (inMode .awakeNoKey).mc.mode.delivers = true ∧ (inMode .awakeNoKey).mc.mode.sensingRuns = false ∧
      (op.out .ca).short ≠ .latched ∧ op.tbc.state ≠ .breakaway ∧
      ((withA tripped).out .ca).short = .latched ∧ (withA tripped).vdb.powered .ca = true ∧
      ((withA tripped).out .ca).command ≠ 0 ∧ ((withA tripped).out .ca).withheld = false ∧
      ((op.withOut .ca tripped).out .ca).short = .latched ∧ (op.withOut .ca tripped).vdb.powered .ca = false ∧
      ((withA { tripped with short := .retry }).out .ca).short = .retry ∧
      (withEntries (entries 1)).mc.faults = [⟨.engineStale, true, false, 1, 0, 0⟩] ∧
      (tornOff true).tbc.state = .breakaway ∧ (tornOff true).mc.mode.controllersRun = true ∧
      (tornOff true).shc.state ≠ .parked ∧ (tornOff true).tbc.stopOrder = false ∧
      (tornOff true).tbc.coupled = true ∧ (tornOff false).tbc.coupled = false ∧
      (op.withTbc (tornOff true).tbc).shc.state = .parked ∧
      (inMode .awakeNoKey).mc.mode.controllersRun = false :=
  ⟨oldest_request _ _ op rfl, oldest_request _ _ op rfl, by decide⟩

/-- R156: an acknowledgement takes a coupled trailer out of BREAKAWAY into CHARGING with TSV ON. -/
theorem test_acknowledgement_charges_torn_off_trailer :
    (after .faultAcknowledge ((tornOff true).withRequests [.acknowledge])).tbc.state = .charging ∧
      ((after .faultAcknowledge ((tornOff true).withRequests [.acknowledge])).out .tsv).command = 1 ∧
      (after .faultAcknowledge ((tornOff false).withRequests [.acknowledge])).tbc.state = .absent := by
  decide

theorem witness_CommandWriteDrives :
    op.vdb.blocked .ca = true ∧ ((writeCommand .ca 900 op).out .ca).command ≠ (op.out .ca).command ∧
      lit.vdb.blocked .ca = false ∧ ((writeCommand .ca 2001 lit).out .ca).command ≠ (lit.out .ca).command ∧
      lit.vdb.blocked .pkv = false ∧ (lit.out .pkv).target = 0 ∧
      ((writeCommand .pkv 1 lit).out .pkv).command ≠ (lit.out .pkv).command ∧
      ((writeCommand .ca 0 lit).out .ca).command = (lit.out .ca).command ∧
      ((writeCommand .pkv 0 (writeCommand .pkv 1 lit)).out .pkv).command ≠
        ((writeCommand .pkv 1 lit).out .pkv).command := by decide

theorem witness_OpenCoilsFound :
    lit.senseRuns = true ∧ op.vdb.powered .ca = false ∧ lit.vdb.powered .ca = true ∧
      ((withA { OutRec.reset with short := .retry }).out .ca).short ≠ .none ∧
      ((withA { OutRec.reset with openCount := 49 }).out .ca).openCount + 1 = 50 ∧
      ((withA { OutRec.reset with openFlag := true, recCount := 49 }).out .ca).recCount + 1 = 50 ∧
      LooksOpen 2000 ⟨499, false⟩ ∧ ¬ LooksOpen 2000 ⟨500, false⟩ ∧ LooksOpen 0 ⟨0, true⟩ ∧
      ¬ LooksOpen 0 ⟨0, false⟩ ∧
      (50 ≤ ((withA { OutRec.reset with openCount := 50 }).out .ca).openCount) ∧
      (50 ≤ ((withA { OutRec.reset with openFlag := true, recCount := 50 }).out .ca).recCount) := by
  unfold LooksOpen; decide

theorem witness_TripEntersRetryOrLatches :
    (op.out .ca).target = 0 ∧
      ((withA { OutRec.reset with target := 900 }).out .ca).target ≠ 0 ∧
      ((withA { OutRec.reset with target := 900 }).out .ca).short = .none ∧
      ((withA { OutRec.reset with target := 900, short := .retry, window := some 0, retries := 2 }).out
        .ca).window.isSome = true ∧
      ((withA { OutRec.reset with target := 900, short := .retry, window := some 0, retries := 2 }).out
        .ca).retries + 1 = 3 ∧
      ((withA { OutRec.reset with target := 900, short := .retry, window := some 0, retries := 0 }).out
        .ca).retries + 1 ≠ 3 := by decide

/-- A retry that waits. -/
def waits : OutRec := { OutRec.reset with short := .retry, retryTimer := 1000000, command := 900 }

theorem witness_OutputTimersEnd :
    ((withA waits).out .ca).short = .retry ∧ ((withA waits).out .ca).window = none ∧
      1000000 ≤ ((withA waits).out .ca).retryTimer ∧ (withA waits).vdb.powered .ca = true ∧
      ((withA waits).out .ca).command ≠ 0 ∧ ((withA waits).out .ca).withheld = false ∧
      ((withA waits).out .ca).target = 0 ∧ ((withA { waits with command := 0 }).out .ca).command = 0 ∧
      ((withA { waits with window := some 100000, target := 900 }).out .ca).window = some 100000 ∧
      ((lit.withOut .pkv { OutRec.reset with command := 1, target := 1500, pullIn := some 100000 }).out
        .pkv).pullIn = some 100000 ∧
      ((lit.withOut .pkv { OutRec.reset with command := 1, target := 1500, pullIn := some 100000 }).out
        .pkv).target ≠ 0 := by decide

/-- A supply in a state with its timer, in a sequence that waits. -/
def supplied (x : Supply) (r : SupplyRec) (w : SeqStep) : State :=
  (lit.withSupply x r).withMc { lit.mc with step := w }

theorem witness_SupplyRiseDrivesOutputs :
    ((supplied .vsa ⟨.rising, 20000, false⟩ .calVsa).supplyOf .vsa).state = .rising ∧
      20000 ≤ ((supplied .vsa ⟨.rising, 20000, false⟩ .calVsa).supplyOf .vsa).settle ∧
      (supplied .vsa ⟨.rising, 20000, false⟩ .onVsa).mc.step = .onVsa ∧
      (supplied .vsa ⟨.rising, 20000, false⟩ .idle).mc.step = .idle ∧
      (supplied .vsb ⟨.rising, 20000, false⟩ .onVsb).mc.step = .onVsb ∧
      (supplied .vsb ⟨.rising, 20000, false⟩ .calVsb).mc.step = .calVsb ∧
      Output.supply .ca = .vsa ∧ Output.supply .hrv ≠ .vsa := by decide

/-- The end of a restart of tag 9 with the link as given, and a CALIBRATING that waits for VSB alone. -/
def restartEnd (l : LinkState) : State :=
  let s := supplied .vsb ⟨.rising, 20000, false⟩ .onVsb
  (s.withMc { s.mc with mode := .restarting, restartTag := some 9 }).withLc { s.lc with link := l }
def calibrated : State :=
  let s := supplied .vsb ⟨.rising, 20000, false⟩ .calVsb
  (s.withMc { s.mc with mode := .calibrating, windowEnded := true }).withSfe
    { s.sfe with cal := { s.sfe.cal with state := .failed } }

theorem witness_SupplyRiseDrivesOutputs_ends :
    (restartEnd .active).mc.restartTag = some 9 ∧ (restartEnd .active).mayMake .serviceResult = true ∧
      (restartEnd .active).lc.queue.length < 7 ∧ (restartEnd .conflict).mayMake .serviceResult = false ∧
      ((after (.supplyRiseComplete .vsb) (restartEnd .active)).lc.queue.map fun x => x.group) =
        [.identity, .serviceResult] ∧
      calibrated.mc.mode = .calibrating ∧ calibrated.mc.windowEnded = true ∧
      calibrated.sfe.cal.state = .failed ∧
      (after (.supplyRiseComplete .vsb) calibrated).mc.mode = .calibrating ∧
      (after .calibratingComplete (after (.supplyRiseComplete .vsb) calibrated)).mc.mode = .operating := by
  decide +kernel

theorem witness_SupplyFallStepsSequence :
    ((supplied .vsb ⟨.falling, 10000, false⟩ .stopVsb).supplyOf .vsb).state = .falling ∧
      10000 ≤ ((supplied .vsb ⟨.falling, 10000, false⟩ .stopVsb).supplyOf .vsb).settle ∧
      ((supplied .vsb ⟨.falling, 10000, false⟩ .offVsb).supplyOf .vsa).state = .enabled ∧
      ((supplied .vsb ⟨.falling, 10000, true⟩ .idle).supplyOf .vsb).pendingOn = true ∧
      ((supplied .vsa ⟨.falling, 10000, false⟩ .stopVsa).supplyOf .vsa).pendingOn = false ∧
      (supplied .vsa ⟨.falling, 10000, false⟩ .offVsa).mc.step = .offVsa ∧
      (supplied .vsa ⟨.falling, 10000, false⟩ .idle).mc.step = .idle := by decide

/-- A demand, SUP's comparator and state, and the grant. -/
def granted (d : Nat) (k : CmpState) (c : ChannelState) (g : Grant) : State :=
  let s := (op.withTbc { op.tbc with demand := d }).withSensor .sup { op.sensor .sup with cmp := k, state := c }
  s.withVdb { s.vdb with grant := g }

theorem witness_GrantYieldsToTrailer :
    OldestEvent .vdb .sup .lowEnter []
        ((granted 50 .low .valid .reset).withEvents [⟨.vdb, .sup, .lowEnter, 0⟩]) ∧
      OldestEvent .vdb .sup .lowLeave []
        ((granted 50 .low .valid ⟨true, some .lowPressure, 1⟩).withEvents [⟨.vdb, .sup, .lowLeave, 0⟩]) ∧
      OldestEvent .vdb .sup .valid []
        ((granted 50 .inRange .valid .reset).withEvents [⟨.vdb, .sup, .valid, 0⟩]) ∧
      (granted 50 .inRange .valid .reset).sfe.chans.sup.cmp ≠ .low ∧
      (granted 50 .inRange .valid .reset).sfe.chans.sup.state ≠ .failed ∧
      (granted 50 .inRange .valid .reset).sfe.chans.sup.state ≠ .off ∧
      (granted 50 .low .valid .reset).mc.mode.sensingRuns = true ∧
      (granted 50 .low .valid ⟨true, some .lowPressure, 1⟩).vdb.grant.cause ≠ some .supplyUnknown ∧
      (granted 50 .low .valid ⟨true, some .supplyUnknown, 1⟩).vdb.grant.cause = some .supplyUnknown ∧
      50 ≤ (granted 50 .low .valid .reset).tbc.demand ∧ (granted 49 .low .valid .reset).tbc.demand < 50 ∧
      (granted 50 .low .valid .reset).sfe.chans.sup.cmp = .low ∧
      (granted 50 .inRange .failed .reset).sfe.chans.sup.cmp ≠ .low ∧
      (granted 50 .inRange .off .reset).sfe.chans.sup.state = .off ∧
      (granted 50 .low .valid .reset).vdb.grant.suspended = false ∧
      (granted 49 .low .valid ⟨true, none, 1⟩).vdb.grant.suspended = true :=
  ⟨oldest_event _ _ _ _, oldest_event _ _ _ _, oldest_event _ _ _ _, by decide⟩

/-- OUT with a record, at a stamp. -/
def withOutChan (now : Stamp) (r : PulseRec) : State := ({ op with now := now } : State).withChan .out r

theorem witness_PulseEdgeTaken :
    op.mc.mode.sensingRuns = true ∧ op.fitted .out = true ∧ op.fitted .rad = true ∧
      (op.chan .out).refPresent = false ∧
      ((withOutChan 100 { PulseRec.reset with refPresent := true }).chan .out).refPresent = true ∧
      ((99 : Stamp) - (0 : Stamp)).toNat < (op.cfg.pulse.get .out).minSpacing ∧
      (op.cfg.pulse.get .out).minSpacing ≤ ((100 : Stamp) - (0 : Stamp)).toNat := by decide

theorem witness_SpeedsOfEvaluation :
    op.mc.mode.sensingRuns = true ∧ State.reset.fitted .rad = false ∧ (State.reset.chan .rad).lost = false ∧
      op.fitted .out = true ∧ (op.chan .out).count = 0 ∧ (op.chan .out).refPresent = false ∧
      1 ≤ ((withOutChan 0 { PulseRec.reset with count := 1, newest := 15000 }).chan .out).count ∧
      1000000 ≤ ((1000000 : Stamp) - (0 : Stamp)).toNat ∧ 0 < ((999999 : Stamp) - (0 : Stamp)).toNat ∧
      ((999999 : Stamp) - (0 : Stamp)).toNat < 1000000 := by decide

theorem witness_LossAndRecovery :
    op.mc.mode.sensingRuns = true ∧ op.fitted .inp = true ∧ (op.chan .inp).lost = false ∧
      ((withOutChan 0 { PulseRec.reset with lossTimer := 199 }).chan .out).lossTimer + 1 = 200 ∧
      ((withOutChan 0 { PulseRec.reset with lost := true, recTimer := 199 }).chan .out).lost = true ∧
      ((withOutChan 0 { PulseRec.reset with lost := true, recTimer := 199 }).chan .out).recTimer + 1 = 200 ∧
      (after .speedEvaluation op).scu.chans.inp.motion = .stopped ∧
      (if PulseChannel.out = .inp then 100 else 200) ≤
        ((withOutChan 0 { PulseRec.reset with lossTimer := 200 }).chan .out).lossTimer ∧
      200 ≤ ((withOutChan 0 { PulseRec.reset with lost := true, recTimer := 200 }).chan .out).recTimer := by
  decide

theorem witness_MotionRecordOfEvaluation :
    op.mc.mode.sensingRuns = true ∧ (after .speedEvaluation op).scu.motion.source = .radar ∧
      (after .speedEvaluation op).scu.motion.slipVal = .lowSpeed ∧
      (after .speedEvaluation (withOutChan 20000 { PulseRec.reset with
        refPresent := true, count := 2, newest := 12480 })).scu.motion.slipVal = .valid ∧
      (after .speedEvaluation (inMode .restarting)).scu.motion.slipVal ≠ .valid := by decide

theorem witness_GroundPulseOutput :
    op.mc.mode.sensingRuns = true ∧
      (op.withScu { op.scu with pulseHigh := true, pulseAge := 500 }).scu.pulseHigh = true ∧
      500 ≤ (op.withScu { op.scu with pulseHigh := true, pulseAge := 500 }).scu.pulseAge := by decide

/-- SUP with a record. -/
def withSup (r : SensorRec) : State := op.withSensor .sup r

/-- A fresh record of SUP in a state. -/
def supIn (c : ChannelState) : SensorRec := { SensorRec.reset (image.sensors.get .sup) with state := c }

theorem witness_StreamWatchdog :
    op.mc.mode.sensingRuns = true ∧ (withSup (supIn .valid)).pending = [] ∧
      ((withSup (supIn .valid)).sensor .sup).state ≠ .off ∧
      ((withSup { supIn .valid with runCount := 64 }).sensor .sup).state = .valid ∧
      64 ≤ ((withSup { supIn .valid with runCount := 64 }).sensor .sup).runCount ∧
      ((withSup { supIn .failed with recCount := 1000 }).sensor .sup).state = .failed ∧
      1000 ≤ ((withSup { supIn .failed with recCount := 1000 }).sensor .sup).recCount := by decide

/-- A second-order filter of OSR 2 at its first and its second clock. -/
def narrow (clocks : Nat) : Sinc := { sums := [1, 1], combs := [0, 0], clocks := clocks }

theorem witness_StreamWatchdog_filter :
    (withSup { supIn .starting with fast := narrow 0 }).pending = [] ∧
      ((withSup { supIn .starting with fast := narrow 0 }).sensor .sup).state = .starting ∧
      Sensor.sup ≠ .hps ∧ (op.withSensor .hps (supIn .valid)).pending = [] ∧
      ((op.withSensor .hps (supIn .valid)).sensor .hps).state = .valid ∧
      0 < (narrow 0).sums.length ∧ 0 + 1 < (narrow 0).sums.length ∧ (narrow 0).clocks + 1 < 2 ∧
      2 ≤ (narrow 1).clocks + 1 := by decide

/-- R28: a bit of 1 into sums of 1 and 1 makes them 2 and 3; the combs give 3. -/
theorem test_sinc_of_order_2 :
    (narrow 1).take 2 true = ({ sums := [2, 3], combs := [3, 3], clocks := 0 }, some 3) ∧
      (narrow 0).take 2 true = ({ sums := [2, 3], combs := [0, 0], clocks := 1 }, none) := by decide

theorem witness_MainOutputConverted :
    op.mc.mode.sensingRuns = true ∧ Sensor.sup ≠ .hps ∧
      ((withSup { supIn .valid with mainDone := some 157286 }).sensor .sup).mainDone = some 157286 ∧
      ((withSup { supIn .valid with mainDone := some 157286 }).sensor .sup).state = .valid ∧
      1 < ((withSup { supIn .starting with mainDone := some 0, discard := 2 }).sensor .sup).discard ∧
      ((withSup { supIn .starting with mainDone := some 0, discard := 1 }).sensor .sup).discard ≤ 1 := by
  decide

/-- A STARTING HPS with a fast output and so many to discard. -/
def withHps (n : Nat) : State :=
  op.withSensor .hps { SensorRec.reset image.sensors.hps with state := .starting, fastDone := some 9, discard := n }

theorem witness_FastOutputCompared :
    op.mc.mode.sensingRuns = true ∧
      ((withSup { supIn .valid with fastDone := some 157 }).sensor .sup).fastDone = some 157 ∧
      ((withSup { supIn .valid with fastDone := some 157 }).sensor .sup).state = .valid ∧
      ((withSup { supIn .failed with fastDone := some 157 }).sensor .sup).state ≠ .valid ∧
      (0 : Int) ≤ 50 ∧ (1500 : Int) + 100 < 2000 - 50 ∧ (1500 : Int) ≤ 1500 ∧ (2000 : Int) ≤ 2000 ∧
      (1949 : Int) < 2000 - 50 ∧ (2000 - 50 : Int) ≤ 1950 ∧ (1600 : Int) ≤ 1500 + 100 ∧
      (1500 + 100 : Int) < 1601 ∧ image.sensors.sup.lowOn = true ∧ image.sensors.sup.highOn = false ∧
      0 ≤ image.sensors.sup.lowHyst ∧ ((withHps 2).sensor .hps).state = .starting ∧
      ((withHps 2).sensor .hps).fastDone = some 9 ∧ 1 < ((withHps 2).sensor .hps).discard ∧
      ((withHps 1).sensor .hps).discard ≤ 1 ∧ ((op.withSensor .hps (supIn .valid)).sensor .hps).state ≠ .starting := by
  decide

/-- The position sensor's calibration, amplitude and slot. -/
def withCal (c : CalState) (d : Option Nat) (rec : Bool) (tag : Option Byte) (a : Option Int) (slot : Nat) :
    State :=
  op.withSfe { op.sfe with
    slot := slot, amplitude := a,
    cal := { CalRec.reset with state := c, offset := d, recording := rec, tag := tag } }

theorem witness_PositionDemodulated :
    (withCal .done (some 3) false none (some 89000) 15).mc.mode.sensingRuns = true ∧
      (withCal .done (some 3) false none (some 89000) 15).sfe.cal.state ≠ .running ∧
      (withCal .done (some 3) false none (some 89000) 15).sfe.amplitude = some 89000 ∧
      (withCal .done (some 3) false none (some 89000) 15).sfe.cal.offset = some 3 ∧
      (withCal .done (some 3) false none (some 89000) 14).sfe.slot + 1 <
        (withCal .done (some 3) false none (some 89000) 14).cfg.pattern.length ∧
      (withCal .done (some 3) false none (some 89000) 15).cfg.pattern.length ≤
        (withCal .done (some 3) false none (some 89000) 15).sfe.slot + 1 ∧
      (withCal .notRun none false none none 0).sfe.amplitude = none ∧
      op.cfg.pattern[(withCal .notRun none false none none 15).sfe.slot]? = some true ∧
      op.cfg.pattern[(withCal .notRun none false none none 14).sfe.slot]? = some false ∧
      (inMode .limp).mc.mode.sensingRuns = false := by decide

theorem witness_CalibrationEnds :
    (withCal .running none true (some 7) none 15).mc.mode.sensingRuns = true ∧
      (withCal .running none true (some 7) none 15).sfe.cal.state = .running ∧
      (withCal .running none true (some 7) none 15).sfe.amplitude = none ∧
      (withCal .running none true (some 7) none 15).sfe.cal.recording = true ∧
      (withCal .running none true (some 7) none 15).sfe.cal.tag = some 7 ∧
      (withCal .running none true none none 0).sfe.cal.tag = none ∧
      (withCal .running none false none none 15).sfe.cal.recording = false ∧
      image.pattern.length ≤ (withCal .running none false none none 15).sfe.slot + 1 ∧
      (withCal .running none false none none 14).sfe.slot + 1 < image.pattern.length ∧
      200000 ≤ ((200000 : Stamp) - (0 : Stamp)).toNat ∧
      (3 < image.pattern.length ∧ image.pattern.length ≤ ((List.range image.pattern.length).filter fun i =>
        [true, false, true, true, true, true, true, false, false, true, true, false, false, true, true,
          false].getD i false ==
          image.pattern.getD ((i + image.pattern.length - 3) % image.pattern.length) false).length + 2) := by
  decide

/-- A gearbox PARKED at standstill, the calibration and HPS as given. -/
def parkedWith (c : CalState) (h : ChannelState) : State :=
  (op.withCal { op.sfe.cal with state := c }).withSensor .hps { op.sensor .hps with state := h }

theorem witness_RecalibrationTaken :
    OldestRequest (Request.isService 3) (.service 3 9) []
        ((parkedWith .done .valid).withRequests [.service 3 9]) ∧
      (parkedWith .done .valid).mc.mode = .operating ∧ (parkedWith .done .valid).shc.state = .parked ∧
      (parkedWith .done .valid).scu.motion.standstill = true ∧
      (parkedWith .done .valid).sfe.cal.state ≠ .running ∧
      ((parkedWith .done .valid).sensor .hps).state ≠ .off ∧
      ((parkedWith .done .off).sensor .hps).state = .off ∧
      (parkedWith .running .valid).sfe.cal.state = .running ∧
      ¬((op.withShc { op.shc with state := .neutral }).shc.state = .parked ∧
        op.scu.motion.standstill = true) ∧ (inMode .stopping).mc.mode ≠ .operating :=
  ⟨oldest_request _ _ _ rfl, by decide⟩

theorem witness_RequestQueueMerges :
    ([⟨.up, 2, .cab⟩] : List QueueEntry) = [] ++ [⟨.up, 2, .cab⟩] ∧ (2 : Nat) < 3 ∧
      ([⟨.up, 1, .cab⟩, ⟨.up, 1, .cab⟩, ⟨.up, 1, .cab⟩, ⟨.up, 3, .cab⟩] : List QueueEntry).length = 4 ∧
      ([⟨.up, 1, .cab⟩, ⟨.up, 1, .cab⟩, ⟨.up, 3, .cab⟩] : List QueueEntry).length < 4 ∧
      ShiftKind.down ≠ .up ∧ offer .up .cab [⟨.up, 2, .cab⟩] = some [⟨.up, 3, .cab⟩] ∧
      (∀ e ∈ ([⟨.up, 2, .cab⟩] : List QueueEntry), 1 ≤ e.steps ∧ e.steps ≤ 3) := by decide

/-- The gearbox in a state, in gear F7 toward F8, with the charge pressure good and the peers FRESH. -/
def gearbox (st : GearState) (p : Option Phase) (k : Option ShiftKind) (n : Nat) : State :=
  let s := op.withSensor .chg { op.sensor .chg with state := .valid, value := 200 }
  let s := s.withLc { s.lc with
    cabDrive := { s.lc.cabDrive with fresh := .fresh, values := some ⟨.f, 0, true, 4, 1, 0, 0, 0, false⟩ }
    engine := { s.lc.engine with fresh := .fresh, values := some ⟨1900, 50, 0⟩ } }
  s.withShc { s.shc with
    state := st, phase := p, kind := k, interval := n, current := some ⟨.forward, 7⟩,
    target := some ⟨.forward, 8⟩, lever := .f, parkForce := false, auto := true,
    torqueFixed := 12, torqueLen := 12, torque := some 70 }

/-- The same at an interval after a FRESH one, the lever as taken, so that an interval finds nothing new. -/
def steady (st : GearState) (p : Option Phase) (k : Option ShiftKind) (n : Nat) : State :=
  let s := gearbox st p k n
  s.withShc { s.shc with cabFresh := true }

/-- The same with no cab record. -/
def cabless (s : State) : State :=
  (s.withLc { s.lc with cabDrive := .absent _ }).withShc { s.shc with cabFresh := false }

/-- The gearbox at a shaft speed, rolling. -/
def rolling (rpm ground : Nat) (s : State) : State :=
  s.withScu { s.scu with motion := { s.scu.motion with outRpm := rpm, vGround := ground, standstill := false } }

theorem witness_CabShiftCommandTaken :
    OldestRequest Request.isShift (.shift .up) [] ((gearbox .inGear none none 0).withRequests [.shift .up]) ∧
      OldestRequest Request.isShift (.shift (.select (some ⟨.forward, 7⟩))) []
        (op.withRequests [.shift (.select (some ⟨.forward, 7⟩))]) ∧
      op.mc.mode.controllersRun = true ∧ op.shc.state = .parked ∧
      (∃ e : GearEntry, op.cfg.entryOf ⟨.forward, 7⟩ = some e ∧ e.start = true) ∧
      op.hsq.state ≠ .running ∧ (gearbox .inGear none none 0).sfe.chans.chg.cmp ≠ .low ∧
      offer .up .cab (gearbox .inGear none none 0).shc.queue ≠ none :=
  ⟨oldest_request _ _ _ rfl, oldest_request _ _ _ rfl, by decide, by decide, ⟨_, rfl, rfl⟩, by decide⟩

theorem witness_ShcIntervalWrites :
    op.mc.mode.controllersRun = true ∧ (after .shcControlInterval op).shc.starting = false ∧
      ((after .shcControlInterval ((steady .inGear none none 0).withClutch .fwd
        { ClutchRec.reset 120 with state := .locked, value := 900 })).clutch .fwd).state = .locked := by
  decide +kernel

/-- IN_GEAR with a request at the head and the direction clutch LOCKED. -/
def asked (g : Gear) (e : QueueEntry) : State :=
  let s := steady .inGear none none 0
  (s.withClutch .fwd { ClutchRec.reset 120 with state := .locked, value := 900 }).withShc
    { s.shc with current := some g, queue := [e],
                 clutches := (s.shc.clutches.set .fwd
                   { ClutchRec.reset 120 with state := .locked, value := 900 }) }

/-- The TORQUE phase of 18 intervals. -/
def lengthened (n : Nat) : State :=
  let s := steady .shifting (some .torque) (some .up) n
  s.withShc { s.shc with torqueLen := 18 }

theorem steady_is_steady (st : GearState) (p : Option Phase) (k : Option ShiftKind) (n : Nat) :
    SteadyGearbox (steady st p k n) := ⟨rfl, rfl, Or.inr ⟨_, rfl, rfl, rfl⟩, rfl, rfl, by cases st <;> rfl⟩

theorem witness_ShiftIntervals :
    SteadyGearbox (steady .shifting (some .torque) (some .up) 10) ∧
      SteadyGearbox (cabless (steady .shifting (some .torque) (some .up) 10)) ∧
      SteadyGearbox (lengthened 17) ∧ (lengthened 12).shc.torqueLen = 18 ∧ 12 < (lengthened 12).shc.interval + 1 ∧
      (lengthened 17).shc.interval + 1 = 18 ∧
      (steady .shifting (some .torque) (some .up) 10).gearboxFaulted = false ∧
      (steady .shifting (some .torque) (some .up) 10).shc.phase = some .torque ∧
      (steady .shifting (some .torque) (some .up) 10).shc.torqueLen = 12 ∧ 10 + 1 < 12 ∧
      onComing (steady .shifting (some .torque) (some .up) 10) = [.d] ∧
      offGoing (steady .shifting (some .torque) (some .up) 10) = [.c] ∧
      (steady .shifting (some .torque) (some .up) 11).shc.torque = some 70 ∧
      (steady .shifting (some .torque) (some .up) 11).shc.echoSeen = false ∧
      (steady .shifting (some .torque) (some .up) 11).engineEcho ≠ some 70 :=
  ⟨steady_is_steady _ _ _ _, ⟨rfl, rfl, Or.inl ⟨rfl, rfl⟩, rfl, rfl, rfl⟩,
    ⟨rfl, rfl, Or.inr ⟨_, rfl, rfl, rfl⟩, rfl, rfl, rfl⟩, by decide⟩

theorem witness_ShiftIntervals_inertia :
    SteadyGearbox (steady .shifting (some .inertia) (some .up) 148) ∧
      SteadyGearbox (steady .shifting (some .inertia) (some .down) 149) ∧
      (steady .shifting (some .inertia) (some .up) 148).shc.target = some ⟨.forward, 8⟩ ∧
      ((0 : Int) - (0 * image.ratioOf ⟨.forward, 8⟩ / 1000 : Nat)).natAbs ≤ 30 ∧
      ¬ ((0 : Int) - (8 * image.ratioOf ⟨.forward, 8⟩ / 1000 : Nat)).natAbs ≤ 30 ∧
      (rolling 8 0 (steady .shifting (some .inertia) (some .up) 148)).scu.motion.outRpm = 8 ∧
      ((steady .shifting (some .inertia) (some .down) 148).withClutch .d
        { ClutchRec.reset 120 with state := .ramping }).shc.clutches.d.state = .ramping ∧
      ((steady .shifting (some .inertia) (some .up) 148).withShc
        { (steady .shifting (some .inertia) (some .up) 148).shc with sync := 2 }).shc.sync + 1 = 3 ∧
      (steady .shifting (some .inertia) (some .up) 148).shc.interval + 1 < 150 ∧
      150 ≤ (steady .shifting (some .inertia) (some .down) 149).shc.interval + 1 :=
  ⟨steady_is_steady _ _ _ _, steady_is_steady _ _ _ _, by decide⟩

/-- A clutch in its fill of 120 ms. -/
def midFill (held : Nat) : ClutchRec :=
  { ClutchRec.reset 120 with state := .filling, value := 1000, held := held, fillTime := 120 }

/-- An upshift from F7 to F8 in FILL. -/
def fillingUp (k : ShiftKind) (held : Nat) : State :=
  ((steady .shifting (some .fill) (some k) 0).withClutch .d (midFill held)).withClutch .c
    { ClutchRec.reset 120 with state := .locked, value := 900 }

/-- An upshift at 100 rpm of the output shaft, an old sync of 482, with the oil at 40 degrees. -/
def heard (p : Phase) (n inp : Nat) : State :=
  let s := rolling 100 0 (steady .shifting (some p) (some .up) n)
  (s.withScu { s.scu with motion := { s.scu.motion with inpRpm := inp } }).withSensor .oil
    { s.sensor .oil with state := .valid, value := 40 }

theorem witness_ShiftIntervals_fill :
    SteadyGearbox (fillingUp .up 100) ∧ SteadyGearbox (fillingUp .down 110) ∧
      (fillingUp .up 100).gearboxFaulted = false ∧ onComing (fillingUp .up 100) = [.d] ∧
      offGoing (fillingUp .up 100) = [.c] ∧ ((fillingUp .up 100).clutch .c).state = .locked ∧
      FillGoesOn (fillingUp .up 100) .d ∧ FillEnds (fillingUp .up 110) .d ∧
      (fillingUp .up 110).lc.engine.fresh = .fresh ∧ (fillingUp .up 110).lc.link ≠ .active ∧
      ((fillingUp .up 110).withLc { (fillingUp .up 110).lc with link := .active }).lc.link = .active :=
  ⟨⟨rfl, rfl, Or.inr ⟨_, rfl, rfl, rfl⟩, rfl, rfl, rfl⟩,
    ⟨rfl, rfl, Or.inr ⟨_, rfl, rfl, rfl⟩, rfl, rfl, rfl⟩, by decide, by decide, by decide, by decide,
    by unfold FillGoesOn; decide, by unfold FillEnds; decide, by decide, by decide, by decide⟩

theorem witness_ShiftIntervals_marks :
    SteadyGearbox (heard .torque 5 533) ∧ (heard .torque 5 533).gearboxFaulted = false ∧
      (heard .torque 5 533).shc.current = some ⟨.forward, 7⟩ ∧
      (heard .torque 5 533).scu.motion.outRpm * image.ratioOf ⟨.forward, 7⟩ / 1000 = 482 ∧
      (heard .torque 5 533).sfe.chans.oil.value = 40 ∧ (heard .torque 5 533).sfe.chans.oil.state = .valid ∧
      ((heard .torque 5 533).clutch .d).adapted = false ∧ 482 + 50 < 533 ∧
      (heard .torque 5 431).scu.motion.inpRpm + 50 < 482 ∧
      2 * ((heard .torque 5 431).shc.interval + 1) ≤ (heard .torque 5 431).shc.torqueFixed ∧
      ¬ 2 * ((heard .torque 6 431).shc.interval + 1) ≤ (heard .torque 6 431).shc.torqueFixed ∧
      (heard .fill 0 532).shc.phase = some .fill ∧ (fillingUp .up 0).sfe.chans.oil.state ≠ .valid ∧
      (((heard .torque 5 0).withClutch .d { midFill 0 with adapted := true }).clutch .d).adapted = true :=
  ⟨⟨rfl, rfl, Or.inr ⟨_, rfl, rfl, rfl⟩, rfl, rfl, rfl⟩, by decide⟩

theorem witness_ShiftIntervals_ends :
    SteadyGearbox (steady .shifting (some .torque) (some .down) 7) ∧
      ((steady .shifting (some .torque) (some .down) 7).withShc
        { (steady .shifting (some .torque) (some .down) 7).shc with torqueLen := 8 }).shc.torqueLen = 8 ∧
      (steady .shifting (some .torque) (some .down) 6).shc.interval + 1 < 8 ∧
      (steady .shifting (some .torque) (some .down) 7).shc.interval + 1 = 8 ∧
      ((steady .shifting (some .torque) (some .down) 7).clutch .c).drain = none ∧
      SteadyGearbox (steady .shifting (some .lockup) (some .up) 0) ∧
      (steady .shifting (some .lockup) (some .up) 0).shc.pendingShuttle = false ∧
      SteadyGearbox (steady .shifting (some .abort) (some .up) 19) ∧
      (steady .shifting (some .abort) (some .up) 18).shc.interval + 1 < 20 ∧
      20 ≤ (steady .shifting (some .abort) (some .up) 19).shc.interval + 1 :=
  ⟨steady_is_steady _ _ _ _, by decide, by decide, by decide, by decide, steady_is_steady _ _ _ _,
    by decide, steady_is_steady _ _ _ _, by decide, by decide⟩

/-- An ABORT with a shuttle pending, the lever at R or back at F, and a request queued during it. -/
def turning (l : Lever) (n ground : Nat) : State :=
  let s := rolling 300 ground (gearbox .shifting (some .abort) (some .up) n)
  let s := s.withShc { s.shc with
    cabFresh := true, lever := l, pendingShuttle := true, queue := [⟨.up, 1, .cab⟩],
    shuttleMap := [(⟨.forward, 7⟩, ⟨.reverse, 1⟩)] }
  s.withLc { s.lc with cabDrive :=
    { s.lc.cabDrive with values := some ⟨l, 0, true, 4, 1, 0, 0, 0, false⟩ } }

theorem witness_ShiftIntervals_turn :
    SteadyGearbox (turning .r 19 3332) ∧ SteadyGearbox (turning .r 19 3333) ∧
      SteadyGearbox (turning .f 19 0) ∧ SteadyGearbox (turning .r 18 0) ∧
      (turning .r 19 3332).gearboxFaulted = false ∧ (turning .r 19 3332).shc.pendingShuttle = true ∧
      (turning .r 19 3332).shc.current = some ⟨.forward, 7⟩ ∧ Dir.lever .forward = .f ∧
      (turning .r 19 3332).shc.partner ⟨.forward, 7⟩ = some ⟨.reverse, 1⟩ ∧
      (turning .r 18 0).shc.interval + 1 < 20 ∧ 20 ≤ (turning .r 19 3332).shc.interval + 1 :=
  ⟨⟨rfl, rfl, Or.inr ⟨_, rfl, rfl, rfl⟩, rfl, rfl, rfl⟩, ⟨rfl, rfl, Or.inr ⟨_, rfl, rfl, rfl⟩, rfl, rfl, rfl⟩,
    ⟨rfl, rfl, Or.inr ⟨_, rfl, rfl, rfl⟩, rfl, rfl, rfl⟩, ⟨rfl, rfl, Or.inr ⟨_, rfl, rfl, rfl⟩, rfl, rfl, rfl⟩,
    by decide⟩

/-- R76, R80, R85: at the last interval of ABORT a pending shuttle starts below 3,333 mm/s and flushes the queue,
which an interval before the last keeps. -/
theorem test_abort_ends_in_pending_shuttle :
    let k := (after .shcControlInterval (turning .r 19 3332)).shc
    (k.state, k.phase, k.target, k.queue) = (.shuttling, some .drain, some ⟨.reverse, 1⟩, []) ∧
      (after .shcControlInterval (turning .r 18 0)).shc.queue = [⟨.up, 1, .cab⟩] := by decide +kernel

/-- R85: at 3,333 mm/s that shuttle is refused with SPEED, and the queue stays. -/
theorem test_abort_ends_with_refused_shuttle :
    let k := (after .shcControlInterval (turning .r 19 3333)).shc
    (k.state, k.lastRefusal, k.ignored, k.queue) =
      (.inGear, some (.speed, .cab), some .r, [⟨.up, 1, .cab⟩]) := by decide +kernel

theorem witness_ShiftIntervals_head :
    SteadyGearbox (asked ⟨.forward, 7⟩ ⟨.up, 1, .cab⟩) ∧
      (asked ⟨.forward, 7⟩ ⟨.up, 1, .cab⟩).gearboxFaulted = false ∧
      (asked ⟨.forward, 7⟩ ⟨.up, 1, .cab⟩).shc.state = .inGear ∧
      (asked ⟨.forward, 7⟩ ⟨.up, 1, .cab⟩).shc.current = some ⟨.forward, 7⟩ ∧
      ((asked ⟨.forward, 7⟩ ⟨.up, 1, .cab⟩).clutch .fwd).state = .locked ∧ min 100 0 < 95 ∧
      stepsFrom image .up ⟨.forward, 7⟩ 1 = [⟨⟨.forward, 8⟩, .d, .m, 4020, false, true⟩] ∧
      stepsFrom image .up ⟨.forward, 10⟩ 1 = [] ∧
      (stepsFrom image .up ⟨.forward, 9⟩ 1).dropWhile (fun x => !x.auto) = [] ∧
      (asked ⟨.forward, 7⟩ ⟨.up, 1, .cab⟩).engineTorque = some 50 ∧
      ¬ (rolling 600 0 (asked ⟨.forward, 7⟩ ⟨.down, 1, .cab⟩)).scu.motion.outRpm * 5790 / 1000 ≤ 2400 ∧
      (rolling 400 0 (asked ⟨.forward, 7⟩ ⟨.down, 1, .cab⟩)).scu.motion.outRpm * 5790 / 1000 ≤ 2400 ∧
      ¬ 900 ≤ (rolling 200 0 (asked ⟨.forward, 7⟩ ⟨.up, 1, .cab⟩)).scu.motion.outRpm * 4020 / 1000 ∧
      (asked ⟨.forward, 7⟩ ⟨.up, 1, .cab⟩).shc.pendingShuttle = false :=
  ⟨⟨rfl, rfl, Or.inr ⟨_, rfl, rfl, rfl⟩, rfl, rfl, rfl⟩, by decide⟩

theorem witness_ShiftPhaseEnds :
    (gearbox .shifting (some .torque) (some .up) 12).mc.mode.controllersRun = true ∧
      (gearbox .shifting (some .torque) (some .up) 12).shc.state = .shifting ∧
      (gearbox .shifting (some .torque) (some .down) 12).shc.torqueLen ≤
        (gearbox .shifting (some .torque) (some .down) 12).shc.interval ∧
      3 ≤ ((gearbox .shifting (some .inertia) (some .up) 9).withShc
        { (gearbox .shifting (some .inertia) (some .up) 9).shc with sync := 3 }).shc.sync ∧
      (gearbox .shifting (some .inertia) (some .up) 150).shc.sync < 3 ∧
      150 ≤ (gearbox .shifting (some .inertia) (some .up) 150).shc.interval ∧
      20 ≤ (gearbox .shifting (some .abort) (some .up) 20).shc.interval ∧
      (gearbox .shifting (some .abort) (some .up) 20).shc.pendingShuttle = false := by decide

/-- A clutch that has held its fill current for its time. -/
def filled : ClutchRec := { ClutchRec.reset 120 with state := .filling, held := 120, fillTime := 120 }

theorem witness_FillCompleteTaken :
    (((gearbox .shifting (some .fill) (some .up) 0).withClutch .d filled).clutch .d).state = .filling ∧
      (((gearbox .shifting (some .fill) (some .up) 0).withClutch .d filled).clutch .d).fillTime ≤
        (((gearbox .shifting (some .fill) (some .up) 0).withClutch .d filled).clutch .d).held ∧
      Clutch.d ∈ onComing (gearbox .shifting (some .fill) (some .up) 0) ∧
      (∀ y ∈ onComing (gearbox .shifting (some .fill) (some .up) 0), y ≠ .d →
        ((gearbox .shifting (some .fill) (some .up) 0).clutch y).state = .ramping) ∧
      Clutch.d ∈ gearPair image ⟨.forward, 8⟩ ∧
      (gearbox .engaging (some .preselect) none 0).shc.target = some ⟨.forward, 8⟩ ∧
      (∀ y ∈ gearPair image ⟨.forward, 8⟩, y ≠ .d →
        (((gearbox .engaging (some .preselect) none 0).withClutch .m
          { ClutchRec.reset 120 with state := .locked }).clutch y).state = .locked) ∧
      Clutch.fwd ∈ dirClutchOf (gearbox .engaging (some .ramp) none 0).shc.target ∧
      (gearbox .neutral none none 0).shc.state = .neutral ∧
      (gearbox .shuttling (some .drain) none 0).shc.phase = some .drain := by decide

theorem witness_DirectionClutchTakesOver :
    (∀ x ∈ dirClutchOf (gearbox .engaging (some .ramp) none 60).shc.target,
        (((gearbox .engaging (some .ramp) none 60).withClutch .fwd
          { ClutchRec.reset 120 with state := .ramping }).clutch x).state = .ramping) ∧
      max 1 (image.engageRamp / 10) ≤ (gearbox .engaging (some .ramp) none 60).shc.interval ∧
      (gearbox .shuttling (some .driveAway) none 60).shc.pendingShuttle = false ∧
      10 ≤ (gearbox .shuttling (some .drain) none 10).shc.interval ∧
      (∀ x ∈ dirClutchOf (gearbox .shuttling (some .drain) none 10).shc.target ++
          onComing (gearbox .shuttling (some .drain) none 10),
        ((((gearbox .shuttling (some .drain) none 10).withClutch .fwd
          { ClutchRec.reset 120 with state := .ramping }).withClutch .d
          { ClutchRec.reset 120 with state := .ramping }).clutch x).state = .ramping) := by decide

theorem witness_DirectionClutchTakesOver_interval :
    SteadyGearbox (steady .shuttling (some .reverseBrake) none 5) ∧
      SteadyGearbox (rolling 30 0 (steady .shuttling (some .reverseBrake) none 5)) ∧
      (steady .shuttling (some .reverseBrake) none 5).gearboxFaulted = false ∧
      dirClutchOf (steady .shuttling (some .reverseBrake) none 5).shc.target = [.fwd] ∧
      (steady .shuttling (some .reverseBrake) none 5).scu.motion.outRpm < 30 ∧
      30 ≤ (rolling 30 0 (steady .shuttling (some .reverseBrake) none 5)).scu.motion.outRpm ∧
      (rolling 30 0 (steady .shuttling (some .reverseBrake) none 5)).scu.motion.standstill = false ∧
      (steady .shuttling (some .driveAway) none 58).shc.interval + 1 < max 1 (image.engageRamp / 10) ∧
      max 1 (image.engageRamp / 10) ≤ (steady .shuttling (some .driveAway) none 59).shc.interval + 1 :=
  ⟨steady_is_steady _ _ _ _, ⟨rfl, rfl, Or.inr ⟨_, rfl, rfl, rfl⟩, rfl, rfl, rfl⟩, by decide⟩

/-- A shuttle from F7 to RV1 in DRAIN, its on-coming clutches in their fill. -/
def swapping (n held : Nat) : State :=
  let s := steady .shuttling (some .drain) none n
  (((s.withShc { s.shc with target := some ⟨.reverse, 1⟩ }).withClutch .rev (midFill held)).withClutch .a
    (midFill held)).withClutch .l (midFill held)

theorem witness_DirectionClutchTakesOver_drain :
    SteadyGearbox (swapping 9 110) ∧ (swapping 9 110).gearboxFaulted = false ∧
      (swapping 9 110).shc.current = some ⟨.forward, 7⟩ ∧ (swapping 9 110).shc.target = some ⟨.reverse, 1⟩ ∧
      Dir.forward ≠ Dir.reverse ∧ onComing (swapping 9 110) = [.a, .l] ∧
      offGoing (swapping 9 110) = [.c, .m] ∧ ((swapping 9 110).clutch .fwd).drain = none ∧
      (∀ x ∈ Clutch.rev :: onComing (swapping 9 110), FillEnds (swapping 9 110) x) ∧
      FillGoesOn (swapping 9 100) .rev ∧ (swapping 9 110).shc.interval + 1 ≤ 10 ∧
      10 < (swapping 10 100).shc.interval + 1 ∧ (swapping 8 110).shc.interval + 1 < 10 ∧
      (((swapping 10 100).withClutch .c { midFill 0 with state := .draining, value := 0 }).clutch .c).state =
        .draining :=
  ⟨⟨rfl, rfl, Or.inr ⟨_, rfl, rfl, rfl⟩, rfl, rfl, rfl⟩, by decide, by decide, by decide, by decide,
    by decide, by decide, by decide, by unfold FillEnds; decide, by unfold FillGoesOn; decide, by decide,
    by decide, by decide, by decide⟩

/-- An engagement of F8. -/
def engagingAt (p : Phase) (n : Nat) (d m fwd : ClutchRec) : State :=
  (((steady .engaging (some p) none n).withClutch .d d).withClutch .m m).withClutch .fwd fwd

theorem witness_DirectionClutchTakesOver_engage :
    SteadyGearbox (engagingAt .preselect 0 (midFill 110) (midFill 100) (.reset 120)) ∧
      (engagingAt .preselect 0 (midFill 110) (midFill 100) (.reset 120)).gearboxFaulted = false ∧
      (engagingAt .preselect 0 (midFill 110) (midFill 100) (.reset 120)).shc.target = some ⟨.forward, 8⟩ ∧
      gearPair image ⟨.forward, 8⟩ = [.d, .m] ∧
      FillEnds (engagingAt .preselect 0 (midFill 110) (midFill 100) (.reset 120)) .d ∧
      FillGoesOn (engagingAt .preselect 0 (midFill 110) (midFill 100) (.reset 120)) .m ∧
      ((engagingAt .preselect 0 (midFill 110) { midFill 0 with state := .locked } (.reset 120)).clutch
        .m).state = .locked ∧
      SteadyGearbox (engagingAt .ramp 58 (.reset 120) (.reset 120) (midFill 100)) ∧
      FillGoesOn (engagingAt .ramp 0 (.reset 120) (.reset 120) (midFill 100)) .fwd ∧
      FillEnds (engagingAt .ramp 0 (.reset 120) (.reset 120) (midFill 110)) .fwd ∧
      ((engagingAt .ramp 58 (.reset 120) (.reset 120) { midFill 0 with state := .ramping }).clutch
        .fwd).state = .ramping ∧
      58 + 1 < max 1 (image.engageRamp / 10) ∧ max 1 (image.engageRamp / 10) ≤ 59 + 1 ∧
      (engagingAt .ramp 58 (.reset 120) (.reset 120) (midFill 100)).shc.pendingShuttle = false :=
  ⟨⟨rfl, rfl, Or.inr ⟨_, rfl, rfl, rfl⟩, rfl, rfl, rfl⟩, by decide, by decide, by decide,
    by unfold FillEnds; decide, by unfold FillGoesOn; decide, by decide,
    ⟨rfl, rfl, Or.inr ⟨_, rfl, rfl, rfl⟩, rfl, rfl, rfl⟩, by unfold FillGoesOn; decide,
    by unfold FillEnds; decide, by decide, by decide, by decide, by decide⟩

theorem witness_ShcTimersExpire :
    ((op.withClutch .c { ClutchRec.reset 120 with state := .draining, drain := some 100 }).clutch .c).state =
        .draining ∧
      ((op.withClutch .c { ClutchRec.reset 120 with state := .draining, drain := some 100 }).clutch .c).drain =
        some 100 ∧
      (op.withShc { op.shc with pedalHold := some 1000000 }).shc.pedalHold = some 1000000 ∧
      (gearbox .inGear none none 0).shc.auto = true ∧ (gearbox .inGear none none 0).shc.queue = [] ∧
      (∃ e : GearEntry, (gearbox .inGear none none 0).cfg.entryOf ⟨.forward, 7⟩ = some e ∧ e.auto = true) ∧
      (gearbox .inGear none none 0).engineTorque = some 50 ∧
      10 ≤ ((gearbox .inGear none none 0).withShc { op.shc with upCount := 10 }).shc.upCount ∧
      5 ≤ ((gearbox .inGear none none 0).withShc { op.shc with downCount := 5 }).shc.downCount ∧
      (gearbox .inGear none none 0).sfe.chans.chg.state = .valid ∧
      (gearbox .inGear none none 0).scu.motion.rearVal ≠ .lost :=
  ⟨by decide, by decide, by decide, by decide, by decide, ⟨_, rfl, rfl⟩, by decide⟩

theorem witness_ShcTakesSfeEvents :
    OldestEvent .shc .oil .highEnter [] (op.withEvents [⟨.shc, .oil, .highEnter, 0⟩]) ∧
      OldestEvent .shc .chg .lowEnter []
        ((gearbox .shifting (some .fill) (some .up) 0).withEvents [⟨.shc, .chg, .lowEnter, 0⟩]) ∧
      (gearbox .shifting (some .lockup) (some .up) 0).shc.phase = some .lockup ∧
      (gearbox .shuttling (some .drain) none 0).shc.state = .shuttling ∧
      (gearbox .engaging (some .ramp) none 0).shc.state = .engaging ∧
      (gearbox .inGear none none 0).shc.state = .inGear :=
  ⟨oldest_event _ _ _ _, oldest_event _ _ _ _, by decide⟩

theorem witness_AdaptationResetAndUnknownCodes :
    OldestRequest (Request.isService 2) (.service 2 9) [] (op.withRequests [.service 2 9]) ∧
      OldestRequest Request.isUnknown (.service 5 9) [] (op.withRequests [.service 5 9]) ∧
      op.mc.mode = .operating ∧ op.shc.state = .parked ∧
      (gearbox .engaging (some .ramp) none 0).shc.state = .engaging ∧ (5 : Byte) ≠ 1 ∧ (5 : Byte) ≠ 4 :=
  ⟨oldest_request _ _ _ rfl, oldest_request _ _ _ rfl, by decide⟩

/-- A gearbox that can park. -/
def canParkNow : State :=
  let s := steady .neutral none none 0
  s.withShc { s.shc with pendingPark := true, parkForce := true, parkOrder := true }

/-- One of outputs 0 to 9 latched. -/
def faultyBox (s : State) : State := s.withOut .ca { OutRec.reset with short := .latched }

theorem witness_ParkReleaseAndFaultHold :
    SteadyGearbox canParkNow ∧ canParkNow.shc.state = .neutral ∧ canParkNow.shc.pendingPark = true ∧
      parkRequested canParkNow = true ∧ canParkNow.scu.motion.standstill = true ∧
      (canParkNow.clutch .fwd).state = .off ∧ canParkNow.tbc.state ≠ .breakaway ∧
      canParkNow.gearboxFaulted = false ∧
      SteadyGearbox (faultyBox (steady .inGear none none 0)) ∧
      (faultyBox (steady .inGear none none 0)).gearboxFaulted = true ∧
      (faultyBox (steady .inGear none none 0)).shc.pendingPark = false ∧
      SteadyGearbox (cabless (steady .faultHold none none 0)) ∧
      SteadyGearbox (cabless ((steady .faultHold none none 0).withShc
        { (steady .faultHold none none 0).shc with lever := .n })) ∧
      (steady .faultHold none none 0).shc.lever ≠ .n ∧
      (steady .faultHold none none 0).shc.pendingPark = false :=
  ⟨⟨rfl, rfl, Or.inr ⟨_, rfl, rfl, rfl⟩, rfl, rfl, rfl⟩, rfl, rfl, rfl, rfl, rfl, by decide, by decide,
    ⟨rfl, rfl, Or.inr ⟨_, rfl, rfl, rfl⟩, rfl, rfl, rfl⟩, by decide, rfl,
    ⟨rfl, rfl, Or.inl ⟨rfl, rfl⟩, rfl, rfl, rfl⟩, ⟨rfl, rfl, Or.inl ⟨rfl, rfl⟩, rfl, rfl, rfl⟩, by decide,
    rfl⟩

/-- A PARKED gearbox under force until now, the lever as last taken, the ignored lever, and F7 selected. -/
def parkedBy (l : Lever) (ignored : Option Lever) : State :=
  let s := steady .parked none none 0
  s.withShc { s.shc with lever := l, ignored := ignored, parkForce := true, selected := some ⟨.forward, 7⟩ }

theorem witness_ParkReleaseAndFaultHold_release :
    (parkedBy .f none).mc.mode.controllersRun = true ∧ (parkedBy .f none).shc.state = .parked ∧
      (parkedBy .f none).shc.parkForce = true ∧ (parkedBy .f none).shc.parkOrder = false ∧
      (parkedBy .f none).brakeParkRequest = false ∧ (parkedBy .f none).shc.lever ≠ .park ∧
      (parkedBy .f none).lc.cabDrive.current = some ⟨.f, 0, true, 4, 1, 0, 0, 0, false⟩ ∧
      releaseWhy (parkedBy .f none) = none ∧
      releaseWhy (faultyBox (parkedBy .f none)) = some .fault ∧
      releaseWhy ((parkedBy .f none).withLc op.lc) = some .noEngine ∧
      releaseWhy ((parkedBy .f none).withSfe op.sfe) = some .noCharge ∧
      (parkedBy .park none).shc.lever = .park ∧ (parkedBy .r (some .r)).shc.ignored ≠ none ∧
      (parkedBy .park none).shc.cabFresh = true ∧ Lever.f = Dir.lever .forward ∧
      (parkedBy .park none).shc.selected = some ⟨.forward, 7⟩ ∧
      image.entryOf ⟨.forward, 7⟩ = some ⟨⟨.forward, 7⟩, .c, .m, 4820, true, true⟩ ∧
      (parkedBy .park none).scu.motion.outRpm * 4820 / 1000 ≤ 2400 ∧
      2400 < (rolling 500 0 (parkedBy .park none)).scu.motion.outRpm * 4820 / 1000 ∧
      ((parkedBy .park none).withLc { (parkedBy .park none).lc with cabDrive :=
        { (parkedBy .park none).lc.cabDrive with
            values := some ⟨.n, 0, true, 4, 1, 0, 0, 0, false⟩ } }).lc.cabDrive.current =
          some ⟨.n, 0, true, 4, 1, 0, 0, 0, false⟩ := by
  refine ⟨?_, ?_, ?_, ?_, ?_, ?_, ?_, ?_, ?_, ?_, ?_, ?_⟩ <;> decide

/-- The gearbox at an interval after a FRESH one, the lever as last taken. -/
def levered (st : GearState) (l : Lever) : State :=
  let s := gearbox st none none 0
  s.withShc { s.shc with lever := l, cabFresh := true, selected := some ⟨.forward, 7⟩ }

theorem witness_PreselectOnlyInNeutral :
    PreselectOnlyInNeutral (levered .inGear .f) ∧
      PreselectOnlyInNeutral ((levered .neutral .n).withShc
        { (levered .neutral .n).shc with preselect := some ⟨.forward, 7⟩ }) :=
  ⟨fun h => absurd rfl h, fun _ => rfl⟩

theorem witness_LeverMovesGearbox :
    (levered .neutral .n).lc.cabDrive.values = some ⟨.f, 0, true, 4, 1, 0, 0, 0, false⟩ ∧
      (levered .neutral .n).lc.cabDrive.fresh = .fresh ∧ (levered .neutral .n).shc.lever ≠ .f ∧
      (levered .neutral .n).shc.cabFresh = true ∧ (levered .neutral .n).shc.starting = false ∧
      (levered .neutral .n).gearboxFaulted = false ∧ (levered .neutral .n).speedsLost = false ∧
      (levered .neutral .n).shc.parkOrder = false ∧ (levered .neutral .n).brakeParkRequest = false ∧
      (levered .neutral .n).shc.parkForce = false ∧
      (levered .neutral .n).shc.selected = some ⟨.forward, 7⟩ ∧ (levered .neutral .n).chargeDoubt = false ∧
      image.entryOf ⟨.forward, 7⟩ = some ⟨⟨.forward, 7⟩, .c, .m, 4820, true, true⟩ ∧
      (levered .neutral .n).scu.motion.outRpm * 4820 / 1000 ≤ 2400 ∧
      (levered .inGear .f).shc.state = .inGear ∧
      ((levered .inGear .f).withLc { (levered .inGear .f).lc with
        cabDrive := { (levered .inGear .f).lc.cabDrive with values := some ⟨.n, 0, true, 4, 1, 0, 0, 0, false⟩ } }).lc.cabDrive.values
          = some ⟨.n, 0, true, 4, 1, 0, 0, 0, false⟩ := by decide

/-- IN_GEAR in F7 with its three clutches LOCKED and the shuttle map, the cab's lever at R. -/
def reversing (ground : Nat) : State :=
  let s := rolling 100 ground (levered .inGear .f)
  let k : ClutchRec := { ClutchRec.reset 120 with state := .locked, value := 900 }
  (s.withShc { s.shc with
      shuttleMap := buildMap image,
      clutches := ((s.shc.clutches.set .fwd k).set .c k).set .m k }).withLc
    { s.lc with cabDrive :=
      { s.lc.cabDrive with values := some ⟨.r, 0, true, 4, 1, 0, 0, 0, false⟩ } }

theorem witness_LeverMovesGearbox_shuttle :
    (reversing 3332).shc.partner ⟨.forward, 7⟩ = some ⟨.reverse, 1⟩ ∧
      (reversing 3332).shc.state = .inGear ∧ (reversing 3332).shc.current = some ⟨.forward, 7⟩ ∧
      (reversing 3332).shc.lever = .f ∧
      (reversing 3332).lc.cabDrive.values = some ⟨.r, 0, true, 4, 1, 0, 0, 0, false⟩ ∧
      (∀ x ∈ Dir.clutch .forward :: gearPair image ⟨.forward, 7⟩,
        ((reversing 3332).clutch x).state = .locked) ∧
      (reversing 3332).scu.motion.vGround < 3333 ∧ 3333 ≤ (reversing 3333).scu.motion.vGround ∧
      Dir.reverse ≠ .forward ∧ (reversing 3333).shc.queue = [] ∧
      (reversing 3333).gearboxFaulted = false ∧ (reversing 3333).shc.parkForce = false := by decide +kernel

/-- The gearbox in an operation from F7 toward F8, the lever at F and the cab's lever moved. -/
def pulled (st : GearState) (p : Phase) (n : Nat) (l : Lever) : State :=
  let s := steady st (some p) (some .up) n
  s.withLc { s.lc with cabDrive :=
    { s.lc.cabDrive with values := some ⟨l, 0, true, 4, 1, 0, 0, 0, false⟩ } }

theorem witness_LeverMovesGearbox_operation :
    PreselectOnlyInNeutral (pulled .shifting .fill 0 .n) ∧ (pulled .shifting .fill 0 .n).shc.state.busy ∧
      (steady .inGear none none 0).shc.state.busy ∧ (pulled .engaging .preselect 0 .park).shc.state.busy ∧
      (pulled .shuttling .drain 0 .park).shc.state.busy ∧
      ShiftAbandoned (pulled .shifting .fill 0 .n).shc ∧ ShiftCompleted (pulled .shifting .lockup 0 .n).shc ∧
      Preselecting (pulled .engaging .preselect 0 .n).shc ∧ OperationGoesOn (pulled .shifting .abort 18 .r) ∧
      ¬ OperationGoesOn (pulled .shifting .abort 19 .r) ∧ OperationGoesOn (pulled .engaging .ramp 58 .r) ∧
      ¬ OperationGoesOn (pulled .engaging .ramp 59 .r) ∧ OperationGoesOn (pulled .shuttling .drain 0 .r) ∧
      (pulled .shifting .fill 0 .n).shc.lever = .f ∧ (pulled .shifting .fill 0 .n).shc.cabFresh = true ∧
      (pulled .shifting .fill 0 .n).shc.starting = false ∧
      (pulled .shifting .fill 0 .n).gearboxFaulted = false ∧
      (pulled .shifting .fill 0 .n).speedsLost = false ∧ (levered .inGear .n).shc.lever = .n ∧
      (levered .inGear .n).shc.current = some ⟨.forward, 7⟩ ∧ Dir.lever .forward = .f ∧
      (levered .inGear .n).shc.queue = [] :=
  ⟨fun h => absurd rfl h, Or.inr (Or.inl rfl), Or.inl rfl, Or.inr (Or.inr (Or.inl rfl)),
    Or.inr (Or.inr (Or.inr rfl)), ⟨rfl, Or.inl rfl⟩, ⟨rfl, Or.inr (Or.inl rfl)⟩, ⟨rfl, rfl⟩,
    by unfold OperationGoesOn; decide, by unfold OperationGoesOn; decide, by unfold OperationGoesOn; decide,
    by unfold OperationGoesOn; decide, by unfold OperationGoesOn; decide, by decide⟩

/-- The brake station asks for park. -/
def braked (s : State) : State :=
  s.withLc { s.lc with brake := { s.lc.brake with fresh := .fresh, values := some ⟨0, 0, true⟩ } }

theorem witness_LeverMovesGearbox_brake :
    (braked (levered .inGear .f)).brakeParkRequest = true ∧ CabSteady (braked (levered .inGear .f)) ∧
      (braked (levered .inGear .f)).shc.parkForce = false ∧
      (braked (levered .inGear .f)).shc.state.busy ∧
      PreselectOnlyInNeutral (braked (levered .inGear .f)) ∧
      (after .shcControlInterval (braked (levered .inGear .f))).shc.state = .neutral ∧
      (after .shcControlInterval (braked (levered .inGear .f))).shc.pendingPark = true :=
  ⟨by decide, Or.inr ⟨_, rfl, rfl, rfl⟩, rfl, Or.inl rfl, fun h => absurd rfl h, by decide +kernel⟩

/-- R89: N in LOCKUP completes the shift to F8, from which F7, the start-permitted gear at or below it, is
selected; N in ABORT leaves the gear current. -/
theorem test_neutral_completes_or_abandons_shift :
    let k := (after .shcControlInterval (pulled .shifting .lockup 0 .n)).shc
    let q := (after .shcControlInterval (pulled .shifting .abort 3 .n)).shc
    (k.state, k.current, k.selected) = (.neutral, some ⟨.forward, 8⟩, some ⟨.forward, 7⟩) ∧
      (q.state, q.current) = (.neutral, some ⟨.forward, 7⟩) := by decide +kernel

/-- R85: R during a shift sets pending-shuttle. -/
theorem test_reverse_lever_pends_in_shift :
    (after .shcControlInterval (pulled .shifting .fill 0 .r)).shc.pendingShuttle = true ∧
      (after .shcControlInterval (pulled .shifting .fill 0 .r)).shc.state = .shifting := by decide +kernel

theorem witness_LeverMovesGearbox_record :
    (levered .inGear .n).lc.cabDrive.current = some ⟨.f, 0, true, 4, 1, 0, 0, 0, false⟩ ∧
      (gearbox .inGear none none 0).shc.cabFresh = false ∧
      ((gearbox .inGear none none 0).withShc
        { (gearbox .inGear none none 0).shc with lever := .r }).shc.lever ≠ .f ∧
      (cabless (levered .inGear .f)).lc.cabDrive.current = none ∧
      ((cabless (levered .inGear .f)).withShc (levered .inGear .f).shc).shc.cabFresh = true ∧
      (cabless (levered .inGear .f)).shc.cabFresh = false := by decide

/-- The front drive with a record. -/
def axle (f : Fdc) : State := op.withFdc f

theorem witness_FrontDriveInterval :
    op.mc.mode.controllersRun = true ∧ op.lc.cabDrive.fresh ≠ .fresh ∧
      (gearbox .inGear none none 0).lc.cabDrive.fresh = .fresh ∧
      (gearbox .inGear none none 0).fdc.cabSeen ≠ some .on ∧
      (after .fdcControlInterval (axle { Fdc.reset with mode := .auto })).fdc.mode = .auto ∧
      op.htc.state ≠ .raising ∧ op.scu.motion.slipVal ≠ .valid ∧
      (op.withScu { op.scu with motion :=
        { op.scu.motion with slipVal := .valid, filtered := 151 } }).scu.motion.filtered = 151 ∧
      (199 : Nat) + 1 = 200 ∧ (axle { Fdc.reset with state := .released }).fdc.state = .released ∧
      min 65535 (190 + 10) = 200 ∧ min 65535 (189 + 10) < 200 ∧
      (after .fdcControlInterval op).fdc.reasons ≠ Reasons.none := by decide

/-- The axle ENGAGED at a rear speed of 2 m/s and a front speed, both counted this often. -/
def slipping (front count : Nat) : State :=
  let s := axle { Fdc.reset with mode := .on, deviation := count, agreement := count }
  s.withScu { s.scu with motion := { s.scu.motion with vRear := 2000, vFront := front } }

theorem witness_FrontDriveInterval_counts :
    (after .fdcControlInterval (slipping 2000 198)).fdc.state = .engaged ∧
      1000 < (slipping 2000 198).scu.motion.vRear ∧ (slipping 2000 198).scu.motion.rearVal ≠ .lost ∧
      (slipping 2000 198).scu.motion.frontVal ≠ .lost ∧
      15 * 2000 < ((1699 : Int) - (2000 * image.lead / 1000 : Nat)).natAbs * 100 ∧
      ¬ 15 * 2000 < ((1700 : Int) - (2000 * image.lead / 1000 : Nat)).natAbs * 100 ∧
      (slipping 1699 198).fdc.deviation + 1 < 200 ∧ 200 ≤ (slipping 1699 199).fdc.deviation + 1 ∧
      200 ≤ (slipping 1700 199).fdc.agreement + 1 ∧ (slipping 1700 199).faultPresent .frontSlip = false := by
  decide +kernel

theorem witness_FrontDriveChanges :
    (axle { Fdc.reset with reasons := Reasons.none, empty := 200, time := 1000 }).mc.mode.controllersRun =
        true ∧
      (axle { Fdc.reset with reasons := Reasons.none, empty := 200, time := 1000 }).fdc.reasons =
        Reasons.none ∧
      (axle { Fdc.reset with reasons := Reasons.none, state := .releasing, time := 200 }).fdc.state =
        .releasing ∧
      (axle { Fdc.reset with state := .engaging, time := 200 }).fdc.state = .engaging ∧
      200 ≤ (axle { Fdc.reset with slipClear := 200 }).fdc.slipClear ∧
      200 ≤ (axle { Fdc.reset with deviation := 200 }).fdc.deviation ∧
      200 ≤ (axle { Fdc.reset with agreement := 200 }).fdc.agreement ∧
      (op.withMc { op.mc with faults := [⟨.frontSlip, true, false, 1, 0, 0⟩] }).faultPresent .frontSlip = true ∧
      OldestEvent .fdc .chg .failed [] (op.withEvents [⟨.fdc, .chg, .failed, 0⟩]) :=
  ⟨by decide, by decide, by decide, by decide, by decide, by decide, by decide, by decide,
    oldest_event _ _ _ op⟩

/-- The hitch WORKING under a FRESH cab with a valid position. -/
def ploughing : State :=
  let s := op.withLc { op.lc with cabHitch := { op.lc.cabHitch with
    fresh := .fresh, values := some ⟨400, 30, 4, 900, 150, 1, 0, 0, 0⟩ } }
  (s.withSfe { s.sfe with posValid := true }).withHtc { s.htc with state := .working }

/-- The hitch in a state with both buttons settled and sampled RELEASED, as in every run. -/
def hitchIn (x : HitchState) : State :=
  ploughing.withHtc { ploughing.htc with
    state := x, holdCause := some .fender, reload := false, left := ⟨some false, some false⟩, right := ⟨some false, some false⟩ }

/-- The left line has been PRESSED once. -/
def leftOnce (x : HitchState) : State :=
  (hitchIn x).withHtc { (hitchIn x).htc with left := { settled := some false, last := some true } }

/-- The position, the draft pins and the cab's fields as they stand. -/
def hitchAt (p : Int) (c : ChannelState) (d : Nat) (s : State) : State :=
  let s := s.withSensor .hps { s.sensor .hps with value := p }
  let s := s.withSensor .drl { s.sensor .drl with state := c }
  let s := s.withSensor .drr { s.sensor .drr with state := c }
  s.withLc { s.lc with cabHitch := { s.lc.cabHitch with
    values := some ⟨400, 30, 4, 900, 150, 1, d, 0, 0⟩ } }

/-- The cab's hitch record lost. -/
def lostHitch (s : State) : State := s.withLc { s.lc with cabHitch := .absent _ }

theorem witness_HitchInterval :
    HitchSound (hitchIn .working) ∧ NoPress false false (hitchIn .working).htc ∧
      (hitchIn .working).htc.state = .working ∧ (hitchIn .working).htc.overload = false ∧
      (hitchIn .working).lc.cabHitch.current = some ⟨400, 30, 4, 900, 150, 1, 0, 0, 0⟩ ∧
      (hitchIn .working).sfe.chans.drl.cmp ≠ .high ∧ (hitchIn .working).htc.source = .cab ∧
      (hitchIn .working).lc.implement.current = none ∧
      ((hitchIn .working).withLc { (hitchIn .working).lc with implement :=
        { op.lc.implement with fresh := .fresh, values := some ⟨700, true⟩ } }).lc.implement.current =
          some ⟨700, true⟩ ∧
      onOfCode 1 = true ∧ (10 : Int).natAbs ≤ 10 ∧ (10 : Int) < 11 ∧ (-11 : Int) < -10 ∧
      HitchSound (lostHitch (hitchIn .raising)) ∧ (lostHitch (hitchIn .raising)).lc.cabHitch.current = none ∧
      (lostHitch (hitchIn .raising)).lc.cabHitch.fresh ≠ .fresh ∧
      ((hitchIn .working).withHtc { (hitchIn .working).htc with source := .implement }).htc.source =
        .implement ∧ (hitchIn .working).lc.implement.fresh ≠ .fresh :=
  ⟨⟨rfl, rfl, rfl⟩, ⟨rfl, rfl⟩, rfl, rfl, rfl, by decide, rfl, rfl, rfl, rfl, by decide, by decide, by decide,
    ⟨rfl, rfl, rfl⟩, rfl, by decide, rfl, by decide⟩

theorem witness_HitchInterval_states :
    HitchSound (hitchAt 350 .valid 1 (hitchIn .startLock)) ∧
      ((after (.htcControlInterval false false) (hitchAt 350 .valid 1 (hitchIn .startLock))).htc.cab.lever : Int)
          - 350 = 50 ∧
      (hitchAt 349 .valid 1 (hitchIn .startLock)).sfe.chans.hps.value = 349 ∧
      (after (.htcControlInterval false false) (hitchAt 900 .valid 1 (hitchIn .raising))).htc.state =
        .transport ∧
      (after (.htcControlInterval false false) (hitchAt 899 .valid 1 (hitchIn .raising))).htc.state =
        .raising ∧
      (after (.htcControlInterval false false) (hitchAt 850 .valid 1 (hitchIn .transport))).htc.state =
        .transport ∧
      (after (.htcControlInterval false false) (hitchAt 849 .valid 1 (hitchIn .transport))).htc.state =
        .raising ∧
      (after (.htcControlInterval false false)
        (rolling 0 2201 (hitchAt 880 .valid 1 (hitchIn .transport)))).htc.draftValid = true ∧
      (rolling 0 2201 (hitchAt 880 .valid 1 (hitchIn .transport))).htc.reload = false ∧
      (after (.htcControlInterval false false) (hitchAt 880 .failed 1 (hitchIn .transport))).htc.draftValid =
        false := by
  refine ⟨⟨rfl, rfl, rfl⟩, ?_, ?_, ?_, ?_, ?_, ?_, ?_, ?_, ?_⟩ <;> decide +kernel

/-- HELD with a cause, a lever reference and the lever at 400. -/
def heldBy (c : HoldCause) (ref : Nat) : State :=
  (hitchIn .held).withHtc { (hitchIn .held).htc with
    holdCause := some c, leverRef := some ref, cabFresh := true }

theorem witness_HitchInterval_held :
    HitchSound (heldBy .cabLost 410) ∧ NoPress false false (heldBy .cabLost 410).htc ∧
      LeverMovedFresh (heldBy .cabLost 410) ∧ (heldBy .cabLost 410).mc.mode ≠ .stopping ∧
      (heldBy .cabLost 410).htc.source ≠ .implement ∧
      (heldBy .cabLost 409).htc.leverRef = some 409 ∧ ((400 : Int) - (409 : Nat)).natAbs < 10 ∧
      (after (.htcControlInterval false false) (heldBy .cabLost 410)).htc.state = .working ∧
      (after (.htcControlInterval false false) (heldBy .cabLost 409)).htc.state = .held ∧
      (after (.htcControlInterval false false) (heldBy .stop 410)).htc.state = .held ∧
      HitchSound ((hitchIn .working).withHtc { (hitchIn .working).htc with overload := true }) ∧
      (after (.htcControlInterval false false)
        ((hitchIn .working).withHtc { (hitchIn .working).htc with overload := true })).htc.overload = true :=
  ⟨⟨rfl, rfl, rfl⟩, ⟨rfl, rfl⟩, ⟨_, _, rfl, rfl, rfl, by decide⟩, by decide, by decide, rfl, by decide,
    by decide +kernel, by decide +kernel, by decide +kernel, ⟨rfl, rfl, rfl⟩, by decide +kernel⟩

theorem witness_HitchInterval_fender :
    ¬ NoPress true false (leftOnce .working).htc ∧ HitchSound (leftOnce .working) ∧
      (leftOnce .working).scu.motion.standstill = true ∧ (leftOnce .working).mc.mode = .operating ∧
      ¬ NoPress true false (leftOnce .held).htc ∧ (leftOnce .held).htc.holdCause = some .fender ∧
      (rolling 0 0 (leftOnce .held)).scu.motion.standstill = false ∧
      (after (.htcControlInterval false false) (hitchIn .fender)).htc.left.settled = some false ∧
      (after (.htcControlInterval true false) (leftOnce .fender)).htc.left.settled = some true ∧
      (after (.htcControlInterval true false) (leftOnce .fender)).htc.right.settled ≠ some true ∧
      HitchSound (rolling 0 0 (hitchIn .fender)) ∧ NoPress false false (hitchIn .held).htc :=
  ⟨fun h => absurd h.1 (by decide), ⟨rfl, rfl, rfl⟩, rfl, rfl, fun h => absurd h.1 (by decide), rfl, rfl,
    by decide +kernel, by decide +kernel, by decide +kernel, ⟨rfl, rfl, rfl⟩, ⟨rfl, rfl⟩⟩

/-- Both buttons RELEASED in FENDER on a tractor that rolls: HELD, and refused (log 91). -/
theorem witness_HitchInterval_rolls :
    HitchSound (rolling 0 0 (hitchIn .fender)) ∧ NoPress false false (rolling 0 0 (hitchIn .fender)).htc ∧
      (rolling 0 0 (hitchIn .fender)).htc.state = .fender ∧
      (rolling 0 0 (hitchIn .fender)).scu.motion.standstill = false ∧
      (after (.htcControlInterval false false) (rolling 0 0 (hitchIn .fender))).htc.left.settled =
        some false ∧
      (after (.htcControlInterval false false) (rolling 0 0 (hitchIn .fender))).htc.right.settled =
        some false ∧
      (after (.htcControlInterval false false) (rolling 0 0 (hitchIn .fender))).htc.state = .held ∧
      (after (.htcControlInterval false false) (rolling 0 0 (hitchIn .fender))).htc.refused = true :=
  ⟨⟨rfl, rfl, rfl⟩, ⟨rfl, rfl⟩, by decide +kernel⟩

theorem witness_HitchSwitchEdges :
    OldestRequest Request.isSwitch (.hitchSwitch true) [] (op.withRequests [.hitchSwitch true]) ∧
      OldestRequest Request.isSwitch (.hitchSwitch false) []
        ((inMode .stopping).withRequests [.hitchSwitch false]) ∧
      op.mc.mode.controllersRun = true ∧ (inMode .stopping).mc.mode.controllersRun = true ∧
      op.hsq.state ≠ .running ∧ op.htc.state = .startLock ∧ ploughing.htc.state = .working ∧
      op.htc.pinLeft = false ∧ (op.withHtc { op.htc with pinLeft := true }).htc.pinLeft = true :=
  ⟨oldest_request _ _ _ rfl, oldest_request _ _ _ rfl, by decide⟩

theorem witness_HitchTakesSfeEvents :
    OldestEvent .htc (DraftPin.sensor .left) .highEnter []
        (ploughing.withEvents [⟨.htc, DraftPin.sensor .left, .highEnter, 7020⟩]) ∧
      OldestEvent .htc .hps .failed [] (ploughing.withEvents [⟨.htc, .hps, .failed, 0⟩]) ∧
      ploughing.mc.mode.controllersRun = true ∧ op.htc.state ≠ .working ∧
      (ploughing.withHtc { ploughing.htc with overload := true, pinLeft := true }).htc.overload = true ∧
      (ploughing.withHtc { ploughing.htc with overload := true, pinLeft := true }).htc.pinRight = false :=
  ⟨⟨[], [], 7020, rfl, rfl, by simp⟩, oldest_event _ _ _ _, by decide⟩

theorem witness_HitchTakesSfeEvents_interval :
    op.sfe.posValid = false ∧
      (ploughing.withOut .hrv { OutRec.reset with short := .latched }).hitchFaulted = true ∧
      (hitchIn .faultHold).htc.state = .faultHold ∧ (hitchIn .faultHold).sfe.posValid = true ∧
      (hitchIn .faultHold).hitchFaulted = false ∧ (hitchIn .faultHold).mc.mode = .operating ∧
      ((hitchIn .faultHold).withMc (inMode .stopping).mc).mc.mode = .stopping ∧
      (hitchIn .faultHold).htc.lockReleased = false ∧
      ((hitchIn .faultHold).withHtc { (hitchIn .faultHold).htc with lockReleased := true }).htc.lockReleased =
        true ∧ (lostHitch (hitchIn .faultHold)).lc.cabHitch.fresh ≠ .fresh ∧
      NoPress false false (hitchIn .faultHold).htc ∧
      (hitchAt 0 .failed 0 (hitchIn .working)).sfe.chans.drl.state = .failed ∧
      (hitchAt 0 .valid 0 (hitchIn .working)).sfe.chans.drr.state = .valid ∧
      (hitchIn .working).htc.pinFailed = false :=
  ⟨rfl, rfl, rfl, rfl, rfl, rfl, rfl, rfl, rfl, by decide, ⟨rfl, rfl⟩, rfl, rfl, rfl⟩

theorem witness_BrakeTableApplied :
    image.trailerCurve ≠ [] ∧
      (∀ i j : Nat, i < j → j < image.trailerCurve.length →
        (image.trailerCurve.getD i (0, 0)).1 < (image.trailerCurve.getD j (0, 0)).1) ∧
      (0 < (([(5, 1), (9, 2)] : List (Nat × Nat)).getD 0 (0, 0)).1) ∧
      (image.trailerCurve.getD (image.trailerCurve.length - 1) (0, 0)).1 ≤ 1500 ∧
      0 + 1 < image.trailerCurve.length ∧ (image.trailerCurve.getD 0 (0, 0)).1 ≤ 0 ∧
      1499 < (image.trailerCurve.getD 1 (0, 0)).1 ∧ ∀ p ∈ image.trailerCurve, p.2 ≤ 2000 := by
  refine ⟨by decide, fun i j h k => ?_, by decide⟩
  have hj : j < 2 := k
  have hi : i = 0 ∧ j = 1 := by omega
  obtain ⟨rfl, rfl⟩ := hi
  decide

/-- The trailer with a record, the brakes measured and the brake station FRESH. -/
def towing (t : Tbc) : State :=
  let s := op.withTbc t
  let s := s.withSensor .tbr { s.sensor .tbr with state := .valid, value := 300 }
  s.withLc { s.lc with brake := { s.lc.brake with fresh := .fresh, values := some ⟨310, 290, false⟩ } }

theorem witness_TrailerInterval :
    op.mc.mode.controllersRun = true ∧ (towing op.tbc).sfe.chans.tbr.state = .valid ∧
      (towing op.tbc).lc.brake.fresh = .fresh ∧ op.lc.brake.fresh ≠ .fresh ∧
      op.sfe.chans.tbr.state ≠ .valid ∧ op.shc.state = .parked ∧
      (after (.tbcControlInterval true) op).tbc.demand = 0 ∧ op.sfe.chans.tcl.state ≠ .valid := by decide

theorem witness_TrailerInterval_regulated :
    (after (.tbcControlInterval true) ((towing { op.tbc with state := .ready, coupled := true }).withShc
      { op.shc with state := .neutral })).tbc.demand = 472 := by decide +kernel

theorem witness_TrailerChanges :
    (towing { op.tbc with samples := 3 }).mc.mode.controllersRun = true ∧
      3 ≤ (towing { op.tbc with samples := 3 }).tbc.samples ∧
      (towing { op.tbc with state := .absent, samples := 3 }).tbc.coupled = false ∧
      (towing { op.tbc with state := .ready, coupled := true, samples := 3 }).tbc.coupled = true ∧
      10000 ≤ (towing { op.tbc with state := .charging, timer := 10000 }).tbc.timer ∧
      ¬(op.sfe.chans.tsl.state = .valid ∧ 350 ≤ op.sfe.chans.tsl.value) ∧
      20 ≤ (towing { op.tbc with state := .ready, lowTimer := 20 }).tbc.lowTimer ∧
      1000 ≤ (towing { op.tbc with state := .supplyFault, timer := 1000 }).tbc.timer ∧
      (towing { op.tbc with unknown := 50 }).tbc.brake = none ∧ op.faultPresent .brakeUnknown = false ∧
      50 ≤ (towing { op.tbc with disagree := 50 }).tbc.disagree ∧
      50 ≤ (towing { op.tbc with agree := 50 }).tbc.agree ∧
      (op.withMc { op.mc with faults := [⟨.brakeDisagree, true, false, 1, 0, 0⟩] }).faultPresent
        .brakeDisagree = true := by decide

/-- The trailer with a record behind a gearbox out of PARKED, TSL as given. -/
def hauling (t : Tbc) (c : ChannelState) (v : Int) : State :=
  let s := (towing t).withShc { op.shc with state := .neutral }
  s.withSensor .tsl { s.sensor .tsl with state := c, value := v }

theorem witness_TrailerChanges_interval :
    (hauling op.tbc .valid 350).shc.state ≠ .parked ∧ (hauling op.tbc .valid 350).tslGood = true ∧
      ¬ (350 ≤ (hauling op.tbc .valid 349).sfe.chans.tsl.value) ∧
      (hauling op.tbc .failed 0).sfe.chans.tsl.state ≠ .valid ∧
      (hauling { op.tbc with state := .charging, timer := 9990 } .valid 349).tbc.timer + 10 = 10000 ∧
      (hauling { op.tbc with state := .ready, lowTimer := 19 } .failed 0).tbc.lowTimer + 1 = 20 ∧
      (hauling { op.tbc with state := .supplyFault, timer := 990 } .valid 350).tbc.timer + 10 = 1000 ∧
      true ≠ (hauling { op.tbc with state := .absent, samples := 2 } .valid 0).tbc.coupled ∧
      (hauling { op.tbc with samples := 2 } .valid 0).tbc.samples + 1 = 3 ∧
      (hauling { op.tbc with samples := 1 } .valid 0).tbc.samples + 1 < 3 ∧
      (hauling { op.tbc with state := .ready, coupled := true } .valid 0).tbc.coupled = true ∧
      (hauling op.tbc .valid 0).tbc.state = .parked ∧ (hauling op.tbc .valid 0).tbc.stopOrder = false ∧
      (hauling op.tbc .valid 0).mc.faults.length < 14 ∧
      (hauling op.tbc .valid 0).sfe.chans.tbr.value.toNat = 300 ∧
      ((300 : Int) - (310 : Nat)).natAbs ≤ 150 ∧ 150 < ((300 : Int) - (451 : Nat)).natAbs := by decide

theorem witness_TrailerChanges_interval_after :
    (after (.tbcControlInterval true)
        (hauling { op.tbc with state := .ready, coupled := true } .valid 350)).tbc.state = .ready ∧
      (after (.tbcControlInterval true)
        (hauling { op.tbc with state := .ready, coupled := true } .valid 350)).tbc.demand ≠ 0 ∧
      (after (.tbcControlInterval true) (hauling { op.tbc with coupled := true } .valid 350)).tbc.coupled =
        true ∧
      (after (.tbcControlInterval true)
        ((hauling { op.tbc with unknown := 49 } .valid 0).withSfe op.sfe |>.withLc op.lc)).tbc.brake = none ∧
      (after (.tbcControlInterval true) (hauling op.tbc .valid 0)).tbc.brake ≠ none := by decide +kernel

/-- A trailer with both supply faults ACTIVE, TSL as given. -/
def starved (t : Tbc) (v : Int) : State :=
  let s := hauling t .valid v
  s.withMc { s.mc with faults :=
    [⟨.trailerSupplyLost, true, false, 1, 0, 0⟩, ⟨.trailerChargeFailed, true, false, 1, 0, 0⟩] }

/-- R154, R158: a trailer released from PARKED carries its supply faults into CHARGING, and READY makes them
STORED. -/
theorem test_ready_clears_carried_supply_faults :
    let parked := starved { op.tbc with coupled := true } 349
    let charging := starved { op.tbc with state := .charging, coupled := true } 350
    (after (.tbcControlInterval true) parked).tbc.state = .charging ∧
      ((after (.tbcControlInterval true) parked).mc.faults.map fun e => e.present) = [true, true] ∧
      (after (.tbcControlInterval true) charging).tbc.state = .ready ∧
      ((after (.tbcControlInterval true) charging).mc.faults.map fun e => e.present) = [false, false] := by
  decide +kernel

theorem witness_TrailerChanges_ready :
    (starved { op.tbc with state := .charging, coupled := true } 350).tbc.state ≠ .ready ∧
      (starved { op.tbc with state := .charging, coupled := true } 350).faultPresent .trailerSupplyLost =
        true ∧
      (starved op.tbc 0).mc.mode.controllersRun = true ∧ (starved op.tbc 0).tbc.state = .parked := by
  decide

theorem witness_TrailerTakesSfeEvents :
    OldestEvent .tbc .tbr .failed [] ((towing op.tbc).withEvents [⟨.tbc, .tbr, .failed, 0⟩]) ∧
      OldestEvent .tbc .tcl .highEnter [] (op.withEvents [⟨.tbc, .tcl, .highEnter, 0⟩]) ∧
      OldestEvent .tbc .tsl .valid [] (op.withEvents [⟨.tbc, .tsl, .valid, 0⟩]) ∧
      op.mc.mode.controllersRun = true ∧ op.sfe.chans.tsl.cmp = .inRange ∧
      op.sfe.chans.tbr.state ≠ .valid ∧ (towing op.tbc).sfe.chans.tbr.state = .valid ∧
      (axle { Fdc.reset with state := .released }).fdc.state = .released ∧
      applyTable image.brakeCurve ((some 300 : Option Nat).getD 0) ≤ 1500 :=
  ⟨oldest_event _ _ _ _, oldest_event _ _ _ _, oldest_event _ _ _ _, by decide⟩

/-- A run of ENTRY that waits at its step `i`. -/
def run (i : Nat) (progress : Nat) : State :=
  op.withHsq { op.hsq with
    state := .running, kind := some .entry, stepCount := 3, index := i, progress := progress,
    trigStart := some 0 }

theorem witness_HeadlandStartAndCancel :
    OldestRequest Request.isHeadland (.headland true) [] (op.withRequests [.headland true]) ∧
      OldestRequest Request.isHeadland (.headland false) [] ((run 1 0).withRequests [.headland false]) ∧
      op.mc.mode = .operating ∧ (run 1 0).hsq.state = .running ∧ op.hsq.state ≠ .running ∧
      op.cfg.entry[(op.cfg.entry.takeWhile fun x => decide (x.trigger = .immediate)).length]? =
        some ⟨.wait, .distance 20⟩ ∧
      image.exit.takeWhile (fun x => decide (x.trigger = .immediate)) = image.exit ∧
      op.shc.state ≠ .neutral ∧ (ploughing.withHtc { op.htc with state := .held }).htc.state = .held ∧
      ploughing.lc.cabHitch.fresh = .fresh ∧ op.lc.cabHitch.fresh ≠ .fresh :=
  ⟨oldest_request _ _ _ rfl, oldest_request _ _ _ rfl, by decide⟩

/-- ENTRY begins with five IMMEDIATE steps: two of one function, and one SHIFT_UP. -/
def busyEntry : State :=
  { op with cfg := { image with entry :=
      [⟨.frontMode .auto, .immediate⟩, ⟨.slipControl true, .immediate⟩, ⟨.frontMode .on, .immediate⟩,
       ⟨.shiftUp 3, .immediate⟩, ⟨.hitchWork, .immediate⟩, ⟨.wait, .time 5⟩] } }

theorem witness_HeadlandStartAndCancel_immediate :
    busyEntry.cfg.entry.takeWhile (fun x => decide (x.trigger = .immediate)) =
        [⟨.frontMode .auto, .immediate⟩, ⟨.slipControl true, .immediate⟩] ++
          ⟨.frontMode .on, .immediate⟩ :: [⟨.shiftUp 3, .immediate⟩, ⟨.hitchWork, .immediate⟩] ∧
      (∀ y ∈ ([⟨.shiftUp 3, .immediate⟩, ⟨.hitchWork, .immediate⟩] : List HStep), ∀ n : FrontMode,
        y.action ≠ .frontMode n) ∧
      (∀ y ∈ ([⟨.hitchWork, .immediate⟩] : List HStep), ∀ i : Nat,
        y.action ≠ .shiftUp i ∧ y.action ≠ .shiftDown i) ∧
      (gearbox .inGear none none 0).sfe.chans.chg.cmp ≠ .low ∧
      (gearbox .inGear none none 0).lc.cabDrive.fresh = .fresh ∧
      (gearbox .inGear none none 0).speedsLost = false ∧ (gearbox .inGear none none 0).shc.queue = [] :=
  ⟨by decide, by simp, by simp, by decide⟩

theorem witness_HeadlandStartAndCancel_copies :
    (gearbox .inGear none none 0).lc.cabDrive.current.isSome = true ∧ op.lc.cabDrive.current = none ∧
      ploughing.lc.cabHitch.current.isSome = true ∧ op.lc.cabHitch.current = none := by decide

/-- The cab record and the sequencer's copy of its front drive mode differ. -/
def switched (i : Nat) : State :=
  let s := (run i 0).withLc (gearbox .inGear none none 0).lc
  s.withHsq { s.hsq with frontSeen := some .auto }

theorem witness_HeadlandTriggersIssue_touched :
    FieldTouched [⟨.frontMode .off, .immediate⟩] (switched 1) ∧
      ¬ FieldTouched (image.entry.drop 1) (switched 1) ∧ ¬ FieldTouched (image.entry.drop 1) (run 1 0) := by
  refine ⟨Or.inl ⟨_, _, rfl, rfl, by decide, _, .head _, .off, rfl⟩, ?_, ?_⟩
  · rintro (⟨d, m, -, -, -, x, hx, n, h⟩ | ⟨f, b, h, -⟩ | ⟨f, r, h, -⟩)
    · simp [image] at hx
      rcases hx with rfl | rfl <;> cases h
    · cases h
    · cases h
  · rintro (⟨d, m, h, -⟩ | ⟨f, b, h, -⟩ | ⟨f, r, h, -⟩) <;> cases h

/-- The run of `busyEntry` in gear F7, its first step waiting for 500 ms that have passed. -/
def waiting : State :=
  let s := gearbox .inGear none none 0
  { s with
      now := 500000
      cfg := { image with entry := ⟨.frontMode .auto, .time 5⟩ :: busyEntry.cfg.entry.drop 1 }
      hsq := { op.hsq with
        state := .running, kind := some .entry, stepCount := 6, trigStart := some 0 }
      shc := { s.shc with lever := .f } }

theorem witness_HeadlandTriggersIssue_steps :
    ((remaining waiting).take 5).map (fun y => y.action) =
        [.frontMode .auto, .slipControl true] ++ .frontMode .on :: [.shiftUp 3, .hitchWork] ∧
      timeDue waiting = true ∧ waiting.shc.state = .inGear ∧ waiting.shc.queue = [] ∧
      waiting.sfe.chans.chg.state = .valid ∧ waiting.lc.cabDrive.fresh = .fresh ∧
      waiting.htc.state = .startLock ∧ waiting.hsq.frontSeen = none ∧
      (waiting.withHtc { waiting.htc with state := .held }).htc.state = .held ∧
      waiting.lc.cabHitch.fresh ≠ .fresh := by decide

theorem test_waiting_steps_carried_out :
    (after .timeTrigger waiting).hsq.index = 5 ∧ (after .timeTrigger waiting).fdc.mode = .on ∧
      (after .timeTrigger waiting).htc.slipOn = true ∧
      (after .timeTrigger waiting).shc.queue = [⟨.up, 3, .headland⟩] ∧
      (after .timeTrigger waiting).hsq.lastShift = some ⟨.entry, 3, .shiftUp 3⟩ := by decide +kernel

theorem witness_HeadlandTriggersIssue_rows :
    OldestRequest Request.isShift (.shift .up) [] ((run 1 0).withRequests [.shift .up]) ∧
      OldestRequest Request.isSwitch (.hitchSwitch false) [] ((run 1 0).withRequests [.hitchSwitch false]) ∧
      (∃ y ∈ image.entry.drop 1, ∃ n : Nat, y.action = .shiftUp n ∨ y.action = .shiftDown n) ∧
      (¬ ∃ y ∈ image.entry.drop 1, y.action = .hitchRaise ∨ y.action = .hitchWork) ∧
      (op.withShc { op.shc with refusals := 1, lastRefusal := some (.lugging, .headland) }).shc.refusals ≠
        (op.withHsq { op.hsq with lastShift := some ⟨.entry, 2, .shiftDown 1⟩ }).hsq.refusalsSeen ∧
      op.hsq.state ≠ .running ∧ ((run 1 0).withShc { op.shc with lever := .f }).shc.lever = .f :=
  ⟨oldest_request _ _ _ rfl, oldest_request _ _ _ rfl,
    ⟨⟨.shiftDown 1, .time 5⟩, .tail _ (.head _), 1, Or.inr rfl⟩, (by
      rintro ⟨y, hy, h⟩
      simp [image] at hy
      rcases hy with rfl | rfl <;> simp at h), by decide⟩

theorem witness_HeadlandTriggersIssue :
    (run 1 2000000).mc.mode = .operating ∧ (run 1 2000000).hsq.state = .running ∧
      (run 1 2000000).hsq.kind = some .entry ∧
      image.entry.drop (run 1 2000000).hsq.index = ⟨.wait, .distance 20⟩ :: image.entry.drop 2 ∧
      20 * 100000 ≤ (run 1 2000000).hsq.progress ∧
      image.entry.drop (run 2 0).hsq.index = ⟨.shiftDown 1, .time 5⟩ :: [] ∧
      5 * 100000 ≤ (({ (run 2 0) with now := 500000 } : State).now - (0 : Stamp)).toNat ∧
      op.lc.cabDrive.fresh ≠ .fresh ∧ op.lc.cabHitch.fresh ≠ .fresh ∧
      (run 1 0).shc.refusals = (run 1 0).hsq.refusalsSeen ∧ (run 1 0).shc.lever = .park ∧
      ((run 1 0).withShc { op.shc with lever := .f, pendingShuttle := true }).shc.pendingShuttle = true ∧
      ((run 1 0).withShc { op.shc with lever := .f }).shc.state ≠ .shuttling ∧
      (run 1 0).hsq.trigStart = some 0 := by decide

/-- The link in a state, with the configured stations. -/
def linked (l : LinkState) : State :=
  op.withLc { op.lc with link := l, sources := ⟨3, some 1, some 2, some 4, some 5, some 6⟩ }

theorem test_absent_record_time_runs :
    (microTick (linked .listen)).lc.implement.since = 1 ∧ (microTick (linked .offline)).lc.implement.since = 0 ∧
      (microTick (linked .active)).lc.service.since = 0 ∧
      ((linked .active).withLc { op.lc with cabDrive := { op.lc.cabDrive with since := 7 } }).lc.offOrder.since
        .cabDrive = 7 := by decide

/-- Frames of 12 with every shift command, and SELECT of the first, the last and no gear of each direction. -/
theorem witness_FrameReceivedFiled_codes :
    byteAt [0, 0, 0, 0] 0 / 4 % 4 = 0 ∧ byteAt [4, 0, 0, 0] 0 / 4 % 4 = 1 ∧
      byteAt [8, 0, 0, 0] 0 / 4 % 4 = 2 ∧ byteAt [12, 0, 0, 0] 0 / 4 % 4 = 3 ∧
      byteAt [12, 1, 0, 0] 1 % 32 = 1 ∧ byteAt [12, 12, 0, 0] 1 % 32 = 12 ∧
      byteAt [12, 17, 0, 0] 1 % 32 = 17 ∧ byteAt [12, 24, 0, 0] 1 % 32 = 24 ∧
      byteAt [12, 13, 0, 0] 1 % 32 = 13 ∧ byteAt [12, 25, 0, 0] 1 % 32 = 25 := by decide

/-- R205: 0D 31 selects RV1 with the lever at F; bit 5 of byte 3 acknowledges. -/
theorem test_select_of_cab_frame :
    cabDriveEdges [13, 49, 0, 32] = [.shift (.select (some ⟨.reverse, 1⟩)), .acknowledge] ∧
      (cabDriveFields [13, 49, 0, 32]).lever = .f := by decide

theorem witness_FrameReceivedFiled :
    (linked .active).lc.takesFrames = true ∧ (linked .conflict).lc.takesFrames = true ∧
      (5 * 32 + 3 : BitVec 11).toNat % 32 = (linked .active).lc.sources.own ∧
      (linked .active).lc.quietTimer = none ∧
      (12 * 32 + 4 : BitVec 11).toNat % 32 ≠ (linked .active).lc.sources.own ∧
      consumedGroup ((12 * 32 + 4 : BitVec 11).toNat / 32) = some .cabDrive ∧
      (linked .active).lc.sources.of .cabDrive = some ((12 * 32 + 4 : BitVec 11).toNat % 32) ∧
      ([1, 0, 50, 0] : List Byte).length = peerLength .cabDrive ∧
      consumedGroup ((40 * 32 + 6 : BitVec 11).toNat / 32) = some .service ∧
      consumedGroup ((7 * 32 + 6 : BitVec 11).toNat / 32) = none ∧
      (linked .active).lc.cabDrive.lastActed ≠ some (rollingCount [1, 0, 50, 0]) ∧
      ((linked .active).withLc { (linked .active).lc with quietTimer := some 0 }).lc.quietTimer.isSome = true ∧
      (lit.withMc { lit.mc with step := .quietWait }).mc.step = .quietWait ∧
      (lit.supplyOf .vsb).state = .enabled ∧
      ((linked .active).withLc { (linked .active).lc with cabHitch :=
        { op.lc.cabHitch with lastActed := some 0 } }).lc.cabHitch.lastActed =
          some (rollingCount [0, 0, 0, 0, 0, 0, 0, 0]) := by decide

theorem witness_LinkTimersExpire :
    ((linked .active).withLc { (linked .active).lc with
        engine := { op.lc.engine with fresh := .fresh, since := 100000 } }).lc.freshness .engine = .fresh ∧
      100000 ≤ ((linked .active).withLc { (linked .active).lc with
        engine := { op.lc.engine with fresh := .fresh, since := 100000 } }).lc.since .engine ∧
      ((linked .muted).withLc { (linked .muted).lc with muteTimer := 1000000, received := 16 }).lc.link =
        .muted ∧
      1000000 ≤ ((linked .muted).withLc { (linked .muted).lc with muteTimer := 1000000 }).lc.muteTimer ∧
      500000 ≤ ((linked .listen).withLc { (linked .listen).lc with listen := 500000 }).lc.listen ∧
      modeAllows op.mc.mode op.lc.quiet .identity = true ∧ (linked .listen).lc.queue.length < 8 := by decide

theorem witness_PeriodicFramesMade :
    (linked .active).lc.link = .active ∧ (linked .active).lc.queue.length < 8 ∧
      periodicGroup .motion = true ∧ modeAllows op.mc.mode op.lc.quiet .motion = true ∧
      modeAllows op.mc.mode op.lc.quiet .faultReport = true ∧
      ((linked .active).withLc { (linked .active).lc with motionPage := 2 }).lc.motionPage = 2 ∧
      (linked .active).lc.drivePage ≤ 3 ∧ (linked .active).mc.faults = [] ∧
      (withEntries [stored]).mc.faults.length ≤ 16 ∧
      (withEntries [stored]).mc.faults[if (withEntries [stored]).mc.faults.length ≤
        (withEntries [stored]).lc.cursor then 0 else (withEntries [stored]).lc.cursor]? = some stored ∧
      ((linked .active).withShc { op.shc with torque := some 70 }).shc.torque = some 70 := by decide

/-- An entry of a group. -/
def queued (g : Group) (attempting : Bool) : TxEntry := ⟨g, [0], attempting, false⟩

theorem witness_TransmitAttemptsEnd :
    (∀ x ∈ [queued .motion false, queued .identity false],
        groupNumber Group.motion ≤ groupNumber x.group) ∧
      TransmitQueueWhole ((linked .active).withLc { (linked .active).lc with
        queue := [queued .motion false, queued .identity false] }) ∧
      ((linked .active).withLc { (linked .active).lc with
        attempt := some ⟨.quietNotice, [0]⟩, quietTimer := some 0, errors := 248,
        queue := [queued .quietNotice true] }).lc.attempt = some ⟨.quietNotice, [0]⟩ ∧
      (∃ x ∈ [queued .quietNotice true], x.group = .quietNotice ∧ x.attempting = true ∧ x.replaced = false) ∧
      (lit.withMc { lit.mc with step := .quietWait }).mc.step = .quietWait ∧
      (lit.supplyOf .vsb).state = .enabled ∧ 256 ≤ 248 + 8 ∧ (247 : Nat) + 8 < 256 ∧
      (linked .active).lc.quietTimer = none ∧
      ((linked .active).withLc { (linked .active).lc with quietTimer := some 0 }).lc.quietTimer.isSome =
        true := by
  refine ⟨by decide, ⟨by decide, by decide⟩, by decide, by decide, by decide⟩

theorem witness_ResetWakeAndKey :
    (inMode .dormant).mc.mode = .dormant ∧ (inMode .awakeNoKey).mc.mode = .awakeNoKey ∧
      ((inMode .dormant).withMc { (inMode .dormant).mc with key := some true }).mc.key = some true ∧
      op.mc.key ≠ some true ∧ op.mc.key ≠ some false := by decide

/-- LOADING with the key settled. -/
def loading (key : Bool) : State :=
  (inMode .loading).withMc { (inMode .loading).mc with key := some key }

/-- A slot that passes steps 1 to 3 of R207: the header, thirteen empty sections and the CRC. -/
def slot : List Byte :=
    [17, 13, 1, 2, 0, 47, 0, 0, 1, 0, 0, 2, 0, 0, 3, 0, 0, 4, 0, 0, 5, 0, 0, 6, 0, 0, 7, 0, 0, 8, 0,
    0, 9, 0, 0, 10, 0, 0, 11, 0, 0, 12, 0, 0, 13, 0, 0, 225, 11]

theorem witness_LoadingCompleteTaken_valid : BytesSound slot ∧ SectionsSound image :=
  (Laws.imageValid_iff _ _).1 (by decide +kernel)

theorem witness_LoadingCompleteTaken_limp :
    ¬ BytesSound [] ∧ BytesSound slot ∧ ¬ SectionsSound { image with gears := [] } ∧
      StationsSound { image with gears := [] }.stations ∧ ¬ StationsSound ⟨3, 3, 2, 4, 5, 6⟩ := by
  rw [← Laws.bytesPass_iff, ← Laws.bytesPass_iff, ← Laws.imagePasses_iff, ← Laws.stationsPass_iff,
    ← Laws.stationsPass_iff]
  decide +kernel

/-- R64: the map built from the example table is the shuttle map of its gears. -/
theorem test_shuttle_map_of_example :
    ShuttleMapBuilt image.gears
      ({ op.shc with shuttleMap := buildMap image } : Shc).partner :=
  Laws.shuttleMapBuilt image ((Laws.gearsPass_iff image).1 (by decide +kernel)) _ rfl

theorem witness_LoadingCompleteTaken_slot :
    ((slot ++ [0, 0]).drop ((loading true).mc.slot * 2048)).take 2048 = slot ++ [0, 0] := by decide +kernel

theorem witness_LoadingCompleteTaken :
    (loading true).mc.mode = .loading ∧ (loading true).mc.key = some true ∧
      (loading false).mc.key = some false ∧
      (loading true).lc.link = .offline ∧ ((loading true).supplyOf .vsa).state = .off ∧
      image.sensors.hps.configured = true ∧ blankImage.sensors.hps.configured = false := by decide

theorem witness_RunStopAndQuiet :
    (((inMode .calibrating).withVdb lit.vdb).withMc
        { (inMode .calibrating).mc with windowEnded := true }).mc.windowEnded = true ∧
      (lit.supplyOf .vsb).state = .enabled ∧
      (withCal .done (some 0) false none none 0).sfe.cal.state = .done ∧
      (op.withMc { op.mc with keyOffPending := true }).mc.keyOffPending = true ∧
      op.scu.motion.standstill = true ∧ (steady .inGear none none 0).shc.state ≠ .parked ∧
      op.shc.state = .parked ∧ op.htc.state ≠ .held ∧ op.tbc.state ≠ .breakaway ∧
      TrailerState.parks .ready = true ∧
      ((inMode .stopping).withMc { (inMode .stopping).mc with step := .parkWait }).mc.step = .parkWait ∧
      (linked .active).lc.link = .active ∧ op.lc.link ≠ .active ∧
      ((op.withLc { op.lc with quietTimer := some 200000 }).lc.quietTimer = some 200000) := by decide

theorem witness_DormancyAndSeconds :
    true ≠ (inMode .dormant).pins.coupling ∧ (inMode .dormant).cfg.wakeThreshold ≤ 2 ∧
      (inMode .dormant).cfg.wakeThreshold ≤ 1 ∧ 2 < State.reset.cfg.wakeThreshold ∧
      (inMode .dormant).mc.mode = .dormant ∧ (inMode .awakeNoKey).mc.mode = .awakeNoKey ∧
      op.mc.mode ≠ .dormant ∧ op.mc.mode ≠ .awakeNoKey ∧
      30000000 ≤ ((inMode .awakeNoKey).withMc
        { (inMode .awakeNoKey).mc with wakeTimer := 30000000 }).mc.wakeTimer := by decide

theorem witness_ControlRestartTaken :
    OldestRequest (Request.isService 4) (.service 4 9) [] (op.withRequests [.service 4 9]) ∧
      op.mc.mode = .operating ∧ op.shc.state = .parked ∧ op.scu.motion.standstill = true ∧
      (lit.supplyOf .vsb).state = .enabled ∧ (run 1 0).hsq.state = .running ∧
      ¬((steady .inGear none none 0).shc.state = .parked ∧
        (steady .inGear none none 0).scu.motion.standstill = true) ∧
      (inMode .limp).mc.mode ≠ .operating :=
  ⟨oldest_request _ _ _ rfl, by decide⟩

theorem witness_EveryStepKeepsFaultTable :
    FaultTableWhole (withEntries [stored, ⟨.cfgInvalid, true, false, 1, 0, 0⟩]) ∧
      step (withEntries [stored]) = .next (clockTick (withEntries [stored])) :=
  ⟨⟨by decide, by decide⟩, rfl⟩

theorem witness_EveryStepKeepsQueuesAndRun :
    RequestQueueBounded (op.withShc { op.shc with queue := [⟨.up, 3, .cab⟩] }) ∧
      TransmitQueueWhole (op.withLc { op.lc with queue := [queued .motion false] }) ∧ RunBounded (run 1 0) ∧
      PreselectOnlyInNeutral op ∧ step (run 1 0) = .next (clockTick (run 1 0)) :=
  ⟨⟨by decide, by decide⟩, ⟨by decide, by decide⟩, ⟨by decide, (fun _ => ⟨.entry, rfl, rfl⟩), (fun h => by cases h)⟩,
    (fun h => absurd rfl h), rfl⟩

theorem witness_EveryStepKeepsHitchValves :
    HitchValvesExclusive op ∧ GrantHolds (op.withVdb (withhold true op.vdb)) ∧
      step op = .next (clockTick op) :=
  ⟨Or.inl rfl, ⟨fun _ => ⟨rfl, rfl⟩, fun _ => rfl, fun _ => rfl⟩, rfl⟩

theorem witness_EveryStepKeepsFrontAxle :
    FrontAxleSafe op ∧ step op = .next (clockTick op) :=
  ⟨⟨(fun _ => rfl), (fun _ => rfl), (fun h => by rcases h with h | h <;> cases h), (fun h => by cases h)⟩, rfl⟩

end Sys2Proof.Tests
end

