-- ==== Sys2Proof/Proofs/PulseInputOutput.lean ====
section
/-! SUPPORT. The edges the SCU takes (R3) and the ground-speed pulse output it drives (R19, R20): what each of
their commands does where it acts, and the statements on them. -/

namespace Sys2Proof.Proofs

open Sys2Proof Sys2Proof.Machine

/-! ## An edge at one channel record (R3) -/

theorem edge_without_reference (spacing : Nat) (t : Stamp) (r : PulseRec) (h : r.refPresent = false) :
    r.edge spacing t = { r with refPresent := true, refStamp := t, newest := t, count := 0 } := by
  simp [PulseRec.edge, h]

theorem edge_too_close (spacing : Nat) (t : Stamp) (r : PulseRec) (h : r.refPresent = true)
    (hclose : elapsed t r.newest < spacing) : r.edge spacing t = r := by
  simp [PulseRec.edge, h, hclose]

theorem edge_accepted (spacing : Nat) (t : Stamp) (r : PulseRec) (h : r.refPresent = true)
    (hfar : spacing ≤ elapsed t r.newest) :
    r.edge spacing t = { r with count := r.count + 1, newest := t } := by
  simp [PulseRec.edge, h, Nat.not_lt.mpr hfar]

/-! ## Replacing one channel record -/

theorem chan_withChan_same (s : State) (c : PulseChannel) (r : PulseRec) : (s.withChan c r).chan c = r := by
  simp [State.chan, State.withChan]

theorem chan_withChan_ne (s : State) {c d : PulseChannel} (r : PulseRec) (h : d ≠ c) :
    (s.withChan c r).chan d = s.chan d := by
  simp [State.chan, State.withChan, h]

theorem scu_withChan (s : State) (c : PulseChannel) (r : PulseRec) :
    (s.withChan c r).scu = { s.scu with chans := (s.withChan c r).scu.chans } := rfl

theorem touches_withChan (s : State) (c : PulseChannel) (r : PulseRec) :
    Touches [.scu] s (s.withChan c r) := touches_withScu s _

/-! ## The commands where they act -/

theorem exec_pulseEdge (c : PulseChannel) (s : State) (hrun : s.mc.mode.sensingRuns = true)
    (hfit : s.fitted c = true) :
    exec (.pulseEdge c) s =
      .next (s.withChan c ((s.chan c).edge (s.cfg.pulse.get c).minSpacing s.now)) := by
  change execPulseEdge c s = _
  simp [execPulseEdge, hrun, hfit]

theorem exec_groundPulseTimer (s : State) (hrun : s.mc.mode.sensingRuns = true) :
    exec .groundPulseTimer s = .next (pulseTick s) := by
  change execGroundPulseTimer s = _
  simp [execGroundPulseTimer, hrun]

theorem exec_groundPulseEnd (s : State) (hhigh : s.scu.pulseHigh = true) (hage : 500 ≤ s.scu.pulseAge) :
    exec .groundPulseEnd s = .next (s.withScu { s.scu with pulseHigh := false }) := by
  change execGroundPulseEnd s = _
  simp [execGroundPulseEnd, pulseOver, pulseUs, hhigh, hage]

/-! ## The accumulator (R19) -/

/-- Whether or not a pulse is emitted, one expiry of the output timer writes the SCU alone. -/
theorem touches_pulseTick (s : State) : Touches [.scu] s (pulseTick s) :=
  touches_ite _ (touches_withScu s _) (touches_withScu s _)

/-- The sum reaches the pitch: a pulse begins, and what is left is clamped below two pitches. -/
theorem scu_pulseTick_emit (s : State) (h : s.cfg.pulsePitch ≤ s.scu.acc + s.scu.motion.vGround) :
    (pulseTick s).scu = { s.scu with
      acc := if 2 * s.cfg.pulsePitch ≤ s.scu.acc + s.scu.motion.vGround - s.cfg.pulsePitch
        then s.cfg.pulsePitch - 1 else s.scu.acc + s.scu.motion.vGround - s.cfg.pulsePitch
      pulseHigh := true
      pulseAge := 0 } := by
  simp [pulseTick, accumulate, h]

/-- The sum stays below the pitch: it is kept, and the output and its age are left as they are. -/
theorem scu_pulseTick_keep (s : State) (h : ¬ s.cfg.pulsePitch ≤ s.scu.acc + s.scu.motion.vGround) :
    (pulseTick s).scu = { s.scu with
      acc := if 2 * s.cfg.pulsePitch ≤ s.scu.acc + s.scu.motion.vGround
        then s.cfg.pulsePitch - 1 else s.scu.acc + s.scu.motion.vGround } := by
  simp [pulseTick, accumulate, h]

/-! ## The statements -/

/-- Settles O13: the three cases of R3 on the record of the channel, and the frame of one record replaced. -/
theorem pulseEdgeTaken : Obligations.PulseEdgeTaken := by
  intro c s hrun hfit
  refine ⟨_, exec_pulseEdge c s hrun hfit, ?noReference, ?ignored, ?accepted,
    fun d hd => chan_withChan_ne s _ hd, scu_withChan s c _, touches_withChan s c _⟩
  all_goals rw [chan_withChan_same]
  case noReference => exact edge_without_reference _ _ _
  case ignored => exact edge_too_close _ _ _
  case accepted => exact edge_accepted _ _ _

/-- Settles O17, by whether the sum reaches the pitch; the end of a pulse is one write of the output. -/
theorem groundPulseOutput : Obligations.GroundPulseOutput := by
  intro s
  constructor
  · rintro hrun pitch sum rest rfl rfl rfl
    refine ⟨pulseTick s, exec_groundPulseTimer s hrun, ?_, touches_pulseTick s⟩
    by_cases h : s.cfg.pulsePitch ≤ s.scu.acc + s.scu.motion.vGround
    · simp only [h, if_true]
      exact scu_pulseTick_emit s h
    · simp only [h, if_false]
      exact scu_pulseTick_keep s h
  · intro hhigh hage
    exact ⟨_, exec_groundPulseEnd s hhigh hage, rfl, touches_withScu s _⟩

end Sys2Proof.Proofs
end

