-- ==== Sys2Proof/Proofs/ClockTick.lean ====
section
/-! SUPPORT. One modulator clock on an empty queue (log 2): what it leaves of the state within a microsecond
and at its end, what a microsecond does to each record with a timer (log 14), and the statement on them. -/

namespace Sys2Proof.Proofs

open Sys2Proof Sys2Proof.Machine

/-! ## The bits of one clock (R27) -/

/-- The channels' bits write the SFE alone. -/
theorem clockSensors_eq_withSfe (s : State) : clockSensors s = s.withSfe (clockSensors s).sfe := by
  unfold clockSensors
  split <;> rfl

/-- The clock line is held idle where the SFE is stopped, and no channel takes a bit. -/
theorem clockSensors_of_stopped {s : State} (h : s.mc.mode.sensingRuns = false) : clockSensors s = s := by
  simp [clockSensors, State.clockDriven, h]

/-! ## The whole clock -/

/-- A clock within a microsecond moves the clock and its place in the microsecond on, and no timer. -/
theorem clockTick_of_within {s : State} (h : s.sub + 1 < 5) :
    clockTick s = { s with clock := s.clock + 1, sub := s.sub + 1, sfe := (clockSensors s).sfe } := by
  unfold clockTick
  rw [clockSensors_eq_withSfe s]
  exact if_pos h

/-- A clock that ends a microsecond is that microsecond on the state with the clock's bits. -/
theorem clockTick_of_end {s : State} (h : ¬ s.sub + 1 < 5) :
    clockTick s =
      microTick { s with clock := s.clock + 1, sub := 0, sfe := (clockSensors s).sfe } := by
  unfold clockTick
  rw [clockSensors_eq_withSfe s]
  exact if_neg h

theorem clockTick_clock (s : State) : (clockTick s).clock = s.clock + 1 := by
  by_cases h : s.sub + 1 < 5
  · rw [clockTick_of_within h]
  · rw [clockTick_of_end h]; rfl

theorem clockTick_sub (s : State) : (clockTick s).sub = if s.sub + 1 < 5 then s.sub + 1 else 0 := by
  by_cases h : s.sub + 1 < 5
  · rw [clockTick_of_within h, if_pos h]
  · rw [clockTick_of_end h, if_neg h]; rfl

theorem clockTick_now (s : State) : (clockTick s).now = if s.sub + 1 < 5 then s.now else s.now + 1 := by
  by_cases h : s.sub + 1 < 5
  · rw [clockTick_of_within h, if_pos h]
  · rw [clockTick_of_end h, if_neg h]; rfl

theorem clockTick_sfe (s : State) : (clockTick s).sfe = (clockSensors s).sfe := by
  by_cases h : s.sub + 1 < 5
  · rw [clockTick_of_within h]
  · rw [clockTick_of_end h]; rfl

/-! ## Frames -/

/-- Whatever the clock, the place in the microsecond and the SFE become, no other part is written. -/
theorem touches_clock_sub_sfe (s : State) (clock sub : Nat) (x : Sfe) :
    Touches [.clock, .sub, .sfe] s { s with clock := clock, sub := sub, sfe := x } := by
  intro p hp
  cases p
  case clock | sub | sfe => exact absurd (by decide) hp
  all_goals rfl

/-- A microsecond writes the count and the blocks that keep a one-shot timer. -/
theorem touches_microTick (s : State) : Touches [.now, .scu, .vdb, .shc, .lc, .mc] s (microTick s) := by
  intro p hp
  cases p
  case now | scu | vdb | shc | lc | mc => exact absurd (by decide) hp
  all_goals rfl

theorem touches_clockTick_of_within {s : State} (h : s.sub + 1 < 5) :
    Touches [.clock, .sub, .sfe] s (clockTick s) := by
  rw [clockTick_of_within h]
  exact touches_clock_sub_sfe s _ _ _

/-- A clock at the end of a microsecond writes what its bits write and what the microsecond writes. -/
theorem touches_clockTick_of_end {s : State} (h : ¬ s.sub + 1 < 5) :
    Touches [.now, .clock, .sub, .scu, .sfe, .vdb, .shc, .lc, .mc] s (clockTick s) := by
  rw [clockTick_of_end h]
  exact ((touches_clock_sub_sfe s _ _ _).then (touches_microTick _)).mono (by decide)

/-! ## A microsecond at each record (log 14) -/

/-- The age of a pulse counts while the pulse is high (R20). -/
theorem scu_micro (x : Scu) :
    x.micro = { x with pulseAge := if x.pulseHigh = true then min 500 (x.pulseAge + 1) else x.pulseAge } := by
  unfold Scu.micro
  split <;> rfl

/-- A retry timer runs while its supply is RISING or ENABLED (R56). -/
theorem runsRetry_iff (x : SupplyState) : x.runsRetry = true ↔ x = .rising ∨ x = .enabled := by
  cases x <;> decide

theorem outRec_micro (x : SupplyState) (r : OutRec) :
    r.micro x = { r with
      window := r.window.map fun w => min 100000 (w + 1)
      pullIn := r.pullIn.map fun p => min 100000 (p + 1)
      retryTimer := if r.short = .retry ∧ r.window = none ∧ (x = .rising ∨ x = .enabled)
        then min 1000000 (r.retryTimer + 1) else r.retryTimer } := by
  unfold OutRec.micro
  simp only [runsRetry_iff]
  rfl

/-- The settle timer counts in RISING and in FALLING, each to its own end (R55). -/
theorem supplyRec_micro (r : SupplyRec) :
    r.micro = { r with
      settle := if r.state = .rising then min 20000 (r.settle + 1)
        else if r.state = .falling then min 10000 (r.settle + 1) else r.settle } := by
  obtain ⟨state, settle, pendingOn⟩ := r
  cases state <;> rfl

theorem microTick_out (s : State) (o : Output) :
    (microTick s).out o = (s.out o).micro (s.supplyOf o.supply).state :=
  OutputTable.get_map _ _ o

theorem microTick_supplyOf (s : State) (x : Supply) : (microTick s).supplyOf x = (s.supplyOf x).micro :=
  SupplyTable.get_map _ _ x

/-- The pedal hold stands with the controllers' timers (R94, R211). -/
theorem shc_micro_stopped (k : Shc) : k.micro false = k := rfl

theorem shc_micro_running (k : Shc) :
    k.micro true = { k with pedalHold := k.pedalHold.map fun p => min 1000000 (p + 1) } := rfl

/-- The wake timer counts in AWAKE_NO_KEY (R211). -/
theorem mc_micro (x : Mc) :
    x.micro = { x with
      wakeTimer := if x.mode = .awakeNoKey then min 30000000 (x.wakeTimer + 1) else x.wakeTimer } := by
  unfold Mc.micro
  split <;> rfl

/-! ## The statement -/

/-- Settles O3: the clock, its place in the microsecond and the SFE at every clock, and at the end of a
microsecond the rule of each record with a timer. -/
theorem emptyQueueIsOneClock : Obligations.EmptyQueueIsOneClock := by
  intro s hempty
  have hstep : step s = .next (clockTick s) := by simp [step, hempty]
  refine ⟨clockTick s, hstep, clockTick_clock s, clockTick_sub s, clockTick_now s, ?stopped,
    touches_clockTick_of_within, ?microsecond⟩
  case stopped =>
    intro hstopped
    rw [clockTick_sfe, clockSensors_of_stopped hstopped]
  case microsecond =>
    intro hend
    have hframe := touches_clockTick_of_end hend
    rw [clockTick_of_end hend] at hframe ⊢
    refine ⟨?outputs, ?supplies, rfl, scu_micro s.scu, ?shcStopped, ?shcRuns, rfl, rfl, rfl, rfl, rfl,
      fun g => ⟨Lc.micro_freshness s.lc g, Lc.micro_since s.lc g⟩, mc_micro s.mc, hframe⟩
    case outputs =>
      rintro o x rfl
      rw [microTick_out]
      exact outRec_micro _ _
    case supplies =>
      intro x
      rw [microTick_supplyOf]
      exact supplyRec_micro _
    case shcStopped =>
      intro hstopped
      change s.shc.micro s.mc.mode.controllersRun = _
      rw [hstopped]
      exact shc_micro_stopped _
    case shcRuns =>
      intro hruns
      change s.shc.micro s.mc.mode.controllersRun = _
      rw [hruns]
      exact shc_micro_running _

end Sys2Proof.Proofs
end

