-- ==== Sys2Proof/Proofs/AdaptationReset.lean ====
section
/-! SUPPORT. The answer to a service request (R194), the reset of the learned fill times (R82), and the statement
on them. -/

namespace Sys2Proof.Proofs

open Sys2Proof Sys2Proof.Machine

/-! ## The answer (R189, R194, R198) -/

/-- A queue with room holds a placed frame's data, in the group's entry or behind the others. -/
theorem exists_mem_placeFrame (g : Group) (d : List Byte) {q : List TxEntry} (hroom : q.length < maxQueue) :
    ∃ x ∈ placeFrame g d q, x.group = g ∧ x.data = d := by
  unfold placeFrame
  by_cases hheld : (q.any fun x => x.group = g) = true
  · obtain ⟨x, hx, hg⟩ := List.any_eq_true.mp hheld
    have hg : x.group = g := of_decide_eq_true hg
    rw [if_pos hheld]
    exact ⟨_, List.mem_map_of_mem hx, by simp [hg], by simp [hg]⟩
  · rw [if_neg hheld, if_pos hroom]
    exact ⟨_, List.mem_append_right _ (List.mem_singleton_self _), rfl, rfl⟩

/-- The link and the mode as they stood before a request was taken decide whether its answer is made, and the
queue and the send count that it is offered to are those of then. -/
theorem answered_serviceAnswer (code tag : Byte) (r : ServiceResult) (why : ServiceReason) {s u : State}
    (hlc : u.lc = s.lc) (hmc : u.mc = s.mc) : Answered code tag r why s (serviceAnswer code tag r why u) := by
  intro hmake hroom
  have hmake' : u.mayMake .serviceResult = true := by
    rw [← hmake]
    unfold State.mayMake
    rw [hlc, hmc]
  simp only [serviceAnswer, makeFrame, hmake', if_true, Queued, State.withLc_lc, hlc]
  exact exists_mem_placeFrame _ _ (Nat.lt_succ_of_lt hroom)

/-- An answer to a request just taken writes the link and the requests that wait. -/
theorem touches_answer_of_taken (code tag : Byte) (r : ServiceResult) (why : ServiceReason) (s : State)
    (rest : List Request) : Touches [.lc, .requests] s (serviceAnswer code tag r why (s.withRequests rest)) :=
  ((touches_withRequests s rest).then (touches_serviceAnswer code tag r why _)).mono (by decide)

@[simp] theorem serviceAnswer_shc (code tag : Byte) (r : ServiceResult) (why : ServiceReason) (s : State) :
    (serviceAnswer code tag r why s).shc = s.shc := touches_serviceAnswer code tag r why s .shc (by decide)

@[simp] theorem serviceAnswer_requests (code tag : Byte) (r : ServiceResult) (why : ServiceReason) (s : State) :
    (serviceAnswer code tag r why s).requests = s.requests :=
  touches_serviceAnswer code tag r why s .requests (by decide)

/-! ## Learned fill times (R82) -/

theorem clutch_withClutch (s : State) (x y : Clutch) (r : ClutchRec) :
    (s.withClutch y r).clutch x = if x = y then r else s.clutch x := by
  simp [State.clutch, State.withClutch]

/-- A clutch of the list takes its configured fill time, and no other clutch changes. -/
theorem clutch_resetLearned (l : List Clutch) (s : State) (x : Clutch) :
    (overClutches resetLearned l s).clutch x =
      if x ∈ l then { s.clutch x with learned := (s.cfg.clutches.get x).fillTime } else s.clutch x := by
  induction l generalizing s with
  | nil => rfl
  | cons y l ih =>
    change (overClutches resetLearned l (resetLearned s y)).clutch x = _
    have hcfg : (resetLearned s y).cfg = s.cfg := rfl
    have hy : (resetLearned s y).clutch x =
        if x = y then { s.clutch y with learned := (s.cfg.clutches.get y).fillTime } else s.clutch x :=
      clutch_withClutch s x y _
    rw [ih, hcfg, hy]
    by_cases hxy : x = y
    · subst hxy
      by_cases hx : x ∈ l <;> simp [hx]
    · simp [hxy]

theorem shc_resetLearned (l : List Clutch) (s : State) :
    (overClutches resetLearned l s).shc =
      { s.shc with clutches := (overClutches resetLearned l s).shc.clutches } := by
  induction l generalizing s with
  | nil => rfl
  | cons y l ih => exact ih (resetLearned s y)

theorem touches_resetLearned (l : List Clutch) (s : State) :
    Touches [.shc] s (overClutches resetLearned l s) :=
  touches_foldl resetLearned (fun s _ => touches_withShc s _) l s

/-! ## The commands on the request they take -/

theorem exec_resetAdaptation {tag : Byte} {rest : List Request} {s : State}
    (h : OldestRequest (Request.isService 2) (.service 2 tag) rest s) :
    exec .resetAdaptation s = .next (resetAdaptation tag (s.withRequests rest)) := by
  change execResetAdaptation s = _
  simp only [execResetAdaptation, codeResetAdaptation, takeRequest_oldest h]

theorem exec_serviceRequestUnknown {code tag : Byte} {rest : List Request} {s : State}
    (h : OldestRequest Request.isUnknown (.service code tag) rest s) :
    exec .serviceRequestUnknown s =
      .next (serviceAnswer code tag .refused .unknown (s.withRequests rest)) := by
  change execServiceRequestUnknown s = _
  simp only [execServiceRequestUnknown, takeRequest_oldest h]

theorem resetAdaptation_of_rest (tag : Byte) {s : State} (hmode : s.mc.mode = .operating)
    (hrest : s.shc.state.resting = true) :
    resetAdaptation tag s =
      serviceAnswer codeResetAdaptation tag .done .none (overClutches resetLearned Clutch.all s) :=
  if_pos ⟨hmode, hrest⟩

theorem resetAdaptation_of_busy (tag : Byte) {s : State}
    (h : s.mc.mode ≠ .operating ∨ s.shc.state.resting = false) :
    resetAdaptation tag s = serviceAnswer codeResetAdaptation tag .refused .busy s :=
  if_neg fun ⟨hmode, hrest⟩ => h.elim (fun k => k hmode) fun k => by simp [k] at hrest

/-- Whether carried out or refused, the request has left the list. -/
theorem requests_resetAdaptation (tag : Byte) (s : State) :
    (resetAdaptation tag s).requests = s.requests := by
  unfold resetAdaptation
  split
  · rw [serviceAnswer_requests]
    exact touches_resetLearned _ s .requests (by decide)
  · exact serviceAnswer_requests ..

/-! ## The statement -/

/-- Settles O33, by whether the gearbox rests in OPERATING; what is in no block's list of codes is refused. -/
theorem adaptationResetAndUnknownCodes : Obligations.AdaptationResetAndUnknownCodes := by
  intro code tag rest s
  constructor
  · rintro - hold
    refine ⟨_, exec_resetAdaptation hold, requests_resetAdaptation tag _, ?carriedOut, ?refused⟩
    case carriedOut =>
      intro hmode hstate
      have hrest : (s.withRequests rest).shc.state.resting = true := by
        rcases hstate with h | h | h | h <;> simp [h, GearState.resting]
      rw [resetAdaptation_of_rest tag (s := s.withRequests rest) hmode hrest]
      have hframe := touches_resetLearned Clutch.all (s.withRequests rest)
      refine ⟨fun x => ?_, ?_,
        answered_serviceAnswer _ _ _ _ (hframe .lc (by decide)) (hframe .mc (by decide)),
        (((touches_withRequests s rest).then hframe).then (touches_serviceAnswer _ _ _ _ _)).mono (by decide)⟩
      · have hx := clutch_resetLearned Clutch.all (s.withRequests rest) x
        rw [if_pos (Clutch.mem_all x)] at hx
        simp only [State.clutch, serviceAnswer_shc]
        exact hx
      · rw [serviceAnswer_shc]
        exact shc_resetLearned Clutch.all (s.withRequests rest)
    case refused =>
      intro h
      have hbusy : s.mc.mode ≠ .operating ∨ s.shc.state.resting = false := by
        rcases h with h | h | h | h
        · exact .inl h
        all_goals exact .inr (by simp [h, GearState.resting])
      rw [resetAdaptation_of_busy tag (s := s.withRequests rest) hbusy]
      exact ⟨answered_serviceAnswer _ _ _ _ rfl rfl, touches_answer_of_taken _ _ _ _ s rest⟩
  · intro _ _ _ _ hold
    exact ⟨_, exec_serviceRequestUnknown hold, serviceAnswer_requests ..,
      answered_serviceAnswer _ _ _ _ rfl rfl, touches_answer_of_taken _ _ _ _ s rest⟩

end Sys2Proof.Proofs
end

