-- ==== Sys2Proof/Proofs/QueueBounds.lean ====
section
/-! SUPPORT. The transmit queue (R198, R199) and the request queue (R70) as lists: what placing a frame and offering
a request do to their bounds. -/

namespace Sys2Proof.Proofs

open Sys2Proof Sys2Proof.Machine

/-! ## The transmit queue as a list (R198, R199) -/

/-- `TransmitQueueWhole` of the list alone. -/
def FramesWhole (q : List TxEntry) : Prop := q.length ≤ 8 ∧ (q.map fun e => e.group).Nodup

theorem transmitQueueWhole_iff (s : State) : TransmitQueueWhole s ↔ FramesWhole s.lc.queue := Iff.rfl

theorem framesWhole_nil : FramesWhole [] := ⟨by decide, by decide⟩

/-- Whatever becomes of the entries, a queue stays whole while each keeps its group. -/
theorem FramesWhole.map {q : List TxEntry} (h : FramesWhole q) (f : TxEntry → TxEntry)
    (hf : ∀ x, (f x).group = x.group) : FramesWhole (q.map f) := by
  have hgroups : (q.map f).map (fun e => e.group) = q.map fun e => e.group := by simp [hf]
  exact ⟨by rw [List.length_map]; exact h.1, by rw [hgroups]; exact h.2⟩

theorem FramesWhole.filter {q : List TxEntry} (h : FramesWhole q) (p : TxEntry → Bool) :
    FramesWhole (q.filter p) :=
  ⟨(List.length_filter_le p q).trans h.1, h.2.sublist ((List.filter_sublist).map _)⟩

/-- A new group behind a queue with room. -/
theorem FramesWhole.append {q : List TxEntry} (h : FramesWhole q) (e : TxEntry) (hroom : q.length < 8)
    (hnew : ∀ x ∈ q, x.group ≠ e.group) : FramesWhole (q ++ [e]) := by
  refine ⟨by simpa using hroom, ?_⟩
  rw [List.map_append]
  refine List.nodup_append.mpr ⟨h.2, List.nodup_singleton _, ?_⟩
  intro g hg k hk
  obtain ⟨x, hx, rfl⟩ := List.mem_map.mp hg
  rw [List.mem_singleton.mp hk]
  exact hnew x hx

/-- A fold that keeps what it has or takes the element at hand ends with what it began with or with an
element. -/
theorem foldl_eq_init_or_mem {α : Type} {f : Option α → α → Option α}
    (hf : ∀ best a, f best a = best ∨ f best a = some a) (l : List α) (best : Option α) :
    l.foldl f best = best ∨ ∃ a ∈ l, l.foldl f best = some a := by
  induction l generalizing best with
  | nil => exact .inl rfl
  | cons a l ih =>
    rcases ih (f best a) with h | ⟨b, hb, h⟩
    · rcases hf best a with k | k
      · exact .inl (h.trans k)
      · exact .inr ⟨a, List.mem_cons_self, h.trans k⟩
    · exact .inr ⟨b, List.mem_cons_of_mem _ hb, h⟩

theorem mem_of_foldl_eq_some {α : Type} {f : Option α → α → Option α}
    (hf : ∀ best a, f best a = best ∨ f best a = some a) {l : List α} {x : α}
    (h : l.foldl f none = some x) : x ∈ l := by
  rcases foldl_eq_init_or_mem hf l none with k | ⟨a, ha, k⟩
  · exact absurd (h.symm.trans k) (by simp)
  · rwa [Option.some.inj (h.symm.trans k)]

/-- The entry that gives way to an event-type frame stands in the queue. -/
theorem mem_of_displaced {q : List TxEntry} {x : TxEntry} (h : displaced q = some x) : x ∈ q := by
  refine mem_of_foldl_eq_some (fun best e => ?_) h
  repeat' split
  all_goals simp

/-- A queue that gives up one of its groups has room. -/
theorem length_filter_group_lt {q : List TxEntry} {x : TxEntry} (hx : x ∈ q) :
    (q.filter fun y => y.group ≠ x.group).length < q.length :=
  List.length_filter_lt_length_iff_exists.mpr ⟨x, hx, by simp⟩

/-- The three ways a made frame is placed: into its group's entry, behind the others, or for another. -/
theorem framesWhole_placeFrame (g : Group) (d : List Byte) {q : List TxEntry} (h : FramesWhole q) :
    FramesWhole (placeFrame g d q) := by
  unfold placeFrame
  split
  case isTrue => exact h.map _ fun x => by split <;> rfl
  case isFalse hheld =>
    have hnew : ∀ x ∈ q, x.group ≠ g := by simpa using hheld
    split
    case isTrue hroom => exact h.append _ hroom hnew
    case isFalse =>
      split
      case isTrue => exact h
      case isFalse =>
        split
        next x hx =>
          exact (h.filter _).append _ ((length_filter_group_lt (mem_of_displaced hx)).trans_le h.1)
            fun y hy => hnew y (List.mem_of_mem_filter hy)
        next => exact h

/-! ## The request queue as a list (R70) -/

/-- `RequestQueueBounded` of the list alone. -/
def RequestsBounded (q : List QueueEntry) : Prop := q.length ≤ 4 ∧ ∀ e ∈ q, 1 ≤ e.steps ∧ e.steps ≤ 3

theorem requestQueueBounded_iff (s : State) : RequestQueueBounded s ↔ RequestsBounded s.shc.queue := Iff.rfl

theorem requestsBounded_nil : RequestsBounded [] := ⟨by decide, by simp⟩

theorem RequestsBounded.append {q : List QueueEntry} (h : RequestsBounded q) (e : QueueEntry)
    (hroom : q.length < 4) (he : 1 ≤ e.steps ∧ e.steps ≤ 3) : RequestsBounded (q ++ [e]) := by
  refine ⟨by simpa using hroom, fun x hx => ?_⟩
  rcases List.mem_append.mp hx with hx | hx
  · exact h.2 x hx
  · rwa [List.mem_singleton.mp hx]

theorem RequestsBounded.dropLast {q : List QueueEntry} (h : RequestsBounded q) : RequestsBounded q.dropLast :=
  ⟨by have := h.1; rw [List.length_dropLast]; omega, fun e he => h.2 e (List.mem_of_mem_dropLast he)⟩

theorem RequestsBounded.tail {e : QueueEntry} {q : List QueueEntry} (h : RequestsBounded (e :: q)) :
    RequestsBounded q :=
  ⟨(Nat.le_succ _).trans h.1, fun x hx => h.2 x (List.mem_cons_of_mem _ hx)⟩

/-- The last entry of a bounded queue replaced. -/
theorem RequestsBounded.replaceLast {q : List QueueEntry} (h : RequestsBounded q) (hne : q ≠ [])
    (e : QueueEntry) (he : 1 ≤ e.steps ∧ e.steps ≤ 3) : RequestsBounded (q.dropLast ++ [e]) := by
  refine h.dropLast.append e ?_ he
  have hpos := List.length_pos_iff.mpr hne
  have := h.1
  rw [List.length_dropLast]
  omega

/-- The five ways a request is taken in: alone, merged, behind the others, cancelled, shortened. -/
theorem requestsBounded_offer {kind : ShiftKind} {who : Origin} {q r : List QueueEntry}
    (h : RequestsBounded q) (hr : offer kind who q = some r) : RequestsBounded r := by
  have hone : (1 : Nat) ≤ 1 ∧ 1 ≤ 3 := by decide
  unfold offer at hr
  split at hr
  next =>
    obtain rfl := Option.some.inj hr
    exact requestsBounded_nil.append _ (by decide) hone
  next tail htail =>
    have hne : q ≠ [] := by rintro rfl; simp at htail
    obtain ⟨hlow, hhigh⟩ := h.2 tail (List.mem_of_getLast? htail)
    split at hr
    case isTrue =>
      split at hr
      case isTrue hmerge =>
        obtain rfl := Option.some.inj hr
        exact h.replaceLast hne _ ⟨Nat.succ_pos _, hmerge⟩
      case isFalse =>
        split at hr
        case isTrue hroom =>
          obtain rfl := Option.some.inj hr
          exact h.append _ hroom hone
        case isFalse => simp at hr
    case isFalse =>
      split at hr
      case isTrue =>
        obtain rfl := Option.some.inj hr
        exact h.dropLast
      case isFalse hmore =>
        obtain rfl := Option.some.inj hr
        exact h.replaceLast hne _ ⟨by dsimp only; omega, by dsimp only; omega⟩

end Sys2Proof.Proofs
end

