-- ==== Sys2Proof/Proofs/BoundsSpared.lean ====
section
/-! SUPPORT. A relation for the changes that the bounds on the two queues, the headland run and PRESELECT's gear
are not about, and its rules: replacing a block, the fault table, frames, outputs, and every operation of the
blocks but the gearbox's changes of state, the run's own and the modes'. -/

namespace Sys2Proof.Proofs

open Sys2Proof Sys2Proof.Machine

/-- From `s` to `t` the gearbox state, PRESELECT's gear, the place of the run in its list, the image and the
mode stand, and the two queues keep their bounds. -/
structure Spares (s t : State) : Prop where
  gearbox : t.shc.state = s.shc.state
  preselect : t.shc.preselect = s.shc.preselect
  run : t.hsq.state = s.hsq.state
  list : t.hsq.kind = s.hsq.kind
  count : t.hsq.stepCount = s.hsq.stepCount
  index : t.hsq.index = s.hsq.index
  image : t.cfg = s.cfg
  mode : t.mc.mode = s.mc.mode
  requests : RequestQueueBounded s → RequestQueueBounded t
  frames : TransmitQueueWhole s → TransmitQueueWhole t

namespace Spares

variable {s t u : State}

protected theorem refl (s : State) : Spares s s := ⟨rfl, rfl, rfl, rfl, rfl, rfl, rfl, rfl, id, id⟩

protected theorem trans (h : Spares s t) (k : Spares t u) : Spares s u where
  gearbox := k.gearbox.trans h.gearbox
  preselect := k.preselect.trans h.preselect
  run := k.run.trans h.run
  list := k.list.trans h.list
  count := k.count.trans h.count
  index := k.index.trans h.index
  image := k.image.trans h.image
  mode := k.mode.trans h.mode
  requests := k.requests ∘ h.requests
  frames := k.frames ∘ h.frames

protected theorem ite {c : Prop} [Decidable c] (h : Spares s t) (k : Spares s u) :
    Spares s (if c then t else u) := by
  split
  · exact h
  · exact k

protected theorem foldl {α : Type} {f : State → α → State} (hf : ∀ (t : State) (a : α), Spares t (f t a))
    (l : List α) (h : Spares s t) : Spares s (l.foldl f t) := by
  induction l generalizing t with
  | nil => exact h
  | cons a l ih => exact ih (h.trans (hf t a))

/-! ## Replacing a block -/

section
variable (h : Spares s t)
include h

protected theorem withScu (x : Scu) : Spares s (t.withScu x) := { h with }
protected theorem withSfe (x : Sfe) : Spares s (t.withSfe x) := { h with }
protected theorem withVdb (x : Vdb) : Spares s (t.withVdb x) := { h with }
protected theorem withFdc (x : Fdc) : Spares s (t.withFdc x) := { h with }
protected theorem withHtc (x : Htc) : Spares s (t.withHtc x) := { h with }
protected theorem withTbc (x : Tbc) : Spares s (t.withTbc x) := { h with }
protected theorem withEvents (x : List Delivery) : Spares s (t.withEvents x) := { h with }
protected theorem withRequests (x : List Request) : Spares s (t.withRequests x) := { h with }
protected theorem withPins (x : Pins) : Spares s (t.withPins x) := { h with }

/-- A gearbox record in the same state, with the same PRESELECT, and a queue that keeps its bound. -/
protected theorem withShcQueue (x : Shc)
    (hsame : (x.state, x.preselect) = (t.shc.state, t.shc.preselect))
    (hqueue : RequestsBounded t.shc.queue → RequestsBounded x.queue) : Spares s (t.withShc x) :=
  { h with
    gearbox := (congrArg Prod.fst hsame).trans h.gearbox
    preselect := (congrArg Prod.snd hsame).trans h.preselect
    requests := fun k =>
      (requestQueueBounded_iff _).mpr (hqueue ((requestQueueBounded_iff t).mp (h.requests k))) }

protected theorem withShc (x : Shc)
    (hsame : (x.state, x.preselect, x.queue) = (t.shc.state, t.shc.preselect, t.shc.queue)) :
    Spares s (t.withShc x) := by
  simp only [Prod.mk.injEq] at hsame
  obtain ⟨hstate, hpre, hqueue⟩ := hsame
  exact h.withShcQueue x (by rw [hstate, hpre]) (by rw [hqueue]; exact id)

/-- A run record at the same place of the same list. -/
protected theorem withHsq (x : Hsq)
    (hsame : (x.state, x.kind, x.stepCount, x.index) =
      (t.hsq.state, t.hsq.kind, t.hsq.stepCount, t.hsq.index)) : Spares s (t.withHsq x) := by
  simp only [Prod.mk.injEq] at hsame
  obtain ⟨hstate, hkind, hcount, hindex⟩ := hsame
  exact { h with
    run := hstate.trans h.run
    list := hkind.trans h.list
    count := hcount.trans h.count
    index := hindex.trans h.index }

/-- A link record with a transmit queue that keeps its bound. -/
protected theorem withLcQueue (x : Lc) (hqueue : FramesWhole t.lc.queue → FramesWhole x.queue) :
    Spares s (t.withLc x) :=
  { h with
    frames := fun k => (transmitQueueWhole_iff _).mpr (hqueue ((transmitQueueWhole_iff t).mp (h.frames k))) }

protected theorem withLc (x : Lc) (hsame : x.queue = t.lc.queue) : Spares s (t.withLc x) :=
  h.withLcQueue x (by rw [hsame]; exact id)

protected theorem withMc (x : Mc) (hmode : x.mode = t.mc.mode) : Spares s (t.withMc x) :=
  { h with mode := hmode.trans h.mode }

/-! ## The fault table, events and requests -/

protected theorem withFaults (x : FaultTable) : Spares s (t.withFaults x) := h.withMc _ (by rfl)
protected theorem raise (c : FaultCode) : Spares s (raise c t) := h.withMc _ (by rfl)
protected theorem raiseLatched (c : FaultCode) : Spares s (raiseLatched c t) := h.withMc _ (by rfl)
protected theorem clearFault (c : FaultCode) : Spares s (clearFault c t) := h.withMc _ (by rfl)
protected theorem latchFault (c : FaultCode) : Spares s (latchFault c t) := h.withMc _ (by rfl)
protected theorem deliver (x : Sensor) (ev : SfeEvent) (v : Int) : Spares s (deliver x ev v t) :=
  h.withEvents _
protected theorem dropUntaken : Spares s (dropUntaken t) := (h.withEvents _).withRequests _

protected theorem takeEvent {o : Owner} {x : Sensor} {ev : SfeEvent} (k : takeEvent o x t = some (ev, u)) :
    Spares s u := by
  unfold Machine.takeEvent at k
  split at k
  · obtain ⟨-, rfl⟩ := Prod.mk.inj (Option.some.inj k)
    exact h.withEvents _
  · simp at k

protected theorem takeRequest {p : Request → Bool} {r : Request} (k : takeRequest p t = some (r, u)) :
    Spares s u := by
  unfold Machine.takeRequest at k
  split at k
  · obtain ⟨-, rfl⟩ := Prod.mk.inj (Option.some.inj k)
    exact h.withRequests _
  · simp at k

/-! ## The part's own frames (R195, R198) -/

protected theorem makeFrame (g : Group) (d : List Byte) : Spares s (makeFrame g d t) :=
  .ite (h.withLcQueue _ fun k => framesWhole_placeFrame _ _ k) h

protected theorem nextPage (g : Group) : Spares s (nextPage g t) := by
  cases g
  case motion | driveHitch | faultReport => exact h.withLc _ (by rfl)
  all_goals exact h

protected theorem publish (g : Group) : Spares s (publish g t) := .ite ((h.makeFrame _ _).nextPage _) h

protected theorem serviceAnswer (code tag : Byte) (r : ServiceResult) (why : ServiceReason) :
    Spares s (serviceAnswer code tag r why t) := h.makeFrame _ _

/-! ## The valve driver bank (03) -/

protected theorem withOut (o : Output) (r : OutRec) : Spares s (t.withOut o r) := h.withVdb _
protected theorem withSupply (x : Supply) (r : SupplyRec) : Spares s (t.withSupply x r) := h.withVdb _
protected theorem writeCommand (o : Output) (v : Nat) : Spares s (writeCommand o v t) := .ite h (h.withVdb _)
protected theorem setOpen (o : Output) : Spares s (setOpen o t) := (h.withOut _ _).raise _
protected theorem clearOpen (o : Output) : Spares s (clearOpen o t) := (h.withOut _ _).clearFault _

protected theorem senseOne (samples : OutputTable CoilSample) (o : Output) :
    Spares s (senseOne samples t o) :=
  have hm := h.withOut o { t.out o with measured := sampled (t.out o) (samples.get o) }
  have hc := hm.withOut o _
  .ite (.ite (.ite (hc.setOpen o) (.ite (hc.clearOpen o) hc)) hm) (h.withOut _ _)

protected theorem trip (o : Output) : Spares s (trip o t) := by
  unfold Machine.trip
  dsimp only
  split
  · exact (h.withVdb _).raise _
  · exact .ite (.ite (((h.withVdb _).raise _).latchFault _) ((h.withVdb _).raise _)) h
  · exact h

protected theorem openWindow (o : Output) : Spares s (openWindow o t) := h.withVdb _
protected theorem endRetry (o : Output) : Spares s (endRetry o t) := (h.withVdb _).clearFault _

protected theorem rearm (o : Output) : Spares s (rearm t o) :=
  have hc := (h.withVdb _).clearFault (.outShort o)
  .ite (.ite (hc.trip o) hc) h

protected theorem releaseOutputs : Spares s (releaseOutputs t) :=
  h.foldl (fun t o => (Spares.refl t).rearm o) _

protected theorem onRequest (x : Supply) : Spares s (onRequest x t) := by
  unfold Machine.onRequest
  dsimp only
  split
  case h_1 | h_2 => exact h.withSupply _ _
  all_goals exact h

protected theorem offRequest (x : Supply) : Spares s (offRequest x t) := by
  unfold Machine.offRequest
  dsimp only
  split
  case h_1 | h_2 => exact (h.withSupply _ _).withVdb _
  case h_3 => exact h.withSupply _ _
  case h_4 => exact h

protected theorem enableSupply (x : Supply) : Spares s (enableSupply x t) := (h.withSupply _ _).withVdb _
protected theorem finishFall (x : Supply) : Spares s (finishFall x t) :=
  .ite (h.withSupply _ _) (h.withSupply _ _)

protected theorem suspendGrant (cause : GrantCause) : Spares s (suspendGrant cause t) := h.withVdb _
protected theorem allowGrant : Spares s (allowGrant t) := h.withVdb _
protected theorem testGrant : Spares s (testGrant t) :=
  .ite (.ite (h.suspendGrant _) (.ite (h.suspendGrant _) h)) h
protected theorem grantOnDemand : Spares s (grantOnDemand t) := .ite (.ite h.allowGrant h) h.testGrant
protected theorem grantOnEvent (ev : SfeEvent) : Spares s (grantOnEvent ev t) :=
  .ite (.ite h.allowGrant h) (.ite h.testGrant h)

protected theorem restartOutput (o : Output) : Spares s (restartOutput t o) := by
  have hopen : Spares s (if (t.out o).openFlag then Machine.clearFault (.outOpen o) t else t) :=
    .ite (h.clearFault _) h
  exact (Spares.ite (hopen.clearFault _) hopen).withOut _ _

protected theorem restartVdb : Spares s (restartVdb t) :=
  (h.foldl (fun t o => (Spares.refl t).restartOutput o) _).withVdb _

/-! ## The link (10) and the mode controller's sequence (R209, R210, R212) -/

protected theorem setStep (x : SeqStep) : Spares s (setStep x t) := h.withMc _ (by rfl)

protected theorem offOrder : Spares s (offOrder t) := h.withLcQueue _ fun _ => framesWhole_nil

protected theorem listenOrder : Spares s (listenOrder t) := by
  refine Spares.withMc (h.withLcQueue _ fun k => ?_) _ (by rfl)
  unfold Lc.listenOrder
  split <;> exact k

protected theorem reportQuiet : Spares s (reportQuiet t) :=
  have hl := h.withLc { t.lc with quietTimer := none } (by rfl)
  .ite ((hl.setStep _).offRequest _) hl

protected theorem reportIfWaiting : Spares s (reportIfWaiting t) := .ite h.reportQuiet h
protected theorem enterActive : Spares s (enterActive t) := (h.withLc _ (by rfl)).publish _

protected theorem enterMuted : Spares s (enterMuted t) :=
  ((h.withLcQueue _ fun _ => framesWhole_nil).raise _).reportIfWaiting

protected theorem enterConflict : Spares s (enterConflict t) :=
  ((((h.withLcQueue _ fun _ => framesWhole_nil).withMc _ (by rfl)).clearFault _).raiseLatched _).reportIfWaiting

protected theorem quietOrder : Spares s (quietOrder t) :=
  have hl := (h.publish .quietNotice).withLc _ (by rfl)
  .ite hl hl.reportQuiet

protected theorem deliverRequests (l : List Request) : Spares s (deliverRequests l t) :=
  .ite (h.withRequests _) h

protected theorem clearStale (g : PeerGroup) : Spares s (clearStale g t) := by
  unfold Machine.clearStale
  split
  · exact h.clearFault _
  · exact h

protected theorem fileFrame (g : PeerGroup) (d : List Byte) : Spares s (fileFrame g d t) := by
  have hl : Spares s (t.withLc (t.lc.fileData g d)) := h.withLcQueue _ fun k => by cases g <;> exact k
  exact (Spares.ite hl (hl.clearStale g)).deliverRequests _

protected theorem countHeard : Spares s (countHeard t) := .ite (h.withLc _ (by rfl)) h

protected theorem takeFrame (id : BitVec 11) (d : List Byte) : Spares s (takeFrame id d t) := by
  have hc := h.countHeard
  refine .ite (.ite hc hc.enterConflict) ?_
  split
  · exact hc.fileFrame _ _
  · exact hc

protected theorem loseGroup (g : PeerGroup) : Spares s (loseGroup g t) := by
  have hl : Spares s (t.withLc (t.lc.makeStale g)) := h.withLcQueue _ fun k => by cases g <;> exact k
  unfold Machine.loseGroup
  dsimp only
  split
  · exact hl.raise _
  · exact hl

protected theorem startAttempt (e : TxEntry) : Spares s (t.withLc (startAttempt e t.lc)) :=
  h.withLcQueue _ fun k => k.map _ fun x => by split <;> rfl

protected theorem endAttempt : Spares s (t.withLc t.lc.endAttempt) :=
  h.withLcQueue _ fun k => k.map _ fun _ => rfl

protected theorem succeed (g : Group) : Spares s (t.withLc (t.lc.succeed g)) :=
  h.withLcQueue _ fun k => (k.filter _).map _ fun _ => rfl

protected theorem failAttempt : Spares s (failAttempt t) :=
  have hl := h.withLcQueue { t.lc.endAttempt with errors := min errorLimit (t.lc.errors + errorStep) }
    fun k => k.map _ fun _ => rfl
  .ite hl.enterMuted hl

protected theorem leaveMuted : Spares s (leaveMuted t) := ((h.withLc _ (by rfl)).clearFault _).enterActive
protected theorem endWindow : Spares s (endWindow t) := h.enterActive.withMc _ (by rfl)

/-! ## The speed capture unit (01) -/

protected theorem withChan (c : PulseChannel) (r : PulseRec) : Spares s (t.withChan c r) := h.withScu _
protected theorem loseChannel (c : PulseChannel) : Spares s (loseChannel c t) := (h.withChan _ _).raise _
protected theorem recoverChannel (c : PulseChannel) : Spares s (recoverChannel c t) :=
  (h.withChan _ _).clearFault _

protected theorem checkLoss (c : PulseChannel) : Spares s (checkLoss t c) :=
  have hc := h.withChan c _
  .ite (.ite (hc.loseChannel c) hc) h

protected theorem checkRecovery (c : PulseChannel) : Spares s (checkRecovery t c) :=
  have hc := h.withChan c _
  .ite (.ite (hc.recoverChannel c) hc) h

protected theorem evaluateChannel (c : PulseChannel) : Spares s (evaluateChannel t c) := h.withChan _ _

protected theorem evaluateChannels : Spares s (evaluateChannels t) :=
  ((h.foldl (fun t c => (Spares.refl t).evaluateChannel c) _).foldl
    (fun t c => (Spares.refl t).checkLoss c) _).foldl (fun t c => (Spares.refl t).checkRecovery c) _

protected theorem evaluateSpeeds : Spares s (evaluateSpeeds t) := h.evaluateChannels.withScu _

protected theorem pulseTick : Spares s (pulseTick t) := .ite (h.withScu _) (h.withScu _)
protected theorem stopScu : Spares s (stopScu t) := h.withScu _

/-! ## The sensor front end (02) -/

protected theorem withSensor (x : Sensor) (r : SensorRec) : Spares s (t.withSensor x r) := h.withSfe _
protected theorem withCal (c : CalRec) : Spares s (t.withCal c) := h.withSfe _

protected theorem discardOutput (x : Sensor) : Spares s (discardOutput x t) :=
  .ite ((h.withSensor _ _).deliver _ _ _) (h.withSensor _ _)

protected theorem writeValue (x : Sensor) (v : Int × Bool) : Spares s (writeValue x v t) := h.withSensor _ _

protected theorem takeMain (x : Sensor) (raw : Int) : Spares s (takeMain x raw t) := by
  have hm := h.withSensor x { t.sensor x with mainDone := none }
  unfold Machine.takeMain
  dsimp only
  split
  · exact hm.discardOutput _
  · exact hm.writeValue _ _
  all_goals exact hm

protected theorem deliverIf (x : Sensor) (ev : Option SfeEvent) (v : Int) :
    Spares s (deliverIf x ev v t) := by
  cases ev
  case none => exact h
  case some e => exact h.deliver _ _ _

protected theorem compare (x : Sensor) (v : Int) : Spares s (compare x v t) :=
  ((h.withSensor _ _).deliverIf _ _ _).deliverIf _ _ _

protected theorem takeSlotOutput (raw : Int) : Spares s (takeSlotOutput raw t) :=
  have hs := (h.withSensor .hps _).withSfe _
  .ite (hs.discardOutput _) hs

protected theorem takeFast (x : Sensor) (raw : Int) : Spares s (takeFast x raw t) :=
  have hs := h.withSensor x _
  .ite (hs.compare _ _) hs

protected theorem answerCal (why : ServiceReason) : Spares s (answerCal why t) := by
  unfold Machine.answerCal
  split
  · exact (h.withCal _).serviceAnswer _ _ _ _
  · exact h

protected theorem calDone (d : Nat) : Spares s (calDone d t) := ((h.withCal _).clearFault _).answerCal _
protected theorem calFailed : Spares s (calFailed t) := ((h.withCal _).raise _).answerCal _
protected theorem dropPosition : Spares s (dropPosition t) := h.withSfe _

protected theorem requestCalibration (tag : Option Byte) : Spares s (requestCalibration tag t) :=
  .ite (h.dropPosition.withCal _).calFailed (h.dropPosition.withCal _)

protected theorem recordSlot : Spares s (recordSlot t) := by
  refine .ite (.ite ?_ (h.withCal _)) h
  split
  · exact h.calDone _
  · exact h.calFailed

protected theorem demodulateSlot : Spares s (demodulateSlot t) := by
  unfold Machine.demodulateSlot
  split
  · exact .ite ((h.writeValue _ _).withSfe _) (h.withSfe _)
  · exact h

protected theorem nextSlot : Spares s (nextSlot t) := .ite (h.withSfe _) (h.withSfe _)
protected theorem endSlot : Spares s (endSlot t) := h.demodulateSlot.recordSlot.nextSlot

protected theorem failStream (x : Sensor) : Spares s (failStream x t) :=
  have hs := h.withSensor x _
  ((Spares.ite (hs.dropPosition.withCal _) hs).raise _).deliver _ _ _

protected theorem restartStream (x : Sensor) : Spares s (restartStream x t) :=
  ((h.withSensor _ _).clearFault _).deliver _ _ _

protected theorem recalibrate (tag : Byte) : Spares s (recalibrate tag t) :=
  .ite (h.serviceAnswer _ _ _ _)
    (.ite (.ite (h.serviceAnswer _ _ _ _) ((h.serviceAnswer _ _ _ _).requestCalibration _))
      (h.serviceAnswer _ _ _ _))

/-! ## The front drive (05) -/

protected theorem writeFdv : Spares s (writeFdv t) := (h.withFdc _).writeCommand _ _
protected theorem enterFdc (st : FdcState) : Spares s (enterFdc st t) := (h.withFdc _).writeFdv

protected theorem actFdc : Spares s (actFdc t) :=
  .ite (h.enterFdc _) (.ite (h.enterFdc _) (.ite (h.enterFdc _) (.ite (h.enterFdc _) h)))

protected theorem actOnReason : Spares s (actOnReason t) := .ite (h.enterFdc _) h
protected theorem withReasons (r : Reasons) : Spares s (t.withReasons r) := h.withFdc _

protected theorem takeCabMode : Spares s (takeCabMode t) := by
  unfold Machine.takeCabMode
  split
  · exact h.withFdc _
  · exact h

protected theorem acceptFrontMode (m : FrontMode) : Spares s (acceptFrontMode m t) := .ite (h.withFdc _) h
protected theorem clearAutoSlip : Spares s (clearAutoSlip t) := h.withFdc _

protected theorem updateAutoSlip : Spares s (updateAutoSlip t) :=
  have hs := h.withFdc { t.fdc with slipClear := t.fdc.slipClear + 1 }
  .ite h.clearAutoSlip (.ite (h.withFdc _)
    (.ite (h.withFdc _) (.ite (.ite hs.clearAutoSlip hs) (h.withFdc _))))

protected theorem brakeEvent : Spares s (brakeEvent t) := .ite (h.withReasons _).actOnReason h
protected theorem updateReasons : Spares s (updateReasons t) := h.updateAutoSlip.withReasons _
protected theorem countEmpty : Spares s (countEmpty t) := h.withFdc _
protected theorem raiseFrontSlip : Spares s (raiseFrontSlip t) := (h.withFdc _).raise _
protected theorem clearFrontSlip : Spares s (clearFrontSlip t) := (h.withFdc _).clearFault _

protected theorem checkPlausible : Spares s (checkPlausible t) :=
  have hf := fun x => h.withFdc x
  .ite (.ite (.ite (hf _).raiseFrontSlip (hf _)) (.ite (hf _).clearFrontSlip (hf _))) (hf _)

protected theorem fdcInterval : Spares s (fdcInterval t) :=
  (h.withFdc _).takeCabMode.updateReasons.countEmpty.actFdc.checkPlausible.writeFdv

protected theorem takeFdcCharge (ev : SfeEvent) : Spares s (takeFdcCharge ev t) := by
  cases ev
  case lowEnter | failed | starting => exact (h.withReasons _).actOnReason
  case lowLeave => exact h.withReasons _
  case valid => exact .ite (h.withReasons _) h
  case highEnter | highLeave => exact h

/-! ## The trailer brakes (07) -/

protected theorem writeDemand : Spares s (writeDemand t) := (h.withTbc _).grantOnDemand
protected theorem writeTcv (v : Nat) : Spares s (writeTcv v t) := (h.withTbc _).writeCommand _ _
protected theorem writeTsv : Spares s (writeTsv t) := (h.withTbc _).writeCommand _ _
protected theorem recomputeTcv : Spares s (recomputeTcv t) := h.writeTcv _

protected theorem enterIdle (st : TrailerState) : Spares s (enterIdle st t) :=
  ((h.withTbc _).writeTsv.writeDemand.writeTcv _).publish _

protected theorem enterCharging : Spares s (enterCharging t) := (h.withTbc _).enterIdle _
protected theorem enterReleased : Spares s (enterReleased t) := .ite h.enterCharging (h.enterIdle _)
protected theorem enterTrailerParked : Spares s (enterTrailerParked t) := (h.withTbc _).enterIdle _
protected theorem enterBreakaway : Spares s (enterBreakaway t) := (h.enterIdle _).raiseLatched _

protected theorem enterRegulated (st : TrailerState) : Spares s (enterRegulated st t) :=
  (h.withTbc _).writeTsv.writeDemand.publish _

protected theorem changeCoupling (closed : Bool) : Spares s (changeCoupling closed t) := by
  have hc := h.withTbc { t.tbc with coupled := closed, samples := 0 }
  unfold Machine.changeCoupling
  dsimp only
  split
  case h_1 => exact .ite hc.enterCharging hc
  case h_2 | h_3 | h_4 => exact .ite hc hc.enterBreakaway
  case h_5 | h_6 => exact hc

protected theorem settleCoupling : Spares s (settleCoupling t) :=
  have hc := h.withTbc { t.tbc with samples := t.tbc.samples + 1 }
  .ite (h.withTbc _) (.ite (hc.changeCoupling _) hc)

protected theorem trailerParkOrder : Spares s (trailerParkOrder t) := .ite h.enterTrailerParked h
protected theorem trailerStopOrder : Spares s (trailerStopOrder t) := (h.withTbc _).trailerParkOrder

protected theorem parkTests : Spares s (parkTests t) := .ite h.trailerParkOrder (.ite h.enterReleased h)

protected theorem releaseTrailer : Spares s (releaseTrailer t) :=
  .ite ((Spares.ite h.enterTrailerParked h.enterReleased).clearFault _) h

protected theorem writeBrake : Spares s (writeBrake t) :=
  have hb := (h.withTbc _).brakeEvent
  .ite hb.writeDemand hb

protected theorem countUnknown : Spares s (countUnknown t) :=
  .ite ((h.withTbc _).clearFault _) (.ite ((h.withTbc _).raise _) (h.withTbc _))

protected theorem raiseDisagree : Spares s (raiseDisagree t) := (h.withTbc _).raise _
protected theorem clearDisagree : Spares s (clearDisagree t) := (h.withTbc _).clearFault _

protected theorem compareBrakes : Spares s (compareBrakes t) := by
  have hb := fun x => h.withTbc x
  unfold Machine.compareBrakes
  split
  · exact .ite (.ite (hb _).raiseDisagree (hb _)) (.ite (hb _).clearDisagree (hb _))
  · exact hb _

protected theorem failCharge : Spares s (failCharge t) := (h.enterRegulated _).raise _
protected theorem loseSupply : Spares s (loseSupply t) := (h.enterRegulated _).raise _
protected theorem recoverSupply : Spares s (recoverSupply t) :=
  ((h.enterRegulated _).clearFault _).clearFault _

protected theorem stateTests : Spares s (stateTests t) := by
  have hl := h.withTbc { t.tbc with supplyLow := t.tslLow }
  have hb := fun x => hl.withTbc x
  unfold Machine.stateTests
  dsimp only
  split
  case h_1 => exact .ite (hb _).recoverSupply (.ite (hb _).failCharge (hb _))
  case h_2 => exact .ite (hb _).loseSupply (hb _)
  case h_3 => exact .ite (hb _).recoverSupply (hb _)
  all_goals exact hl

protected theorem readLines : Spares s (readLines t) := (h.withTbc _).withTbc _
protected theorem takeBrakes : Spares s (takeBrakes t) := h.writeBrake.countUnknown.compareBrakes
protected theorem driveLine : Spares s (driveLine t) := (h.writeDemand.withTbc _).recomputeTcv.writeTsv

protected theorem tbcInterval : Spares s (tbcInterval t) :=
  h.settleCoupling.readLines.takeBrakes.parkTests.stateTests.driveLine

protected theorem takeTbr : Spares s (takeTbr t) := .ite h.writeBrake.recomputeTcv h.writeBrake

protected theorem takeTcl (ev : SfeEvent) : Spares s (takeTcl ev t) := by
  cases ev
  case highEnter => exact ((h.withTbc _).writeTcv _).raise _
  case highLeave => exact (h.withTbc _).recomputeTcv.clearFault _
  case failed => exact ((h.withTbc _).recomputeTcv.clearFault _).raise _
  case valid => exact h.clearFault _
  case starting | lowEnter | lowLeave => exact h

protected theorem takeTsl (ev : SfeEvent) : Spares s (takeTsl ev t) := by
  cases ev
  case lowEnter | failed | starting | lowLeave => exact h.withTbc _
  case valid => exact .ite (h.withTbc _) h
  case highEnter | highLeave => exact h

protected theorem restartTbc : Spares s (restartTbc t) :=
  have hr := (Spares.ite (h.clearFault _) h).withTbc _
  .ite (hr.publish _) hr

/-! ## The hitch (06) -/

protected theorem setValves (hrv hlv : Nat) : Spares s (setValves hrv hlv t) :=
  have hv := h.withHtc { t.htc with hrv := hrv, hlv := hlv }
  .ite ((hv.writeCommand _ _).writeCommand _ _) ((hv.writeCommand _ _).writeCommand _ _)

protected theorem beginRelief : Spares s (beginRelief t) := (h.withHtc _).setValves _ _

protected theorem enterWorking : Spares s (enterWorking t) :=
  have hw := h.withHtc _
  .ite hw.beginRelief (hw.setValves _ _)

protected theorem enterRaising : Spares s (enterRaising t) := (h.withHtc _).setValves _ _
protected theorem enterHeld (cause : HoldCause) : Spares s (enterHeld cause t) := (h.withHtc _).setValves _ _
protected theorem enterHitchFault : Spares s (enterHitchFault t) := (h.withHtc _).setValves _ _

protected theorem leaveHitchFault : Spares s (leaveHitchFault t) :=
  have hf := h.withHtc { t.htc with faultCause := none }
  .ite (hf.withHtc _) (.ite (hf.withHtc _) (hf.withHtc _))

protected theorem hitchFaultTest : Spares s (hitchFaultTest t) :=
  .ite (.ite (h.withHtc _) h.leaveHitchFault) (.ite h.enterHitchFault h)

protected theorem hitchUp : Spares s (hitchUp t) := by
  unfold Machine.hitchUp
  split
  case h_1 => exact (h.withHtc _).enterRaising
  case h_2 | h_3 => exact h.enterRaising
  all_goals exact h

protected theorem hitchDown : Spares s (hitchDown t) := by
  unfold Machine.hitchDown
  split
  case h_1 => exact (h.withHtc _).enterWorking
  case h_2 | h_3 | h_4 => exact h.enterWorking
  all_goals exact h

protected theorem hitchSwitch (up : Bool) : Spares s (hitchSwitch up t) := .ite (.ite h.hitchUp h.hitchDown) h
protected theorem acceptSlipControl (on : Bool) : Spares s (acceptSlipControl on t) := .ite (h.withHtc _) h
protected theorem hitchStopOrder : Spares s (hitchStopOrder t) := .ite (h.setValves _ _) (h.enterHeld _)

protected theorem readHitch : Spares s (readHitch t) := by
  have hr := h.withHtc (t.htc.read t)
  exact (Spares.ite (hr.raise _) (.ite (hr.clearFault _) hr)).withHtc _

protected theorem actLever : Spares s (actLever t) := .ite h.enterWorking h

protected theorem testLever (wasFresh : Bool) : Spares s (testLever wasFresh t) := by
  unfold Machine.testLever
  dsimp only
  split
  · exact .ite (h.withHtc _) (.ite (h.withHtc _).actLever h)
  · exact h.withHtc _

protected theorem testSlipField : Spares s (testSlipField t) := .ite h (h.withHtc _)

protected theorem takeCabHitch : Spares s (takeCabHitch t) := by
  unfold Machine.takeCabHitch
  split
  · exact ((h.withHtc _).testLever _).testSlipField
  · exact h.withHtc _

protected theorem cabLossTest : Spares s (cabLossTest t) := .ite (h.enterHeld _) h

protected theorem sourceTest : Spares s (sourceTest t) := by
  have hl : Spares s (if (t.htc.source == .implement && t.htc.state == .working && !t.lc.implement.isFresh)
      = true then Machine.enterHeld .sourceLost t else t) := .ite (h.enterHeld _) h
  unfold Machine.sourceTest
  dsimp only
  split
  · exact hl.withHtc _
  · exact hl.withHtc _

protected theorem pressFender : Spares s (pressFender t) := .ite h (.ite (h.withHtc _) (h.withHtc _))

protected theorem settleFenders : Spares s (settleFenders t) :=
  have hb := h.withHtc { t.htc with left := t.htc.left.read t.pins.fenderLeft
                                    right := t.htc.right.read t.pins.fenderRight }
  (Spares.ite (hb.withHtc _) hb).foldl (fun t _ => (Spares.refl t).pressFender) _

protected theorem actLaw : Spares s (actLaw t) := (h.withHtc _).setValves _ _
protected theorem actWorking : Spares s (actWorking t) := .ite h.beginRelief h.actLaw

protected theorem actStartLock : Spares s (actStartLock t) :=
  .ite (h.withHtc _).enterWorking.actWorking (h.setValves _ _)

protected theorem enterTransport : Spares s (enterTransport t) := (h.withHtc _).setValves _ _
protected theorem actRaising : Spares s (actRaising t) := .ite h.enterTransport (h.setValves _ _)
protected theorem actDamping : Spares s (actDamping t) := (h.withHtc _).setValves _ _

protected theorem actTransport : Spares s (actTransport t) :=
  .ite h.enterRaising ((Spares.ite h.actDamping (h.setValves _ _)).withHtc _)

protected theorem actFender : Spares s (actFender t) := by
  refine .ite ((h.enterHeld .fender).withHtc _) (.ite (h.enterHeld .fender) ?_)
  split <;> exact h.setValves _ _

protected theorem actHitch : Spares s (actHitch t) := by
  have hc := h.withHtc { t.htc with mixed := none, damping := false, slipOverride := false }
  unfold Machine.actHitch
  dsimp only
  split
  case h_1 => exact hc.actStartLock
  case h_2 | h_3 => exact hc.setValves _ _
  case h_4 => exact hc.actRaising
  case h_5 => exact hc.actTransport
  case h_6 => exact hc.actWorking
  case h_7 => exact hc.actFender

protected theorem htcInterval : Spares s (htcInterval t) :=
  h.readHitch.takeCabHitch.hitchFaultTest.cabLossTest.sourceTest.settleFenders.actHitch

protected theorem setPin (pin : DraftPin) (b : Bool) : Spares s (setPin pin b t) := by
  cases pin
  case left => exact h.withHtc _
  case right => exact h.withHtc _

protected theorem endRelief : Spares s (endRelief t) := .ite ((h.withHtc _).setValves _ _) h

protected theorem takeDraft (pin : DraftPin) (ev : SfeEvent) : Spares s (takeDraft pin ev t) := by
  cases ev
  case highEnter => exact .ite (h.setPin _ _).beginRelief (h.setPin _ _)
  case highLeave | failed => exact (h.setPin _ _).endRelief
  case starting | valid | lowEnter | lowLeave => exact h

protected theorem takeHps (ev : SfeEvent) : Spares s (takeHps ev t) :=
  have hp := h.withHtc { t.htc with posValid := false }
  .ite (.ite hp hp.enterHitchFault) h

protected theorem restartHtc : Spares s (restartHtc t) := h.withHtc _

end

end Spares

end Sys2Proof.Proofs
end

