-- ==== Sys2Proof/Proofs/BoundsGearbox.lean ====
section
/-! SUPPORT. What the gearbox's operations do to the bounds: those that change neither its state nor PRESELECT's
gear, then those that do, each with the state it may start from (R72 to R96). -/

namespace Sys2Proof.Proofs

open Sys2Proof Sys2Proof.Machine

/-! ## Operations that change neither the gearbox state nor PRESELECT's gear -/

namespace Spares

variable {s t : State} (h : Spares s t)
include h

protected theorem withClutch (x : Clutch) (r : ClutchRec) : Spares s (t.withClutch x r) := h.withShc _ (by rfl)

protected theorem overClutches {f : State → Clutch → State} (hf : ∀ (t : State) (x : Clutch), Spares t (f t x))
    (l : List Clutch) : Spares s (overClutches f l t) := h.foldl hf l

protected theorem lockAll (l : List Clutch) : Spares s (overClutches lockClutch l t) :=
  h.overClutches (fun t x => (Spares.refl t).withClutch x _) l

protected theorem drainAll (l : List Clutch) : Spares s (overClutches drainClutch l t) :=
  h.overClutches (fun t x => (Spares.refl t).withClutch x _) l

protected theorem startFill (x : Clutch) : Spares s (startFill t x) := h.withClutch _ _

protected theorem fillAll (l : List Clutch) : Spares s (overClutches startFill l t) :=
  h.overClutches (fun t x => (Spares.refl t).startFill x) l

protected theorem fillAlone (x : Clutch) : Spares s (fillAlone t x) := (h.drainAll _).startFill _

protected theorem torqueOffAll (f : ClutchCfg → Nat) (l : List Clutch) :
    Spares s (overClutches (torqueOff f) l t) :=
  h.overClutches (fun t x => (Spares.refl t).withClutch x _) l

protected theorem torqueOnAll (f : ClutchCfg → Nat) (l : List Clutch) :
    Spares s (overClutches (torqueOn f) l t) :=
  h.overClutches (fun t x => (Spares.refl t).withClutch x _) l

protected theorem writeClutches : Spares s (writeClutches t) :=
  h.overClutches (fun t x => ((Spares.refl t).withClutch x _).writeCommand _ _) _

/-! ### Requests (R69 to R71) -/

protected theorem refuse (why : ShcReason) (who : Origin) : Spares s (refuse why who t) := h.withShc _ (by rfl)

protected theorem flushQueue : Spares s (flushQueue t) :=
  h.withShcQueue _ (by rfl) (fun _ => requestsBounded_nil)

protected theorem shiftRequest (kind : ShiftKind) (who : Origin) : Spares s (shiftRequest kind who t) := by
  unfold Machine.shiftRequest
  split
  case h_1 => exact h.refuse _ _
  case h_2 =>
    split
    next q hq => exact h.withShcQueue _ (by rfl) (fun k => requestsBounded_offer k hq)
    next => exact h.refuse _ _

protected theorem selectRequest (g : Option Gear) : Spares s (selectRequest g t) := by
  cases g
  case none => exact h.refuse _ _
  case some g => exact .ite (h.withShc _ (by rfl)) (h.refuse _ _)

protected theorem offerAuto (kind : ShiftKind) : Spares s (offerAuto kind t) :=
  (h.withShc _ (by rfl)).shiftRequest _ _

protected theorem autoTick : Spares s (autoTick t) :=
  .ite (.ite ((h.withShc _ (by rfl)).offerAuto _)
    (.ite ((h.withShc _ (by rfl)).offerAuto _) (h.withShc _ (by rfl)))) (h.withShc _ (by rfl))

/-! ### Shifts (R73 to R81) -/

protected theorem withPhase (p : Option Phase) : Spares s (t.withPhase p) := h.withShc _ (by rfl)
protected theorem countInterval : Spares s (countInterval t) := h.withShc _ (by rfl)
protected theorem withdrawTorque : Spares s (withdrawTorque t) := .ite ((h.withShc _ (by rfl)).publish _) h
protected theorem askTorque : Spares s (askTorque t) := (h.withShc _ (by rfl)).publish _
protected theorem dropOperation : Spares s (dropOperation t) := h.withShc _ (by rfl)

protected theorem markClutch (m : Option Mark) (x : Clutch) : Spares s (markClutch m t x) :=
  .ite (h.withClutch _ _) h

protected theorem adaptTests : Spares s (adaptTests t) :=
  .ite (h.overClutches (fun t x => (Spares.refl t).markClutch _ x) _) h

protected theorem applyMark (x : Clutch) : Spares s (applyMark t x) := by
  unfold Machine.applyMark
  dsimp only
  split
  case h_1 | h_2 => exact h.withClutch _ _
  case h_3 => exact h

protected theorem beginTorqueUp : Spares s (beginTorqueUp t) :=
  have hd := h.torqueOffAll ClutchCfg.hold (offGoing t)
  .ite (hd.withShc _ (by rfl)).askTorque (hd.withShc _ (by rfl))

protected theorem beginInertiaDown : Spares s (beginInertiaDown t) :=
  (h.torqueOnAll ClutchCfg.touch (offGoing t)).withShc _ (by rfl)

protected theorem beginTorqueDown : Spares s (beginTorqueDown t) :=
  (h.torqueOffAll ClutchCfg.touch (offGoing t)).withShc _ (by rfl)

protected theorem endFill : Spares s (endFill t) := .ite h.beginTorqueUp h.beginInertiaDown

protected theorem beginLockupUp : Spares s (beginLockupUp t) :=
  (((h.withPhase _).lockAll _).overClutches (fun t x => (Spares.refl t).applyMark x) _).withdrawTorque

protected theorem syncPoint : Spares s (syncPoint t) := .ite h.beginLockupUp h.beginTorqueDown

protected theorem endTorque : Spares s (endTorque t) :=
  have hd := h.drainAll (offGoing t)
  .ite (hd.withShc _ (by rfl)) ((hd.lockAll _).withPhase _)

protected theorem compareEcho : Spares s (compareEcho t) := by
  unfold Machine.compareEcho
  split
  · exact h.withShc _ (by rfl)
  · exact h

protected theorem torqueStep : Spares s (torqueStep t) :=
  have hend {u : State} (k : Spares s u) : Spares s (if torqueOver u = true then Machine.endTorque u else u) :=
    .ite k.endTorque k
  have hc := h.countInterval
  have he : Spares s (if (Machine.countInterval t).shc.kind = some .up
      then Machine.compareEcho (Machine.countInterval t) else Machine.countInterval t) :=
    .ite hc.compareEcho hc
  hend (.ite ((he.torqueOnAll _ _).torqueOffAll _ _) ((he.torqueOnAll _ _).torqueOffAll _ _))

protected theorem beginAbort : Spares s (beginAbort t) :=
  (((h.drainAll (onComing t)).overClutches (fun t x => (Spares.refl t).withClutch x _) _).withPhase
    _).withdrawTorque

protected theorem timeOutShift : Spares s (timeOutShift t) :=
  ((h.raiseLatched _).clearFault _).flushQueue.beginAbort

protected theorem inertiaStep : Spares s (inertiaStep t) :=
  have hend {u : State} (k : Spares s u) : Spares s (if syncDue u = true then Machine.syncPoint u
      else if timeoutDue u = true then Machine.timeOutShift u else u) :=
    .ite k.syncPoint (.ite k.timeOutShift k)
  have hc := h.countInterval
  hend ((Spares.ite (hc.overClutches (fun t x => (Spares.refl t).withClutch x _) _) hc).withShc _ (by rfl))

/-! ### Engagements and shuttles (R84, R86, R87) -/

protected theorem beginRamp (g : Gear) : Spares s (beginRamp g t) := (h.withShc _ (by rfl)).fillAlone _

protected theorem preselectClutch (x : Clutch) : Spares s (preselectClutch t x) := .ite h (h.fillAlone _)

protected theorem settleFill (x : Clutch) : Spares s (settleFill t x) :=
  have hr := h.withClutch x ((t.clutch x).ramp (t.clutchCfg x).touch)
  .ite (h.withClutch _ _) (.ite (hr.withShc _ (by rfl)) hr)

protected theorem holdFill (x : Clutch) : Spares s (holdFill t x) := .ite (h.withClutch _ _) h
protected theorem settleDue (x : Clutch) : Spares s (settleDue t x) := .ite (h.settleFill _) h

protected theorem fillStep : Spares s (fillStep t) :=
  (h.overClutches (fun t x => (Spares.refl t).holdFill x) _).overClutches
    (fun t x => (Spares.refl t).settleDue x) _

protected theorem endDrain : Spares s (endDrain t) := (h.lockAll _).withShc _ (by rfl)
protected theorem drainOffGoing (j : Nat) : Spares s (drainOffGoing j t) := .ite (h.torqueOffAll _ _) h

protected theorem beginDriveAway : Spares s (beginDriveAway t) :=
  (h.withPhase _).overClutches (fun t x => (Spares.refl t).withClutch x _) _

protected theorem reverseBrakeStep : Spares s (reverseBrakeStep t) :=
  have hend {u : State} (k : Spares s u) :
      Spares s (if brakeOver u = true then Machine.beginDriveAway u else u) := .ite k.beginDriveAway k
  hend (h.countInterval.overClutches (fun t x => (Spares.refl t).withClutch x _) _)

protected theorem abandonSwap : Spares s (abandonSwap t) := .ite ((h.drainAll _).lockAll _) h

/-! ### Neutral, park and the interval (R66, R68, R89, R91, R94, R98) -/

protected theorem leaveShift : Spares s (leaveShift t) := by
  have hback := (h.drainAll (onComing t)).lockAll (offGoing t)
  have hon := (h.lockAll (onComing t)).drainAll (offGoing t)
  unfold Machine.leaveShift
  dsimp only
  split
  case h_1 => exact hback
  case h_2 => exact .ite hback (hon.withShc _ (by rfl))
  case h_3 | h_4 => exact hon.withShc _ (by rfl)
  case h_5 => exact h.lockAll _
  case h_6 => exact h

protected theorem reselect : Spares s (reselect t) := by
  unfold Machine.reselect
  split
  · split
    · exact h.withShc _ (by rfl)
    · exact h
  · exact h

protected theorem writePkv (released : Bool) : Spares s (writePkv released t) :=
  (h.withShc _ (by rfl)).writeCommand _ _

protected theorem refuseLever (why : ShcReason) : Spares s (refuseLever why t) := (h.withShc _ (by rfl)).refuse _ _
protected theorem takeLevels (d : CabDriveFields) : Spares s (takeLevels d t) := h.withShc _ (by rfl)
protected theorem compareLever (l : Lever) : Spares s (compareLever l t) := .ite h (h.withShc _ (by rfl))

protected theorem takeSpeedLoss : Spares s (takeSpeedLoss t) := (Spares.ite h.flushQueue h).withShc _ (by rfl)

protected theorem firstInterval : Spares s (firstInterval t) := by
  have hs := h.withShc { t.shc with starting := false } (by rfl)
  have hchg := Spares.ite (c := t.sfe.chans.chg.cmp = .low) (hs.raise .chargeLow) (hs.clearFault .chargeLow)
  exact .ite (.ite (hchg.raise _) (hchg.clearFault _)) h

protected theorem openClutch (x : Clutch) : Spares s (openClutch t x) := h.withClutch _ _

protected theorem countDrain (x : Clutch) : Spares s (countDrain t x) := by
  unfold Machine.countDrain
  split
  · exact .ite ((h.withClutch _ _).openClutch _) (h.withClutch _ _)
  · exact h

protected theorem drainCarrying (x : Clutch) : Spares s (drainCarrying t x) := .ite (h.withClutch _ _) h

protected theorem finishInterval (running : List Clutch) : Spares s (finishInterval running t) :=
  (h.withShc _ (by rfl)).writeClutches.overClutches (fun t x => (Spares.refl t).countDrain x) _

protected theorem dropPedal : Spares s (dropPedal t) := (h.withShc _ (by rfl)).writeClutches

protected theorem takeOil (ev : SfeEvent) : Spares s (takeOil ev t) := by
  cases ev
  case highEnter => exact h.raise _
  case highLeave | failed => exact h.clearFault _
  case starting | valid | lowEnter | lowLeave => exact h

protected theorem resetAdaptation (tag : Byte) : Spares s (resetAdaptation tag t) :=
  .ite ((h.overClutches (fun t x => (Spares.refl t).withClutch x _) _).serviceAnswer _ _ _ _)
    (h.serviceAnswer _ _ _ _)

end Spares

/-! ## Steps that keep the bounds -/

/-- Each bound that `s` meets, `t` meets. -/
structure Keeps (s t : State) : Prop where
  requests : RequestQueueBounded s → RequestQueueBounded t
  frames : TransmitQueueWhole s → TransmitQueueWhole t
  run : RunBounded s → RunBounded t
  preselect : PreselectOnlyInNeutral s → PreselectOnlyInNeutral t

/-- A run's bound reads the run's place, the image and the mode. -/
theorem Spares.runBounded {s t : State} (h : Spares s t) (k : RunBounded s) : RunBounded t where
  index := by rw [h.index, h.count]; exact k.index
  listed := by rw [h.run, h.list, h.count, h.image]; exact k.listed
  loading := by rw [h.mode, h.run]; exact k.loading

theorem Spares.keeps {s t : State} (h : Spares s t) : Keeps s t where
  requests := h.requests
  frames := h.frames
  run := h.runBounded
  preselect := by
    unfold PreselectOnlyInNeutral
    rw [h.preselect, h.gearbox]
    exact id

theorem runBounded_withShc {s : State} (x : Shc) (h : RunBounded s) : RunBounded (s.withShc x) :=
  ⟨h.index, h.listed, h.loading⟩

theorem enterGearbox_state (st : GearState) (s : State) : (enterGearbox st s).shc.state = st :=
  ((Spares.refl (s.withShc { s.shc with state := st })).publish .gearbox).gearbox

theorem enterGearbox_state_ne {st : GearState} (h : st ≠ .neutral) (s : State) :
    (enterGearbox st s).shc.state ≠ .neutral := by
  rwa [enterGearbox_state]

/-! ### What a change that is due says of the gearbox state -/

theorem inGear_of_canTake {s : State} (h : canTake s = true) : s.shc.state = .inGear := by
  simp only [canTake, Bool.and_eq_true, beq_iff_eq] at h
  obtain ⟨⟨⟨hstate, -⟩, -⟩, -⟩ := h
  exact hstate

theorem shifting_of_abortOver {s : State} (h : abortOver s = true) : s.shc.state = .shifting := by
  simp only [abortOver, Bool.and_eq_true, beq_iff_eq] at h
  obtain ⟨⟨hstate, -⟩, -⟩ := h
  exact hstate

theorem engaging_of_rampOver {s : State} (h : rampOver s = true) : s.shc.state = .engaging := by
  simp only [rampOver, Bool.and_eq_true, beq_iff_eq] at h
  obtain ⟨⟨⟨hstate, -⟩, -⟩, -⟩ := h
  exact hstate

theorem shuttling_of_driveAwayOver {s : State} (h : driveAwayOver s = true) : s.shc.state = .shuttling := by
  simp only [driveAwayOver, Bool.and_eq_true, beq_iff_eq] at h
  obtain ⟨⟨hstate, -⟩, -⟩ := h
  exact hstate

/-- A PRESELECT left for NEUTRAL writes the gearbox record alone (R89). -/
theorem leaveEngaging_eq_withShc (s : State) : ∃ x : Shc, leaveEngaging s = s.withShc x := by
  unfold leaveEngaging
  split
  · exact ⟨_, rfl⟩
  · exact ⟨s.shc, rfl⟩

namespace Keeps

variable {s t u : State}

protected theorem refl (s : State) : Keeps s s := (Spares.refl s).keeps

protected theorem trans (h : Keeps s t) (k : Keeps t u) : Keeps s u :=
  ⟨k.requests ∘ h.requests, k.frames ∘ h.frames, k.run ∘ h.run, k.preselect ∘ h.preselect⟩

protected theorem spares (h : Keeps s t) (k : Spares t u) : Keeps s u := h.trans k.keeps

/-- A branch whose condition says how the state stands. -/
protected theorem iteOf {c : Prop} [Decidable c] (h : c → Keeps s t) (k : Keeps s u) :
    Keeps s (if c then t else u) := by
  split
  case isTrue hc => exact h hc
  case isFalse => exact k

protected theorem ite {c : Prop} [Decidable c] (h : Keeps s t) (k : Keeps s u) :
    Keeps s (if c then t else u) := .iteOf (fun _ => h) k

/-! ### Changes of the gearbox state (R67, R89) -/

protected theorem withShc (h : Keeps s t) (x : Shc)
    (hpre : PreselectOnlyInNeutral t → x.preselect ≠ none → x.state = .neutral)
    (hqueue : RequestsBounded t.shc.queue → RequestsBounded x.queue) : Keeps s (t.withShc x) where
  requests k := hqueue (h.requests k)
  frames := h.frames
  run k := runBounded_withShc x (h.run k)
  preselect k := hpre (h.preselect k)

/-- A gearbox record without a PRESELECT that goes on. -/
protected theorem endPreselect (h : Keeps s t) (x : Shc) (hnone : x.preselect = none)
    (hqueue : RequestsBounded t.shc.queue → RequestsBounded x.queue) : Keeps s (t.withShc x) :=
  h.withShc x (fun _ hp => absurd hnone hp) hqueue

protected theorem enterGearbox (h : Keeps s t) (st : GearState)
    (hpre : PreselectOnlyInNeutral t → t.shc.preselect ≠ none → st = .neutral) :
    Keeps s (enterGearbox st t) :=
  (h.withShc { t.shc with state := st } hpre id).spares ((Spares.refl _).publish _)

/-- A state is entered without a PRESELECT that goes on. -/
protected theorem enterWithout (h : Keeps s t) (st : GearState) (hnone : t.shc.preselect = none) :
    Keeps s (enterGearbox st t) :=
  h.enterGearbox st fun _ hp => absurd hnone hp

/-- A state is entered from one that is not NEUTRAL, where no PRESELECT goes on. -/
protected theorem enterFrom (h : Keeps s t) (k : Spares t u) (st : GearState) (hn : t.shc.state ≠ .neutral) :
    Keeps s (enterGearbox st u) :=
  (h.spares k).enterGearbox st fun hu hp => absurd (hu hp) (k.gearbox ▸ hn)

protected theorem enterNeutral (h : Keeps s t) : Keeps s (enterGearbox .neutral t) :=
  h.enterGearbox .neutral fun _ _ => rfl

/-! ### Shifts and shuttles (R72 to R80, R84 to R86) -/

protected theorem beginShift (h : Keeps s t) (kind : ShiftKind) (who : Origin) (g : Gear)
    (hn : t.shc.state ≠ .neutral) : Keeps s (beginShift kind who g t) :=
  h.enterFrom ((((Spares.refl t).overClutches (fun t x => (Spares.refl t).withClutch x _) _).withShc
    _ (by rfl)).fillAll _) _ hn

protected theorem takeHead (h : Keeps s t) : Keeps s (takeHead t) := by
  unfold Machine.takeHead
  split
  case h_1 e rest g hqueue _ =>
    refine .iteOf (fun htake => ?_) h
    have hrest : Spares t (t.withShc { t.shc with queue := rest }) :=
      (Spares.refl t).withShcQueue _ (by rfl) (fun k => (hqueue ▸ k : RequestsBounded (e :: rest)).tail)
    dsimp only
    split
    · exact (h.spares hrest).spares ((Spares.refl _).refuse _ _)
    · exact (h.spares hrest).beginShift _ _ _ (by simp [inGear_of_canTake htake])
  case h_2 => exact h

protected theorem beginShuttle (h : Keeps s t) (g p : Gear) (hn : t.shc.state ≠ .neutral) :
    Keeps s (beginShuttle g p t) :=
  h.enterFrom ((((Spares.refl t).withShcQueue _ (by rfl) (fun _ => requestsBounded_nil)).torqueOffAll
    ClutchCfg.hold _).fillAll _) _ hn

protected theorem shuttleRequest (h : Keeps s t) (hn : t.shc.state ≠ .neutral) :
    Keeps s (shuttleRequest t) := by
  unfold Machine.shuttleRequest
  split
  · split
    · split
      · exact h.beginShuttle _ _ hn
      · exact h
    · exact h
  · exact h.spares (((Spares.refl t).withShc _ (by rfl)).refuse _ _)

protected theorem tryShuttle (h : Keeps s t) (hn : t.shc.state ≠ .neutral) : Keeps s (tryShuttle t) :=
  .ite (.ite (h.shuttleRequest hn) (h.spares ((Spares.refl t).withShc _ (by rfl)))) h

protected theorem arriveInGear (h : Keeps s t) (k : Spares t u) (hn : t.shc.state ≠ .neutral) :
    Keeps s (arriveInGear u) :=
  (h.enterFrom k.dropOperation .inGear hn).tryShuttle (enterGearbox_state_ne (by decide) _)

protected theorem finishShift (h : Keeps s t) (hn : t.shc.state ≠ .neutral) : Keeps s (finishShift t) :=
  h.arriveInGear ((Spares.refl t).withShc _ (by rfl)) hn

protected theorem endAbort (h : Keeps s t) (hn : t.shc.state ≠ .neutral) : Keeps s (endAbort t) :=
  h.arriveInGear ((Spares.refl t).lockAll _) hn

protected theorem endAbortIfOver (h : Keeps s t) : Keeps s (if abortOver t = true then endAbort t else t) :=
  .iteOf (fun hover => h.endAbort (by simp [shifting_of_abortOver hover])) h

protected theorem abortStep (h : Keeps s t) : Keeps s (abortStep t) :=
  (h.spares ((Spares.refl t).countInterval.overClutches
    (fun t x => (Spares.refl t).withClutch x _) _)).endAbortIfOver

protected theorem endDirectionRamp (h : Keeps s t) (hn : t.shc.state ≠ .neutral) :
    Keeps s (endDirectionRamp t) :=
  h.arriveInGear ((Spares.refl t).lockAll _) hn

protected theorem endRampIfOver (h : Keeps s t) :
    Keeps s (if rampOver t = true then endDirectionRamp t else t) :=
  .iteOf (fun hover => h.endDirectionRamp (by simp [engaging_of_rampOver hover])) h

protected theorem rampStep (h : Keeps s t) : Keeps s (rampStep t) :=
  (h.spares ((Spares.refl t).countInterval.overClutches
    (fun t x => (Spares.refl t).withClutch x _) _)).endRampIfOver

protected theorem endDriveAwayIfOver (h : Keeps s t) :
    Keeps s (if driveAwayOver t = true then endDirectionRamp t else t) :=
  .iteOf (fun hover => h.endDirectionRamp (by simp [shuttling_of_driveAwayOver hover])) h

protected theorem driveAwayStep (h : Keeps s t) : Keeps s (driveAwayStep t) :=
  (h.spares ((Spares.refl t).countInterval.overClutches
    (fun t x => (Spares.refl t).withClutch x _) _)).endDriveAwayIfOver

/-- Where a PRESELECT that goes on ends, its gear is dropped (R89). -/
protected theorem afterFills (h : Keeps s t) : Keeps s (afterFills t) := by
  have hr := Spares.refl t
  unfold Machine.afterFills
  split
  case h_1 => exact .ite (h.spares hr.endFill) h
  case h_2 =>
    split
    · exact .ite (h.spares (hr.beginRamp _)) h
    · exact h
  case h_3 =>
    split
    · exact .ite (h.endPreselect _ (by rfl) (by exact id)) h
    · exact h
  case h_4 => exact .ite (h.spares hr.endDrain) h
  case h_5 => exact h

protected theorem drainStep (h : Keeps s t) : Keeps s (drainStep t) :=
  (h.spares (((Spares.refl t).countInterval.drainOffGoing (countInterval t).shc.interval).fillStep)).afterFills

/-- Step 4 of an interval, by the operation in progress (R73 to R87). -/
protected theorem advance (h : Keeps s t) : Keeps s (advance t) := by
  have hr := Spares.refl t
  unfold Machine.advance
  split
  case h_1 => exact (h.spares hr.adaptTests.fillStep).afterFills
  case h_2 => exact h.spares hr.adaptTests.torqueStep
  case h_3 => exact h.spares hr.inertiaStep
  case h_4 hstate _ => exact h.finishShift (by simp [hstate])
  case h_5 => exact h.abortStep
  case h_6 => exact (h.spares hr.fillStep).afterFills
  case h_7 => exact .ite (h.spares hr.fillStep) h.rampStep
  case h_8 => exact h.drainStep
  case h_9 => exact h.spares hr.reverseBrakeStep
  case h_10 => exact h.driveAwayStep
  case h_11 => exact (h.spares hr.fillStep).afterFills
  case h_12 => exact h

/-! ### Engagements (R83, R84) -/

protected theorem beginEngaging (h : Keeps s t) (g : Gear) : Keeps s (beginEngaging g t) := by
  have hfill (u : State) : Spares u (if allIn u .locked (gearPair u.cfg g) = true then beginRamp g u
      else overClutches preselectClutch (gearPair u.cfg g) u) :=
    .ite ((Spares.refl u).beginRamp g)
      ((Spares.refl u).overClutches (fun t x => (Spares.refl t).preselectClutch x) _)
  exact ((h.endPreselect _ (by rfl) (by exact id)).spares (hfill _)).enterWithout .engaging (hfill _).preselect

protected theorem engageRequest (h : Keeps s t) (d : Dir) : Keeps s (engageRequest d t) := by
  have hr := Spares.refl t
  unfold Machine.engageRequest
  split
  · split
    · exact h.spares (hr.refuseLever _)
    · exact h.beginEngaging _
  · exact h.spares (hr.refuseLever _)

protected theorem engageLever (h : Keeps s t) : Keeps s (engageLever t) := by
  unfold Machine.engageLever
  split
  case h_1 | h_2 => exact h.engageRequest _
  case h_3 | h_4 => exact h

/-! ### Neutral (R87, R89) -/

/-- NEUTRAL takes any PRESELECT. -/
protected theorem enterNeutralEmpty (hqueue : t.shc.queue = []) (hframes : TransmitQueueWhole s → TransmitQueueWhole t)
    (hrun : RunBounded s → RunBounded t) : Keeps s (enterGearbox .neutral t) :=
  have hk : Keeps s (t.withShc { t.shc with state := .neutral }) :=
    { requests := fun _ => (congrArg RequestsBounded hqueue).mpr requestsBounded_nil
      frames := hframes
      run := fun k => runBounded_withShc _ (hrun k)
      preselect := fun _ _ => rfl }
  hk.spares ((Spares.refl _).publish _)

/-- A way into NEUTRAL flushes the queue, so that only the frames and the run need have kept their bounds
before it. -/
protected theorem dropToNeutral (hframes : TransmitQueueWhole s → TransmitQueueWhole t)
    (hrun : RunBounded s → RunBounded t) : Keeps s (dropToNeutral t) :=
  have hk {u : State} (hq : u.shc.queue = []) (k : Spares t u) : Keeps s (enterGearbox .neutral u) :=
    .enterNeutralEmpty hq (k.frames ∘ hframes) (k.runBounded ∘ hrun)
  hk rfl ((((Spares.refl t).drainAll directionClutches).withdrawTorque.withShcQueue _ (by rfl)
    (fun _ => requestsBounded_nil)).dropOperation)

protected theorem neutralize (h : Keeps s t) : Keeps s (neutralize t) := by
  have hr := Spares.refl t
  have hdrop {u : State} (k : Spares t u) : Keeps s (dropToNeutral u) :=
    .dropToNeutral (k.frames ∘ h.frames) (k.runBounded ∘ h.run)
  unfold Machine.neutralize
  split
  case h_1 => exact hdrop hr.reselect
  case h_2 => exact hdrop hr.leaveShift.reselect
  case h_3 => exact hdrop hr.abandonSwap.reselect
  case h_4 =>
    obtain ⟨x, hx⟩ := leaveEngaging_eq_withShc t
    have k := (Spares.refl (t.withShc x)).reselect
    rw [hx]
    exact .dropToNeutral (fun hs => k.frames (h.frames hs)) fun hs =>
      k.runBounded (runBounded_withShc x (h.run hs))
  all_goals exact h

/-! ### Park and fault hold (R90 to R92, R96) -/

protected theorem takePark (h : Keeps s t) : Keeps s (takePark t) :=
  .ite h (h.spares ((Spares.refl t).withShc _ (by rfl))).neutralize

protected theorem followParkRequest (h : Keeps s t) : Keeps s (followParkRequest t) :=
  have hf := h.spares ((Spares.refl t).withShc { t.shc with parkForce := parkRequested t } (by rfl))
  .ite hf.takePark (.ite (hf.spares ((Spares.refl _).withShc _ (by rfl))) hf)

protected theorem shcParkOrder (h : Keeps s t) : Keeps s (shcParkOrder t) :=
  (h.spares ((Spares.refl t).withShc _ (by rfl))).takePark.followParkRequest.spares (Spares.refl _).writeClutches

protected theorem applyPark (h : Keeps s t) : Keeps s (applyPark t) :=
  have hd := h.spares (((Spares.refl t).writePkv false).drainAll gearClutches)
  ((hd.endPreselect _ (by rfl) (by exact id)).enterWithout .parked rfl).spares (Spares.refl _).trailerParkOrder

protected theorem tryRelease (h : Keeps s t) (ended : Bool) : Keeps s (tryRelease ended t) := by
  have hn := (h.spares ((Spares.refl t).writePkv true)).enterNeutral
  unfold Machine.tryRelease
  split
  · exact h.spares ((Spares.refl t).refuseLever _)
  · exact .ite hn.engageLever hn

protected theorem parkTest (h : Keeps s t) (ended : Bool) : Keeps s (parkTest ended t) :=
  .ite h.applyPark (.ite (h.tryRelease _) h)

protected theorem enterFaultHold (h : Keeps s t) : Keeps s (enterFaultHold t) := by
  have hd := h.spares ((Spares.refl t).overClutches
    (fun t x => (Spares.refl t).drainCarrying x) Clutch.all).withdrawTorque
  exact ((hd.endPreselect _ rfl fun _ => requestsBounded_nil).spares
    (Spares.refl _).dropOperation).enterWithout .faultHold rfl

protected theorem faultHoldTest (h : Keeps s t) : Keeps s (faultHoldTest t) :=
  .ite (.ite h.enterNeutral h) (.ite h (.ite h.enterFaultHold h))

/-! ### Lever changes and the interval (R68, R83 to R91) -/

protected theorem moveToDirection (h : Keeps s t) (old : Lever) : Keeps s (moveToDirection old t) := by
  have hr := Spares.refl t
  unfold Machine.moveToDirection
  split
  case h_1 => exact h.engageLever
  case h_2 hstate => exact .ite (h.shuttleRequest (by simp [hstate])) (h.spares (hr.withShc _ (by rfl)))
  case h_3 | h_4 | h_5 => exact h.spares (hr.withShc _ (by rfl))
  all_goals exact h

protected theorem changeLever (h : Keeps s t) (l : Lever) : Keeps s (changeLever l t) := by
  have hl := h.spares ((Spares.refl t).withShc { t.shc with lever := l, ignored := none } (by rfl))
  cases l
  case n => exact hl.neutralize
  case f | r => exact hl.moveToDirection _
  case park => exact hl.takePark

protected theorem takeCab (h : Keeps s t) : Keeps s (takeCab t).1 := by
  have hr := Spares.refl t
  unfold Machine.takeCab
  split
  case h_1 d _ =>
    have hl := h.spares (hr.takeLevels d)
    dsimp only
    split
    · split
      · exact hl
      · exact hl.changeLever _
    · exact hl.spares ((Spares.refl _).compareLever _)
  case h_2 =>
    split
    · exact h.spares (hr.withShc _ (by rfl)).flushQueue
    · exact h

protected theorem takeInputs (h : Keeps s t) : Keeps s (takeInputs t).1 :=
  ((h.spares (Spares.refl t).firstInterval).takeCab.spares
    (Spares.refl _).takeSpeedLoss).followParkRequest.faultHoldTest

protected theorem advanceFrom (h : Keeps s t) (before : GearState) : Keeps s (advanceFrom before t) :=
  .ite h.advance h

/-- One control interval (R68), step by step. -/
protected theorem shcInterval (h : Keeps s t) : Keeps s (shcInterval t) :=
  ((h.takeInputs.takeHead.advanceFrom _).parkTest _).spares ((Spares.refl _).finishInterval _)

/-! ### Charge and restart (R93, R99) -/

protected theorem abandonShuttle (h : Keeps s t) : Keeps s (abandonShuttle t) :=
  have k := (Spares.refl t).abandonSwap.withShc _ (by rfl)
  .dropToNeutral (k.frames ∘ h.frames) (k.runBounded ∘ h.run)

protected theorem loseCharge (h : Keeps s t) : Keeps s (loseCharge t) := by
  have hf := h.spares (Spares.refl t).flushQueue
  have hr := Spares.refl (flushQueue t)
  unfold Machine.loseCharge
  dsimp only
  split
  case h_1 | h_2 => exact hf.spares hr.beginAbort
  case h_3 => exact .ite (hf.spares hr.beginAbort) hf
  case h_4 => exact hf.abandonShuttle
  case h_5 => exact hf.neutralize
  case h_6 => exact hf

protected theorem takeShcCharge (h : Keeps s t) (ev : SfeEvent) : Keeps s (takeShcCharge ev t) := by
  have hr := Spares.refl t
  cases ev
  case lowEnter => exact (h.spares (hr.raise _)).loseCharge.spares (Spares.refl _).writeClutches
  case failed => exact (h.spares (hr.clearFault _)).loseCharge.spares (Spares.refl _).writeClutches
  case lowLeave => exact h.spares (hr.clearFault _)
  case starting | valid | highEnter | highLeave => exact h

protected theorem restartShc (h : Keeps s t) : Keeps s (restartShc t) :=
  h.endPreselect _ rfl fun _ => requestsBounded_nil

end Keeps

end Sys2Proof.Proofs
end

