-- ==== Sys2Proof/Proofs/BoundsKept.lean ====
section
/-! SUPPORT. What the headland run, the modes and the resets do to the bounds (R167 to R178, R206 to R212), and the
statement that every step keeps them. -/

namespace Sys2Proof.Proofs

open Sys2Proof Sys2Proof.Machine

/-! ## The run's own operations that leave its place -/

namespace Spares

variable {s t : State} (h : Spares s t)
include h

protected theorem recordRefusal (r : StepRef) (why : StepReason) : Spares s (recordRefusal r why t) :=
  h.withHsq _ (by rfl)

protected theorem issueHitch (up : Bool) : Spares s (issueHitch up t) := by
  unfold Machine.issueHitch
  split
  · exact h.recordRefusal _ _
  · exact .ite h.hitchUp h.hitchDown

protected theorem shiftRequests (kind : ShiftKind) (n : Nat) : Spares s (shiftRequests kind n t) := by
  induction n generalizing t with
  | zero => exact h
  | succ n ih => exact ih (h.shiftRequest kind .headland)

protected theorem issueShift (kind : ShiftKind) (a : HAction) (n : Nat) : Spares s (issueShift kind a n t) :=
  have hn := h.shiftRequests kind n
  (Spares.ite (hn.recordRefusal _ _) hn).withHsq _ (by rfl)

protected theorem issueAction (a : HAction) : Spares s (issueAction a t) := by
  cases a
  case hitchRaise | hitchWork => exact h.issueHitch _
  case frontMode => exact h.acceptFrontMode _
  case shiftUp | shiftDown => exact h.issueShift _ _ _
  case slipControl => exact h.acceptSlipControl _
  case wait => exact h

protected theorem countTravel : Spares s (countTravel t) := by
  unfold Machine.countTravel
  split
  · exact h.withHsq _ (by rfl)
  · exact h

protected theorem checkRefusals : Spares s (checkRefusals t) := by
  have hn := h.withHsq { t.hsq with refusalsSeen := t.shc.refusals } (by rfl)
  refine .ite h ?_
  dsimp only
  split
  · exact hn.recordRefusal _ _
  · exact hn

protected theorem takeFront : Spares s (takeFront t).1 := by
  unfold Machine.takeFront
  split
  · exact h.withHsq _ (by rfl)
  · exact h

protected theorem takeSlip : Spares s (takeSlip t).1 := by
  unfold Machine.takeSlip
  split
  · exact h.withHsq _ (by rfl)
  · exact h

protected theorem takeDepth : Spares s (takeDepth t).1 := by
  unfold Machine.takeDepth
  split
  · exact h.withHsq _ (by rfl)
  · exact h.withHsq _ (by rfl)

/-- The three steps of an acknowledgement change outputs, the trailer and the fault table (R184). -/
protected theorem acknowledge : Spares s (acknowledge t) :=
  have hu := h.withFaults t.faultTable.unlatch
  (Spares.ite hu.releaseOutputs hu).releaseTrailer.withFaults _

end Spares

/-! ## Where a run stands (R168, R170) -/

/-- A run that is over keeps its index within its step count. -/
theorem runBounded_stopped (s : State) (x : Hsq) (hindex : x.index ≤ x.stepCount) (hstate : x.state ≠ .running) :
    RunBounded (s.withHsq x) :=
  ⟨hindex, fun k => absurd k hstate, fun _ => hstate⟩

/-- The remaining steps of a RUNNING run reach from its index to its step count. -/
theorem remaining_length {s : State} (h : RunBounded s) (hrun : s.hsq.state = .running) :
    s.hsq.index + (remaining s).length = s.hsq.stepCount := by
  obtain ⟨k, hkind, hcount⟩ := h.listed hrun
  have hindex := h.index
  simp only [remaining, hkind, List.length_drop]
  omega

theorem issueStep_index (x : HStep) (s : State) : (issueStep x s).hsq.index = s.hsq.index + 1 :=
  congrArg (· + 1) ((Spares.refl s).issueAction x.action).index

theorem issueStep_stepCount (x : HStep) (s : State) : (issueStep x s).hsq.stepCount = s.hsq.stepCount :=
  ((Spares.refl s).issueAction x.action).count

theorem running_of_due {s : State} (h : (distanceDue s || timeDue s) = true) : s.hsq.state = .running := by
  simp only [distanceDue, timeDue, State.running, Bool.or_eq_true, Bool.and_eq_true, beq_iff_eq] at h
  rcases h with h | h
  · exact h.1
  · exact h.1

namespace Keeps

variable {s t u : State}

/-- A run record with a place in its list; RUNNING only outside LOADING and on the list of its kind (R168). -/
protected theorem withHsq (h : Keeps s t) (x : Hsq)
    (hrun : RunBounded t → RunBounded (t.withHsq x)) : Keeps s (t.withHsq x) where
  requests := h.requests
  frames := h.frames
  run := hrun ∘ h.run
  preselect := h.preselect

protected theorem abortRun (h : Keeps s t) (cause : AbortCause) : Keeps s (abortRun cause t) :=
  .ite (h.withHsq _ fun k => runBounded_stopped t _ k.index (by simp)) h

protected theorem cabTouches (h : Keeps s t) (f : HAction → Bool) : Keeps s (cabTouches f t) :=
  .ite (h.abortRun _) h

protected theorem notice (h : Keeps s t) (f : HAction → Bool) : Keeps s (notice f t) := .ite (h.cabTouches f) h

/-! ### Issuing (R170) -/

/-- A step is issued while steps remain, and the index moves on by one. -/
protected theorem issueStep (h : Keeps s t) (x : HStep)
    (hindex : RunBounded s → t.hsq.index < t.hsq.stepCount) : Keeps s (issueStep x t) := by
  have ha := (Spares.refl t).issueAction x.action
  exact
    { requests := (h.spares ha).requests
      frames := (h.spares ha).frames
      run := fun k =>
        have hrun := (h.spares ha).run k
        have hnext : (issueAction x.action t).hsq.index + 1 ≤ (issueAction x.action t).hsq.stepCount := by
          rw [ha.index, ha.count]
          exact hindex k
        ⟨hnext, hrun.listed, hrun.loading⟩
      preselect := (h.spares ha).preselect }

/-- The index never passes the steps from it to the end of the list, however many are issued at once. -/
protected theorem issueFrom (l : List HStep) (h : Keeps s t)
    (hindex : RunBounded s → t.hsq.index + l.length ≤ t.hsq.stepCount) : Keeps s (issueFrom l t) := by
  induction l generalizing t with
  | nil => exact h.withHsq _ fun k => runBounded_stopped t _ k.index (by simp)
  | cons x rest ih =>
    simp only [List.length_cons] at hindex
    unfold Machine.issueFrom
    split
    case h_1 =>
      refine ih (h.issueStep x fun k => ?_) fun k => ?_
      · have := hindex k
        omega
      · have := hindex k
        rw [issueStep_index, issueStep_stepCount]
        omega
    case h_2 | h_3 => exact h.spares ((Spares.refl t).withHsq _ (by rfl))

protected theorem issueWaiting (h : Keeps s t) (hrun : t.hsq.state = .running) : Keeps s (issueWaiting t) := by
  unfold Machine.issueWaiting
  split
  case h_1 x rest hrest =>
    have hlength (k : RunBounded s) : t.hsq.index + (rest.length + 1) = t.hsq.stepCount := by
      rw [← remaining_length (h.run k) hrun, hrest, List.length_cons]
    refine (h.issueStep x fun k => ?_).issueFrom rest fun k => ?_
    · have := hlength k
      omega
    · have := hlength k
      rw [issueStep_index, issueStep_stepCount]
      omega
  case h_2 => exact h

protected theorem followTrigger (h : Keeps s t) : Keeps s (followTrigger t) :=
  have hc := h.spares (Spares.refl t).countTravel
  .iteOf (fun hdue => hc.issueWaiting (running_of_due hdue)) hc

/-! ### The interval and the run's start (R169, R170, R176, R177) -/

protected theorem touchIf (h : Keeps s t) (changed : Bool) (f : HAction → Bool) :
    Keeps s (if changed = true then cabTouches f t else t) := .ite (h.cabTouches f) h

protected theorem compareFields (h : Keeps s t) : Keeps s (compareFields t) :=
  (((h.spares (Spares.refl t).takeFront.takeSlip.takeDepth).touchIf _ _).touchIf _ _).touchIf _ _

protected theorem testGearbox (h : Keeps s t) : Keeps s (testGearbox t) :=
  .ite (h.abortRun _) (.ite (h.abortRun _) h)

protected theorem hsqInterval (h : Keeps s t) : Keeps s (hsqInterval t) :=
  have hc := h.compareFields.testGearbox.spares (Spares.refl _).checkRefusals
  .ite (.ite hc.followTrigger hc) (h.spares (Spares.refl t).checkRefusals)

/-- A run begins at the first step of its list (R170). -/
protected theorem startRun (h : Keeps s t) (hmode : t.mc.mode ≠ .loading) : Keeps s (startRun t) := by
  have hbegin (x : Hsq) (hx : x.index = 0) (hk : x.kind = some t.hsq.nextKind)
      (hc : x.stepCount = (listOf t.cfg t.hsq.nextKind).length) : Keeps s (t.withHsq x) :=
    h.withHsq x fun _ => ⟨hx ▸ Nat.zero_le _, fun _ => ⟨_, hk, hc⟩, fun k => absurd k hmode⟩
  refine ((hbegin _ rfl rfl rfl).spares ((Spares.refl _).withHsq _ (by rfl))).issueFrom _ fun _ => ?_
  exact (Nat.zero_add _).le

/-! ### Modes and resets (R185, R206 to R212) -/

/-- A run may be RUNNING in every mode but LOADING. -/
protected theorem setMode (h : Keeps s t) {m : Mode} (hm : m ≠ .loading) : Keeps s (setMode m t) := by
  have hmode : Keeps s (t.withMc { t.mc with mode := m }) :=
    { requests := h.requests
      frames := h.frames
      run := fun k => ⟨(h.run k).index, (h.run k).listed, fun hl => absurd hl hm⟩
      preselect := h.preselect }
  exact hmode.spares ((Spares.refl _).publish _)

protected theorem enterOperating (h : Keeps s t) : Keeps s (enterOperating t) :=
  (h.spares (((Spares.refl t).withShc _ (by rfl)).setStep _)).setMode (by decide)

protected theorem enterDormant (h : Keeps s t) : Keeps s (enterDormant t) :=
  ((h.spares (((Spares.refl t).setStep _).offOrder.stopScu.withShc _ (by rfl))).setMode (by decide)).spares
    ((Spares.refl _).dropUntaken.withEvents _)

protected theorem enterCalibrating (h : Keeps s t) : Keeps s (enterCalibrating t) :=
  (h.spares (((((Spares.refl t).listenOrder.withSfe _).requestCalibration none).onRequest .vsa).setStep
    _)).setMode (by decide)

protected theorem enterLimp (h : Keeps s t) (x : Sources) : Keeps s (enterLimp x t) :=
  (h.spares (((Spares.refl t).raise _).withLc _ (by rfl)).listenOrder).setMode (by decide)

/-- An image is loaded in LOADING, where no run is RUNNING on the lists it replaces. -/
protected theorem loadImage (version : Nat) (c : Image) (hmode : s.mc.mode = .loading) :
    Keeps s (loadImage version c s) where
  requests _ := requestsBounded_nil
  frames := id
  run k := ⟨k.index, fun hrun => absurd hrun (k.loading hmode), k.loading⟩
  preselect _ hp := absurd rfl hp

protected theorem finishLoading (d : List Byte) (c : Image) (hmode : s.mc.mode = .loading) :
    Keeps s (finishLoading d c s) :=
  have hl := Keeps.loadImage (word16 d 2) c hmode
  .ite (.ite hl.enterCalibrating hl.enterDormant) ((Keeps.refl s).enterLimp _)

/-- Empty queues, no PRESELECT and the run record of a reset meet every bound. -/
theorem of_reset (hqueue : t.shc.queue = []) (hpre : t.shc.preselect = none) (hframes : t.lc.queue = [])
    (hrun : t.hsq = .reset) : Keeps s t where
  requests _ := (congrArg RequestsBounded hqueue).mpr requestsBounded_nil
  frames _ := (congrArg FramesWhole hframes).mpr framesWhole_nil
  run _ := by
    constructor <;> rw [hrun]
    · exact Nat.le_refl _
    · simp [Hsq.reset]
    · simp [Hsq.reset]
  preselect _ hp := absurd hpre hp

protected theorem restartBlocks (h : Keeps s t) : Keeps s (restartBlocks t) :=
  (((h.spares (Spares.refl t).restartVdb).restartShc.spares
    ((Spares.refl _).withFdc _).restartHtc.restartTbc).withHsq _ fun _ =>
      runBounded_stopped _ .reset (Nat.le_refl 0) (by decide))

protected theorem finishRestart (h : Keeps s t) : Keeps s (finishRestart t) := by
  have ho := (h.spares ((Spares.refl t).withMc { t.mc with restartTag := none } (by rfl))).enterOperating
  unfold Machine.finishRestart
  dsimp only
  split
  · exact ho.spares ((Spares.refl _).serviceAnswer _ _ _ _)
  · exact ho

protected theorem beginRestart (h : Keeps s t) (tag : Byte) : Keeps s (beginRestart tag t) :=
  have hstep (u : State) : Spares u (u.withMc { u.mc with step := .offVsb, restartTag := some tag }) :=
    (Spares.refl u).withMc _ (by rfl)
  ((((h.spares ((Spares.refl t).serviceAnswer _ _ _ _)).spares (hstep _)).abortRun .mode).setMode
    (m := .restarting) (by decide)).spares ((Spares.refl _).dropUntaken.offRequest _)

protected theorem controlRestart (h : Keeps s t) (tag : Byte) : Keeps s (controlRestart tag t) :=
  have ha := fun r why => h.spares ((Spares.refl t).serviceAnswer codeControlRestart tag r why)
  .ite (ha _ _) (.ite (h.beginRestart _) (ha _ _))

protected theorem takeKeyOff (h : Keeps s t) : Keeps s (takeKeyOff t) :=
  have hm := (h.spares ((Spares.refl t).withMc _ (by rfl))).abortRun .mode
  (hm.setMode (m := .stopping) (by decide)).shcParkOrder.spares
    (Spares.refl _).hitchStopOrder.trailerStopOrder

protected theorem wakeEvent (h : Keeps s t) : Keeps s (wakeEvent t) := by
  have hr := Spares.refl t
  unfold Machine.wakeEvent
  split
  case h_1 => exact (h.spares (hr.withMc _ (by rfl)).listenOrder).setMode (by decide)
  case h_2 => exact h.spares (hr.withMc _ (by rfl))
  case h_3 => exact h

protected theorem stepAfterRise (h : Keeps s t) (x : Supply) : Keeps s (stepAfterRise x t) := by
  have hr := Spares.refl t
  unfold Machine.stepAfterRise
  split
  case h_1 | h_2 => exact h.spares ((hr.setStep _).onRequest _)
  case h_3 => exact h.finishRestart
  case h_4 => exact h

protected theorem stepAfterFall (h : Keeps s t) (x : Supply) : Keeps s (stepAfterFall x t) := by
  have hr := Spares.refl t
  unfold Machine.stepAfterFall
  split
  case h_1 | h_3 => exact h.spares ((hr.setStep _).offRequest _)
  case h_2 => exact h.enterDormant
  case h_4 => exact h.restartBlocks.spares (((Spares.refl _).setStep _).onRequest _)
  case h_5 => exact h

protected theorem completeFall (h : Keeps s t) (x : Supply) : Keeps s (completeFall x t) :=
  have hf := h.spares ((Spares.refl t).finishFall x)
  .ite (hf.stepAfterFall x) hf

end Keeps

/-! ## One modulator clock (log 2) -/

/-- A microsecond counts the pedal hold in the gearbox record and the wake timer in the mode's. -/
theorem spares_microTick (s : State) : Spares s (microTick s) := by
  have hshc : s.shc.micro s.mc.mode.controllersRun =
      { s.shc with pedalHold := (s.shc.micro s.mc.mode.controllersRun).pedalHold } := by
    unfold Shc.micro
    split <;> rfl
  exact { Spares.refl s with
    gearbox := (congrArg Shc.state hshc :)
    preselect := (congrArg Shc.preselect hshc :)
    mode := (congrArg Mc.mode (mc_micro s.mc) :)
    requests := (congrArg RequestsBounded (congrArg Shc.queue hshc)).mpr }

theorem spares_clockTick (s : State) : Spares s (clockTick s) := by
  by_cases hsub : s.sub + 1 < 5
  · rw [clockTick_of_within hsub]
    exact { Spares.refl s with }
  · have hbits : Spares s { s with clock := s.clock + 1, sub := 0, sfe := (clockSensors s).sfe } :=
      { Spares.refl s with }
    rw [clockTick_of_end hsub]
    exact hbits.trans (spares_microTick _)

/-! ## What a command takes before it acts -/

/-- The oldest event of a channel, acted on while its owner's timers run. -/
theorem keeps_event {s : State} {o : Owner} {x : Sensor} {runs : State → Bool} {f : SfeEvent → State → State}
    (hf : ∀ (ev : SfeEvent) (u : State), Keeps u (f ev u)) :
    Keeps s (match takeEvent o x s with
      | some (ev, u) => if runs u = true then f ev u else u
      | none => s) := by
  split
  next ev u htake =>
    have hu := (Spares.refl s).takeEvent htake
    exact .ite (hu.keeps.trans (hf ev u)) hu.keeps
  next => exact .refl s

/-- The oldest service request of a code. -/
theorem keeps_service {s : State} {p : Request → Bool} {f : Byte → Byte → State → State}
    (hf : ∀ (code tag : Byte) (u : State), Keeps u (f code tag u)) :
    Keeps s (match takeRequest p s with
      | some (.service code tag, u) => f code tag u
      | some (_, u) => u
      | none => s) := by
  split
  next code tag u htake => exact ((Spares.refl s).takeRequest htake).keeps.trans (hf code tag u)
  next u _ htake => exact ((Spares.refl s).takeRequest htake).keeps
  next => exact .refl s

theorem spares_takeHeadland {s u : State} {start : Bool} (h : takeHeadland start s = some u) : Spares s u := by
  unfold takeHeadland at h
  split at h
  next b v htake =>
    split at h
    · obtain rfl := Option.some.inj h
      exact (Spares.refl s).takeRequest htake
    · simp at h
  next => simp at h

theorem spares_takeSwitch {s u : State} {up : Bool} (h : takeSwitch up s = some u) : Spares s u := by
  unfold takeSwitch at h
  split at h
  next b v htake =>
    split at h
    · obtain rfl := Option.some.inj h
      exact (Spares.refl s).takeRequest htake
    · simp at h
  next => simp at h

theorem spares_takeShift {s u : State} {c : ShiftCmd} (h : takeShift s = some (c, u)) : Spares s u := by
  unfold takeShift at h
  split at h
  next b v htake =>
    obtain ⟨-, rfl⟩ := Prod.mk.inj (Option.some.inj h)
    exact (Spares.refl s).takeRequest htake
  next => simp at h

theorem due_of_shcDue {b : Bool} {s : State} (h : shcDue b s = true) : b = true := by
  simp only [shcDue, Bool.and_eq_true] at h
  exact h.2

theorem Keeps.cabShift {s u : State} {f : State → State} (h : Keeps s u) (hf : Spares u (f u)) :
    Keeps s (cabShift f u) :=
  .ite ((h.spares hf).notice _) h

theorem Keeps.cabSwitch {s u : State} (up : Bool) (h : Keeps s u) : Keeps s (cabSwitch up u) :=
  .ite ((h.spares ((Spares.refl u).hitchSwitch up)).notice _) h

theorem ne_loading_of_headlandRuns {s : State} (h : s.mc.mode.headlandRuns = true) : s.mc.mode ≠ .loading := by
  rintro hl
  rw [hl] at h
  exact absurd h (by decide)

/-! ## The statement -/

/-- Every command answers a next state that keeps the bounds. -/
theorem exec_keeps (i : Instr) (s : State) : ∃ t, exec i s = .next t ∧ Keeps s t := by
  have hr := Spares.refl s
  have hk := Keeps.refl s
  cases i with
  -- modes and resets
  | powerOnReset => exact ⟨_, rfl, .of_reset rfl rfl rfl rfl⟩
  | keyStateChange => exact ⟨_, rfl, hk.spares (.ite (hr.withPins _) ((hr.withPins _).withMc _ (by rfl)))⟩
  | loadingComplete => exact ⟨_, rfl, .iteOf (fun hdue => .finishLoading _ _ hdue.1) hk⟩
  | calibratingComplete => exact ⟨_, rfl, .ite hk.enterOperating hk⟩
  | keyOffTaken => exact ⟨_, rfl, .ite hk.takeKeyOff hk⟩
  | quietOrder => exact ⟨_, rfl, hk.spares (.ite (hr.setStep _).quietOrder hr)⟩
  | quietTimeout => exact ⟨_, rfl, hk.spares (.ite hr.reportQuiet hr)⟩
  | controlRestart => exact ⟨_, rfl, keeps_service fun _ tag u => (Keeps.refl u).controlRestart tag⟩
  | wake => exact ⟨_, rfl, .ite (.of_reset rfl rfl rfl rfl) hk⟩
  | couplingWake =>
    exact ⟨_, rfl, .ite (hk.spares (hr.withPins _)).wakeEvent (hk.spares (hr.withPins _))⟩
  | linkWake => exact ⟨_, rfl, .ite hk.wakeEvent hk⟩
  | wakeTimeout => exact ⟨_, rfl, .ite hk.enterDormant hk⟩
  | secondsTick => exact ⟨_, rfl, hk.spares (.ite hr (hr.withMc _ (by rfl)))⟩
  -- the speed capture unit
  | pulseEdge => exact ⟨_, rfl, hk.spares (.ite (hr.withChan _ _) hr)⟩
  | speedEvaluation => exact ⟨_, rfl, hk.spares (.ite hr.evaluateSpeeds hr)⟩
  | channelLost => exact ⟨_, rfl, hk.spares (.ite (hr.loseChannel _) hr)⟩
  | channelRecovered => exact ⟨_, rfl, hk.spares (.ite (hr.recoverChannel _) hr)⟩
  | groundPulseTimer => exact ⟨_, rfl, hk.spares (.ite hr.pulseTick hr)⟩
  | groundPulseEnd => exact ⟨_, rfl, hk.spares (.ite (hr.withScu _) hr)⟩
  -- the sensor front end
  | mainOutput =>
    refine ⟨_, rfl, ?_⟩
    split
    · exact hk.spares (hr.takeMain _ _)
    · exact hk
  | fastOutput =>
    refine ⟨_, rfl, ?_⟩
    split
    · exact hk.spares (.ite (hr.takeSlotOutput _) (hr.takeFast _ _))
    · exact hk
  | streamFailed => exact ⟨_, rfl, hk.spares (.ite (hr.failStream _) hr)⟩
  | streamRecovery => exact ⟨_, rfl, hk.spares (.ite (hr.restartStream _) hr)⟩
  | excitationSlot => exact ⟨_, rfl, hk.spares (.ite hr.endSlot hr)⟩
  | calibrationTimeout => exact ⟨_, rfl, hk.spares (.ite hr.calFailed hr)⟩
  | recalibratePosition =>
    exact ⟨_, rfl, keeps_service fun _ tag u => ((Spares.refl u).recalibrate tag).keeps⟩
  -- the valve driver bank
  | senseTimer samples =>
    exact ⟨_, rfl, hk.spares (.ite (hr.foldl (fun u o => (Spares.refl u).senseOne samples o) _) hr)⟩
  | openDetected => exact ⟨_, rfl, hk.spares (.ite (hr.setOpen _) hr)⟩
  | openRecovered => exact ⟨_, rfl, hk.spares (.ite (hr.clearOpen _) hr)⟩
  | shortTrip => exact ⟨_, rfl, hk.spares (.ite (hr.trip _) hr)⟩
  | retryTimerExpiry | deferredRetry => exact ⟨_, rfl, hk.spares (.ite (hr.openWindow _) hr)⟩
  | retrySuccess => exact ⟨_, rfl, hk.spares (.ite (hr.endRetry _) hr)⟩
  | pullInEnd => exact ⟨_, rfl, hk.spares (.ite (hr.withOut _ _) hr)⟩
  | supplyRiseComplete =>
    exact ⟨_, rfl, .ite ((hk.spares (hr.enableSupply _)).stepAfterRise _) hk⟩
  | supplyFallComplete =>
    exact ⟨_, rfl, .ite ((hk.spares (hr.withPins _)).completeFall _) (hk.spares (hr.withPins _))⟩
  | grantSupEvent => exact ⟨_, rfl, keeps_event fun ev u => ((Spares.refl u).grantOnEvent ev).keeps⟩
  -- the shift controller
  | shcControlInterval => exact ⟨_, rfl, .ite hk.shcInterval hk⟩
  | cabShiftUp | cabShiftDown =>
    refine ⟨_, rfl, ?_⟩
    split
    next u htake => exact (spares_takeShift htake).keeps.cabShift ((Spares.refl u).shiftRequest _ _)
    next => exact hk
  | cabSelect =>
    refine ⟨_, rfl, ?_⟩
    split
    next g u htake => exact (spares_takeShift htake).keeps.cabShift ((Spares.refl u).selectRequest _)
    next => exact hk
  | fillComplete =>
    exact ⟨_, rfl, .ite ((hk.spares (hr.settleFill _)).afterFills.spares (Spares.refl _).writeClutches) hk⟩
  | torquePhaseEnd => exact ⟨_, rfl, hk.spares (.ite hr.endTorque.writeClutches hr)⟩
  | syncReached => exact ⟨_, rfl, hk.spares (.ite hr.syncPoint.writeClutches hr)⟩
  | shiftTimeout => exact ⟨_, rfl, hk.spares (.ite hr.timeOutShift.writeClutches hr)⟩
  | abortComplete =>
    refine ⟨_, rfl, .iteOf (fun hdue => ?_) hk⟩
    have hstate := shifting_of_abortOver (due_of_shcDue hdue)
    exact (hk.endAbort (by simp [hstate])).spares (Spares.refl _).writeClutches
  | engageRampEnd =>
    refine ⟨_, rfl, .iteOf (fun hdue => ?_) hk⟩
    have hstate := engaging_of_rampOver (due_of_shcDue hdue)
    exact (hk.endDirectionRamp (by simp [hstate])).spares (Spares.refl _).writeClutches
  | shuttleDrainEnd => exact ⟨_, rfl, hk.spares (.ite hr.endDrain.writeClutches hr)⟩
  | driveAwayEnd =>
    refine ⟨_, rfl, .iteOf (fun hdue => ?_) hk⟩
    have hstate := shuttling_of_driveAwayOver (due_of_shcDue hdue)
    exact (hk.endDirectionRamp (by simp [hstate])).spares (Spares.refl _).writeClutches
  | clutchDrainComplete => exact ⟨_, rfl, hk.spares (.ite (hr.openClutch _) hr)⟩
  | pedalHoldExpiry => exact ⟨_, rfl, hk.spares (.ite hr.dropPedal hr)⟩
  | autoShiftTimer => exact ⟨_, rfl, hk.spares (.ite hr.autoTick hr)⟩
  | autoUp | autoDown => exact ⟨_, rfl, hk.spares (.ite (hr.offerAuto _) hr)⟩
  | shcChgEvent => exact ⟨_, rfl, keeps_event fun ev u => (Keeps.refl u).takeShcCharge ev⟩
  | shcOilEvent => exact ⟨_, rfl, keeps_event fun ev u => ((Spares.refl u).takeOil ev).keeps⟩
  | resetAdaptation =>
    exact ⟨_, rfl, keeps_service fun _ tag u => ((Spares.refl u).resetAdaptation tag).keeps⟩
  -- the front drive
  | fdcControlInterval => exact ⟨_, rfl, hk.spares (.ite hr.fdcInterval hr)⟩
  | fdcRelease | releasingComplete | engagingComplete => exact ⟨_, rfl, hk.spares (.ite (hr.enterFdc _) hr)⟩
  | autoSlipClear => exact ⟨_, rfl, hk.spares (.ite hr.clearAutoSlip hr)⟩
  | frontSlipRaise => exact ⟨_, rfl, hk.spares (.ite hr.raiseFrontSlip hr)⟩
  | frontSlipClear => exact ⟨_, rfl, hk.spares (.ite hr.clearFrontSlip hr)⟩
  | fdcChgEvent => exact ⟨_, rfl, keeps_event fun ev u => ((Spares.refl u).takeFdcCharge ev).keeps⟩
  -- the hitch
  | htcControlInterval =>
    exact ⟨_, rfl, hk.spares (.ite (hr.withPins _).htcInterval (hr.withPins _))⟩
  | switchUp | switchDown =>
    refine ⟨_, rfl, ?_⟩
    split
    next u htake => exact (spares_takeSwitch htake).keeps.cabSwitch _
    next => exact hk
  | htcDraftEvent pin => exact ⟨_, rfl, keeps_event fun ev u => ((Spares.refl u).takeDraft pin ev).keeps⟩
  | htcHpsFailed => exact ⟨_, rfl, keeps_event fun ev u => ((Spares.refl u).takeHps ev).keeps⟩
  -- the trailer brakes
  | tbcControlInterval =>
    exact ⟨_, rfl, hk.spares (.ite (hr.withPins _).tbcInterval (hr.withPins _))⟩
  | couplingChange => exact ⟨_, rfl, hk.spares (.ite (hr.changeCoupling _).recomputeTcv hr)⟩
  | chargeTimeout => exact ⟨_, rfl, hk.spares (.ite hr.failCharge.recomputeTcv hr)⟩
  | supplyLowTimeout => exact ⟨_, rfl, hk.spares (.ite hr.loseSupply.recomputeTcv hr)⟩
  | supplyRecovered => exact ⟨_, rfl, hk.spares (.ite hr.recoverSupply.recomputeTcv hr)⟩
  | brakeUnknown => exact ⟨_, rfl, hk.spares (.ite (hr.raise _) hr)⟩
  | brakeDisagree => exact ⟨_, rfl, hk.spares (.ite hr.raiseDisagree hr)⟩
  | brakeDisagreeClear => exact ⟨_, rfl, hk.spares (.ite hr.clearDisagree hr)⟩
  | tbrStateEvent => exact ⟨_, rfl, keeps_event fun _ u => (Spares.refl u).takeTbr.keeps⟩
  | tclEvent => exact ⟨_, rfl, keeps_event fun ev u => ((Spares.refl u).takeTcl ev).keeps⟩
  | tslEvent => exact ⟨_, rfl, keeps_event fun ev u => ((Spares.refl u).takeTsl ev).keeps⟩
  -- the headland run
  | hsqControlInterval | distanceTrigger | timeTrigger => exact ⟨_, rfl, .ite hk.hsqInterval hk⟩
  | headlandStart =>
    refine ⟨_, rfl, ?_⟩
    split
    next u htake =>
      have hu := (spares_takeHeadland htake).keeps
      refine .iteOf (fun hruns => hu.startRun (ne_loading_of_headlandRuns ?_)) hu
      simp only [Bool.and_eq_true] at hruns
      exact hruns.1
    next => exact hk
  | headlandCancel =>
    refine ⟨_, rfl, ?_⟩
    split
    next u htake =>
      have hu := (spares_takeHeadland htake).keeps
      exact .ite (hu.abortRun _) hu
    next => exact hk
  -- the link
  | frameReceived => exact ⟨_, rfl, hk.spares (.ite (hr.takeFrame _ _) hr)⟩
  | peerTimeout => exact ⟨_, rfl, hk.spares (.ite (hr.loseGroup _) hr)⟩
  | periodTimer => exact ⟨_, rfl, hk.spares (.ite (hr.publish _) hr)⟩
  | torqueLimitTimer => exact ⟨_, rfl, hk.spares (.ite (hr.publish _) hr)⟩
  | transmitAttempt =>
    refine ⟨_, rfl, ?_⟩
    split
    · exact hk.spares (hr.startAttempt _)
    · exact hk
  | attemptSuccess =>
    refine ⟨_, rfl, ?_⟩
    split
    · exact hk.spares (.ite (hr.succeed _).reportQuiet (hr.succeed _))
    · exact hk
  | arbitrationLost => exact ⟨_, rfl, hk.spares (.ite hr.endAttempt hr)⟩
  | attemptFailure => exact ⟨_, rfl, hk.spares (.ite hr.failAttempt hr)⟩
  | muteRecovery => exact ⟨_, rfl, hk.spares (.ite hr.leaveMuted hr)⟩
  | listenWindowEnd => exact ⟨_, rfl, hk.spares (.ite hr.endWindow hr)⟩
  | serviceRequestUnknown =>
    exact ⟨_, rfl, keeps_service fun _ _ u => ((Spares.refl u).serviceAnswer _ _ _ _).keeps⟩
  | faultAcknowledge =>
    refine ⟨_, rfl, ?_⟩
    split
    next u htake =>
      have hu := (hr.takeRequest htake).keeps
      exact .ite (hu.spares (Spares.refl u).acknowledge) hu
    next => exact hk
  | faultAck =>
    exact ⟨_, rfl, keeps_service fun _ _ u =>
      (Keeps.refl u).spares (.ite ((Spares.refl u).acknowledge.serviceAnswer _ _ _ _) (.refl u))⟩

/-- A step runs the front command on the rest of the queue, or lets one clock pass; both keep the bounds. -/
theorem step_keeps {s t : State} (h : step s = .next t) : Keeps s t := by
  unfold step at h
  split at h
  next c rest _ =>
    obtain ⟨u, hu, hkeeps⟩ := exec_keeps c { s with pending := rest }
    obtain rfl := Host.Outcome.next.inj (hu.symm.trans h)
    have hrest : Spares s { s with pending := rest } := { Spares.refl s with }
    exact hrest.keeps.trans hkeeps
  next =>
    obtain rfl := Host.Outcome.next.inj h
    exact (spares_clockTick s).keeps

/-- Settles O57: each bound is kept by itself. -/
theorem everyStepKeepsQueuesAndRun : Obligations.EveryStepKeepsQueuesAndRun := by
  intro s t hstep
  obtain ⟨requests, frames, run, preselect⟩ := step_keeps hstep
  exact ⟨requests, frames, run, preselect⟩

end Sys2Proof.Proofs
end

