-- ==== Sys2Proof/Proofs/RoutineWrites.lean ====
section
/-! SUPPORT. Properties of states that the blocks' routine writes keep, packaged once: a property is kept by every
operation made of such writes when it is kept by each kind of write. Here the writes, and the operations of the
frames, the link, the speed capture unit, the sensor front end, the trailer brakes and the hitch. -/

namespace Sys2Proof.Proofs

open Sys2Proof Sys2Proof.Machine

/-! ## Where an operation branches or repeats -/

theorem holds_ite {P : State → Prop} {c : Prop} [Decidable c] {t u : State} (h : P t) (k : P u) :
    P (if c then t else u) := iteInduction (fun _ => h) fun _ => k

theorem holds_foldl {P : State → Prop} {α : Type} {f : State → α → State}
    (hf : ∀ (t : State) (a : α), P t → P (f t a)) (l : List α) {s : State} (h : P s) : P (l.foldl f s) :=
  List.foldlRecOn l f h fun t ht a _ => hf t a ht

/-! ## The writes -/

/-- `P` is kept by the writes that are routine: any of the records of speed, sensors, gearbox, hitch, run and link,
of events, requests and lines; of the front drive that leave the axle's state and reasons, of the trailer that leave
the brake pressure, of the modes that leave the fault table; a fault raised or cleared; a command of an output that
is neither the front drive's nor the hitch's; at most one hitch valve opened; the tests of the grant and the orders
to the supplies. -/
structure KeptByRoutine (P : State → Prop) : Prop where
  withScu {s : State} (x : Scu) : P s → P (s.withScu x)
  withSfe {s : State} (x : Sfe) : P s → P (s.withSfe x)
  withShc {s : State} (x : Shc) : P s → P (s.withShc x)
  withHtc {s : State} (x : Htc) : P s → P (s.withHtc x)
  withHsq {s : State} (x : Hsq) : P s → P (s.withHsq x)
  withLc {s : State} (x : Lc) : P s → P (s.withLc x)
  withEvents {s : State} (x : List Delivery) : P s → P (s.withEvents x)
  withRequests {s : State} (x : List Request) : P s → P (s.withRequests x)
  withPins {s : State} (x : Pins) : P s → P (s.withPins x)
  withFdc {s : State} (x : Fdc) (hsame : (x.state, x.reasons) = (s.fdc.state, s.fdc.reasons)) :
    P s → P (s.withFdc x)
  withTbc {s : State} (x : Tbc) (hbrake : x.brake = s.tbc.brake) : P s → P (s.withTbc x)
  withMc {s : State} (x : Mc) (htable : (x.faults, x.full) = (s.mc.faults, s.mc.full)) : P s → P (s.withMc x)
  raise {s : State} (c : FaultCode) : P s → P (raise c s)
  raiseLatched {s : State} (c : FaultCode) : P s → P (raiseLatched c s)
  clearFault {s : State} (c : FaultCode) : P s → P (clearFault c s)
  writeCommand {s : State} {o : Output} (ho : o ≠ .fdv ∧ o ≠ .hrv ∧ o ≠ .hlv) (v : Nat) :
    P s → P (writeCommand o v s)
  setValves {s : State} {hrv hlv : Nat} (hone : hrv = 0 ∨ hlv = 0) : P s → P (setValves hrv hlv s)
  grantOnDemand {s : State} : P s → P (grantOnDemand s)
  grantOnEvent {s : State} (ev : SfeEvent) : P s → P (grantOnEvent ev s)
  onRequest {s : State} (x : Supply) : P s → P (onRequest x s)
  offRequest {s : State} (x : Supply) : P s → P (offRequest x s)

/-! ## What a command takes before it acts -/

theorem takeEvent_eq_withEvents {o : Owner} {x : Sensor} {ev : SfeEvent} {s u : State}
    (h : takeEvent o x s = some (ev, u)) : ∃ l, u = s.withEvents l := by
  unfold takeEvent at h
  split at h
  · obtain ⟨-, rfl⟩ := Prod.mk.inj (Option.some.inj h)
    exact ⟨_, rfl⟩
  · simp at h

theorem takeRequest_eq_withRequests {p : Request → Bool} {r : Request} {s u : State}
    (h : takeRequest p s = some (r, u)) : ∃ l, u = s.withRequests l := by
  unfold takeRequest at h
  split at h
  · obtain ⟨-, rfl⟩ := Prod.mk.inj (Option.some.inj h)
    exact ⟨_, rfl⟩
  · simp at h

theorem takeHeadland_eq_withRequests {start : Bool} {s u : State} (h : takeHeadland start s = some u) :
    ∃ l, u = s.withRequests l := by
  unfold takeHeadland at h
  split at h
  next b v htake =>
    split at h
    · obtain rfl := Option.some.inj h
      exact takeRequest_eq_withRequests htake
    · simp at h
  next => simp at h

theorem takeSwitch_eq_withRequests {up : Bool} {s u : State} (h : takeSwitch up s = some u) :
    ∃ l, u = s.withRequests l := by
  unfold takeSwitch at h
  split at h
  next b v htake =>
    split at h
    · obtain rfl := Option.some.inj h
      exact takeRequest_eq_withRequests htake
    · simp at h
  next => simp at h

theorem takeShift_eq_withRequests {c : ShiftCmd} {s u : State} (h : takeShift s = some (c, u)) :
    ∃ l, u = s.withRequests l := by
  unfold takeShift at h
  split at h
  next b v htake =>
    obtain ⟨-, rfl⟩ := Prod.mk.inj (Option.some.inj h)
    exact takeRequest_eq_withRequests htake
  next => simp at h

/-! ## The hitch's control law (R135) -/

/-- The law opens one valve at most (R135). -/
theorem lawValves_one (e : Int) (noRaise noLower : Bool) (rate : Nat) :
    (lawValves e noRaise noLower rate).1 = 0 ∨ (lawValves e noRaise noLower rate).2 = 0 := by
  unfold lawValves
  split
  · exact .inl rfl
  · split
    · exact .inr rfl
    · exact .inl rfl

namespace KeptByRoutine

variable {P : State → Prop} (hP : KeptByRoutine P) {s : State}
include hP

/-- The oldest event of a channel, acted on while its owner's timers run. -/
protected theorem event {o : Owner} {x : Sensor} {runs : State → Bool} {f : SfeEvent → State → State}
    (hf : ∀ (ev : SfeEvent) (u : State), runs u = true → P u → P (f ev u)) (h : P s) :
    P (match takeEvent o x s with
      | some (ev, u) => if runs u = true then f ev u else u
      | none => s) := by
  split
  next ev u htake =>
    obtain ⟨l, rfl⟩ := takeEvent_eq_withEvents htake
    have hu := hP.withEvents l h
    exact iteInduction (fun hruns => hf ev _ hruns hu) fun _ => hu
  next => exact h

/-- The oldest service request of a code. -/
protected theorem service {p : Request → Bool} {f : Byte → Byte → State → State}
    (hf : ∀ (code tag : Byte) (u : State), P u → P (f code tag u)) (h : P s) :
    P (match takeRequest p s with
      | some (.service code tag, u) => f code tag u
      | some (_, u) => u
      | none => s) := by
  split
  next code tag u htake =>
    obtain ⟨l, rfl⟩ := takeRequest_eq_withRequests htake
    exact hf _ _ _ (hP.withRequests l h)
  next u _ htake =>
    obtain ⟨l, rfl⟩ := takeRequest_eq_withRequests htake
    exact hP.withRequests l h
  next => exact h

/-! ## The fault table, events and requests -/

protected theorem deliver (x : Sensor) (ev : SfeEvent) (v : Int) (h : P s) : P (deliver x ev v s) :=
  hP.withEvents _ h

protected theorem dropUntaken (h : P s) : P (dropUntaken s) := hP.withRequests _ (hP.withEvents _ h)

/-! ## The part's own frames (R195, R198) -/

protected theorem makeFrame (g : Group) (d : List Byte) (h : P s) : P (makeFrame g d s) :=
  holds_ite (hP.withLc _ h) h

protected theorem nextPage (g : Group) (h : P s) : P (nextPage g s) := by
  cases g
  case motion | driveHitch | faultReport => exact hP.withLc _ h
  all_goals exact h

protected theorem publish (g : Group) (h : P s) : P (publish g s) :=
  holds_ite (hP.nextPage _ (hP.makeFrame _ _ h)) h

protected theorem serviceAnswer (code tag : Byte) (r : ServiceResult) (why : ServiceReason) (h : P s) :
    P (serviceAnswer code tag r why s) := hP.makeFrame _ _ h

/-! ## The link (10) -/

protected theorem setStep (x : SeqStep) (h : P s) : P (setStep x s) := hP.withMc _ (by rfl) h

protected theorem listenOrder (h : P s) : P (listenOrder s) := hP.withMc _ (by rfl) (hP.withLc _ h)

protected theorem reportQuiet (h : P s) : P (reportQuiet s) :=
  have hl := hP.withLc { s.lc with quietTimer := none } h
  holds_ite (hP.offRequest _ (hP.withMc _ (by rfl) hl)) hl

protected theorem reportIfWaiting (h : P s) : P (reportIfWaiting s) := holds_ite (hP.reportQuiet h) h
protected theorem enterActive (h : P s) : P (enterActive s) := hP.publish _ (hP.withLc _ h)

protected theorem enterMuted (h : P s) : P (enterMuted s) :=
  hP.reportIfWaiting (hP.raise _ (hP.withLc _ h))

protected theorem enterConflict (h : P s) : P (enterConflict s) :=
  hP.reportIfWaiting (hP.raiseLatched _ (hP.clearFault _ (hP.withMc _ (by rfl) (hP.withLc _ h))))

protected theorem quietOrder (h : P s) : P (quietOrder s) :=
  have hl := hP.withLc { (publish .quietNotice s).lc with quiet := true, quietTimer := some 0 }
    (hP.publish .quietNotice h)
  holds_ite hl (hP.reportQuiet hl)

protected theorem clearStale (g : PeerGroup) (h : P s) : P (clearStale g s) := by
  unfold Machine.clearStale
  split
  · exact hP.clearFault _ h
  · exact h

protected theorem fileFrame (g : PeerGroup) (d : List Byte) (h : P s) : P (fileFrame g d s) := by
  have hl := hP.withLc (s.lc.fileData g d) h
  have hc : P (if s.lc.freshness g = .fresh then s.withLc (s.lc.fileData g d)
      else Machine.clearStale g (s.withLc (s.lc.fileData g d))) := holds_ite hl (hP.clearStale g hl)
  exact holds_ite (hP.withRequests _ hc) hc

protected theorem takeFrame (id : BitVec 11) (d : List Byte) (h : P s) : P (takeFrame id d s) := by
  have hc : P (countHeard s) := holds_ite (hP.withLc _ h) h
  refine holds_ite (holds_ite hc (hP.enterConflict hc)) ?_
  split
  · exact hP.fileFrame _ _ hc
  · exact hc

protected theorem loseGroup (g : PeerGroup) (h : P s) : P (loseGroup g s) := by
  unfold Machine.loseGroup
  dsimp only
  split
  · exact hP.raise _ (hP.withLc _ h)
  · exact hP.withLc _ h

protected theorem failAttempt (h : P s) : P (failAttempt s) :=
  have hl := hP.withLc { s.lc.endAttempt with errors := min errorLimit (s.lc.errors + errorStep) } h
  holds_ite (hP.enterMuted hl) hl

protected theorem leaveMuted (h : P s) : P (leaveMuted s) :=
  hP.enterActive (hP.clearFault _ (hP.withLc _ h))

protected theorem endWindow (h : P s) : P (endWindow s) := hP.withMc _ (by rfl) (hP.enterActive h)

/-! ## The speed capture unit (01) -/

protected theorem withChan (c : PulseChannel) (r : PulseRec) (h : P s) : P (s.withChan c r) := hP.withScu _ h

protected theorem loseChannel (c : PulseChannel) (h : P s) : P (loseChannel c s) :=
  hP.raise _ (hP.withChan _ _ h)

protected theorem recoverChannel (c : PulseChannel) (h : P s) : P (recoverChannel c s) :=
  hP.clearFault _ (hP.withChan _ _ h)

protected theorem checkLoss (c : PulseChannel) (h : P s) : P (checkLoss s c) :=
  have hc := hP.withChan c _ h
  holds_ite (holds_ite (hP.loseChannel c hc) hc) h

protected theorem checkRecovery (c : PulseChannel) (h : P s) : P (checkRecovery s c) :=
  have hc := hP.withChan c _ h
  holds_ite (holds_ite (hP.recoverChannel c hc) hc) h

protected theorem evaluateSpeeds (h : P s) : P (evaluateSpeeds s) :=
  hP.withScu _ (holds_foldl (fun _ c => hP.checkRecovery c) _ (holds_foldl (fun _ c => hP.checkLoss c) _
    (holds_foldl (fun _ c => hP.withChan c _) _ h)))

protected theorem pulseTick (h : P s) : P (pulseTick s) := holds_ite (hP.withScu _ h) (hP.withScu _ h)

/-! ## The sensor front end (02) -/

protected theorem withSensor (x : Sensor) (r : SensorRec) (h : P s) : P (s.withSensor x r) := hP.withSfe _ h
protected theorem withCal (c : CalRec) (h : P s) : P (s.withCal c) := hP.withSfe _ h

protected theorem discardOutput (x : Sensor) (h : P s) : P (discardOutput x s) :=
  holds_ite (hP.deliver _ _ _ (hP.withSensor _ _ h)) (hP.withSensor _ _ h)

protected theorem writeValue (x : Sensor) (v : Int × Bool) (h : P s) : P (writeValue x v s) :=
  hP.withSensor _ _ h

protected theorem takeMain (x : Sensor) (raw : Int) (h : P s) : P (takeMain x raw s) := by
  have hm := hP.withSensor x { s.sensor x with mainDone := none } h
  unfold Machine.takeMain
  dsimp only
  split
  · exact hP.discardOutput _ hm
  · exact hP.writeValue _ _ hm
  all_goals exact hm

protected theorem deliverIf (x : Sensor) (ev : Option SfeEvent) (v : Int) (h : P s) :
    P (deliverIf x ev v s) := by
  cases ev
  case none => exact h
  case some e => exact hP.deliver _ _ _ h

protected theorem compare (x : Sensor) (v : Int) (h : P s) : P (compare x v s) :=
  hP.deliverIf _ _ _ (hP.deliverIf _ _ _ (hP.withSensor _ _ h))

protected theorem takeSlotOutput (raw : Int) (h : P s) : P (takeSlotOutput raw s) :=
  have hs := hP.withSfe _ (hP.withSensor .hps _ h)
  holds_ite (hP.discardOutput _ hs) hs

protected theorem takeFast (x : Sensor) (raw : Int) (h : P s) : P (takeFast x raw s) :=
  have hs := hP.withSensor x _ h
  holds_ite (hP.compare _ _ hs) hs

protected theorem answerCal (why : ServiceReason) (h : P s) : P (answerCal why s) := by
  unfold Machine.answerCal
  split
  · exact hP.serviceAnswer _ _ _ _ (hP.withCal _ h)
  · exact h

protected theorem calDone (d : Nat) (h : P s) : P (calDone d s) :=
  hP.answerCal _ (hP.clearFault _ (hP.withCal _ h))

protected theorem calFailed (h : P s) : P (calFailed s) := hP.answerCal _ (hP.raise _ (hP.withCal _ h))
protected theorem dropPosition (h : P s) : P (dropPosition s) := hP.withSfe _ h

protected theorem requestCalibration (tag : Option Byte) (h : P s) : P (requestCalibration tag s) :=
  have hd := fun c => hP.withCal c (hP.dropPosition h)
  holds_ite (hP.calFailed (hd _)) (hd _)

protected theorem recordSlot (h : P s) : P (recordSlot s) := by
  refine holds_ite (holds_ite ?_ (hP.withCal _ h)) h
  split
  · exact hP.calDone _ h
  · exact hP.calFailed h

protected theorem demodulateSlot (h : P s) : P (demodulateSlot s) := by
  unfold Machine.demodulateSlot
  split
  · exact holds_ite (hP.withSfe _ (hP.writeValue _ _ h)) (hP.withSfe _ h)
  · exact h

protected theorem endSlot (h : P s) : P (endSlot s) :=
  have hr := hP.recordSlot (hP.demodulateSlot h)
  holds_ite (hP.withSfe _ hr) (hP.withSfe _ hr)

protected theorem failStream (x : Sensor) (h : P s) : P (failStream x s) :=
  have hs := hP.withSensor x _ h
  hP.deliver _ _ _ (hP.raise _ (holds_ite (hP.withCal _ (hP.dropPosition hs)) hs))

protected theorem restartStream (x : Sensor) (h : P s) : P (restartStream x s) :=
  hP.deliver _ _ _ (hP.clearFault _ (hP.withSensor _ _ h))

protected theorem recalibrate (tag : Byte) (h : P s) : P (recalibrate tag s) :=
  have ha := fun r why => hP.serviceAnswer codeRecalibrate tag r why h
  holds_ite (ha _ _) (holds_ite (holds_ite (ha _ _) (hP.requestCalibration _ (ha _ _))) (ha _ _))

/-! ## The trailer brakes (07) -/

protected theorem writeDemand (h : P s) : P (writeDemand s) := hP.grantOnDemand (hP.withTbc _ (by rfl) h)

protected theorem writeTcv (v : Nat) (h : P s) : P (writeTcv v s) :=
  hP.writeCommand (by decide) _ (hP.withTbc _ (by rfl) h)

protected theorem writeTsv (h : P s) : P (writeTsv s) :=
  hP.writeCommand (by decide) _ (hP.withTbc _ (by rfl) h)

protected theorem recomputeTcv (h : P s) : P (recomputeTcv s) := hP.writeTcv _ h

protected theorem enterIdle (st : TrailerState) (h : P s) : P (enterIdle st s) :=
  hP.publish _ (hP.writeTcv _ (hP.writeDemand (hP.writeTsv (hP.withTbc _ (by rfl) h))))

protected theorem enterCharging (h : P s) : P (enterCharging s) := hP.enterIdle _ (hP.withTbc _ (by rfl) h)

protected theorem enterReleased (h : P s) : P (enterReleased s) :=
  holds_ite (hP.enterCharging h) (hP.enterIdle _ h)

protected theorem enterTrailerParked (h : P s) : P (enterTrailerParked s) :=
  hP.enterIdle _ (hP.withTbc _ (by rfl) h)

protected theorem enterBreakaway (h : P s) : P (enterBreakaway s) := hP.raiseLatched _ (hP.enterIdle _ h)

protected theorem enterRegulated (st : TrailerState) (h : P s) : P (enterRegulated st s) :=
  hP.publish _ (hP.writeDemand (hP.writeTsv (hP.withTbc _ (by rfl) h)))

protected theorem changeCoupling (closed : Bool) (h : P s) : P (changeCoupling closed s) := by
  have hc := hP.withTbc { s.tbc with coupled := closed, samples := 0 } (by rfl) h
  unfold Machine.changeCoupling
  dsimp only
  split
  case h_1 => exact holds_ite (hP.enterCharging hc) hc
  case h_2 | h_3 | h_4 => exact holds_ite hc (hP.enterBreakaway hc)
  case h_5 | h_6 => exact hc

protected theorem settleCoupling (h : P s) : P (settleCoupling s) :=
  have hc := hP.withTbc { s.tbc with samples := s.tbc.samples + 1 } (by rfl) h
  holds_ite (hP.withTbc _ (by rfl) h) (holds_ite (hP.changeCoupling _ hc) hc)

protected theorem trailerParkOrder (h : P s) : P (trailerParkOrder s) := holds_ite (hP.enterTrailerParked h) h

protected theorem trailerStopOrder (h : P s) : P (trailerStopOrder s) :=
  hP.trailerParkOrder (hP.withTbc _ (by rfl) h)

protected theorem parkTests (h : P s) : P (parkTests s) :=
  holds_ite (hP.trailerParkOrder h) (holds_ite (hP.enterReleased h) h)

protected theorem releaseTrailer (h : P s) : P (releaseTrailer s) :=
  holds_ite (hP.clearFault _ (holds_ite (hP.enterTrailerParked h) (hP.enterReleased h))) h

protected theorem countUnknown (h : P s) : P (countUnknown s) :=
  have hb := fun x hx => hP.withTbc x hx h
  holds_ite (hP.clearFault _ (hb _ (by rfl))) (holds_ite (hP.raise _ (hb _ (by rfl))) (hb _ (by rfl)))

protected theorem raiseDisagree (h : P s) : P (raiseDisagree s) := hP.raise _ (hP.withTbc _ (by rfl) h)
protected theorem clearDisagree (h : P s) : P (clearDisagree s) := hP.clearFault _ (hP.withTbc _ (by rfl) h)

protected theorem compareBrakes (h : P s) : P (compareBrakes s) := by
  have hd := hP.withTbc { s.tbc with disagree := s.tbc.disagree + 1, agree := 0 } (by rfl) h
  have ha := hP.withTbc { s.tbc with agree := min brakeLimit (s.tbc.agree + 1), disagree := 0 } (by rfl) h
  unfold Machine.compareBrakes
  split
  · exact holds_ite (holds_ite (hP.raiseDisagree hd) hd) (holds_ite (hP.clearDisagree ha) ha)
  · exact hP.withTbc _ (by rfl) h

protected theorem failCharge (h : P s) : P (failCharge s) := hP.raise _ (hP.enterRegulated _ h)
protected theorem loseSupply (h : P s) : P (loseSupply s) := hP.raise _ (hP.enterRegulated _ h)

protected theorem recoverSupply (h : P s) : P (recoverSupply s) :=
  hP.clearFault _ (hP.clearFault _ (hP.enterRegulated _ h))

protected theorem stateTests (h : P s) : P (stateTests s) := by
  have hl := hP.withTbc { s.tbc with supplyLow := s.tslLow } (by rfl) h
  have ht := fun n m => hP.withTbc
    { s.tbc with supplyLow := s.tslLow, timer := n, lowTimer := m } (by rfl) hl
  unfold Machine.stateTests
  dsimp only
  split
  case h_1 => exact holds_ite (hP.recoverSupply (ht _ _)) (holds_ite (hP.failCharge (ht _ _)) (ht _ _))
  case h_2 => exact holds_ite (hP.loseSupply (ht _ _)) (ht _ _)
  case h_3 => exact holds_ite (hP.recoverSupply (ht _ _)) (ht _ _)
  all_goals exact hl

protected theorem readLines (h : P s) : P (readLines s) :=
  hP.withTbc _ (by rfl) (hP.withTbc _ (by rfl) h)

protected theorem driveLine (h : P s) : P (driveLine s) :=
  hP.writeTsv (hP.recomputeTcv (hP.withTbc _ (by rfl) (hP.writeDemand h)))

protected theorem takeTcl (ev : SfeEvent) (h : P s) : P (takeTcl ev s) := by
  cases ev
  case highEnter => exact hP.raise _ (hP.writeTcv _ (hP.withTbc _ (by rfl) h))
  case highLeave => exact hP.clearFault _ (hP.recomputeTcv (hP.withTbc _ (by rfl) h))
  case failed => exact hP.raise _ (hP.clearFault _ (hP.recomputeTcv (hP.withTbc _ (by rfl) h)))
  case valid => exact hP.clearFault _ h
  case starting | lowEnter | lowLeave => exact h

protected theorem takeTsl (ev : SfeEvent) (h : P s) : P (takeTsl ev s) := by
  cases ev
  case lowEnter | failed | starting | lowLeave => exact hP.withTbc _ (by rfl) h
  case valid => exact holds_ite (hP.withTbc _ (by rfl) h) h
  case highEnter | highLeave => exact h

/-! ## The hitch (06) -/

/-- Both valves closed. -/
protected theorem closeValves (h : P s) : P (Machine.setValves 0 0 s) := hP.setValves (.inl rfl) h

protected theorem beginRelief (h : P s) : P (beginRelief s) := hP.setValves (.inr rfl) (hP.withHtc _ h)

protected theorem enterWorking (h : P s) : P (enterWorking s) :=
  have hw := hP.withHtc _ h
  holds_ite (hP.beginRelief hw) (hP.closeValves hw)

protected theorem enterRaising (h : P s) : P (enterRaising s) := hP.setValves (.inr rfl) (hP.withHtc _ h)
protected theorem enterHeld (cause : HoldCause) (h : P s) : P (enterHeld cause s) :=
  hP.closeValves (hP.withHtc _ h)
protected theorem enterHitchFault (h : P s) : P (enterHitchFault s) := hP.closeValves (hP.withHtc _ h)

protected theorem leaveHitchFault (h : P s) : P (leaveHitchFault s) :=
  have hf := fun x => hP.withHtc x (hP.withHtc { s.htc with faultCause := none } h)
  holds_ite (hf _) (holds_ite (hf _) (hf _))

protected theorem hitchFaultTest (h : P s) : P (hitchFaultTest s) :=
  holds_ite (holds_ite (hP.withHtc _ h) (hP.leaveHitchFault h)) (holds_ite (hP.enterHitchFault h) h)

protected theorem hitchUp (h : P s) : P (hitchUp s) := by
  unfold Machine.hitchUp
  split
  case h_1 => exact hP.enterRaising (hP.withHtc _ h)
  case h_2 | h_3 => exact hP.enterRaising h
  all_goals exact h

protected theorem hitchDown (h : P s) : P (hitchDown s) := by
  unfold Machine.hitchDown
  split
  case h_1 => exact hP.enterWorking (hP.withHtc _ h)
  case h_2 | h_3 | h_4 => exact hP.enterWorking h
  all_goals exact h

protected theorem hitchSwitch (up : Bool) (h : P s) : P (hitchSwitch up s) :=
  holds_ite (holds_ite (hP.hitchUp h) (hP.hitchDown h)) h

protected theorem hitchStopOrder (h : P s) : P (hitchStopOrder s) :=
  holds_ite (hP.closeValves h) (hP.enterHeld _ h)

protected theorem readHitch (h : P s) : P (readHitch s) := by
  have hr := hP.withHtc (s.htc.read s) h
  exact hP.withHtc _ (holds_ite (hP.raise _ hr) (holds_ite (hP.clearFault _ hr) hr))

protected theorem actLever (h : P s) : P (actLever s) := holds_ite (hP.enterWorking h) h

protected theorem testLever (wasFresh : Bool) (h : P s) : P (testLever wasFresh s) := by
  unfold Machine.testLever
  dsimp only
  split
  · exact holds_ite (hP.withHtc _ h) (holds_ite (hP.actLever (hP.withHtc _ h)) h)
  · exact hP.withHtc _ h

protected theorem testSlipField (h : P s) : P (testSlipField s) := holds_ite h (hP.withHtc _ h)

protected theorem takeCabHitch (h : P s) : P (takeCabHitch s) := by
  unfold Machine.takeCabHitch
  split
  · exact hP.testSlipField (hP.testLever _ (hP.withHtc _ h))
  · exact hP.withHtc _ h

protected theorem cabLossTest (h : P s) : P (cabLossTest s) := holds_ite (hP.enterHeld _ h) h

protected theorem sourceTest (h : P s) : P (sourceTest s) := by
  have hl : P (if (s.htc.source == .implement && s.htc.state == .working && !s.lc.implement.isFresh) = true
      then Machine.enterHeld .sourceLost s else s) := holds_ite (hP.enterHeld _ h) h
  unfold Machine.sourceTest
  dsimp only
  split
  · exact hP.withHtc _ hl
  · exact hP.withHtc _ hl

protected theorem pressFender (h : P s) : P (pressFender s) :=
  holds_ite h (holds_ite (hP.withHtc _ h) (hP.withHtc _ h))

protected theorem settleFenders (h : P s) : P (settleFenders s) := by
  have hb := hP.withHtc { s.htc with left := s.htc.left.read s.pins.fenderLeft
                                     right := s.htc.right.read s.pins.fenderRight } h
  refine holds_foldl (P := P) (fun _ _ => hP.pressFender) _ ?_
  exact holds_ite (hP.withHtc _ hb) hb

protected theorem actLaw (h : P s) : P (actLaw s) := hP.setValves (lawValves_one _ _ _ _) (hP.withHtc _ h)

protected theorem actWorking (h : P s) : P (actWorking s) := holds_ite (hP.beginRelief h) (hP.actLaw h)

protected theorem actStartLock (h : P s) : P (actStartLock s) :=
  holds_ite (hP.actWorking (hP.enterWorking (hP.withHtc _ h))) (hP.closeValves h)

protected theorem actRaising (h : P s) : P (actRaising s) :=
  holds_ite (hP.closeValves (hP.withHtc _ h)) (hP.setValves (.inr rfl) h)

protected theorem actDamping (h : P s) : P (actDamping s) :=
  hP.setValves (lawValves_one _ _ _ _) (hP.withHtc _ h)

protected theorem actTransport (h : P s) : P (actTransport s) :=
  holds_ite (hP.enterRaising h) (hP.withHtc _ (holds_ite (hP.actDamping h) (hP.closeValves h)))

protected theorem actFender (h : P s) : P (actFender s) := by
  have hh := hP.enterHeld .fender h
  refine holds_ite (hP.withHtc _ hh) (holds_ite hh ?_)
  split
  · exact hP.setValves (.inr rfl) h
  · exact hP.setValves (.inl rfl) h
  · exact hP.closeValves h

protected theorem actHitch (h : P s) : P (actHitch s) := by
  have hc := hP.withHtc { s.htc with mixed := none, damping := false, slipOverride := false } h
  unfold Machine.actHitch
  dsimp only
  split
  case h_1 => exact hP.actStartLock hc
  case h_2 | h_3 => exact hP.closeValves hc
  case h_4 => exact hP.actRaising hc
  case h_5 => exact hP.actTransport hc
  case h_6 => exact hP.actWorking hc
  case h_7 => exact hP.actFender hc

protected theorem htcInterval (h : P s) : P (htcInterval s) :=
  hP.actHitch (hP.settleFenders (hP.sourceTest (hP.cabLossTest (hP.hitchFaultTest (hP.takeCabHitch
    (hP.readHitch h))))))

protected theorem setPin (pin : DraftPin) (b : Bool) (h : P s) : P (setPin pin b s) := by
  cases pin
  case left => exact hP.withHtc _ h
  case right => exact hP.withHtc _ h

protected theorem endRelief (h : P s) : P (endRelief s) := holds_ite (hP.closeValves (hP.withHtc _ h)) h

protected theorem takeDraft (pin : DraftPin) (ev : SfeEvent) (h : P s) : P (takeDraft pin ev s) := by
  cases ev
  case highEnter =>
    have hp := hP.setPin pin true h
    exact holds_ite (hP.beginRelief hp) hp
  case highLeave | failed => exact hP.endRelief (hP.setPin _ _ h)
  case starting | valid | lowEnter | lowLeave => exact h

protected theorem takeHps (ev : SfeEvent) (h : P s) : P (takeHps ev s) :=
  have hp := hP.withHtc { s.htc with posValid := false } h
  holds_ite (holds_ite hp (hP.enterHitchFault hp)) h

end KeptByRoutine

end Sys2Proof.Proofs
end

