-- ==== Sys2Proof/Proofs/RoutineGearbox.lean ====
section
/-! SUPPORT. The gearbox's operations (R65 to R99) keep every property that routine writes keep: they write the
gearbox record, their own outputs, frames and faults, and order the trailer to park. -/

namespace Sys2Proof.Proofs

open Sys2Proof Sys2Proof.Machine

/-- No clutch is driven by the front drive's output or a hitch valve (R65). -/
theorem clutchOutput_apart (x : Clutch) : x.output ≠ .fdv ∧ x.output ≠ .hrv ∧ x.output ≠ .hlv := by
  cases x <;> decide

theorem holds_overClutches {P : State → Prop} {f : State → Clutch → State}
    (hf : ∀ (t : State) (x : Clutch), P t → P (f t x)) (l : List Clutch) {s : State} (h : P s) :
    P (overClutches f l s) := holds_foldl hf l h

namespace KeptByRoutine

variable {P : State → Prop} (hP : KeptByRoutine P) {s : State}
include hP

/-! ## Clutches (R65, R66, R73, R88) -/

protected theorem withClutch (x : Clutch) (r : ClutchRec) (h : P s) : P (s.withClutch x r) := hP.withShc _ h

/-- Every clutch of a list takes a record made from the state as it then stands. -/
protected theorem setAll (r : State → Clutch → ClutchRec) (l : List Clutch) (h : P s) :
    P (overClutches (fun t x => t.withClutch x (r t x)) l s) :=
  holds_overClutches (fun _ x => hP.withClutch x _) l h

protected theorem lockAll (l : List Clutch) (h : P s) : P (overClutches lockClutch l s) := hP.setAll _ l h
protected theorem drainAll (l : List Clutch) (h : P s) : P (overClutches drainClutch l s) := hP.setAll _ l h
protected theorem fillAll (l : List Clutch) (h : P s) : P (overClutches startFill l s) := hP.setAll _ l h

protected theorem torqueOffAll (f : ClutchCfg → Nat) (l : List Clutch) (h : P s) :
    P (overClutches (torqueOff f) l s) := hP.setAll _ l h

protected theorem torqueOnAll (f : ClutchCfg → Nat) (l : List Clutch) (h : P s) :
    P (overClutches (torqueOn f) l s) := hP.setAll _ l h

protected theorem fillAlone (x : Clutch) (h : P s) : P (fillAlone s x) :=
  hP.withClutch _ _ (hP.drainAll _ h)

protected theorem writeClutch (x : Clutch) (h : P s) : P (writeClutch s x) :=
  hP.writeCommand (clutchOutput_apart x) _ (hP.withClutch _ _ h)

protected theorem writeClutches (h : P s) : P (writeClutches s) :=
  holds_overClutches (fun _ x => hP.writeClutch x) _ h

/-! ## Requests (R69 to R71, R97) -/

protected theorem refuse (why : ShcReason) (who : Origin) (h : P s) : P (refuse why who s) := hP.withShc _ h
protected theorem flushQueue (h : P s) : P (flushQueue s) := hP.withShc _ h

protected theorem shiftRequest (kind : ShiftKind) (who : Origin) (h : P s) : P (shiftRequest kind who s) := by
  unfold Machine.shiftRequest
  split
  case h_1 => exact hP.refuse _ _ h
  case h_2 =>
    split
    · exact hP.withShc _ h
    · exact hP.refuse _ _ h

protected theorem selectRequest (g : Option Gear) (h : P s) : P (selectRequest g s) := by
  cases g
  case none => exact hP.refuse _ _ h
  case some g => exact holds_ite (hP.withShc _ h) (hP.refuse _ _ h)

protected theorem offerAuto (kind : ShiftKind) (h : P s) : P (offerAuto kind s) :=
  hP.shiftRequest _ _ (hP.withShc _ h)

protected theorem autoTick (h : P s) : P (autoTick s) :=
  have hc := fun up down => hP.withShc { s.shc with upCount := up, downCount := down } h
  holds_ite (holds_ite (hP.offerAuto _ (hc _ _)) (holds_ite (hP.offerAuto _ (hc _ _)) (hc _ _))) (hc _ _)

/-! ## Shifts (R72 to R81) -/

protected theorem withPhase (p : Option Phase) (h : P s) : P (s.withPhase p) := hP.withShc _ h
protected theorem countInterval (h : P s) : P (countInterval s) := hP.withShc _ h
protected theorem dropOperation (h : P s) : P (dropOperation s) := hP.withShc _ h

protected theorem withdrawTorque (h : P s) : P (withdrawTorque s) :=
  holds_ite (hP.publish _ (hP.withShc _ h)) h

protected theorem enterGearbox (st : GearState) (h : P s) : P (enterGearbox st s) :=
  hP.publish _ (hP.withShc _ h)

protected theorem markClutch (m : Option Mark) (x : Clutch) (h : P s) : P (markClutch m s x) :=
  holds_ite (hP.withClutch _ _ h) h

protected theorem adaptTests (h : P s) : P (adaptTests s) :=
  holds_ite (holds_overClutches (fun _ x => hP.markClutch _ x) _ h) h

protected theorem applyMark (x : Clutch) (h : P s) : P (applyMark s x) := by
  unfold Machine.applyMark
  dsimp only
  split
  case h_1 | h_2 => exact hP.withClutch _ _ h
  case h_3 => exact h

protected theorem beginShift (kind : ShiftKind) (who : Origin) (g : Gear) (h : P s) :
    P (beginShift kind who g s) :=
  hP.enterGearbox _ (hP.fillAll _ (hP.withShc _ (hP.setAll _ _ h)))

protected theorem takeHead (h : P s) : P (takeHead s) := by
  unfold Machine.takeHead
  split
  case h_1 =>
    refine holds_ite ?_ h
    dsimp only
    split
    · exact hP.refuse _ _ (hP.withShc _ h)
    · exact hP.beginShift _ _ _ (hP.withShc _ h)
  case h_2 => exact h

protected theorem beginTorqueUp (h : P s) : P (beginTorqueUp s) :=
  have hd := fun x => hP.withShc x (hP.torqueOffAll ClutchCfg.hold (offGoing s) h)
  holds_ite (hP.publish _ (hP.withShc _ (hd _))) (hd _)

protected theorem beginInertiaDown (h : P s) : P (beginInertiaDown s) :=
  hP.withShc _ (hP.torqueOnAll ClutchCfg.touch (offGoing s) h)

protected theorem beginTorqueDown (h : P s) : P (beginTorqueDown s) :=
  hP.withShc _ (hP.torqueOffAll ClutchCfg.touch (offGoing s) h)

protected theorem endFill (h : P s) : P (endFill s) := holds_ite (hP.beginTorqueUp h) (hP.beginInertiaDown h)

protected theorem beginLockupUp (h : P s) : P (beginLockupUp s) :=
  hP.withdrawTorque (holds_overClutches (fun _ x => hP.applyMark x) _ (hP.lockAll _ (hP.withPhase _ h)))

protected theorem syncPoint (h : P s) : P (syncPoint s) := holds_ite (hP.beginLockupUp h) (hP.beginTorqueDown h)

protected theorem endTorque (h : P s) : P (endTorque s) :=
  have hd := hP.drainAll (offGoing s) h
  holds_ite (hP.withShc _ hd) (hP.withPhase _ (hP.lockAll _ hd))

protected theorem compareEcho (h : P s) : P (compareEcho s) := by
  unfold Machine.compareEcho
  split
  · exact hP.withShc _ h
  · exact h

protected theorem torqueStep (h : P s) : P (torqueStep s) := by
  have hend {u : State} (k : P u) : P (if torqueOver u = true then Machine.endTorque u else u) :=
    holds_ite (hP.endTorque k) k
  have hc := hP.countInterval h
  have he : P (if (Machine.countInterval s).shc.kind = some .up
      then Machine.compareEcho (Machine.countInterval s) else Machine.countInterval s) :=
    holds_ite (hP.compareEcho hc) hc
  exact hend (holds_ite (hP.torqueOffAll _ _ (hP.torqueOnAll _ _ he))
    (hP.torqueOffAll _ _ (hP.torqueOnAll _ _ he)))

protected theorem beginAbort (h : P s) : P (beginAbort s) :=
  hP.withdrawTorque (hP.withPhase _ (hP.setAll _ _ (hP.drainAll (onComing s) h)))

protected theorem timeOutShift (h : P s) : P (timeOutShift s) :=
  hP.beginAbort (hP.flushQueue (hP.clearFault _ (hP.raiseLatched _ h)))

protected theorem inertiaStep (h : P s) : P (inertiaStep s) := by
  have hend {u : State} (k : P u) : P (if syncDue u = true then Machine.syncPoint u
      else if timeoutDue u = true then Machine.timeOutShift u else u) :=
    holds_ite (hP.syncPoint k) (holds_ite (hP.timeOutShift k) k)
  have hc := hP.countInterval h
  exact hend (hP.withShc _ (holds_ite (hP.setAll _ _ hc) hc))

/-! ## Engagements and shuttles (R76, R80, R83 to R87) -/

protected theorem beginShuttle (g p : Gear) (h : P s) : P (beginShuttle g p s) :=
  hP.enterGearbox _ (hP.fillAll _ (hP.torqueOffAll ClutchCfg.hold _ (hP.withShc _ h)))

protected theorem shuttleRequest (h : P s) : P (shuttleRequest s) := by
  unfold Machine.shuttleRequest
  split
  · split
    · split
      · exact hP.beginShuttle _ _ h
      · exact h
    · exact h
  · exact hP.refuse _ _ (hP.withShc _ h)

protected theorem tryShuttle (h : P s) : P (tryShuttle s) :=
  holds_ite (holds_ite (hP.shuttleRequest h) (hP.withShc _ h)) h

protected theorem arriveInGear (h : P s) : P (arriveInGear s) :=
  hP.tryShuttle (hP.enterGearbox _ (hP.dropOperation h))

protected theorem endAbort (h : P s) : P (endAbort s) := hP.arriveInGear (hP.lockAll _ h)

protected theorem abortStep (h : P s) : P (abortStep s) := by
  have hend {u : State} (k : P u) : P (if abortOver u = true then Machine.endAbort u else u) :=
    holds_ite (hP.endAbort k) k
  exact hend (hP.setAll _ _ (hP.countInterval h))

protected theorem beginRamp (g : Gear) (h : P s) : P (beginRamp g s) := hP.fillAlone _ (hP.withShc _ h)

protected theorem preselectClutch (x : Clutch) (h : P s) : P (preselectClutch s x) :=
  holds_ite h (hP.fillAlone _ h)

protected theorem beginEngaging (g : Gear) (h : P s) : P (beginEngaging g s) := by
  have hfill {u : State} (k : P u) : P (if allIn u .locked (gearPair u.cfg g) = true then Machine.beginRamp g u
      else overClutches Machine.preselectClutch (gearPair u.cfg g) u) :=
    holds_ite (hP.beginRamp g k) (holds_overClutches (fun _ x => hP.preselectClutch x) _ k)
  exact hP.enterGearbox _ (hfill (hP.withShc _ h))

protected theorem refuseLever (why : ShcReason) (h : P s) : P (refuseLever why s) :=
  hP.refuse _ _ (hP.withShc _ h)

protected theorem engageRequest (d : Dir) (h : P s) : P (engageRequest d s) := by
  unfold Machine.engageRequest
  split
  · split
    · exact hP.refuseLever _ h
    · exact hP.beginEngaging _ h
  · exact hP.refuseLever _ h

protected theorem engageLever (h : P s) : P (engageLever s) := by
  unfold Machine.engageLever
  split
  case h_1 | h_2 => exact hP.engageRequest _ h
  case h_3 | h_4 => exact h

protected theorem endDirectionRamp (h : P s) : P (endDirectionRamp s) := hP.arriveInGear (hP.lockAll _ h)

protected theorem rampStep (h : P s) : P (rampStep s) := by
  have hend {u : State} (k : P u) : P (if rampOver u = true then Machine.endDirectionRamp u else u) :=
    holds_ite (hP.endDirectionRamp k) k
  exact hend (hP.setAll _ _ (hP.countInterval h))

protected theorem driveAwayStep (h : P s) : P (driveAwayStep s) := by
  have hend {u : State} (k : P u) : P (if driveAwayOver u = true then Machine.endDirectionRamp u else u) :=
    holds_ite (hP.endDirectionRamp k) k
  exact hend (hP.setAll _ _ (hP.countInterval h))

protected theorem reverseBrakeStep (h : P s) : P (reverseBrakeStep s) := by
  have hend {u : State} (k : P u) : P (if brakeOver u = true then beginDriveAway u else u) :=
    holds_ite (hP.setAll _ _ (hP.withPhase _ k)) k
  exact hend (hP.setAll _ _ (hP.countInterval h))

/-! ## Fills (R73, R84, R86, R89) -/

protected theorem settleFill (x : Clutch) (h : P s) : P (settleFill s x) :=
  have hr := hP.withClutch x ((s.clutch x).ramp (s.clutchCfg x).touch) h
  holds_ite (hP.withClutch _ _ h) (holds_ite (hP.withShc _ hr) hr)

protected theorem holdFill (x : Clutch) (h : P s) : P (holdFill s x) := holds_ite (hP.withClutch _ _ h) h
protected theorem settleDue (x : Clutch) (h : P s) : P (settleDue s x) := holds_ite (hP.settleFill _ h) h

protected theorem fillStep (h : P s) : P (fillStep s) :=
  holds_overClutches (fun _ x => hP.settleDue x) _ (holds_overClutches (fun _ x => hP.holdFill x) _ h)

protected theorem endDrain (h : P s) : P (endDrain s) := hP.withShc _ (hP.lockAll _ h)

protected theorem afterFills (h : P s) : P (afterFills s) := by
  unfold Machine.afterFills
  split
  case h_1 => exact holds_ite (hP.endFill h) h
  case h_2 =>
    split
    · exact holds_ite (hP.beginRamp _ h) h
    · exact h
  case h_3 =>
    split
    · exact holds_ite (hP.withShc _ h) h
    · exact h
  case h_4 => exact holds_ite (hP.endDrain h) h
  case h_5 => exact h

protected theorem drainOffGoing (j : Nat) (h : P s) : P (drainOffGoing j s) :=
  holds_ite (hP.torqueOffAll _ _ h) h

protected theorem drainStep (h : P s) : P (drainStep s) := by
  unfold Machine.drainStep
  exact hP.afterFills (hP.fillStep (hP.drainOffGoing _ (hP.countInterval h)))

/-- Step 4 of an interval, by the operation in progress (R73 to R87). -/
protected theorem advance (h : P s) : P (advance s) := by
  unfold Machine.advance
  split
  case h_1 => exact hP.afterFills (hP.fillStep (hP.adaptTests h))
  case h_2 => exact hP.torqueStep (hP.adaptTests h)
  case h_3 => exact hP.inertiaStep h
  case h_4 => exact hP.arriveInGear (hP.withShc _ h)
  case h_5 => exact hP.abortStep h
  case h_6 | h_11 => exact hP.afterFills (hP.fillStep h)
  case h_7 => exact holds_ite (hP.fillStep h) (hP.rampStep h)
  case h_8 => exact hP.drainStep h
  case h_9 => exact hP.reverseBrakeStep h
  case h_10 => exact hP.driveAwayStep h
  case h_12 => exact h

/-! ## Neutral, park and fault hold (R87, R89 to R92, R96) -/

protected theorem abandonSwap (h : P s) : P (abandonSwap s) :=
  holds_ite (hP.lockAll _ (hP.drainAll _ h)) h

protected theorem leaveShift (h : P s) : P (leaveShift s) := by
  have hback := hP.lockAll (offGoing s) (hP.drainAll (onComing s) h)
  have hon := hP.drainAll (offGoing s) (hP.lockAll (onComing s) h)
  unfold Machine.leaveShift
  dsimp only
  split
  case h_1 => exact hback
  case h_2 => exact holds_ite hback (hP.withShc _ hon)
  case h_3 | h_4 => exact hP.withShc _ hon
  case h_5 => exact hP.lockAll _ h
  case h_6 => exact h

protected theorem reselect (h : P s) : P (reselect s) := by
  unfold Machine.reselect
  split
  · split
    · exact hP.withShc _ h
    · exact h
  · exact h

protected theorem dropToNeutral (h : P s) : P (dropToNeutral s) :=
  hP.enterGearbox _ (hP.dropOperation (hP.withShc _ (hP.withdrawTorque (hP.drainAll _ h))))

protected theorem neutralize (h : P s) : P (neutralize s) := by
  unfold Machine.neutralize
  split
  case h_1 => exact hP.dropToNeutral (hP.reselect h)
  case h_2 => exact hP.dropToNeutral (hP.reselect (hP.leaveShift h))
  case h_3 => exact hP.dropToNeutral (hP.reselect (hP.abandonSwap h))
  case h_4 => exact hP.dropToNeutral (hP.reselect (holds_ite (hP.withShc _ h) h))
  all_goals exact h

protected theorem takePark (h : P s) : P (takePark s) := holds_ite h (hP.neutralize (hP.withShc _ h))

protected theorem followParkRequest (h : P s) : P (followParkRequest s) :=
  have hf := hP.withShc { s.shc with parkForce := parkRequested s } h
  holds_ite (hP.takePark hf) (holds_ite (hP.withShc _ hf) hf)

protected theorem shcParkOrder (h : P s) : P (shcParkOrder s) :=
  hP.writeClutches (hP.followParkRequest (hP.takePark (hP.withShc _ h)))

protected theorem writePkv (released : Bool) (h : P s) : P (writePkv released s) :=
  hP.writeCommand (by decide) _ (hP.withShc _ h)

protected theorem applyPark (h : P s) : P (applyPark s) :=
  hP.trailerParkOrder (hP.enterGearbox _ (hP.withShc _ (hP.drainAll gearClutches (hP.writePkv false h))))

protected theorem tryRelease (ended : Bool) (h : P s) : P (tryRelease ended s) := by
  have hn := hP.enterGearbox .neutral (hP.writePkv true h)
  unfold Machine.tryRelease
  split
  · exact hP.refuseLever _ h
  · exact holds_ite (hP.engageLever hn) hn

protected theorem parkTest (ended : Bool) (h : P s) : P (parkTest ended s) :=
  holds_ite (hP.applyPark h) (holds_ite (hP.tryRelease _ h) h)

protected theorem drainCarrying (x : Clutch) (h : P s) : P (drainCarrying s x) :=
  holds_ite (hP.withClutch _ _ h) h

protected theorem enterFaultHold (h : P s) : P (enterFaultHold s) :=
  hP.enterGearbox _ (hP.dropOperation (hP.withShc _ (hP.withdrawTorque
    (holds_overClutches (fun _ x => hP.drainCarrying x) _ h))))

protected theorem faultHoldTest (h : P s) : P (faultHoldTest s) :=
  holds_ite (holds_ite (hP.enterGearbox _ h) h) (holds_ite h (holds_ite (hP.enterFaultHold h) h))

/-! ## Lever changes and the interval (R66, R68, R83 to R91, R94, R98) -/

protected theorem moveToDirection (old : Lever) (h : P s) : P (moveToDirection old s) := by
  unfold Machine.moveToDirection
  split
  case h_1 => exact hP.engageLever h
  case h_2 => exact holds_ite (hP.shuttleRequest h) (hP.withShc _ h)
  case h_3 | h_4 | h_5 => exact hP.withShc _ h
  all_goals exact h

protected theorem changeLever (l : Lever) (h : P s) : P (changeLever l s) := by
  have hl := hP.withShc { s.shc with lever := l, ignored := none } h
  cases l
  case n => exact hP.neutralize hl
  case f | r => exact hP.moveToDirection _ hl
  case park => exact hP.takePark hl

protected theorem compareLever (l : Lever) (h : P s) : P (compareLever l s) := holds_ite h (hP.withShc _ h)
protected theorem takeLevels (d : CabDriveFields) (h : P s) : P (takeLevels d s) := hP.withShc _ h

protected theorem takeCab (h : P s) : P (takeCab s).1 := by
  unfold Machine.takeCab
  split
  case h_1 d _ =>
    have hl := hP.takeLevels d h
    dsimp only
    split
    · split
      · exact hl
      · exact hP.changeLever _ hl
    · exact hP.compareLever _ hl
  case h_2 =>
    split
    · exact hP.flushQueue (hP.withShc _ h)
    · exact h

protected theorem takeSpeedLoss (h : P s) : P (takeSpeedLoss s) :=
  hP.withShc _ (holds_ite (hP.flushQueue h) h)

protected theorem firstInterval (h : P s) : P (firstInterval s) := by
  have hs := hP.withShc { s.shc with starting := false } h
  have hchg := holds_ite (c := s.sfe.chans.chg.cmp = .low) (hP.raise .chargeLow hs) (hP.clearFault .chargeLow hs)
  exact holds_ite (holds_ite (hP.raise _ hchg) (hP.clearFault _ hchg)) h

protected theorem takeInputs (h : P s) : P (takeInputs s).1 :=
  hP.faultHoldTest (hP.followParkRequest (hP.takeSpeedLoss (hP.takeCab (hP.firstInterval h))))

protected theorem openClutch (x : Clutch) (h : P s) : P (openClutch s x) := hP.withClutch _ _ h

protected theorem countDrain (x : Clutch) (h : P s) : P (countDrain s x) := by
  unfold Machine.countDrain
  split
  · exact holds_ite (hP.openClutch _ (hP.withClutch _ _ h)) (hP.withClutch _ _ h)
  · exact h

protected theorem finishInterval (running : List Clutch) (h : P s) : P (finishInterval running s) :=
  holds_overClutches (fun _ x => hP.countDrain x) _ (hP.writeClutches (hP.withShc _ h))

protected theorem advanceFrom (before : GearState) (h : P s) : P (advanceFrom before s) :=
  holds_ite (hP.advance h) h

/-- One control interval (R68), step by step. -/
protected theorem shcInterval (h : P s) : P (shcInterval s) :=
  hP.finishInterval _ (hP.parkTest _ (hP.advanceFrom _ (hP.takeHead (hP.takeInputs h))))

protected theorem dropPedal (h : P s) : P (dropPedal s) := hP.writeClutches (hP.withShc _ h)

/-! ## Charge, oil and service (R82, R93, R98) -/

protected theorem loseCharge (h : P s) : P (loseCharge s) := by
  have hf := hP.flushQueue h
  unfold Machine.loseCharge
  dsimp only
  split
  case h_1 | h_2 => exact hP.beginAbort hf
  case h_3 => exact holds_ite (hP.beginAbort hf) hf
  case h_4 => exact hP.dropToNeutral (hP.withShc _ (hP.abandonSwap hf))
  case h_5 => exact hP.neutralize hf
  case h_6 => exact hf

protected theorem takeShcCharge (ev : SfeEvent) (h : P s) : P (takeShcCharge ev s) := by
  cases ev
  case lowEnter => exact hP.writeClutches (hP.loseCharge (hP.raise _ h))
  case failed => exact hP.writeClutches (hP.loseCharge (hP.clearFault _ h))
  case lowLeave => exact hP.clearFault _ h
  case starting | valid | highEnter | highLeave => exact h

protected theorem takeOil (ev : SfeEvent) (h : P s) : P (takeOil ev s) := by
  cases ev
  case highEnter => exact hP.raise _ h
  case highLeave | failed => exact hP.clearFault _ h
  case starting | valid | lowEnter | lowLeave => exact h

protected theorem resetAdaptation (tag : Byte) (h : P s) : P (resetAdaptation tag s) :=
  holds_ite (hP.serviceAnswer _ _ _ _ (hP.setAll _ _ h)) (hP.serviceAnswer _ _ _ _ h)

end KeptByRoutine

end Sys2Proof.Proofs
end

