-- ==== Sys2Proof/Proofs/RoutineCommands.lean ====
section
/-! SUPPORT. The headland run's and the mode controller's operations keep every property that routine writes keep,
and so does every command that makes such writes alone (R167 to R212). -/

namespace Sys2Proof.Proofs

open Sys2Proof Sys2Proof.Machine

namespace KeptByRoutine

variable {P : State → Prop} (hP : KeptByRoutine P) {s : State}
include hP

/-! ## The headland run (08) -/

protected theorem abortRun (cause : AbortCause) (h : P s) : P (abortRun cause s) :=
  holds_ite (hP.withHsq _ h) h

protected theorem cabTouches (f : HAction → Bool) (h : P s) : P (cabTouches f s) :=
  holds_ite (hP.abortRun _ h) h

protected theorem notice (f : HAction → Bool) (h : P s) : P (notice f s) := holds_ite (hP.cabTouches f h) h

protected theorem recordRefusal (r : StepRef) (why : StepReason) (h : P s) : P (recordRefusal r why s) :=
  hP.withHsq _ h

protected theorem issueHitch (up : Bool) (h : P s) : P (issueHitch up s) := by
  unfold Machine.issueHitch
  split
  · exact hP.recordRefusal _ _ h
  · exact holds_ite (hP.hitchUp h) (hP.hitchDown h)

protected theorem shiftRequests (kind : ShiftKind) (n : Nat) (h : P s) : P (shiftRequests kind n s) := by
  induction n generalizing s with
  | zero => exact h
  | succ n ih => exact ih (hP.shiftRequest kind .headland h)

protected theorem issueShift (kind : ShiftKind) (a : HAction) (n : Nat) (h : P s) :
    P (issueShift kind a n s) :=
  have hn := hP.shiftRequests kind n h
  hP.withHsq _ (holds_ite (hP.recordRefusal _ _ hn) hn)

protected theorem issueAction (a : HAction) (h : P s) : P (issueAction a s) := by
  cases a
  case hitchRaise | hitchWork => exact hP.issueHitch _ h
  case frontMode => exact holds_ite (hP.withFdc _ (by rfl) h) h
  case shiftUp | shiftDown => exact hP.issueShift _ _ _ h
  case slipControl => exact holds_ite (hP.withHtc _ h) h
  case wait => exact h

protected theorem issueStep (x : HStep) (h : P s) : P (issueStep x s) := hP.withHsq _ (hP.issueAction _ h)

protected theorem issueFrom (l : List HStep) (h : P s) : P (issueFrom l s) := by
  induction l generalizing s with
  | nil => exact hP.withHsq _ h
  | cons x rest ih =>
    unfold Machine.issueFrom
    split
    case h_1 => exact ih (hP.issueStep x h)
    case h_2 | h_3 => exact hP.withHsq _ h

protected theorem issueWaiting (h : P s) : P (issueWaiting s) := by
  unfold Machine.issueWaiting
  split
  · exact hP.issueFrom _ (hP.issueStep _ h)
  · exact h

protected theorem countTravel (h : P s) : P (countTravel s) := by
  unfold Machine.countTravel
  split
  · exact hP.withHsq _ h
  · exact h

protected theorem followTrigger (h : P s) : P (followTrigger s) :=
  have hc := hP.countTravel h
  holds_ite (hP.issueWaiting hc) hc

protected theorem takeFront (h : P s) : P (takeFront s).1 := by
  unfold Machine.takeFront
  split
  · exact hP.withHsq _ h
  · exact h

protected theorem takeSlip (h : P s) : P (takeSlip s).1 := by
  unfold Machine.takeSlip
  split
  · exact hP.withHsq _ h
  · exact h

protected theorem takeDepth (h : P s) : P (takeDepth s).1 := by
  unfold Machine.takeDepth
  split
  · exact hP.withHsq _ h
  · exact hP.withHsq _ h

protected theorem touchIf (changed : Bool) (f : HAction → Bool) (h : P s) :
    P (if changed = true then cabTouches f s else s) := holds_ite (hP.cabTouches f h) h

protected theorem compareFields (h : P s) : P (compareFields s) :=
  hP.touchIf _ _ (hP.touchIf _ _ (hP.touchIf _ _ (hP.takeDepth (hP.takeSlip (hP.takeFront h)))))

protected theorem testGearbox (h : P s) : P (testGearbox s) :=
  holds_ite (hP.abortRun _ h) (holds_ite (hP.abortRun _ h) h)

protected theorem checkRefusals (h : P s) : P (checkRefusals s) := by
  have hn := hP.withHsq { s.hsq with refusalsSeen := s.shc.refusals } h
  refine holds_ite h ?_
  dsimp only
  split
  · exact hP.recordRefusal _ _ hn
  · exact hn

protected theorem hsqInterval (h : P s) : P (hsqInterval s) :=
  have hc := hP.checkRefusals (hP.testGearbox (hP.compareFields h))
  holds_ite (holds_ite (hP.followTrigger hc) hc) (hP.checkRefusals h)

protected theorem startRun (h : P s) : P (startRun s) := hP.issueFrom _ (hP.withHsq _ (hP.withHsq _ h))

protected theorem cabShift {f : State → State} (hf : P s → P (f s)) (h : P s) : P (cabShift f s) :=
  holds_ite (hP.notice _ (hf h)) h

protected theorem cabSwitch (up : Bool) (h : P s) : P (cabSwitch up s) :=
  holds_ite (hP.notice _ (hP.hitchSwitch up h)) h

/-! ## The modes (11) -/

protected theorem setMode (m : Mode) (h : P s) : P (setMode m s) := hP.publish _ (hP.withMc _ (by rfl) h)

protected theorem enterOperating (h : P s) : P (enterOperating s) :=
  hP.setMode _ (hP.setStep _ (hP.withShc _ h))

protected theorem enterDormant (h : P s) : P (enterDormant s) :=
  hP.withEvents _ (hP.dropUntaken (hP.setMode _ (hP.withShc _ (hP.withScu _ (hP.withLc _ (hP.setStep _ h))))))

protected theorem enterCalibrating (h : P s) : P (enterCalibrating s) :=
  hP.setMode _ (hP.setStep _ (hP.onRequest _ (hP.requestCalibration _ (hP.withSfe _ (hP.listenOrder h)))))

protected theorem enterLimp (x : Sources) (h : P s) : P (enterLimp x s) :=
  hP.setMode _ (hP.listenOrder (hP.withLc _ (hP.raise _ h)))

protected theorem takeKeyOff (h : P s) : P (takeKeyOff s) :=
  hP.trailerStopOrder (hP.hitchStopOrder (hP.shcParkOrder (hP.setMode _ (hP.abortRun _
    (hP.withMc _ (by rfl) h)))))

protected theorem wakeEvent (h : P s) : P (wakeEvent s) := by
  unfold Machine.wakeEvent
  split
  case h_1 => exact hP.setMode _ (hP.listenOrder (hP.withMc _ (by rfl) h))
  case h_2 => exact hP.withMc _ (by rfl) h
  case h_3 => exact h

protected theorem beginRestart (tag : Byte) (h : P s) : P (beginRestart tag s) :=
  hP.offRequest _ (hP.dropUntaken (hP.setMode _ (hP.abortRun _ (hP.withMc _ (by rfl)
    (hP.serviceAnswer _ _ _ _ h)))))

protected theorem controlRestart (tag : Byte) (h : P s) : P (controlRestart tag s) :=
  have ha := fun r why => hP.serviceAnswer codeControlRestart tag r why h
  holds_ite (ha _ _) (holds_ite (hP.beginRestart _ h) (ha _ _))

protected theorem finishRestart (h : P s) : P (finishRestart s) := by
  have ho := hP.enterOperating (hP.withMc { s.mc with restartTag := none } (by rfl) h)
  unfold Machine.finishRestart
  dsimp only
  split
  · exact hP.serviceAnswer _ _ _ _ ho
  · exact ho

protected theorem stepAfterRise (x : Supply) (h : P s) : P (stepAfterRise x s) := by
  unfold Machine.stepAfterRise
  split
  case h_1 | h_2 => exact hP.onRequest _ (hP.setStep _ h)
  case h_3 => exact hP.finishRestart h
  case h_4 => exact h

/-- A supply that has become OFF, with what the restart of the blocks does given. -/
protected theorem stepAfterFall (x : Supply) (hrestart : P (restartBlocks s)) (h : P s) :
    P (stepAfterFall x s) := by
  unfold Machine.stepAfterFall
  split
  case h_1 | h_3 => exact hP.offRequest _ (hP.setStep _ h)
  case h_2 => exact hP.enterDormant h
  case h_4 => exact hP.onRequest _ (hP.setStep _ hrestart)
  case h_5 => exact h

/-- The end of the checks (R206), with what loading an image does given. -/
protected theorem finishLoading (d : List Byte) (c : Image) (hload : P (loadImage (word16 d 2) c s)) (h : P s) :
    P (finishLoading d c s) :=
  holds_ite (holds_ite (hP.enterCalibrating hload) (hP.enterDormant hload)) (hP.enterLimp _ h)

end KeptByRoutine

/-! ## The commands -/

/-- Every command but the resets, those of the front drive that write the axle's state or its reasons, those that
write the brake pressure, and those of the valve driver bank, with the acknowledgements that reach it. -/
def routine : Instr → Bool
  | .powerOnReset .. | .wake .. | .loadingComplete .. => false
  | .fdcControlInterval | .fdcRelease | .releasingComplete | .engagingComplete | .autoSlipClear
  | .fdcChgEvent => false
  | .tbcControlInterval _ | .tbrStateEvent => false
  | .senseTimer _ | .openDetected _ | .openRecovered _ | .shortTrip _ | .retryTimerExpiry _ | .deferredRetry _
  | .retrySuccess _ | .pullInEnd _ | .supplyRiseComplete _ | .supplyFallComplete .. => false
  | .faultAcknowledge | .faultAck => false
  | _ => true

/-- A routine command answers a next state and keeps every property that routine writes keep. -/
theorem KeptByRoutine.exec_of_routine {P : State → Prop} (hP : KeptByRoutine P) {i : Instr} (hi : routine i = true)
    {s : State} (h : P s) : ∃ t, exec i s = .next t ∧ P t := by
  cases i with
  -- resets, the front drive's state and reasons, the brake pressure, the valve driver bank
  | powerOnReset | wake | loadingComplete | fdcControlInterval | fdcRelease | releasingComplete | engagingComplete
  | autoSlipClear | fdcChgEvent | tbcControlInterval | tbrStateEvent | senseTimer | openDetected | openRecovered
  | shortTrip | retryTimerExpiry | deferredRetry | retrySuccess | pullInEnd | supplyRiseComplete
  | supplyFallComplete | faultAcknowledge | faultAck => exact absurd hi Bool.false_ne_true
  -- modes
  | keyStateChange on =>
    have hk := hP.withPins { s.pins with keyOn := on } h
    exact ⟨_, rfl, holds_ite hk (hP.withMc _ (by rfl) hk)⟩
  | calibratingComplete => exact ⟨_, rfl, holds_ite (hP.enterOperating h) h⟩
  | keyOffTaken => exact ⟨_, rfl, holds_ite (hP.takeKeyOff h) h⟩
  | quietOrder => exact ⟨_, rfl, holds_ite (hP.quietOrder (hP.setStep _ h)) h⟩
  | quietTimeout => exact ⟨_, rfl, holds_ite (hP.reportQuiet h) h⟩
  | controlRestart => exact ⟨_, rfl, hP.service (fun _ tag _ => hP.controlRestart tag) h⟩
  | couplingWake => exact ⟨_, rfl, holds_ite (hP.wakeEvent (hP.withPins _ h)) (hP.withPins _ h)⟩
  | linkWake => exact ⟨_, rfl, holds_ite (hP.wakeEvent h) h⟩
  | wakeTimeout => exact ⟨_, rfl, holds_ite (hP.enterDormant h) h⟩
  | secondsTick => exact ⟨_, rfl, holds_ite h (hP.withMc _ (by rfl) h)⟩
  -- the speed capture unit
  | pulseEdge => exact ⟨_, rfl, holds_ite (hP.withChan _ _ h) h⟩
  | speedEvaluation => exact ⟨_, rfl, holds_ite (hP.evaluateSpeeds h) h⟩
  | channelLost => exact ⟨_, rfl, holds_ite (hP.loseChannel _ h) h⟩
  | channelRecovered => exact ⟨_, rfl, holds_ite (hP.recoverChannel _ h) h⟩
  | groundPulseTimer => exact ⟨_, rfl, holds_ite (hP.pulseTick h) h⟩
  | groundPulseEnd => exact ⟨_, rfl, holds_ite (hP.withScu _ h) h⟩
  -- the sensor front end
  | mainOutput =>
    refine ⟨_, rfl, ?_⟩
    split
    · exact hP.takeMain _ _ h
    · exact h
  | fastOutput =>
    refine ⟨_, rfl, ?_⟩
    split
    · exact holds_ite (hP.takeSlotOutput _ h) (hP.takeFast _ _ h)
    · exact h
  | streamFailed => exact ⟨_, rfl, holds_ite (hP.failStream _ h) h⟩
  | streamRecovery => exact ⟨_, rfl, holds_ite (hP.restartStream _ h) h⟩
  | excitationSlot => exact ⟨_, rfl, holds_ite (hP.endSlot h) h⟩
  | calibrationTimeout => exact ⟨_, rfl, holds_ite (hP.calFailed h) h⟩
  | recalibratePosition => exact ⟨_, rfl, hP.service (fun _ tag _ => hP.recalibrate tag) h⟩
  -- the grant
  | grantSupEvent => exact ⟨_, rfl, hP.event (fun ev _ _ => hP.grantOnEvent ev) h⟩
  -- the shift controller
  | shcControlInterval => exact ⟨_, rfl, holds_ite (hP.shcInterval h) h⟩
  | cabShiftUp | cabShiftDown =>
    refine ⟨_, rfl, ?_⟩
    split
    next u htake =>
      obtain ⟨l, rfl⟩ := takeShift_eq_withRequests htake
      exact hP.cabShift (hP.shiftRequest _ _) (hP.withRequests l h)
    next => exact h
  | cabSelect =>
    refine ⟨_, rfl, ?_⟩
    split
    next g u htake =>
      obtain ⟨l, rfl⟩ := takeShift_eq_withRequests htake
      exact hP.cabShift (hP.selectRequest g) (hP.withRequests l h)
    next => exact h
  | fillComplete => exact ⟨_, rfl, holds_ite (hP.writeClutches (hP.afterFills (hP.settleFill _ h))) h⟩
  | torquePhaseEnd => exact ⟨_, rfl, holds_ite (hP.writeClutches (hP.endTorque h)) h⟩
  | syncReached => exact ⟨_, rfl, holds_ite (hP.writeClutches (hP.syncPoint h)) h⟩
  | shiftTimeout => exact ⟨_, rfl, holds_ite (hP.writeClutches (hP.timeOutShift h)) h⟩
  | abortComplete => exact ⟨_, rfl, holds_ite (hP.writeClutches (hP.endAbort h)) h⟩
  | engageRampEnd | driveAwayEnd => exact ⟨_, rfl, holds_ite (hP.writeClutches (hP.endDirectionRamp h)) h⟩
  | shuttleDrainEnd => exact ⟨_, rfl, holds_ite (hP.writeClutches (hP.endDrain h)) h⟩
  | clutchDrainComplete => exact ⟨_, rfl, holds_ite (hP.openClutch _ h) h⟩
  | pedalHoldExpiry => exact ⟨_, rfl, holds_ite (hP.dropPedal h) h⟩
  | autoShiftTimer => exact ⟨_, rfl, holds_ite (hP.autoTick h) h⟩
  | autoUp | autoDown => exact ⟨_, rfl, holds_ite (hP.offerAuto _ h) h⟩
  | shcChgEvent => exact ⟨_, rfl, hP.event (fun ev _ _ => hP.takeShcCharge ev) h⟩
  | shcOilEvent => exact ⟨_, rfl, hP.event (fun ev _ _ => hP.takeOil ev) h⟩
  | resetAdaptation => exact ⟨_, rfl, hP.service (fun _ tag _ => hP.resetAdaptation tag) h⟩
  -- the front drive's plausibility
  | frontSlipRaise => exact ⟨_, rfl, holds_ite (hP.raise _ (hP.withFdc _ (by rfl) h)) h⟩
  | frontSlipClear => exact ⟨_, rfl, holds_ite (hP.clearFault _ (hP.withFdc _ (by rfl) h)) h⟩
  -- the hitch
  | htcControlInterval =>
    exact ⟨_, rfl, holds_ite (hP.htcInterval (hP.withPins _ h)) (hP.withPins _ h)⟩
  | switchUp | switchDown =>
    refine ⟨_, rfl, ?_⟩
    split
    next u htake =>
      obtain ⟨l, rfl⟩ := takeSwitch_eq_withRequests htake
      exact hP.cabSwitch _ (hP.withRequests l h)
    next => exact h
  | htcDraftEvent pin => exact ⟨_, rfl, hP.event (fun ev _ _ => hP.takeDraft pin ev) h⟩
  | htcHpsFailed => exact ⟨_, rfl, hP.event (fun ev _ _ => hP.takeHps ev) h⟩
  -- the trailer brakes
  | couplingChange => exact ⟨_, rfl, holds_ite (hP.recomputeTcv (hP.changeCoupling _ h)) h⟩
  | chargeTimeout => exact ⟨_, rfl, holds_ite (hP.recomputeTcv (hP.failCharge h)) h⟩
  | supplyLowTimeout => exact ⟨_, rfl, holds_ite (hP.recomputeTcv (hP.loseSupply h)) h⟩
  | supplyRecovered => exact ⟨_, rfl, holds_ite (hP.recomputeTcv (hP.recoverSupply h)) h⟩
  | brakeUnknown => exact ⟨_, rfl, holds_ite (hP.raise _ h) h⟩
  | brakeDisagree => exact ⟨_, rfl, holds_ite (hP.raiseDisagree h) h⟩
  | brakeDisagreeClear => exact ⟨_, rfl, holds_ite (hP.clearDisagree h) h⟩
  | tclEvent => exact ⟨_, rfl, hP.event (fun ev _ _ => hP.takeTcl ev) h⟩
  | tslEvent => exact ⟨_, rfl, hP.event (fun ev _ _ => hP.takeTsl ev) h⟩
  -- the headland run
  | hsqControlInterval | distanceTrigger | timeTrigger => exact ⟨_, rfl, holds_ite (hP.hsqInterval h) h⟩
  | headlandStart =>
    refine ⟨_, rfl, ?_⟩
    split
    next u htake =>
      obtain ⟨l, rfl⟩ := takeHeadland_eq_withRequests htake
      exact holds_ite (hP.startRun (hP.withRequests l h)) (hP.withRequests l h)
    next => exact h
  | headlandCancel =>
    refine ⟨_, rfl, ?_⟩
    split
    next u htake =>
      obtain ⟨l, rfl⟩ := takeHeadland_eq_withRequests htake
      exact holds_ite (hP.abortRun _ (hP.withRequests l h)) (hP.withRequests l h)
    next => exact h
  -- the link
  | frameReceived => exact ⟨_, rfl, holds_ite (hP.takeFrame _ _ h) h⟩
  | peerTimeout => exact ⟨_, rfl, holds_ite (hP.loseGroup _ h) h⟩
  | periodTimer => exact ⟨_, rfl, holds_ite (hP.publish _ h) h⟩
  | torqueLimitTimer => exact ⟨_, rfl, holds_ite (hP.publish _ h) h⟩
  | transmitAttempt =>
    refine ⟨_, rfl, ?_⟩
    split
    · exact hP.withLc _ h
    · exact h
  | attemptSuccess =>
    refine ⟨_, rfl, ?_⟩
    split
    · exact holds_ite (hP.reportQuiet (hP.withLc _ h)) (hP.withLc _ h)
    · exact h
  | arbitrationLost => exact ⟨_, rfl, holds_ite (hP.withLc _ h) h⟩
  | attemptFailure => exact ⟨_, rfl, holds_ite (hP.failAttempt h) h⟩
  | muteRecovery => exact ⟨_, rfl, holds_ite (hP.leaveMuted h) h⟩
  | listenWindowEnd => exact ⟨_, rfl, holds_ite (hP.endWindow h) h⟩
  | serviceRequestUnknown => exact ⟨_, rfl, hP.service (fun _ _ _ => hP.serviceAnswer _ _ _ _) h⟩

end Sys2Proof.Proofs
end

