-- ==== Sys2Proof/Proofs/FrontAxle.lean ====
section
/-! SUPPORT. The front axle's safety (R102, R103, R109): what each write to the valve driver bank, to the front
drive's state and reasons and to the brake pressure does to it, and the statement that every step keeps it. -/

namespace Sys2Proof.Proofs

open Sys2Proof Sys2Proof.Machine

/-! ## The front drive's valve in the driver bank (R47 to R50) -/

/-- From `v` to `w` the command of FDV stands or becomes 0, and FDV stays undriven at a command of 0. -/
structure FdvRests (v w : Vdb) : Prop where
  command : (w.outs.get .fdv).command = (v.outs.get .fdv).command ∨ (w.outs.get .fdv).command = 0
  undriven : ((v.outs.get .fdv).command = 0 → (v.outs.get .fdv).target = 0) →
    (w.outs.get .fdv).command = 0 → (w.outs.get .fdv).target = 0

namespace FdvRests

variable {v w x : Vdb}

theorem of_outs (h : w.outs.get .fdv = v.outs.get .fdv) : FdvRests v w :=
  ⟨.inl (by rw [h]), by rw [h]; exact id⟩

protected theorem refl (v : Vdb) : FdvRests v v := of_outs rfl

protected theorem trans (h : FdvRests v w) (k : FdvRests w x) : FdvRests v x where
  command := by
    rcases k.command with hk | hk
    · rw [hk]; exact h.command
    · exact .inr hk
  undriven := k.undriven ∘ h.undriven

protected theorem foldl {f : Vdb → Output → Vdb} (hf : ∀ (v : Vdb) (o : Output), FdvRests v (f v o))
    (l : List Output) (v : Vdb) : FdvRests v (l.foldl f v) :=
  List.foldlRecOn l f (.refl v) fun w hw o _ => hw.trans (hf w o)

/-- A record with its output's command and drive target. -/
protected theorem withOut (o : Output) (r : OutRec)
    (hsame : (r.command, r.target) = ((v.outs.get o).command, (v.outs.get o).target)) :
    FdvRests v (v.withOut o r) := by
  obtain ⟨hcommand, htarget⟩ := Prod.mk.inj hsame
  by_cases ho : .fdv = o
  · subst ho
    exact ⟨.inl (by simpa using hcommand), by simp [hcommand, htarget]⟩
  · exact of_outs (by simp [ho])

/-- A record with its output's command or 0, and the drive target recomputed: 0 at a command of 0 (R48). -/
theorem withOut_refresh (o : Output) (r : OutRec)
    (hcommand : r.command = (v.outs.get o).command ∨ r.command = 0) :
    FdvRests v ((v.withOut o r).refresh o) := by
  by_cases ho : .fdv = o
  · subst ho
    have hkept : (((v.withOut .fdv r).refresh .fdv).outs.get .fdv).command = r.command := by
      simp [(Vdb.refresh_keeps _ .fdv .fdv).1]
    refine ⟨by rwa [hkept], fun _ hzero => ?_⟩
    exact Vdb.refresh_off _ .fdv rfl (by simpa [hkept] using hzero)
  · exact of_outs (by simp [Vdb.refresh_get_ne _ ho, ho])

end FdvRests

/-- Each output is recomputed under the flag that the grant withholds it by; FDV is not one of them (R60). -/
theorem withhold_fdv (w : Bool) (v : Vdb) : (withhold w v).outs.get .fdv = v.outs.get .fdv := by
  simp [withhold, Vdb.refresh_get]

/-- A write leaves what it is stored as (R47). -/
theorem writeCommand_command (o : Output) (v : Nat) (s : State) :
    ((writeCommand o v s).out o).command = storedCommand s.cfg o v := by
  unfold writeCommand
  by_cases hequal : storedCommand s.cfg o v = (s.out o).command
  · rw [if_pos hequal, hequal]
  · rw [if_neg hequal]
    simp [(Vdb.refresh_keeps _ o o).1]

/-- A write leaves FDV undriven at a command of 0 (R48). -/
theorem writeCommand_fdv_undriven (v : Nat) {s : State}
    (h : (s.out .fdv).command = 0 → (s.out .fdv).target = 0)
    (hzero : ((writeCommand .fdv v s).out .fdv).command = 0) :
    ((writeCommand .fdv v s).out .fdv).target = 0 := by
  rw [writeCommand_command] at hzero
  unfold writeCommand
  by_cases hequal : storedCommand s.cfg .fdv v = (s.out .fdv).command
  · rw [if_pos hequal]
    exact h (hequal.symm.trans hzero)
  · rw [if_neg hequal]
    exact Vdb.refresh_off _ .fdv rfl (by simpa using hzero)

/-! ## The brake reasons (R109) -/

/-- Once START is gone the brake reasons say what the brake pressure is. -/
def BrakeSeen (r : Reasons) (p : Option Nat) : Prop :=
  r.start = false → r.brakeUnmeasured = p.isNone ∧ (r.braking = true ↔ ∃ q : Nat, p = some q ∧ 150 < q)

theorem brakeSeen_withBrake (r : Reasons) (p : Option Nat) : BrakeSeen (r.withBrake p) p := by
  cases p <;> simp [BrakeSeen, Reasons.withBrake]

/-- An empty reason set stands only over free brakes. -/
theorem brakesFree_of_isEmpty {s : State} (hseen : BrakeSeen s.fdc.reasons s.tbc.brake)
    (hempty : s.fdc.reasons.isEmpty = true) : BrakesFree s := by
  have hnone : s.fdc.reasons = .none := by simpa [Reasons.isEmpty] using hempty
  rw [hnone] at hseen
  obtain ⟨hmeasured, hbraking⟩ := hseen rfl
  cases hbrake : s.tbc.brake with
  | none => simp [hbrake, Reasons.none] at hmeasured
  | some p =>
    refine ⟨p, hbrake, Nat.not_lt.mp fun hhigh => ?_⟩
    exact absurd (hbraking.mpr ⟨p, hbrake, hhigh⟩) (by decide)

/-! ## Routine writes keep the safety -/

namespace FrontAxle

variable {s : State}

/-- The driver bank with FDV at rest. -/
theorem withVdb {v : Vdb} (hv : FdvRests s.vdb v) (h : FrontAxleSafe s) : FrontAxleSafe (s.withVdb v) where
  closed hstate := by
    rcases hv.command with hc | hc
    · exact hc.trans (h.closed hstate)
    · exact hc
  undriven := hv.undriven h.undriven
  free := h.free
  seen := h.seen

/-- The front drive record with the axle's state, and brake reasons that say what the pressure is. -/
theorem withFdc (x : Fdc) (hstate : x.state = s.fdc.state) (hseen : BrakeSeen x.reasons s.tbc.brake)
    (h : FrontAxleSafe s) : FrontAxleSafe (s.withFdc x) where
  closed hx := h.closed (hstate ▸ hx)
  undriven := h.undriven
  free hx := h.free (hstate ▸ hx)
  seen := hseen

theorem withMc (x : Mc) (h : FrontAxleSafe s) : FrontAxleSafe (s.withMc x) := { h with }

theorem withOut (o : Output) (r : OutRec)
    (hsame : (r.command, r.target) = ((s.out o).command, (s.out o).target)) (h : FrontAxleSafe s) :
    FrontAxleSafe (s.withOut o r) := withVdb (.withOut o r hsame) h

/-- A record with its output's command, and the drive target recomputed. -/
theorem withOut_refresh (o : Output) (r : OutRec) (hcommand : r.command = (s.out o).command)
    (h : FrontAxleSafe s) : FrontAxleSafe (s.withVdb ((s.vdb.withOut o r).refresh o)) :=
  withVdb (.withOut_refresh o r (.inl hcommand)) h

/-- A command of another output leaves FDV as it is. -/
theorem writeCommand {o : Output} (ho : .fdv ≠ o) (v : Nat) (h : FrontAxleSafe s) :
    FrontAxleSafe (writeCommand o v s) :=
  holds_ite h (withVdb (.of_outs (by simp [Vdb.refresh_get_ne _ ho, ho])) h)

theorem suspendGrant (cause : GrantCause) (h : FrontAxleSafe s) : FrontAxleSafe (suspendGrant cause s) :=
  withVdb (.of_outs (withhold_fdv _ _)) h

theorem allowGrant (h : FrontAxleSafe s) : FrontAxleSafe (allowGrant s) :=
  withVdb (.of_outs (withhold_fdv _ _)) h

theorem testGrant (h : FrontAxleSafe s) : FrontAxleSafe (testGrant s) :=
  holds_ite (holds_ite (suspendGrant _ h) (holds_ite (suspendGrant _ h) h)) h

theorem withSupply (x : Supply) (r : SupplyRec) (h : FrontAxleSafe s) : FrontAxleSafe (s.withSupply x r) :=
  withVdb (.of_outs rfl) h

theorem onRequest (x : Supply) (h : FrontAxleSafe s) : FrontAxleSafe (onRequest x s) := by
  unfold Machine.onRequest
  dsimp only
  split
  case h_1 | h_2 => exact withSupply _ _ h
  all_goals exact h

/-- At entry to FALLING the commands of the supply's outputs become 0 (R56). -/
theorem offRequest (x : Supply) (h : FrontAxleSafe s) : FrontAxleSafe (offRequest x s) := by
  unfold Machine.offRequest
  dsimp only
  split
  case h_1 | h_2 =>
    exact withVdb (.foldl (fun _ o => .withOut_refresh o _ (.inr rfl)) _ _) (withSupply _ _ h)
  case h_3 => exact withSupply _ _ h
  case h_4 => exact h

theorem setValves (hrv hlv : Nat) (h : FrontAxleSafe s) : FrontAxleSafe (setValves hrv hlv s) :=
  have hv : FrontAxleSafe (s.withHtc { s.htc with hrv := hrv, hlv := hlv }) := { h with }
  holds_ite (writeCommand (by decide) _ (writeCommand (by decide) _ hv))
    (writeCommand (by decide) _ (writeCommand (by decide) _ hv))

theorem keptByRoutine : KeptByRoutine FrontAxleSafe where
  withScu _ h := { h with }
  withSfe _ h := { h with }
  withShc _ h := { h with }
  withHtc _ h := { h with }
  withHsq _ h := { h with }
  withLc _ h := { h with }
  withEvents _ h := { h with }
  withRequests _ h := { h with }
  withPins _ h := { h with }
  withFdc x hsame h := by
    obtain ⟨hstate, hreasons⟩ := Prod.mk.inj hsame
    exact withFdc x hstate (hreasons ▸ h.seen) h
  withTbc x hbrake h := by
    refine { h with free := fun hstate => ?_, seen := fun hstart => ?_ }
    · obtain ⟨p, hp, hlow⟩ := h.free hstate
      exact ⟨p, hbrake.trans hp, hlow⟩
    · change _ = x.brake.isNone ∧ (_ ↔ ∃ p, x.brake = some p ∧ _)
      rw [hbrake]
      exact h.seen hstart
  withMc x _ h := withMc x h
  raise _ h := withMc _ h
  raiseLatched _ h := withMc _ h
  clearFault _ h := withMc _ h
  writeCommand ho v h := writeCommand ho.1.symm v h
  setValves _ h := setValves _ _ h
  grantOnDemand h := holds_ite (holds_ite (allowGrant h) h) (testGrant h)
  grantOnEvent _ h := holds_ite (holds_ite (allowGrant h) h) (holds_ite (testGrant h) h)
  onRequest x h := onRequest x h
  offRequest x h := offRequest x h

/-! ## The valve driver bank (03) -/

theorem setOpen (o : Output) (h : FrontAxleSafe s) : FrontAxleSafe (setOpen o s) :=
  withMc _ (withOut o _ rfl h)

theorem clearOpen (o : Output) (h : FrontAxleSafe s) : FrontAxleSafe (clearOpen o s) :=
  withMc _ (withOut o _ rfl h)

theorem countOpen_drive (x : CoilSample) (r : OutRec) :
    ((countOpen x r).command, (countOpen x r).target) = (r.command, r.target) := by
  unfold countOpen
  split <;> rfl

theorem senseOne (samples : OutputTable CoilSample) (o : Output) (h : FrontAxleSafe s) :
    FrontAxleSafe (senseOne samples s o) :=
  have hm := withOut o { s.out o with measured := sampled (s.out o) (samples.get o) } rfl h
  have hc := withOut o (countOpen (samples.get o) _) (countOpen_drive _ _) hm
  holds_ite (holds_ite (holds_ite (setOpen o hc) (holds_ite (clearOpen o hc) hc)) hm) (withOut o _ rfl h)

theorem trip (o : Output) (h : FrontAxleSafe s) : FrontAxleSafe (trip o s) := by
  unfold Machine.trip
  dsimp only
  split
  · exact withMc _ (withOut_refresh o _ rfl h)
  · exact holds_ite (holds_ite (withMc _ (withMc _ (withOut_refresh o _ rfl h)))
      (withMc _ (withOut_refresh o _ rfl h))) h
  · exact h

theorem openWindow (o : Output) (h : FrontAxleSafe s) : FrontAxleSafe (openWindow o s) :=
  withOut_refresh o _ rfl h

theorem endRetry (o : Output) (h : FrontAxleSafe s) : FrontAxleSafe (endRetry o s) :=
  withMc _ (withOut_refresh o _ rfl h)

theorem rearm (o : Output) (h : FrontAxleSafe s) : FrontAxleSafe (rearm s o) :=
  have hcleared := withOut_refresh o { s.out o with short := .none, retries := 0 } rfl h
  have hc := fun c => keptByRoutine.clearFault c hcleared
  holds_ite (holds_ite (trip o (hc _)) (hc _)) h

/-- Pull-in ends on an output that is driven, so that FDV is commanded where it is the one (R50). -/
theorem endPullIn (o : Output) (hover : pullInOver o s = true) (h : FrontAxleSafe s) :
    FrontAxleSafe (s.withOut o { s.out o with target := holdCurrent }) := by
  have hdriven : (s.out o).target ≠ 0 := by
    simp only [pullInOver, Bool.and_eq_true, decide_eq_true_eq] at hover
    exact hover.1
  by_cases ho : .fdv = o
  · subst ho
    refine withVdb ⟨.inl (by simp [State.out]), fun hundriven hzero => ?_⟩ h
    exact absurd (hundriven (by simpa [State.out] using hzero)) hdriven
  · exact withVdb (.of_outs (by simp [ho])) h

theorem enableSupply (x : Supply) (h : FrontAxleSafe s) : FrontAxleSafe (enableSupply x s) :=
  withVdb (.foldl (fun v o => .withOut_refresh o { v.outs.get o with openCount := 0 } (.inl rfl)) _ _)
    (withSupply x _ h)

theorem finishFall (x : Supply) (h : FrontAxleSafe s) : FrontAxleSafe (finishFall x s) :=
  holds_ite (withSupply x _ h) (withSupply x _ h)

/-- The release reaches the outputs and the trailer between two changes of the fault table (R184). -/
theorem acknowledge (h : FrontAxleSafe s) : FrontAxleSafe (acknowledge s) := by
  have hu : FrontAxleSafe (s.withFaults s.faultTable.unlatch) := withMc _ h
  refine withMc _ (keptByRoutine.releaseTrailer (holds_ite ?_ hu))
  exact holds_foldl (P := FrontAxleSafe) (fun _ o => rearm o) _ hu

/-! ## The front drive (05) -/

/-- FDV as the axle's state asks (R102, R103), whatever its command was: the axle is open only over free brakes. -/
theorem writeFdv (hundriven : (s.out .fdv).command = 0 → (s.out .fdv).target = 0)
    (hfree : s.fdc.state = .releasing ∨ s.fdc.state = .released → BrakesFree s)
    (hseen : BrakeSeen s.fdc.reasons s.tbc.brake) : FrontAxleSafe (writeFdv s) := by
  have hfdc : (Machine.writeFdv s).fdc = { s.fdc with fdvOn := s.fdc.state.fdv } :=
    touches_writeCommand _ _ _ .fdc (by decide)
  have htbc : (Machine.writeFdv s).tbc = s.tbc := touches_writeCommand _ _ _ .tbc (by decide)
  constructor
  case closed =>
    rw [hfdc]
    intro hstate
    refine (writeCommand_command _ _ _).trans ?_
    rcases hstate with hstate | hstate <;> rw [hstate] <;> rfl
  case undriven => exact writeCommand_fdv_undriven _ hundriven
  case free =>
    unfold BrakesFree
    rw [hfdc, htbc]
    exact hfree
  case seen =>
    rw [hfdc, htbc]
    exact hseen

/-- A state is entered (R102, R103): one in which the axle opens, only over free brakes. -/
theorem enterFdc {st : FdcState} (hundriven : (s.out .fdv).command = 0 → (s.out .fdv).target = 0)
    (hfree : st = .releasing ∨ st = .released → BrakesFree s) (hseen : BrakeSeen s.fdc.reasons s.tbc.brake) :
    FrontAxleSafe (enterFdc st s) :=
  writeFdv (s := s.withFdc { s.fdc with state := st, time := 0 }) hundriven hfree hseen

/-- Release is due, and RELEASING complete, only over an empty reason set (R102, R103). -/
theorem enterFdc_of_isEmpty (st : FdcState) (hempty : s.fdc.reasons.isEmpty = true) (h : FrontAxleSafe s) :
    FrontAxleSafe (Machine.enterFdc st s) :=
  enterFdc h.undriven (fun _ => brakesFree_of_isEmpty h.seen hempty) h.seen

theorem isEmpty_of_releaseDue (h : releaseDue s = true) : s.fdc.reasons.isEmpty = true := by
  simp only [releaseDue, Bool.and_eq_true] at h
  obtain ⟨⟨⟨-, hempty⟩, -⟩, -⟩ := h
  exact hempty

theorem isEmpty_of_releasedDue (h : releasedDue s = true) : s.fdc.reasons.isEmpty = true := by
  simp only [releasedDue, Bool.and_eq_true] at h
  obtain ⟨⟨-, hempty⟩, -⟩ := h
  exact hempty

/-- An open axle that no reason turns back has an empty reason set (R103). -/
theorem isEmpty_of_not_engageDue (h : ¬ engageDue s = true)
    (hopen : s.fdc.state = .releasing ∨ s.fdc.state = .released) : s.fdc.reasons.isEmpty = true := by
  rcases hopen with hopen | hopen <;> simpa [engageDue, hopen] using h

theorem enterEngaging (h : FrontAxleSafe s) : FrontAxleSafe (Machine.enterFdc .engaging s) :=
  enterFdc h.undriven (by simp) h.seen

theorem enterEngaged (h : FrontAxleSafe s) : FrontAxleSafe (Machine.enterFdc .engaged s) :=
  enterFdc h.undriven (by simp) h.seen

theorem actFdc (h : FrontAxleSafe s) : FrontAxleSafe (actFdc s) :=
  iteInduction (fun hdue => enterFdc_of_isEmpty _ (isEmpty_of_releaseDue hdue) h) fun _ =>
    holds_ite (enterEngaging h)
      (iteInduction (fun hdue => enterFdc_of_isEmpty _ (isEmpty_of_releasedDue hdue) h) fun _ =>
        holds_ite (enterEngaged h) h)

/-- A reason turns an open axle back at once (R103), so that one left open has free brakes, even where they were
not free before the reason was set. -/
theorem actOnReason (hclosed : s.fdc.state = .engaged ∨ s.fdc.state = .engaging → (s.out .fdv).command = 0)
    (hundriven : (s.out .fdv).command = 0 → (s.out .fdv).target = 0)
    (hseen : BrakeSeen s.fdc.reasons s.tbc.brake) : FrontAxleSafe (actOnReason s) :=
  iteInduction (fun _ => enterFdc hundriven (by simp) hseen) fun hnot =>
    { closed := hclosed
      undriven := hundriven
      free := fun hopen => brakesFree_of_isEmpty hseen (isEmpty_of_not_engageDue hnot hopen)
      seen := hseen }

theorem clearAutoSlip (h : FrontAxleSafe s) : FrontAxleSafe (clearAutoSlip s) := withFdc _ rfl h.seen h

theorem updateAutoSlip (h : FrontAxleSafe s) : FrontAxleSafe (updateAutoSlip s) :=
  have hcount := fun n => withFdc { s.fdc with slipClear := n } rfl h.seen h
  holds_ite (clearAutoSlip h) (holds_ite (hcount _) (holds_ite (withFdc _ rfl h.seen h)
    (holds_ite (holds_ite (clearAutoSlip (hcount _)) (hcount _)) (hcount _))))

/-- Step 3 reads the brake pressure as it stands (R109). -/
theorem updateReasons (h : FrontAxleSafe s) : FrontAxleSafe (updateReasons s) :=
  withFdc _ rfl (brakeSeen_withBrake _ _) (updateAutoSlip h)

theorem takeCabMode (h : FrontAxleSafe s) : FrontAxleSafe (takeCabMode s) := by
  have hmode (m : FrontMode) : ((s.fdc.takeMode m).state, (s.fdc.takeMode m).reasons) =
      (s.fdc.state, s.fdc.reasons) := by
    unfold Fdc.takeMode
    split <;> rfl
  unfold Machine.takeCabMode
  split
  · exact keptByRoutine.withFdc _ (hmode _) h
  · exact h

theorem checkPlausible (h : FrontAxleSafe s) : FrontAxleSafe (checkPlausible s) :=
  have hcount := fun d a => withFdc { s.fdc with deviation := d, agreement := a } rfl h.seen h
  holds_ite
    (holds_ite (holds_ite (withMc _ (hcount 0 0)) (hcount _ _)) (holds_ite (withMc _ (hcount 0 0)) (hcount _ _)))
    (hcount _ _)

/-- One control interval (R101), step by step. -/
theorem fdcInterval (h : FrontAxleSafe s) : FrontAxleSafe (fdcInterval s) := by
  have haged : FrontAxleSafe (ageFdc s) := withFdc _ rfl h.seen h
  have hreasons := updateReasons (takeCabMode haged)
  have hcounted : FrontAxleSafe (countEmpty (Machine.updateReasons (Machine.takeCabMode (ageFdc s)))) :=
    withFdc _ rfl hreasons.seen hreasons
  have hchecked := checkPlausible (actFdc hcounted)
  exact writeFdv hchecked.undriven hchecked.free hchecked.seen

theorem takeFdcCharge (ev : SfeEvent) (h : FrontAxleSafe s) : FrontAxleSafe (takeFdcCharge ev s) := by
  have hcharge (b : Bool) : FrontAxleSafe (s.withReasons { s.fdc.reasons with lowCharge := b }) :=
    withFdc _ rfl h.seen h
  cases ev
  case lowEnter | failed | starting =>
    exact actOnReason (hcharge true).closed (hcharge true).undriven (hcharge true).seen
  case lowLeave => exact hcharge false
  case valid => exact holds_ite (hcharge false) h
  case highEnter | highLeave => exact h

/-! ## The brake pressure (07) -/

/-- A new brake pressure is an event for the FDC whose timer runs, which turns the axle back where the brakes are no
longer free (R103, R109, R148). -/
theorem writeBrake (hruns : s.mc.mode.controllersRun = true) (h : FrontAxleSafe s) :
    FrontAxleSafe (writeBrake s) := by
  have hevent (x : Tbc) : FrontAxleSafe (brakeEvent (s.withTbc x)) := by
    unfold brakeEvent
    rw [if_pos (by exact hruns)]
    exact actOnReason h.closed h.undriven (brakeSeen_withBrake _ _)
  exact holds_ite (keptByRoutine.writeDemand (hevent _)) (hevent _)

theorem tbcInterval (hruns : s.mc.mode.controllersRun = true) (h : FrontAxleSafe s) :
    FrontAxleSafe (tbcInterval s) := by
  have hmode : (readLines (settleCoupling s)).mc.mode = s.mc.mode := (Spares.refl s).settleCoupling.readLines.mode
  have hwritten := writeBrake (hmode.symm ▸ hruns) (keptByRoutine.readLines (keptByRoutine.settleCoupling h))
  exact keptByRoutine.driveLine (keptByRoutine.stateTests (keptByRoutine.parkTests
    (keptByRoutine.compareBrakes (keptByRoutine.countUnknown hwritten))))

theorem takeTbr (hruns : s.mc.mode.controllersRun = true) (h : FrontAxleSafe s) : FrontAxleSafe (takeTbr s) :=
  have hwritten := writeBrake hruns h
  holds_ite (keptByRoutine.recomputeTcv hwritten) hwritten

/-! ## Resets (R61, R99, R114, R206, R211) -/

/-- The reset values of the front drive and of its output: ENGAGED, with START and FDV off. -/
theorem of_reset (hfdc : s.fdc = .reset) (hfdv : s.out .fdv = .reset) : FrontAxleSafe s := by
  constructor
  case closed | undriven => rw [hfdv]; exact fun _ => rfl
  case free => rw [hfdc]; simp [Fdc.reset]
  case seen => rw [hfdc]; simp [Fdc.reset]

theorem restartOutput_out (s : State) (o p : Output) :
    (restartOutput s o).out p = if p = o then .reset else s.out p := by
  have hclear {c : Prop} [Decidable c] (code : FaultCode) (u : State) :
      (if c then clearFault code u else u).out p = u.out p := by split <;> rfl
  unfold restartOutput
  rw [State.withOut_out, hclear, hclear]

theorem restartVdb_out_fdv (s : State) : (restartVdb s).out .fdv = .reset := by
  have hreset : (Output.all.foldl restartOutput s).out .fdv = .reset := by simp [Output.all, restartOutput_out]
  unfold restartVdb
  exact (State.withVdb_out _ _ _).trans hreset

theorem touches_restartTbc (s : State) : Touches [.tbc, .lc, .mc] s (restartTbc s) := by
  have hclear : Touches [.tbc, .lc, .mc] s
      (if (s.tbc.state == .breakaway) = true then clearFault .trailerBreakaway s else s) :=
    touches_ite _ ((touches_clearFault _ s).mono (by decide)) (.refl _ s)
  have hreset := fun x => hclear.trans ((touches_withTbc _ x).mono (by decide))
  exact touches_ite _ ((hreset _).trans ((touches_publish _ _).mono (by decide))) (hreset _)

/-- A restart of the TBC writes neither the front drive nor FDV. -/
theorem restartTbc (hfdc : s.fdc = .reset) (hfdv : s.out .fdv = .reset) : FrontAxleSafe (restartTbc s) := by
  have htbc := touches_restartTbc s
  have hvdb := congrArg (fun v : Vdb => v.outs.get .fdv) (htbc .vdb (by decide))
  exact of_reset ((htbc .fdc (by decide)).trans hfdc) (hvdb.trans hfdv)

theorem restartBlocks (s : State) : FrontAxleSafe (restartBlocks s) := by
  have hfdv := restartVdb_out_fdv s
  unfold Machine.restartBlocks
  generalize restartVdb s = u at hfdv ⊢
  exact keptByRoutine.withHsq _ (restartTbc rfl hfdv)

theorem loadImage (version : Nat) (c : Image) (h : FrontAxleSafe s) : FrontAxleSafe (loadImage version c s) :=
  { h with }

/-! ## One modulator clock (log 2) -/

theorem microTick (h : FrontAxleSafe s) : FrontAxleSafe (microTick s) where
  closed hstate := by rw [microTick_out]; exact h.closed hstate
  undriven := by rw [microTick_out]; exact h.undriven
  free := h.free
  seen := h.seen

theorem clockTick (h : FrontAxleSafe s) : FrontAxleSafe (clockTick s) := by
  by_cases hsub : s.sub + 1 < 5
  · rw [clockTick_of_within hsub]
    exact { h with }
  · rw [clockTick_of_end hsub]
    exact microTick { h with }

/-! ## The statement -/

/-- Every command answers a next state in which the axle is safe. -/
theorem exec_keeps (i : Instr) (h : FrontAxleSafe s) : ∃ t, exec i s = .next t ∧ FrontAxleSafe t := by
  have hP := keptByRoutine
  cases i with
  -- resets
  | powerOnReset => exact ⟨_, rfl, of_reset rfl rfl⟩
  | wake => exact ⟨_, rfl, holds_ite (of_reset rfl rfl) h⟩
  | loadingComplete => exact ⟨_, rfl, holds_ite (hP.finishLoading _ _ (loadImage _ _ h) h) h⟩
  -- the front drive
  | fdcControlInterval => exact ⟨_, rfl, holds_ite (fdcInterval h) h⟩
  | fdcRelease =>
    refine ⟨_, rfl, iteInduction (fun hdue => enterFdc_of_isEmpty _ ?_ h) fun _ => h⟩
    exact isEmpty_of_releaseDue (Bool.and_eq_true_iff.mp hdue).2
  | releasingComplete =>
    refine ⟨_, rfl, iteInduction (fun hdue => enterFdc_of_isEmpty _ ?_ h) fun _ => h⟩
    exact isEmpty_of_releasedDue (Bool.and_eq_true_iff.mp hdue).2
  | engagingComplete => exact ⟨_, rfl, holds_ite (enterEngaged h) h⟩
  | autoSlipClear => exact ⟨_, rfl, holds_ite (clearAutoSlip h) h⟩
  | fdcChgEvent => exact ⟨_, rfl, hP.event (fun ev _ _ => takeFdcCharge ev) h⟩
  -- the brake pressure
  | tbcControlInterval =>
    exact ⟨_, rfl, iteInduction (fun hruns => tbcInterval hruns (hP.withPins _ h)) fun _ => hP.withPins _ h⟩
  | tbrStateEvent => exact ⟨_, rfl, hP.event (fun _ _ hruns => takeTbr hruns) h⟩
  -- the valve driver bank
  | senseTimer samples => exact ⟨_, rfl, holds_ite (holds_foldl (fun _ o => senseOne samples o) _ h) h⟩
  | openDetected => exact ⟨_, rfl, holds_ite (setOpen _ h) h⟩
  | openRecovered => exact ⟨_, rfl, holds_ite (clearOpen _ h) h⟩
  | shortTrip => exact ⟨_, rfl, holds_ite (trip _ h) h⟩
  | retryTimerExpiry | deferredRetry => exact ⟨_, rfl, holds_ite (openWindow _ h) h⟩
  | retrySuccess => exact ⟨_, rfl, holds_ite (endRetry _ h) h⟩
  | pullInEnd => exact ⟨_, rfl, iteInduction (fun hover => endPullIn _ hover h) fun _ => h⟩
  | supplyRiseComplete => exact ⟨_, rfl, holds_ite (hP.stepAfterRise _ (enableSupply _ h)) h⟩
  | supplyFallComplete x =>
    have hfall {u : State} (hu : FrontAxleSafe u) : FrontAxleSafe (completeFall x u) :=
      holds_ite (hP.stepAfterFall x (restartBlocks _) (finishFall x hu)) (finishFall x hu)
    exact ⟨_, rfl, holds_ite (hfall (hP.withPins _ h)) (hP.withPins _ h)⟩
  -- acknowledgements
  | faultAcknowledge =>
    refine ⟨_, rfl, ?_⟩
    split
    next u htake =>
      obtain ⟨l, rfl⟩ := takeRequest_eq_withRequests htake
      exact holds_ite (acknowledge (hP.withRequests l h)) (hP.withRequests l h)
    next => exact h
  | faultAck =>
    exact ⟨_, rfl, hP.service
      (fun _ _ _ hu => holds_ite (hP.serviceAnswer _ _ _ _ (acknowledge hu)) hu) h⟩
  | _ => exact hP.exec_of_routine rfl h

/-- A step runs the front command on the rest of the queue, or lets one clock pass; both keep the axle safe. -/
theorem step_keeps {t : State} (h : FrontAxleSafe s) (hstep : step s = .next t) : FrontAxleSafe t := by
  unfold step at hstep
  split at hstep
  next c rest _ =>
    obtain ⟨u, hu, hsafe⟩ := exec_keeps (s := { s with pending := rest }) c { h with }
    obtain rfl := Host.Outcome.next.inj (hu.symm.trans hstep)
    exact hsafe
  next =>
    obtain rfl := Host.Outcome.next.inj hstep
    exact clockTick h

/-- Over brakes that are not known to be free a safe axle is closed, with its valve undriven. -/
theorem closed_of_not_brakesFree (h : FrontAxleSafe s) (hbrakes : ¬ BrakesFree s) :
    (s.fdc.state = .engaged ∨ s.fdc.state = .engaging) ∧ (s.out .fdv).target = 0 := by
  have hclosed : s.fdc.state = .engaged ∨ s.fdc.state = .engaging := by
    cases hstate : s.fdc.state with
    | engaged => exact .inl rfl
    | engaging => exact .inr rfl
    | releasing => exact absurd (h.free (.inl hstate)) hbrakes
    | released => exact absurd (h.free (.inr hstate)) hbrakes
  exact ⟨hclosed, h.undriven (h.closed hclosed)⟩

end FrontAxle

/-- Settles O59: the axle stays safe through every command and every clock, and a safe axle is closed over brakes
that are not known to be free. -/
theorem everyStepKeepsFrontAxle : Obligations.EveryStepKeepsFrontAxle := by
  intro s t hsafe hstep
  have ht := FrontAxle.step_keeps hsafe hstep
  exact ⟨ht, FrontAxle.closed_of_not_brakesFree ht⟩

end Sys2Proof.Proofs
end

