-- ==== Sys2Proof/Proofs/HitchValves.lean ====
section
/-! SUPPORT. The hitch valves (R60, R117): what each write to the valve driver bank does to the commands of HRV and
HLV and to the grant that withholds them, and the statement that every step keeps both. -/

namespace Sys2Proof.Proofs

open Sys2Proof Sys2Proof.Machine

/-! ## An output's record at rest (R47, R48, R60) -/

/-- A write of 0 is stored as 0 (R47). -/
theorem storedCommand_zero (c : Image) (o : Output) : storedCommand c o 0 = 0 := by simp [storedCommand]

/-- A withheld output has no drive target once it is recomputed (R48, R60). -/
theorem refresh_undriven_of_withheld (v : Vdb) (o : Output)
    (h : ((v.refresh o).outs.get o).withheld = true) : ((v.refresh o).outs.get o).target = 0 := by
  have hwithheld := (Vdb.refresh_keeps v o o).2.1.symm.trans h
  exact (Vdb.refresh_blocked v o (by simp [Vdb.blocked, hwithheld])).1

/-- From `r` to `x` the command stands or becomes 0, the withheld flag stands, and an output withheld without drive
stays without it. -/
structure OutputRests (r x : OutRec) : Prop where
  command : x.command = r.command ∨ x.command = 0
  withheld : x.withheld = r.withheld
  undriven : (r.withheld = true → r.target = 0) → x.withheld = true → x.target = 0

namespace OutputRests

variable {r x y : OutRec}

theorem of_same (h : (x.command, x.withheld, x.target) = (r.command, r.withheld, r.target)) :
    OutputRests r x := by
  simp only [Prod.mk.injEq] at h
  obtain ⟨hcommand, hwithheld, htarget⟩ := h
  exact ⟨.inl hcommand, hwithheld, by rw [hwithheld, htarget]; exact id⟩

protected theorem refl (r : OutRec) : OutputRests r r := of_same rfl

theorem closed (h : OutputRests r x) (hzero : r.command = 0) : x.command = 0 :=
  h.command.elim (·.trans hzero) id

protected theorem trans (h : OutputRests r x) (k : OutputRests x y) : OutputRests r y where
  command := k.command.elim (fun hk => h.command.imp hk.trans hk.trans) .inr
  withheld := k.withheld.trans h.withheld
  undriven := k.undriven ∘ h.undriven

/-- The command becomes 0, as at entry to FALLING (R56). -/
theorem commandZero (r : OutRec) : OutputRests r { r with command := 0 } := ⟨.inr rfl, rfl, id⟩

/-- Pull-in ends on an output that is driven, hence not withheld (R50). -/
theorem endPullIn (h : r.target ≠ 0) : OutputRests r { r with target := holdCurrent } :=
  ⟨.inl rfl, rfl, fun hundriven hwithheld => absurd (hundriven hwithheld) h⟩

theorem countOpen (c : CoilSample) (r : OutRec) : OutputRests r (countOpen c r) := by
  unfold Machine.countOpen
  split <;> exact of_same rfl

protected theorem refresh (v : Vdb) (o p : Output) : OutputRests (v.outs.get p) ((v.refresh o).outs.get p) := by
  by_cases hp : p = o
  · subst hp
    obtain ⟨hcommand, hwithheld, -⟩ := Vdb.refresh_keeps v p p
    exact ⟨.inl hcommand, hwithheld, fun _ => refresh_undriven_of_withheld v p⟩
  · rw [Vdb.refresh_get_ne v hp]
    exact .refl _

end OutputRests

/-! ## The hitch valves at rest in the driver bank -/

/-- From `v` to `w` the grant stays SUSPENDED or ALLOWED and both hitch valves rest. -/
structure HitchRests (v w : Vdb) : Prop where
  suspended : w.grant.suspended = v.grant.suspended
  raise : OutputRests (v.outs.get .hrv) (w.outs.get .hrv)
  lower : OutputRests (v.outs.get .hlv) (w.outs.get .hlv)

namespace HitchRests

variable {v w x : Vdb}

protected theorem refl (v : Vdb) : HitchRests v v := ⟨rfl, .refl _, .refl _⟩

protected theorem trans (h : HitchRests v w) (k : HitchRests w x) : HitchRests v x :=
  ⟨k.suspended.trans h.suspended, h.raise.trans k.raise, h.lower.trans k.lower⟩

protected theorem foldl {f : Vdb → Output → Vdb} (hf : ∀ (v : Vdb) (o : Output), HitchRests v (f v o))
    (l : List Output) (v : Vdb) : HitchRests v (l.foldl f v) :=
  List.foldlRecOn l f (.refl v) fun w hw o _ => hw.trans (hf w o)

protected theorem withOut (o : Output) {r : OutRec} (hr : OutputRests (v.outs.get o) r) :
    HitchRests v (v.withOut o r) := by
  have hall (p : Output) : OutputRests (v.outs.get p) ((v.withOut o r).outs.get p) := by
    rw [Vdb.withOut_get]
    split
    next hp => exact hp ▸ hr
    next => exact .refl _
  exact ⟨rfl, hall _, hall _⟩

protected theorem refresh (v : Vdb) (o : Output) : HitchRests v (v.refresh o) :=
  ⟨by rw [Vdb.refresh_grant], .refresh v o _, .refresh v o _⟩

theorem withOut_refresh (o : Output) {r : OutRec} (hr : OutputRests (v.outs.get o) r) :
    HitchRests v ((v.withOut o r).refresh o) := (HitchRests.withOut o hr).trans (.refresh _ o)

/-- A microsecond moves an output's timers alone. -/
theorem micro (v : Vdb) : HitchRests v v.micro := by
  have hall (p : Output) : OutputRests (v.outs.get p) (v.micro.outs.get p) := by
    unfold Vdb.micro
    rw [OutputTable.get_map]
    exact .of_same rfl
  exact ⟨rfl, hall _, hall _⟩

end HitchRests

/-! ## The withheld flags (R60) -/

/-- The flag of one valve with its drive target recomputed. -/
def setWithheld (w : Bool) (o : Output) (v : Vdb) : Vdb :=
  (v.withOut o { v.outs.get o with withheld := w }).refresh o

/-- The grant's flags are those of HRV and HLV. -/
theorem withhold_eq (w : Bool) (v : Vdb) : withhold w v = setWithheld w .hlv (setWithheld w .hrv v) := rfl

theorem setWithheld_get_ne (w : Bool) (v : Vdb) {o p : Output} (h : p ≠ o) :
    (setWithheld w o v).outs.get p = v.outs.get p := by
  simp [setWithheld, Vdb.refresh_get_ne _ h, h]

@[simp] theorem setWithheld_grant (w : Bool) (o : Output) (v : Vdb) : (setWithheld w o v).grant = v.grant :=
  Vdb.refresh_grant _ _

/-- From `r` to `x` the command stands and the withheld flag becomes `w`, with no drive where that is set. -/
structure FlagGiven (w : Bool) (r x : OutRec) : Prop where
  command : x.command = r.command
  withheld : x.withheld = w
  undriven : x.withheld = true → x.target = 0

theorem setWithheld_get (w : Bool) (o : Output) (v : Vdb) :
    FlagGiven w (v.outs.get o) ((setWithheld w o v).outs.get o) := by
  obtain ⟨hcommand, hwithheld, -⟩ := Vdb.refresh_keeps (v.withOut o { v.outs.get o with withheld := w }) o o
  rw [Vdb.withOut_get, if_pos rfl] at hcommand hwithheld
  exact ⟨hcommand, hwithheld, refresh_undriven_of_withheld _ o⟩

theorem withhold_hrv (w : Bool) (v : Vdb) : FlagGiven w (v.outs.get .hrv) ((withhold w v).outs.get .hrv) := by
  rw [withhold_eq, setWithheld_get_ne w _ (by decide)]
  exact setWithheld_get w .hrv v

theorem withhold_hlv (w : Bool) (v : Vdb) : FlagGiven w (v.outs.get .hlv) ((withhold w v).outs.get .hlv) := by
  have hgiven := setWithheld_get w .hlv (setWithheld w .hrv v)
  rwa [setWithheld_get_ne w v (by decide)] at hgiven

/-! ## Both rules of the hitch valves together -/

/-- HRV or HLV is commanded 0 (R117), and the grant holds (R60). -/
structure HitchSafe (s : State) : Prop where
  exclusive : HitchValvesExclusive s
  grant : GrantHolds s

namespace HitchSafe

variable {s t : State}

theorem of_rests (h : HitchSafe s) (hr : HitchRests s.vdb t.vdb) : HitchSafe t where
  exclusive := h.exclusive.imp hr.raise.closed hr.lower.closed
  grant :=
    { withheld := fun hsuspended => by
        obtain ⟨hraise, hlower⟩ := h.grant.withheld (hr.suspended.symm.trans hsuspended)
        exact ⟨hr.raise.withheld.trans hraise, hr.lower.withheld.trans hlower⟩
      raise := hr.raise.undriven h.grant.raise
      lower := hr.lower.undriven h.grant.lower }

/-- The rules speak of the driver bank alone. -/
theorem of_vdb (h : HitchSafe s) (hvdb : t.vdb = s.vdb) : HitchSafe t := h.of_rests (hvdb ▸ .refl _)

theorem withFdc (x : Fdc) (h : HitchSafe s) : HitchSafe (s.withFdc x) := h.of_vdb rfl
theorem withTbc (x : Tbc) (h : HitchSafe s) : HitchSafe (s.withTbc x) := h.of_vdb rfl
theorem withMc (x : Mc) (h : HitchSafe s) : HitchSafe (s.withMc x) := h.of_vdb rfl

theorem withOut (o : Output) {r : OutRec} (hr : OutputRests (s.out o) r) (h : HitchSafe s) :
    HitchSafe (s.withOut o r) := h.of_rests (.withOut o hr)

theorem withOut_refresh (o : Output) {r : OutRec} (hr : OutputRests (s.out o) r) (h : HitchSafe s) :
    HitchSafe (s.withVdb ((s.vdb.withOut o r).refresh o)) := h.of_rests (.withOut_refresh o hr)

/-! ## Commands (R47, R117) -/

/-- The grant asks nothing of commands. -/
theorem grantHolds_withCommand (o : Output) (c : Nat) (h : GrantHolds s) :
    GrantHolds (s.withOut o { s.out o with command := c }) := by
  have hsame (p : Output) : ((s.withOut o { s.out o with command := c }).out p).withheld = (s.out p).withheld ∧
      ((s.withOut o { s.out o with command := c }).out p).target = (s.out p).target := by
    by_cases hp : p = o <;> simp [hp]
  exact
    { withheld := fun hs => by
        rw [(hsame _).1, (hsame _).1]
        exact h.withheld hs
      raise := by
        rw [(hsame _).1, (hsame _).2]
        exact h.raise
      lower := by
        rw [(hsame _).1, (hsame _).2]
        exact h.lower }

/-- A command that leaves HRV or HLV commanded 0 is written, and the drive target recomputed. -/
theorem writeCommand {o : Output} {v : Nat}
    (hone : HitchValvesExclusive (s.withOut o { s.out o with command := storedCommand s.cfg o v }))
    (h : HitchSafe s) : HitchSafe (writeCommand o v s) := by
  have hwritten : HitchSafe (s.withOut o { s.out o with command := storedCommand s.cfg o v }) :=
    { exclusive := hone, grant := grantHolds_withCommand _ _ h.grant }
  exact holds_ite h (hwritten.of_rests (.refresh _ o))

theorem writeCommand_other {o : Output} (ho : o ≠ .hrv ∧ o ≠ .hlv) (v : Nat) (h : HitchSafe s) :
    HitchSafe (Machine.writeCommand o v s) :=
  h.writeCommand (h.exclusive.imp (by simp [ho.1.symm]) (by simp [ho.2.symm]))

/-- A write of 0 closes a valve, whatever the other is commanded. -/
theorem writeCommand_zero (o : Output) (h : HitchSafe s) : HitchSafe (Machine.writeCommand o 0 s) := by
  have hclosed {p : Output} (hp : (s.out p).command = 0) :
      ((s.withOut o { s.out o with command := storedCommand s.cfg o 0 }).out p).command = 0 := by
    rw [State.withOut_out]
    split
    · exact storedCommand_zero _ _
    · exact hp
  exact h.writeCommand (h.exclusive.imp hclosed hclosed)

/-- The valve commanded 0 is written before the other is opened (R117). -/
theorem setValves {hrv hlv : Nat} (hone : hrv = 0 ∨ hlv = 0) (h : HitchSafe s) :
    HitchSafe (setValves hrv hlv s) := by
  have hclosed (o : Output) (u : State) : ((Machine.writeCommand o 0 u).out o).command = 0 :=
    (writeCommand_command o 0 u).trans (storedCommand_zero _ _)
  have hv : HitchSafe (s.withHtc { s.htc with hrv := hrv, hlv := hlv }) := h.of_vdb rfl
  refine iteInduction (fun hzero => ?_) fun hopen => ?_
  · subst hzero
    exact (hv.writeCommand_zero .hrv).writeCommand (.inl (by simp [hclosed]))
  · obtain rfl := hone.resolve_left hopen
    exact (hv.writeCommand_zero .hlv).writeCommand (.inr (by simp [hclosed]))

/-! ## The grant (R58 to R60) -/

/-- A SUSPENDED grant withholds both valves, which are undriven at once (R60). -/
theorem withhold {w : Bool} {g : Grant} (hg : g.suspended = true → w = true) (h : HitchSafe s) :
    HitchSafe (s.withVdb (withhold w { s.vdb with grant := g })) := by
  have hraise := withhold_hrv w { s.vdb with grant := g }
  have hlower := withhold_hlv w { s.vdb with grant := g }
  exact
    { exclusive := h.exclusive.imp hraise.command.trans hlower.command.trans
      grant :=
        { withheld := fun hs => by
            rw [State.withVdb_vdb, withhold_eq, setWithheld_grant, setWithheld_grant] at hs
            exact ⟨hraise.withheld.trans (hg hs), hlower.withheld.trans (hg hs)⟩
          raise := hraise.undriven
          lower := hlower.undriven } }

theorem suspendGrant (cause : GrantCause) (h : HitchSafe s) : HitchSafe (suspendGrant cause s) :=
  h.withhold fun _ => rfl

theorem allowGrant (h : HitchSafe s) : HitchSafe (allowGrant s) := h.withhold fun hs => absurd hs (by simp)

theorem testGrant (h : HitchSafe s) : HitchSafe (testGrant s) :=
  holds_ite (holds_ite (h.suspendGrant _) (holds_ite (h.suspendGrant _) h)) h

/-! ## The supplies (R55, R56) -/

theorem withSupply (x : Supply) (r : SupplyRec) (h : HitchSafe s) : HitchSafe (s.withSupply x r) :=
  h.of_rests ⟨rfl, .refl _, .refl _⟩

theorem onRequest (x : Supply) (h : HitchSafe s) : HitchSafe (onRequest x s) := by
  unfold Machine.onRequest
  dsimp only
  split
  case h_1 | h_2 => exact h.withSupply _ _
  all_goals exact h

theorem offRequest (x : Supply) (h : HitchSafe s) : HitchSafe (offRequest x s) := by
  unfold Machine.offRequest
  dsimp only
  split
  case h_1 | h_2 =>
    exact (h.withSupply _ _).of_rests (.foldl (fun _ o => .withOut_refresh o (.commandZero _)) _ _)
  case h_3 => exact h.withSupply _ _
  case h_4 => exact h

theorem enableSupply (x : Supply) (h : HitchSafe s) : HitchSafe (enableSupply x s) :=
  (h.withSupply x _).of_rests (.foldl (fun v o =>
    .withOut_refresh o (r := { v.outs.get o with openCount := 0 }) (.of_same rfl)) _ _)

theorem finishFall (x : Supply) (h : HitchSafe s) : HitchSafe (finishFall x s) :=
  holds_ite (h.withSupply x _) (h.withSupply x _)

theorem keptByRoutine : KeptByRoutine HitchSafe where
  withScu _ h := h.of_vdb rfl
  withSfe _ h := h.of_vdb rfl
  withShc _ h := h.of_vdb rfl
  withHtc _ h := h.of_vdb rfl
  withHsq _ h := h.of_vdb rfl
  withLc _ h := h.of_vdb rfl
  withEvents _ h := h.of_vdb rfl
  withRequests _ h := h.of_vdb rfl
  withPins _ h := h.of_vdb rfl
  withFdc x _ h := h.withFdc x
  withTbc x _ h := h.withTbc x
  withMc x _ h := h.withMc x
  raise _ h := h.withMc _
  raiseLatched _ h := h.withMc _
  clearFault _ h := h.withMc _
  writeCommand ho v h := h.writeCommand_other ho.2 v
  setValves hone h := h.setValves hone
  grantOnDemand h := holds_ite (holds_ite h.allowGrant h) h.testGrant
  grantOnEvent _ h := holds_ite (holds_ite h.allowGrant h) (holds_ite h.testGrant h)
  onRequest x h := h.onRequest x
  offRequest x h := h.offRequest x

/-! ## Coil tests, trips and retries (R50 to R54) -/

theorem setOpen (o : Output) (h : HitchSafe s) : HitchSafe (setOpen o s) :=
  withMc _ (withOut o (.of_same rfl) h)

theorem clearOpen (o : Output) (h : HitchSafe s) : HitchSafe (clearOpen o s) :=
  withMc _ (withOut o (.of_same rfl) h)

theorem senseOne (samples : OutputTable CoilSample) (o : Output) (h : HitchSafe s) :
    HitchSafe (senseOne samples s o) :=
  have hm := h.withOut o (r := { s.out o with measured := sampled (s.out o) (samples.get o) }) (.of_same rfl)
  have hc := hm.withOut o (.countOpen (samples.get o) _)
  holds_ite (holds_ite (holds_ite (hc.setOpen o) (holds_ite (hc.clearOpen o) hc)) hm)
    (h.withOut o (.of_same rfl))

theorem trip (o : Output) (h : HitchSafe s) : HitchSafe (trip o s) := by
  unfold Machine.trip
  dsimp only
  split
  · exact withMc _ (withOut_refresh o (.of_same rfl) h)
  · exact holds_ite (holds_ite (withMc _ (withMc _ (withOut_refresh o (.of_same rfl) h)))
      (withMc _ (withOut_refresh o (.of_same rfl) h))) h
  · exact h

theorem openWindow (o : Output) (h : HitchSafe s) : HitchSafe (openWindow o s) :=
  h.withOut_refresh o (.of_same rfl)

theorem endRetry (o : Output) (h : HitchSafe s) : HitchSafe (endRetry o s) :=
  withMc _ (withOut_refresh o (.of_same rfl) h)

theorem rearm (o : Output) (h : HitchSafe s) : HitchSafe (rearm s o) :=
  have hc := (h.withOut_refresh o (r := { s.out o with short := .none, retries := 0 }) (.of_same rfl)).withMc
  holds_ite (holds_ite ((hc _).trip o) (hc _)) h

theorem endPullIn (o : Output) (hover : pullInOver o s = true) (h : HitchSafe s) :
    HitchSafe (s.withOut o { s.out o with target := holdCurrent }) := by
  simp only [pullInOver, Bool.and_eq_true, decide_eq_true_eq] at hover
  exact h.withOut o (.endPullIn hover.1)

/-- The release reaches the outputs and the trailer between two changes of the fault table (R184). -/
theorem acknowledge (h : HitchSafe s) : HitchSafe (acknowledge s) :=
  have hu := h.withMc { s.mc with faults := s.faultTable.unlatch.entries, full := s.faultTable.unlatch.full }
  (keptByRoutine.releaseTrailer (holds_ite (holds_foldl (P := HitchSafe) (fun _ o => rearm o) _ hu) hu)).withMc _

/-! ## The front drive and the brake pressure (05, 07)

Of the driver bank the front drive writes FDV alone, and the trailer its own valves. -/

theorem enterFdc (st : FdcState) (h : HitchSafe s) : HitchSafe (enterFdc st s) :=
  ((h.withFdc _).withFdc _).writeCommand_other (by decide) _

theorem actFdc (h : HitchSafe s) : HitchSafe (actFdc s) :=
  holds_ite (h.enterFdc _) (holds_ite (h.enterFdc _) (holds_ite (h.enterFdc _) (holds_ite (h.enterFdc _) h)))

theorem actOnReason (h : HitchSafe s) : HitchSafe (actOnReason s) := holds_ite (h.enterFdc _) h

theorem updateAutoSlip (h : HitchSafe s) : HitchSafe (updateAutoSlip s) :=
  have hcount := fun n => h.withFdc { s.fdc with slipClear := n }
  holds_ite (h.withFdc _) (holds_ite (hcount _) (holds_ite (h.withFdc _)
    (holds_ite (holds_ite ((hcount _).withFdc _) (hcount _)) (hcount _))))

theorem takeCabMode (h : HitchSafe s) : HitchSafe (takeCabMode s) := by
  unfold Machine.takeCabMode
  split
  · exact h.withFdc _
  · exact h

theorem checkPlausible (h : HitchSafe s) : HitchSafe (checkPlausible s) :=
  have hcount := fun d a => h.withFdc { s.fdc with deviation := d, agreement := a }
  holds_ite
    (holds_ite (holds_ite ((hcount 0 0).withMc _) (hcount _ _)) (holds_ite ((hcount 0 0).withMc _) (hcount _ _)))
    (hcount _ _)

theorem fdcInterval (h : HitchSafe s) : HitchSafe (fdcInterval s) := by
  have haged : HitchSafe (ageFdc s) := h.withFdc _
  have hreasons : HitchSafe (updateReasons (Machine.takeCabMode (ageFdc s))) :=
    haged.takeCabMode.updateAutoSlip.withFdc _
  have hcounted : HitchSafe (countEmpty (updateReasons (Machine.takeCabMode (ageFdc s)))) := hreasons.withFdc _
  exact (hcounted.actFdc.checkPlausible.withFdc _).writeCommand_other (by decide) _

theorem takeFdcCharge (ev : SfeEvent) (h : HitchSafe s) : HitchSafe (takeFdcCharge ev s) := by
  cases ev
  case lowEnter | failed | starting => exact (h.withFdc _).actOnReason
  case lowLeave => exact h.withFdc _
  case valid => exact holds_ite (h.withFdc _) h
  case highEnter | highLeave => exact h

theorem writeBrake (h : HitchSafe s) : HitchSafe (writeBrake s) :=
  have hevent (x : Tbc) : HitchSafe (brakeEvent (s.withTbc x)) :=
    holds_ite ((h.withTbc x).withFdc _).actOnReason (h.withTbc x)
  holds_ite (keptByRoutine.writeDemand (hevent _)) (hevent _)

theorem tbcInterval (h : HitchSafe s) : HitchSafe (tbcInterval s) :=
  have hP := keptByRoutine
  hP.driveLine (hP.stateTests (hP.parkTests (hP.compareBrakes (hP.countUnknown
    (hP.readLines (hP.settleCoupling h)).writeBrake))))

theorem takeTbr (h : HitchSafe s) : HitchSafe (takeTbr s) :=
  holds_ite (keptByRoutine.recomputeTcv h.writeBrake) h.writeBrake

/-! ## Resets (R61, R206, R211) -/

/-- The reset values of both valves and of the grant: closed, undriven, ALLOWED. -/
theorem of_reset (hraise : s.out .hrv = .reset) (hlower : s.out .hlv = .reset)
    (hgrant : s.vdb.grant.suspended = false) : HitchSafe s where
  exclusive := .inl (by rw [hraise]; rfl)
  grant :=
    { withheld := fun hs => absurd (hgrant.symm.trans hs) Bool.false_ne_true
      raise := by rw [hraise]; exact fun _ => rfl
      lower := by rw [hlower]; exact fun _ => rfl }

/-- A control restart resets every output and the grant (R61). -/
theorem restartVdb (s : State) : HitchSafe (restartVdb s) := by
  have hreset (o : Output) : (Output.all.foldl restartOutput s).out o = .reset := by
    cases o <;> simp [Output.all, FrontAxle.restartOutput_out]
  unfold Machine.restartVdb
  generalize Output.all.foldl restartOutput s = u at hreset ⊢
  exact of_reset (hreset _) (hreset _) rfl

theorem restartBlocks (s : State) : HitchSafe (restartBlocks s) := by
  have hvdb := restartVdb s
  unfold Machine.restartBlocks
  generalize Machine.restartVdb s = u at hvdb ⊢
  have hrestarted : HitchSafe (restartHtc ((restartShc u).withFdc .reset)) := hvdb.of_vdb rfl
  exact (hrestarted.of_vdb (FrontAxle.touches_restartTbc _ .vdb (by decide))).of_vdb rfl

theorem loadImage (version : Nat) (c : Image) (h : HitchSafe s) : HitchSafe (loadImage version c s) :=
  h.of_vdb rfl

/-! ## One modulator clock (log 2) -/

theorem clockTick (h : HitchSafe s) : HitchSafe (clockTick s) := by
  by_cases hsub : s.sub + 1 < 5
  · rw [clockTick_of_within hsub]
    exact h.of_vdb rfl
  · rw [clockTick_of_end hsub]
    exact h.of_rests (.micro s.vdb)

/-! ## The statement -/

/-- Every command answers a next state in which both rules hold. -/
theorem exec_keeps (i : Instr) (h : HitchSafe s) : ∃ t, exec i s = .next t ∧ HitchSafe t := by
  have hP := keptByRoutine
  cases i with
  -- resets
  | powerOnReset => exact ⟨_, rfl, of_reset rfl rfl rfl⟩
  | wake => exact ⟨_, rfl, holds_ite (of_reset rfl rfl rfl) h⟩
  | loadingComplete => exact ⟨_, rfl, holds_ite (hP.finishLoading _ _ (h.loadImage _ _) h) h⟩
  -- the front drive
  | fdcControlInterval => exact ⟨_, rfl, holds_ite h.fdcInterval h⟩
  | fdcRelease | releasingComplete | engagingComplete => exact ⟨_, rfl, holds_ite (h.enterFdc _) h⟩
  | autoSlipClear => exact ⟨_, rfl, holds_ite (h.withFdc _) h⟩
  | fdcChgEvent => exact ⟨_, rfl, hP.event (fun ev _ _ => takeFdcCharge ev) h⟩
  -- the brake pressure
  | tbcControlInterval => exact ⟨_, rfl, holds_ite (hP.withPins _ h).tbcInterval (hP.withPins _ h)⟩
  | tbrStateEvent => exact ⟨_, rfl, hP.event (fun _ _ _ => takeTbr) h⟩
  -- the valve driver bank
  | senseTimer samples => exact ⟨_, rfl, holds_ite (holds_foldl (fun _ o => senseOne samples o) _ h) h⟩
  | openDetected => exact ⟨_, rfl, holds_ite (h.setOpen _) h⟩
  | openRecovered => exact ⟨_, rfl, holds_ite (h.clearOpen _) h⟩
  | shortTrip => exact ⟨_, rfl, holds_ite (h.trip _) h⟩
  | retryTimerExpiry | deferredRetry => exact ⟨_, rfl, holds_ite (h.openWindow _) h⟩
  | retrySuccess => exact ⟨_, rfl, holds_ite (h.endRetry _) h⟩
  | pullInEnd => exact ⟨_, rfl, iteInduction (fun hover => h.endPullIn _ hover) fun _ => h⟩
  | supplyRiseComplete => exact ⟨_, rfl, holds_ite (hP.stepAfterRise _ (h.enableSupply _)) h⟩
  | supplyFallComplete x =>
    have hfall {u : State} (hu : HitchSafe u) : HitchSafe (completeFall x u) :=
      holds_ite (hP.stepAfterFall x (restartBlocks _) (hu.finishFall x)) (hu.finishFall x)
    exact ⟨_, rfl, holds_ite (hfall (hP.withPins _ h)) (hP.withPins _ h)⟩
  -- acknowledgements
  | faultAcknowledge =>
    refine ⟨_, rfl, ?_⟩
    split
    next u htake =>
      obtain ⟨l, rfl⟩ := takeRequest_eq_withRequests htake
      exact holds_ite (hP.withRequests l h).acknowledge (hP.withRequests l h)
    next => exact h
  | faultAck =>
    exact ⟨_, rfl, hP.service (fun _ _ _ hu => holds_ite (hP.serviceAnswer _ _ _ _ hu.acknowledge) hu) h⟩
  | _ => exact hP.exec_of_routine rfl h

/-- A step runs the front command on the rest of the queue, or lets one clock pass; both keep the rules. -/
theorem step_keeps (h : HitchSafe s) (hstep : step s = .next t) : HitchSafe t := by
  unfold step at hstep
  split at hstep
  next c rest _ =>
    obtain ⟨u, hu, hsafe⟩ := exec_keeps (s := { s with pending := rest }) c (h.of_vdb rfl)
    obtain rfl := Host.Outcome.next.inj (hu.symm.trans hstep)
    exact hsafe
  next =>
    obtain rfl := Host.Outcome.next.inj hstep
    exact h.clockTick

end HitchSafe

/-- A SUSPENDED grant leaves both hitch valves undriven (R60). -/
theorem undriven_of_suspended {s : State} (h : GrantHolds s) (hs : s.vdb.grant.suspended = true) :
    (s.out .hrv).target = 0 ∧ (s.out .hlv).target = 0 := by
  obtain ⟨hraise, hlower⟩ := h.withheld hs
  exact ⟨h.raise hraise, h.lower hlower⟩

/-- Settles O58: the two rules together are kept by every command and every clock, and a grant that holds leaves
both valves undriven while it is SUSPENDED. -/
theorem everyStepKeepsHitchValves : Obligations.EveryStepKeepsHitchValves := by
  intro s t hexclusive hgrant hstep
  obtain ⟨hexclusive', hgrant'⟩ := HitchSafe.step_keeps ⟨hexclusive, hgrant⟩ hstep
  exact ⟨hexclusive', hgrant', undriven_of_suspended hgrant'⟩

end Sys2Proof.Proofs
end

