-- ==== Sys2Proof/Proofs/BrakeTable.lean ====
section
/-! SUPPORT. The tables of the trailer brake controller (R159): which point or segment a table answers with, the
range of a segment's values, and the statement on both. -/

namespace Sys2Proof.Proofs

open Sys2Proof Sys2Proof.Machine

/-! ## The truncated part of a difference -/

/-- The part `k` of `n` of a difference upwards, truncated, lies within the difference. -/
theorem truncDiv_mem_of_nonneg {d k n : Int} (hd : 0 ≤ d) (hk : 0 ≤ k) (hkn : k < n) :
    0 ≤ truncDiv (d * k) n ∧ truncDiv (d * k) n ≤ d := by
  have hn : 0 < n := hk.trans_lt hkn
  have hmul : d * k ≤ d * n := mul_le_mul_of_nonneg_left hkn.le hd
  rw [truncDiv, Int.tdiv_eq_ediv_of_nonneg (mul_nonneg hd hk)]
  exact ⟨Int.ediv_nonneg (mul_nonneg hd hk) hn.le, Int.ediv_le_of_le_mul hn hmul⟩

/-- The same downwards: truncation toward zero commutes with the sign. -/
theorem truncDiv_mem_of_nonpos {d k n : Int} (hd : d ≤ 0) (hk : 0 ≤ k) (hkn : k < n) :
    d ≤ truncDiv (d * k) n ∧ truncDiv (d * k) n ≤ 0 := by
  have hneg : truncDiv (-d * k) n = -truncDiv (d * k) n := by simp [truncDiv, Int.neg_tdiv]
  have hmem := truncDiv_mem_of_nonneg (neg_nonneg.mpr hd) hk hkn
  omega

/-! ## One segment -/

section Segment

variable {a b : Nat × Nat} {x : Nat}

/-- The value of a segment before it is stored as a natural number (R159). -/
def segmentValue (a b : Nat × Nat) (x : Nat) : Int :=
  a.2 + truncDiv (((b.2 : Int) - a.2) * ((x : Int) - a.1)) ((b.1 : Int) - a.1)

theorem segmentValue_mem (ha : a.1 ≤ x) (hb : x < b.1) :
    min (a.2 : Int) b.2 ≤ segmentValue a b x ∧ segmentValue a b x ≤ max (a.2 : Int) b.2 := by
  have hk : 0 ≤ (x : Int) - a.1 := by omega
  have hkn : (x : Int) - a.1 < (b.1 : Int) - a.1 := by omega
  unfold segmentValue
  rcases le_total a.2 b.2 with hrise | hfall
  · have := truncDiv_mem_of_nonneg (d := (b.2 : Int) - a.2) (by omega) hk hkn
    omega
  · have := truncDiv_mem_of_nonpos (d := (b.2 : Int) - a.2) (by omega) hk hkn
    omega

/-- Within a segment the value is never negative, so the model's `toNat` cuts nothing. -/
theorem interpolate_eq (ha : a.1 ≤ x) (hb : x < b.1) :
    (interpolate a b x : Int) = segmentValue a b x := by
  have hmem := segmentValue_mem ha hb
  have hnonneg : 0 ≤ segmentValue a b x := by omega
  exact Int.toNat_of_nonneg hnonneg

theorem interpolate_mem (ha : a.1 ≤ x) (hb : x < b.1) :
    min a.2 b.2 ≤ interpolate a b x ∧ interpolate a b x ≤ max a.2 b.2 := by
  have hmem := segmentValue_mem ha hb
  rw [← interpolate_eq ha hb] at hmem
  omega

end Segment

/-! ## The point or segment a table answers with -/

section Table

variable {points : List (Nat × Nat)} {x : Nat}

@[simp] theorem applyTable_single (p : Nat × Nat) (x : Nat) : applyTable [p] x = p.2 := rfl

theorem applyTable_below {p : Nat × Nat} (rest : List (Nat × Nat)) (h : x < p.1) :
    applyTable (p :: rest) x = p.2 := by
  cases rest with
  | nil => rfl
  | cons q rest => simp [applyTable, h]

theorem applyTable_segment {p q : Nat × Nat} (rest : List (Nat × Nat)) (hp : p.1 ≤ x) (hq : x < q.1) :
    applyTable (p :: q :: rest) x = interpolate p q x := by
  simp [applyTable, hp.not_gt, hq]

theorem applyTable_past {p q : Nat × Nat} (rest : List (Nat × Nat)) (hp : p.1 ≤ x) (hq : q.1 ≤ x) :
    applyTable (p :: q :: rest) x = applyTable (q :: rest) x := by
  simp [applyTable, hp.not_gt, hq.not_gt]

/-- The points before the last one known to be reached do not matter. -/
theorem applyTable_drop {i : Nat} (hi : i < points.length)
    (hreached : ∀ j ≤ i, (points.getD j (0, 0)).1 ≤ x) :
    applyTable points x = applyTable (points.drop i) x := by
  induction i generalizing points with
  | zero => rfl
  | succ i ih =>
    match points with
    | [] | [_] => simp at hi
    | p :: q :: rest =>
      have hp : p.1 ≤ x := hreached 0 (Nat.zero_le _)
      have htail : ∀ j ≤ i, ((q :: rest).getD j (0, 0)).1 ≤ x := fun j hj =>
        hreached (j + 1) (Nat.succ_le_succ hj)
      have hq : q.1 ≤ x := htail 0 (Nat.zero_le _)
      exact (applyTable_past rest hp hq).trans (ih (Nat.lt_of_succ_lt_succ hi) htail)

theorem drop_eq_getD_cons {i : Nat} (hi : i < points.length) :
    points.drop i = points.getD i (0, 0) :: points.drop (i + 1) := by
  rw [List.drop_eq_getElem_cons hi, List.getD_eq_getElem _ _ hi]

/-- No value exceeds a bound on the outputs; the inputs need not rise for it. -/
theorem applyTable_le {limit : Nat} (h : ∀ p ∈ points, p.2 ≤ limit) : applyTable points x ≤ limit := by
  induction points with
  | nil => exact Nat.zero_le _
  | cons p rest ih =>
    obtain ⟨hp, hrest⟩ := List.forall_mem_cons.1 h
    cases rest with
    | nil => exact hp
    | cons q rest =>
      rcases lt_or_ge x p.1 with hbelow | hreached
      · exact (applyTable_below _ hbelow).trans_le hp
      rcases lt_or_ge x q.1 with hwithin | hpast
      · rw [applyTable_segment rest hreached hwithin]
        exact (interpolate_mem hreached hwithin).2.trans (max_le hp (List.forall_mem_cons.1 hrest).1)
      · exact (applyTable_past rest hreached hpast).trans_le (ih hrest)

/-! ## Tables of strictly rising inputs -/

/-- The inputs of the points rise strictly. -/
def RisingInputs (points : List (Nat × Nat)) : Prop :=
  ∀ i j : Nat, i < j → j < points.length → (points.getD i (0, 0)).1 < (points.getD j (0, 0)).1

/-- An input at or above a point's is at or above every earlier one's. -/
theorem RisingInputs.reached {i : Nat} (h : RisingInputs points) (hi : i < points.length)
    (hx : (points.getD i (0, 0)).1 ≤ x) : ∀ j ≤ i, (points.getD j (0, 0)).1 ≤ x := by
  intro j hj
  rcases hj.eq_or_lt with rfl | hlt
  · exact hx
  · exact (h j i hlt hi).le.trans hx

theorem RisingInputs.applyTable_last (h : RisingInputs points) (hne : points ≠ [])
    (hx : (points.getD (points.length - 1) (0, 0)).1 ≤ x) :
    applyTable points x = (points.getD (points.length - 1) (0, 0)).2 := by
  have hpos := List.length_pos_of_ne_nil hne
  have hlast : points.length - 1 < points.length := Nat.sub_lt hpos one_pos
  rw [applyTable_drop hlast (h.reached hlast hx), drop_eq_getD_cons hlast, Nat.sub_add_cancel hpos,
    List.drop_length, applyTable_single]

theorem RisingInputs.applyTable_within {i : Nat} (h : RisingInputs points) (hi : i + 1 < points.length)
    (ha : (points.getD i (0, 0)).1 ≤ x) (hb : x < (points.getD (i + 1) (0, 0)).1) :
    applyTable points x = interpolate (points.getD i (0, 0)) (points.getD (i + 1) (0, 0)) x := by
  have hlow : i < points.length := Nat.lt_of_succ_lt hi
  rw [applyTable_drop hlow (h.reached hlow ha), drop_eq_getD_cons hlow, drop_eq_getD_cons hi,
    applyTable_segment _ ha hb]

end Table

/-- Settles O41: both ends, the segments, and the bound on every value. -/
theorem brakeTableApplied : Obligations.BrakeTableApplied := by
  intro points x hne hrising
  have hrises : RisingInputs points := hrising
  refine ⟨fun hbelow => ?first, hrises.applyTable_last hne, ?segment, fun limit => applyTable_le⟩
  case first =>
    obtain ⟨p, rest, rfl⟩ := List.exists_cons_of_ne_nil hne
    exact applyTable_below rest hbelow
  case segment =>
    rintro i _ _ hi rfl rfl ha hb
    rw [hrises.applyTable_within hi ha hb]
    exact ⟨interpolate_eq ha hb, interpolate_mem ha hb⟩

end Sys2Proof.Proofs
end

