-- ==== Sys2Proof/Proofs/FaultTable.lean ====
section
/-! SUPPORT. The fault table (R179 to R185): what each of its operations does to the bound of 16 entries with no two
of one code, which operations reach the table at all, and the statement that every step keeps the bound. -/

namespace Sys2Proof.Proofs

open Sys2Proof Sys2Proof.Machine

/-! ## The table as a list of entries (R179) -/

/-- `FaultTableWhole` of the list alone. -/
def EntriesWhole (l : List FaultEntry) : Prop := l.length ≤ 16 ∧ (l.map fun e => e.code).Nodup

theorem faultTableWhole_iff (s : State) : FaultTableWhole s ↔ EntriesWhole s.mc.faults := Iff.rfl

theorem entriesWhole_nil : EntriesWhole [] := ⟨by decide, by decide⟩

namespace EntriesWhole

variable {l m : List FaultEntry}

/-- Whatever becomes of the entries, a table stays whole while each keeps its code. -/
protected theorem map (h : EntriesWhole l) (f : FaultEntry → FaultEntry) (hf : ∀ e, (f e).code = e.code) :
    EntriesWhole (l.map f) := by
  obtain ⟨hlength, hcodes⟩ := h
  have hkept : (l.map f).map (fun e => e.code) = l.map fun e => e.code := by simp [hf]
  exact ⟨by rwa [List.length_map], by rwa [hkept]⟩

/-- A table stays whole while entries leave it. -/
protected theorem sublist (h : EntriesWhole l) (hm : m.Sublist l) : EntriesWhole m := by
  obtain ⟨hlength, hcodes⟩ := h
  exact ⟨hm.length_le.trans hlength, hcodes.sublist (hm.map _)⟩

/-- A new code behind a table with room. -/
protected theorem append (h : EntriesWhole l) (e : FaultEntry) (hroom : l.length < 16)
    (hnew : ∀ x ∈ l, x.code ≠ e.code) : EntriesWhole (l ++ [e]) := by
  obtain ⟨-, hcodes⟩ := h
  refine ⟨by simpa using hroom, ?_⟩
  rw [List.map_append]
  exact List.nodup_append_comm.mpr (List.nodup_cons.mpr ⟨by simpa using hnew, hcodes⟩)

protected theorem updateEntry (h : EntriesWhole l) (c : FaultCode) (f : FaultEntry → FaultEntry)
    (hf : ∀ e, (f e).code = e.code) : EntriesWhole (updateEntry c f l) :=
  h.map _ fun e => by
    split
    · exact hf e
    · rfl

end EntriesWhole

/-! ## The entry that gives way to a raise (R183) -/

theorem dropStored_eq_eraseP (l : List FaultEntry) : dropStored l = l.eraseP fun e => !e.active := by
  induction l with
  | nil => rfl
  | cons e l ih => cases he : e.active <;> simp [dropStored, he, ih]

theorem dropStored_sublist (l : List FaultEntry) : (dropStored l).Sublist l :=
  dropStored_eq_eraseP l ▸ List.eraseP_sublist

/-- A table with a STORED entry gives one up. -/
theorem length_dropStored_lt {l : List FaultEntry} (h : (l.any fun e => !e.active) = true) :
    (dropStored l).length < l.length := by
  obtain ⟨e, hmem, hstored⟩ := List.any_eq_true.mp h
  rw [dropStored_eq_eraseP, List.length_eraseP_of_mem hmem hstored]
  exact Nat.sub_one_lt_of_lt (List.length_pos_of_mem hmem)

/-! ## The operations of the table (R181 to R185) -/

/-- The four ways of a raise: into its code's entry, behind the others, for a STORED entry, or refused. -/
theorem entriesWhole_raise (t : FaultTable) (c : FaultCode) (latch : Bool) (seconds : Nat)
    (h : EntriesWhole t.entries) : EntriesWhole (t.raise c latch seconds).entries := by
  unfold FaultTable.raise
  dsimp only
  split
  case isTrue => exact h.updateEntry c _ fun _ => rfl
  case isFalse hheld =>
    have hnew : ∀ e ∈ t.entries, e.code ≠ c := by simpa using hheld
    split
    case isTrue hroom => exact h.append _ hroom hnew
    case isFalse =>
      split
      case isTrue hstored =>
        have hdropped := dropStored_sublist t.entries
        exact (h.sublist hdropped).append _ ((length_dropStored_lt hstored).trans_le h.1)
          fun e he => hnew e (hdropped.subset he)
      case isFalse => exact h

theorem entriesWhole_clear (t : FaultTable) (c : FaultCode) (h : EntriesWhole t.entries) :
    EntriesWhole (t.clear c).entries := h.updateEntry c _ fun _ => rfl

theorem entriesWhole_latch (t : FaultTable) (c : FaultCode) (h : EntriesWhole t.entries) :
    EntriesWhole (t.latch c).entries := h.updateEntry c _ fun _ => rfl

theorem entriesWhole_unlatch (t : FaultTable) (h : EntriesWhole t.entries) : EntriesWhole t.unlatch.entries :=
  h.map _ fun _ => rfl

theorem entriesWhole_sweep (t : FaultTable) (h : EntriesWhole t.entries) : EntriesWhole t.sweep.entries :=
  h.sublist List.filter_sublist

theorem entriesWhole_wake (t : FaultTable) (h : EntriesWhole t.entries) : EntriesWhole t.wake.entries :=
  h.map _ fun _ => rfl

/-! ## Routine writes keep the table whole -/

namespace FaultTableKept

variable {s t : State}

/-- The bound speaks of the entries alone. -/
theorem of_faults (hfaults : t.mc.faults = s.mc.faults) (h : FaultTableWhole s) : FaultTableWhole t := by
  rw [faultTableWhole_iff, hfaults]
  exact h

/-- What does not write the mode controller's record leaves the table. -/
theorem of_touches {l : List Part} (hframe : Touches l s t) (hmc : .mc ∉ l) (h : FaultTableWhole s) :
    FaultTableWhole t := of_faults (congrArg Mc.faults (hframe .mc hmc)) h

theorem withVdb (x : Vdb) (h : FaultTableWhole s) : FaultTableWhole (s.withVdb x) := of_faults rfl h
theorem withFdc (x : Fdc) (h : FaultTableWhole s) : FaultTableWhole (s.withFdc x) := of_faults rfl h
theorem withTbc (x : Tbc) (h : FaultTableWhole s) : FaultTableWhole (s.withTbc x) := of_faults rfl h

theorem raise (c : FaultCode) (h : FaultTableWhole s) : FaultTableWhole (raise c s) := entriesWhole_raise _ _ _ _ h

theorem raiseLatched (c : FaultCode) (h : FaultTableWhole s) : FaultTableWhole (raiseLatched c s) :=
  entriesWhole_raise _ _ _ _ h

theorem clearFault (c : FaultCode) (h : FaultTableWhole s) : FaultTableWhole (clearFault c s) :=
  entriesWhole_clear _ _ h

theorem latchFault (c : FaultCode) (h : FaultTableWhole s) : FaultTableWhole (latchFault c s) :=
  entriesWhole_latch _ _ h

theorem writeCommand (o : Output) (v : Nat) (h : FaultTableWhole s) : FaultTableWhole (writeCommand o v s) :=
  of_touches (touches_writeCommand o v s) (by decide) h

theorem setValves (hrv hlv : Nat) (h : FaultTableWhole s) : FaultTableWhole (setValves hrv hlv s) :=
  have hv : FaultTableWhole (s.withHtc { s.htc with hrv := hrv, hlv := hlv }) := of_faults rfl h
  holds_ite (writeCommand _ _ (writeCommand _ _ hv)) (writeCommand _ _ (writeCommand _ _ hv))

theorem testGrant (h : FaultTableWhole s) : FaultTableWhole (testGrant s) :=
  holds_ite (holds_ite (withVdb _ h) (holds_ite (withVdb _ h) h)) h

theorem keptByRoutine : KeptByRoutine FaultTableWhole where
  withScu _ h := of_faults rfl h
  withSfe _ h := of_faults rfl h
  withShc _ h := of_faults rfl h
  withHtc _ h := of_faults rfl h
  withHsq _ h := of_faults rfl h
  withLc _ h := of_faults rfl h
  withEvents _ h := of_faults rfl h
  withRequests _ h := of_faults rfl h
  withPins _ h := of_faults rfl h
  withFdc x _ h := withFdc x h
  withTbc x _ h := withTbc x h
  withMc _ htable h := of_faults (Prod.mk.inj htable).1 h
  raise c h := raise c h
  raiseLatched c h := raiseLatched c h
  clearFault c h := clearFault c h
  writeCommand _ v h := writeCommand _ v h
  setValves _ h := setValves _ _ h
  grantOnDemand h := of_touches (touches_grantOnDemand _) (by decide) h
  grantOnEvent _ h := holds_ite (holds_ite (withVdb _ h) h) (holds_ite (testGrant h) h)
  onRequest x h := of_touches (touches_onRequest x _) (by decide) h
  offRequest x h := of_touches (touches_offRequest x _) (by decide) h

/-! ## The valve driver bank (R49 to R56) -/

theorem withOut (o : Output) (r : OutRec) (h : FaultTableWhole s) : FaultTableWhole (s.withOut o r) := withVdb _ h

theorem setOpen (o : Output) (h : FaultTableWhole s) : FaultTableWhole (setOpen o s) := raise _ (withOut o _ h)

theorem clearOpen (o : Output) (h : FaultTableWhole s) : FaultTableWhole (clearOpen o s) :=
  clearFault _ (withOut o _ h)

theorem senseOne (samples : OutputTable CoilSample) (o : Output) (h : FaultTableWhole s) :
    FaultTableWhole (senseOne samples s o) :=
  have hmeasured := withOut o { s.out o with measured := sampled (s.out o) (samples.get o) } h
  have hcounted := withOut o _ hmeasured
  holds_ite (holds_ite (holds_ite (setOpen o hcounted) (holds_ite (clearOpen o hcounted) hcounted)) hmeasured)
    (withOut o _ h)

/-- A trip raises the short of its output, and marks it latched at the third retry (R53, R54). -/
theorem trip (o : Output) (h : FaultTableWhole s) : FaultTableWhole (trip o s) := by
  unfold Machine.trip
  dsimp only
  split
  case h_1 => exact raise _ (withVdb _ h)
  case h_2 => exact holds_ite (holds_ite (latchFault _ (raise _ (withVdb _ h))) (raise _ (withVdb _ h))) h
  case h_3 => exact h

theorem endRetry (o : Output) (h : FaultTableWhole s) : FaultTableWhole (endRetry o s) :=
  clearFault _ (withVdb _ h)

theorem rearm (o : Output) (h : FaultTableWhole s) : FaultTableWhole (rearm s o) :=
  have hcleared := fun v => clearFault (.outShort o) (withVdb v h)
  holds_ite (holds_ite (trip o (hcleared _)) (hcleared _)) h

theorem enableSupply (x : Supply) (h : FaultTableWhole s) : FaultTableWhole (enableSupply x s) :=
  withVdb _ (withVdb _ h)

theorem finishFall (x : Supply) (h : FaultTableWhole s) : FaultTableWhole (finishFall x s) :=
  holds_ite (withVdb _ h) (withVdb _ h)

/-- Every latch is cleared, the release reaches the outputs and the trailer, and the STORED entries leave (R184). -/
theorem acknowledge (h : FaultTableWhole s) : FaultTableWhole (acknowledge s) := by
  have hunlatched : FaultTableWhole (s.withFaults s.faultTable.unlatch) := entriesWhole_unlatch _ h
  have hrearmed := holds_foldl (P := FaultTableWhole) (fun _ o => rearm o) Output.all hunlatched
  exact entriesWhole_sweep _ (keptByRoutine.releaseTrailer (holds_ite hrearmed hunlatched))

/-! ## The front drive and the brake pressure (05, 07) -/

theorem enterFdc (st : FdcState) (h : FaultTableWhole s) : FaultTableWhole (enterFdc st s) :=
  writeCommand _ _ (withFdc _ (withFdc _ h))

theorem actFdc (h : FaultTableWhole s) : FaultTableWhole (actFdc s) :=
  holds_ite (enterFdc _ h) (holds_ite (enterFdc _ h) (holds_ite (enterFdc _ h) (holds_ite (enterFdc _ h) h)))

theorem actOnReason (h : FaultTableWhole s) : FaultTableWhole (actOnReason s) := holds_ite (enterFdc _ h) h

theorem updateAutoSlip (h : FaultTableWhole s) : FaultTableWhole (updateAutoSlip s) :=
  have hcounted := fun n => withFdc { s.fdc with slipClear := n } h
  holds_ite (withFdc _ h) (holds_ite (hcounted _) (holds_ite (withFdc _ h)
    (holds_ite (holds_ite (withFdc _ (hcounted _)) (hcounted _)) (hcounted _))))

theorem takeCabMode (h : FaultTableWhole s) : FaultTableWhole (takeCabMode s) := by
  unfold Machine.takeCabMode
  split
  · exact withFdc _ h
  · exact h

/-- The check raises and clears FRONT_SLIP (R113). -/
theorem checkPlausible (h : FaultTableWhole s) : FaultTableWhole (checkPlausible s) :=
  have hcounted := fun d a => withFdc { s.fdc with deviation := d, agreement := a } h
  holds_ite
    (holds_ite (holds_ite (raise _ (withFdc _ (hcounted _ _))) (hcounted _ _))
      (holds_ite (clearFault _ (withFdc _ (hcounted _ _))) (hcounted _ _)))
    (hcounted _ _)

theorem fdcInterval (h : FaultTableWhole s) : FaultTableWhole (fdcInterval s) :=
  have hreasons := withFdc _ (updateAutoSlip (takeCabMode (withFdc _ h)))
  writeCommand _ _ (withFdc _ (checkPlausible (actFdc (withFdc _ hreasons))))

theorem takeFdcCharge (ev : SfeEvent) (h : FaultTableWhole s) : FaultTableWhole (takeFdcCharge ev s) := by
  cases ev
  case lowEnter | failed | starting => exact actOnReason (withFdc _ h)
  case lowLeave => exact withFdc _ h
  case valid => exact holds_ite (withFdc _ h) h
  case highEnter | highLeave => exact h

theorem writeBrake (h : FaultTableWhole s) : FaultTableWhole (writeBrake s) :=
  have hevent (x : Tbc) : FaultTableWhole (brakeEvent (s.withTbc x)) :=
    holds_ite (actOnReason (withFdc _ (withTbc x h))) (withTbc x h)
  holds_ite (keptByRoutine.writeDemand (hevent _)) (hevent _)

theorem tbcInterval (h : FaultTableWhole s) : FaultTableWhole (tbcInterval s) :=
  have hP := keptByRoutine
  have hwritten := writeBrake (hP.readLines (hP.settleCoupling h))
  hP.driveLine (hP.stateTests (hP.parkTests (hP.compareBrakes (hP.countUnknown hwritten))))

theorem takeTbr (h : FaultTableWhole s) : FaultTableWhole (takeTbr s) :=
  holds_ite (keptByRoutine.recomputeTcv (writeBrake h)) (writeBrake h)

/-! ## Resets (R61, R166, R185, R206, R211, R212) -/

/-- Power-on reset empties the table (R185). -/
theorem of_powerOn (pins : Pins) (clock : Nat) (pending : List Instr) :
    FaultTableWhole { State.powerOn pins with clock := clock, pending := pending } := entriesWhole_nil

theorem wakeUp (strap0 strap1 coupling : Bool) (h : FaultTableWhole s) :
    FaultTableWhole (wakeUp strap0 strap1 coupling s) := entriesWhole_wake _ h

/-- The conditions an output held are cleared (R61). -/
theorem restartOutput (o : Output) (h : FaultTableWhole s) : FaultTableWhole (restartOutput s o) :=
  have hopen : FaultTableWhole (if (s.out o).openFlag then Machine.clearFault (.outOpen o) s else s) :=
    holds_ite (clearFault _ h) h
  withOut _ _ (holds_ite (clearFault _ hopen) hopen)

theorem restartVdb (h : FaultTableWhole s) : FaultTableWhole (restartVdb s) :=
  withVdb _ (holds_foldl (P := FaultTableWhole) (fun _ o => restartOutput o) _ h)

theorem restartTbc (h : FaultTableWhole s) : FaultTableWhole (restartTbc s) :=
  have hreset := withTbc _ (holds_ite (clearFault _ h) h)
  holds_ite (keptByRoutine.publish _ hreset) hreset

theorem restartBlocks (h : FaultTableWhole s) : FaultTableWhole (restartBlocks s) :=
  have hP := keptByRoutine
  hP.withHsq _ (restartTbc (hP.withHtc _ (withFdc _ (hP.withShc _ (restartVdb h)))))

theorem loadImage (version : Nat) (c : Image) (h : FaultTableWhole s) : FaultTableWhole (loadImage version c s) :=
  of_faults rfl h

/-! ## One modulator clock (log 2) -/

theorem clockTick (h : FaultTableWhole s) : FaultTableWhole (clockTick s) := by
  by_cases hsub : s.sub + 1 < 5
  · exact of_touches (touches_clockTick_of_within hsub) (by decide) h
  · rw [clockTick_of_end hsub]
    have hfaults := congrArg Mc.faults (mc_micro s.mc)
    exact of_faults (s := s) hfaults h

/-! ## The statement -/

/-- Every command answers a next state whose table is whole. -/
theorem exec_keeps (i : Instr) (h : FaultTableWhole s) : ∃ t, exec i s = .next t ∧ FaultTableWhole t := by
  have hP := keptByRoutine
  cases i with
  -- resets
  | powerOnReset => exact ⟨_, rfl, of_powerOn _ _ _⟩
  | wake => exact ⟨_, rfl, holds_ite (wakeUp _ _ _ h) h⟩
  | loadingComplete => exact ⟨_, rfl, holds_ite (hP.finishLoading _ _ (loadImage _ _ h) h) h⟩
  -- the front drive
  | fdcControlInterval => exact ⟨_, rfl, holds_ite (fdcInterval h) h⟩
  | fdcRelease | releasingComplete | engagingComplete => exact ⟨_, rfl, holds_ite (enterFdc _ h) h⟩
  | autoSlipClear => exact ⟨_, rfl, holds_ite (withFdc _ h) h⟩
  | fdcChgEvent => exact ⟨_, rfl, hP.event (fun ev _ _ => takeFdcCharge ev) h⟩
  -- the brake pressure
  | tbcControlInterval => exact ⟨_, rfl, holds_ite (tbcInterval (hP.withPins _ h)) (hP.withPins _ h)⟩
  | tbrStateEvent => exact ⟨_, rfl, hP.event (fun _ _ _ => takeTbr) h⟩
  -- the valve driver bank
  | senseTimer samples => exact ⟨_, rfl, holds_ite (holds_foldl (fun _ o => senseOne samples o) _ h) h⟩
  | openDetected => exact ⟨_, rfl, holds_ite (setOpen _ h) h⟩
  | openRecovered => exact ⟨_, rfl, holds_ite (clearOpen _ h) h⟩
  | shortTrip => exact ⟨_, rfl, holds_ite (trip _ h) h⟩
  | retryTimerExpiry | deferredRetry => exact ⟨_, rfl, holds_ite (withVdb _ h) h⟩
  | retrySuccess => exact ⟨_, rfl, holds_ite (endRetry _ h) h⟩
  | pullInEnd => exact ⟨_, rfl, holds_ite (withOut _ _ h) h⟩
  | supplyRiseComplete => exact ⟨_, rfl, holds_ite (hP.stepAfterRise _ (enableSupply _ h)) h⟩
  | supplyFallComplete x =>
    have hfall {u : State} (hu : FaultTableWhole u) : FaultTableWhole (completeFall x u) :=
      have hoff := finishFall x hu
      holds_ite (hP.stepAfterFall x (restartBlocks hoff) hoff) hoff
    exact ⟨_, rfl, holds_ite (hfall (hP.withPins _ h)) (hP.withPins _ h)⟩
  -- acknowledgements
  | faultAcknowledge =>
    refine ⟨_, rfl, ?_⟩
    split
    next u htake =>
      obtain ⟨l, rfl⟩ := takeRequest_eq_withRequests htake
      exact holds_ite (acknowledge (hP.withRequests l h)) (hP.withRequests l h)
    next => exact h
  | faultAck =>
    exact ⟨_, rfl, hP.service
      (fun _ _ _ hu => holds_ite (hP.serviceAnswer _ _ _ _ (acknowledge hu)) hu) h⟩
  | _ => exact hP.exec_of_routine rfl h

/-- A step runs the front command on the rest of the queue, or lets one clock pass; both keep the table whole. -/
theorem step_keeps (h : FaultTableWhole s) (hstep : step s = .next t) : FaultTableWhole t := by
  unfold step at hstep
  split at hstep
  next c rest _ =>
    obtain ⟨u, hu, hwhole⟩ := exec_keeps (s := { s with pending := rest }) c h
    obtain rfl := Host.Outcome.next.inj (hu.symm.trans hstep)
    exact hwhole
  next =>
    obtain rfl := Host.Outcome.next.inj hstep
    exact clockTick h

end FaultTableKept

/-- Settles O56: every operation of the fault table keeps it whole, and no step writes the table but by them. -/
theorem everyStepKeepsFaultTable : Obligations.EveryStepKeepsFaultTable :=
  fun _ _ => FaultTableKept.step_keeps

end Sys2Proof.Proofs
end

