-- ==== Sys2Proof/Proofs/FaultEntries.lean ====
section
/-! SUPPORT. The queue's front command and the reset state, and the fault table's own operations (R181 to R183): the
places an entry has in a raise, a clear and a mark, and the statement about them. -/

namespace Sys2Proof.Proofs

open Sys2Proof Sys2Proof.Machine

/-- Settles O1: the queue decides the step. -/
theorem stepRunsFrontCommand : Obligations.StepRunsFrontCommand := by
  intro c rest s hqueue
  unfold step
  rw [hqueue]

/-- Settles O60: the queues and the table are empty, every output is off and the axle is ENGAGED. -/
theorem resetMeetsInvariants : Obligations.ResetMeetsInvariants := by
  have hrequests : RequestQueueBounded State.reset := ⟨Nat.zero_le 4, fun _ he => absurd he List.not_mem_nil⟩
  have hrun : RunBounded State.reset := ⟨Nat.le_refl 0, nofun, nofun⟩
  have hgrant : GrantHolds State.reset := ⟨nofun, fun _ => rfl, fun _ => rfl⟩
  exact ⟨entriesWhole_nil, hrequests, ⟨Nat.zero_le 8, .nil⟩, hrun, fun h => absurd rfl h, .inl rfl, hgrant,
    FrontAxle.of_reset rfl rfl⟩

/-! ## The entry of a code (R181, R182) -/

/-- Without an entry of the code the table stands. -/
theorem updateEntry_of_absent {c : FaultCode} {l : List FaultEntry} (f : FaultEntry → FaultEntry)
    (h : ∀ e ∈ l, e.code ≠ c) : updateEntry c f l = l :=
  (List.map_congr_left fun e he => if_neg (h e he)).trans (List.map_id' l)

/-- The one entry of the code changes in its place. -/
theorem updateEntry_of_split {c : FaultCode} {front back : List FaultEntry} {e : FaultEntry}
    (f : FaultEntry → FaultEntry) (he : e.code = c) (h : ∀ x ∈ front ++ back, x.code ≠ c) :
    updateEntry c f (front ++ e :: back) = front ++ f e :: back := by
  have hfront := updateEntry_of_absent f fun x hx => h x (List.mem_append_left _ hx)
  have hback := updateEntry_of_absent f fun x hx => h x (List.mem_append_right _ hx)
  unfold updateEntry at hfront hback ⊢
  rw [List.map_append, List.map_cons, hfront, hback, if_pos he]

/-! ## A raise (R181, R183) -/

section
variable (t : FaultTable) (c : FaultCode) (latch : Bool) (seconds : Nat)

/-- The entry that a raise of a new code makes. -/
def newEntry : FaultEntry := ⟨c, true, latch, 1, seconds, seconds⟩

/-- What a raise makes of the entry its code has. -/
def raisedEntry (e : FaultEntry) : FaultEntry :=
  { e with present := true, latched := e.latched || latch, count := min 255 (e.count + 1), last := seconds }

/-- A raise of a code that has an entry. -/
theorem raise_of_held (h : ∃ e ∈ t.entries, e.code = c) :
    t.raise c latch seconds = { t with entries := updateEntry c (raisedEntry latch seconds) t.entries } :=
  if_pos (by simpa using h)

/-- A raise of a new code in a table with room. -/
theorem raise_of_room (hnew : ∀ e ∈ t.entries, e.code ≠ c) (hroom : t.entries.length < 16) :
    t.raise c latch seconds = { t with entries := t.entries ++ [newEntry c latch seconds] } :=
  (if_neg (by simpa using hnew)).trans (if_pos hroom)

/-- A raise of a new code in a table without room: a STORED entry gives way, or none does. -/
theorem raise_of_filled (hnew : ∀ e ∈ t.entries, e.code ≠ c) (hfull : t.entries.length = 16) :
    t.raise c latch seconds =
      if t.entries.any fun e => !e.active
      then { entries := dropStored t.entries ++ [newEntry c latch seconds], full := false }
      else { t with full := true } :=
  (if_neg (by simpa using hnew)).trans (if_neg (by simp [hfull, maxFaults]))
end

/-- The earliest STORED entry leaves. -/
theorem dropStored_of_split {front back : List FaultEntry} {e : FaultEntry}
    (hfront : ∀ x ∈ front, x.active = true) (he : e.active = false) :
    dropStored (front ++ e :: back) = front ++ back := by
  rw [dropStored_eq_eraseP, List.eraseP_append_right _ (by simpa using hfront), List.eraseP_cons_of_pos (by simp [he])]

/-- The latched raise and the plain one differ in the latch alone. -/
theorem raiseWith_eq (c : FaultCode) (latch : Bool) (s : State) :
    (if latch then raiseLatched c s else raise c s) = s.withFaults (s.faultTable.raise c latch s.mc.seconds) := by
  cases latch <;> rfl

theorem mem_of_split {l front back : List FaultEntry} {e : FaultEntry} (h : l = front ++ e :: back) : e ∈ l :=
  h ▸ List.mem_append_right _ List.mem_cons_self

/-- Settles O4: a raise by the place its code has or finds in the table, a clear and a mark by the entry of theirs. -/
theorem faultTableOperations : Obligations.FaultTableOperations := by
  refine ⟨?_, ?_⟩
  · intro c latch s t ht
    rw [raiseWith_eq] at ht
    subst ht
    refine ⟨touches_withMc s _, rfl, rfl, fun hnew hroom => ?_, fun hnew hfull front back e hsplit hfront he hl => ?_,
      fun hnew hfull hactive => ?_, fun front back e hsplit he hothers => ?_⟩
    · rw [raise_of_room _ _ _ _ hnew hroom]
      exact ⟨rfl, rfl⟩
    · have hstored : e.active = false := by simp [FaultEntry.active, he, hl]
      have hany : (s.faultTable.entries.any fun e => !e.active) = true :=
        List.any_eq_true.mpr ⟨e, mem_of_split hsplit, by simp [hstored]⟩
      have hdrop := dropStored_of_split (back := back) (fun x hx => (Bool.or_eq_true _ _).mpr (hfront x hx)) hstored
      rw [raise_of_filled _ _ _ _ hnew hfull, if_pos hany]
      exact ⟨congrArg (· ++ _) ((congrArg dropStored hsplit).trans hdrop), rfl⟩
    · have hall : ∀ x ∈ s.faultTable.entries, x.active = true :=
        fun x hx => (Bool.or_eq_true _ _).mpr (hactive x hx)
      have hnone : ¬ (s.faultTable.entries.any fun e => !e.active) = true := by simpa using hall
      rw [raise_of_filled _ _ _ _ hnew hfull, if_neg hnone]
      exact ⟨rfl, rfl⟩
    · have hheld : ∃ x ∈ s.faultTable.entries, x.code = c :=
        ⟨e, mem_of_split hsplit, he⟩
      rw [raise_of_held _ _ _ _ hheld]
      exact ⟨(congrArg _ hsplit).trans (updateEntry_of_split _ he hothers), rfl⟩
  · intro c s
    refine ⟨touches_clearFault c s, touches_latchFault c s, rfl, rfl, fun hnew => ?_, fun front back e hsplit he hothers => ?_⟩
    · have hfaults (f : FaultEntry → FaultEntry) :
          s.withFaults { s.faultTable with entries := updateEntry c f s.mc.faults } = s := by
        rw [updateEntry_of_absent f hnew]
        rfl
      exact ⟨hfaults _, hfaults _⟩
    · have hentry (f : FaultEntry → FaultEntry) : updateEntry c f s.mc.faults = front ++ f e :: back :=
        (congrArg _ hsplit).trans (updateEntry_of_split f he hothers)
      exact ⟨hentry _, hentry _⟩

end Sys2Proof.Proofs
end

