-- ==== Sys2Proof/Proofs/OneOutput.lean ====
section
/-! SUPPORT. One output of the valve driver bank (R46 to R54): writing its record and driving it anew, what a command
write, a trip, a retry and a sample do, and the statements about a single output. -/

namespace Sys2Proof.Proofs

open Sys2Proof Sys2Proof.Machine

/-! ## Frames in a row -/

/-- A change of parts that are already among those of a frame. -/
theorem also {l m : List Part} {s t u : State} (h : Touches l s t) (k : Touches m t u)
    (hm : ∀ p ∈ m, p ∈ l := by decide) : Touches l s u := h.trans (k.mono hm)

/-- The MC after a raise or a clear is that of the MC before. -/
theorem raise_mc_congr {s t : State} (c : FaultCode) (h : t.mc = s.mc) : (raise c t).mc = (raise c s).mc := by
  simp only [raise, State.withFaults, State.faultTable, State.withMc_mc, h]

theorem clearFault_mc_congr {s t : State} (c : FaultCode) (h : t.mc = s.mc) :
    (clearFault c t).mc = (clearFault c s).mc := by
  simp only [clearFault, State.withFaults, State.faultTable, State.withMc_mc, h]

theorem latchFault_mc_congr {s t : State} (c : FaultCode) (h : t.mc = s.mc) :
    (latchFault c t).mc = (latchFault c s).mc := by
  simp only [latchFault, State.withFaults, State.faultTable, State.withMc_mc, h]

section
variable (c : FaultCode) (s : State) (o : Output)
theorem raise_out : (raise c s).out o = s.out o := rfl
theorem clearFault_out : (clearFault c s).out o = s.out o := rfl
theorem latchFault_out : (latchFault c s).out o = s.out o := rfl
end

/-! ## A record written and driven anew (R48) -/

/-- The state after an output's record is written and its drive target recomputed. -/
def redrive (o : Output) (r : OutRec) (s : State) : State := s.withVdb ((s.vdb.withOut o r).refresh o)

section
variable (o : Output) (r : OutRec) (s : State)

theorem touches_redrive : Touches [.vdb] s (redrive o r s) := touches_withVdb s _

theorem withOut_apart : OutputsApart o s (s.withOut o r) :=
  ⟨fun x hx => by simp [hx], rfl, rfl⟩

theorem redrive_apart : OutputsApart o s (redrive o r s) := by
  refine ⟨fun x hx => ?_, Vdb.refresh_supplies _ o, Vdb.refresh_grant _ o⟩
  have hother := (s.vdb.withOut o r).refresh_get_ne hx
  rwa [Vdb.withOut_get, if_neg hx] at hother

/-- R48's condition as the record to be driven and the supply stand. -/
theorem withOut_blocked (v : Vdb) : (v.withOut o r).blocked o =
    (!v.powered o || r.short == .latched || (r.short == .retry && r.window.isNone) || r.withheld) := by
  simp [Vdb.blocked]

/-- What the record keeps of what was written. -/
theorem redrive_keeps :
    ((redrive o r s).out o).command = r.command ∧ ((redrive o r s).out o).withheld = r.withheld ∧
    ((redrive o r s).out o).openFlag = r.openFlag ∧ ((redrive o r s).out o).short = r.short ∧
    ((redrive o r s).out o).retries = r.retries ∧ ((redrive o r s).out o).retryTimer = r.retryTimer := by
  have h := (s.vdb.withOut o r).refresh_keeps o o
  rw [Vdb.withOut_get, if_pos rfl] at h
  exact h

theorem redrive_window (hwindow : r.window = none) : ((redrive o r s).out o).window = none :=
  Vdb.refresh_no_window _ o (by simp [hwindow])

/-- A window stays open while the output has supply and is not withheld (R53). -/
theorem redrive_window_of_powered (hpower : s.vdb.powered o = true) (hheld : r.withheld = false) :
    ((redrive o r s).out o).window = r.window :=
  (Vdb.refresh_window _ o (by simpa using hpower) (by simpa using hheld)).trans (by simp)
end

section
variable {o : Output} {r : OutRec} {s : State}

/-- What R48 gives a record without current. -/
theorem redrive_blocked (h : (s.vdb.withOut o r).blocked o = true) :
    ((redrive o r s).out o).target = 0 ∧ ((redrive o r s).out o).pullIn = none := Vdb.refresh_blocked _ o h

theorem redrive_proportional (h : (s.vdb.withOut o r).blocked o = false) (ho : o.onOff = false) :
    ((redrive o r s).out o).target = r.command :=
  (Vdb.refresh_proportional _ o h ho).trans (by simp)

theorem redrive_off (ho : o.onOff = true) (hoff : r.command = 0) : ((redrive o r s).out o).target = 0 :=
  Vdb.refresh_off _ o ho (by simpa using hoff)

theorem redrive_pullIn (h : (s.vdb.withOut o r).blocked o = false) (ho : o.onOff = true) (hon : r.command ≠ 0)
    (hzero : r.target = 0) :
    ((redrive o r s).out o).target = 1500 ∧ ((redrive o r s).out o).pullIn = some 0 :=
  Vdb.refresh_pullIn _ o h ho (by simpa using hon) (by simpa using hzero)

theorem redrive_driven (h : (s.vdb.withOut o r).blocked o = false) (ho : o.onOff = true) (hon : r.command ≠ 0)
    (hdriven : r.target ≠ 0) : ((redrive o r s).out o).target = r.target :=
  (Vdb.refresh_driven _ o h ho (by simpa using hon) (by simpa using hdriven)).trans (by simp)

/-- A fault of the table beside the write. -/
theorem apart_withFaults {u : State} (h : OutputsApart o s u) (t : FaultTable) :
    OutputsApart o s (u.withFaults t) := h
end

/-! ## A command write (R47) -/

theorem writeCommand_of_same {o : Output} {v : Nat} {s : State}
    (h : storedCommand s.cfg o v = (s.out o).command) : writeCommand o v s = s := if_pos h

theorem writeCommand_of_new {o : Output} {v : Nat} {s : State}
    (h : storedCommand s.cfg o v ≠ (s.out o).command) :
    writeCommand o v s = redrive o { s.out o with command := storedCommand s.cfg o v } s := if_neg h

theorem writeCommand_apart (o : Output) (v : Nat) (s : State) : OutputsApart o s (writeCommand o v s) := by
  by_cases h : storedCommand s.cfg o v = (s.out o).command
  · rw [writeCommand_of_same h]
    exact ⟨fun _ _ => rfl, rfl, rfl⟩
  · rw [writeCommand_of_new h]
    exact redrive_apart o _ s

/-- Settles O6: a write of the stored value changes nothing, and any other drives the output by R48. -/
theorem commandWriteDrives : Obligations.CommandWriteDrives := by
  intro s o v
  refine ⟨writeCommand_command o v s, fun hsame => ?_, fun hnew => ?_, writeCommand_apart o v s,
    touches_writeCommand o v s⟩
  · exact writeCommand_of_same ((writeCommand_command o v s).symm.trans hsame)
  · have hne : storedCommand s.cfg o v ≠ (s.out o).command := writeCommand_command o v s ▸ hnew
    rw [writeCommand_of_new hne]
    have hblocked : (s.vdb.withOut o { s.out o with command := storedCommand s.cfg o v }).blocked o =
        s.vdb.blocked o := withOut_blocked _ _ _
    refine ⟨fun h => redrive_blocked (hblocked.trans h), fun h ho => ?_, fun _ ho hv => ?_, fun h ho hv hzero => ?_⟩
    · rw [redrive_proportional (hblocked.trans h) ho]
      exact if_neg (by simp [ho])
    · exact redrive_off ho (by simp [storedCommand, ho, hv])
    · exact redrive_pullIn (hblocked.trans h) ho (by simp [storedCommand, ho, hv]) hzero

/-! ## Trips and retries (R53, R54) -/

theorem exec_shortTrip (o : Output) (s : State) :
    exec (.shortTrip o) s = .next (if (s.out o).target ≠ 0 then trip o s else s) := rfl

theorem trip_of_none {o : Output} {s : State} (h : (s.out o).short = .none) :
    trip o s = raise (.outShort o)
      (redrive o { s.out o with short := .retry, retries := 0, retryTimer := 0, window := none } s) := by
  simp only [trip, h]
  rfl

theorem trip_of_third {o : Output} {s : State} (h : (s.out o).short = .retry)
    (hw : (s.out o).window.isSome = true) (hthird : (s.out o).retries + 1 = 3) :
    trip o s = latchFault (.outShort o) (raise (.outShort o)
      (redrive o { s.out o with short := .latched, retries := 3, window := none } s)) := by
  simp only [trip, h, hw, hthird, if_true]
  rfl

theorem trip_of_failed {o : Output} {s : State} (h : (s.out o).short = .retry)
    (hw : (s.out o).window.isSome = true) (hmore : (s.out o).retries + 1 ≠ 3) :
    trip o s = raise (.outShort o)
      (redrive o { s.out o with retries := (s.out o).retries + 1, retryTimer := 0, window := none } s) := by
  simp only [trip, h, hw, hmore, if_true, if_false]
  rfl

theorem touches_trip (o : Output) (s : State) : Touches [.vdb, .mc] s (trip o s) := by
  have hraised (r : OutRec) : Touches [.vdb, .mc] s (raise (.outShort o) (redrive o r s)) :=
    also ((touches_redrive o r s).mono (by decide)) (touches_raise _ _)
  unfold trip
  dsimp only
  split
  · exact hraised _
  · exact touches_ite _ (touches_ite _ (also (hraised _) (touches_latchFault _ _)) (hraised _)) (.refl _ s)
  · exact .refl _ s

/-- Settles O8: a trip writes a record that blocks its output, by the stage and the window it finds. -/
theorem tripEntersRetryOrLatches : Obligations.TripEntersRetryOrLatches := by
  intro o s
  refine ⟨fun hzero => ?_, fun hdriven hnone => ?_, fun hdriven hretry hwindow => ?_⟩
  · rw [exec_shortTrip, if_neg (by simpa using hzero)]
  · refine ⟨_, (exec_shortTrip o s).trans (by rw [if_pos hdriven]), ?_⟩
    rw [trip_of_none hnone, raise_out]
    obtain ⟨hcommand, hheld, hopen, hshort, hretries, htimer⟩ := redrive_keeps o
      { s.out o with short := .retry, retries := 0, retryTimer := 0, window := none } s
    exact ⟨hshort, hretries, htimer, redrive_window o _ s rfl, (redrive_blocked (by simp [withOut_blocked])).1,
      hcommand, hopen, hheld, raise_mc_congr _ rfl, apart_withFaults (redrive_apart o _ s) _, trip_of_none hnone ▸ touches_trip o s⟩
  · refine ⟨_, (exec_shortTrip o s).trans (by rw [if_pos hdriven]), ?_⟩
    by_cases hthird : (s.out o).retries + 1 = 3
    · have htouch := trip_of_third hretry hwindow hthird ▸ touches_trip o s
      rw [trip_of_third hretry hwindow hthird, latchFault_out, raise_out]
      obtain ⟨hcommand, hheld, hopen, hshort, hretries, htimer⟩ := redrive_keeps o
        { s.out o with short := .latched, retries := 3, window := none } s
      exact ⟨hretries.trans hthird.symm, redrive_window o _ s rfl, (redrive_blocked (by simp [withOut_blocked])).1,
        hcommand, hopen, hheld, fun _ => ⟨hshort, latchFault_mc_congr _ (raise_mc_congr _ rfl)⟩, fun hmore => absurd hthird hmore,
        apart_withFaults (apart_withFaults (redrive_apart o _ s) _) _, htouch⟩
    · have htouch := trip_of_failed hretry hwindow hthird ▸ touches_trip o s
      rw [trip_of_failed hretry hwindow hthird, raise_out]
      obtain ⟨hcommand, hheld, hopen, hshort, hretries, htimer⟩ := redrive_keeps o
        { s.out o with retries := (s.out o).retries + 1, retryTimer := 0, window := none } s
      exact ⟨hretries, redrive_window o _ s rfl, (redrive_blocked (by simp [withOut_blocked, hretry])).1,
        hcommand, hopen, hheld, fun h => absurd h hthird, fun _ => ⟨hshort.trans hretry, htimer, raise_mc_congr _ rfl⟩,
        apart_withFaults (redrive_apart o _ s) _, htouch⟩

theorem exec_retry {c : Instr} {o : Output} (s : State) (hc : c = .retryTimerExpiry o ∨ c = .deferredRetry o) :
    exec c s = .next (if retryWaits o s && couldCarry o s
      then redrive o { s.out o with window := some 0 } s else s) := by
  obtain rfl | rfl := hc
  · rfl
  · rw [Bool.and_comm]
    rfl

theorem couldCarry_iff (o : Output) (s : State) : couldCarry o s = true ↔
    s.vdb.powered o = true ∧ (s.out o).command ≠ 0 ∧ (s.out o).withheld = false := by
  simp [couldCarry, and_assoc]

/-- Settles O9: each timer's end by what it writes to the output's record. -/
theorem outputTimersEnd : Obligations.OutputTimersEnd := by
  refine ⟨fun o s => ⟨fun c hc hretry hnone htimer => ⟨fun hcarries hzero => ?_, fun hnot => ?_⟩, fun hretry hwindow => ?_⟩,
    fun o s hdriven hpull => ?_⟩
  · obtain ⟨hpower, hon, hheld⟩ := hcarries
    have hdue : (retryWaits o s && couldCarry o s) = true := by
      simp [retryWaits, couldCarry, retryUs, hretry, hnone, htimer, hpower, hon, hheld]
    refine ⟨_, (exec_retry s hc).trans (by rw [if_pos hdue]), ?_⟩
    have hfree : (s.vdb.withOut o { s.out o with window := some 0 }).blocked o = false := by
      simp [withOut_blocked, hpower, hretry, hheld]
    obtain ⟨hcommand, -, -, hshort, hretries, hretryTimer⟩ := redrive_keeps o { s.out o with window := some 0 } s
    exact ⟨redrive_window_of_powered o _ s hpower hheld, hshort.trans hretry, hretries, hretryTimer, hcommand,
      redrive_proportional hfree, fun ho => redrive_pullIn hfree ho hon hzero, redrive_apart o _ s,
      touches_redrive o _ s⟩
  · have hidle : ¬ (retryWaits o s && couldCarry o s) = true := by
      rw [Bool.and_eq_true, couldCarry_iff]
      exact fun h => hnot h.2
    rw [exec_retry s hc, if_neg hidle]
  · obtain ⟨w, hw, hlong⟩ := hwindow
    have hdue : retrySucceeds o s = true := by simp [retrySucceeds, windowUs, hretry, hw, hlong]
    refine ⟨endRetry o s, congrArg Host.Outcome.next (if_pos hdue), ?_⟩
    rw [show endRetry o s = clearFault (.outShort o)
      (redrive o { s.out o with short := .none, retries := 0, window := none } s) from rfl, clearFault_out]
    have hfree (hpower : s.vdb.powered o = true) (hheld : (s.out o).withheld = false) :
        (s.vdb.withOut o { s.out o with short := .none, retries := 0, window := none }).blocked o = false := by
      simp [withOut_blocked, hpower, hheld]
    obtain ⟨hcommand, -, -, hshort, hretries, -⟩ := redrive_keeps o
      { s.out o with short := .none, retries := 0, window := none } s
    exact ⟨redrive_window o _ s rfl, hshort, hretries, hcommand,
      fun hpower hheld ho => redrive_proportional (hfree hpower hheld) ho,
      fun hpower hheld ho hon hdriven => redrive_driven (hfree hpower hheld) ho hon hdriven,
      clearFault_mc_congr _ rfl, apart_withFaults (redrive_apart o _ s) _, also ((touches_redrive o _ s).mono (by decide)) (touches_clearFault _ _)⟩
  · obtain ⟨p, hp, hlong⟩ := hpull
    have hover : pullInOver o s = true := by simp [pullInOver, pullInUs, hdriven, hp, hlong]
    exact ⟨s.withOut o { s.out o with target := 500 }, congrArg Host.Outcome.next (if_pos hover), by simp,
      withOut_apart o _ s, touches_withVdb s _⟩

end Sys2Proof.Proofs
end

