-- ==== Sys2Proof/Proofs/CoilSamples.lean ====
section
/-! SUPPORT. The sense timer's samples (R49, R51, R52), output by output, and the hitch supply grant (R57 to R60): what
each does to the records of the outputs, and the statements about them. -/

namespace Sys2Proof.Proofs

open Sys2Proof Sys2Proof.Machine

/-! ## One sample on one record (R49, R51, R52) -/

/-- The record of an output after a sample, with or without supply. -/
def sensedRec (powered : Bool) (x : CoilSample) (r : OutRec) : OutRec :=
  if powered then
    let m : OutRec := { r with measured := measuredAt r.target x }
    if r.short = .none then
      let c := countOpen x m
      if !c.openFlag && decide (openSamples ≤ c.openCount) then { c with openFlag := true, openCount := 0 }
      else if c.openFlag && decide (openSamples ≤ c.recCount) then { c with openFlag := false, recCount := 0 }
      else c
    else m
  else { r with measured := 0 }

/-- The fault that a turned open flag raises or clears. -/
def turnedFlag (o : Output) (before after : Bool) (s : State) : State :=
  match before, after with
  | false, true => raise (.outOpen o) s
  | true, false => clearFault (.outOpen o) s
  | _, _ => s

theorem turnedFlag_same (o : Output) (b : Bool) (s : State) : turnedFlag o b b s = s := by cases b <;> rfl

theorem countOpen_openFlag (x : CoilSample) (r : OutRec) : (countOpen x r).openFlag = r.openFlag := by
  unfold countOpen
  split <;> rfl

theorem turnedFlag_mc_congr {s t : State} (o : Output) (a b : Bool) (h : t.mc = s.mc) :
    (turnedFlag o a b t).mc = (turnedFlag o a b s).mc := by
  cases a <;> cases b
  · exact h
  · exact raise_mc_congr _ h
  · exact clearFault_mc_congr _ h
  · exact h

/-- The later of two writes of one record stands. -/
theorem withOut_withOut (s : State) (o : Output) (q r : OutRec) : (s.withOut o q).withOut o r = s.withOut o r := by
  have hset : (s.vdb.outs.set o q).set o r = s.vdb.outs.set o r :=
    OutputTable.ext_get _ _ fun p => by by_cases hp : p = o <;> simp [hp]
  simp [State.withOut, State.withVdb, Vdb.withOut, hset]

section
variable (samples : OutputTable CoilSample) (s : State) (o : Output)

/-- An output with supply and out of a short stage: the sample is counted, and a full count turns the flag. -/
theorem senseOne_of_tested (hpower : s.vdb.powered o = true) (hshort : (s.out o).short = .none) :
    senseOne samples s o =
      let u := s.withOut o (countOpen (samples.get o)
        { s.out o with measured := measuredAt (s.out o).target (samples.get o) })
      if openDue o u then setOpen o u else if recoveredDue o u then clearOpen o u else u := by
  simp [senseOne, hpower, hshort, withOut_withOut, sampled_eq]

/-- One output at a sense-timer expiry: its record, and the fault of a turned flag. -/
theorem senseOne_eq : senseOne samples s o =
    turnedFlag o (s.out o).openFlag (sensedRec (s.vdb.powered o) (samples.get o) (s.out o)).openFlag
      (s.withOut o (sensedRec (s.vdb.powered o) (samples.get o) (s.out o))) := by
  cases hpower : s.vdb.powered o with
  | false => simp [senseOne, sensedRec, hpower, turnedFlag_same]
  | true =>
    by_cases hshort : (s.out o).short = .none
    · have hflag : (countOpen (samples.get o)
          { s.out o with measured := measuredAt (s.out o).target (samples.get o) }).openFlag = (s.out o).openFlag :=
        countOpen_openFlag _ _
      rw [senseOne_of_tested samples s o hpower hshort, sensedRec, if_pos rfl]
      dsimp only
      rw [if_pos hshort]
      generalize countOpen (samples.get o) _ = c at hflag ⊢
      simp only [openDue, recoveredDue, setOpen, clearOpen, State.withOut_out, if_true, withOut_withOut, ← hflag]
      cases hopen : c.openFlag with
      | false => by_cases hdue : openSamples ≤ c.openCount <;> simp [hdue, hopen, turnedFlag]
      | true => by_cases hdue : openSamples ≤ c.recCount <;> simp [hdue, hopen, turnedFlag]
    · simp [senseOne, sensedRec, hpower, hshort, turnedFlag_same, sampled_eq]

theorem turnedFlag_out (o p : Output) (a b : Bool) (s : State) : (turnedFlag o a b s).out p = s.out p := by
  cases a <;> cases b <;> rfl

theorem turnedFlag_vdb (o : Output) (a b : Bool) (s : State) : (turnedFlag o a b s).vdb = s.vdb := by
  cases a <;> cases b <;> rfl

theorem touches_turnedFlag (o : Output) (a b : Bool) (s : State) : Touches [.mc] s (turnedFlag o a b s) := by
  cases a <;> cases b
  · exact .refl _ s
  · exact touches_raise _ s
  · exact touches_clearFault _ s
  · exact .refl _ s

theorem senseOne_out (p : Output) : (senseOne samples s o).out p =
    if p = o then sensedRec (s.vdb.powered o) (samples.get o) (s.out o) else s.out p := by
  rw [senseOne_eq, turnedFlag_out, State.withOut_out]

theorem senseOne_mc : (senseOne samples s o).mc =
    (turnedFlag o (s.out o).openFlag ((senseOne samples s o).out o).openFlag s).mc := by
  rw [senseOne_out, if_pos rfl, senseOne_eq]
  exact turnedFlag_mc_congr _ _ _ rfl

theorem touches_senseOne : Touches [.vdb, .mc] s (senseOne samples s o) := by
  rw [senseOne_eq]
  exact (touches_withVdb s _).then (touches_turnedFlag _ _ _ _)

theorem senseOne_switches : (senseOne samples s o).vdb.supplies = s.vdb.supplies ∧
    (senseOne samples s o).vdb.grant = s.vdb.grant := by
  rw [senseOne_eq, turnedFlag_vdb]
  exact ⟨rfl, rfl⟩

/-! ## All outputs at one expiry -/

/-- Every output of the list takes its own sample. -/
theorem foldl_senseOne_out (l : List Output) (hl : l.Nodup) (p : Output) :
    (l.foldl (senseOne samples) s).out p =
      if p ∈ l then sensedRec (s.vdb.powered p) (samples.get p) (s.out p) else s.out p := by
  induction l generalizing s with
  | nil => simp
  | cons o l ih =>
    obtain ⟨hfresh, hrest⟩ := List.nodup_cons.mp hl
    have hpower : (senseOne samples s o).vdb.powered p = s.vdb.powered p := by
      rw [Vdb.powered, (senseOne_switches samples s o).1, Vdb.powered]
    rw [List.foldl_cons, ih _ hrest, senseOne_out, hpower]
    by_cases hp : p = o
    · subst hp
      simp [hfresh]
    · simp [hp]

theorem foldl_senseOne_switches (l : List Output) :
    (l.foldl (senseOne samples) s).vdb.supplies = s.vdb.supplies ∧
    (l.foldl (senseOne samples) s).vdb.grant = s.vdb.grant :=
  holds_foldl (P := fun t => t.vdb.supplies = s.vdb.supplies ∧ t.vdb.grant = s.vdb.grant)
    (fun t o ⟨hsupplies, hgrant⟩ => ⟨(senseOne_switches samples t o).1.trans hsupplies,
      (senseOne_switches samples t o).2.trans hgrant⟩) l ⟨rfl, rfl⟩

/-- What the head of the list does, as the rest of the list and its end see it. -/
theorem foldl_senseOne_cons {o : Output} {l : List Output} (hfresh : o ∉ l) (hrest : l.Nodup) :
    let u := senseOne samples s o
    (∀ p ∈ l, u.out p = s.out p) ∧ (l.foldl (senseOne samples) u).out o = u.out o :=
  ⟨fun p hp => by rw [senseOne_out, if_neg (ne_of_mem_of_not_mem hp hfresh)],
    by rw [foldl_senseOne_out _ _ _ hrest, if_neg hfresh]⟩

/-- While no flag turns, the table stands. -/
theorem foldl_senseOne_mc_of_stand (l : List Output) (hl : l.Nodup)
    (hstand : ∀ p ∈ l, ((l.foldl (senseOne samples) s).out p).openFlag = (s.out p).openFlag) :
    (l.foldl (senseOne samples) s).mc = s.mc := by
  induction l generalizing s with
  | nil => rfl
  | cons o l ih =>
    obtain ⟨hfresh, hrest⟩ := List.nodup_cons.mp hl
    obtain ⟨hothers, hhead⟩ := foldl_senseOne_cons samples s hfresh hrest
    have hturn := hstand o List.mem_cons_self
    rw [List.foldl_cons, hhead] at hturn
    have htail := ih (senseOne samples s o) hrest fun p hp => by
      rw [hothers p hp]
      exact hstand p (List.mem_cons_of_mem _ hp)
    rw [List.foldl_cons, htail, senseOne_mc, hturn, turnedFlag_same]

/-- Where one flag at most turns, the table takes its fault. -/
theorem foldl_senseOne_mc (l : List Output) (hl : l.Nodup) {o : Output} (ho : o ∈ l)
    (hstand : ∀ p ∈ l, p ≠ o → ((l.foldl (senseOne samples) s).out p).openFlag = (s.out p).openFlag) :
    (l.foldl (senseOne samples) s).mc =
      (turnedFlag o (s.out o).openFlag ((l.foldl (senseOne samples) s).out o).openFlag s).mc := by
  induction l generalizing s with
  | nil => exact absurd ho List.not_mem_nil
  | cons q l ih =>
    obtain ⟨hfresh, hrest⟩ := List.nodup_cons.mp hl
    obtain ⟨hothers, hhead⟩ := foldl_senseOne_cons samples s hfresh hrest
    by_cases hq : q = o
    · subst hq
      have htail := foldl_senseOne_mc_of_stand samples (senseOne samples s q) l hrest fun p hp => by
        rw [hothers p hp]
        exact hstand p (List.mem_cons_of_mem _ hp) fun h => hfresh (h ▸ hp)
      rw [List.foldl_cons, htail, hhead, senseOne_mc]
    · have hturn := hstand q List.mem_cons_self hq
      rw [List.foldl_cons, hhead] at hturn
      have ho' : o ∈ l := (List.mem_cons.mp ho).resolve_left fun h => hq h.symm
      have htail := ih (senseOne samples s q) hrest ho' fun p hp hne => by
        rw [hothers p hp]
        exact hstand p (List.mem_cons_of_mem _ hp) hne
      have hmc : (senseOne samples s q).mc = s.mc := by rw [senseOne_mc, hturn, turnedFlag_same]
      rw [List.foldl_cons, htail, hothers o ho']
      exact turnedFlag_mc_congr _ _ _ hmc
end

/-! ## The statement about open coils -/

/-- What a sample makes of a record with supply out of a short stage: the counts of R51 and R52. -/
theorem openTest_iff (r : OutRec) (x : CoilSample) :
    openTest { r with measured := measuredAt r.target x } x = true ↔ LooksOpen r.target x := by
  by_cases h : r.target = 0 <;> simp [openTest, LooksOpen, measuredAt, h]

theorem sensedRec_unpowered (x : CoilSample) (r : OutRec) : sensedRec false x r = { r with measured := 0 } := rfl

theorem sensedRec_shorted (x : CoilSample) {r : OutRec} (h : r.short ≠ .none) :
    sensedRec true x r = { r with measured := measuredAt r.target x } := by simp [sensedRec, h]

theorem sensedRec_closed (x : CoilSample) {r : OutRec} (h : r.short = .none) (hflag : r.openFlag = false) :
    (¬ LooksOpen r.target x → sensedRec true x r = { r with measured := measuredAt r.target x, openCount := 0 }) ∧
    (LooksOpen r.target x → r.openCount + 1 < 50 →
      sensedRec true x r = { r with measured := measuredAt r.target x, openCount := r.openCount + 1 }) ∧
    (LooksOpen r.target x → 50 ≤ r.openCount + 1 →
      sensedRec true x r = { r with measured := measuredAt r.target x, openCount := 0, openFlag := true }) := by
  have htest := openTest_iff r x
  refine ⟨fun hno => ?_, fun hyes hfew => ?_, fun hyes hmany => ?_⟩
  · have := mt htest.mp hno
    simp_all [sensedRec, countOpen, openSamples]
  · have := htest.mpr hyes
    simp_all [sensedRec, countOpen, openSamples]
    omega
  · have := htest.mpr hyes
    simp_all [sensedRec, countOpen, openSamples]

theorem sensedRec_open (x : CoilSample) {r : OutRec} (h : r.short = .none) (hflag : r.openFlag = true) :
    (LooksOpen r.target x → sensedRec true x r = { r with measured := measuredAt r.target x, recCount := 0 }) ∧
    (¬ LooksOpen r.target x → r.recCount + 1 < 50 →
      sensedRec true x r = { r with measured := measuredAt r.target x, recCount := r.recCount + 1 }) ∧
    (¬ LooksOpen r.target x → 50 ≤ r.recCount + 1 →
      sensedRec true x r = { r with measured := measuredAt r.target x, recCount := 0, openFlag := false }) := by
  have htest := openTest_iff r x
  refine ⟨fun hyes => ?_, fun hno hfew => ?_, fun hno hmany => ?_⟩
  · have := htest.mpr hyes
    simp_all [sensedRec, countOpen, openSamples]
  · have := mt htest.mp hno
    simp_all [sensedRec, countOpen, openSamples]
    omega
  · have := mt htest.mp hno
    simp_all [sensedRec, countOpen, openSamples]

/-- Settles O7: the expiry is a sample on each record, and of the flags that turn each has its fault. -/
theorem openCoilsFound : Obligations.OpenCoilsFound := by
  refine ⟨fun samples s hruns => ?_, fun o s => ⟨fun hflag hmany => ?_, fun hflag hmany => ?_⟩⟩
  · have hout (o : Output) : (Output.all.foldl (senseOne samples) s).out o =
        sensedRec (s.vdb.powered o) (samples.get o) (s.out o) := by
      rw [foldl_senseOne_out _ _ _ Output.nodup_all, if_pos o.mem_all]
    obtain ⟨hsupplies, hgrant⟩ := foldl_senseOne_switches samples s Output.all
    refine ⟨_, congrArg Host.Outcome.next (if_pos hruns), fun o => ⟨fun hpower => ?_, fun hpower hshort => ?_,
      fun hpower hshort hflag => ?_, fun hpower hshort hflag => ?_⟩, hsupplies, hgrant, fun hstand => ?_,
      fun o hothers => ?_, touches_foldl _ (touches_senseOne samples) _ _⟩
    · rw [hout, hpower, sensedRec_unpowered]
    · rw [hout, hpower, sensedRec_shorted _ hshort]
    · rw [hout, hpower]
      exact sensedRec_closed _ hshort hflag
    · rw [hout, hpower]
      exact sensedRec_open _ hshort hflag
    · exact foldl_senseOne_mc_of_stand samples s _ Output.nodup_all fun p _ => hstand p
    · have hmc := foldl_senseOne_mc samples s _ Output.nodup_all o.mem_all fun p _ => hothers p
      refine ⟨fun hbefore hafter => ?_, fun hbefore hafter => ?_⟩
      · rw [hmc, hbefore, hafter]
        rfl
      · rw [hmc, hbefore, hafter]
        rfl
  · have hdue : openDue o s = true := by simp [openDue, openSamples, hflag, hmany]
    exact ⟨setOpen o s, congrArg Host.Outcome.next (if_pos hdue), by simp [setOpen, raise_out],
      raise_mc_congr _ rfl, apart_withFaults (withOut_apart o _ s) _,
      (touches_withVdb s _).then (touches_raise _ _)⟩
  · have hdue : recoveredDue o s = true := by simp [recoveredDue, openSamples, hflag, hmany]
    exact ⟨clearOpen o s, congrArg Host.Outcome.next (if_pos hdue), by simp [clearOpen, clearFault_out],
      clearFault_mc_congr _ rfl, apart_withFaults (withOut_apart o _ s) _,
      (touches_withVdb s _).then (touches_clearFault _ _)⟩

end Sys2Proof.Proofs
end

