-- ==== Sys2Proof/Proofs/SupplyGrant.lean ====
section
/-! SUPPORT. The hitch supply grant (R57 to R60): what turning it does to the outputs, and the statement about its
tests at SUP events and at demands. -/

namespace Sys2Proof.Proofs

open Sys2Proof Sys2Proof.Machine

/-! ## Turning the grant (R60) -/

theorem setWithheld_supplies (w : Bool) (o : Output) (v : Vdb) : (setWithheld w o v).supplies = v.supplies :=
  Vdb.refresh_supplies _ _

/-- A hitch valve that is no longer withheld is driven at its command again. -/
theorem setWithheld_driven {o : Output} {v : Vdb} (ho : o.onOff = false) (hpower : v.powered o = true)
    (hshort : (v.outs.get o).short = .none) :
    ((setWithheld false o v).outs.get o).target = (v.outs.get o).command := by
  have hfree : (v.withOut o { v.outs.get o with withheld := false }).blocked o = false := by
    simp [withOut_blocked, hpower, hshort]
  exact (Vdb.refresh_proportional _ o hfree ho).trans (by simp)

theorem withhold_supplies (w : Bool) (v : Vdb) : (withhold w v).supplies = v.supplies := by
  rw [withhold_eq, setWithheld_supplies, setWithheld_supplies]

theorem withhold_grant (w : Bool) (v : Vdb) : (withhold w v).grant = v.grant := by simp [withhold_eq]

theorem withhold_get_ne (w : Bool) (v : Vdb) {o : Output} (hhrv : o ≠ .hrv) (hhlv : o ≠ .hlv) :
    (withhold w v).outs.get o = v.outs.get o := by
  rw [withhold_eq, setWithheld_get_ne w _ hhlv, setWithheld_get_ne w _ hhrv]

theorem withhold_given (w : Bool) (v : Vdb) {o : Output} (ho : o = .hrv ∨ o = .hlv) :
    FlagGiven w (v.outs.get o) ((withhold w v).outs.get o) := by
  obtain rfl | rfl := ho
  · exact withhold_hrv w v
  · exact withhold_hlv w v

theorem withhold_driven {v : Vdb} {o : Output} (ho : o = .hrv ∨ o = .hlv) (hpower : v.powered o = true)
    (hshort : (v.outs.get o).short = .none) : ((withhold false v).outs.get o).target = (v.outs.get o).command := by
  rw [withhold_eq]
  obtain rfl | rfl := ho
  · rw [setWithheld_get_ne false _ (by decide)]
    exact setWithheld_driven rfl hpower hshort
  · have hother := setWithheld_get_ne false v (o := .hrv) (p := .hlv) (by decide)
    rw [setWithheld_driven rfl ((congrArg (fun x => (x.get Supply.vsb).state == .enabled)
      (setWithheld_supplies false .hrv v)).trans hpower) (hother ▸ hshort), hother]

/-- The state with the grant `g` and the hitch valves' flags as it wants them. -/
def withGrant (g : Grant) (s : State) : State := s.withVdb (withhold g.suspended { s.vdb with grant := g })

theorem withGrant_grant (g : Grant) (s : State) : (withGrant g s).vdb.grant = g := withhold_grant _ _

theorem suspendGrant_eq (cause : GrantCause) (s : State) :
    suspendGrant cause s = withGrant ⟨true, some cause, min 65535 (s.vdb.grant.count + 1)⟩ s := rfl

theorem allowGrant_eq (s : State) : allowGrant s = withGrant ⟨false, none, s.vdb.grant.count⟩ s := rfl

theorem grantFrame_refl (s : State) : GrantFrame s s :=
  ⟨fun _ => rfl, fun _ _ _ => rfl, rfl, fun h => absurd rfl h⟩

theorem grantFrame_withGrant (g : Grant) (s : State) : GrantFrame s (withGrant g s) where
  commands o := by
    by_cases ho : o = .hrv ∨ o = .hlv
    · exact (withhold_given g.suspended { s.vdb with grant := g } ho).command
    · obtain ⟨hhrv, hhlv⟩ := not_or.mp ho
      exact congrArg OutRec.command (withhold_get_ne _ { s.vdb with grant := g } hhrv hhlv)
  others _ hhrv hhlv := withhold_get_ne _ { s.vdb with grant := g } hhrv hhlv
  supplies := withhold_supplies _ _
  turned _ o ho := by
    have hgiven := withhold_given g.suspended { s.vdb with grant := g } ho
    rw [withGrant_grant]
    refine ⟨hgiven.withheld, fun hs => hgiven.undriven (hgiven.withheld.trans hs), fun hs hpower hshort => ?_⟩
    have hdriven := withhold_driven (v := { s.vdb with grant := g }) ho hpower hshort
    rwa [← hs] at hdriven

/-! ## The tests (R58, R59) -/

section
variable (s : State)

theorem grantFrame_testGrant : GrantFrame s (testGrant s) :=
  holds_ite (P := GrantFrame s) (holds_ite (grantFrame_withGrant _ s)
    (holds_ite (grantFrame_withGrant _ s) (grantFrame_refl s))) (grantFrame_refl s)

theorem grantFrame_grantOnDemand : GrantFrame s (grantOnDemand s) :=
  holds_ite (P := GrantFrame s) (holds_ite (grantFrame_withGrant _ s) (grantFrame_refl s)) (grantFrame_testGrant s)

theorem grantFrame_grantOnEvent (ev : SfeEvent) : GrantFrame s (grantOnEvent ev s) :=
  holds_ite (P := GrantFrame s) (holds_ite (grantFrame_withGrant _ s) (grantFrame_refl s))
    (holds_ite (grantFrame_testGrant s) (grantFrame_refl s))

theorem touches_testGrant : Touches [.vdb] s (testGrant s) :=
  touches_ite _ (touches_ite _ (touches_withVdb s _) (touches_ite _ (touches_withVdb s _) (.refl _ s))) (.refl _ s)

theorem touches_grantOnEvent (ev : SfeEvent) : Touches [.vdb] s (grantOnEvent ev s) :=
  touches_ite _ (touches_ite _ (touches_withVdb s _) (.refl _ s)) (touches_ite _ (touches_testGrant s) (.refl _ s))
end

section
variable {s : State}

theorem testGrant_of_low (hdemand : 50 ≤ s.tbc.demand) (hlow : s.sfe.chans.sup.cmp = .low) :
    (testGrant s).vdb.grant = ⟨true, some .lowPressure, min 65535 (s.vdb.grant.count + 1)⟩ := by
  rw [testGrant, if_pos (show grantDemand ≤ s.tbc.demand from hdemand), if_pos hlow, suspendGrant_eq, withGrant_grant]

theorem testGrant_of_unknown (hdemand : 50 ≤ s.tbc.demand) (hlow : s.sfe.chans.sup.cmp ≠ .low)
    (hstate : s.sfe.chans.sup.state = .failed ∨ s.sfe.chans.sup.state = .off) :
    (testGrant s).vdb.grant = ⟨true, some .supplyUnknown, min 65535 (s.vdb.grant.count + 1)⟩ := by
  rw [testGrant, if_pos (show grantDemand ≤ s.tbc.demand from hdemand), if_neg hlow, if_pos hstate, suspendGrant_eq, withGrant_grant]

/-- An ALLOWED grant stays with a small demand or a supply in order. -/
theorem testGrant_of_fine (h : s.tbc.demand < 50 ∨ (s.sfe.chans.sup.cmp ≠ .low ∧ s.sfe.chans.sup.state ≠ .failed ∧
    s.sfe.chans.sup.state ≠ .off)) : testGrant s = s := by
  obtain hdemand | ⟨hlow, hfailed, hoff⟩ := h
  · exact if_neg (Nat.not_le.mpr hdemand)
  · simp [testGrant, hlow, hfailed, hoff]

theorem grantOnDemand_of_allowed (h : s.vdb.grant.suspended = false) : grantOnDemand s = testGrant s :=
  if_neg (by simp [h])

theorem grantOnDemand_of_suspended (h : s.vdb.grant.suspended = true) :
    grantOnDemand s = if s.tbc.demand < 50 then allowGrant s else s := if_pos h

theorem grantOnEvent_of_allowed (ev : SfeEvent) (h : s.vdb.grant.suspended = false) :
    grantOnEvent ev s = if ev = .lowEnter ∨ ev = .failed then testGrant s else s := if_neg (by simp [h])

theorem grantOnEvent_of_suspended (ev : SfeEvent) (h : s.vdb.grant.suspended = true) :
    grantOnEvent ev s = if ev = .lowLeave ∧ s.vdb.grant.cause ≠ some .supplyUnknown then allowGrant s else s :=
  if_pos h
end

/-- The grant takes the oldest SUP event while the SFE runs (R58). -/
theorem exec_grantSupEvent {ev : SfeEvent} {rest : List Delivery} {s : State}
    (hruns : s.mc.mode.sensingRuns = true) (hev : OldestEvent .vdb .sup ev rest s) :
    exec .grantSupEvent s = .next (grantOnEvent ev (s.withEvents rest)) := by
  show execGrantSupEvent s = _
  unfold execGrantSupEvent
  rw [takeEvent_oldest hev]
  exact congrArg Host.Outcome.next (if_pos hruns)

/-- Settles O12: the grant turns by the tests of R58 and R59, and at each turn the hitch valves with it. -/
theorem grantYieldsToTrailer : Obligations.GrantYieldsToTrailer := by
  refine ⟨fun ev rest s hruns hev => ?_, fun s => ?_⟩
  · have hframe := grantFrame_grantOnEvent (s.withEvents rest) ev
    have htouch := touches_grantOnEvent (s.withEvents rest) ev
    refine ⟨_, exec_grantSupEvent hruns hev, htouch .events (by decide),
      also ((touches_withEvents s rest).mono (by decide)) htouch,
      ⟨hframe.commands, hframe.others, hframe.supplies, hframe.turned⟩, fun hallowed => ?_, fun hsuspended => ?_⟩
    · rw [grantOnEvent_of_allowed (s := s.withEvents rest) ev hallowed]
      refine ⟨fun hbad hdemand hlow => ?_, fun hbad hdemand hlow hstate => ?_, fun hfine => ?_⟩
      · rw [if_pos hbad]
        exact testGrant_of_low hdemand hlow
      · rw [if_pos hbad]
        exact testGrant_of_unknown hdemand hlow hstate
      · obtain hev | hfine := hfine
        · rw [if_neg (not_or.mpr hev)]
          rfl
        · rw [testGrant_of_fine (s := s.withEvents rest) hfine, ite_self]
          rfl
    · rw [grantOnEvent_of_suspended (s := s.withEvents rest) ev hsuspended]
      refine ⟨fun hleave hcause => ?_, fun hstays => ?_⟩
      · have hends : ev = .lowLeave ∧ (s.withEvents rest).vdb.grant.cause ≠ some .supplyUnknown := ⟨hleave, hcause⟩
        rw [if_pos hends, allowGrant_eq, withGrant_grant]
        rfl
      · have hnot : ¬ (ev = .lowLeave ∧ (s.withEvents rest).vdb.grant.cause ≠ some .supplyUnknown) := fun ⟨hleave, hcause⟩ =>
          hstays.elim (fun h => h hleave) hcause
        rw [if_neg hnot]
        rfl
  · refine ⟨touches_grantOnDemand s, grantFrame_grantOnDemand s, fun hsuspended hdemand => ?_,
      fun hsuspended hdemand => ?_, fun hallowed hdemand => ?_, fun hallowed hdemand hlow => ?_,
      fun hallowed hdemand hlow hstate => ?_, fun hallowed hdemand hlow hfailed hoff => ?_⟩
    · rw [grantOnDemand_of_suspended hsuspended, if_pos hdemand, allowGrant_eq, withGrant_grant]
    · rw [grantOnDemand_of_suspended hsuspended, if_neg (Nat.not_lt.mpr hdemand)]
    · rw [grantOnDemand_of_allowed hallowed, testGrant_of_fine (.inl hdemand)]
    · rw [grantOnDemand_of_allowed hallowed, testGrant_of_low hdemand hlow]
    · rw [grantOnDemand_of_allowed hallowed, testGrant_of_unknown hdemand hlow hstate]
    · rw [grantOnDemand_of_allowed hallowed, testGrant_of_fine (.inr ⟨hlow, hfailed, hoff⟩)]

end Sys2Proof.Proofs
end

