-- ==== Sys2Proof/Proofs/SupplySwitches.lean ====
section
/-! SUPPORT. The supply switches (R55, R56) and the sequences that wait for them (R209 to R212): what an enabled or
falling supply does to its outputs, what the steps of the sequences write, and the statements about both ends. -/

namespace Sys2Proof.Proofs

open Sys2Proof Sys2Proof.Machine

/-! ## Many outputs driven anew -/

/-- An output's record rewritten by `f` and driven anew. -/
def driveAnew (f : OutRec → OutRec) (v : Vdb) (o : Output) : Vdb := (v.withOut o (f (v.outs.get o))).refresh o

/-- What an output is driven at depends on its own record and the supplies. -/
theorem refresh_get_congr {v w : Vdb} {o : Output} (hsupplies : v.supplies = w.supplies)
    (hout : v.outs.get o = w.outs.get o) : (v.refresh o).outs.get o = (w.refresh o).outs.get o := by
  have hpower : v.powered o = w.powered o := by rw [Vdb.powered, hsupplies, Vdb.powered]
  have hlost : v.windowLost o = w.windowLost o := by rw [Vdb.windowLost, hpower, hout, Vdb.windowLost]
  have hblocked : v.blocked o = w.blocked o := by rw [Vdb.blocked, hpower, hout, Vdb.blocked]
  rw [Vdb.refresh_get, Vdb.refresh_get, hpower, hlost, hblocked, hout]

section
variable (f : OutRec → OutRec) (v : Vdb)

theorem driveAnew_get_ne {o p : Output} (h : p ≠ o) : (driveAnew f v o).outs.get p = v.outs.get p := by
  rw [driveAnew, Vdb.refresh_get_ne _ h, Vdb.withOut_get, if_neg h]

theorem driveAnew_switches (o : Output) :
    (driveAnew f v o).supplies = v.supplies ∧ (driveAnew f v o).grant = v.grant :=
  ⟨Vdb.refresh_supplies _ _, Vdb.refresh_grant _ _⟩

theorem driveAnew_get_congr {v w : Vdb} {o : Output} (hsupplies : v.supplies = w.supplies)
    (hout : v.outs.get o = w.outs.get o) : (driveAnew f v o).outs.get o = (driveAnew f w o).outs.get o :=
  refresh_get_congr hsupplies (by simp [hout])

theorem foldl_driveAnew_switches (l : List Output) :
    (l.foldl (driveAnew f) v).supplies = v.supplies ∧ (l.foldl (driveAnew f) v).grant = v.grant := by
  induction l generalizing v with
  | nil => exact ⟨rfl, rfl⟩
  | cons o l ih =>
    obtain ⟨hsupplies, hgrant⟩ := driveAnew_switches f v o
    exact ⟨(ih _).1.trans hsupplies, (ih _).2.trans hgrant⟩

/-- Each output of the list is driven anew by itself. -/
theorem foldl_driveAnew_get (l : List Output) (hl : l.Nodup) (p : Output) :
    (l.foldl (driveAnew f) v).outs.get p = if p ∈ l then (driveAnew f v p).outs.get p else v.outs.get p := by
  induction l generalizing v with
  | nil => simp
  | cons o l ih =>
    obtain ⟨hfresh, hrest⟩ := List.nodup_cons.mp hl
    rw [List.foldl_cons, ih _ hrest]
    by_cases hp : p = o
    · subst hp
      simp [hfresh]
    · have hother := driveAnew_get_ne f v hp
      rw [driveAnew_get_congr f (driveAnew_switches f v o).1 hother, hother]
      simp [hp]
end

/-- An open count of 0 stands while an output is driven anew (R51). -/
theorem refresh_openCount_zero (v : Vdb) {o : Output} (h : (v.outs.get o).openCount = 0) :
    ((v.refresh o).outs.get o).openCount = 0 := by
  by_cases hlost : v.windowLost o = true <;> simp [Vdb.refresh_get, hlost, h]

theorem mem_outputsOf {x : Supply} {o : Output} : o ∈ outputsOf x ↔ o.supply = x := by
  simp [outputsOf, o.mem_all]

theorem nodup_outputsOf (x : Supply) : (outputsOf x).Nodup := Output.nodup_all.filter _

/-- An output of a supply that becomes ENABLED or falls. -/
theorem foldl_driveAnew_outputsOf (f : OutRec → OutRec) (x : Supply) (v : Vdb) (o : Output) :
    ((outputsOf x).foldl (driveAnew f) v).outs.get o =
      if o.supply = x then (driveAnew f v o).outs.get o else v.outs.get o := by
  simp only [foldl_driveAnew_get f v _ (nodup_outputsOf x), mem_outputsOf]

/-! ## A supply that becomes ENABLED (R55, R56) -/

/-- The VDB with a supply ENABLED, before its outputs are driven. -/
def switchedOn (x : Supply) (s : State) : Vdb :=
  { s.vdb with supplies := s.vdb.supplies.set x { s.supplyOf x with state := .enabled } }

/-- What an ENABLED supply makes of an output's record (log 19). -/
def countCleared (r : OutRec) : OutRec := { r with openCount := 0 }

theorem enableSupply_eq (x : Supply) (s : State) :
    enableSupply x s = s.withVdb ((outputsOf x).foldl (driveAnew countCleared) (switchedOn x s)) := rfl

theorem switchedOn_out (x : Supply) (s : State) (o : Output) : (switchedOn x s).outs.get o = s.out o := rfl

theorem touches_enableSupply (x : Supply) (s : State) : Touches [.vdb] s (enableSupply x s) := touches_withVdb s _

section
variable (x : Supply) (s : State)

theorem enableSupply_out (o : Output) : (enableSupply x s).out o =
    if o.supply = x then (driveAnew countCleared (switchedOn x s) o).outs.get o else s.out o := by
  rw [enableSupply_eq, State.withVdb_out, foldl_driveAnew_outputsOf, switchedOn_out]

theorem enableSupply_supplyOf (y : Supply) : (enableSupply x s).supplyOf y =
    if y = x then { s.supplyOf x with state := .enabled } else s.supplyOf y := by
  have hsupplies := (foldl_driveAnew_switches countCleared (switchedOn x s) (outputsOf x)).1
  rw [enableSupply_eq, State.supplyOf, State.withVdb_vdb, hsupplies]
  exact SupplyTable.get_set _ _ _ _

theorem enableSupply_grant : (enableSupply x s).vdb.grant = s.vdb.grant :=
  (foldl_driveAnew_switches countCleared (switchedOn x s) (outputsOf x)).2

theorem switchedOn_powered {o : Output} (ho : o.supply = x) : (switchedOn x s).powered o = true := by
  simp [switchedOn, Vdb.powered, ho]

theorem enableSupply_keeps (o : Output) :
    ((enableSupply x s).out o).command = (s.out o).command ∧ ((enableSupply x s).out o).short = (s.out o).short ∧
    ((enableSupply x s).out o).openFlag = (s.out o).openFlag ∧
    ((enableSupply x s).out o).withheld = (s.out o).withheld := by
  rw [enableSupply_out]
  split
  · obtain ⟨hcommand, hheld, hopen, hshort, -⟩ := ((switchedOn x s).withOut o
      (countCleared ((switchedOn x s).outs.get o))).refresh_keeps o o
    rw [Vdb.withOut_get, if_pos rfl] at hcommand hheld hopen hshort
    exact ⟨hcommand, hshort, hopen, hheld⟩
  · exact ⟨rfl, rfl, rfl, rfl⟩

/-- The outputs of the supply: R48 with the supply there. -/
theorem enableSupply_driven {o : Output} (ho : o.supply = x) :
    ((enableSupply x s).out o).openCount = 0 ∧
    ((s.out o).short = .none → (s.out o).withheld = false → o.onOff = false →
      ((enableSupply x s).out o).target = (s.out o).command) ∧
    ((s.out o).short = .none → (s.out o).withheld = false → o.onOff = true → (s.out o).command ≠ 0 →
      (s.out o).target = 0 →
      ((enableSupply x s).out o).target = 1500 ∧ ((enableSupply x s).out o).pullIn = some 0) ∧
    ((s.out o).short = .latched ∨ (s.out o).withheld = true → ((enableSupply x s).out o).target = 0) := by
  rw [enableSupply_out, if_pos ho, driveAnew]
  have hblocked := withOut_blocked o (countCleared (s.out o)) (switchedOn x s)
  rw [switchedOn_powered x s ho] at hblocked
  rw [switchedOn_out]
  refine ⟨?_, fun hshort hheld hprop => ?_, fun hshort hheld honoff hon hzero => ?_, fun hdead => ?_⟩
  · exact refresh_openCount_zero _ (by simp [countCleared])
  · have hfree : ((switchedOn x s).withOut o (countCleared (s.out o))).blocked o = false := by
      rw [hblocked]
      simp [countCleared, hshort, hheld]
    exact (Vdb.refresh_proportional _ o hfree hprop).trans (by simp [countCleared])
  · have hfree : ((switchedOn x s).withOut o (countCleared (s.out o))).blocked o = false := by
      rw [hblocked]
      simp [countCleared, hshort, hheld]
    exact Vdb.refresh_pullIn _ o hfree honoff (by simpa [countCleared] using hon) (by simpa [countCleared] using hzero)
  · have hdark : ((switchedOn x s).withOut o (countCleared (s.out o))).blocked o = true := by
      rw [hblocked]
      obtain h | h := hdead <;> simp [countCleared, h]
    exact (Vdb.refresh_blocked _ o hdark).1
end

/-! ## What the steps of a sequence write (R209 to R212) -/

theorem touches_setStep (x : SeqStep) (s : State) : Touches [.mc] s (setStep x s) := touches_withMc s _

theorem touches_setMode (m : Mode) (s : State) : Touches [.lc, .mc] s (setMode m s) :=
  also ((touches_withMc s _).mono (by decide)) (touches_publish _ _)

theorem touches_enterOperating (s : State) : Touches [.shc, .lc, .mc] s (enterOperating s) :=
  also (also ((touches_withShc s _).mono (by decide)) (touches_setStep _ _)) (touches_setMode _ _)

/-- Making a frame leaves the MC's record. -/
theorem publish_mc (g : Group) (s : State) : (publish g s).mc = s.mc := touches_publish g s .mc (by decide)

theorem serviceAnswer_mc (c g : Byte) (r : ServiceResult) (w : ServiceReason) (s : State) :
    (serviceAnswer c g r w s).mc = s.mc := touches_serviceAnswer c g r w s .mc (by decide)

theorem setMode_mc (m : Mode) (s : State) : (setMode m s).mc = { s.mc with mode := m } := publish_mc _ _

theorem enterOperating_mc (s : State) :
    (enterOperating s).mc = { s.mc with step := .idle, mode := .operating } := setMode_mc _ _

theorem enterOperating_shc (s : State) : (enterOperating s).shc = { s.shc with starting := true } :=
  touches_setMode _ _ .shc (by decide)

theorem finishRestart_of_tag {s : State} {tag : Byte} (h : s.mc.restartTag = some tag) :
    finishRestart s = serviceAnswer codeControlRestart tag .done .none
      (enterOperating (s.withMc { s.mc with restartTag := none })) := by
  simp only [finishRestart, h]

theorem finishRestart_of_none {s : State} (h : s.mc.restartTag = none) :
    finishRestart s = enterOperating (s.withMc { s.mc with restartTag := none }) := by
  simp only [finishRestart, h]

theorem touches_finishRestart (s : State) : Touches [.shc, .lc, .mc] s (finishRestart s) := by
  have hentered : Touches [.shc, .lc, .mc] s (enterOperating (s.withMc { s.mc with restartTag := none })) :=
    also ((touches_withMc s _).mono (by decide)) (touches_enterOperating _)
  unfold finishRestart
  dsimp only
  split
  · exact also hentered (touches_serviceAnswer _ _ _ _ _)
  · exact hentered

theorem finishRestart_mc (s : State) : (finishRestart s).mc =
    { s.mc with restartTag := none, step := .idle, mode := .operating } := by
  cases h : s.mc.restartTag with
  | none => rw [finishRestart_of_none h, enterOperating_mc]; rfl
  | some tag => rw [finishRestart_of_tag h, serviceAnswer_mc, enterOperating_mc]; rfl

theorem finishRestart_shc (s : State) : (finishRestart s).shc = { s.shc with starting := true } := by
  cases h : s.mc.restartTag with
  | none => rw [finishRestart_of_none h, enterOperating_shc]; rfl
  | some tag => rw [finishRestart_of_tag h, serviceAnswer_shc, enterOperating_shc]; rfl

/-! ## An answer behind other frames (R194, R198) -/

/-- A frame placed in a queue with room adds one entry at most. -/
theorem placeFrame_length_le (g : Group) (d : List Byte) {q : List TxEntry} (hroom : q.length < 8) :
    (placeFrame g d q).length ≤ q.length + 1 := by
  unfold placeFrame
  dsimp only
  split
  · simp
  · rw [if_pos (show q.length < maxQueue from hroom)]
    simp

theorem nextPage_queue (g : Group) (s : State) : (nextPage g s).lc.queue = s.lc.queue := by cases g <;> rfl

theorem nextPage_sendCounts (g : Group) (s : State) : (nextPage g s).lc.sendCounts = s.lc.sendCounts := by
  cases g <;> rfl

theorem nextPage_link (g : Group) (s : State) :
    (nextPage g s).lc.link = s.lc.link ∧ (nextPage g s).lc.quiet = s.lc.quiet := by
  cases g <;> exact ⟨rfl, rfl⟩

/-- What making a group's frame leaves of the link: its state, the send counts of the other groups, and at most
one entry more in a queue with room. -/
structure PublishedLink (g : Group) (s t : State) : Prop where
  link : t.lc.link = s.lc.link
  quiet : t.lc.quiet = s.lc.quiet
  counts : ∀ h : Group, h ≠ g → t.lc.sendCounts.get h = s.lc.sendCounts.get h
  room : s.lc.queue.length < 8 → t.lc.queue.length ≤ s.lc.queue.length + 1

theorem publishedLink (g : Group) (s : State) : PublishedLink g s (publish g s) := by
  unfold publish
  by_cases hmake : s.mayMake g = true
  · rw [if_pos hmake]
    obtain ⟨hlink, hquiet⟩ := nextPage_link g (makeFrame g (groupBytes g s) s)
    have hmade : makeFrame g (groupBytes g s) s = _ := if_pos hmake
    refine ⟨hlink.trans (by rw [hmade]; rfl), hquiet.trans (by rw [hmade]; rfl), fun h hne => ?_, fun hroom => ?_⟩
    · rw [nextPage_sendCounts, hmade]
      simp [hne]
    · rw [nextPage_queue, hmade]
      exact placeFrame_length_le g _ hroom
  · rw [if_neg hmake]
    exact ⟨rfl, rfl, fun _ _ => rfl, fun _ => Nat.le_succ _⟩

/-- An answer is made in another state than the request's: the link still lets it be made, the send count of
results is as it was, and the queue has room for it. -/
theorem answered_of_link {code tag : Byte} {r : ServiceResult} {why : ServiceReason} {s u : State}
    (hmake : s.mayMake .serviceResult = true → u.mayMake .serviceResult = true)
    (hcount : u.lc.sendCounts.get .serviceResult = s.lc.sendCounts.get .serviceResult)
    (hroom : s.lc.queue.length < 7 → u.lc.queue.length < 8) :
    Answered code tag r why s (serviceAnswer code tag r why u) := by
  intro hmay hfew
  have hanswer := answered_serviceAnswer code tag r why (s := u) (u := u) rfl rfl (hmake hmay)
  simp only [serviceAnswer, makeFrame, hmake hmay, if_true, Queued, State.withLc_lc, ← hcount]
  exact exists_mem_placeFrame _ _ (hroom hfew)

/-- The link lets a result be made where it lets any, while the mode allows one. -/
theorem mayMake_serviceResult_of_link {s u : State} (hlink : u.lc.link = s.lc.link)
    (hallows : modeAllows u.mc.mode u.lc.quiet .serviceResult = true)
    (h : s.mayMake .serviceResult = true) : u.mayMake .serviceResult = true := by
  simp only [State.mayMake, Bool.and_eq_true] at h ⊢
  exact ⟨by rw [hlink]; exact h.1, hallows⟩

end Sys2Proof.Proofs
end

