-- ==== Sys2Proof/Proofs/SupplyRise.lean ====
section
/-! SUPPORT. The ends of a supply's rise and fall (R55, R56) with the sequence that waits for each (R209 to R212), and
the statements about SUPPLY_RISE_COMPLETE and SUPPLY_FALL_COMPLETE. -/

namespace Sys2Proof.Proofs

open Sys2Proof Sys2Proof.Machine

/-! ## On and off requests (R55) -/

section
variable (x : Supply) (s : State)

theorem onRequest_outs : (onRequest x s).vdb.outs = s.vdb.outs := by
  unfold onRequest
  dsimp only
  split <;> rfl

theorem onRequest_grant : (onRequest x s).vdb.grant = s.vdb.grant := by
  unfold onRequest
  dsimp only
  split <;> rfl

theorem withSupply_supplyOf (r : SupplyRec) (y : Supply) :
    (s.withSupply x r).supplyOf y = if y = x then r else s.supplyOf y := SupplyTable.get_set _ _ _ _

theorem onRequest_supplyOf_ne {y : Supply} (h : y ≠ x) : (onRequest x s).supplyOf y = s.supplyOf y := by
  unfold onRequest
  dsimp only
  split <;> simp [withSupply_supplyOf, h]

theorem onRequest_of_off (h : (s.supplyOf x).state = .off) : ((onRequest x s).supplyOf x).state = .rising := by
  simp [onRequest, h, withSupply_supplyOf]
end

/-! ## A supply that has risen -/

theorem exec_supplyRiseComplete {x : Supply} {s : State} (hrising : (s.supplyOf x).state = .rising)
    (hlong : 20000 ≤ (s.supplyOf x).settle) :
    exec (.supplyRiseComplete x) s = .next (stepAfterRise x (enableSupply x s)) := by
  have hover : riseOver x s = true := by simp [riseOver, riseUs, hrising, hlong]
  exact congrArg Host.Outcome.next (if_pos hover)

/-- What the waiting sequence leaves of the bank: outputs, grant and the supply that has risen. -/
structure RiseKeeps (x : Supply) (s t : State) : Prop where
  outs : t.vdb.outs = s.vdb.outs
  grant : t.vdb.grant = s.vdb.grant
  supply : t.supplyOf x = s.supplyOf x

theorem riseKeeps_onRequest (x : SeqStep) (s : State) : RiseKeeps .vsa s (onRequest .vsb (setStep x s)) where
  outs := onRequest_outs _ _
  grant := onRequest_grant _ _
  supply := onRequest_supplyOf_ne _ _ (by decide)

theorem riseKeeps_of_vdb {x : Supply} {s t : State} (h : t.vdb = s.vdb) : RiseKeeps x s t where
  outs := congrArg Vdb.outs h
  grant := congrArg Vdb.grant h
  supply := congrArg (fun v : Vdb => v.supplies.get x) h

theorem stepAfterRise_keeps (x : Supply) (s : State) : RiseKeeps x s (stepAfterRise x s) := by
  unfold stepAfterRise
  split
  · exact riseKeeps_onRequest _ s
  · exact riseKeeps_onRequest _ s
  · exact riseKeeps_of_vdb (touches_finishRestart s .vdb (by decide))
  · exact riseKeeps_of_vdb rfl

theorem stepAfterRise_of_idle {x : Supply} {s : State} (h : s.mc.step = .idle) : stepAfterRise x s = s := by
  simp only [stepAfterRise, h]

theorem stepAfterRise_of_calVsb {x : Supply} {s : State} (h : s.mc.step = .calVsb) : stepAfterRise x s = s := by
  simp only [stepAfterRise, h]

theorem stepAfterRise_vsa {s : State} (h : s.mc.step = .calVsa ∨ s.mc.step = .onVsa) : stepAfterRise .vsa s =
    onRequest .vsb (setStep (if s.mc.step = .calVsa then .calVsb else .onVsb) s) := by
  obtain h | h := h <;> simp [stepAfterRise, h]

theorem stepAfterRise_onVsb {s : State} (h : s.mc.step = .onVsb) : stepAfterRise .vsb s = finishRestart s := by
  simp only [stepAfterRise, h]

theorem onRequest_mc (x : Supply) (s : State) : (onRequest x s).mc = s.mc := touches_onRequest x s .mc (by decide)

/-- What the end of a restart answers to the request that began it (R212). -/
theorem answered_finishRestart {s u : State} {tag : Byte} (htag : s.mc.restartTag = some tag) (hmc : u.mc = s.mc)
    (hlc : u.lc = s.lc) : Answered 4 tag .done .none s (finishRestart u) := by
  rw [finishRestart_of_tag (hmc ▸ htag)]
  have hentered : (enterOperating (u.withMc { u.mc with restartTag := none })).mc.mode = .operating :=
    congrArg Mc.mode (enterOperating_mc _)
  obtain ⟨hlink, hquiet, hcounts, hroom⟩ := publishedLink .identity
    ((setStep .idle ((u.withMc { u.mc with restartTag := none }).withShc { u.shc with starting := true })).withMc
      { u.mc with restartTag := none, step := .idle, mode := .operating })
  refine answered_of_link (mayMake_serviceResult_of_link (hlink.trans (congrArg Lc.link hlc)) ?_)
    ((hcounts .serviceResult (by decide)).trans (by rw [← hlc]; rfl)) fun hfew => ?_
  · rw [hentered]
    rfl
  · rw [← hlc] at hfew
    exact (hroom (Nat.lt_succ_of_lt hfew)).trans_lt (Nat.succ_lt_succ hfew)

/-- CALIBRATING_COMPLETE is due (R209). -/
theorem calibratingOver_iff (s : State) : calibratingOver s = true ↔ s.mc.mode = .calibrating ∧
    s.mc.windowEnded = true ∧ (s.supplyOf .vsb).state = .enabled ∧ (s.sfe.cal.state = .done ∨ s.sfe.cal.state = .failed) := by
  simp [calibratingOver, and_assoc]

theorem exec_calibratingComplete (s : State) :
    exec .calibratingComplete s = .next (if calibratingOver s then enterOperating s else s) := rfl

/-- Settles O10: the supply's outputs are driven, and the sequence steps on by what it waits for. -/
theorem supplyRiseDrivesOutputs : Obligations.SupplyRiseDrivesOutputs := by
  intro x s hrising hlong
  have hout (o : Output) : (stepAfterRise x (enableSupply x s)).out o = (enableSupply x s).out o :=
    congrArg (OutputTable.get · o) (stepAfterRise_keeps x _).outs
  have hmc : (enableSupply x s).mc = s.mc := rfl
  refine ⟨_, exec_supplyRiseComplete hrising hlong, ?_, fun o => ?_, fun o ho => ?_, fun o ho => ?_, ?_, fun hidle => ?_,
    fun hx hstep => ?_, fun hx hstep => ?_, fun hx hstep => ?_⟩
  · rw [(stepAfterRise_keeps x _).supply, enableSupply_supplyOf, if_pos rfl]
  · rw [hout]
    exact enableSupply_keeps x s o
  · rw [hout]
    exact enableSupply_driven x s ho
  · rw [hout, enableSupply_out, if_neg ho]
  · exact (stepAfterRise_keeps x _).grant.trans (enableSupply_grant x s)
  · rw [stepAfterRise_of_idle (hmc ▸ hidle)]
    exact ⟨touches_enableSupply x s, fun y hy => by rw [enableSupply_supplyOf, if_neg hy]⟩
  · subst hx
    rw [stepAfterRise_vsa (hmc ▸ hstep), hmc]
    refine ⟨congrArg Mc.step (onRequest_mc _ _), fun hoff => onRequest_of_off _ _ ?_,
      also ((touches_enableSupply .vsa s).then (touches_setStep _ _)) (touches_onRequest _ _)⟩
    exact (congrArg SupplyRec.state (enableSupply_supplyOf .vsa s .vsb)).trans hoff
  · subst hx
    rw [stepAfterRise_onVsb (hmc ▸ hstep), finishRestart_mc, finishRestart_shc]
    exact ⟨rfl, rfl, rfl, rfl, rfl, fun tag htag => answered_finishRestart htag rfl rfl,
      also ((touches_enableSupply .vsb s).mono (by decide)) (touches_finishRestart _)⟩
  · subst hx
    rw [stepAfterRise_of_calVsb (hmc ▸ hstep)]
    refine ⟨touches_enableSupply .vsb s, by rw [enableSupply_supplyOf, if_neg (by decide)], ?_, fun ends hends => ?_⟩
    · have hnot : ¬ calibratingOver s = true := by simp [calibratingOver_iff, hrising]
      rw [exec_calibratingComplete, if_neg hnot]
    · have hover : calibratingOver (enableSupply .vsb s) = true ↔ ends := by
        rw [calibratingOver_iff, enableSupply_supplyOf, if_pos rfl, hends]
        exact ⟨fun ⟨hmode, hwindow, _, hcal⟩ => ⟨hmode, hwindow, hcal⟩,
          fun ⟨hmode, hwindow, hcal⟩ => ⟨hmode, hwindow, rfl, hcal⟩⟩
      refine ⟨fun h => ⟨enterOperating (enableSupply .vsb s), ?_, ?_, ?_, ?_, touches_enterOperating _⟩, fun h => ?_⟩
      · rw [exec_calibratingComplete, if_pos (hover.mpr h)]
      · rw [enterOperating_mc]
      · rw [enterOperating_mc]
      · rw [enterOperating_shc]
      · rw [exec_calibratingComplete, if_neg (mt hover.mp h)]

end Sys2Proof.Proofs
end

