-- ==== Sys2Proof/Proofs/SupplyFall.lean ====
section
/-! SUPPORT. The end of a supply's fall (R55): the off request of the next supply, DORMANT (R211), the control-restart
values of the blocks (R61, R99, R114, R143, R166, R178), and the statement about SUPPLY_FALL_COMPLETE. -/

namespace Sys2Proof.Proofs

open Sys2Proof Sys2Proof.Machine

/-! ## The off request (R55, R56) -/

/-- What the fall of its supply makes of an output's record. -/
def commandCleared (r : OutRec) : OutRec := { r with command := 0 }

theorem dropCommands_eq (x : Supply) (v : Vdb) : dropCommands x v = (outputsOf x).foldl (driveAnew commandCleared) v := rfl

/-- An output whose command is dropped is not driven. -/
theorem driveAnew_commandCleared (v : Vdb) (o : Output) :
    ((driveAnew commandCleared v o).outs.get o).command = 0 ∧
    ((driveAnew commandCleared v o).outs.get o).target = 0 := by
  have hrec : ((v.withOut o (commandCleared (v.outs.get o))).outs.get o).command = 0 := by simp [commandCleared]
  refine ⟨(Vdb.refresh_keeps _ o o).1.trans hrec, ?_⟩
  unfold driveAnew
  cases hblocked : (v.withOut o (commandCleared (v.outs.get o))).blocked o with
  | true => exact (Vdb.refresh_blocked _ o hblocked).1
  | false =>
    cases honoff : o.onOff with
    | true => exact Vdb.refresh_off _ o honoff hrec
    | false => rw [Vdb.refresh_proportional _ o hblocked honoff, hrec]

/-- An off request to a supply that is up. -/
theorem offRequest_of_up {x : Supply} {s : State} (h : (s.supplyOf x).state = .enabled ∨ (s.supplyOf x).state = .rising) :
    offRequest x s = s.withVdb (dropCommands x
      (s.withSupply x { s.supplyOf x with state := .falling, settle := 0 }).vdb) := by
  obtain h | h := h <;> simp only [offRequest, h] <;> rfl

section
variable {x : Supply} {s : State} (h : (s.supplyOf x).state = .enabled ∨ (s.supplyOf x).state = .rising)
include h

theorem offRequest_out_of_up (o : Output) : (offRequest x s).out o =
    if o.supply = x
    then (driveAnew commandCleared (s.withSupply x { s.supplyOf x with state := .falling, settle := 0 }).vdb o).outs.get o
    else s.out o := by
  rw [offRequest_of_up h, State.withVdb_out, dropCommands_eq, foldl_driveAnew_outputsOf]
  rfl

theorem offRequest_supplyOf_of_up (y : Supply) : (offRequest x s).supplyOf y =
    if y = x then { s.supplyOf x with state := .falling, settle := 0 } else s.supplyOf y := by
  rw [offRequest_of_up h, State.supplyOf, State.withVdb_vdb, dropCommands_eq, (foldl_driveAnew_switches _ _ _).1]
  exact withSupply_supplyOf _ _ _ _

theorem offRequest_undriven_of_up {o : Output} (ho : o.supply = x) :
    ((offRequest x s).out o).command = 0 ∧ ((offRequest x s).out o).target = 0 := by
  rw [offRequest_out_of_up h, if_pos ho]
  exact driveAnew_commandCleared _ o
end

theorem offRequest_mc (x : Supply) (s : State) : (offRequest x s).mc = s.mc := touches_offRequest x s .mc (by decide)

/-! ## The switch falls -/

section
variable (x : Supply) (s : State)

theorem finishFall_of_pending (h : (s.supplyOf x).pendingOn = true) :
    finishFall x s = s.withSupply x { state := .rising, settle := 0, pendingOn := false } := if_pos h

theorem finishFall_of_none (h : (s.supplyOf x).pendingOn = false) :
    finishFall x s = s.withSupply x { s.supplyOf x with state := .off } := if_neg (by simp [h])

theorem completeFall_of_pending (h : (s.supplyOf x).pendingOn = true) :
    completeFall x s = s.withSupply x { state := .rising, settle := 0, pendingOn := false } := by
  rw [completeFall, finishFall_of_pending x s h]
  exact if_neg (by simp [withSupply_supplyOf])

theorem completeFall_of_none (h : (s.supplyOf x).pendingOn = false) :
    completeFall x s = stepAfterFall x (s.withSupply x { s.supplyOf x with state := .off }) := by
  rw [completeFall, finishFall_of_none x s h]
  exact if_pos (by simp [withSupply_supplyOf])
end

theorem exec_supplyFallComplete {x : Supply} {s : State} (k : Bool) (hfalling : (s.supplyOf x).state = .falling)
    (hlong : 10000 ≤ (s.supplyOf x).settle) :
    exec (.supplyFallComplete x k) s = .next (completeFall x (presentCoupling k s)) := by
  have hover : fallOver x s = true := by simp [fallOver, fallUs, hfalling, hlong]
  exact congrArg Host.Outcome.next (if_pos hover)

/-! ## What the sequence does where the supply stays OFF -/

section
variable {s : State}

theorem stepAfterFall_of_idle (x : Supply) (h : s.mc.step = .idle) : stepAfterFall x s = s := by
  unfold stepAfterFall
  rw [h]

theorem stepAfterFall_stopVsb (h : s.mc.step = .stopVsb) :
    stepAfterFall .vsb s = offRequest .vsa (setStep .stopVsa s) := by
  unfold stepAfterFall
  rw [h]

theorem stepAfterFall_offVsb (h : s.mc.step = .offVsb) :
    stepAfterFall .vsb s = offRequest .vsa (setStep .offVsa s) := by
  unfold stepAfterFall
  rw [h]

theorem stepAfterFall_stopVsa (h : s.mc.step = .stopVsa) : stepAfterFall .vsa s = enterDormant s := by
  unfold stepAfterFall
  rw [h]

theorem stepAfterFall_offVsa (h : s.mc.step = .offVsa) :
    stepAfterFall .vsa s = onRequest .vsa (setStep .onVsa (restartBlocks s)) := by
  unfold stepAfterFall
  rw [h]
end

/-! ## DORMANT (R211) -/

theorem touches_dropUntaken (s : State) : Touches [.events, .requests] s (dropUntaken s) :=
  (touches_withEvents s _).then (touches_withRequests _ _)

/-- No frame is made in DORMANT. -/
theorem setMode_dormant (s : State) : setMode .dormant s = s.withMc { s.mc with mode := .dormant } := by
  have hsilent : (s.withMc { s.mc with mode := .dormant }).mayMake .identity = false := Bool.and_false _
  exact if_neg (by simp [hsilent])

/-- Entry to DORMANT, record by record. -/
theorem enterDormant_records (s : State) :
    (enterDormant s).vdb = s.vdb ∧ (enterDormant s).lc = s.lc.offOrder ∧
    (enterDormant s).scu = { s.scu with acc := 0, pulseHigh := false, pulseAge := 0 } ∧
    (enterDormant s).mc = { s.mc with step := .idle, mode := .dormant } ∧ (enterDormant s).events = [] := by
  have hmode := setMode_dormant ((stopScu (offOrder (setStep .idle s))).withShc { s.shc with parkOrder := false })
  have hdormant : enterDormant s = (dropUntaken (setMode .dormant
    ((stopScu (offOrder (setStep .idle s))).withShc { s.shc with parkOrder := false }))).withEvents [] := rfl
  rw [hdormant, hmode]
  simp [dropUntaken, stopScu, offOrder, setStep]

/-! ## The control-restart values -/

theorem foldl_restartOutput_out (l : List Output) (s : State) (o : Output) :
    (l.foldl restartOutput s).out o = if o ∈ l then .reset else s.out o := by
  induction l generalizing s with
  | nil => simp
  | cons p l ih =>
    rw [List.foldl_cons, ih, FrontAxle.restartOutput_out]
    by_cases ho : o = p <;> simp [ho]

/-- What clearing faults leaves of the MC's record. -/
structure ClearsOnly (s t : State) : Prop where
  full : t.mc.full = s.mc.full
  seconds : t.mc.seconds = s.mc.seconds
  step : t.mc.step = s.mc.step
  mode : t.mc.mode = s.mc.mode

theorem clearsOnly_refl (s : State) : ClearsOnly s s := ⟨rfl, rfl, rfl, rfl⟩

theorem clearsOnly_clear {s t : State} (c : FaultCode) (h : ClearsOnly s t) : ClearsOnly s (clearFault c t) :=
  ⟨h.full, h.seconds, h.step, h.mode⟩

theorem clearsOnly_of_mc {s t u : State} (h : ClearsOnly s t) (hmc : u.mc = t.mc) : ClearsOnly s u := by
  obtain ⟨hfull, hseconds, hstep, hmode⟩ := h
  exact ⟨(congrArg Mc.full hmc).trans hfull, (congrArg Mc.seconds hmc).trans hseconds,
    (congrArg Mc.step hmc).trans hstep, (congrArg Mc.mode hmc).trans hmode⟩

theorem clearsOnly_trans {s t u : State} (h : ClearsOnly s t) (k : ClearsOnly t u) : ClearsOnly s u :=
  ⟨k.full.trans h.full, k.seconds.trans h.seconds, k.step.trans h.step, k.mode.trans h.mode⟩

theorem clearsOnly_also {l : List Part} {s t u : State} (h : ClearsOnly s t) (k : Touches l t u)
    (hl : .mc ∉ l := by decide) : ClearsOnly s u := clearsOnly_of_mc h (k .mc hl)

/-- What a restart of the outputs leaves: the supplies, the grant, and of the MC all but the table's entries. -/
structure RestartsOutputs (s t : State) : Prop where
  touched : Touches [.vdb, .mc] s t
  switches : t.vdb.supplies = s.vdb.supplies ∧ t.vdb.grant = s.vdb.grant
  mc : ClearsOnly s t

theorem restartsOutputs_restartOutput {s t : State} (o : Output) (h : RestartsOutputs s t) :
    RestartsOutputs s (restartOutput t o) := by
  have hclear {u : State} (c : FaultCode) (hu : RestartsOutputs s u) : RestartsOutputs s (clearFault c u) :=
    ⟨also hu.touched (touches_clearFault c u), hu.switches, clearsOnly_clear c hu.mc⟩
  have hout {u : State} (hu : RestartsOutputs s u) : RestartsOutputs s (u.withOut o .reset) :=
    ⟨also hu.touched (touches_withVdb u _), hu.switches, clearsOnly_also hu.mc (touches_withVdb u _)⟩
  have hopen : RestartsOutputs s (if (t.out o).openFlag then clearFault (.outOpen o) t else t) :=
    holds_ite (P := RestartsOutputs s) (hclear _ h) h
  exact hout (holds_ite (P := RestartsOutputs s) (hclear _ hopen) hopen)

theorem restartsOutputs_foldl (s : State) : RestartsOutputs s (Output.all.foldl restartOutput s) :=
  holds_foldl (P := RestartsOutputs s) (fun _ o => restartsOutputs_restartOutput o) _
    ⟨.refl _ s, ⟨rfl, rfl⟩, clearsOnly_refl s⟩

section
variable (s : State)

/-- The restart of the VDB is that of its outputs and an ALLOWED grant. -/
theorem restartVdb_eq : ∃ u, RestartsOutputs s u ∧ (∀ o, u.out o = .reset) ∧
    restartVdb s = u.withVdb { u.vdb with grant := { u.vdb.grant with suspended := false, cause := none } } :=
  ⟨_, restartsOutputs_foldl s, fun o => (foldl_restartOutput_out Output.all s o).trans (if_pos o.mem_all), rfl⟩

theorem restartVdb_out (o : Output) : (restartVdb s).out o = .reset := by
  obtain ⟨u, -, hreset, heq⟩ := restartVdb_eq s
  rw [heq]
  exact hreset o

theorem restartVdb_supplies : (restartVdb s).vdb.supplies = s.vdb.supplies := by
  obtain ⟨u, hu, -, heq⟩ := restartVdb_eq s
  rw [heq]
  exact hu.switches.1

theorem restartVdb_grant : (restartVdb s).vdb.grant = ⟨false, none, s.vdb.grant.count⟩ := by
  obtain ⟨u, hu, -, heq⟩ := restartVdb_eq s
  rw [heq, State.withVdb_vdb, hu.switches.2]

theorem touches_restartVdb : Touches [.vdb, .mc] s (restartVdb s) := by
  obtain ⟨u, hu, -, heq⟩ := restartVdb_eq s
  rw [heq]
  exact also hu.touched (touches_withVdb u _)

theorem clearsOnly_restartVdb : ClearsOnly s (restartVdb s) := by
  obtain ⟨u, hu, -, heq⟩ := restartVdb_eq s
  rw [heq]
  exact clearsOnly_also hu.mc (touches_withVdb u _)

theorem restartTbc_tbc : (restartTbc s).tbc = .reset s.pins.coupling s.sfe.chans.tcl s.sfe.chans.tsl := by
  unfold restartTbc
  dsimp only
  split
  · exact touches_publish _ _ .tbc (by decide)
  · rfl

theorem clearsOnly_restartTbc : ClearsOnly s (restartTbc s) := by
  unfold restartTbc
  dsimp only
  split
  · exact clearsOnly_also (clearsOnly_also (clearsOnly_clear _ (clearsOnly_refl s)) (touches_withTbc _ _))
      (touches_publish _ _)
  · exact clearsOnly_also (clearsOnly_refl s) (touches_withTbc _ _)

/-- The blocks before the TBC's own restart. -/
def restartedBefore : State := restartHtc ((restartShc (restartVdb s)).withFdc .reset)

theorem restartBlocks_eq : restartBlocks s = (restartTbc (restartedBefore s)).withHsq .reset := rfl

theorem touches_restartedBefore : Touches [.vdb, .shc, .fdc, .htc, .mc] s (restartedBefore s) :=
  also (also (also ((touches_restartVdb s).mono (by decide)) (touches_withShc _ _)) (touches_withFdc _ _))
    (touches_withHtc _ _)

/-- A part that the last two restarts leave is as the restarts before them made it. -/
theorem restartBlocks_later (p : Part) (hp : p ∉ [Part.tbc, .lc, .mc, .hsq]) :
    p.same (restartedBefore s) (restartBlocks s) :=
  ((FrontAxle.touches_restartTbc _).then (touches_withHsq _ _)) p hp

theorem touches_restartBlocks : Touches [.vdb, .shc, .fdc, .htc, .tbc, .hsq, .lc, .mc] s (restartBlocks s) :=
  also (also ((touches_restartedBefore s).mono (by decide)) (FrontAxle.touches_restartTbc _)) (touches_withHsq _ _)

theorem restartBlocks_vdb : (restartBlocks s).vdb = (restartVdb s).vdb := by
  rw [show (restartBlocks s).vdb = (restartedBefore s).vdb from restartBlocks_later s .vdb (by decide)]
  simp [restartedBefore, restartHtc, restartShc]

theorem restartBlocks_shc :
    (restartBlocks s).shc = .reset s.shc.learnedTimes (some s.cfg.startGear) s.shc.shuttleMap := by
  have hshc := touches_restartVdb s .shc (by decide)
  have hcfg := touches_restartVdb s .cfg (by decide)
  rw [show (restartBlocks s).shc = (restartedBefore s).shc from restartBlocks_later s .shc (by decide)]
  simp only [restartedBefore, restartHtc, restartShc, State.withHtc_shc, State.withFdc_shc, State.withShc_shc]
  rw [show (restartVdb s).shc = s.shc from hshc, show (restartVdb s).cfg = s.cfg from hcfg]

theorem restartBlocks_fdc : (restartBlocks s).fdc = .reset := by
  rw [show (restartBlocks s).fdc = (restartedBefore s).fdc from restartBlocks_later s .fdc (by decide)]
  simp [restartedBefore, restartHtc]

theorem htc_read_congr {t : State} (h : Htc) (hsfe : t.sfe = s.sfe) : h.read t = h.read s := by
  simp only [Htc.read, pinsValid, hsfe]

theorem restartBlocks_htc : (restartBlocks s).htc = Htc.reset.read s := by
  rw [show (restartBlocks s).htc = (restartedBefore s).htc from restartBlocks_later s .htc (by decide)]
  simp only [restartedBefore, restartHtc, State.withHtc_htc]
  refine htc_read_congr s .reset ?_
  rw [State.withFdc_sfe, restartShc, State.withShc_sfe]
  exact touches_restartVdb s .sfe (by decide)

theorem restartBlocks_tbc : (restartBlocks s).tbc = .reset s.pins.coupling s.sfe.chans.tcl s.sfe.chans.tsl := by
  have hsfe : (restartedBefore s).sfe = s.sfe := touches_restartedBefore s .sfe (by decide)
  have hpins : (restartedBefore s).pins = s.pins := touches_restartedBefore s .pins (by decide)
  rw [restartBlocks_eq, State.withHsq_tbc, restartTbc_tbc, hsfe, hpins]

theorem clearsOnly_restartBlocks : ClearsOnly s (restartBlocks s) := by
  have hmc : (restartedBefore s).mc = (restartVdb s).mc := by simp [restartedBefore, restartHtc, restartShc]
  have hbefore := clearsOnly_of_mc (clearsOnly_restartVdb s) hmc
  have hend : (restartBlocks s).mc = (restartTbc (restartedBefore s)).mc := by rw [restartBlocks_eq, State.withHsq_mc]
  exact clearsOnly_of_mc (clearsOnly_trans hbefore (clearsOnly_restartTbc _)) hend
end

/-! ## The statement -/

theorem learned_of_reset (learned : ClutchTable Nat) (start : Option Gear) (map : List (Gear × Gear)) (y : Clutch) :
    ((Shc.reset learned start map).clutches.get y).learned = learned.get y ∧
    ((Shc.reset learned start map).clutches.get y).state = .off := by
  simp [Shc.reset, ClutchRec.reset]

/-- The state with a supply's switch open and the coupling line at the level read. -/
def fallenOff (x : Supply) (k : Bool) (s : State) : State :=
  (presentCoupling k s).withSupply x { s.supplyOf x with state := .off }

section
variable (x : Supply) (k : Bool) (s : State)

theorem touches_fallenOff : Touches [.pins, .vdb] s (fallenOff x k s) :=
  (touches_withPins s { s.pins with coupling := k }).then (touches_withVdb _ _)

theorem fallenOff_supplyOf (y : Supply) : (fallenOff x k s).supplyOf y =
    if y = x then { s.supplyOf x with state := .off } else s.supplyOf y := withSupply_supplyOf _ _ _ _

theorem completeFall_presentCoupling (h : (s.supplyOf x).pendingOn = false) :
    completeFall x (presentCoupling k s) = stepAfterFall x (fallenOff x k s) := completeFall_of_none x _ h

/-- Whatever follows the fall, the lines stand as presented. -/
theorem stepAfterFall_pins (u : State) : (stepAfterFall x u).pins = u.pins := by
  unfold stepAfterFall
  split
  · exact touches_offRequest _ _ .pins (by decide)
  · simp [enterDormant, dropUntaken, setMode_dormant, stopScu, offOrder, setStep]
  · exact touches_offRequest _ _ .pins (by decide)
  · have hblocks : (restartBlocks u).pins = u.pins := touches_restartBlocks u .pins (by decide)
    have hrequest : (onRequest .vsa (setStep .onVsa (restartBlocks u))).pins = (setStep .onVsa (restartBlocks u)).pins :=
      touches_onRequest _ _ .pins (by decide)
    rw [hrequest, setStep, State.withMc_pins, hblocks]
  · rfl
end

/-- Settles O11: a pending on request, or the step of the sequence, decides what follows the fall. -/
theorem supplyFallStepsSequence : Obligations.SupplyFallStepsSequence := by
  intro x k s hfalling hlong
  refine ⟨_, exec_supplyFallComplete k hfalling hlong, ?_, fun hpending => ?_, fun hnone => ?_⟩
  · cases hpending : (s.supplyOf x).pendingOn with
    | true => rw [completeFall_of_pending x (presentCoupling k s) hpending]; rfl
    | false => rw [completeFall_presentCoupling x k s hpending, stepAfterFall_pins]; rfl
  · rw [completeFall_of_pending x (presentCoupling k s) hpending]
    exact ⟨by simp [withSupply_supplyOf], rfl,
      (touches_withPins s { s.pins with coupling := k }).then (touches_withVdb _ _)⟩
  · rw [completeFall_presentCoupling x k s hnone]
    have htouch := touches_fallenOff x k s
    have hmc : (fallenOff x k s).mc = s.mc := rfl
    have hsupply := fallenOff_supplyOf x k s
    have houts : (fallenOff x k s).vdb.outs = s.vdb.outs := rfl
    have hcoupling : (fallenOff x k s).pins.coupling = k := rfl
    have hgrant : (fallenOff x k s).vdb.grant = s.vdb.grant := rfl
    generalize fallenOff x k s = u at htouch hmc hsupply houts hcoupling hgrant ⊢
    refine ⟨fun hidle => ?_, fun hx hstep hup => ?_, fun hx hstep => ?_, fun hx hstep => ?_⟩
    · rw [stepAfterFall_of_idle x (hmc ▸ hidle), hsupply, if_pos rfl]
      exact ⟨rfl, houts, htouch⟩
    · subst hx
      have hup' : (u.supplyOf .vsa).state = .enabled := by rw [hsupply, if_neg (by decide), hup]
      have hnext (w : SeqStep) (hw : stepAfterFall .vsb u = offRequest .vsa (setStep w u)) :
          (stepAfterFall .vsb u).mc.step = w ∧ ((stepAfterFall .vsb u).supplyOf .vsb).state = .off ∧
          ((stepAfterFall .vsb u).supplyOf .vsa).state = .falling ∧
          (∀ o : Output, o.supply = .vsa →
            ((stepAfterFall .vsb u).out o).command = 0 ∧ ((stepAfterFall .vsb u).out o).target = 0) ∧
          Touches [.pins, .vdb, .mc] s (stepAfterFall .vsb u) := by
        have hup'' : ((setStep w u).supplyOf .vsa).state = .enabled ∨ ((setStep w u).supplyOf .vsa).state = .rising :=
          .inl hup'
        rw [hw, offRequest_mc, offRequest_supplyOf_of_up hup'', offRequest_supplyOf_of_up hup'']
        refine ⟨rfl, ?_, rfl, fun o ho => offRequest_undriven_of_up hup'' ho,
          also (also (htouch.mono (by decide)) (touches_setStep w u)) (touches_offRequest _ _)⟩
        exact congrArg SupplyRec.state ((hsupply .vsb).trans (if_pos rfl))
      obtain hstep | hstep := hstep
      · simpa [hstep] using hnext .stopVsa (stepAfterFall_stopVsb (hmc ▸ hstep))
      · simpa [hstep] using hnext .offVsa (stepAfterFall_offVsb (hmc ▸ hstep))
    · subst hx
      rw [stepAfterFall_stopVsa (hmc ▸ hstep)]
      obtain ⟨hvdb, hlc, hscu, hdormant, -⟩ := enterDormant_records u
      have hnow : (enterDormant u).supplyOf .vsa = u.supplyOf .vsa := congrArg (fun v : Vdb => v.supplies.get .vsa) hvdb
      rw [hnow, hsupply, if_pos rfl, hvdb, hlc, hscu, hdormant, hmc]
      refine ⟨rfl, rfl, rfl, rfl, ?_, rfl, rfl, rfl, houts⟩
      show (if u.lc.link = .conflict then LinkState.conflict else .offline) ≠ .active
      split <;> decide
    · subst hx
      rw [stepAfterFall_offVsa (hmc ▸ hstep)]
      have hblocks := clearsOnly_restartBlocks u
      have hframe := touches_restartBlocks u
      have hvdb := restartBlocks_vdb u
      have hshc := restartBlocks_shc u
      have hfdc := restartBlocks_fdc u
      have hhtc := restartBlocks_htc u
      have htbc := restartBlocks_tbc u
      have hhsq : (restartBlocks u).hsq = .reset := by rw [restartBlocks_eq, State.withHsq_hsq]
      have hscu : (restartBlocks u).scu = s.scu := Eq.trans (hframe .scu (by decide)) (htouch .scu (by decide))
      have hsfe : (restartBlocks u).sfe = s.sfe := Eq.trans (hframe .sfe (by decide)) (htouch .sfe (by decide))
      have husfe : u.sfe = s.sfe := htouch .sfe (by decide)
      have hushc : u.shc = s.shc := htouch .shc (by decide)
      have hucfg : u.cfg = s.cfg := htouch .cfg (by decide)
      have hreset := restartVdb_out u
      have hswitch := restartVdb_supplies u
      have hallowed := restartVdb_grant u
      generalize restartVdb u = w at hvdb hreset hswitch hallowed
      generalize restartBlocks u = v at *
      have hoff : ((setStep .onVsa v).supplyOf .vsa).state = .off := by
        show (v.vdb.supplies.get .vsa).state = .off
        rw [hvdb, hswitch]
        exact congrArg SupplyRec.state ((hsupply .vsa).trans (if_pos rfl))
      have hrest (p : Part) (hp : p ∉ [Part.vdb]) := touches_onRequest .vsa (setStep .onVsa v) p hp
      have hmcT : (onRequest .vsa (setStep .onVsa v)).mc = { v.mc with step := .onVsa } := hrest .mc (by decide)
      have hshcT : (onRequest .vsa (setStep .onVsa v)).shc = v.shc := hrest .shc (by decide)
      have houtT (o : Output) : (onRequest .vsa (setStep .onVsa v)).out o = v.vdb.outs.get o :=
        congrArg (OutputTable.get · o) (onRequest_outs .vsa (setStep .onVsa v))
      have hclutch (y : Clutch) : (onRequest .vsa (setStep .onVsa v)).clutch y = v.shc.clutches.get y :=
        congrArg (fun z : Shc => z.clutches.get y) hshcT
      rw [hmcT, hshcT, onRequest_grant, show (onRequest .vsa (setStep .onVsa v)).fdc = v.fdc from hrest .fdc (by decide),
        show (onRequest .vsa (setStep .onVsa v)).htc = v.htc from hrest .htc (by decide),
        show (onRequest .vsa (setStep .onVsa v)).tbc = v.tbc from hrest .tbc (by decide),
        show (onRequest .vsa (setStep .onVsa v)).hsq = v.hsq from hrest .hsq (by decide),
        show (onRequest .vsa (setStep .onVsa v)).scu = v.scu from hrest .scu (by decide),
        show (onRequest .vsa (setStep .onVsa v)).sfe = v.sfe from hrest .sfe (by decide),
        show (setStep .onVsa v).vdb = v.vdb from rfl, hvdb, hfdc, hhtc, htc_read_congr s .reset husfe, htbc, hhsq, hscu, hsfe, hallowed, hgrant, husfe,
        hcoupling]
      have hlearned (y : Clutch) : s.shc.learnedTimes.get y = (s.clutch y).learned := by
        simp [Shc.learnedTimes, State.clutch]
      rw [hshc, hushc, hucfg]
      refine ⟨onRequest_of_off _ _ hoff, rfl, fun o => (houtT o).trans (hvdb ▸ hreset o), rfl, rfl, rfl, rfl,
        fun y => ?_, rfl, rfl, rfl, rfl, rfl, rfl, rfl, rfl, rfl, rfl, rfl, ?_, ?_, ?_, rfl, rfl, rfl, rfl, rfl, rfl, rfl,
        rfl, rfl, rfl, rfl, ?_, ?_⟩
      · rw [hclutch, hshc, hushc, hucfg, ← hlearned]
        exact learned_of_reset _ _ _ y
      · simp [Htc.read, pinsValid, and_assoc]
      · simp [Htc.read]
      · simp [Htc.read]
      · exact hblocks.seconds.trans (congrArg Mc.seconds hmc)
      · exact hblocks.full.trans (congrArg Mc.full hmc)

end Sys2Proof.Proofs
end

