-- ==== Sys2Proof/Proofs/FrontDriveChanges.lean ====
section
/-! SUPPORT. The front drive (R101 to R113): the change of state and its valve, the reasons of an interval, the turn
of the axle in each state, the front/rear check, and the statements about them. -/

namespace Sys2Proof.Proofs

open Sys2Proof Sys2Proof.Machine

/-! ## A change of state and its valve (R101 to R103) -/

section
variable (st : FdcState) (s : State)

theorem writeFdv_fdc : (writeFdv s).fdc = { s.fdc with fdvOn := s.fdc.state.fdv } :=
  touches_writeCommand _ _ _ .fdc (by decide)

theorem touches_writeFdv : Touches [.vdb, .fdc] s (writeFdv s) :=
  (touches_withFdc s _).then (touches_writeCommand _ _ _) |>.mono (by decide)

theorem writeFdv_command : ((writeFdv s).out .fdv).command = if s.fdc.state.fdv then 1 else 0 := by
  refine (writeCommand_command _ _ _).trans ?_
  cases s.fdc.state <;> rfl

theorem writeFdv_apart : OutputsApart .fdv s (writeFdv s) := writeCommand_apart .fdv _ (s.withFdc _)

theorem enterFdc_fdc : (enterFdc st s).fdc = { s.fdc with state := st, time := 0, fdvOn := st.fdv } :=
  writeFdv_fdc _

theorem touches_enterFdc : Touches [.vdb, .fdc] s (enterFdc st s) :=
  also ((touches_withFdc s _).mono (by decide)) (touches_writeFdv _)

theorem enterFdc_command : ((enterFdc st s).out .fdv).command = if st.fdv then 1 else 0 := writeFdv_command _

theorem enterFdc_apart : OutputsApart .fdv s (enterFdc st s) := writeFdv_apart (s.withFdc _)

theorem apart_trans {o : Output} {s t u : State} (h : OutputsApart o s t) (k : OutputsApart o t u) :
    OutputsApart o s u :=
  ⟨fun x hx => (k.1 x hx).trans (h.1 x hx), k.2.1.trans h.2.1, k.2.2.trans h.2.2⟩

theorem apart_of_vdb {o : Output} {s t : State} (h : t.vdb = s.vdb) : OutputsApart o s t :=
  ⟨fun x _ => congrArg (fun v : Vdb => v.outs.get x) h, congrArg Vdb.supplies h, congrArg Vdb.grant h⟩

theorem out_of_vdb {s t : State} (h : t.vdb = s.vdb) (o : Output) : t.out o = s.out o :=
  congrArg (fun v : Vdb => v.outs.get o) h
end

theorem isEmpty_iff (r : Reasons) : r.isEmpty = true ↔ r = .none := beq_iff_eq

theorem isEmpty_eq_false_iff (r : Reasons) : r.isEmpty = false ↔ r ≠ .none := beq_eq_false_iff_ne

/-! ## When the axle turns (R102 to R104) -/

section
variable {s : State}

theorem releaseDue_iff : releaseDue s = true ↔
    s.fdc.state = .engaged ∧ s.fdc.reasons = .none ∧ 200 ≤ s.fdc.empty ∧ 1000 ≤ s.fdc.time := by
  simp only [releaseDue, Bool.and_eq_true, decide_eq_true_eq, beq_iff_eq, isEmpty_iff, and_assoc]
  rfl

theorem engageDue_iff : engageDue s = true ↔
    (s.fdc.state = .releasing ∨ s.fdc.state = .released) ∧ s.fdc.reasons ≠ .none := by
  simp [engageDue, isEmpty_eq_false_iff]

theorem releasedDue_iff : releasedDue s = true ↔
    s.fdc.state = .releasing ∧ s.fdc.reasons = .none ∧ 200 ≤ s.fdc.time := by
  simp only [releasedDue, Bool.and_eq_true, decide_eq_true_eq, beq_iff_eq, isEmpty_iff, and_assoc]
  rfl

theorem engagedDue_iff : engagedDue s = true ↔ s.fdc.state = .engaging ∧ 200 ≤ s.fdc.time := by
  simp only [engagedDue, Bool.and_eq_true, decide_eq_true_eq, beq_iff_eq]
  rfl

/-- Step 5 in each state of the axle. -/
theorem actFdc_of_engaged (h : s.fdc.state = .engaged) : actFdc s =
    if s.fdc.reasons = .none ∧ 200 ≤ s.fdc.empty ∧ 1000 ≤ s.fdc.time then enterFdc .releasing s else s := by
  simp [actFdc, releaseDue_iff, engageDue_iff, releasedDue_iff, engagedDue_iff, h]

theorem actFdc_of_reason (h : s.fdc.state = .releasing ∨ s.fdc.state = .released) (hreason : s.fdc.reasons ≠ .none) :
    actFdc s = enterFdc .engaging s := by
  simp [actFdc, releaseDue_iff, engageDue_iff, h, hreason]

theorem actFdc_of_releasing (h : s.fdc.state = .releasing) (hempty : s.fdc.reasons = .none) :
    actFdc s = if 200 ≤ s.fdc.time then enterFdc .released s else s := by
  simp [actFdc, releaseDue_iff, engageDue_iff, releasedDue_iff, engagedDue_iff, h, hempty]

theorem actFdc_of_released (h : s.fdc.state = .released) (hempty : s.fdc.reasons = .none) : actFdc s = s := by
  simp [actFdc, releaseDue_iff, engageDue_iff, releasedDue_iff, engagedDue_iff, h, hempty]

theorem actFdc_of_engaging (h : s.fdc.state = .engaging) :
    actFdc s = if 200 ≤ s.fdc.time then enterFdc .engaged s else s := by
  simp [actFdc, releaseDue_iff, engageDue_iff, releasedDue_iff, engagedDue_iff, h]
end

/-- Step 5 enters a state or leaves everything. -/
theorem actFdc_cases (s : State) : (∃ st, actFdc s = enterFdc st s) ∨ actFdc s = s := by
  unfold actFdc
  split; · exact .inl ⟨_, rfl⟩
  split; · exact .inl ⟨_, rfl⟩
  split; · exact .inl ⟨_, rfl⟩
  split; · exact .inl ⟨_, rfl⟩
  exact .inr rfl

/-- Step 5 writes the state, its time and its valve only. -/
theorem actFdc_fdc (s : State) :
    ∃ st n b, (actFdc s).fdc = { s.fdc with state := st, time := n, fdvOn := b } := by
  obtain ⟨st, h⟩ | h := actFdc_cases s
  · exact ⟨st, 0, st.fdv, h ▸ enterFdc_fdc st s⟩
  · exact ⟨_, _, _, congrArg State.fdc h⟩

theorem touches_actFdc (s : State) : Touches [.vdb, .fdc] s (actFdc s) := by
  obtain ⟨st, h⟩ | h := actFdc_cases s
  · exact h ▸ touches_enterFdc st s
  · exact h.symm ▸ .refl _ s

theorem actFdc_apart (s : State) : OutputsApart .fdv s (actFdc s) := by
  obtain ⟨st, h⟩ | h := actFdc_cases s
  · exact h ▸ enterFdc_apart st s
  · exact apart_of_vdb (congrArg State.vdb h)

/-! ## A CHG event (R110) -/

theorem actOnReason_of_open {s : State} {r : Reasons} (h : s.fdc.state = .releasing ∨ s.fdc.state = .released)
    (hreason : r ≠ .none) : actOnReason (s.withReasons r) = enterFdc .engaging (s.withReasons r) :=
  if_pos ((engageDue_iff (s := s.withReasons r)).mpr ⟨h, hreason⟩)

theorem actOnReason_of_closed {s : State} (r : Reasons) (h : s.fdc.state = .engaged ∨ s.fdc.state = .engaging) :
    actOnReason (s.withReasons r) = s.withReasons r := by
  refine if_neg fun hdue => ?_
  obtain ⟨hopen, -⟩ := engageDue_iff.mp hdue
  change s.fdc.state = _ ∨ s.fdc.state = _ at hopen
  rcases h with h | h <;> simp [h] at hopen

theorem touches_actOnReason (s : State) : Touches [.vdb, .fdc] s (actOnReason s) :=
  touches_ite _ (touches_enterFdc _ s) (.refl _ s)

theorem actOnReason_reasons (s : State) : (actOnReason s).fdc.reasons = s.fdc.reasons := by
  unfold actOnReason
  split
  · rw [enterFdc_fdc]
  · rfl

/-- A doubtful charge (R110). -/
theorem takeFdcCharge_of_doubt {ev : SfeEvent} (h : ev = .lowEnter ∨ ev = .failed ∨ ev = .starting) (s : State) :
    takeFdcCharge ev s = actOnReason (s.withReasons { s.fdc.reasons with lowCharge := true }) := by
  rcases h with rfl | rfl | rfl <;> rfl

theorem takeFdcCharge_of_sure {ev : SfeEvent} {s : State}
    (h : ev = .lowLeave ∨ (ev = .valid ∧ s.sfe.chans.chg.cmp = .inRange)) :
    takeFdcCharge ev s = s.withReasons { s.fdc.reasons with lowCharge := false } := by
  obtain rfl | ⟨rfl, hrange⟩ := h
  · rfl
  · exact if_pos hrange

theorem touches_takeFdcCharge (ev : SfeEvent) (s : State) : Touches [.vdb, .fdc] s (takeFdcCharge ev s) := by
  have hset (r : Reasons) : Touches [.vdb, .fdc] s (s.withReasons r) := (touches_withFdc s _).mono (by decide)
  cases ev
  case lowEnter | failed | starting => exact also (hset _) (touches_actOnReason _)
  case lowLeave => exact hset _
  case valid => exact touches_ite _ (hset _) (.refl _ s)
  case highEnter | highLeave => exact .refl _ s

theorem exec_fdcChgEvent {ev : SfeEvent} {rest : List Delivery} {s : State} (hrun : s.mc.mode.controllersRun = true)
    (h : OldestEvent .fdc .chg ev rest s) :
    exec .fdcChgEvent s = .next (takeFdcCharge ev (s.withEvents rest)) := by
  change execFdcChgEvent s = _
  unfold execFdcChgEvent
  rw [takeEvent_oldest h]
  exact congrArg Host.Outcome.next (if_pos hrun)

/-- A command of the front drive whose row is due. -/
theorem next_of_due {c d : Bool} {t s : State} (hrun : c = true) (hdue : d = true) :
    (.next (if c && d then t else s) : Host.Outcome State Fault Refusal) = .next t :=
  congrArg Host.Outcome.next (if_pos (by simp [hrun, hdue]))

/-- Settles O37: each row where it is due, and a CHG event by what it says of the charge. -/
theorem frontDriveChanges : Obligations.FrontDriveChanges := by
  intro s hrun
  refine ⟨?_, fun hdue => ?_, fun hdue => ?_, fun hdue hpresent => ?_, fun ev rest h => ?_⟩
  · rintro c into fdv (⟨rfl, rfl, rfl, hdue⟩ | ⟨rfl, rfl, rfl, hdue⟩ | ⟨rfl, rfl, rfl, hdue⟩)
    · exact ⟨_, next_of_due hrun (releaseDue_iff.mpr hdue), enterFdc_fdc _ s, enterFdc_command _ s,
        enterFdc_apart _ s, touches_enterFdc _ s⟩
    · exact ⟨_, next_of_due hrun (releasedDue_iff.mpr hdue), enterFdc_fdc _ s, enterFdc_command _ s,
        enterFdc_apart _ s, touches_enterFdc _ s⟩
    · exact ⟨_, next_of_due hrun (engagedDue_iff.mpr hdue), enterFdc_fdc _ s, enterFdc_command _ s,
        enterFdc_apart _ s, touches_enterFdc _ s⟩
  · exact ⟨_, next_of_due hrun (decide_eq_true hdue), rfl, touches_withFdc s _⟩
  · exact ⟨_, next_of_due hrun (decide_eq_true hdue), rfl, raise_mc_congr _ rfl,
      (touches_withFdc s _).then (touches_raise _ _)⟩
  · have hagreed : agreementDue s = true := by simp [agreementDue, plausibleLimit, hdue, hpresent]
    exact ⟨_, next_of_due hrun hagreed, rfl, clearFault_mc_congr _ rfl,
      (touches_withFdc s _).then (touches_clearFault _ _)⟩
  · have htouch := touches_takeFdcCharge ev (s.withEvents rest)
    refine ⟨_, exec_fdcChgEvent hrun h, htouch .events (by decide),
      also ((touches_withEvents s _).mono (by decide)) htouch, fun hev => ?_, fun hev => ?_⟩
    · rw [takeFdcCharge_of_doubt hev]
      refine ⟨?_, fun hopen => ?_, fun hclosed => ?_⟩
      · rw [actOnReason_reasons]
        rfl
      · rw [actOnReason_of_open (s := s.withEvents rest) hopen (by simp [Reasons.none]),
          enterFdc_command, enterFdc_fdc]
        exact ⟨rfl, rfl, rfl⟩
      · rw [actOnReason_of_closed (s := s.withEvents rest) _ hclosed]
        rfl
    · rw [takeFdcCharge_of_sure (s := s.withEvents rest) hev]
      exact ⟨rfl, rfl⟩

end Sys2Proof.Proofs
end

