-- ==== Sys2Proof/Proofs/FrontDriveInterval.lean ====
section
/-! SUPPORT. One control interval of the front drive (R101): the mode, the reasons, the turn and the front/rear check
in the order of its steps, and the statement about it. -/

namespace Sys2Proof.Proofs

open Sys2Proof Sys2Proof.Machine

/-! ## Mode (R105) -/

section
variable {s : State}

theorem takeCabMode_of_lost (h : s.lc.cabDrive.fresh ≠ .fresh) : takeCabMode s = s := by
  simp [takeCabMode, Peer.current, Peer.isFresh, h]

theorem takeCabMode_of_fresh {d : CabDriveFields} (h : s.lc.cabDrive.fresh = .fresh)
    (hd : s.lc.cabDrive.values = some d) : takeCabMode s = s.withFdc (s.fdc.takeMode (frontOfCode d.front)) := by
  simp [takeCabMode, Peer.current, Peer.isFresh, h, hd]

/-- Step 2 writes the mode, its source and the value seen. -/
theorem takeCabMode_eq (s : State) :
    ∃ m x n, takeCabMode s = s.withFdc { s.fdc with mode := m, source := x, cabSeen := n } := by
  unfold takeCabMode
  split
  next d _ =>
    by_cases hsame : s.fdc.cabSeen = some (frontOfCode d.front)
    · exact ⟨s.fdc.mode, s.fdc.source, s.fdc.cabSeen, congrArg s.withFdc (if_pos hsame)⟩
    · exact ⟨_, _, _, congrArg s.withFdc (if_neg hsame)⟩
  next => exact ⟨s.fdc.mode, s.fdc.source, s.fdc.cabSeen, rfl⟩

theorem touches_takeCabMode (s : State) : Touches [.fdc] s (takeCabMode s) := by
  obtain ⟨m, x, n, h⟩ := takeCabMode_eq s
  exact h ▸ touches_withFdc s _
end

/-! ## Reasons (R107 to R112) -/

/-- AUTO_SLIP and its clear timer as an interval leaves them. -/
def withAutoSlip (n : Nat) (b : Bool) (s : State) : State :=
  s.withFdc { s.fdc with slipClear := n, reasons := { s.fdc.reasons with autoSlip := b } }

section
variable {s : State}

theorem autoApplies_iff : autoApplies s = true ↔
    s.fdc.mode = .auto ∧ s.htc.state ≠ .raising ∧ s.htc.state ≠ .transport := by
  simp [autoApplies, hitchSuppresses]

/-- AUTO_SLIP by its tests (R108). -/
theorem updateAutoSlip_of_out (h : autoApplies s = false) : updateAutoSlip s = withAutoSlip 0 false s := by
  simp [updateAutoSlip, h, clearAutoSlip, withAutoSlip]

theorem updateAutoSlip_of_unknown (h : autoApplies s = true) (hslip : s.scu.motion.slipVal ≠ .valid) :
    updateAutoSlip s = withAutoSlip 0 s.fdc.reasons.autoSlip s := by
  simp [updateAutoSlip, h, hslip, withAutoSlip]

theorem updateAutoSlip_of_above (h : autoApplies s = true) (hslip : s.scu.motion.slipVal = .valid)
    (habove : 150 < s.scu.motion.filtered) : updateAutoSlip s = withAutoSlip 0 true s := by
  simp [updateAutoSlip, h, hslip, habove, withAutoSlip]

theorem updateAutoSlip_of_between (h : autoApplies s = true) (hlow : 80 ≤ s.scu.motion.filtered)
    (hhigh : s.scu.motion.filtered ≤ 150) : updateAutoSlip s = withAutoSlip 0 s.fdc.reasons.autoSlip s := by
  simp [updateAutoSlip, h, show ¬ 150 < s.scu.motion.filtered by omega, show ¬ s.scu.motion.filtered < 80 by omega,
    withAutoSlip]

theorem updateAutoSlip_of_below (h : autoApplies s = true) (hslip : s.scu.motion.slipVal = .valid)
    (hbelow : s.scu.motion.filtered < 80) : updateAutoSlip s =
      if 200 ≤ s.fdc.slipClear + 1 then withAutoSlip 0 false s
      else withAutoSlip (s.fdc.slipClear + 1) s.fdc.reasons.autoSlip s := by
  simp [updateAutoSlip, h, hslip, hbelow, show ¬ 150 < s.scu.motion.filtered by omega, slipClearDue, slipClearLimit,
    clearAutoSlip, withAutoSlip]
  rfl

theorem updateAutoSlip_eq (s : State) : ∃ n b, updateAutoSlip s = withAutoSlip n b s := by
  cases h : autoApplies s with
  | false => exact ⟨_, _, updateAutoSlip_of_out h⟩
  | true =>
    by_cases hslip : s.scu.motion.slipVal = .valid
    · by_cases hbelow : s.scu.motion.filtered < 80
      · by_cases hlast : 200 ≤ s.fdc.slipClear + 1
        · exact ⟨_, _, (updateAutoSlip_of_below h hslip hbelow).trans (if_pos hlast)⟩
        · exact ⟨_, _, (updateAutoSlip_of_below h hslip hbelow).trans (if_neg hlast)⟩
      · by_cases habove : 150 < s.scu.motion.filtered
        · exact ⟨_, _, updateAutoSlip_of_above h hslip habove⟩
        · exact ⟨_, _, updateAutoSlip_of_between h (by omega) (by omega)⟩
    · exact ⟨_, _, updateAutoSlip_of_unknown h hslip⟩
end

/-- The reasons as step 3 finds them, but for AUTO_SLIP. -/
def foundReasons (autoSlip : Bool) (s : State) : Reasons where
  modeOn := s.fdc.mode == .on
  autoSpeed := autoSpeed s
  autoSlip := autoSlip
  braking := s.tbc.brake.any fun p => decide (150 < p)
  brakeUnmeasured := s.tbc.brake.isNone
  lowCharge := s.chargeDoubt
  shuttle := s.shc.state == .shuttling || s.shc.state == .engaging
  standstill := s.shc.state == .parked
  fault := s.vdb.faulted .fdv
  start := s.fdc.reasons.start && !(s.mc.mode == .operating)

theorem withBrake_eq (p : Option Nat) (r : Reasons) : r.withBrake p =
    { r with braking := p.any fun v => decide (150 < v), brakeUnmeasured := p.isNone } := by
  cases p <;> rfl

theorem updateReasons_eq (s : State) : updateReasons s = s.withFdc { s.fdc with
    slipClear := (updateAutoSlip s).fdc.slipClear
    reasons := foundReasons (updateAutoSlip s).fdc.reasons.autoSlip s } := by
  obtain ⟨n, b, h⟩ := updateAutoSlip_eq s
  unfold updateReasons
  rw [h]
  simp only [withBrake_eq]
  rfl

/-- AUTO_SPEED by its tests (R107). -/
theorem autoSpeed_iff (s : State) : autoSpeed s = true ↔
    s.fdc.mode = .auto ∧ s.htc.state ≠ .raising ∧ s.htc.state ≠ .transport ∧
      (s.scu.motion.vGround < 4000 ∨ (s.scu.motion.vGround ≤ 4400 ∧ s.fdc.reasons.autoSpeed = true)) := by
  have htest : (if s.scu.motion.vGround < 4000 then true
      else if 4400 < s.scu.motion.vGround then false else s.fdc.reasons.autoSpeed) = true ↔
      (s.scu.motion.vGround < 4000 ∨ (s.scu.motion.vGround ≤ 4400 ∧ s.fdc.reasons.autoSpeed = true)) := by
    by_cases hlow : s.scu.motion.vGround < 4000
    · simp [hlow]
    · by_cases hhigh : 4400 < s.scu.motion.vGround
      · simp [hlow, hhigh, show ¬ s.scu.motion.vGround ≤ 4400 by omega]
      · simp [hlow, hhigh, show s.scu.motion.vGround ≤ 4400 by omega]
  rw [autoSpeed, Bool.and_eq_true, autoApplies_iff, htest, and_assoc, and_assoc]

theorem faulted_iff (v : Vdb) (o : Output) : v.faulted o = true ↔
    v.reported o = .openCoil ∨ v.reported o = .shortRetry ∨ v.reported o = .shortLatched := by
  unfold Vdb.faulted
  cases v.reported o <;> simp [OutState.faulted]

theorem chargeDoubt_iff (s : State) : s.chargeDoubt = true ↔
    s.sfe.chans.chg.cmp = .low ∨ s.sfe.chans.chg.state ≠ .valid := by
  simp [State.chargeDoubt]

/-! ## The front/rear check (R113) -/

section
variable {s : State}

theorem checkMade_iff : checkMade s = true ↔ s.fdc.state = .engaged ∧ 1000 < s.scu.motion.vRear ∧
    s.scu.motion.rearVal ≠ .lost ∧ s.scu.motion.frontVal ≠ .lost := by
  simp [checkMade, and_assoc]

theorem deviates_iff (lead vr vf : Nat) : deviates lead vr vf = true ↔
    15 * vr < ((vf : Int) - (vr * lead / 1000 : Nat)).natAbs * 100 := by
  simp [deviates]

theorem checkPlausible_of_unmade (h : ¬ checkMade s = true) :
    checkPlausible s = s.withFdc { s.fdc with deviation := 0, agreement := 0 } := if_neg h

theorem checkPlausible_of_apart (h : checkMade s = true)
    (hapart : deviates s.cfg.lead s.scu.motion.vRear s.scu.motion.vFront = true) : checkPlausible s =
      if 200 ≤ s.fdc.deviation + 1 then
        raise .frontSlip (s.withFdc { s.fdc with deviation := 0, agreement := 0 })
      else s.withFdc { s.fdc with deviation := s.fdc.deviation + 1, agreement := 0 } := by
  simp [checkPlausible, h, hapart, deviationDue, plausibleLimit, raiseFrontSlip]
  rfl

theorem checkPlausible_of_agreed (h : checkMade s = true)
    (hagreed : deviates s.cfg.lead s.scu.motion.vRear s.scu.motion.vFront = false) : checkPlausible s =
      if 200 ≤ s.fdc.agreement + 1 ∧ s.faultPresent .frontSlip = true then
        clearFault .frontSlip (s.withFdc { s.fdc with deviation := 0, agreement := 0 })
      else s.withFdc { s.fdc with agreement := min 200 (s.fdc.agreement + 1), deviation := 0 } := by
  have hdue : agreementDue (s.withFdc { s.fdc with agreement := min 200 (s.fdc.agreement + 1), deviation := 0 }) =
      decide (200 ≤ s.fdc.agreement + 1 ∧ s.faultPresent .frontSlip = true) := by
    have hpresent (x : Fdc) : (s.withFdc x).faultPresent .frontSlip = s.faultPresent .frontSlip := rfl
    rw [Bool.eq_iff_iff]
    simp [agreementDue, plausibleLimit, hpresent]
  simp [checkPlausible, h, hagreed, plausibleLimit, hdue, clearFrontSlip]
  rfl

theorem touches_checkPlausible (s : State) : Touches [.fdc, .mc] s (checkPlausible s) := by
  have hfdc (x : Fdc) : Touches [.fdc, .mc] s (s.withFdc x) := (touches_withFdc s x).mono (by decide)
  have hraised (x : Fdc) := also (hfdc x) (touches_raise .frontSlip _)
  have hcleared (x : Fdc) := also (hfdc x) (touches_clearFault .frontSlip _)
  exact touches_ite _ (touches_ite _ (touches_ite _ (hraised _) (hfdc _)) (touches_ite _ (hcleared _) (hfdc _)))
    (hfdc _)

/-- Step 6 writes the two timers of the record. -/
theorem checkPlausible_fdc (s : State) :
    ∃ n m, (checkPlausible s).fdc = { s.fdc with deviation := n, agreement := m } := by
  by_cases h : checkMade s = true
  · cases hapart : deviates s.cfg.lead s.scu.motion.vRear s.scu.motion.vFront with
    | true =>
      rw [checkPlausible_of_apart h hapart]
      split <;> exact ⟨_, _, rfl⟩
    | false =>
      rw [checkPlausible_of_agreed h hapart]
      split <;> exact ⟨_, _, rfl⟩
  · rw [checkPlausible_of_unmade h]
    exact ⟨_, _, rfl⟩
end

/-! ## The interval (R101) -/

/-- The states after steps 2, 4 and 5 of an interval. -/
def modeTaken (s : State) : State := takeCabMode (ageFdc s)
def reasonsCounted (s : State) : State := countEmpty (updateReasons (modeTaken s))
def axleTurned (s : State) : State := actFdc (reasonsCounted s)

theorem fdcInterval_eq (s : State) : fdcInterval s = writeFdv (checkPlausible (axleTurned s)) := rfl

section
variable (s : State)

theorem touches_modeTaken : Touches [.fdc] s (modeTaken s) :=
  (touches_withFdc s _).trans (touches_takeCabMode _)

theorem modeTaken_fdc : ∃ m x n, (modeTaken s).fdc =
    { s.fdc with time := min 65535 (s.fdc.time + 10), mode := m, source := x, cabSeen := n } := by
  obtain ⟨m, x, n, h⟩ := takeCabMode_eq (ageFdc s)
  exact ⟨m, x, n, congrArg State.fdc h⟩

theorem reasonsCounted_fdc : (reasonsCounted s).fdc = { (modeTaken s).fdc with
    slipClear := (updateAutoSlip (modeTaken s)).fdc.slipClear
    reasons := foundReasons (updateAutoSlip (modeTaken s)).fdc.reasons.autoSlip (modeTaken s)
    empty := if foundReasons (updateAutoSlip (modeTaken s)).fdc.reasons.autoSlip (modeTaken s) = .none
      then min 200 ((modeTaken s).fdc.empty + 1) else 0 } := by
  unfold reasonsCounted countEmpty
  rw [updateReasons_eq]
  simp only [State.withFdc_fdc, isEmpty_iff]
  rfl

theorem touches_reasonsCounted : Touches [.fdc] s (reasonsCounted s) := by
  unfold reasonsCounted
  rw [updateReasons_eq]
  exact ((touches_modeTaken s).trans (touches_withFdc _ _)).trans (touches_withFdc _ _)

theorem touches_axleTurned : Touches [.vdb, .fdc] s (axleTurned s) :=
  ((touches_reasonsCounted s).mono (by decide)).trans (touches_actFdc _)

theorem touches_fdcInterval : Touches [.vdb, .fdc, .mc] s (fdcInterval s) :=
  also (also ((touches_axleTurned s).mono (by decide)) (touches_checkPlausible _)) (touches_writeFdv _)

theorem axleTurned_fdc : ∃ st n b,
    (axleTurned s).fdc = { (reasonsCounted s).fdc with state := st, time := n, fdvOn := b } := actFdc_fdc _

/-- The last steps of an interval write neither the mode nor a reason, the first ones no plausibility timer. -/
theorem fdcInterval_fdc : (fdcInterval s).fdc = { (reasonsCounted s).fdc with
    state := (axleTurned s).fdc.state, time := (axleTurned s).fdc.time, fdvOn := (axleTurned s).fdc.state.fdv
    deviation := (checkPlausible (axleTurned s)).fdc.deviation
    agreement := (checkPlausible (axleTurned s)).fdc.agreement } := by
  obtain ⟨n, m, hchecked⟩ := checkPlausible_fdc (axleTurned s)
  obtain ⟨st, k, b, hturned⟩ := axleTurned_fdc s
  simp only [fdcInterval_eq, writeFdv_fdc, hchecked, hturned]

/-- The interval's reasons are those step 3 finds. -/
theorem fdcInterval_reasons : (fdcInterval s).fdc.reasons =
    foundReasons (updateAutoSlip (modeTaken s)).fdc.reasons.autoSlip (modeTaken s) := by
  rw [fdcInterval_fdc, reasonsCounted_fdc]

theorem fdcInterval_mode : (fdcInterval s).fdc.mode = (modeTaken s).fdc.mode ∧
    (fdcInterval s).fdc.source = (modeTaken s).fdc.source ∧
    (fdcInterval s).fdc.cabSeen = (modeTaken s).fdc.cabSeen := by
  rw [fdcInterval_fdc, reasonsCounted_fdc]
  exact ⟨rfl, rfl, rfl⟩

theorem fdcInterval_slipClear :
    (fdcInterval s).fdc.slipClear = (updateAutoSlip (modeTaken s)).fdc.slipClear := by
  rw [fdcInterval_fdc, reasonsCounted_fdc]

theorem fdcInterval_empty : (fdcInterval s).fdc.empty =
    if (fdcInterval s).fdc.reasons = .none then min 200 (s.fdc.empty + 1) else 0 := by
  obtain ⟨m, x, n, hmode⟩ := modeTaken_fdc s
  rw [fdcInterval_reasons, fdcInterval_fdc, reasonsCounted_fdc]
  simp only [hmode]

theorem fdcInterval_command : ((fdcInterval s).out .fdv).command =
    if (fdcInterval s).fdc.state = .releasing ∨ (fdcInterval s).fdc.state = .released then 1 else 0 := by
  obtain ⟨n, m, hchecked⟩ := checkPlausible_fdc (axleTurned s)
  rw [fdcInterval_fdc, fdcInterval_eq, writeFdv_command, hchecked]
  cases (axleTurned s).fdc.state <;> rfl

theorem fdcInterval_apart : OutputsApart .fdv s (fdcInterval s) := by
  have hcounted : (reasonsCounted s).vdb = s.vdb := touches_reasonsCounted s .vdb (by decide)
  have hchecked : (checkPlausible (axleTurned s)).vdb = (axleTurned s).vdb :=
    touches_checkPlausible _ .vdb (by decide)
  exact apart_trans (apart_trans (apart_trans (apart_of_vdb hcounted) (actFdc_apart _)) (apart_of_vdb hchecked))
    (writeFdv_apart _)
end

/-! ## What the interval leaves, by what it finds -/

section
variable (s : State)

/-- The mode in use (R105). -/
theorem fdcInterval_of_lost (h : s.lc.cabDrive.fresh ≠ .fresh) :
    (fdcInterval s).fdc.mode = s.fdc.mode ∧ (fdcInterval s).fdc.source = s.fdc.source := by
  obtain ⟨hmode, hsource, -⟩ := fdcInterval_mode s
  rw [hmode, hsource, modeTaken, takeCabMode_of_lost (s := ageFdc s) h]
  exact ⟨rfl, rfl⟩

theorem fdcInterval_of_fresh {d : CabDriveFields} (h : s.lc.cabDrive.fresh = .fresh)
    (hd : s.lc.cabDrive.values = some d) :
    (s.fdc.cabSeen = some (frontOfCode d.front) →
      (fdcInterval s).fdc.mode = s.fdc.mode ∧ (fdcInterval s).fdc.source = s.fdc.source) ∧
    (s.fdc.cabSeen ≠ some (frontOfCode d.front) → (fdcInterval s).fdc.mode = frontOfCode d.front ∧
      (fdcInterval s).fdc.source = .cab ∧ (fdcInterval s).fdc.cabSeen = some (frontOfCode d.front)) := by
  obtain ⟨hmode, hsource, hseen⟩ := fdcInterval_mode s
  rw [hmode, hsource, hseen, modeTaken, takeCabMode_of_fresh (s := ageFdc s) h hd]
  refine ⟨fun hsame => ?_, fun hnew => ?_⟩
  · have htake : (ageFdc s).fdc.takeMode (frontOfCode d.front) = (ageFdc s).fdc := if_pos hsame
    rw [htake]
    exact ⟨rfl, rfl⟩
  · have htake : (ageFdc s).fdc.takeMode (frontOfCode d.front) =
        { (ageFdc s).fdc with cabSeen := some (frontOfCode d.front), mode := frontOfCode d.front, source := .cab } :=
      if_neg hnew
    rw [htake]
    exact ⟨rfl, rfl, rfl⟩

/-- What step 2 leaves of the records that step 3 reads. -/
theorem modeTaken_records : (modeTaken s).htc = s.htc ∧ (modeTaken s).scu = s.scu ∧ (modeTaken s).tbc = s.tbc ∧
    (modeTaken s).sfe = s.sfe ∧ (modeTaken s).shc = s.shc ∧ (modeTaken s).vdb = s.vdb ∧ (modeTaken s).mc = s.mc ∧
    (modeTaken s).fdc.reasons = s.fdc.reasons ∧ (modeTaken s).fdc.slipClear = s.fdc.slipClear := by
  have h := touches_modeTaken s
  obtain ⟨m, x, n, hfdc⟩ := modeTaken_fdc s
  exact ⟨h .htc (by decide), h .scu (by decide), h .tbc (by decide), h .sfe (by decide), h .shc (by decide),
    h .vdb (by decide), h .mc (by decide), by rw [hfdc], by rw [hfdc]⟩

/-- AUTO_SLIP and its clear timer (R108). -/
theorem fdcInterval_autoSlip_out (h : (fdcInterval s).fdc.mode ≠ .auto ∨ s.htc.state = .raising ∨
    s.htc.state = .transport) :
    (fdcInterval s).fdc.reasons.autoSlip = false ∧ (fdcInterval s).fdc.slipClear = 0 := by
  obtain ⟨hmode, -⟩ := fdcInterval_mode s
  obtain ⟨hhtc, -⟩ := modeTaken_records s
  have hout : autoApplies (modeTaken s) = false := by
    rw [← Bool.not_eq_true, autoApplies_iff, ← hmode, hhtc]
    tauto
  rw [fdcInterval_reasons, fdcInterval_slipClear, updateAutoSlip_of_out hout]
  exact ⟨rfl, rfl⟩

theorem fdcInterval_autoSlip (hauto : (fdcInterval s).fdc.mode = .auto) (hraising : s.htc.state ≠ .raising)
    (htransport : s.htc.state ≠ .transport) :
    (s.scu.motion.slipVal ≠ .valid → (fdcInterval s).fdc.reasons.autoSlip = s.fdc.reasons.autoSlip ∧
      (fdcInterval s).fdc.slipClear = 0) ∧
    (s.scu.motion.slipVal = .valid → 150 < s.scu.motion.filtered →
      (fdcInterval s).fdc.reasons.autoSlip = true ∧ (fdcInterval s).fdc.slipClear = 0) ∧
    (80 ≤ s.scu.motion.filtered → s.scu.motion.filtered ≤ 150 →
      (fdcInterval s).fdc.reasons.autoSlip = s.fdc.reasons.autoSlip ∧ (fdcInterval s).fdc.slipClear = 0) ∧
    (s.scu.motion.slipVal = .valid → s.scu.motion.filtered < 80 → s.fdc.slipClear + 1 < 200 →
      (fdcInterval s).fdc.reasons.autoSlip = s.fdc.reasons.autoSlip ∧
      (fdcInterval s).fdc.slipClear = s.fdc.slipClear + 1) ∧
    (s.scu.motion.slipVal = .valid → s.scu.motion.filtered < 80 → 200 ≤ s.fdc.slipClear + 1 →
      (fdcInterval s).fdc.reasons.autoSlip = false ∧ (fdcInterval s).fdc.slipClear = 0) := by
  obtain ⟨hmode, -⟩ := fdcInterval_mode s
  obtain ⟨hhtc, hscu, -, -, -, -, -, hreasons, hclear⟩ := modeTaken_records s
  have happlies : autoApplies (modeTaken s) = true :=
    autoApplies_iff.mpr ⟨hmode ▸ hauto, hhtc.symm ▸ hraising, hhtc.symm ▸ htransport⟩
  rw [← hscu, ← hreasons, ← hclear, fdcInterval_reasons, fdcInterval_slipClear]
  refine ⟨fun hslip => ?_, fun hslip habove => ?_, fun hlow hhigh => ?_, fun hslip hbelow hmore => ?_,
    fun hslip hbelow hlast => ?_⟩
  · rw [updateAutoSlip_of_unknown happlies hslip]
    exact ⟨rfl, rfl⟩
  · rw [updateAutoSlip_of_above happlies hslip habove]
    exact ⟨rfl, rfl⟩
  · rw [updateAutoSlip_of_between happlies hlow hhigh]
    exact ⟨rfl, rfl⟩
  · rw [updateAutoSlip_of_below happlies hslip hbelow, if_neg (Nat.not_le.mpr hmore)]
    exact ⟨rfl, rfl⟩
  · rw [updateAutoSlip_of_below happlies hslip hbelow, if_pos hlast]
    exact ⟨rfl, rfl⟩

/-- The turn of the axle (R102 to R104). -/
theorem reasonsCounted_axle : (reasonsCounted s).fdc.state = s.fdc.state ∧
    (reasonsCounted s).fdc.time = min 65535 (s.fdc.time + 10) ∧
    (reasonsCounted s).fdc.reasons = (fdcInterval s).fdc.reasons ∧
    (reasonsCounted s).fdc.empty = (fdcInterval s).fdc.empty ∧
    (reasonsCounted s).fdc.deviation = s.fdc.deviation ∧ (reasonsCounted s).fdc.agreement = s.fdc.agreement := by
  obtain ⟨m, x, n, hmode⟩ := modeTaken_fdc s
  rw [fdcInterval_fdc, reasonsCounted_fdc]
  simp only [hmode, and_self]

theorem fdcInterval_axle : (fdcInterval s).fdc.state = (axleTurned s).fdc.state ∧
    (fdcInterval s).fdc.time = (axleTurned s).fdc.time := by
  rw [fdcInterval_fdc]
  exact ⟨rfl, rfl⟩

theorem fdcInterval_turn {time : Nat} (htime : time = min 65535 (s.fdc.time + 10)) :
    (s.fdc.state = .engaged → (fdcInterval s).fdc.reasons = Reasons.none → 200 ≤ s.fdc.empty + 1 → 1000 ≤ time →
      (fdcInterval s).fdc.state = .releasing ∧ (fdcInterval s).fdc.time = 0) ∧
    (s.fdc.state = .engaged →
      (fdcInterval s).fdc.reasons ≠ Reasons.none ∨ s.fdc.empty + 1 < 200 ∨ time < 1000 →
      (fdcInterval s).fdc.state = .engaged ∧ (fdcInterval s).fdc.time = time) ∧
    (s.fdc.state = .releasing ∨ s.fdc.state = .released → (fdcInterval s).fdc.reasons ≠ Reasons.none →
      (fdcInterval s).fdc.state = .engaging ∧ (fdcInterval s).fdc.time = 0) ∧
    (s.fdc.state = .releasing → (fdcInterval s).fdc.reasons = Reasons.none →
      (200 ≤ time → (fdcInterval s).fdc.state = .released ∧ (fdcInterval s).fdc.time = 0) ∧
      (time < 200 → (fdcInterval s).fdc.state = .releasing ∧ (fdcInterval s).fdc.time = time)) ∧
    (s.fdc.state = .released → (fdcInterval s).fdc.reasons = Reasons.none →
      (fdcInterval s).fdc.state = .released ∧ (fdcInterval s).fdc.time = time) ∧
    (s.fdc.state = .engaging →
      (200 ≤ time → (fdcInterval s).fdc.state = .engaged ∧ (fdcInterval s).fdc.time = 0) ∧
      (time < 200 → (fdcInterval s).fdc.state = .engaging ∧ (fdcInterval s).fdc.time = time)) := by
  obtain ⟨hstate, haged, hreasons, hempty, -, -⟩ := reasonsCounted_axle s
  obtain ⟨hto, hfor⟩ := fdcInterval_axle s
  have hcount := fdcInterval_empty s
  rw [← htime] at haged
  rw [← hempty, ← hreasons] at hcount
  rw [hto, hfor, ← hreasons, ← hstate]
  unfold axleTurned
  generalize reasonsCounted s = u at hstate haged hreasons hempty hcount ⊢
  have hentered (st : FdcState) : (enterFdc st u).fdc.state = st ∧ (enterFdc st u).fdc.time = 0 := by
    rw [enterFdc_fdc]
    exact ⟨rfl, rfl⟩
  refine ⟨fun hu hnone hlong hheld => ?_, fun hu hnot => ?_, fun hu hreason => ?_, fun hu hnone => ⟨fun hdue => ?_,
    fun hearly => ?_⟩, fun hu hnone => ?_, fun hu => ⟨fun hdue => ?_, fun hearly => ?_⟩⟩
  · rw [if_pos hnone] at hcount
    rw [actFdc_of_engaged hu, if_pos ⟨hnone, by omega, by omega⟩]
    exact hentered _
  · have hstay : ¬ (u.fdc.reasons = .none ∧ 200 ≤ u.fdc.empty ∧ 1000 ≤ u.fdc.time) := by
      rintro ⟨hnone, hlong, hheld⟩
      rw [if_pos hnone] at hcount
      rcases hnot with hnot | hnot | hnot
      · exact hnot hnone
      · omega
      · omega
    rw [actFdc_of_engaged hu, if_neg hstay]
    exact ⟨hu, haged⟩
  · rw [actFdc_of_reason hu hreason]
    exact hentered _
  · rw [actFdc_of_releasing hu hnone, if_pos (haged.symm ▸ hdue)]
    exact hentered _
  · rw [actFdc_of_releasing hu hnone, if_neg (by omega)]
    exact ⟨hu, haged⟩
  · rw [actFdc_of_released hu hnone]
    exact ⟨hu, haged⟩
  · rw [actFdc_of_engaging hu, if_pos (haged.symm ▸ hdue)]
    exact hentered _
  · rw [actFdc_of_engaging hu, if_neg (by omega)]
    exact ⟨hu, haged⟩

/-- The front/rear check (R113). -/
theorem fdcInterval_check : (fdcInterval s).fdc.deviation = (checkPlausible (axleTurned s)).fdc.deviation ∧
    (fdcInterval s).fdc.agreement = (checkPlausible (axleTurned s)).fdc.agreement ∧
    (fdcInterval s).mc = (checkPlausible (axleTurned s)).mc := by
  rw [fdcInterval_fdc]
  exact ⟨rfl, rfl, touches_writeFdv _ .mc (by decide)⟩

theorem axleTurned_timers : (axleTurned s).fdc.deviation = s.fdc.deviation ∧
    (axleTurned s).fdc.agreement = s.fdc.agreement := by
  obtain ⟨-, -, -, -, hdeviation, hagreement⟩ := reasonsCounted_axle s
  obtain ⟨st, n, b, hturned⟩ := axleTurned_fdc s
  rw [hturned]
  exact ⟨hdeviation, hagreement⟩

theorem fdcInterval_plausible {made apart : Prop} {vr : Nat} (hvr : vr = s.scu.motion.vRear)
    (hmade : made ↔ (fdcInterval s).fdc.state = .engaged ∧ 1000 < vr ∧ s.scu.motion.rearVal ≠ .lost ∧
      s.scu.motion.frontVal ≠ .lost)
    (hapart : apart ↔ 15 * vr < ((s.scu.motion.vFront : Int) - (vr * s.cfg.lead / 1000 : Nat)).natAbs * 100) :
    (¬ made → (fdcInterval s).fdc.deviation = 0 ∧ (fdcInterval s).fdc.agreement = 0 ∧ (fdcInterval s).mc = s.mc) ∧
    (made → apart → (fdcInterval s).fdc.agreement = 0 ∧
      (s.fdc.deviation + 1 < 200 →
        (fdcInterval s).fdc.deviation = s.fdc.deviation + 1 ∧ (fdcInterval s).mc = s.mc) ∧
      (200 ≤ s.fdc.deviation + 1 →
        (fdcInterval s).fdc.deviation = 0 ∧ (fdcInterval s).mc = (raise .frontSlip s).mc)) ∧
    (made → ¬ apart → (fdcInterval s).fdc.deviation = 0 ∧
      (200 ≤ s.fdc.agreement + 1 → s.faultPresent .frontSlip = true →
        (fdcInterval s).fdc.agreement = 0 ∧ (fdcInterval s).mc = (clearFault .frontSlip s).mc) ∧
      (s.fdc.agreement + 1 < 200 ∨ s.faultPresent .frontSlip = false →
        (fdcInterval s).fdc.agreement = min 200 (s.fdc.agreement + 1) ∧ (fdcInterval s).mc = s.mc)) := by
  obtain ⟨hto, -⟩ := fdcInterval_axle s
  obtain ⟨hdeviation, hagreement, hmc⟩ := fdcInterval_check s
  obtain ⟨hdeviating, hagreeing⟩ := axleTurned_timers s
  have hturned := touches_axleTurned s
  have hscu : (axleTurned s).scu = s.scu := hturned .scu (by decide)
  have hcfg : (axleTurned s).cfg = s.cfg := hturned .cfg (by decide)
  have hmcTurned : (axleTurned s).mc = s.mc := hturned .mc (by decide)
  have hfault : s.faultPresent .frontSlip = (axleTurned s).faultPresent .frontSlip := by
    unfold State.faultPresent
    rw [hmcTurned]
  rw [hto, hvr, ← hscu, ← checkMade_iff] at hmade
  rw [hvr, ← hscu, ← hcfg, ← deviates_iff] at hapart
  rw [hdeviation, hagreement, hmc, ← raise_mc_congr _ hmcTurned, ← clearFault_mc_congr _ hmcTurned, ← hmcTurned,
    ← hdeviating, ← hagreeing, hmade, hapart, hfault, Bool.not_eq_true (deviates _ _ _)]
  generalize axleTurned s = u
  refine ⟨fun hno => ?_, fun hyes hdeviates => ⟨?_, fun hmore => ?_, fun hlast => ?_⟩,
    fun hyes hagrees => ⟨?_, fun hlast hpresent => ?_, fun hmore => ?_⟩⟩
  · rw [checkPlausible_of_unmade hno]
    exact ⟨rfl, rfl, rfl⟩
  · rw [checkPlausible_of_apart hyes hdeviates]
    split <;> rfl
  · rw [checkPlausible_of_apart hyes hdeviates, if_neg (by omega)]
    exact ⟨rfl, rfl⟩
  · rw [checkPlausible_of_apart hyes hdeviates, if_pos hlast]
    exact ⟨rfl, raise_mc_congr _ rfl⟩
  · rw [checkPlausible_of_agreed hyes hagrees]
    split <;> rfl
  · rw [checkPlausible_of_agreed hyes hagrees, if_pos ⟨hlast, hpresent⟩]
    exact ⟨rfl, clearFault_mc_congr _ rfl⟩
  · have hnot : ¬ (200 ≤ u.fdc.agreement + 1 ∧ u.faultPresent .frontSlip = true) := by
      rintro ⟨hlast, hpresent⟩
      rcases hmore with hmore | hmore
      · omega
      · exact absurd hpresent (hmore ▸ Bool.false_ne_true)
    rw [checkPlausible_of_agreed hyes hagrees, if_neg hnot]
    exact ⟨rfl, rfl⟩

theorem frontOfCode_eq (n : Nat) : frontOfCode n = (match n with | 0 => .off | 2 => .auto | _ => .on) := rfl
end

/-- Settles O36: the steps of the interval in their order, each by the rule of its part. -/
theorem frontDriveInterval : Obligations.FrontDriveInterval := by
  intro s hrun
  obtain ⟨hmode, -⟩ := fdcInterval_mode s
  obtain ⟨hhtc, hscu, htbc, hsfe, hshc, hvdb, hmc, hreasons, -⟩ := modeTaken_records s
  have hfound := fdcInterval_reasons s
  refine ⟨fdcInterval s, congrArg Host.Outcome.next (if_pos hrun), touches_fdcInterval s, fdcInterval_of_lost s,
    ?_, ?_, ?_, fdcInterval_autoSlip_out s, fdcInterval_autoSlip s, ?_, ?_, ?_, ?_, ?_, ?_, ?_,
    fun time htime => fdcInterval_turn s htime, fdcInterval_empty s, fdcInterval_command s, fdcInterval_apart s,
    fun made apart vr hvr hmade hapart => fdcInterval_plausible s hvr hmade hapart⟩
  · intro d hfresh hd m hm
    obtain rfl : m = frontOfCode d.front := hm.trans (frontOfCode_eq d.front).symm
    exact fdcInterval_of_fresh s hfresh hd
  · rw [hfound, hmode]
    exact beq_iff_eq
  · rw [hfound, hmode, ← hhtc, ← hscu, ← hreasons]
    exact autoSpeed_iff _
  · rw [hfound, ← htbc]
    exact (Option.any_eq_true _ _).trans (by simp)
  · rw [hfound, ← htbc]
    exact Option.isNone_iff_eq_none
  · rw [hfound, ← hsfe]
    exact chargeDoubt_iff _
  · rw [hfound, ← hshc]
    exact Bool.or_eq_true_iff.trans (or_congr beq_iff_eq beq_iff_eq)
  · rw [hfound, ← hshc]
    exact beq_iff_eq
  · rw [hfound, ← hvdb]
    exact faulted_iff _ _
  · rw [hfound, ← hmc, ← hreasons]
    simp [foundReasons]

end Sys2Proof.Proofs
end

