-- ==== Sys2Proof/Proofs/FaultPresence.lean ====
section
/-! SUPPORT. Which codes the fault table holds present (R181 to R183) after a raise or a clear of one code. -/

namespace Sys2Proof.Proofs

open Sys2Proof Sys2Proof.Machine

/-- The list holds an entry of the code whose condition is present. -/
def Holds (d : FaultCode) (l : List FaultEntry) : Prop := ∃ e ∈ l, e.code = d ∧ e.present = true

theorem faultPresent_iff (s : State) (d : FaultCode) : s.faultPresent d = true ↔ Holds d s.mc.faults := by
  simp [State.faultPresent, Holds]

theorem faultPresent_congr {s t : State} (h : t.mc = s.mc) (d : FaultCode) : t.faultPresent d = s.faultPresent d := by
  unfold State.faultPresent
  rw [h]

theorem mem_updateEntry {c : FaultCode} {f : FaultEntry → FaultEntry} {l : List FaultEntry} {x : FaultEntry} :
    x ∈ updateEntry c f l ↔ ∃ e ∈ l, (if e.code = c then f e else e) = x := List.mem_map

/-- A change of the entry of one code leaves the entries of another. -/
theorem holds_updateEntry_ne {c d : FaultCode} (hne : d ≠ c) {f : FaultEntry → FaultEntry}
    (hf : ∀ e, (f e).code = e.code) (l : List FaultEntry) : Holds d (updateEntry c f l) ↔ Holds d l := by
  constructor
  · rintro ⟨x, hx, hcode, hpresent⟩
    obtain ⟨e, he, rfl⟩ := mem_updateEntry.mp hx
    by_cases hc : e.code = c
    · rw [if_pos hc, hf, hc] at hcode
      exact absurd hcode.symm hne
    · rw [if_neg hc] at hcode hpresent
      exact ⟨e, he, hcode, hpresent⟩
  · rintro ⟨e, he, hcode, hpresent⟩
    exact ⟨e, mem_updateEntry.mpr ⟨e, he, if_neg (hcode ▸ hne)⟩, hcode, hpresent⟩

theorem holds_append_ne {d : FaultCode} {e : FaultEntry} (hne : e.code ≠ d) (l : List FaultEntry) :
    Holds d (l ++ [e]) ↔ Holds d l := by
  simp only [Holds, List.mem_append, List.mem_singleton, or_and_right, exists_or, exists_eq_left, hne, false_and,
    or_false]

/-- A STORED entry is not present, so its leaving takes no present code away (R183). -/
theorem holds_dropStored (d : FaultCode) (l : List FaultEntry) : Holds d (dropStored l) ↔ Holds d l := by
  induction l with
  | nil => rfl
  | cons e l ih =>
    cases he : e.active with
    | true => simpa [dropStored, he, Holds] using or_congr_right ih
    | false =>
      obtain ⟨hpresent, -⟩ : e.present = false ∧ e.latched = false := by simpa [FaultEntry.active] using he
      simp [dropStored, he, Holds, hpresent]

section
variable {c d : FaultCode} (s : State)

theorem holds_raise_ne (hne : d ≠ c) (t : FaultTable) (latch : Bool) (seconds : Nat) :
    Holds d (t.raise c latch seconds).entries ↔ Holds d t.entries := by
  by_cases hheld : ∃ e ∈ t.entries, e.code = c
  · rw [raise_of_held _ _ _ _ hheld]
    exact holds_updateEntry_ne hne (fun _ => by rfl) _
  · have hnew : ∀ e ∈ t.entries, e.code ≠ c := by simpa using hheld
    have happend (l : List FaultEntry) := holds_append_ne (e := newEntry c latch seconds) (Ne.symm hne) l
    by_cases hroom : t.entries.length < 16
    · rw [raise_of_room _ _ _ _ hnew hroom]
      exact happend _
    · unfold FaultTable.raise
      rw [if_neg (by simpa using hnew), if_neg (show ¬ t.entries.length < maxFaults from hroom)]
      split
      · exact (happend _).trans (holds_dropStored _ _)
      · rfl

theorem faultPresent_eq_of_holds {t : State} (h : Holds d t.mc.faults ↔ Holds d s.mc.faults) :
    t.faultPresent d = s.faultPresent d :=
  Bool.eq_iff_iff.mpr ((faultPresent_iff t d).trans (h.trans (faultPresent_iff s d).symm))

theorem faultPresent_raise_ne (hne : d ≠ c) : (raise c s).faultPresent d = s.faultPresent d :=
  faultPresent_eq_of_holds s (holds_raise_ne hne s.faultTable _ _)

theorem faultPresent_raiseLatched_ne (hne : d ≠ c) : (raiseLatched c s).faultPresent d = s.faultPresent d :=
  faultPresent_eq_of_holds s (holds_raise_ne hne s.faultTable _ _)

theorem faultPresent_clearFault_ne (hne : d ≠ c) : (clearFault c s).faultPresent d = s.faultPresent d :=
  faultPresent_eq_of_holds s (holds_updateEntry_ne hne (fun _ => by rfl) _)

/-- A clear leaves no present entry of its code. -/
theorem faultPresent_clearFault (c : FaultCode) : (clearFault c s).faultPresent c = false := by
  rw [← Bool.not_eq_true, faultPresent_iff]
  rintro ⟨x, hx, hcode, hpresent⟩
  obtain ⟨e, -, rfl⟩ := mem_updateEntry.mp hx
  split at hcode
  case isTrue hc =>
    rw [if_pos hc] at hpresent
    exact absurd hpresent Bool.false_ne_true
  case isFalse hc => exact hc hcode

/-- A raise into a table with room leaves its code present. -/
theorem holds_raise (t : FaultTable) (c : FaultCode) (latch : Bool) (seconds : Nat) (hroom : t.entries.length < 16) :
    Holds c (t.raise c latch seconds).entries := by
  by_cases hheld : ∃ e ∈ t.entries, e.code = c
  · rw [raise_of_held _ _ _ _ hheld]
    obtain ⟨e, he, hcode⟩ := hheld
    exact ⟨_, mem_updateEntry.mpr ⟨e, he, if_pos hcode⟩, hcode, rfl⟩
  · rw [raise_of_room _ _ _ _ (by simpa using hheld) hroom]
    exact ⟨_, List.mem_append_right _ List.mem_cons_self, rfl, rfl⟩

theorem faultPresent_raise (c : FaultCode) (hroom : s.mc.faults.length < 16) :
    (raise c s).faultPresent c = true :=
  (faultPresent_iff _ _).mpr (holds_raise s.faultTable c _ _ hroom)

theorem faultPresent_raiseLatched (c : FaultCode) (hroom : s.mc.faults.length < 16) :
    (raiseLatched c s).faultPresent c = true :=
  (faultPresent_iff _ _).mpr (holds_raise s.faultTable c _ _ hroom)
end

/-! ## The length of the table -/

theorem length_updateEntry (c : FaultCode) (f : FaultEntry → FaultEntry) (l : List FaultEntry) :
    (updateEntry c f l).length = l.length := List.length_map ..

theorem length_raise_le (t : FaultTable) (c : FaultCode) (latch : Bool) (seconds : Nat) :
    (t.raise c latch seconds).entries.length ≤ t.entries.length + 1 := by
  unfold FaultTable.raise
  dsimp only
  split
  · exact (length_updateEntry _ _ _).le.trans (Nat.le_succ _)
  split
  · exact (List.length_append ..).le
  split
  · have hdrop := (dropStored_sublist t.entries).length_le
    simpa using hdrop
  · exact Nat.le_succ _

section
variable (c : FaultCode) (s : State)

theorem raise_length_le : (raise c s).mc.faults.length ≤ s.mc.faults.length + 1 := length_raise_le s.faultTable _ _ _

theorem raiseLatched_length_le : (raiseLatched c s).mc.faults.length ≤ s.mc.faults.length + 1 :=
  length_raise_le s.faultTable _ _ _

theorem clearFault_length : (clearFault c s).mc.faults.length = s.mc.faults.length := length_updateEntry _ _ _
end

end Sys2Proof.Proofs
end

