-- ==== Sys2Proof/Proofs/TrailerWrites.lean ====
section
/-! SUPPORT. The trailer's writes (R148, R151 to R165): the demand with the grant behind it, the two valves, the
entries to a state, and what they and the tests of an interval leave of the brake readings. -/

namespace Sys2Proof.Proofs

open Sys2Proof Sys2Proof.Machine

/-! ## The demand (R160) -/

section
variable (s : State)

theorem writeDemand_tbc : (writeDemand s).tbc =
    { s.tbc with demand := (demandOf s).1, contributor := (demandOf s).2 } :=
  touches_grantOnDemand _ .tbc (by decide)

theorem touches_writeDemand : Touches [.vdb, .tbc] s (writeDemand s) :=
  (touches_withTbc s _).then (touches_grantOnDemand _) |>.mono (by decide)

theorem writeDemand_frame : GrantFrame s (writeDemand s) :=
  have h := grantFrame_grantOnDemand (s.withTbc { s.tbc with demand := (demandOf s).1, contributor := (demandOf s).2 })
  ⟨h.commands, h.others, h.supplies, h.turned⟩

theorem demandOf_congr {s t : State} (hcfg : t.cfg = s.cfg) (hscu : t.scu = s.scu) (hshc : t.shc = s.shc)
    (hstate : t.tbc.state = s.tbc.state) (hbrake : t.tbc.brake = s.tbc.brake) : demandOf t = demandOf s := by
  have hb : brakeTerm t = brakeTerm s := by rw [brakeTerm, brakeTerm, hcfg, hbrake]
  have ho : overrunTerm t = overrunTerm s := by unfold overrunTerm; rw [hscu, hshc]
  have hh : shuttleTerm t = shuttleTerm s := by unfold shuttleTerm; rw [hscu, hshc]
  unfold demandOf
  rw [hb, ho, hh, hstate]

theorem demandOf_idle {s : State} (h : s.tbc.state.regulates = false) : demandOf s = (0, .none) :=
  if_neg (by simp [h])

theorem demandOf_regulated {s : State} (h : s.tbc.state.regulates = true) :
    (demandOf s).1 = min 1500 (max (brakeTerm s) (max (overrunTerm s) (shuttleTerm s))) := by
  unfold demandOf
  rw [if_pos h]

/-- A demand has as contributor the first of the largest terms. -/
theorem demandOf_contributor {s : State} (h : (demandOf s).1 ≠ 0) : (demandOf s).2 =
    if overrunTerm s ≤ brakeTerm s ∧ shuttleTerm s ≤ brakeTerm s then .brake
    else if shuttleTerm s ≤ overrunTerm s then .overrun else .shuttle := by
  cases hreg : s.tbc.state.regulates with
  | false => simp [demandOf_idle hreg] at h
  | true =>
    rw [demandOf_regulated hreg] at h
    unfold demandOf
    rw [if_pos hreg]
    simp only [h, if_false, max_le_iff]

theorem demandOf_zero {s : State} (h : (demandOf s).1 = 0) : (demandOf s).2 = .none := by
  cases hreg : s.tbc.state.regulates with
  | false => rw [demandOf_idle hreg]
  | true =>
    rw [demandOf_regulated hreg] at h
    unfold demandOf
    rw [if_pos hreg]
    exact if_pos h

/-! ## The valves (R162, R165) -/

variable (v : Nat)

theorem writeTcv_tbc : (writeTcv v s).tbc = { s.tbc with tcv := v } := touches_writeCommand _ _ _ .tbc (by decide)

theorem touches_writeTcv : Touches [.vdb, .tbc] s (writeTcv v s) :=
  (touches_withTbc s _).then (touches_writeCommand _ _ _) |>.mono (by decide)

theorem writeTcv_command : ((writeTcv v s).out .tcv).command = min v (s.cfg.maxima.get .tcv) :=
  writeCommand_command _ _ _

theorem writeTcv_apart : OutputsApart .tcv s (writeTcv v s) := writeCommand_apart .tcv _ (s.withTbc _)

theorem writeTsv_tbc : (writeTsv s).tbc = { s.tbc with tsvOn := s.tbc.state.tsv } :=
  touches_writeCommand _ _ _ .tbc (by decide)

theorem touches_writeTsv : Touches [.vdb, .tbc] s (writeTsv s) :=
  (touches_withTbc s _).then (touches_writeCommand _ _ _) |>.mono (by decide)

theorem writeTsv_command : ((writeTsv s).out .tsv).command = if s.tbc.state.tsv then 1 else 0 := by
  refine (writeCommand_command _ _ _).trans ?_
  cases s.tbc.state <;> rfl

theorem writeTsv_apart : OutputsApart .tsv s (writeTsv s) := writeCommand_apart .tsv _ (s.withTbc _)

theorem recomputeTcv_tbc : (recomputeTcv s).tbc = { s.tbc with tcv := tcvCommand s } := writeTcv_tbc s _

theorem touches_recomputeTcv : Touches [.vdb, .tbc] s (recomputeTcv s) := touches_writeTcv s _
end

/-! ## What a change of state leaves (R150 to R158) -/

/-- The readings and timers of the brakes and of the coupling, which no change of state writes. -/
structure BrakesKept (s t : State) : Prop where
  brake : t.tbc.brake = s.tbc.brake
  source : t.tbc.brakeSource = s.tbc.brakeSource
  station : t.tbc.station = s.tbc.station
  coupled : t.tbc.coupled = s.tbc.coupled
  samples : t.tbc.samples = s.tbc.samples
  unknown : t.tbc.unknown = s.tbc.unknown
  disagree : t.tbc.disagree = s.tbc.disagree
  agree : t.tbc.agree = s.tbc.agree
  overpressure : t.tbc.overpressure = s.tbc.overpressure
  stopOrder : t.tbc.stopOrder = s.tbc.stopOrder

theorem brakesKept_refl (s : State) : BrakesKept s s := ⟨rfl, rfl, rfl, rfl, rfl, rfl, rfl, rfl, rfl, rfl⟩

theorem brakesKept_trans {s t u : State} (h : BrakesKept s t) (k : BrakesKept t u) : BrakesKept s u :=
  ⟨k.brake.trans h.brake, k.source.trans h.source, k.station.trans h.station, k.coupled.trans h.coupled,
    k.samples.trans h.samples, k.unknown.trans h.unknown, k.disagree.trans h.disagree, k.agree.trans h.agree,
    k.overpressure.trans h.overpressure, k.stopOrder.trans h.stopOrder⟩

theorem brakesKept_of_tbc {s t u : State} (h : BrakesKept s t) (htbc : u.tbc = t.tbc) : BrakesKept s u :=
  ⟨htbc ▸ h.brake, htbc ▸ h.source, htbc ▸ h.station, htbc ▸ h.coupled, htbc ▸ h.samples, htbc ▸ h.unknown,
    htbc ▸ h.disagree, htbc ▸ h.agree, htbc ▸ h.overpressure, htbc ▸ h.stopOrder⟩

section
variable {st : TrailerState} (s : State)

/-- The record after an entry to a state without demand. -/
theorem enterIdle_tbc (h : st.regulates = false) : (enterIdle st s).tbc =
    { s.tbc with state := st, correction := 0, tsvOn := st.tsv, demand := 0, contributor := .none, tcv := 0 } := by
  have hpublish (u : State) : (publish .trailer u).tbc = u.tbc := touches_publish _ u .tbc (by decide)
  unfold enterIdle
  have hstate : (writeTsv (s.withTbc { s.tbc with state := st, correction := 0 })).tbc.state = st := by
    rw [writeTsv_tbc]
    rfl
  rw [hpublish, writeTcv_tbc, writeDemand_tbc, demandOf_idle (by rw [hstate]; exact h), writeTsv_tbc]
  rfl

theorem touches_enterIdle : Touches [.vdb, .tbc, .lc] s (enterIdle st s) := by
  have hstate (x : Tbc) : Touches [.vdb, .tbc, .lc] s (s.withTbc x) := (touches_withTbc s x).mono (by decide)
  exact also (also (also (also (hstate _) (touches_writeTsv _)) (touches_writeDemand _)) (touches_writeTcv _ _))
    (touches_publish _ _)

/-- The valves after such an entry: no other output but the hitch valves, which the grant drives, is touched. -/
theorem enterIdle_outs : ((enterIdle st s).out .tsv).command = (if st.tsv then 1 else 0) ∧
    ((enterIdle st s).out .tcv).command = 0 := by
  have hvdb (u : State) (o : Output) : (publish .trailer u).out o = u.out o :=
    out_of_vdb (touches_publish _ u .vdb (by decide)) o
  unfold enterIdle
  rw [hvdb, hvdb, (writeTcv_apart _ 0).1 .tsv (by decide), (writeDemand_frame _).others .tsv (by decide) (by decide),
    writeTsv_command, writeTcv_command]
  exact ⟨rfl, Nat.zero_min _⟩

theorem enterRegulated_tbc : (enterRegulated st s).tbc =
    { s.tbc with state := st, timer := 0, lowTimer := 0, tsvOn := st.tsv,
                 demand := (demandOf (s.withTbc { s.tbc with state := st })).1,
                 contributor := (demandOf (s.withTbc { s.tbc with state := st })).2 } := by
  have hpublish (u : State) : (publish .trailer u).tbc = u.tbc := touches_publish _ u .tbc (by decide)
  have htsv := touches_writeTsv (s.withTbc { s.tbc with state := st, timer := 0, lowTimer := 0 })
  have hdemand : demandOf (writeTsv (s.withTbc { s.tbc with state := st, timer := 0, lowTimer := 0 })) =
      demandOf (s.withTbc { s.tbc with state := st }) :=
    demandOf_congr (htsv .cfg (by decide)) (htsv .scu (by decide)) (htsv .shc (by decide))
      (by rw [writeTsv_tbc]; rfl) (by rw [writeTsv_tbc]; rfl)
  unfold enterRegulated
  rw [hpublish, writeDemand_tbc, hdemand, writeTsv_tbc]
  rfl

theorem touches_enterRegulated : Touches [.vdb, .tbc, .lc] s (enterRegulated st s) := by
  have hstate (x : Tbc) : Touches [.vdb, .tbc, .lc] s (s.withTbc x) := (touches_withTbc s x).mono (by decide)
  exact also (also (also (hstate _) (touches_writeTsv _)) (touches_writeDemand _)) (touches_publish _ _)

theorem enterRegulated_tsv : ((enterRegulated st s).out .tsv).command = if st.tsv then 1 else 0 := by
  have hvdb (u : State) (o : Output) : (publish .trailer u).out o = u.out o :=
    out_of_vdb (touches_publish _ u .vdb (by decide)) o
  unfold enterRegulated
  rw [hvdb, (writeDemand_frame _).others .tsv (by decide) (by decide), writeTsv_command]
  rfl

theorem brakesKept_enterIdle (h : st.regulates = false) : BrakesKept s (enterIdle st s) := by
  constructor <;> rw [enterIdle_tbc s h]

theorem brakesKept_enterRegulated : BrakesKept s (enterRegulated st s) := by
  constructor <;> rw [enterRegulated_tbc]

/-! ## The entries by name -/

theorem enterCharging_tbc : (enterCharging s).tbc = { s.tbc with
    state := .charging, timer := 0, correction := 0, tsvOn := true, demand := 0, contributor := .none, tcv := 0 } :=
  enterIdle_tbc _ rfl

theorem enterAbsent_tbc : (enterAbsent s).tbc = { s.tbc with
    state := .absent, correction := 0, tsvOn := false, demand := 0, contributor := .none, tcv := 0 } :=
  enterIdle_tbc _ rfl

theorem enterTrailerParked_tbc : (enterTrailerParked s).tbc = { s.tbc with
    state := .parked, timer := 0, lowTimer := 0, correction := 0, tsvOn := false, demand := 0, contributor := .none,
    tcv := 0 } :=
  enterIdle_tbc _ rfl

theorem enterBreakaway_tbc : (enterBreakaway s).tbc = { s.tbc with
    state := .breakaway, correction := 0, tsvOn := false, demand := 0, contributor := .none, tcv := 0 } :=
  enterIdle_tbc _ rfl

theorem touches_enterCharging : Touches [.vdb, .tbc, .lc] s (enterCharging s) :=
  also ((touches_withTbc s _).mono (by decide)) (touches_enterIdle _)

theorem touches_enterTrailerParked : Touches [.vdb, .tbc, .lc] s (enterTrailerParked s) :=
  also ((touches_withTbc s _).mono (by decide)) (touches_enterIdle _)

theorem touches_enterReleased : Touches [.vdb, .tbc, .lc] s (enterReleased s) :=
  touches_ite _ (touches_enterCharging s) (touches_enterIdle s)

theorem touches_enterBreakaway : Touches [.vdb, .tbc, .lc, .mc] s (enterBreakaway s) :=
  also ((touches_enterIdle s).mono (by decide)) (touches_raiseLatched _ _)

theorem enterBreakaway_mc : (enterBreakaway s).mc = (raiseLatched .trailerBreakaway s).mc := by
  have hmc : (enterIdle .breakaway s).mc = s.mc := touches_enterIdle s .mc (by decide)
  simp only [enterBreakaway, raiseLatched, State.withFaults, State.faultTable, State.withMc_mc, hmc]

theorem enterReleased_of_coupled {s : State} (h : s.tbc.coupled = true) : enterReleased s = enterCharging s := if_pos h

theorem enterReleased_of_uncoupled {s : State} (h : s.tbc.coupled = false) : enterReleased s = enterAbsent s :=
  if_neg (by simp [h])
end

/-! ## The steps of the interval (R146) -/

section
variable (s : State)

theorem touches_changeCoupling (k : Bool) : Touches [.vdb, .tbc, .lc, .mc] s (changeCoupling k s) := by
  have hset (x : Tbc) : Touches [.vdb, .tbc, .lc, .mc] s (s.withTbc x) := (touches_withTbc s x).mono (by decide)
  unfold changeCoupling
  dsimp only
  split
  · exact touches_ite _ (also (hset _) (touches_enterCharging _)) (hset _)
  · exact touches_ite _ (hset _) (also (hset _) (touches_enterBreakaway _))
  · exact touches_ite _ (hset _) (also (hset _) (touches_enterBreakaway _))
  · exact touches_ite _ (hset _) (also (hset _) (touches_enterBreakaway _))
  · exact hset _
  · exact hset _

theorem touches_settleCoupling : Touches [.vdb, .tbc, .lc, .mc] s (settleCoupling s) := by
  have hset (x : Tbc) : Touches [.vdb, .tbc, .lc, .mc] s (s.withTbc x) := (touches_withTbc s x).mono (by decide)
  exact touches_ite _ (hset _) (touches_ite _ ((hset _).trans (touches_changeCoupling _ _)) (hset _))

theorem touches_readLines : Touches [.tbc] s (readLines s) := (touches_withTbc s _).trans (touches_withTbc _ _)

theorem touches_brakeEvent : Touches [.vdb, .fdc] s (brakeEvent s) :=
  touches_ite _ (also ((touches_withFdc s _).mono (by decide)) (touches_actOnReason _)) (.refl _ s)

theorem touches_writeBrake : Touches [.vdb, .fdc, .tbc] s (writeBrake s) := by
  have hseen (x : Tbc) : Touches [.vdb, .fdc, .tbc] s (brakeEvent (s.withTbc x)) :=
    also ((touches_withTbc s x).mono (by decide)) (touches_brakeEvent _)
  exact touches_ite _ (also (hseen _) (touches_writeDemand _)) (hseen _)

theorem touches_countUnknown : Touches [.tbc, .mc] s (countUnknown s) := by
  have hset (x : Tbc) : Touches [.tbc, .mc] s (s.withTbc x) := (touches_withTbc s x).mono (by decide)
  exact touches_ite _ (also (hset _) (touches_clearFault _ _))
    (touches_ite _ (also (hset _) (touches_raise _ _)) (hset _))

theorem touches_compareBrakes : Touches [.tbc, .mc] s (compareBrakes s) := by
  have hset (u : State) (x : Tbc) : Touches [.tbc, .mc] u (u.withTbc x) := (touches_withTbc u x).mono (by decide)
  have hraised (x : Tbc) : Touches [.tbc, .mc] s (raiseDisagree (s.withTbc x)) :=
    also ((hset _ _).trans (hset _ _)) (touches_raise _ _)
  have hcleared (x : Tbc) : Touches [.tbc, .mc] s (clearDisagree (s.withTbc x)) :=
    also ((hset _ _).trans (hset _ _)) (touches_clearFault _ _)
  unfold compareBrakes
  dsimp only
  split
  · exact touches_ite _ (touches_ite _ (hraised _) (hset _ _)) (touches_ite _ (hcleared _) (hset _ _))
  · exact hset _ _

theorem touches_takeBrakes : Touches [.vdb, .fdc, .tbc, .mc] s (takeBrakes s) :=
  also (also ((touches_writeBrake s).mono (by decide)) (touches_countUnknown _)) (touches_compareBrakes _)

theorem touches_trailerParkOrder : Touches [.vdb, .tbc, .lc] s (trailerParkOrder s) :=
  touches_ite _ (touches_enterTrailerParked s) (.refl _ s)

theorem touches_parkTests : Touches [.vdb, .tbc, .lc] s (parkTests s) :=
  touches_ite _ (touches_trailerParkOrder s) (touches_ite _ (touches_enterReleased s) (.refl _ s))

theorem touches_recoverSupply : Touches [.vdb, .tbc, .lc, .mc] s (recoverSupply s) :=
  also (also ((touches_enterRegulated s).mono (by decide)) (touches_clearFault _ _)) (touches_clearFault _ _)

theorem touches_failCharge : Touches [.vdb, .tbc, .lc, .mc] s (failCharge s) :=
  also ((touches_enterRegulated s).mono (by decide)) (touches_raise _ _)

theorem touches_loseSupply : Touches [.vdb, .tbc, .lc, .mc] s (loseSupply s) :=
  also ((touches_enterRegulated s).mono (by decide)) (touches_raise _ _)

theorem touches_stateTests : Touches [.vdb, .tbc, .lc, .mc] s (stateTests s) := by
  have hset (u : State) (x : Tbc) : Touches [.vdb, .tbc, .lc, .mc] u (u.withTbc x) :=
    (touches_withTbc u x).mono (by decide)
  have htimed (x y : Tbc) : Touches [.vdb, .tbc, .lc, .mc] s ((s.withTbc x).withTbc y) :=
    (hset s x).trans (hset _ y)
  unfold stateTests
  dsimp only
  split
  · exact touches_ite _ ((htimed _ _).trans (touches_recoverSupply _))
      (touches_ite _ ((htimed _ _).trans (touches_failCharge _)) (htimed _ _))
  · exact touches_ite _ ((htimed _ _).trans (touches_loseSupply _)) (htimed _ _)
  · exact touches_ite _ ((htimed _ _).trans (touches_recoverSupply _)) (htimed _ _)
  all_goals exact hset _ _

theorem touches_driveLine : Touches [.vdb, .tbc] s (driveLine s) :=
  (((touches_writeDemand s).trans ((touches_withTbc _ _).mono (by decide))).trans (touches_recomputeTcv _)).trans
    (touches_writeTsv _)

theorem touches_tbcInterval : Touches [.vdb, .fdc, .tbc, .lc, .mc] s (tbcInterval s) :=
  also (also (also (also (also ((touches_settleCoupling s).mono (by decide)) (touches_readLines _))
    (touches_takeBrakes _)) (touches_parkTests _)) (touches_stateTests _)) (touches_driveLine _)

/-! ## The readings through the steps -/

theorem brakesKept_parkTests : BrakesKept s (parkTests s) := by
  have hparked : BrakesKept s (enterTrailerParked s) := by constructor <;> rw [enterTrailerParked_tbc]
  have hcharging : BrakesKept s (enterCharging s) := by constructor <;> rw [enterCharging_tbc]
  exact holds_ite (P := BrakesKept s) (holds_ite hparked (brakesKept_refl s))
    (holds_ite (holds_ite hcharging (brakesKept_enterIdle s rfl)) (brakesKept_refl s))

theorem recoverSupply_tbc : (recoverSupply s).tbc = (enterRegulated .ready s).tbc :=
  ((touches_clearFault .trailerSupplyLost _).trans (touches_clearFault .trailerChargeFailed _)) .tbc (by decide)

theorem failCharge_tbc : (failCharge s).tbc = (enterRegulated .supplyFault s).tbc :=
  touches_raise _ _ .tbc (by decide)

theorem loseSupply_tbc : (loseSupply s).tbc = (enterRegulated .supplyFault s).tbc :=
  touches_raise _ _ .tbc (by decide)

/-- The record as the state tests count it before they act. -/
def counted (b : Bool) (m n : Nat) (s : State) : State :=
  s.withTbc { s.tbc with supplyLow := b, timer := m, lowTimer := n }

theorem brakesKept_counted (b : Bool) (m n : Nat) : BrakesKept s (counted b m n s) :=
  ⟨rfl, rfl, rfl, rfl, rfl, rfl, rfl, rfl, rfl, rfl⟩

theorem tslGood_counted (b : Bool) (m n : Nat) : (counted b m n s).tslGood = s.tslGood := rfl

/-- Step 5 in each state of the trailer (R152 to R154). -/
theorem stateTests_eq : stateTests s = match s.tbc.state with
    | .charging =>
      if s.tslGood = true then recoverSupply (counted s.tslLow (min 10000 (s.tbc.timer + 10)) s.tbc.lowTimer s)
      else if chargeFailed (counted s.tslLow (min 10000 (s.tbc.timer + 10)) s.tbc.lowTimer s) = true then
        failCharge (counted s.tslLow (min 10000 (s.tbc.timer + 10)) s.tbc.lowTimer s)
      else counted s.tslLow (min 10000 (s.tbc.timer + 10)) s.tbc.lowTimer s
    | .ready =>
      if supplyLost (counted s.tslLow s.tbc.timer (if s.tslLow = true then s.tbc.lowTimer + 1 else 0) s) = true then
        loseSupply (counted s.tslLow s.tbc.timer (if s.tslLow = true then s.tbc.lowTimer + 1 else 0) s)
      else counted s.tslLow s.tbc.timer (if s.tslLow = true then s.tbc.lowTimer + 1 else 0) s
    | .supplyFault =>
      if supplyBack (counted s.tslLow (if s.tslGood = true then s.tbc.timer + 10 else 0) s.tbc.lowTimer s) = true then
        recoverSupply (counted s.tslLow (if s.tslGood = true then s.tbc.timer + 10 else 0) s.tbc.lowTimer s)
      else counted s.tslLow (if s.tslGood = true then s.tbc.timer + 10 else 0) s.tbc.lowTimer s
    | .absent | .breakaway | .parked => counted s.tslLow s.tbc.timer s.tbc.lowTimer s := rfl

section
variable {s : State} {b : Bool} {m n : Nat}

theorem chargeFailed_counted (h : s.tbc.state = .charging) :
    chargeFailed (counted b (min 10000 m) n s) = true ↔ s.tslGood = false ∧ 10000 ≤ m := by
  have hstate : (counted b (min 10000 m) n s).tbc.state = .charging := h
  have htimer : (counted b (min 10000 m) n s).tbc.timer = min 10000 m := rfl
  simp only [chargeFailed, hstate, htimer, tslGood_counted, Bool.and_eq_true, beq_self_eq_true, true_and,
    Bool.not_eq_true', decide_eq_true_eq, chargeMs, le_min_iff, le_refl]

theorem supplyLost_counted (h : s.tbc.state = .ready) : supplyLost (counted b m n s) = true ↔ 20 ≤ n := by
  have hstate : (counted b m n s).tbc.state = .ready := h
  simp only [supplyLost, hstate, Bool.and_eq_true, beq_self_eq_true, true_and, decide_eq_true_eq]
  rfl

theorem supplyBack_counted (h : s.tbc.state = .supplyFault) : supplyBack (counted b m n s) = true ↔ 1000 ≤ m := by
  have hstate : (counted b m n s).tbc.state = .supplyFault := h
  simp only [supplyBack, hstate, Bool.and_eq_true, beq_self_eq_true, true_and, decide_eq_true_eq]
  rfl

theorem stateTests_of_charging (h : s.tbc.state = .charging) : stateTests s =
    if s.tslGood = true then recoverSupply (counted s.tslLow (min 10000 (s.tbc.timer + 10)) s.tbc.lowTimer s)
    else if 10000 ≤ s.tbc.timer + 10 then
      failCharge (counted s.tslLow (min 10000 (s.tbc.timer + 10)) s.tbc.lowTimer s)
    else counted s.tslLow (min 10000 (s.tbc.timer + 10)) s.tbc.lowTimer s := by
  rw [stateTests_eq, h]
  by_cases hgood : s.tslGood = true
  · simp only [hgood, if_true]
  · simp only [hgood, chargeFailed_counted h, true_and, Bool.false_eq_true, if_false]

theorem stateTests_of_ready (h : s.tbc.state = .ready) (hn : n = if s.tslLow = true then s.tbc.lowTimer + 1 else 0) :
    stateTests s = if 20 ≤ n then loseSupply (counted s.tslLow s.tbc.timer n s)
      else counted s.tslLow s.tbc.timer n s := by
  rw [stateTests_eq, h, hn]
  simp only [supplyLost_counted h]

theorem stateTests_of_supplyFault (h : s.tbc.state = .supplyFault)
    (hm : m = if s.tslGood = true then s.tbc.timer + 10 else 0) :
    stateTests s = if 1000 ≤ m then recoverSupply (counted s.tslLow m s.tbc.lowTimer s)
      else counted s.tslLow m s.tbc.lowTimer s := by
  rw [stateTests_eq, h, hm]
  simp only [supplyBack_counted h]

theorem stateTests_of_other (h : s.tbc.state = .absent ∨ s.tbc.state = .breakaway ∨ s.tbc.state = .parked) :
    stateTests s = counted s.tslLow s.tbc.timer s.tbc.lowTimer s := by
  rw [stateTests_eq]
  rcases h with h | h | h <;> rw [h]
end

theorem brakesKept_stateTests : BrakesKept s (stateTests s) := by
  have hcount (b : Bool) (m n : Nat) := brakesKept_counted s b m n
  have hrecover (b : Bool) (m n : Nat) : BrakesKept s (recoverSupply (counted b m n s)) :=
    brakesKept_of_tbc (brakesKept_trans (hcount b m n) (brakesKept_enterRegulated _)) (recoverSupply_tbc _)
  have hfail (b : Bool) (m n : Nat) : BrakesKept s (failCharge (counted b m n s)) :=
    brakesKept_of_tbc (brakesKept_trans (hcount b m n) (brakesKept_enterRegulated _)) (failCharge_tbc _)
  have hlose (b : Bool) (m n : Nat) : BrakesKept s (loseSupply (counted b m n s)) :=
    brakesKept_of_tbc (brakesKept_trans (hcount b m n) (brakesKept_enterRegulated _)) (loseSupply_tbc _)
  cases h : s.tbc.state with
  | charging =>
    rw [stateTests_of_charging h]
    exact holds_ite (hrecover _ _ _) (holds_ite (hfail _ _ _) (hcount _ _ _))
  | ready =>
    rw [stateTests_of_ready h rfl]
    exact holds_ite (hlose _ _ _) (hcount _ _ _)
  | supplyFault =>
    rw [stateTests_of_supplyFault h rfl]
    exact holds_ite (hrecover _ _ _) (hcount _ _ _)
  | absent | breakaway | parked =>
    rw [stateTests_of_other (by simp [h])]
    exact hcount _ _ _

/-- The last steps of an interval (R160, R162, R165). -/
theorem driveLine_tbc : (driveLine s).tbc = { s.tbc with
    demand := (demandOf s).1, contributor := (demandOf s).2, correction := correctionOf (writeDemand s)
    tcv := (driveLine s).tbc.tcv, tsvOn := s.tbc.state.tsv } := by
  unfold driveLine
  dsimp only
  rw [writeTsv_tbc, recomputeTcv_tbc, State.withTbc_tbc, writeDemand_tbc]

theorem brakesKept_driveLine : BrakesKept s (driveLine s) := by
  constructor <;> rw [driveLine_tbc]
end

end Sys2Proof.Proofs
end

