-- ==== Sys2Proof/Proofs/PeersKept.lean ====
section
/-! SUPPORT. What the making of frames leaves of the link: the peer records, the link's state and its stations (R189,
R191). -/

namespace Sys2Proof.Proofs

open Sys2Proof Sys2Proof.Machine

/-- The peer records, the state of the link and the stations are as before. -/
structure PeersKept (s t : State) : Prop where
  link : t.lc.link = s.lc.link
  quiet : t.lc.quiet = s.lc.quiet
  sources : t.lc.sources = s.lc.sources
  engine : t.lc.engine = s.lc.engine
  brake : t.lc.brake = s.lc.brake
  cabDrive : t.lc.cabDrive = s.lc.cabDrive
  cabHitch : t.lc.cabHitch = s.lc.cabHitch
  implement : t.lc.implement = s.lc.implement
  service : t.lc.service = s.lc.service

section
variable {s t u : State}

theorem peersKept_refl (s : State) : PeersKept s s := ⟨rfl, rfl, rfl, rfl, rfl, rfl, rfl, rfl, rfl⟩

theorem peersKept_trans (h : PeersKept s t) (k : PeersKept t u) : PeersKept s u :=
  ⟨k.link.trans h.link, k.quiet.trans h.quiet, k.sources.trans h.sources, k.engine.trans h.engine,
    k.brake.trans h.brake, k.cabDrive.trans h.cabDrive, k.cabHitch.trans h.cabHitch, k.implement.trans h.implement,
    k.service.trans h.service⟩

theorem peersKept_of_lc (h : t.lc = s.lc) : PeersKept s t := by
  constructor <;> rw [h]

/-- A change beside the link. -/
theorem peersKept_also {l : List Part} (h : PeersKept s t) (k : Touches l t u) (hlc : Part.lc ∉ l) : PeersKept s u :=
  peersKept_trans h (peersKept_of_lc (k .lc hlc))

theorem peersKept_withLc {s : State} {q : List TxEntry} {c : GroupTable (BitVec 4)} {m d k : Nat} : PeersKept s
    (s.withLc { s.lc with queue := q, sendCounts := c, motionPage := m, drivePage := d, cursor := k }) :=
  ⟨rfl, rfl, rfl, rfl, rfl, rfl, rfl, rfl, rfl⟩

theorem peersKept_makeFrame (g : Group) (d : List Byte) (s : State) : PeersKept s (makeFrame g d s) :=
  holds_ite (P := PeersKept s) peersKept_withLc (peersKept_refl s)

theorem peersKept_nextPage (g : Group) (s : State) : PeersKept s (nextPage g s) := by
  cases g
  case motion | driveHitch | faultReport => exact peersKept_withLc
  all_goals exact peersKept_refl s

theorem peersKept_publish (g : Group) (s : State) : PeersKept s (publish g s) :=
  holds_ite (P := PeersKept s) (peersKept_trans (peersKept_makeFrame _ _ s) (peersKept_nextPage _ _)) (peersKept_refl s)
end

/-! ## The trailer's frames -/

section
variable (s : State)

theorem peersKept_withTbc (x : Tbc) : PeersKept s (s.withTbc x) := peersKept_of_lc rfl

theorem peersKept_enterIdle (st : TrailerState) : PeersKept s (enterIdle st s) := by
  have hset := peersKept_withTbc s
  exact peersKept_trans (peersKept_also (peersKept_also (peersKept_also (hset _) (touches_writeTsv _) (by decide))
    (touches_writeDemand _) (by decide)) (touches_writeTcv _ _) (by decide)) (peersKept_publish _ _)

theorem peersKept_enterCharging : PeersKept s (enterCharging s) :=
  peersKept_trans (peersKept_withTbc s _) (peersKept_enterIdle _ _)

theorem peersKept_enterBreakaway : PeersKept s (enterBreakaway s) :=
  peersKept_also (peersKept_enterIdle s .breakaway) (touches_raiseLatched _ _) (by decide)

theorem peersKept_changeCoupling (k : Bool) : PeersKept s (changeCoupling k s) := by
  have hset := peersKept_withTbc s
  have hcharge (x : Tbc) : PeersKept s (enterCharging (s.withTbc x)) :=
    peersKept_trans (hset x) (peersKept_enterCharging _)
  have hbreak (x : Tbc) : PeersKept s (enterBreakaway (s.withTbc x)) :=
    peersKept_trans (hset x) (peersKept_enterBreakaway _)
  unfold changeCoupling
  dsimp only
  split
  · exact holds_ite (hcharge _) (hset _)
  · exact holds_ite (hset _) (hbreak _)
  · exact holds_ite (hset _) (hbreak _)
  · exact holds_ite (hset _) (hbreak _)
  · exact hset _
  · exact hset _

theorem peersKept_settleCoupling : PeersKept s (settleCoupling s) := by
  have hset := peersKept_withTbc s
  exact holds_ite (P := PeersKept s) (hset _)
    (holds_ite (peersKept_trans (hset _) (peersKept_changeCoupling _ _)) (hset _))
end

end Sys2Proof.Proofs
end

