-- ==== Sys2Proof/Proofs/TrailerInterval.lean ====
section
/-! SUPPORT. The trailer's control interval (R146): the brake pressure in force, the demand and the control line it
leaves, and the statement about them. -/

namespace Sys2Proof.Proofs

open Sys2Proof Sys2Proof.Machine

/-! ## The brake pressure in force (R147, R148) -/

section
variable (s : State)

theorem brakeEvent_tbc : (brakeEvent s).tbc = s.tbc := touches_brakeEvent s .tbc (by decide)

theorem writeBrake_tbc : ∃ d c, (writeBrake s).tbc = { s.tbc with
    brake := (brakeOf (localBrake s) s.tbc.station).1, brakeSource := (brakeOf (localBrake s) s.tbc.station).2
    demand := d, contributor := c } := by
  have hevent (x : Tbc) : (brakeEvent (s.withTbc x)).tbc = x := brakeEvent_tbc _
  unfold writeBrake
  dsimp only
  split
  · exact ⟨_, _, by rw [writeDemand_tbc, hevent]⟩
  · exact ⟨s.tbc.demand, s.tbc.contributor, hevent _⟩

theorem countUnknown_tbc : (countUnknown s).tbc = { s.tbc with
    unknown := if s.tbc.brake.isSome = true then 0 else min 50 (s.tbc.unknown + 1) } := by
  have hfault (c : FaultCode) (u : State) : (clearFault c u).tbc = u.tbc ∧ (raise c u).tbc = u.tbc := ⟨rfl, rfl⟩
  unfold countUnknown
  by_cases hbrake : s.tbc.brake.isSome = true
  · rw [if_pos hbrake, if_pos hbrake, (hfault _ _).1]
    rfl
  · rw [if_neg hbrake, if_neg hbrake]
    by_cases hlast : s.tbc.unknown + 1 = 50
    · rw [if_pos (show s.tbc.unknown + 1 = brakeLimit from hlast), (hfault _ _).2, hlast]
      rfl
    · rw [if_neg (show ¬ s.tbc.unknown + 1 = brakeLimit from hlast)]
      rfl

/-- The comparison writes its two timers. -/
theorem compareBrakes_tbc : ∃ n m, (compareBrakes s).tbc = { s.tbc with disagree := n, agree := m } := by
  unfold compareBrakes
  dsimp only
  split
  · split
    · split <;> exact ⟨_, _, rfl⟩
    · split <;> exact ⟨_, _, rfl⟩
  · exact ⟨_, _, rfl⟩

/-- What step 3 leaves of the record. -/
theorem takeBrakes_tbc : ∃ d c n m, (takeBrakes s).tbc = { s.tbc with
    brake := (brakeOf (localBrake s) s.tbc.station).1, brakeSource := (brakeOf (localBrake s) s.tbc.station).2
    demand := d, contributor := c
    unknown := if (brakeOf (localBrake s) s.tbc.station).1.isSome = true then 0 else min 50 (s.tbc.unknown + 1)
    disagree := n, agree := m } := by
  obtain ⟨d, c, hwrite⟩ := writeBrake_tbc s
  obtain ⟨n, m, hcompare⟩ := compareBrakes_tbc (countUnknown (writeBrake s))
  refine ⟨d, c, n, m, ?_⟩
  rw [takeBrakes, hcompare, countUnknown_tbc, hwrite]

theorem localBrake_congr {s t : State} (h : t.sfe = s.sfe) : localBrake t = localBrake s := by
  rw [localBrake, localBrake, h]

theorem stationBrake_congr {s t : State} (h : t.lc.brake = s.lc.brake) : stationBrake t = stationBrake s := by
  rw [stationBrake, stationBrake, h]

theorem stationBrake_eq : stationBrake s = if s.lc.brake.fresh = .fresh
    then s.lc.brake.values.map fun b => max (min 1600 b.left) (min 1600 b.right) else none := by
  by_cases h : s.lc.brake.fresh = .fresh <;> simp [stationBrake, Peer.current, Peer.isFresh, h]

end

theorem brakeOf_both (a b : Nat) : brakeOf (some a) (some b) = (some (max a b), if b ≤ a then .own else .station) := by
  by_cases h : b ≤ a
  · simp [brakeOf, h]
  · simp [brakeOf, h, Nat.max_eq_right (Nat.le_of_not_le h)]

/-! ## The line (R160, R162, R165) -/

section
variable (s : State)

theorem driveLine_state : (driveLine s).tbc.state = s.tbc.state := by rw [driveLine_tbc]

/-- The demand an interval leaves is the one its records ask. -/
theorem driveLine_demand : (driveLine s).tbc.demand = (demandOf (driveLine s)).1 ∧
    (driveLine s).tbc.contributor = (demandOf (driveLine s)).2 := by
  have h := touches_driveLine s
  rw [demandOf_congr (s := s) (h .cfg (by decide)) (h .scu (by decide)) (h .shc (by decide)) (driveLine_state s)
    (brakesKept_driveLine s).brake, driveLine_tbc]
  exact ⟨rfl, rfl⟩

theorem tcvCommand_congr {s t : State} (hcfg : t.cfg = s.cfg) (hsfe : t.sfe = s.sfe)
    (hdemand : t.tbc.demand = s.tbc.demand) (hover : t.tbc.overpressure = s.tbc.overpressure)
    (hcorrection : t.tbc.correction = s.tbc.correction) : tcvCommand t = tcvCommand s := by
  have hvalid : t.tclValid = s.tclValid := by rw [State.tclValid, State.tclValid, hsfe]
  unfold tcvCommand
  rw [hcfg, hdemand, hover, hcorrection, hvalid]

theorem driveLine_tcv : (driveLine s).tbc.tcv = tcvCommand (driveLine s) := by
  have hwrite (u : State) : (writeTsv (recomputeTcv u)).tbc.tcv = tcvCommand (writeTsv (recomputeTcv u)) := by
    have htcv := touches_recomputeTcv u
    have htsv := touches_writeTsv (recomputeTcv u)
    rw [tcvCommand_congr (s := u) ((htcv.trans htsv) .cfg (by decide)) ((htcv.trans htsv) .sfe (by decide)),
      writeTsv_tbc, recomputeTcv_tbc] <;> rw [writeTsv_tbc, recomputeTcv_tbc]
  exact hwrite _

theorem driveLine_correction : (driveLine s).tbc.correction =
    if (driveLine s).tbc.demand = 0 then 0
    else if s.tbc.overpressure = true then s.tbc.correction
    else if s.tclValid = false then 0
    else clampInt (-200) 200
      (s.tbc.correction + truncDiv (((driveLine s).tbc.demand : Int) - s.sfe.chans.tcl.value) 4) := by
  have h := touches_writeDemand s
  have hsfe : (writeDemand s).sfe = s.sfe := h .sfe (by decide)
  have hvalid : (writeDemand s).tclValid = s.tclValid := by rw [State.tclValid, State.tclValid, hsfe]
  rw [driveLine_tbc]
  dsimp only
  rw [correctionOf, writeDemand_tbc, hvalid, hsfe]
  simp only [Bool.not_eq_true']

theorem driveLine_outs : ((driveLine s).out .tcv).command = min (driveLine s).tbc.tcv (s.cfg.maxima.get .tcv) ∧
    ((driveLine s).out .tsv).command = if s.tbc.state.tsv then 1 else 0 := by
  have hwrite (u : State) :
      ((writeTsv (recomputeTcv u)).out .tcv).command =
        min (writeTsv (recomputeTcv u)).tbc.tcv (u.cfg.maxima.get .tcv) ∧
      ((writeTsv (recomputeTcv u)).out .tsv).command = if u.tbc.state.tsv then 1 else 0 := by
    rw [(writeTsv_apart _).1 .tcv (by decide), writeTsv_command, writeTsv_tbc, recomputeTcv_tbc]
    exact ⟨writeTcv_command u _, rfl⟩
  obtain ⟨htcv, htsv⟩ := hwrite ((writeDemand s).withTbc { (writeDemand s).tbc with
    correction := correctionOf (writeDemand s) })
  have hcfg : (writeDemand s).cfg = s.cfg := touches_writeDemand s .cfg (by decide)
  refine ⟨htcv.trans (by rw [State.withTbc_cfg, hcfg]; rfl), htsv.trans ?_⟩
  rw [State.withTbc_tbc, writeDemand_tbc]
end

/-! ## The park tests (R157) -/

theorem parkTests_of_parked {s : State} (h : s.shc.state = .parked) :
    (parkTests s).tbc.state = .parked ∨ (parkTests s).tbc.state = .breakaway := by
  unfold parkTests
  rw [if_pos h, trailerParkOrder]
  cases hstate : s.tbc.state
  case breakaway => exact .inr hstate
  case parked => exact .inl hstate
  all_goals exact .inl (congrArg Tbc.state (enterTrailerParked_tbc s))

theorem stateTests_state_of_other {s : State} (h : s.tbc.state = .parked ∨ s.tbc.state = .breakaway) :
    (stateTests s).tbc.state = s.tbc.state := by
  rw [stateTests_of_other (by tauto)]
  rfl

/-! ## The interval in parts (R146) -/

/-- The states after steps 2, 3 and 5 of an interval. -/
def linesRead (k : Bool) (s : State) : State := readLines (settleCoupling (presentCoupling k s))
def brakesTaken (k : Bool) (s : State) : State := takeBrakes (linesRead k s)
def lineTested (k : Bool) (s : State) : State := stateTests (parkTests (brakesTaken k s))

/-- An interval of a TBC that runs. -/
theorem exec_tbcControlInterval (k : Bool) {s : State} (hrun : s.mc.mode.controllersRun = true) :
    exec (.tbcControlInterval k) s = .next (driveLine (lineTested k s)) :=
  congrArg Host.Outcome.next (if_pos hrun)

section
variable (k : Bool) (s : State)

theorem touches_linesRead : Touches [.pins, .vdb, .tbc, .lc, .mc] s (linesRead k s) :=
  also (also ((touches_withPins s _).mono (by decide)) (touches_settleCoupling _)) (touches_readLines _)

theorem touches_brakesTaken : Touches [.pins, .vdb, .fdc, .tbc, .lc, .mc] s (brakesTaken k s) :=
  also ((touches_linesRead k s).mono (by decide)) (touches_takeBrakes _)

theorem touches_lineTested : Touches [.pins, .vdb, .fdc, .tbc, .lc, .mc] s (lineTested k s) :=
  also (also (touches_brakesTaken k s) (touches_parkTests _)) (touches_stateTests _)

theorem touches_lineDriven : Touches [.pins, .vdb, .fdc, .tbc, .lc, .mc] s (driveLine (lineTested k s)) :=
  also (touches_lineTested k s) (touches_driveLine _)

theorem lineDriven_pins : (driveLine (lineTested k s)).pins = { s.pins with coupling := k } :=
  touches_tbcInterval (presentCoupling k s) .pins (by decide)

/-- The readings after step 3 stand to the end. -/
theorem brakesKept_lineDriven : BrakesKept (brakesTaken k s) (driveLine (lineTested k s)) :=
  brakesKept_trans (brakesKept_trans (brakesKept_parkTests _) (brakesKept_stateTests _)) (brakesKept_driveLine _)

theorem linesRead_station : (linesRead k s).tbc.station = stationBrake s := by
  have hpins : PeersKept s (presentCoupling k s) := peersKept_of_lc rfl
  exact stationBrake_congr (peersKept_trans hpins (peersKept_settleCoupling _)).brake

theorem linesRead_localBrake : localBrake (linesRead k s) = localBrake s :=
  localBrake_congr (touches_linesRead k s .sfe (by decide))

/-- The brake pressure in force and its source (R147). -/
theorem lineDriven_brake : (driveLine (lineTested k s)).tbc.station = stationBrake s ∧
    (driveLine (lineTested k s)).tbc.brake = (brakeOf (localBrake s) (stationBrake s)).1 ∧
    (driveLine (lineTested k s)).tbc.brakeSource = (brakeOf (localBrake s) (stationBrake s)).2 := by
  have hkept := brakesKept_lineDriven k s
  obtain ⟨d, c, n, m, htaken⟩ := takeBrakes_tbc (linesRead k s)
  rw [linesRead_station, linesRead_localBrake] at htaken
  rw [hkept.station, hkept.brake, hkept.source, brakesTaken, htaken]
  exact ⟨linesRead_station k s, rfl, rfl⟩
end

theorem regulates_iff (st : TrailerState) : st.regulates = true ↔ st = .ready ∨ st = .supplyFault := by
  cases st <;> simp [TrailerState.regulates]

theorem tsv_iff (st : TrailerState) : st.tsv = true ↔ st = .charging ∨ st = .ready ∨ st = .supplyFault := by
  cases st <;> simp [TrailerState.tsv]

/-- The terms of the demand are those of the records an interval leaves (R160). -/
theorem lineDriven_terms (k : Bool) (s : State) :
    brakeTerm (driveLine (lineTested k s)) =
      applyTable s.cfg.brakeCurve ((driveLine (lineTested k s)).tbc.brake.getD 0) ∧
    overrunTerm (driveLine (lineTested k s)) =
      (if s.scu.motion.direction = .unknown then 0 else min 600 (2 * s.shc.overrun)) ∧
    shuttleTerm (driveLine (lineTested k s)) =
      (if s.shc.state = .shuttling ∧ 1000 < s.scu.motion.vGround then 200 else 0) := by
  have h := touches_lineDriven k s
  have hcfg : (driveLine (lineTested k s)).cfg = s.cfg := h .cfg (by decide)
  have hscu : (driveLine (lineTested k s)).scu = s.scu := h .scu (by decide)
  have hshc : (driveLine (lineTested k s)).shc = s.shc := h .shc (by decide)
  unfold brakeTerm overrunTerm shuttleTerm
  rw [hcfg, hscu, hshc]
  exact ⟨rfl, rfl, rfl⟩

theorem lineDriven_parked (k : Bool) {s : State} (h : s.shc.state = .parked) :
    (driveLine (lineTested k s)).tbc.state = .parked ∨ (driveLine (lineTested k s)).tbc.state = .breakaway := by
  have hshc : (brakesTaken k s).shc = s.shc := touches_brakesTaken k s .shc (by decide)
  have hpark := parkTests_of_parked (s := brakesTaken k s) (by rw [hshc, h])
  rw [driveLine_state, lineTested, stateTests_state_of_other hpark]
  exact hpark

/-- The control line an interval leaves (R162, R165). -/
theorem lineDriven_line (k : Bool) (s : State) {t : State} (ht : t = driveLine (lineTested k s)) :
    t.tbc.tcv = (if t.tbc.demand = 0 then 0 else if t.tbc.overpressure = true then 0
      else if s.tclValid = false then applyTable s.cfg.trailerCurve t.tbc.demand
      else (clampInt 0 2000 ((applyTable s.cfg.trailerCurve t.tbc.demand : Int) + t.tbc.correction)).toNat) ∧
    t.tbc.correction = (if t.tbc.demand = 0 then 0 else if t.tbc.overpressure = true then (lineTested k s).tbc.correction
      else if s.tclValid = false then 0
      else clampInt (-200) 200
        ((lineTested k s).tbc.correction + truncDiv ((t.tbc.demand : Int) - s.sfe.chans.tcl.value) 4)) ∧
    (t.out .tcv).command = min t.tbc.tcv (s.cfg.maxima.get .tcv) ∧
    (t.out .tsv).command = if t.tbc.state.tsv = true then 1 else 0 := by
  have hsfe : (lineTested k s).sfe = s.sfe := touches_lineTested k s .sfe (by decide)
  have hcfg : (lineTested k s).cfg = s.cfg := touches_lineTested k s .cfg (by decide)
  have hcfgT : t.cfg = s.cfg := ht ▸ touches_lineDriven k s .cfg (by decide)
  have hsfeT : t.sfe = s.sfe := ht ▸ touches_lineDriven k s .sfe (by decide)
  have hvalidT : t.tclValid = s.tclValid := by rw [State.tclValid, State.tclValid, hsfeT]
  have hvalid : (lineTested k s).tclValid = s.tclValid := by rw [State.tclValid, State.tclValid, hsfe]
  have hover := (brakesKept_driveLine (lineTested k s)).overpressure
  have htcv := driveLine_tcv (lineTested k s)
  have hcorrection := driveLine_correction (lineTested k s)
  obtain ⟨houtTcv, houtTsv⟩ := driveLine_outs (lineTested k s)
  rw [← driveLine_state] at houtTsv
  rw [← ht] at hover htcv hcorrection houtTcv houtTsv
  rw [hvalid, ← hover, hsfe] at hcorrection
  rw [tcvCommand, hvalidT, hcfgT] at htcv
  simp only [Bool.not_eq_true'] at htcv
  exact ⟨htcv, hcorrection, houtTcv.trans (by rw [hcfg]), houtTsv⟩

/-- Settles O42: the interval in its parts; the last of them writes demand, correction and valves. -/
theorem trailerInterval : Obligations.TrailerInterval := by
  intro k s hrun
  obtain ⟨hstation, hbrake, hsource⟩ := lineDriven_brake k s
  obtain ⟨hb, ho, hh⟩ := lineDriven_terms k s
  obtain ⟨hdemand, hcontributor⟩ := driveLine_demand (lineTested k s)
  obtain ⟨htcv, hcorrection, houtTcv, houtTsv⟩ := lineDriven_line k s rfl
  have hvalid : s.tclValid = false ↔ s.sfe.chans.tcl.state ≠ .valid := by simp [State.tclValid]
  refine ⟨_, exec_tbcControlInterval k hrun, lineDriven_pins k s, touches_lineDriven k s, ?_, ?_, ?_, ?_, houtTcv, ?_,
    fun hparked => lineDriven_parked k hparked⟩
  all_goals generalize driveLine (lineTested k s) = t at *
  · rintro own station rfl rfl
    rw [← stationBrake_eq]
    refine ⟨hstation, fun a b ha hb => ?_, fun a ha hb => ?_, fun b ha hb => ?_, fun ha hb => ?_⟩
    · rw [show localBrake s = some a from ha, hb, brakeOf_both] at hbrake hsource
      exact ⟨hbrake, hsource⟩
    · rw [show localBrake s = some a from ha, hb] at hbrake hsource
      exact ⟨hbrake, hsource⟩
    · rw [show localBrake s = none from ha, hb] at hbrake hsource
      exact ⟨hbrake, hsource⟩
    · rw [show localBrake s = none from ha, hb] at hbrake hsource
      exact ⟨hbrake, hsource⟩
  · rintro b o h rfl rfl rfl
    rw [← hb, ← ho, ← hh]
    refine ⟨fun hstate => ⟨?_, fun hne => ?_⟩, fun hready hfault => ?_⟩
    · exact hdemand.trans (demandOf_regulated ((regulates_iff _).mpr hstate))
    · exact hcontributor.trans (demandOf_contributor (hdemand ▸ hne))
    · have hidle : t.tbc.state.regulates = false := by
        rw [← Bool.not_eq_true, regulates_iff]
        tauto
      exact hdemand.trans (congrArg Prod.fst (demandOf_idle hidle))
  · intro hzero
    exact ⟨hcontributor.trans (demandOf_zero (hdemand.symm.trans hzero)), hcorrection.trans (if_pos hzero)⟩
  · rintro table rfl
    refine ⟨fun hnone => ?_, fun hne hfree hlost => ?_, fun hne hfree hsure => ?_⟩
    · rw [htcv]
      by_cases hzero : t.tbc.demand = 0
      · exact if_pos hzero
      · rw [if_neg hzero, if_pos (hnone.resolve_left hzero)]
    · rw [htcv, if_neg hne, if_neg (by simp [hfree]), if_pos (hvalid.mpr hlost)]
    · have hnot : ¬ s.tclValid = false := fun h => hvalid.mp h hsure
      rw [if_neg hne, if_neg (by simp [hfree]), if_neg hnot] at htcv hcorrection
      rw [htcv, hcorrection]
      simp only [clampInt]
      omega
  · rw [houtTsv]
    simp only [tsv_iff]

end Sys2Proof.Proofs
end

