-- ==== Sys2Proof/Proofs/TrailerEvents.lean ====
section
/-! SUPPORT. The trailer's events (R109, R148, R153, R163, R164): what TBR, TCL and TSL events write, and the
statement about them. -/

namespace Sys2Proof.Proofs

open Sys2Proof Sys2Proof.Machine

/-! ## A TBR event (R109, R148) -/

section
variable (s : State)

theorem brakeOf_fst (own station : Option Nat) : (brakeOf own station).1 =
    match own with
    | none => station
    | some a => some (max a (station.getD 0)) := by
  cases own with
  | none => cases station <;> rfl
  | some a =>
    cases station with
    | none => simp [brakeOf]
    | some b => rw [brakeOf_both]; rfl

/-- The brake pressure written, before the demand follows it. -/
def brakeWritten (s : State) : State :=
  s.withTbc { s.tbc with brake := (brakeOf (localBrake s) s.tbc.station).1,
                         brakeSource := (brakeOf (localBrake s) s.tbc.station).2 }

theorem writeBrake_eq : writeBrake s =
    if (brakeEvent (brakeWritten s)).tbc.state.regulates = true then writeDemand (brakeEvent (brakeWritten s))
    else brakeEvent (brakeWritten s) := rfl

/-- The FDC takes the brake event while its timer runs (R109). -/
theorem brakeEvent_eq {s : State} (hrun : s.mc.mode.controllersRun = true) :
    brakeEvent s = actOnReason (s.withReasons (s.fdc.reasons.withBrake s.tbc.brake)) := if_pos hrun

theorem writeBrake_fdc : (writeBrake s).fdc = (brakeEvent (brakeWritten s)).fdc := by
  rw [writeBrake_eq]
  split
  · exact touches_writeDemand _ .fdc (by decide)
  · rfl

theorem writeBrake_fdv : (writeBrake s).out .fdv = (brakeEvent (brakeWritten s)).out .fdv := by
  rw [writeBrake_eq]
  split
  · exact (writeDemand_frame _).others .fdv (by decide) (by decide)
  · rfl

theorem takeTbr_tbc : ∃ v, (takeTbr s).tbc = { (writeBrake s).tbc with tcv := v } := by
  unfold takeTbr
  dsimp only
  split
  · exact ⟨_, recomputeTcv_tbc _⟩
  · exact ⟨(writeBrake s).tbc.tcv, rfl⟩

theorem takeTbr_fdc : (takeTbr s).fdc = (writeBrake s).fdc := by
  unfold takeTbr
  dsimp only
  split
  · exact touches_recomputeTcv _ .fdc (by decide)
  · rfl

theorem takeTbr_fdv : (takeTbr s).out .fdv = (writeBrake s).out .fdv := by
  unfold takeTbr
  dsimp only
  split
  · exact (writeTcv_apart _ _).1 .fdv (by decide)
  · rfl

theorem touches_takeTbr : Touches [.vdb, .fdc, .tbc] s (takeTbr s) :=
  touches_ite _ (also (touches_writeBrake s) (touches_recomputeTcv _)) (touches_writeBrake s)

theorem takeTbr_brake : (takeTbr s).tbc.brake = (brakeOf (localBrake s) s.tbc.station).1 ∧
    (takeTbr s).tbc.station = s.tbc.station := by
  obtain ⟨v, htaken⟩ := takeTbr_tbc s
  obtain ⟨d, c, hwritten⟩ := writeBrake_tbc s
  rw [htaken, hwritten]
  exact ⟨rfl, rfl⟩
end

theorem braking_withBrake_iff (p : Option Nat) (r : Reasons) :
    (r.withBrake p).braking = true ↔ ∃ v : Nat, p = some v ∧ 150 < v := by
  rw [withBrake_eq]
  exact (Option.any_eq_true _ _).trans (by simp)

theorem brakeUnmeasured_withBrake_iff (p : Option Nat) (r : Reasons) :
    (r.withBrake p).brakeUnmeasured = true ↔ p = none := by
  rw [withBrake_eq]
  exact Option.isNone_iff_eq_none

/-- Brakes that are not free are a reason (R109). -/
theorem withBrake_ne_none {p : Option Nat} (h : ¬ ∃ v : Nat, p = some v ∧ v ≤ 150) (r : Reasons) :
    r.withBrake p ≠ .none := by
  cases p with
  | none => exact fun heq => absurd (congrArg Reasons.brakeUnmeasured heq) (by simp [withBrake_eq, Reasons.none])
  | some v =>
    have hv : 150 < v := by simpa using h
    exact fun heq => absurd (congrArg Reasons.braking heq) (by simp [withBrake_eq, Reasons.none, hv])

/-- The front drive after a brake event. -/
theorem takeTbr_reasons {s : State} (hrun : s.mc.mode.controllersRun = true) :
    (takeTbr s).fdc.reasons = s.fdc.reasons.withBrake (takeTbr s).tbc.brake := by
  have hevent := brakeEvent_eq (s := brakeWritten s) hrun
  rw [takeTbr_fdc, writeBrake_fdc, hevent, actOnReason_reasons, (takeTbr_brake s).1]
  rfl

theorem takeTbr_engages {s : State} (hrun : s.mc.mode.controllersRun = true)
    (hopen : s.fdc.state = .releasing ∨ s.fdc.state = .released) (hbrakes : ¬ BrakesFree (takeTbr s)) :
    (takeTbr s).fdc.state = .engaging ∧ ((takeTbr s).out .fdv).command = 0 := by
  unfold BrakesFree at hbrakes
  rw [(takeTbr_brake s).1] at hbrakes
  have hevent := (brakeEvent_eq (s := brakeWritten s) hrun).trans
    (actOnReason_of_open (s := brakeWritten s) hopen (withBrake_ne_none hbrakes _))
  rw [takeTbr_fdc, writeBrake_fdc, takeTbr_fdv, writeBrake_fdv, hevent, enterFdc_fdc, enterFdc_command]
  exact ⟨rfl, rfl⟩

/-- A regulated trailer's demand covers the new brake term (R148, R160). -/
theorem takeTbr_demand {s : State} (hstate : s.tbc.state = .ready ∨ s.tbc.state = .supplyFault)
    (hfits : applyTable s.cfg.brakeCurve ((takeTbr s).tbc.brake.getD 0) ≤ 1500) :
    applyTable s.cfg.brakeCurve ((takeTbr s).tbc.brake.getD 0) ≤ (takeTbr s).tbc.demand := by
  have htbc : (brakeEvent (brakeWritten s)).tbc = (brakeWritten s).tbc := brakeEvent_tbc _
  have hreg : (brakeEvent (brakeWritten s)).tbc.state.regulates = true := by
    rw [htbc]
    exact (regulates_iff _).mpr hstate
  have hcfg : (brakeEvent (brakeWritten s)).cfg = s.cfg :=
    (touches_brakeEvent (brakeWritten s) .cfg (by decide) : _ = (brakeWritten s).cfg)
  have hterm : brakeTerm (brakeEvent (brakeWritten s)) =
      applyTable s.cfg.brakeCurve ((takeTbr s).tbc.brake.getD 0) := by
    rw [brakeTerm, hcfg, htbc, (takeTbr_brake s).1]
    rfl
  obtain ⟨v, htaken⟩ := takeTbr_tbc s
  have hdemand : (takeTbr s).tbc.demand = (demandOf (brakeEvent (brakeWritten s))).1 := by
    rw [htaken, writeBrake_eq, if_pos hreg, writeDemand_tbc]
  rw [hdemand, demandOf_regulated hreg, hterm]
  omega

/-! ## Events taken from the list -/

section
variable {ev : SfeEvent} {rest : List Delivery} {s : State} (hrun : s.mc.mode.controllersRun = true)
include hrun

theorem exec_tbrStateEvent (h : OldestEvent .tbc .tbr ev rest s) :
    exec .tbrStateEvent s = .next (takeTbr (s.withEvents rest)) := by
  change execTbrStateEvent s = _
  unfold execTbrStateEvent
  rw [takeEvent_oldest h]
  exact congrArg Host.Outcome.next (if_pos hrun)

theorem exec_tclEvent (h : OldestEvent .tbc .tcl ev rest s) :
    exec .tclEvent s = .next (takeTcl ev (s.withEvents rest)) := by
  change execTclEvent s = _
  unfold execTclEvent
  rw [takeEvent_oldest h]
  exact congrArg Host.Outcome.next (if_pos hrun)

theorem exec_tslEvent (h : OldestEvent .tbc .tsl ev rest s) :
    exec .tslEvent s = .next (takeTsl ev (s.withEvents rest)) := by
  change execTslEvent s = _
  unfold execTslEvent
  rw [takeEvent_oldest h]
  exact congrArg Host.Outcome.next (if_pos hrun)
end

/-! ## A TCL event (R163, R164) -/

section
variable (s : State)

/-- The overpressure flag and the correction written, with TCV behind them. -/
def pressureSet (high : Bool) (c : Int) (s : State) : State :=
  s.withTbc { s.tbc with overpressure := high, correction := c }

theorem takeTcl_highEnter : takeTcl .highEnter s =
    raise .tclOverpressure (writeTcv 0 (pressureSet true s.tbc.correction s)) := rfl

theorem takeTcl_highLeave : takeTcl .highLeave s =
    clearFault .tclOverpressure (recomputeTcv (pressureSet false s.tbc.correction s)) := rfl

theorem takeTcl_failed : takeTcl .failed s =
    raise .tclFailed (clearFault .tclOverpressure (recomputeTcv (pressureSet false 0 s))) := rfl

theorem touches_pressureSet (high : Bool) (c : Int) : Touches [.vdb, .tbc, .mc] s (pressureSet high c s) :=
  (touches_withTbc s _).mono (by decide)

theorem touches_takeTcl (ev : SfeEvent) : Touches [.vdb, .tbc, .mc] s (takeTcl ev s) := by
  have hset := touches_pressureSet s
  cases ev
  case highEnter => exact also (also (hset _ _) (touches_writeTcv _ _)) (touches_raise _ _)
  case highLeave => exact also (also (hset _ _) (touches_recomputeTcv _)) (touches_clearFault _ _)
  case failed =>
    exact also (also (also (hset _ _) (touches_recomputeTcv _)) (touches_clearFault _ _)) (touches_raise _ _)
  case valid => exact (touches_clearFault _ s).mono (by decide)
  case starting | lowEnter | lowLeave => exact .refl _ s

/-- What a TCL event writes of the trailer's record. -/
theorem takeTcl_tbc (ev : SfeEvent) : ∃ b c v,
    (takeTcl ev s).tbc = { s.tbc with overpressure := b, correction := c, tcv := v } := by
  have htcv (v : Nat) (b : Bool) (c : Int) : (writeTcv v (pressureSet b c s)).tbc =
      { s.tbc with overpressure := b, correction := c, tcv := v } := writeTcv_tbc _ _
  have hraise (c : FaultCode) (u : State) : (raise c u).tbc = u.tbc := touches_raise c u .tbc (by decide)
  have hclear (c : FaultCode) (u : State) : (clearFault c u).tbc = u.tbc := touches_clearFault c u .tbc (by decide)
  cases ev
  case highEnter => exact ⟨_, _, _, by rw [takeTcl_highEnter, hraise, htcv]⟩
  case highLeave => exact ⟨_, _, _, by rw [takeTcl_highLeave, hclear, recomputeTcv, htcv]⟩
  case failed => exact ⟨_, _, _, by rw [takeTcl_failed, hraise, hclear, recomputeTcv, htcv]⟩
  case valid | starting | lowEnter | lowLeave =>
    exact ⟨s.tbc.overpressure, s.tbc.correction, s.tbc.tcv, rfl⟩

theorem pressureWritten_mc (v : Nat) (b : Bool) (c : Int) : (writeTcv v (pressureSet b c s)).mc = s.mc :=
  touches_writeTcv (pressureSet b c s) v .mc (by decide)

/-- TCV after the flag and the correction have gone with the channel (R163). -/
theorem tcvCommand_pressureSet_of_failed (h : s.sfe.chans.tcl.state = .failed) :
    tcvCommand (pressureSet false 0 s) =
      if s.tbc.demand = 0 then 0 else applyTable s.cfg.trailerCurve s.tbc.demand := by
  have hlost : (pressureSet false 0 s).tclValid = false := by simp [State.tclValid, pressureSet, h]
  unfold tcvCommand
  rw [hlost]
  rfl
end

/-- Settles O44: a TBR event through the brake event and the demand, a TCL event by its kind, a TSL event by its. -/
theorem trailerTakesSfeEvents : Obligations.TrailerTakesSfeEvents := by
  intro ev rest s hrun
  have hevents := touches_withEvents s rest
  have hraise (c : FaultCode) (u : State) : (raise c u).tbc = u.tbc := touches_raise c u .tbc (by decide)
  have hclear (c : FaultCode) (u : State) : (clearFault c u).tbc = u.tbc := touches_clearFault c u .tbc (by decide)
  refine ⟨fun h => ?_, fun h => ?_, fun h => ?_⟩
  · have htouch := touches_takeTbr (s.withEvents rest)
    obtain ⟨hbrake, hstation⟩ := takeTbr_brake (s.withEvents rest)
    have hreasons := takeTbr_reasons (s := s.withEvents rest) hrun
    rw [localBrake_congr (s := s) (t := s.withEvents rest) rfl] at hbrake
    refine ⟨_, exec_tbrStateEvent hrun h, htouch .events (by decide),
      also (hevents.mono (by decide)) htouch, hstation, fun hlost => ?_, fun hvalid => ?_, ?_, ?_,
      fun hopen hbrakes => takeTbr_engages (s := s.withEvents rest) hrun hopen hbrakes,
      fun hstate hfits => takeTbr_demand (s := s.withEvents rest) hstate hfits⟩
    · rw [hbrake, brakeOf_fst, localBrake, if_neg hlost]
      rfl
    · rw [hbrake, brakeOf_fst, localBrake, if_pos hvalid]
      rfl
    · rw [hreasons]
      exact brakeUnmeasured_withBrake_iff _ _
    · rw [hreasons]
      exact braking_withBrake_iff _ _
  · have htouch := touches_takeTcl (s.withEvents rest) ev
    obtain ⟨b, c, v, htbc⟩ := takeTcl_tbc (s.withEvents rest) ev
    refine ⟨_, exec_tclEvent hrun h, htouch .events (by decide), also (hevents.mono (by decide)) htouch,
      by rw [htbc]; rfl, by rw [htbc]; rfl, ?_, ?_, ?_, ?_⟩
    · rintro rfl
      rw [takeTcl_highEnter, hraise, writeTcv_tbc, raise_out, writeTcv_command]
      exact ⟨rfl, Nat.zero_min _, raise_mc_congr _ (pressureWritten_mc (s.withEvents rest) _ _ _)⟩
    · rintro rfl
      rw [takeTcl_highLeave, hclear, recomputeTcv_tbc]
      exact ⟨rfl, rfl, clearFault_mc_congr _ (pressureWritten_mc (s.withEvents rest) _ _ _)⟩
    · rintro rfl
      rw [takeTcl_failed, hraise, hclear, recomputeTcv_tbc]
      refine ⟨rfl, rfl, raise_mc_congr _ (clearFault_mc_congr _ (pressureWritten_mc (s.withEvents rest) _ _ _)),
        fun hfailed => ?_⟩
      exact tcvCommand_pressureSet_of_failed (s.withEvents rest) hfailed
    · rintro rfl
      exact ⟨rfl, rfl, clearFault_mc_congr _ rfl⟩
  · have hset (x : Tbc) : Touches [.tbc, .events] s ((s.withEvents rest).withTbc x) :=
      also (hevents.mono (by decide)) (touches_withTbc _ x)
    refine ⟨_, exec_tslEvent hrun h, ?_, ?_, ?_, ?_⟩
    · cases ev
      case valid => unfold takeTsl; dsimp only; split <;> rfl
      all_goals rfl
    · cases ev
      case valid => exact touches_ite _ (hset _) (hevents.mono (by decide))
      case highEnter | highLeave => exact hevents.mono (by decide)
      all_goals exact hset _
    · rintro (rfl | rfl | rfl) <;> rfl
    · rintro (rfl | ⟨rfl, hrange⟩)
      · rfl
      · exact congrArg State.tbc (if_pos hrange)

end Sys2Proof.Proofs
end

