-- ==== Sys2Proof/Proofs/TrailerSteps.lean ====
section
/-! SUPPORT. The single changes of the trailer where they are due, and what each step of its interval changes of the
state, the timers and the fault table (R148 to R158). -/

namespace Sys2Proof.Proofs

open Sys2Proof Sys2Proof.Machine

/-! ## Fault codes that a step moves -/

/-- Codes outside a list keep their condition, and the table grows by at most a number of entries. -/
structure FaultsMoved (l : List FaultCode) (n : Nat) (s t : State) : Prop where
  others : ∀ d ∉ l, t.faultPresent d = s.faultPresent d
  length : t.mc.faults.length ≤ s.mc.faults.length + n

section
variable {l m : List FaultCode} {n k : Nat} {s t u : State}

theorem faultsMoved_of_mc (h : t.mc = s.mc) : FaultsMoved l n s t :=
  ⟨fun d _ => faultPresent_congr h d, by rw [h]; exact Nat.le_add_right _ _⟩

theorem faultsMoved_of_touches {p : List Part} (h : Touches p s t) (hmc : Part.mc ∉ p) : FaultsMoved l n s t :=
  faultsMoved_of_mc (h .mc hmc)

theorem faultsMoved_trans (h : FaultsMoved l n s t) (h' : FaultsMoved m k t u) :
    FaultsMoved (l ++ m) (n + k) s u where
  others d hd := by
    rw [List.mem_append, not_or] at hd
    exact (h'.others d hd.2).trans (h.others d hd.1)
  length := by
    have := h.length
    have := h'.length
    omega

theorem faultsMoved_raise (c : FaultCode) (h : FaultsMoved l 0 s t) (hc : c ∈ l) : FaultsMoved l 1 s (raise c t) where
  others d hd := (faultPresent_raise_ne t (ne_of_mem_of_not_mem hc hd).symm).trans (h.others d hd)
  length := (raise_length_le c t).trans (Nat.succ_le_succ h.length)

theorem faultsMoved_raiseLatched (c : FaultCode) (h : FaultsMoved l 0 s t) (hc : c ∈ l) :
    FaultsMoved l 1 s (raiseLatched c t) where
  others d hd := (faultPresent_raiseLatched_ne t (ne_of_mem_of_not_mem hc hd).symm).trans (h.others d hd)
  length := (raiseLatched_length_le c t).trans (Nat.succ_le_succ h.length)

theorem faultsMoved_clearFault (c : FaultCode) (h : FaultsMoved l n s t) (hc : c ∈ l) :
    FaultsMoved l n s (clearFault c t) where
  others d hd := (faultPresent_clearFault_ne t (ne_of_mem_of_not_mem hc hd).symm).trans (h.others d hd)
  length := (clearFault_length c t).trans_le h.length

theorem faultsMoved_mono (h : FaultsMoved l n s t) (hn : n ≤ k) : FaultsMoved l k s t :=
  ⟨h.others, h.length.trans (Nat.add_le_add_left hn _)⟩
end

/-! ## The coupling (R150) -/

section
variable (s : State)

/-- The coupled flag written with its samples begun anew. -/
def coupledSet (k : Bool) (s : State) : State := s.withTbc { s.tbc with coupled := k, samples := 0 }

theorem changeCoupling_of_absent {s : State} (h : s.tbc.state = .absent) :
    changeCoupling true s = enterCharging (coupledSet true s) := by
  unfold changeCoupling
  simp only [State.withTbc_tbc, h]
  rfl

theorem changeCoupling_of_coupled {s : State}
    (h : s.tbc.state = .charging ∨ s.tbc.state = .ready ∨ s.tbc.state = .supplyFault) :
    changeCoupling false s = enterBreakaway (coupledSet false s) := by
  unfold changeCoupling coupledSet
  rcases h with h | h | h <;> simp only [State.withTbc_tbc, h] <;> rfl

theorem changeCoupling_of_other {k : Bool} {s : State} (h : (s.tbc.state = .breakaway ∨ s.tbc.state = .parked) ∨
    (s.tbc.state = .absent ∧ k = false) ∨
    ((s.tbc.state = .charging ∨ s.tbc.state = .ready ∨ s.tbc.state = .supplyFault) ∧ k = true)) :
    changeCoupling k s = coupledSet k s := by
  unfold changeCoupling coupledSet
  rcases h with (h | h) | ⟨h, rfl⟩ | ⟨h | h | h, rfl⟩ <;> simp only [State.withTbc_tbc, h] <;> rfl

/-- A coupling change charges, breaks away, or only writes the flag. -/
theorem changeCoupling_cases (k : Bool) :
    (s.tbc.state = .absent ∧ k = true ∧ changeCoupling k s = enterCharging (coupledSet k s)) ∨
    ((s.tbc.state = .charging ∨ s.tbc.state = .ready ∨ s.tbc.state = .supplyFault) ∧ k = false ∧
      changeCoupling k s = enterBreakaway (coupledSet k s)) ∨
    changeCoupling k s = coupledSet k s := by
  cases k with
  | true =>
    by_cases h : s.tbc.state = .absent
    · exact .inl ⟨h, rfl, changeCoupling_of_absent h⟩
    · exact .inr (.inr (changeCoupling_of_other (by cases hs : s.tbc.state <;> simp_all)))
  | false =>
    by_cases h : s.tbc.state = .charging ∨ s.tbc.state = .ready ∨ s.tbc.state = .supplyFault
    · exact .inr (.inl ⟨h, rfl, changeCoupling_of_coupled h⟩)
    · exact .inr (.inr (changeCoupling_of_other (by cases hs : s.tbc.state <;> simp_all)))

theorem brakesKept_changeCoupling (k : Bool) : BrakesKept (coupledSet k s) (changeCoupling k s) := by
  obtain ⟨-, -, h⟩ | ⟨-, -, h⟩ | h := changeCoupling_cases s k <;> rw [h]
  · constructor <;> rw [enterCharging_tbc]
  · constructor <;> rw [enterBreakaway_tbc]
  · exact brakesKept_refl _

theorem faultsMoved_changeCoupling (k : Bool) : FaultsMoved [.trailerBreakaway] 1 s (changeCoupling k s) := by
  have hset : Touches [.vdb, .tbc, .lc] s (coupledSet k s) := (touches_withTbc s _).mono (by decide)
  obtain ⟨-, -, h⟩ | ⟨-, -, h⟩ | h := changeCoupling_cases s k <;> rw [h]
  · exact faultsMoved_of_touches (hset.trans (touches_enterCharging _)) (by decide)
  · exact faultsMoved_raiseLatched _ (faultsMoved_of_touches (hset.trans (touches_enterIdle _)) (by decide))
      (List.mem_singleton.mpr rfl)
  · exact faultsMoved_of_touches hset (by decide)
end

/-! ## COUPLING_CHANGE where it is due -/

section
variable {s : State}

theorem recomputeTcv_tsv (s : State) : (recomputeTcv s).out .tsv = s.out .tsv := (writeTcv_apart s _).1 .tsv (by decide)

theorem recomputeTcv_zero (h : s.tbc.demand = 0) : ((recomputeTcv s).out .tcv).command = 0 := by
  have hzero : tcvCommand s = 0 := if_pos h
  rw [recomputeTcv, writeTcv_command, hzero, Nat.zero_min]

theorem recomputeTcv_mc (s : State) : (recomputeTcv s).mc = s.mc := touches_recomputeTcv s .mc (by decide)

theorem enterCharging_tsv (s : State) : ((enterCharging s).out .tsv).command = 1 := (enterIdle_outs _).1

theorem enterBreakaway_tsv (s : State) : ((enterBreakaway s).out .tsv).command = 0 := (enterIdle_outs (st := .breakaway) s).1

theorem enterCharging_mc (s : State) : (enterCharging s).mc = s.mc := touches_enterCharging s .mc (by decide)

theorem raiseLatched_mc_congr {s t : State} (c : FaultCode) (h : t.mc = s.mc) :
    (raiseLatched c t).mc = (raiseLatched c s).mc := by
  simp only [raiseLatched, State.withFaults, State.faultTable, State.withMc_mc, h]
end

/-! ## The three changes of the supply line (R152 to R154) -/

/-- A demand as the records of a state ask it in a regulated state (R160). -/
theorem demandOf_terms {s : State} {st : TrailerState} (h : st.regulates = true) :
    (demandOf (s.withTbc { s.tbc with state := st })).1 =
      min 1500 (max (applyTable s.cfg.brakeCurve (s.tbc.brake.getD 0))
        (max (if s.scu.motion.direction = .unknown then 0 else min 600 (2 * s.shc.overrun))
          (if s.shc.state = .shuttling ∧ 1000 < s.scu.motion.vGround then 200 else 0))) :=
  demandOf_regulated h

/-- An entry to a regulated state with TCV behind it. -/
theorem regulated_recomputed {s u : State} {st : TrailerState} (htbc : u.tbc = (enterRegulated st s).tbc)
    (hvdb : u.vdb = (enterRegulated st s).vdb) (h : st.regulates = true) :
    (recomputeTcv u).tbc.state = st ∧ (recomputeTcv u).tbc.timer = 0 ∧ (recomputeTcv u).tbc.lowTimer = 0 ∧
    (recomputeTcv u).tbc.brake = s.tbc.brake ∧ ((recomputeTcv u).out .tsv).command = 1 ∧
    (recomputeTcv u).tbc.demand = min 1500 (max (applyTable s.cfg.brakeCurve (s.tbc.brake.getD 0))
      (max (if s.scu.motion.direction = .unknown then 0 else min 600 (2 * s.shc.overrun))
        (if s.shc.state = .shuttling ∧ 1000 < s.scu.motion.vGround then 200 else 0))) := by
  have htsv : st.tsv = true := by
    rw [tsv_iff]
    exact .inr ((regulates_iff st).mp h)
  rw [recomputeTcv_tsv, recomputeTcv_tbc, htbc, out_of_vdb hvdb, enterRegulated_tsv, htsv, enterRegulated_tbc]
  exact ⟨rfl, rfl, rfl, rfl, rfl, demandOf_terms h⟩

theorem enterRegulated_mc (st : TrailerState) (s : State) : (enterRegulated st s).mc = s.mc :=
  touches_enterRegulated s .mc (by decide)

/-! ## The steps of the interval -/

section
variable (s : State)

theorem faultsMoved_countUnknown : FaultsMoved [.brakeUnknown] 1 s (countUnknown s) := by
  have hset (x : Tbc) : FaultsMoved [.brakeUnknown] 0 s (s.withTbc x) := faultsMoved_of_mc rfl
  have hmem : FaultCode.brakeUnknown ∈ [FaultCode.brakeUnknown] := List.mem_singleton.mpr rfl
  unfold countUnknown
  split
  · exact faultsMoved_mono (faultsMoved_clearFault _ (hset _) hmem) (Nat.zero_le 1)
  split
  · exact faultsMoved_raise _ (hset _) hmem
  · exact faultsMoved_mono (hset _) (Nat.zero_le 1)

/-- BRAKE_UNKNOWN by the brake pressure and its timer (R148). -/
theorem countUnknown_clears {s : State} (h : s.tbc.brake ≠ none) :
    (countUnknown s).faultPresent .brakeUnknown = false := by
  have hclears : countUnknown s = clearFault .brakeUnknown (s.withTbc { s.tbc with unknown := 0 }) :=
    if_pos (Option.isSome_iff_ne_none.mpr h)
  rw [hclears]
  exact faultPresent_clearFault _ _

theorem countUnknown_raises {s : State} (h : s.tbc.brake = none) (hlast : s.tbc.unknown + 1 = 50)
    (hroom : s.mc.faults.length < 16) : (countUnknown s).faultPresent .brakeUnknown = true := by
  have hraises : countUnknown s = raise .brakeUnknown (s.withTbc { s.tbc with unknown := 50 }) :=
    (if_neg (by simp [h])).trans (if_pos hlast)
  rw [hraises]
  exact faultPresent_raise _ _ hroom

theorem compareBrakes_of_one {s : State} (h : localBrake s = none ∨ s.tbc.station = none) :
    compareBrakes s = s.withTbc { s.tbc with disagree := 0, agree := 0 } := by
  unfold compareBrakes
  rcases h with h | h
  · rw [h]
  · rw [h]
    cases localBrake s <;> rfl

theorem compareBrakes_of_apart {s : State} {a b : Nat} (ha : localBrake s = some a) (hb : s.tbc.station = some b)
    (hapart : 150 < ((a : Int) - b).natAbs) : compareBrakes s =
      if 50 ≤ s.tbc.disagree + 1 then raise .brakeDisagree (s.withTbc { s.tbc with disagree := 0, agree := 0 })
      else s.withTbc { s.tbc with disagree := s.tbc.disagree + 1, agree := 0 } := by
  unfold compareBrakes
  rw [ha, hb]
  simp only [hapart, if_true, disagreeDue, decide_eq_true_eq]
  rfl

theorem compareBrakes_of_agreed {s : State} {a b : Nat} (ha : localBrake s = some a) (hb : s.tbc.station = some b)
    (hclose : ((a : Int) - b).natAbs ≤ 150) : compareBrakes s =
      if 50 ≤ s.tbc.agree + 1 ∧ s.faultPresent .brakeDisagree = true then
        clearFault .brakeDisagree (s.withTbc { s.tbc with disagree := 0, agree := 0 })
      else s.withTbc { s.tbc with agree := min 50 (s.tbc.agree + 1), disagree := 0 } := by
  have hdue (x : Tbc) (hx : x.agree = min 50 (s.tbc.agree + 1)) : agreeDue (s.withTbc x) = true ↔
      50 ≤ s.tbc.agree + 1 ∧ s.faultPresent .brakeDisagree = true := by
    have hpresent : (s.withTbc x).faultPresent .brakeDisagree = s.faultPresent .brakeDisagree := rfl
    rw [agreeDue, hpresent, State.withTbc_tbc, hx, Bool.and_eq_true, decide_eq_true_eq]
    simp [brakeLimit]
  unfold compareBrakes
  rw [ha, hb]
  simp only [Nat.not_lt.mpr hclose, if_false]
  exact ite_congr (propext (hdue _ rfl)) (fun _ => rfl) (fun _ => rfl)

theorem faultsMoved_compareBrakes : FaultsMoved [.brakeDisagree] 1 s (compareBrakes s) := by
  have hset (x : Tbc) : FaultsMoved [.brakeDisagree] 0 s (s.withTbc x) := faultsMoved_of_mc rfl
  have hmem : FaultCode.brakeDisagree ∈ [FaultCode.brakeDisagree] := List.mem_singleton.mpr rfl
  have hone (x : Tbc) := faultsMoved_mono (hset x) (Nat.zero_le 1)
  cases ha : localBrake s with
  | none => rw [compareBrakes_of_one (.inl ha)]; exact hone _
  | some a =>
    cases hb : s.tbc.station with
    | none => rw [compareBrakes_of_one (.inr hb)]; exact hone _
    | some b =>
      by_cases hapart : 150 < ((a : Int) - b).natAbs
      · rw [compareBrakes_of_apart ha hb hapart]
        split
        · exact faultsMoved_raise _ (hset _) hmem
        · exact hone _
      · rw [compareBrakes_of_agreed ha hb (Nat.not_lt.mp hapart)]
        split
        · exact faultsMoved_mono (faultsMoved_clearFault _ (hset _) hmem) (Nat.zero_le 1)
        · exact hone _

theorem faultsMoved_stateTests : FaultsMoved [.trailerSupplyLost, .trailerChargeFailed] 1 s (stateTests s) := by
  have hcount (b : Bool) (m n : Nat) : FaultsMoved [.trailerSupplyLost, .trailerChargeFailed] 0 s (counted b m n s) :=
    faultsMoved_of_mc rfl
  have hentry (st : TrailerState) (b : Bool) (m n : Nat) :
      FaultsMoved [.trailerSupplyLost, .trailerChargeFailed] 0 s (enterRegulated st (counted b m n s)) :=
    faultsMoved_of_mc (enterRegulated_mc _ _)
  have hone (b : Bool) (m n : Nat) := faultsMoved_mono (hcount b m n) (Nat.zero_le 1)
  have hrecover (b : Bool) (m n : Nat) := faultsMoved_mono (faultsMoved_clearFault .trailerChargeFailed
    (faultsMoved_clearFault .trailerSupplyLost (hentry .ready b m n) (by decide)) (by decide)) (Nat.zero_le 1)
  cases h : s.tbc.state with
  | charging =>
    rw [stateTests_of_charging h]
    exact holds_ite (hrecover _ _ _) (holds_ite (faultsMoved_raise _ (hentry _ _ _ _) (by decide)) (hone _ _ _))
  | ready =>
    rw [stateTests_of_ready h rfl]
    exact holds_ite (faultsMoved_raise _ (hentry _ _ _ _) (by decide)) (hone _ _ _)
  | supplyFault =>
    rw [stateTests_of_supplyFault h rfl]
    exact holds_ite (hrecover _ _ _) (hone _ _ _)
  | absent | breakaway | parked =>
    rw [stateTests_of_other (by simp [h])]
    exact hone _ _ _
end

end Sys2Proof.Proofs
end

