-- ==== Sys2Proof/Proofs/TrailerBrakes.lean ====
section
/-! SUPPORT. The changes of the trailer at its interval (R150 to R158), and the statement about them and the commands
of single changes. -/

namespace Sys2Proof.Proofs

open Sys2Proof Sys2Proof.Machine

/-! ## The coupling at an interval (R150) -/

/-- The state after step 1 of an interval. -/
def settled (k : Bool) (s : State) : State := settleCoupling (presentCoupling k s)

/-- The coupled flag and the samples an interval leaves. -/
def settledFlag (k : Bool) (s : State) : Bool :=
  if k ≠ s.tbc.coupled ∧ 3 ≤ s.tbc.samples + 1 then k else s.tbc.coupled
def settledSamples (k : Bool) (s : State) : Nat :=
  if k = s.tbc.coupled ∨ 3 ≤ s.tbc.samples + 1 then 0 else s.tbc.samples + 1

/-- One sample more of a line that differs. -/
def sampledOnce (k : Bool) (s : State) : State :=
  (presentCoupling k s).withTbc { s.tbc with samples := s.tbc.samples + 1 }

section
variable {k : Bool} {s : State}

theorem settled_of_steady (h : k = s.tbc.coupled) :
    settled k s = (presentCoupling k s).withTbc { s.tbc with samples := 0 } := if_pos h

theorem settled_of_counting (h : k ≠ s.tbc.coupled) (hfew : s.tbc.samples + 1 < 3) :
    settled k s = sampledOnce k s :=
  (if_neg h).trans (if_neg (by simp [couplingDue, couplingSamples, presentCoupling]; omega))

theorem settled_of_changed (h : k ≠ s.tbc.coupled) (hdue : 3 ≤ s.tbc.samples + 1) : settled k s =
    changeCoupling k (sampledOnce k s) :=
  (if_neg h).trans (if_pos (by simp [couplingDue, couplingSamples, presentCoupling]; omega))

theorem brakesKept_settled (k : Bool) (s : State) : BrakesKept
    (s.withTbc { s.tbc with coupled := settledFlag k s, samples := settledSamples k s }) (settled k s) := by
  by_cases h : k = s.tbc.coupled
  · have hflag : settledFlag k s = s.tbc.coupled := if_neg fun hk => hk.1 h
    have hsamples : settledSamples k s = 0 := if_pos (.inl h)
    rw [settled_of_steady h, hflag, hsamples]
    exact ⟨rfl, rfl, rfl, rfl, rfl, rfl, rfl, rfl, rfl, rfl⟩
  · by_cases hdue : 3 ≤ s.tbc.samples + 1
    · have hflag : settledFlag k s = k := if_pos ⟨h, hdue⟩
      have hsamples : settledSamples k s = 0 := if_pos (.inr hdue)
      have hset : BrakesKept (s.withTbc { s.tbc with coupled := k, samples := 0 })
          (coupledSet k (sampledOnce k s)) :=
        ⟨rfl, rfl, rfl, rfl, rfl, rfl, rfl, rfl, rfl, rfl⟩
      rw [settled_of_changed h hdue, hflag, hsamples]
      exact brakesKept_trans hset (brakesKept_changeCoupling _ k)
    · have hflag : settledFlag k s = s.tbc.coupled := if_neg fun hk => hdue hk.2
      have hsamples : settledSamples k s = s.tbc.samples + 1 := if_neg (by tauto)
      rw [settled_of_counting h (by omega), hflag, hsamples]
      exact ⟨rfl, rfl, rfl, rfl, rfl, rfl, rfl, rfl, rfl, rfl⟩

/-- Where the coupling does not change, the state and its timers stand. -/
theorem settled_of_standing (h : k = s.tbc.coupled ∨ s.tbc.samples + 1 < 3) :
    (settled k s).tbc.state = s.tbc.state ∧ (settled k s).tbc.timer = s.tbc.timer ∧
    (settled k s).tbc.lowTimer = s.tbc.lowTimer ∧ (settled k s).tbc.correction = s.tbc.correction := by
  by_cases hk : k = s.tbc.coupled
  · rw [settled_of_steady hk]
    exact ⟨rfl, rfl, rfl, rfl⟩
  · rw [settled_of_counting hk (h.resolve_left hk)]
    exact ⟨rfl, rfl, rfl, rfl⟩

theorem faultsMoved_settled (k : Bool) (s : State) : FaultsMoved [.trailerBreakaway] 1 s (settled k s) := by
  have hset (x : Tbc) : FaultsMoved [.trailerBreakaway] 0 s ((presentCoupling k s).withTbc x) := faultsMoved_of_mc rfl
  by_cases hk : k = s.tbc.coupled
  · rw [settled_of_steady hk]
    exact faultsMoved_mono (hset _) (Nat.zero_le 1)
  · by_cases hdue : 3 ≤ s.tbc.samples + 1
    · rw [settled_of_changed hk hdue]
      have hchange := faultsMoved_trans (hset { s.tbc with samples := s.tbc.samples + 1 } : FaultsMoved _ 0 s (sampledOnce k s)) (faultsMoved_changeCoupling _ k)
      exact ⟨fun d hd => hchange.others d (by simpa using hd), hchange.length⟩
    · rw [settled_of_counting hk (by omega)]
      exact faultsMoved_mono (hset _) (Nat.zero_le 1)

/-- Step 1 enters CHARGING or BREAKAWAY, or leaves the state. -/
theorem settled_state (k : Bool) (s : State) : (settled k s).tbc.state = .charging ∨
    (settled k s).tbc.state = .breakaway ∨ ((settled k s).tbc.state = s.tbc.state ∧
      (settled k s).tbc.correction = s.tbc.correction) := by
  by_cases h : k = s.tbc.coupled ∨ s.tbc.samples + 1 < 3
  · obtain ⟨hstate, -, -, hcorrection⟩ := settled_of_standing h
    exact .inr (.inr ⟨hstate, hcorrection⟩)
  · rw [not_or, Nat.not_lt] at h
    rw [settled_of_changed h.1 h.2]
    obtain ⟨-, -, hchange⟩ | ⟨-, -, hchange⟩ | hchange := changeCoupling_cases
      (sampledOnce k s) k <;> rw [hchange]
    · exact .inl (by rw [enterCharging_tbc])
    · exact .inr (.inl (by rw [enterBreakaway_tbc]))
    · exact .inr (.inr ⟨rfl, rfl⟩)

/-- Only an ABSENT trailer comes to CHARGING in step 1. -/
theorem settled_charging (hne : s.tbc.state ≠ .absent) (h : (settled k s).tbc.state = .charging) :
    s.tbc.state = .charging ∧ (settled k s).tbc.correction = s.tbc.correction := by
  by_cases hstand : k = s.tbc.coupled ∨ s.tbc.samples + 1 < 3
  · obtain ⟨hstate, -, -, hcorrection⟩ := settled_of_standing hstand
    exact ⟨hstate ▸ h, hcorrection⟩
  · rw [not_or, Nat.not_lt] at hstand
    rw [settled_of_changed hstand.1 hstand.2] at h ⊢
    obtain ⟨habsent, -⟩ | ⟨-, -, hchange⟩ | hchange := changeCoupling_cases
      (sampledOnce k s) k
    · exact absurd habsent hne
    · rw [hchange, enterBreakaway_tbc] at h
      exact absurd h (by simp)
    · rw [hchange] at h ⊢
      exact ⟨h, rfl⟩
end

/-! ## The brakes at an interval (R148, R149) -/

section
variable (k : Bool) (s : State)

/-- What step 3 leaves as step 1 left it. -/
theorem brakesTaken_settled : (brakesTaken k s).tbc.state = (settled k s).tbc.state ∧
    (brakesTaken k s).tbc.timer = (settled k s).tbc.timer ∧
    (brakesTaken k s).tbc.lowTimer = (settled k s).tbc.lowTimer ∧
    (brakesTaken k s).tbc.correction = (settled k s).tbc.correction ∧
    (brakesTaken k s).tbc.coupled = (settled k s).tbc.coupled ∧
    (brakesTaken k s).tbc.samples = (settled k s).tbc.samples ∧
    (brakesTaken k s).tbc.stopOrder = (settled k s).tbc.stopOrder ∧
    (brakesTaken k s).tbc.overpressure = (settled k s).tbc.overpressure := by
  obtain ⟨d, c, n, m, h⟩ := takeBrakes_tbc (linesRead k s)
  rw [brakesTaken, h]
  exact ⟨rfl, rfl, rfl, rfl, rfl, rfl, rfl, rfl⟩

/-- The states inside step 3. -/
def brakesWritten (k : Bool) (s : State) : State := writeBrake (linesRead k s)
def unknownCounted (k : Bool) (s : State) : State := countUnknown (brakesWritten k s)

theorem brakesTaken_eq : brakesTaken k s = compareBrakes (unknownCounted k s) := rfl

theorem brakesWritten_mc : (brakesWritten k s).mc = (settled k s).mc := touches_writeBrake _ .mc (by decide)

theorem brakesWritten_tbc : ∃ d c, (brakesWritten k s).tbc = { (linesRead k s).tbc with
    brake := (brakeOf (localBrake s) (stationBrake s)).1, brakeSource := (brakeOf (localBrake s) (stationBrake s)).2
    demand := d, contributor := c } := by
  obtain ⟨d, c, h⟩ := writeBrake_tbc (linesRead k s)
  rw [linesRead_localBrake, linesRead_station] at h
  exact ⟨d, c, h⟩

/-- The readings and timers of step 1 that step 3 counts on. -/
theorem linesRead_timers : (linesRead k s).tbc.unknown = s.tbc.unknown ∧
    (linesRead k s).tbc.disagree = s.tbc.disagree ∧ (linesRead k s).tbc.agree = s.tbc.agree :=
  have h := brakesKept_settled k s
  ⟨h.unknown, h.disagree, h.agree⟩

theorem faultsMoved_unknownCounted : FaultsMoved [.trailerBreakaway, .brakeUnknown] 2 s (unknownCounted k s) := by
  have h := faultsMoved_trans (faultsMoved_trans (faultsMoved_settled k s)
    (faultsMoved_of_mc (l := []) (n := 0) (brakesWritten_mc k s))) (faultsMoved_countUnknown (brakesWritten k s))
  exact ⟨fun d hd => h.others d (by simpa using hd), h.length⟩

theorem faultsMoved_brakesTaken :
    FaultsMoved [.trailerBreakaway, .brakeUnknown, .brakeDisagree] 3 s (brakesTaken k s) := by
  have h := faultsMoved_trans (faultsMoved_unknownCounted k s) (faultsMoved_compareBrakes (unknownCounted k s))
  exact ⟨fun d hd => h.others d (by simpa using hd), h.length⟩

theorem parkTests_mc (u : State) : (parkTests u).mc = u.mc := touches_parkTests u .mc (by decide)

/-- After step 3 only the supply faults move. -/
theorem faultsMoved_lineDriven : FaultsMoved [.trailerSupplyLost, .trailerChargeFailed] 1 (brakesTaken k s)
    (driveLine (lineTested k s)) := by
  have hpark : FaultsMoved [] 0 (brakesTaken k s) (parkTests (brakesTaken k s)) := faultsMoved_of_mc (parkTests_mc _)
  have htests : FaultsMoved [.trailerSupplyLost, .trailerChargeFailed] 1 (parkTests (brakesTaken k s))
      (lineTested k s) := faultsMoved_stateTests _
  have hdrive : FaultsMoved [] 0 (lineTested k s) (driveLine (lineTested k s)) :=
    faultsMoved_of_touches (touches_driveLine _) (by decide)
  have h := faultsMoved_trans (faultsMoved_trans hpark htests) hdrive
  exact ⟨fun d hd => h.others d (by simpa using hd), h.length⟩

theorem lineDriven_unknown : (driveLine (lineTested k s)).tbc.unknown =
    if (driveLine (lineTested k s)).tbc.brake = none then min 50 (s.tbc.unknown + 1) else 0 := by
  have hkept := brakesKept_lineDriven k s
  obtain ⟨d, c, n, m, h⟩ := takeBrakes_tbc (linesRead k s)
  obtain ⟨hunknown, -, -⟩ := linesRead_timers k s
  rw [hkept.unknown, hkept.brake, brakesTaken, h, hunknown]
  dsimp only
  cases (brakeOf (localBrake (linesRead k s)) (linesRead k s).tbc.station).1 <;> rfl

/-- BRAKE_UNKNOWN after the interval is as step 3 leaves it. -/
theorem lineDriven_brakeUnknown :
    (driveLine (lineTested k s)).faultPresent .brakeUnknown = (unknownCounted k s).faultPresent .brakeUnknown :=
  ((faultsMoved_lineDriven k s).others _ (by decide)).trans
    ((faultsMoved_compareBrakes (unknownCounted k s)).others _ (by decide))

theorem lineDriven_brakeDisagree :
    (driveLine (lineTested k s)).faultPresent .brakeDisagree = (brakesTaken k s).faultPresent .brakeDisagree :=
  (faultsMoved_lineDriven k s).others _ (by decide)

theorem brakesWritten_brake :
    (brakesWritten k s).tbc.brake = (driveLine (lineTested k s)).tbc.brake ∧
    (brakesWritten k s).tbc.unknown = s.tbc.unknown := by
  obtain ⟨d, c, h⟩ := brakesWritten_tbc k s
  obtain ⟨-, hbrake, -⟩ := lineDriven_brake k s
  rw [hbrake, h]
  exact ⟨rfl, (linesRead_timers k s).1⟩

/-- The two sources and the timers as the comparison finds them. -/
theorem unknownCounted_sources : localBrake (unknownCounted k s) = localBrake s ∧
    (unknownCounted k s).tbc.station = stationBrake s ∧
    (unknownCounted k s).tbc.disagree = s.tbc.disagree ∧ (unknownCounted k s).tbc.agree = s.tbc.agree ∧
    (unknownCounted k s).faultPresent .brakeDisagree = s.faultPresent .brakeDisagree := by
  have htouch : Touches [.pins, .vdb, .fdc, .tbc, .lc, .mc] s (unknownCounted k s) :=
    also (also ((touches_linesRead k s).mono (by decide)) (touches_writeBrake _)) (touches_countUnknown _)
  obtain ⟨d, c, h⟩ := brakesWritten_tbc k s
  obtain ⟨-, hdisagree, hagree⟩ := linesRead_timers k s
  have hcount : (unknownCounted k s).tbc = _ := countUnknown_tbc (brakesWritten k s)
  refine ⟨localBrake_congr (htouch .sfe (by decide)), ?_, ?_, ?_,
    (faultsMoved_unknownCounted k s).others _ (by decide)⟩
  · rw [hcount, h]
    exact linesRead_station k s
  · rw [hcount, h]
    exact hdisagree
  · rw [hcount, h]
    exact hagree
end

end Sys2Proof.Proofs
end

