-- ==== Sys2Proof/Proofs/TrailerSupplyTests.lean ====
section
/-! SUPPORT. The supply line tests and the release at an interval (R152 to R158), and the statement about the changes
of the trailer. -/

namespace Sys2Proof.Proofs

open Sys2Proof Sys2Proof.Machine

/-! ## The state tests (R152 to R154) -/

section
variable (b : Bool) (m n : Nat) (s : State)

theorem recovered_leaves : (recoverSupply (counted b m n s)).tbc.state = .ready ∧
    (recoverSupply (counted b m n s)).tbc.timer = 0 ∧ (recoverSupply (counted b m n s)).tbc.lowTimer = 0 ∧
    (recoverSupply (counted b m n s)).faultPresent .trailerSupplyLost = false ∧
    (recoverSupply (counted b m n s)).faultPresent .trailerChargeFailed = false := by
  rw [recoverSupply_tbc, enterRegulated_tbc]
  exact ⟨rfl, rfl, rfl, (faultPresent_clearFault_ne _ (by decide)).trans (faultPresent_clearFault _ _),
    faultPresent_clearFault _ _⟩

theorem failed_leaves : (failCharge (counted b m n s)).tbc.state = .supplyFault ∧
    (failCharge (counted b m n s)).tbc.timer = 0 ∧
    (s.mc.faults.length < 16 → (failCharge (counted b m n s)).faultPresent .trailerChargeFailed = true) := by
  rw [failCharge_tbc, enterRegulated_tbc]
  refine ⟨rfl, rfl, fun hroom => faultPresent_raise _ _ ?_⟩
  rw [enterRegulated_mc]
  exact hroom

theorem lost_leaves : (loseSupply (counted b m n s)).tbc.state = .supplyFault ∧
    (loseSupply (counted b m n s)).tbc.timer = 0 ∧
    (s.mc.faults.length < 16 → (loseSupply (counted b m n s)).faultPresent .trailerSupplyLost = true) := by
  rw [loseSupply_tbc, enterRegulated_tbc]
  refine ⟨rfl, rfl, fun hroom => faultPresent_raise _ _ ?_⟩
  rw [enterRegulated_mc]
  exact hroom

/-- The tests count, and then recover, fail the charge, lose the supply, or leave the state. -/
theorem stateTests_cases : ∃ b m n, stateTests s = counted b m n s ∨ stateTests s = recoverSupply (counted b m n s) ∨
    stateTests s = failCharge (counted b m n s) ∨ stateTests s = loseSupply (counted b m n s) := by
  cases h : s.tbc.state with
  | charging =>
    refine ⟨s.tslLow, min 10000 (s.tbc.timer + 10), s.tbc.lowTimer, ?_⟩
    rw [stateTests_of_charging h]
    by_cases hgood : s.tslGood = true
    · exact .inr (.inl (if_pos hgood))
    · rw [if_neg hgood]
      by_cases hlong : 10000 ≤ s.tbc.timer + 10
      · exact .inr (.inr (.inl (if_pos hlong)))
      · exact .inl (if_neg hlong)
  | ready =>
    generalize hn : (if s.tslLow = true then s.tbc.lowTimer + 1 else 0) = n
    refine ⟨s.tslLow, s.tbc.timer, n, ?_⟩
    rw [stateTests_of_ready h hn.symm]
    by_cases hlong : 20 ≤ n
    · exact .inr (.inr (.inr (if_pos hlong)))
    · exact .inl (if_neg hlong)
  | supplyFault =>
    generalize hm : (if s.tslGood = true then s.tbc.timer + 10 else 0) = m
    refine ⟨s.tslLow, m, s.tbc.lowTimer, ?_⟩
    rw [stateTests_of_supplyFault h hm.symm]
    by_cases hlong : 1000 ≤ m
    · exact .inr (.inl (if_pos hlong))
    · exact .inl (if_neg hlong)
  | absent | breakaway | parked => exact ⟨_, _, _, .inl (stateTests_of_other (by simp [h]))⟩

/-- The state tests keep the correction. -/
theorem stateTests_correction : (stateTests s).tbc.correction = s.tbc.correction := by
  obtain ⟨b, m, n, h | h | h | h⟩ := stateTests_cases s <;> rw [h]
  · rfl
  · rw [recoverSupply_tbc, enterRegulated_tbc]
    rfl
  · rw [failCharge_tbc, enterRegulated_tbc]
    rfl
  · rw [loseSupply_tbc, enterRegulated_tbc]
    rfl

/-- An entry to READY leaves neither supply fault present. -/
theorem stateTests_ready {s : State} (hne : s.tbc.state ≠ .ready) (h : (stateTests s).tbc.state = .ready) :
    (stateTests s).faultPresent .trailerSupplyLost = false ∧
    (stateTests s).faultPresent .trailerChargeFailed = false := by
  obtain ⟨b, m, n, hcase | hcase | hcase | hcase⟩ := stateTests_cases s <;> rw [hcase] at h ⊢
  · exact absurd h hne
  · exact (recovered_leaves b m n s).2.2.2
  · exact absurd h (by simp [(failed_leaves b m n s).1])
  · exact absurd h (by simp [(lost_leaves b m n s).1])

/-- In PARKED and CHARGING the tests leave the fault table. -/
theorem stateTests_mc {s : State} (h : (stateTests s).tbc.state = .parked ∨ (stateTests s).tbc.state = .charging) :
    (stateTests s).mc = s.mc := by
  obtain ⟨b, m, n, hcase | hcase | hcase | hcase⟩ := stateTests_cases s <;> rw [hcase] at h ⊢
  · rfl
  · exact absurd h (by simp [(recovered_leaves b m n s).1])
  · exact absurd h (by simp [(failed_leaves b m n s).1])
  · exact absurd h (by simp [(lost_leaves b m n s).1])

/-! ## The park tests (R157, R158) -/

variable {s}

theorem parkTests_of_free (h : s.shc.state ≠ .parked) (hs : s.tbc.state ≠ .parked ∨ s.tbc.stopOrder = true) :
    parkTests s = s := by
  refine (if_neg h).trans (if_neg ?_)
  rintro ⟨hparked, hstop⟩
  rcases hs with hs | hs
  · exact hs hparked
  · exact absurd hs (hstop ▸ Bool.false_ne_true)

theorem parkTests_of_release (h : s.shc.state ≠ .parked) (hs : s.tbc.state = .parked) (hstop : s.tbc.stopOrder = false) :
    parkTests s = enterReleased s := (if_neg h).trans (if_pos ⟨hs, hstop⟩)

/-- The park tests lead to PARKED, release from it, or leave all. -/
theorem parkTests_cases (s : State) : (parkTests s).tbc.state = .parked ∨
    (s.tbc.state = .parked ∧ ((parkTests s).tbc.state = .charging ∨ (parkTests s).tbc.state = .absent)) ∨
    parkTests s = s := by
  unfold parkTests trailerParkOrder
  split
  · split
    · exact .inl (by rw [enterTrailerParked_tbc])
    · exact .inr (.inr rfl)
  split
  next hrelease =>
    refine .inr (.inl ⟨hrelease.1, ?_⟩)
    cases hcoupled : s.tbc.coupled with
    | true => rw [enterReleased_of_coupled hcoupled, enterCharging_tbc]; exact .inl rfl
    | false => rw [enterReleased_of_uncoupled hcoupled, enterAbsent_tbc]; exact .inr rfl
  next => exact .inr (.inr rfl)

theorem parkTests_ne_ready (hne : s.tbc.state ≠ .ready) : (parkTests s).tbc.state ≠ .ready := by
  obtain h | ⟨-, h | h⟩ | h := parkTests_cases s <;> rw [h]
  · simp
  · simp
  · simp
  · exact hne
end

/-! ## The interval's state -/

section
variable {k : Bool} {s : State}

/-- State and timers after the tests are those of the interval's end. -/
theorem lineDriven_tests : (driveLine (lineTested k s)).tbc.state = (lineTested k s).tbc.state ∧
    (driveLine (lineTested k s)).tbc.timer = (lineTested k s).tbc.timer ∧
    (driveLine (lineTested k s)).tbc.lowTimer = (lineTested k s).tbc.lowTimer ∧
    (driveLine (lineTested k s)).mc = (lineTested k s).mc := by
  have hmc : (driveLine (lineTested k s)).mc = (lineTested k s).mc := touches_driveLine _ .mc (by decide)
  generalize lineTested k s = u at hmc ⊢
  rw [driveLine_tbc]
  exact ⟨rfl, rfl, rfl, hmc⟩

theorem brakesTaken_records : (brakesTaken k s).shc = s.shc ∧ (brakesTaken k s).tslGood = s.tslGood ∧
    (brakesTaken k s).tslLow = s.tslLow := by
  have h := touches_brakesTaken k s
  have hsfe : (brakesTaken k s).sfe = s.sfe := h .sfe (by decide)
  refine ⟨h .shc (by decide), ?_, ?_⟩
  · rw [State.tslGood, State.tslGood, hsfe]
  · rw [State.tslLow, State.tslLow, hsfe]

/-- Behind a gearbox that is not PARKED a trailer that is not is tested as step 3 leaves it. -/
theorem lineTested_of_free (h : s.shc.state ≠ .parked)
    (hs : (settled k s).tbc.state ≠ .parked ∨ s.tbc.stopOrder = true) :
    lineTested k s = stateTests (brakesTaken k s) := by
  obtain ⟨hstate, -, -, -, -, -, hstop, -⟩ := brakesTaken_settled k s
  have hfree : parkTests (brakesTaken k s) = brakesTaken k s := by
    refine parkTests_of_free ?_ ?_
    · rw [brakesTaken_records.1]
      exact h
    · rw [hstate, hstop, (brakesKept_settled k s).stopOrder]
      exact hs
  rw [lineTested, hfree]

/-- An interval through the tests: its end by the state, timers and table the tests find. -/
theorem lineDriven_charging (h : s.shc.state ≠ .parked) (hs : (settled k s).tbc.state = .charging) {timer : Nat}
    (htimer : (settled k s).tbc.timer = timer) :
    (s.tslGood = true → (driveLine (lineTested k s)).tbc.state = .ready ∧
      (driveLine (lineTested k s)).tbc.timer = 0 ∧ (driveLine (lineTested k s)).tbc.lowTimer = 0) ∧
    (s.tslGood = false → timer + 10 < 10000 → (driveLine (lineTested k s)).tbc.state = .charging ∧
      (driveLine (lineTested k s)).tbc.timer = timer + 10) ∧
    (s.tslGood = false → 10000 ≤ timer + 10 → (driveLine (lineTested k s)).tbc.state = .supplyFault ∧
      (driveLine (lineTested k s)).tbc.timer = 0 ∧ ((brakesTaken k s).mc.faults.length < 16 →
        (driveLine (lineTested k s)).faultPresent .trailerChargeFailed = true)) := by
  obtain ⟨hstate, htime, -⟩ := brakesTaken_settled k s
  obtain ⟨-, hgood, -⟩ := brakesTaken_records (k := k) (s := s)
  obtain ⟨hend, hendTimer, hendLow, hendMc⟩ := lineDriven_tests (k := k) (s := s)
  rw [hend, hendTimer, hendLow, faultPresent_congr hendMc, lineTested_of_free h (.inl (by simp [hs])),
    stateTests_of_charging (hstate.trans hs), hgood, htime, htimer]
  generalize brakesTaken k s = u at *
  refine ⟨fun hgood => ?_, fun hbad hshort => ?_, fun hbad hlong => ?_⟩
  · rw [if_pos hgood]
    obtain ⟨hready, htimer, hlow, -⟩ := recovered_leaves u.tslLow (min 10000 (timer + 10)) u.tbc.lowTimer u
    exact ⟨hready, htimer, hlow⟩
  · rw [if_neg (by simp [hbad]), if_neg (by omega)]
    exact ⟨hstate.trans hs, min_eq_right (by omega)⟩
  · rw [if_neg (by simp [hbad]), if_pos hlong]
    exact failed_leaves _ _ _ u

theorem lineDriven_ready (h : s.shc.state ≠ .parked) (hs : (settled k s).tbc.state = .ready) {low : Nat}
    (htimer : (settled k s).tbc.lowTimer = low) :
    (s.tslLow = false → (driveLine (lineTested k s)).tbc.state = .ready ∧
      (driveLine (lineTested k s)).tbc.lowTimer = 0) ∧
    (s.tslLow = true → low + 1 < 20 → (driveLine (lineTested k s)).tbc.state = .ready ∧
      (driveLine (lineTested k s)).tbc.lowTimer = low + 1) ∧
    (s.tslLow = true → 20 ≤ low + 1 → (driveLine (lineTested k s)).tbc.state = .supplyFault ∧
      (driveLine (lineTested k s)).tbc.timer = 0 ∧ ((brakesTaken k s).mc.faults.length < 16 →
        (driveLine (lineTested k s)).faultPresent .trailerSupplyLost = true)) := by
  obtain ⟨hstate, -, htime, -⟩ := brakesTaken_settled k s
  obtain ⟨-, -, hlow⟩ := brakesTaken_records (k := k) (s := s)
  obtain ⟨hend, hendTimer, hendLow, hendMc⟩ := lineDriven_tests (k := k) (s := s)
  rw [hend, hendTimer, hendLow, faultPresent_congr hendMc, lineTested_of_free h (.inl (by simp [hs])),
    stateTests_of_ready (hstate.trans hs) rfl, hlow, htime, htimer]
  generalize brakesTaken k s = u at *
  refine ⟨fun hfine => ?_, fun hpoor hshort => ?_, fun hpoor hlong => ?_⟩
  · rw [if_neg (by simp [hfine])]
    exact ⟨hstate.trans hs, by simp [hfine, counted]⟩
  · rw [if_pos hpoor, if_neg (by omega)]
    exact ⟨hstate.trans hs, rfl⟩
  · rw [if_pos hpoor, if_pos hlong]
    exact lost_leaves _ _ _ u

theorem lineDriven_supplyFault (h : s.shc.state ≠ .parked) (hs : (settled k s).tbc.state = .supplyFault) {timer : Nat}
    (htimer : (settled k s).tbc.timer = timer) :
    (s.tslGood = false → (driveLine (lineTested k s)).tbc.state = .supplyFault ∧
      (driveLine (lineTested k s)).tbc.timer = 0) ∧
    (s.tslGood = true → timer + 10 < 1000 → (driveLine (lineTested k s)).tbc.state = .supplyFault ∧
      (driveLine (lineTested k s)).tbc.timer = timer + 10) ∧
    (s.tslGood = true → 1000 ≤ timer + 10 → (driveLine (lineTested k s)).tbc.state = .ready ∧
      (driveLine (lineTested k s)).tbc.lowTimer = 0 ∧
      (driveLine (lineTested k s)).faultPresent .trailerSupplyLost = false ∧
      (driveLine (lineTested k s)).faultPresent .trailerChargeFailed = false) := by
  obtain ⟨hstate, htime, -⟩ := brakesTaken_settled k s
  obtain ⟨-, hgood, -⟩ := brakesTaken_records (k := k) (s := s)
  obtain ⟨hend, hendTimer, hendLow, hendMc⟩ := lineDriven_tests (k := k) (s := s)
  rw [hend, hendTimer, hendLow, faultPresent_congr hendMc, faultPresent_congr hendMc,
    lineTested_of_free h (.inl (by simp [hs])), stateTests_of_supplyFault (hstate.trans hs) rfl, hgood, htime, htimer]
  generalize brakesTaken k s = u at *
  refine ⟨fun hbad => ?_, fun hfine hshort => ?_, fun hfine hlong => ?_⟩
  · rw [if_neg (c := s.tslGood = true) (by simp [hbad]), if_neg (by omega)]
    exact ⟨hstate.trans hs, rfl⟩
  · rw [if_pos (c := s.tslGood = true) hfine, if_neg (by omega)]
    exact ⟨hstate.trans hs, rfl⟩
  · rw [if_pos (c := s.tslGood = true) hfine, if_pos hlong]
    obtain ⟨hready, -, hlow, hlost, hfailed⟩ := recovered_leaves u.tslLow (timer + 10) u.tbc.lowTimer u
    exact ⟨hready, hlow, hlost, hfailed⟩

/-- A trailer that is not tested stays. -/
theorem lineDriven_other (h : s.shc.state ≠ .parked) (hs : (settled k s).tbc.state = .absent ∨
    (settled k s).tbc.state = .breakaway ∨ ((settled k s).tbc.state = .parked ∧ s.tbc.stopOrder = true)) :
    (driveLine (lineTested k s)).tbc.state = (settled k s).tbc.state := by
  obtain ⟨hstate, -⟩ := brakesTaken_settled k s
  have hfree : (settled k s).tbc.state ≠ .parked ∨ s.tbc.stopOrder = true := by
    rcases hs with hs | hs | ⟨-, hs⟩
    · exact .inl (by simp [hs])
    · exact .inl (by simp [hs])
    · exact .inr hs
  rw [lineDriven_tests.1, lineTested_of_free h hfree, stateTests_of_other (by rw [hstate]; tauto)]
  exact hstate

/-- A PARKED trailer is released behind a gearbox that is not PARKED, and tested in the same interval (log 55). -/
theorem lineDriven_released (h : s.shc.state ≠ .parked) (hs : (settled k s).tbc.state = .parked)
    (hstop : s.tbc.stopOrder = false) :
    ((driveLine (lineTested k s)).tbc.coupled = false → (driveLine (lineTested k s)).tbc.state = .absent) ∧
    ((driveLine (lineTested k s)).tbc.coupled = true → s.tslGood = true →
      (driveLine (lineTested k s)).tbc.state = .ready) ∧
    ((driveLine (lineTested k s)).tbc.coupled = true → s.tslGood = false →
      (driveLine (lineTested k s)).tbc.state = .charging ∧ (driveLine (lineTested k s)).tbc.timer = 10) := by
  obtain ⟨hstate, -, -, -, -, -, hstopTaken, -⟩ := brakesTaken_settled k s
  obtain ⟨hshc, hgood, -⟩ := brakesTaken_records (k := k) (s := s)
  obtain ⟨hend, hendTimer, -, -⟩ := lineDriven_tests (k := k) (s := s)
  have hrelease : parkTests (brakesTaken k s) = enterReleased (brakesTaken k s) := by
    refine parkTests_of_release (by rw [hshc]; exact h) (hstate.trans hs) ?_
    rw [hstopTaken, (brakesKept_settled k s).stopOrder]
    exact hstop
  rw [(brakesKept_lineDriven k s).coupled, hend, hendTimer, lineTested, hrelease]
  generalize brakesTaken k s = u at *
  have hcharge : (enterCharging u).tbc.state = .charging ∧ (enterCharging u).tbc.timer = 0 ∧
      (enterCharging u).tslGood = u.tslGood := by
    have hsfe : (enterCharging u).sfe = u.sfe := touches_enterCharging u .sfe (by decide)
    rw [enterCharging_tbc, State.tslGood, State.tslGood, hsfe]
    exact ⟨rfl, rfl, rfl⟩
  obtain ⟨hcharging, htimer, hsame⟩ := hcharge
  refine ⟨fun hopen => ?_, fun hclosed hfine => ?_, fun hclosed hbad => ?_⟩
  · have habsent : (enterAbsent u).tbc.state = .absent := by rw [enterAbsent_tbc]
    rw [enterReleased_of_uncoupled hopen, stateTests_of_other (.inl habsent)]
    exact habsent
  · rw [enterReleased_of_coupled hclosed, stateTests_of_charging hcharging, hsame, hgood, if_pos hfine]
    exact (recovered_leaves _ _ _ _).1
  · rw [enterReleased_of_coupled hclosed, stateTests_of_charging hcharging, hsame, hgood, if_neg (by simp [hbad]),
      htimer, if_neg (by decide)]
    exact ⟨hcharging, rfl⟩

/-- A changed coupling (R150, R155). -/
theorem settled_of_opened (hk : k ≠ s.tbc.coupled) (hdue : 3 ≤ s.tbc.samples + 1) (hopen : k = false)
    (hs : s.tbc.state = .charging ∨ s.tbc.state = .ready ∨ s.tbc.state = .supplyFault) :
    (settled k s).tbc.state = .breakaway ∧
    (s.mc.faults.length < 16 → (settled k s).faultPresent .trailerBreakaway = true) := by
  rw [settled_of_changed hk hdue, hopen, changeCoupling_of_coupled (s := sampledOnce false s) hs,
    enterBreakaway_tbc]
  refine ⟨rfl, fun hroom => faultPresent_raiseLatched _ _ ?_⟩
  rw [show (enterIdle .breakaway _).mc = _ from touches_enterIdle _ .mc (by decide)]
  exact hroom

theorem settled_of_closed (hk : k ≠ s.tbc.coupled) (hdue : 3 ≤ s.tbc.samples + 1) (hclosed : k = true)
    (hs : s.tbc.state = .absent) : (settled k s).tbc.state = .charging ∧ (settled k s).tbc.timer = 0 := by
  rw [settled_of_changed hk hdue, hclosed, changeCoupling_of_absent (s := sampledOnce true s) hs,
    enterCharging_tbc]
  exact ⟨rfl, rfl⟩

theorem settled_of_parked (hs : s.tbc.state = .parked) : (settled k s).tbc.state = .parked := by
  by_cases hstand : k = s.tbc.coupled ∨ s.tbc.samples + 1 < 3
  · exact (settled_of_standing hstand).1.trans hs
  · rw [not_or, Nat.not_lt] at hstand
    rw [settled_of_changed hstand.1 hstand.2,
      changeCoupling_of_other (s := sampledOnce k s) (.inl (.inr hs))]
    exact hs

/-- An interval that enters READY (R152, R154). -/
theorem lineDriven_enters_ready (hne : s.tbc.state ≠ .ready)
    (h : (driveLine (lineTested k s)).tbc.state = .ready) :
    (driveLine (lineTested k s)).faultPresent .trailerSupplyLost = false ∧
    (driveLine (lineTested k s)).faultPresent .trailerChargeFailed = false := by
  obtain ⟨hend, -, -, hendMc⟩ := lineDriven_tests (k := k) (s := s)
  have hsettled : (settled k s).tbc.state ≠ .ready := by
    obtain h | h | ⟨h, -⟩ := settled_state k s <;> rw [h]
    · simp
    · simp
    · exact hne
  rw [faultPresent_congr hendMc, faultPresent_congr hendMc]
  refine stateTests_ready (parkTests_ne_ready ?_) (hend.symm.trans h)
  rw [(brakesTaken_settled k s).1]
  exact hsettled

/-- PARKED and CHARGING keep the supply faults (R154, R158). -/
theorem lineDriven_keeps_faults (h : (driveLine (lineTested k s)).tbc.state = .parked ∨
    (driveLine (lineTested k s)).tbc.state = .charging) {d : FaultCode}
    (hd : d = .trailerSupplyLost ∨ d = .trailerChargeFailed) :
    (driveLine (lineTested k s)).faultPresent d = s.faultPresent d := by
  obtain ⟨hend, -, -, hendMc⟩ := lineDriven_tests (k := k) (s := s)
  rw [hend] at h
  have htests : (lineTested k s).mc = (parkTests (brakesTaken k s)).mc := stateTests_mc h
  have hmc := hendMc.trans (htests.trans (parkTests_mc _))
  rw [faultPresent_congr hmc]
  refine (faultsMoved_brakesTaken k s).others d ?_
  rcases hd with rfl | rfl <;> decide

/-- The correction the move starts from (R162). -/
theorem lineTested_correction
    (hs : s.tbc.state = .charging ∨ s.tbc.state = .ready ∨ s.tbc.state = .supplyFault)
    (h : (driveLine (lineTested k s)).tbc.state = .ready ∨ (driveLine (lineTested k s)).tbc.state = .supplyFault) :
    (lineTested k s).tbc.correction = s.tbc.correction := by
  obtain ⟨hstate, -, -, hcorrection, -⟩ := brakesTaken_settled k s
  rw [lineDriven_tests.1] at h
  have hparked (u : State) (hu : u.tbc.state = .parked ∨ u.tbc.state = .breakaway)
      (ht : (stateTests u).tbc.state = .ready ∨ (stateTests u).tbc.state = .supplyFault) : False := by
    rw [stateTests_state_of_other hu] at ht
    rcases hu with hu | hu <;> simp [hu] at ht
  have hsettled : (settled k s).tbc.state ≠ .parked ∧
      ((settled k s).tbc.state = .breakaway ∨ (settled k s).tbc.correction = s.tbc.correction) := by
    obtain h | h | ⟨h, hsame⟩ := settled_state k s
    · exact ⟨by simp [h], .inr (settled_charging (by rcases hs with hs | hs | hs <;> simp [hs]) h).2⟩
    · exact ⟨by simp [h], .inl h⟩
    · exact ⟨by rcases hs with hs | hs | hs <;> simp [h, hs], .inr hsame⟩
  unfold lineTested at h ⊢
  rw [stateTests_correction]
  obtain hpark | ⟨hpark, -⟩ | hpark := parkTests_cases (brakesTaken k s)
  · exact (hparked _ (.inl hpark) h).elim
  · exact absurd (hstate ▸ hpark) hsettled.1
  · rw [hpark] at h ⊢
    obtain hbreak | hsame := hsettled.2
    · exact (hparked _ (.inr (hstate.trans hbreak)) h).elim
    · exact hcorrection.trans hsame
end

end Sys2Proof.Proofs
end

