-- ==== Sys2Proof/Proofs/TrailerChanges.lean ====
section
/-! SUPPORT. The statement about the changes of the trailer (R148 to R158, R162): the commands of single changes, and
the interval's clauses put together. -/

namespace Sys2Proof.Proofs

open Sys2Proof Sys2Proof.Machine

/-! ## The commands of single changes -/

section
variable {s : State}

theorem changeCoupling_flag (k : Bool) (s : State) :
    (recomputeTcv (changeCoupling k s)).tbc.coupled = k ∧ (recomputeTcv (changeCoupling k s)).tbc.samples = 0 := by
  have h := brakesKept_changeCoupling s k
  rw [recomputeTcv_tbc]
  exact ⟨h.coupled, h.samples⟩

/-- A closed coupling charges an ABSENT trailer. -/
theorem couplingClosed (h : s.tbc.state = .absent) (hopen : s.tbc.coupled = false) :
    (recomputeTcv (changeCoupling (!s.tbc.coupled) s)).tbc.state = .charging ∧
    (recomputeTcv (changeCoupling (!s.tbc.coupled) s)).tbc.timer = 0 ∧
    ((recomputeTcv (changeCoupling (!s.tbc.coupled) s)).out .tsv).command = 1 ∧
    (recomputeTcv (changeCoupling (!s.tbc.coupled) s)).mc = s.mc := by
  rw [hopen, Bool.not_false, changeCoupling_of_absent h, recomputeTcv_tsv, enterCharging_tsv, recomputeTcv_mc,
    enterCharging_mc, recomputeTcv_tbc, enterCharging_tbc]
  exact ⟨rfl, rfl, rfl, rfl⟩

/-- An opened coupling takes a coupled trailer to BREAKAWAY. -/
theorem couplingOpened (h : s.tbc.state = .charging ∨ s.tbc.state = .ready ∨ s.tbc.state = .supplyFault)
    (hclosed : s.tbc.coupled = true) :
    (recomputeTcv (changeCoupling (!s.tbc.coupled) s)).tbc.state = .breakaway ∧
    (recomputeTcv (changeCoupling (!s.tbc.coupled) s)).tbc.demand = 0 ∧
    ((recomputeTcv (changeCoupling (!s.tbc.coupled) s)).out .tsv).command = 0 ∧
    ((recomputeTcv (changeCoupling (!s.tbc.coupled) s)).out .tcv).command = 0 ∧
    (recomputeTcv (changeCoupling (!s.tbc.coupled) s)).mc = (raiseLatched .trailerBreakaway s).mc := by
  have hidle : (enterBreakaway (coupledSet false s)).tbc.demand = 0 := by rw [enterBreakaway_tbc]
  rw [hclosed, Bool.not_true, changeCoupling_of_coupled h, recomputeTcv_tsv, enterBreakaway_tsv,
    recomputeTcv_zero hidle, recomputeTcv_mc, enterBreakaway_mc, recomputeTcv_tbc, enterBreakaway_tbc]
  exact ⟨rfl, rfl, rfl, rfl, raiseLatched_mc_congr _ rfl⟩

theorem couplingIdle (h : s.tbc.state = .breakaway ∨ s.tbc.state = .parked) :
    (recomputeTcv (changeCoupling (!s.tbc.coupled) s)).tbc.state = s.tbc.state ∧
    (recomputeTcv (changeCoupling (!s.tbc.coupled) s)).mc = s.mc := by
  rw [changeCoupling_of_other (.inl h), recomputeTcv_mc, recomputeTcv_tbc]
  exact ⟨rfl, rfl⟩

theorem touches_recomputed {f : State} (h : Touches [.vdb, .tbc, .lc, .mc] s f) :
    Touches [.vdb, .tbc, .lc, .mc] s (recomputeTcv f) := also h (touches_recomputeTcv _)

theorem chargeFailed_iff : chargeFailed s = true ↔
    s.tbc.state = .charging ∧ s.tslGood = false ∧ 10000 ≤ s.tbc.timer := by
  simp only [chargeFailed, Bool.and_eq_true, beq_iff_eq, Bool.not_eq_true', decide_eq_true_eq, and_assoc]
  rfl

theorem tslGood_iff : s.tslGood = true ↔ s.sfe.chans.tsl.state = .valid ∧ 350 ≤ s.sfe.chans.tsl.value := by
  simp [State.tslGood]

theorem tslLow_iff : s.tslLow = true ↔ s.sfe.chans.tsl.state ≠ .valid ∨ s.sfe.chans.tsl.cmp = .low := by
  simp [State.tslLow]

theorem supplyLost_iff : supplyLost s = true ↔ s.tbc.state = .ready ∧ 20 ≤ s.tbc.lowTimer := by
  simp only [supplyLost, Bool.and_eq_true, beq_iff_eq, decide_eq_true_eq]
  rfl

theorem supplyBack_iff : supplyBack s = true ↔ s.tbc.state = .supplyFault ∧ 1000 ≤ s.tbc.timer := by
  simp only [supplyBack, Bool.and_eq_true, beq_iff_eq, decide_eq_true_eq]
  rfl
end

/-! ## The interval's clauses -/

section
variable (k : Bool) (s : State)

/-- The coupling flag and its samples. -/
theorem lineDriven_coupling : (driveLine (lineTested k s)).tbc.coupled = settledFlag k s ∧
    (driveLine (lineTested k s)).tbc.samples = settledSamples k s := by
  obtain ⟨-, -, -, -, hcoupled, hsamples, -, -⟩ := brakesTaken_settled k s
  have hkept := brakesKept_lineDriven k s
  rw [hkept.coupled, hkept.samples, hcoupled, hsamples]
  exact ⟨(brakesKept_settled k s).coupled, (brakesKept_settled k s).samples⟩

/-- BRAKE_UNKNOWN and its timer (R148). -/
theorem lineDriven_unknownFault :
    ((driveLine (lineTested k s)).tbc.brake ≠ none → (driveLine (lineTested k s)).tbc.unknown = 0 ∧
      (driveLine (lineTested k s)).faultPresent .brakeUnknown = false) ∧
    ((driveLine (lineTested k s)).tbc.brake = none →
      (driveLine (lineTested k s)).tbc.unknown = min 50 (s.tbc.unknown + 1) ∧
      (s.tbc.unknown + 1 = 50 → s.mc.faults.length < 14 →
        (driveLine (lineTested k s)).faultPresent .brakeUnknown = true)) := by
  obtain ⟨hbrake, htimer⟩ := brakesWritten_brake k s
  have hlength : (brakesWritten k s).mc.faults.length ≤ s.mc.faults.length + 1 := by
    rw [brakesWritten_mc]
    exact (faultsMoved_settled k s).length
  rw [lineDriven_unknown, lineDriven_brakeUnknown, ← hbrake]
  refine ⟨fun hknown => ⟨if_neg hknown, countUnknown_clears hknown⟩,
    fun hnone => ⟨if_pos hnone, fun hlast hroom => countUnknown_raises hnone (htimer ▸ hlast) (by omega)⟩⟩

/-- The two sources compared (R149). -/
theorem lineDriven_compared {own station : Option Nat} (hown : localBrake s = own) (hstation : stationBrake s = station) :
    (own = none ∨ station = none →
      (driveLine (lineTested k s)).tbc.disagree = 0 ∧ (driveLine (lineTested k s)).tbc.agree = 0) ∧
    (∀ a b : Nat, own = some a → station = some b →
      (150 < ((a : Int) - b).natAbs → (driveLine (lineTested k s)).tbc.agree = 0 ∧
        (s.tbc.disagree + 1 < 50 → (driveLine (lineTested k s)).tbc.disagree = s.tbc.disagree + 1) ∧
        (50 ≤ s.tbc.disagree + 1 → (driveLine (lineTested k s)).tbc.disagree = 0 ∧
          (s.mc.faults.length < 14 → (driveLine (lineTested k s)).faultPresent .brakeDisagree = true))) ∧
      (((a : Int) - b).natAbs ≤ 150 → (driveLine (lineTested k s)).tbc.disagree = 0 ∧
        (50 ≤ s.tbc.agree + 1 → s.faultPresent .brakeDisagree = true →
          (driveLine (lineTested k s)).tbc.agree = 0 ∧
          (driveLine (lineTested k s)).faultPresent .brakeDisagree = false) ∧
        (s.tbc.agree + 1 < 50 ∨ s.faultPresent .brakeDisagree = false →
          (driveLine (lineTested k s)).tbc.agree = min 50 (s.tbc.agree + 1)))) := by
  obtain ⟨hlocal, hgiven, hdisagree, hagree, hpresent⟩ := unknownCounted_sources k s
  have hlength := (faultsMoved_unknownCounted k s).length
  have hkept := brakesKept_lineDriven k s
  rw [hown] at hlocal
  rw [hstation] at hgiven
  rw [lineDriven_brakeDisagree, hkept.disagree, hkept.agree, brakesTaken_eq, ← hpresent, ← hdisagree, ← hagree]
  generalize unknownCounted k s = u at *
  refine ⟨fun hone => ?_, fun a b ha hb => ⟨fun hapart => ⟨?_, fun hmore => ?_, fun hlast => ?_⟩,
    fun hclose => ⟨?_, fun hlast hactive => ?_, fun hmore => ?_⟩⟩⟩
  · rw [compareBrakes_of_one (by rw [hlocal, hgiven]; exact hone)]
    exact ⟨rfl, rfl⟩
  · rw [compareBrakes_of_apart (hlocal.trans ha) (hgiven.trans hb) hapart]
    split <;> rfl
  · rw [compareBrakes_of_apart (hlocal.trans ha) (hgiven.trans hb) hapart, if_neg (by omega)]
    rfl
  · rw [compareBrakes_of_apart (hlocal.trans ha) (hgiven.trans hb) hapart, if_pos hlast]
    exact ⟨rfl, fun hroom => faultPresent_raise _ _ (show u.mc.faults.length < 16 by omega)⟩
  · rw [compareBrakes_of_agreed (hlocal.trans ha) (hgiven.trans hb) hclose]
    split <;> rfl
  · rw [compareBrakes_of_agreed (hlocal.trans ha) (hgiven.trans hb) hclose, if_pos ⟨hlast, hactive⟩]
    exact ⟨rfl, faultPresent_clearFault _ _⟩
  · have hnot : ¬ (50 ≤ u.tbc.agree + 1 ∧ u.faultPresent .brakeDisagree = true) := by
      rintro ⟨hlast, hactive⟩
      rcases hmore with hmore | hmore
      · omega
      · exact absurd hactive (hmore ▸ Bool.false_ne_true)
    rw [compareBrakes_of_agreed (hlocal.trans ha) (hgiven.trans hb) hclose, if_neg hnot]
    rfl

theorem lineDriven_breakaway (h : (settled k s).tbc.state = .breakaway) :
    (driveLine (lineTested k s)).tbc.state = .breakaway ∧ (driveLine (lineTested k s)).tbc.demand = 0 := by
  obtain ⟨hstate, -⟩ := brakesTaken_settled k s
  have htested : (lineTested k s).tbc.state = .breakaway := by
    have hpark : parkTests (brakesTaken k s) = brakesTaken k s := by
      unfold parkTests trailerParkOrder
      rw [hstate, h]
      simp [TrailerState.parks]
    rw [lineTested, hpark, stateTests_state_of_other (.inr (hstate.trans h)), hstate, h]
  obtain ⟨hdemand, -⟩ := driveLine_demand (lineTested k s)
  have hend : (driveLine (lineTested k s)).tbc.state = .breakaway := (driveLine_state _).trans htested
  have hidle : demandOf (driveLine (lineTested k s)) = (0, .none) := demandOf_idle (by rw [hend]; rfl)
  rw [hidle] at hdemand
  exact ⟨hend, hdemand⟩
end

/-- The supply tests of an interval that keeps the coupling (R152 to R154). -/
theorem lineDriven_supply {k : Bool} {s : State} {low good : Prop}
    (hlow : low ↔ s.sfe.chans.tsl.state ≠ .valid ∨ s.sfe.chans.tsl.cmp = .low)
    (hgood : good ↔ s.sfe.chans.tsl.state = .valid ∧ 350 ≤ s.sfe.chans.tsl.value) (hpark : s.shc.state ≠ .parked)
    (hstand : k = s.tbc.coupled ∨ s.tbc.samples + 1 < 3) :
    (s.tbc.state = .charging →
      (good → (driveLine (lineTested k s)).tbc.state = .ready ∧ (driveLine (lineTested k s)).tbc.timer = 0 ∧
        (driveLine (lineTested k s)).tbc.lowTimer = 0) ∧
      (¬ good → s.tbc.timer + 10 < 10000 → (driveLine (lineTested k s)).tbc.state = .charging ∧
        (driveLine (lineTested k s)).tbc.timer = s.tbc.timer + 10) ∧
      (¬ good → 10000 ≤ s.tbc.timer + 10 → (driveLine (lineTested k s)).tbc.state = .supplyFault ∧
        (driveLine (lineTested k s)).tbc.timer = 0 ∧ (s.mc.faults.length < 14 →
          (driveLine (lineTested k s)).faultPresent .trailerChargeFailed = true))) ∧
    (s.tbc.state = .ready →
      (¬ low → (driveLine (lineTested k s)).tbc.state = .ready ∧ (driveLine (lineTested k s)).tbc.lowTimer = 0) ∧
      (low → s.tbc.lowTimer + 1 < 20 → (driveLine (lineTested k s)).tbc.state = .ready ∧
        (driveLine (lineTested k s)).tbc.lowTimer = s.tbc.lowTimer + 1) ∧
      (low → 20 ≤ s.tbc.lowTimer + 1 → (driveLine (lineTested k s)).tbc.state = .supplyFault ∧
        (driveLine (lineTested k s)).tbc.timer = 0 ∧ (s.mc.faults.length < 14 →
          (driveLine (lineTested k s)).faultPresent .trailerSupplyLost = true))) ∧
    (s.tbc.state = .supplyFault →
      (¬ good → (driveLine (lineTested k s)).tbc.state = .supplyFault ∧
        (driveLine (lineTested k s)).tbc.timer = 0) ∧
      (good → s.tbc.timer + 10 < 1000 → (driveLine (lineTested k s)).tbc.state = .supplyFault ∧
        (driveLine (lineTested k s)).tbc.timer = s.tbc.timer + 10) ∧
      (good → 1000 ≤ s.tbc.timer + 10 → (driveLine (lineTested k s)).tbc.state = .ready ∧
        (driveLine (lineTested k s)).tbc.lowTimer = 0 ∧
        (driveLine (lineTested k s)).faultPresent .trailerSupplyLost = false ∧
        (driveLine (lineTested k s)).faultPresent .trailerChargeFailed = false)) ∧
    (s.tbc.state = .absent → (driveLine (lineTested k s)).tbc.state = .absent) ∧
    (s.tbc.state = .breakaway → (driveLine (lineTested k s)).tbc.state = .breakaway) := by
  obtain ⟨hstate, htimer, hlowTimer, -⟩ := settled_of_standing hstand
  have hsettledLength : (settled k s).mc.faults.length = s.mc.faults.length := by
    by_cases hk : k = s.tbc.coupled
    · rw [settled_of_steady hk]
      rfl
    · rw [settled_of_counting hk (hstand.resolve_left hk)]
      rfl
  have hlength : (brakesTaken k s).mc.faults.length ≤ s.mc.faults.length + 2 := by
    have hcount := (faultsMoved_countUnknown (brakesWritten k s)).length
    have hcompare := (faultsMoved_compareBrakes (unknownCounted k s)).length
    rw [brakesWritten_mc, hsettledLength] at hcount
    exact hcompare.trans (Nat.succ_le_succ hcount)
  rw [← tslGood_iff] at hgood
  rw [← tslLow_iff] at hlow
  rw [hgood, hlow, Bool.not_eq_true, Bool.not_eq_true]
  refine ⟨fun hs => ?_, fun hs => ?_, fun hs => ?_, fun hs => ?_, fun hs => ?_⟩
  · obtain ⟨hfine, hshort, hlong⟩ := lineDriven_charging hpark (hstate.trans hs) htimer
    refine ⟨hfine, hshort, fun hbad hdue => ?_⟩
    obtain ⟨hfault, hzero, hraised⟩ := hlong hbad hdue
    exact ⟨hfault, hzero, fun hroom => hraised (by omega)⟩
  · obtain ⟨hfine, hshort, hlong⟩ := lineDriven_ready hpark (hstate.trans hs) hlowTimer
    refine ⟨hfine, hshort, fun hbad hdue => ?_⟩
    obtain ⟨hfault, hzero, hraised⟩ := hlong hbad hdue
    exact ⟨hfault, hzero, fun hroom => hraised (by omega)⟩
  · exact lineDriven_supplyFault hpark (hstate.trans hs) htimer
  · exact (lineDriven_other hpark (.inl (hstate.trans hs))).trans (hstate.trans hs)
  · exact (lineDriven_other hpark (.inr (.inl (hstate.trans hs)))).trans (hstate.trans hs)

/-- The tests of an interval whose coupling changes (R150, R151, R155). -/
theorem lineDriven_changed {k : Bool} {s : State} (hpark : s.shc.state ≠ .parked) (hk : k ≠ s.tbc.coupled)
    (hdue : 3 ≤ s.tbc.samples + 1) :
    (s.tbc.state = .charging ∨ s.tbc.state = .ready ∨ s.tbc.state = .supplyFault → k = false →
      (driveLine (lineTested k s)).tbc.state = .breakaway ∧ (driveLine (lineTested k s)).tbc.demand = 0 ∧
      (s.mc.faults.length < 14 → (driveLine (lineTested k s)).faultPresent .trailerBreakaway = true)) ∧
    (s.tbc.state = .absent → k = true →
      (driveLine (lineTested k s)).tbc.state = (if s.tslGood = true then .ready else .charging)) := by
  refine ⟨fun hs hopen => ?_, fun hs hclosed => ?_⟩
  · obtain ⟨hbreak, hfault⟩ := settled_of_opened hk hdue hopen hs
    obtain ⟨hend, hdemand⟩ := lineDriven_breakaway k s hbreak
    refine ⟨hend, hdemand, fun hroom => ?_⟩
    have hcount := (faultsMoved_countUnknown (brakesWritten k s)).others .trailerBreakaway (by decide)
    have hcompare := (faultsMoved_compareBrakes (unknownCounted k s)).others .trailerBreakaway (by decide)
    rw [(faultsMoved_lineDriven k s).others .trailerBreakaway (by decide), brakesTaken_eq, hcompare]
    refine hcount.trans ((faultPresent_congr (brakesWritten_mc k s) _).trans (hfault (by omega)))
  · obtain ⟨hcharge, hzero⟩ := settled_of_closed hk hdue hclosed hs
    obtain ⟨hfine, hshort, -⟩ := lineDriven_charging hpark hcharge hzero
    cases hgood : s.tslGood with
    | true => exact (hfine hgood).1
    | false => exact (hshort hgood (by decide)).1

/-- The move of the correction (R162). -/
theorem lineDriven_correction {k : Bool} {s : State}
    (hs : s.tbc.state = .charging ∨ s.tbc.state = .ready ∨ s.tbc.state = .supplyFault)
    (h : (driveLine (lineTested k s)).tbc.state = .ready ∨ (driveLine (lineTested k s)).tbc.state = .supplyFault)
    (hne : (driveLine (lineTested k s)).tbc.demand ≠ 0) :
    (s.tbc.overpressure = true → (driveLine (lineTested k s)).tbc.correction = s.tbc.correction) ∧
    (s.tbc.overpressure = false → s.sfe.chans.tcl.state ≠ .valid →
      (driveLine (lineTested k s)).tbc.correction = 0) ∧
    (s.tbc.overpressure = false → s.sfe.chans.tcl.state = .valid →
      (driveLine (lineTested k s)).tbc.correction = max (-200) (min 200 (s.tbc.correction +
        Int.tdiv (((driveLine (lineTested k s)).tbc.demand : Int) - s.sfe.chans.tcl.value) 4))) := by
  obtain ⟨-, hcorrection, -⟩ := lineDriven_line k s rfl
  have hover : (driveLine (lineTested k s)).tbc.overpressure = s.tbc.overpressure := by
    obtain ⟨-, -, -, -, -, -, -, hover⟩ := brakesTaken_settled k s
    exact (brakesKept_lineDriven k s).overpressure.trans (hover.trans (brakesKept_settled k s).overpressure)
  rw [lineTested_correction hs h, if_neg hne, hover] at hcorrection
  refine ⟨fun hhigh => ?_, fun hfree hlost => ?_, fun hfree hsure => ?_⟩
  · rw [hcorrection, if_pos hhigh]
  · rw [hcorrection, if_neg (by simp [hfree]), if_pos (by simp [State.tclValid, hlost])]
  · rw [hcorrection, if_neg (by simp [hfree]), if_neg (by simp [State.tclValid, hsure])]
    rfl

/-- Settles O43: the commands of single changes, and the interval's clauses by its steps. -/
theorem trailerChanges : Obligations.TrailerChanges := by
  intro s hrun
  refine ⟨fun hdue => ?_, ?_, fun hnone hdue hnot => ?_, fun hdue => ?_, fun hdue hactive => ?_, fun k => ?_⟩
  · obtain ⟨hcoupled, hsamples⟩ := changeCoupling_flag (!s.tbc.coupled) s
    exact ⟨_, next_of_due hrun (decide_eq_true hdue), hcoupled, hsamples,
      touches_recomputed (touches_changeCoupling _ _), couplingClosed, couplingOpened, couplingIdle⟩
  · rintro c into f (⟨rfl, rfl, rfl, hs, hlong, hbad⟩ | ⟨rfl, rfl, rfl, hs, hlong⟩ | ⟨rfl, rfl, rfl, hs, hlong⟩)
    · have hfailed : chargeFailed s = true :=
        chargeFailed_iff.mpr ⟨hs, Bool.eq_false_iff.mpr fun h => hbad (tslGood_iff.mp h), hlong⟩
      obtain ⟨hstate, htimer, hlow, hbrake, htsv, hdemand⟩ := regulated_recomputed (s := s) (st := .supplyFault)
        (failCharge_tbc s) (touches_raise _ _ .vdb (by decide)) rfl
      exact ⟨_, next_of_due hrun hfailed, hstate, htimer, hlow, hbrake, htsv,
        (recomputeTcv_mc _).trans (raise_mc_congr _ (enterRegulated_mc _ _)), hdemand,
        touches_recomputed (touches_failCharge s)⟩
    · obtain ⟨hstate, htimer, hlow, hbrake, htsv, hdemand⟩ := regulated_recomputed (s := s) (st := .supplyFault)
        (loseSupply_tbc s) (touches_raise _ _ .vdb (by decide)) rfl
      exact ⟨_, next_of_due hrun (supplyLost_iff.mpr ⟨hs, hlong⟩), hstate, htimer, hlow, hbrake, htsv,
        (recomputeTcv_mc _).trans (raise_mc_congr _ (enterRegulated_mc _ _)), hdemand,
        touches_recomputed (touches_loseSupply s)⟩
    · obtain ⟨hstate, htimer, hlow, hbrake, htsv, hdemand⟩ := regulated_recomputed (s := s) (st := .ready)
        (recoverSupply_tbc s)
        (((touches_clearFault .trailerSupplyLost _).trans (touches_clearFault .trailerChargeFailed _)) .vdb (by decide))
        rfl
      exact ⟨_, next_of_due hrun (supplyBack_iff.mpr ⟨hs, hlong⟩), hstate, htimer, hlow, hbrake, htsv,
        (recomputeTcv_mc _).trans (clearFault_mc_congr _ (clearFault_mc_congr _ (enterRegulated_mc _ _))), hdemand,
        touches_recomputed (touches_recoverSupply s)⟩
  · have hunknown : unknownDue s = true := by simp [unknownDue, hnone, hnot, brakeLimit, hdue]
    exact ⟨_, next_of_due hrun hunknown, rfl⟩
  · exact ⟨_, next_of_due hrun (decide_eq_true hdue), rfl, raise_mc_congr _ rfl,
      (touches_withTbc s _).then (touches_raise _ _)⟩
  · have hagreed : agreeDue s = true := by simp [agreeDue, brakeLimit, hdue, hactive]
    exact ⟨_, next_of_due hrun hagreed, rfl, clearFault_mc_congr _ rfl,
      (touches_withTbc s _).then (touches_clearFault _ _)⟩
  · obtain ⟨hcoupled, hsamples⟩ := lineDriven_coupling k s
    obtain ⟨hknown, hunknown⟩ := lineDriven_unknownFault k s
    refine ⟨_, exec_tbcControlInterval k hrun, fun hk => ?_, fun hk hfew => ?_, fun hk hdue => ?_, hknown, hunknown, ?_,
      fun low good hlow hgood hpark => ⟨lineDriven_supply hlow hgood hpark, lineDriven_changed hpark,
        fun hs hstop => ?_, fun hs hstop => ?_⟩,
      lineDriven_enters_ready, fun hend => ⟨lineDriven_keeps_faults hend (.inl rfl), lineDriven_keeps_faults hend (.inr rfl)⟩,
      lineDriven_correction⟩
    · rw [hcoupled, hsamples]
      exact ⟨(if_neg fun h => h.1 hk).trans hk.symm, if_pos (.inl hk)⟩
    · rw [hcoupled, hsamples]
      exact ⟨if_neg fun h => by omega, if_neg fun h => by rcases h with h | h; exacts [hk h, by omega]⟩
    · rw [hcoupled, hsamples]
      exact ⟨if_pos ⟨hk, hdue⟩, if_pos (.inr hdue)⟩
    · rintro own station rfl rfl
      rw [← stationBrake_eq]
      exact lineDriven_compared k s rfl rfl
    · have hparked := settled_of_parked (k := k) hs
      exact (lineDriven_other hpark (.inr (.inr ⟨hparked, hstop⟩))).trans hparked
    · rw [hgood, ← tslGood_iff, Bool.not_eq_true]
      exact lineDriven_released hpark (settled_of_parked hs) hstop

end Sys2Proof.Proofs
end

