-- ==== Sys2Proof/Proofs/OutputsReleased.lean ====
section
/-! SUPPORT. The release of every latch at the outputs (R54, R62, R184): what re-arming one output and all of them in
order does to the records and to the fault table. -/

namespace Sys2Proof.Proofs

open Sys2Proof Sys2Proof.Machine

/-! ## Entries through a raise and a clear (R181 to R183) -/

/-- A present entry of another code stands through a change of one code's entry. -/
theorem mem_updateEntry_ne {c : FaultCode} {f : FaultEntry → FaultEntry} {l : List FaultEntry} {e : FaultEntry}
    (he : e ∈ l) (hne : e.code ≠ c) : e ∈ updateEntry c f l := mem_updateEntry.mpr ⟨e, he, if_neg hne⟩

theorem mem_dropStored {l : List FaultEntry} {e : FaultEntry} (he : e ∈ l) (hactive : e.active = true) :
    e ∈ dropStored l := by
  induction l with
  | nil => exact absurd he List.not_mem_nil
  | cons x l ih =>
    obtain rfl | he := List.mem_cons.mp he
    · simp [dropStored, hactive]
    · cases hx : x.active with
      | true => simpa [dropStored, hx] using .inr (ih he)
      | false => simpa [dropStored, hx] using he

theorem mem_raise_ne {t : FaultTable} {c : FaultCode} {e : FaultEntry} (latch : Bool) (seconds : Nat)
    (he : e ∈ t.entries) (hpresent : e.present = true) (hne : e.code ≠ c) :
    e ∈ (t.raise c latch seconds).entries := by
  unfold FaultTable.raise
  dsimp only
  split
  · exact mem_updateEntry_ne he hne
  split
  · exact List.mem_append_left _ he
  split
  · exact List.mem_append_left _ (mem_dropStored he (by simp [FaultEntry.active, hpresent]))
  · exact he

theorem codes_updateEntry (c : FaultCode) {f : FaultEntry → FaultEntry} (hf : ∀ e, (f e).code = e.code)
    (l : List FaultEntry) : (updateEntry c f l).map (fun e => e.code) = l.map fun e => e.code := by
  unfold updateEntry
  rw [List.map_map]
  refine List.map_congr_left fun e _ => ?_
  by_cases h : e.code = c
  · exact (congrArg FaultEntry.code (if_pos h)).trans (hf e)
  · exact congrArg FaultEntry.code (if_neg h)

theorem unlatched_updateEntry {c : FaultCode} {f : FaultEntry → FaultEntry} {l : List FaultEntry}
    (hf : ∀ e, (f e).latched = e.latched) (h : ∀ e ∈ l, e.latched = false) :
    ∀ e ∈ updateEntry c f l, e.latched = false := by
  intro x hx
  obtain ⟨e, he, rfl⟩ := mem_updateEntry.mp hx
  split
  · exact (hf e).trans (h e he)
  · exact h e he

/-- A plain raise latches nothing. -/
theorem unlatched_raise {t : FaultTable} (c : FaultCode) (seconds : Nat) (h : ∀ e ∈ t.entries, e.latched = false) :
    ∀ e ∈ (t.raise c false seconds).entries, e.latched = false := by
  have hnew {l : List FaultEntry} (hl : ∀ e ∈ l, e.latched = false) :
      ∀ e ∈ l ++ [newEntry c false seconds], e.latched = false := by
    intro e he
    obtain he | he := List.mem_append.mp he
    · exact hl e he
    · rw [List.mem_singleton.mp he]
      rfl
  unfold FaultTable.raise
  dsimp only
  split
  · exact unlatched_updateEntry (fun e => Bool.or_false _) h
  split
  · exact hnew h
  split
  · exact hnew fun e he => h e ((dropStored_sublist _).subset he)
  · exact h

/-! ## One output re-armed (R54, R62) -/

section
variable (o : Output) (s : State)

/-- The latched output's record with its stage ended, driven anew, and its fault cleared. -/
def unlatchOutput (s : State) (o : Output) : State :=
  clearFault (.outShort o) (redrive o { s.out o with short := .none, retries := 0 } s)

theorem rearm_of_other {s : State} {o : Output} (h : (s.out o).short ≠ .latched) : rearm s o = s := if_neg h

theorem rearm_of_latched {s : State} {o : Output} (h : (s.out o).short = .latched) : rearm s o =
    if coilShorted o s = true ∧ ((unlatchOutput s o).out o).target ≠ 0 then trip o (unlatchOutput s o)
    else unlatchOutput s o := if_pos h

theorem touches_unlatchOutput : Touches [.vdb, .mc] s (unlatchOutput s o) :=
  also ((touches_redrive o _ s).mono (by decide)) (touches_clearFault _ _)

theorem unlatchOutput_apart : OutputsApart o s (unlatchOutput s o) := redrive_apart o _ s

theorem unlatchOutput_keeps : ((unlatchOutput s o).out o).command = (s.out o).command ∧
    ((unlatchOutput s o).out o).withheld = (s.out o).withheld ∧ ((unlatchOutput s o).out o).short = .none ∧
    ((unlatchOutput s o).out o).retries = 0 := by
  have h := redrive_keeps o { s.out o with short := .none, retries := 0 } s
  exact ⟨h.1, h.2.1, h.2.2.2.1, h.2.2.2.2.1⟩

/-- R48 for a record whose stage has ended. -/
theorem unlatchOutput_blocked :
    (s.vdb.withOut o { s.out o with short := .none, retries := 0 }).blocked o =
      (!s.vdb.powered o || (s.out o).withheld) := by
  rw [withOut_blocked]
  cases s.vdb.powered o <;> cases (s.out o).withheld <;> rfl

variable {o s}

theorem unlatchOutput_driven (hpower : s.vdb.powered o = true) (hheld : (s.out o).withheld = false)
    (hon : (s.out o).command ≠ 0) : ((unlatchOutput s o).out o).target ≠ 0 := by
  have hfree : (s.vdb.withOut o { s.out o with short := .none, retries := 0 }).blocked o = false := by
    rw [unlatchOutput_blocked, hpower, hheld]
    rfl
  rw [unlatchOutput, clearFault_out]
  cases ho : o.onOff with
  | false =>
    rw [redrive_proportional hfree ho]
    exact hon
  | true =>
    by_cases hzero : (s.out o).target = 0
    · rw [(redrive_pullIn hfree ho hon hzero).1]
      decide
    · rw [redrive_driven hfree ho hon hzero]
      exact hzero

theorem unlatchOutput_undriven (h : s.vdb.powered o = false ∨ (s.out o).command = 0 ∨ (s.out o).withheld = true) :
    ((unlatchOutput s o).out o).target = 0 := by
  rw [unlatchOutput, clearFault_out]
  cases hblocked : (s.vdb.withOut o { s.out o with short := .none, retries := 0 }).blocked o with
  | true => exact (redrive_blocked hblocked).1
  | false =>
    have hoff : (s.out o).command = 0 := by
      rw [unlatchOutput_blocked] at hblocked
      rcases h with h | h | h
      · simp [h] at hblocked
      · exact h
      · simp [h] at hblocked
    cases ho : o.onOff with
    | false => exact (redrive_proportional hblocked ho).trans hoff
    | true => exact redrive_off ho hoff

theorem unlatchOutput_target (hpower : s.vdb.powered o = true) (hheld : (s.out o).withheld = false)
    (ho : o.onOff = false) : ((unlatchOutput s o).out o).target = (s.out o).command := by
  rw [unlatchOutput, clearFault_out, redrive_proportional _ ho]
  rw [unlatchOutput_blocked, hpower, hheld]
  rfl
end

/-- A re-armed output trips again: its record and its entry (R53, R184). -/
theorem rearm_of_shorted {s : State} {o : Output} (h : (s.out o).short = .latched) (hcoil : coilShorted o s = true)
    (hpower : s.vdb.powered o = true) (hon : (s.out o).command ≠ 0) (hheld : (s.out o).withheld = false) :
    rearm s o = raise (.outShort o) (redrive o
      { (unlatchOutput s o).out o with short := .retry, retries := 0, retryTimer := 0, window := none }
      (unlatchOutput s o)) := by
  obtain ⟨-, -, hnone, -⟩ := unlatchOutput_keeps o s
  rw [rearm_of_latched h, if_pos ⟨hcoil, unlatchOutput_driven hpower hheld hon⟩, trip_of_none hnone]

/-- In any other case it stays out of a stage. -/
theorem rearm_of_sound {s : State} {o : Output} (h : (s.out o).short = .latched)
    (hsound : coilShorted o s = false ∨ s.vdb.powered o = false ∨ (s.out o).command = 0 ∨ (s.out o).withheld = true) :
    rearm s o = unlatchOutput s o := by
  rw [rearm_of_latched h, if_neg]
  rintro ⟨hcoil, hdriven⟩
  rcases hsound with hsound | hsound
  · exact absurd hcoil (hsound ▸ Bool.false_ne_true)
  · exact hdriven (unlatchOutput_undriven hsound)

theorem rearm_cases (s : State) (o : Output) : rearm s o = s ∨ ((s.out o).short = .latched ∧
    (rearm s o = unlatchOutput s o ∨ (coilShorted o s = true ∧ ∃ r, rearm s o =
      raise (.outShort o) (redrive o r (unlatchOutput s o))))) := by
  by_cases h : (s.out o).short = .latched
  · refine .inr ⟨h, ?_⟩
    by_cases hcoil : coilShorted o s = true ∧ ((unlatchOutput s o).out o).target ≠ 0
    · obtain ⟨-, -, hnone, -⟩ := unlatchOutput_keeps o s
      rw [rearm_of_latched h, if_pos hcoil, trip_of_none hnone]
      exact .inr ⟨hcoil.1, _, rfl⟩
    · rw [rearm_of_latched h, if_neg hcoil]
      exact .inl rfl
  · exact .inl (rearm_of_other h)

/-! ## Outputs re-armed in a row -/

/-- What re-arming the outputs of a list leaves of the others, of the table and of the rest. -/
structure Rearms (l : List Output) (s t : State) : Prop where
  touches : Touches [.vdb, .mc] s t
  supplies : t.vdb.supplies = s.vdb.supplies
  grant : t.vdb.grant = s.vdb.grant
  seconds : t.mc.seconds = s.mc.seconds
  mode : t.mc.mode = s.mc.mode
  others : ∀ o ∉ l, t.out o = s.out o
  unlatched : (∀ e ∈ s.mc.faults, e.latched = false) → ∀ e ∈ t.mc.faults, e.latched = false
  kept : ∀ e ∈ s.mc.faults, e.present = true →
    (∀ o ∈ l, (s.out o).short = .latched → e.code ≠ .outShort o) → e ∈ t.mc.faults
  holds : ∀ d : FaultCode, (∀ o ∈ l, (s.out o).short = .latched → d ≠ .outShort o) →
    (Holds d t.mc.faults ↔ Holds d s.mc.faults)
  codes : (∀ o ∈ l, (s.out o).short = .latched → coilShorted o s = false ∨ ∃ e ∈ s.mc.faults, e.code = .outShort o) →
    t.mc.faults.map (fun e => e.code) = s.mc.faults.map fun e => e.code

theorem rearms_refl (l : List Output) (s : State) : Rearms l s s :=
  ⟨.refl _ s, rfl, rfl, rfl, rfl, fun _ _ => rfl, id, fun _ he _ _ => he, fun _ _ => Iff.rfl, fun _ => rfl⟩

theorem rearms_unlatchOutput {s : State} {o : Output} (h : (s.out o).short = .latched) :
    Rearms [o] s (unlatchOutput s o) where
  touches := touches_unlatchOutput o s
  supplies := (unlatchOutput_apart o s).2.1
  grant := (unlatchOutput_apart o s).2.2
  seconds := rfl
  mode := rfl
  others p hp := (unlatchOutput_apart o s).1 p (by simpa using hp)
  unlatched hall := unlatched_updateEntry (fun _ => rfl) hall
  kept e he hpresent hne := mem_updateEntry_ne he (hne o List.mem_cons_self h)
  holds d hd := holds_updateEntry_ne (hd o List.mem_cons_self h) (fun _ => by rfl) _
  codes _ := codes_updateEntry _ (fun _ => by rfl) _

theorem rearms_rearm (s : State) (o : Output) : Rearms [o] s (rearm s o) := by
  obtain h | ⟨h, hunlatched | ⟨hcoil, r, htrip⟩⟩ := rearm_cases s o
  · rw [h]
    exact rearms_refl _ s
  · rw [hunlatched]
    exact rearms_unlatchOutput h
  · rw [htrip]
    have hone := rearms_unlatchOutput h
    generalize unlatchOutput s o = u at hone
    have hapart := redrive_apart o r u
    exact {
      touches := also (also hone.touches (touches_redrive o r u)) (touches_raise _ _)
      supplies := hapart.2.1.trans hone.supplies
      grant := hapart.2.2.trans hone.grant
      seconds := hone.seconds
      mode := hone.mode
      others := fun p hp => (hapart.1 p (by simpa using hp)).trans (hone.others p hp)
      unlatched := fun hall => unlatched_raise _ _ (hone.unlatched hall)
      kept := fun e he hpresent hne => mem_raise_ne (t := u.faultTable) _ _ (hone.kept e he hpresent hne) hpresent
        (hne o List.mem_cons_self h)
      holds := fun d hd => (holds_raise_ne (hd o List.mem_cons_self h) u.faultTable _ _).trans (hone.holds d hd)
      codes := fun hheld => by
        have hcodes := hone.codes hheld
        obtain hsound | ⟨e, he, hcode⟩ := hheld o List.mem_cons_self h
        · exact absurd hcoil (hsound ▸ Bool.false_ne_true)
        · have hmem : FaultCode.outShort o ∈ u.mc.faults.map fun e => e.code := by
            rw [hcodes]
            exact List.mem_map.mpr ⟨e, he, hcode⟩
          obtain ⟨x, hx, hxcode⟩ := List.mem_map.mp hmem
          have hraise : (raise (.outShort o) (redrive o r u)).mc.faults = updateEntry (.outShort o)
              (raisedEntry false u.mc.seconds) u.mc.faults :=
            congrArg FaultTable.entries (raise_of_held u.faultTable _ false u.mc.seconds ⟨x, hx, hxcode⟩)
          rw [hraise]
          exact (codes_updateEntry _ (fun _ => by rfl) _).trans hcodes }

theorem coilShorted_congr {s t : State} (h : t.clock = s.clock) (o : Output) : coilShorted o t = coilShorted o s := by
  rw [coilShorted, coilShorted, h]

theorem rearms_trans {l m : List Output} {s t u : State} (h : Rearms l s t) (k : Rearms m t u)
    (hdisjoint : ∀ o ∈ m, o ∉ l) : Rearms (l ++ m) s u := by
  have hsame (o : Output) (ho : o ∈ m) : t.out o = s.out o := h.others o (hdisjoint o ho)
  have hclock : t.clock = s.clock := h.touches .clock (by decide)
  exact {
    touches := h.touches.trans k.touches
    supplies := k.supplies.trans h.supplies
    grant := k.grant.trans h.grant
    seconds := k.seconds.trans h.seconds
    mode := k.mode.trans h.mode
    others := fun o ho => by
      rw [List.mem_append, not_or] at ho
      exact (k.others o ho.2).trans (h.others o ho.1)
    unlatched := fun hall => k.unlatched (h.unlatched hall)
    kept := fun e he hpresent hne => k.kept e
      (h.kept e he hpresent fun o ho => hne o (List.mem_append_left _ ho)) hpresent
      fun o ho hlatched => hne o (List.mem_append_right _ ho) (hsame o ho ▸ hlatched)
    holds := fun d hd => (k.holds d fun o ho hlatched => hd o (List.mem_append_right _ ho) (hsame o ho ▸ hlatched)).trans
      (h.holds d fun o ho => hd o (List.mem_append_left _ ho))
    codes := fun hheld => by
      have hcodes := h.codes fun o ho => hheld o (List.mem_append_left _ ho)
      refine (k.codes fun o ho hlatched => ?_).trans hcodes
      rw [coilShorted_congr hclock]
      refine (hheld o (List.mem_append_right _ ho) (hsame o ho ▸ hlatched)).imp_right ?_
      rintro ⟨e, he, hcode⟩
      have hmem : FaultCode.outShort o ∈ t.mc.faults.map fun e => e.code := by
        rw [hcodes]
        exact List.mem_map.mpr ⟨e, he, hcode⟩
      obtain ⟨x, hx, hxcode⟩ := List.mem_map.mp hmem
      exact ⟨x, hx, hxcode⟩ }

theorem rearms_foldl (l : List Output) (hl : l.Nodup) (s : State) : Rearms l s (l.foldl rearm s) := by
  induction l generalizing s with
  | nil => exact rearms_refl _ s
  | cons o l ih =>
    obtain ⟨hfresh, hrest⟩ := List.nodup_cons.mp hl
    exact rearms_trans (rearms_rearm s o) (ih hrest _) fun p hp hmem => hfresh (List.mem_singleton.mp hmem ▸ hp)

/-- One output's turn in the row: what comes before it and behind it does not concern it. -/
theorem foldl_rearm_turn (s : State) (o : Output) : ∃ (l m : List Output) (u : State), o ∉ l ∧ o ∉ m ∧
    Rearms l s u ∧ Rearms m (rearm u o) (releaseOutputs s) := by
  obtain ⟨l, m, hall⟩ := List.append_of_mem (Output.mem_all o)
  have hnodup : (l ++ o :: m).Nodup := hall ▸ Output.nodup_all
  obtain ⟨hl, hom, hdisjoint⟩ := List.nodup_append.mp hnodup
  obtain ⟨hfresh, hm⟩ := List.nodup_cons.mp hom
  have hfold : releaseOutputs s = m.foldl rearm (rearm (l.foldl rearm s) o) := by
    rw [releaseOutputs, hall, List.foldl_append, List.foldl_cons]
  exact ⟨l, m, l.foldl rearm s, fun ho => hdisjoint o ho o List.mem_cons_self rfl, hfresh, rearms_foldl l hl s,
    hfold ▸ rearms_foldl m hm _⟩

end Sys2Proof.Proofs
end

