-- ==== Sys2Proof/Proofs/TrailerReleased.lean ====
section
/-! SUPPORT. An acknowledgement (R184): the trailer's release behind the re-armed outputs, the sweep of what is no
longer present, and the statement about it. -/

namespace Sys2Proof.Proofs

open Sys2Proof Sys2Proof.Machine

/-! ## Outputs through the trailer's release (R156, log 92) -/

/-- What later writes to the bank leave of an output: stage and failed retries, the command of all but the trailer's
valves, no current while a retry waits, and the command as drive of one that nothing blocks. -/
structure DrivesOn (s t : State) : Prop where
  supplies : t.vdb.supplies = s.vdb.supplies
  short : ∀ o : Output, (t.out o).short = (s.out o).short
  retries : ∀ o : Output, (t.out o).retries = (s.out o).retries
  command : ∀ o : Output, o ≠ .tcv → o ≠ .tsv → (t.out o).command = (s.out o).command
  waits : ∀ o : Output, (s.out o).short = .retry → (s.out o).window = none → (s.out o).target = 0 →
    (t.out o).window = none ∧ (t.out o).target = 0
  driven : ∀ o : Output, (s.out o).short = .none → s.vdb.powered o = true → (s.out o).withheld = false →
    o.onOff = false → (s.out o).target = (s.out o).command →
    (t.out o).withheld = false ∧ (t.out o).target = (t.out o).command

theorem powered_congr {v w : Vdb} (h : v.supplies = w.supplies) (o : Output) : v.powered o = w.powered o := by
  rw [Vdb.powered, Vdb.powered, h]

section
variable {s t u : State}

theorem drivesOn_of_vdb (h : t.vdb = s.vdb) : DrivesOn s t := by
  have hout := out_of_vdb h
  refine ⟨congrArg Vdb.supplies h, ?_, ?_, ?_, ?_, ?_⟩ <;> intro o <;> rw [hout o]
  · exact fun _ _ => rfl
  · exact fun _ hwindow htarget => ⟨hwindow, htarget⟩
  · exact fun _ _ hheld _ htarget => ⟨hheld, htarget⟩

theorem drivesOn_trans (h : DrivesOn s t) (k : DrivesOn t u) : DrivesOn s u where
  supplies := k.supplies.trans h.supplies
  short o := (k.short o).trans (h.short o)
  retries o := (k.retries o).trans (h.retries o)
  command o htcv htsv := (k.command o htcv htsv).trans (h.command o htcv htsv)
  waits o hretry hwindow htarget := by
    obtain ⟨hw, ht⟩ := h.waits o hretry hwindow htarget
    exact k.waits o ((h.short o).trans hretry) hw ht
  driven o hnone hpower hheld ho htarget := by
    obtain ⟨hh, ht⟩ := h.driven o hnone hpower hheld ho htarget
    exact k.driven o ((h.short o).trans hnone) ((powered_congr h.supplies o).trans hpower) hh ho ht

theorem drivesOn_also {l : List Part} (h : DrivesOn s t) (k : Touches l t u) (hvdb : Part.vdb ∉ l) : DrivesOn s u :=
  drivesOn_trans h (drivesOn_of_vdb (k .vdb hvdb))

/-- A record written with its stage as it was, and a withheld flag that is not set by the write. -/
theorem drivesOn_redrive {o : Output} {r : OutRec} (hshort : r.short = (s.out o).short)
    (hretries : r.retries = (s.out o).retries) (hwindow : r.window = (s.out o).window)
    (hcommand : (o = .tcv ∨ o = .tsv) ∨ r.command = (s.out o).command)
    (hheld : (s.out o).withheld = false → r.withheld = false) : DrivesOn s (redrive o r s) := by
  obtain ⟨hothers, hsupplies, -⟩ := redrive_apart o r s
  obtain ⟨hc, hw, -, hs, hr, -⟩ := redrive_keeps o r s
  refine ⟨hsupplies, fun p => ?_, fun p => ?_, fun p htcv htsv => ?_, fun p hretry hno htarget => ?_,
    fun p hnone hpower hfree hp htarget => ?_⟩
  all_goals by_cases hpo : p = o
  · rw [hpo, hs, hshort]
  · rw [hothers p hpo]
  · rw [hpo, hr, hretries]
  · rw [hothers p hpo]
  · subst hpo
    rcases hcommand with (h | h) | h
    · exact absurd h htcv
    · exact absurd h htsv
    · exact hc.trans h
  · rw [hothers p hpo]
  · subst hpo
    have hblocked : (s.vdb.withOut p r).blocked p = true := by
      rw [withOut_blocked, hshort, hretry, hwindow, hno]
      simp
    exact ⟨redrive_window p r s (hwindow.trans hno), (redrive_blocked hblocked).1⟩
  · rw [hothers p hpo]
    exact ⟨hno, htarget⟩
  · subst hpo
    have hopen : (s.vdb.withOut p r).blocked p = false := by
      rw [withOut_blocked, hshort, hnone, hpower, hheld hfree]
      rfl
    exact ⟨hw.trans (hheld hfree), (redrive_proportional hopen hp).trans hc.symm⟩
  · rw [hothers p hpo]
    exact ⟨hfree, htarget⟩

theorem drivesOn_writeCommand {o : Output} (ho : o = .tcv ∨ o = .tsv) (v : Nat) (s : State) :
    DrivesOn s (writeCommand o v s) := by
  by_cases h : storedCommand s.cfg o v = (s.out o).command
  · rw [writeCommand_of_same h]
    exact drivesOn_of_vdb rfl
  · rw [writeCommand_of_new h]
    exact drivesOn_redrive rfl rfl rfl (.inl ho) id

/-- An allowed grant drives the hitch valves again. -/
theorem drivesOn_allowGrant (s : State) : DrivesOn s (allowGrant s) := by
  have hgrant : DrivesOn s (s.withVdb { s.vdb with grant := { s.vdb.grant with suspended := false, cause := none } }) :=
    ⟨rfl, fun _ => rfl, fun _ => rfl, fun _ _ _ => rfl, fun _ _ hw ht => ⟨hw, ht⟩, fun _ _ _ hh _ ht => ⟨hh, ht⟩⟩
  have hvalve (o : Output) (u : State) : DrivesOn u (redrive o { u.out o with withheld := false } u) :=
    drivesOn_redrive rfl rfl rfl (.inr rfl) fun _ => rfl
  exact drivesOn_trans (drivesOn_trans hgrant (hvalve .hrv _)) (hvalve .hlv _)

/-- A demand of 0 only ends a suspension (R59). -/
theorem drivesOn_grantOnDemand (h : s.tbc.demand = 0) : DrivesOn s (grantOnDemand s) := by
  have hfine : testGrant s = s := testGrant_of_fine (.inl (by rw [h]; decide))
  unfold grantOnDemand
  rw [hfine]
  exact holds_ite (holds_ite (drivesOn_allowGrant s) (drivesOn_of_vdb rfl)) (drivesOn_of_vdb rfl)

theorem drivesOn_enterIdle {st : TrailerState} (h : st.regulates = false) (s : State) :
    DrivesOn s (enterIdle st s) := by
  have hset (u : State) (x : Tbc) : DrivesOn u (u.withTbc x) := drivesOn_of_vdb rfl
  have htsv (u : State) : DrivesOn u (writeTsv u) := drivesOn_trans (hset u _) (drivesOn_writeCommand (.inr rfl) _ _)
  have htcv (u : State) : DrivesOn u (writeTcv 0 u) := drivesOn_trans (hset u _) (drivesOn_writeCommand (.inl rfl) _ _)
  have hdemand (u : State) (hu : u.tbc.state = st) : DrivesOn u (writeDemand u) := by
    have hzero : (demandOf u).1 = 0 := by rw [demandOf_idle (by rw [hu]; exact h)]
    exact drivesOn_trans (hset u _) (drivesOn_grantOnDemand hzero)
  have hstate : (writeTsv (s.withTbc { s.tbc with state := st, correction := 0 })).tbc.state = st := by
    rw [writeTsv_tbc]
    rfl
  exact drivesOn_also (drivesOn_trans (drivesOn_trans (drivesOn_trans (hset s _) (htsv _)) (hdemand _ hstate)) (htcv _))
    (touches_publish _ _) (by decide)
end

/-! ## The trailer's release (R156) -/

/-- The state a release leaves, by the gearbox, the stop order and the coupling. -/
def releasedTo (s : State) : TrailerState :=
  if s.shc.state = .parked ∨ s.tbc.stopOrder = true then .parked else if s.tbc.coupled = true then .charging else .absent

/-- The release of a trailer in BREAKAWAY, before its fault is cleared. -/
def released (s : State) : State :=
  if s.shc.state = .parked ∨ s.tbc.stopOrder = true then enterTrailerParked s else enterReleased s

section
variable (s : State)

theorem releaseTrailer_of_breakaway {s : State} (h : s.tbc.state = .breakaway)
    (hrun : s.mc.mode.controllersRun = true) : releaseTrailer s = clearFault .trailerBreakaway (released s) :=
  if_pos (by simp [h, hrun])

theorem releaseTrailer_of_other {s : State} (h : s.tbc.state ≠ .breakaway ∨ s.mc.mode.controllersRun = false) :
    releaseTrailer s = s := by
  refine if_neg ?_
  rw [Bool.and_eq_true, beq_iff_eq]
  rintro ⟨hrun, hs⟩
  rcases h with h | h
  · exact h hs
  · exact absurd hrun (h ▸ Bool.false_ne_true)

/-- The release enters a state without demand. -/
theorem released_eq : ∃ x : Tbc, released s = enterIdle (releasedTo s) (s.withTbc x) ∧
    x.coupled = s.tbc.coupled ∧ x.stopOrder = s.tbc.stopOrder ∧
    (releasedTo s = .charging → x.timer = 0) := by
  unfold released releasedTo
  by_cases hpark : s.shc.state = .parked ∨ s.tbc.stopOrder = true
  · rw [if_pos hpark, if_pos hpark]
    exact ⟨_, rfl, rfl, rfl, nofun⟩
  · rw [if_neg hpark, if_neg hpark]
    cases hcoupled : s.tbc.coupled with
    | true =>
      rw [enterReleased_of_coupled hcoupled]
      exact ⟨_, rfl, hcoupled, rfl, fun _ => rfl⟩
    | false =>
      rw [enterReleased_of_uncoupled hcoupled]
      exact ⟨s.tbc, rfl, hcoupled, rfl, nofun⟩

theorem releasedTo_idle : (releasedTo s).regulates = false := by
  unfold releasedTo
  split
  · rfl
  split <;> rfl

theorem touches_released : Touches [.vdb, .tbc, .lc] s (released s) :=
  touches_ite _ (touches_enterTrailerParked s) (touches_enterReleased s)

theorem drivesOn_released : DrivesOn s (released s) := by
  obtain ⟨x, h, -⟩ := released_eq s
  rw [h]
  exact drivesOn_trans (t := s.withTbc x) (drivesOn_of_vdb rfl) (drivesOn_enterIdle (releasedTo_idle s) _)

theorem drivesOn_releaseTrailer : DrivesOn s (releaseTrailer s) := by
  unfold releaseTrailer
  split
  · exact drivesOn_also (drivesOn_released s) (touches_clearFault _ _) (by decide)
  · exact drivesOn_of_vdb rfl

theorem touches_releaseTrailer : Touches [.vdb, .tbc, .lc, .mc] s (releaseTrailer s) :=
  touches_ite _ (also ((touches_released s).mono (by decide)) (touches_clearFault _ _)) (.refl _ s)

/-- What the release leaves of the trailer (R156 to R158). -/
theorem released_record : (released s).tbc.state = releasedTo s ∧ (released s).tbc.demand = 0 ∧
    (released s).tbc.contributor = .none ∧ (released s).tbc.correction = 0 ∧
    (released s).tbc.coupled = s.tbc.coupled ∧ (released s).tbc.stopOrder = s.tbc.stopOrder ∧
    (released s).tbc.tcv = 0 ∧ (released s).tbc.tsvOn = (releasedTo s).tsv ∧
    (releasedTo s = .charging → (released s).tbc.timer = 0) ∧
    ((released s).out .tcv).command = 0 ∧
    ((released s).out .tsv).command = if (releasedTo s).tsv = true then 1 else 0 := by
  obtain ⟨x, h, hcoupled, hstop, htimer⟩ := released_eq s
  obtain ⟨htsv, htcv⟩ := enterIdle_outs (st := releasedTo s) (s.withTbc x)
  rw [h, htsv, htcv, enterIdle_tbc _ (releasedTo_idle s)]
  exact ⟨rfl, rfl, rfl, rfl, hcoupled, hstop, rfl, rfl, htimer, rfl, rfl⟩
end

end Sys2Proof.Proofs
end

