-- ==== Sys2Proof/Proofs/Acknowledge.lean ====
section
/-! SUPPORT. The three steps of an acknowledgement put together (R184), and the statement about FAULT_ACKNOWLEDGE and
FAULT_ACK. -/

namespace Sys2Proof.Proofs

open Sys2Proof Sys2Proof.Machine

/-! ## The steps -/

/-- The state with every latch of the table cleared, and the one with the outputs re-armed. -/
def tableUnlatched (s : State) : State := s.withFaults s.faultTable.unlatch
def outputsReleased (s : State) : State :=
  if s.mc.mode.sensingRuns = true then releaseOutputs (tableUnlatched s) else tableUnlatched s

section
variable (s : State)

theorem acknowledge_vdb : (acknowledge s).vdb = (releaseTrailer (outputsReleased s)).vdb := rfl

theorem acknowledge_out (o : Output) : (acknowledge s).out o = (releaseTrailer (outputsReleased s)).out o := rfl

theorem acknowledge_tbc : (acknowledge s).tbc = (releaseTrailer (outputsReleased s)).tbc := rfl

theorem acknowledge_faults : (acknowledge s).mc.faults =
    (releaseTrailer (outputsReleased s)).mc.faults.filter FaultEntry.active := rfl

theorem rearms_outputsReleased : Rearms Output.all (tableUnlatched s) (outputsReleased s) :=
  holds_ite (rearms_foldl _ Output.nodup_all _) (rearms_refl _ _)

theorem unlatched_tableUnlatched : ∀ e ∈ (tableUnlatched s).mc.faults, e.latched = false := by
  intro x hx
  obtain ⟨e, -, rfl⟩ := List.mem_map.mp hx
  rfl

theorem mem_tableUnlatched {s : State} {e : FaultEntry} (he : e ∈ s.mc.faults) :
    { e with latched := false } ∈ (tableUnlatched s).mc.faults := List.mem_map.mpr ⟨e, he, rfl⟩

theorem codes_tableUnlatched :
    (tableUnlatched s).mc.faults.map (fun e => e.code) = s.mc.faults.map fun e => e.code :=
  List.map_map ..

/-- The trailer's release clears one code where it takes place. -/
theorem releaseTrailer_faults : (releaseTrailer s).mc.faults = s.mc.faults ∨
    ((s.tbc.state = .breakaway ∧ s.mc.mode.controllersRun = true) ∧ (releaseTrailer s).mc.faults =
      updateEntry .trailerBreakaway (fun e => { e with present := false }) s.mc.faults) := by
  by_cases h : s.tbc.state = .breakaway ∧ s.mc.mode.controllersRun = true
  · have hmc : (released s).mc = s.mc := touches_released s .mc (by decide)
    refine .inr ⟨h, ?_⟩
    rw [releaseTrailer_of_breakaway h.1 h.2, show (clearFault .trailerBreakaway (released s)).mc.faults =
      updateEntry .trailerBreakaway _ (released s).mc.faults from rfl, hmc]
  · exact .inl (congrArg (fun u : State => u.mc.faults) (releaseTrailer_of_other (by
      rw [not_and_or, Bool.not_eq_true] at h
      exact h)))

/-- The records the trailer's release reads are those of the state acknowledged. -/
theorem outputsReleased_records : (outputsReleased s).tbc = s.tbc ∧ (outputsReleased s).shc = s.shc ∧
    (outputsReleased s).mc.mode = s.mc.mode ∧ (outputsReleased s).lc = s.lc := by
  have h := rearms_outputsReleased s
  exact ⟨h.touches .tbc (by decide), h.touches .shc (by decide), h.mode, h.touches .lc (by decide)⟩

theorem touches_tableUnlatched : Touches [.mc] s (tableUnlatched s) := touches_withMc s _

theorem touches_acknowledge : Touches [.vdb, .tbc, .lc, .mc] s (acknowledge s) := by
  have hreleased := also ((touches_tableUnlatched s).mono (by decide : ∀ p ∈ [Part.mc], p ∈ [Part.vdb, .tbc, .lc, .mc]))
    (rearms_outputsReleased s).touches
  exact also (also hreleased (touches_releaseTrailer _)) (touches_withMc _ _)

/-! ## The table after an acknowledgement -/

theorem unlatched_releaseTrailer : ∀ e ∈ (releaseTrailer (outputsReleased s)).mc.faults, e.latched = false := by
  have h := (rearms_outputsReleased s).unlatched (unlatched_tableUnlatched s)
  obtain hsame | ⟨-, hclear⟩ := releaseTrailer_faults (outputsReleased s)
  · rw [hsame]
    exact h
  · rw [hclear]
    exact unlatched_updateEntry (fun _ => by rfl) h

/-- What stays is present, and has no latch. -/
theorem acknowledge_entries : ∀ e ∈ (acknowledge s).mc.faults, e.latched = false ∧ e.present = true := by
  intro e he
  obtain ⟨he, hactive⟩ := List.mem_filter.mp (acknowledge_faults s ▸ he)
  have hlatch := unlatched_releaseTrailer s e he
  refine ⟨hlatch, ?_⟩
  rw [FaultEntry.active, hlatch, Bool.or_false] at hactive
  exact hactive

/-- A code stays exactly where an entry of it is present. -/
theorem acknowledge_holds {d : FaultCode} :
    (∃ e ∈ (acknowledge s).mc.faults, e.code = d) ↔ Holds d (releaseTrailer (outputsReleased s)).mc.faults := by
  constructor
  · rintro ⟨e, he, hcode⟩
    obtain ⟨-, hpresent⟩ := acknowledge_entries s e he
    exact ⟨e, (List.mem_filter.mp (acknowledge_faults s ▸ he)).1, hcode, hpresent⟩
  · rintro ⟨e, he, hcode, hpresent⟩
    rw [acknowledge_faults]
    exact ⟨e, List.mem_filter.mpr ⟨he, by simp [FaultEntry.active, hpresent]⟩, hcode⟩

theorem mem_acknowledge {s : State} {e : FaultEntry} (he : e ∈ (outputsReleased s).mc.faults) (hpresent : e.present = true)
    (hbreak : e.code = .trailerBreakaway → ¬ (s.tbc.state = .breakaway ∧ s.mc.mode.controllersRun = true)) :
    e ∈ (acknowledge s).mc.faults := by
  obtain ⟨htbc, -, hmode, -⟩ := outputsReleased_records s
  rw [acknowledge_faults]
  refine List.mem_filter.mpr ⟨?_, by simp [FaultEntry.active, hpresent]⟩
  obtain hsame | ⟨hdue, hclear⟩ := releaseTrailer_faults (outputsReleased s)
  · rw [hsame]
    exact he
  · rw [hclear]
    rw [htbc, hmode] at hdue
    exact mem_updateEntry_ne he fun hcode => hbreak hcode hdue

theorem acknowledge_codes
    (h : ∀ o : Output, (s.out o).short = .latched →
      coilShorted o s = false ∨ ∃ e ∈ s.mc.faults, e.code = .outShort o) :
    ((acknowledge s).mc.faults.map fun e => e.code).Sublist (s.mc.faults.map fun e => e.code) := by
  have hcodes := (rearms_outputsReleased s).codes fun o _ hlatched => by
    refine (h o hlatched).imp_right ?_
    rintro ⟨e, he, hcode⟩
    exact ⟨_, mem_tableUnlatched he, hcode⟩
  have hrelease : (releaseTrailer (outputsReleased s)).mc.faults.map (fun e => e.code) =
      (outputsReleased s).mc.faults.map fun e => e.code := by
    obtain hsame | ⟨-, hclear⟩ := releaseTrailer_faults (outputsReleased s)
    · rw [hsame]
    · rw [hclear]
      exact codes_updateEntry _ (fun _ => by rfl) _
  rw [← codes_tableUnlatched s, ← hcodes, ← hrelease, acknowledge_faults]
  exact List.filter_sublist.map _

/-- A present entry that neither a re-armed output nor the trailer's release concerns. -/
theorem acknowledge_keeps {s : State} {e : FaultEntry} (he : e ∈ s.mc.faults) (hpresent : e.present = true)
    (hbreak : e.code = .trailerBreakaway → ¬ (s.tbc.state = .breakaway ∧ s.mc.mode.controllersRun = true))
    (hshort : ∀ o : Output, e.code = .outShort o → ¬ ((s.out o).short = .latched ∧ s.mc.mode.sensingRuns = true)) :
    { e with latched := false } ∈ (acknowledge s).mc.faults := by
  refine mem_acknowledge ?_ hpresent hbreak
  cases hrun : s.mc.mode.sensingRuns with
  | true =>
    exact (rearms_outputsReleased s).kept _ (mem_tableUnlatched he) hpresent
      fun o _ hlatched hcode => hshort o hcode ⟨hlatched, hrun⟩
  | false =>
    have hsame : outputsReleased s = tableUnlatched s := if_neg (by simp [hrun])
    rw [hsame]
    exact mem_tableUnlatched he

/-! ## The outputs after an acknowledgement -/

variable {s}

theorem outputsReleased_of_runs (hrun : s.mc.mode.sensingRuns = true) :
    outputsReleased s = releaseOutputs (tableUnlatched s) := if_pos hrun

/-- An output that was not latched is as it was. -/
theorem outputsReleased_unlatched (hrun : s.mc.mode.sensingRuns = true) {o : Output} (h : (s.out o).short ≠ .latched) :
    (outputsReleased s).out o = s.out o := by
  obtain ⟨l, m, u, hl, hm, hbefore, hafter⟩ := foldl_rearm_turn (tableUnlatched s) o
  have hout : u.out o = s.out o := hbefore.others o hl
  rw [outputsReleased_of_runs hrun, hafter.others o hm, rearm_of_other (by rw [hout]; exact h), hout]

/-- A latched one is re-armed in its turn. -/
theorem outputsReleased_latched (hrun : s.mc.mode.sensingRuns = true) {o : Output} (h : (s.out o).short = .latched) :
    ((outputsReleased s).out o).command = (s.out o).command ∧
    ((outputsReleased s).out o).withheld = (s.out o).withheld ∧
    ((outputsReleased s).out o).short ≠ .latched ∧ ((outputsReleased s).out o).retries = 0 := by
  obtain ⟨l, m, u, hl, hm, hbefore, hafter⟩ := foldl_rearm_turn (tableUnlatched s) o
  have hout : u.out o = s.out o := hbefore.others o hl
  rw [outputsReleased_of_runs hrun, hafter.others o hm, ← hout]
  rw [← hout] at h
  obtain ⟨hcommand, hheld, hnone, hretries⟩ := unlatchOutput_keeps o u
  by_cases hcoil : coilShorted o u = true ∧ ((unlatchOutput u o).out o).target ≠ 0
  · rw [rearm_of_latched h, if_pos hcoil, trip_of_none hnone, raise_out]
    obtain ⟨hc, hw, -, hs, hr, -⟩ := redrive_keeps o
      { (unlatchOutput u o).out o with short := .retry, retries := 0, retryTimer := 0, window := none }
      (unlatchOutput u o)
    rw [hc, hw, hs, hr]
    exact ⟨hcommand, hheld, by simp, rfl⟩
  · rw [rearm_of_latched h, if_neg hcoil, hcommand, hheld, hnone, hretries]
    exact ⟨rfl, rfl, by simp, rfl⟩

/-- One whose coil is still shorted trips at once (R53, log 81). -/
theorem outputsReleased_shorted (hrun : s.mc.mode.sensingRuns = true) {o : Output} (h : (s.out o).short = .latched)
    (hcoil : coilShorted o s = true) (hpower : s.vdb.powered o = true) (hon : (s.out o).command ≠ 0)
    (hheld : (s.out o).withheld = false) :
    ((outputsReleased s).out o).short = .retry ∧ ((outputsReleased s).out o).window = none ∧
    ((outputsReleased s).out o).target = 0 ∧
    ∀ e ∈ s.mc.faults, e.code = .outShort o → e.present = true →
      { e with latched := false, present := true, count := min 255 (e.count + 1), last := s.mc.seconds } ∈
        (outputsReleased s).mc.faults := by
  obtain ⟨l, m, u, hl, hm, hbefore, hafter⟩ := foldl_rearm_turn (tableUnlatched s) o
  have hout : u.out o = s.out o := hbefore.others o hl
  have hshorted := rearm_of_shorted (s := u) (o := o) (by rw [hout]; exact h)
    ((coilShorted_congr (hbefore.touches .clock (by decide)) o).trans hcoil)
    ((powered_congr hbefore.supplies o).trans hpower) (by rw [hout]; exact hon) (by rw [hout]; exact hheld)
  rw [outputsReleased_of_runs hrun, hafter.others o hm, hshorted, raise_out]
  generalize hr : ({ (unlatchOutput u o).out o with short := .retry, retries := 0, retryTimer := 0, window := none } :
    OutRec) = r at hshorted ⊢
  have hwindow : r.window = none := hr ▸ rfl
  have hretry : r.short = .retry := hr ▸ rfl
  have hblocked : ((unlatchOutput u o).vdb.withOut o r).blocked o = true := by
    rw [withOut_blocked, hretry, hwindow]
    simp
  obtain ⟨-, -, -, hshort, -⟩ := redrive_keeps o r (unlatchOutput u o)
  refine ⟨hshort.trans hretry, redrive_window o r _ hwindow, (redrive_blocked hblocked).1, fun e he hcode hpresent => ?_⟩
  refine hafter.kept _ ?_ rfl fun p hp _ heq => ?_
  · have hmem := hbefore.kept _ (mem_tableUnlatched he) hpresent fun p hp _ heq => by
      have hpo : p = o := by
        have := hcode.symm.trans heq
        exact (FaultCode.outShort.inj this).symm
      exact hl (hpo ▸ hp)
    rw [hshorted]
    have hcleared : { e with latched := false, present := false } ∈ (redrive o r (unlatchOutput u o)).mc.faults :=
      mem_updateEntry.mpr ⟨_, hmem, if_pos hcode⟩
    have hraise : (raise (.outShort o) (redrive o r (unlatchOutput u o))).mc.faults = updateEntry (.outShort o)
        (raisedEntry false u.mc.seconds) (redrive o r (unlatchOutput u o)).mc.faults :=
      congrArg FaultTable.entries (raise_of_held (redrive o r (unlatchOutput u o)).faultTable _ false u.mc.seconds
        ⟨_, hcleared, hcode⟩)
    rw [hraise, show s.mc.seconds = u.mc.seconds from hbefore.seconds.symm]
    exact mem_updateEntry.mpr ⟨_, hcleared, if_pos hcode⟩
  · have hpo : p = o := by
      have := hcode.symm.trans heq
      exact (FaultCode.outShort.inj this).symm
    exact hm (hpo ▸ hp)

/-- Any other is driven at its command, and its entry is no longer present. -/
theorem outputsReleased_sound (hrun : s.mc.mode.sensingRuns = true) {o : Output} (h : (s.out o).short = .latched)
    (hsound : coilShorted o s = false ∨ s.vdb.powered o = false ∨ (s.out o).command = 0 ∨
      (s.out o).withheld = true) :
    ((outputsReleased s).out o).short = .none ∧ ¬ Holds (.outShort o) (outputsReleased s).mc.faults ∧
    (s.vdb.powered o = true → (s.out o).withheld = false → o.onOff = false →
      ((outputsReleased s).out o).target = (s.out o).command) := by
  obtain ⟨l, m, u, hl, hm, hbefore, hafter⟩ := foldl_rearm_turn (tableUnlatched s) o
  have hout : u.out o = s.out o := hbefore.others o hl
  have hpowered : u.vdb.powered o = s.vdb.powered o := powered_congr hbefore.supplies o
  have hrearm := rearm_of_sound (s := u) (o := o) (by rw [hout]; exact h) (by
    rw [coilShorted_congr (hbefore.touches .clock (by decide)), hpowered, hout]
    exact hsound)
  rw [outputsReleased_of_runs hrun, hafter.others o hm, hrearm]
  rw [hrearm] at hafter
  obtain ⟨-, -, hnone, -⟩ := unlatchOutput_keeps o u
  refine ⟨hnone, ?_, fun hpower hheld ho => ?_⟩
  · rw [hafter.holds _ fun p hp _ heq => hm ((FaultCode.outShort.inj heq : o = p) ▸ hp), ← faultPresent_iff]
    exact Bool.eq_false_iff.mp (faultPresent_clearFault _ _)
  · rw [unlatchOutput_target (hpowered.trans hpower) (by rw [hout]; exact hheld) ho, hout]

/-- The outputs after the trailer's release. -/
theorem acknowledge_output (hrun : s.mc.mode.sensingRuns = true) (o : Output) :
    ((acknowledge s).out o).short ≠ .latched ∧
    ((s.out o).short = .retry → ((acknowledge s).out o).short = .retry) ∧
    (¬(s.tbc.state = .breakaway ∧ (o = .tcv ∨ o = .tsv)) →
      ((acknowledge s).out o).command = (s.out o).command) ∧
    ((s.out o).short = .latched → ((acknowledge s).out o).retries = 0 ∧
      (coilShorted o s = true → s.vdb.powered o = true → (s.out o).command ≠ 0 → (s.out o).withheld = false →
        ((acknowledge s).out o).short = .retry ∧ ((acknowledge s).out o).target = 0 ∧
        ∀ e ∈ s.mc.faults, e.code = .outShort o → e.present = true →
          { e with latched := false, present := true, count := min 255 (e.count + 1), last := s.mc.seconds } ∈
            (acknowledge s).mc.faults) ∧
      (coilShorted o s = false ∨ s.vdb.powered o = false ∨ (s.out o).command = 0 ∨ (s.out o).withheld = true →
        ((acknowledge s).out o).short = .none ∧ (∀ e ∈ (acknowledge s).mc.faults, e.code ≠ .outShort o) ∧
        (s.vdb.powered o = true → (s.out o).withheld = false → o.onOff = false →
          ((acknowledge s).out o).target = ((acknowledge s).out o).command))) := by
  have hdrives := drivesOn_releaseTrailer (outputsReleased s)
  have hreleased := rearms_outputsReleased s
  obtain ⟨htbc, -, -, -⟩ := outputsReleased_records s
  have hcommand : ((outputsReleased s).out o).command = (s.out o).command := by
    by_cases h : (s.out o).short = .latched
    · exact (outputsReleased_latched hrun h).1
    · rw [outputsReleased_unlatched hrun h]
  rw [acknowledge_out, hdrives.short, hdrives.retries]
  refine ⟨?_, fun hretry => ?_, fun hnot => ?_, fun hlatched => ⟨(outputsReleased_latched hrun hlatched).2.2.2,
    fun hcoil hpower hon hheld => ?_, fun hsound => ?_⟩⟩
  · by_cases h : (s.out o).short = .latched
    · exact (outputsReleased_latched hrun h).2.2.1
    · rw [outputsReleased_unlatched hrun h]
      exact h
  · rw [outputsReleased_unlatched hrun (by simp [hretry])]
    exact hretry
  · by_cases hs : s.tbc.state = .breakaway
    · rw [hdrives.command o (fun h => hnot ⟨hs, .inl h⟩) (fun h => hnot ⟨hs, .inr h⟩), hcommand]
    · rw [releaseTrailer_of_other (.inl (by rw [htbc]; exact hs)), hcommand]
  · obtain ⟨hshort, hwindow, htarget, hentry⟩ := outputsReleased_shorted hrun hlatched hcoil hpower hon hheld
    refine ⟨hshort, (hdrives.waits o hshort hwindow htarget).2, fun e he hcode hpresent => ?_⟩
    refine mem_acknowledge (hentry e he hcode hpresent) rfl fun hbreak => ?_
    exact absurd (hcode.symm.trans hbreak) (by simp)
  · obtain ⟨hshort, hgone, htarget⟩ := outputsReleased_sound hrun hlatched hsound
    refine ⟨hshort, fun e he hcode => ?_, fun hpower hheld ho => ?_⟩
    · have hholds := (acknowledge_holds s).mp ⟨e, he, hcode⟩
      obtain hsame | ⟨-, hclear⟩ := releaseTrailer_faults (outputsReleased s)
      · exact hgone (hsame ▸ hholds)
      · rw [hclear, holds_updateEntry_ne (by simp) (fun _ => by rfl)] at hholds
        exact hgone hholds
    · have hheldNow := (outputsReleased_latched hrun hlatched).2.1.trans hheld
      have hpowerNow := (powered_congr hreleased.supplies o).trans hpower
      exact (hdrives.driven o hshort hpowerNow hheldNow ho ((htarget hpower hheld ho).trans hcommand.symm)).2

/-! ## The trailer after an acknowledgement -/

theorem acknowledge_vdb_of_stopped (hrun : s.mc.mode.sensingRuns = false) : (acknowledge s).vdb = s.vdb := by
  obtain ⟨-, -, hmode, -⟩ := outputsReleased_records s
  have hstopped : s.mc.mode.controllersRun = false := by
    cases hm : s.mc.mode <;> simp [hm, Mode.sensingRuns, Mode.controllersRun] at hrun ⊢
  rw [acknowledge_vdb, releaseTrailer_of_other (.inr (by rw [hmode]; exact hstopped)), outputsReleased,
    if_neg (by simp [hrun])]
  rfl

theorem acknowledge_tbc_of_other (h : s.tbc.state ≠ .breakaway ∨ s.mc.mode.controllersRun = false) :
    (acknowledge s).tbc = s.tbc := by
  obtain ⟨htbc, -, hmode, -⟩ := outputsReleased_records s
  rw [acknowledge_tbc, releaseTrailer_of_other (by rw [htbc, hmode]; exact h), htbc]

theorem acknowledge_trailer (hs : s.tbc.state = .breakaway) (hrun : s.mc.mode.controllersRun = true) :
    (acknowledge s).tbc = (released (outputsReleased s)).tbc ∧
    (∀ o, (acknowledge s).out o = (released (outputsReleased s)).out o) ∧
    (∀ e ∈ (acknowledge s).mc.faults, e.code ≠ .trailerBreakaway) := by
  obtain ⟨htbc, -, hmode, -⟩ := outputsReleased_records s
  have hrelease := releaseTrailer_of_breakaway (s := outputsReleased s) (by rw [htbc]; exact hs)
    (by rw [hmode]; exact hrun)
  refine ⟨?_, fun o => ?_, fun e he hcode => ?_⟩
  · rw [acknowledge_tbc, hrelease]
    rfl
  · rw [acknowledge_out, hrelease, clearFault_out]
  · have hholds := (acknowledge_holds s).mp ⟨e, he, hcode⟩
    rw [hrelease, ← faultPresent_iff, faultPresent_clearFault] at hholds
    exact absurd hholds Bool.false_ne_true

/-- The state the trailer is released to. -/
theorem releasedTo_acknowledged (s : State) : releasedTo (outputsReleased s) = releasedTo s := by
  obtain ⟨htbc, hshc, -, -⟩ := outputsReleased_records s
  unfold releasedTo
  rw [htbc, hshc]

theorem acknowledge_released (hs : s.tbc.state = .breakaway) (hrun : s.mc.mode.controllersRun = true) :
    (acknowledge s).tbc.demand = 0 ∧ (acknowledge s).tbc.contributor = .none ∧
    (acknowledge s).tbc.correction = 0 ∧ (acknowledge s).tbc.coupled = s.tbc.coupled ∧
    (acknowledge s).tbc.stopOrder = s.tbc.stopOrder ∧ (acknowledge s).tbc.tcv = 0 ∧
    ((acknowledge s).out .tcv).command = 0 ∧
    (∀ e ∈ (acknowledge s).mc.faults, e.code ≠ .trailerBreakaway) ∧
    (s.shc.state = .parked ∨ s.tbc.stopOrder = true → (acknowledge s).tbc.state = .parked ∧
      (acknowledge s).tbc.tsvOn = false ∧ ((acknowledge s).out .tsv).command = 0) ∧
    (s.shc.state ≠ .parked → s.tbc.stopOrder = false → s.tbc.coupled = true →
      (acknowledge s).tbc.state = .charging ∧ (acknowledge s).tbc.timer = 0 ∧ (acknowledge s).tbc.tsvOn = true ∧
      ((acknowledge s).out .tsv).command = 1) ∧
    (s.shc.state ≠ .parked → s.tbc.stopOrder = false → s.tbc.coupled = false →
      (acknowledge s).tbc.state = .absent ∧ (acknowledge s).tbc.tsvOn = false ∧
      ((acknowledge s).out .tsv).command = 0) := by
  obtain ⟨htbc, hout, hgone⟩ := acknowledge_trailer hs hrun
  obtain ⟨hsame, -, -, -⟩ := outputsReleased_records s
  obtain ⟨hstate, hdemand, hcontributor, hcorrection, hcoupled, hstop, htcv, htsvOn, htimer, htcvOut, htsvOut⟩ :=
    released_record (outputsReleased s)
  rw [releasedTo_acknowledged] at hstate htsvOn htimer htsvOut
  rw [htbc, hout, hout, htsvOut, hstate, htsvOn, hcoupled, hstop, hsame]
  refine ⟨hdemand, hcontributor, hcorrection, rfl, rfl, htcv, htcvOut, hgone, fun hpark => ?_,
    fun hshc hnostop hclosed => ?_, fun hshc hnostop hopen => ?_⟩
  · have hto : releasedTo s = .parked := if_pos hpark
    rw [hto]
    exact ⟨rfl, rfl, rfl⟩
  · have hto : releasedTo s = .charging := (if_neg (by simp [hshc, hnostop])).trans (if_pos hclosed)
    rw [hto]
    exact ⟨rfl, htimer hto, rfl, rfl⟩
  · have hto : releasedTo s = .absent := (if_neg (by simp [hshc, hnostop])).trans (if_neg (by simp [hopen]))
    rw [hto]
    exact ⟨rfl, rfl, rfl⟩

end

/-! ## The answer -/

/-- The only frame that an entry to a state without demand makes is the trailer's. -/
theorem enterIdle_lc (st : TrailerState) (s : State) :
    ∃ u : State, u.lc = s.lc ∧ (enterIdle st s).lc = (publish .trailer u).lc := by
  refine ⟨writeTcv 0 (writeDemand (writeTsv (s.withTbc { s.tbc with state := st, correction := 0 }))), ?_, rfl⟩
  generalize hv : s.withTbc { s.tbc with state := st, correction := 0 } = v
  have hset : v.lc = s.lc := hv ▸ rfl
  have hwrites : Touches [.vdb, .tbc] v (writeTcv 0 (writeDemand (writeTsv v))) :=
    ((touches_writeTsv v).trans (touches_writeDemand _)).trans (touches_writeTcv _ _)
  exact (hwrites .lc (by decide)).trans hset

theorem releaseTrailer_lc (s : State) :
    (releaseTrailer s).lc = s.lc ∨ ∃ u : State, u.lc = s.lc ∧ (releaseTrailer s).lc = (publish .trailer u).lc := by
  by_cases h : s.tbc.state = .breakaway ∧ s.mc.mode.controllersRun = true
  · obtain ⟨x, hreleased, -⟩ := released_eq s
    obtain ⟨u, hu, hmade⟩ := enterIdle_lc (releasedTo s) (s.withTbc x)
    have hclear : (clearFault .trailerBreakaway (released s)).lc = (released s).lc :=
      touches_clearFault _ _ .lc (by decide)
    refine .inr ⟨u, hu, ?_⟩
    rw [releaseTrailer_of_breakaway h.1 h.2, hclear, hreleased, hmade]
  · rw [not_and_or, Bool.not_eq_true] at h
    exact .inl (congrArg State.lc (releaseTrailer_of_other h))

/-- The only frame the steps make is the trailer's. -/
theorem acknowledge_lc (s : State) :
    (acknowledge s).lc = s.lc ∨ ∃ u : State, u.lc = s.lc ∧ (acknowledge s).lc = (publish .trailer u).lc := by
  obtain ⟨-, -, -, hlc⟩ := outputsReleased_records s
  have hlast : (acknowledge s).lc = (releaseTrailer (outputsReleased s)).lc := rfl
  have h := releaseTrailer_lc (outputsReleased s)
  rwa [← hlast, hlc] at h

theorem acknowledge_mode (s : State) : (acknowledge s).mc.mode = s.mc.mode := by
  obtain ⟨-, -, hmode, -⟩ := outputsReleased_records s
  have hreleased : (releaseTrailer (outputsReleased s)).mc.mode = (outputsReleased s).mc.mode := by
    by_cases h : (outputsReleased s).tbc.state = .breakaway ∧ (outputsReleased s).mc.mode.controllersRun = true
    · have hmc : (released (outputsReleased s)).mc = (outputsReleased s).mc := touches_released _ .mc (by decide)
      have hclear : (clearFault .trailerBreakaway (released (outputsReleased s))).mc.mode =
          (released (outputsReleased s)).mc.mode := rfl
      rw [releaseTrailer_of_breakaway h.1 h.2, hclear, hmc]
    · rw [not_and_or, Bool.not_eq_true] at h
      rw [releaseTrailer_of_other h]
  exact hreleased.trans hmode

theorem acknowledge_answered (tag : Byte) (s : State) :
    Answered 1 tag .done .none s (serviceAnswer codeFaultAck tag .done .none (acknowledge s)) := by
  have hlink : (acknowledge s).lc.link = s.lc.link ∧ (acknowledge s).lc.quiet = s.lc.quiet ∧
      (acknowledge s).lc.sendCounts.get .serviceResult = s.lc.sendCounts.get .serviceResult ∧
      (s.lc.queue.length < 7 → (acknowledge s).lc.queue.length < 8) := by
    obtain h | ⟨u, hu, h⟩ := acknowledge_lc s
    · rw [h]
      exact ⟨rfl, rfl, rfl, fun hfew => hfew.trans (by decide)⟩
    · have hmade := publishedLink .trailer u
      rw [h, hmade.link, hmade.quiet, hmade.counts _ (by decide), ← hu]
      exact ⟨rfl, rfl, rfl, fun hfew => (hmade.room (hfew.trans (by decide))).trans_lt (Nat.succ_lt_succ hfew)⟩
  obtain ⟨hstate, hquiet, hcounts, hroom⟩ := hlink
  refine answered_of_link (fun hmay => ?_) hcounts hroom
  simp only [State.mayMake, hstate, hquiet, acknowledge_mode]
  exact hmay

/-! ## The statement -/

/-- Both commands take their request and acknowledge; FAULT_ACK answers behind it. -/
theorem exec_acknowledge {c : Instr} {r : Request} {rest : List Request} {s : State}
    (hc : (c = .faultAcknowledge ∧ OldestRequest Request.isAcknowledge r rest s) ∨
      (c = .faultAck ∧ OldestRequest (Request.isService 1) r rest s)) (hdelivers : s.mc.mode.delivers = true) :
    ∃ t, exec c s = .next t ∧ Touches [.lc] (acknowledge (s.withRequests rest)) t ∧
      ∀ code tag : Byte, c = .faultAck → r = .service code tag → Answered 1 tag .done .none s t := by
  obtain ⟨rfl, htake⟩ | ⟨rfl, htake⟩ := hc
  · refine ⟨acknowledge (s.withRequests rest), ?_, .refl _ _, nofun⟩
    change execFaultAcknowledge s = _
    unfold execFaultAcknowledge
    rw [takeRequest_oldest htake]
    exact congrArg Host.Outcome.next (if_pos hdelivers)
  · obtain ⟨hservice, -⟩ := id htake
    cases r with
    | service code tag =>
      refine ⟨serviceAnswer codeFaultAck tag .done .none (acknowledge (s.withRequests rest)), ?_,
        touches_serviceAnswer _ _ _ _ _, fun code' tag' _ heq => ?_⟩
      · change execFaultAck s = _
        unfold execFaultAck
        rw [show Request.isService codeFaultAck = Request.isService 1 from rfl, takeRequest_oldest htake]
        exact congrArg Host.Outcome.next (if_pos hdelivers)
      · obtain ⟨-, rfl⟩ := Request.service.inj heq
        exact acknowledge_answered tag (s.withRequests rest)
    | _ => exact absurd hservice Bool.false_ne_true

/-- Settles O5: the table by its three steps, each output by its turn, the trailer by its release. -/
theorem acknowledgementSweeps : Obligations.AcknowledgementSweeps := by
  intro c r rest s hc hdelivers
  obtain ⟨t, hexec, ht, hanswered⟩ := exec_acknowledge hc hdelivers
  have hmc : t.mc = (acknowledge (s.withRequests rest)).mc := ht .mc (by decide)
  have hvdb : t.vdb = (acknowledge (s.withRequests rest)).vdb := ht .vdb (by decide)
  have htbc : t.tbc = (acknowledge (s.withRequests rest)).tbc := ht .tbc (by decide)
  have hout (o : Output) : t.out o = (acknowledge (s.withRequests rest)).out o := out_of_vdb hvdb o
  have htouch := touches_acknowledge (s.withRequests rest)
  have hrequests : t.requests = rest :=
    (ht .requests (by decide) : t.requests = _).trans (htouch .requests (by decide))
  have hframe : Touches [.vdb, .tbc, .lc, .mc, .requests] s t :=
    also (also ((touches_withRequests s rest).mono (by decide)) htouch) ht
  refine ⟨t, hexec, hrequests, ?_⟩
  simp only [hmc, hvdb, htbc, hout]
  exact ⟨acknowledge_entries _, acknowledge_codes (s.withRequests rest),
    fun e he => acknowledge_keeps (s := s.withRequests rest) he,
    acknowledge_output (s := s.withRequests rest), acknowledge_vdb_of_stopped (s := s.withRequests rest),
    acknowledge_tbc_of_other (s := s.withRequests rest), acknowledge_released (s := s.withRequests rest),
    hanswered, hframe⟩

end Sys2Proof.Proofs
end

