-- ==== Sys2Proof/Proofs/ShiftCommand.lean ====
section
/-! SUPPORT. The request queue (R70) and the cab's shift command (R69, R71, R193), and the statements about them. -/

namespace Sys2Proof.Proofs

open Sys2Proof Sys2Proof.Machine

/-! ## The request queue (R70) -/

section
variable {kind : ShiftKind} {who : Origin} {l : List QueueEntry} {tail : QueueEntry}

theorem offer_of_room (hk : tail.kind = kind) (h : tail.steps < 3) :
    offer kind who (l ++ [tail]) = some (l ++ [⟨kind, tail.steps + 1, who⟩]) := by
  simp [offer, hk, maxSteps, h]

theorem offer_of_full_tail (hk : tail.kind = kind) (h : tail.steps = 3) :
    offer kind who (l ++ [tail]) =
      if (l ++ [tail]).length < 4 then some (l ++ [tail] ++ [⟨kind, 1, who⟩]) else none := by
  simp [offer, hk, maxSteps, maxEntries, h]

theorem offer_of_cancelled (hk : tail.kind ≠ kind) (h : tail.steps = 1) :
    offer kind who (l ++ [tail]) = some l := by
  simp [offer, hk, h]

theorem offer_of_opposed (hk : tail.kind ≠ kind) (h : 1 < tail.steps) :
    offer kind who (l ++ [tail]) = some (l ++ [{ tail with steps := tail.steps - 1 }]) := by
  simp [offer, hk, Nat.not_le.mpr h]

end

/-- Settles O24. -/
theorem requestQueueMerges : Obligations.RequestQueueMerges := by
  intro kind who q
  refine ⟨rfl, ?_, fun hlen hsteps r hr => requestsBounded_offer ⟨hlen, hsteps⟩ hr⟩
  rintro l tail rfl
  refine ⟨offer_of_room, fun hk h hroom => ?_, fun hk h hfull => ?_, offer_of_cancelled, offer_of_opposed⟩
  · exact (offer_of_full_tail hk h).trans (if_pos hroom)
  · exact (offer_of_full_tail hk h).trans (if_neg (Nat.not_lt.mpr hfull))

/-! ## A request event (R69) -/

theorem requestRefusal_eq (s : State) : requestRefusal s =
    if s.shc.state = .faultHold then some .fault
    else if s.shc.state = .neutral ∨ s.shc.state = .parked then some .noGear
    else if s.sfe.chans.chg.cmp = .low ∨ s.sfe.chans.chg.state ≠ .valid then some .noCharge
    else if s.lc.cabDrive.fresh ≠ .fresh ∨ s.scu.motion.rearVal = .lost ∨ s.scu.motion.inputVal = .lost then
      some .fault
    else none := by
  simp [requestRefusal, State.chargeDoubt, State.speedsLost, Peer.isFresh]

section
variable {s : State} {kind : ShiftKind} {who : Origin}

theorem shiftRequest_of_refused {why : ShcReason} (h : requestRefusal s = some why) :
    shiftRequest kind who s = refuse why who s := by
  simp [shiftRequest, h]

theorem shiftRequest_of_placed {q : List QueueEntry} (h : requestRefusal s = none)
    (hq : offer kind who s.shc.queue = some q) :
    shiftRequest kind who s = s.withShc { s.shc with queue := q } := by
  simp [shiftRequest, h, hq]

theorem shiftRequest_of_full (h : requestRefusal s = none) (hq : offer kind who s.shc.queue = none) :
    shiftRequest kind who s = refuse .full who s := by
  simp [shiftRequest, h, hq]

theorem touches_refuse (why : ShcReason) (who : Origin) (s : State) : Touches [.shc] s (refuse why who s) :=
  touches_withShc s _

theorem refuse_shc (why : ShcReason) (who : Origin) (s : State) : (refuse why who s).shc =
    { s.shc with lastRefusal := some (why, who), refusals := s.shc.refusals + 1 } := rfl

theorem touches_shiftRequest (kind : ShiftKind) (who : Origin) (s : State) :
    Touches [.shc] s (shiftRequest kind who s) := by
  cases h : requestRefusal s with
  | some why => rw [shiftRequest_of_refused h]; exact touches_refuse _ _ _
  | none =>
    cases hq : offer kind who s.shc.queue with
    | some q => rw [shiftRequest_of_placed h hq]; exact touches_withShc _ _
    | none => rw [shiftRequest_of_full h hq]; exact touches_refuse _ _ _

/-- The first reason that applies, the full queue the last (R69, R70). -/
theorem shiftRequest_reason {why : Option ShcReason}
    (h : why = if s.shc.state = .faultHold then some .fault
      else if s.shc.state = .neutral ∨ s.shc.state = .parked then some .noGear
      else if s.sfe.chans.chg.cmp = .low ∨ s.sfe.chans.chg.state ≠ .valid then some .noCharge
      else if s.lc.cabDrive.fresh ≠ .fresh ∨ s.scu.motion.rearVal = .lost ∨ s.scu.motion.inputVal = .lost then
        some .fault
      else if offer kind who s.shc.queue = none then some .full
      else none) :
    (∀ r : ShcReason, why = some r → (shiftRequest kind who s).shc = { s.shc with
      lastRefusal := some (r, who), refusals := s.shc.refusals + 1 }) ∧
    (why = none → offer kind who s.shc.queue = some (shiftRequest kind who s).shc.queue ∧
      (shiftRequest kind who s).shc = { s.shc with queue := (shiftRequest kind who s).shc.queue }) := by
  have hwhy : why = (requestRefusal s).or (if offer kind who s.shc.queue = none then some .full else none) := by
    rw [h, requestRefusal_eq]
    split_ifs <;> rfl
  cases hr : requestRefusal s with
  | some r =>
    rw [hr] at hwhy
    refine ⟨fun r' h' => ?_, fun h' => by simp [hwhy] at h'⟩
    obtain rfl : r = r' := by simpa [hwhy] using h'
    rw [shiftRequest_of_refused hr, refuse_shc]
  | none =>
    cases hq : offer kind who s.shc.queue with
    | none =>
      have hfull : why = some .full := by simp [hwhy, hr, hq]
      refine ⟨fun r' h' => ?_, fun h' => by simp [hfull] at h'⟩
      obtain rfl : ShcReason.full = r' := by simpa [hfull] using h'
      rw [shiftRequest_of_full hr hq, refuse_shc]
    | some q =>
      have hnone : why = none := by simp [hwhy, hr, hq]
      refine ⟨fun r' h' => by simp [hnone] at h', fun _ => ?_⟩
      rw [shiftRequest_of_placed hr hq]
      exact ⟨rfl, rfl⟩

end

/-! ## Selecting a gear (R69) -/

theorem startable_iff (c : Image) (g : Gear) :
    Image.startable c g = true ↔ ∃ e : GearEntry, c.entryOf g = some e ∧ e.start = true := by
  unfold Image.startable
  cases c.entryOf g <;> simp

theorem selectRequest_of_permitted {s : State} {g : Gear} (hst : s.shc.state = .neutral ∨ s.shc.state = .parked)
    (hg : Image.startable s.cfg g = true) :
    selectRequest (some g) s = s.withShc { s.shc with selected := some g } :=
  if_pos ⟨hst, hg⟩

theorem selectRequest_of_refused {s : State} {g : Option Gear}
    (h : ¬(s.shc.state = .neutral ∨ s.shc.state = .parked) ∨
      ∀ x : Gear, g = some x → Image.startable s.cfg x ≠ true) :
    selectRequest g s = refuse .noGear .cab s := by
  cases g with
  | none => rfl
  | some x => exact if_neg fun k => h.elim (fun hst => hst k.1) fun hx => hx x rfl k.2

theorem touches_selectRequest (g : Option Gear) (s : State) : Touches [.shc] s (selectRequest g s) := by
  cases g with
  | none => exact touches_refuse _ _ _
  | some g => exact touches_ite _ (touches_withShc _ _) (touches_refuse _ _ _)

/-! ## The notice of a cab edge (R176) -/

theorem touches_abortRun (cause : AbortCause) (s : State) : Touches [.hsq] s (abortRun cause s) :=
  touches_ite _ (touches_withHsq _ _) (Touches.refl _ _)

theorem touches_notice (f : HAction → Bool) (s : State) : Touches [.hsq] s (notice f s) :=
  touches_ite _ (touches_ite _ (touches_abortRun _ _) (Touches.refl _ _)) (Touches.refl _ _)

theorem abortRun_of_idle {cause : AbortCause} {s : State} (h : s.hsq.state ≠ .running) : abortRun cause s = s :=
  if_neg (by simpa [State.running] using h)

theorem notice_of_idle {f : HAction → Bool} {s : State}
    (h : s.mc.mode ≠ .operating ∨ s.hsq.state ≠ .running) : notice f s = s := by
  obtain hm | hr := h
  · exact if_neg (by simpa [Mode.headlandRuns] using hm)
  · simp only [notice, cabTouches, abortRun_of_idle hr, ite_self]

/-! ## The rows (R193) -/

theorem takeShift_oldest {cmd : ShiftCmd} {rest : List Request} {s : State}
    (h : OldestRequest Request.isShift (.shift cmd) rest s) :
    takeShift s = some (cmd, s.withRequests rest) := by
  simp [takeShift, takeRequest_oldest h]

/-- What one shift command of the cab does at the SHC (R69). -/
def shiftCommand : ShiftCmd → State → State
  | .up => shiftRequest .up .cab
  | .down => shiftRequest .down .cab
  | .select g => selectRequest g

theorem touches_shiftCommand (cmd : ShiftCmd) (s : State) : Touches [.shc] s (shiftCommand cmd s) := by
  cases cmd with
  | up => exact touches_shiftRequest _ _ _
  | down => exact touches_shiftRequest _ _ _
  | select g => exact touches_selectRequest _ _

theorem exec_cabShift {c : Instr} {cmd : ShiftCmd} {rest : List Request} {s : State}
    (hc : (c = .cabShiftUp ∧ cmd = .up) ∨ (c = .cabShiftDown ∧ cmd = .down) ∨
      (c = .cabSelect ∧ ∃ g : Option Gear, cmd = .select g))
    (h : OldestRequest Request.isShift (.shift cmd) rest s) (hm : s.mc.mode.controllersRun = true) :
    exec c s = .next (notice usesShift (shiftCommand cmd (s.withRequests rest))) := by
  have hrun : ∀ f : State → State, cabShift f (s.withRequests rest) = notice usesShift (f (s.withRequests rest)) :=
    fun f => if_pos hm
  obtain ⟨rfl, rfl⟩ | ⟨rfl, rfl⟩ | ⟨rfl, g, rfl⟩ := hc
  · simp only [exec, execCabShiftUp, takeShift_oldest h, hrun]; rfl
  · simp only [exec, execCabShiftDown, takeShift_oldest h, hrun]; rfl
  · simp only [exec, execCabSelect, takeShift_oldest h, hrun]; rfl

/-- Settles O25. -/
theorem cabShiftCommandTaken : Obligations.CabShiftCommandTaken := by
  intro c cmd rest s hc h hm
  have hshc := touches_shiftCommand cmd (s.withRequests rest)
  have hnotice := touches_notice usesShift (shiftCommand cmd (s.withRequests rest))
  have htouch : Touches [.shc, .hsq, .requests] s (notice usesShift (shiftCommand cmd (s.withRequests rest))) :=
    also (also ((touches_withRequests s rest).mono (by decide)) hshc) hnotice
  have hkept : (notice usesShift (shiftCommand cmd (s.withRequests rest))).shc =
      (shiftCommand cmd (s.withRequests rest)).shc := hnotice .shc (by decide)
  refine ⟨_, exec_cabShift hc h hm, ?_, htouch, fun hidle => ?_, ?_, ?_⟩
  · exact (hnotice .requests (by decide)).trans (hshc .requests (by decide))
  · have hmc : (shiftCommand cmd (s.withRequests rest)).mc = s.mc := hshc .mc (by decide)
    have hhsq : (shiftCommand cmd (s.withRequests rest)).hsq = s.hsq := hshc .hsq (by decide)
    rw [notice_of_idle (by rwa [hmc, hhsq]), hhsq]
  · rintro kind hk why hwhy
    rw [hkept]
    obtain ⟨rfl, rfl⟩ | ⟨rfl, rfl⟩ := hk
    · exact shiftRequest_reason (s := s.withRequests rest) hwhy
    · exact shiftRequest_reason (s := s.withRequests rest) hwhy
  · rintro g rfl
    rw [hkept]
    refine ⟨?_, fun hno => ?_⟩
    · rintro x rfl hst he
      exact congrArg State.shc (selectRequest_of_permitted (s := s.withRequests rest) hst
        ((startable_iff s.cfg x).mpr he))
    · refine congrArg State.shc (selectRequest_of_refused (s := s.withRequests rest) (hno.imp_right ?_))
      rintro hx x rfl hstart
      obtain ⟨e, he, hs⟩ := (startable_iff s.cfg x).mp hstart
      exact absurd (hx x e rfl he) (by simp [hs])

end Sys2Proof.Proofs
end

