-- ==== Sys2Proof/Proofs/LinkTimers.lean ====
section
/-! SUPPORT. The states of the link (R199 to R203): entry to ACTIVE, MUTED and CONFLICT, the report of a quiet link, the
timers of the link and the end of an attempt; and the statements about the timers and the attempts. -/

namespace Sys2Proof.Proofs

open Sys2Proof Sys2Proof.Machine

/-! ## A frame of a group (R195) -/

section
variable {g : Group} {s : State}

theorem publish_of_made (h : s.mayMake g = true) : publish g s = nextPage g (s.withLc { s.lc with
    sendCounts := s.lc.sendCounts.set g (s.lc.sendCounts.get g + 1)
    queue := placeFrame g (sealCount (groupBytes g s) (s.lc.sendCounts.get g + 1)) s.lc.queue }) := by
  rw [publish, if_pos h, makeFrame, if_pos h]

theorem publish_of_not_made (h : s.mayMake g = false) : publish g s = s := if_neg (h ▸ Bool.false_ne_true)

theorem mayMake_of_active (hlink : s.lc.link = .active) (h : modeAllows s.mc.mode s.lc.quiet g = true) :
    s.mayMake g = true := by
  simp [State.mayMake, hlink, h]

/-- A frame that is made stands in a queue that had room (R198). -/
theorem queued_publish (h : s.mayMake g = true) (hroom : s.lc.queue.length < 8) :
    Queued g (groupBytes g s) s (publish g s) := by
  rw [publish_of_made h, Queued, nextPage_queue]
  exact exists_mem_placeFrame g _ hroom

theorem mem_group_publish (h : s.mayMake g = true) (hroom : s.lc.queue.length < 8) :
    ∃ e ∈ (publish g s).lc.queue, e.group = g := by
  obtain ⟨e, he, hg, -⟩ := queued_publish h hroom
  exact ⟨e, he, hg⟩

/-- Of the link a frame of a group moves the send count, the queue, the pages and the cursor. -/
theorem publish_lc (g : Group) (s : State) : (publish g s).lc = { s.lc with
    sendCounts := (publish g s).lc.sendCounts, queue := (publish g s).lc.queue
    motionPage := (publish g s).lc.motionPage, drivePage := (publish g s).lc.drivePage
    cursor := (publish g s).lc.cursor } := by
  cases h : s.mayMake g with
  | true => rw [publish_of_made h]; cases g <;> rfl
  | false => rw [publish_of_not_made h]

/-- The pages and the cursor move with the frames that carry them (R196, R197). -/
theorem publish_pages (hg : g ≠ .motion ∧ g ≠ .driveHitch ∧ g ≠ .faultReport) :
    (publish g s).lc.motionPage = s.lc.motionPage ∧ (publish g s).lc.drivePage = s.lc.drivePage ∧
      (publish g s).lc.cursor = s.lc.cursor := by
  cases h : s.mayMake g with
  | true =>
    rw [publish_of_made h]
    cases g with
    | motion => exact absurd rfl hg.1
    | driveHitch => exact absurd rfl hg.2.1
    | faultReport => exact absurd rfl hg.2.2
    | _ => exact ⟨rfl, rfl, rfl⟩
  | false => rw [publish_of_not_made h]; exact ⟨rfl, rfl, rfl⟩

end

/-! ## Entry to ACTIVE (R200, R201) -/

section
variable (s : State)

theorem touches_enterActive : Touches [.lc] s (enterActive s) :=
  also (touches_withLc s _) (touches_publish _ _)

theorem enterActive_lc : (enterActive s).lc.link = .active ∧ (enterActive s).lc.errors = s.lc.errors ∧
    (enterActive s).lc.motionPage = 0 ∧ (enterActive s).lc.drivePage = 0 := by
  unfold enterActive
  generalize hu : s.withLc { s.lc with link := .active, motionPage := 0, drivePage := 0 } = u
  have hlc : u.lc = { s.lc with link := .active, motionPage := 0, drivePage := 0 } := hu ▸ rfl
  have hmade := publish_lc .identity u
  obtain ⟨hmotion, hdrive, -⟩ := publish_pages (g := .identity) (s := u) (by decide)
  refine ⟨?_, ?_, hmotion.trans (by rw [hlc]), hdrive.trans (by rw [hlc])⟩
  · exact (congrArg Lc.link hmade).trans (by rw [hlc])
  · exact (congrArg Lc.errors hmade).trans (by rw [hlc])

theorem identity_of_enterActive {s : State} (h : modeAllows s.mc.mode s.lc.quiet .identity = true)
    (hroom : s.lc.queue.length < 8) : ∃ e ∈ (enterActive s).lc.queue, e.group = .identity :=
  mem_group_publish (mayMake_of_active rfl h) hroom

end

/-! ## A record that is no longer FRESH (R192) -/

theorem peerExpired_of {g : PeerGroup} {limit : Nat} {s : State} (hlimit : peerTimeoutUs g = some limit)
    (hfresh : s.lc.freshness g = .fresh) (h : limit ≤ s.lc.since g) : peerExpired g s = true := by
  simp [peerExpired, hfresh, hlimit, h]

theorem loseGroup_of_fault {g : PeerGroup} {c : FaultCode} (h : staleFault g = some c) (s : State) :
    loseGroup g s = raise c (s.withLc (s.lc.makeStale g)) := by
  unfold loseGroup
  rw [h]

theorem makeStale_freshness (l : Lc) (g h : PeerGroup) :
    (l.makeStale g).freshness h = if h = g ∧ g ≠ .service then .stale else l.freshness h := by
  cases g <;> cases h <;> rfl

/-- A record that becomes STALE keeps its values, and the queue its frames. -/
theorem makeStale_values (l : Lc) (g : PeerGroup) : (l.makeStale g).engine.values = l.engine.values ∧
    (l.makeStale g).brake.values = l.brake.values ∧ (l.makeStale g).cabDrive.values = l.cabDrive.values ∧
    (l.makeStale g).cabHitch.values = l.cabHitch.values ∧
    (l.makeStale g).implement.values = l.implement.values ∧ (l.makeStale g).queue = l.queue := by
  cases g <;> exact ⟨rfl, rfl, rfl, rfl, rfl, rfl⟩

/-- The limits of the statement are those of the model, each with its fault. -/
theorem peer_limits {g : PeerGroup} {limit : Nat} {c : FaultCode}
    (h : (g, limit, c) ∈ [(PeerGroup.engine, 100000, FaultCode.engineStale), (.brake, 100000, .brakeStale),
      (.cabDrive, 250000, .cabDriveStale), (.cabHitch, 500000, .cabHitchStale),
      (.implement, 500000, .implementStale)]) :
    peerTimeoutUs g = some limit ∧ staleFault g = some c ∧ g ≠ .service := by
  simp only [List.mem_cons, Prod.mk.injEq, List.not_mem_nil, or_false] at h
  rcases h with ⟨rfl, rfl, rfl⟩ | ⟨rfl, rfl, rfl⟩ | ⟨rfl, rfl, rfl⟩ | ⟨rfl, rfl, rfl⟩ | ⟨rfl, rfl, rfl⟩ <;>
    exact ⟨rfl, rfl, nofun⟩

/-! ## The link's timers -/

theorem exec_muteRecovery {s : State} (hlink : s.lc.link = .muted) (htimer : 1000000 ≤ s.lc.muteTimer)
    (hheard : 16 ≤ s.lc.received) : exec .muteRecovery s = .next (leaveMuted s) := by
  refine congrArg Host.Outcome.next (if_pos ?_)
  rw [muteOver, hlink, Bool.and_eq_true, Bool.and_eq_true, decide_eq_true_eq, decide_eq_true_eq]
  exact ⟨⟨rfl, htimer⟩, hheard⟩

theorem exec_listenWindowEnd {s : State} (hlink : s.lc.link = .listen) (h : 500000 ≤ s.lc.listen) :
    exec .listenWindowEnd s = .next (endWindow s) := by
  refine congrArg Host.Outcome.next (if_pos ?_)
  rw [windowOver, hlink, Bool.and_eq_true, decide_eq_true_eq]
  exact ⟨rfl, h⟩

/-- Settles O48. -/
theorem linkTimersExpire : Obligations.LinkTimersExpire := by
  intro s
  refine ⟨fun g limit c hmem hfresh hsince => ?stale, fun hlink htimer hheard => ?unmuted,
    fun hlink htimer => ?window⟩
  case stale =>
    obtain ⟨hlimit, hfault, hg⟩ := peer_limits hmem
    have hexec : exec (.peerTimeout g) s = .next (raise c (s.withLc (s.lc.makeStale g))) :=
      congrArg Host.Outcome.next ((if_pos (peerExpired_of hlimit hfresh hsince)).trans (loseGroup_of_fault hfault s))
    have hlc : (raise c (s.withLc (s.lc.makeStale g))).lc = s.lc.makeStale g := rfl
    obtain ⟨hengine, hbrake, hdrive, hhitch, himplement, hqueue⟩ := makeStale_values s.lc g
    refine ⟨_, hexec, ?_, fun h hne => ?_, ?_⟩
    · rw [hlc, makeStale_freshness, if_pos ⟨rfl, hg⟩]
    · rw [hlc, makeStale_freshness, if_neg fun k => hne k.1]
    · rw [hlc]
      exact ⟨hengine, hbrake, hdrive, hhitch, himplement, hqueue, raise_mc_congr c rfl,
        also ((touches_withLc s _).mono (by decide)) (touches_raise c _)⟩
  case unmuted =>
    obtain ⟨hactive, herrors, -⟩ := enterActive_lc (clearFault .linkMuted (s.withLc { s.lc with errors := 0 }))
    have hmc := touches_enterActive (clearFault .linkMuted (s.withLc { s.lc with errors := 0 })) .mc (by decide)
    refine ⟨_, exec_muteRecovery hlink htimer hheard, hactive, herrors, ?_, fun hmode hroom => ?_, ?_⟩
    · exact Eq.trans hmc (clearFault_mc_congr _ rfl)
    · have hallow : modeAllows s.mc.mode s.lc.quiet .identity = true := by rw [hmode]; rfl
      exact identity_of_enterActive (s := clearFault .linkMuted (s.withLc { s.lc with errors := 0 })) hallow hroom
    · exact also (also ((touches_withLc s _).mono (by decide)) (touches_clearFault _ _)) (touches_enterActive _)
  case window =>
    obtain ⟨hactive, -, hmotion, hdrive⟩ := enterActive_lc s
    have hmc : (enterActive s).mc = s.mc := touches_enterActive s .mc (by decide)
    have hlc : (endWindow s).lc = (enterActive s).lc := rfl
    refine ⟨_, exec_listenWindowEnd hlink htimer, ?_⟩
    rw [hlc]
    refine ⟨hactive, ?_, hmotion, hdrive, fun hallow hroom => identity_of_enterActive hallow hroom, ?_⟩
    · rw [← hmc]; rfl
    · exact also ((touches_enterActive s).mono (by decide)) (touches_withMc _ _)

end Sys2Proof.Proofs
end

