-- ==== Sys2Proof/Proofs/Attempts.lean ====
section
/-! SUPPORT. The quiet link's report (R203), entry to MUTED and the attempts of the link (R198, R199, R201), and the
statement about them. -/

namespace Sys2Proof.Proofs

open Sys2Proof Sys2Proof.Machine

/-! ## The report of a quiet link (R203, R210) -/

/-- The state in which the MC that waited for the report sends VSB its off request. -/
def quietReported (s : State) : State :=
  (s.withLc { s.lc with quietTimer := none }).withMc { s.mc with step := .stopVsb }

theorem reportQuiet_of_waiting {s : State} (h : s.mc.step = .quietWait) :
    reportQuiet s = offRequest .vsb (quietReported s) := if_pos h

theorem reportQuiet_of_other {s : State} (h : s.mc.step ≠ .quietWait) :
    reportQuiet s = s.withLc { s.lc with quietTimer := none } := if_neg h

theorem touches_quietReported (s : State) : Touches [.lc, .mc] s (quietReported s) :=
  (touches_withLc s _).then (touches_withMc _ _)

theorem touches_reportQuiet (s : State) : Touches [.vdb, .lc, .mc] s (reportQuiet s) := by
  by_cases h : s.mc.step = .quietWait
  · rw [reportQuiet_of_waiting h]
    exact also ((touches_quietReported s).mono (by decide)) (touches_offRequest _ _)
  · rw [reportQuiet_of_other h]
    exact (touches_withLc s _).mono (by decide)

theorem reportQuiet_lc (s : State) : (reportQuiet s).lc = { s.lc with quietTimer := none } := by
  by_cases h : s.mc.step = .quietWait
  · rw [reportQuiet_of_waiting h]
    exact touches_offRequest _ _ .lc (by decide)
  · rw [reportQuiet_of_other h]
    rfl

theorem reportQuiet_mc_of_waiting {s : State} (h : s.mc.step = .quietWait) :
    (reportQuiet s).mc = { s.mc with step := .stopVsb } := by
  rw [reportQuiet_of_waiting h]
  exact offRequest_mc _ _

theorem reportQuiet_faults (s : State) : (reportQuiet s).mc.faults = s.mc.faults := by
  by_cases h : s.mc.step = .quietWait
  · rw [reportQuiet_mc_of_waiting h]
  · rw [reportQuiet_of_other h]
    rfl

/-- An MC that waited steps on and VSB falls, its outputs without current. -/
theorem reportQuiet_falls {s : State} (h : s.mc.step = .quietWait) (hvsb : (s.supplyOf .vsb).state = .enabled) :
    ((reportQuiet s).supplyOf .vsb).state = .falling ∧
      ∀ o : Output, o.supply = .vsb → ((reportQuiet s).out o).target = 0 := by
  have hup : ((quietReported s).supplyOf .vsb).state = .enabled ∨ ((quietReported s).supplyOf .vsb).state = .rising :=
    .inl hvsb
  rw [reportQuiet_of_waiting h]
  refine ⟨?_, fun o ho => (offRequest_undriven_of_up hup ho).2⟩
  rw [offRequest_supplyOf_of_up hup, if_pos rfl]

theorem reportIfWaiting_of_quiet {s : State} (h : s.lc.quietTimer.isSome = true) :
    reportIfWaiting s = reportQuiet s := if_pos h

theorem reportIfWaiting_of_none {s : State} (h : s.lc.quietTimer = none) : reportIfWaiting s = s :=
  if_neg (by simp [h])

/-! ## Entry to MUTED (R201) -/

/-- The link is MUTED with its fault, and a report that is due has not yet been made. -/
def mutedWithFault (s : State) : State :=
  raise .linkMuted (s.withLc { s.lc.flush with link := .muted, muteTimer := 0, received := 0 })

theorem mutedWithFault_lc (s : State) :
    (mutedWithFault s).lc = { s.lc.flush with link := .muted, muteTimer := 0, received := 0 } := rfl

theorem touches_mutedWithFault (s : State) : Touches [.lc, .mc] s (mutedWithFault s) :=
  also ((touches_withLc s _).mono (by decide)) (touches_raise _ _)

/-! ## The entry of lowest identifier (R198) -/

/-- What the search for the lowest identifier keeps as its best entry. -/
def lowerOf (best : Option TxEntry) (e : TxEntry) : Option TxEntry :=
  match best with
  | some b => if groupNumber e.group < groupNumber b.group then some e else best
  | none => some e

theorem foldl_lowerOf_lowest {e : TxEntry} (q : List TxEntry)
    (hq : ∀ x ∈ q, groupNumber e.group ≤ groupNumber x.group) : q.foldl lowerOf (some e) = some e := by
  induction q with
  | nil => rfl
  | cons x q ih =>
    have hx : lowerOf (some e) x = some e := if_neg (Nat.not_lt.mpr (hq x (by simp)))
    rw [List.foldl_cons, hx]
    exact ih fun y hy => hq y (by simp [hy])

/-- The best entry so far, if any, has an identifier above the lowest. -/
theorem foldl_lowerOf {e : TxEntry} (q : List TxEntry) (best : Option TxEntry)
    (hbest : ∀ b, best = some b → groupNumber e.group < groupNumber b.group)
    (hmem : e ∈ q) (hlow : ∀ x ∈ q, x = e ∨ groupNumber e.group < groupNumber x.group) :
    q.foldl lowerOf best = some e := by
  induction q generalizing best with
  | nil => exact absurd hmem (by simp)
  | cons x q ih =>
    rw [List.foldl_cons]
    obtain rfl | hx := hlow x (by simp)
    · have htaken : lowerOf best x = some x := by
        cases best with
        | none => rfl
        | some b => exact if_pos (hbest b rfl)
      rw [htaken]
      refine foldl_lowerOf_lowest q fun y hy => ?_
      obtain rfl | h := hlow y (by simp [hy])
      · exact Nat.le_refl _
      · exact h.le
    · have hrest : e ∈ q := by
        obtain rfl | h := List.mem_cons.mp hmem
        · exact absurd hx (Nat.lt_irrefl _)
        · exact h
      refine ih _ (fun b hb => ?_) hrest fun y hy => hlow y (by simp [hy])
      cases best with
      | none => exact Option.some.inj hb ▸ hx
      | some c =>
        unfold lowerOf at hb
        dsimp only at hb
        split at hb
        · exact Option.some.inj hb ▸ hx
        · exact hbest b hb

theorem groupNumber_inj {g h : Group} (heq : groupNumber g = groupNumber h) : g = h := by
  cases g <;> cases h <;> simp_all [groupNumber]

/-- In a queue with one entry per group the group says which entry it is. -/
theorem eq_of_group {q : List TxEntry} (hnodup : (q.map fun e => e.group).Nodup) {x e : TxEntry} (hx : x ∈ q)
    (he : e ∈ q) (h : x.group = e.group) : x = e := List.inj_on_of_nodup_map hnodup hx he h

theorem lowestEntry_of_least {q : List TxEntry} {e : TxEntry} (hnodup : (q.map fun e => e.group).Nodup) (he : e ∈ q)
    (hlow : ∀ x ∈ q, groupNumber e.group ≤ groupNumber x.group) : lowestEntry q = some e := by
  refine foldl_lowerOf q none nofun he fun x hx => ?_
  obtain h | h := (hlow x hx).eq_or_lt
  · exact .inl (eq_of_group hnodup hx he (groupNumber_inj h).symm)
  · exact .inr h

/-! ## Attempts (R199) -/

theorem startAttempt_queue {l : Lc} {e : TxEntry} (hnodup : (l.queue.map fun e => e.group).Nodup) (he : e ∈ l.queue) :
    (startAttempt e l).queue =
      l.queue.map fun x => if x = e then { e with attempting := true, replaced := false } else x := by
  refine List.map_congr_left fun x hx => ?_
  by_cases h : x = e
  · simp [h]
  · rw [if_neg h, if_neg fun k => h (eq_of_group hnodup hx he k)]

theorem exec_transmitAttempt {s : State} {e : TxEntry} (hlink : s.lc.link = .active) (hnone : s.lc.attempt = none)
    (hlowest : lowestEntry s.lc.queue = some e) :
    exec .transmitAttempt s = .next (s.withLc (startAttempt e s.lc)) := by
  have hnext : s.lc.nextEntry = some e := by
    rw [Lc.nextEntry, if_pos ⟨hlink, by rw [hnone]; rfl⟩, hlowest]
  change execTransmitAttempt s = _
  unfold execTransmitAttempt
  rw [hnext]

/-- The state after a success, before a report that it brings. -/
def attemptSucceeded (g : Group) (s : State) : State := s.withLc (s.lc.succeed g)

theorem exec_attemptSuccess {s : State} {a : Attempt} (h : s.lc.attempt = some a) : exec .attemptSuccess s =
    .next (if noticeSent a.group s then reportQuiet (attemptSucceeded a.group s) else attemptSucceeded a.group s) := by
  change execAttemptSuccess s = _
  unfold execAttemptSuccess
  rw [h]
  rfl

theorem noticeSent_iff {g : Group} {s : State} : noticeSent g s = true ↔ g = .quietNotice ∧
    s.lc.quietTimer.isSome = true ∧ ∃ x ∈ s.lc.queue, x.group = g ∧ x.attempting = true ∧ x.replaced = false := by
  simp [noticeSent, leaves, and_assoc]

/-- What a success leaves of the link, a report or none. -/
theorem attemptSuccess_lc (g : Group) (s : State) (c : Prop) [Decidable c] {t : State}
    (ht : t = if c then reportQuiet (attemptSucceeded g s) else attemptSucceeded g s) :
    t.lc.attempt = none ∧ t.lc.errors = s.lc.errors - 1 ∧
      t.lc.queue = (s.lc.queue.filter fun x => !(decide (x.group = g) && x.attempting && !x.replaced)).map
        (fun x => { x with attempting := false, replaced := false }) := by
  subst ht
  by_cases h : c
  · rw [if_pos h, reportQuiet_lc]
    exact ⟨rfl, rfl, rfl⟩
  · rw [if_neg h]
    exact ⟨rfl, rfl, rfl⟩

/-! ## Failure (R199, R201) -/

/-- The attempt has ended and the failure is counted. -/
def failureCounted (s : State) : State :=
  s.withLc { s.lc.endAttempt with errors := min 256 (s.lc.errors + 8) }

theorem touches_failureCounted (s : State) : Touches [.lc] s (failureCounted s) := touches_withLc s _

theorem failAttempt_of_kept {s : State} (h : s.lc.link ≠ .active ∨ s.lc.errors + 8 < 256) :
    failAttempt s = failureCounted s := by
  refine if_neg fun k => ?_
  have hlimit : min 256 (s.lc.errors + 8) = 256 := k.2
  obtain hlink | hfew := h
  · exact hlink k.1
  · omega

theorem failAttempt_of_limit {s : State} (hlink : s.lc.link = .active) (h : 256 ≤ s.lc.errors + 8) :
    failAttempt s = reportIfWaiting (mutedWithFault (failureCounted s)) :=
  if_pos ⟨hlink, Nat.min_eq_left h⟩

theorem exec_attemptFailure {s : State} {a : Attempt} (h : s.lc.attempt = some a) :
    exec .attemptFailure s = .next (failAttempt s) :=
  congrArg Host.Outcome.next (if_pos (by rw [h]; rfl))

theorem attemptFailure_muted {s : State} (hlink : s.lc.link = .active) (h : 256 ≤ s.lc.errors + 8)
    (hquiet : s.lc.quietTimer = none) :
    (failAttempt s).lc.link = .muted ∧ (failAttempt s).lc.queue = [] ∧ (failAttempt s).lc.muteTimer = 0 ∧
      (failAttempt s).lc.received = 0 ∧ (failAttempt s).mc = (raise .linkMuted s).mc ∧
      Touches [.lc, .mc] s (failAttempt s) := by
  have hnone : (mutedWithFault (failureCounted s)).lc.quietTimer = none := hquiet
  rw [failAttempt_of_limit hlink h, reportIfWaiting_of_none hnone]
  exact ⟨rfl, rfl, rfl, rfl, raise_mc_congr _ rfl,
    ((touches_failureCounted s).mono (by decide)).trans (touches_mutedWithFault _)⟩

theorem attemptFailure_reported {s : State} (hlink : s.lc.link = .active) (h : 256 ≤ s.lc.errors + 8)
    (hquiet : s.lc.quietTimer.isSome = true) :
    (failAttempt s).lc.link = .muted ∧ (failAttempt s).lc.queue = [] ∧ (failAttempt s).lc.muteTimer = 0 ∧
      (failAttempt s).lc.received = 0 ∧ (failAttempt s).lc.quietTimer = none ∧
      (failAttempt s).mc.faults = (raise .linkMuted s).mc.faults ∧
      (s.mc.step = .quietWait → (s.supplyOf .vsb).state = .enabled →
        (failAttempt s).mc.step = .stopVsb ∧ ((failAttempt s).supplyOf .vsb).state = .falling) ∧
      (s.mc.step ≠ .quietWait → (failAttempt s).vdb = s.vdb ∧ (failAttempt s).mc.step = s.mc.step) ∧
      Touches [.vdb, .lc, .mc] s (failAttempt s) := by
  have hsome : (mutedWithFault (failureCounted s)).lc.quietTimer.isSome = true := hquiet
  rw [failAttempt_of_limit hlink h, reportIfWaiting_of_quiet hsome]
  have hmuted : Touches [.lc, .mc] s (mutedWithFault (failureCounted s)) :=
    ((touches_failureCounted s).mono (by decide)).trans (touches_mutedWithFault _)
  have hvdb : (mutedWithFault (failureCounted s)).vdb = s.vdb := hmuted .vdb (by decide)
  have hstep : (mutedWithFault (failureCounted s)).mc.step = s.mc.step := rfl
  have hmc : (mutedWithFault (failureCounted s)).mc = (raise .linkMuted s).mc := raise_mc_congr _ rfl
  have hlc := mutedWithFault_lc (failureCounted s)
  generalize mutedWithFault (failureCounted s) = m at hmuted hvdb hstep hmc hlc
  rw [reportQuiet_lc, reportQuiet_faults, hlc, hmc]
  refine ⟨rfl, rfl, rfl, rfl, rfl, rfl, fun hwait hvsb => ?_, fun hno => ?_, ?_⟩
  · rw [← hstep] at hwait
    have hup : (m.supplyOf .vsb).state = .enabled := by rwa [State.supplyOf, hvdb]
    exact ⟨congrArg Mc.step (reportQuiet_mc_of_waiting hwait), (reportQuiet_falls hwait hup).1⟩
  · rw [reportQuiet_of_other (hstep ▸ hno)]
    exact ⟨hvdb, hstep⟩
  · exact (hmuted.mono (by decide)).trans (touches_reportQuiet m)

/-- Settles O50. -/
theorem transmitAttemptsEnd : Obligations.TransmitAttemptsEnd := by
  intro s
  refine ⟨fun e hlink hnone ⟨_, hnodup⟩ he hlow => ?_, fun a ha => ⟨?_, ?_, ?_⟩⟩
  · exact ⟨_, exec_transmitAttempt hlink hnone (lowestEntry_of_least hnodup he hlow), touches_withLc s _, rfl,
      startAttempt_queue hnodup he⟩
  · obtain ⟨hattempt, herrors, hqueue⟩ := attemptSuccess_lc a.group s (noticeSent a.group s = true) rfl
    refine ⟨_, exec_attemptSuccess ha, hattempt, herrors, hqueue, fun hother => ?_, fun hnotice htimer hsent => ?_⟩
    · rw [if_neg fun k => hother (noticeSent_iff.mp k).1]
      exact touches_withLc s _
    · rw [if_pos (noticeSent_iff.mpr ⟨hnotice, htimer, hnotice ▸ hsent⟩)]
      refine ⟨congrArg Lc.quietTimer (reportQuiet_lc _), fun hwait hvsb => ?_⟩
      have hwait' : (attemptSucceeded a.group s).mc.step = .quietWait := hwait
      exact ⟨congrArg Mc.step (reportQuiet_mc_of_waiting hwait'), (reportQuiet_falls hwait' hvsb).1⟩
  · exact ⟨s.withLc s.lc.endAttempt, congrArg Host.Outcome.next (if_pos (by rw [ha]; rfl)), rfl, rfl, rfl,
      touches_withLc s _⟩
  · have hlc : (failAttempt s).lc.attempt = none ∧ (failAttempt s).lc.errors = min 256 (s.lc.errors + 8) := by
      by_cases h : s.lc.link = .active ∧ 256 ≤ s.lc.errors + 8
      · rw [failAttempt_of_limit h.1 h.2]
        cases hq : (mutedWithFault (failureCounted s)).lc.quietTimer with
        | none => rw [reportIfWaiting_of_none hq]; exact ⟨rfl, rfl⟩
        | some q => rw [reportIfWaiting_of_quiet (by rw [hq]; rfl), reportQuiet_lc]; exact ⟨rfl, rfl⟩
      · rw [failAttempt_of_kept (by rwa [not_and_or, Nat.not_le] at h)]
        exact ⟨rfl, rfl⟩
    refine ⟨_, exec_attemptFailure ha, hlc.1, hlc.2, fun hkept => ?_, attemptFailure_muted, attemptFailure_reported⟩
    rw [failAttempt_of_kept hkept]
    exact ⟨rfl, rfl, touches_failureCounted s⟩

end Sys2Proof.Proofs
end

