-- ==== Sys2Proof/Proofs/ResetAndDormancy.lean ====
section
/-! SUPPORT. Reset, wake and key (R185, R206, R210) and dormancy (R180, R211), and the statements about them. -/

namespace Sys2Proof.Proofs

open Sys2Proof Sys2Proof.Machine

/-! ## The blocks at their reset values -/

/-- What power-on and wake leave alike: LOADING, and every block at its reset values. -/
structure BlocksReset (strap0 strap1 coupling : Bool) (s t : State) : Prop where
  mode : t.mc.mode = .loading
  slot : t.mc.slot = (if strap0 then 1 else 0) + (if strap1 then 2 else 0)
  seconds : t.mc.seconds = 0
  full : t.mc.full = false
  keyOff : t.mc.keyOffPending = false
  step : t.mc.step = .idle
  vdb : t.vdb = .reset
  shc : ∃ (learned : ClutchTable Nat) (start : Option Gear) (map : List (Gear × Gear)), t.shc = .reset learned start map
  fdc : t.fdc = .reset
  htc : t.htc = .reset
  tbc : t.tbc = .reset coupling (t.sensor .tcl) (t.sensor .tsl)
  hsq : t.hsq = .reset
  lc : ∃ (attempt : Option Attempt) (sources : Sources), t.lc = .reset attempt sources
  scu : ∃ fitted : Bool, t.scu = .reset fitted
  sfe : ∃ sensors : SensorTable SensorCfg, t.sfe = .reset sensors
  events : t.events = []
  requests : t.requests = []
  pending : t.pending = s.pending

section
variable (a b k : Bool) (s : State)

theorem blocksReset_powerOn : BlocksReset a b k s (powerOnReset a b k s) where
  mode := rfl
  slot := rfl
  seconds := rfl
  full := rfl
  keyOff := rfl
  step := rfl
  vdb := rfl
  shc := ⟨_, _, _, rfl⟩
  fdc := rfl
  htc := rfl
  tbc := rfl
  hsq := rfl
  lc := ⟨_, _, rfl⟩
  scu := ⟨_, rfl⟩
  sfe := ⟨_, rfl⟩
  events := rfl
  requests := rfl
  pending := rfl

theorem blocksReset_wakeUp : BlocksReset a b k s (wakeUp a b k s) where
  mode := rfl
  slot := rfl
  seconds := rfl
  full := rfl
  keyOff := rfl
  step := rfl
  vdb := rfl
  shc := ⟨_, _, _, rfl⟩
  fdc := rfl
  htc := rfl
  tbc := rfl
  hsq := rfl
  lc := ⟨_, _, rfl⟩
  scu := ⟨_, rfl⟩
  sfe := ⟨_, rfl⟩
  events := rfl
  requests := rfl
  pending := rfl

theorem wakeUp_learned (x : Clutch) : ((wakeUp a b k s).clutch x).learned = (s.clutch x).learned := by
  cases x <;> rfl

end

theorem vdbReset_out (o : Output) : Vdb.reset.outs.get o = .reset := by cases o <;> rfl

theorem vdbReset_supply (x : Supply) : (Vdb.reset.supplies.get x).state = .off := by cases x <;> rfl

/-- Both commands end with the blocks reset; each with the records it keeps. -/
theorem exec_resetOrWake {c : Instr} {a b k : Bool} {s : State}
    (hc : c = .powerOnReset a b k ∨
      (c = .wake a b k ∧ (s.mc.mode = .dormant ∨ s.mc.mode = .awakeNoKey) ∧ s.mc.key = some true)) :
    ∃ t : State, exec c s = .next t ∧ BlocksReset a b k s t ∧
      (c = .powerOnReset a b k → t.mc.faults = [] ∧ t.mc.key = none ∧ t.now = 0) ∧
      (c = .wake a b k → t = wakeUp a b k s ∧ s.mc.key = some true) := by
  obtain rfl | ⟨rfl, hmode, hkey⟩ := hc
  · exact ⟨_, rfl, blocksReset_powerOn a b k s, fun _ => ⟨rfl, rfl, rfl⟩, nofun⟩
  · have hdue : wakeDue s = true := by
      obtain h | h := hmode <;> simp [wakeDue, State.sleeping, h, hkey]
    exact ⟨_, congrArg Host.Outcome.next (if_pos hdue), blocksReset_wakeUp a b k s, nofun, fun _ => ⟨rfl, hkey⟩⟩

/-! ## The key (R206, R210) -/

theorem exec_keyStateChange {on : Bool} {s : State} (h : s.mc.key ≠ some on) : exec (.keyStateChange on) s =
    .next (changeKey on (s.withPins { s.pins with keyOn := on })) := congrArg Host.Outcome.next (if_neg h)

theorem changeKey_mc (on : Bool) (s : State) : (changeKey on s).mc = { s.mc with
    key := some on
    keyOffPending := !on && (s.mc.keyOffPending || s.mc.mode == .calibrating || s.mc.mode == .operating ||
      s.mc.mode == .restarting) } := by
  cases on with
  | true => rfl
  | false => simp [changeKey, Mode.keepsKeyOff, Bool.or_assoc]

/-- Settles O51. -/
theorem resetWakeAndKey : Obligations.ResetWakeAndKey := by
  intro s
  refine ⟨fun c a b k hc => ?_, fun on hkey => ?_⟩
  · obtain ⟨t, hexec, hreset, hpower, hwake⟩ := exec_resetOrWake hc
    obtain ⟨hmode, hslot, hseconds, hfull, hkeyOff, hstep, hvdb, ⟨learned, start, map, hshc⟩, hfdc, hhtc, htbc, hhsq,
      ⟨attempt, sources, hlc⟩, ⟨fitted, hscu⟩, ⟨sensors, hsfe⟩, hevents, hrequests, hpending⟩ := hreset
    refine ⟨t, hexec, hmode, hslot, hseconds, hfull, hkeyOff, hstep, ?_⟩
    rw [hshc, hfdc, hhtc, htbc, hhsq, hlc, hscu, hsfe]
    refine ⟨fun o => ?_, fun x => ?_, hvdb ▸ rfl, rfl, rfl, rfl, rfl, rfl, rfl, rfl, rfl, rfl, rfl, rfl, rfl, rfl, rfl,
      rfl, rfl, rfl, rfl, rfl, rfl, hevents, hrequests, hpending, hpower, fun hc => ?_⟩
    · rw [State.out, hvdb, vdbReset_out]
    · rw [State.supplyOf, hvdb, vdbReset_supply]
    · obtain ⟨rfl, hkey⟩ := hwake hc
      exact ⟨rfl, wakeUp_learned a b k s, hshc ▸ rfl, rfl, rfl, hkey, hlc ▸ rfl, hlc ▸ rfl⟩
  · refine ⟨_, exec_keyStateChange hkey, rfl, changeKey_mc _ _, ?_⟩
    exact ((touches_withPins s _).then (touches_withMc _ _)).mono (by decide)

/-! ## Dormancy (R211) -/

theorem setMode_link (m : Mode) (s : State) : (setMode m s).lc.link = s.lc.link :=
  (publishedLink .identity (s.withMc { s.mc with mode := m })).link

theorem touches_listenOrder (s : State) : Touches [.lc, .mc] s (listenOrder s) :=
  (touches_withLc s _).then (touches_withMc _ _)

theorem listenOrder_link_of_offline {l : Lc} (h : l.link = .offline) : l.listenOrder.link = .listen := by
  simp only [Lc.listenOrder, h]

theorem offOrder_link (l : Lc) : l.offOrder.link ≠ .active ∧ l.offOrder.link ≠ .listen := by
  unfold Lc.offOrder
  dsimp only
  split <;> exact ⟨nofun, nofun⟩

/-- The wake of a part in DORMANT. -/
def wokenDormant (s : State) : State := setMode .awakeNoKey (listenOrder (s.withMc { s.mc with wakeTimer := 0 }))

theorem wakeEvent_of_dormant {s : State} (h : s.mc.mode = .dormant) : wakeEvent s = wokenDormant s := by
  simp only [wakeEvent, h]
  rfl

theorem wakeEvent_of_awake {s : State} (h : s.mc.mode = .awakeNoKey) :
    wakeEvent s = s.withMc { s.mc with wakeTimer := 0 } := by
  simp only [wakeEvent, h]

theorem touches_wokenDormant (s : State) : Touches [.lc, .mc] s (wokenDormant s) :=
  also (also ((touches_withMc s _).mono (by decide)) (touches_listenOrder _)) (touches_setMode _ _)

theorem wokenDormant_mc (s : State) :
    (wokenDormant s).mc = { s.mc with mode := .awakeNoKey, wakeTimer := 0, windowEnded := false } := setMode_mc _ _

theorem wokenDormant_link {s : State} (h : s.lc.link = .offline) : (wokenDormant s).lc.link = .listen :=
  (setMode_link _ _).trans (listenOrder_link_of_offline h)

/-- A COUPLING or LINK event at or above the threshold, in a part that sleeps, is a wake event; the line stands as
it then does. -/
theorem exec_wakeCommand {c : Instr} {s : State}
    (hc : (∃ k : Bool, c = .couplingWake k ∧ k ≠ s.pins.coupling ∧ s.cfg.wakeThreshold ≤ 2) ∨
      (c = .linkWake ∧ s.cfg.wakeThreshold ≤ 1)) (hsleeps : s.sleeping = true) :
    ∃ u : State, exec c s = .next (wakeEvent u) ∧ Touches [.pins] s u ∧
      (c = .couplingWake (!s.pins.coupling) → u.pins.coupling = !s.pins.coupling) := by
  obtain ⟨k, rfl, hchanged, hlevel⟩ | ⟨rfl, hlevel⟩ := hc
  · have hevent : couplingEvent k s = true := by
      rw [couplingEvent, hsleeps, Bool.and_eq_true, Bool.and_eq_true, decide_eq_true_eq, bne_iff_ne]
      exact ⟨⟨rfl, hchanged.symm⟩, hlevel⟩
    refine ⟨presentCoupling k s, congrArg Host.Outcome.next (if_pos hevent), touches_withPins s _, fun h => ?_⟩
    exact Instr.couplingWake.inj h
  · have hdue : (s.sleeping && decide (s.cfg.wakeThreshold ≤ linkLevel)) = true := by
      rw [hsleeps, Bool.true_and, decide_eq_true_eq]
      exact hlevel
    exact ⟨s, congrArg Host.Outcome.next (if_pos hdue), .refl _ _, nofun⟩

theorem couplingEvent_of_other {k : Bool} {s : State}
    (h : 2 < s.cfg.wakeThreshold ∨ s.sleeping = false ∨ k = s.pins.coupling) : couplingEvent k s = false := by
  obtain h | h | h := h
  · rw [couplingEvent, decide_eq_false (p := s.cfg.wakeThreshold ≤ couplingLevel) (Nat.not_le.mpr h), Bool.and_false]
  · rw [couplingEvent, h]
    rfl
  · rw [couplingEvent, h]
    simp

theorem exec_couplingWake_of_other {k : Bool} {s : State}
    (h : 2 < s.cfg.wakeThreshold ∨ s.sleeping = false ∨ k = s.pins.coupling) :
    exec (.couplingWake k) s = .next (s.withPins { s.pins with coupling := k }) :=
  congrArg Host.Outcome.next (if_neg (by simp [couplingEvent_of_other h]))

theorem sleeping_of_other {s : State} (h : s.mc.mode ≠ .dormant ∧ s.mc.mode ≠ .awakeNoKey) : s.sleeping = false := by
  simp [State.sleeping, h]

/-- Settles O54. -/
theorem dormancyAndSeconds : Obligations.DormancyAndSeconds := by
  intro s
  refine ⟨fun c hc => ⟨fun hmode => ?dormant, fun hmode => ?awake⟩, ?same, fun k h => ?line, fun h => ?link,
    fun hmode htimer => ?timeout, fun hmode => ?tick, fun hmode => congrArg Host.Outcome.next (if_pos hmode)⟩
  case dormant =>
    obtain ⟨u, hexec, hu, hpins⟩ := exec_wakeCommand hc (by simp [State.sleeping, hmode])
    have hmc : u.mc = s.mc := hu .mc (by decide)
    have hlc : u.lc = s.lc := hu .lc (by decide)
    rw [wakeEvent_of_dormant (hmc ▸ hmode)] at hexec
    have hkept : (wokenDormant u).pins = u.pins := touches_wokenDormant u .pins (by decide)
    refine ⟨_, hexec, ?_⟩
    rw [wokenDormant_mc, hkept, hmc]
    exact ⟨rfl, rfl, fun hoff => wokenDormant_link (hlc ▸ hoff), rfl, hpins,
      also (hu.mono (by decide)) (touches_wokenDormant u)⟩
  case awake =>
    obtain ⟨u, hexec, hu, -⟩ := exec_wakeCommand hc (by simp [State.sleeping, hmode])
    have hmc : u.mc = s.mc := hu .mc (by decide)
    rw [wakeEvent_of_awake (hmc ▸ hmode), hmc] at hexec
    exact ⟨_, hexec, rfl, also (hu.mono (by decide)) (touches_withMc _ _)⟩
  case same => exact exec_couplingWake_of_other (.inr (.inr rfl))
  case line => exact exec_couplingWake_of_other (h.imp_right fun k => .inl (sleeping_of_other k))
  case link =>
    refine congrArg Host.Outcome.next (if_neg fun k => ?_)
    rw [Bool.and_eq_true, decide_eq_true_eq] at k
    obtain h | h := h
    · exact absurd k.2 (Nat.not_le.mpr h)
    · exact absurd k.1 (by simp [sleeping_of_other h])
  case timeout =>
    have hover : wakeOver s = true := by
      rw [wakeOver, hmode, Bool.and_eq_true, decide_eq_true_eq]
      exact ⟨rfl, htimer⟩
    obtain ⟨hvdb, hlc, -, hmc, -⟩ := enterDormant_records s
    obtain ⟨hactive, hlisten⟩ := offOrder_link s.lc
    refine ⟨enterDormant s, congrArg Host.Outcome.next (if_pos hover), ?_⟩
    rw [hmc, hlc]
    exact ⟨rfl, rfl, hactive, hlisten, rfl, rfl, hvdb⟩
  case tick => exact ⟨_, congrArg Host.Outcome.next (if_neg hmode), rfl, touches_withMc s _⟩

end Sys2Proof.Proofs
end

