-- ==== Sys2Proof/Proofs/ControlRestart.lean ====
section
/-! SUPPORT. The control restart (R212): its start and its refusals, and the statement about CONTROL_RESTART. -/

namespace Sys2Proof.Proofs

open Sys2Proof Sys2Proof.Machine

/-! ## A frame stays when another group's is made (R198) -/

theorem mem_placeFrame_of_ne {g : Group} {d : List Byte} {q : List TxEntry} {x : TxEntry} (hroom : q.length < 8)
    (hx : x ∈ q) (hne : x.group ≠ g) : x ∈ placeFrame g d q := by
  unfold placeFrame
  dsimp only
  split
  · exact List.mem_map.mpr ⟨x, hx, if_neg hne⟩
  · rw [if_pos (show q.length < maxQueue from hroom)]
    exact List.mem_append_left _ hx

theorem mem_publish_of_ne {g : Group} {s : State} {x : TxEntry} (hroom : s.lc.queue.length < 8)
    (hx : x ∈ s.lc.queue) (hne : x.group ≠ g) : x ∈ (publish g s).lc.queue := by
  cases h : s.mayMake g with
  | true =>
    rw [publish_of_made h, nextPage_queue]
    exact mem_placeFrame_of_ne hroom hx hne
  | false => rwa [publish_of_not_made h]

theorem serviceAnswer_length_le (c g : Byte) (r : ServiceResult) (w : ServiceReason) {s : State}
    (hroom : s.lc.queue.length < 8) : (serviceAnswer c g r w s).lc.queue.length ≤ s.lc.queue.length + 1 := by
  unfold serviceAnswer makeFrame
  split
  · exact placeFrame_length_le _ _ hroom
  · exact Nat.le_succ _

/-! ## Aborting a run (R177) -/

theorem abortRun_of_running {cause : AbortCause} {s : State} (h : s.hsq.state = .running) :
    abortRun cause s = s.withHsq { s.hsq with state := .aborted, cause := some cause, trigStart := none } :=
  if_pos (by simp [State.running, h])

theorem abortRun_hsq {cause : AbortCause} {s : State} (h : s.hsq.state = .running) :
    (abortRun cause s).hsq.state = .aborted ∧ (abortRun cause s).hsq.cause = some cause := by
  rw [abortRun_of_running h]
  exact ⟨rfl, rfl⟩

/-! ## The restart begins -/

section
variable (tag : Byte) (s : State)

/-- The state with the request answered, and the one with the sequence begun and a run aborted. -/
def restartAnswered : State := serviceAnswer codeControlRestart tag .accepted .none s
def restartOrdered : State := abortRun .mode ((restartAnswered tag s).withMc
  { (restartAnswered tag s).mc with step := .offVsb, restartTag := some tag })

/-- The mode is RESTARTING and only what goes on is still on its way. -/
def restartEntered : State := dropUntaken (setMode .restarting (restartOrdered tag s))

theorem beginRestart_eq : beginRestart tag s = offRequest .vsb (restartEntered tag s) := rfl

theorem touches_restartOrdered : Touches [.hsq, .lc, .mc] s (restartOrdered tag s) :=
  also (also ((touches_serviceAnswer _ _ _ _ s).mono (by decide)) (touches_withMc _ _)) (touches_abortRun _ _)

theorem touches_restartEntered : Touches [.hsq, .lc, .mc, .events, .requests] s (restartEntered tag s) :=
  also (also ((touches_restartOrdered tag s).mono (by decide)) (touches_setMode _ _)) (touches_dropUntaken _)

theorem touches_beginRestart : Touches [.vdb, .hsq, .lc, .mc, .events, .requests] s (beginRestart tag s) :=
  also ((touches_restartEntered tag s).mono (by decide)) (touches_offRequest _ _)

theorem restartOrdered_mc : (restartOrdered tag s).mc = { s.mc with step := .offVsb, restartTag := some tag } := by
  have hmc : (restartOrdered tag s).mc =
      { (restartAnswered tag s).mc with step := .offVsb, restartTag := some tag } :=
    touches_abortRun _ _ .mc (by decide)
  rw [hmc, restartAnswered, serviceAnswer_mc]

theorem beginRestart_mc : (beginRestart tag s).mc =
    { s.mc with mode := .restarting, step := .offVsb, restartTag := some tag } := by
  have hentered : (restartEntered tag s).mc = (setMode .restarting (restartOrdered tag s)).mc :=
    touches_dropUntaken _ .mc (by decide)
  rw [beginRestart_eq, offRequest_mc, hentered, setMode_mc, restartOrdered_mc]

theorem beginRestart_hsq (h : s.hsq.state = .running) :
    (beginRestart tag s).hsq.state = .aborted ∧ (beginRestart tag s).hsq.cause = some .mode := by
  have hanswered : (restartAnswered tag s).hsq = s.hsq := touches_serviceAnswer _ _ _ _ s .hsq (by decide)
  have hlast : (beginRestart tag s).hsq = (restartOrdered tag s).hsq :=
    (also (also ((touches_setMode .restarting (restartOrdered tag s)).mono (by decide)) (touches_dropUntaken _))
      (touches_offRequest .vsb _) : Touches [.vdb, .lc, .mc, .events, .requests] _ _) .hsq (by decide)
  rw [hlast]
  exact abortRun_hsq (s := (restartAnswered tag s).withMc _) (hanswered ▸ h)

theorem beginRestart_falls (h : (s.supplyOf .vsb).state = .enabled) :
    ((beginRestart tag s).supplyOf .vsb).state = .falling ∧
      ∀ o : Output, o.supply = .vsb →
        ((beginRestart tag s).out o).command = 0 ∧ ((beginRestart tag s).out o).target = 0 := by
  have hvdb : (restartEntered tag s).vdb = s.vdb := touches_restartEntered tag s .vdb (by decide)
  have hup : ((restartEntered tag s).supplyOf .vsb).state = .enabled ∨
      ((restartEntered tag s).supplyOf .vsb).state = .rising := by
    rw [State.supplyOf, hvdb]
    exact .inl h
  rw [beginRestart_eq]
  refine ⟨?_, fun o ho => offRequest_undriven_of_up hup ho⟩
  rw [offRequest_supplyOf_of_up hup, if_pos rfl]

theorem beginRestart_dropped : (∀ d ∈ (beginRestart tag s).events, d.owner = .vdb) ∧
    ∀ q ∈ (beginRestart tag s).requests,
      q ∈ s.requests ∧ (q = .acknowledge ∨ ∃ c g : Byte, q = .service c g) := by
  have hevents : (beginRestart tag s).events = (restartEntered tag s).events :=
    touches_offRequest _ _ .events (by decide)
  have hrequests : (beginRestart tag s).requests = (restartEntered tag s).requests :=
    touches_offRequest _ _ .requests (by decide)
  have hkept : (setMode .restarting (restartOrdered tag s)).requests = s.requests :=
    (also (touches_restartOrdered tag s) (touches_setMode _ _)) .requests (by decide)
  refine ⟨fun d hd => ?_, fun q hq => ?_⟩
  · rw [hevents] at hd
    simpa using (List.mem_filter.mp hd).2
  · rw [hrequests] at hq
    obtain ⟨hmem, hstays⟩ := List.mem_filter.mp hq
    change q ∈ (setMode .restarting (restartOrdered tag s)).requests at hmem
    rw [hkept] at hmem
    refine ⟨hmem, ?_⟩
    cases q with
    | acknowledge => exact .inl rfl
    | service c g => exact .inr ⟨c, g, rfl⟩
    | _ => exact absurd hstays Bool.false_ne_true

theorem beginRestart_answered : Answered 4 tag .accepted .none s (beginRestart tag s) := by
  intro hmay hfew
  have hroom : s.lc.queue.length < 8 := hfew.trans (by decide)
  obtain ⟨x, hx, hg, hd⟩ := answered_serviceAnswer codeControlRestart tag .accepted .none (s := s) (u := s) rfl rfl
    hmay hfew
  have hordered : (restartOrdered tag s).lc = (restartAnswered tag s).lc := touches_abortRun _ _ .lc (by decide)
  have hlast : (beginRestart tag s).lc = (setMode .restarting (restartOrdered tag s)).lc :=
    (((touches_dropUntaken (setMode .restarting (restartOrdered tag s))).mono (by decide)).trans
      ((touches_offRequest .vsb _).mono (by decide)) : Touches [.vdb, .events, .requests] _ _) .lc (by decide)
  refine ⟨x, ?_, hg, hd⟩
  rw [hlast]
  refine mem_publish_of_ne (s := (restartOrdered tag s).withMc _) ?_ ?_ (by rw [hg]; decide)
  · rw [State.withMc_lc, hordered]
    exact (serviceAnswer_length_le _ _ _ _ hroom).trans_lt (Nat.succ_lt_succ hfew)
  · rw [State.withMc_lc, hordered]
    exact hx
end

/-! ## The command -/

theorem exec_controlRestart {tag : Byte} {rest : List Request} {s : State}
    (h : OldestRequest (Request.isService 4) (.service 4 tag) rest s) :
    exec .controlRestart s = .next (controlRestart tag (s.withRequests rest)) := by
  change execControlRestart s = _
  unfold execControlRestart
  rw [show Request.isService codeControlRestart = Request.isService 4 from rfl, takeRequest_oldest h]

theorem parkedStill_iff (s : State) :
    s.parkedStill = true ↔ s.shc.state = .parked ∧ s.scu.motion.standstill = true := by
  simp [State.parkedStill]

section
variable {tag : Byte} {s : State}

theorem controlRestart_of_begun (hmode : s.mc.mode = .operating) (hstill : s.parkedStill = true) :
    controlRestart tag s = beginRestart tag s :=
  (if_neg fun k => k hmode).trans (if_pos hstill)

theorem controlRestart_of_moving (hmode : s.mc.mode = .operating) (hstill : s.parkedStill ≠ true) :
    controlRestart tag s = serviceAnswer codeControlRestart tag .refused .notParked s :=
  (if_neg fun k => k hmode).trans (if_neg hstill)

theorem controlRestart_of_busy (hmode : s.mc.mode ≠ .operating) :
    controlRestart tag s = serviceAnswer codeControlRestart tag .refused .busy s := if_pos hmode
end

/-- Settles O55. -/
theorem controlRestartTaken : Obligations.ControlRestartTaken := by
  intro tag rest s hold
  refine ⟨_, exec_controlRestart hold, fun hmode hparked hstill => ?_, fun hmode hno => ?_, fun hmode => ?_⟩
  · have hstill' : (s.withRequests rest).parkedStill = true := (parkedStill_iff s).mpr ⟨hparked, hstill⟩
    obtain ⟨hevents, hrequests⟩ := beginRestart_dropped tag (s.withRequests rest)
    rw [controlRestart_of_begun (s := s.withRequests rest) hmode hstill', beginRestart_mc]
    exact ⟨rfl, rfl, rfl, beginRestart_falls tag (s.withRequests rest), beginRestart_hsq tag (s.withRequests rest),
      hevents, hrequests, rfl, beginRestart_answered tag (s.withRequests rest),
      also ((touches_withRequests s rest).mono (by decide)) (touches_beginRestart tag _)⟩
  · rw [controlRestart_of_moving (s := s.withRequests rest) hmode fun k => hno ((parkedStill_iff s).mp k)]
    exact ⟨serviceAnswer_requests .., answered_serviceAnswer _ _ _ _ rfl rfl, touches_answer_of_taken _ _ _ _ s rest⟩
  · rw [controlRestart_of_busy (s := s.withRequests rest) hmode]
    exact ⟨serviceAnswer_requests .., answered_serviceAnswer _ _ _ _ rfl rfl, touches_answer_of_taken _ _ _ _ s rest⟩

end Sys2Proof.Proofs
end

