-- ==== Sys2Proof/Proofs/FrameReceived.lean ====
section
/-! SUPPORT. A received frame (R188 to R194, R202, R205): its fields, the requests it brings, how it is filed, and
the entry to CONFLICT; and the statement about FRAME_RECEIVED. -/

namespace Sys2Proof.Proofs

open Sys2Proof Sys2Proof.Machine

/-! ## The fields of the cab's frames (R205) -/

theorem bitOf_iff (v i : Nat) : bitOf v i = true ↔ v / 2 ^ i % 2 = 1 := by
  simp [bitOf, field]

theorem leverOfCode_field (v : Nat) :
    (v % 4, leverOfCode (field v 0 2)) ∈ [(0, Lever.n), (1, .f), (2, .r), (3, .park)] := by
  have hcode : field v 0 2 = v % 4 := by simp [field]
  have hlt : v % 4 < 4 := Nat.mod_lt _ (by decide)
  rw [hcode]
  generalize v % 4 = c at hlt
  interval_cases c <;> decide

theorem cabDriveOf_cabDriveFields (d : List Byte) : CabDriveOf d (cabDriveFields d) where
  lever := leverOfCode_field _
  shift := rfl
  front := rfl
  headland := rfl
  select := by simp [cabDriveFields, field]
  aggressiveness := rfl
  pedal := rfl
  auto := bitOf_iff _ 4
  acknowledge := bitOf_iff _ 5

theorem cabHitchOf_cabHitchFields (d : List Byte) : CabHitchOf d (cabHitchFields d) where
  first := by
    rintro v rfl
    simp [cabHitchFields, field, word16]
  second := by
    rintro v rfl
    simp [cabHitchFields, field, word16]
  third := by simp [cabHitchFields, field, word16]
  mix := rfl

/-! ## The requests of the cab's frames (R193, R205) -/

/-- The requests of the shift command, and those of the headland command, of a frame's fields. -/
def shiftEdges (f : CabDriveFields) : List Request :=
  match f.shift with
  | 1 => [.shift .up]
  | 2 => [.shift .down]
  | 3 => [.shift (.select (gearOfCode f.select))]
  | _ => []

def headlandEdges (f : CabDriveFields) : List Request :=
  match f.headland with
  | 1 => [.headland true]
  | 2 => [.headland false]
  | _ => []

def acknowledgeEdges (f : CabDriveFields) : List Request := if f.acknowledge then [.acknowledge] else []

theorem cabDriveFields_edges (f : CabDriveFields) :
    f.edges = shiftEdges f ++ headlandEdges f ++ acknowledgeEdges f := rfl

theorem gearOfCode_cases (n : Nat) :
    (1 ≤ n → n ≤ 12 → gearOfCode n = some ⟨.forward, n⟩) ∧
    (17 ≤ n → n ≤ 24 → gearOfCode n = some ⟨.reverse, n - 16⟩) ∧
    (n = 0 ∨ (12 < n ∧ n < 17) ∨ 24 < n → gearOfCode n = none) := by
  refine ⟨fun h k => if_pos ⟨h, k⟩, fun h k => ?_, fun h => ?_⟩
  · exact (if_neg (by omega)).trans (if_pos ⟨h, k⟩)
  · exact (if_neg (by omega)).trans (if_neg (by omega))

theorem shiftAsked_shiftEdges (d : List Byte) : ShiftAsked d (shiftEdges (cabDriveFields d)) := by
  have hcode : (cabDriveFields d).shift = byteAt d 0 / 4 % 4 := rfl
  have hselect : (cabDriveFields d).select = byteAt d 1 % 32 := by simp [cabDriveFields, field]
  rw [ShiftAsked, ← hcode]
  refine ⟨fun h => ?_, fun h => ?_, fun h => ?_, ?_⟩
  · simp only [shiftEdges, h]
  · simp only [shiftEdges, h]
  · simp only [shiftEdges, h]
  · rintro h n rfl
    have hedges : shiftEdges (cabDriveFields d) = [.shift (.select (gearOfCode (byteAt d 1 % 32)))] := by
      rw [← hselect]
      simp only [shiftEdges, h]
    obtain ⟨hforward, hreverse, hnone⟩ := gearOfCode_cases (byteAt d 1 % 32)
    rw [hedges]
    exact ⟨fun h k => by rw [hforward h k], fun h k => by rw [hreverse h k], fun h => by rw [hnone h]⟩

theorem headlandEdges_mem (d : List Byte) : (byteAt d 0 / 64 % 4, headlandEdges (cabDriveFields d)) ∈
    [(0, []), (1, [Request.headland true]), (2, [.headland false]), (3, [])] := by
  have hcode : (cabDriveFields d).headland = byteAt d 0 / 64 % 4 := rfl
  have hlt : byteAt d 0 / 64 % 4 < 4 := Nat.mod_lt _ (by decide)
  unfold headlandEdges
  rw [hcode]
  generalize byteAt d 0 / 64 % 4 = c at hlt
  interval_cases c <;> simp

theorem acknowledgeEdges_mem (d : List Byte) : (byteAt d 3 / 32 % 2, acknowledgeEdges (cabDriveFields d)) ∈
    [(0, []), (1, [Request.acknowledge])] := by
  have hlt : byteAt d 3 / 32 % 2 < 2 := Nat.mod_lt _ (by decide)
  have hcode : (cabDriveFields d).acknowledge = true ↔ byteAt d 3 / 32 % 2 = 1 := bitOf_iff _ 5
  unfold acknowledgeEdges
  generalize byteAt d 3 / 32 % 2 = c at hlt hcode
  interval_cases c <;> simp [hcode]

theorem cabDriveAsks_cabDriveEdges (d : List Byte) : CabDriveAsks d (cabDriveEdges d) :=
  ⟨_, _, _, cabDriveFields_edges _, shiftAsked_shiftEdges d, headlandEdges_mem d, acknowledgeEdges_mem d⟩

/-- The switch stands in bits 10 and 11 of the first value, bits 2 and 3 of its high byte. -/
theorem cabHitchFields_switch (d : List Byte) : (cabHitchFields d).switch = byteAt d 0 / 4 % 4 := by
  have hlow : byteAt d 1 < 256 := (d.getD 1 0).isLt
  have hvalue : (cabHitchFields d).switch = (byteAt d 0 * 256 + byteAt d 1) / 1024 % 4 := by
    simp [cabHitchFields, field, word16]
  omega

theorem cabHitchAsks_cabHitchEdges (d : List Byte) : CabHitchAsks d (cabHitchEdges d) := by
  have hlt : byteAt d 0 / 4 % 4 < 4 := Nat.mod_lt _ (by decide)
  unfold CabHitchAsks cabHitchEdges CabHitchFields.edges
  rw [cabHitchFields_switch]
  generalize byteAt d 0 / 4 % 4 = c at hlt
  interval_cases c <;> simp

/-! ## Entry to CONFLICT (R202) -/

/-- The link is in CONFLICT with its fault, and a report that is due has not yet been made. -/
def conflictWithFault (s : State) : State :=
  raiseLatched .stationConflict (clearFault .linkMuted
    ((s.withLc { s.lc.flush with link := .conflict, conflictTakes := true }).withMc
      { s.mc with windowEnded := s.mc.windowEnded || s.lc.link == .listen }))

theorem enterConflict_eq (s : State) : enterConflict s = reportIfWaiting (conflictWithFault s) := rfl

theorem touches_conflictWithFault (s : State) : Touches [.lc, .mc] s (conflictWithFault s) :=
  also (also ((touches_withLc s _).then (touches_withMc _ _)) (touches_clearFault _ _)) (touches_raiseLatched _ _)

theorem conflictWithFault_lc (s : State) :
    (conflictWithFault s).lc = { s.lc.flush with link := .conflict, conflictTakes := true } := rfl

theorem conflictWithFault_mc (s : State) :
    (conflictWithFault s).mc.windowEnded = (s.mc.windowEnded || s.lc.link == .listen) ∧
    (conflictWithFault s).mc.step = s.mc.step ∧
    (conflictWithFault s).mc.faults = (raiseLatched .stationConflict (clearFault .linkMuted s)).mc.faults :=
  ⟨rfl, rfl, rfl⟩

theorem enterConflict_of_silent {s : State} (h : s.lc.quietTimer = none) :
    (enterConflict s).lc.link = .conflict ∧ (enterConflict s).lc.queue = [] ∧
    (enterConflict s).mc.windowEnded = (s.mc.windowEnded || s.lc.link == .listen) ∧
    (enterConflict s).mc.faults = (raiseLatched .stationConflict (clearFault .linkMuted s)).mc.faults ∧
    Touches [.lc, .mc] s (enterConflict s) := by
  obtain ⟨hended, -, hfaults⟩ := conflictWithFault_mc s
  have hnone : (conflictWithFault s).lc.quietTimer = none := h
  rw [enterConflict_eq, reportIfWaiting_of_none hnone]
  exact ⟨rfl, rfl, hended, hfaults, touches_conflictWithFault s⟩

theorem enterConflict_of_quiet {s : State} (h : s.lc.quietTimer.isSome = true) :
    (enterConflict s).lc.link = .conflict ∧ (enterConflict s).lc.queue = [] ∧ (enterConflict s).lc.quietTimer = none ∧
    (enterConflict s).mc.faults = (raiseLatched .stationConflict (clearFault .linkMuted s)).mc.faults ∧
    (s.mc.step = .quietWait → (s.supplyOf .vsb).state = .enabled →
      (enterConflict s).mc.step = .stopVsb ∧ ((enterConflict s).supplyOf .vsb).state = .falling) ∧
    (s.mc.step ≠ .quietWait → (enterConflict s).vdb = s.vdb ∧ (enterConflict s).mc.step = s.mc.step) ∧
    Touches [.vdb, .lc, .mc] s (enterConflict s) := by
  obtain ⟨-, hstep, hfaults⟩ := conflictWithFault_mc s
  have hsome : (conflictWithFault s).lc.quietTimer.isSome = true := h
  have htouch := touches_conflictWithFault s
  have hvdb : (conflictWithFault s).vdb = s.vdb := htouch .vdb (by decide)
  have hlc := conflictWithFault_lc s
  rw [enterConflict_eq, reportIfWaiting_of_quiet hsome]
  generalize conflictWithFault s = m at hstep hfaults htouch hvdb hlc
  rw [reportQuiet_lc, reportQuiet_faults, hlc, hfaults]
  refine ⟨rfl, rfl, rfl, rfl, fun hwait hvsb => ?_, fun hno => ?_, (htouch.mono (by decide)).trans (touches_reportQuiet m)⟩
  · rw [← hstep] at hwait
    have hup : (m.supplyOf .vsb).state = .enabled := by rwa [State.supplyOf, hvdb]
    exact ⟨congrArg Mc.step (reportQuiet_mc_of_waiting hwait), (reportQuiet_falls hwait hup).1⟩
  · rw [reportQuiet_of_other (hstep ▸ hno)]
    exact ⟨hvdb, hstep⟩

/-! ## A frame of a consumed group is filed (R191, R193) -/

theorem fileData_link (l : Lc) (g : PeerGroup) (d : List Byte) : (l.fileData g d).queue = l.queue ∧
    (l.fileData g d).link = l.link ∧ (l.fileData g d).received = l.received := by
  cases g <;> exact ⟨rfl, rfl, rfl⟩

section
variable (g : PeerGroup) (d : List Byte) (s : State)

/-- The state with the record filed, and the one with the fault of a stale record cleared. -/
def recordFiled : State := s.withLc (s.lc.fileData g d)
def staleCleared : State := if s.lc.freshness g = .fresh then recordFiled g d s else clearStale g (recordFiled g d s)

theorem fileFrame_eq : fileFrame g d s = deliverRequests (s.lc.edges g d) (staleCleared g d s) := rfl

theorem touches_clearStale : Touches [.mc] s (clearStale g s) := by
  unfold clearStale
  split
  · exact touches_clearFault _ _
  · exact .refl _ _

theorem touches_staleCleared : Touches [.lc, .mc] s (staleCleared g d s) :=
  touches_ite _ ((touches_withLc s _).mono (by decide))
    (also ((touches_withLc s _).mono (by decide)) (touches_clearStale _ _))

theorem staleCleared_lc : (staleCleared g d s).lc = s.lc.fileData g d := by
  unfold staleCleared
  split
  · rfl
  · exact touches_clearStale g _ .lc (by decide)

theorem touches_deliverRequests (l : List Request) : Touches [.requests] s (deliverRequests l s) :=
  touches_ite _ (touches_withRequests _ _) (.refl _ _)

theorem touches_fileFrame : Touches [.lc, .mc, .requests] s (fileFrame g d s) :=
  also ((touches_staleCleared g d s).mono (by decide)) (touches_deliverRequests _ _)

theorem fileFrame_lc : (fileFrame g d s).lc = s.lc.fileData g d :=
  (touches_deliverRequests _ _ .lc (by decide) : (deliverRequests _ (staleCleared g d s)).lc = _).trans
    (staleCleared_lc g d s)

theorem fileFrame_mc : (fileFrame g d s).mc = (staleCleared g d s).mc :=
  touches_deliverRequests _ _ .mc (by decide)
end

theorem fileFrame_mc_of_fresh {g : PeerGroup} {s : State} (d : List Byte) (h : s.lc.freshness g = .fresh) :
    (fileFrame g d s).mc = s.mc := by
  rw [fileFrame_mc, staleCleared, if_pos h]
  rfl

theorem fileFrame_mc_of_stale {g : PeerGroup} {s : State} {c : FaultCode} (d : List Byte)
    (h : s.lc.freshness g ≠ .fresh) (hc : staleFault g = some c) :
    (fileFrame g d s).mc = (clearFault c s).mc := by
  rw [fileFrame_mc, staleCleared, if_neg h, clearStale, hc]
  exact clearFault_mc_congr c rfl

theorem fileFrame_mc_of_service (d : List Byte) (s : State) : (fileFrame .service d s).mc = s.mc := by
  rw [fileFrame_mc, staleCleared]
  split <;> rfl

/-- A frame without edge-type fields, or with none that acts, requests nothing. -/
theorem fileFrame_requests_of_none {g : PeerGroup} {d : List Byte} {s : State} (h : s.lc.edges g d = []) :
    (fileFrame g d s).requests = s.requests := by
  have hfiled : (staleCleared g d s).requests = s.requests := touches_staleCleared g d s .requests (by decide)
  rw [fileFrame_eq, deliverRequests, h]
  split
  · simpa using hfiled
  · exact hfiled

/-- In OPERATING every owner takes its requests. -/
theorem fileFrame_requests_of_operating (g : PeerGroup) (d : List Byte) {s : State} (h : s.mc.mode = .operating) :
    (fileFrame g d s).requests = s.requests ++ s.lc.edges g d := by
  have hmode : (staleCleared g d s).mc.mode = .operating := by
    rw [← h]
    unfold staleCleared clearStale
    split
    · rfl
    · cases staleFault g <;> rfl
  have hfiled : (staleCleared g d s).requests = s.requests := touches_staleCleared g d s .requests (by decide)
  have htaken : ∀ r : Request, r.takenIn .operating = true := fun r => by cases r <;> rfl
  rw [fileFrame_eq, deliverRequests, hmode, if_pos (by rfl), State.withRequests_requests, hfiled,
    List.filter_eq_self.mpr fun r _ => htaken r]

theorem acts_iff {α : Type} (p : Peer α) (c : BitVec 4) : p.acts c = true ↔ p.fresh = .fresh ∧ p.lastActed ≠ some c := by
  simp [Peer.acts, Peer.isFresh]

theorem not_acts {α : Type} {p : Peer α} {c : BitVec 4} (h : p.fresh ≠ .fresh ∨ p.lastActed = some c) : ¬ p.acts c = true :=
  fun k => h.elim (fun hf => hf ((acts_iff p c).mp k).1) fun hc => ((acts_iff p c).mp k).2 hc

/-! ## The command (R188) -/

/-- A MUTED link counts the frame (R201). -/
theorem countHeard_lc (s : State) : (countHeard s).lc =
    { s.lc with received := if s.lc.link = .muted then s.lc.received + 1 else s.lc.received } := by
  unfold countHeard
  split <;> rfl

theorem touches_countHeard (s : State) : Touches [.lc] s (countHeard s) :=
  touches_ite _ (touches_withLc _ _) (.refl _ _)

theorem countHeard_of_conflict {s : State} (h : s.lc.link = .conflict) : countHeard s = s :=
  if_neg (by rw [h]; decide)

section
variable {id : BitVec 11} {d : List Byte} {s : State}

theorem takeFrame_of_own (h : id.toNat % 32 = s.lc.sources.own) : takeFrame id d s =
    if s.lc.link = .conflict then countHeard s else enterConflict (countHeard s) := by
  have hown : stationOf id = (countHeard s).lc.sources.own := by rw [countHeard_lc]; exact h
  have hlink : (countHeard s).lc.link = s.lc.link := by rw [countHeard_lc]
  rw [takeFrame, if_pos hown, hlink]

theorem takeFrame_of_consumed {g : PeerGroup} (h : id.toNat % 32 ≠ s.lc.sources.own)
    (hg : consumedGroup (id.toNat / 32) = some g) (hsource : s.lc.sources.of g = some (id.toNat % 32))
    (hlength : d.length = peerLength g) : takeFrame id d s = fileFrame g d (countHeard s) := by
  have hown : stationOf id ≠ (countHeard s).lc.sources.own := by rw [countHeard_lc]; exact h
  have hfiles : filesAs (countHeard s).lc id d = some g := by
    rw [countHeard_lc, filesAs, show groupOf id = id.toNat / 32 from rfl, hg]
    exact if_pos ⟨hsource, hlength⟩
  rw [takeFrame, if_neg hown, hfiles]

theorem takeFrame_of_other (h : id.toNat % 32 ≠ s.lc.sources.own)
    (hno : ∀ g : PeerGroup, consumedGroup (id.toNat / 32) = some g →
      s.lc.sources.of g = some (id.toNat % 32) → d.length ≠ peerLength g) : takeFrame id d s = countHeard s := by
  have hown : stationOf id ≠ (countHeard s).lc.sources.own := by rw [countHeard_lc]; exact h
  have hfiles : filesAs (countHeard s).lc id d = none := by
    rw [countHeard_lc, filesAs, show groupOf id = id.toNat / 32 from rfl]
    cases hg : consumedGroup (id.toNat / 32) with
    | none => rfl
    | some g => exact if_neg fun k => hno g hg k.1 k.2
  rw [takeFrame, if_neg hown, hfiles]

end

/-! ## What a filed frame leaves -/

/-- The records of the link after a frame of a group is filed. -/
theorem fileFrame_records (g : PeerGroup) (d : List Byte) (s : State) :
    (fileFrame g d s).lc.freshness g = .fresh ∧ (fileFrame g d s).lc.since g = 0 ∧
    (fileFrame g d s).lc.lastActed g = some (rollingCount d) ∧
    (∀ h : PeerGroup, h ≠ g → (fileFrame g d s).lc.freshness h = s.lc.freshness h ∧
      (fileFrame g d s).lc.since h = s.lc.since h ∧ (fileFrame g d s).lc.lastActed h = s.lc.lastActed h) := by
  rw [fileFrame_lc]
  refine ⟨?_, ?_, ?_, fun h hne => ?_⟩
  · rw [Lc.fileData_freshness, if_pos rfl]
  · rw [Lc.fileData_since, if_pos rfl]
  · rw [Lc.fileData_lastActed, if_pos rfl]
  · rw [Lc.fileData_freshness, Lc.fileData_since, Lc.fileData_lastActed, if_neg hne, if_neg hne, if_neg hne]
    exact ⟨rfl, rfl, rfl⟩

/-- The fields of the frame stand in the record of its group. -/
theorem fileFrame_values (g : PeerGroup) (d : List Byte) (s : State) :
    (g = .engine → (fileFrame g d s).lc.engine.values =
      some ⟨byteAt d 0 * 256 + byteAt d 1, byteAt d 2, byteAt d 3⟩) ∧
    (g = .brake → (fileFrame g d s).lc.brake.values = some ⟨byteAt d 0 * 256 + byteAt d 1,
      byteAt d 2 * 256 + byteAt d 3, decide (byteAt d 4 / 16 % 2 = 1)⟩) ∧
    (g = .cabDrive → ∃ f : CabDriveFields, (fileFrame g d s).lc.cabDrive.values = some f ∧ CabDriveOf d f) ∧
    (g = .cabHitch → ∃ f : CabHitchFields, (fileFrame g d s).lc.cabHitch.values = some f ∧ CabHitchOf d f) ∧
    (g = .implement → (fileFrame g d s).lc.implement.values = some ⟨byteAt d 0 * 256 + byteAt d 1,
      decide (byteAt d 2 / 16 % 4 = 1)⟩) ∧
    (g = .service → (fileFrame g d s).lc.service.values = some ⟨d.getD 0 0, d.getD 1 0⟩) := by
  rw [fileFrame_lc]
  refine ⟨?_, ?_, ?_, ?_, ?_, ?_⟩ <;> rintro rfl
  · rfl
  · rfl
  · exact ⟨_, rfl, cabDriveOf_cabDriveFields d⟩
  · exact ⟨_, rfl, cabHitchOf_cabHitchFields d⟩
  · rfl
  · rfl

/-- The requests that a frame of a group delivers in OPERATING. -/
theorem fileFrame_asks (g : PeerGroup) (d : List Byte) {s : State} (hmode : s.mc.mode = .operating) :
    (g = .cabDrive → s.lc.cabDrive.fresh = .fresh → s.lc.cabDrive.lastActed ≠ some (rollingCount d) →
      ∃ l : List Request, (fileFrame g d s).requests = s.requests ++ l ∧ CabDriveAsks d l) ∧
    (g = .cabDrive → s.lc.cabDrive.fresh ≠ .fresh ∨ s.lc.cabDrive.lastActed = some (rollingCount d) →
      (fileFrame g d s).requests = s.requests) ∧
    (g = .cabHitch → s.lc.cabHitch.fresh = .fresh → s.lc.cabHitch.lastActed ≠ some (rollingCount d) →
      ∃ l : List Request, (fileFrame g d s).requests = s.requests ++ l ∧ CabHitchAsks d l) ∧
    (g = .cabHitch → s.lc.cabHitch.fresh ≠ .fresh ∨ s.lc.cabHitch.lastActed = some (rollingCount d) →
      (fileFrame g d s).requests = s.requests) ∧
    (g = .service → s.lc.service.lastActed ≠ some (rollingCount d) →
      (fileFrame g d s).requests = s.requests ++ [.service (d.getD 0 0) (d.getD 1 0)]) ∧
    (g = .service → s.lc.service.lastActed = some (rollingCount d) → (fileFrame g d s).requests = s.requests) := by
  refine ⟨?_, ?_, ?_, ?_, ?_, ?_⟩
  · rintro rfl hfresh hnew
    have hedges : s.lc.edges .cabDrive d = cabDriveEdges d := if_pos ((acts_iff _ _).mpr ⟨hfresh, hnew⟩)
    exact ⟨_, (fileFrame_requests_of_operating _ d hmode).trans (by rw [hedges]), cabDriveAsks_cabDriveEdges d⟩
  · rintro rfl hno
    exact fileFrame_requests_of_none (if_neg (not_acts hno))
  · rintro rfl hfresh hnew
    have hedges : s.lc.edges .cabHitch d = cabHitchEdges d := if_pos ((acts_iff _ _).mpr ⟨hfresh, hnew⟩)
    exact ⟨_, (fileFrame_requests_of_operating _ d hmode).trans (by rw [hedges]), cabHitchAsks_cabHitchEdges d⟩
  · rintro rfl hno
    exact fileFrame_requests_of_none (if_neg (not_acts hno))
  · rintro rfl hnew
    have hedges : s.lc.edges .service d = [.service (d.getD 0 0) (d.getD 1 0)] := if_neg hnew
    exact (fileFrame_requests_of_operating _ d hmode).trans (by rw [hedges])
  · rintro rfl hold
    exact fileFrame_requests_of_none (if_pos hold)

theorem staleFault_of_mem {g : PeerGroup} {c : FaultCode}
    (h : (g, c) ∈ [(PeerGroup.engine, FaultCode.engineStale), (.brake, .brakeStale), (.cabDrive, .cabDriveStale),
      (.cabHitch, .cabHitchStale), (.implement, .implementStale)]) : staleFault g = some c := by
  simp only [List.mem_cons, Prod.mk.injEq, List.not_mem_nil, or_false] at h
  rcases h with ⟨rfl, rfl⟩ | ⟨rfl, rfl⟩ | ⟨rfl, rfl⟩ | ⟨rfl, rfl⟩ | ⟨rfl, rfl⟩ <;> rfl

theorem freshness_congr {l m : Lc} (h : l = { m with received := l.received }) (g : PeerGroup) :
    l.freshness g = m.freshness g ∧ l.since g = m.since g ∧ l.lastActed g = m.lastActed g := by
  rw [h]
  cases g <;> exact ⟨rfl, rfl, rfl⟩

/-- Settles O47. -/
theorem frameReceivedFiled : Obligations.FrameReceivedFiled := by
  intro id d s htakes
  have hheard := touches_countHeard s
  have hlc := countHeard_lc s
  have hmc : (countHeard s).mc = s.mc := hheard .mc (by decide)
  have hvdb : (countHeard s).vdb = s.vdb := hheard .vdb (by decide)
  have hrequests : (countHeard s).requests = s.requests := hheard .requests (by decide)
  refine ⟨takeFrame id d s, congrArg Host.Outcome.next (if_pos htakes), fun hown hlink hquiet => ?silent,
    fun hown hlink hquiet => ?quiet, fun hown hlink => ?held, fun hother g hg hsource hlength => ?filed,
    fun hother hno => ?passed⟩
  case silent =>
    rw [takeFrame_of_own hown, if_neg hlink]
    obtain ⟨hconflict, hqueue, hended, hfaults, htouch⟩ := enterConflict_of_silent (s := countHeard s)
      (by rw [hlc]; exact hquiet)
    refine ⟨hconflict, hqueue, ?_, hfaults.trans ?_, (hheard.mono (by decide)).trans htouch⟩
    · rw [hended, hmc, hlc]
    · exact congrArg Mc.faults (raiseLatched_mc_congr _ (clearFault_mc_congr _ hmc))
  case quiet =>
    rw [takeFrame_of_own hown, if_neg hlink]
    obtain ⟨hconflict, hqueue, htimer, hfaults, hfalls, hkept, htouch⟩ := enterConflict_of_quiet (s := countHeard s)
      (by rw [hlc]; exact hquiet)
    refine ⟨hconflict, hqueue, htimer, hfaults.trans ?_, fun hwait hvsb => ?_, fun hstep => ?_,
      (hheard.mono (by decide)).trans htouch⟩
    · exact congrArg Mc.faults (raiseLatched_mc_congr _ (clearFault_mc_congr _ hmc))
    · exact hfalls (hmc ▸ hwait) (by rwa [State.supplyOf, hvdb])
    · rw [← hvdb, ← hmc]
      exact hkept (hmc ▸ hstep)
  case held => rw [takeFrame_of_own hown, if_pos hlink, countHeard_of_conflict hlink]
  case filed =>
    rw [takeFrame_of_consumed hother hg hsource hlength]
    have hreceived : (countHeard s).lc.received = if s.lc.link = .muted then s.lc.received + 1 else s.lc.received := by
      rw [hlc]
    have hsame := fun h : PeerGroup => freshness_congr (l := (countHeard s).lc) (m := s.lc) (by rw [hlc]) h
    have hdrive : (countHeard s).lc.cabDrive = s.lc.cabDrive := by rw [hlc]
    have hhitch : (countHeard s).lc.cabHitch = s.lc.cabHitch := by rw [hlc]
    have hservice : (countHeard s).lc.service = s.lc.service := by rw [hlc]
    have hqueue : (countHeard s).lc.queue = s.lc.queue ∧ (countHeard s).lc.link = s.lc.link := by
      rw [hlc]
      exact ⟨rfl, rfl⟩
    have hasks := fileFrame_asks g d (s := countHeard s)
    have htouch : Touches [.lc, .mc, .requests] s (fileFrame g d (countHeard s)) :=
      also (hheard.mono (by decide)) (touches_fileFrame g d (countHeard s))
    generalize countHeard s = u at *
    obtain ⟨hfresh, hsince, hacted, hothers⟩ := fileFrame_records g d u
    obtain ⟨hfq, hfl, hfr⟩ := fileData_link u.lc g d
    obtain ⟨hengine, hbrake, hcab, hcabHitch, himplement, hserved⟩ := fileFrame_values g d u
    refine ⟨hfresh, hsince, hacted, fun h hne => ?_, hengine, hbrake, hcab, hcabHitch, himplement, hserved, ?_, ?_, ?_,
      fun hmode => ?_, fun hg => ?_, fun hf => ?_, fun c hc hf => ?_, ?_, htouch⟩
    · obtain ⟨hf, ht, ha⟩ := hothers h hne
      obtain ⟨hf', ht', ha'⟩ := hsame h
      exact ⟨hf.trans hf', ht.trans ht', ha.trans ha'⟩
    · rw [fileFrame_lc, hfr, hreceived]
    · rw [fileFrame_lc, hfq, hqueue.1]
    · rw [fileFrame_lc, hfl, hqueue.2]
    · have hall := hasks (hmc ▸ hmode)
      rwa [hdrive, hhitch, hservice, hrequests] at hall
    · rw [fileFrame_requests_of_none (by obtain rfl | rfl | rfl := hg <;> rfl), hrequests]
    · rw [fileFrame_mc_of_fresh d ((hsame g).1.trans hf), hmc]
    · rw [fileFrame_mc_of_stale d (by rwa [(hsame g).1]) (staleFault_of_mem hc)]
      exact clearFault_mc_congr c hmc
    · rintro rfl
      rw [fileFrame_mc_of_service, hmc]
  case passed =>
    rw [takeFrame_of_other hother hno]
    exact ⟨by rw [hlc], hheard⟩

end Sys2Proof.Proofs
end

