-- ==== Sys2Proof/Proofs/SensorOutputs.lean ====
section
/-! SUPPORT. The outputs of a sensor channel (R28 to R39): the value of a main output, the discards of a STARTING
channel, and the comparator; and the statements about MAIN_OUTPUT and FAST_OUTPUT. -/

namespace Sys2Proof.Proofs

open Sys2Proof Sys2Proof.Machine

/-! ## One channel's record -/

section
variable (s : State) (x : Sensor) (r : SensorRec)

theorem withSensor_sensor (y : Sensor) : (s.withSensor x r).sensor y = if y = x then r else s.sensor y :=
  SensorTable.get_set _ _ _ _

theorem withSensor_sensor_same : (s.withSensor x r).sensor x = r := (withSensor_sensor s x r x).trans (if_pos rfl)

theorem touches_withSensor : Touches [.sfe] s (s.withSensor x r) := touches_withSfe s _
end

/-- From `s` to `t` the SFE changed in the record of one channel only, and events may have been delivered. -/
structure OneChannel (x : Sensor) (s t : State) : Prop where
  others : ∀ y : Sensor, y ≠ x → t.sensor y = s.sensor y
  cal : t.sfe.cal = s.sfe.cal
  posValid : t.sfe.posValid = s.sfe.posValid
  touches : Touches [.sfe, .events] s t

theorem oneChannel_withSensor (s : State) (x : Sensor) (r : SensorRec) : OneChannel x s (s.withSensor x r) where
  others y hy := (withSensor_sensor s x r y).trans (if_neg hy)
  cal := rfl
  posValid := rfl
  touches := (touches_withSensor s x r).mono (by decide)

theorem oneChannel_trans {x : Sensor} {s t u : State} (h : OneChannel x s t) (k : OneChannel x t u) :
    OneChannel x s u where
  others y hy := (k.others y hy).trans (h.others y hy)
  cal := k.cal.trans h.cal
  posValid := k.posValid.trans h.posValid
  touches := h.touches.trans k.touches

theorem oneChannel_deliver (y x : Sensor) (ev : SfeEvent) (v : Int) (s : State) : OneChannel x s (deliver y ev v s) where
  others _ _ := rfl
  cal := rfl
  posValid := rfl
  touches := (touches_deliver y ev v s).mono (by decide)

theorem deliver_events (x : Sensor) (ev : SfeEvent) (v : Int) (s : State) :
    (deliver x ev v s).events = s.events ++ told x ev v s := rfl

theorem told_congr {x : Sensor} {ev : SfeEvent} {v : Int} {s t : State} (h : t.mc.mode = s.mc.mode) :
    told x ev v t = told x ev v s := by rw [told, told, h]

/-! ## A STARTING channel (R30) -/

section
variable {s : State} {x : Sensor}

theorem discardOutput_of_more (h : 1 < (s.sensor x).discard) :
    discardOutput x s = s.withSensor x { s.sensor x with discard := (s.sensor x).discard - 1 } :=
  if_neg (Nat.not_le.mpr h)

theorem discardOutput_of_last (h : (s.sensor x).discard ≤ 1) : discardOutput x s =
    deliver x .valid 0 (s.withSensor x { s.sensor x with discard := 0, state := .valid, cmp := .inRange }) :=
  if_pos h

theorem oneChannel_discardOutput (s : State) (x : Sensor) : OneChannel x s (discardOutput x s) := by
  by_cases h : (s.sensor x).discard ≤ 1
  · rw [discardOutput_of_last h]
    exact oneChannel_trans (oneChannel_withSensor s x _) (oneChannel_deliver _ _ _ _ _)
  · rw [discardOutput_of_more (Nat.not_le.mp h)]
    exact oneChannel_withSensor s x _
end

/-! ## The value of an output (R29) -/

theorem range_ordered (x : Sensor) : x.range.1 ≤ x.range.2 := by cases x <;> decide

theorem clampRange_eq (x : Sensor) (v : Int) :
    clampRange x v = (max x.range.1 (min x.range.2 v), decide (v < x.range.1 ∨ x.range.2 < v)) := by
  have h := range_ordered x
  refine Prod.ext rfl (decide_eq_decide.mpr ?_)
  simp only [clampInt]
  omega

/-! ## MAIN_OUTPUT (R28 to R30) -/

/-- The waiting main output is taken from the record. -/
def mainTaken (x : Sensor) (s : State) : State := s.withSensor x { s.sensor x with mainDone := none }

theorem exec_mainOutput {x : Sensor} {raw : Int} {s : State} (hruns : s.mc.mode.sensingRuns = true) (hx : x ≠ .hps)
    (h : (s.sensor x).mainDone = some raw) : exec (.mainOutput x) s = .next (takeMain x raw s) := by
  have hwaits : mainWaiting x s = some raw := by
    rw [mainWaiting, hruns, Bool.true_and, if_pos (bne_iff_ne.mpr hx), h]
  change execMainOutput x s = _
  unfold execMainOutput
  rw [hwaits]

theorem mainTaken_sensor (x : Sensor) (s : State) :
    (mainTaken x s).sensor x = { s.sensor x with mainDone := none } := withSensor_sensor_same _ _ _

section
variable {x : Sensor} {raw : Int} {s : State}

theorem takeMain_of_valid (h : (s.sensor x).state = .valid) : takeMain x raw s = writeValue x
    (clampRange x (engineering (s.cfg.sensors.get x) (s.cfg.sensors.get x).mainOrder (s.cfg.sensors.get x).mainOsr raw))
    (mainTaken x s) := by
  have hstate : ((mainTaken x s).sensor x).state = .valid := by rw [mainTaken_sensor]; exact h
  unfold takeMain
  rw [← mainTaken]
  simp only [hstate]
  rfl

theorem takeMain_of_starting (h : (s.sensor x).state = .starting) :
    takeMain x raw s = discardOutput x (mainTaken x s) := by
  have hstate : ((mainTaken x s).sensor x).state = .starting := by rw [mainTaken_sensor]; exact h
  unfold takeMain
  rw [← mainTaken]
  simp only [hstate]

theorem oneChannel_takeMain (x : Sensor) (raw : Int) (s : State) : OneChannel x s (takeMain x raw s) := by
  have htaken : OneChannel x s (mainTaken x s) := oneChannel_withSensor s x _
  unfold takeMain
  rw [← mainTaken]
  dsimp only
  split
  · exact oneChannel_trans htaken (oneChannel_discardOutput _ x)
  · exact oneChannel_trans htaken (oneChannel_withSensor _ x _)
  · exact htaken
  · exact htaken
end

/-- Settles O19. -/
theorem mainOutputConverted : Obligations.MainOutputConverted := by
  intro x raw s hruns hx hdone
  have hframe := oneChannel_takeMain x raw s
  have hsensor := mainTaken_sensor x s
  refine ⟨_, exec_mainOutput hruns hx hdone, fun hvalid c v hc hv => ?_, fun hstarting hmore => ?_,
    fun hstarting hlast => ?_, hframe.others, hframe.cal, hframe.posValid, hframe.touches⟩
  · subst hc hv
    rw [takeMain_of_valid hvalid, clampRange_eq, writeValue, withSensor_sensor_same, hsensor]
    exact ⟨rfl, rfl⟩
  · rw [takeMain_of_starting hstarting, discardOutput_of_more (by rw [hsensor]; exact hmore), withSensor_sensor_same,
      hsensor]
    exact ⟨rfl, rfl⟩
  · rw [takeMain_of_starting hstarting, discardOutput_of_last (by rw [hsensor]; exact hlast), hsensor]
    exact ⟨withSensor_sensor_same _ _ _, rfl⟩

/-! ## FAST_OUTPUT (R30, R34 to R39) -/

/-- The waiting fast output is taken from the record. -/
def fastTaken (x : Sensor) (s : State) : State := s.withSensor x { s.sensor x with fastDone := none }

theorem fastTaken_sensor (x : Sensor) (s : State) :
    (fastTaken x s).sensor x = { s.sensor x with fastDone := none } := withSensor_sensor_same _ _ _

theorem exec_fastOutput {x : Sensor} {raw : Int} {s : State} (hruns : s.mc.mode.sensingRuns = true)
    (h : (s.sensor x).fastDone = some raw) : exec (.fastOutput x) s =
      .next (if x = .hps then takeSlotOutput raw s else takeFast x raw s) := by
  have hwaits : fastWaiting x s = some raw := by rw [fastWaiting, if_pos hruns, h]
  change execFastOutput x s = _
  unfold execFastOutput
  rw [hwaits]

/-- The state with the slot value of HPS taken (R39). -/
def slotTaken (raw : Int) (s : State) : State :=
  (fastTaken .hps s).withSfe { (fastTaken .hps s).sfe with
    slotValue := normalise s.cfg.sensors.hps.fastOrder s.cfg.sensors.hps.fastOsr raw - 32768 }

theorem slotTaken_sensor (raw : Int) (s : State) (y : Sensor) :
    (slotTaken raw s).sensor y = if y = .hps then { s.sensor .hps with fastDone := none } else s.sensor y :=
  withSensor_sensor s .hps _ y

theorem takeSlotOutput_eq (raw : Int) (s : State) : takeSlotOutput raw s =
    if (s.sensor .hps).state = .starting then discardOutput .hps (slotTaken raw s) else slotTaken raw s := rfl

/-- What the fast output leaves alone, on every channel. -/
structure FastFrame (x : Sensor) (s t : State) : Prop where
  touches : Touches [.sfe, .events] s t
  others : ∀ y : Sensor, y ≠ x → t.sensor y = s.sensor y
  value : (t.sensor x).value = (s.sensor x).value
  atLimit : (t.sensor x).atLimit = (s.sensor x).atLimit
  done : (t.sensor x).fastDone = none

theorem touches_slotTaken (raw : Int) (s : State) : Touches [.sfe] s (slotTaken raw s) :=
  (touches_withSensor s .hps _).trans (touches_withSfe _ _)

theorem fastFrame_slotTaken (raw : Int) (s : State) : FastFrame .hps s (slotTaken raw s) where
  touches := (touches_slotTaken raw s).mono (by decide)
  others y hy := (slotTaken_sensor raw s y).trans (if_neg hy)
  value := by rw [slotTaken_sensor, if_pos rfl]
  atLimit := by rw [slotTaken_sensor, if_pos rfl]
  done := by rw [slotTaken_sensor, if_pos rfl]

theorem discardOutput_value (x : Sensor) (s : State) :
    ((discardOutput x s).sensor x).value = (s.sensor x).value ∧
    ((discardOutput x s).sensor x).atLimit = (s.sensor x).atLimit ∧
    ((discardOutput x s).sensor x).fastDone = (s.sensor x).fastDone := by
  have hset (r : SensorRec) : ((deliver x .valid 0 (s.withSensor x r)).sensor x) = r := withSensor_sensor_same s x r
  by_cases h : (s.sensor x).discard ≤ 1
  · rw [discardOutput_of_last h, hset]
    exact ⟨rfl, rfl, rfl⟩
  · rw [discardOutput_of_more (Nat.not_le.mp h), withSensor_sensor_same]
    exact ⟨rfl, rfl, rfl⟩

theorem discardOutput_slotValue (x : Sensor) (s : State) : (discardOutput x s).sfe.slotValue = s.sfe.slotValue := by
  by_cases h : (s.sensor x).discard ≤ 1
  · rw [discardOutput_of_last h]
    rfl
  · rw [discardOutput_of_more (Nat.not_le.mp h)]
    rfl

theorem fastFrame_takeSlotOutput (raw : Int) (s : State) : FastFrame .hps s (takeSlotOutput raw s) := by
  have hslot := fastFrame_slotTaken raw s
  rw [takeSlotOutput_eq]
  split
  · have hdiscard := oneChannel_discardOutput (slotTaken raw s) .hps
    obtain ⟨hvalue, hlimit, hdone⟩ := discardOutput_value .hps (slotTaken raw s)
    exact ⟨hslot.touches.trans hdiscard.touches, fun y hy => (hdiscard.others y hy).trans (hslot.others y hy),
      hvalue.trans hslot.value, hlimit.trans hslot.atLimit, hdone.trans hslot.done⟩
  · exact hslot

theorem takeSlotOutput_slotValue (raw : Int) (s : State) : (takeSlotOutput raw s).sfe.slotValue =
    Int.tdiv (raw * 65536) (s.cfg.sensors.hps.fastOsr ^ s.cfg.sensors.hps.fastOrder : Nat) - 32768 := by
  rw [takeSlotOutput_eq]
  split
  · rw [discardOutput_slotValue]
    rfl
  · rfl

theorem takeSlotOutput_of_starting {raw : Int} {s : State} (h : (s.sensor .hps).state = .starting) :
    (1 < (s.sensor .hps).discard →
      ((takeSlotOutput raw s).sensor .hps).discard = (s.sensor .hps).discard - 1 ∧
      ((takeSlotOutput raw s).sensor .hps).state = .starting ∧ (takeSlotOutput raw s).events = s.events) ∧
    ((s.sensor .hps).discard ≤ 1 →
      ((takeSlotOutput raw s).sensor .hps).discard = 0 ∧ ((takeSlotOutput raw s).sensor .hps).state = .valid ∧
      ((takeSlotOutput raw s).sensor .hps).cmp = .inRange ∧
      (takeSlotOutput raw s).events = s.events ++ told .hps .valid 0 s) := by
  have hsensor := slotTaken_sensor raw s .hps
  rw [if_pos rfl] at hsensor
  have hset (t : State) (r : SensorRec) : (deliver .hps .valid 0 (t.withSensor .hps r)).sensor .hps = r :=
    withSensor_sensor_same t .hps r
  rw [takeSlotOutput_eq, if_pos h]
  refine ⟨fun hmore => ?_, fun hlast => ?_⟩
  · rw [discardOutput_of_more (by rw [hsensor]; exact hmore), withSensor_sensor_same, hsensor]
    exact ⟨rfl, h, rfl⟩
  · rw [discardOutput_of_last (by rw [hsensor]; exact hlast), hset]
    exact ⟨rfl, rfl, rfl, rfl⟩

/-! ## The comparator (R34 to R36) -/

/-- The value that the comparator of a channel tests. -/
def fastValue (x : Sensor) (raw : Int) (s : State) : Int :=
  max x.range.1 (min x.range.2
    (engineering (s.cfg.sensors.get x) (s.cfg.sensors.get x).fastOrder (s.cfg.sensors.get x).fastOsr raw))

/-- The comparator's state and events after the leaving and the entering tests at a value. -/
def cmpTests (c : SensorCfg) (v : Int) (k : CmpState) : CmpState × Option SfeEvent × Option SfeEvent :=
  ((cmpEnter c v (cmpLeave c v k).1).1, (cmpLeave c v k).2, (cmpEnter c v (cmpLeave c v k).1).2)

/-- The events that a test tells the owners of. -/
def toldIf (x : Sensor) (ev : Option SfeEvent) (v : Int) (s : State) : List Delivery :=
  match ev with
  | some e => told x e v s
  | none => []

theorem deliverIf_events (x : Sensor) (ev : Option SfeEvent) (v : Int) (s : State) :
    (deliverIf x ev v s).events = s.events ++ toldIf x ev v s := by
  cases ev with
  | none => exact (List.append_nil _).symm
  | some e => rfl

theorem oneChannel_deliverIf (x y : Sensor) (ev : Option SfeEvent) (v : Int) (s : State) :
    OneChannel y s (deliverIf x ev v s) ∧ (deliverIf x ev v s).sfe = s.sfe ∧ (deliverIf x ev v s).mc = s.mc := by
  cases ev with
  | none => exact ⟨⟨fun _ _ => rfl, rfl, rfl, .refl _ _⟩, rfl, rfl⟩
  | some e => exact ⟨oneChannel_deliver x y e v s, rfl, rfl⟩

/-- A comparator test writes the state and delivers the events of the two tests, the leaving one first. -/
theorem compare_spec (x : Sensor) (v : Int) (s : State) :
    OneChannel x s (compare x v s) ∧
    (compare x v s).sensor x =
      { s.sensor x with cmp := (cmpTests (s.cfg.sensors.get x) v (s.sensor x).cmp).1 } ∧
    (compare x v s).events = s.events ++
      toldIf x (cmpTests (s.cfg.sensors.get x) v (s.sensor x).cmp).2.1 v s ++
      toldIf x (cmpTests (s.cfg.sensors.get x) v (s.sensor x).cmp).2.2 v s := by
  have heq : compare x v s = deliverIf x (cmpTests (s.cfg.sensors.get x) v (s.sensor x).cmp).2.2 v
      (deliverIf x (cmpTests (s.cfg.sensors.get x) v (s.sensor x).cmp).2.1 v (s.withSensor x
        { s.sensor x with cmp := (cmpTests (s.cfg.sensors.get x) v (s.sensor x).cmp).1 })) := rfl
  rw [heq]
  generalize cmpTests (s.cfg.sensors.get x) v (s.sensor x).cmp = k
  have hset := withSensor_sensor_same s x { s.sensor x with cmp := k.1 }
  have hframe := oneChannel_withSensor s x { s.sensor x with cmp := k.1 }
  have hmode : (s.withSensor x { s.sensor x with cmp := k.1 }).mc = s.mc := rfl
  have hevents : (s.withSensor x { s.sensor x with cmp := k.1 }).events = s.events := rfl
  generalize s.withSensor x { s.sensor x with cmp := k.1 } = u at *
  obtain ⟨hleave, hsfe, hmc⟩ := oneChannel_deliverIf x x k.2.1 v u
  obtain ⟨henter, hsfe', -⟩ := oneChannel_deliverIf x x k.2.2 v (deliverIf x k.2.1 v u)
  have htold (ev : Option SfeEvent) (t : State) (ht : t.mc = s.mc) : toldIf x ev v t = toldIf x ev v s := by
    cases ev with
    | none => rfl
    | some e => exact told_congr (by rw [ht])
  refine ⟨oneChannel_trans hframe (oneChannel_trans hleave henter), ?_, ?_⟩
  · rw [← hset, State.sensor, hsfe', hsfe]
    rfl
  · rw [deliverIf_events, deliverIf_events, hevents, htold _ _ (hmc.trans hmode), htold _ _ hmode]

theorem takeFast_of_valid {x : Sensor} {raw : Int} {s : State} (h : (s.sensor x).state = .valid) :
    takeFast x raw s = compare x (fastValue x raw s) (fastTaken x s) := by
  have hstate : ((fastTaken x s).sensor x).state = .valid := by rw [fastTaken_sensor]; exact h
  unfold takeFast
  rw [← fastTaken]
  simp only [hstate, if_true, clampRange_eq]
  rfl

theorem takeFast_of_other {x : Sensor} {raw : Int} {s : State} (h : (s.sensor x).state ≠ .valid) :
    takeFast x raw s = fastTaken x s := by
  have hstate : ((fastTaken x s).sensor x).state ≠ .valid := by rw [fastTaken_sensor]; exact h
  unfold takeFast
  rw [← fastTaken]
  exact if_neg hstate

theorem fastFrame_fastTaken (x : Sensor) (s : State) : FastFrame x s (fastTaken x s) where
  touches := (touches_withSensor s x _).mono (by decide)
  others := (oneChannel_withSensor s x _).others
  value := by rw [fastTaken_sensor]
  atLimit := by rw [fastTaken_sensor]
  done := by rw [fastTaken_sensor]

theorem fastFrame_takeFast (x : Sensor) (raw : Int) (s : State) : FastFrame x s (takeFast x raw s) := by
  have htaken := fastFrame_fastTaken x s
  by_cases h : (s.sensor x).state = .valid
  · obtain ⟨hframe, hsensor, -⟩ := compare_spec x (fastValue x raw s) (fastTaken x s)
    rw [takeFast_of_valid h]
    exact ⟨htaken.touches.trans hframe.touches, fun y hy => (hframe.others y hy).trans (htaken.others y hy),
      by rw [hsensor]; exact htaken.value, by rw [hsensor]; exact htaken.atLimit, by rw [hsensor]; exact htaken.done⟩
  · rw [takeFast_of_other h]
    exact htaken

/-- The comparator's state and the events of a VALID channel. -/
theorem takeFast_cmp {x : Sensor} {raw : Int} {s : State} (h : (s.sensor x).state = .valid) :
    ((takeFast x raw s).sensor x).cmp =
      (cmpTests (s.cfg.sensors.get x) (fastValue x raw s) (s.sensor x).cmp).1 ∧
    (takeFast x raw s).events = s.events ++
      toldIf x (cmpTests (s.cfg.sensors.get x) (fastValue x raw s) (s.sensor x).cmp).2.1 (fastValue x raw s) s ++
      toldIf x (cmpTests (s.cfg.sensors.get x) (fastValue x raw s) (s.sensor x).cmp).2.2 (fastValue x raw s) s := by
  obtain ⟨-, hsensor, hevents⟩ := compare_spec x (fastValue x raw s) (fastTaken x s)
  rw [takeFast_of_valid h]
  rw [fastTaken_sensor] at hsensor hevents
  exact ⟨by rw [hsensor]; rfl, hevents⟩

/-! ## The cases of the tests -/

section
variable {c : SensorCfg} {v : Int}

theorem cmpLeave_of_high_stays (h : c.high - c.highHyst ≤ v) : cmpLeave c v .high = (.high, none) :=
  if_neg (Int.not_lt.mpr h)

theorem cmpLeave_of_high_leaves (h : v < c.high - c.highHyst) : cmpLeave c v .high = (.inRange, some .highLeave) :=
  if_pos h

theorem cmpLeave_of_low_stays (h : v ≤ c.low + c.lowHyst) : cmpLeave c v .low = (.low, none) :=
  if_neg (Int.not_lt.mpr h)

theorem cmpLeave_of_low_leaves (h : c.low + c.lowHyst < v) : cmpLeave c v .low = (.inRange, some .lowLeave) :=
  if_pos h

theorem cmpEnter_of_out {k : CmpState} (h : k ≠ .inRange) : cmpEnter c v k = (k, none) := if_pos h

theorem cmpEnter_low (hon : c.lowOn = true) (h : v ≤ c.low) : cmpEnter c v .inRange = (.low, some .lowEnter) :=
  (if_neg fun k => k rfl).trans (if_pos ⟨hon, h⟩)

theorem cmpEnter_high (hlow : ¬(c.lowOn = true ∧ v ≤ c.low)) (hon : c.highOn = true) (h : c.high ≤ v) :
    cmpEnter c v .inRange = (.high, some .highEnter) :=
  (if_neg fun k => k rfl).trans ((if_neg hlow).trans (if_pos ⟨hon, h⟩))

theorem cmpEnter_none (hlow : ¬(c.lowOn = true ∧ v ≤ c.low)) (hhigh : ¬(c.highOn = true ∧ c.high ≤ v)) :
    cmpEnter c v .inRange = (.inRange, none) :=
  (if_neg fun k => k rfl).trans ((if_neg hlow).trans (if_neg hhigh))

theorem cmpTests_of {k m n : CmpState} {left entered : Option SfeEvent} (hleave : cmpLeave c v k = (m, left))
    (henter : cmpEnter c v m = (n, entered)) : cmpTests c v k = (n, left, entered) := by
  rw [cmpTests, hleave, henter]

end

/-- Settles O20: each clause about the comparator is one case of the leaving test and one of the entering test. -/
theorem fastOutputCompared : Obligations.FastOutputCompared := by
  intro x raw s hruns hdone
  have hexec := exec_fastOutput hruns hdone
  by_cases hx : x = .hps
  · subst hx
    rw [if_pos rfl] at hexec
    have hframe := fastFrame_takeSlotOutput raw s
    refine ⟨_, hexec, hframe.touches, hframe.others, hframe.value, hframe.atLimit, hframe.done,
      fun _ c hc => hc ▸ takeSlotOutput_slotValue raw s, fun _ hstarting => takeSlotOutput_of_starting hstarting,
      fun _ hno => ?_, fun hno => absurd rfl hno, fun hno => absurd rfl hno⟩
    rw [takeSlotOutput_eq, if_neg hno, slotTaken_sensor, if_pos rfl]
    exact ⟨rfl, rfl⟩
  rw [if_neg hx] at hexec
  have hframe := fastFrame_takeFast x raw s
  refine ⟨_, hexec, hframe.touches, hframe.others, hframe.value, hframe.atLimit, hframe.done, fun h => absurd h hx,
    fun h => absurd h hx, fun h => absurd h hx, fun _ hno => ?_, fun _ hvalid c v hc hhigh hlow hapart hv => ?_⟩
  · rw [takeFast_of_other hno, fastTaken_sensor]
    exact ⟨rfl, rfl⟩
  subst hc
  have hvalue : v = fastValue x raw s := hv
  obtain ⟨hcmp, hevents⟩ := takeFast_cmp (raw := raw) hvalid
  rw [← hvalue] at hcmp hevents
  rw [hcmp, hevents]
  have hcase {k m n : CmpState} {left entered : Option SfeEvent} (hk : (s.sensor x).cmp = k)
      (hleave : cmpLeave (s.cfg.sensors.get x) v k = (m, left))
      (henter : cmpEnter (s.cfg.sensors.get x) v m = (n, entered)) :
      cmpTests (s.cfg.sensors.get x) v (s.sensor x).cmp = (n, left, entered) := hk ▸ cmpTests_of hleave henter
  have hnotLow (h : v > (s.cfg.sensors.get x).low + (s.cfg.sensors.get x).lowHyst) :
      ¬((s.cfg.sensors.get x).lowOn = true ∧ v ≤ (s.cfg.sensors.get x).low) := fun ⟨hon, hle⟩ => by
    have := hlow hon
    omega
  have hnotHigh (h : v < (s.cfg.sensors.get x).high - (s.cfg.sensors.get x).highHyst) :
      ¬((s.cfg.sensors.get x).highOn = true ∧ (s.cfg.sensors.get x).high ≤ v) := fun ⟨hon, hle⟩ => by
    have := hhigh hon
    omega
  have hhighNotLow (hon : (s.cfg.sensors.get x).highOn = true) (h : (s.cfg.sensors.get x).high ≤ v) :
      ¬((s.cfg.sensors.get x).lowOn = true ∧ v ≤ (s.cfg.sensors.get x).low) := fun ⟨hlowOn, hle⟩ => by
    have := hapart hlowOn hon
    have := hlow hlowOn
    have := hhigh hon
    omega
  refine ⟨fun hk hon h => ?_, fun hk hon h => ?_, fun hk h h' => ?_, fun hk h => ?_, fun hk h h' => ?_,
    fun hk h hon h' => ?_, fun hk h => ?_, fun hk h h' => ?_, fun hk h hon h' => ?_⟩
  · rw [hcase hk rfl (cmpEnter_low hon h)]
    simp [toldIf]
  · rw [hcase hk rfl (cmpEnter_high (hhighNotLow hon h) hon h)]
    simp [toldIf]
  · rw [hcase hk rfl (cmpEnter_none h h')]
    simp [toldIf]
  · rw [hcase hk (cmpLeave_of_high_stays h) (cmpEnter_of_out nofun)]
    simp [toldIf]
  · rw [hcase hk (cmpLeave_of_high_leaves h) (cmpEnter_none h' (hnotHigh h))]
    simp [toldIf]
  · rw [hcase hk (cmpLeave_of_high_leaves h) (cmpEnter_low hon h')]
    exact ⟨rfl, rfl⟩
  · rw [hcase hk (cmpLeave_of_low_stays h) (cmpEnter_of_out nofun)]
    simp [toldIf]
  · rw [hcase hk (cmpLeave_of_low_leaves h) (cmpEnter_none (hnotLow h) h')]
    simp [toldIf]
  · rw [hcase hk (cmpLeave_of_low_leaves h) (cmpEnter_high (hnotLow h) hon h')]
    exact ⟨rfl, rfl⟩

end Sys2Proof.Proofs
end

