-- ==== Sys2Proof/Proofs/Calibration.lean ====
section
/-! SUPPORT. The excitation slots and the phase calibration (R40 to R44): the end of a slot, the end of a calibration,
and its request; and the statements about EXCITATION_SLOT, CALIBRATION_TIMEOUT and RECALIBRATE_POSITION. -/

namespace Sys2Proof.Proofs

open Sys2Proof Sys2Proof.Machine

/-! ## The end of a slot (R40, R42, R43) -/

theorem exec_excitationSlot {s : State} (h : s.mc.mode.sensingRuns = true) : exec .excitationSlot s = .next (endSlot s) :=
  congrArg Host.Outcome.next (if_pos h)

section
variable {s : State}

theorem recordSlot_of_idle (h : ¬(s.sfe.cal.state = .running ∧ s.sfe.cal.recording = true)) : recordSlot s = s :=
  if_neg h

theorem demodulateSlot_of_none (h : s.sfe.amplitude = none) : demodulateSlot s = s := by
  simp only [demodulateSlot, h]

theorem demodulateSlot_of_within {a : Int} {d : Nat} (ha : s.sfe.amplitude = some a) (hd : s.sfe.cal.offset = some d)
    (h : s.sfe.slot + 1 < s.cfg.pattern.length) : demodulateSlot s = s.withSfe { s.sfe with
      amplitude := some (a + s.sfe.slotValue *
        patternSign s.cfg.pattern (shifted s.cfg.pattern.length s.sfe.slot d)) } := by
  simp only [demodulateSlot, ha, hd, Nat.not_le.mpr h, if_false]

/-- The state in which the position of a full period is written. -/
def positionWritten (sum : Int) (s : State) : State := writeValue .hps (positionOf s.cfg sum) s

theorem demodulateSlot_of_end {a : Int} {d : Nat} (ha : s.sfe.amplitude = some a) (hd : s.sfe.cal.offset = some d)
    (h : s.cfg.pattern.length ≤ s.sfe.slot + 1) : demodulateSlot s =
      (positionWritten (a + s.sfe.slotValue *
          patternSign s.cfg.pattern (shifted s.cfg.pattern.length s.sfe.slot d)) s).withSfe
        { (positionWritten (a + s.sfe.slotValue *
            patternSign s.cfg.pattern (shifted s.cfg.pattern.length s.sfe.slot d)) s).sfe with
          posValid := true, amplitude := none } := by
  simp only [demodulateSlot, ha, hd, h, if_true]
  rfl

theorem positionWritten_sensor (sum : Int) (s : State) : (positionWritten sum s).sensor .hps =
    { s.sensor .hps with
      value := (clampRange .hps (Int.tdiv ((sum - s.cfg.aBottom) * 1000) (s.cfg.aTop - s.cfg.aBottom))).1
      atLimit := (clampRange .hps (Int.tdiv ((sum - s.cfg.aBottom) * 1000) (s.cfg.aTop - s.cfg.aBottom))).2 } :=
  withSensor_sensor_same _ _ _

end

/-- What the demodulation of a slot leaves: the calibration, the slot, and of HPS all but the position. -/
structure SlotKept (s t : State) : Prop where
  touches : Touches [.sfe] s t
  others : ∀ y : Sensor, y ≠ .hps → t.sensor y = s.sensor y
  hps : (t.sensor .hps).state = (s.sensor .hps).state
  cal : t.sfe.cal = s.sfe.cal
  slot : t.sfe.slot = s.sfe.slot

theorem slotKept_refl (s : State) : SlotKept s s := ⟨.refl _ _, fun _ _ => rfl, rfl, rfl, rfl⟩

theorem slotKept_demodulateSlot (s : State) : SlotKept s (demodulateSlot s) := by
  cases ha : s.sfe.amplitude with
  | none => rw [demodulateSlot_of_none ha]; exact slotKept_refl s
  | some a =>
    cases hd : s.sfe.cal.offset with
    | none =>
      have hkept : demodulateSlot s = s := by simp only [demodulateSlot, ha, hd]
      rw [hkept]
      exact slotKept_refl s
    | some d =>
      by_cases h : s.sfe.slot + 1 < s.cfg.pattern.length
      · rw [demodulateSlot_of_within ha hd h]
        exact ⟨touches_withSfe s _, fun _ _ => rfl, rfl, rfl, rfl⟩
      · rw [demodulateSlot_of_end ha hd (Nat.not_lt.mp h)]
        refine ⟨(touches_withSensor s .hps _).trans (touches_withSfe _ _), fun y hy => ?_, ?_, rfl, rfl⟩
        · exact (withSensor_sensor s .hps _ y).trans (if_neg hy)
        · have hstate := congrArg SensorRec.state (positionWritten_sensor (a + s.sfe.slotValue *
            patternSign s.cfg.pattern (shifted s.cfg.pattern.length s.sfe.slot d)) s)
          exact hstate

section
variable {s : State}

theorem nextSlot_of_within (h : s.sfe.slot + 1 < s.cfg.pattern.length) :
    nextSlot s = s.withSfe { s.sfe with slot := s.sfe.slot + 1 } := if_pos h

theorem nextSlot_of_end (h : s.cfg.pattern.length ≤ s.sfe.slot + 1) : nextSlot s = s.withSfe { s.sfe with
    slot := 0
    cal := { s.sfe.cal with
      recording := s.sfe.cal.state == .running && (s.sensor .hps).state == .valid, signs := [] }
    amplitude := if s.sfe.cal.state == .done && (s.sensor .hps).state == .valid then some 0 else none } :=
  if_neg (Nat.not_lt.mpr h)

theorem touches_nextSlot (s : State) : Touches [.sfe] s (nextSlot s) :=
  touches_ite _ (touches_withSfe _ _) (touches_withSfe _ _)

theorem nextSlot_sensor (s : State) (y : Sensor) : (nextSlot s).sensor y = s.sensor y := by
  unfold nextSlot
  split <;> rfl

theorem nextSlot_posValid (s : State) : (nextSlot s).sfe.posValid = s.sfe.posValid := by
  unfold nextSlot
  split <;> rfl

theorem nextSlot_slot (s : State) : (nextSlot s).sfe.slot =
    if s.sfe.slot + 1 < s.cfg.pattern.length then s.sfe.slot + 1 else 0 := by
  unfold nextSlot
  split <;> rfl

theorem nextSlot_cal (s : State) :
    (nextSlot s).sfe.cal.state = s.sfe.cal.state ∧ (nextSlot s).sfe.cal.offset = s.sfe.cal.offset := by
  unfold nextSlot
  split <;> exact ⟨rfl, rfl⟩

end

/-- Settles O21. -/
theorem positionDemodulated : Obligations.PositionDemodulated := by
  refine ⟨fun s => ⟨fun hruns => ⟨hruns, fun b hb => coilDrive_bit hruns hb⟩, fun hstopped =>
    ⟨hstopped, coilDrive_stopped hstopped, congrArg Host.Outcome.next (if_neg (hstopped ▸ Bool.false_ne_true))⟩⟩,
    fun s hruns hcal => ?_⟩
  have hkept := slotKept_demodulateSlot s
  have hrecord : recordSlot (demodulateSlot s) = demodulateSlot s :=
    recordSlot_of_idle fun k => hcal (hkept.cal ▸ k.1)
  have hcfg : (demodulateSlot s).cfg = s.cfg := hkept.touches .cfg (by decide)
  refine ⟨endSlot s, exec_excitationSlot hruns, ?_⟩
  rw [show endSlot s = nextSlot (recordSlot (demodulateSlot s)) from rfl, hrecord]
  refine ⟨hkept.touches.trans (touches_nextSlot _), fun y hy => (nextSlot_sensor _ y).trans (hkept.others y hy), ?_⟩
  rintro len rfl
  refine ⟨fun h => ?_, fun h => ?_, fun a d sum ha hd hsum => ⟨fun h => ?_, fun h p hp => ?_⟩, fun hnone => ?_⟩
  · rw [nextSlot_slot, hkept.slot, hcfg, if_pos h]
  · rw [nextSlot_of_end (by rw [hkept.slot, hcfg]; exact h), State.withSfe_sfe, hkept.cal, hkept.hps]
    exact ⟨rfl, by simp⟩
  · have hwithin : (demodulateSlot s).sfe.slot + 1 < (demodulateSlot s).cfg.pattern.length := by
      rw [hkept.slot, hcfg]
      exact h
    rw [nextSlot_of_within hwithin, demodulateSlot_of_within ha hd h, hsum]
    exact ⟨rfl, rfl, rfl⟩
  · rw [nextSlot_sensor, nextSlot_posValid, demodulateSlot_of_end ha hd h, hp, hsum]
    refine ⟨(positionWritten_sensor _ s).trans ?_, rfl⟩
    rw [clampRange_eq]
    rfl
  · rw [nextSlot_sensor, nextSlot_posValid, demodulateSlot_of_none hnone]
    exact ⟨rfl, rfl⟩

/-! ## The end of a calibration (R41, R42) -/

/-- A result of the LC depends on the queue it leaves. -/
theorem answered_of_queue {code tag : Byte} {r : ServiceResult} {why : ServiceReason} {s t u : State}
    (h : Answered code tag r why s t) (hlc : u.lc = t.lc) : Answered code tag r why s u := fun hmay hfew => by
  rw [Queued, hlc]
  exact h hmay hfew

theorem answered_of_mode (code tag : Byte) (r : ServiceResult) (why : ServiceReason) {s u : State} (hlc : u.lc = s.lc)
    (hmode : u.mc.mode = s.mc.mode) : Answered code tag r why s (serviceAnswer code tag r why u) := by
  refine answered_of_link (fun hmay => ?_) (by rw [hlc]) fun hfew => by rw [hlc]; exact hfew.trans (by decide)
  rw [State.mayMake, hlc, hmode]
  exact hmay

/-- The second result of a request that waits, and none where no request started the calibration. -/
theorem answerCal_of_tag {why : ServiceReason} {s : State} {tag : Byte} (h : s.sfe.cal.tag = some tag) :
    answerCal why s = serviceAnswer codeRecalibrate tag .done why (s.withCal { s.sfe.cal with tag := none }) := by
  simp only [answerCal, h]

theorem answerCal_of_none {why : ServiceReason} {s : State} (h : s.sfe.cal.tag = none) : answerCal why s = s := by
  simp only [answerCal, h]

theorem touches_answerCal (why : ServiceReason) (s : State) : Touches [.sfe, .lc] s (answerCal why s) := by
  cases h : s.sfe.cal.tag with
  | none => rw [answerCal_of_none h]; exact .refl _ _
  | some tag =>
    rw [answerCal_of_tag h]
    exact (touches_withSfe s _).then (touches_serviceAnswer _ _ _ _ _)

theorem answerCal_cal (why : ServiceReason) (s : State) : (answerCal why s).sfe.cal.state = s.sfe.cal.state ∧
    (answerCal why s).sfe.cal.offset = s.sfe.cal.offset := by
  cases h : s.sfe.cal.tag with
  | none => rw [answerCal_of_none h]; exact ⟨rfl, rfl⟩
  | some tag =>
    have hsfe : (answerCal why s).sfe = { s.sfe with cal := { s.sfe.cal with tag := none } } := by
      rw [answerCal_of_tag h]
      exact touches_serviceAnswer _ _ _ _ _ .sfe (by decide)
    rw [hsfe]
    exact ⟨rfl, rfl⟩

/-- What an end of a calibration leaves: its state and offset, the table by one fault operation, and the answer. -/
structure CalEnds (end_ : CalState) (offset : Option Nat) (mc : Mc) (why : ServiceReason) (s t : State) : Prop where
  state : t.sfe.cal.state = end_
  offset : t.sfe.cal.offset = offset
  mc : t.mc = mc
  silent : s.sfe.cal.tag = none → t.lc = s.lc
  answered : ∀ tag : Byte, s.sfe.cal.tag = some tag → Answered 3 tag .done why s t
  touches : Touches [.sfe, .lc, .mc] s t

/-- The answer closes an end whose state and fault stand. -/
theorem calEnds_answerCal {s u : State} {end_ : CalState} {offset : Option Nat} {mc : Mc} (why : ServiceReason)
    (hcal : u.sfe.cal.state = end_ ∧ u.sfe.cal.offset = offset) (htag : u.sfe.cal.tag = s.sfe.cal.tag)
    (hmc : u.mc = mc) (hmode : mc.mode = s.mc.mode) (hu : Touches [.sfe, .mc] s u) :
    CalEnds end_ offset mc why s (answerCal why u) := by
  have hlc : u.lc = s.lc := hu .lc (by decide)
  obtain ⟨hstate, hoffset⟩ := answerCal_cal why u
  refine ⟨hstate.trans hcal.1, hoffset.trans hcal.2, ?_, fun h => ?_, fun tag h => ?_,
    (hu.mono (by decide)).trans ((touches_answerCal why u).mono (by decide))⟩
  · exact Eq.trans (touches_answerCal why u .mc (by decide)) hmc
  · rw [answerCal_of_none (htag.trans h)]
    exact hlc
  · rw [answerCal_of_tag (htag.trans h)]
    exact answered_of_mode _ _ _ _ hlc (hmc ▸ hmode)

theorem calEnds_calDone (d : Nat) (s : State) :
    CalEnds .done (some d) (clearFault .hpsCalFailed s).mc .none s (calDone d s) :=
  calEnds_answerCal .none ⟨rfl, rfl⟩ rfl (clearFault_mc_congr _ rfl) rfl
    ((touches_withSfe s _).then (touches_clearFault _ _))

theorem calEnds_calFailed (s : State) :
    CalEnds .failed none (raise .hpsCalFailed s).mc .calFailed s (calFailed s) :=
  calEnds_answerCal .calFailed ⟨rfl, rfl⟩ rfl (raise_mc_congr _ rfl) rfl
    ((touches_withSfe s _).then (touches_raise _ _))

/-- The next slot keeps what the end of a calibration left. -/
theorem calEnds_nextSlot {s t : State} {end_ : CalState} {offset : Option Nat} {mc : Mc} {why : ServiceReason}
    (h : CalEnds end_ offset mc why s t) : CalEnds end_ offset mc why s (nextSlot t) := by
  obtain ⟨hstate, hoffset⟩ := nextSlot_cal t
  have hlc : (nextSlot t).lc = t.lc := touches_nextSlot t .lc (by decide)
  exact ⟨hstate.trans h.state, hoffset.trans h.offset, Eq.trans (touches_nextSlot t .mc (by decide)) h.mc,
    fun k => hlc.trans (h.silent k), fun tag k => answered_of_queue (h.answered tag k) hlc,
    h.touches.trans ((touches_nextSlot t).mono (by decide))⟩

/-! ## A recorded slot (R42) -/

/-- The state with the sign of the slot that ends recorded. -/
def signRecorded (s : State) : State :=
  s.withCal { s.sfe.cal with signs := s.sfe.cal.signs ++ [decide (0 ≤ s.sfe.slotValue)] }

section
variable {s : State} (hrunning : s.sfe.cal.state = .running) (hrecording : s.sfe.cal.recording = true)
include hrunning hrecording

theorem recordSlot_of_within (h : s.sfe.slot + 1 < s.cfg.pattern.length) : recordSlot s = signRecorded s :=
  (if_pos ⟨hrunning, hrecording⟩).trans (if_neg (Nat.not_le.mpr h))

theorem recordSlot_of_found {d : Nat} (h : s.cfg.pattern.length ≤ s.sfe.slot + 1)
    (hd : findOffset s.cfg.pattern (s.sfe.cal.signs ++ [decide (0 ≤ s.sfe.slotValue)]) = some d) :
    recordSlot s = calDone d s := by
  simp only [recordSlot, hrunning, hrecording, true_and, if_true, h, hd]

theorem recordSlot_of_missed (h : s.cfg.pattern.length ≤ s.sfe.slot + 1)
    (hd : findOffset s.cfg.pattern (s.sfe.cal.signs ++ [decide (0 ≤ s.sfe.slotValue)]) = none) :
    recordSlot s = calFailed s := by
  simp only [recordSlot, hrunning, hrecording, true_and, if_true, h, hd]

end

theorem findOffset_of_least {p signs : List Bool} {d : Nat} (hd : d < p.length)
    (h : p.length ≤ matchCount p signs d + 2) (hleast : ∀ e : Nat, e < d → matchCount p signs e + 2 < p.length) :
    findOffset p signs = some d :=
  List.find?_range_eq_some.mpr ⟨decide_eq_true h, List.mem_range.mpr hd, fun e he => by simpa using hleast e he⟩

theorem findOffset_of_none {p signs : List Bool} (h : ∀ e : Nat, e < p.length → matchCount p signs e + 2 < p.length) :
    findOffset p signs = none :=
  List.find?_range_eq_none.mpr fun e he => by simpa using h e he

theorem exec_calibrationTimeout {s : State} (hruns : s.mc.mode.sensingRuns = true) (hrunning : s.sfe.cal.state = .running)
    (h : 200000 ≤ (s.now - s.sfe.cal.start).toNat) : exec .calibrationTimeout s = .next (calFailed s) := by
  refine next_of_due hruns ?_
  rw [calOver, hrunning, Bool.and_eq_true, decide_eq_true_eq]
  exact ⟨rfl, h⟩

/-- Settles O22. -/
theorem calibrationEnds : Obligations.CalibrationEnds := by
  intro s hruns hrunning hnone
  have hend : endSlot s = nextSlot (recordSlot s) := by
    rw [show endSlot s = nextSlot (recordSlot (demodulateSlot s)) from rfl, demodulateSlot_of_none hnone]
  refine ⟨fun hidle => ?waiting, ?recording, fun htimeout => ?timeout⟩
  case waiting =>
    have hrecord : recordSlot s = s := recordSlot_of_idle fun k => absurd k.2 (hidle ▸ Bool.false_ne_true)
    refine ⟨_, exec_excitationSlot hruns, ?_⟩
    rw [hend, hrecord]
    refine ⟨touches_nextSlot s, fun h => by rw [nextSlot_of_within h]; rfl, fun h => ?_⟩
    rw [nextSlot_of_end h, State.withSfe_sfe, hrunning]
    simp [hnone, beq_eq_decide]
  case recording =>
    rintro hrecording len signs rfl rfl
    refine ⟨_, exec_excitationSlot hruns, ?_⟩
    rw [hend]
    by_cases hwithin : s.sfe.slot + 1 < s.cfg.pattern.length
    · rw [recordSlot_of_within hrunning hrecording hwithin, nextSlot_of_within (s := signRecorded s) hwithin]
      exact ⟨((touches_withSfe s _).trans (touches_withSfe _ _)).mono (by decide), fun _ => rfl, fun _ => ⟨rfl, rfl, rfl⟩,
        fun h => absurd hwithin (Nat.not_lt.mpr h)⟩
    · have hfull := Nat.not_lt.mp hwithin
      cases hfound : findOffset s.cfg.pattern (s.sfe.cal.signs ++ [decide (0 ≤ s.sfe.slotValue)]) with
      | some d =>
        rw [recordSlot_of_found hrunning hrecording hfull hfound]
        have hdone := calEnds_nextSlot (calEnds_calDone d s)
        refine ⟨hdone.touches, hdone.silent, fun h => absurd h hwithin, fun _ => ⟨fun e he hmatch hleast => ?_, fun hno => ?_⟩⟩
        · obtain rfl : e = d := Option.some.inj ((findOffset_of_least he hmatch hleast).symm.trans hfound)
          exact ⟨hdone.state, hdone.offset, hdone.mc, hdone.answered⟩
        · exact absurd (hfound.symm.trans (findOffset_of_none hno)) nofun
      | none =>
        rw [recordSlot_of_missed hrunning hrecording hfull hfound]
        have hfailed := calEnds_nextSlot (calEnds_calFailed s)
        refine ⟨hfailed.touches, hfailed.silent, fun h => absurd h hwithin, fun _ => ⟨fun e he hmatch hleast => ?_, fun _ =>
          ⟨hfailed.state, hfailed.offset, hfailed.mc, hfailed.answered⟩⟩⟩
        exact absurd (hfound.symm.trans (findOffset_of_least he hmatch hleast)) nofun
  case timeout =>
    have hfailed := calEnds_calFailed s
    exact ⟨_, exec_calibrationTimeout hruns hrunning htimeout, hfailed.state, hfailed.offset, hfailed.mc, hfailed.silent,
      hfailed.answered, hfailed.touches⟩

/-! ## The request of a calibration (R41, R44) -/

theorem exec_recalibratePosition {tag : Byte} {rest : List Request} {s : State}
    (h : OldestRequest (Request.isService 3) (.service 3 tag) rest s) :
    exec .recalibratePosition s = .next (recalibrate tag (s.withRequests rest)) := by
  change execRecalibratePosition s = _
  unfold execRecalibratePosition
  rw [show Request.isService codeRecalibrate = Request.isService 3 from rfl, takeRequest_oldest h]

theorem touches_dropPosition (s : State) : Touches [.sfe] s (dropPosition s) := touches_withSfe s _

theorem requestCalibration_of_working {tag : Option Byte} {s : State} (h : (s.sensor .hps).state ≠ .off) :
    requestCalibration tag s = (dropPosition s).withCal
      { state := .running, offset := none, start := s.now, signs := [], recording := false, tag := tag } :=
  if_neg h

/-- The state with the position dropped and the request's tag noted. -/
def calibrationAsked (tag : Option Byte) (s : State) : State :=
  (dropPosition s).withCal { (dropPosition s).sfe.cal with tag := tag }

theorem requestCalibration_of_off {tag : Option Byte} {s : State} (h : (s.sensor .hps).state = .off) :
    requestCalibration tag s = calFailed (calibrationAsked tag s) := if_pos h

section
variable {tag : Byte} {s : State}

theorem recalibrate_of_taken (hmode : s.mc.mode = .operating) (hstill : s.parkedStill = true)
    (hcal : s.sfe.cal.state ≠ .running) : recalibrate tag s =
      requestCalibration (some tag) (serviceAnswer codeRecalibrate tag .accepted .none s) :=
  (if_neg fun k => k hmode).trans ((if_pos hstill).trans (if_neg hcal))

theorem recalibrate_of_running (hmode : s.mc.mode = .operating) (hstill : s.parkedStill = true)
    (hcal : s.sfe.cal.state = .running) :
    recalibrate tag s = serviceAnswer codeRecalibrate tag .refused .busy s :=
  (if_neg fun k => k hmode).trans ((if_pos hstill).trans (if_pos hcal))

theorem recalibrate_of_moving (hmode : s.mc.mode = .operating) (hstill : s.parkedStill ≠ true) :
    recalibrate tag s = serviceAnswer codeRecalibrate tag .refused .notParked s :=
  (if_neg fun k => k hmode).trans (if_neg hstill)

theorem recalibrate_of_busy (hmode : s.mc.mode ≠ .operating) :
    recalibrate tag s = serviceAnswer codeRecalibrate tag .refused .busy s := if_pos hmode
end

theorem touches_requestCalibration (tag : Option Byte) (s : State) :
    Touches [.sfe, .lc, .mc] s (requestCalibration tag s) := by
  by_cases h : (s.sensor .hps).state = .off
  · rw [requestCalibration_of_off h]
    exact (((touches_dropPosition s).trans (touches_withSfe _ _)).mono (by decide)).trans (calEnds_calFailed _).touches
  · rw [requestCalibration_of_working h]
    exact ((touches_dropPosition s).trans (touches_withSfe _ _)).mono (by decide)

/-- The request leaves the list in each of its cases. -/
theorem recalibrate_requests (tag : Byte) (s : State) : (recalibrate tag s).requests = s.requests := by
  by_cases hmode : s.mc.mode = .operating
  · by_cases hstill : s.parkedStill = true
    · by_cases hcal : s.sfe.cal.state = .running
      · rw [recalibrate_of_running hmode hstill hcal, serviceAnswer_requests]
      · rw [recalibrate_of_taken hmode hstill hcal]
        exact Eq.trans (touches_requestCalibration _ _ .requests (by decide)) (serviceAnswer_requests ..)
    · rw [recalibrate_of_moving hmode hstill, serviceAnswer_requests]
  · rw [recalibrate_of_busy hmode, serviceAnswer_requests]

/-- Settles O23. -/
theorem recalibrationTaken : Obligations.RecalibrationTaken := by
  intro tag rest s hold
  have hanswer (r : ServiceResult) (why : ServiceReason) :
      Answered 3 tag r why s (serviceAnswer codeRecalibrate tag r why (s.withRequests rest)) ∧
      Touches [.lc, .requests] s (serviceAnswer codeRecalibrate tag r why (s.withRequests rest)) :=
    ⟨answered_serviceAnswer _ _ _ _ rfl rfl, touches_answer_of_taken _ _ _ _ s rest⟩
  refine ⟨_, exec_recalibratePosition hold, recalibrate_requests tag _, fun hmode hparked hstill hcal hhps => ?_,
    fun hmode hparked hstill hcal hhps => ?_, fun hmode hparked hstill hcal => ?_, fun hmode hno => ?_, fun hmode => ?_⟩
  · rw [recalibrate_of_taken (s := s.withRequests rest) hmode ((parkedStill_iff s).mpr ⟨hparked, hstill⟩) hcal]
    obtain ⟨hanswered, htouch⟩ := hanswer .accepted .none
    have hsensor : (serviceAnswer codeRecalibrate tag .accepted .none (s.withRequests rest)).sfe = s.sfe :=
      htouch .sfe (by decide)
    have hnow : (serviceAnswer codeRecalibrate tag .accepted .none (s.withRequests rest)).now = s.now :=
      htouch .now (by decide)
    generalize serviceAnswer codeRecalibrate tag .accepted .none (s.withRequests rest) = u at *
    have hworks : (u.sensor .hps).state ≠ .off := by rwa [State.sensor, hsensor]
    rw [requestCalibration_of_working hworks, hnow]
    exact ⟨rfl, rfl, rfl, answered_of_queue hanswered rfl, (htouch.mono (by decide)).trans
      (((touches_dropPosition u).trans (touches_withSfe _ _)).mono (by decide))⟩
  · rw [recalibrate_of_taken (s := s.withRequests rest) hmode ((parkedStill_iff s).mpr ⟨hparked, hstill⟩) hcal]
    obtain ⟨-, htouch⟩ := hanswer .accepted .none
    have hsensor : (serviceAnswer codeRecalibrate tag .accepted .none (s.withRequests rest)).sfe = s.sfe :=
      htouch .sfe (by decide)
    have hmc : (serviceAnswer codeRecalibrate tag .accepted .none (s.withRequests rest)).mc = s.mc :=
      htouch .mc (by decide)
    generalize serviceAnswer codeRecalibrate tag .accepted .none (s.withRequests rest) = u at *
    have hoff : (u.sensor .hps).state = .off := by rwa [State.sensor, hsensor]
    have hfailed := calEnds_calFailed (calibrationAsked (some tag) u)
    refine ⟨?_, ?_, ?_, ?_⟩
    · rw [requestCalibration_of_off hoff]; exact hfailed.state
    · rw [requestCalibration_of_off hoff]; exact hfailed.offset
    · rw [requestCalibration_of_off hoff]; exact hfailed.mc.trans (raise_mc_congr _ hmc)
    · exact (htouch.mono (by decide)).trans ((touches_requestCalibration _ _).mono (by decide))
  · rw [recalibrate_of_running (s := s.withRequests rest) hmode ((parkedStill_iff s).mpr ⟨hparked, hstill⟩) hcal]
    exact hanswer _ _
  · rw [recalibrate_of_moving (s := s.withRequests rest) hmode fun k => hno ((parkedStill_iff s).mp k)]
    exact hanswer _ _
  · rw [recalibrate_of_busy (s := s.withRequests rest) hmode]
    exact hanswer _ _

end Sys2Proof.Proofs
end

