-- ==== Sys2Proof/Proofs/StreamWatchdog.lean ====
section
/-! SUPPORT. The bits of a channel and its watchdog (R27, R28, R31, R32), and the statement about them. -/

namespace Sys2Proof.Proofs

open Sys2Proof Sys2Proof.Machine

/-! ## One bit at a channel (R28, R31, R32) -/

section
variable {main : Bool} {c : SensorCfg} {b : Bool} {r : SensorRec}

theorem nextRun_of_same {run : Nat} : nextRun (some b) b run = min 64 (run + 1) := if_pos rfl

theorem nextRun_of_change {last : Option Bool} {run : Nat} (h : last ≠ some b) : nextRun last b run = 0 := by
  cases last with
  | none => rfl
  | some d => exact if_neg fun k => h (congrArg some k)

/-- In every state but OFF the bit goes to the counts; value and comparator stay. -/
theorem takeBit_counts (h : r.state ≠ .off) :
    (r.takeBit main c b).lastBit = some b ∧ (r.takeBit main c b).runCount = nextRun r.lastBit b r.runCount ∧
    (r.takeBit main c b).state = r.state ∧ (r.takeBit main c b).value = r.value ∧
    (r.takeBit main c b).cmp = r.cmp := by
  unfold SensorRec.takeBit
  dsimp only
  split
  case h_1 hoff => exact absurd hoff h
  all_goals exact ⟨rfl, rfl, rfl, rfl, rfl⟩

theorem takeBit_of_failed (h : r.state = .failed) : r.takeBit main c b = { r with
    lastBit := some b, runCount := nextRun r.lastBit b r.runCount
    recCount := if nextRun r.lastBit b r.runCount < 64 then min 1000 (r.recCount + 1) else 0 } := by
  simp only [SensorRec.takeBit, h]
  rfl

theorem takeBit_of_filtering (h : r.state = .starting ∨ r.state = .valid) : r.takeBit main c b = { r with
    lastBit := some b, runCount := nextRun r.lastBit b r.runCount
    main := if main then (r.main.take c.mainOsr b).1 else r.main
    mainDone := if main then keepLast r.mainDone (r.main.take c.mainOsr b).2 else r.mainDone
    fast := (r.fast.take c.fastOsr b).1, fastDone := keepLast r.fastDone (r.fast.take c.fastOsr b).2 } := by
  obtain h | h := h <;> simp only [SensorRec.takeBit, h]

theorem keepLast_eq (old new : Option Int) : keepLast old new = if new = none then old else new := by
  cases new <;> rfl
end

theorem clockTick_sensor {s : State} (h : s.mc.mode.sensingRuns = true) (x : Sensor) : (clockTick s).sensor x =
    (s.sensor x).takeBit (x != .hps) (s.cfg.sensors.get x) (Config.moduleBit (Sensor.number x) s.clock) := by
  have hdriven : s.clockDriven = true := h
  rw [State.sensor, clockTick_sfe, clockSensors, if_pos hdriven, State.withSfe_sfe]
  exact SensorTable.get_map _ _ _

theorem step_of_empty {s : State} (h : s.pending = []) : step s = .next (clockTick s) := by
  unfold step
  rw [h]

/-! ## STREAM_FAILED and STREAM_RECOVERY (R31 to R33) -/

theorem exec_streamFailed {x : Sensor} {s : State} (hruns : s.mc.mode.sensingRuns = true)
    (hstate : (s.sensor x).state = .starting ∨ (s.sensor x).state = .valid) (h : 64 ≤ (s.sensor x).runCount) :
    exec (.streamFailed x) s = .next (failStream x s) := by
  refine next_of_due hruns ?_
  rw [streamStuck, Bool.and_eq_true, Bool.or_eq_true, decide_eq_true_eq, beq_iff_eq, beq_iff_eq]
  exact ⟨hstate, h⟩

/-- The channel is FAILED, and the one with the position of HPS gone. -/
def channelFailed (x : Sensor) (s : State) : State :=
  s.withSensor x { s.sensor x with state := .failed, cmp := .inRange, recCount := 0 }
def failureSettled (x : Sensor) (s : State) : State :=
  if x = .hps then hpsLeavesValid (channelFailed x s) else channelFailed x s

theorem failStream_eq (x : Sensor) (s : State) :
    failStream x s = deliver x .failed 0 (raise (.stream x) (failureSettled x s)) := rfl

theorem touches_hpsLeavesValid (s : State) : Touches [.sfe] s (hpsLeavesValid s) :=
  (touches_dropPosition s).trans (touches_withSfe _ _)

theorem touches_failureSettled (x : Sensor) (s : State) : Touches [.sfe] s (failureSettled x s) :=
  touches_ite _ ((touches_withSensor s x _).trans (touches_hpsLeavesValid _)) (touches_withSensor s x _)

theorem failureSettled_chans (x : Sensor) (s : State) :
    (failureSettled x s).sfe.chans = (channelFailed x s).sfe.chans := by
  unfold failureSettled
  split <;> rfl

theorem failStream_sensor (x y : Sensor) (s : State) : (failStream x s).sensor y =
    if y = x then { s.sensor x with state := .failed, cmp := .inRange, recCount := 0 } else s.sensor y := by
  have hchans : (failStream x s).sfe.chans = (channelFailed x s).sfe.chans := failureSettled_chans x s
  rw [State.sensor, hchans]
  exact withSensor_sensor s x _ y

theorem touches_failStream (x : Sensor) (s : State) : Touches [.sfe, .mc, .events] s (failStream x s) :=
  also (also ((touches_failureSettled x s).mono (by decide)) (touches_raise _ _)) (touches_deliver _ _ _ _)

theorem exec_streamRecovery {x : Sensor} {s : State} (hruns : s.mc.mode.sensingRuns = true)
    (hstate : (s.sensor x).state = .failed) (h : 1000 ≤ (s.sensor x).recCount) :
    exec (.streamRecovery x) s = .next (restartStream x s) := by
  refine next_of_due hruns ?_
  rw [streamHealthy, hstate, Bool.and_eq_true, decide_eq_true_eq]
  exact ⟨rfl, h⟩

theorem touches_restartStream (x : Sensor) (s : State) : Touches [.sfe, .mc, .events] s (restartStream x s) :=
  also (also ((touches_withSensor s x _).mono (by decide)) (touches_clearFault _ _)) (touches_deliver _ _ _ _)

theorem restartStream_sensor (x y : Sensor) (s : State) : (restartStream x s).sensor y =
    if y = x then (s.sensor x).restart (s.cfg.sensors.get x) else s.sensor y :=
  withSensor_sensor s x _ y

/-- Settles O18. -/
theorem streamWatchdog : Obligations.StreamWatchdog := by
  intro x s hruns
  refine ⟨fun hempty hoff => ⟨_, step_of_empty hempty, ?bit⟩, fun hstate hstuck => ?failed,
    fun hstate hhealthy => ?recovered⟩
  case bit =>
    rintro b rfl
    rw [clockTick_sensor hruns x]
    obtain ⟨hlast, hrun, hstate, hvalue, hcmp⟩ := takeBit_counts (main := x != .hps) (c := s.cfg.sensors.get x)
      (b := Config.moduleBit (Sensor.number x) s.clock) hoff
    generalize Config.moduleBit (Sensor.number x) s.clock = b at *
    refine ⟨hlast, hstate, hvalue, hcmp, fun h => ?_, fun h => ?_, fun hfailed => ?_, fun hfilters => ?_⟩
    · rw [hrun, h, nextRun_of_same]
    · rw [hrun, nextRun_of_change h]
    · rw [takeBit_of_failed hfailed]
      exact ⟨rfl, rfl, rfl, rfl, rfl⟩
    · rw [takeBit_of_filtering hfilters]
      refine ⟨rfl, ⟨_, Laws.sinc_take _ _ _, keepLast_eq _ _⟩, fun hmain => ?_, fun hhps => ?_⟩
      · have hx : (x != .hps) = true := bne_iff_ne.mpr hmain
        rw [hx]
        exact ⟨_, Laws.sinc_take _ _ _, keepLast_eq _ _⟩
      · subst hhps
        exact ⟨rfl, rfl⟩
  case failed =>
    have hmc : (failureSettled x s).mc = s.mc := touches_failureSettled x s .mc (by decide)
    have hevents : (failureSettled x s).events = s.events := touches_failureSettled x s .events (by decide)
    refine ⟨_, exec_streamFailed hruns hstate hstuck, ?_, ?_, ?_, fun y hy => ?_, fun hhps => ?_, touches_failStream x s⟩
    · rw [failStream_sensor, if_pos rfl]
    · exact raise_mc_congr _ hmc
    · rw [failStream_eq, deliver_events]
      have hmode : (failureSettled x s).mc.mode = s.mc.mode := by rw [hmc]
      exact congrArg₂ (· ++ ·) hevents (told_congr hmode)
    · rw [failStream_sensor, if_neg hy]
    · subst hhps
      exact ⟨rfl, rfl, rfl⟩
  case recovered =>
    refine ⟨_, exec_streamRecovery hruns hstate hhealthy, ?_⟩
    rw [restartStream_sensor, if_pos rfl]
    exact ⟨rfl, rfl, rfl, rfl, rfl, rfl, rfl, clearFault_mc_congr _ rfl, rfl,
      fun y hy => (restartStream_sensor x y s).trans (if_neg hy), touches_restartStream x s⟩

end Sys2Proof.Proofs
end

