-- ==== Sys2Proof/Proofs/SpeedEvaluation.lean ====
section
/-! SUPPORT. One evaluation of the pulse channels (R4 to R9): what each of its three passes does to one channel and to
the fault table, and what the evaluation leaves of a channel. -/

namespace Sys2Proof.Proofs

open Sys2Proof Sys2Proof.Machine

/-! ## One turn of a pass -/

/-- From `s` to `t` one channel has had its turn: no other channel's record, and nothing else of the SCU, changed. -/
structure ChannelTurn (c : PulseChannel) (s t : State) : Prop where
  others : ∀ d : PulseChannel, d ≠ c → t.chan d = s.chan d
  scu : t.scu = { s.scu with chans := t.scu.chans }
  touches : Touches [.scu, .mc] s t

/-- The speeds and the motion of every channel, and all that a check reads beside the channels, are as before. -/
structure SpeedsKept (s t : State) : Prop where
  travel : ∀ c : PulseChannel, (t.chan c).travel = (s.chan c).travel
  shaft : ∀ c : PulseChannel, (t.chan c).shaft = (s.chan c).shaft
  motion : ∀ c : PulseChannel, (t.chan c).motion = (s.chan c).motion
  scu : t.scu = { s.scu with chans := t.scu.chans }
  touches : Touches [.scu, .mc] s t

theorem speedsKept_refl (s : State) : SpeedsKept s s := ⟨fun _ => rfl, fun _ => rfl, fun _ => rfl, rfl, .refl _ _⟩

theorem speedsKept_trans {s t u : State} (h : SpeedsKept s t) (k : SpeedsKept t u) : SpeedsKept s u where
  travel c := (k.travel c).trans (h.travel c)
  shaft c := (k.shaft c).trans (h.shaft c)
  motion c := (k.motion c).trans (h.motion c)
  scu := by rw [k.scu, h.scu]
  touches := h.touches.trans k.touches

/-- A turn that leaves the speeds of its channel leaves all speeds. -/
theorem speedsKept_of_turn {c : PulseChannel} {s t : State} (h : ChannelTurn c s t)
    (hc : (t.chan c).travel = (s.chan c).travel ∧ (t.chan c).shaft = (s.chan c).shaft ∧
      (t.chan c).motion = (s.chan c).motion) : SpeedsKept s t := by
  obtain ⟨htravel, hshaft, hmotion⟩ := hc
  refine ⟨fun d => ?_, fun d => ?_, fun d => ?_, h.scu, h.touches⟩ <;>
    rcases eq_or_ne d c with rfl | hd
  · exact htravel
  · rw [h.others d hd]
  · exact hshaft
  · rw [h.others d hd]
  · exact hmotion
  · rw [h.others d hd]

/-- A pass over channels whose turns do not reach another channel's record leaves on each what its own turn leaves,
where a turn's outcome is the same in every state that the turns before it can leave. -/
theorem chan_foldl {f : State → PulseChannel → State} {g : State → PulseChannel → PulseRec} {R : State → State → Prop}
    (hrefl : ∀ s, R s s) (htrans : ∀ {s t u}, R s t → R t u → R s u) (hkeeps : ∀ s c, R s (f s c))
    (hself : ∀ s c, (f s c).chan c = g s c) (hothers : ∀ s c d, d ≠ c → (f s c).chan d = s.chan d)
    (hstable : ∀ s t c, R s t → t.chan c = s.chan c → g t c = g s c) :
    ∀ (l : List PulseChannel), l.Nodup → ∀ s : State, R s (l.foldl f s) ∧
      ∀ c, (l.foldl f s).chan c = if c ∈ l then g s c else s.chan c := by
  intro l
  induction l with
  | nil => exact fun _ s => ⟨hrefl s, fun c => rfl⟩
  | cons d l ih =>
    intro hl s
    obtain ⟨hd, hl⟩ := List.nodup_cons.mp hl
    obtain ⟨hrest, hchan⟩ := ih hl (f s d)
    refine ⟨htrans (hkeeps s d) hrest, fun c => ?_⟩
    rw [List.foldl_cons, hchan]
    rcases eq_or_ne c d with rfl | hc
    · rw [if_neg hd, if_pos List.mem_cons_self, hself]
    · simp only [List.mem_cons, hc, false_or, hothers s d c hc]
      split
      · exact hstable s (f s d) c (hkeeps s d) (hothers s d c hc)
      · rfl

theorem mem_allChannels (c : PulseChannel) : c ∈ PulseChannel.all := by cases c <;> decide

/-! ## The speeds (R5, R6) -/

/-- What the evaluation of its speeds leaves of a channel. -/
def speedsOf (s : State) (c : PulseChannel) : PulseRec :=
  if s.fitted c = true then (s.chan c).evaluate c (s.cfg.pulse.get c) s.now
  else { s.chan c with travel := 0, shaft := 0, motion := .stopped }

/-- The state after the first pass. -/
def speedsEvaluated (s : State) : State := PulseChannel.all.foldl evaluateChannel s

/-- The SCU's record but for its channels, and every other part, is as before. -/
structure ChannelsWritten (s t : State) : Prop where
  scu : t.scu = { s.scu with chans := t.scu.chans }
  touches : Touches [.scu] s t

theorem speedsEvaluated_spec (s : State) : ChannelsWritten s (speedsEvaluated s) ∧
    ∀ c : PulseChannel, (speedsEvaluated s).chan c = speedsOf s c := by
  have h := chan_foldl (f := evaluateChannel) (g := speedsOf) (R := ChannelsWritten)
    (fun s => ⟨rfl, .refl _ _⟩)
    (fun h k => ⟨by rw [k.scu, h.scu], h.touches.trans k.touches⟩)
    (fun s c => ⟨rfl, touches_withChan s c _⟩) (fun s c => chan_withChan_same s c _)
    (fun s c d hd => chan_withChan_ne s _ hd) (fun s t c h hc => ?_) PulseChannel.all (by decide) s
  · exact ⟨h.1, fun c => (h.2 c).trans (if_pos (mem_allChannels c))⟩
  · have hcfg : t.cfg = s.cfg := h.touches .cfg (by decide)
    have hnow : t.now = s.now := h.touches .now (by decide)
    have hfitted : t.fitted c = s.fitted c := by cases c <;> simp only [State.fitted, hcfg]
    rw [speedsOf, speedsOf, hfitted, hc, hcfg, hnow]

/-! ## The checks for loss (R7, R8) -/

/-- What a check for loss leaves of a fitted channel that is not LOST. -/
def lossCounted (c : PulseChannel) (evidence : Bool) (r : PulseRec) : PulseRec :=
  if evidence then
    if lossLimit c ≤ r.lossTimer + 1 then { r with lost := true, lossTimer := 0, recTimer := 0 }
    else { r with lossTimer := r.lossTimer + 1 }
  else { r with lossTimer := 0 }

/-- What a check for loss leaves of a channel. -/
def lossOf (s : State) (c : PulseChannel) : PulseRec :=
  if s.fitted c = true ∧ (s.chan c).lost = false then lossCounted c (lossCheck s c) (s.chan c) else s.chan c

theorem lossLimit_pos (c : PulseChannel) : 0 < lossLimit c := by cases c <;> decide

theorem lossDue_iff (c : PulseChannel) (s : State) : lossDue c s = true ↔
    s.fitted c = true ∧ (s.chan c).lost = false ∧ lossLimit c ≤ (s.chan c).lossTimer := by
  simp [lossDue, and_assoc]

/-- The state with the loss timer of a channel written. -/
def lossTimed (s : State) (c : PulseChannel) (n : Nat) : State := s.withChan c { s.chan c with lossTimer := n }

theorem lossTimed_chan (s : State) (c : PulseChannel) (n : Nat) :
    (lossTimed s c n).chan c = { s.chan c with lossTimer := n } := chan_withChan_same _ _ _

theorem lossDue_lossTimed {s : State} {c : PulseChannel} {n : Nat} (hfit : s.fitted c = true)
    (hlost : (s.chan c).lost = false) : lossDue c (lossTimed s c n) = true ↔ lossLimit c ≤ n := by
  have hfitted : (lossTimed s c n).fitted c = s.fitted c := by cases c <;> rfl
  rw [lossDue_iff, hfitted, lossTimed_chan]
  exact ⟨fun h => h.2.2, fun h => ⟨hfit, hlost, h⟩⟩

theorem checkLoss_of_checked {s : State} {c : PulseChannel} (hfit : s.fitted c = true) (hlost : (s.chan c).lost = false) :
    checkLoss s c =
      if lossDue c (lossTimed s c (if lossCheck s c = true then (s.chan c).lossTimer + 1 else 0)) = true
      then loseChannel c (lossTimed s c (if lossCheck s c = true then (s.chan c).lossTimer + 1 else 0))
      else lossTimed s c (if lossCheck s c = true then (s.chan c).lossTimer + 1 else 0) :=
  if_pos (by simp [hfit, hlost])

theorem checkLoss_of_passed {s : State} {c : PulseChannel} (h : ¬(s.fitted c = true ∧ (s.chan c).lost = false)) :
    checkLoss s c = s := if_neg (by simpa using h)

/-- How a turn of a check leaves its channel's lost flag and the fault table together (R8, R9). -/
structure TableTurn (c : PulseChannel) (s t : State) : Prop where
  same : (t.chan c).lost = (s.chan c).lost → t.mc = s.mc
  lost : (s.chan c).lost = false → (t.chan c).lost = true → t.mc = (raise (.lost c) s).mc
  found : (s.chan c).lost = true → (t.chan c).lost = false → t.mc = (clearFault (.lost c) s).mc

theorem tableTurn_of_mc {c : PulseChannel} {s t : State} (hlost : (t.chan c).lost = (s.chan c).lost) (hmc : t.mc = s.mc) :
    TableTurn c s t where
  same _ := hmc
  lost h k := by rw [hlost, h] at k; exact absurd k Bool.false_ne_true
  found h k := by rw [hlost, h] at k; exact absurd k.symm Bool.false_ne_true

theorem channelTurn_withChan (s : State) (c : PulseChannel) (r : PulseRec) : ChannelTurn c s (s.withChan c r) where
  others _ hd := chan_withChan_ne s r hd
  scu := rfl
  touches := (touches_withChan s c r).mono (by decide)

theorem channelTurn_trans {c : PulseChannel} {s t u : State} (h : ChannelTurn c s t) (k : ChannelTurn c t u) :
    ChannelTurn c s u where
  others d hd := (k.others d hd).trans (h.others d hd)
  scu := by rw [k.scu, h.scu]
  touches := h.touches.trans k.touches

theorem loseChannel_chan (s : State) (c : PulseChannel) : (loseChannel c s).chan c =
    { s.chan c with lost := true, lossTimer := 0, recTimer := 0 } := chan_withChan_same s c _

theorem channelTurn_loseChannel (s : State) (c : PulseChannel) : ChannelTurn c s (loseChannel c s) where
  others _ hd := chan_withChan_ne s _ hd
  scu := rfl
  touches := also ((touches_withChan s c _).mono (by decide)) (touches_raise _ _)

theorem loseChannel_mc (s : State) (c : PulseChannel) : (loseChannel c s).mc = (raise (.lost c) s).mc :=
  raise_mc_congr _ rfl

theorem checkLoss_spec (s : State) (c : PulseChannel) :
    ChannelTurn c s (checkLoss s c) ∧ (checkLoss s c).chan c = lossOf s c ∧ TableTurn c s (checkLoss s c) := by
  by_cases h : s.fitted c = true ∧ (s.chan c).lost = false
  · obtain ⟨hfit, hlost⟩ := h
    have hloss : lossOf s c = lossCounted c (lossCheck s c) (s.chan c) := if_pos ⟨hfit, hlost⟩
    rw [hloss, checkLoss_of_checked hfit hlost, lossCounted]
    generalize hn : (if lossCheck s c = true then (s.chan c).lossTimer + 1 else 0) = n
    have hturn : ChannelTurn c s (lossTimed s c n) := channelTurn_withChan s c _
    have hchan := lossTimed_chan s c n
    by_cases hdue : lossDue c (lossTimed s c n) = true
    · rw [if_pos hdue]
      have hlimit := (lossDue_lossTimed hfit hlost).mp hdue
      have hevidence : lossCheck s c = true := by
        by_contra k
        rw [if_neg k] at hn
        exact absurd hlimit (by rw [← hn]; exact Nat.not_le.mpr (lossLimit_pos c))
      rw [if_pos hevidence] at hn
      refine ⟨channelTurn_trans hturn (channelTurn_loseChannel _ c), ?_, fun k => ?_, fun _ _ => ?_, fun k _ => ?_⟩
      · rw [loseChannel_chan, hchan, if_pos hevidence, hn, if_pos hlimit]
      · rw [loseChannel_chan] at k
        exact absurd (k.trans hlost) Bool.true_eq_false.mp
      · exact (loseChannel_mc _ c).trans (raise_mc_congr _ rfl)
      · exact absurd (hlost.symm.trans k) Bool.false_ne_true
    · rw [if_neg hdue]
      have hbelow := mt (lossDue_lossTimed hfit hlost).mpr hdue
      refine ⟨hturn, ?_, tableTurn_of_mc (by rw [hchan]) rfl⟩
      rw [hchan]
      cases hevidence : lossCheck s c with
      | true =>
        rw [hevidence, if_pos rfl] at hn
        rw [if_pos rfl, hn, if_neg hbelow]
      | false =>
        rw [hevidence, if_neg Bool.false_ne_true] at hn
        rw [if_neg Bool.false_ne_true, ← hn]
  · rw [checkLoss_of_passed h, lossOf, if_neg h]
    exact ⟨⟨fun _ _ => rfl, rfl, .refl _ _⟩, rfl, tableTurn_of_mc rfl rfl⟩

/-- A check for loss writes the flag and the timers. -/
theorem lossOf_speeds (s : State) (c : PulseChannel) : (lossOf s c).travel = (s.chan c).travel ∧
    (lossOf s c).shaft = (s.chan c).shaft ∧ (lossOf s c).motion = (s.chan c).motion := by
  unfold lossOf lossCounted
  split
  · split
    · split <;> exact ⟨rfl, rfl, rfl⟩
    · exact ⟨rfl, rfl, rfl⟩
  · exact ⟨rfl, rfl, rfl⟩

theorem speedsKept_checkLoss (s : State) (c : PulseChannel) : SpeedsKept s (checkLoss s c) := by
  obtain ⟨hturn, hchan, -⟩ := checkLoss_spec s c
  exact speedsKept_of_turn hturn (hchan ▸ lossOf_speeds s c)

/-- The evidence of a check reads speeds, motion and other blocks. -/
theorem lossCheck_congr {s t : State} (h : SpeedsKept s t) (c : PulseChannel) : lossCheck t c = lossCheck s c := by
  have hshc : t.shc = s.shc := h.touches .shc (by decide)
  have hlc : t.lc = s.lc := h.touches .lc (by decide)
  cases c <;>
    simp only [lossCheck, drivingThrough, engineTurns, State.engineSpeed, h.travel, h.shaft, h.motion, hshc, hlc]

theorem fitted_congr {s t : State} (h : t.cfg = s.cfg) (c : PulseChannel) : t.fitted c = s.fitted c := by
  cases c <;> simp only [State.fitted, h]

/-- The state after the second pass, from the one after the first. -/
def lossesChecked (s : State) : State := PulseChannel.all.foldl checkLoss s

theorem lossesChecked_spec (s : State) : SpeedsKept s (lossesChecked s) ∧
    ∀ c : PulseChannel, (lossesChecked s).chan c = lossOf s c := by
  have h := chan_foldl (f := checkLoss) (g := lossOf) (R := SpeedsKept) speedsKept_refl speedsKept_trans
    speedsKept_checkLoss (fun s c => (checkLoss_spec s c).2.1) (fun s c => (checkLoss_spec s c).1.others)
    (fun s t c h hc => ?_) PulseChannel.all (by decide) s
  · exact ⟨h.1, fun c => (h.2 c).trans (if_pos (mem_allChannels c))⟩
  · rw [lossOf, lossOf, fitted_congr (h.touches .cfg (by decide)), hc, lossCheck_congr h]

/-! ## The checks for recovery (R9) -/

/-- What a check for recovery leaves of a channel. -/
def recoveryCounted (near : Bool) (r : PulseRec) : PulseRec :=
  if r.lost then
    if near then
      if 200 ≤ r.recTimer + 1 then { r with lost := false, recTimer := 0 } else { r with recTimer := r.recTimer + 1 }
    else { r with recTimer := 0 }
  else r

theorem recoveryDue_iff (c : PulseChannel) (s : State) :
    recoveryDue c s = true ↔ (s.chan c).lost = true ∧ 200 ≤ (s.chan c).recTimer := by
  simp only [recoveryDue, Bool.and_eq_true, decide_eq_true_eq]
  rfl

/-- The state with the recovery timer of a channel written. -/
def recoveryTimed (s : State) (c : PulseChannel) (n : Nat) : State := s.withChan c { s.chan c with recTimer := n }

theorem recoveryTimed_chan (s : State) (c : PulseChannel) (n : Nat) :
    (recoveryTimed s c n).chan c = { s.chan c with recTimer := n } := chan_withChan_same _ _ _

theorem recoveryDue_recoveryTimed {s : State} {c : PulseChannel} {n : Nat} (hlost : (s.chan c).lost = true) :
    recoveryDue c (recoveryTimed s c n) = true ↔ 200 ≤ n := by
  rw [recoveryDue_iff, recoveryTimed_chan]
  exact ⟨fun h => h.2, fun h => ⟨hlost, h⟩⟩

theorem checkRecovery_of_lost {s : State} {c : PulseChannel} (hlost : (s.chan c).lost = true) : checkRecovery s c =
    if recoveryDue c (recoveryTimed s c (if recoveryCheck s c = true then (s.chan c).recTimer + 1 else 0)) = true
    then recoverChannel c (recoveryTimed s c (if recoveryCheck s c = true then (s.chan c).recTimer + 1 else 0))
    else recoveryTimed s c (if recoveryCheck s c = true then (s.chan c).recTimer + 1 else 0) := if_pos hlost

theorem recoverChannel_chan (s : State) (c : PulseChannel) : (recoverChannel c s).chan c =
    { s.chan c with lost := false, recTimer := 0 } := chan_withChan_same s c _

theorem channelTurn_recoverChannel (s : State) (c : PulseChannel) : ChannelTurn c s (recoverChannel c s) where
  others _ hd := chan_withChan_ne s _ hd
  scu := rfl
  touches := also ((touches_withChan s c _).mono (by decide)) (touches_clearFault _ _)

theorem recoverChannel_mc (s : State) (c : PulseChannel) : (recoverChannel c s).mc = (clearFault (.lost c) s).mc :=
  clearFault_mc_congr _ rfl

theorem checkRecovery_spec (s : State) (c : PulseChannel) : ChannelTurn c s (checkRecovery s c) ∧
    (checkRecovery s c).chan c = recoveryCounted (recoveryCheck s c) (s.chan c) ∧ TableTurn c s (checkRecovery s c) := by
  cases hlost : (s.chan c).lost with
  | true =>
    rw [checkRecovery_of_lost hlost, recoveryCounted, if_pos hlost]
    generalize hn : (if recoveryCheck s c = true then (s.chan c).recTimer + 1 else 0) = n
    have hturn : ChannelTurn c s (recoveryTimed s c n) := channelTurn_withChan s c _
    have hchan := recoveryTimed_chan s c n
    by_cases hdue : recoveryDue c (recoveryTimed s c n) = true
    · rw [if_pos hdue]
      have hlimit := (recoveryDue_recoveryTimed hlost).mp hdue
      have hnear : recoveryCheck s c = true := by
        by_contra k
        rw [if_neg k] at hn
        omega
      rw [if_pos hnear] at hn
      refine ⟨channelTurn_trans hturn (channelTurn_recoverChannel _ c), ?_, fun k => ?_, fun k _ => ?_, fun _ _ => ?_⟩
      · rw [recoverChannel_chan, hchan, if_pos hnear, hn, if_pos hlimit]
      · rw [recoverChannel_chan] at k
        exact absurd (k.trans hlost) Bool.false_ne_true
      · exact absurd (k.symm.trans hlost) Bool.false_ne_true
      · exact (recoverChannel_mc _ c).trans (clearFault_mc_congr _ rfl)
    · rw [if_neg hdue]
      have hbelow := mt (recoveryDue_recoveryTimed hlost).mpr hdue
      refine ⟨hturn, ?_, tableTurn_of_mc (by rw [hchan]) rfl⟩
      rw [hchan]
      cases hnear : recoveryCheck s c with
      | true =>
        rw [hnear, if_pos rfl] at hn
        rw [if_pos rfl, hn, if_neg hbelow]
      | false =>
        rw [hnear, if_neg Bool.false_ne_true] at hn
        rw [if_neg Bool.false_ne_true, ← hn]
  | false =>
    have hpassed : checkRecovery s c = s := if_neg (by rw [hlost]; exact Bool.false_ne_true)
    rw [hpassed, recoveryCounted, if_neg (by rw [hlost]; exact Bool.false_ne_true)]
    exact ⟨⟨fun _ _ => rfl, rfl, .refl _ _⟩, rfl, tableTurn_of_mc rfl rfl⟩

/-- A check for recovery writes the flag and its timer. -/
theorem recoveryCounted_speeds (near : Bool) (r : PulseRec) : (recoveryCounted near r).travel = r.travel ∧
    (recoveryCounted near r).shaft = r.shaft ∧ (recoveryCounted near r).motion = r.motion := by
  unfold recoveryCounted
  split
  · split
    · split <;> exact ⟨rfl, rfl, rfl⟩
    · exact ⟨rfl, rfl, rfl⟩
  · exact ⟨rfl, rfl, rfl⟩

theorem speedsKept_checkRecovery (s : State) (c : PulseChannel) : SpeedsKept s (checkRecovery s c) := by
  obtain ⟨hturn, hchan, -⟩ := checkRecovery_spec s c
  exact speedsKept_of_turn hturn (hchan ▸ recoveryCounted_speeds _ _)

/-- The channel whose lost flag the expectation of a channel reads (R9). -/
def expectedFrom : PulseChannel → Option PulseChannel
  | .inp => none
  | .out => some .inp
  | .frt => some .out
  | .rad => some .frt

/-- The recovery check reads speeds, other blocks, and the lost flag of the channel it expects from. -/
theorem recoveryCheck_congr {s t : State} (h : SpeedsKept s t) (c : PulseChannel)
    (hlost : ∀ d : PulseChannel, expectedFrom c = some d → (t.chan d).lost = (s.chan d).lost) :
    recoveryCheck t c = recoveryCheck s c := by
  have hcfg : t.cfg = s.cfg := h.touches .cfg (by decide)
  have hshc : t.shc = s.shc := h.touches .shc (by decide)
  have hlc : t.lc = s.lc := h.touches .lc (by decide)
  have hspeed : t.engineSpeed = s.engineSpeed := by rw [State.engineSpeed, State.engineSpeed, hlc]
  have hturns : engineTurns t = engineTurns s := by rw [engineTurns, engineTurns, hspeed]
  have hdriving : drivingThrough t = drivingThrough s := by rw [drivingThrough, drivingThrough, hshc, h.shaft]
  have hown : ownValue t c = ownValue s c := by cases c <;> simp only [ownValue, h.shaft, h.travel]
  have hexpected : expectation t c = expectation s c := by
    cases c with
    | inp => rw [expectation, expectation, hturns, hspeed]
    | out => rw [expectation, expectation, hdriving, hlost .inp rfl, hshc, hcfg, h.shaft]
    | frt => rw [expectation, expectation, hlost .out rfl, h.travel]
    | rad => rw [expectation, expectation, hlost .frt rfl, h.travel]
  rw [recoveryCheck, recoveryCheck, hexpected, hown]

/-- The state after the third pass, from the one after the second. -/
def recoveriesChecked (s : State) : State := PulseChannel.all.foldl checkRecovery s

/-- Each channel is checked after the one it expects from, so that a check reads what the pass leaves (log 16). -/
theorem recoveriesChecked_spec (s : State) : SpeedsKept s (recoveriesChecked s) ∧ ∀ c : PulseChannel,
    (recoveriesChecked s).chan c = recoveryCounted (recoveryCheck (recoveriesChecked s) c) (s.chan c) := by
  have heq : recoveriesChecked s =
      checkRecovery (checkRecovery (checkRecovery (checkRecovery s .inp) .out) .frt) .rad := rfl
  rw [heq]
  obtain ⟨hturn1, hchan1, -⟩ := checkRecovery_spec s .inp
  have hkept1 := speedsKept_checkRecovery s .inp
  generalize checkRecovery s .inp = s1 at *
  obtain ⟨hturn2, hchan2, -⟩ := checkRecovery_spec s1 .out
  have hkept2 := speedsKept_checkRecovery s1 .out
  generalize checkRecovery s1 .out = s2 at *
  obtain ⟨hturn3, hchan3, -⟩ := checkRecovery_spec s2 .frt
  have hkept3 := speedsKept_checkRecovery s2 .frt
  generalize checkRecovery s2 .frt = s3 at *
  obtain ⟨hturn4, hchan4, -⟩ := checkRecovery_spec s3 .rad
  have hkept4 := speedsKept_checkRecovery s3 .rad
  generalize checkRecovery s3 .rad = s4 at *
  have hkept34 := speedsKept_trans hkept3 hkept4
  have hkept24 := speedsKept_trans hkept2 hkept34
  have hinp : s4.chan .inp = s1.chan .inp := by
    rw [hturn4.others .inp nofun, hturn3.others .inp nofun, hturn2.others .inp nofun]
  have hout : s4.chan .out = s2.chan .out := by rw [hturn4.others .out nofun, hturn3.others .out nofun]
  have hfrt : s4.chan .frt = s3.chan .frt := hturn4.others _ nofun
  refine ⟨speedsKept_trans hkept1 hkept24, fun c => ?_⟩
  cases c with
  | inp => rw [hinp, hchan1, recoveryCheck_congr (speedsKept_trans hkept1 hkept24) .inp nofun]
  | out =>
    have hcheck : recoveryCheck s4 .out = recoveryCheck s1 .out := recoveryCheck_congr hkept24 .out fun d hd => by
      obtain rfl := Option.some.inj hd
      rw [hinp]
    rw [hout, hchan2, hcheck, hturn1.others .out nofun]
  | frt =>
    have hcheck : recoveryCheck s4 .frt = recoveryCheck s2 .frt := recoveryCheck_congr hkept34 .frt fun d hd => by
      obtain rfl := Option.some.inj hd
      rw [hout]
    rw [hfrt, hchan3, hcheck, hturn2.others .frt nofun, hturn1.others .frt nofun]
  | rad =>
    have hcheck : recoveryCheck s4 .rad = recoveryCheck s3 .rad := recoveryCheck_congr hkept4 .rad fun d hd => by
      obtain rfl := Option.some.inj hd
      rw [hfrt]
    rw [hchan4, hcheck, hturn3.others .rad nofun, hturn2.others .rad nofun, hturn1.others .rad nofun]

/-! ## The evaluation -/

/-- The state after the three passes. -/
theorem evaluateChannels_eq (s : State) :
    evaluateChannels s = recoveriesChecked (lossesChecked (speedsEvaluated s)) := rfl

theorem exec_speedEvaluation {s : State} (h : s.mc.mode.sensingRuns = true) :
    exec .speedEvaluation s = .next (evaluateSpeeds s) := congrArg Host.Outcome.next (if_pos h)

theorem evaluateSpeeds_spec (s : State) :
    (∀ c : PulseChannel, (evaluateSpeeds s).chan c = (evaluateChannels s).chan c) ∧
    (evaluateSpeeds s).mc = (evaluateChannels s).mc ∧
    (evaluateSpeeds s).scu = { (evaluateChannels s).scu with motion := motionOf (evaluateChannels s) } ∧
    Touches [.scu] (evaluateChannels s) (evaluateSpeeds s) := by
  unfold evaluateSpeeds
  generalize evaluateChannels s = e
  exact ⟨fun _ => rfl, rfl, rfl, touches_withScu e _⟩

/-- The three passes write the channels of the SCU, and the fault table. -/
theorem evaluateChannels_scu (s : State) :
    (evaluateChannels s).scu = { s.scu with chans := (evaluateChannels s).scu.chans } ∧
    Touches [.scu, .mc] s (evaluateChannels s) := by
  obtain ⟨hwritten, -⟩ := speedsEvaluated_spec s
  obtain ⟨hkept, -⟩ := lossesChecked_spec (speedsEvaluated s)
  obtain ⟨hkept', -⟩ := recoveriesChecked_spec (lossesChecked (speedsEvaluated s))
  have hall := speedsKept_trans hkept hkept'
  exact ⟨hall.scu.trans (by rw [hwritten.scu]; rfl), (hwritten.touches.mono (by decide)).trans hall.touches⟩

/-- What the evaluation leaves of a channel: its speeds, then the check for loss, then the check for recovery, both on
what the evaluation leaves. -/
theorem evaluateChannels_chan (s : State) (c : PulseChannel) : (evaluateChannels s).chan c =
    recoveryCounted (recoveryCheck (evaluateChannels s) c)
      (if s.fitted c = true ∧ (speedsOf s c).lost = false
        then lossCounted c (lossCheck (evaluateChannels s) c) (speedsOf s c) else speedsOf s c) := by
  obtain ⟨hwritten, hspeeds⟩ := speedsEvaluated_spec s
  obtain ⟨hkept, hloss⟩ := lossesChecked_spec (speedsEvaluated s)
  obtain ⟨hkept', hrecovery⟩ := recoveriesChecked_spec (lossesChecked (speedsEvaluated s))
  rw [← evaluateChannels_eq] at hkept' hrecovery
  rw [hrecovery c, hloss c, lossOf, hspeeds c, fitted_congr (hwritten.touches .cfg (by decide)),
    lossCheck_congr (speedsKept_trans hkept hkept')]

end Sys2Proof.Proofs
end

