-- ==== Sys2Proof/Proofs/Speeds.lean ====
section
/-! SUPPORT. The statement about the speeds that SPEED_EVALUATION gives each channel (R2, R5, R6). -/

namespace Sys2Proof.Proofs

open Sys2Proof Sys2Proof.Machine

/-! ## The evaluation of one channel -/

section
variable {c : PulseChannel} {k : PulseCfg} {now : Stamp} {r : PulseRec}

theorem hasTravel_of_ne (h : c ≠ .inp) : hasTravel c = true := by
  cases c with
  | inp => exact absurd rfl h
  | _ => rfl

theorem hasShaft_of_shaft (h : c = .inp ∨ c = .out) : hasShaft c = true := by
  obtain rfl | rfl := h <;> rfl

theorem evaluate_of_edges (h : 1 ≤ r.count) : r.evaluate c k now = { r with
    travel := if hasTravel c then travelOf r.count k.travelPer (elapsed r.newest r.refStamp) else 0
    shaft := if hasShaft c then shaftOf r.count k.perRev (elapsed r.newest r.refStamp) else 0
    refStamp := r.newest, count := 0, motion := .moving } := if_pos h

theorem evaluate_of_no_reference (h : r.count = 0) (href : r.refPresent = false) :
    r.evaluate c k now = { r with travel := 0, shaft := 0, motion := .stopped } :=
  (if_neg (by omega)).trans (if_pos (by rw [href]; rfl))

theorem evaluate_of_old (h : r.count = 0) (href : r.refPresent = true) (hidle : 1000000 ≤ elapsed now r.refStamp) :
    r.evaluate c k now = { r with travel := 0, shaft := 0, motion := .stopped, refPresent := false } :=
  (if_neg (by omega)).trans ((if_neg (by rw [href]; decide)).trans (if_pos hidle))

theorem evaluate_of_young (h : r.count = 0) (href : r.refPresent = true) (hidle : elapsed now r.refStamp < 1000000) :
    r.evaluate c k now = { r with
      travel := if hasTravel c then ceilBy (Config.noSilenceCeiling c false now) (travelOf 1 k.travelPer)
        (elapsed now r.refStamp) r.travel else 0
      shaft := if hasShaft c then ceilBy (Config.noSilenceCeiling c true now) (shaftOf 1 k.perRev)
        (elapsed now r.refStamp) r.shaft else 0 } :=
  (if_neg (by omega)).trans ((if_neg (by rw [href]; decide)).trans (if_neg (Nat.not_le.mpr hidle)))

theorem ceilBy_of_silence {free idle v : Nat} {ceiling : Nat → Nat} (h : 0 < idle) :
    ceilBy free ceiling idle v = min v (ceiling idle) := by
  rw [ceilBy, if_neg (Nat.pos_iff_ne_zero.mp h)]

/-- The single-edge values (R6). -/
theorem travelOf_one (p t : Nat) : travelOf 1 p t = min 32767 (p * 1000 / t) := by
  unfold travelOf
  rw [Nat.one_mul]
  rfl

theorem shaftOf_one (n t : Nat) : shaftOf 1 n t = min 8000 (60000000 / (n * t)) := by
  unfold shaftOf
  rw [Nat.one_mul]
  rfl

/-- The speeds are evaluated beside the lost flag and the two timers. -/
theorem evaluate_flags : (r.evaluate c k now).lost = r.lost ∧ (r.evaluate c k now).lossTimer = r.lossTimer ∧
    (r.evaluate c k now).recTimer = r.recTimer := by
  unfold PulseRec.evaluate
  dsimp only
  split
  · exact ⟨rfl, rfl, rfl⟩
  split
  · exact ⟨rfl, rfl, rfl⟩
  split <;> exact ⟨rfl, rfl, rfl⟩

end

/-! ## What the checks leave of the speeds -/

theorem recoveryCounted_flags (near : Bool) (r : PulseRec) :
    ∃ (lost : Bool) (n : Nat), recoveryCounted near r = { r with lost := lost, recTimer := n } := by
  unfold recoveryCounted
  split
  · split
    · split <;> exact ⟨_, _, rfl⟩
    · exact ⟨_, _, rfl⟩
  · exact ⟨_, _, rfl⟩

theorem lossCounted_flags (c : PulseChannel) (evidence : Bool) (r : PulseRec) : ∃ (lost : Bool) (m n : Nat),
    lossCounted c evidence r = { r with lost := lost, lossTimer := m, recTimer := n } := by
  unfold lossCounted
  split
  · split <;> exact ⟨_, _, _, rfl⟩
  · exact ⟨_, _, _, rfl⟩

/-- The checks write the lost flag and the timers of a channel. -/
theorem evaluateChannels_flags (s : State) (c : PulseChannel) : ∃ (lost : Bool) (m n : Nat),
    (evaluateChannels s).chan c = { speedsOf s c with lost := lost, lossTimer := m, recTimer := n } := by
  have hchan := evaluateChannels_chan s c
  obtain ⟨lost, n, hrec⟩ := recoveryCounted_flags (recoveryCheck (evaluateChannels s) c)
    (if s.fitted c = true ∧ (speedsOf s c).lost = false
      then lossCounted c (lossCheck (evaluateChannels s) c) (speedsOf s c) else speedsOf s c)
  rw [hrec] at hchan
  by_cases h : s.fitted c = true ∧ (speedsOf s c).lost = false
  · obtain ⟨lost', m, n', hloss⟩ := lossCounted_flags c (lossCheck (evaluateChannels s) c) (speedsOf s c)
    rw [if_pos h, hloss] at hchan
    exact ⟨lost, m, n, hchan⟩
  · rw [if_neg h] at hchan
    exact ⟨lost, _, n, hchan⟩

theorem speedsOf_flags (s : State) (c : PulseChannel) : (speedsOf s c).lost = (s.chan c).lost ∧
    (speedsOf s c).lossTimer = (s.chan c).lossTimer ∧ (speedsOf s c).recTimer = (s.chan c).recTimer := by
  unfold speedsOf
  split
  · exact evaluate_flags
  · exact ⟨rfl, rfl, rfl⟩

theorem speedsOf_lost (s : State) (c : PulseChannel) : (speedsOf s c).lost = (s.chan c).lost := (speedsOf_flags s c).1

theorem speedsOf_lossTimer (s : State) (c : PulseChannel) : (speedsOf s c).lossTimer = (s.chan c).lossTimer :=
  (speedsOf_flags s c).2.1

theorem speedsOf_recTimer (s : State) (c : PulseChannel) : (speedsOf s c).recTimer = (s.chan c).recTimer :=
  (speedsOf_flags s c).2.2

theorem speedsOf_of_fitted {s : State} {c : PulseChannel} (h : s.fitted c = true) :
    speedsOf s c = (s.chan c).evaluate c (s.cfg.pulse.get c) s.now := if_pos h

theorem speedsOf_of_unfitted {s : State} {c : PulseChannel} (h : s.fitted c = false) :
    speedsOf s c = { s.chan c with travel := 0, shaft := 0, motion := .stopped } :=
  if_neg (h ▸ Bool.false_ne_true)

/-- A channel that is not fitted is not checked for loss. -/
theorem evaluateChannels_lost_of_unfitted {s : State} {c : PulseChannel} (h : s.fitted c = false)
    (hlost : (s.chan c).lost = false) : ((evaluateChannels s).chan c).lost = false := by
  have hspeeds : (speedsOf s c).lost = false := (speedsOf_lost s c).trans hlost
  have hunchecked : ¬(s.fitted c = true ∧ (speedsOf s c).lost = false) := fun k => absurd (h.symm.trans k.1) Bool.false_ne_true
  rw [evaluateChannels_chan, if_neg hunchecked, recoveryCounted, if_neg (by rw [hspeeds]; exact Bool.false_ne_true)]
  exact hspeeds

/-- Settles O14. -/
theorem speedsOfEvaluation : Obligations.SpeedsOfEvaluation := by
  intro s hruns
  obtain ⟨hchan, -, hscu, htouch⟩ := evaluateSpeeds_spec s
  obtain ⟨hpasses, htouched⟩ := evaluateChannels_scu s
  refine ⟨_, exec_speedEvaluation hruns, htouched.trans (htouch.mono (by decide)), ?_, ?_, ?_⟩
  · rw [hscu, hpasses]
  · rw [hscu, hpasses]
  rintro c r u k rfl rfl rfl
  rw [hchan]
  obtain ⟨lost, m, n, hflags⟩ := evaluateChannels_flags s c
  refine ⟨fun hfit => ?_, fun hfit hcount => ?_, fun hfit hcount href => ?_, fun hfit hcount href hidle => ?_,
    fun hfit hcount href hsilent hidle => ?_⟩
  · refine ⟨?_, ?_, ?_, evaluateChannels_lost_of_unfitted hfit⟩ <;> rw [hflags, speedsOf_of_unfitted hfit]
  · rw [hflags, speedsOf_of_fitted hfit, evaluate_of_edges hcount]
    exact ⟨rfl, rfl, rfl, rfl, fun hc => if_pos (hasTravel_of_ne hc), fun hc => if_pos (hasShaft_of_shaft hc)⟩
  · rw [hflags, speedsOf_of_fitted hfit, evaluate_of_no_reference hcount href]
    exact ⟨rfl, rfl, rfl⟩
  · rw [hflags, speedsOf_of_fitted hfit, evaluate_of_old hcount href hidle]
    exact ⟨rfl, rfl, rfl, rfl⟩
  · rw [hflags, speedsOf_of_fitted hfit, evaluate_of_young hcount href hidle]
    have hpast : 0 < elapsed s.now (s.chan c).refStamp := hsilent
    refine ⟨rfl, href, rfl, fun hc => ?_, fun hc => ?_⟩
    · exact (if_pos (hasTravel_of_ne hc)).trans
        ((ceilBy_of_silence hpast).trans (congrArg (min (s.chan c).travel) (travelOf_one _ _)))
    · exact (if_pos (hasShaft_of_shaft hc)).trans
        ((ceilBy_of_silence hpast).trans (congrArg (min (s.chan c).shaft) (shaftOf_one _ _)))

end Sys2Proof.Proofs
end

