-- ==== Sys2Proof/Proofs/LossAndRecovery.lean ====
section
/-! SUPPORT. The statement about the loss and the recovery of the pulse channels (R7 to R9): the evidence and the
expectation in the words of the manual, and the fault table over the passes. -/

namespace Sys2Proof.Proofs

open Sys2Proof Sys2Proof.Machine

/-! ## The evidence and the expectation -/

theorem engineTurns_iff (s : State) : engineTurns s = true ↔ ∃ n : Nat, s.engineSpeed = some n ∧ 800 < n := by
  unfold engineTurns
  cases s.engineSpeed <;> simp

theorem drivingThrough_iff (s : State) : drivingThrough s = true ↔
    s.shc.state = .inGear ∧ s.shc.pedal ≤ 10 ∧ 800 < (s.chan .inp).shaft := by
  simp [drivingThrough, and_assoc]

theorem lossCheck_iff (s : State) (c : PulseChannel) : lossCheck s c = true ↔ (s.chan c).motion = .stopped ∧ match c with
    | .out => s.shc.state = .inGear ∧ s.shc.pedal ≤ 10 ∧ 800 < (s.chan .inp).shaft
    | .frt => 1500 < (s.chan .out).travel
    | .rad => 1500 < (s.chan .out).travel ∧ 1000 < (s.chan .frt).travel
    | .inp => ∃ n : Nat, s.engineSpeed = some n ∧ 800 < n := by
  unfold lossCheck
  rw [Bool.and_eq_true, beq_iff_eq]
  cases c with
  | out => rw [drivingThrough_iff]
  | frt => rw [decide_eq_true_eq]
  | rad => rw [Bool.and_eq_true, decide_eq_true_eq, decide_eq_true_eq]
  | inp => rw [engineTurns_iff]

theorem within20_iff (v e : Nat) : within20 v e = true ↔ ((v : Int) - e).natAbs * 5 ≤ e := decide_eq_true_iff

theorem recoveryCheck_iff_expectation (s : State) (c : PulseChannel) : recoveryCheck s c = true ↔
    ∃ e : Nat, expectation s c = some e ∧ ((ownValue s c : Int) - e).natAbs * 5 ≤ e := by
  unfold recoveryCheck
  cases h : expectation s c with
  | none => simp
  | some e => simp [within20_iff]

theorem expectation_inp_iff (s : State) (e : Nat) :
    expectation s .inp = some e ↔ s.engineSpeed = some e ∧ 800 < e := by
  unfold expectation
  by_cases h : engineTurns s = true
  · obtain ⟨n, hn, hturns⟩ := (engineTurns_iff s).mp h
    rw [if_pos h, hn]
    exact ⟨fun k => ⟨k, Option.some.inj k ▸ hturns⟩, fun k => k.1⟩
  · rw [if_neg h]
    exact ⟨nofun, fun k => absurd ((engineTurns_iff s).mpr ⟨e, k⟩) h⟩

theorem expectation_out_iff (s : State) (e : Nat) : expectation s .out = some e ↔
    s.shc.state = .inGear ∧ s.shc.pedal ≤ 10 ∧ 800 < (s.chan .inp).shaft ∧ (s.chan .inp).lost = false ∧
      ∃ g : Gear, s.shc.current = some g ∧ e = (s.chan .inp).shaft * 1000 / s.cfg.ratioOf g := by
  have hcond : (drivingThrough s && !(s.chan .inp).lost) = true ↔
      (s.shc.state = .inGear ∧ s.shc.pedal ≤ 10 ∧ 800 < (s.chan .inp).shaft) ∧ (s.chan .inp).lost = false := by
    rw [Bool.and_eq_true, drivingThrough_iff, Bool.not_eq_true']
  unfold expectation
  by_cases h : (drivingThrough s && !(s.chan .inp).lost) = true
  · obtain ⟨⟨hgear, hpedal, hshaft⟩, hlost⟩ := hcond.mp h
    rw [if_pos h, Option.map_eq_some_iff]
    exact ⟨fun ⟨g, hg, he⟩ => ⟨hgear, hpedal, hshaft, hlost, g, hg, he.symm⟩,
      fun ⟨_, _, _, _, g, hg, he⟩ => ⟨g, hg, he.symm⟩⟩
  · rw [if_neg h]
    exact ⟨nofun, fun ⟨hgear, hpedal, hshaft, hlost, _⟩ => absurd (hcond.mpr ⟨⟨hgear, hpedal, hshaft⟩, hlost⟩) h⟩

theorem expectation_frt_iff (s : State) (e : Nat) : expectation s .frt = some e ↔
    1500 < (s.chan .out).travel ∧ (s.chan .out).lost = false ∧ e = (s.chan .out).travel := by
  have heq : expectation s .frt = if 1500 < (s.chan .out).travel ∧ (s.chan .out).lost = false
    then some (s.chan .out).travel else none := rfl
  rw [heq]
  split
  case isTrue h => exact ⟨fun k => ⟨h.1, h.2, (Option.some.inj k).symm⟩, fun k => congrArg some k.2.2.symm⟩
  case isFalse h => exact ⟨nofun, fun k => absurd ⟨k.1, k.2.1⟩ h⟩

theorem expectation_rad_iff (s : State) (e : Nat) : expectation s .rad = some e ↔
    1000 < (s.chan .frt).travel ∧ (s.chan .frt).lost = false ∧ e = (s.chan .frt).travel := by
  have heq : expectation s .rad = if 1000 < (s.chan .frt).travel ∧ (s.chan .frt).lost = false
    then some (s.chan .frt).travel else none := rfl
  rw [heq]
  split
  case isTrue h => exact ⟨fun k => ⟨h.1, h.2, (Option.some.inj k).symm⟩, fun k => congrArg some k.2.2.symm⟩
  case isFalse h => exact ⟨nofun, fun k => absurd ⟨k.1, k.2.1⟩ h⟩

/-- The recovery check in the words of R9. -/
theorem recoveryCheck_iff (s : State) (c : PulseChannel) : recoveryCheck s c = true ↔
    ∃ v e : Nat, ((v : Int) - e).natAbs * 5 ≤ e ∧ match c with
      | .out => v = (s.chan .out).shaft ∧ s.shc.state = .inGear ∧ s.shc.pedal ≤ 10 ∧
          800 < (s.chan .inp).shaft ∧ (s.chan .inp).lost = false ∧
          ∃ g : Gear, s.shc.current = some g ∧ e = (s.chan .inp).shaft * 1000 / s.cfg.ratioOf g
      | .frt => v = (s.chan .frt).travel ∧ 1500 < (s.chan .out).travel ∧
          (s.chan .out).lost = false ∧ e = (s.chan .out).travel
      | .rad => v = (s.chan .rad).travel ∧ 1000 < (s.chan .frt).travel ∧
          (s.chan .frt).lost = false ∧ e = (s.chan .frt).travel
      | .inp => v = (s.chan .inp).shaft ∧ s.engineSpeed = some e ∧ 800 < e := by
  have hnear {P : Nat → Prop} (hP : ∀ e, expectation s c = some e ↔ P e) : recoveryCheck s c = true ↔
      ∃ v e : Nat, ((v : Int) - e).natAbs * 5 ≤ e ∧ v = ownValue s c ∧ P e := by
    rw [recoveryCheck_iff_expectation]
    exact ⟨fun ⟨e, he, hle⟩ => ⟨_, e, hle, rfl, (hP e).mp he⟩, fun ⟨_, e, hle, hv, he⟩ => ⟨e, (hP e).mpr he, hv ▸ hle⟩⟩
  cases c with
  | inp => exact hnear (expectation_inp_iff s)
  | out => exact hnear (expectation_out_iff s)
  | frt => exact hnear (expectation_frt_iff s)
  | rad => exact hnear (expectation_rad_iff s)

/-! ## The fault table over a pass -/

/-- A pass writes the fault table where the flag of a channel turns; where one flag alone turned it made that one
entry. -/
theorem tableTurn_foldl {f : State → PulseChannel → State} (hothers : ∀ s c d, d ≠ c → (f s c).chan d = s.chan d)
    (hturn : ∀ s c, TableTurn c s (f s c)) : ∀ (l : List PulseChannel), l.Nodup → ∀ s : State,
      (∀ d, d ∉ l → (l.foldl f s).chan d = s.chan d) ∧
      ((∀ d, ((l.foldl f s).chan d).lost = (s.chan d).lost) → (l.foldl f s).mc = s.mc) ∧
      ∀ c, (∀ d, d ≠ c → ((l.foldl f s).chan d).lost = (s.chan d).lost) → TableTurn c s (l.foldl f s) := by
  intro l
  induction l with
  | nil => exact fun _ s => ⟨fun _ _ => rfl, fun _ => rfl, fun c _ => tableTurn_of_mc rfl rfl⟩
  | cons x l ih =>
    intro hl s
    obtain ⟨hx, hl⟩ := List.nodup_cons.mp hl
    obtain ⟨houtside, hsame, hone⟩ := ih hl (f s x)
    rw [List.foldl_cons]
    generalize l.foldl f (f s x) = t at houtside hsame hone
    have hxt : t.chan x = (f s x).chan x := houtside x hx
    have hkept (d : PulseChannel) (hd : d ≠ x) : (f s x).chan d = s.chan d := hothers s x d hd
    have hall : (∀ d, (t.chan d).lost = (s.chan d).lost) → t.mc = s.mc := fun h => by
      have hfirst : (f s x).mc = s.mc := (hturn s x).same (by rw [← hxt]; exact h x)
      refine (hsame fun d => ?_).trans hfirst
      rcases eq_or_ne d x with rfl | hd
      · rw [hxt]
      · rw [hkept d hd]
        exact h d
    refine ⟨fun d hd => ?_, hall, fun c h => ?_⟩
    · rw [List.mem_cons, not_or] at hd
      rw [houtside d hd.2, hkept d hd.1]
    · rcases eq_or_ne c x with rfl | hc
      · have hmc : t.mc = (f s c).mc := hsame fun d => by
          rcases eq_or_ne d c with rfl | hd
          · rw [hxt]
          · rw [hkept d hd]
            exact h d hd
        have hfirst := hturn s c
        exact ⟨fun k => hmc.trans (hfirst.same (hxt ▸ k)), fun k k' => hmc.trans (hfirst.lost k (hxt ▸ k')),
          fun k k' => hmc.trans (hfirst.found k (hxt ▸ k'))⟩
      · have hfirst : (f s x).mc = s.mc := (hturn s x).same (by rw [← hxt]; exact h x hc.symm)
        have hrest := hone c fun d hd => by
          rcases eq_or_ne d x with rfl | hdx
          · rw [hxt]
          · rw [hkept d hdx]
            exact h d hd
        have hcc := hkept c hc
        exact ⟨fun k => (hrest.same (hcc ▸ k)).trans hfirst,
          fun k k' => (hrest.lost (hcc ▸ k) k').trans (raise_mc_congr _ hfirst),
          fun k k' => (hrest.found (hcc ▸ k) k').trans (clearFault_mc_congr _ hfirst)⟩

/-- A channel that a check for loss has made LOST is not recovered in the same evaluation. -/
theorem recoveryCounted_of_lossCounted {c : PulseChannel} {evidence near : Bool} {r : PulseRec} (h : r.lost = false)
    (hlost : (lossCounted c evidence r).lost = true) : (recoveryCounted near (lossCounted c evidence r)).lost = true := by
  have hcounted : lossCounted c evidence r = { r with lost := true, lossTimer := 0, recTimer := 0 } := by
    unfold lossCounted at hlost ⊢
    split at hlost
    · split at hlost
      · rename_i hevidence hlimit
        rw [if_pos hevidence, if_pos hlimit]
      · exact absurd (h.symm.trans hlost) Bool.false_ne_true
    · exact absurd (h.symm.trans hlost) Bool.false_ne_true
  rw [hcounted]
  cases near <;> rfl

theorem recoveryCounted_of_held (near : Bool) {r : PulseRec} (h : r.lost = false) : recoveryCounted near r = r :=
  if_neg (by rw [h]; exact Bool.false_ne_true)

/-- Over an evaluation a flag that stands as before stood as before after each pass. -/
theorem lossesChecked_lost {s : State} {c : PulseChannel}
    (h : ((evaluateChannels s).chan c).lost = (s.chan c).lost) :
    ((lossesChecked (speedsEvaluated s)).chan c).lost = (s.chan c).lost := by
  obtain ⟨-, hspeeds⟩ := speedsEvaluated_spec s
  obtain ⟨-, hloss⟩ := lossesChecked_spec (speedsEvaluated s)
  obtain ⟨-, hrecovery⟩ := recoveriesChecked_spec (lossesChecked (speedsEvaluated s))
  rw [← evaluateChannels_eq] at hrecovery
  rw [hrecovery c] at h
  rw [hloss c, lossOf, hspeeds c] at h ⊢
  have hsame : (speedsOf s c).lost = (s.chan c).lost := speedsOf_lost s c
  split at h
  case isFalse hno => rw [if_neg hno, hsame]
  case isTrue hchecked =>
    rw [if_pos hchecked]
    cases hlost : (lossCounted c (lossCheck (speedsEvaluated s) c) (speedsOf s c)).lost with
    | true => rw [← h, recoveryCounted_of_lossCounted hchecked.2 hlost]
    | false => rw [← hsame, hchecked.2]

/-- The fault table over an evaluation (R8, R9). -/
theorem evaluateChannels_table (s : State) :
    ((∀ c, ((evaluateChannels s).chan c).lost = (s.chan c).lost) → (evaluateChannels s).mc = s.mc) ∧
    ∀ c, (∀ d, d ≠ c → ((evaluateChannels s).chan d).lost = (s.chan d).lost) →
      ((s.chan c).lost = false → ((evaluateChannels s).chan c).lost = true →
        (evaluateChannels s).mc = (raise (.lost c) s).mc) ∧
      ((s.chan c).lost = true → ((evaluateChannels s).chan c).lost = false →
        (evaluateChannels s).mc = (clearFault (.lost c) s).mc) := by
  obtain ⟨hwritten, hspeeds⟩ := speedsEvaluated_spec s
  have hmc : (speedsEvaluated s).mc = s.mc := hwritten.touches .mc (by decide)
  have hlost (c : PulseChannel) : ((speedsEvaluated s).chan c).lost = (s.chan c).lost := by
    rw [hspeeds, speedsOf_lost]
  have hkept := fun c => lossesChecked_lost (s := s) (c := c)
  obtain ⟨-, hlossSame, hlossOne⟩ := tableTurn_foldl (fun s c => (checkLoss_spec s c).1.others)
    (fun s c => (checkLoss_spec s c).2.2) PulseChannel.all (by decide) (speedsEvaluated s)
  obtain ⟨-, hrecSame, hrecOne⟩ := tableTurn_foldl (fun s c => (checkRecovery_spec s c).1.others)
    (fun s c => (checkRecovery_spec s c).2.2) PulseChannel.all (by decide) (lossesChecked (speedsEvaluated s))
  obtain ⟨-, hloss⟩ := lossesChecked_spec (speedsEvaluated s)
  obtain ⟨-, hrecovery⟩ := recoveriesChecked_spec (lossesChecked (speedsEvaluated s))
  change _ → (lossesChecked (speedsEvaluated s)).mc = _ at hlossSame
  change ∀ c, _ → TableTurn c _ (lossesChecked (speedsEvaluated s)) at hlossOne
  change _ → (recoveriesChecked (lossesChecked (speedsEvaluated s))).mc = _ at hrecSame
  change ∀ c, _ → TableTurn c _ (recoveriesChecked (lossesChecked (speedsEvaluated s))) at hrecOne
  rw [← evaluateChannels_eq] at hrecSame hrecOne hrecovery
  refine ⟨fun h => ?_, fun c h => ⟨fun hbefore hafter => ?_, fun hbefore hafter => ?_⟩⟩
  · have hpass (d : PulseChannel) : ((lossesChecked (speedsEvaluated s)).chan d).lost = (s.chan d).lost := hkept d (h d)
    exact (hrecSame fun d => (h d).trans (hpass d).symm).trans ((hlossSame fun d => (hpass d).trans (hlost d).symm).trans hmc)
  all_goals
    have hpass (d : PulseChannel) (hd : d ≠ c) :
        ((lossesChecked (speedsEvaluated s)).chan d).lost = (s.chan d).lost := hkept d (h d hd)
    have hlossTurn := hlossOne c fun d hd => (hpass d hd).trans (hlost d).symm
    have hrecTurn := hrecOne c fun d hd => (h d hd).trans (hpass d hd).symm
  · have hpassed : ((lossesChecked (speedsEvaluated s)).chan c).lost = true := by
      by_contra k
      rw [hrecovery c, recoveryCounted_of_held _ (Bool.eq_false_iff.mpr k)] at hafter
      exact k hafter
    exact (hrecTurn.same (hafter.trans hpassed.symm)).trans
      ((hlossTurn.lost ((hlost c).trans hbefore) hpassed).trans (raise_mc_congr _ hmc))
  · have hpassed : ((lossesChecked (speedsEvaluated s)).chan c).lost = true := by
      have hunchecked : ¬((speedsEvaluated s).fitted c = true ∧ ((speedsEvaluated s).chan c).lost = false) := fun k =>
        absurd (k.2.symm.trans ((hlost c).trans hbefore)) Bool.false_ne_true
      rw [hloss c, lossOf, if_neg hunchecked, hlost c, hbefore]
    exact (hrecTurn.found hpassed hafter).trans
      (clearFault_mc_congr _ ((hlossTurn.same (hpassed.trans ((hlost c).trans hbefore).symm)).trans hmc))

/-! ## CHANNEL_LOST and CHANNEL_RECOVERED (R8, R9) -/

theorem exec_channelLost {c : PulseChannel} {s : State} (hruns : s.mc.mode.sensingRuns = true) (hfit : s.fitted c = true)
    (hlost : (s.chan c).lost = false) (h : (if c = .inp then 100 else 200) ≤ (s.chan c).lossTimer) :
    exec (.channelLost c) s = .next (loseChannel c s) := by
  have hlimit : lossLimit c = if c = .inp then 100 else 200 := by cases c <;> rfl
  exact next_of_due hruns ((lossDue_iff c s).mpr ⟨hfit, hlost, by rw [hlimit]; exact h⟩)

theorem exec_channelRecovered {c : PulseChannel} {s : State} (hruns : s.mc.mode.sensingRuns = true)
    (hlost : (s.chan c).lost = true) (h : 200 ≤ (s.chan c).recTimer) :
    exec (.channelRecovered c) s = .next (recoverChannel c s) :=
  next_of_due hruns ((recoveryDue_iff c s).mpr ⟨hlost, h⟩)

theorem lossCounted_spec (c : PulseChannel) (r : PulseRec) (hlost : r.lost = false) (evidence near : Bool) :
    (evidence = true → r.lossTimer + 1 < lossLimit c → (lossCounted c evidence r).lost = false ∧
      (lossCounted c evidence r).lossTimer = r.lossTimer + 1 ∧
      recoveryCounted near (lossCounted c evidence r) = lossCounted c evidence r) ∧
    (evidence = true → lossLimit c ≤ r.lossTimer + 1 →
      (recoveryCounted near (lossCounted c evidence r)).lost = true ∧
      (recoveryCounted near (lossCounted c evidence r)).lossTimer = 0) ∧
    (evidence = false → (lossCounted c evidence r).lost = false ∧ (lossCounted c evidence r).lossTimer = 0 ∧
      recoveryCounted near (lossCounted c evidence r) = lossCounted c evidence r) := by
  refine ⟨?_, ?_, ?_⟩
  · rintro rfl h
    have heq : lossCounted c true r = { r with lossTimer := r.lossTimer + 1 } := if_neg (Nat.not_le.mpr h)
    rw [heq]
    exact ⟨hlost, rfl, recoveryCounted_of_held near hlost⟩
  · rintro rfl h
    have heq : lossCounted c true r = { r with lost := true, lossTimer := 0, recTimer := 0 } := if_pos h
    rw [heq]
    cases near <;> exact ⟨rfl, rfl⟩
  · rintro rfl
    exact ⟨hlost, rfl, recoveryCounted_of_held near hlost⟩

/-- The loss of a fitted channel that was not LOST, over an evaluation. -/
theorem evaluateChannels_loss {s : State} {c : PulseChannel} (hfit : s.fitted c = true) (hlost : (s.chan c).lost = false) :
    (lossCheck (evaluateChannels s) c = true → (s.chan c).lossTimer + 1 < lossLimit c →
      ((evaluateChannels s).chan c).lost = false ∧
      ((evaluateChannels s).chan c).lossTimer = (s.chan c).lossTimer + 1) ∧
    (lossCheck (evaluateChannels s) c = true → lossLimit c ≤ (s.chan c).lossTimer + 1 →
      ((evaluateChannels s).chan c).lost = true ∧ ((evaluateChannels s).chan c).lossTimer = 0) ∧
    (lossCheck (evaluateChannels s) c = false →
      ((evaluateChannels s).chan c).lost = false ∧ ((evaluateChannels s).chan c).lossTimer = 0) := by
  have hspeeds : (speedsOf s c).lost = false := (speedsOf_lost s c).trans hlost
  have htimer : (speedsOf s c).lossTimer = (s.chan c).lossTimer := speedsOf_lossTimer s c
  have hchan := evaluateChannels_chan s c
  rw [if_pos ⟨hfit, hspeeds⟩] at hchan
  obtain ⟨hcount, hlose, hzero⟩ := lossCounted_spec c (speedsOf s c) hspeeds (lossCheck (evaluateChannels s) c)
    (recoveryCheck (evaluateChannels s) c)
  rw [← hchan, htimer] at hcount
  rw [← hchan, htimer] at hlose
  rw [← hchan] at hzero
  refine ⟨fun he h => ?_, hlose, fun he => ?_⟩
  · obtain ⟨hflag, hn, heq⟩ := hcount he h
    rw [heq]
    exact ⟨hflag, hn⟩
  · obtain ⟨hflag, hn, heq⟩ := hzero he
    rw [heq]
    exact ⟨hflag, hn⟩

/-- The recovery of a channel that was LOST, over an evaluation. -/
theorem evaluateChannels_recovery {s : State} {c : PulseChannel} (hlost : (s.chan c).lost = true) :
    (recoveryCheck (evaluateChannels s) c = true → (s.chan c).recTimer + 1 < 200 →
      ((evaluateChannels s).chan c).lost = true ∧
      ((evaluateChannels s).chan c).recTimer = (s.chan c).recTimer + 1) ∧
    (recoveryCheck (evaluateChannels s) c = true → 200 ≤ (s.chan c).recTimer + 1 →
      ((evaluateChannels s).chan c).lost = false ∧ ((evaluateChannels s).chan c).recTimer = 0) ∧
    (recoveryCheck (evaluateChannels s) c = false →
      ((evaluateChannels s).chan c).lost = true ∧ ((evaluateChannels s).chan c).recTimer = 0) := by
  have hspeeds : (speedsOf s c).lost = true := (speedsOf_lost s c).trans hlost
  have htimer : (speedsOf s c).recTimer = (s.chan c).recTimer := speedsOf_recTimer s c
  have hunchecked : ¬(s.fitted c = true ∧ (speedsOf s c).lost = false) := fun k =>
    absurd (k.2.symm.trans hspeeds) Bool.false_ne_true
  have hchan := evaluateChannels_chan s c
  rw [if_neg hunchecked, recoveryCounted, if_pos hspeeds, htimer] at hchan
  refine ⟨fun hnear h => ?_, fun hnear h => ?_, fun hnear => ?_⟩
  · rw [if_pos hnear, if_neg (Nat.not_le.mpr h)] at hchan
    rw [hchan]
    exact ⟨hspeeds, rfl⟩
  · rw [if_pos hnear, if_pos h] at hchan
    rw [hchan]
    exact ⟨rfl, rfl⟩
  · rw [if_neg (by rw [hnear]; exact Bool.false_ne_true)] at hchan
    rw [hchan]
    exact ⟨hspeeds, rfl⟩

/-- Settles O15. -/
theorem lossAndRecovery : Obligations.LossAndRecovery := by
  refine ⟨fun s hruns => ?_, fun c s hruns => ⟨fun hfit hlost h => ?_, fun hlost h => ?_⟩⟩
  · obtain ⟨hchan, hmc, -⟩ := evaluateSpeeds_spec s
    obtain ⟨-, htouch⟩ := evaluateChannels_scu s
    have hshc : (evaluateChannels s).shc = s.shc := htouch .shc (by decide)
    have hlc : (evaluateChannels s).lc = s.lc := htouch .lc (by decide)
    have hcfg : (evaluateChannels s).cfg = s.cfg := htouch .cfg (by decide)
    have hspeed : (evaluateChannels s).engineSpeed = s.engineSpeed := by rw [State.engineSpeed, State.engineSpeed, hlc]
    obtain ⟨hsame, hone⟩ := evaluateChannels_table s
    refine ⟨_, exec_speedEvaluation hruns, ?_⟩
    rw [hmc]
    simp only [hchan]
    refine ⟨fun c limit evidence hlimit hevidence hfit hlost => ?_, fun c near hnear hlost => ?_, hsame, hone⟩
    · have hwords := lossCheck_iff (evaluateChannels s) c
      rw [hshc, hspeed] at hwords
      have hcheck : lossCheck (evaluateChannels s) c = true ↔ evidence := by
        cases c <;> exact hwords.trans hevidence.symm
      obtain ⟨hcount, hlose, hzero⟩ := evaluateChannels_loss hfit hlost
      have heq : lossLimit c = limit := by rw [hlimit]; cases c <;> rfl
      rw [heq] at hcount hlose
      exact ⟨fun he => hcount (hcheck.mpr he), fun he => hlose (hcheck.mpr he),
        fun he => hzero (Bool.eq_false_iff.mpr fun k => he (hcheck.mp k))⟩
    · have hwords := recoveryCheck_iff (evaluateChannels s) c
      rw [hshc, hspeed, hcfg] at hwords
      have hcheck : recoveryCheck (evaluateChannels s) c = true ↔ near := by
        cases c <;> exact hwords.trans hnear.symm
      obtain ⟨hcount, hrecover, hzero⟩ := evaluateChannels_recovery hlost
      exact ⟨fun he => hcount (hcheck.mpr he), fun he => hrecover (hcheck.mpr he),
        fun he => hzero (Bool.eq_false_iff.mpr fun k => he (hcheck.mp k))⟩
  · have hturn := channelTurn_loseChannel s c
    exact ⟨_, exec_channelLost hruns hfit hlost h, loseChannel_chan s c, loseChannel_mc s c, hturn.others,
      by rw [hturn.scu], hturn.touches⟩
  · have hturn := channelTurn_recoverChannel s c
    exact ⟨_, exec_channelRecovered hruns hlost h, recoverChannel_chan s c, recoverChannel_mc s c, hturn.others,
      by rw [hturn.scu], hturn.touches⟩

end Sys2Proof.Proofs
end

