-- ==== Sys2Proof/Proofs/MotionRecord.lean ====
section
/-! SUPPORT. The motion record of an evaluation (R10 to R18, R21): the ground source, the slip and its filter; and the
statement about them. -/

namespace Sys2Proof.Proofs

open Sys2Proof Sys2Proof.Machine

/-! ## The ground source (R10, R11) -/

section
variable (s : State)

theorem groundSource_radar_iff : groundSource s = .radar ↔ s.cfg.radFitted = true ∧ (s.chan .rad).lost = false := by
  unfold groundSource
  split
  case isTrue h => exact ⟨fun _ => h, fun _ => rfl⟩
  case isFalse h =>
    refine ⟨fun k => ?_, fun k => absurd k h⟩
    split at k <;> exact absurd k nofun

theorem groundSource_front_iff : groundSource s = .front ↔ ¬(s.cfg.radFitted = true ∧ (s.chan .rad).lost = false) ∧
    (s.chan .frt).lost = false ∧ s.fdc.state = .released ∧ 500 ≤ s.fdc.time := by
  unfold groundSource
  split
  case isTrue h => exact ⟨nofun, fun k => absurd h k.1⟩
  case isFalse h =>
    split
    case isTrue h' => exact ⟨fun _ => ⟨h, h'⟩, fun _ => rfl⟩
    case isFalse h' => exact ⟨nofun, fun k => absurd k.2 h'⟩

end

/-! ## Slip (R12, R13) -/

section
variable (src : GroundSource) (vr vg : Nat)

theorem slipValidity_unavailable_iff : slipValidity src vr vg = .unavailable ↔ src = .none := by
  unfold slipValidity
  split
  case isTrue h => exact ⟨fun _ => h, fun _ => rfl⟩
  case isFalse h =>
    refine ⟨fun k => ?_, fun k => absurd k h⟩
    split at k <;> exact absurd k nofun

theorem slipValidity_lowSpeed_iff : slipValidity src vr vg = .lowSpeed ↔ src ≠ .none ∧ vr < 500 ∧ vg < 500 := by
  unfold slipValidity
  split
  case isTrue h => exact ⟨nofun, fun k => absurd h k.1⟩
  case isFalse h =>
    split
    case isTrue h' => exact ⟨fun _ => ⟨h, h'⟩, fun _ => rfl⟩
    case isFalse h' => exact ⟨nofun, fun k => absurd k.2 h'⟩

theorem slipOf_of_not_valid {v : SlipValidity} (h : v ≠ .valid) : slipOf v vr vg = 0 := if_neg h

theorem slipOf_of_spinning (h : vg ≤ vr) : slipOf .valid vr vg = (((vr - vg) * 1000 / vr : Nat) : Int) := by
  have heq : slipOf .valid vr vg = truncDiv (((vr : Int) - vg) * 1000) vr := (if_pos rfl).trans (if_pos h)
  rw [heq, truncDiv, ← Int.ofNat_sub h]
  exact_mod_cast Int.tdiv_eq_ediv_of_nonneg (by positivity)

theorem slipOf_of_sliding (h : vr < vg) : slipOf .valid vr vg = -(((vg - vr) * 1000 / vg : Nat) : Int) := by
  have heq : slipOf .valid vr vg = truncDiv (((vr : Int) - vg) * 1000) vg :=
    (if_pos rfl).trans (if_neg (Nat.not_le.mpr h))
  have hneg : ((vr : Int) - vg) * 1000 = -(((vg - vr) * 1000 : Nat) : Int) := by
    push_cast [Nat.cast_sub h.le]
    ring
  rw [heq, truncDiv, hneg, Int.neg_tdiv]
  exact_mod_cast congrArg Neg.neg (Int.tdiv_eq_ediv_of_nonneg (Int.natCast_nonneg _))

/-- A share of the larger of two speeds is at most the whole. -/
theorem share_le (a b : Nat) (h : b ≤ a) : (a - b) * 1000 / a ≤ 1000 := by
  rcases Nat.eq_zero_or_pos a with rfl | ha
  · simp
  · exact Nat.div_le_of_le_mul (by nlinarith [Nat.sub_le a b])

theorem slipOf_bounded (v : SlipValidity) : -1000 ≤ slipOf v vr vg ∧ slipOf v vr vg ≤ 1000 := by
  by_cases hv : v = .valid
  · subst hv
    rcases Nat.lt_or_ge vr vg with h | h
    · have hshare := share_le vg vr h.le
      rw [slipOf_of_sliding vr vg h]
      generalize (vg - vr) * 1000 / vg = q at hshare
      omega
    · have hshare := share_le vr vg h
      rw [slipOf_of_spinning vr vg h]
      generalize (vr - vg) * 1000 / vr = q at hshare
      omega
  · rw [slipOf_of_not_valid vr vg hv]
    decide

end

/-! ## The filtered slip (R14, R15) -/

/-- Division by 8 to the nearest, a tie away from zero. -/
theorem roundEighth_spec (x : Int) : (0 ≤ x → 8 * roundEighth x ≤ x + 4 ∧ x - 4 < 8 * roundEighth x) ∧
    (x < 0 → x - 4 ≤ 8 * roundEighth x ∧ 8 * roundEighth x < x + 4) := by
  refine ⟨fun h => ?_, fun h => ?_⟩
  · have heq : roundEighth x = (x + 4) / 8 := (if_pos h).trans (Int.tdiv_eq_ediv_of_nonneg (by omega))
    omega
  · have heq : roundEighth x = -((4 - x) / 8) := by
      have hneg : x - 4 = -(4 - x) := by ring
      rw [roundEighth, if_neg (by omega), truncDiv, hneg, Int.neg_tdiv, Int.tdiv_eq_ediv_of_nonneg (by omega)]
    omega

section
variable {old : MotionRec} {src : GroundSource} {slip : Int}

theorem filterSlip_loaded (h : src ≠ old.source ∨ old.slipVal ≠ .valid) : filterSlip old src .valid slip = slip :=
  if_pos h

theorem filterSlip_averaged (hsrc : src = old.source) (hval : old.slipVal = .valid) :
    filterSlip old src .valid slip = roundEighth (7 * old.filtered + slip) :=
  if_neg fun h => h.elim (fun k => k hsrc) fun k => k hval

end

/-! ## Standstill and direction (R16, R17) -/

theorem standstillOf_iff (src : GroundSource) (vr vg : Nat) :
    standstillOf src vr vg = true ↔ vr < 100 ∧ (src = .none ∨ vg < 100) := by
  simp [standstillOf]

theorem directionOf_forward_iff (k : Shc) : directionOf k = .forward ↔ k.clutches.fwd.state = .locked := by
  unfold directionOf
  split
  case isTrue h => exact ⟨fun _ => h, fun _ => rfl⟩
  case isFalse h =>
    refine ⟨fun e => ?_, fun e => absurd e h⟩
    split at e <;> exact absurd e nofun

theorem directionOf_reverse_iff (k : Shc) :
    directionOf k = .reverse ↔ k.clutches.fwd.state ≠ .locked ∧ k.clutches.rev.state = .locked := by
  unfold directionOf
  split
  case isTrue h => exact ⟨nofun, fun e => absurd h e.1⟩
  case isFalse h =>
    split
    case isTrue h' => exact ⟨fun _ => ⟨h, h'⟩, fun _ => rfl⟩
    case isFalse h' => exact ⟨nofun, fun e => absurd e.2 h'⟩

/-! ## The record -/

section
variable (e : State)

theorem motionOf_vGround : ((motionOf e).source = .radar → (motionOf e).vGround = (motionOf e).vRadar) ∧
    ((motionOf e).source = .front → (motionOf e).vGround = (motionOf e).vFront) ∧
    ((motionOf e).source = .none → (motionOf e).vGround = (motionOf e).vRear) := by
  have hground : (motionOf e).vGround = groundSpeed e (groundSource e) := rfl
  have hsource : (motionOf e).source = groundSource e := rfl
  rw [hground, hsource]
  refine ⟨fun h => ?_, fun h => ?_, fun h => ?_⟩ <;> rw [h] <;> rfl

/-- The slip of a record, its validity and its filter, by the record's own speeds and the record before. -/
theorem motionOf_slip (m old : MotionRec) (hm : m = motionOf e) (hold : old = e.scu.motion) :
    (m.slipVal ≠ .valid → m.slip = 0) ∧
    (m.slipVal = .valid → m.vGround ≤ m.vRear → m.slip = (((m.vRear - m.vGround) * 1000 / m.vRear : Nat) : Int)) ∧
    (m.slipVal = .valid → m.vRear < m.vGround → m.slip = -(((m.vGround - m.vRear) * 1000 / m.vGround : Nat) : Int)) ∧
    (-1000 ≤ m.slip ∧ m.slip ≤ 1000) ∧
    (m.slipVal = .valid → m.source ≠ old.source ∨ old.slipVal ≠ .valid → m.filtered = m.slip) ∧
    (m.slipVal = .valid → m.source = old.source → old.slipVal = .valid →
      ∀ x : Int, x = 7 * old.filtered + m.slip →
        (0 ≤ x → 8 * m.filtered ≤ x + 4 ∧ x - 4 < 8 * m.filtered) ∧
        (x < 0 → x - 4 ≤ 8 * m.filtered ∧ 8 * m.filtered < x + 4)) ∧
    (m.slipVal = .lowSpeed → m.filtered = 0) ∧
    (m.slipVal = .unavailable → m.filtered = old.filtered) := by
  have hslip : m.slip = slipOf m.slipVal m.vRear m.vGround := by rw [hm]; rfl
  have hfiltered : m.filtered = filterSlip old m.source m.slipVal m.slip := by rw [hm, hold]; rfl
  clear hm hold
  generalize hval : m.slipVal = v at *
  refine ⟨fun h => ?_, ?_, ?_, ?_, ?_, ?_, ?_, ?_⟩
  · rw [hslip, slipOf_of_not_valid _ _ h]
  · rintro rfl h
    rw [hslip, slipOf_of_spinning _ _ h]
  · rintro rfl h
    rw [hslip, slipOf_of_sliding _ _ h]
  · rw [hslip]
    exact slipOf_bounded _ _ _
  · rintro rfl h
    rw [hfiltered, filterSlip_loaded h]
  · rintro rfl hsrc hbefore x rfl
    rw [hfiltered, filterSlip_averaged hsrc hbefore]
    exact roundEighth_spec _
  · rintro rfl
    rw [hfiltered]
    rfl
  · rintro rfl
    rw [hfiltered]
    rfl

end

/-- Settles O16: the record is that of the channels as the three passes leave them. -/
theorem motionRecordOfEvaluation : Obligations.MotionRecordOfEvaluation := by
  intro s hruns
  obtain ⟨hchan, -, hscu, -⟩ := evaluateSpeeds_spec s
  obtain ⟨hpasses, htouch⟩ := evaluateChannels_scu s
  have hold : (evaluateChannels s).scu.motion = s.scu.motion := by rw [hpasses]
  have hcfg : (evaluateChannels s).cfg = s.cfg := htouch .cfg (by decide)
  have hfdc : (evaluateChannels s).fdc = s.fdc := htouch .fdc (by decide)
  have hshc : (evaluateChannels s).shc = s.shc := htouch .shc (by decide)
  refine ⟨_, exec_speedEvaluation hruns, ?_⟩
  rintro m old hm rfl
  have hm' : m = motionOf (evaluateChannels s) := by rw [hm, hscu]
  rw [← hcfg, ← hfdc, ← hshc, ← hold]
  simp only [hchan]
  clear hm hscu hpasses htouch hold hcfg hfdc hshc hchan
  generalize evaluateChannels s = e at *
  obtain ⟨hradar, hfront, hrear⟩ := motionOf_vGround e
  obtain ⟨hzero, hspin, hslide, hbounded, hload, haverage, hlow, hheld⟩ := motionOf_slip e m e.scu.motion hm' rfl
  subst hm'
  refine ⟨rfl, rfl, rfl, rfl, rfl, rfl, rfl, rfl, rfl, rfl, groundSource_radar_iff e, groundSource_front_iff e, hradar,
    hfront, hrear, slipValidity_unavailable_iff _ _ _, slipValidity_lowSpeed_iff _ _ _, hzero, hspin, hslide, hbounded,
    hload, haverage, hlow, hheld, standstillOf_iff _ _ _, directionOf_forward_iff _, directionOf_reverse_iff _, ?_⟩
  have htravel : (motionOf e).travel = e.scu.motion.travel + BitVec.ofNat 32 (10 * (motionOf e).vGround) := rfl
  rw [htravel, BitVec.toNat_add, BitVec.toNat_ofNat, Nat.add_mod_mod]

end Sys2Proof.Proofs
end

