-- ==== Sys2Proof/Proofs/PublishedBytes.lean ====
section
/-! SUPPORT. The bytes of the published groups (R205), read back: the codes of the fields, frames of eight bytes with the
rolling count, and the pages of 6 MOTION and the frame of 10 GEARBOX STATE. -/

namespace Sys2Proof.Proofs

open Sys2Proof Sys2Proof.Machine

/-! ## Flags and words -/

theorem flagAt_eq (b : Bool) (i : Nat) : flagAt b i = 2 ^ i * b.toNat := by
  cases b <;> simp [flagAt]

theorem bitIs_iff (n i : Nat) (b : Bool) : BitIs n i b ↔ n / 2 ^ i % 2 = b.toNat := by
  cases b <;> rfl

theorem decide_toNat {p : Prop} [Decidable p] {b : Bool} (h : b = true ↔ p) : (decide p).toNat = b.toNat := by
  rw [show decide p = b from Bool.eq_iff_iff.mpr (decide_eq_true_iff.trans h.symm)]

theorem be16_word (n : Nat) : (toByte (n / 256)).toNat * 256 + (toByte n).toNat = n % 65536 := by
  rw [toByte_toNat, toByte_toNat]
  omega

theorem be16Int_word (i : Int) : (toByte ((BitVec.ofInt 16 i).toNat / 256)).toNat * 256 +
    (toByte (BitVec.ofInt 16 i).toNat).toNat = signed16 i := by
  rw [be16_word, BitVec.toNat_ofInt, signed16]
  norm_num
  omega

/-! ## A frame of eight bytes with its rolling count (R189) -/

section
variable (a b c d e f g : Byte) {n : Nat} (k : BitVec 4)

/-- Eight bytes, of which the last carries a value in its high half, with the rolling count in its low half. -/
def frameOf (n : Nat) : List Byte := sealCount [a, b, c, d, e, f, g, toByte (16 * n)] k

theorem frameOf_rollingCount (hn : n < 16) : rollingCount (frameOf a b c d e f g k n) = k := by
  have hcount : ∀ (n : Fin 16) (k : BitVec 4),
      BitVec.ofNat 4 (toByte (16 * n.val) ||| k.setWidth 8).toNat = k := by decide +kernel
  exact hcount ⟨n, hn⟩ k

end

/-- What the bytes of such a frame read. -/
theorem bytes_of_frame {a b c d e f g : Byte} {n : Nat} {k : BitVec 4} {x : List Byte} (hx : x = frameOf a b c d e f g k n)
    (hn : n < 16) : byteAt x 0 = a.toNat ∧ byteAt x 1 = b.toNat ∧ byteAt x 2 = c.toNat ∧ byteAt x 3 = d.toNat ∧
    byteAt x 4 = e.toNat ∧ byteAt x 5 = f.toNat ∧ byteAt x 6 = g.toNat ∧ byteAt x 7 / 16 = n := by
  subst hx
  exact ⟨rfl, rfl, rfl, rfl, rfl, rfl, rfl, sealed_high hn k⟩

/-! ## The codes (R205) -/

theorem validityCode_mem (x : Validity) : (x, validityCode x) ∈ [(Validity.stopped, 0), (.moving, 1), (.lost, 2)] := by
  cases x <;> decide

theorem validityCode_lt (x : Validity) : validityCode x < 4 := by cases x <;> decide

theorem sourceCode_mem (x : GroundSource) : (x, sourceCode x) ∈ [(GroundSource.none, 0), (.radar, 1), (.front, 2)] := by
  cases x <;> decide

theorem sourceCode_lt (x : GroundSource) : sourceCode x < 4 := by cases x <;> decide

theorem slipValCode_mem (x : SlipValidity) :
    (x, slipValCode x) ∈ [(SlipValidity.unavailable, 0), (.lowSpeed, 1), (.valid, 2)] := by cases x <;> decide

theorem slipValCode_lt (x : SlipValidity) : slipValCode x < 4 := by cases x <;> decide

theorem dirCode_mem (x : TravelDir) : (x, dirCode x) ∈ [(TravelDir.unknown, 0), (.forward, 1), (.reverse, 2)] := by
  cases x <;> decide

theorem dirCode_lt (x : TravelDir) : dirCode x < 4 := by cases x <;> decide

theorem gearStateCode_mem (x : GearState) : (x, gearStateCode x) ∈ [(GearState.parked, 0), (.neutral, 1), (.engaging, 2),
    (.inGear, 3), (.shifting, 4), (.shuttling, 5), (.faultHold, 6)] := by cases x <;> decide

theorem gearStateCode_lt (x : GearState) : gearStateCode x < 8 := by cases x <;> decide

theorem phaseCode_mem (x : Option Phase) : (x, phaseCode x) ∈ [(none, 0), (some Phase.preselect, 1), (some .ramp, 2),
    (some .fill, 3), (some .torque, 4), (some .inertia, 5), (some .lockup, 6), (some .abort, 7), (some .drain, 8),
    (some .reverseBrake, 9), (some .driveAway, 10)] := by
  rcases x with _ | x
  · decide
  · cases x <;> decide

theorem phaseCode_lt (x : Option Phase) : phaseCode x < 16 := by
  rcases x with _ | x
  · decide
  · cases x <;> decide

theorem shiftKindCode_mem (x : Option ShiftKind) :
    (x, shiftKindCode x) ∈ [(none, 0), (some ShiftKind.up, 1), (some .down, 2)] := by
  rcases x with _ | x
  · decide
  · cases x <;> decide

theorem shiftKindCode_lt (x : Option ShiftKind) : shiftKindCode x < 4 := by
  rcases x with _ | x
  · decide
  · cases x <;> decide

theorem leverCode_mem (x : Lever) : (x, leverCode x) ∈ [(Lever.n, 0), (.f, 1), (.r, 2), (.park, 3)] := by
  cases x <;> decide

theorem leverCode_lt (x : Lever) : leverCode x < 4 := by cases x <;> decide

theorem ignoredCode_mem (x : Option Lever) :
    (x, ignoredCode x) ∈ [(none, 0), (some Lever.n, 1), (some .f, 2), (some .r, 3), (some .park, 4)] := by
  rcases x with _ | x
  · decide
  · cases x <;> decide

theorem ignoredCode_lt (x : Option Lever) : ignoredCode x < 8 := by
  rcases x with _ | x
  · decide
  · cases x <;> decide

theorem shcReasonCode_mem (x : ShcReason) : (x, shcReasonCode x) ∈ [(ShcReason.full, 1), (.overspeed, 2), (.lugging, 3),
    (.noCharge, 4), (.noGear, 5), (.fault, 6), (.speed, 7), (.noEngine, 8)] := by cases x <;> decide

theorem shcReasonCode_lt (x : ShcReason) : shcReasonCode x < 16 := by cases x <;> decide

theorem originCode_mem (x : Origin) : (x, originCode x) ∈ [(Origin.cab, 0), (.headland, 1), (.auto, 2)] := by
  cases x <;> decide

theorem originCode_lt (x : Origin) : originCode x < 4 := by cases x <;> decide

theorem gearIs_gearCode (g : Option Gear) : GearIs (gearCode g) g := by
  rcases g with _ | ⟨d, n⟩
  · rfl
  · cases d <;> rfl

theorem gearCode_lt {g : Option Gear} (h : NameInRange g) : gearCode g < 32 := by
  rcases g with _ | ⟨d, n⟩
  · decide
  · have hn : n ≤ 12 := h ⟨d, n⟩ rfl
    cases d <;> simp only [gearCode] <;> omega

/-! ## 6 MOTION -/

theorem motionBytes_of_page0 {s : State} (h : s.lc.motionPage = 0) (k : BitVec 4) :
    MotionBytes 0 s (sealCount (motionBytes s) k) := by
  have hframe : sealCount (motionBytes s) k = frameOf (toByte (s.scu.motion.vGround / 256)) (toByte s.scu.motion.vGround)
      (toByte (s.scu.motion.vRear / 256)) (toByte s.scu.motion.vRear)
      (toByte ((BitVec.ofInt 16 s.scu.motion.filtered).toNat / 256)) (toByte (BitVec.ofInt 16 s.scu.motion.filtered).toNat)
      (toByte (sourceCode s.scu.motion.source + 4 * slipValCode s.scu.motion.slipVal + flagAt s.scu.motion.standstill 4 +
        32 * dirCode s.scu.motion.direction + flagAt s.scu.motion.radarFitted 7)) k 0 := by
    simp only [motionBytes, h]
    rfl
  obtain ⟨h0, h1, h2, h3, h4, h5, h6, h7⟩ := bytes_of_frame hframe (by decide)
  refine ⟨h7, fun m b hm hb => ⟨fun _ => ?_, nofun, nofun⟩⟩
  rw [h6, toByte_toNat, ← hm, flagAt_eq, flagAt_eq] at hb
  have hsource := sourceCode_lt m.source
  have hslip := slipValCode_lt m.slipVal
  have hdir := dirCode_lt m.direction
  have hstill := m.standstill.toNat_lt
  have hfitted := m.radarFitted.toNat_lt
  have hcode0 : b % 4 = sourceCode m.source := by omega
  have hcode2 : b / 4 % 4 = slipValCode m.slipVal := by omega
  have hcode5 : b / 32 % 4 = dirCode m.direction := by omega
  rw [word16, word16, word16, h0, h1, h2, h3, h4, h5, be16_word, be16_word, be16Int_word, ← hm, hcode0, hcode2, hcode5,
    bitIs_iff, bitIs_iff]
  exact ⟨rfl, rfl, rfl, sourceCode_mem _, slipValCode_mem _, by omega, dirCode_mem _, by omega⟩

theorem motionBytes_of_page1 {s : State} (h : s.lc.motionPage = 1) (k : BitVec 4) :
    MotionBytes 1 s (sealCount (motionBytes s) k) := by
  have hframe : sealCount (motionBytes s) k = frameOf (toByte (s.scu.motion.vFront / 256)) (toByte s.scu.motion.vFront)
      (toByte (s.scu.motion.vRadar / 256)) (toByte s.scu.motion.vRadar)
      (toByte ((BitVec.ofInt 16 s.scu.motion.slip).toNat / 256)) (toByte (BitVec.ofInt 16 s.scu.motion.slip).toNat)
      (toByte (validityCode s.scu.motion.rearVal + 4 * validityCode s.scu.motion.frontVal +
        16 * validityCode s.scu.motion.radarVal + 64 * validityCode s.scu.motion.inputVal)) k 1 := by
    simp only [motionBytes, h]
    rfl
  obtain ⟨h0, h1, h2, h3, h4, h5, h6, h7⟩ := bytes_of_frame hframe (by decide)
  refine ⟨h7, fun m b hm hb => ⟨nofun, fun _ => ?_, nofun⟩⟩
  rw [h6, toByte_toNat, ← hm] at hb
  rw [word16, word16, word16, h0, h1, h2, h3, h4, h5, be16_word, be16_word, be16Int_word, ← hm]
  refine ⟨rfl, rfl, rfl, fun v i hv => ?_⟩
  have hrear := validityCode_lt m.rearVal
  have hfront := validityCode_lt m.frontVal
  have hradar := validityCode_lt m.radarVal
  have hinput := validityCode_lt m.inputVal
  have hcode : b / 4 ^ i % 4 = validityCode v := by
    simp only [List.mem_cons, Prod.mk.injEq, List.not_mem_nil, or_false] at hv
    rcases hv with ⟨rfl, rfl⟩ | ⟨rfl, rfl⟩ | ⟨rfl, rfl⟩ | ⟨rfl, rfl⟩ <;> omega
  rw [hcode]
  exact validityCode_mem v

theorem motionBytes_of_page2 {s : State} (h : s.lc.motionPage = 2) (k : BitVec 4) :
    MotionBytes 2 s (sealCount (motionBytes s) k) := by
  have hframe : sealCount (motionBytes s) k = frameOf (toByte (s.scu.motion.inpRpm / 256)) (toByte s.scu.motion.inpRpm)
      (toByte (s.scu.motion.outRpm / 256)) (toByte s.scu.motion.outRpm) (toByte (s.scu.motion.travel.toNat / 2 ^ 24))
      (toByte (s.scu.motion.travel.toNat / 2 ^ 16)) (toByte (s.scu.motion.travel.toNat / 2 ^ 8)) k 2 := by
    simp only [motionBytes, h]
    rfl
  obtain ⟨h0, h1, h2, h3, h4, h5, h6, h7⟩ := bytes_of_frame hframe (by decide)
  refine ⟨h7, fun m b hm hb => ⟨nofun, nofun, fun _ => ?_⟩⟩
  rw [h6, toByte_toNat, ← hm] at hb
  rw [word16, word16, h0, h1, h2, h3, h4, h5, be16_word, be16_word, toByte_toNat, toByte_toNat, ← hm]
  have htravel := m.travel.isLt
  exact ⟨rfl, rfl, by omega⟩

theorem motionBytes_spec {s : State} (h : s.lc.motionPage ≤ 2) (k : BitVec 4) :
    MotionBytes s.lc.motionPage s (sealCount (motionBytes s) k) := by
  generalize hp : s.lc.motionPage = p at h
  interval_cases p
  · exact motionBytes_of_page0 hp k
  · exact motionBytes_of_page1 hp k
  · exact motionBytes_of_page2 hp k

/-! ## 10 GEARBOX STATE -/

/-- The byte of the last refusal, and 0 without one. -/
def refusalByte (k : Shc) : Byte :=
  match k.lastRefusal with
  | some (r, o) => toByte (shcReasonCode r + 16 * originCode o)
  | none => 0

theorem refusalByte_spec (k : Shc) : (k.lastRefusal = none → (refusalByte k).toNat = 0) ∧
    ∀ (r : ShcReason) (o : Origin), k.lastRefusal = some (r, o) →
      (r, (refusalByte k).toNat % 16) ∈ [(ShcReason.full, 1), (.overspeed, 2), (.lugging, 3), (.noCharge, 4),
        (.noGear, 5), (.fault, 6), (.speed, 7), (.noEngine, 8)] ∧
      (o, (refusalByte k).toNat / 16) ∈ [(Origin.cab, 0), (.headland, 1), (.auto, 2)] := by
  refine ⟨fun h => by simp only [refusalByte, h]; rfl, fun r o h => ?_⟩
  have hbyte : (refusalByte k).toNat = (shcReasonCode r + 16 * originCode o) % 256 := by
    simp only [refusalByte, h, toByte_toNat]
  have hr := shcReasonCode_lt r
  have ho := originCode_lt o
  have hcode0 : (refusalByte k).toNat % 16 = shcReasonCode r := by omega
  have hcode4 : (refusalByte k).toNat / 16 = originCode o := by omega
  rw [hcode0, hcode4]
  exact ⟨shcReasonCode_mem r, originCode_mem o⟩

theorem gearboxBytes_spec (s : State) (c : BitVec 4) : GearboxBytes s.shc (sealCount (gearboxBytes s) c) := by
  intro hcurrent htarget hselected hpedal hqueue
  have hframe : sealCount (gearboxBytes s) c = frameOf
      (toByte (gearStateCode s.shc.state + 8 * phaseCode s.shc.phase + flagAt s.shc.auto 7))
      (toByte (gearCode s.shc.current + 32 * shiftKindCode s.shc.kind + flagAt (!s.shc.parkReleased) 7))
      (toByte (gearCode s.shc.target + 32 * leverCode s.shc.lever + flagAt s.shc.pendingPark 7))
      (toByte (gearCode s.shc.selected + 32 * ignoredCode s.shc.ignored))
      (toByte (s.shc.pedal + flagAt s.shc.pendingShuttle 7)) (refusalByte s.shc) s.shc.refusals c
      (4 - s.shc.queue.length) := rfl
  obtain ⟨h0, h1, h2, h3, h4, h5, h6, h7⟩ := bytes_of_frame hframe (by omega)
  generalize sealCount (gearboxBytes s) c = x at *
  generalize s.shc = k at *
  rw [toByte_toNat, flagAt_eq] at h0 h1 h2 h4
  rw [toByte_toNat] at h3
  have hstate := gearStateCode_lt k.state
  have hphase := phaseCode_lt k.phase
  have hkind := shiftKindCode_lt k.kind
  have hlever := leverCode_lt k.lever
  have hignored := ignoredCode_lt k.ignored
  have hgear1 := gearCode_lt hcurrent
  have hgear2 := gearCode_lt htarget
  have hgear3 := gearCode_lt hselected
  have hauto := k.auto.toNat_lt
  have hreleased := (!k.parkReleased).toNat_lt
  have hpark := k.pendingPark.toNat_lt
  have hshuttle := k.pendingShuttle.toNat_lt
  obtain ⟨hnone, hrefused⟩ := refusalByte_spec k
  rw [← h5] at hnone hrefused
  have hcodes : byteAt x 0 % 8 = gearStateCode k.state ∧ byteAt x 0 / 8 % 16 = phaseCode k.phase ∧
      byteAt x 1 % 32 = gearCode k.current ∧ byteAt x 1 / 32 % 4 = shiftKindCode k.kind ∧
      byteAt x 2 % 32 = gearCode k.target ∧ byteAt x 2 / 32 % 4 = leverCode k.lever ∧
      byteAt x 3 % 32 = gearCode k.selected ∧ byteAt x 3 / 32 = ignoredCode k.ignored := by
    refine ⟨?_, ?_, ?_, ?_, ?_, ?_, ?_, ?_⟩ <;> omega
  obtain ⟨c0, c1, c2, c3, c4, c5, c6, c7⟩ := hcodes
  simp only [c0, c1, c2, c3, c4, c5, c6, c7, bitIs_iff]
  exact ⟨gearStateCode_mem _, phaseCode_mem _, by omega, gearIs_gearCode _, shiftKindCode_mem _, by omega,
    gearIs_gearCode _, leverCode_mem _, by omega, gearIs_gearCode _, ignoredCode_mem _, by omega, by omega, hnone,
    hrefused, h6, h7⟩

end Sys2Proof.Proofs
end

