-- ==== Sys2Proof/Proofs/DriveAndTrailerBytes.lean ====
section
/-! SUPPORT. The bytes of 14 DRIVE AND HITCH STATE, page by page, and of 18 TRAILER STATE (R205), read back. -/

namespace Sys2Proof.Proofs

open Sys2Proof Sys2Proof.Machine

/-! ## The codes (R205) -/

theorem fdcCode_mem (x : FdcState) : (x, fdcCode x) ∈ [(FdcState.engaged, 0), (.releasing, 1), (.released, 2),
    (.engaging, 3)] := by cases x <;> decide

theorem fdcCode_lt (x : FdcState) : fdcCode x < 4 := by cases x <;> decide

theorem frontCode_mem (x : FrontMode) : (x, frontCode x) ∈ [(FrontMode.off, 0), (.on, 1), (.auto, 2)] := by
  cases x <;> decide

theorem frontCode_lt (x : FrontMode) : frontCode x < 4 := by cases x <;> decide

theorem modeSourceCode_mem (x : ModeSource) : (x, modeSourceCode x) ∈ [(ModeSource.cab, 0), (.headland, 1)] := by
  cases x <;> decide

theorem modeSourceCode_lt (x : ModeSource) : modeSourceCode x < 2 := by cases x <;> decide

theorem grantCauseCode_mem (x : Option GrantCause) :
    (x, grantCauseCode x) ∈ [(none, 0), (some GrantCause.lowPressure, 1), (some .supplyUnknown, 2)] := by
  rcases x with _ | x
  · decide
  · cases x <;> decide

theorem grantCauseCode_lt (x : Option GrantCause) : grantCauseCode x < 4 := by
  rcases x with _ | x
  · decide
  · cases x <;> decide

theorem hitchCode_mem (x : HitchState) : (x, hitchCode x) ∈ [(HitchState.startLock, 0), (.held, 1), (.raising, 2),
    (.transport, 3), (.working, 4), (.fender, 5), (.faultHold, 6)] := by cases x <;> decide

theorem hitchCode_lt (x : HitchState) : hitchCode x < 8 := by cases x <;> decide

theorem holdCode_mem (x : Option HoldCause) : (x, holdCode x) ∈ [(none, 0), (some HoldCause.fender, 1),
    (some .cabLost, 2), (some .sourceLost, 3), (some .stop, 4), (some .fault, 5)] := by
  rcases x with _ | x
  · decide
  · cases x <;> decide

theorem holdCode_lt (x : Option HoldCause) : holdCode x < 8 := by
  rcases x with _ | x
  · decide
  · cases x <;> decide

theorem faultCauseCode_mem (x : Option FaultCause) :
    (x, faultCauseCode x) ∈ [(none, 0), (some FaultCause.position, 1), (some .valve, 2)] := by
  rcases x with _ | x
  · decide
  · cases x <;> decide

theorem faultCauseCode_lt (x : Option FaultCause) : faultCauseCode x < 4 := by
  rcases x with _ | x
  · decide
  · cases x <;> decide

theorem runCode_mem (x : RunState) : (x, runCode x) ∈ [(RunState.idle, 0), (.running, 1), (.done, 2), (.aborted, 3)] := by
  cases x <;> decide

theorem runCode_lt (x : RunState) : runCode x < 4 := by cases x <;> decide

theorem seqCode_mem (x : Option SeqKind) : (x, seqCode x) ∈ [(none, 0), (some SeqKind.entry, 1), (some .exit, 2)] := by
  rcases x with _ | x
  · decide
  · cases x <;> decide

theorem seqCode_lt (x : Option SeqKind) : seqCode x < 4 := by
  rcases x with _ | x
  · decide
  · cases x <;> decide

theorem causeCode_mem (x : Option AbortCause) : (x, causeCode x) ∈ [(none, 0), (some AbortCause.cancel, 1),
    (some .cabRequest, 2), (some .lever, 3), (some .shuttle, 4), (some .mode, 5)] := by
  rcases x with _ | x
  · decide
  · cases x <;> decide

theorem causeCode_lt (x : Option AbortCause) : causeCode x < 8 := by
  rcases x with _ | x
  · decide
  · cases x <;> decide

theorem stepReasonCode_mem (x : StepReason) : (x, stepReasonCode x) ∈ [(StepReason.shc .full, 1), (.shc .overspeed, 2),
    (.shc .lugging, 3), (.shc .noCharge, 4), (.shc .noGear, 5), (.shc .fault, 6), (.htc .fault, 6), (.shc .speed, 7),
    (.shc .noEngine, 8), (.htc .locked, 9), (.htc .busyLocal, 10), (.htc .stale, 11)] := by
  rcases x with r | r <;> cases r <;> decide

theorem stepReasonCode_lt (x : StepReason) : stepReasonCode x < 16 := by
  rcases x with r | r <;> cases r <;> decide

theorem trailerCode_mem (x : TrailerState) : (x, trailerCode x) ∈ [(TrailerState.absent, 0), (.charging, 1), (.ready, 2),
    (.parked, 3), (.supplyFault, 4), (.breakaway, 5)] := by cases x <;> decide

theorem trailerCode_lt (x : TrailerState) : trailerCode x < 8 := by cases x <;> decide

theorem brakeSourceCode_mem (x : BrakeSource) :
    (x, brakeSourceCode x) ∈ [(BrakeSource.none, 0), (.own, 1), (.station, 2)] := by cases x <;> decide

theorem brakeSourceCode_lt (x : BrakeSource) : brakeSourceCode x < 4 := by cases x <;> decide

theorem contributorCode_mem (x : Contributor) :
    (x, contributorCode x) ∈ [(Contributor.none, 0), (.brake, 1), (.overrun, 2), (.shuttle, 3)] := by
  cases x <;> decide

theorem contributorCode_lt (x : Contributor) : contributorCode x < 4 := by cases x <;> decide

theorem toNat_beq_eq_decide {α : Type} [BEq α] [LawfulBEq α] (a b : α) [Decidable (a = b)] :
    (decide (a = b)).toNat = (a == b).toNat := decide_toNat beq_iff_eq

/-! ## 14 DRIVE AND HITCH STATE -/

/-- The bit of each reason in the reason set. -/
theorem reasonBits_bit {r : Reasons} {i : Nat} {b : Bool} (h : (i, b) ∈ [(0, r.modeOn), (1, r.autoSpeed), (2, r.autoSlip),
    (3, r.braking), (4, r.brakeUnmeasured), (5, r.lowCharge), (6, r.shuttle), (7, r.standstill), (8, r.fault),
    (9, r.start)]) : BitIs (reasonBits r % 65536) i b := by
  have h0 := r.modeOn.toNat_lt
  have h1 := r.autoSpeed.toNat_lt
  have h2 := r.autoSlip.toNat_lt
  have h3 := r.braking.toNat_lt
  have h4 := r.brakeUnmeasured.toNat_lt
  have h5 := r.lowCharge.toNat_lt
  have h6 := r.shuttle.toNat_lt
  have h7 := r.standstill.toNat_lt
  have h8 := r.fault.toNat_lt
  have h9 := r.start.toNat_lt
  have hbits : reasonBits r = r.modeOn.toNat + 2 * r.autoSpeed.toNat + 4 * r.autoSlip.toNat + 8 * r.braking.toNat +
      16 * r.brakeUnmeasured.toNat + 32 * r.lowCharge.toNat + 64 * r.shuttle.toNat + 128 * r.standstill.toNat +
      256 * r.fault.toNat + 512 * r.start.toNat := by
    simp only [reasonBits, flagAt_eq]
    omega
  rw [bitIs_iff, hbits]
  simp only [List.mem_cons, Prod.mk.injEq, List.not_mem_nil, or_false] at h
  rcases h with ⟨rfl, rfl⟩ | ⟨rfl, rfl⟩ | ⟨rfl, rfl⟩ | ⟨rfl, rfl⟩ | ⟨rfl, rfl⟩ | ⟨rfl, rfl⟩ | ⟨rfl, rfl⟩ | ⟨rfl, rfl⟩ |
    ⟨rfl, rfl⟩ | ⟨rfl, rfl⟩ <;> omega

theorem driveHitchBytes_of_page0 {s : State} (h : s.lc.drivePage = 0) (k : BitVec 4) :
    DriveHitchBytes 0 s (sealCount (driveHitchBytes s) k) := by
  have hframe : sealCount (driveHitchBytes s) k = frameOf
      (toByte (fdcCode s.fdc.state + 4 * frontCode s.fdc.mode + 16 * modeSourceCode s.fdc.source +
        flagAt s.vdb.grant.suspended 5 + 64 * grantCauseCode s.vdb.grant.cause))
      (toByte (reasonBits s.fdc.reasons / 256)) (toByte (reasonBits s.fdc.reasons)) (toByte (s.vdb.grant.count / 256))
      (toByte s.vdb.grant.count) 0 0 k 0 := by
    simp only [driveHitchBytes, h]
    rfl
  obtain ⟨h0, h1, h2, h3, h4, -, -, h7⟩ := bytes_of_frame hframe (by decide)
  refine ⟨h7, fun _ f g hf hg => ?_, nofun, nofun, nofun⟩
  rw [toByte_toNat, ← hf, ← hg, flagAt_eq] at h0
  rw [← hf] at h1 h2
  rw [← hg] at h3 h4
  have hstate := fdcCode_lt f.state
  have hmode := frontCode_lt f.mode
  have hsource := modeSourceCode_lt f.source
  have hcause := grantCauseCode_lt g.cause
  have hsuspended := g.suspended.toNat_lt
  have hcode0 : byteAt (sealCount (driveHitchBytes s) k) 0 % 4 = fdcCode f.state := by omega
  have hcode2 : byteAt (sealCount (driveHitchBytes s) k) 0 / 4 % 4 = frontCode f.mode := by omega
  have hcode4 : byteAt (sealCount (driveHitchBytes s) k) 0 / 16 % 2 = modeSourceCode f.source := by omega
  have hcode6 : byteAt (sealCount (driveHitchBytes s) k) 0 / 64 = grantCauseCode g.cause := by omega
  rw [hcode0, hcode2, hcode4, hcode6, word16, word16, h1, h2, h3, h4, be16_word, be16_word, bitIs_iff]
  exact ⟨fdcCode_mem _, frontCode_mem _, modeSourceCode_mem _, by omega, grantCauseCode_mem _,
    fun i b hb => reasonBits_bit hb, rfl⟩

theorem driveHitchBytes_of_page1 {s : State} (h : s.lc.drivePage = 1) (k : BitVec 4) :
    DriveHitchBytes 1 s (sealCount (driveHitchBytes s) k) := by
  have hframe : sealCount (driveHitchBytes s) k = frameOf
      (toByte (hitchCode s.htc.state + 8 * holdCode s.htc.holdCause + 64 * faultCauseCode s.htc.faultCause))
      (toByte ((s.htc.position.toNat + flagAt s.htc.posValid 10 + flagAt (s.htc.source == .implement) 11 +
        flagAt s.htc.slipOn 12 + flagAt (s.htc.slipSource == .headland) 13) / 256))
      (toByte (s.htc.position.toNat + flagAt s.htc.posValid 10 + flagAt (s.htc.source == .implement) 11 +
        flagAt s.htc.slipOn 12 + flagAt (s.htc.slipSource == .headland) 13))
      (toByte (s.htc.depth / 256)) (toByte s.htc.depth)
      (toByte (flagAt s.htc.overload 0 + flagAt s.htc.damping 1 + flagAt s.htc.slipOverride 2 +
        flagAt s.htc.refused 3 + flagAt (s.htc.holdCause == some .sourceLost) 4)) 0 k 1 := by
    simp only [driveHitchBytes, h]
    rfl
  obtain ⟨h0, h1, h2, h3, h4, h5, -, h7⟩ := bytes_of_frame hframe (by decide)
  refine ⟨h7, nofun, fun _ m hm hposition hdepth => ?_, nofun, nofun⟩
  rw [toByte_toNat, ← hm] at h0
  rw [toByte_toNat, ← hm] at h5
  rw [← hm] at h1 h2 h3 h4
  simp only [flagAt_eq, ← toNat_beq_eq_decide] at h1 h2 h5
  have hstate := hitchCode_lt m.state
  have hhold := holdCode_lt m.holdCause
  have hfault := faultCauseCode_lt m.faultCause
  have hcode0 : byteAt (sealCount (driveHitchBytes s) k) 0 % 8 = hitchCode m.state := by omega
  have hcode3 : byteAt (sealCount (driveHitchBytes s) k) 0 / 8 % 8 = holdCode m.holdCause := by omega
  have hcode6 : byteAt (sealCount (driveHitchBytes s) k) 0 / 64 = faultCauseCode m.faultCause := by omega
  have hvalid := m.posValid.toNat_lt
  have hsource := (decide (m.source = .implement)).toNat_lt
  have hslip := m.slipOn.toNat_lt
  have hslipSource := (decide (m.slipSource = .headland)).toNat_lt
  have hoverload := m.overload.toNat_lt
  have hdamping := m.damping.toNat_lt
  have hoverride := m.slipOverride.toNat_lt
  have hrefused := m.refused.toNat_lt
  have hlost := (decide (m.holdCause = some .sourceLost)).toNat_lt
  rw [hcode0, hcode3, hcode6, word16, word16, h1, h2, h3, h4, h5, be16_word, be16_word]
  simp only [bitIs_iff]
  refine ⟨hitchCode_mem _, holdCode_mem _, faultCauseCode_mem _, ?_, ?_, ?_, ?_, ?_, ?_, ?_, ?_, ?_, ?_, ?_⟩ <;> omega

theorem driveHitchBytes_of_page2 {s : State} (h : s.lc.drivePage = 2) (k : BitVec 4) :
    DriveHitchBytes 2 s (sealCount (driveHitchBytes s) k) := by
  have hframe : sealCount (driveHitchBytes s) k = frameOf (toByte ((BitVec.ofInt 16 s.htc.draft).toNat / 256))
      (toByte (BitVec.ofInt 16 s.htc.draft).toNat) (toByte ((BitVec.ofInt 16 (s.htc.mixed.getD 0)).toNat / 256))
      (toByte (BitVec.ofInt 16 (s.htc.mixed.getD 0)).toNat) (toByte (s.htc.hrv / 5)) (toByte (s.htc.hlv / 5))
      (toByte (flagAt s.htc.draftValid 0 + flagAt s.htc.mixed.isNone 1)) k 2 := by
    simp only [driveHitchBytes, h]
    rfl
  obtain ⟨h0, h1, h2, h3, h4, h5, h6, h7⟩ := bytes_of_frame hframe (by decide)
  refine ⟨h7, nofun, nofun, fun _ m hm hhrv hhlv => ?_, nofun⟩
  rw [toByte_toNat, ← hm] at h4 h5 h6
  rw [flagAt_eq, flagAt_eq] at h6
  have hvalid := m.draftValid.toNat_lt
  have hnone := m.mixed.isNone.toNat_lt
  rw [word16, word16, h0, h1, h2, h3, h4, h5, h6, be16Int_word, be16Int_word, ← hm, bitIs_iff, bitIs_iff]
  exact ⟨rfl, rfl, by omega, by omega, by omega, by omega⟩

/-- The bytes of the last refused step: its reason over the run's index, its list and index, its action. -/
def refusedStepBytes (q : Hsq) : Nat × Nat × Nat :=
  match q.lastRefused with
  | some (r, why) => (16 * stepReasonCode why, seqCode (some r.kind) + 4 * r.index, actionCode r.action)
  | none => (0, 0, 0)

theorem driveHitchBytes_of_page3 {s : State} (h : s.lc.drivePage = 3) (k : BitVec 4) :
    DriveHitchBytes 3 s (sealCount (driveHitchBytes s) k) := by
  have hframe : sealCount (driveHitchBytes s) k = frameOf
      (toByte (runCode s.hsq.state + 4 * seqCode s.hsq.kind + flagAt (s.hsq.nextKind == .exit) 4 +
        32 * causeCode s.hsq.cause))
      (toByte (s.hsq.index + (refusedStepBytes s.hsq).1)) (toByte (refusedStepBytes s.hsq).2.1)
      (toByte (refusedStepBytes s.hsq).2.2) 0 0 0 k 3 := by
    simp only [driveHitchBytes, h, refusedStepBytes]
    cases s.hsq.lastRefused <;> rfl
  obtain ⟨h0, h1, h2, h3, -, -, -, h7⟩ := bytes_of_frame hframe (by decide)
  refine ⟨h7, nofun, nofun, nofun, fun _ q hq hindex => ?_⟩
  rw [toByte_toNat, ← hq] at h0 h1 h2 h3
  rw [flagAt_eq, ← toNat_beq_eq_decide] at h0
  have hstate := runCode_lt q.state
  have hkind := seqCode_lt q.kind
  have hcause := causeCode_lt q.cause
  have hnext := (decide (q.nextKind = .exit)).toNat_lt
  have hcode0 : byteAt (sealCount (driveHitchBytes s) k) 0 % 4 = runCode q.state := by omega
  have hcode2 : byteAt (sealCount (driveHitchBytes s) k) 0 / 4 % 4 = seqCode q.kind := by omega
  have hcode5 : byteAt (sealCount (driveHitchBytes s) k) 0 / 32 = causeCode q.cause := by omega
  have hlow : (q.index + (refusedStepBytes q).1) % 256 % 16 = q.index := by
    unfold refusedStepBytes
    rcases q.lastRefused with _ | ⟨r, why⟩ <;> simp only <;> omega
  rw [hcode0, hcode2, hcode5, h1, h2, h3, bitIs_iff]
  refine ⟨runCode_mem _, seqCode_mem _, by omega, causeCode_mem _, hlow, fun hnone => ?_, fun r why hwhy hr => ?_⟩
  · have hbytes : refusedStepBytes q = (0, 0, 0) := by rw [refusedStepBytes, hnone]
    rw [hbytes]
    exact ⟨by omega, rfl, rfl⟩
  · have hbytes : refusedStepBytes q =
        (16 * stepReasonCode why, seqCode (some r.kind) + 4 * r.index, actionCode r.action) := by
      rw [refusedStepBytes, hwhy]
    rw [hbytes]
    simp only
    have hreason := stepReasonCode_lt why
    have hlist := seqCode_lt (some r.kind)
    have hcodeReason : (q.index + 16 * stepReasonCode why) % 256 / 16 = stepReasonCode why := by omega
    have hcodeList : (seqCode (some r.kind) + 4 * r.index) % 256 % 4 = seqCode (some r.kind) := by omega
    rw [hcodeReason, hcodeList]
    refine ⟨stepReasonCode_mem _, ?_, by omega, ?_⟩
    · cases r.kind <;> decide
    · cases r.action <;> rfl

theorem driveHitchBytes_spec {s : State} (h : s.lc.drivePage ≤ 3) (k : BitVec 4) :
    DriveHitchBytes s.lc.drivePage s (sealCount (driveHitchBytes s) k) := by
  generalize hp : s.lc.drivePage = p at h
  interval_cases p
  · exact driveHitchBytes_of_page0 hp k
  · exact driveHitchBytes_of_page1 hp k
  · exact driveHitchBytes_of_page2 hp k
  · exact driveHitchBytes_of_page3 hp k

/-! ## 18 TRAILER STATE -/

theorem trailerBytes_frame (s : State) (k : BitVec 4) : sealCount (trailerBytes s) k = frameOf
    (toByte ((s.tbc.brake.getD 2047 + 2048 * brakeSourceCode s.tbc.brakeSource + 8192 * trailerCode s.tbc.state) / 256))
    (toByte (s.tbc.brake.getD 2047 + 2048 * brakeSourceCode s.tbc.brakeSource + 8192 * trailerCode s.tbc.state))
    (toByte ((s.tbc.demand + 2048 * contributorCode s.tbc.contributor + flagAt s.tbc.coupled 13 +
      flagAt s.tbc.overpressure 14 + flagAt s.tbc.supplyLow 15) / 256))
    (toByte (s.tbc.demand + 2048 * contributorCode s.tbc.contributor + flagAt s.tbc.coupled 13 +
      flagAt s.tbc.overpressure 14 + flagAt s.tbc.supplyLow 15))
    (toByte (s.tbc.tcl.toNat / 10)) (toByte (s.tbc.tsl.toNat / 10)) (BitVec.ofInt 8 (truncDiv s.tbc.correction 2)) k
    ((s.tbc.tclState == .valid).toNat + 2 * (s.tbc.tslState == .valid).toNat) := by
  have hlast : 16 * ((s.tbc.tclState == .valid).toNat + 2 * (s.tbc.tslState == .valid).toNat) =
      flagAt (s.tbc.tclState == .valid) 4 + flagAt (s.tbc.tslState == .valid) 5 := by
    rw [flagAt_eq, flagAt_eq]
    omega
  rw [frameOf, hlast]
  rfl

theorem trailerBytes_spec (s : State) (k : BitVec 4) : TrailerBytes s.tbc (sealCount (trailerBytes s) k) := by
  intro hbrake hdemand
  have hframe := trailerBytes_frame s k
  generalize sealCount (trailerBytes s) k = x at *
  generalize s.tbc = t at *
  have hvalid := (t.tclState == .valid).toNat_lt
  have hsupply := (t.tslState == .valid).toNat_lt
  obtain ⟨h0, h1, h2, h3, h4, h5, h6, h7⟩ := bytes_of_frame hframe (by omega)
  simp only [flagAt_eq] at h2 h3
  have hpressure : t.brake.getD 2047 < 2048 := by
    rcases hp : t.brake with _ | p
    · decide
    · have := hbrake p hp
      simp only [Option.getD_some]
      omega
  have hsource := brakeSourceCode_lt t.brakeSource
  have hstate := trailerCode_lt t.state
  have hcontributor := contributorCode_lt t.contributor
  have hcoupled := t.coupled.toNat_lt
  have hover := t.overpressure.toNat_lt
  have hlow := t.supplyLow.toNat_lt
  have hword0 : word16 x 0 =
      t.brake.getD 2047 + 2048 * brakeSourceCode t.brakeSource + 8192 * trailerCode t.state := by
    rw [word16, h0, h1, be16_word]
    omega
  have hword2 : word16 x 2 = t.demand + 2048 * contributorCode t.contributor + 2 ^ 13 * t.coupled.toNat +
      2 ^ 14 * t.overpressure.toNat + 2 ^ 15 * t.supplyLow.toNat := by
    rw [word16, h2, h3, be16_word]
    omega
  have hcode11 : word16 x 0 / 2048 % 4 = brakeSourceCode t.brakeSource := by omega
  have hcode13 : word16 x 0 / 8192 = trailerCode t.state := by omega
  have hcode27 : word16 x 2 / 2048 % 4 = contributorCode t.contributor := by omega
  rw [hcode11, hcode13, hcode27, h4, h5, h6, toByte_toNat, toByte_toNat, BitVec.toNat_ofInt]
  simp only [bitIs_iff, toNat_beq_eq_decide]
  refine ⟨?_, brakeSourceCode_mem _, trailerCode_mem _, by omega, contributorCode_mem _, by omega, by omega, by omega,
    trivial, trivial, rfl, by omega, by omega⟩
  have hgetD : word16 x 0 % 2048 = t.brake.getD 2047 := by omega
  rw [hgetD]
  cases t.brake <;> rfl

end Sys2Proof.Proofs
end

