-- ==== Sys2Proof/Proofs/PeriodicFrames.lean ====
section
/-! PROOF. O49: PERIOD_TIMER and TORQUE_LIMIT_TIMER make a frame of their group from the records as they stand (R189,
R195 to R198, R205). -/

namespace Sys2Proof.Proofs

open Sys2Proof Sys2Proof.Machine

/-! ## 24 FAULT REPORT and 44 IDENTITY -/

theorem severityCode_mem (x : Severity) : (x, severityCode x) ∈ [(Severity.info, 0), (.degraded, 1), (.stop, 2)] := by
  cases x <;> decide

theorem severityCode_lt (x : Severity) : severityCode x < 4 := by cases x <;> decide

theorem modeCode_mem (x : Mode) : (x, modeCode x) ∈ [(Mode.loading, 0), (.limp, 1), (.calibrating, 2), (.operating, 3),
    (.restarting, 4), (.stopping, 5), (.dormant, 6), (.awakeNoKey, 7)] := by cases x <;> decide

theorem modeCode_lt (x : Mode) : modeCode x < 8 := by cases x <;> decide

theorem number_lt (c : FaultCode) : c.number < 256 := by
  cases c with
  | lost x => cases x <;> decide
  | stream x => cases x <;> decide
  | outOpen x => cases x <;> decide
  | outShort x => cases x <;> decide
  | _ => decide

theorem identityBytes_frame (s : State) (k : BitVec 4) : sealCount (identityBytes s) k = frameOf (toByte 94)
    (toByte (4200 / 256)) (toByte 4200) Config.siliconRevision (toByte s.mc.slot) (toByte (s.mc.version / 256))
    (toByte s.mc.version) k (modeCode s.mc.mode + 8 * (s.mc.mode == .restarting).toNat) := by
  have hlast : 16 * (modeCode s.mc.mode + 8 * (s.mc.mode == .restarting).toNat) =
      16 * modeCode s.mc.mode + flagAt (s.mc.mode == .restarting) 7 := by
    rw [flagAt_eq]
    omega
  rw [frameOf, hlast]
  rfl

/-- 44 IDENTITY: the model number, the slot, the version, the mode and the restart flag. -/
def IdentityRead (s : State) (d : List Byte) : Prop :=
  byteAt d 0 = 94 ∧ word16 d 1 = 4200 ∧ byteAt d 4 = s.mc.slot % 256 ∧ word16 d 5 = s.mc.version % 65536 ∧
    BitIs (byteAt d 7) 7 (decide (s.mc.mode = .restarting)) ∧
    (s.mc.mode, byteAt d 7 / 16 % 8) ∈ [(.loading, 0), (.limp, 1), (.calibrating, 2), (.operating, 3), (.restarting, 4),
      (.stopping, 5), (.dormant, 6), (.awakeNoKey, 7)]

theorem identityBytes_spec (s : State) (k : BitVec 4) : IdentityRead s (sealCount (identityBytes s) k) := by
  have hframe := identityBytes_frame s k
  generalize sealCount (identityBytes s) k = x at *
  have hmode := modeCode_lt s.mc.mode
  have hrestart := (s.mc.mode == .restarting).toNat_lt
  obtain ⟨h0, h1, h2, -, h4, h5, h6, h7⟩ := bytes_of_frame hframe (by omega)
  have hcode : byteAt x 7 / 16 % 8 = modeCode s.mc.mode := by omega
  rw [IdentityRead, h0, h4, hcode, word16, word16, h1, h2, h5, h6, be16_word, be16_word, toByte_toNat, bitIs_iff,
    toNat_beq_eq_decide]
  exact ⟨rfl, rfl, rfl, rfl, by omega, modeCode_mem _⟩

theorem faultBytes_frame_of_none {s : State} (h : s.mc.faults[reportCursor s]? = none) (k : BitVec 4) :
    sealCount (faultBytes s) k = frameOf 0 0 0 0 0 0 0 k 4 := by
  rw [faultBytes, h]
  rfl

theorem faultBytes_frame_of_some {s : State} {e : FaultEntry} (h : s.mc.faults[reportCursor s]? = some e) (k : BitVec 4) :
    sealCount (faultBytes s) k = frameOf (toByte e.code.number)
      (toByte (severityCode e.code.severity + flagAt e.active 2 + 8 * s.activeCount)) (toByte e.count)
      (toByte (e.first / 256)) (toByte e.first) (toByte (e.last / 256)) (toByte e.last) k
      (s.mc.full.toNat + 2 * e.latched.toNat + 4 * (reportCursor s + 1 == s.mc.faults.length).toNat) := by
  have hlast : 16 * (s.mc.full.toNat + 2 * e.latched.toNat +
      4 * (reportCursor s + 1 == s.mc.faults.length).toNat) =
      flagAt s.mc.full 4 + flagAt e.latched 5 + flagAt (reportCursor s + 1 == s.mc.faults.length) 6 := by
    simp only [flagAt_eq]
    omega
  rw [faultBytes, h, frameOf, hlast]
  rfl

/-- The entry at the cursor in the frame of 24 FAULT REPORT. -/
def FaultRead (s : State) (e : FaultEntry) (i : Nat) (d : List Byte) : Prop :=
  byteAt d 0 = e.code.number ∧
    (e.code.severity, byteAt d 1 % 4) ∈ [(.info, 0), (.degraded, 1), (.stop, 2)] ∧
    BitIs (byteAt d 1) 2 (e.present || e.latched) ∧
    byteAt d 1 / 8 = (s.mc.faults.filter fun y => y.present || y.latched).length ∧
    byteAt d 2 = e.count % 256 ∧ word16 d 3 = e.first % 65536 ∧ word16 d 5 = e.last % 65536 ∧
    BitIs (byteAt d 7) 4 s.mc.full ∧ BitIs (byteAt d 7) 5 e.latched ∧
    BitIs (byteAt d 7) 6 (decide (i + 1 = s.mc.faults.length))

theorem faultBytes_spec {s : State} {e : FaultEntry} (h : s.mc.faults[reportCursor s]? = some e)
    (hlength : s.mc.faults.length ≤ 16) (k : BitVec 4) :
    FaultRead s e (reportCursor s) (sealCount (faultBytes s) k) := by
  have hframe := faultBytes_frame_of_some h k
  generalize sealCount (faultBytes s) k = x at *
  have hfull := s.mc.full.toNat_lt
  have hlatched := e.latched.toNat_lt
  have hend := (reportCursor s + 1 == s.mc.faults.length).toNat_lt
  obtain ⟨h0, h1, h2, h3, h4, h5, h6, h7⟩ := bytes_of_frame hframe (by omega)
  have hseverity := severityCode_lt e.code.severity
  have hactive := e.active.toNat_lt
  have hcount : s.activeCount ≤ 16 := (List.length_filter_le _ _).trans hlength
  rw [toByte_toNat, flagAt_eq] at h1
  have hcode : byteAt x 1 % 4 = severityCode e.code.severity := by omega
  rw [FaultRead, h0, h2, hcode, word16, word16, h3, h4, h5, h6, be16_word, be16_word, toByte_toNat, toByte_toNat,
    Nat.mod_eq_of_lt (number_lt _)]
  simp only [bitIs_iff, toNat_beq_eq_decide]
  have hbit : byteAt x 1 / 2 ^ 2 % 2 = e.active.toNat := by omega
  have heighth : byteAt x 1 / 8 = s.activeCount := by omega
  exact ⟨trivial, severityCode_mem _, hbit, heighth, trivial, trivial, trivial, by omega, by omega, by omega⟩

/-! ## Every group of a period timer -/

/-- The groups of the period timer have eight bytes, the last with the rolling count in its low half. -/
theorem groupBytes_frame {g : Group} (h : periodicGroup g = true ∨ g = .faultReport) (s : State) (k : BitVec 4) :
    (sealCount (groupBytes g s) k).length = 8 ∧ rollingCount (sealCount (groupBytes g s) k) = k := by
  have hframe : ∃ a b c d e f g' : Byte, ∃ n < 16, sealCount (groupBytes g s) k = frameOf a b c d e f g' k n := by
    cases g with
    | motion =>
      rcases hp : s.lc.motionPage with _ | _ | p
      · exact ⟨_, _, _, _, _, _, _, 0, by decide, by simp only [groupBytes, motionBytes, hp]; rfl⟩
      · exact ⟨_, _, _, _, _, _, _, 1, by decide, by simp only [groupBytes, motionBytes, hp]; rfl⟩
      · exact ⟨_, _, _, _, _, _, _, 2, by decide, by simp only [groupBytes, motionBytes, hp]; rfl⟩
    | gearbox => exact ⟨_, _, _, _, _, _, _, 4 - s.shc.queue.length, by omega, rfl⟩
    | driveHitch =>
      rcases hp : s.lc.drivePage with _ | _ | _ | p
      · exact ⟨_, _, _, _, _, _, _, 0, by decide, by simp only [groupBytes, driveHitchBytes, hp]; rfl⟩
      · exact ⟨_, _, _, _, _, _, _, 1, by decide, by simp only [groupBytes, driveHitchBytes, hp]; rfl⟩
      · exact ⟨_, _, _, _, _, _, _, 2, by decide, by simp only [groupBytes, driveHitchBytes, hp]; rfl⟩
      · rcases hr : s.hsq.lastRefused with _ | ⟨r, why⟩
        · exact ⟨_, _, _, _, _, _, _, 3, by decide, by simp only [groupBytes, driveHitchBytes, hp, hr]; rfl⟩
        · exact ⟨_, _, _, _, _, _, _, 3, by decide, by simp only [groupBytes, driveHitchBytes, hp, hr]; rfl⟩
    | trailer =>
      have hvalid := (s.tbc.tclState == .valid).toNat_lt
      have hsupply := (s.tbc.tslState == .valid).toNat_lt
      exact ⟨_, _, _, _, _, _, _, _, by omega, trailerBytes_frame s k⟩
    | identity =>
      have hmode := modeCode_lt s.mc.mode
      have hrestart := (s.mc.mode == .restarting).toNat_lt
      exact ⟨_, _, _, _, _, _, _, _, by omega, identityBytes_frame s k⟩
    | faultReport =>
      rcases he : s.mc.faults[reportCursor s]? with _ | e
      · exact ⟨_, _, _, _, _, _, _, 4, by decide, faultBytes_frame_of_none he k⟩
      · have hfull := s.mc.full.toNat_lt
        have hlatched := e.latched.toNat_lt
        have hend := (reportCursor s + 1 == s.mc.faults.length).toNat_lt
        exact ⟨_, _, _, _, _, _, _, _, by omega, faultBytes_frame_of_some he k⟩
    | torqueLimit => simp [periodicGroup] at h
    | serviceResult => simp [periodicGroup] at h
    | quietNotice => simp [periodicGroup] at h
  obtain ⟨a, b, c, d, e, f, g', n, hn, heq⟩ := hframe
  exact heq ▸ ⟨rfl, frameOf_rollingCount a b c d e f g' k hn⟩

/-! ## The timers -/

section
variable {g : Group} {s : State}

/-- The counts, the pages and the cursor of a made frame. -/
theorem publish_counters (h : s.mayMake g = true) :
    (publish g s).lc.sendCounts = s.lc.sendCounts.set g (s.lc.sendCounts.get g + 1) ∧
    (publish g s).lc.motionPage = (if g = .motion then
      (if s.lc.motionPage < 2 then s.lc.motionPage + 1 else 0) else s.lc.motionPage) ∧
    (publish g s).lc.drivePage = (if g = .driveHitch then
      (if s.lc.drivePage < 3 then s.lc.drivePage + 1 else 0) else s.lc.drivePage) ∧
    (publish g s).lc.cursor = (if g = .faultReport then
      (if s.mc.faults.length ≤ s.lc.cursor then 1 else (s.lc.cursor + 1) % 16) else s.lc.cursor) := by
  rw [publish_of_made h]
  cases g with
  | faultReport =>
    refine ⟨rfl, rfl, rfl, ?_⟩
    change ((if s.mc.faults.length ≤ s.lc.cursor then 0 else s.lc.cursor) + 1) % 16 = _
    rw [if_pos rfl]
    split <;> rfl
  | _ => exact ⟨rfl, rfl, rfl, rfl⟩

theorem exec_periodTimer (hlink : s.lc.link = .active) (hg : periodicGroup g = true ∨ g = .faultReport) :
    exec (.periodTimer g) s = .next (publish g s) :=
  congrArg Host.Outcome.next (if_pos ⟨hlink, hg⟩)

end

theorem torqueBytes_sealed {s : State} {limit : Nat} (h : s.shc.torque = some limit) (k : BitVec 4) :
    sealCount (torqueBytes s) k = [BitVec.ofNat 8 limit, 16 ||| k.setWidth 8] := by
  rw [torqueBytes, h]
  rfl

/-- Settles O49. -/
theorem periodicFramesMade : Obligations.PeriodicFramesMade := by
  intro s hlink hroom
  refine ⟨fun g hg hmode => ?_, fun limit htorque hmode => ?_⟩
  · have hmay := mayMake_of_active hlink hmode
    obtain ⟨hcounts, hmotion, hdrive, hcursor⟩ := publish_counters hmay
    obtain ⟨x, hx, hgroup, hdata⟩ := queued_publish hmay hroom
    obtain ⟨hlength, hcount⟩ := groupBytes_frame hg s (s.lc.sendCounts.get g + 1)
    rw [← hdata] at hlength hcount
    refine ⟨publish g s, exec_periodTimer hlink hg, touches_publish g s, hcounts, hmotion, hdrive, hcursor, x, hx, hgroup,
      hlength, hcount, ?_, ?_, ?_, ?_, ?_, ?_, ?_⟩
    · rintro rfl hpage
      exact hdata ▸ motionBytes_spec hpage _
    · rintro rfl
      exact hdata ▸ gearboxBytes_spec s _
    · rintro rfl hpage
      exact hdata ▸ driveHitchBytes_spec hpage _
    · rintro rfl
      exact hdata ▸ trailerBytes_spec s _
    · rintro rfl
      exact hdata ▸ identityBytes_spec s _
    · rintro rfl hnone
      have hframe := faultBytes_frame_of_none (s := s) (by rw [hnone]; rfl) (s.lc.sendCounts.get .faultReport + 1)
      obtain ⟨h0, -, -, -, -, -, -, h7⟩ := bytes_of_frame (hdata.trans hframe) (by decide)
      exact ⟨h0, h7⟩
    · rintro e i rfl hi he hfew
      subst hi
      exact hdata ▸ faultBytes_spec he hfew _
  · have hmay : s.mayMake .torqueLimit = true := mayMake_of_active hlink (by rw [hmode]; rfl)
    obtain ⟨x, hx, hgroup, hdata⟩ := queued_publish hmay hroom
    have hexec : exec .torqueLimitTimer s = .next (publish .torqueLimit s) :=
      congrArg Host.Outcome.next (if_pos (htorque ▸ rfl))
    exact ⟨_, hexec, touches_publish _ s, x, hx, hgroup, hdata.trans (torqueBytes_sealed htorque _)⟩

end Sys2Proof.Proofs
end

