-- ==== Sys2Proof/Proofs/Loading.lean ====
section
/-! PROOF. O52: LOADING_COMPLETE checks the image, loads it and enters CALIBRATING or DORMANT, or enters LIMP (R206 to
R209, R211). -/

namespace Sys2Proof.Proofs

open Sys2Proof Sys2Proof.Machine

/-! ## The faults of a raise -/

/-- A raise reads of the MC only the fault table and the seconds count. -/
theorem raise_faults_congr {s t : State} (c : FaultCode) (htable : t.faultTable = s.faultTable)
    (hseconds : t.mc.seconds = s.mc.seconds) : (raise c t).mc.faults = (raise c s).mc.faults := by
  simp only [raise, State.withFaults, State.withMc_mc, htable, hseconds]

/-! ## The link in a change of mode -/

section
variable (m : Mode) (s : State)

theorem publish_sources (g : Group) : (publish g s).lc.sources = s.lc.sources := by rw [publish_lc]

theorem publish_listen (g : Group) : (publish g s).lc.listen = s.lc.listen := by rw [publish_lc]

theorem setMode_sources : (setMode m s).lc.sources = s.lc.sources := publish_sources _ _

theorem setMode_listen : (setMode m s).lc.listen = s.lc.listen := publish_listen _ _

end

theorem listenOrder_sources (l : Lc) : l.listenOrder.sources = l.sources := by
  unfold Lc.listenOrder
  split <;> rfl

theorem listenOrder_listen_of_offline {l : Lc} (h : l.link = .offline) : l.listenOrder.listen = 0 := by
  simp only [Lc.listenOrder, h]

/-! ## Entry to CALIBRATING (R209) -/

/-- The listen order given and the SFE at slot 0. -/
def slotZero (s : State) : State :=
  (listenOrder s).withSfe { s.sfe with slot := 0 }

/-- The state in which the mode becomes CALIBRATING. -/
def calibrationBegun (s : State) : State :=
  setStep .calVsa (onRequest .vsa (requestCalibration none (slotZero s)))

theorem enterCalibrating_eq (s : State) : enterCalibrating s = setMode .calibrating (calibrationBegun s) := rfl

theorem touches_slotZero (s : State) : Touches [.sfe, .lc, .mc] s (slotZero s) :=
  also ((touches_listenOrder s).mono (by decide)) (touches_withSfe _ _)

/-- What a calibration asked for at entry leaves of the SFE and the faults. -/
structure CalibrationAtEntry (s u : State) : Prop where
  touches : Touches [.sfe, .mc] s u
  mc : u.mc = { s.mc with faults := u.mc.faults, full := u.mc.full }
  chans : u.sfe.chans = s.sfe.chans
  slot : u.sfe.slot = s.sfe.slot
  working : (s.sensor .hps).state ≠ .off → u.sfe.cal.state = .running ∧ u.sfe.cal.start = s.now ∧ u.mc = s.mc
  off : (s.sensor .hps).state = .off → u.sfe.cal.state = .failed ∧ u.mc = (raise .hpsCalFailed s).mc

theorem calibrationAtEntry (s : State) : CalibrationAtEntry s (requestCalibration none s) := by
  by_cases h : (s.sensor .hps).state = .off
  · have heq : requestCalibration none s = raise .hpsCalFailed ((calibrationAsked none s).withCal
        { (calibrationAsked none s).sfe.cal with state := .failed, offset := none, signs := [], recording := false }) := by
      rw [requestCalibration_of_off h]
      exact answerCal_of_none rfl
    rw [heq]
    exact ⟨also (((touches_dropPosition s).trans (touches_withSfe _ _)).trans (touches_withSfe _ _) |>.mono (by decide))
      (touches_raise _ _), rfl, rfl, rfl, fun k => absurd h k, fun _ => ⟨rfl, raise_mc_congr _ rfl⟩⟩
  · rw [requestCalibration_of_working h]
    exact ⟨((touches_dropPosition s).trans (touches_withSfe _ _)).mono (by decide), rfl, rfl, rfl,
      fun _ => ⟨rfl, rfl, rfl⟩, fun k => absurd k h⟩

section
variable (s : State)

theorem touches_enterCalibrating : Touches [.sfe, .vdb, .lc, .mc] s (enterCalibrating s) :=
  also (also (also (also ((touches_slotZero s).mono (by decide)) (calibrationAtEntry _).touches)
    (touches_onRequest .vsa _)) (touches_withMc _ _)) (touches_setMode _ _)

theorem enterCalibrating_mc : (enterCalibrating s).mc =
    { (requestCalibration none (slotZero s)).mc with step := .calVsa, mode := .calibrating } := by
  rw [enterCalibrating_eq, setMode_mc, calibrationBegun]
  have hmc : (onRequest .vsa (requestCalibration none (slotZero s))).mc = (requestCalibration none (slotZero s)).mc :=
    onRequest_mc _ _
  rw [setStep, State.withMc_mc, hmc]

theorem enterCalibrating_sfe : (enterCalibrating s).sfe = (requestCalibration none (slotZero s)).sfe :=
  (also (also ((touches_onRequest .vsa _).mono (by decide)) (touches_withMc _ _)) (touches_setMode _ _) :
    Touches [.vdb, .lc, .mc] (requestCalibration none (slotZero s)) (enterCalibrating s)) .sfe (by decide)

theorem enterCalibrating_rises (h : (s.supplyOf .vsa).state = .off) :
    ((enterCalibrating s).supplyOf .vsa).state = .rising := by
  have hbefore : (requestCalibration none (slotZero s)).supplyOf .vsa = s.supplyOf .vsa :=
    congrArg (fun v : Vdb => v.supplies.get .vsa) ((also ((touches_slotZero s).mono (by decide))
      (calibrationAtEntry _).touches : Touches [.sfe, .lc, .mc] s (requestCalibration none (slotZero s))) .vdb (by decide))
  have hafter : (enterCalibrating s).supplyOf .vsa =
      (onRequest .vsa (requestCalibration none (slotZero s))).supplyOf .vsa :=
    congrArg (fun v : Vdb => v.supplies.get .vsa) ((also ((touches_withMc _ _).mono (by decide)) (touches_setMode _ _) :
      Touches [.lc, .mc] (onRequest .vsa (requestCalibration none (slotZero s))) (enterCalibrating s)) .vdb (by decide))
  rw [hafter]
  exact onRequest_of_off .vsa _ ((congrArg SupplyRec.state hbefore).trans h)

/-- The link before the mode changes is the one the listen order left. -/
theorem calibrationBegun_lc : (calibrationBegun s).lc = s.lc.listenOrder :=
  (also (also ((calibrationAtEntry (slotZero s)).touches.mono (by decide)) (touches_onRequest .vsa _))
    (touches_withMc _ _) : Touches [.sfe, .vdb, .mc] (slotZero s) (calibrationBegun s)) .lc (by decide)

theorem enterCalibrating_sources : (enterCalibrating s).lc.sources = s.lc.sources := by
  rw [enterCalibrating_eq, setMode_sources, calibrationBegun_lc, listenOrder_sources]

theorem enterCalibrating_listens (h : s.lc.link = .offline) :
    (enterCalibrating s).lc.link = .listen ∧ (enterCalibrating s).lc.listen = 0 := by
  rw [enterCalibrating_eq, setMode_link, setMode_listen, calibrationBegun_lc]
  exact ⟨listenOrder_link_of_offline h, listenOrder_listen_of_offline h⟩

end

/-! ## Entry to DORMANT and to LIMP (R208, R211) -/

/-- Of the SHC the entry to DORMANT takes back the park order only. -/
theorem enterDormant_shc (s : State) : (enterDormant s).shc = { s.shc with parkOrder := false } := by
  have hdormant : enterDormant s = (dropUntaken (setMode .dormant
    ((stopScu (offOrder (setStep .idle s))).withShc { s.shc with parkOrder := false }))).withEvents [] := rfl
  rw [hdormant, setMode_dormant]
  exact touches_dropUntaken _ .shc (by decide)

theorem touches_enterDormant (s : State) : Touches [.scu, .shc, .lc, .mc, .events, .requests] s (enterDormant s) :=
  also (also (also (also (also (also ((touches_withMc s _).mono (by decide)) (touches_withLc _ _)) (touches_withScu _ _))
    (touches_withShc _ _)) (touches_setMode .dormant _)) (touches_dropUntaken _)) (touches_withEvents _ _)

theorem offOrder_sources (l : Lc) : l.offOrder.sources = l.sources := rfl

/-- The state in which the mode becomes LIMP. -/
def limpOrdered (x : Sources) (s : State) : State :=
  listenOrder ((raise .cfgInvalid s).withLc { s.lc with sources := x })

theorem enterLimp_eq (x : Sources) (s : State) : enterLimp x s = setMode .limp (limpOrdered x s) := rfl

theorem touches_enterLimp (x : Sources) (s : State) : Touches [.lc, .mc] s (enterLimp x s) :=
  also (also (also ((touches_raise .cfgInvalid s).mono (by decide)) (touches_withLc _ _)) (touches_listenOrder _))
    (touches_setMode _ _)

theorem enterLimp_mc (x : Sources) (s : State) :
    (enterLimp x s).mc = { (raise .cfgInvalid s).mc with windowEnded := false, mode := .limp } := by
  rw [enterLimp_eq, setMode_mc]
  rfl

theorem enterLimp_sources (x : Sources) (s : State) : (enterLimp x s).lc.sources = x := by
  rw [enterLimp_eq, setMode_sources]
  exact listenOrder_sources _

theorem enterLimp_listens (x : Sources) {s : State} (h : s.lc.link = .offline) : (enterLimp x s).lc.link = .listen := by
  rw [enterLimp_eq, setMode_link]
  exact listenOrder_link_of_offline (l := { s.lc with sources := x }) h

/-! ## The image loaded (R207) -/

section
variable (v : Nat) (c : Image) (s : State)

theorem loadImage_learned (x : Clutch) : ((loadImage v c s).shc.clutches.get x).learned =
    if s.mc.cold = true then (c.clutches.get x).fillTime else (s.clutch x).learned := by
  have hshc : (loadImage v c s).shc = Shc.reset (if s.mc.cold then c.clutches.map fun _ k => k.fillTime
    else s.shc.learnedTimes) (some c.startGear) (buildMap c) := rfl
  rw [hshc]
  cases hcold : s.mc.cold <;> simp [Shc.reset, ClutchRec.reset, Shc.learnedTimes, State.clutch]

theorem loadImage_sensor (x : Sensor) : ((loadImage v c s).sfe.chans.get x).state =
    if (c.sensors.get x).configured = true then .starting else .off := by
  have hsfe : (loadImage v c s).sfe = Sfe.reset c.sensors := rfl
  rw [hsfe]
  simp only [Sfe.reset, SensorTable.get_map]
  rfl

/-- What a loaded image shows of its contents wherever configuration, SHC, SFE channels and sources stay. -/
structure ImageShown (t : State) : Prop where
  cfg : t.cfg = c
  version : t.mc.version = v
  sources : t.lc.sources = Sources.ofStations c.stations
  selected : t.shc.selected = some c.startGear
  map : t.shc.shuttleMap = buildMap c
  learned : ∀ x : Clutch, (t.clutch x).learned =
    (if s.mc.cold = true then (c.clutches.get x).fillTime else (s.clutch x).learned)
  sensors : ∀ x : Sensor, (t.sensor x).state = (if (c.sensors.get x).configured = true then .starting else .off)
  radar : t.scu.motion.radarFitted = c.radFitted

variable {v c s}

theorem imageShown_enterCalibrating : ImageShown v c s (enterCalibrating (loadImage v c s)) := by
  have htouches := touches_enterCalibrating (loadImage v c s)
  have hshc : (enterCalibrating (loadImage v c s)).shc = (loadImage v c s).shc := htouches .shc (by decide)
  have hmc := (enterCalibrating_mc (loadImage v c s)).trans
    (congrArg (fun m : Mc => { m with step := .calVsa, mode := .calibrating }) (calibrationAtEntry _).mc)
  have hsfe := (congrArg Sfe.chans (enterCalibrating_sfe (loadImage v c s))).trans (calibrationAtEntry _).chans
  exact ⟨htouches .cfg (by decide), congrArg Mc.version hmc, enterCalibrating_sources _, congrArg Shc.selected hshc,
    congrArg Shc.shuttleMap hshc,
    fun x => (congrArg (fun k : Shc => (k.clutches.get x).learned) hshc).trans (loadImage_learned v c s x),
    fun x => (congrArg (fun k => (SensorTable.get k x).state) hsfe).trans (loadImage_sensor v c s x),
    congrArg (fun k : Scu => k.motion.radarFitted) (htouches .scu (by decide))⟩

theorem imageShown_enterDormant : ImageShown v c s (enterDormant (loadImage v c s)) := by
  have htouches := touches_enterDormant (loadImage v c s)
  obtain ⟨-, hlc, hscu, hmc, -⟩ := enterDormant_records (loadImage v c s)
  have hshc := enterDormant_shc (loadImage v c s)
  have hsfe : (enterDormant (loadImage v c s)).sfe = (loadImage v c s).sfe := htouches .sfe (by decide)
  exact ⟨htouches .cfg (by decide), congrArg Mc.version hmc, (congrArg Lc.sources hlc).trans (offOrder_sources _),
    congrArg Shc.selected hshc, congrArg Shc.shuttleMap hshc,
    fun x => (congrArg (fun k : Shc => (k.clutches.get x).learned) hshc).trans (loadImage_learned v c s x),
    fun x => (congrArg (fun k : Sfe => (k.chans.get x).state) hsfe).trans (loadImage_sensor v c s x),
    congrArg (fun k : Scu => k.motion.radarFitted) hscu⟩

/-- What a calibration begun on a loaded image shows. -/
theorem loaded_calibrates : (enterCalibrating (loadImage v c s)).mc.mode = .calibrating ∧
    (enterCalibrating (loadImage v c s)).mc.step = .calVsa ∧
    (enterCalibrating (loadImage v c s)).mc.windowEnded = false ∧ (enterCalibrating (loadImage v c s)).sfe.slot = 0 ∧
    ((s.supplyOf .vsa).state = .off → ((enterCalibrating (loadImage v c s)).supplyOf .vsa).state = .rising) ∧
    (s.lc.link = .offline → (enterCalibrating (loadImage v c s)).lc.link = .listen ∧
      (enterCalibrating (loadImage v c s)).lc.listen = 0) ∧
    (c.sensors.hps.configured = true → (enterCalibrating (loadImage v c s)).sfe.cal.state = .running ∧
      (enterCalibrating (loadImage v c s)).sfe.cal.start = s.now ∧
      (enterCalibrating (loadImage v c s)).mc.faults = s.mc.faults) ∧
    (c.sensors.hps.configured = false → (enterCalibrating (loadImage v c s)).sfe.cal.state = .failed ∧
      (enterCalibrating (loadImage v c s)).mc.faults = (raise .hpsCalFailed s).mc.faults) := by
  have hcal := calibrationAtEntry (slotZero (loadImage v c s))
  have hhps := loadImage_sensor v c s .hps
  have hmc := enterCalibrating_mc (loadImage v c s)
  have hsfe := enterCalibrating_sfe (loadImage v c s)
  have hended : (enterCalibrating (loadImage v c s)).mc.windowEnded = false :=
    (congrArg Mc.windowEnded hmc).trans (congrArg Mc.windowEnded hcal.mc)
  refine ⟨congrArg Mc.mode hmc, congrArg Mc.step hmc, hended, (congrArg Sfe.slot hsfe).trans hcal.slot,
    enterCalibrating_rises (loadImage v c s), enterCalibrating_listens (loadImage v c s), fun h => ?_, fun h => ?_⟩
  · obtain ⟨hstate, hstart, hkept⟩ := hcal.working (show ((loadImage v c s).sfe.chans.get .hps).state ≠ .off by
      rw [hhps]; exact ne_of_eq_of_ne (if_pos h) nofun)
    rw [hsfe, hmc, hkept]
    exact ⟨hstate, hstart, rfl⟩
  · obtain ⟨hstate, hraised⟩ := hcal.off (show ((loadImage v c s).sfe.chans.get .hps).state = .off by
      rw [hhps]; exact if_neg (h ▸ Bool.false_ne_true))
    rw [hsfe, hmc, hraised]
    exact ⟨hstate, raise_faults_congr _ rfl rfl⟩

end

/-! ## LOADING_COMPLETE -/

section
variable {memory bytes : List Byte} {c : Image} {key : Bool} {s : State}

theorem exec_loadingComplete (hmode : s.mc.mode = .loading) (hkey : s.mc.key = some key)
    (hbytes : bytes = (memory.drop (s.mc.slot * 2048)).take 2048) :
    exec (.loadingComplete memory c) s = .next (finishLoading bytes c s) := by
  subst hbytes
  exact congrArg Host.Outcome.next (if_pos ⟨hmode, hkey ▸ rfl⟩)

theorem finishLoading_of_on (h : imageValid bytes c = true) (hkey : s.mc.key = some true) :
    finishLoading bytes c s = enterCalibrating (loadImage (word16 bytes 2) c s) :=
  (if_pos h).trans (if_pos hkey)

theorem finishLoading_of_off (h : imageValid bytes c = true) (hkey : s.mc.key = some false) :
    finishLoading bytes c s = enterDormant (loadImage (word16 bytes 2) c s) :=
  (if_pos h).trans (if_neg fun k : s.mc.key = some true => by simp [hkey] at k)

theorem finishLoading_of_invalid (h : ¬ imageValid bytes c = true) :
    finishLoading bytes c s = enterLimp (limpSources bytes c) s := if_neg h

theorem limpSources_of_sound (hbytes : BytesSound bytes) (hstations : StationsSound c.stations) :
    limpSources bytes c = Sources.ofStations c.stations :=
  if_pos (by rw [(Laws.bytesPass_iff _).mpr hbytes, (Laws.stationsPass_iff _).mpr hstations]; rfl)

theorem limpSources_of_unsound (h : ¬ BytesSound bytes ∨ ¬ StationsSound c.stations) :
    limpSources bytes c = .station31 :=
  if_neg fun k => by
    rw [Bool.and_eq_true, Laws.bytesPass_iff, Laws.stationsPass_iff] at k
    exact h.elim (· k.1) (· k.2)

end

/-- Settles O52. -/
theorem loadingCompleteTaken : Obligations.LoadingCompleteTaken := by
  intro memory bytes c key s hmode hkey hbytes
  refine ⟨_, exec_loadingComplete hmode hkey hbytes, fun hsound hsections => ?_, fun hunsound => ?_⟩
  · have hvalid := (Laws.imageValid_iff bytes c).mpr ⟨hsound, hsections⟩
    cases key with
    | true =>
      rw [finishLoading_of_on hvalid hkey]
      have hshown := imageShown_enterCalibrating (v := word16 bytes 2) (c := c) (s := s)
      exact ⟨hshown.cfg, hshown.version, hshown.sources, hshown.selected,
        Laws.shuttleMapBuilt c hsections.gears _ hshown.map, hshown.learned, hshown.sensors, hshown.radar,
        fun _ => loaded_calibrates, nofun⟩
    | false =>
      rw [finishLoading_of_off hvalid hkey]
      have hshown := imageShown_enterDormant (v := word16 bytes 2) (c := c) (s := s)
      obtain ⟨hvdb, hlc, -, hmc, -⟩ := enterDormant_records (loadImage (word16 bytes 2) c s)
      have hlink : (enterDormant (loadImage (word16 bytes 2) c s)).lc.link ≠ .active :=
        hlc ▸ (offOrder_link _).1
      have hfaults : (enterDormant (loadImage (word16 bytes 2) c s)).mc.faults = s.mc.faults := by rw [hmc]; rfl
      exact ⟨hshown.cfg, hshown.version, hshown.sources, hshown.selected,
        Laws.shuttleMapBuilt c hsections.gears _ hshown.map, hshown.learned, hshown.sensors, hshown.radar, nofun,
        fun _ => ⟨congrArg Mc.mode hmc, hvdb, hfaults, hlink⟩⟩
  · have hinvalid : ¬ imageValid bytes c = true := fun h => hunsound ((Laws.imageValid_iff bytes c).mp h)
    rw [finishLoading_of_invalid hinvalid]
    have hmc := enterLimp_mc (limpSources bytes c) s
    have htouches := touches_enterLimp (limpSources bytes c) s
    have hmode' : (enterLimp (limpSources bytes c) s).mc.mode = .limp := by rw [hmc]
    have hfaults : (enterLimp (limpSources bytes c) s).mc.faults = (raise .cfgInvalid s).mc.faults := by rw [hmc]
    exact ⟨hmode', hfaults, htouches .vdb (by decide), htouches .cfg (by decide),
      enterLimp_listens _, fun hb hs => (enterLimp_sources _ s).trans (limpSources_of_sound hb hs),
      fun h => (enterLimp_sources _ s).trans (limpSources_of_unsound h), htouches⟩

end Sys2Proof.Proofs
end

