-- ==== Sys2Proof/Proofs/EveryCommandAnswers.lean ====
section
/-! PROOF. O2: every command answers a next state and leaves the queue and the clock; only a power-on reset moves the
time (log 1, log 2). -/

namespace Sys2Proof.Proofs

open Sys2Proof Sys2Proof.Machine

/-- The parts that commands write: all but the time, the clock and the queue. -/
def written : List Part :=
  [.pins, .cfg, .scu, .sfe, .vdb, .shc, .fdc, .htc, .tbc, .hsq, .lc, .mc, .events, .requests]

/-- From `s` to `t` the time, the clock and the queue stand. -/
def TimeStands (s t : State) : Prop := Touches written s t

/-- The parts that are not written. -/
theorem not_written {p : Part} : p ∉ written → p = .now ∨ p = .sub ∨ p = .clock ∨ p = .pending := by cases p <;> decide

namespace TimeStands

variable {s t u : State}

theorem of_same (hnow : t.now = s.now) (hsub : t.sub = s.sub) (hclock : t.clock = s.clock)
    (hpending : t.pending = s.pending) : TimeStands s t := by
  intro p hp
  rcases not_written hp with rfl | rfl | rfl | rfl
  · exact hnow
  · exact hsub
  · exact hclock
  · exact hpending

theorem then_touches {l : List Part} (h : TimeStands s t) (k : Touches l t u) (hl : ∀ p ∈ l, p ∈ written) :
    TimeStands s u := Touches.trans h (k.mono hl)

theorem setValves (hrv hlv : Nat) (h : TimeStands s t) : TimeStands s (setValves hrv hlv t) :=
  have hset := h.then_touches (touches_withHtc t { t.htc with hrv := hrv, hlv := hlv }) (by decide)
  holds_ite
    ((hset.then_touches (touches_writeCommand .hrv hrv _) (by decide)).then_touches
      (touches_writeCommand .hlv hlv _) (by decide))
    ((hset.then_touches (touches_writeCommand .hlv hlv _) (by decide)).then_touches
      (touches_writeCommand .hrv hrv _) (by decide))

/-- No write of a routine command moves the time, the clock or the queue. -/
theorem keptByRoutine (s : State) : KeptByRoutine (TimeStands s) where
  withScu _ h := h.then_touches (touches_withScu _ _) (by decide)
  withSfe _ h := h.then_touches (touches_withSfe _ _) (by decide)
  withShc _ h := h.then_touches (touches_withShc _ _) (by decide)
  withHtc _ h := h.then_touches (touches_withHtc _ _) (by decide)
  withHsq _ h := h.then_touches (touches_withHsq _ _) (by decide)
  withLc _ h := h.then_touches (touches_withLc _ _) (by decide)
  withEvents _ h := h.then_touches (touches_withEvents _ _) (by decide)
  withRequests _ h := h.then_touches (touches_withRequests _ _) (by decide)
  withPins _ h := h.then_touches (touches_withPins _ _) (by decide)
  withFdc _ _ h := h.then_touches (touches_withFdc _ _) (by decide)
  withTbc _ _ h := h.then_touches (touches_withTbc _ _) (by decide)
  withMc _ _ h := h.then_touches (touches_withMc _ _) (by decide)
  raise c h := h.then_touches (touches_raise c _) (by decide)
  raiseLatched c h := h.then_touches (touches_raiseLatched c _) (by decide)
  clearFault c h := h.then_touches (touches_clearFault c _) (by decide)
  writeCommand _ v h := h.then_touches (touches_writeCommand _ v _) (by decide)
  setValves _ h := h.setValves _ _
  grantOnDemand h := h.then_touches (touches_grantOnDemand _) (by decide)
  grantOnEvent ev h := h.then_touches (touches_grantOnEvent _ ev) (by decide)
  onRequest x h := h.then_touches (touches_onRequest x _) (by decide)
  offRequest x h := h.then_touches (touches_offRequest x _) (by decide)

theorem withVdb (x : Vdb) (h : TimeStands s t) : TimeStands s (t.withVdb x) :=
  h.then_touches (touches_withVdb t x) (by decide)

theorem setOpen (o : Output) (h : TimeStands s t) : TimeStands s (setOpen o t) :=
  (keptByRoutine s).raise _ (h.withVdb _)

theorem clearOpen (o : Output) (h : TimeStands s t) : TimeStands s (clearOpen o t) :=
  (keptByRoutine s).clearFault _ (h.withVdb _)

theorem endRetry (o : Output) (h : TimeStands s t) : TimeStands s (endRetry o t) :=
  (keptByRoutine s).clearFault _ (h.withVdb _)

theorem finishFall (x : Supply) (h : TimeStands s t) : TimeStands s (finishFall x t) :=
  holds_ite (h.withVdb _) (h.withVdb _)

theorem acknowledge (h : TimeStands s t) : TimeStands s (acknowledge t) :=
  h.then_touches (touches_acknowledge _) (by decide)

theorem completeFall (x : Supply) (h : TimeStands s t) : TimeStands s (completeFall x t) :=
  have hoff := finishFall x h
  holds_ite ((keptByRoutine s).stepAfterFall x (hoff.then_touches (touches_restartBlocks _) (by decide)) hoff) hoff

/-- A wake gives every block its wake values. -/
theorem wakeUp (strap0 strap1 coupling : Bool) (s : State) : TimeStands s (wakeUp strap0 strap1 coupling s) :=
  of_same rfl rfl rfl rfl

theorem loadImage (version : Nat) (c : Image) (s : State) : TimeStands s (loadImage version c s) :=
  of_same rfl rfl rfl rfl

/-- Every command but a power-on reset answers a next state in which the time, the clock and the queue stand. -/
theorem exec_keeps (i : Instr) (hi : ∀ a b k : Bool, i ≠ .powerOnReset a b k) (s : State) :
    ∃ t, exec i s = .next t ∧ TimeStands s t := by
  have hP := keptByRoutine s
  have h : TimeStands s s := .refl _ s
  cases i with
  -- resets
  | powerOnReset a b k => exact absurd rfl (hi a b k)
  | wake a b k => exact ⟨_, rfl, holds_ite (wakeUp a b k s) h⟩
  | loadingComplete => exact ⟨_, rfl, holds_ite (hP.finishLoading _ _ (loadImage _ _ s) h) h⟩
  -- the front drive
  | fdcControlInterval => exact ⟨_, rfl, holds_ite (h.then_touches (touches_fdcInterval _) (by decide)) h⟩
  | fdcRelease | releasingComplete | engagingComplete =>
    exact ⟨_, rfl, holds_ite (h.then_touches (touches_enterFdc _ _) (by decide)) h⟩
  | autoSlipClear => exact ⟨_, rfl, holds_ite (h.then_touches (touches_withFdc s _) (by decide)) h⟩
  | fdcChgEvent =>
    exact ⟨_, rfl, hP.event (fun ev u _ hu => hu.then_touches (touches_takeFdcCharge ev u) (by decide)) h⟩
  -- the brake pressure
  | tbcControlInterval =>
    have hinterval {u : State} (hu : TimeStands s u) : TimeStands s (tbcInterval u) :=
      hu.then_touches (touches_tbcInterval u) (by decide)
    exact ⟨_, rfl, holds_ite (hinterval (hP.withPins _ h)) (hP.withPins _ h)⟩
  | tbrStateEvent => exact ⟨_, rfl, hP.event (fun _ _ _ hu => hu.then_touches (touches_takeTbr _) (by decide)) h⟩
  -- the valve driver bank
  | senseTimer samples =>
    exact ⟨_, rfl, holds_ite (h.then_touches (touches_foldl _ (touches_senseOne samples) _ s) (by decide)) h⟩
  | openDetected => exact ⟨_, rfl, holds_ite (setOpen _ h) h⟩
  | openRecovered => exact ⟨_, rfl, holds_ite (clearOpen _ h) h⟩
  | shortTrip => exact ⟨_, rfl, holds_ite (h.then_touches (touches_trip _ s) (by decide)) h⟩
  | retryTimerExpiry | deferredRetry => exact ⟨_, rfl, holds_ite (withVdb _ h) h⟩
  | retrySuccess => exact ⟨_, rfl, holds_ite (endRetry _ h) h⟩
  | pullInEnd => exact ⟨_, rfl, holds_ite (withVdb _ h) h⟩
  | supplyRiseComplete x =>
    exact ⟨_, rfl, holds_ite (hP.stepAfterRise _ (h.then_touches (touches_enableSupply x s) (by decide))) h⟩
  | supplyFallComplete x =>
    exact ⟨_, rfl, holds_ite (completeFall x (hP.withPins _ h)) (hP.withPins _ h)⟩
  -- acknowledgements
  | faultAcknowledge =>
    refine ⟨_, rfl, ?_⟩
    split
    next u htake =>
      obtain ⟨l, rfl⟩ := takeRequest_eq_withRequests htake
      exact holds_ite (acknowledge (hP.withRequests l h)) (hP.withRequests l h)
    next => exact h
  | faultAck =>
    exact ⟨_, rfl, hP.service
      (fun _ _ _ hu => holds_ite (hP.serviceAnswer _ _ _ _ (acknowledge hu)) hu) h⟩
  | _ => exact hP.exec_of_routine rfl h

end TimeStands

/-- Settles O2. -/
theorem everyCommandAnswersNext : Obligations.EveryCommandAnswersNext := by
  intro c s
  by_cases hreset : ∃ a b k : Bool, c = .powerOnReset a b k
  · obtain ⟨a, b, k, rfl⟩ := hreset
    exact ⟨_, rfl, rfl, rfl, fun hne => absurd rfl (hne a b k)⟩
  · have hother (a b k : Bool) : c ≠ .powerOnReset a b k := fun h => hreset ⟨a, b, k, h⟩
    obtain ⟨t, hexec, ht⟩ := TimeStands.exec_keeps c hother s
    exact ⟨t, hexec, ht .pending (by decide), ht .clock (by decide),
      fun _ => ⟨ht .now (by decide), ht .sub (by decide)⟩⟩

end Sys2Proof.Proofs
end

