-- ==== Sys2Proof/Proofs/Clutches.lean ====
section
/-! SUPPORT. The clutch table (R65, R66): an operation on a list of clutches as a map over the table, the commands
written to the outputs with the pedal's cap (R88), the drain timers, and the lists of on-coming and off-going clutches. -/

namespace Sys2Proof.Proofs

open Sys2Proof Sys2Proof.Machine

/-! ## An operation on a list of clutches -/

/-- The state with another clutch table. -/
def clutchesSet (s : State) (k : ClutchTable ClutchRec) : State := s.withShc { s.shc with clutches := k }

/-- The records of a list of clutches, each through one change. -/
def mapOn (l : List Clutch) (r : Clutch → ClutchRec → ClutchRec) (k : ClutchTable ClutchRec) : ClutchTable ClutchRec :=
  k.map fun x c => if x ∈ l then r x c else c

section
variable {s : State} {l : List Clutch} {r : Clutch → ClutchRec → ClutchRec} {k : ClutchTable ClutchRec}

@[simp] theorem mapOn_get (x : Clutch) : (mapOn l r k).get x = if x ∈ l then r x (k.get x) else k.get x :=
  ClutchTable.get_map _ _ _

theorem mapOn_nil : mapOn [] r k = k := ClutchTable.ext_get _ _ fun x => by simp

theorem mapOn_cons {y : Clutch} (hy : y ∉ l) : mapOn l r (k.set y (r y (k.get y))) = mapOn (y :: l) r k :=
  ClutchTable.ext_get _ _ fun x => by
    by_cases hx : x = y
    · subst hx
      simp [hy]
    · simp [hx]

theorem set_get_same (x : Clutch) : k.set x (k.get x) = k :=
  ClutchTable.ext_get _ _ fun y => by
    by_cases hy : y = x <;> simp [hy]

theorem clutch_clutchesSet (s : State) (k : ClutchTable ClutchRec) (x : Clutch) : (clutchesSet s k).clutch x = k.get x := rfl

theorem shc_clutchesSet (s : State) (k : ClutchTable ClutchRec) : (clutchesSet s k).shc = { s.shc with clutches := k } := rfl

theorem out_clutchesSet (s : State) (k : ClutchTable ClutchRec) (o : Output) : (clutchesSet s k).out o = s.out o := rfl

theorem touches_clutchesSet (s : State) (k : ClutchTable ClutchRec) : Touches [.shc] s (clutchesSet s k) :=
  touches_withShc s _

/-- An operation that changes each clutch's own record maps the table. -/
theorem overClutches_eq {f : State → Clutch → State}
    (hf : ∀ (k : ClutchTable ClutchRec) (x : Clutch), f (clutchesSet s k) x = clutchesSet s (k.set x (r x (k.get x))))
    (hl : l.Nodup) : overClutches f l s = clutchesSet s (mapOn l r s.shc.clutches) := by
  have hgeneral : ∀ k : ClutchTable ClutchRec, overClutches f l (clutchesSet s k) = clutchesSet s (mapOn l r k) := by
    induction l with
    | nil => exact fun k => by rw [mapOn_nil]; rfl
    | cons y l ih =>
      obtain ⟨hy, hl⟩ := List.nodup_cons.mp hl
      intro k
      calc overClutches f (y :: l) (clutchesSet s k)
          = overClutches f l (f (clutchesSet s k) y) := rfl
        _ = clutchesSet s (mapOn (y :: l) r k) := by rw [hf, ih hl, mapOn_cons hy]
  exact hgeneral s.shc.clutches

end

section
variable {s : State} {l : List Clutch}

theorem lockAll_eq (hl : l.Nodup) : overClutches lockClutch l s =
    clutchesSet s (mapOn l (fun x c => c.lock (s.cfg.clutches.get x).hold) s.shc.clutches) :=
  overClutches_eq (fun _ _ => rfl) hl

theorem drainAll_eq (hl : l.Nodup) : overClutches drainClutch l s =
    clutchesSet s (mapOn l (fun _ c => c.drainTo 0) s.shc.clutches) :=
  overClutches_eq (fun _ _ => rfl) hl

theorem fillAll_eq (hl : l.Nodup) : overClutches startFill l s =
    clutchesSet s (mapOn l (fun x c => c.fill (s.cfg.clutches.get x).fillCurrent
      (if s.oilCold then c.learned + c.learned / 4 else c.learned)) s.shc.clutches) :=
  overClutches_eq (fun _ _ => rfl) hl

theorem torqueOn_eq (f : ClutchCfg → Nat) (hl : l.Nodup) : overClutches (torqueOn f) l s =
    clutchesSet s (mapOn l (fun x c => c.ramp (f (s.cfg.clutches.get x))) s.shc.clutches) :=
  overClutches_eq (fun _ _ => rfl) hl

theorem torqueOff_eq (f : ClutchCfg → Nat) (hl : l.Nodup) : overClutches (torqueOff f) l s =
    clutchesSet s (mapOn l (fun x c => c.drainTo (f (s.cfg.clutches.get x))) s.shc.clutches) :=
  overClutches_eq (fun _ _ => rfl) hl

end

/-! ## The clutches of a gear and of a swap (04, section 4.6) -/

theorem gearPair_gear {c : Image} {g : Gear} {x : Clutch} (h : x ∈ gearPair c g) : x ≠ .fwd ∧ x ≠ .rev := by
  unfold gearPair at h
  split at h
  next e _ =>
    simp only [List.mem_cons, List.not_mem_nil, or_false] at h
    rcases h with rfl | rfl
    · cases e.speed <;> decide
    · cases e.range <;> decide
  next => simp at h

theorem gearPair_nodup (c : Image) (g : Gear) : (gearPair c g).Nodup := by
  unfold gearPair
  split
  next e _ => cases e.speed <;> cases e.range <;> decide
  next => exact List.nodup_nil

theorem mem_swapped {c : Image} {g t : Gear} {x : Clutch} :
    x ∈ swapped c (some g) (some t) ↔ x ∈ gearPair c t ∧ x ∉ gearPair c g := by
  simp [swapped]

theorem swapped_nodup (c : Image) (old new : Option Gear) : (swapped c old new).Nodup := by
  unfold swapped
  split
  · exact (gearPair_nodup _ _).filter _
  · exact List.nodup_nil

theorem swapped_gear {c : Image} {old new : Option Gear} {x : Clutch} (h : x ∈ swapped c old new) :
    x ≠ .fwd ∧ x ≠ .rev := by
  unfold swapped at h
  split at h
  · exact gearPair_gear (List.mem_of_mem_filter h)
  · simp at h

theorem swapped_disjoint {c : Image} {old new : Option Gear} {x : Clutch} (h : x ∈ swapped c old new) :
    x ∉ swapped c new old := by
  rcases old with _ | g
  · simp [swapped] at h
  rcases new with _ | t
  · simp [swapped] at h
  rw [mem_swapped] at h ⊢
  exact fun k => h.2 k.1

theorem onComing_nodup (s : State) : (onComing s).Nodup := swapped_nodup _ _ _
theorem offGoing_nodup (s : State) : (offGoing s).Nodup := swapped_nodup _ _ _

theorem offGoing_of_onComing {s : State} {x : Clutch} (h : x ∈ onComing s) : x ∉ offGoing s := swapped_disjoint h
theorem onComing_of_offGoing {s : State} {x : Clutch} (h : x ∈ offGoing s) : x ∉ onComing s := swapped_disjoint h

theorem dirClutchOf_nodup (g : Option Gear) : (dirClutchOf g).Nodup := by
  cases g <;> simp [dirClutchOf]

theorem dirClutch_direction (d : Dir) : d.clutch = .fwd ∨ d.clutch = .rev := by cases d <;> simp [Dir.clutch]

theorem dirClutchOf_direction {g : Option Gear} {x : Clutch} (h : x ∈ dirClutchOf g) : x = .fwd ∨ x = .rev := by
  rcases g with _ | g
  · simp [dirClutchOf] at h
  · simp only [dirClutchOf, List.mem_singleton] at h
    exact h ▸ dirClutch_direction g.dir

/-! ## The command of a clutch (R66, R88) -/

/-- The command of a clutch of an SHC record. -/
def commandFor (c : Image) (k : Shc) (x : Clutch) : Nat :=
  if directionClutches.contains x ∧
      ((k.clutches.get x).state = .locked ∨ ((k.clutches.get x).state = .ramping ∧ rampCapped k = true)) then
    min (k.clutches.get x).value (pedalCap k.pedal (c.clutches.get x).hold)
  else (k.clutches.get x).value

section
variable {c : Image} {k : Shc} {x : Clutch}

theorem commandFor_of_gear (h : x ≠ .fwd ∧ x ≠ .rev) : commandFor c k x = (k.clutches.get x).value :=
  if_neg fun ⟨hdir, _⟩ => by
    obtain ⟨hfwd, hrev⟩ := h
    simp [directionClutches, hfwd, hrev] at hdir

theorem commandFor_of_locked (h : x = .fwd ∨ x = .rev) (hstate : (k.clutches.get x).state = .locked) :
    commandFor c k x = min (k.clutches.get x).value (pedalCap k.pedal (c.clutches.get x).hold) :=
  if_pos ⟨by rcases h with rfl | rfl <;> decide, .inl hstate⟩

theorem commandFor_of_ramping (h : x = .fwd ∨ x = .rev) (hstate : (k.clutches.get x).state = .ramping)
    (hcapped : rampCapped k = true) :
    commandFor c k x = min (k.clutches.get x).value (pedalCap k.pedal (c.clutches.get x).hold) :=
  if_pos ⟨by rcases h with rfl | rfl <;> decide, .inr ⟨hstate, hcapped⟩⟩

/-- Only LOCKED and RAMPING clutches can be capped. -/
theorem commandFor_of_other (hlocked : (k.clutches.get x).state ≠ .locked)
    (hramping : (k.clutches.get x).state ≠ .ramping) : commandFor c k x = (k.clutches.get x).value :=
  if_neg fun ⟨_, h⟩ => h.elim hlocked fun h => hramping h.1

theorem pedalCap_eq (p hold : Nat) :
    pedalCap p hold = if p ≤ 10 then hold else if p < 95 then hold * (100 - p) / 90 else 0 := by
  unfold pedalCap
  split
  · rfl
  · by_cases h : p < 95
    · rw [if_neg (by omega), if_pos h]
    · rw [if_pos (by omega), if_neg h]

/-- The command reads no command. -/
theorem commandFor_set_command (y : Clutch) (v : Nat) : commandFor c { k with
    clutches := k.clutches.set y { k.clutches.get y with command := v } } x = commandFor c k x := by
  have hstate : ((k.clutches.set y { k.clutches.get y with command := v }).get x).state = (k.clutches.get x).state := by
    rw [ClutchTable.get_set]
    split
    · next h => rw [h]
    · rfl
  have hvalue : ((k.clutches.set y { k.clutches.get y with command := v }).get x).value = (k.clutches.get x).value := by
    rw [ClutchTable.get_set]
    split
    · next h => rw [h]
    · rfl
  simp only [commandFor, hstate, hvalue]
  rfl

end

/-! ## The commands written (R66) -/

theorem output_injective {x y : Clutch} (h : x.output = y.output) : x = y := by
  cases x <;> cases y <;> simp_all [Clutch.output]

/-- The commands of a list of clutches are written: to their records and, clamped, to their outputs. -/
structure CommandsWritten (l : List Clutch) (s t : State) : Prop where
  shc : t.shc = { s.shc with
    clutches := mapOn l (fun x c => { c with command := commandFor s.cfg s.shc x }) s.shc.clutches }
  stored : ∀ x ∈ l, (t.out x.output).command = min (commandFor s.cfg s.shc x) (s.cfg.maxima.get x.output)
  apart : ∀ o : Output, (∀ x ∈ l, x.output ≠ o) → t.out o = s.out o
  touches : Touches [.vdb, .shc] s t

theorem storedCommand_clutch (c : Image) (x : Clutch) (v : Nat) :
    storedCommand c x.output v = min v (c.maxima.get x.output) := by cases x <;> rfl

theorem writeClutch_shc (s : State) (x : Clutch) : (writeClutch s x).shc = { s.shc with
    clutches := s.shc.clutches.set x { s.shc.clutches.get x with command := commandFor s.cfg s.shc x } } :=
  touches_writeCommand _ _ _ .shc (by decide)

theorem touches_writeClutch (s : State) (x : Clutch) : Touches [.vdb, .shc] s (writeClutch s x) :=
  also ((touches_withShc s _).mono (by decide)) (touches_writeCommand _ _ _)

theorem writeClutch_stored (s : State) (x : Clutch) :
    ((writeClutch s x).out x.output).command = min (commandFor s.cfg s.shc x) (s.cfg.maxima.get x.output) :=
  (writeCommand_command _ _ _).trans (storedCommand_clutch _ _ _)

theorem writeClutch_apart (s : State) (x : Clutch) {o : Output} (h : x.output ≠ o) :
    (writeClutch s x).out o = s.out o :=
  (writeCommand_apart x.output (commandOf s x) (s.withClutch x { s.clutch x with command := commandOf s x })).1 o h.symm

theorem commandsWritten {l : List Clutch} (hl : l.Nodup) (s : State) :
    CommandsWritten l s (overClutches writeClutch l s) := by
  induction l generalizing s with
  | nil => exact ⟨by rw [mapOn_nil]; rfl, nofun, fun _ _ => rfl, .refl _ s⟩
  | cons y l ih =>
    obtain ⟨hy, hl⟩ := List.nodup_cons.mp hl
    have hshc := writeClutch_shc s y
    have hcfg : (writeClutch s y).cfg = s.cfg := touches_writeClutch s y .cfg (by decide)
    have hrest := ih hl (writeClutch s y)
    have hcommand (x : Clutch) : commandFor s.cfg (writeClutch s y).shc x = commandFor s.cfg s.shc x := by
      rw [hshc]
      exact commandFor_set_command y _
    have hstored := hrest.stored
    have hwritten := hrest.shc
    simp only [hcfg, hcommand] at hstored hwritten
    refine ⟨hwritten.trans ?_, fun x hx => ?_, fun o ho => ?_, (touches_writeClutch s y).trans hrest.touches⟩
    · rw [hshc, ← mapOn_cons hy]
    · rcases List.mem_cons.mp hx with rfl | hx
      · rw [show ((overClutches writeClutch (x :: l) s).out x.output) = (writeClutch s x).out x.output from
          hrest.apart x.output fun z hz h => hy (output_injective h ▸ hz)]
        exact writeClutch_stored s x
      · exact hstored x hx
    · exact (hrest.apart o fun x hx => ho x (List.mem_cons_of_mem _ hx)).trans
        (writeClutch_apart s y (ho y List.mem_cons_self))

theorem clutch_all_nodup : Clutch.all.Nodup := by decide

theorem writeClutches_written (s : State) : CommandsWritten Clutch.all s (writeClutches s) :=
  commandsWritten clutch_all_nodup s

theorem writeClutches_clutch (s : State) (x : Clutch) :
    (writeClutches s).clutch x = { s.clutch x with command := commandFor s.cfg s.shc x } := by
  rw [State.clutch, (writeClutches_written s).shc]
  simp [Clutch.mem_all, State.clutch]

/-- Of the SHC the writing changes the commands of the clutches only. -/
theorem writeClutches_shc (s : State) :
    (writeClutches s).shc = { s.shc with clutches := (writeClutches s).shc.clutches } := by
  rw [(writeClutches_written s).shc]

theorem touches_writeClutches (s : State) : Touches [.vdb, .shc] s (writeClutches s) := (writeClutches_written s).touches

/-- An output of no clutch stays. -/
theorem writeClutches_apart (s : State) {o : Output} (ho : o = .pkv ∨ o = .fdv ∨ o = .hrv ∨ o = .hlv ∨ o = .tcv ∨ o = .tsv) :
    (writeClutches s).out o = s.out o :=
  (writeClutches_written s).apart o fun x _ h => by
    subst h
    cases x <;> simp [Clutch.output] at ho

/-! ## The drain timers (R66) -/

/-- One interval of a drain timer. -/
def drainCounted (r : ClutchRec) : ClutchRec :=
  match r.drain with
  | none => r
  | some t =>
    if r.state = .draining ∧ 100 ≤ t + 10 then { r with state := .off, value := 0, drain := none }
    else { r with drain := some (min 100 (t + 10)) }

theorem drainingClutches_nodup (s : State) : (drainingClutches s).Nodup := clutch_all_nodup.filter _

theorem mem_drainingClutches {s : State} {x : Clutch} : x ∈ drainingClutches s ↔ (s.clutch x).drain.isSome = true := by
  simp [drainingClutches, Clutch.mem_all]

theorem withClutch_withClutch (s : State) (x : Clutch) (r q : ClutchRec) :
    (s.withClutch x r).withClutch x q = s.withClutch x q := by
  have hset : (s.shc.clutches.set x r).set x q = s.shc.clutches.set x q :=
    ClutchTable.ext_get _ _ fun y => by by_cases hy : y = x <;> simp [hy]
  exact congrArg (clutchesSet s) hset

theorem withClutch_same (s : State) (x : Clutch) : s.withClutch x (s.clutch x) = s :=
  congrArg (clutchesSet s) (set_get_same x)

theorem drainDue_withClutch (s : State) (x : Clutch) (r : ClutchRec) (t : Nat) :
    drainDue (s.withClutch x { r with drain := some (min drainMs (t + 10)) }) x =
      decide (r.state = .draining ∧ 100 ≤ t + 10) := by
  rw [drainDue, clutch_withClutch, if_pos rfl, drainMs]
  simp only [beq_eq_decide, Bool.decide_and]
  congr 1
  exact decide_eq_decide.mpr (by omega)

/-- A drain timer that runs counts one interval, with the end it may reach (log 15). -/
theorem countDrain_clutch (s : State) (x : Clutch) : countDrain s x = s.withClutch x (drainCounted (s.clutch x)) := by
  unfold countDrain drainCounted
  cases hdrain : (s.clutch x).drain with
  | none => exact (withClutch_same s x).symm
  | some t =>
    simp only
    rw [drainDue_withClutch, openClutch, withClutch_withClutch, clutch_withClutch, if_pos rfl]
    by_cases h : (s.clutch x).state = .draining ∧ 100 ≤ t + 10
    · rw [if_pos h, if_pos (decide_eq_true h)]
    · rw [if_neg h, if_neg (by simpa using h)]
      rfl

theorem countDrains_eq {s : State} {l : List Clutch} (hl : l.Nodup) :
    overClutches countDrain l s = clutchesSet s (mapOn l (fun _ c => drainCounted c) s.shc.clutches) :=
  overClutches_eq (fun _ _ => countDrain_clutch _ _) hl

section
variable (r : ClutchRec)

/-- A drain timer leaves a clutch all but its state, its value and the timer. -/
theorem drainCounted_eq : drainCounted r = { r with
    state := (drainCounted r).state, value := (drainCounted r).value, drain := (drainCounted r).drain } := by
  unfold drainCounted
  split
  · rfl
  · split <;> rfl

variable {r}

theorem drainCounted_of_other (h : r.state ≠ .draining) :
    (drainCounted r).state = r.state ∧ (drainCounted r).value = r.value := by
  unfold drainCounted
  split
  · exact ⟨rfl, rfl⟩
  · rw [if_neg fun k => h k.1]
    exact ⟨rfl, rfl⟩

theorem drainCounted_of_draining (h : r.state = .draining) :
    (drainCounted r).state = .draining ∧ (drainCounted r).value = r.value ∨
      (drainCounted r).state = .off ∧ (drainCounted r).value = 0 := by
  unfold drainCounted
  split
  · exact .inl ⟨h, rfl⟩
  · split
    · exact .inr ⟨rfl, rfl⟩
    · exact .inl ⟨h, rfl⟩

end

/-! ## The end of an interval (R66, R68, R98) -/

/-- The record of a clutch at the end of an interval: its command is written, and its drain timer counted where it ran
when the interval began. -/
def finishedRec (running : List Clutch) (c : Image) (k : Shc) (x : Clutch) : ClutchRec :=
  if x ∈ running then drainCounted { k.clutches.get x with command := commandFor c k x }
  else { k.clutches.get x with command := commandFor c k x }

section
variable {running : List Clutch} {s : State}

theorem finishInterval_eq (hl : running.Nodup) : finishInterval running s = clutchesSet (writeClutches (writeOverrun s))
    (mapOn running (fun _ c => drainCounted c) (writeClutches (writeOverrun s)).shc.clutches) := countDrains_eq hl

theorem touches_finishInterval (hl : running.Nodup) : Touches [.vdb, .shc] s (finishInterval running s) := by
  rw [finishInterval_eq hl]
  exact also (also ((touches_withShc s _).mono (by decide)) (touches_writeClutches (writeOverrun s)))
    (touches_clutchesSet _ _)

theorem writeOverrun_shc (s : State) :
    (writeOverrun s).shc = { s.shc with overrun := s.scu.motion.inpRpm - 2500 } := by
  rw [writeOverrun, State.withShc_shc]

theorem writeOverrun_cfg (s : State) : (writeOverrun s).cfg = s.cfg := by rw [writeOverrun, State.withShc_cfg]

theorem commandFor_writeOverrun (s : State) (x : Clutch) :
    commandFor (writeOverrun s).cfg (writeOverrun s).shc x = commandFor s.cfg s.shc x := by
  rw [writeOverrun_cfg, writeOverrun_shc]
  generalize s.scu.motion.inpRpm - 2500 = overrun
  rfl

theorem finishInterval_clutch (hl : running.Nodup) (x : Clutch) :
    (finishInterval running s).clutch x = finishedRec running s.cfg s.shc x := by
  have hwritten : (writeClutches (writeOverrun s)).shc.clutches.get x = _ := writeClutches_clutch (writeOverrun s) x
  rw [commandFor_writeOverrun, State.clutch, writeOverrun_shc] at hwritten
  rw [finishInterval_eq hl, clutch_clutchesSet, mapOn_get, hwritten, finishedRec]

theorem finishInterval_shc (hl : running.Nodup) : (finishInterval running s).shc =
    { s.shc with overrun := s.scu.motion.inpRpm - 2500, clutches := (finishInterval running s).shc.clutches } := by
  have hwritten := writeClutches_shc (writeOverrun s)
  rw [finishInterval_eq hl]
  generalize writeClutches (writeOverrun s) = w at *
  rw [shc_clutchesSet, hwritten, writeOverrun_shc]

theorem finishInterval_stored (hl : running.Nodup) (x : Clutch) : ((finishInterval running s).out x.output).command =
    min (commandFor s.cfg s.shc x) (s.cfg.maxima.get x.output) := by
  have hstored := (writeClutches_written (writeOverrun s)).stored x (Clutch.mem_all x)
  rw [commandFor_writeOverrun, writeOverrun_cfg] at hstored
  rw [finishInterval_eq hl, out_clutchesSet, hstored]

/-- An output of no clutch stays. -/
theorem finishInterval_apart (hl : running.Nodup) {o : Output}
    (ho : o = .pkv ∨ o = .fdv ∨ o = .hrv ∨ o = .hlv ∨ o = .tcv ∨ o = .tsv) :
    (finishInterval running s).out o = s.out o := by
  have hapart := writeClutches_apart (writeOverrun s) ho
  have hout : (writeOverrun s).out o = s.out o := by rw [writeOverrun, State.out, State.withShc_vdb, State.out]
  rw [finishInterval_eq hl, out_clutchesSet, hapart, hout]

end

section
variable {running : List Clutch} {c : Image} {k : Shc} {x : Clutch}

theorem finishedRec_command : (finishedRec running c k x).command = commandFor c k x := by
  unfold finishedRec
  split
  · rw [drainCounted_eq]
  · rfl

/-- All but state, value, command and drain timer of a clutch stand at the end of an interval. -/
theorem finishedRec_eq : finishedRec running c k x = { k.clutches.get x with
    command := commandFor c k x, state := (finishedRec running c k x).state
    value := (finishedRec running c k x).value, drain := (finishedRec running c k x).drain } := by
  unfold finishedRec
  split
  · exact drainCounted_eq _
  · rfl

theorem finishedRec_of_other (h : (k.clutches.get x).state ≠ .draining) :
    (finishedRec running c k x).state = (k.clutches.get x).state ∧
      (finishedRec running c k x).value = (k.clutches.get x).value := by
  unfold finishedRec
  split
  · exact drainCounted_of_other (r := { k.clutches.get x with command := commandFor c k x }) h
  · exact ⟨rfl, rfl⟩

theorem finishedRec_of_draining (h : (k.clutches.get x).state = .draining) :
    (finishedRec running c k x).state = .draining ∨ (finishedRec running c k x).state = .off := by
  unfold finishedRec
  split
  · have hcounted := drainCounted_of_draining (r := { k.clutches.get x with command := commandFor c k x }) h
    exact hcounted.imp And.left And.left
  · exact .inl h

theorem finishedRec_value (h : (finishedRec running c k x).state ≠ .off) :
    (finishedRec running c k x).value = (k.clutches.get x).value := by
  by_cases hdraining : (k.clutches.get x).state = .draining
  · unfold finishedRec at h ⊢
    split at h
    next hrunning =>
      rw [if_pos hrunning]
      have hcounted := drainCounted_of_draining (r := { k.clutches.get x with command := commandFor c k x }) hdraining
      exact hcounted.elim And.right fun k => absurd k.1 h
    next hrunning => rw [if_neg hrunning]
  · exact (finishedRec_of_other hdraining).2

/-- A clutch LOCKED after an interval's end was LOCKED before. -/
theorem finishedRec_locked (h : (finishedRec running c k x).state = .locked) : (k.clutches.get x).state = .locked := by
  by_cases hdraining : (k.clutches.get x).state = .draining
  · exact (finishedRec_of_draining (running := running) (c := c) hdraining).elim (fun k => by simp [k] at h)
      fun k => by simp [k] at h
  · exact (finishedRec_of_other hdraining).1 ▸ h

/-- A clutch whose drain timer did not run when the interval began keeps its state. -/
theorem finishedRec_of_not_running (h : x ∉ running) :
    finishedRec running c k x = { k.clutches.get x with command := commandFor c k x } := if_neg h

end

end Sys2Proof.Proofs
end

