-- ==== Sys2Proof/Proofs/GearboxMoves.lean ====
section
/-! SUPPORT. What every operation of the shift controller keeps: the inputs of step 1 (R68), the ignored lever but for the
lever as it stands, an empty queue, and the parts it does not write. -/

namespace Sys2Proof.Proofs

open Sys2Proof Sys2Proof.Machine

/-- The inputs an SHC record holds. -/
def inputsOf (k : Shc) : Bool × Lever × Nat × Bool × Nat × Option Nat × Bool :=
  (k.starting, k.lever, k.pedal, k.auto, k.rate, k.pedalHold, k.cabFresh)

/-- An operation of the SHC leads from `s` to `t` within the parts `l`: the inputs stand, the ignored lever stands or
becomes the lever, and an empty queue stays empty. -/
structure Moves (l : List Part) (s t : State) : Prop where
  shc : .shc ∈ l
  lc : .lc ∈ l
  touches : Touches l s t
  inputs : inputsOf t.shc = inputsOf s.shc
  ignored : t.shc.ignored = s.shc.ignored ∨ t.shc.ignored = some s.shc.lever
  queue : s.shc.queue = [] → t.shc.queue = []

namespace Moves

variable {l : List Part} {s t u : State}

protected theorem refl (hshc : .shc ∈ l) (hlc : .lc ∈ l) (s : State) : Moves l s s :=
  ⟨hshc, hlc, .refl l s, rfl, .inl rfl, id⟩

theorem starting (h : Moves l s t) : t.shc.starting = s.shc.starting := congrArg Prod.fst h.inputs

theorem lever (h : Moves l s t) : t.shc.lever = s.shc.lever := congrArg (fun i => i.2.1) h.inputs

protected theorem trans (h : Moves l s t) (k : Moves l t u) : Moves l s u where
  shc := h.shc
  lc := h.lc
  touches := h.touches.trans k.touches
  inputs := k.inputs.trans h.inputs
  ignored := k.ignored.elim (fun hk => h.ignored.imp hk.trans hk.trans) fun hk => .inr (hk.trans (h.lever ▸ rfl))
  queue := fun hs => k.queue (h.queue hs)

protected theorem ite {c : Prop} [Decidable c] (h : Moves l s t) (k : Moves l s u) : Moves l s (if c then t else u) :=
  iteInduction (fun _ => h) fun _ => k

variable (h : Moves l s t)
include h

/-- The SHC's record is written with the inputs, the ignored lever and the queue as they stand or as they may become. -/
theorem writeShc (x : Shc) (hinputs : inputsOf x = inputsOf t.shc)
    (hignored : x.ignored = t.shc.ignored ∨ x.ignored = some t.shc.lever)
    (hqueue : t.shc.queue = [] → x.queue = []) : Moves l s (t.withShc x) :=
  h.trans ⟨h.shc, h.lc, (touches_withShc t x).mono (by simpa using h.shc), hinputs, hignored, hqueue⟩

theorem withShc (x : Shc) (hinputs : inputsOf x = inputsOf t.shc)
    (hkept : (x.ignored, x.queue) = (t.shc.ignored, t.shc.queue)) : Moves l s (t.withShc x) :=
  h.writeShc x hinputs (.inl (Prod.mk.inj hkept).1) ((Prod.mk.inj hkept).2.trans ·)

/-- What leaves the SHC's record is a move within its parts. -/
theorem aside {m : List Part} (k : Touches m t u) (hshc : .shc ∉ m) (hm : ∀ p ∈ m, p ∈ l) : Moves l s u := by
  have hsame : u.shc = t.shc := k .shc hshc
  exact h.trans ⟨h.shc, h.lc, k.mono hm, congrArg inputsOf hsame, .inl (congrArg Shc.ignored hsame),
    fun hq => (congrArg Shc.queue hsame).trans hq⟩

theorem publish (g : Group) : Moves l s (publish g t) :=
  h.aside (touches_publish g t) (by decide) (by simpa using h.lc)

theorem withClutch (x : Clutch) (r : ClutchRec) : Moves l s (t.withClutch x r) := h.withShc _ (by rfl) (by rfl)

/-! ## Clutches (R65, R66, R73) -/

omit h in
theorem overClutches {f : State → Clutch → State} (hf : ∀ (t : State) (x : Clutch), Moves l s t → Moves l s (f t x))
    (list : List Clutch) (h : Moves l s t) : Moves l s (overClutches f list t) := holds_foldl hf list h

/-- Every clutch of a list takes a record made from the state as it then stands. -/
theorem setAll (r : State → Clutch → ClutchRec) (list : List Clutch) :
    Moves l s (Machine.overClutches (fun t x => t.withClutch x (r t x)) list t) :=
  overClutches (fun _ x k => k.withClutch x _) list h

theorem lockAll (list : List Clutch) : Moves l s (Machine.overClutches lockClutch list t) := h.setAll _ list
theorem drainAll (list : List Clutch) : Moves l s (Machine.overClutches drainClutch list t) := h.setAll _ list
theorem fillAll (list : List Clutch) : Moves l s (Machine.overClutches startFill list t) := h.setAll _ list

theorem torqueOffAll (f : ClutchCfg → Nat) (list : List Clutch) :
    Moves l s (Machine.overClutches (torqueOff f) list t) := h.setAll _ list

theorem torqueOnAll (f : ClutchCfg → Nat) (list : List Clutch) :
    Moves l s (Machine.overClutches (torqueOn f) list t) := h.setAll _ list

theorem fillAlone (x : Clutch) : Moves l s (fillAlone t x) := (h.drainAll _).withClutch _ _

/-! ## Small helpers -/

theorem refuse (why : ShcReason) (who : Origin) : Moves l s (refuse why who t) := h.withShc _ (by rfl) (by rfl)

theorem flushQueue : Moves l s (flushQueue t) := h.writeShc _ (by rfl) (.inl rfl) fun _ => rfl

theorem enterGearbox (st : GearState) : Moves l s (enterGearbox st t) := (h.withShc _ (by rfl) (by rfl)).publish _

theorem withPhase (p : Option Phase) : Moves l s (t.withPhase p) := h.withShc _ (by rfl) (by rfl)

theorem countInterval : Moves l s (countInterval t) := h.withShc _ (by rfl) (by rfl)

theorem withdrawTorque : Moves l s (withdrawTorque t) := .ite ((h.withShc _ (by rfl) (by rfl)).publish _) h

theorem askTorque : Moves l s (askTorque t) := (h.withShc _ (by rfl) (by rfl)).publish _

theorem dropOperation : Moves l s (dropOperation t) := h.withShc _ (by rfl) (by rfl)

/-! ## Shuttle requests and arrivals (R76, R85) -/

theorem beginShuttle (g x : Gear) : Moves l s (beginShuttle g x t) := by
  have hset : Moves l s (t.withShc { t.shc with
      pendingShuttle := false, queue := [], target := some x, phase := some .drain, interval := 0 }) :=
    h.writeShc _ (by rfl) (.inl rfl) fun _ => rfl
  exact ((hset.torqueOffAll ClutchCfg.hold _).fillAll _).enterGearbox _

theorem shuttleRequest : Moves l s (shuttleRequest t) := by
  have hrefused : Moves l s (t.withShc { t.shc with pendingShuttle := false, ignored := some t.shc.lever }) :=
    h.writeShc _ (by rfl) (.inr rfl) id
  unfold Machine.shuttleRequest
  refine iteInduction (fun _ => ?_) fun _ => hrefused.refuse _ _
  split
  · split
    · exact h.beginShuttle _ _
    · exact h
  · exact h

theorem tryShuttle : Moves l s (tryShuttle t) :=
  .ite (.ite h.shuttleRequest (h.withShc _ (by rfl) (by rfl))) h

theorem arriveInGear : Moves l s (arriveInGear t) := (h.dropOperation.enterGearbox _).tryShuttle

/-! ## Shifts (R73 to R81) -/

theorem beginShift (kind : ShiftKind) (who : Origin) (g : Gear) : Moves l s (beginShift kind who g t) :=
  (((h.setAll _ _).withShc _ (by rfl) (by rfl)).fillAll _).enterGearbox _

theorem takeHead : Moves l s (takeHead t) := by
  unfold Machine.takeHead
  split
  next e rest g hqueue _ =>
    have hrest : Moves l s (t.withShc { t.shc with queue := rest }) :=
      h.writeShc _ (by rfl) (.inl rfl) fun hempty => by simp [hempty] at hqueue
    refine iteInduction (fun _ => ?_) fun _ => h
    dsimp only
    split
    · exact hrest.refuse _ _
    · exact hrest.beginShift _ _ _
  next => exact h

theorem markClutch (m : Option Mark) (x : Clutch) : Moves l s (markClutch m t x) := .ite (h.withClutch _ _) h

theorem adaptTests : Moves l s (adaptTests t) := .ite (overClutches (fun _ x k => k.markClutch _ x) _ h) h

theorem applyMark (x : Clutch) : Moves l s (applyMark t x) := by
  unfold Machine.applyMark
  dsimp only
  split
  case h_1 | h_2 => exact h.withClutch _ _
  case h_3 => exact h

theorem beginTorqueUp : Moves l s (beginTorqueUp t) :=
  have hd := h.torqueOffAll ClutchCfg.hold (offGoing t)
  .ite (hd.withShc _ (by rfl) (by rfl)).askTorque (hd.withShc _ (by rfl) (by rfl))

theorem beginInertiaDown : Moves l s (beginInertiaDown t) :=
  (h.torqueOnAll ClutchCfg.touch (offGoing t)).withShc _ (by rfl) (by rfl)

theorem beginTorqueDown : Moves l s (beginTorqueDown t) :=
  (h.torqueOffAll ClutchCfg.touch (offGoing t)).withShc _ (by rfl) (by rfl)

theorem endFill : Moves l s (endFill t) := .ite h.beginTorqueUp h.beginInertiaDown

theorem beginLockupUp : Moves l s (beginLockupUp t) :=
  (overClutches (fun _ x k => k.applyMark x) _ ((h.withPhase _).lockAll _)).withdrawTorque

theorem syncPoint : Moves l s (syncPoint t) := .ite h.beginLockupUp h.beginTorqueDown

theorem finishShift : Moves l s (finishShift t) := (h.withShc _ (by rfl) (by rfl)).arriveInGear

theorem endTorque : Moves l s (endTorque t) :=
  have hd := h.drainAll (offGoing t)
  .ite (hd.withShc _ (by rfl) (by rfl)) ((hd.lockAll _).withPhase _)

theorem compareEcho : Moves l s (compareEcho t) := by
  unfold Machine.compareEcho
  split
  · exact h.withShc _ (by rfl) (by rfl)
  · exact h

theorem torqueStep : Moves l s (torqueStep t) :=
  have hend {u : State} (k : Moves l s u) : Moves l s (if torqueOver u = true then Machine.endTorque u else u) :=
    .ite k.endTorque k
  have hc := h.countInterval
  have he : Moves l s (if (Machine.countInterval t).shc.kind = some .up
      then Machine.compareEcho (Machine.countInterval t) else Machine.countInterval t) :=
    .ite hc.compareEcho hc
  hend (.ite ((he.torqueOnAll _ _).torqueOffAll _ _) ((he.torqueOnAll _ _).torqueOffAll _ _))

theorem beginAbort : Moves l s (beginAbort t) :=
  (((h.drainAll (onComing t)).setAll _ _).withPhase _).withdrawTorque

theorem timeOutShift (hmc : .mc ∈ l) : Moves l s (timeOutShift t) :=
  ((h.aside (touches_raiseLatched .shiftTimeout t) (by decide) (by simpa using hmc)).aside
    (touches_clearFault .shiftTimeout _) (by decide) (by simpa using hmc)).flushQueue.beginAbort

theorem inertiaStep (hmc : .mc ∈ l) : Moves l s (inertiaStep t) :=
  have hend {u : State} (k : Moves l s u) : Moves l s (if syncDue u = true then Machine.syncPoint u
      else if timeoutDue u = true then Machine.timeOutShift u else u) :=
    .ite k.syncPoint (.ite (k.timeOutShift hmc) k)
  have hc := h.countInterval
  hend ((Moves.ite (hc.setAll _ _) hc).withShc _ (by rfl) (by rfl))

theorem endAbort : Moves l s (endAbort t) := (h.lockAll _).arriveInGear

theorem abortStep : Moves l s (abortStep t) :=
  have hend {u : State} (k : Moves l s u) : Moves l s (if abortOver u = true then Machine.endAbort u else u) :=
    .ite k.endAbort k
  hend (h.countInterval.setAll _ _)

/-! ## Engagements and shuttles (R83, R84, R86) -/

theorem beginRamp (g : Gear) : Moves l s (beginRamp g t) := (h.withShc _ (by rfl) (by rfl)).fillAlone _

theorem preselectClutch (x : Clutch) : Moves l s (preselectClutch t x) := .ite h (h.fillAlone _)

theorem beginEngaging (g : Gear) : Moves l s (beginEngaging g t) := by
  have hset := h.withShc { t.shc with target := some g, phase := some .preselect, interval := 0, preselect := none }
    (by rfl) (by rfl)
  exact (Moves.ite (hset.beginRamp g) (overClutches (fun _ x k => k.preselectClutch x) _ hset)).enterGearbox _

theorem refuseLever (why : ShcReason) : Moves l s (refuseLever why t) :=
  (h.writeShc { t.shc with ignored := some t.shc.lever } (by rfl) (.inr rfl) id).refuse _ _

theorem engageRequest (d : Dir) : Moves l s (engageRequest d t) := by
  unfold Machine.engageRequest
  split
  · split
    · exact h.refuseLever _
    · exact h.beginEngaging _
  · exact h.refuseLever _

theorem engageLever : Moves l s (engageLever t) := by
  unfold Machine.engageLever
  split
  case h_1 | h_2 => exact h.engageRequest _
  case h_3 | h_4 => exact h

theorem endDirectionRamp : Moves l s (endDirectionRamp t) := (h.lockAll _).arriveInGear

theorem rampStep : Moves l s (rampStep t) :=
  have hend {u : State} (k : Moves l s u) : Moves l s (if rampOver u = true then Machine.endDirectionRamp u else u) :=
    .ite k.endDirectionRamp k
  hend (h.countInterval.setAll _ _)

theorem settleFill (x : Clutch) : Moves l s (settleFill t x) :=
  have hr := h.withClutch x ((t.clutch x).ramp (t.clutchCfg x).touch)
  .ite (h.withClutch _ _) (.ite (hr.withShc _ (by rfl) (by rfl)) hr)

theorem fillStep : Moves l s (fillStep t) :=
  overClutches (fun _ x k => .ite (k.settleFill x) k) _
    (overClutches (fun _ _ k => .ite (k.withClutch _ _) k) _ h)

theorem endDrain : Moves l s (endDrain t) := (h.lockAll _).withShc _ (by rfl) (by rfl)

theorem afterFills : Moves l s (afterFills t) := by
  unfold Machine.afterFills
  split
  case h_1 => exact .ite h.endFill h
  case h_2 =>
    split
    · exact .ite (h.beginRamp _) h
    · exact h
  case h_3 =>
    split
    · exact .ite (h.withShc _ (by rfl) (by rfl)) h
    · exact h
  case h_4 => exact .ite h.endDrain h
  case h_5 => exact h

theorem drainOffGoing (j : Nat) : Moves l s (drainOffGoing j t) := by
  unfold Machine.drainOffGoing
  exact .ite (h.torqueOffAll _ _) h

theorem drainStep : Moves l s (drainStep t) := by
  unfold Machine.drainStep
  exact (h.countInterval.drainOffGoing _).fillStep.afterFills

theorem beginDriveAway : Moves l s (beginDriveAway t) := (h.withPhase _).setAll _ _

theorem reverseBrakeStep : Moves l s (reverseBrakeStep t) :=
  have hend {u : State} (k : Moves l s u) : Moves l s (if brakeOver u = true then Machine.beginDriveAway u else u) :=
    .ite k.beginDriveAway k
  hend (h.countInterval.setAll _ _)

theorem driveAwayStep : Moves l s (driveAwayStep t) :=
  have hend {u : State} (k : Moves l s u) :
      Moves l s (if driveAwayOver u = true then Machine.endDirectionRamp u else u) := .ite k.endDirectionRamp k
  hend (h.countInterval.setAll _ _)

theorem advance (hmc : .mc ∈ l) : Moves l s (advance t) := by
  unfold Machine.advance
  split
  · exact h.adaptTests.fillStep.afterFills
  · exact h.adaptTests.torqueStep
  · exact h.inertiaStep hmc
  · exact h.finishShift
  · exact h.abortStep
  · exact h.fillStep.afterFills
  · exact .ite h.fillStep h.rampStep
  · exact h.drainStep
  · exact h.reverseBrakeStep
  · exact h.driveAwayStep
  · exact h.fillStep.afterFills
  · exact h

/-! ## Neutral, park and fault hold (R87 to R92, R96) -/

theorem abandonSwap : Moves l s (abandonSwap t) := .ite ((h.drainAll _).lockAll _) h

theorem leaveShift : Moves l s (leaveShift t) := by
  have hback := (h.drainAll (onComing t)).lockAll (offGoing t)
  have hon := (h.lockAll (onComing t)).drainAll (offGoing t)
  unfold Machine.leaveShift
  dsimp only
  split
  case h_1 => exact hback
  case h_2 => exact .ite hback (hon.withShc _ (by rfl) (by rfl))
  case h_3 | h_4 => exact hon.withShc _ (by rfl) (by rfl)
  case h_5 => exact h.lockAll _
  case h_6 => exact h

theorem reselect : Moves l s (reselect t) := by
  unfold Machine.reselect
  split
  · split
    · exact h.withShc _ (by rfl) (by rfl)
    · exact h
  · exact h

theorem dropToNeutral : Moves l s (dropToNeutral t) := by
  have hw := (h.drainAll directionClutches).withdrawTorque
  have hset {u : State} (k : Moves l s u) : Moves l s (u.withShc { u.shc with queue := [], pendingShuttle := false }) :=
    k.writeShc _ (by rfl) (.inl rfl) fun _ => rfl
  exact (hset hw).dropOperation.enterGearbox _

theorem neutralize : Moves l s (neutralize t) := by
  unfold Machine.neutralize
  split
  · exact h.reselect.dropToNeutral
  · exact h.leaveShift.reselect.dropToNeutral
  · exact h.abandonSwap.reselect.dropToNeutral
  · exact (Moves.ite (h.withShc _ (by rfl) (by rfl)) h : Moves l s (leaveEngaging t)).reselect.dropToNeutral
  all_goals exact h

theorem takePark : Moves l s (takePark t) := .ite h (h.withShc _ (by rfl) (by rfl)).neutralize

theorem followParkRequest : Moves l s (followParkRequest t) := by
  have hset := h.withShc { t.shc with parkForce := parkRequested t } (by rfl) (by rfl)
  exact .ite hset.takePark (.ite (hset.withShc _ (by rfl) (by rfl)) hset)

theorem moveToDirection (old : Lever) : Moves l s (moveToDirection old t) := by
  unfold Machine.moveToDirection
  split
  case h_1 => exact h.engageLever
  case h_2 => exact .ite h.shuttleRequest (h.withShc _ (by rfl) (by rfl))
  case h_3 | h_4 | h_5 => exact h.withShc _ (by rfl) (by rfl)
  all_goals exact h

theorem takeSpeedLoss : Moves l s (takeSpeedLoss t) := (Moves.ite h.flushQueue h).withShc _ (by rfl) (by rfl)

theorem drainCarrying (x : Clutch) : Moves l s (drainCarrying t x) := .ite (h.withClutch _ _) h

theorem enterFaultHold : Moves l s (enterFaultHold t) := by
  have hw := (overClutches (fun _ x k => k.drainCarrying x) Clutch.all h).withdrawTorque
  have hset {u : State} (k : Moves l s u) : Moves l s (u.withShc { u.shc with
      queue := [], pendingShuttle := false, current := none, preselect := none }) :=
    k.writeShc _ (by rfl) (.inl rfl) fun _ => rfl
  exact (hset hw).dropOperation.enterGearbox _

theorem faultHoldTest : Moves l s (faultHoldTest t) :=
  .ite (.ite (h.enterGearbox _) h) (.ite h (.ite h.enterFaultHold h))

theorem writePkv (hvdb : .vdb ∈ l) (released : Bool) : Moves l s (writePkv released t) :=
  (h.withShc { t.shc with parkReleased := released } (by rfl) (by rfl)).aside (touches_writeCommand .pkv _ _)
    (by decide) (by simpa using hvdb)

theorem tryRelease (hvdb : .vdb ∈ l) (ended : Bool) : Moves l s (tryRelease ended t) := by
  unfold Machine.tryRelease
  split
  · exact h.refuseLever _
  · have hreleased := (h.writePkv hvdb true).enterGearbox .neutral
    exact .ite hreleased.engageLever hreleased

theorem applyPark (hvdb : .vdb ∈ l) (htbc : .tbc ∈ l) : Moves l s (applyPark t) :=
  ((((h.writePkv hvdb false).drainAll _).withShc _ (by rfl) (by rfl)).enterGearbox .parked).aside
    (touches_trailerParkOrder _) (by decide) (by simp [h.lc, hvdb, htbc])

theorem parkTest (hvdb : .vdb ∈ l) (htbc : .tbc ∈ l) (ended : Bool) : Moves l s (parkTest ended t) :=
  .ite (h.applyPark hvdb htbc) (.ite (h.tryRelease hvdb ended) h)

theorem advanceFrom (hmc : .mc ∈ l) (before : GearState) : Moves l s (advanceFrom before t) := .ite (h.advance hmc) h

end Moves

end Sys2Proof.Proofs
end

