-- ==== Sys2Proof/Proofs/ShcInterval.lean ====
section
/-! PROOF. O26: every SHC_CONTROL_INTERVAL writes overrun and the commands of the clutches, under the pedal's cap (R66,
R68, R88, R98); and what step 1 takes of the cab record (R68, R94). -/

namespace Sys2Proof.Proofs

open Sys2Proof Sys2Proof.Machine

/-- The parts an SHC interval writes. -/
def shcParts : List Part := [.vdb, .shc, .tbc, .lc, .mc]

/-! ## Step 1 (R68, R94) -/

theorem firstInterval_shc (s : State) : (firstInterval s).shc = { s.shc with starting := false } := by
  unfold firstInterval
  cases hstarting : s.shc.starting with
  | true =>
    rw [if_pos rfl]
    dsimp only
    split <;> split <;> rfl
  | false =>
    rw [if_neg Bool.false_ne_true]
    conv_lhs => rw [show s.shc = { s.shc with starting := s.shc.starting } from rfl, hstarting]

theorem touches_firstInterval (s : State) : Touches [.shc, .mc] s (firstInterval s) := by
  have hset := (touches_withShc s { s.shc with starting := false }).mono
    (by decide : ∀ p ∈ [Part.shc], p ∈ [Part.shc, .mc])
  exact touches_ite _ (touches_ite _
    (also (touches_ite _ (also hset (touches_raise _ _)) (also hset (touches_clearFault _ _))) (touches_raise _ _))
    (also (touches_ite _ (also hset (touches_raise _ _)) (also hset (touches_clearFault _ _))) (touches_clearFault _ _)))
    (.refl _ s)

section
variable {s : State} {d : CabDriveFields}

/-- The lever taken, before it acts. -/
def leverSet (l : Lever) (s : State) : State := s.withShc { s.shc with lever := l, ignored := none }

/-- What a lever change does beyond taking the lever is a move of the SHC. -/
theorem moves_changeLever {l : List Part} (hshc : .shc ∈ l) (hlc : .lc ∈ l) (x : Lever) (s : State) :
    Moves l (leverSet x s) (changeLever x s) := by
  have h := Moves.refl hshc hlc (leverSet x s)
  cases x
  case n => exact h.neutralize
  case f | r => exact h.moveToDirection _
  case park => exact h.takePark

theorem takeCab_of_same (hcab : s.lc.cabDrive.current = some d) (hfresh : s.shc.cabFresh = true)
    (hlever : d.lever = s.shc.lever) : takeCab s = (takeLevels d s, false) := by
  have hstays : d.lever = (takeLevels d s).shc.lever := hlever
  simp only [takeCab, hcab, hfresh, if_true, if_pos hstays]

theorem takeCab_of_changed (hcab : s.lc.cabDrive.current = some d) (hfresh : s.shc.cabFresh = true)
    (hlever : d.lever ≠ s.shc.lever) : takeCab s = (changeLever d.lever (takeLevels d s), true) := by
  have hmoved : ¬ d.lever = (takeLevels d s).shc.lever := hlever
  simp only [takeCab, hcab, hfresh, if_true, if_neg hmoved]

theorem takeCab_of_returned (hcab : s.lc.cabDrive.current = some d) (hfresh : s.shc.cabFresh = false) :
    takeCab s = (compareLever d.lever (takeLevels d s), false) := by
  simp only [takeCab, hcab, hfresh]
  rfl

/-- The record lost: the queue is flushed and the pedal hold starts. -/
def cabLost (s : State) : State := flushQueue (s.withShc { s.shc with cabFresh := false, pedalHold := some 0 })

theorem takeCab_of_lost (hcab : s.lc.cabDrive.current = none) (hfresh : s.shc.cabFresh = true) :
    takeCab s = (cabLost s, false) := by
  simp only [takeCab, hcab, hfresh, if_true, cabLost]

theorem takeCab_of_absent (hcab : s.lc.cabDrive.current = none) (hfresh : s.shc.cabFresh = false) :
    takeCab s = (s, false) := by
  simp only [takeCab, hcab, hfresh]
  rfl

theorem takeLevels_inputs (d : CabDriveFields) (s : State) : inputsOf (takeLevels d s).shc =
    (s.shc.starting, s.shc.lever, min 100 d.pedal, d.auto, shuttleRate d.aggressiveness, none, true) := rfl

/-- A FRESH record's lever and levels are taken. -/
theorem takeCab_inputs (hcab : s.lc.cabDrive.current = some d) : inputsOf (takeCab s).1.shc =
    (s.shc.starting, d.lever, min 100 d.pedal, d.auto, shuttleRate d.aggressiveness, none, true) := by
  cases hfresh : s.shc.cabFresh with
  | true =>
    by_cases hlever : d.lever = s.shc.lever
    · rw [takeCab_of_same hcab hfresh hlever, takeLevels_inputs, hlever]
    · rw [takeCab_of_changed hcab hfresh hlever]
      exact (moves_changeLever (l := shcParts) (by decide) (by decide) d.lever (takeLevels d s)).inputs
  | false =>
    rw [takeCab_of_returned hcab hfresh]
    by_cases hlever : d.lever = s.shc.lever
    · have hsame : compareLever d.lever (takeLevels d s) = takeLevels d s := if_pos hlever
      rw [hsame, takeLevels_inputs, hlever]
    · have hset : compareLever d.lever (takeLevels d s) = (takeLevels d s).withShc
          { (takeLevels d s).shc with lever := d.lever, ignored := some d.lever } := if_neg hlever
      rw [hset]
      rfl

theorem takeCab_starting (s : State) : (takeCab s).1.shc.starting = s.shc.starting := by
  cases hcab : s.lc.cabDrive.current with
  | some d => exact congrArg Prod.fst (takeCab_inputs hcab)
  | none =>
    cases hfresh : s.shc.cabFresh with
    | true => rw [takeCab_of_lost hcab hfresh]; rfl
    | false => rw [takeCab_of_absent hcab hfresh]

theorem touches_takeCab (s : State) : Touches [.shc, .lc] s (takeCab s).1 := by
  cases hcab : s.lc.cabDrive.current with
  | none =>
    cases hfresh : s.shc.cabFresh with
    | true =>
      rw [takeCab_of_lost hcab hfresh]
      exact ((touches_withShc s _).trans (touches_withShc _ _)).mono (by decide)
    | false => rw [takeCab_of_absent hcab hfresh]; exact .refl _ s
  | some d =>
    have hlevels := (touches_withShc s (takeLevels d s).shc).mono (by decide : ∀ p ∈ [Part.shc], p ∈ [Part.shc, .lc])
    cases hfresh : s.shc.cabFresh with
    | true =>
      by_cases hlever : d.lever = s.shc.lever
      · rw [takeCab_of_same hcab hfresh hlever]
        exact hlevels
      · rw [takeCab_of_changed hcab hfresh hlever]
        have hset := (touches_withShc (takeLevels d s) (leverSet d.lever (takeLevels d s)).shc).mono
          (by decide : ∀ p ∈ [Part.shc], p ∈ [Part.shc, .lc])
        exact hlevels.trans (hset.trans
          (moves_changeLever (by decide) (by decide) d.lever (takeLevels d s)).touches)
    | false =>
      rw [takeCab_of_returned hcab hfresh]
      exact hlevels.trans (touches_ite _ (.refl _ _) ((touches_withShc _ _).mono (by decide)))

end

/-! ## An interval, step by step (R68) -/

/-- The state with the cab record taken. -/
def cabTaken (s : State) : State := (takeCab (firstInterval s)).1

/-- The state at the end of step 2. -/
def inputsTaken (s : State) : State := faultHoldTest (followParkRequest (takeSpeedLoss (cabTaken s)))

/-- The state at the end of step 5. -/
def intervalActed (s : State) : State :=
  parkTest (leverParks s.shc && (takeCab (firstInterval s)).2) (advanceFrom s.shc.state (takeHead (inputsTaken s)))

theorem exec_shcControlInterval {s : State} (h : s.mc.mode.controllersRun = true) :
    exec .shcControlInterval s = .next (finishInterval (drainingClutches s) (intervalActed s)) :=
  congrArg Host.Outcome.next (if_pos h)

theorem touches_cabTaken (s : State) : Touches [.shc, .lc, .mc] s (cabTaken s) :=
  also ((touches_firstInterval s).mono (by decide)) (touches_takeCab _)

/-- From the taking of the cab record to the end of step 5 the inputs stand. -/
theorem moves_inputsTaken (s : State) : Moves shcParts (cabTaken s) (inputsTaken s) :=
  (Moves.refl (by decide) (by decide) (cabTaken s)).takeSpeedLoss.followParkRequest.faultHoldTest

theorem moves_intervalActed (s : State) : Moves shcParts (cabTaken s) (intervalActed s) := by
  have hmc : Part.mc ∈ shcParts := by decide
  have hvdb : Part.vdb ∈ shcParts := by decide
  have htbc : Part.tbc ∈ shcParts := by decide
  unfold intervalActed
  exact (((moves_inputsTaken s).takeHead.advanceFrom hmc _).parkTest hvdb htbc _)

theorem touches_intervalActed (s : State) : Touches shcParts s (intervalActed s) :=
  ((touches_cabTaken s).mono (by decide)).trans (moves_intervalActed s).touches

theorem touches_shcInterval (s : State) :
    Touches shcParts s (finishInterval (drainingClutches s) (intervalActed s)) :=
  (touches_intervalActed s).trans ((touches_finishInterval (drainingClutches_nodup s)).mono (by decide))

theorem cabTaken_starting (s : State) : (cabTaken s).shc.starting = false :=
  (takeCab_starting _).trans (congrArg Shc.starting (firstInterval_shc s))

/-- Settles O26. -/
theorem shcIntervalWrites : Obligations.ShcIntervalWrites := by
  intro s hruns
  have hnodup := drainingClutches_nodup s
  have htouches := touches_intervalActed s
  have hmoves := moves_intervalActed s
  have hcfg : (intervalActed s).cfg = s.cfg := htouches .cfg (by decide)
  have hscu : (intervalActed s).scu = s.scu := htouches .scu (by decide)
  have hstarting : (intervalActed s).shc.starting = false :=
    hmoves.starting.trans (cabTaken_starting s)
  have hclutch (x : Clutch) := finishInterval_clutch (s := intervalActed s) hnodup x
  have hshc := finishInterval_shc (s := intervalActed s) hnodup
  have hstored (x : Clutch) := finishInterval_stored (s := intervalActed s) hnodup x
  rw [hcfg] at hclutch hstored
  rw [hscu] at hshc
  refine ⟨_, exec_shcControlInterval hruns, ?_, ?_, fun x => ?_, fun x hfwd hrev hoff => ?_,
    fun x hx hlocked hold p hhold hp => ?_, touches_shcInterval s⟩
  · rw [hshc]
  · rw [hshc]
    exact hstarting
  · rw [hstored, hclutch, finishedRec_command]
  · rw [hclutch] at hoff ⊢
    rw [finishedRec_command, commandFor_of_gear ⟨hfwd, hrev⟩]
    exact (finishedRec_value hoff).symm
  · rw [hclutch] at hlocked ⊢
    rw [finishedRec_command, commandFor_of_locked hx (finishedRec_locked hlocked),
      (finishedRec_of_other (by rw [finishedRec_locked hlocked]; nofun)).2, pedalCap_eq, hhold, hp, hshc]

end Sys2Proof.Proofs
end

