-- ==== Sys2Proof/Proofs/ShcTimers.lean ====
section
/-! PROOF. O31: the drain timers, the pedal hold and the automatic-shift timer (R66, R94, R97). -/

namespace Sys2Proof.Proofs

open Sys2Proof Sys2Proof.Machine

theorem shcDue_of_runs {b : Bool} {s : State} (h : s.mc.mode.controllersRun = true) : shcDue b s = b := by
  rw [shcDue, h, Bool.true_and]

/-! ## CLUTCH_DRAIN_COMPLETE and PEDAL_HOLD_EXPIRY -/

section
variable {s : State}

theorem exec_clutchDrainComplete {x : Clutch} {d : Nat} (hruns : s.mc.mode.controllersRun = true)
    (hstate : (s.clutch x).state = .draining) (hdrain : (s.clutch x).drain = some d) (hd : 100 ≤ d) :
    exec (.clutchDrainComplete x) s = .next (openClutch s x) := by
  have hdue : drainDue s x = true := by simp [drainDue, hstate, hdrain, drainMs, hd]
  exact congrArg Host.Outcome.next (if_pos (by rw [shcDue_of_runs hruns, hdue]))

theorem exec_pedalHoldExpiry {p : Nat} (hruns : s.mc.mode.controllersRun = true) (hhold : s.shc.pedalHold = some p)
    (hp : 1000000 ≤ p) : exec .pedalHoldExpiry s = .next (dropPedal s) := by
  have hover : pedalHoldOver s = true := by simp [pedalHoldOver, hhold, pedalHoldUs, hp]
  exact congrArg Host.Outcome.next (if_pos (by rw [shcDue_of_runs hruns, hover]))

/-- The pedal in use dropped, before the commands are written. -/
def pedalReleased (s : State) : State := s.withShc { s.shc with pedal := 0, pedalHold := none }

theorem dropPedal_eq (s : State) : dropPedal s = writeClutches (pedalReleased s) := rfl

theorem dropPedal_clutch (s : State) (x : Clutch) : (dropPedal s).clutch x =
    { s.clutch x with command := commandFor s.cfg (pedalReleased s).shc x } := writeClutches_clutch (pedalReleased s) x

/-- Pedal, hold timer and commands change, and nothing else of the SHC. -/
theorem dropPedal_shc (s : State) : (dropPedal s).shc =
    { s.shc with pedal := 0, pedalHold := none, clutches := (dropPedal s).shc.clutches } := by
  have hshc := writeClutches_shc (pedalReleased s)
  rw [← dropPedal_eq] at hshc
  generalize dropPedal s = t at *
  exact hshc

theorem touches_dropPedal (s : State) : Touches [.vdb, .shc] s (dropPedal s) :=
  ((touches_withShc s (pedalReleased s).shc).mono (by decide)).trans (touches_writeClutches (pedalReleased s))

/-- With the pedal released a LOCKED clutch carries its value, a direction clutch at most its hold current. -/
theorem commandFor_of_released {x : Clutch} (hstate : (s.clutch x).state = .locked) :
    commandFor s.cfg (pedalReleased s).shc x =
      if x = .fwd ∨ x = .rev then min (s.clutch x).value (s.cfg.clutches.get x).hold else (s.clutch x).value := by
  by_cases hdir : x = .fwd ∨ x = .rev
  · rw [if_pos hdir, commandFor_of_locked (k := (pedalReleased s).shc) hdir hstate, pedalCap_eq]
    rfl
  · rw [if_neg hdir, commandFor_of_gear (not_or.mp hdir)]
    rfl

/-! ## The automatic-shift timer (R97) -/

theorem autoEligible_iff (s : State) : autoEligible s = true ↔ s.shc.auto = true ∧ s.shc.state = .inGear ∧
    s.shc.queue = [] ∧ s.lc.engine.fresh = .fresh ∧
    ∃ (g : Gear) (e : GearEntry), s.shc.current = some g ∧ s.cfg.entryOf g = some e ∧ e.auto = true := by
  unfold autoEligible
  simp only [Bool.and_eq_true, beq_iff_eq, List.isEmpty_iff, Peer.isFresh, and_assoc]
  cases s.shc.current with
  | none => simp
  | some g => simp [Option.any_eq_true]

/-- The counters of an eligible gearbox at an expiry. -/
def upCounted (s : State) (torque : Nat) : Nat :=
  if 2100 < s.scu.motion.inpRpm ∧ torque < 60 then s.shc.upCount + 1 else 0

def downCounted (s : State) (torque : Nat) : Nat :=
  if s.scu.motion.inpRpm < 1500 ∧ 85 < torque then s.shc.downCount + 1 else 0

/-- The state with both counters 0, in which an offer is made. -/
def countersZero (s : State) : State := s.withShc { s.shc with upCount := 0, downCount := 0 }

/-- The state with both counters counted. -/
def autoCounted (s : State) (torque : Nat) : State :=
  s.withShc { s.shc with upCount := upCounted s torque, downCount := downCounted s torque }

theorem autoTick_of_eligible {torque : Nat} (h : autoEligible s = true) (htorque : s.engineTorque = some torque) :
    autoTick s = if 10 ≤ upCounted s torque then shiftRequest .up .auto (countersZero s)
      else if 5 ≤ downCounted s torque then shiftRequest .down .auto (countersZero s)
      else autoCounted s torque := by
  have hcounted : autoTick s = if autoUpDue (autoCounted s torque) then offerAuto .up (autoCounted s torque)
      else if autoDownDue (autoCounted s torque) then offerAuto .down (autoCounted s torque)
      else autoCounted s torque := by
    unfold autoTick
    rw [if_pos h, htorque]
    rfl
  have hup : autoUpDue (autoCounted s torque) = decide (10 ≤ upCounted s torque) := rfl
  have hdown : autoDownDue (autoCounted s torque) = decide (5 ≤ downCounted s torque) := rfl
  rw [hcounted, hup, hdown]
  simp only [decide_eq_true_eq]
  rfl

theorem autoTick_of_not (h : autoEligible s = false) : autoTick s = countersZero s :=
  if_neg (h ▸ Bool.false_ne_true)

theorem touches_countersZero (s : State) : Touches [.shc] s (countersZero s) := touches_withShc s _

theorem touches_autoTick (s : State) : Touches [.shc] s (autoTick s) := by
  have hoffer (kind : ShiftKind) (u : State) : Touches [.shc] u (offerAuto kind u) :=
    (touches_withShc u _).trans (touches_shiftRequest _ _ _)
  refine touches_ite _ ?_ (touches_withShc s _)
  dsimp only
  exact touches_ite _ ((touches_withShc s _).trans (hoffer _ _))
    (touches_ite _ ((touches_withShc s _).trans (hoffer _ _)) (touches_withShc s _))

theorem exec_auto {c : Instr} {kind : ShiftKind} (hruns : s.mc.mode.controllersRun = true)
    (h : (c = .autoUp ∧ kind = .up ∧ 10 ≤ s.shc.upCount) ∨ (c = .autoDown ∧ kind = .down ∧ 5 ≤ s.shc.downCount)) :
    exec c s = .next (shiftRequest kind .auto (countersZero s)) := by
  rcases h with ⟨rfl, rfl, hcount⟩ | ⟨rfl, rfl, hcount⟩
  · exact congrArg Host.Outcome.next (if_pos (by rw [shcDue_of_runs hruns]; exact decide_eq_true hcount))
  · exact congrArg Host.Outcome.next (if_pos (by rw [shcDue_of_runs hruns]; exact decide_eq_true hcount))

end

/-- Settles O31. -/
theorem shcTimersExpire : Obligations.ShcTimersExpire := by
  refine ⟨fun s hruns => ⟨?drain, ?pedal⟩, fun s hruns => ⟨?tick, ?offer⟩⟩
  case drain =>
    rintro x hstate ⟨d, hdrain, hd⟩
    refine ⟨_, exec_clutchDrainComplete hruns hstate hdrain hd, ?_, fun y hy => ?_, rfl, touches_withShc s _⟩
    · rw [openClutch, clutch_withClutch, if_pos rfl]
    · rw [openClutch, clutch_withClutch, if_neg hy]
  case pedal =>
    rintro ⟨p, hhold, hp⟩
    have hshc := dropPedal_shc s
    have hclutch := dropPedal_clutch s
    refine ⟨_, exec_pedalHoldExpiry hruns hhold hp, by rw [hshc], by rw [hshc], by rw [hshc], by rw [hshc],
      fun x => by rw [hclutch]; exact ⟨rfl, rfl⟩, fun x hlocked => ?_, touches_dropPedal s⟩
    rw [hclutch]
    exact commandFor_of_released hlocked
  case tick =>
    intro eligible heligible
    rw [← autoEligible_iff] at heligible
    refine ⟨_, congrArg Host.Outcome.next (if_pos hruns), touches_autoTick s, fun hnot => ?_,
      fun hel torque up down htorque hup hdown => ?_⟩
    · rw [autoTick_of_not (Bool.eq_false_iff.mpr fun h => hnot (heligible.mpr h))]
      rfl
    · rw [autoTick_of_eligible (heligible.mp hel) htorque]
      rw [show up = upCounted s torque from hup, show down = downCounted s torque from hdown]
      refine ⟨fun h1 h2 => ?_, fun h1 => if_pos h1, fun h1 h2 => ?_⟩
      · rw [if_neg (Nat.not_le.mpr h1), if_neg (Nat.not_le.mpr h2)]
        rfl
      · exact (if_neg (Nat.not_le.mpr h1)).trans (if_pos h2)
  case offer =>
    intro c kind hc hgear hcmp hvalid hfresh hrear hinput hqueue
    have hplaced : requestRefusal (countersZero s) = none := by
      rw [requestRefusal_eq]
      simp [countersZero, hgear, hcmp, hvalid, hfresh, hrear, hinput]
    have hoffer : offer kind .auto (countersZero s).shc.queue = some [⟨kind, 1, .auto⟩] := by
      have hempty : (countersZero s).shc.queue = [] := hqueue
      rw [hempty]
      rfl
    refine ⟨_, exec_auto hruns hc, ?_, (touches_countersZero s).trans (touches_shiftRequest _ _ _)⟩
    rw [shiftRequest_of_placed hplaced hoffer]
    rfl

end Sys2Proof.Proofs
end

