-- ==== Sys2Proof/Proofs/ShcRecords.lean ====
section
/-! SUPPORT. What each operation of the shift controller leaves of the SHC's record: the ends of the phases of a shift,
the abort, the ends of ramps and of DRAIN, and the ways into neutral (R73 to R80, R84, R86, R89). -/

namespace Sys2Proof.Proofs

open Sys2Proof Sys2Proof.Machine

/-! ## Changes of state, phase and torque request (R67, R74, R76) -/

section
variable (s : State)

theorem enterGearbox_shc (st : GearState) : (enterGearbox st s).shc = { s.shc with state := st } :=
  touches_publish .gearbox (s.withShc { s.shc with state := st }) .shc (by decide)

theorem touches_enterGearbox (st : GearState) : Touches [.shc, .lc] s (enterGearbox st s) :=
  also ((touches_withShc s _).mono (by decide)) (touches_publish _ _)

theorem withdrawTorque_shc : (withdrawTorque s).shc = { s.shc with torque := none } := by
  unfold withdrawTorque
  cases h : s.shc.torque with
  | some limit =>
    have hpublish := touches_publish .torqueLimit (s.withShc { s.shc with torque := none }) .shc (by decide)
    exact (congrArg State.shc (if_pos rfl)).trans hpublish
  | none =>
    rw [if_neg (by simp), ← h]

theorem askTorque_shc : (askTorque s).shc = { s.shc with torque := some s.cfg.torqueLimit } :=
  touches_publish .torqueLimit (s.withShc { s.shc with torque := some s.cfg.torqueLimit }) .shc (by decide)

theorem dropOperation_shc : (dropOperation s).shc =
    { s.shc with phase := none, kind := none, target := none, shiftOrigin := none, interval := 0 } := rfl

theorem tryShuttle_of_idle {s : State} (h : s.shc.pendingShuttle = false) : tryShuttle s = s :=
  if_neg (h ▸ Bool.false_ne_true)

/-- Without a pending shuttle an operation ends in gear and no more. -/
theorem arriveInGear_shc {s : State} (h : s.shc.pendingShuttle = false) : (arriveInGear s).shc = { s.shc with
    state := .inGear, phase := none, kind := none, target := none, shiftOrigin := none, interval := 0 } := by
  have hentered := enterGearbox_shc (dropOperation s) .inGear
  rw [dropOperation_shc] at hentered
  have hidle : (enterGearbox .inGear (dropOperation s)).shc.pendingShuttle = false := by
    rw [hentered]
    exact h
  rw [arriveInGear, tryShuttle_of_idle hidle, hentered]

end

/-! ## Commands after a single change (R66) -/

/-! ## The records of the operations -/

section
variable (s : State)

/-- The off-going clutches drained to 0. -/
def offDrained : ClutchTable ClutchRec := mapOn (offGoing s) (fun _ c => c.drainTo 0) s.shc.clutches

/-- The on-coming clutches drained to 0. -/
def onDrained : ClutchTable ClutchRec := mapOn (onComing s) (fun _ c => c.drainTo 0) s.shc.clutches

/-- A table with the on-coming clutches LOCKED at hold. -/
def onLocked (k : ClutchTable ClutchRec) : ClutchTable ClutchRec :=
  mapOn (onComing s) (fun x c => c.lock (s.cfg.clutches.get x).hold) k

/-- A table with the off-going clutches LOCKED at hold. -/
def offLocked (k : ClutchTable ClutchRec) : ClutchTable ClutchRec :=
  mapOn (offGoing s) (fun x c => c.lock (s.cfg.clutches.get x).hold) k

/-! ### TORQUE and INERTIA (R74, R75, R77) -/

theorem offDrained_eq : overClutches drainClutch (offGoing s) s = clutchesSet s (offDrained s) :=
  drainAll_eq (offGoing_nodup s)

theorem endTorque_of_up {s : State} (h : s.shc.kind = some .up) : endTorque s = s.withShc { s.shc with
    clutches := offDrained s, phase := some .inertia, interval := 0, sync := 0 } := by
  unfold endTorque
  rw [offDrained_eq]
  exact if_pos h

theorem endTorque_of_down {s : State} (h : s.shc.kind ≠ some .up) : endTorque s = s.withShc { s.shc with
    clutches := onLocked s (offDrained s), phase := some .lockup, interval := 0 } := by
  have hlock : overClutches lockClutch (onComing s) (clutchesSet s (offDrained s)) =
      clutchesSet s (onLocked s (offDrained s)) := lockAll_eq (s := clutchesSet s (offDrained s)) (onComing_nodup s)
  unfold endTorque
  rw [offDrained_eq]
  exact (if_neg h).trans (congrArg (State.withPhase · (some .lockup)) hlock)

/-- A clutch's learned fill time as its mark corrects it (R81). -/
def corrected (c : ClutchCfg) (r : ClutchRec) : ClutchRec :=
  match r.mark with
  | some .flare => { r with learned := clampNat c.minFill c.maxFill (r.learned + 8) }
  | some .tieUp => { r with learned := clampNat c.minFill c.maxFill (r.learned - 8) }
  | none => r

theorem applyMark_eq (x : Clutch) : applyMark s x = s.withClutch x (corrected (s.clutchCfg x) (s.clutch x)) := by
  unfold applyMark corrected
  dsimp only
  cases (s.clutch x).mark with
  | none => exact (withClutch_same s x).symm
  | some m => cases m <;> rfl

/-- The table at the start of LOCKUP of an upshift. -/
def lockupTable : ClutchTable ClutchRec :=
  mapOn (onComing s) (fun x c => corrected (s.cfg.clutches.get x) c) (onLocked s s.shc.clutches)

theorem beginLockupUp_eq : beginLockupUp s = withdrawTorque (s.withShc { s.shc with
    clutches := lockupTable s, phase := some .lockup, interval := 0 }) := by
  have hlock : overClutches lockClutch (onComing s) (s.withPhase (some .lockup)) =
      clutchesSet (s.withPhase (some .lockup)) (onLocked s s.shc.clutches) :=
    lockAll_eq (s := s.withPhase (some .lockup)) (onComing_nodup s)
  have happly : overClutches applyMark (onComing s)
      (clutchesSet (s.withPhase (some .lockup)) (onLocked s s.shc.clutches)) =
      clutchesSet (s.withPhase (some .lockup)) (lockupTable s) :=
    overClutches_eq (s := clutchesSet (s.withPhase (some .lockup)) (onLocked s s.shc.clutches))
      (fun _ _ => applyMark_eq _ _) (onComing_nodup s)
  unfold beginLockupUp
  dsimp only
  rw [hlock, happly]
  rfl

theorem beginTorqueDown_eq : beginTorqueDown s = s.withShc { s.shc with
    clutches := mapOn (offGoing s) (fun x c => c.drainTo (s.cfg.clutches.get x).touch) s.shc.clutches
    phase := some .torque, interval := 0, torqueFixed := 8, torqueLen := 8 } := by
  have hdrain := torqueOff_eq (s := s) ClutchCfg.touch (offGoing_nodup s)
  unfold beginTorqueDown
  exact congrArg (fun t : State => t.withShc { t.shc with
    phase := some .torque, interval := 0, torqueFixed := 8, torqueLen := 8 }) hdrain

/-! ### FILL (R73, R74, R77) -/

/-- The off-going clutches about to fall from their hold current. -/
def offHeld : ClutchTable ClutchRec :=
  mapOn (offGoing s) (fun x c => c.drainTo (s.cfg.clutches.get x).hold) s.shc.clutches

/-- The engine station can be asked for a torque limit (R74). -/
def asksTorque : Bool := s.lc.engine.isFresh && s.lc.link == .active

/-- The state at the start of TORQUE of an upshift, before a limit is asked for. -/
def torqueUpBegun (n : Nat) : State := s.withShc { s.shc with
  clutches := offHeld s, phase := some .torque, interval := 0, torqueFixed := n, torqueLen := n, echoSeen := false }

theorem beginTorqueUp_eq : beginTorqueUp s =
    if asksTorque s = true then askTorque (torqueUpBegun s 12) else torqueUpBegun s 18 := by
  have hdrain : overClutches (fun s x => s.withClutch x ((s.clutch x).drainTo (s.clutchCfg x).hold)) (offGoing s) s =
      clutchesSet s (offHeld s) := torqueOff_eq ClutchCfg.hold (offGoing_nodup s)
  unfold beginTorqueUp
  rw [hdrain]
  change (if asksTorque s = true then askTorque (torqueUpBegun s (if asksTorque s = true then 12 else 18))
    else torqueUpBegun s (if asksTorque s = true then 12 else 18)) = _
  by_cases h : asksTorque s = true
  · simp only [h, if_true]
  · simp only [h]
    rfl

theorem beginInertiaDown_eq : beginInertiaDown s = s.withShc { s.shc with
    clutches := mapOn (offGoing s) (fun x c => c.ramp (s.cfg.clutches.get x).touch) s.shc.clutches
    phase := some .inertia, interval := 0, sync := 0 } := by
  have hramp := torqueOn_eq (s := s) ClutchCfg.touch (offGoing_nodup s)
  unfold beginInertiaDown
  exact congrArg (fun t : State => t.withShc { t.shc with phase := some .inertia, interval := 0, sync := 0 }) hramp

/-! ### ABORT (R79, R80) -/

/-- The table at the start of ABORT. -/
def abortTable : ClutchTable ClutchRec :=
  mapOn (offGoing s) (fun _ c => { c.ramp c.value with entryValue := c.value }) (onDrained s)

theorem beginAbort_eq : beginAbort s = withdrawTorque (s.withShc { s.shc with
    clutches := abortTable s, phase := some .abort, interval := 0 }) := by
  have hdrain : overClutches drainClutch (onComing s) s = clutchesSet s (onDrained s) := drainAll_eq (onComing_nodup s)
  have habort : overClutches abortClutch (offGoing s) (clutchesSet s (onDrained s)) = clutchesSet s (abortTable s) :=
    overClutches_eq (s := clutchesSet s (onDrained s)) (fun _ _ => rfl) (offGoing_nodup s)
  unfold beginAbort
  rw [hdrain]
  exact congrArg (fun t : State => withdrawTorque (t.withPhase (some .abort))) habort

theorem endAbort_eq : endAbort s = arriveInGear (clutchesSet s (offLocked s s.shc.clutches)) :=
  congrArg arriveInGear (lockAll_eq (offGoing_nodup s))

/-! ### Ramps and DRAIN (R84, R86) -/

/-- The target's direction clutch LOCKED at hold. -/
def directionLocked : ClutchTable ClutchRec :=
  mapOn (dirClutchOf s.shc.target) (fun x c => c.lock (s.cfg.clutches.get x).hold) s.shc.clutches

theorem endDirectionRamp_eq : endDirectionRamp s = arriveInGear (clutchesSet s (directionLocked s)) :=
  congrArg arriveInGear (lockAll_eq (dirClutchOf_nodup _))

theorem endDrain_eq : endDrain s = s.withShc { s.shc with
    clutches := onLocked s s.shc.clutches, current := s.shc.target, phase := some .reverseBrake, interval := 0 } := by
  have hlock := lockAll_eq (s := s) (onComing_nodup s)
  unfold endDrain
  exact congrArg (fun t : State => t.withShc { t.shc with
    current := t.shc.target, phase := some .reverseBrake, interval := 0 }) hlock

/-! ### The ways into neutral (R87, R89) -/

/-- Every way into neutral drains both direction clutches. -/
def directionDrained : ClutchTable ClutchRec := mapOn directionClutches (fun _ c => c.drainTo 0) s.shc.clutches

theorem dropToNeutral_shc : (dropToNeutral s).shc = { s.shc with
    state := .neutral, phase := none, kind := none, target := none, shiftOrigin := none, interval := 0
    queue := [], pendingShuttle := false, torque := none, clutches := directionDrained s } := by
  have hdrain : overClutches drainClutch directionClutches s = clutchesSet s (directionDrained s) :=
    drainAll_eq (by decide)
  have htorque := withdrawTorque_shc (clutchesSet s (directionDrained s))
  unfold dropToNeutral
  rw [hdrain, enterGearbox_shc, dropOperation_shc]
  simp only [State.withShc_shc]
  rw [htorque, shc_clutchesSet]

/-- The swap taken back: on-coming clutches drained, off-going ones LOCKED. -/
def swapBack : ClutchTable ClutchRec := offLocked s (onDrained s)

/-- The swap completed: on-coming clutches LOCKED, off-going ones drained. -/
def swapDone : ClutchTable ClutchRec := mapOn (offGoing s) (fun _ c => c.drainTo 0) (onLocked s s.shc.clutches)

theorem swapBack_eq : overClutches lockClutch (offGoing s) (overClutches drainClutch (onComing s) s) =
    clutchesSet s (swapBack s) := by
  rw [drainAll_eq (onComing_nodup s)]
  exact lockAll_eq (s := clutchesSet s (onDrained s)) (offGoing_nodup s)

theorem swapDone_eq : overClutches drainClutch (offGoing s) (overClutches lockClutch (onComing s) s) =
    clutchesSet s (swapDone s) := by
  rw [lockAll_eq (onComing_nodup s)]
  exact drainAll_eq (s := clutchesSet s (onLocked s s.shc.clutches)) (offGoing_nodup s)

end

end Sys2Proof.Proofs
end

