-- ==== Sys2Proof/Proofs/ShiftPhaseEnds.lean ====
section
/-! PROOF. O28: the ends of TORQUE, INERTIA and ABORT where they are due (R74 to R81). -/

namespace Sys2Proof.Proofs

open Sys2Proof Sys2Proof.Machine

/-! ## A single change and its commands -/

/-- The commands of `u` written: the record but for the commands of the clutches stands. -/
structure Settled (u t : State) : Prop where
  shc : t.shc = { u.shc with clutches := t.shc.clutches }
  clutch : ∀ x : Clutch, t.clutch x = { u.clutch x with command := commandFor u.cfg u.shc x }
  touches : Touches [.vdb, .shc] u t

theorem settled_writeClutches (u : State) : Settled u (writeClutches u) :=
  ⟨writeClutches_shc u, writeClutches_clutch u, touches_writeClutches u⟩

/-- A speed or range clutch carries its value. -/
theorem Settled.gear {u t : State} (h : Settled u t) {x : Clutch} (hx : x ≠ .fwd ∧ x ≠ .rev) :
    t.clutch x = { u.clutch x with command := (u.clutch x).value } := by
  rw [h.clutch, commandFor_of_gear hx]
  rfl

/-- The commands leave each clutch its state and its value. -/
theorem Settled.kept {u t : State} (h : Settled u t) (x : Clutch) :
    (t.clutch x).state = (u.clutch x).state ∧ (t.clutch x).value = (u.clutch x).value := by
  rw [h.clutch]
  exact ⟨rfl, rfl⟩

section
variable {b : Bool} {f s : State}

theorem exec_of_due {c : Instr} (hc : exec c s = .next (if shcDue b s then writeClutches f else s))
    (hruns : s.mc.mode.controllersRun = true) (hb : b = true) : ∃ t, exec c s = .next t ∧ Settled f t := by
  rw [shcDue_of_runs hruns, hb, if_pos rfl] at hc
  exact ⟨_, hc, settled_writeClutches f⟩

end

/-! ## The ends of the phases -/

section
variable {s t : State} {x : Clutch}

theorem offDrained_get (hx : x ∈ offGoing s) : (offDrained s).get x = (s.clutch x).drainTo 0 :=
  (mapOn_get x).trans (if_pos hx)

theorem offDrained_get_onComing (hx : x ∈ onComing s) : (offDrained s).get x = s.clutch x :=
  (mapOn_get x).trans (if_neg (offGoing_of_onComing hx))

theorem onLocked_get (hx : x ∈ onComing s) (k : ClutchTable ClutchRec) :
    (onLocked s k).get x = (k.get x).lock (s.cfg.clutches.get x).hold := (mapOn_get x).trans (if_pos hx)

theorem onLocked_get_of_not (hx : x ∉ onComing s) (k : ClutchTable ClutchRec) : (onLocked s k).get x = k.get x :=
  (mapOn_get x).trans (if_neg hx)

theorem offLocked_get (hx : x ∈ offGoing s) (k : ClutchTable ClutchRec) :
    (offLocked s k).get x = (k.get x).lock (s.cfg.clutches.get x).hold := (mapOn_get x).trans (if_pos hx)

theorem offLocked_get_of_not (hx : x ∉ offGoing s) (k : ClutchTable ClutchRec) : (offLocked s k).get x = k.get x :=
  (mapOn_get x).trans (if_neg hx)

theorem onComing_gear (hx : x ∈ onComing s) : x ≠ .fwd ∧ x ≠ .rev := swapped_gear hx
theorem offGoing_gear (hx : x ∈ offGoing s) : x ≠ .fwd ∧ x ≠ .rev := swapped_gear hx

/-- A clutch drained to 0, with its command. -/
theorem Settled.drained {u : State} (h : Settled u t) (hx : x ≠ .fwd ∧ x ≠ .rev) {r : ClutchRec}
    (hr : u.shc.clutches.get x = r.drainTo 0) : (t.clutch x).state = .draining ∧ (t.clutch x).command = 0 := by
  have hclutch : u.clutch x = r.drainTo 0 := hr
  rw [h.gear hx, hclutch]
  exact ⟨rfl, rfl⟩

/-- A clutch LOCKED at hold, with its command. -/
theorem Settled.locked {u : State} {hold : Nat} (h : Settled u t) (hx : x ≠ .fwd ∧ x ≠ .rev) {r : ClutchRec}
    (hr : u.shc.clutches.get x = r.lock hold) : (t.clutch x).state = .locked ∧ (t.clutch x).command = hold := by
  have hclutch : u.clutch x = r.lock hold := hr
  rw [h.gear hx, hclutch]
  exact ⟨rfl, rfl⟩

/-- The end of TORQUE (R74, R77). -/
theorem settled_endTorque (h : Settled (endTorque s) t) :
    (∀ x ∈ offGoing s, (t.clutch x).state = .draining ∧ (t.clutch x).command = 0) ∧
    (s.shc.kind = some .up → t.shc.phase = some .inertia ∧ t.shc.sync = 0 ∧
      ∀ x ∈ onComing s, (t.clutch x).state = (s.clutch x).state) ∧
    (s.shc.kind = some .down → t.shc.phase = some .lockup ∧
      ∀ x ∈ onComing s, (t.clutch x).state = .locked ∧ (t.clutch x).command = (s.cfg.clutches.get x).hold) ∧
    t.shc.state = s.shc.state ∧ t.shc.queue = s.shc.queue ∧ Touches [.vdb, .shc] s t := by
  have hshc := h.shc
  by_cases hkind : s.shc.kind = some .up
  · rw [endTorque_of_up hkind] at h hshc
    refine ⟨fun x hx => h.drained (offGoing_gear hx) (offDrained_get hx), fun _ => ?_, fun hdown => ?_, by rw [hshc]; rfl,
      by rw [hshc]; rfl, ((touches_withShc s _).mono (by decide)).trans h.touches⟩
    · refine ⟨by rw [hshc]; rfl, by rw [hshc]; rfl, fun x hx => ?_⟩
      exact (h.kept x).1.trans (congrArg ClutchRec.state (offDrained_get_onComing hx))
    · rw [hkind] at hdown
      cases hdown
  · rw [endTorque_of_down hkind] at h hshc
    refine ⟨fun x hx => h.drained (offGoing_gear hx)
      ((onLocked_get_of_not (onComing_of_offGoing hx) _).trans (offDrained_get hx)), fun hup => absurd hup hkind,
      fun _ => ⟨by rw [hshc]; rfl, fun x hx => h.locked (onComing_gear hx) (onLocked_get hx _)⟩, by rw [hshc]; rfl,
      by rw [hshc]; rfl, ((touches_withShc s _).mono (by decide)).trans h.touches⟩

/-- The record at LOCKUP of an upshift. -/
theorem beginLockupUp_shc (s : State) : (beginLockupUp s).shc =
    { s.shc with clutches := lockupTable s, phase := some .lockup, interval := 0, torque := none } := by
  rw [beginLockupUp_eq, withdrawTorque_shc]
  rfl

theorem lockupTable_get (hx : x ∈ onComing s) : (lockupTable s).get x =
    corrected (s.cfg.clutches.get x) ((s.clutch x).lock (s.cfg.clutches.get x).hold) := by
  rw [lockupTable, mapOn_get, if_pos hx, onLocked_get hx]
  rfl

/-- What a correction leaves of a clutch, and the learned fill time it gives. -/
theorem corrected_spec (c : ClutchCfg) (r : ClutchRec) : (corrected c r).state = r.state ∧
    (corrected c r).value = r.value ∧ (corrected c r).learned = match r.mark with
      | some .flare => max c.minFill (min c.maxFill (r.learned + 8))
      | some .tieUp => max c.minFill (min c.maxFill (r.learned - 8))
      | none => r.learned := by
  unfold corrected
  cases r.mark with
  | none => exact ⟨rfl, rfl, rfl⟩
  | some m => cases m <;> exact ⟨rfl, rfl, rfl⟩

theorem touches_syncPoint (s : State) : Touches [.shc, .lc] s (syncPoint s) :=
  (Moves.refl (by decide) (by decide) s).syncPoint.touches

/-- Sync of an upshift (R76, R81). -/
theorem settled_lockup (h : Settled (beginLockupUp s) t) : t.shc.state = s.shc.state ∧ t.shc.current = s.shc.current ∧
    t.shc.phase = some .lockup ∧ t.shc.torque = none ∧
    ∀ x ∈ onComing s, (t.clutch x).state = .locked ∧ (t.clutch x).command = (s.cfg.clutches.get x).hold ∧
      (t.clutch x).learned = (match (s.clutch x).mark with
        | some .flare => max (s.cfg.clutches.get x).minFill
            (min (s.cfg.clutches.get x).maxFill ((s.clutch x).learned + 8))
        | some .tieUp => max (s.cfg.clutches.get x).minFill
            (min (s.cfg.clutches.get x).maxFill ((s.clutch x).learned - 8))
        | none => (s.clutch x).learned) := by
  have hshc := h.shc
  rw [beginLockupUp_shc] at hshc
  refine ⟨by rw [hshc], by rw [hshc], by rw [hshc], by rw [hshc], fun x hx => ?_⟩
  have hclutch : (beginLockupUp s).clutch x =
      corrected (s.cfg.clutches.get x) ((s.clutch x).lock (s.cfg.clutches.get x).hold) := by
    rw [State.clutch, beginLockupUp_shc]
    exact lockupTable_get hx
  obtain ⟨hstate, hvalue, hlearned⟩ :=
    corrected_spec (s.cfg.clutches.get x) ((s.clutch x).lock (s.cfg.clutches.get x).hold)
  rw [h.gear (onComing_gear hx), hclutch]
  exact ⟨hstate, hvalue, hlearned⟩

/-- Sync of a downshift (R77). -/
theorem settled_torqueDown (h : Settled (beginTorqueDown s) t) : t.shc.state = s.shc.state ∧
    t.shc.current = s.shc.current ∧ t.shc.phase = some .torque ∧ t.shc.torqueLen = 8 ∧ t.shc.interval = 0 ∧
    (∀ x ∈ offGoing s, (t.clutch x).command = (s.cfg.clutches.get x).touch) ∧
    ∀ x ∈ offGoing s, (t.clutch x).state = .draining := by
  have hshc := h.shc
  rw [beginTorqueDown_eq] at h hshc
  have hclutch (x : Clutch) (hx : x ∈ offGoing s) := h.gear (offGoing_gear hx)
  have hget (x : Clutch) (hx : x ∈ offGoing s) :
      (mapOn (offGoing s) (fun x c => c.drainTo (s.cfg.clutches.get x).touch) s.shc.clutches).get x =
        (s.clutch x).drainTo (s.cfg.clutches.get x).touch := (mapOn_get x).trans (if_pos hx)
  refine ⟨by rw [hshc]; rfl, by rw [hshc]; rfl, by rw [hshc]; rfl, by rw [hshc]; rfl, by rw [hshc]; rfl,
    fun x hx => ?_, fun x hx => ?_⟩
  · rw [hclutch x hx]
    exact congrArg ClutchRec.value (hget x hx)
  · rw [hclutch x hx]
    exact congrArg ClutchRec.state (hget x hx)

/-- The record at the start of ABORT. -/
theorem beginAbort_shc (s : State) : (beginAbort s).shc =
    { s.shc with clutches := abortTable s, phase := some .abort, interval := 0, torque := none } := by
  rw [beginAbort_eq, withdrawTorque_shc]
  rfl

theorem abortTable_get_onComing (hx : x ∈ onComing s) : (abortTable s).get x = (s.clutch x).drainTo 0 := by
  rw [abortTable, mapOn_get, if_neg (offGoing_of_onComing hx), onDrained, mapOn_get, if_pos hx]
  rfl

theorem abortTable_get_offGoing (hx : x ∈ offGoing s) : (abortTable s).get x =
    { (s.clutch x).ramp (s.clutch x).value with entryValue := (s.clutch x).value } := by
  rw [abortTable, mapOn_get, if_pos hx, onDrained, mapOn_get, if_neg (onComing_of_offGoing hx)]
  rfl

/-- The start of ABORT (R80). -/
theorem settled_beginAbort (h : Settled (beginAbort s) t) : t.shc.state = s.shc.state ∧ t.shc.phase = some .abort ∧
    t.shc.queue = s.shc.queue ∧ t.shc.torque = none ∧
    (∀ x ∈ onComing s, (t.clutch x).state = .draining ∧ (t.clutch x).command = 0) ∧
    ∀ x ∈ offGoing s, (t.clutch x).state = .ramping ∧ (t.clutch x).entryValue = (s.clutch x).value := by
  have hshc := h.shc
  have habort := beginAbort_shc s
  rw [habort] at hshc
  have htable : (beginAbort s).shc.clutches = abortTable s := by rw [habort]
  refine ⟨by rw [hshc], by rw [hshc], by rw [hshc], by rw [hshc], fun x hx => ?_, fun x hx => ?_⟩
  · exact h.drained (onComing_gear hx) (by rw [htable]; exact abortTable_get_onComing hx)
  · have hclutch : (beginAbort s).clutch x =
        { (s.clutch x).ramp (s.clutch x).value with entryValue := (s.clutch x).value } := by
      rw [State.clutch, htable]
      exact abortTable_get_offGoing hx
    rw [h.gear (offGoing_gear hx), hclutch]
    exact ⟨rfl, rfl⟩

theorem touches_beginAbort (s : State) : Touches [.shc, .lc] s (beginAbort s) :=
  (Moves.refl (by decide) (by decide) s).beginAbort.touches

/-- The state in which a timed-out shift begins its ABORT. -/
def shiftFlushed (s : State) : State := flushQueue (clearFault .shiftTimeout (raiseLatched .shiftTimeout s))

theorem timeOutShift_eq (s : State) : timeOutShift s = beginAbort (shiftFlushed s) := rfl

theorem touches_shiftFlushed (s : State) : Touches [.shc, .mc] s (shiftFlushed s) :=
  also (also ((touches_raiseLatched .shiftTimeout s).mono (by decide)) (touches_clearFault _ _)) (touches_withShc _ _)

theorem touches_timeOutShift (s : State) : Touches [.shc, .lc, .mc] s (timeOutShift s) :=
  also ((touches_shiftFlushed s).mono (by decide)) (touches_beginAbort _)

theorem timeOutShift_mc (s : State) :
    (timeOutShift s).mc = (clearFault .shiftTimeout (raiseLatched .shiftTimeout s)).mc :=
  touches_beginAbort (shiftFlushed s) .mc (by decide)

end

/-- Settles O28. -/
theorem shiftPhaseEnds : Obligations.ShiftPhaseEnds := by
  intro s hruns hshifting
  refine ⟨fun hphase hover => ?torque, fun hphase hsync => ?sync, fun hphase hsync hover => ?timeout,
    fun hphase hover hidle => ?abort⟩
  case torque =>
    have hdue : torqueOver s = true := by simp [torqueOver, hshifting, hphase, hover]
    obtain ⟨t, hexec, ht⟩ := exec_of_due (c := .torquePhaseEnd) rfl hruns hdue
    have hend := settled_endTorque ht
    rw [hshifting] at hend
    exact ⟨t, hexec, hend⟩
  case sync =>
    have hdue : syncDue s = true := by simp [syncDue, hshifting, hphase, syncLimit, hsync]
    obtain ⟨t, hexec, ht⟩ := exec_of_due (c := .syncReached) rfl hruns hdue
    have htouches : Touches [.vdb, .shc, .lc] s t :=
      ((touches_syncPoint s).mono (by decide)).trans (ht.touches.mono (by decide))
    by_cases hkind : s.shc.kind = some .up
    · have hup : syncPoint s = beginLockupUp s := if_pos hkind
      rw [hup] at ht
      obtain ⟨hstate, hcurrent, hrest⟩ := settled_lockup ht
      exact ⟨t, hexec, hstate.trans hshifting, hcurrent, fun _ => hrest, fun hdown => by simp [hkind] at hdown, htouches⟩
    · have hdown : syncPoint s = beginTorqueDown s := if_neg hkind
      rw [hdown] at ht
      obtain ⟨hstate, hcurrent, hphase', hlen, hinterval, hcommand, hdraining⟩ := settled_torqueDown ht
      exact ⟨t, hexec, hstate.trans hshifting, hcurrent, fun hup => absurd hup hkind,
        fun _ => ⟨hphase', hlen, hinterval, fun x hx => ⟨hdraining x hx, hcommand x hx⟩⟩, htouches⟩
  case timeout =>
    have hdue : timeoutDue s = true := by
      simp [timeoutDue, hshifting, hphase, syncLimit, hsync, inertiaLimit, hover]
    obtain ⟨t, hexec, ht⟩ := exec_of_due (c := .shiftTimeout) rfl hruns hdue
    have hmc : t.mc = (timeOutShift s).mc := ht.touches .mc (by decide)
    obtain ⟨hstate, hphase', hqueue, htorque, hon, hoff⟩ := settled_beginAbort (s := shiftFlushed s) ht
    exact ⟨t, hexec, hstate.trans hshifting, hphase', hqueue, htorque, hon, hoff, hmc.trans (timeOutShift_mc s),
      ((touches_timeOutShift s).mono (by decide)).trans (ht.touches.mono (by decide))⟩
  case abort =>
    have hdue : abortOver s = true := by simp [abortOver, hshifting, hphase, abortLimit, hover]
    obtain ⟨t, hexec, ht⟩ := exec_of_due (c := .abortComplete) rfl hruns hdue
    have htouches : Touches [.vdb, .shc, .lc] s t := by
      have hend : Touches [.shc, .lc] s (endAbort s) := (Moves.refl (by decide) (by decide) s).endAbort.touches
      exact (hend.mono (by decide)).trans (ht.touches.mono (by decide))
    have hend : (endAbort s).shc = { s.shc with
        clutches := offLocked s s.shc.clutches, state := .inGear, phase := none, kind := none, target := none
        shiftOrigin := none, interval := 0 } := by
      rw [endAbort_eq]
      exact arriveInGear_shc (s := clutchesSet s (offLocked s s.shc.clutches)) hidle
    have hshc := ht.shc
    have htable : (endAbort s).shc.clutches = offLocked s s.shc.clutches := by rw [hend]
    rw [hend] at hshc
    exact ⟨t, hexec, by rw [hshc], by rw [hshc], by rw [hshc], by rw [hshc], by rw [hshc], by rw [hshc],
      fun x hx => ht.locked (offGoing_gear hx) (by rw [htable]; exact offLocked_get hx _), htouches⟩

end Sys2Proof.Proofs
end

