-- ==== Sys2Proof/Proofs/ShcEvents.lean ====
section
/-! PROOF. O32: the charge and the oil events of the shift controller (R93, R98). -/

namespace Sys2Proof.Proofs

open Sys2Proof Sys2Proof.Machine

section
variable {ev : SfeEvent} {rest : List Delivery} {s : State}

theorem exec_shcOilEvent (hruns : s.mc.mode.controllersRun = true) (h : OldestEvent .shc .oil ev rest s) :
    exec .shcOilEvent s = .next (takeOil ev (s.withEvents rest)) := by
  change execShcOilEvent s = _
  simp only [execShcOilEvent, takeEvent_oldest h, State.withEvents_mc, hruns, if_true]

theorem exec_shcChgEvent (hruns : s.mc.mode.controllersRun = true) (h : OldestEvent .shc .chg ev rest s) :
    exec .shcChgEvent s = .next (takeShcCharge ev (s.withEvents rest)) := by
  change execShcChgEvent s = _
  simp only [execShcChgEvent, takeEvent_oldest h, State.withEvents_mc, hruns, if_true]

end

/-! ## Charge lost (R93) -/

section
variable {s t : State}

/-- A shift that a loss of charge aborts. -/
theorem loseCharge_of_shift (hstate : s.shc.state = .shifting)
    (h : s.shc.phase = some .fill ∨ s.shc.phase = some .inertia ∨ (s.shc.phase = some .torque ∧ s.shc.kind = some .up)) :
    loseCharge s = beginAbort (flushQueue s) := by
  have hs : (flushQueue s).shc.state = .shifting := hstate
  unfold loseCharge
  dsimp only
  rcases h with h | h | ⟨h, hkind⟩
  · have hp : (flushQueue s).shc.phase = some .fill := h
    rw [hs, hp]
  · have hp : (flushQueue s).shc.phase = some .inertia := h
    rw [hs, hp]
  · have hp : (flushQueue s).shc.phase = some .torque := h
    rw [hs, hp]
    exact if_pos hkind

/-- A shift that runs on without charge. -/
theorem loseCharge_of_late_shift (hstate : s.shc.state = .shifting)
    (h : s.shc.phase = some .lockup ∨ (s.shc.phase = some .torque ∧ s.shc.kind = some .down)) :
    loseCharge s = flushQueue s := by
  have hs : (flushQueue s).shc.state = .shifting := hstate
  unfold loseCharge
  dsimp only
  rcases h with h | ⟨h, hkind⟩
  · have hp : (flushQueue s).shc.phase = some .lockup := h
    rw [hs, hp]
  · have hp : (flushQueue s).shc.phase = some .torque := h
    rw [hs, hp]
    exact if_neg fun k : s.shc.kind = some .up => by simp [hkind] at k

theorem loseCharge_of_rest (h : s.shc.state = .inGear ∨ s.shc.state = .neutral ∨ s.shc.state = .parked) :
    loseCharge s = flushQueue s := by
  unfold loseCharge
  dsimp only
  rcases h with h | h | h
  all_goals
    have hs : (flushQueue s).shc.state = _ := h
    rw [hs]

theorem loseCharge_of_shuttle (h : s.shc.state = .shuttling) : loseCharge s = abandonShuttle (flushQueue s) := by
  have hs : (flushQueue s).shc.state = .shuttling := h
  unfold loseCharge
  dsimp only
  rw [hs]

theorem loseCharge_of_engagement (h : s.shc.state = .engaging) :
    loseCharge s = dropToNeutral (reselect (leaveEngaging (flushQueue s))) := by
  have hs : (flushQueue s).shc.state = .engaging := h
  have hneutral : neutralize (flushQueue s) = dropToNeutral (reselect (leaveEngaging (flushQueue s))) := by
    unfold neutralize
    rw [hs]
  rw [← hneutral]
  unfold loseCharge
  dsimp only
  rw [hs]

theorem Moves.loseCharge {l : List Part} {u : State} (h : Moves l s u) : Moves l s (loseCharge u) := by
  unfold Machine.loseCharge
  dsimp only
  split
  · exact h.flushQueue.beginAbort
  · exact h.flushQueue.beginAbort
  · exact .ite h.flushQueue.beginAbort h.flushQueue
  · have hignored {w : State} (k : Moves l s w) : Moves l s (w.withShc { w.shc with ignored := some w.shc.lever }) :=
      k.writeShc _ (by rfl) (.inr rfl) id
    exact (hignored h.flushQueue.abandonSwap).dropToNeutral
  · exact h.flushQueue.neutralize
  · exact h.flushQueue

/-- Both direction clutches drain, and the operation is removed (R89). -/
theorem settled_dropToNeutral {u : State} (h : Settled (dropToNeutral u) t) : t.shc.state = .neutral ∧
    t.shc.phase = none ∧ t.shc.target = none ∧ t.shc.ignored = u.shc.ignored ∧ t.shc.queue = [] ∧
    ∀ x : Clutch, x = .fwd ∨ x = .rev → (t.clutch x).state = .draining ∧ (t.clutch x).command = 0 := by
  have hshc := h.shc
  have hdropped := dropToNeutral_shc u
  rw [hdropped] at hshc
  refine ⟨by rw [hshc], by rw [hshc], by rw [hshc], by rw [hshc], by rw [hshc], fun x hx => ?_⟩
  have hrecord : (dropToNeutral u).shc.clutches.get x = (u.clutch x).drainTo 0 := by
    rw [hdropped]
    exact (mapOn_get x).trans (if_pos (by rcases hx with rfl | rfl <;> decide))
  have hclutch : (dropToNeutral u).clutch x = (u.clutch x).drainTo 0 := hrecord
  rw [h.clutch, commandFor_of_other (by rw [hrecord]; nofun) (by rw [hrecord]; nofun), hrecord, hclutch]
  exact ⟨rfl, rfl⟩

theorem abandonSwap_ignored (s : State) : (abandonSwap s).shc.lever = s.shc.lever :=
  ((Moves.refl (by decide : Part.shc ∈ [Part.shc, .lc]) (by decide) s).abandonSwap).lever

/-- What a loss of charge leaves of each operation. -/
theorem settled_loseCharge (h : Settled (loseCharge s) t) : t.shc.queue = [] ∧
    (s.shc.state = .shifting →
      s.shc.phase = some .fill ∨ s.shc.phase = some .inertia ∨ (s.shc.phase = some .torque ∧ s.shc.kind = some .up) →
      t.shc.state = .shifting ∧ t.shc.phase = some .abort ∧ t.shc.torque = none ∧
      (∀ x ∈ onComing s, (t.clutch x).state = .draining ∧ (t.clutch x).command = 0) ∧
      (∀ x ∈ offGoing s, (t.clutch x).state = .ramping)) ∧
    (s.shc.state = .shifting →
      s.shc.phase = some .lockup ∨ (s.shc.phase = some .torque ∧ s.shc.kind = some .down) →
      t.shc.state = .shifting ∧ t.shc.phase = s.shc.phase) ∧
    (s.shc.state = .shuttling → t.shc.state = .neutral ∧ t.shc.phase = none ∧
      t.shc.target = none ∧ t.shc.ignored = some s.shc.lever ∧
      ∀ x : Clutch, x = .fwd ∨ x = .rev → (t.clutch x).state = .draining ∧ (t.clutch x).command = 0) ∧
    (s.shc.state = .engaging → t.shc.state = .neutral ∧ t.shc.phase = none ∧
      ∀ x : Clutch, x = .fwd ∨ x = .rev → (t.clutch x).state = .draining ∧ (t.clutch x).command = 0) ∧
    (s.shc.state = .inGear ∨ s.shc.state = .neutral ∨ s.shc.state = .parked →
      t.shc.state = s.shc.state ∧ t.shc.current = s.shc.current) := by
  have hshc := h.shc
  refine ⟨?_, fun hstate hphase => ?_, fun hstate hphase => ?_, fun hstate => ?_, fun hstate => ?_, fun hstate => ?_⟩
  · have hflushed : (loseCharge s).shc.queue = [] := by
      have hmoves := (Moves.refl (by decide : Part.shc ∈ [Part.shc, .lc]) (by decide) (flushQueue s)).loseCharge
      exact hmoves.queue rfl
    rw [hshc]
    exact hflushed
  · rw [loseCharge_of_shift hstate hphase] at h
    obtain ⟨hs, hp, -, htorque, hon, hoff⟩ := settled_beginAbort h
    exact ⟨hs.trans hstate, hp, htorque, hon, fun x hx => (hoff x hx).1⟩
  · rw [loseCharge_of_late_shift hstate hphase] at hshc
    rw [hshc]
    exact ⟨hstate, rfl⟩
  · rw [loseCharge_of_shuttle hstate] at h
    obtain ⟨hs, hp, htarget, hignored, -, hclutch⟩ := settled_dropToNeutral (u := (abandonSwap (flushQueue s)).withShc
      { (abandonSwap (flushQueue s)).shc with ignored := some (abandonSwap (flushQueue s)).shc.lever }) h
    have hlever : (abandonSwap (flushQueue s)).shc.lever = s.shc.lever := abandonSwap_ignored (flushQueue s)
    exact ⟨hs, hp, htarget, hignored.trans (congrArg some hlever), hclutch⟩
  · rw [loseCharge_of_engagement hstate] at h
    obtain ⟨hs, hp, -, -, -, hclutch⟩ := settled_dropToNeutral h
    exact ⟨hs, hp, hclutch⟩
  · rw [loseCharge_of_rest hstate] at hshc
    rw [hshc]
    exact ⟨rfl, rfl⟩

end

/-! ## The events -/

theorem takeOil_mc (ev : SfeEvent) (s u : State) (hmc : u.mc = s.mc) : (ev = .highEnter → (takeOil ev u).mc = (raise .oilHot s).mc) ∧
    (ev = .highLeave ∨ ev = .failed → (takeOil ev u).mc = (clearFault .oilHot s).mc) ∧
    (ev ≠ .highEnter → ev ≠ .highLeave → ev ≠ .failed → (takeOil ev u).mc = s.mc) := by
  refine ⟨?_, ?_, fun h1 h2 h3 => ?_⟩
  · rintro rfl
    exact raise_mc_congr _ hmc
  · rintro (rfl | rfl) <;> exact clearFault_mc_congr _ hmc
  · cases ev
    case highEnter => exact absurd rfl h1
    case highLeave => exact absurd rfl h2
    case failed => exact absurd rfl h3
    all_goals exact hmc

theorem touches_takeOil (ev : SfeEvent) (s : State) : Touches [.mc] s (takeOil ev s) := by
  cases ev
  case highEnter => exact touches_raise _ s
  case highLeave | failed => exact touches_clearFault _ s
  all_goals exact .refl _ s

/-- A charge event that ends in a loss: the fault as it becomes, and the loss with its commands. -/
theorem chargeLost {ev : SfeEvent} (h : ev = .lowEnter ∨ ev = .failed) (s u : State) (hu : Touches [.events] s u) :
    ∃ v, takeShcCharge ev u = writeClutches (loseCharge v) ∧ v.shc = s.shc ∧ v.cfg = s.cfg ∧
      Touches [.mc, .events] s v ∧ v.events = u.events ∧ (ev = .lowEnter → v.mc = (raise .chargeLow s).mc) ∧
      (ev = .failed → v.mc = (clearFault .chargeLow s).mc) := by
  have hmc : u.mc = s.mc := hu .mc (by decide)
  have hshc : u.shc = s.shc := hu .shc (by decide)
  have hcfg : u.cfg = s.cfg := hu .cfg (by decide)
  rcases h with rfl | rfl
  · exact ⟨raise .chargeLow u, rfl, hshc, hcfg, also (hu.mono (by decide)) (touches_raise _ u), rfl,
      fun _ => raise_mc_congr _ hmc, nofun⟩
  · exact ⟨clearFault .chargeLow u, rfl, hshc, hcfg, also (hu.mono (by decide)) (touches_clearFault _ u), rfl,
      nofun,
      fun _ => clearFault_mc_congr _ hmc⟩

theorem onComing_congr {s t : State} (hshc : t.shc = s.shc) (hcfg : t.cfg = s.cfg) : onComing t = onComing s := by
  rw [onComing, onComing, hshc, hcfg]

theorem offGoing_congr {s t : State} (hshc : t.shc = s.shc) (hcfg : t.cfg = s.cfg) : offGoing t = offGoing s := by
  rw [offGoing, offGoing, hshc, hcfg]

/-- Settles O32. -/
theorem shcTakesSfeEvents : Obligations.ShcTakesSfeEvents := by
  intro ev rest s hruns
  refine ⟨fun hold => ?oil, fun hold => ?chg⟩
  case oil =>
    have htouches := touches_takeOil ev (s.withEvents rest)
    exact ⟨_, exec_shcOilEvent hruns hold, htouches .events (by decide),
      also ((touches_withEvents s rest).mono (by decide)) htouches, takeOil_mc ev s (s.withEvents rest) rfl⟩
  case chg =>
    have hexec := exec_shcChgEvent hruns hold
    by_cases hloss : ev = .lowEnter ∨ ev = .failed
    · obtain ⟨v, hv, hshc, hcfg, hvtouches, hevents, hlow, hfailed⟩ :=
        chargeLost hloss s (s.withEvents rest) (touches_withEvents s rest)
      rw [hv] at hexec
      have hsettled := settled_writeClutches (loseCharge v)
      have hlost := settled_loseCharge hsettled
      have hmoves : Touches [.shc, .lc] v (loseCharge v) := (Moves.refl (by decide) (by decide) v).loseCharge.touches
      have htouches : Touches [.vdb, .shc, .lc] v (writeClutches (loseCharge v)) :=
        (hmoves.mono (by decide)).trans (hsettled.touches.mono (by decide))
      generalize writeClutches (loseCharge v) = t at *
      rw [hshc, onComing_congr hshc hcfg, offGoing_congr hshc hcfg] at hlost
      have hmc : t.mc = v.mc := htouches .mc (by decide)
      have hrest : t.events = rest := (htouches .events (by decide) : t.events = v.events).trans hevents
      refine ⟨t, hexec, hrest, (hvtouches.mono (by decide)).trans (htouches.mono (by decide)),
        fun h => hmc.trans (hlow h), fun h => ?_, fun h1 h2 => (hloss.elim h1 h2).elim, fun _ => hlost⟩
      rcases hloss with rfl | rfl
      · simp at h
      · exact hmc.trans (hfailed rfl)
    · obtain ⟨h1, h2⟩ := not_or.mp hloss
      refine ⟨_, hexec, ?_, ?_, fun h => absurd h h1, fun h => ?_, fun _ _ => ?_, fun h => absurd h hloss⟩
      · cases ev
        case lowEnter => exact absurd rfl h1
        case failed => exact absurd rfl h2
        all_goals rfl
      · cases ev
        case lowEnter => exact absurd rfl h1
        case failed => exact absurd rfl h2
        case lowLeave => exact also ((touches_withEvents s rest).mono (by decide)) (touches_clearFault _ _)
        all_goals exact (touches_withEvents s rest).mono (by decide)
      · obtain rfl := h.resolve_left h2
        exact clearFault_mc_congr _ rfl
      · cases ev
        case lowEnter => exact absurd rfl h1
        case failed => exact absurd rfl h2
        case lowLeave => exact ⟨rfl, rfl, fun h => absurd rfl h⟩
        all_goals exact ⟨rfl, rfl, fun _ => rfl⟩

end Sys2Proof.Proofs
end

