-- ==== Sys2Proof/Proofs/Fills.lean ====
section
/-! SUPPORT. Fills (R73, R84, R86, R89): a fill that counts, ends or goes on, the clutches an engagement fills alone, and
what the end of the fills lets begin. -/

namespace Sys2Proof.Proofs

open Sys2Proof Sys2Proof.Machine

theorem allIn_iff {s : State} {st : ClutchState} {l : List Clutch} :
    allIn s st l = true ↔ ∀ x ∈ l, (s.clutch x).state = st := by simp [allIn]

theorem allIn_false_iff {s : State} {st : ClutchState} {l : List Clutch} :
    allIn s st l = false ↔ ∃ x ∈ l, (s.clutch x).state ≠ st := by simp [allIn]

/-! ## The end of a fill (R73, R84) -/

/-- The state with another clutch table and another interval count. -/
def fillsSet (s : State) (k : ClutchTable ClutchRec) (n : Nat) : State :=
  s.withShc { s.shc with clutches := k, interval := n }

/-- A clutch at the end of its fill. -/
def fillEnded (locks : Bool) (c : ClutchCfg) (r : ClutchRec) : ClutchRec :=
  if locks then r.lock c.hold else r.ramp c.touch

/-- The end of a fill in the ramp of an engagement begins the ramp (R84). -/
def rampBegins (k : Shc) : Bool := !locksAtOnce k && k.state == .engaging

section
variable {s : State} {k : ClutchTable ClutchRec} {n : Nat} {x : Clutch}

theorem clutch_fillsSet (x : Clutch) : (fillsSet s k n).clutch x = k.get x := rfl
theorem shc_fillsSet : (fillsSet s k n).shc = { s.shc with clutches := k, interval := n } := rfl

theorem settleFill_fillsSet : settleFill (fillsSet s k n) x = fillsSet s
    (k.set x (fillEnded (locksAtOnce s.shc) (s.cfg.clutches.get x) (k.get x)))
    (if rampBegins s.shc then 0 else n) := by
  have hlocks : locksAtOnce (fillsSet s k n).shc = locksAtOnce s.shc := rfl
  unfold settleFill fillEnded rampBegins
  rw [hlocks]
  by_cases h : locksAtOnce s.shc = true
  · simp only [h, if_true]
    rfl
  · rw [Bool.not_eq_true] at h
    simp only [h, Bool.false_eq_true, if_false, Bool.not_false, Bool.true_and, beq_iff_eq]
    by_cases hstate : s.shc.state = .engaging
    · rw [if_pos hstate]
      exact if_pos hstate
    · rw [if_neg hstate]
      exact if_neg hstate

theorem settleFill_eq (s : State) (x : Clutch) : settleFill s x = fillsSet s
    (s.shc.clutches.set x (fillEnded (locksAtOnce s.shc) (s.clutchCfg x) (s.clutch x)))
    (if rampBegins s.shc then 0 else s.shc.interval) :=
  settleFill_fillsSet (s := s) (k := s.shc.clutches) (n := s.shc.interval)

end

/-! ## A fill outside a swap (R66, R84) -/

/-- A clutch about to fill. -/
def filling (s : State) (x : Clutch) (r : ClutchRec) : ClutchRec :=
  r.fill (s.cfg.clutches.get x).fillCurrent (if s.oilCold then r.learned + r.learned / 4 else r.learned)

/-- The table in which a clutch fills and the others of its group drain. -/
def aloneTable (s : State) (x : Clutch) (k : ClutchTable ClutchRec) : ClutchTable ClutchRec :=
  k.map fun y r => if y = x then filling s x r else if y ∈ othersOf x then r.drainTo 0 else r

theorem othersOf_nodup (x : Clutch) : (othersOf x).Nodup := by cases x <;> decide
theorem not_mem_othersOf (x : Clutch) : x ∉ othersOf x := by cases x <;> decide

theorem othersOf_direction (d : Dir) {x : Clutch} (hx : x ≠ .fwd ∧ x ≠ .rev) : x ≠ d.clutch ∧ x ∉ othersOf d.clutch := by
  cases d <;> simp [othersOf, Dir.clutch, directionClutches, hx.1, hx.2]

section
variable {s : State} {k : ClutchTable ClutchRec} {x y : Clutch}

theorem aloneTable_get : (aloneTable s x k).get y =
    if y = x then filling s x (k.get y) else if y ∈ othersOf x then (k.get y).drainTo 0 else k.get y :=
  ClutchTable.get_map _ _ _

theorem fillAlone_eq (s : State) (x : Clutch) : fillAlone s x = clutchesSet s (aloneTable s x s.shc.clutches) := by
  have hset : (mapOn (othersOf x) (fun _ c => c.drainTo 0) s.shc.clutches).set x
      (filling s x ((mapOn (othersOf x) (fun _ c => c.drainTo 0) s.shc.clutches).get x)) =
      aloneTable s x s.shc.clutches :=
    ClutchTable.ext_get _ _ fun y => by
      rw [ClutchTable.get_set, aloneTable_get, mapOn_get, mapOn_get, if_neg (not_mem_othersOf x)]
      by_cases hy : y = x
      · subst hy
        simp
      · simp [hy]
  unfold fillAlone
  rw [drainAll_eq (othersOf_nodup x)]
  exact congrArg (clutchesSet s) hset

/-- RAMP begins with the direction clutch filling alone (R84). -/
theorem beginRamp_eq (g : Gear) (s : State) : beginRamp g s = s.withShc { s.shc with
    current := some g, phase := some .ramp, interval := 0
    clutches := aloneTable s g.dir.clutch s.shc.clutches } :=
  fillAlone_eq (s.withShc { s.shc with current := some g, phase := some .ramp, interval := 0 }) _

end

/-! ## What the end of the fills lets begin -/

section
variable {s : State}

theorem afterFills_of_fill (hstate : s.shc.state = .shifting) (hphase : s.shc.phase = some .fill) :
    afterFills s = if allIn s .ramping (onComing s) then endFill s else s := by
  unfold afterFills
  rw [hstate, hphase]

theorem afterFills_of_preselect {g : Gear} (hstate : s.shc.state = .engaging) (hphase : s.shc.phase = some .preselect)
    (htarget : s.shc.target = some g) :
    afterFills s = if allIn s .locked (gearPair s.cfg g) then beginRamp g s else s := by
  unfold afterFills
  rw [hstate, hphase]
  dsimp only
  rw [htarget]

theorem afterFills_of_no_target (hstate : s.shc.state = .engaging) (hphase : s.shc.phase = some .preselect)
    (htarget : s.shc.target = none) : afterFills s = s := by
  unfold afterFills
  rw [hstate, hphase]
  dsimp only
  rw [htarget]

theorem afterFills_of_ramp (hstate : s.shc.state = .engaging) (hphase : s.shc.phase = some .ramp) :
    afterFills s = s := by
  unfold afterFills
  rw [hstate, hphase]

theorem afterFills_of_drain (hstate : s.shc.state = .shuttling) (hphase : s.shc.phase = some .drain) :
    afterFills s = if drainOver s then endDrain s else s := by
  unfold afterFills
  rw [hstate, hphase]

/-- In NEUTRAL a PRESELECT that has ended makes its gear the current one, and no clutch changes (R89). -/
theorem afterFills_of_neutral (hstate : s.shc.state = .neutral) : ∃ (current preselect : Option Gear),
    afterFills s = s.withShc { s.shc with current := current, preselect := preselect } ∧
    (∀ g, s.shc.preselect = some g → allIn s .locked (gearPair s.cfg g) = true → current = some g ∧ preselect = none) ∧
    ((∀ g, s.shc.preselect = some g → allIn s .locked (gearPair s.cfg g) = false) →
      current = s.shc.current ∧ preselect = s.shc.preselect) := by
  unfold afterFills
  rw [hstate]
  dsimp only
  rcases hpreselect : s.shc.preselect with _ | g
  · exact ⟨s.shc.current, s.shc.preselect, rfl, nofun, fun _ => ⟨rfl, hpreselect⟩⟩
  · dsimp only
    by_cases hall : allIn s .locked (gearPair s.cfg g) = true
    · rw [if_pos hall]
      refine ⟨some g, none, rfl, fun g' hg _ => ?_, fun hnone => ?_⟩
      · cases hg
        exact ⟨rfl, rfl⟩
      · simp [hnone g rfl] at hall
    · rw [if_neg hall]
      refine ⟨s.shc.current, s.shc.preselect, rfl, fun g' hg hg' => ?_, fun _ => ⟨rfl, hpreselect⟩⟩
      cases hg
      exact absurd hg' hall

/-! ### The end of FILL (R73, R77) -/

/-- An on-coming clutch is the same at the start of TORQUE. -/
theorem beginTorqueUp_spec (s : State) : (∀ x, x ∉ offGoing s → (beginTorqueUp s).clutch x = s.clutch x) ∧
    (∀ x ∈ offGoing s, (beginTorqueUp s).clutch x = (s.clutch x).drainTo (s.cfg.clutches.get x).hold) ∧
    (beginTorqueUp s).shc.state = s.shc.state ∧ (beginTorqueUp s).shc.phase = some .torque ∧
    (beginTorqueUp s).shc.torqueLen = (if asksTorque s = true then 12 else 18) ∧
    (asksTorque s = true → (beginTorqueUp s).shc.torque = some s.cfg.torqueLimit) := by
  have hclutch {t : State} (h : t.shc.clutches = offHeld s) (x : Clutch) : t.clutch x =
      if x ∈ offGoing s then (s.clutch x).drainTo (s.cfg.clutches.get x).hold else s.clutch x := by
    rw [State.clutch, h]
    exact mapOn_get x
  rw [beginTorqueUp_eq]
  by_cases hasks : asksTorque s = true
  · rw [if_pos hasks, if_pos hasks]
    have hshc := askTorque_shc (torqueUpBegun s 12)
    have htable : (askTorque (torqueUpBegun s 12)).shc.clutches = offHeld s := by rw [hshc]; rfl
    refine ⟨fun x hx => ?_, fun x hx => ?_, by rw [hshc]; rfl, by rw [hshc]; rfl, by rw [hshc]; rfl,
      fun _ => by rw [hshc]; rfl⟩
    · rw [hclutch htable, if_neg hx]
    · rw [hclutch htable, if_pos hx]
  · rw [if_neg hasks, if_neg hasks]
    have htable : (torqueUpBegun s 18).shc.clutches = offHeld s := rfl
    refine ⟨fun x hx => ?_, fun x hx => ?_, rfl, rfl, rfl, fun h => absurd h hasks⟩
    · rw [hclutch htable, if_neg hx]
    · rw [hclutch htable, if_pos hx]

theorem endFill_phase (s : State) :
    (endFill s).shc.phase = if s.shc.kind = some .up then some .torque else some .inertia := by
  unfold endFill
  by_cases h : s.shc.kind = some .up
  · rw [if_pos h, if_pos h]
    exact (beginTorqueUp_spec s).2.2.2.1
  · rw [if_neg h, if_neg h, beginInertiaDown_eq]
    rfl

theorem endFill_of_not_offGoing {x : Clutch} (hx : x ∉ offGoing s) : (endFill s).clutch x = s.clutch x := by
  unfold endFill
  by_cases h : s.shc.kind = some .up
  · rw [if_pos h]
    exact (beginTorqueUp_spec s).1 x hx
  · rw [if_neg h, beginInertiaDown_eq]
    exact (mapOn_get x).trans (if_neg hx)

end

end Sys2Proof.Proofs
end

