-- ==== Sys2Proof/Proofs/FillEnds.lean ====
section
/-! PROOF. O29: a fill that has held its current ends (R73, R84, R86, R89). -/

namespace Sys2Proof.Proofs

open Sys2Proof Sys2Proof.Machine

section
variable {x y : Clutch} {s t : State}

theorem settleFill_clutch (h : y ≠ x) : (settleFill s x).clutch y = s.clutch y := by
  rw [settleFill_eq, clutch_fillsSet, ClutchTable.get_set, if_neg h]
  rfl

theorem settleFill_own (s : State) (x : Clutch) :
    (settleFill s x).clutch x = fillEnded (locksAtOnce s.shc) (s.clutchCfg x) (s.clutch x) := by
  rw [settleFill_eq, clutch_fillsSet, ClutchTable.get_set, if_pos rfl]

theorem settleFill_shc (s : State) (x : Clutch) : (settleFill s x).shc = { s.shc with
    clutches := (settleFill s x).shc.clutches, interval := if rampBegins s.shc then 0 else s.shc.interval } := by
  rw [settleFill_eq]
  rfl

/-- A fill that ends outside PRESELECT ramps at its touch current. -/
theorem settleFill_ramps (h : locksAtOnce s.shc = false) :
    (settleFill s x).clutch x = (s.clutch x).ramp (s.clutchCfg x).touch := by
  rw [settleFill_own, h]
  rfl

theorem settleFill_locks (h : locksAtOnce s.shc = true) :
    (settleFill s x).clutch x = (s.clutch x).lock (s.clutchCfg x).hold := by
  rw [settleFill_own, h]
  rfl

/-- After the end of a fill the tests on the fills read the clutch that ended and the others as they were. -/
theorem allIn_settleFill {st : ClutchState} {l : List Clutch} (hx : ((settleFill s x).clutch x).state = st) :
    allIn (settleFill s x) st l = true ↔ ∀ y ∈ l, y ≠ x → (s.clutch y).state = st := by
  rw [allIn_iff]
  refine forall₂_congr fun y _ => ?_
  by_cases hy : y = x
  · subst hy
    simp [hx]
  · rw [settleFill_clutch hy]
    exact ⟨fun h _ => h, fun h => h hy⟩

/-! ## The five ends of a fill -/

/-- In FILL of a shift (R73). -/
theorem fill_ends_in_shift (h : Settled (afterFills (settleFill s x)) t) (hstate : s.shc.state = .shifting)
    (hphase : s.shc.phase = some .fill) (hx : x ∈ onComing s) :
    (t.clutch x).state = .ramping ∧ (t.clutch x).command = (s.cfg.clutches.get x).touch ∧
    ((∃ y ∈ onComing s, y ≠ x ∧ (s.clutch y).state ≠ .ramping) → t.shc.phase = some .fill) ∧
    ((∀ y ∈ onComing s, y ≠ x → (s.clutch y).state = .ramping) →
      t.shc.phase = if s.shc.kind = some .up then some .torque else some .inertia) := by
  have hramps : (settleFill s x).clutch x = (s.clutch x).ramp (s.clutchCfg x).touch :=
    settleFill_ramps (by simp [locksAtOnce, hstate])
  have hshc := settleFill_shc s x
  have hon : onComing (settleFill s x) = onComing s := by
    rw [settleFill_eq]
    rfl
  have hoff : x ∉ offGoing (settleFill s x) := offGoing_of_onComing (hon ▸ hx)
  have hafter := afterFills_of_fill (s := settleFill s x) (by rw [hshc]; exact hstate) (by rw [hshc]; exact hphase)
  have hall := allIn_settleFill (s := s) (x := x) (st := .ramping) (l := onComing s) (congrArg ClutchRec.state hramps)
  have hphase' : (settleFill s x).shc.phase = some .fill := by rw [hshc]; exact hphase
  have hkind' : (settleFill s x).shc.kind = s.shc.kind := by rw [hshc]
  rw [hon] at hafter
  generalize settleFill s x = u at *
  have hsame : (afterFills u).clutch x = (s.clutch x).ramp (s.clutchCfg x).touch := by
    rw [hafter]
    split
    · exact (endFill_of_not_offGoing hoff).trans hramps
    · exact hramps
  have htphase : t.shc.phase = (afterFills u).shc.phase := by rw [h.shc]
  refine ⟨?_, ?_, fun ⟨y, hy, hne, hother⟩ => ?_, fun hothers => ?_⟩
  · rw [h.gear (onComing_gear hx), hsame]
    rfl
  · rw [h.gear (onComing_gear hx), hsame]
    rfl
  · rw [htphase, hafter, if_neg fun k => hother (hall.mp k y hy hne)]
    exact hphase'
  · rw [htphase, hafter, if_pos (hall.mpr hothers), endFill_phase, hkind']

/-- In PRESELECT (R84). -/
theorem fill_ends_in_preselect (h : Settled (afterFills (settleFill s x)) t) (hstate : s.shc.state = .engaging)
    (hphase : s.shc.phase = some .preselect) (hx : x ≠ .fwd ∧ x ≠ .rev) :
    (t.clutch x).state = .locked ∧ (t.clutch x).command = (s.cfg.clutches.get x).hold ∧
    ∀ g : Gear, s.shc.target = some g → x ∈ gearPair s.cfg g →
      (∀ y ∈ gearPair s.cfg g, y ≠ x → (s.clutch y).state = .locked) →
      t.shc.phase = some .ramp ∧ t.shc.current = some g ∧ (t.clutch g.dir.clutch).state = .filling := by
  have hlocks : (settleFill s x).clutch x = (s.clutch x).lock (s.clutchCfg x).hold :=
    settleFill_locks (by simp [locksAtOnce, hstate, hphase])
  have hshc := settleFill_shc s x
  have hcfg : (settleFill s x).cfg = s.cfg := by rw [settleFill_eq]; rfl
  have hall (g : Gear) := allIn_settleFill (s := s) (x := x) (st := .locked) (l := gearPair s.cfg g)
    (congrArg ClutchRec.state hlocks)
  have hstate' : (settleFill s x).shc.state = .engaging := by rw [hshc]; exact hstate
  have hphase' : (settleFill s x).shc.phase = some .preselect := by rw [hshc]; exact hphase
  have htarget' : (settleFill s x).shc.target = s.shc.target := by rw [hshc]
  generalize settleFill s x = u at *
  have hramp (g : Gear) (y : Clutch) : (beginRamp g u).clutch y =
      if y = g.dir.clutch then filling u g.dir.clutch (u.clutch y)
      else if y ∈ othersOf g.dir.clutch then (u.clutch y).drainTo 0 else u.clutch y := by
    rw [beginRamp_eq]
    exact aloneTable_get
  have hsame : (afterFills u).clutch x = (s.clutch x).lock (s.clutchCfg x).hold := by
    rcases htarget : u.shc.target with _ | g
    · rw [afterFills_of_no_target hstate' hphase' htarget, hlocks]
    · rw [afterFills_of_preselect hstate' hphase' htarget]
      split
      · obtain ⟨hne, hothers⟩ := othersOf_direction g.dir hx
        rw [hramp, if_neg hne, if_neg hothers, hlocks]
      · exact hlocks
  refine ⟨?_, ?_, fun g htarget _ hothers => ?_⟩
  · rw [h.gear hx, hsame]
    rfl
  · rw [h.gear hx, hsame]
    rfl
  · have hafter := afterFills_of_preselect hstate' hphase' (htarget'.trans htarget)
    rw [hcfg, if_pos ((hall g).mpr hothers)] at hafter
    rw [hafter] at h
    refine ⟨?_, ?_, ?_⟩
    · rw [h.shc, beginRamp_eq]
      rfl
    · rw [h.shc, beginRamp_eq]
      rfl
    · rw [(h.kept _).1, hramp, if_pos rfl]
      rfl

/-- In NEUTRAL, where the fills of a PRESELECT go on (R89). -/
theorem fill_ends_in_neutral (h : Settled (afterFills (settleFill s x)) t) (hstate : s.shc.state = .neutral)
    (hx : x ≠ .fwd ∧ x ≠ .rev) :
    (t.clutch x).state = .locked ∧ (t.clutch x).command = (s.cfg.clutches.get x).hold := by
  have hlocks : (settleFill s x).clutch x = (s.clutch x).lock (s.clutchCfg x).hold :=
    settleFill_locks (by simp [locksAtOnce, hstate])
  have hstate' : (settleFill s x).shc.state = .neutral := by rw [settleFill_shc]; exact hstate
  obtain ⟨current, preselect, hafter, -, -⟩ := afterFills_of_neutral hstate'
  rw [h.gear hx, hafter]
  have hsame := hlocks
  generalize settleFill s x = u at *
  have hclutch : (u.withShc { u.shc with current := current, preselect := preselect }).clutch x = u.clutch x := rfl
  rw [hclutch, hsame]
  exact ⟨rfl, rfl⟩

/-- The direction clutch of an engagement (R84). -/
theorem fill_ends_in_ramp (h : Settled (afterFills (settleFill s x)) t) (hstate : s.shc.state = .engaging)
    (hphase : s.shc.phase = some .ramp) : (t.clutch x).state = .ramping ∧
    (t.clutch x).value = (s.cfg.clutches.get x).touch ∧ t.shc.interval = 0 := by
  have hshc := settleFill_shc s x
  have hramps : (settleFill s x).clutch x = (s.clutch x).ramp (s.clutchCfg x).touch :=
    settleFill_ramps (by simp [locksAtOnce, hstate, hphase])
  rw [afterFills_of_ramp (by rw [hshc]; exact hstate) (by rw [hshc]; exact hphase)] at h
  refine ⟨(h.kept x).1.trans (congrArg ClutchRec.state hramps), (h.kept x).2.trans (congrArg ClutchRec.value hramps), ?_⟩
  rw [h.shc, hshc]
  simp [rampBegins, locksAtOnce, hstate, hphase]

/-- The direction clutch of a shuttle (R86). -/
theorem fill_ends_in_drain (h : Settled (afterFills (settleFill s x)) t) (hstate : s.shc.state = .shuttling)
    (hphase : s.shc.phase = some .drain) (hx : x ∈ dirClutchOf s.shc.target) : (t.clutch x).state = .ramping ∧
    (t.clutch x).value = (s.cfg.clutches.get x).touch := by
  have hshc := settleFill_shc s x
  have hramps : (settleFill s x).clutch x = (s.clutch x).ramp (s.clutchCfg x).touch :=
    settleFill_ramps (by simp [locksAtOnce, hstate])
  have hafter := afterFills_of_drain (s := settleFill s x) (by rw [hshc]; exact hstate) (by rw [hshc]; exact hphase)
  have hgear : x ∉ onComing (settleFill s x) := fun k => by
    obtain ⟨hfwd, hrev⟩ := onComing_gear k
    exact (dirClutchOf_direction hx).elim hfwd hrev
  generalize settleFill s x = u at *
  have hsame : (afterFills u).clutch x = (s.clutch x).ramp (s.clutchCfg x).touch := by
    rw [hafter, endDrain_eq]
    split
    · exact ((mapOn_get x).trans (if_neg hgear)).trans hramps
    · exact hramps
  exact ⟨(h.kept x).1.trans (congrArg ClutchRec.state hsame), (h.kept x).2.trans (congrArg ClutchRec.value hsame)⟩

end

/-- Settles O29. -/
theorem fillCompleteTaken : Obligations.FillCompleteTaken := by
  intro x s hruns hfilling hheld
  have hdue : fillDue s x = true := by simp [fillDue, hfilling, hheld]
  obtain ⟨t, hexec, ht⟩ := exec_of_due (c := .fillComplete x) rfl hruns hdue
  have hends : Touches [.shc, .lc] s (afterFills (settleFill s x)) :=
    (((Moves.refl (by decide) (by decide) s).settleFill x).afterFills).touches
  exact ⟨t, hexec, (hends.mono (by decide)).trans (ht.touches.mono (by decide)), fill_ends_in_shift ht,
    fun hstate hphase h1 h2 => fill_ends_in_preselect ht hstate hphase ⟨h1, h2⟩,
    fun hstate h1 h2 => fill_ends_in_neutral ht hstate ⟨h1, h2⟩,
    fun hstate hphase _ => fill_ends_in_ramp ht hstate hphase, fill_ends_in_drain ht⟩

end Sys2Proof.Proofs
end

