-- ==== Sys2Proof/Proofs/IntoNeutral.lean ====
section
/-! SUPPORT. The ways into NEUTRAL (R87, R89) and the park request (R90, R92): the record that a change to neutral leaves
of a gearbox with its gear engaged or an operation in progress. -/

namespace Sys2Proof.Proofs

open Sys2Proof Sys2Proof.Machine

/-! ## The record left for neutral (R87, R89) -/

/-- The clutch table where an operation is left for neutral. -/
def leftClutches (s : State) : ClutchTable ClutchRec :=
  match s.shc.state, s.shc.phase with
  | .shifting, some .fill => swapBack s
  | .shifting, some .torque => if s.shc.kind = some .up then swapBack s else swapDone s
  | .shifting, some .inertia | .shifting, some .lockup => swapDone s
  | .shifting, some .abort => offLocked s s.shc.clutches
  | .shuttling, some .drain => swapBack s
  | _, _ => s.shc.clutches

/-- The current gear where an operation is left for neutral: a late shift is completed. -/
def leftCurrent (k : Shc) : Option Gear :=
  match k.state, k.phase with
  | .shifting, some .torque => if k.kind = some .up then k.current else k.target
  | .shifting, some .inertia | .shifting, some .lockup => k.target
  | _, _ => k.current

/-- The gear whose PRESELECT goes on. -/
def leftPreselect (k : Shc) : Option Gear :=
  match k.state, k.phase with
  | .engaging, some .preselect => k.target
  | _, _ => k.preselect

/-- The selected gear after neutral: the last listed start-permitted gear at or below the current one. -/
def reselected (c : Image) (current selected : Option Gear) : Option Gear :=
  match current with
  | some g =>
    (((c.gearsOf g.dir).filter fun e => e.start && decide (e.gear.num ≤ g.num)).getLast?).elim selected
      fun e => some e.gear
  | none => selected

/-- The gearbox as an operation is left for neutral. -/
def leftState (s : State) : State := s.withShc { s.shc with
  clutches := leftClutches s, current := leftCurrent s.shc, preselect := leftPreselect s.shc }

section
variable {s : State}

theorem reselect_eq (s : State) : reselect s =
    s.withShc { s.shc with selected := reselected s.cfg s.shc.current s.shc.selected } := by
  unfold reselect reselected
  rcases s.shc.current with _ | g
  · rfl
  dsimp only
  split
  next e h => simp only [h, Option.elim_some]
  next h =>
    simp only [h, Option.elim_none]
    rfl

theorem leftState_of {k : ClutchTable ClutchRec} {c p : Option Gear} (hk : leftClutches s = k)
    (hc : leftCurrent s.shc = c) (hp : leftPreselect s.shc = p) :
    leftState s = s.withShc { s.shc with clutches := k, current := c, preselect := p } := by
  rw [leftState, hk, hc, hp]

theorem leftState_of_inGear (h : s.shc.state = .inGear) : leftState s = s :=
  leftState_of (by simp [leftClutches, h]) (by simp [leftCurrent, h]) (by simp [leftPreselect, h])

theorem leaveShift_eq (h : s.shc.state = .shifting) : leaveShift s = leftState s := by
  have hpreselect : leftPreselect s.shc = s.shc.preselect := by simp [leftPreselect, h]
  unfold leaveShift
  simp only [swapBack_eq, swapDone_eq]
  rcases hphase : s.shc.phase with _ | p
  · exact (leftState_of (by simp [leftClutches, hphase]) (by simp [leftCurrent, hphase]) hpreselect).symm
  cases p
  case fill => exact (leftState_of (by simp [leftClutches, h, hphase]) (by simp [leftCurrent, h, hphase]) hpreselect).symm
  case torque =>
    dsimp only
    by_cases hkind : s.shc.kind = some .up
    · rw [if_pos hkind]
      exact (leftState_of (by simp [leftClutches, h, hphase, hkind]) (by simp [leftCurrent, h, hphase, hkind])
        hpreselect).symm
    · rw [if_neg hkind]
      exact (leftState_of (k := swapDone s) (by simp [leftClutches, h, hphase, hkind]) (by simp [leftCurrent, h, hphase, hkind])
        hpreselect).symm
  case inertia | lockup =>
    exact (leftState_of (k := swapDone s) (by simp [leftClutches, h, hphase]) (by simp [leftCurrent, h, hphase]) hpreselect).symm
  case abort =>
    exact (lockAll_eq (offGoing_nodup s)).trans
      (leftState_of (k := offLocked s s.shc.clutches) (by simp [leftClutches, h, hphase]) (by simp [leftCurrent, h, hphase])
        hpreselect).symm
  all_goals
    exact (leftState_of (by simp [leftClutches, h, hphase]) (by simp [leftCurrent, h, hphase]) hpreselect).symm

theorem abandonSwap_eq (h : s.shc.state = .shuttling) : abandonSwap s = leftState s := by
  have hcurrent : leftCurrent s.shc = s.shc.current := by simp [leftCurrent, h]
  have hpreselect : leftPreselect s.shc = s.shc.preselect := by simp [leftPreselect, h]
  unfold abandonSwap
  rw [swapBack_eq]
  by_cases hphase : s.shc.phase = some .drain
  · rw [if_pos hphase]
    exact (leftState_of (by simp [leftClutches, h, hphase]) hcurrent hpreselect).symm
  · rw [if_neg hphase]
    have hkept : leftClutches s = s.shc.clutches := by
      unfold leftClutches
      rw [h]
      split <;> simp_all
    exact (leftState_of hkept hcurrent hpreselect).symm

theorem leaveEngaging_eq (h : s.shc.state = .engaging) : leaveEngaging s = leftState s := by
  have hclutches : leftClutches s = s.shc.clutches := by simp [leftClutches, h]
  have hcurrent : leftCurrent s.shc = s.shc.current := by simp [leftCurrent, h]
  unfold leaveEngaging
  by_cases hphase : s.shc.phase = some .preselect
  · rw [if_pos hphase]
    exact (leftState_of hclutches hcurrent (by simp [leftPreselect, h, hphase])).symm
  · rw [if_neg hphase]
    have hkept : leftPreselect s.shc = s.shc.preselect := by
      unfold leftPreselect
      rw [h]
      split <;> simp_all
    exact (leftState_of hclutches hcurrent hkept).symm

/-- A gearbox with its gear engaged or an operation in progress leaves it and drops to neutral. -/
theorem neutralize_of_busy (h : s.shc.state.busy) : neutralize s = dropToNeutral (reselect (leftState s)) := by
  unfold neutralize
  rcases h with h | h | h | h <;> rw [h] <;> dsimp only
  · rw [leftState_of_inGear h]
  · rw [leaveShift_eq h]
  · rw [leaveEngaging_eq h]
  · rw [abandonSwap_eq h]

theorem neutralize_of_rest (h : s.shc.state = .parked ∨ s.shc.state = .neutral ∨ s.shc.state = .faultHold) :
    neutralize s = s := by
  unfold neutralize
  rcases h with h | h | h <;> rw [h]

/-- The record a change to neutral leaves. -/
def neutralRec (s : State) : Shc := { s.shc with
  state := .neutral, phase := none, kind := none, target := none, shiftOrigin := none, interval := 0
  queue := [], pendingShuttle := false, torque := none
  clutches := mapOn directionClutches (fun _ c => c.drainTo 0) (leftClutches s)
  current := leftCurrent s.shc, preselect := leftPreselect s.shc
  selected := reselected s.cfg (leftCurrent s.shc) s.shc.selected }

theorem neutralize_shc (h : s.shc.state.busy) : (neutralize s).shc = neutralRec s := by
  have hreselected : (reselect (leftState s)).shc = { (leftState s).shc with
      selected := reselected s.cfg (leftState s).shc.current (leftState s).shc.selected } :=
    congrArg State.shc (reselect_eq (leftState s))
  rw [neutralize_of_busy h, dropToNeutral_shc, directionDrained, hreselected]
  rfl

theorem touches_neutralize (s : State) : Touches [.shc, .lc] s (neutralize s) :=
  (Moves.refl (by decide) (by decide) s).neutralize.touches

theorem busy_or_rest (x : GearState) : x.busy ∨ x = .parked ∨ x = .neutral ∨ x = .faultHold := by
  cases x <;> simp [GearState.busy]

/-! ## A park request (R90) -/

/-- A park request in a gearbox that is not PARKED: NEUTRAL, or FAULT_HOLD that stays, with the pending park. -/
theorem takePark_spec (h : s.shc.state ≠ .parked) : (takePark s).shc.pendingPark = true ∧
    (takePark s).shc.parkOrder = s.shc.parkOrder ∧
    (s.shc.state ≠ .faultHold → (takePark s).shc.state = .neutral) ∧
    (s.shc.state = .faultHold → (takePark s).shc.state = .faultHold) := by
  have hpark : takePark s = neutralize (s.withShc { s.shc with pendingPark := true }) := if_neg h
  rw [hpark]
  rcases busy_or_rest s.shc.state with hbusy | hrest
  · have hshc := neutralize_shc (s := s.withShc { s.shc with pendingPark := true }) hbusy
    refine ⟨by rw [hshc]; rfl, by rw [hshc]; rfl, fun _ => by rw [hshc]; rfl, fun hfault => ?_⟩
    simp [hfault, GearState.busy] at hbusy
  · have hstay := neutralize_of_rest (s := s.withShc { s.shc with pendingPark := true }) hrest
    rw [hstay]
    exact ⟨rfl, rfl, fun hfault => (hrest.resolve_left h).resolve_right hfault, id⟩

theorem takePark_of_parked (h : s.shc.state = .parked) : takePark s = s := if_pos h

theorem parkRequested_of_order (h : s.shc.parkOrder = true) : parkRequested s = true := by simp [parkRequested, h]

/-- A park request in force is followed by taking it where it was not in force before. -/
theorem followParkRequest_of_now (h : parkRequested s = true) : followParkRequest s =
    if s.shc.parkForce = true then s.withShc { s.shc with parkForce := true }
    else takePark (s.withShc { s.shc with parkForce := true }) := by
  unfold followParkRequest
  dsimp only
  rw [h]
  cases s.shc.parkForce <;> rfl

/-- A parked gearbox stays parked under the MC's park order, and any other but one in FAULT_HOLD is NEUTRAL with the
pending park (R92). -/
theorem parkOrdered_spec (h : s.shc.parkOrder = true) (hpark : s.shc.state ≠ .parked → s.shc.pendingPark = true ∧
    (s.shc.state = .neutral ∨ s.shc.state = .faultHold)) : (followParkRequest s).shc.parkOrder = true ∧
    (followParkRequest s).shc.state = s.shc.state ∧
    (s.shc.state ≠ .parked → (followParkRequest s).shc.pendingPark = true) := by
  have hset : (s.withShc { s.shc with parkForce := true }).shc = { s.shc with parkForce := true } := rfl
  rw [followParkRequest_of_now (parkRequested_of_order h)]
  split
  · exact ⟨h, rfl, fun hs => (hpark hs).1⟩
  · by_cases hs : s.shc.state = .parked
    · rw [takePark_of_parked (s := s.withShc { s.shc with parkForce := true }) hs]
      exact ⟨h, rfl, fun hne => absurd hs hne⟩
    · obtain ⟨hpending, horder, hneutral, hfault⟩ := takePark_spec (s := s.withShc { s.shc with parkForce := true }) hs
      refine ⟨horder.trans h, ?_, fun _ => hpending⟩
      rcases (hpark hs).2 with hstate | hstate
      · exact (hneutral (by rw [hset]; simp [hstate])).trans hstate.symm
      · exact (hfault hstate).trans hstate.symm

/-- The MC's park order (R92). -/
theorem shcParkOrder_spec (s : State) : (shcParkOrder s).shc.parkOrder = true ∧
    (s.shc.state ≠ .parked → s.shc.state ≠ .faultHold →
      (shcParkOrder s).shc.state = .neutral ∧ (shcParkOrder s).shc.pendingPark = true) ∧
    (s.shc.state = .parked → (shcParkOrder s).shc.state = .parked) ∧
    Touches [.vdb, .shc, .lc] s (shcParkOrder s) := by
  have hmoves : Touches [.shc, .lc] s (followParkRequest (takePark (s.withShc { s.shc with parkOrder := true }))) := by
    have hset := (Moves.refl (by decide : Part.shc ∈ [Part.shc, .lc]) (by decide) s).withShc
      { s.shc with parkOrder := true } (by rfl) (by rfl)
    exact hset.takePark.followParkRequest.touches
  have hwritten := settled_writeClutches (followParkRequest (takePark (s.withShc { s.shc with parkOrder := true })))
  have htouches : Touches [.vdb, .shc, .lc] s (shcParkOrder s) :=
    (hmoves.mono (by decide)).trans (hwritten.touches.mono (by decide))
  have hshc := hwritten.shc
  change (shcParkOrder s).shc = _ at hshc
  generalize htaken : takePark (s.withShc { s.shc with parkOrder := true }) = u at *
  rw [hshc]
  by_cases hs : s.shc.state = .parked
  · rw [takePark_of_parked (s := s.withShc { s.shc with parkOrder := true }) hs] at htaken
    obtain ⟨horder, hstate, -⟩ := parkOrdered_spec (s := u) (by rw [← htaken]; rfl)
      (fun hne => absurd (by rw [← htaken]; exact hs) hne)
    exact ⟨horder, fun hne => absurd hs hne, fun _ => hstate.trans (by rw [← htaken]; exact hs), htouches⟩
  · obtain ⟨hpending, horder, hneutral, hfault⟩ := takePark_spec (s := s.withShc { s.shc with parkOrder := true }) hs
    rw [htaken] at hpending horder hneutral hfault
    have hnext : u.shc.state = .neutral ∨ u.shc.state = .faultHold := by
      by_cases hf : s.shc.state = .faultHold
      · exact .inr (hfault hf)
      · exact .inl (hneutral hf)
    have hnot : u.shc.state ≠ .parked := by rcases hnext with h | h <;> simp [h]
    obtain ⟨horder', hstate', hpending'⟩ := parkOrdered_spec (s := u) horder fun _ => ⟨hpending, hnext⟩
    exact ⟨horder', fun _ hf => ⟨hstate'.trans (hneutral hf), hpending' hnot⟩, fun hne => absurd hne hs, htouches⟩

end

end Sys2Proof.Proofs
end

