-- ==== Sys2Proof/Proofs/HitchValves.lean ====
section
/-! SUPPORT. The hitch valves (R117) and the hitch's changes of state (R119 to R123, R138): what a write of both valves and
each entry leave of the record and of the outputs. -/

namespace Sys2Proof.Proofs

open Sys2Proof Sys2Proof.Machine

/-! ## Both valves written (R117) -/

theorem storedCommand_proportional {o : Output} (ho : o.onOff = false) (c : Image) (v : Nat) :
    storedCommand c o v = min v (c.maxima.get o) :=
  if_neg (by simp [ho])

section
variable (hrv hlv : Nat) (s : State)

theorem touches_setValves : Touches [.vdb, .htc] s (setValves hrv hlv s) := by
  have hset (x : Htc) : Touches [.vdb, .htc] s (s.withHtc x) := (touches_withHtc s x).mono (by decide)
  exact touches_ite _ (also (also (hset _) (touches_writeCommand _ _ _)) (touches_writeCommand _ _ _))
    (also (also (hset _) (touches_writeCommand _ _ _)) (touches_writeCommand _ _ _))

theorem setValves_htc : (setValves hrv hlv s).htc = { s.htc with hrv := hrv, hlv := hlv } := by
  have hwritten (o p : Output) (v w : Nat) (u : State) : (writeCommand o v (writeCommand p w u)).htc = u.htc :=
    ((touches_writeCommand p w u).then (touches_writeCommand o v _)) .htc (by decide)
  unfold setValves
  split <;> rw [hwritten] <;> rfl

/-- Two writes to different outputs, each at its own command. -/
theorem two_writes {o p : Output} (hne : p ≠ o) (v w : Nat) (u : State) :
    ((writeCommand o v (writeCommand p w u)).out o).command = storedCommand u.cfg o v ∧
    ((writeCommand o v (writeCommand p w u)).out p).command = storedCommand u.cfg p w ∧
    ∀ q : Output, q ≠ o → q ≠ p → (writeCommand o v (writeCommand p w u)).out q = u.out q := by
  have hcfg : (writeCommand p w u).cfg = u.cfg := touches_writeCommand p w u .cfg (by decide)
  refine ⟨?_, ?_, fun q ho hp => ?_⟩
  · rw [writeCommand_command, hcfg]
  · rw [(writeCommand_apart o v _).1 p hne, writeCommand_command]
  · rw [(writeCommand_apart o v _).1 q ho, (writeCommand_apart p w _).1 q hp]

theorem setValves_spec : ValvesAt hrv hlv (setValves hrv hlv s) ∧
    ∀ o : Output, o ≠ .hrv → o ≠ .hlv → (setValves hrv hlv s).out o = s.out o := by
  have hcfg : (setValves hrv hlv s).cfg = s.cfg := touches_setValves hrv hlv s .cfg (by decide)
  rw [ValvesAt, hcfg, ← storedCommand_proportional (o := .hrv) (by decide) s.cfg hrv,
    ← storedCommand_proportional (o := .hlv) (by decide) s.cfg hlv]
  obtain ⟨hl, hr, hrest⟩ := two_writes (o := .hlv) (p := .hrv) (by decide) hlv hrv
    (s.withHtc { s.htc with hrv := hrv, hlv := hlv })
  obtain ⟨hr', hl', hrest'⟩ := two_writes (o := .hrv) (p := .hlv) (by decide) hrv hlv
    (s.withHtc { s.htc with hrv := hrv, hlv := hlv })
  unfold setValves
  split
  · exact ⟨⟨hr, hl⟩, fun o h h' => hrest o h' h⟩
  · exact ⟨⟨hr', hl'⟩, fun o h h' => hrest' o h h'⟩

theorem setValves_at : ValvesAt hrv hlv (setValves hrv hlv s) := (setValves_spec hrv hlv s).1

end

theorem valves_closed {t : State} (h : ValvesAt 0 0 t) : (t.out .hrv).command = 0 ∧ (t.out .hlv).command = 0 := by
  simpa [ValvesAt] using h

/-! ## Changes of state (R118 to R123, R138) -/

section
variable (s : State)

theorem enterHeld_htc (cause : HoldCause) : (enterHeld cause s).htc = { s.htc with
    state := .held, overload := false, hrv := 0, hlv := 0
    holdCause := if s.htc.state = .held then s.htc.holdCause else some cause } := setValves_htc _ _ _

theorem touches_enterHeld (cause : HoldCause) : Touches [.vdb, .htc] s (enterHeld cause s) :=
  also ((touches_withHtc s _).mono (by decide)) (touches_setValves _ _ _)

/-- The current at which relief and a raise drive HRV (R131, R138). -/
def raiseCurrent (h : Htc) (full : Nat) : Nat := if atUpper h then 0 else full

theorem beginRelief_htc : (beginRelief s).htc = { s.htc with
    overload := true, mixed := none, hrv := raiseCurrent s.htc fullRaise, hlv := 0 } := setValves_htc _ _ _

theorem beginRelief_at : ValvesAt (raiseCurrent s.htc fullRaise) 0 (beginRelief s) := setValves_at _ _ _

theorem touches_beginRelief : Touches [.vdb, .htc] s (beginRelief s) :=
  also ((touches_withHtc s _).mono (by decide)) (touches_setValves _ _ _)

theorem enterRaising_htc : (enterRaising s).htc = { s.htc with
    state := .raising, holdCause := none, overload := false, hrv := fullRaise, hlv := 0 } := setValves_htc _ _ _

theorem touches_enterRaising : Touches [.vdb, .htc] s (enterRaising s) :=
  also ((touches_withHtc s _).mono (by decide)) (touches_setValves _ _ _)

/-- The state in WORKING, before its valves are written. -/
def workingBegun : State := s.withHtc { s.htc with state := .working, holdCause := none, overload := false }

theorem enterWorking_of_free {s : State} (h : pinsHigh s.htc = false) : enterWorking s = setValves 0 0 (workingBegun s) :=
  if_neg fun k : pinsHigh s.htc = true => by simp [h] at k

theorem enterWorking_of_high {s : State} (h : pinsHigh s.htc = true) : enterWorking s = beginRelief (workingBegun s) := if_pos h

theorem touches_enterWorking : Touches [.vdb, .htc] s (enterWorking s) := by
  have hset (x : Htc) : Touches [.vdb, .htc] s (s.withHtc x) := (touches_withHtc s x).mono (by decide)
  exact touches_ite _ ((hset _).trans (touches_beginRelief _)) ((hset _).trans (touches_setValves _ _ _))

/-- Entry to WORKING: both valves 0, or relief where a pin is high (R123, R138). -/
theorem enterWorking_spec : (enterWorking s).htc.state = .working ∧
    (enterWorking s).htc.lockReleased = s.htc.lockReleased ∧
    (pinsHigh s.htc = false → (enterWorking s).htc = { s.htc with
      state := .working, holdCause := none, overload := false, hrv := 0, hlv := 0 } ∧ ValvesAt 0 0 (enterWorking s)) ∧
    (pinsHigh s.htc = true → (enterWorking s).htc = { s.htc with
      state := .working, holdCause := none, overload := true, mixed := none, hrv := raiseCurrent s.htc fullRaise, hlv := 0 } ∧
      ValvesAt (raiseCurrent s.htc fullRaise) 0 (enterWorking s)) := by
  cases hpins : pinsHigh s.htc with
  | true =>
    rw [enterWorking_of_high hpins, beginRelief_htc]
    exact ⟨rfl, rfl, nofun, fun _ => ⟨rfl, beginRelief_at (workingBegun s)⟩⟩
  | false =>
    rw [enterWorking_of_free hpins, setValves_htc]
    exact ⟨rfl, rfl, fun _ => ⟨rfl, setValves_at _ _ _⟩, nofun⟩

theorem enterHitchFault_htc : (enterHitchFault s).htc = { s.htc with
    state := .faultHold, faultCause := some (hitchFaultCause s), holdCause := none, mixed := none
    overload := false, damping := false, hrv := 0, hlv := 0 } := setValves_htc _ _ _

theorem touches_enterHitchFault : Touches [.vdb, .htc] s (enterHitchFault s) :=
  also ((touches_withHtc s _).mono (by decide)) (touches_setValves _ _ _)

/-! ## The MC's stop order (R142) -/

theorem touches_hitchStopOrder : Touches [.vdb, .htc] s (hitchStopOrder s) :=
  touches_ite _ (touches_setValves _ _ _) (touches_enterHeld _ _)

theorem hitchStopOrder_spec : ValvesAt 0 0 (hitchStopOrder s) ∧
    (s.htc.state ≠ .faultHold → s.htc.state ≠ .held →
      (hitchStopOrder s).htc.state = .held ∧ (hitchStopOrder s).htc.holdCause = some .stop) := by
  by_cases hfault : s.htc.state = .faultHold
  · have horder : hitchStopOrder s = setValves 0 0 s := if_pos hfault
    exact ⟨horder ▸ setValves_at 0 0 s, fun h => absurd hfault h⟩
  · have horder : hitchStopOrder s = enterHeld .stop s := if_neg hfault
    refine ⟨horder ▸ setValves_at 0 0 _, fun _ hheld => ?_⟩
    rw [horder, enterHeld_htc]
    exact ⟨rfl, if_neg hheld⟩

end

end Sys2Proof.Proofs
end

