-- ==== Sys2Proof/Proofs/RunStopAndQuiet.lean ====
section
/-! PROOF. O53: the end of CALIBRATING (R209), the key-off with its orders to the controllers (R92, R142, R157, R177,
R210), and the quiet link (R203). -/

namespace Sys2Proof.Proofs

open Sys2Proof Sys2Proof.Machine

/-! ## The stop order to the trailer (R157) -/

section
variable (s : State)

/-- Only the trailer valves are commanded at an entry to a state without demand. -/
theorem enterIdle_command {st : TrailerState} {o : Output} (htcv : o ≠ .tcv) (htsv : o ≠ .tsv) :
    ((enterIdle st s).out o).command = (s.out o).command := by
  have hvdb (u : State) : (publish .trailer u).out o = u.out o :=
    out_of_vdb (touches_publish _ u .vdb (by decide)) o
  unfold enterIdle
  rw [hvdb, (writeTcv_apart _ 0).1 o htcv, (writeDemand_frame _).commands, (writeTsv_apart _).1 o htsv]
  rfl

theorem trailerStopOrder_spec : (trailerStopOrder s).tbc.stopOrder = true ∧
    (s.tbc.state ≠ .breakaway → (trailerStopOrder s).tbc.state = .parked) ∧
    (s.tbc.state.parks = true → (trailerStopOrder s).tbc.demand = 0 ∧ (trailerStopOrder s).tbc.correction = 0) ∧
    ∀ o : Output, o ≠ .tcv → o ≠ .tsv → ((trailerStopOrder s).out o).command = (s.out o).command := by
  cases hparks : s.tbc.state.parks with
  | true =>
    have horder : trailerStopOrder s = enterTrailerParked (s.withTbc { s.tbc with stopOrder := true }) := if_pos hparks
    rw [horder, enterTrailerParked_tbc]
    exact ⟨rfl, fun _ => rfl, fun _ => ⟨rfl, rfl⟩, fun o htcv htsv => enterIdle_command _ htcv htsv⟩
  | false =>
    have horder : trailerStopOrder s = s.withTbc { s.tbc with stopOrder := true } :=
      if_neg (show ¬ s.tbc.state.parks = true by simp [hparks])
    rw [horder]
    refine ⟨rfl, fun hne => ?_, nofun, fun _ _ _ => rfl⟩
    cases hstate : s.tbc.state
    case breakaway => exact absurd hstate hne
    case parked => exact hstate
    all_goals simp [hstate, TrailerState.parks] at hparks

theorem touches_trailerStopOrder : Touches [.vdb, .tbc, .lc] s (trailerStopOrder s) :=
  also ((touches_withTbc s _).mono (by decide)) (touches_trailerParkOrder _)

end

/-! ## The key-off (R210) -/

section
variable (s : State)

/-- The run aborted and the mode STOPPING, before the orders to the controllers. -/
def stopBegun : State :=
  setMode .stopping (abortRun .mode (s.withMc { s.mc with keyOffPending := false, step := .parkWait }))

theorem takeKeyOff_eq : takeKeyOff s = trailerStopOrder (hitchStopOrder (shcParkOrder (stopBegun s))) := rfl

theorem touches_stopBegun : Touches [.hsq, .lc, .mc] s (stopBegun s) :=
  also (also ((touches_withMc s _).mono (by decide)) (touches_abortRun _ _)) (touches_setMode _ _)

theorem stopBegun_mc : (stopBegun s).mc = { s.mc with mode := .stopping, keyOffPending := false, step := .parkWait } := by
  have habort : (abortRun .mode (s.withMc { s.mc with keyOffPending := false, step := .parkWait })).mc =
      { s.mc with keyOffPending := false, step := .parkWait } := touches_abortRun _ _ .mc (by decide)
  rw [stopBegun, setMode_mc, habort]

theorem stopBegun_hsq : (s.hsq.state = .running → (stopBegun s).hsq.state = .aborted ∧ (stopBegun s).hsq.cause = some .mode) ∧
    (s.hsq.state ≠ .running → (stopBegun s).hsq = s.hsq) := by
  have hmode : (stopBegun s).hsq =
      (abortRun .mode (s.withMc { s.mc with keyOffPending := false, step := .parkWait })).hsq :=
    touches_setMode _ _ .hsq (by decide)
  rw [hmode]
  refine ⟨fun h => abortRun_hsq (s := s.withMc { s.mc with keyOffPending := false, step := .parkWait }) h, fun h => ?_⟩
  rw [abortRun_of_idle (s := s.withMc { s.mc with keyOffPending := false, step := .parkWait }) h]
  rfl

theorem keyOffDue_of {s : State} (hmode : s.mc.mode = .operating) (hkey : s.mc.keyOffPending = true)
    (hstill : s.scu.motion.standstill = true) : exec .keyOffTaken s = .next (takeKeyOff s) := by
  have hdue : keyOffDue s = true := by simp [keyOffDue, hmode, hkey, hstill]
  exact congrArg Host.Outcome.next (if_pos hdue)

/-- The key-off with its orders to the controllers. -/
theorem takeKeyOff_spec : ∃ t : State, takeKeyOff s = t ∧ t.mc.mode = .stopping ∧
    t.mc.keyOffPending = false ∧ t.mc.step = .parkWait ∧ t.shc.parkOrder = true ∧
    (s.shc.state ≠ .parked → s.shc.state ≠ .faultHold → t.shc.state = .neutral ∧ t.shc.pendingPark = true) ∧
    (s.shc.state = .parked → t.shc.state = .parked) ∧
    (s.htc.state ≠ .faultHold → s.htc.state ≠ .held → t.htc.state = .held ∧ t.htc.holdCause = some .stop) ∧
    (t.out .hrv).command = 0 ∧ (t.out .hlv).command = 0 ∧ t.tbc.stopOrder = true ∧
    (s.tbc.state ≠ .breakaway → t.tbc.state = .parked) ∧
    (s.tbc.state.parks = true → t.tbc.demand = 0 ∧ t.tbc.correction = 0) ∧
    (s.hsq.state = .running → t.hsq.state = .aborted ∧ t.hsq.cause = some .mode) ∧
    (s.hsq.state ≠ .running → t.hsq = s.hsq) ∧ t.mc.faults = s.mc.faults ∧
    Touches [.vdb, .shc, .htc, .tbc, .hsq, .lc, .mc] s t := by
  refine ⟨_, rfl, ?_⟩
  rw [takeKeyOff_eq]
  have hbegun := touches_stopBegun s
  have hmc := stopBegun_mc s
  have hhsq := stopBegun_hsq s
  generalize stopBegun s = u at *
  obtain ⟨horder, hneutral, hparked, hshc⟩ := shcParkOrder_spec u
  generalize shcParkOrder u = v at *
  have hhitch := touches_hitchStopOrder v
  obtain ⟨hvalves, hheld⟩ := hitchStopOrder_spec v
  generalize hitchStopOrder v = w at *
  have htrailer := touches_trailerStopOrder w
  obtain ⟨hstop, hpark, hdemand, hcommand⟩ := trailerStopOrder_spec w
  obtain ⟨hhrv, hhlv⟩ := valves_closed hvalves
  rw [← hcommand .hrv (by decide) (by decide)] at hhrv
  rw [← hcommand .hlv (by decide) (by decide)] at hhlv
  generalize trailerStopOrder w = t at *
  have hlate : Touches [.vdb, .shc, .htc, .tbc, .lc] u t :=
    also (also (hshc.mono (by decide)) hhitch) htrailer
  have hushc : u.shc = s.shc := hbegun .shc (by decide)
  have htshc : t.shc = v.shc := ((hhitch.mono (m := [.vdb, .htc, .tbc, .lc]) (by decide)).trans (htrailer.mono (by decide))) .shc
    (by decide)
  have hvhtc : v.htc = s.htc := ((hbegun.mono (m := [.vdb, .shc, .hsq, .lc, .mc]) (by decide)).trans
    (hshc.mono (by decide))) .htc (by decide)
  have hwtbc : w.tbc = s.tbc := ((hbegun.mono (m := [.vdb, .shc, .htc, .hsq, .lc, .mc]) (by decide)).trans
    ((hshc.mono (by decide)).trans (hhitch.mono (by decide)))) .tbc (by decide)
  have hthtc : t.htc = w.htc := htrailer .htc (by decide)
  have htmc : t.mc = u.mc := hlate .mc (by decide)
  have hthsq : t.hsq = u.hsq := hlate .hsq (by decide)
  rw [htmc, hmc, htshc, hthtc, hthsq, ← hushc, ← hvhtc, ← hwtbc]
  exact ⟨rfl, rfl, rfl, horder, hneutral, hparked, hheld, hhrv, hhlv, hstop, hpark, hdemand, hhsq.1, hhsq.2, rfl,
    (hbegun.mono (by decide)).trans (hlate.mono (by decide))⟩

end

/-! ## The quiet order (R203, R210) -/

section
variable {s : State}

/-- The notice made and the link quiet. -/
def quietBegun (s : State) : State :=
  (publish .quietNotice s).withLc { (publish .quietNotice s).lc with quiet := true, quietTimer := some 0 }

theorem quietBegun_link (s : State) : (quietBegun s).lc.link = s.lc.link := by
  have hlink : (publish .quietNotice s).lc.link = s.lc.link := by rw [publish_lc]
  exact hlink

theorem quietOrder_of_active (h : s.lc.link = .active) : quietOrder s = quietBegun s := by
  have hlink : (quietBegun s).lc.link = .active := (quietBegun_link s).trans h
  exact if_pos hlink

theorem quietOrder_of_other (h : s.lc.link ≠ .active) : quietOrder s = reportQuiet (quietBegun s) := by
  exact if_neg fun k : (quietBegun s).lc.link = .active => h ((quietBegun_link s).symm.trans k)

theorem touches_quietBegun (s : State) : Touches [.lc] s (quietBegun s) := also (touches_publish _ s) (touches_withLc _ _)

theorem quietBegun_supplyOf (s : State) (x : Supply) : (quietBegun s).supplyOf x = s.supplyOf x := by
  have hvdb : (quietBegun s).vdb = s.vdb := touches_quietBegun s .vdb (by decide)
  rw [State.supplyOf, State.supplyOf, hvdb]

theorem exec_quietOrder (hmode : s.mc.mode = .stopping) (hstep : s.mc.step = .parkWait) (hparked : s.shc.state = .parked) :
    exec .quietOrder s = .next (quietOrder (setStep .quietWait s)) := by
  have hdue : quietDue s = true := by simp [quietDue, hmode, hstep, hparked]
  exact congrArg Host.Outcome.next (if_pos hdue)

theorem exec_quietTimeout {q : Nat} (hq : s.lc.quietTimer = some q) (hlong : 200000 ≤ q) :
    exec .quietTimeout s = .next (reportQuiet s) := by
  have hover : quietOver s = true := by
    rw [quietOver, hq]
    exact decide_eq_true hlong
  exact congrArg Host.Outcome.next (if_pos hover)

/-- A notice is made on an ACTIVE link with room in its queue. -/
theorem notice_queued (hmode : s.mc.mode = .stopping) (hlink : s.lc.link = .active) (hquiet : s.lc.quiet = false)
    (hroom : s.lc.queue.length < 8) : ∃ e ∈ (quietBegun s).lc.queue, e.group = .quietNotice := by
  have hallow : modeAllows s.mc.mode s.lc.quiet .quietNotice = true := by
    rw [hmode, hquiet]
    rfl
  exact mem_group_publish (mayMake_of_active hlink hallow) hroom

end

/-- Settles O53. -/
theorem runStopAndQuiet : Obligations.RunStopAndQuiet := by
  intro s
  refine ⟨fun hmode hwindow hvsb hcal => ?calibrated, fun hmode hkey hstill => ?keyOff,
    fun hmode hstep hparked => ?quiet, fun ⟨q, hq, hlong⟩ => ?timeout⟩
  case calibrated =>
    have hover := (calibratingOver_iff s).mpr ⟨hmode, hwindow, hvsb, hcal⟩
    refine ⟨enterOperating s, (exec_calibratingComplete s).trans (congrArg Host.Outcome.next (if_pos hover)), ?_, ?_,
      enterOperating_shc s, ?_, touches_enterOperating s⟩
    all_goals rw [enterOperating_mc]
  case keyOff =>
    obtain ⟨t, ht, hspec⟩ := takeKeyOff_spec s
    exact ⟨t, (keyOffDue_of hmode hkey hstill).trans (congrArg Host.Outcome.next ht), hspec⟩
  case quiet =>
    have hexec := exec_quietOrder hmode hstep hparked
    have hwait : (setStep .quietWait s).mc.step = .quietWait := rfl
    have hset := touches_setStep .quietWait s
    have hbegun := touches_quietBegun (setStep .quietWait s)
    have hsteps : (quietBegun (setStep .quietWait s)).mc.step = .quietWait :=
      congrArg Mc.step (hbegun .mc (by decide))
    by_cases hlink : s.lc.link = .active
    · rw [quietOrder_of_active (s := setStep .quietWait s) hlink] at hexec
      have hvdb : (quietBegun (setStep .quietWait s)).vdb = s.vdb := hbegun .vdb (by decide)
      exact ⟨_, hexec, rfl, fun _ => ⟨hsteps, rfl, hvdb, fun hquiet hroom =>
        notice_queued (s := setStep .quietWait s) hmode hlink hquiet hroom⟩, fun h => absurd hlink h,
        also (hset.mono (by decide)) hbegun⟩
    · rw [quietOrder_of_other (s := setStep .quietWait s) hlink] at hexec
      have hlc := reportQuiet_lc (quietBegun (setStep .quietWait s))
      refine ⟨_, hexec, by rw [hlc]; rfl, fun h => absurd h hlink, fun _ => ⟨?_, by rw [hlc], fun hvsb => ?_⟩,
        also (also (hset.mono (by decide)) hbegun) (touches_reportQuiet _)⟩
      · rw [reportQuiet_mc_of_waiting hsteps]
      · exact (reportQuiet_falls hsteps (by rw [quietBegun_supplyOf]; exact hvsb)).1
  case timeout =>
    refine ⟨_, exec_quietTimeout hq hlong, reportQuiet_lc s, fun hwait => ⟨reportQuiet_mc_of_waiting hwait, fun hvsb => ?_⟩,
      fun hother => ?_, touches_reportQuiet s⟩
    · obtain ⟨hfalling, hout⟩ := reportQuiet_falls hwait hvsb
      exact ⟨hfalling, hout .hrv rfl, hout .tcv rfl⟩
    · rw [reportQuiet_of_other hother]
      exact touches_withLc s _

end Sys2Proof.Proofs
end

