-- ==== Sys2Proof/Proofs/SwitchEdges.lean ====
section
/-! PROOF. O39: the cab's switch edges in each state of the hitch (R123, R138). -/

namespace Sys2Proof.Proofs

open Sys2Proof Sys2Proof.Machine

/-! ## The raise current (R131, R138) -/

theorem raiseCurrent_eq (h : Htc) (full : Nat) :
    raiseCurrent h full = if (h.cab.upper : Int) ≤ h.position then 0 else full := by
  unfold raiseCurrent atUpper
  by_cases hup : (h.cab.upper : Int) ≤ h.position
  · rw [if_pos (decide_eq_true hup), if_pos hup]
  · rw [if_neg hup, decide_eq_false hup]
    rfl

/-- A full raise, clamped to the output's maximum. -/
theorem raise_clamped (h : Htc) (full maximum : Nat) :
    min (raiseCurrent h full) maximum = if (h.cab.upper : Int) ≤ h.position then 0 else min full maximum := by
  rw [raiseCurrent_eq]
  split <;> simp

theorem pinsHigh_false_iff {h : Htc} : pinsHigh h = false ↔ h.pinLeft = false ∧ h.pinRight = false := by
  simp [pinsHigh]

theorem pinsHigh_iff {h : Htc} : pinsHigh h = true ↔ h.pinLeft = true ∨ h.pinRight = true := by simp [pinsHigh]

/-! ## The edges (R123) -/

section
variable {s : State}

/-- The record with lock released, where START_LOCK is left (R118). -/
def lockLeft (s : State) : State :=
  if s.htc.state = .startLock then s.withHtc { s.htc with lockReleased := true } else s

theorem lockLeft_spec (s : State) : Touches [.htc] s (lockLeft s) ∧
    (lockLeft s).htc = { s.htc with lockReleased := s.htc.lockReleased || s.htc.state == .startLock } ∧
    (lockLeft s).cfg = s.cfg := by
  unfold lockLeft
  by_cases h : s.htc.state = .startLock
  · rw [if_pos h]
    refine ⟨touches_withHtc s _, ?_, rfl⟩
    simp [h]
  · rw [if_neg h]
    have hsame : (s.htc.lockReleased || s.htc.state == .startLock) = s.htc.lockReleased := by simp [h]
    rw [hsame]
    exact ⟨.refl _ s, rfl, rfl⟩

theorem hitchUp_of_takes (h : s.htc.state = .startLock ∨ s.htc.state = .held ∨ s.htc.state = .working) :
    hitchUp s = enterRaising (lockLeft s) := by
  unfold hitchUp lockLeft
  rcases h with h | h | h <;> simp [h]

theorem hitchUp_of_other (h : s.htc.state = .raising ∨ s.htc.state = .transport ∨ s.htc.state = .fender ∨
    s.htc.state = .faultHold) : hitchUp s = s := by
  unfold hitchUp
  rcases h with h | h | h | h <;> rw [h]

theorem hitchDown_of_takes (h : s.htc.state = .startLock ∨ s.htc.state = .held ∨ s.htc.state = .raising ∨
    s.htc.state = .transport) : hitchDown s = enterWorking (lockLeft s) := by
  unfold hitchDown lockLeft
  rcases h with h | h | h | h <;> simp [h]

theorem hitchDown_of_other (h : s.htc.state = .working ∨ s.htc.state = .fender ∨ s.htc.state = .faultHold) :
    hitchDown s = s := by
  unfold hitchDown
  rcases h with h | h | h <;> rw [h]

theorem touches_hitchUp (s : State) : Touches [.vdb, .htc] s (hitchUp s) := by
  cases hstate : s.htc.state
  case startLock | held | working =>
    rw [hitchUp_of_takes (by simp [hstate])]
    exact ((lockLeft_spec s).1.mono (by decide)).trans (touches_enterRaising _)
  all_goals
    rw [hitchUp_of_other (by simp [hstate])]
    exact .refl _ s

theorem touches_hitchDown (s : State) : Touches [.vdb, .htc] s (hitchDown s) := by
  cases hstate : s.htc.state
  case startLock | held | raising | transport =>
    rw [hitchDown_of_takes (by simp [hstate])]
    exact ((lockLeft_spec s).1.mono (by decide)).trans (touches_enterWorking _)
  all_goals
    rw [hitchDown_of_other (by simp [hstate])]
    exact .refl _ s

theorem hitchSwitch_of_operating (up : Bool) (h : s.mc.mode = .operating) :
    hitchSwitch up s = if up = true then hitchUp s else hitchDown s := if_pos h

theorem hitchSwitch_of_other (up : Bool) (h : s.mc.mode ≠ .operating) : hitchSwitch up s = s := if_neg h

theorem touches_hitchSwitch (up : Bool) (s : State) : Touches [.vdb, .htc] s (hitchSwitch up s) :=
  touches_ite _ (touches_ite _ (touches_hitchUp s) (touches_hitchDown s)) (.refl _ s)

/-- An UP edge that acts: RAISING, with HRV at the full raise. -/
theorem hitchUp_spec (h : s.htc.state = .startLock ∨ s.htc.state = .held ∨ s.htc.state = .working) :
    (hitchUp s).htc.state = .raising ∧ (hitchUp s).htc.holdCause = none ∧ (hitchUp s).htc.overload = false ∧
    (hitchUp s).htc.lockReleased = (s.htc.lockReleased || s.htc.state == .startLock) ∧
    ((hitchUp s).out .hlv).command = 0 ∧ ((hitchUp s).out .hrv).command = min 1200 (s.cfg.maxima.get .hrv) := by
  obtain ⟨htouches, hlock, hcfg⟩ := lockLeft_spec s
  have hcfg' : (hitchUp s).cfg = s.cfg := touches_hitchUp s .cfg (by decide)
  rw [hitchUp_of_takes h] at hcfg' ⊢
  obtain ⟨hraise, hlower⟩ : ValvesAt fullRaise 0 (enterRaising (lockLeft s)) := setValves_at _ _ _
  rw [hcfg'] at hraise
  rw [Nat.zero_min] at hlower
  rw [enterRaising_htc, hlock]
  exact ⟨rfl, rfl, rfl, rfl, hlower, hraise⟩

/-- A DOWN edge that acts: WORKING, with both valves at 0, or with relief where a pin is high. -/
theorem hitchDown_spec (h : s.htc.state = .startLock ∨ s.htc.state = .held ∨ s.htc.state = .raising ∨
    s.htc.state = .transport) : (hitchDown s).htc.state = .working ∧ (hitchDown s).htc.holdCause = none ∧
    (hitchDown s).htc.lockReleased = (s.htc.lockReleased || s.htc.state == .startLock) ∧
    (s.htc.pinLeft = false → s.htc.pinRight = false → (hitchDown s).htc.overload = false ∧
      ((hitchDown s).out .hrv).command = 0 ∧ ((hitchDown s).out .hlv).command = 0) ∧
    (s.htc.pinLeft = true ∨ s.htc.pinRight = true → (hitchDown s).htc.overload = true ∧
      ((hitchDown s).out .hlv).command = 0 ∧ ((hitchDown s).out .hrv).command =
        if (s.htc.cab.upper : Int) ≤ s.htc.position then 0 else min 1200 (s.cfg.maxima.get .hrv)) := by
  obtain ⟨htouches, hlock, hcfg⟩ := lockLeft_spec s
  have hcfg' : (hitchDown s).cfg = s.cfg := touches_hitchDown s .cfg (by decide)
  have hpins : pinsHigh (lockLeft s).htc = pinsHigh s.htc := by rw [hlock]; rfl
  have hraise : raiseCurrent (lockLeft s).htc fullRaise = raiseCurrent s.htc fullRaise := by rw [hlock]; rfl
  rw [hitchDown_of_takes h] at hcfg' ⊢
  obtain ⟨hstate, hreleased, hfree, hhigh⟩ := enterWorking_spec (lockLeft s)
  rw [hlock] at hreleased
  rw [hpins] at hfree hhigh
  cases hp : pinsHigh s.htc with
  | true =>
    obtain ⟨hhtc, hvalves⟩ := hhigh hp
    obtain ⟨hhrv, hhlv⟩ := hvalves
    rw [Nat.zero_min] at hhlv
    rw [hcfg', hraise, raise_clamped] at hhrv
    refine ⟨hstate, by rw [hhtc], hreleased, fun hl hr => ?_, fun _ => ⟨by rw [hhtc], hhlv, hhrv⟩⟩
    rw [pinsHigh_false_iff.mpr ⟨hl, hr⟩] at hp
    cases hp
  | false =>
    obtain ⟨hhtc, hvalves⟩ := hfree hp
    refine ⟨hstate, by rw [hhtc], hreleased, fun _ _ => ⟨by rw [hhtc], valves_closed hvalves⟩, fun hpin => ?_⟩
    rw [pinsHigh_iff.mpr hpin] at hp
    cases hp

theorem exec_switch {c : Instr} {up : Bool} {rest : List Request}
    (hc : (c = .switchUp ∧ up = true) ∨ (c = .switchDown ∧ up = false))
    (h : OldestRequest Request.isSwitch (.hitchSwitch up) rest s) (hm : s.mc.mode.controllersRun = true) :
    exec c s = .next (notice usesHitch (hitchSwitch up (s.withRequests rest))) := by
  have htake : takeSwitch up s = some (s.withRequests rest) := by simp [takeSwitch, takeRequest_oldest h]
  have hrun : cabSwitch up (s.withRequests rest) = notice usesHitch (hitchSwitch up (s.withRequests rest)) := if_pos hm
  rcases hc with ⟨rfl, rfl⟩ | ⟨rfl, rfl⟩
  · simp only [exec, execSwitchUp, htake, hrun]
  · simp only [exec, execSwitchDown, htake, hrun]

end

/-- Settles O39. -/
theorem hitchSwitchEdges : Obligations.HitchSwitchEdges := by
  intro c up rest s hc hrequest hruns
  have hexec := exec_switch hc hrequest hruns
  have hswitch := touches_hitchSwitch up (s.withRequests rest)
  have hnotice := touches_notice usesHitch (hitchSwitch up (s.withRequests rest))
  have hhtc : (notice usesHitch (hitchSwitch up (s.withRequests rest))).htc =
      (hitchSwitch up (s.withRequests rest)).htc := hnotice .htc (by decide)
  have hvdb : (notice usesHitch (hitchSwitch up (s.withRequests rest))).vdb =
      (hitchSwitch up (s.withRequests rest)).vdb := hnotice .vdb (by decide)
  have hout (o : Output) := out_of_vdb hvdb o
  refine ⟨_, hexec, ?_, also (also ((touches_withRequests s rest).mono (by decide)) hswitch) hnotice, fun hmode => ?_,
    fun hidle => ?_, fun hmode hup => ?_, fun hmode hup => ?_⟩
  · exact (hnotice .requests (by decide)).trans (hswitch .requests (by decide))
  · have hsame := hitchSwitch_of_other (s := s.withRequests rest) up (by simp [hmode])
    rw [hhtc, hvdb, hsame]
    exact ⟨rfl, rfl⟩
  · have hhsq : (hitchSwitch up (s.withRequests rest)).hsq = s.hsq := hswitch .hsq (by decide)
    rw [notice_of_idle (.inr (by rwa [hhsq])), hhsq]
  · have hact : hitchSwitch up (s.withRequests rest) = hitchUp (s.withRequests rest) :=
      (hitchSwitch_of_operating (s := s.withRequests rest) up hmode).trans (if_pos hup)
    rw [hhtc, hvdb, hout, hout, hact]
    refine ⟨fun h => hitchUp_spec (s := s.withRequests rest) h, fun h => ?_⟩
    rw [hitchUp_of_other (s := s.withRequests rest) h]
    exact ⟨rfl, rfl⟩
  · have hact : hitchSwitch up (s.withRequests rest) = hitchDown (s.withRequests rest) :=
      (hitchSwitch_of_operating (s := s.withRequests rest) up hmode).trans (if_neg (by simp [hup]))
    rw [hhtc, hvdb, hout, hout, hact]
    refine ⟨fun h => hitchDown_spec (s := s.withRequests rest) h, fun h => ?_⟩
    rw [hitchDown_of_other (s := s.withRequests rest) h]
    exact ⟨rfl, rfl⟩

end Sys2Proof.Proofs
end

