-- ==== Sys2Proof/Proofs/HitchSteps.lean ====
section
/-! SUPPORT. The steps of the hitch's control interval (R116): what it reads of the SFE and of the cab, the tests for faults
and lost sources, the fender buttons, and what the state then does with the valves. -/

namespace Sys2Proof.Proofs

open Sys2Proof Sys2Proof.Machine

/-! ## Faulted outputs (R49) -/

theorem faulted_eq (v : Vdb) (o : Output) : v.faulted o = ((v.outs.get o).short == .latched ||
    (v.powered o && ((v.outs.get o).short == .retry || (v.outs.get o).openFlag))) := by
  unfold Vdb.faulted Vdb.reported
  dsimp only
  generalize v.outs.get o = r
  cases hshort : r.short <;> cases v.powered o <;> cases hopen : r.openFlag <;> by_cases hoff : r.target = 0 <;>
    simp [OutState.faulted, hoff]

/-- A command leaves what makes an output faulted. -/
theorem writeCommand_faulted (o p : Output) (v : Nat) (s : State) :
    (writeCommand o v s).vdb.faulted p = s.vdb.faulted p := by
  by_cases hsame : storedCommand s.cfg o v = (s.out o).command
  · rw [writeCommand_of_same hsame]
  obtain ⟨-, -, hopen, hshort, -, -⟩ := redrive_keeps o { s.out o with command := storedCommand s.cfg o v } s
  obtain ⟨hothers, hsupplies, -⟩ := writeCommand_apart o v s
  rw [← writeCommand_of_new hsame] at hopen hshort
  have hrecord : ((writeCommand o v s).vdb.outs.get p).short = (s.vdb.outs.get p).short ∧
      ((writeCommand o v s).vdb.outs.get p).openFlag = (s.vdb.outs.get p).openFlag := by
    by_cases hp : p = o
    · subst hp
      exact ⟨hshort, hopen⟩
    · have hother : (writeCommand o v s).vdb.outs.get p = s.vdb.outs.get p := hothers p hp
      rw [hother]
      exact ⟨rfl, rfl⟩
  have hpowered : (writeCommand o v s).vdb.powered p = s.vdb.powered p := by
    rw [Vdb.powered, Vdb.powered, hsupplies]
  rw [faulted_eq, faulted_eq, hrecord.1, hrecord.2, hpowered]

theorem setValves_faulted (hrv hlv : Nat) (s : State) : (setValves hrv hlv s).hitchFaulted = s.hitchFaulted := by
  unfold setValves
  split <;> simp only [State.hitchFaulted, writeCommand_faulted] <;> rfl

/-! ## Inputs (R116, R122, R130, R136, R137) -/

/-- What the first two steps of an interval write. -/
structure HitchInputs where
  position : Int
  posValid : Bool
  draft : Int
  draftValid : Bool
  pinLeft : Bool
  pinRight : Bool
  pinFailed : Bool
  cab : CabValues
  cabFresh : Bool
  leverRef : Option Nat
  slipOn : Bool
  slipSource : ModeSource
  cabSlipSeen : Option Bool

/-- The inputs an HTC record holds. -/
def hitchInputs (h : Htc) : HitchInputs :=
  ⟨h.position, h.posValid, h.draft, h.draftValid, h.pinLeft, h.pinRight, h.pinFailed, h.cab, h.cabFresh, h.leverRef,
    h.slipOn, h.slipSource, h.cabSlipSeen⟩

section
variable (s : State)

/-- The record after the first step. -/
def hitchRead : Htc := { s.htc.read s with pinFailed := pinsFailed s }

theorem readHitch_spec : (readHitch s).htc = hitchRead s ∧ Touches [.htc, .mc] s (readHitch s) ∧
    (readHitch s).mc.mode = s.mc.mode := by
  have hset := touches_withHtc s (s.htc.read s)
  refine ⟨?_, ?_, ?_⟩
  · unfold readHitch testDraftFault hitchRead
    dsimp only
    split
    · rfl
    · split <;> rfl
  · unfold readHitch testDraftFault
    refine also (m := [.htc]) ?_ (touches_withHtc _ _)
    exact touches_ite _ (also (hset.mono (by decide)) (touches_raise _ _))
      (touches_ite _ (also (hset.mono (by decide)) (touches_clearFault _ _)) (hset.mono (by decide)))
  · unfold readHitch testDraftFault
    dsimp only
    split
    · rfl
    · split <;> rfl

theorem pinsFailed_iff : pinsFailed s = true ↔ s.sfe.chans.drl.state = .failed ∨ s.sfe.chans.drr.state = .failed := by
  simp [pinsFailed]

theorem pinsValid_iff : pinsValid s = true ↔ s.sfe.chans.drl.state = .valid ∧ s.sfe.chans.drr.state = .valid := by
  simp [pinsValid]

/-- DRAFT_UNAVAILABLE at an interval (R136). -/
theorem readHitch_mc : (pinsFailed s = true → s.htc.pinFailed = false → (readHitch s).mc = (raise .draftUnavailable s).mc) ∧
    (pinsValid s = true → (readHitch s).mc = (clearFault .draftUnavailable s).mc) ∧
    (pinsValid s = false → pinsFailed s = false ∨ s.htc.pinFailed = true → (readHitch s).mc = s.mc) := by
  have hfailed : pinsFailed (s.withHtc (s.htc.read s)) = pinsFailed s := rfl
  have hvalid : pinsValid (s.withHtc (s.htc.read s)) = pinsValid s := rfl
  have hseen : (s.withHtc (s.htc.read s)).htc.pinFailed = s.htc.pinFailed := rfl
  have hmc : (s.withHtc (s.htc.read s)).mc = s.mc := rfl
  unfold readHitch testDraftFault
  dsimp only
  rw [hfailed, hvalid, hseen]
  generalize s.withHtc (s.htc.read s) = u at *
  refine ⟨fun h1 h2 => ?_, fun h => ?_, fun h1 h2 => ?_⟩
  · rw [if_pos (by simp [h1, h2])]
    exact raise_mc_congr _ hmc
  · obtain ⟨hl, hr⟩ := (pinsValid_iff s).mp h
    have hnone : pinsFailed s = false := by simp [pinsFailed, hl, hr]
    rw [if_neg (by simp [hnone]), if_pos h]
    exact clearFault_mc_congr _ hmc
  · rw [if_neg (by rcases h2 with h2 | h2 <;> simp [h2]), if_neg (by simp [h1])]
    exact hmc

/-! ### The cab's record (R122, R130) -/

/-- The lever reference after an interval with a FRESH record. -/
def leverRefAfter (h : Htc) (lever : Nat) : Option Nat :=
  match h.leverRef with
  | some ref => if h.cabFresh && !leverMoved ref lever then some ref else some lever
  | none => some lever

/-- A lever change of a FRESH record, FRESH at the interval before too. -/
def leverChanged (h : Htc) (lever : Nat) : Bool :=
  match h.leverRef with
  | some ref => h.cabFresh && leverMoved ref lever
  | none => false

/-- The cab's fields filed, with the lever reference. -/
def cabFiled (f : CabHitchFields) : State := s.withHtc { s.htc with
  cab := cabValuesOf f, cabFresh := true, leverRef := leverRefAfter s.htc (cabValuesOf f).lever }

theorem actLever_eq (s : State) : actLever s =
    if s.htc.state = .held ∧ leverReleases s.htc.holdCause = true ∧ s.mc.mode ≠ .stopping then enterWorking s else s :=
  rfl

theorem testLever_eq (f : CabHitchFields) : testLever s.htc.cabFresh
    (s.withHtc { s.htc with cab := cabValuesOf f, cabFresh := true }) =
    if leverChanged s.htc (cabValuesOf f).lever = true then actLever (cabFiled s f) else cabFiled s f := by
  unfold testLever leverChanged cabFiled leverRefAfter
  dsimp only [State.withHtc_htc]
  rcases s.htc.leverRef with _ | ref
  · rfl
  dsimp only
  cases s.htc.cabFresh with
  | false => rfl
  | true =>
    by_cases hmoved : leverMoved ref (cabValuesOf f).lever = true
    · simp only [hmoved]
      rfl
    · rw [Bool.not_eq_true] at hmoved
      simp only [hmoved]
      rfl

/-- The slip control field taken. -/
def slipTaken : State := s.withHtc { s.htc with
  cabSlipSeen := some s.htc.cab.slipControl
  slipOn := if s.htc.cabSlipSeen = some s.htc.cab.slipControl then s.htc.slipOn else s.htc.cab.slipControl
  slipSource := if s.htc.cabSlipSeen = some s.htc.cab.slipControl then s.htc.slipSource else .cab }

theorem testSlipField_eq : testSlipField s = slipTaken s := by
  unfold testSlipField slipTaken
  by_cases h : s.htc.cabSlipSeen = some s.htc.cab.slipControl
  · rw [if_pos h, if_pos h, if_pos h, ← h]
    rfl
  · rw [if_neg h, if_neg h, if_neg h]

/-- A lever change releases the hitch (R121). -/
def leverFrees (f : CabHitchFields) : Bool := leverChanged s.htc (cabValuesOf f).lever && (s.htc.state == .held &&
  leverReleases s.htc.holdCause && s.mc.mode != .stopping)

theorem takeCabHitch_of_current {s : State} {f : CabHitchFields} (h : s.lc.cabHitch.current = some f) :
    takeCabHitch s = slipTaken (if leverFrees s f = true then enterWorking (cabFiled s f) else cabFiled s f) := by
  have hact : actLever (cabFiled s f) = if s.htc.state = .held ∧ leverReleases s.htc.holdCause = true ∧
      s.mc.mode ≠ .stopping then enterWorking (cabFiled s f) else cabFiled s f := actLever_eq (cabFiled s f)
  have htake : takeCabHitch s = testSlipField (testLever s.htc.cabFresh
      (s.withHtc { s.htc with cab := cabValuesOf f, cabFresh := true })) := by
    unfold takeCabHitch
    rw [h]
  rw [htake, testLever_eq, testSlipField_eq, hact, leverFrees]
  congr 1
  cases leverChanged s.htc (cabValuesOf f).lever with
  | false => rfl
  | true => simp [and_assoc]

theorem takeCabHitch_of_none {s : State} (h : s.lc.cabHitch.current = none) :
    takeCabHitch s = s.withHtc { s.htc with cabFresh := false } := by
  unfold takeCabHitch
  rw [h]

theorem touches_takeCabHitch : Touches [.vdb, .htc] s (takeCabHitch s) := by
  have hset (u : State) (x : Htc) : Touches [.vdb, .htc] u (u.withHtc x) := (touches_withHtc u x).mono (by decide)
  rcases h : s.lc.cabHitch.current with _ | f
  · rw [takeCabHitch_of_none h]
    exact hset s _
  · rw [takeCabHitch_of_current h]
    exact (touches_ite _ ((hset s _).trans (touches_enterWorking _)) (hset s _)).trans (hset _ _)

end

/-! ## Faults and lost sources (R119, R120, R124 to R126) -/

section
variable {s : State}

theorem hitchFaultTest_of_sound (hpos : s.htc.posValid = true) (hvalves : s.hitchFaulted = false)
    (hstate : s.htc.state ≠ .faultHold) : hitchFaultTest s = s := by
  have hdue : hitchFaultDue s = false := by simp [hitchFaultDue, hpos, hvalves]
  rw [hitchFaultTest, if_neg hstate, hdue]
  rfl

theorem hitchFaultTest_of_left (hpos : s.htc.posValid = true) (hvalves : s.hitchFaulted = false)
    (hstate : s.htc.state = .faultHold) : hitchFaultTest s = leaveHitchFault s := by
  have hdue : hitchFaultDue s = false := by simp [hitchFaultDue, hpos, hvalves]
  rw [hitchFaultTest, if_pos hstate, hdue]
  rfl

theorem touches_leaveHitchFault (s : State) : Touches [.htc] s (leaveHitchFault s) :=
  touches_ite _ ((touches_withHtc s _).trans (touches_withHtc _ _))
    (touches_ite _ ((touches_withHtc s _).trans (touches_withHtc _ _)) ((touches_withHtc s _).trans (touches_withHtc _ _)))

theorem cabLossTest_of_kept (h : s.lc.cabHitch.isFresh = true ∨
    (s.htc.state ≠ .working ∧ s.htc.state ≠ .raising ∧ s.htc.state ≠ .transport)) : cabLossTest s = s := by
  refine if_neg ?_
  rcases h with h | ⟨h1, h2, h3⟩
  · simp [h]
  · simp [h1, h2, h3]

theorem cabLossTest_of_lost (h : s.lc.cabHitch.isFresh = false)
    (hstate : s.htc.state = .working ∨ s.htc.state = .raising ∨ s.htc.state = .transport) :
    cabLossTest s = enterHeld .cabLost s := by
  refine if_pos ?_
  rcases hstate with hstate | hstate | hstate <;> simp [h, hstate]

/-- The source of the depth and the depth (R125, R126). -/
def chosenDepth (s : State) : DepthSource × Nat :=
  match implementDepth s with
  | some c => (.implement, c)
  | none => (.cab, s.htc.cab.lever)

/-- The source chosen. -/
def sourceChosen (s : State) : State :=
  s.withHtc { s.htc with source := (chosenDepth s).1, depth := (chosenDepth s).2 }

/-- An implement that was the source of a hitch in WORKING and is no longer FRESH (R125). -/
def sourceLost (s : State) : Bool :=
  s.htc.source == .implement && s.htc.state == .working && !s.lc.implement.isFresh

theorem sourceTest_eq (s : State) :
    sourceTest s = sourceChosen (if sourceLost s = true then enterHeld .sourceLost s else s) := by
  unfold sourceTest sourceChosen chosenDepth sourceLost
  dsimp only
  generalize (if (s.htc.source == .implement && s.htc.state == .working && !s.lc.implement.isFresh) = true then
    enterHeld .sourceLost s else s) = u
  cases implementDepth u <;> rfl

theorem sourceTest_of_kept (h : s.htc.source = .implement → s.htc.state = .working → s.lc.implement.isFresh = true) :
    sourceTest s = sourceChosen s := by
  rw [sourceTest_eq, if_neg fun k => ?_]
  simp only [sourceLost, Bool.and_eq_true, beq_iff_eq, Bool.not_eq_true'] at k
  obtain ⟨⟨hsource, hstate⟩, hstale⟩ := k
  simp [h hsource hstate] at hstale

theorem sourceTest_of_lost (hsource : s.htc.source = .implement) (hstate : s.htc.state = .working)
    (hstale : s.lc.implement.isFresh = false) : sourceTest s = sourceChosen (enterHeld .sourceLost s) := by
  rw [sourceTest_eq, if_pos (by simp [sourceLost, hsource, hstate, hstale])]

/-! ## Fender buttons (R127) -/

/-- The two lines read, and a refusal that released buttons clear. -/
def buttonsRead (s : State) : State := s.withHtc { s.htc with
  left := s.htc.left.read s.pins.fenderLeft, right := s.htc.right.read s.pins.fenderRight
  refused := if (s.htc.left.read s.pins.fenderLeft).settled = some false ∧
    (s.htc.right.read s.pins.fenderRight).settled = some false then false else s.htc.refused }

/-- The presses of an interval. -/
def presses (s : State) : List Bool :=
  [s.htc.left.pressed (s.htc.left.read s.pins.fenderLeft),
    s.htc.right.pressed (s.htc.right.read s.pins.fenderRight)].filter id

theorem settleFenders_eq (s : State) : settleFenders s = (presses s).foldl (fun u _ => pressFender u) (buttonsRead s) := by
  unfold settleFenders presses
  dsimp only
  congr 1
  unfold bothReleased buttonsRead
  by_cases h : (s.htc.left.read s.pins.fenderLeft).settled = some false ∧
      (s.htc.right.read s.pins.fenderRight).settled = some false
  · rw [if_pos h, if_pos (by simp [h.1, h.2])]
    rfl
  · rw [if_neg h, if_neg (by simpa using h)]

theorem settleFenders_of_noPress (h : NoPress s.pins.fenderLeft s.pins.fenderRight s.htc) :
    settleFenders s = buttonsRead s := by
  have hnone : presses s = [] := by simp [presses, h.1, h.2]
  rw [settleFenders_eq, hnone]
  rfl

theorem pressFender_of_fender (h : s.htc.state = .fender) : pressFender s = s := if_pos h

/-- A press is taken. -/
def fenderBegun (s : State) : State := s.withHtc { s.htc with
  state := .fender, lockReleased := true, overload := false, holdCause := none }

theorem pressFender_of_taken (hne : s.htc.state ≠ .fender) (hstill : s.scu.motion.standstill = true)
    (hmode : s.mc.mode = .operating) (htakes : s.htc.state.takesPress = true) : pressFender s = fenderBegun s := by
  rw [pressFender, if_neg hne]
  exact if_pos ⟨hstill, hmode, htakes⟩

/-- A press is refused. -/
def pressRefused (s : State) : State := s.withHtc { s.htc with refused := true }

theorem pressFender_of_refused (hne : s.htc.state ≠ .fender) (hno : s.scu.motion.standstill = false ∨
    s.mc.mode ≠ .operating ∨ s.htc.state.takesPress = false) : pressFender s = pressRefused s := by
  rw [pressFender, if_neg hne]
  refine if_neg fun ⟨hstill, hmode, htakes⟩ => ?_
  rcases hno with hno | hno | hno
  · simp [hno] at hstill
  · exact hno hmode
  · simp [hno] at htakes

theorem presses_of_press (h : ¬ NoPress s.pins.fenderLeft s.pins.fenderRight s.htc) :
    presses s = [true] ∨ presses s = [true, true] := by
  unfold NoPress at h
  unfold presses
  generalize s.htc.left.pressed (s.htc.left.read s.pins.fenderLeft) = a at *
  generalize s.htc.right.pressed (s.htc.right.read s.pins.fenderRight) = b at *
  revert h
  cases a <;> cases b <;> simp

/-- The presses of an interval that are taken. -/
theorem settleFenders_of_taken (hpress : ¬ NoPress s.pins.fenderLeft s.pins.fenderRight s.htc)
    (hne : s.htc.state ≠ .fender) (hstill : s.scu.motion.standstill = true) (hmode : s.mc.mode = .operating)
    (htakes : s.htc.state.takesPress = true) : settleFenders s = fenderBegun (buttonsRead s) := by
  have hfirst : pressFender (buttonsRead s) = fenderBegun (buttonsRead s) :=
    pressFender_of_taken (s := buttonsRead s) hne hstill hmode htakes
  have hmore : pressFender (fenderBegun (buttonsRead s)) = fenderBegun (buttonsRead s) := pressFender_of_fender rfl
  rw [settleFenders_eq]
  rcases presses_of_press hpress with h | h <;> rw [h]
  · exact hfirst
  · exact (congrArg pressFender hfirst).trans hmore

/-- A press in FENDER changes the button states only. -/
theorem settleFenders_of_fender (h : s.htc.state = .fender) : settleFenders s = buttonsRead s := by
  have hstay (l : List Bool) : l.foldl (fun u _ => pressFender u) (buttonsRead s) = buttonsRead s := by
    induction l with
    | nil => rfl
    | cons _ l ih => exact (congrArg (List.foldl _ · l) (pressFender_of_fender (s := buttonsRead s) h)).trans ih
  rw [settleFenders_eq, hstay]

/-- The presses of an interval that are refused. -/
theorem settleFenders_of_refused (hpress : ¬ NoPress s.pins.fenderLeft s.pins.fenderRight s.htc)
    (hne : s.htc.state ≠ .fender) (hno : s.scu.motion.standstill = false ∨ s.mc.mode ≠ .operating ∨
      s.htc.state.takesPress = false) : settleFenders s = pressRefused (buttonsRead s) := by
  have hfirst : pressFender (buttonsRead s) = pressRefused (buttonsRead s) :=
    pressFender_of_refused (s := buttonsRead s) hne hno
  have hmore : pressFender (pressRefused (buttonsRead s)) = pressRefused (buttonsRead s) :=
    (pressFender_of_refused (s := pressRefused (buttonsRead s)) hne hno).trans rfl
  rw [settleFenders_eq]
  rcases presses_of_press hpress with h | h <;> rw [h]
  · exact hfirst
  · exact (congrArg pressFender hfirst).trans hmore

theorem touches_pressFender (s : State) : Touches [.htc] s (pressFender s) :=
  touches_ite _ (.refl _ s) (touches_ite _ (touches_withHtc s _) (touches_withHtc s _))

theorem touches_settleFenders (s : State) : Touches [.htc] s (settleFenders s) := by
  have hfold (l : List Bool) (u : State) : Touches [.htc] u (l.foldl (fun u _ => pressFender u) u) := by
    induction l generalizing u with
    | nil => exact .refl _ u
    | cons _ l ih => exact (touches_pressFender u).trans (ih _)
  rw [settleFenders_eq]
  exact (touches_withHtc s _).trans (hfold _ _)

end

end Sys2Proof.Proofs
end

