-- ==== Sys2Proof/Proofs/HitchActs.lean ====
section
/-! SUPPORT. Step 6 of the hitch's control interval: the control law (R133 to R135), relief (R138), raising and transport
(R131, R132, R139, R140), the fender buttons (R128), and what an interval keeps of its inputs. -/

namespace Sys2Proof.Proofs

open Sys2Proof Sys2Proof.Machine

/-! ## What keeps the inputs -/

/-- A step keeps the inputs and the button states of the record. -/
structure HitchKeeps (s t : State) : Prop where
  touches : Touches [.vdb, .htc] s t
  inputs : hitchInputs t.htc = hitchInputs s.htc
  buttons : (t.htc.left, t.htc.right) = (s.htc.left, s.htc.right)

namespace HitchKeeps

variable {s t u : State}

protected theorem refl (s : State) : HitchKeeps s s := ⟨.refl _ s, rfl, rfl⟩

protected theorem trans (h : HitchKeeps s t) (k : HitchKeeps t u) : HitchKeeps s u :=
  ⟨h.touches.trans k.touches, k.inputs.trans h.inputs, k.buttons.trans h.buttons⟩

protected theorem ite {c : Prop} [Decidable c] (h : HitchKeeps s t) (k : HitchKeeps s u) :
    HitchKeeps s (if c then t else u) := iteInduction (fun _ => h) fun _ => k

variable (h : HitchKeeps s t)
include h

theorem withHtc (x : Htc) (hinputs : hitchInputs x = hitchInputs t.htc)
    (hbuttons : (x.left, x.right) = (t.htc.left, t.htc.right)) : HitchKeeps s (t.withHtc x) :=
  h.trans ⟨(touches_withHtc t x).mono (by decide), hinputs, hbuttons⟩

theorem setValves (hrv hlv : Nat) : HitchKeeps s (setValves hrv hlv t) := by
  have hhtc := setValves_htc hrv hlv t
  refine h.trans ⟨touches_setValves hrv hlv t, ?_, ?_⟩
  · exact (congrArg hitchInputs hhtc).trans rfl
  · exact (congrArg (fun x : Htc => (x.left, x.right)) hhtc).trans rfl

theorem beginRelief : HitchKeeps s (beginRelief t) := (h.withHtc _ (by rfl) (by rfl)).setValves _ _

theorem enterHeld (cause : HoldCause) : HitchKeeps s (enterHeld cause t) := (h.withHtc _ (by rfl) (by rfl)).setValves _ _

theorem enterRaising : HitchKeeps s (enterRaising t) := (h.withHtc _ (by rfl) (by rfl)).setValves _ _

theorem enterWorking : HitchKeeps s (enterWorking t) :=
  have hbegun := h.withHtc { t.htc with state := .working, holdCause := none, overload := false } (by rfl) (by rfl)
  .ite hbegun.beginRelief (hbegun.setValves _ _)

theorem enterHitchFault : HitchKeeps s (enterHitchFault t) := (h.withHtc _ (by rfl) (by rfl)).setValves _ _

theorem leaveHitchFault : HitchKeeps s (leaveHitchFault t) :=
  have hleft := h.withHtc { t.htc with faultCause := none } (by rfl) (by rfl)
  .ite (hleft.withHtc _ (by rfl) (by rfl)) (.ite (hleft.withHtc _ (by rfl) (by rfl)) (hleft.withHtc _ (by rfl) (by rfl)))

theorem hitchFaultTest : HitchKeeps s (hitchFaultTest t) :=
  .ite (.ite (h.withHtc _ (by rfl) (by rfl)) h.leaveHitchFault) (.ite h.enterHitchFault h)

theorem cabLossTest : HitchKeeps s (cabLossTest t) := .ite (h.enterHeld _) h

theorem sourceTest : HitchKeeps s (sourceTest t) := by
  rw [sourceTest_eq]
  exact HitchKeeps.withHtc (.ite (h.enterHeld _) h) _ (by rfl) (by rfl)

theorem actLaw : HitchKeeps s (actLaw t) := (h.withHtc _ (by rfl) (by rfl)).setValves _ _

theorem actWorking : HitchKeeps s (actWorking t) := .ite h.beginRelief h.actLaw

theorem actStartLock : HitchKeeps s (actStartLock t) :=
  .ite (h.withHtc _ (by rfl) (by rfl)).enterWorking.actWorking (h.setValves _ _)

theorem actRaising : HitchKeeps s (actRaising t) :=
  .ite ((h.withHtc _ (by rfl) (by rfl)).setValves _ _) (h.setValves _ _)

theorem followed : HitchKeeps s (t.withHtc (followDraft t.htc)) := by
  refine h.withHtc _ ?_ ?_
  · unfold followDraft
    split
    · split <;> rfl
    · rfl
  · unfold followDraft
    split
    · split <;> rfl
    · rfl

theorem actDamping : HitchKeeps s (actDamping t) := (h.withHtc _ (by rfl) (by rfl)).setValves _ _

theorem actTransport : HitchKeeps s (actTransport t) :=
  .ite h.enterRaising (HitchKeeps.followed (.ite h.actDamping (h.setValves _ _)))

theorem actFender : HitchKeeps s (actFender t) := by
  unfold Machine.actFender
  refine .ite ((h.enterHeld _).withHtc _ (by rfl) (by rfl)) (.ite (h.enterHeld _) ?_)
  split <;> exact h.setValves _ _

theorem actHitch : HitchKeeps s (actHitch t) := by
  have hcleared := h.withHtc { t.htc with mixed := none, damping := false, slipOverride := false } (by rfl) (by rfl)
  unfold Machine.actHitch
  dsimp only
  split
  · exact hcleared.actStartLock
  · exact hcleared.setValves _ _
  · exact hcleared.setValves _ _
  · exact hcleared.actRaising
  · exact hcleared.actTransport
  · exact hcleared.actWorking
  · exact hcleared.actFender

end HitchKeeps

/-! ## Step 6 by state -/

/-- The record of step 6, before the state acts. -/
def cleared (s : State) : State := s.withHtc { s.htc with mixed := none, damping := false, slipOverride := false }

section
variable {s : State}

theorem cleared_htc (s : State) :
    (cleared s).htc = { s.htc with mixed := none, damping := false, slipOverride := false } := rfl

/-- What each state does at step 6. -/
def actBy : HitchState → State → State
  | .startLock => actStartLock
  | .held | .faultHold => setValves 0 0
  | .raising => actRaising
  | .transport => actTransport
  | .working => actWorking
  | .fender => actFender

theorem actHitch_eq (s : State) : actHitch s = actBy s.htc.state (cleared s) := by
  have hby (x : HitchState) (u : State) (h : u.htc.state = x) : (match u.htc.state with
      | .startLock => actStartLock u
      | .held | .faultHold => setValves 0 0 u
      | .raising => actRaising u
      | .transport => actTransport u
      | .working => actWorking u
      | .fender => actFender u) = actBy x u := by
    rw [h]
    cases x <;> rfl
  exact hby s.htc.state (cleared s) rfl

theorem actHitch_of_still (h : s.htc.state = .held ∨ s.htc.state = .faultHold) :
    actHitch s = setValves 0 0 (cleared s) := by
  rw [actHitch_eq]
  rcases h with h | h <;> rw [h] <;> rfl

theorem actHitch_of_startLock (h : s.htc.state = .startLock) : actHitch s = actStartLock (cleared s) := by
  rw [actHitch_eq, h]
  rfl

theorem actHitch_of_working (h : s.htc.state = .working) : actHitch s = actWorking (cleared s) := by
  rw [actHitch_eq, h]
  rfl

theorem actHitch_of_raising (h : s.htc.state = .raising) : actHitch s = actRaising (cleared s) := by
  rw [actHitch_eq, h]
  rfl

theorem actHitch_of_transport (h : s.htc.state = .transport) : actHitch s = actTransport (cleared s) := by
  rw [actHitch_eq, h]
  rfl

theorem actHitch_of_fender (h : s.htc.state = .fender) : actHitch s = actFender (cleared s) := by
  rw [actHitch_eq, h]
  rfl

/-- A hitch that holds keeps both valves at 0. -/
theorem still_spec (h : s.htc.state = .held ∨ s.htc.state = .faultHold) : ValvesAt 0 0 (actHitch s) ∧
    (actHitch s).htc = { s.htc with mixed := none, damping := false, slipOverride := false, hrv := 0, hlv := 0 } := by
  rw [actHitch_of_still h, setValves_htc]
  exact ⟨setValves_at _ _ _, rfl⟩

/-! ### The control law (R133 to R135) -/

/-- The valves of an error: none within 10, HRV above and HLV below (R135). -/
theorem lawValves_spec (e : Int) (noRaise noLower : Bool) (rate : Nat) :
    (e.natAbs ≤ 10 → lawValves e noRaise noLower rate = (0, 0)) ∧
    (10 < e → lawValves e noRaise noLower rate = (if noRaise then 0 else min 1200 (380 + (e.natAbs - 10) * 6), 0)) ∧
    (e < -10 → lawValves e noRaise noLower rate =
      (0, if noLower then 0 else min (350 + rate * 65) (350 + (e.natAbs - 10) * 5))) := by
  unfold lawValves fullRaise
  refine ⟨fun h => if_pos h, fun h => ?_, fun h => ?_⟩
  · rw [if_neg (by omega), if_pos (by omega)]
  · rw [if_neg (by omega), if_neg (by omega)]

/-- The valves of an error, as they stand behind the write. -/
theorem lawValves_at {t : State} {e : Int} {noRaise noLower : Bool} {rate : Nat}
    (h : ValvesAt (lawValves e noRaise noLower rate).1 (lawValves e noRaise noLower rate).2 t) :
    (e.natAbs ≤ 10 → ValvesAt 0 0 t) ∧
    (10 < e → ValvesAt (if noRaise then 0 else min 1200 (380 + (e.natAbs - 10) * 6)) 0 t) ∧
    (e < -10 → ValvesAt 0 (if noLower then 0 else min (350 + rate * 65) (350 + (e.natAbs - 10) * 5)) t) := by
  obtain ⟨hnone, hraise, hlower⟩ := lawValves_spec e noRaise noLower rate
  exact ⟨fun he => by rwa [hnone he] at h, fun he => by rwa [hraise he] at h, fun he => by rwa [hlower he] at h⟩

/-- The error of an interval in WORKING with the slip term, and whether it exceeds the mixed one (R133, R134). -/
def lawError (s : State) : Int × Bool :=
  (slipError s).elim
    (mixedError s.cfg.draftSpan s.htc.depth s.htc.cab.mix s.htc.position s.htc.draft s.htc.draftValid, false)
    fun es =>
      (max (mixedError s.cfg.draftSpan s.htc.depth s.htc.cab.mix s.htc.position s.htc.draft s.htc.draftValid) es,
        decide (mixedError s.cfg.draftSpan s.htc.depth s.htc.cab.mix s.htc.position s.htc.draft s.htc.draftValid < es))

/-- The error written to the record. -/
def lawBegun (s : State) : State := s.withHtc { s.htc with mixed := some (lawError s).1, slipOverride := (lawError s).2 }

theorem actLaw_eq (s : State) : actLaw s = setValves
    (lawValves (lawError s).1 (atUpper s.htc) false s.htc.cab.dropRate).1
    (lawValves (lawError s).1 (atUpper s.htc) false s.htc.cab.dropRate).2 (lawBegun s) := by
  unfold actLaw lawBegun lawError
  dsimp only
  cases slipError s <;> rfl

theorem actLaw_htc (s : State) : ∃ hrv hlv : Nat, (actLaw s).htc = { s.htc with
    mixed := some (lawError s).1, slipOverride := (lawError s).2, hrv := hrv, hlv := hlv } := by
  rw [actLaw_eq, setValves_htc]
  exact ⟨_, _, rfl⟩

/-- The error as section 6.5 gives it. -/
theorem lawError_spec {span m e0 e : Int} (hspan : span = s.cfg.draftSpan)
    (hm : m = if s.htc.draftValid = true then (s.htc.cab.mix : Int) else 0)
    (he0 : e0 = Int.tdiv ((100 - m) * (s.htc.depth - s.htc.position) +
      m * Int.tdiv ((s.htc.draft - Int.tdiv (span * (1000 - s.htc.depth)) 1000) * 1000) span) 100)
    (he : e = if s.htc.slipOn = true ∧ s.scu.motion.slipVal = .valid ∧
        (s.htc.cab.slipLimit : Int) < s.scu.motion.filtered
      then max e0 ((s.scu.motion.filtered - s.htc.cab.slipLimit) * 4) else e0) :
    (lawError s).1 = e ∧ ((lawError s).2 = true ↔ e0 < e) := by
  have hmixed : mixedError s.cfg.draftSpan s.htc.depth s.htc.cab.mix s.htc.position s.htc.draft s.htc.draftValid = e0 := by
    rw [he0, hm, hspan]
    rfl
  unfold lawError
  rw [hmixed]
  by_cases hslip : s.htc.slipOn = true ∧ s.scu.motion.slipVal = .valid ∧
      (s.htc.cab.slipLimit : Int) < s.scu.motion.filtered
  · have herror : slipError s = some ((s.scu.motion.filtered - s.htc.cab.slipLimit) * 4) := if_pos hslip
    rw [if_pos hslip] at he
    rw [herror, he]
    simp
  · have herror : slipError s = none := if_neg hslip
    rw [if_neg hslip] at he
    rw [herror, he]
    simp

/-- The law at an interval in WORKING. -/
theorem actLaw_spec {span m e0 e : Int} (hspan : span = s.cfg.draftSpan)
    (hm : m = if s.htc.draftValid = true then (s.htc.cab.mix : Int) else 0)
    (he0 : e0 = Int.tdiv ((100 - m) * (s.htc.depth - s.htc.position) +
      m * Int.tdiv ((s.htc.draft - Int.tdiv (span * (1000 - s.htc.depth)) 1000) * 1000) span) 100)
    (he : e = if s.htc.slipOn = true ∧ s.scu.motion.slipVal = .valid ∧
        (s.htc.cab.slipLimit : Int) < s.scu.motion.filtered
      then max e0 ((s.scu.motion.filtered - s.htc.cab.slipLimit) * 4) else e0) :
    (actLaw s).htc.mixed = some e ∧ ((actLaw s).htc.slipOverride = true ↔ e0 < e) ∧
    (e.natAbs ≤ 10 → ValvesAt 0 0 (actLaw s)) ∧
    (10 < e → ValvesAt (if (s.htc.cab.upper : Int) ≤ s.htc.position then 0
      else min 1200 (380 + (e.natAbs - 10) * 6)) 0 (actLaw s)) ∧
    (e < -10 → ValvesAt 0 (min (350 + s.htc.cab.dropRate * 65) (350 + (e.natAbs - 10) * 5)) (actLaw s)) := by
  obtain ⟨herror, hover⟩ := lawError_spec hspan hm he0 he
  obtain ⟨hrv, hlv, hhtc⟩ := actLaw_htc s
  have hvalves : ValvesAt (lawValves e (atUpper s.htc) false s.htc.cab.dropRate).1
      (lawValves e (atUpper s.htc) false s.htc.cab.dropRate).2 (actLaw s) := by
    rw [actLaw_eq, herror]
    exact setValves_at _ _ _
  obtain ⟨hnone, hraise, hlower⟩ := lawValves_at hvalves
  refine ⟨by rw [hhtc, herror], by rw [hhtc]; exact hover, hnone, fun h => ?_, hlower⟩
  have := hraise h
  simpa only [atUpper, decide_eq_true_eq] using this

/-- WORKING at an interval: relief while the overload flag stands or a pin is high, the law otherwise (R138). -/
theorem actWorking_of_relief (h : s.htc.overload = true ∨ s.htc.pinLeft = true ∨ s.htc.pinRight = true) :
    actWorking s = beginRelief s := by
  refine if_pos ?_
  rcases h with h | h | h <;> simp [pinsHigh, h]

theorem actWorking_of_law (h : s.htc.overload = false) (hl : s.htc.pinLeft = false) (hr : s.htc.pinRight = false) :
    actWorking s = actLaw s := by
  refine if_neg ?_
  simp [pinsHigh, h, hl, hr]

end

end Sys2Proof.Proofs
end

