-- ==== Sys2Proof/Proofs/HitchInterval.lean ====
section
/-! SUPPORT. The hitch's control interval (R116) from its inputs to its state: what the first two steps leave of the record,
and what the whole interval keeps of them. -/

namespace Sys2Proof.Proofs

open Sys2Proof Sys2Proof.Machine

/-! ## The record after the first two steps -/

section
variable {l r : Bool} {s : State}

/-- The record with the cab's fields and slip control filed. -/
def cabRec (f : CabHitchFields) (h : Htc) : Htc := { h with
  cab := cabValuesOf f, cabFresh := true, leverRef := leverRefAfter h (cabValuesOf f).lever
  cabSlipSeen := some (cabValuesOf f).slipControl
  slipOn := if h.cabSlipSeen = some (cabValuesOf f).slipControl then h.slipOn else (cabValuesOf f).slipControl
  slipSource := if h.cabSlipSeen = some (cabValuesOf f).slipControl then h.slipSource else .cab }

/-- The record after the first two steps, but for a lever change that releases the hitch. -/
def filedRec (s : State) : Htc :=
  match s.lc.cabHitch.current with
  | some f => cabRec f (hitchRead s)
  | none => { hitchRead s with cabFresh := false }

theorem filedRec_of_current {f : CabHitchFields} (h : s.lc.cabHitch.current = some f) :
    filedRec s = cabRec f (hitchRead s) := by
  unfold filedRec
  rw [h]

theorem filedRec_of_none (h : s.lc.cabHitch.current = none) : filedRec s = { hitchRead s with cabFresh := false } := by
  unfold filedRec
  rw [h]

/-- A lever change of this interval releases the hitch (R121, R142). -/
def Freed (s : State) : Prop := ∃ f : CabHitchFields, s.lc.cabHitch.current = some f ∧ leverFrees s f = true

theorem leverChanged_iff {h : Htc} {lever : Nat} : leverChanged h lever = true ↔
    ∃ ref : Nat, h.cabFresh = true ∧ h.leverRef = some ref ∧ 10 ≤ ((lever : Int) - ref).natAbs := by
  unfold leverChanged
  rcases h.leverRef with _ | ref
  · simp
  · simp only [Bool.and_eq_true, Option.some.injEq]
    exact ⟨fun ⟨hfresh, hmoved⟩ => ⟨ref, hfresh, rfl, of_decide_eq_true hmoved⟩,
      fun ⟨_, hfresh, href, hmoved⟩ => ⟨hfresh, href ▸ decide_eq_true hmoved⟩⟩

theorem freed_iff : Freed s ↔ s.htc.state = .held ∧ LeverMovedFresh s ∧ s.mc.mode ≠ .stopping ∧
    (s.htc.holdCause = some .cabLost ∨ s.htc.holdCause = some .sourceLost) := by
  have hfrees (f : CabHitchFields) : leverFrees s f = true ↔ (∃ ref : Nat, s.htc.cabFresh = true ∧
      s.htc.leverRef = some ref ∧ 10 ≤ ((min 1000 f.lever : Nat) - (ref : Int)).natAbs) ∧ s.htc.state = .held ∧
      (s.htc.holdCause = some .cabLost ∨ s.htc.holdCause = some .sourceLost) ∧ s.mc.mode ≠ .stopping := by
    simp only [leverFrees, Bool.and_eq_true, leverChanged_iff, beq_iff_eq, leverReleases, Bool.or_eq_true, bne_iff_ne,
      and_assoc]
    rfl
  constructor
  · rintro ⟨f, hf, h⟩
    obtain ⟨⟨ref, hfresh, href, hmoved⟩, hstate, hcause, hmode⟩ := (hfrees f).mp h
    exact ⟨hstate, ⟨f, ref, hf, hfresh, href, hmoved⟩, hmode, hcause⟩
  · rintro ⟨hstate, ⟨f, ref, hf, hfresh, href, hmoved⟩, hmode, hcause⟩
    exact ⟨f, hf, (hfrees f).mpr ⟨⟨ref, hfresh, href, hmoved⟩, hstate, hcause, hmode⟩⟩

/-- The state after the first two steps of an interval with the two button lines. -/
def hitchInputsTaken (l r : Bool) (s : State) : State := takeCabHitch (readHitch (presentButtons l r s))

/-- The first step, with the button lines. -/
theorem readPresented_spec (l r : Bool) (s : State) : (readHitch (presentButtons l r s)).htc = hitchRead s ∧
    Touches [.pins, .htc, .mc] s (readHitch (presentButtons l r s)) ∧
    (readHitch (presentButtons l r s)).mc.mode = s.mc.mode ∧
    (readHitch (presentButtons l r s)).pins = (presentButtons l r s).pins := by
  obtain ⟨hhtc, htouches, hmode⟩ := readHitch_spec (presentButtons l r s)
  exact ⟨hhtc, also ((touches_withPins s _).mono (by decide)) htouches, hmode, htouches .pins (by decide)⟩

theorem leverFrees_read (l r : Bool) (s : State) (f : CabHitchFields) :
    leverFrees (readHitch (presentButtons l r s)) f = leverFrees s f := by
  obtain ⟨hhtc, -, hmode, -⟩ := readPresented_spec l r s
  rw [leverFrees, leverFrees, hhtc, hmode]
  rfl

/-- The record as the interval's inputs leave it where no lever change releases the hitch. -/
theorem taken_of_not_freed (h : ¬ Freed s) : (hitchInputsTaken l r s).htc = filedRec s := by
  obtain ⟨hhtc, htouches, -, -⟩ := readPresented_spec l r s
  have hlc : (readHitch (presentButtons l r s)).lc = s.lc := htouches .lc (by decide)
  unfold hitchInputsTaken
  rcases hcab : s.lc.cabHitch.current with _ | f
  · rw [takeCabHitch_of_none (by rw [hlc]; exact hcab), filedRec_of_none hcab, ← hhtc]
    rfl
  · have hnot : ¬ leverFrees (readHitch (presentButtons l r s)) f = true := fun k =>
      h ⟨f, hcab, (leverFrees_read l r s f).symm.trans k⟩
    rw [takeCabHitch_of_current (by rw [hlc]; exact hcab), if_neg hnot, filedRec_of_current hcab, ← hhtc]
    rfl

/-- The record where a lever change releases the hitch: WORKING, with relief where a pin is high. -/
theorem taken_of_freed (h : Freed s) : ∃ (mixed : Option Int) (hrv hlv : Nat), (hitchInputsTaken l r s).htc =
    { filedRec s with
      state := .working, holdCause := none, overload := pinsHigh (hitchRead s), mixed := mixed, hrv := hrv, hlv := hlv } := by
  obtain ⟨f, hcab, hfrees⟩ := h
  obtain ⟨hhtc, htouches, -, -⟩ := readPresented_spec l r s
  have hlc : (readHitch (presentButtons l r s)).lc = s.lc := htouches .lc (by decide)
  unfold hitchInputsTaken
  rw [takeCabHitch_of_current (by rw [hlc]; exact hcab), if_pos ((leverFrees_read l r s f).trans hfrees),
    filedRec_of_current hcab, ← hhtc]
  generalize readHitch (presentButtons l r s) = p
  obtain ⟨-, -, hfree, hhigh⟩ := enterWorking_spec (cabFiled p f)
  have hpins : pinsHigh (cabFiled p f).htc = pinsHigh p.htc := rfl
  rw [hpins] at hfree hhigh
  unfold slipTaken
  dsimp only [State.withHtc_htc]
  cases hp : pinsHigh p.htc with
  | true =>
    rw [(hhigh hp).1]
    exact ⟨_, _, _, rfl⟩
  | false =>
    rw [(hfree hp).1]
    exact ⟨_, _, _, rfl⟩

theorem touches_taken (l r : Bool) (s : State) : Touches [.pins, .vdb, .htc, .mc] s (hitchInputsTaken l r s) :=
  also ((readPresented_spec l r s).2.1.mono (by decide)) (touches_takeCabHitch _)

theorem taken_mc (l r : Bool) (s : State) : (hitchInputsTaken l r s).mc = (readHitch (presentButtons l r s)).mc :=
  touches_takeCabHitch _ .mc (by decide)

theorem taken_mode (l r : Bool) (s : State) : (hitchInputsTaken l r s).mc.mode = s.mc.mode := by
  rw [taken_mc]
  exact (readPresented_spec l r s).2.2.1

theorem taken_pins (l r : Bool) (s : State) : (hitchInputsTaken l r s).pins.fenderLeft = l ∧
    (hitchInputsTaken l r s).pins.fenderRight = r := by
  have hpins : (hitchInputsTaken l r s).pins = (presentButtons l r s).pins :=
    (touches_takeCabHitch _ .pins (by decide)).trans (readPresented_spec l r s).2.2.2
  rw [hpins]
  exact ⟨rfl, rfl⟩

theorem enterWorking_faulted (s : State) : (enterWorking s).hitchFaulted = s.hitchFaulted := by
  cases hpins : pinsHigh s.htc with
  | true =>
    rw [enterWorking_of_high hpins]
    exact setValves_faulted _ _ _
  | false =>
    rw [enterWorking_of_free hpins]
    exact setValves_faulted _ _ _

theorem taken_faulted (l r : Bool) (s : State) : (hitchInputsTaken l r s).hitchFaulted = s.hitchFaulted := by
  have hread : (readHitch (presentButtons l r s)).hitchFaulted = s.hitchFaulted := by
    have hvdb : (readHitch (presentButtons l r s)).vdb = s.vdb := (readPresented_spec l r s).2.1 .vdb (by decide)
    rw [State.hitchFaulted, State.hitchFaulted, hvdb]
  unfold hitchInputsTaken
  rw [← hread]
  generalize readHitch (presentButtons l r s) = p
  rcases h : p.lc.cabHitch.current with _ | f
  · rw [takeCabHitch_of_none h]
    rfl
  · rw [takeCabHitch_of_current h]
    have hfiled : (if leverFrees p f = true then enterWorking (cabFiled p f) else cabFiled p f).hitchFaulted =
        p.hitchFaulted := by
      split
      · exact enterWorking_faulted _
      · rfl
    exact hfiled

theorem taken_inputs (l r : Bool) (s : State) : hitchInputs (hitchInputsTaken l r s).htc = hitchInputs (filedRec s) := by
  by_cases h : Freed s
  · obtain ⟨mixed, hrv, hlv, hhtc⟩ := taken_of_freed (l := l) (r := r) h
    rw [hhtc]
    rfl
  · rw [taken_of_not_freed h]

/-- What the first two steps leave beside the inputs and the state. -/
theorem taken_buttons (l r : Bool) (s : State) : (hitchInputsTaken l r s).htc.left = s.htc.left ∧
    (hitchInputsTaken l r s).htc.right = s.htc.right := by
  have hfiled : (filedRec s).left = s.htc.left ∧ (filedRec s).right = s.htc.right := by
    rcases hcab : s.lc.cabHitch.current with _ | f
    · rw [filedRec_of_none hcab]
      exact ⟨rfl, rfl⟩
    · rw [filedRec_of_current hcab]
      exact ⟨rfl, rfl⟩
  by_cases h : Freed s
  · obtain ⟨mixed, hrv, hlv, hhtc⟩ := taken_of_freed (l := l) (r := r) h
    rw [hhtc]
    exact hfiled
  · rw [taken_of_not_freed h]
    exact hfiled

/-! ## The interval -/

/-- The state before step 6. -/
def hitchSettled (l r : Bool) (s : State) : State :=
  settleFenders (sourceTest (cabLossTest (hitchFaultTest (hitchInputsTaken l r s))))

theorem exec_htcInterval (hruns : s.mc.mode.controllersRun = true) :
    exec (.htcControlInterval l r) s = .next (actHitch (hitchSettled l r s)) :=
  congrArg Host.Outcome.next (if_pos hruns)

theorem pressFender_keeps (s : State) : hitchInputs (pressFender s).htc = hitchInputs s.htc ∧
    (pressFender s).htc.left = s.htc.left ∧ (pressFender s).htc.right = s.htc.right := by
  unfold pressFender
  split
  · exact ⟨rfl, rfl, rfl⟩
  · split <;> exact ⟨rfl, rfl, rfl⟩

theorem settleFenders_keeps (s : State) : hitchInputs (settleFenders s).htc = hitchInputs s.htc ∧
    (settleFenders s).htc.left = s.htc.left.read s.pins.fenderLeft ∧
    (settleFenders s).htc.right = s.htc.right.read s.pins.fenderRight := by
  have hfold (k : List Bool) (u : State) : hitchInputs (k.foldl (fun u _ => pressFender u) u).htc = hitchInputs u.htc ∧
      (k.foldl (fun u _ => pressFender u) u).htc.left = u.htc.left ∧
      (k.foldl (fun u _ => pressFender u) u).htc.right = u.htc.right := by
    induction k generalizing u with
    | nil => exact ⟨rfl, rfl, rfl⟩
    | cons _ k ih =>
      obtain ⟨h1, h2, h3⟩ := pressFender_keeps u
      obtain ⟨k1, k2, k3⟩ := ih (pressFender u)
      exact ⟨k1.trans h1, k2.trans h2, k3.trans h3⟩
  rw [settleFenders_eq]
  obtain ⟨h1, h2, h3⟩ := hfold (presses s) (buttonsRead s)
  exact ⟨h1, h2, h3⟩

/-- The tests between the inputs and the buttons. -/
theorem keeps_tests (u : State) : HitchKeeps u (sourceTest (cabLossTest (hitchFaultTest u))) :=
  (HitchKeeps.refl u).hitchFaultTest.cabLossTest.sourceTest

/-- What an interval writes, and what it reads. -/
theorem interval_keeps (l r : Bool) (s : State) : Touches [.pins, .vdb, .htc, .mc] s (actHitch (hitchSettled l r s)) ∧
    (actHitch (hitchSettled l r s)).mc = (readHitch (presentButtons l r s)).mc ∧
    hitchInputs (actHitch (hitchSettled l r s)).htc = hitchInputs (filedRec s) ∧
    (actHitch (hitchSettled l r s)).htc.left = s.htc.left.read l ∧
    (actHitch (hitchSettled l r s)).htc.right = s.htc.right.read r := by
  have htaken := touches_taken l r s
  have hmc := taken_mc l r s
  have hinputs := taken_inputs l r s
  obtain ⟨hl, hr⟩ := taken_pins l r s
  obtain ⟨hleft, hright⟩ := taken_buttons l r s
  unfold hitchSettled
  generalize hitchInputsTaken l r s = u at *
  obtain ⟨htests, htinputs, htbuttons⟩ := keeps_tests u
  generalize sourceTest (cabLossTest (hitchFaultTest u)) = w at *
  obtain ⟨hsinputs, hsleft, hsright⟩ := settleFenders_keeps w
  have hsettle := touches_settleFenders w
  have hpins : w.pins = u.pins := htests .pins (by decide)
  rw [hpins, hl] at hsleft
  rw [hpins, hr] at hsright
  generalize settleFenders w = v at *
  obtain ⟨hact, hainputs, habuttons⟩ := (HitchKeeps.refl v).actHitch
  obtain ⟨haleft, haright⟩ := Prod.mk.inj habuttons
  obtain ⟨htleft, htright⟩ := Prod.mk.inj htbuttons
  have hlate : Touches [.vdb, .htc] u (actHitch v) := (also htests hsettle).trans hact
  refine ⟨also htaken hlate, (hlate .mc (by decide)).trans hmc, ?_, ?_, ?_⟩
  · rw [hainputs, hsinputs, htinputs, hinputs]
  · rw [haleft, hsleft, htleft, hleft]
  · rw [haright, hsright, htright, hright]

end

end Sys2Proof.Proofs
end

