-- ==== Sys2Proof/Proofs/HitchEvents.lean ====
section
/-! PROOF. O40: the events of the draft pins and of the position sensor at the hitch, and the fault hold at an interval
(R119, R120, R136 to R138, R142). -/

namespace Sys2Proof.Proofs

open Sys2Proof Sys2Proof.Machine

/-! ## A draft pin's event (R137, R138) -/

/-- The high flag of a pin, and that of the other one. -/
def pinOf (p : DraftPin) (h : Htc) : Bool :=
  match p with
  | .left => h.pinLeft
  | .right => h.pinRight

def otherPin (p : DraftPin) (h : Htc) : Bool :=
  match p with
  | .left => h.pinRight
  | .right => h.pinLeft

/-- The record with a pin's high flag. -/
def withPin (p : DraftPin) (b : Bool) (h : Htc) : Htc :=
  match p with
  | .left => { h with pinLeft := b }
  | .right => { h with pinRight := b }

section
variable {p : DraftPin} {b : Bool} {s : State}

theorem setPin_eq (p : DraftPin) (b : Bool) (s : State) : setPin p b s = s.withHtc (withPin p b s.htc) := by
  cases p <;> rfl

theorem withPin_spec (p : DraftPin) (b : Bool) (h : Htc) : pinOf p (withPin p b h) = b ∧
    otherPin p (withPin p b h) = otherPin p h ∧ pinsHigh (withPin p b h) = (b || otherPin p h) ∧
    (withPin p b h).state = h.state ∧ (withPin p b h).overload = h.overload ∧
    raiseCurrent (withPin p b h) fullRaise = raiseCurrent h fullRaise := by
  cases p
  · exact ⟨rfl, rfl, rfl, rfl, rfl, rfl⟩
  · exact ⟨rfl, rfl, Bool.or_comm _ _, rfl, rfl, rfl⟩

theorem pins_congr {h k : Htc} (hl : h.pinLeft = k.pinLeft) (hr : h.pinRight = k.pinRight) (p : DraftPin) :
    pinOf p h = pinOf p k ∧ otherPin p h = otherPin p k := by
  cases p
  · exact ⟨hl, hr⟩
  · exact ⟨hr, hl⟩

/-- Relief ended, before both valves are written. -/
def reliefEnded (s : State) : State := s.withHtc { s.htc with overload := false }

theorem endRelief_eq (s : State) :
    endRelief s = if (s.htc.overload && !pinsHigh s.htc) = true then setValves 0 0 (reliefEnded s) else s := rfl

/-- What an event of a draft pin leaves of the hitch. -/
structure DraftTaken (p : DraftPin) (ev : SfeEvent) (s t : State) : Prop where
  touches : Touches [.vdb, .htc] s t
  state : t.htc.state = s.htc.state
  other : otherPin p t.htc = otherPin p s.htc
  high : ev = .highEnter → pinOf p t.htc = true
  low : ev = .highLeave ∨ ev = .failed → pinOf p t.htc = false
  idle : ev ≠ .highEnter → ev ≠ .highLeave → ev ≠ .failed → pinOf p t.htc = pinOf p s.htc ∧ t.vdb = s.vdb
  relieved : ev = .highEnter → s.htc.state = .working → t.htc.overload = true ∧ t.htc.mixed = none ∧
    (t.out .hlv).command = 0 ∧
    (t.out .hrv).command = if (s.htc.cab.upper : Int) ≤ s.htc.position then 0 else min 1200 (s.cfg.maxima.get .hrv)
  noted : ev = .highEnter → s.htc.state ≠ .working → t.vdb = s.vdb ∧ t.htc.overload = s.htc.overload
  ended : ev = .highLeave ∨ ev = .failed → s.htc.overload = true → otherPin p s.htc = false →
    t.htc.overload = false ∧ (t.out .hrv).command = 0 ∧ (t.out .hlv).command = 0
  stands : ev = .highLeave ∨ ev = .failed → s.htc.overload = false ∨ otherPin p s.htc = true →
    t.htc.overload = s.htc.overload ∧ t.vdb = s.vdb

/-- A pin goes HIGH. -/
theorem draftTaken_high (p : DraftPin) (s : State) : DraftTaken p .highEnter s (takeDraft p .highEnter s) := by
  have htake : takeDraft p .highEnter s =
      if s.htc.state = .working then beginRelief (s.withHtc (withPin p true s.htc)) else s.withHtc (withPin p true s.htc) := by
    unfold takeDraft
    rw [setPin_eq]
    dsimp only
    rw [State.withHtc_htc, (withPin_spec p true s.htc).2.2.2.1]
  rw [htake]
  obtain ⟨hmine, hother, -, hstate, hoverload, hraise⟩ := withPin_spec p true s.htc
  have hset : Touches [.vdb, .htc] s (s.withHtc (withPin p true s.htc)) := (touches_withHtc s _).mono (by decide)
  by_cases hworking : s.htc.state = .working
  · rw [if_pos hworking]
    have hhtc := beginRelief_htc (s.withHtc (withPin p true s.htc))
    have hcfg : (beginRelief (s.withHtc (withPin p true s.htc))).cfg = s.cfg :=
      (hset.trans (touches_beginRelief _)) .cfg (by decide)
    obtain ⟨hhrv, hhlv⟩ := beginRelief_at (s.withHtc (withPin p true s.htc))
    rw [hcfg, State.withHtc_htc, hraise, raise_clamped] at hhrv
    rw [Nat.zero_min] at hhlv
    have hpins := pins_congr (h := (beginRelief (s.withHtc (withPin p true s.htc))).htc) (k := withPin p true s.htc)
      (by rw [hhtc]; rfl) (by rw [hhtc]; rfl) p
    exact {
      touches := hset.trans (touches_beginRelief _)
      state := by rw [hhtc]; exact hstate
      other := hpins.2.trans hother
      high := fun _ => hpins.1.trans hmine
      low := fun h => by simp at h
      idle := fun h => absurd rfl h
      relieved := fun _ _ => ⟨by rw [hhtc], by rw [hhtc], hhlv, hhrv⟩
      noted := fun _ h => absurd hworking h
      ended := fun h => by simp at h
      stands := fun h => by simp at h }
  · rw [if_neg hworking]
    exact {
      touches := hset
      state := hstate
      other := hother
      high := fun _ => hmine
      low := fun h => by simp at h
      idle := fun h => absurd rfl h
      relieved := fun _ h => absurd h hworking
      noted := fun _ _ => ⟨rfl, hoverload⟩
      ended := fun h => by simp at h
      stands := fun h => by simp at h }

/-- A pin leaves HIGH, or its channel fails. -/
theorem draftTaken_low {ev : SfeEvent} (hev : ev = .highLeave ∨ ev = .failed) (p : DraftPin) (s : State) :
    DraftTaken p ev s (takeDraft p ev s) := by
  obtain ⟨hmine, hother, hpins, hstate, hoverload, -⟩ := withPin_spec p false s.htc
  have htake : takeDraft p ev s = endRelief (s.withHtc (withPin p false s.htc)) := by
    rw [← setPin_eq]
    rcases hev with rfl | rfl <;> rfl
  have hset : Touches [.vdb, .htc] s (s.withHtc (withPin p false s.htc)) := (touches_withHtc s _).mono (by decide)
  have hne : ev ≠ .highEnter := by rcases hev with rfl | rfl <;> simp
  have hact : ¬(ev ≠ .highLeave ∧ ev ≠ .failed) := fun h => hev.elim h.1 h.2
  have hends : ((s.withHtc (withPin p false s.htc)).htc.overload && !pinsHigh (s.withHtc (withPin p false s.htc)).htc) =
      (s.htc.overload && !otherPin p s.htc) := by
    rw [State.withHtc_htc, hpins, hoverload, Bool.false_or]
  rw [htake, endRelief_eq, hends]
  by_cases hfree : s.htc.overload = true ∧ otherPin p s.htc = false
  · obtain ⟨hon, hoff⟩ := hfree
    rw [if_pos (by simp [hon, hoff])]
    have htouches : Touches [.vdb, .htc] s (setValves 0 0 (reliefEnded (s.withHtc (withPin p false s.htc)))) :=
      (hset.trans ((touches_withHtc _ _).mono (by decide))).trans (touches_setValves _ _ _)
    have hhtc : (setValves 0 0 (reliefEnded (s.withHtc (withPin p false s.htc)))).htc =
        { withPin p false s.htc with overload := false, hrv := 0, hlv := 0 } := setValves_htc _ _ _
    have hclosed := valves_closed (setValves_at 0 0 (reliefEnded (s.withHtc (withPin p false s.htc))))
    generalize setValves 0 0 (reliefEnded (s.withHtc (withPin p false s.htc))) = t at *
    have htpins := pins_congr (h := t.htc) (k := withPin p false s.htc) (by rw [hhtc]) (by rw [hhtc]) p
    exact {
      touches := htouches
      state := by rw [hhtc]; exact hstate
      other := htpins.2.trans hother
      high := fun h => absurd h hne
      low := fun _ => htpins.1.trans hmine
      idle := fun _ h1 h2 => absurd ⟨h1, h2⟩ hact
      relieved := fun h => absurd h hne
      noted := fun h => absurd h hne
      ended := fun _ _ _ => ⟨by rw [hhtc], hclosed⟩
      stands := fun _ h => by simp [hon, hoff] at h }
  · rw [if_neg (by simpa using hfree)]
    exact {
      touches := hset
      state := hstate
      other := hother
      high := fun h => absurd h hne
      low := fun _ => hmine
      idle := fun _ h1 h2 => absurd ⟨h1, h2⟩ hact
      relieved := fun h => absurd h hne
      noted := fun h => absurd h hne
      ended := fun _ h1 h2 => absurd ⟨h1, h2⟩ hfree
      stands := fun _ _ => ⟨hoverload, rfl⟩ }

theorem draftTaken (p : DraftPin) (ev : SfeEvent) (s : State) : DraftTaken p ev s (takeDraft p ev s) := by
  by_cases hhigh : ev = .highEnter
  · subst hhigh
    exact draftTaken_high p s
  by_cases hlow : ev = .highLeave ∨ ev = .failed
  · exact draftTaken_low hlow p s
  obtain ⟨hleave, hfailed⟩ := not_or.mp hlow
  have htake : takeDraft p ev s = s := by
    cases ev
    case highEnter => exact absurd rfl hhigh
    case highLeave => exact absurd rfl hleave
    case failed => exact absurd rfl hfailed
    all_goals rfl
  rw [htake]
  exact {
    touches := .refl _ s
    state := rfl
    other := rfl
    high := fun h => absurd h hhigh
    low := fun h => absurd h hlow
    idle := fun _ _ _ => ⟨rfl, rfl⟩
    relieved := fun h => absurd h hhigh
    noted := fun h => absurd h hhigh
    ended := fun h => absurd h hlow
    stands := fun h => absurd h hlow }

theorem exec_htcDraftEvent {ev : SfeEvent} {rest : List Delivery} (hruns : s.mc.mode.controllersRun = true)
    (h : OldestEvent .htc (DraftPin.sensor p) ev rest s) :
    exec (.htcDraftEvent p) s = .next (takeDraft p ev (s.withEvents rest)) := by
  change execHtcDraftEvent p s = _
  unfold execHtcDraftEvent
  rw [takeEvent_oldest h]
  exact congrArg Host.Outcome.next (if_pos hruns)

/-! ## The position sensor fails (R119) -/

theorem exec_htcHpsFailed {ev : SfeEvent} {rest : List Delivery} (hruns : s.mc.mode.controllersRun = true)
    (h : OldestEvent .htc .hps ev rest s) : exec .htcHpsFailed s = .next (takeHps ev (s.withEvents rest)) := by
  change execHtcHpsFailed s = _
  unfold execHtcHpsFailed
  rw [takeEvent_oldest h]
  exact congrArg Host.Outcome.next (if_pos hruns)

/-- The record without a valid position. -/
def positionLost (s : State) : State := s.withHtc { s.htc with posValid := false }

theorem takeHps_failed (s : State) : takeHps .failed s =
    if s.htc.state = .faultHold then positionLost s else enterHitchFault (positionLost s) := rfl

theorem takeHps_spec (ev : SfeEvent) (s : State) : Touches [.vdb, .htc] s (takeHps ev s) ∧
    (ev ≠ .failed → takeHps ev s = s) ∧
    (ev = .failed → (takeHps ev s).htc.posValid = false ∧ (takeHps ev s).htc.state = .faultHold ∧
      (s.htc.state ≠ .faultHold → (takeHps ev s).htc.faultCause = some .position ∧ (takeHps ev s).htc.holdCause = none ∧
        (takeHps ev s).htc.mixed = none ∧ ((takeHps ev s).out .hrv).command = 0 ∧
        ((takeHps ev s).out .hlv).command = 0)) := by
  by_cases hev : ev = .failed
  · subst hev
    rw [takeHps_failed]
    by_cases hstate : s.htc.state = .faultHold
    · rw [if_pos hstate]
      exact ⟨(touches_withHtc s _).mono (by decide), fun h => absurd rfl h, fun _ => ⟨rfl, hstate,
        fun h => absurd hstate h⟩⟩
    · rw [if_neg hstate, enterHitchFault_htc]
      exact ⟨((touches_withHtc s _).mono (by decide)).trans (touches_enterHitchFault _), fun h => absurd rfl h,
        fun _ => ⟨rfl, rfl, fun _ => ⟨rfl, rfl, rfl, valves_closed (setValves_at _ _ _)⟩⟩⟩
  · have hsame : takeHps ev s = s := if_neg hev
    rw [hsame]
    exact ⟨.refl _ s, fun _ => rfl, fun h => absurd h hev⟩

end

/-! ## Fault hold at an interval (R119, R120, R142) -/

section
variable {l r : Bool} {s : State}

/-- A faulted hitch is in FAULT_HOLD behind the test, with its cause. -/
theorem hitchFaultTest_of_due (h : s.htc.posValid = false ∨ s.hitchFaulted = true) :
    (hitchFaultTest s).htc.state = .faultHold ∧
    (hitchFaultTest s).htc.faultCause = some (if s.htc.posValid then .valve else .position) := by
  have hdue : hitchFaultDue s = true := by
    rcases h with h | h <;> simp [hitchFaultDue, h]
  unfold hitchFaultTest
  by_cases hstate : s.htc.state = .faultHold
  · rw [if_pos hstate, if_pos hdue]
    exact ⟨hstate, rfl⟩
  · rw [if_neg hstate, if_pos hdue, enterHitchFault_htc]
    exact ⟨rfl, rfl⟩

/-- A hitch in FAULT_HOLD loses no source, and its buttons take no press. -/
theorem settled_of_faultHold (h : s.htc.state = .faultHold) :
    (settleFenders (sourceTest (cabLossTest s))).htc.state = .faultHold ∧
    (settleFenders (sourceTest (cabLossTest s))).htc.faultCause = s.htc.faultCause := by
  rw [cabLossTest_of_kept (.inr (by simp [h])), sourceTest_of_kept fun _ k => by simp [h] at k]
  by_cases hpress : NoPress (sourceChosen s).pins.fenderLeft (sourceChosen s).pins.fenderRight (sourceChosen s).htc
  · rw [settleFenders_of_noPress hpress]
    exact ⟨h, rfl⟩
  · have hstate : (sourceChosen s).htc.state = .faultHold := h
    have hne : (sourceChosen s).htc.state ≠ .fender := by simp [hstate]
    rw [settleFenders_of_refused hpress hne (.inr (.inr (by rw [hstate]; rfl)))]
    exact ⟨h, rfl⟩

/-- FAULT_HOLD left for a state with its hold cause. -/
def faultLeft (st : HitchState) (cause : Option HoldCause) (s : State) : State :=
  s.withHtc { s.htc with state := st, holdCause := cause, faultCause := none }

theorem leaveHitchFault_eq (s : State) : leaveHitchFault s =
    if s.mc.mode = .stopping then faultLeft .held (some .stop) s
    else if s.htc.lockReleased = true then faultLeft .held (some .fault) s
    else faultLeft .startLock s.htc.holdCause s := rfl

/-- FAULT_HOLD is left for HELD or START_LOCK (R120, R142). -/
theorem leaveHitchFault_spec (s : State) : (leaveHitchFault s).htc.faultCause = none ∧
    (s.mc.mode = .stopping → (leaveHitchFault s).htc.state = .held ∧ (leaveHitchFault s).htc.holdCause = some .stop) ∧
    (s.mc.mode ≠ .stopping → s.htc.lockReleased = true →
      (leaveHitchFault s).htc.state = .held ∧ (leaveHitchFault s).htc.holdCause = some .fault) ∧
    (s.mc.mode ≠ .stopping → s.htc.lockReleased = false → (leaveHitchFault s).htc.state = .startLock) ∧
    ((leaveHitchFault s).htc.state = .held ∨ (leaveHitchFault s).htc.state = .startLock) ∧
    (leaveHitchFault s).htc.left = s.htc.left ∧ (leaveHitchFault s).htc.right = s.htc.right := by
  rw [leaveHitchFault_eq]
  by_cases hmode : s.mc.mode = .stopping
  · rw [if_pos hmode]
    exact ⟨rfl, fun _ => ⟨rfl, rfl⟩, fun h => absurd hmode h, fun h => absurd hmode h, .inl rfl, rfl, rfl⟩
  · rw [if_neg hmode]
    cases hlock : s.htc.lockReleased with
    | true =>
      rw [if_pos rfl]
      exact ⟨rfl, fun h => absurd h hmode, fun _ _ => ⟨rfl, rfl⟩, fun _ => nofun, .inl rfl, rfl, rfl⟩
    | false =>
      rw [if_neg Bool.false_ne_true]
      exact ⟨rfl, fun h => absurd h hmode, fun _ => nofun, fun _ _ => rfl, .inr rfl, rfl, rfl⟩

/-- A hitch in START_LOCK or HELD, with no press, keeps its state to step 6. -/
theorem settled_of_still (hstate : s.htc.state = .held ∨ s.htc.state = .startLock)
    (hpress : NoPress s.pins.fenderLeft s.pins.fenderRight s.htc) :
    settleFenders (sourceTest (cabLossTest s)) = buttonsRead (sourceChosen s) := by
  have hcab : cabLossTest s = s := cabLossTest_of_kept (.inr (by rcases hstate with h | h <;> simp [h]))
  have hsource : sourceTest s = sourceChosen s :=
    sourceTest_of_kept fun _ k => by rcases hstate with h | h <;> simp [h] at k
  rw [hcab, hsource]
  exact settleFenders_of_noPress (s := sourceChosen s) hpress

theorem enterWorking_faultCause (s : State) : (enterWorking s).htc.faultCause = s.htc.faultCause := by
  obtain ⟨-, -, hfree, hhigh⟩ := enterWorking_spec s
  cases hpins : pinsHigh s.htc with
  | true => rw [(hhigh hpins).1]
  | false => rw [(hfree hpins).1]

theorem actWorking_faultCause (s : State) : (actWorking s).htc.faultCause = s.htc.faultCause := by
  unfold actWorking
  split
  · rw [beginRelief_htc]
  · obtain ⟨hrv, hlv, hhtc⟩ := actLaw_htc s
    rw [hhtc]

theorem actStartLock_faultCause (s : State) : (actStartLock s).htc.faultCause = s.htc.faultCause := by
  unfold actStartLock
  split
  · rw [actWorking_faultCause, enterWorking_faultCause]
    rfl
  · rw [setValves_htc]

/-- START_LOCK stands without a FRESH lever (R118). -/
theorem actStartLock_of_stale (h : s.lc.cabHitch.isFresh = false) : actStartLock s = setValves 0 0 s :=
  if_neg (by simp [leverMatches, h])

/-- The hold cause and the lock at a hitch whose lever frees nothing. -/
theorem filedRec_keeps (s : State) : (filedRec s).state = s.htc.state ∧ (filedRec s).lockReleased = s.htc.lockReleased ∧
    (filedRec s).posValid = s.sfe.posValid ∧ (filedRec s).pinFailed = pinsFailed s := by
  rcases hcab : s.lc.cabHitch.current with _ | f
  · rw [filedRec_of_none hcab]
    exact ⟨rfl, rfl, rfl, rfl⟩
  · rw [filedRec_of_current hcab]
    exact ⟨rfl, rfl, rfl, rfl⟩

theorem taken_posValid (l r : Bool) (s : State) : (hitchInputsTaken l r s).htc.posValid = s.sfe.posValid :=
  (congrArg HitchInputs.posValid (taken_inputs l r s)).trans (filedRec_keeps s).2.2.1

/-- A hitch without a valid position, or with a faulted valve, is held with its cause (R119). -/
theorem interval_of_faulted (h : s.sfe.posValid = false ∨ s.hitchFaulted = true) :
    (actHitch (hitchSettled l r s)).htc.state = .faultHold ∧ ValvesAt 0 0 (actHitch (hitchSettled l r s)) ∧
    (actHitch (hitchSettled l r s)).htc.faultCause = if s.sfe.posValid = true then some .valve else some .position := by
  have hpos := taken_posValid l r s
  have hvalves := taken_faulted l r s
  unfold hitchSettled
  generalize hitchInputsTaken l r s = u at *
  rw [← hpos, ← hvalves] at h
  obtain ⟨hheld, hcause⟩ := hitchFaultTest_of_due h
  generalize hitchFaultTest u = w at *
  obtain ⟨hstate, hkept⟩ := settled_of_faultHold hheld
  generalize settleFenders (sourceTest (cabLossTest w)) = v at *
  obtain ⟨hclosed, hhtc⟩ := still_spec (.inr hstate)
  rw [hhtc, ← hpos]
  refine ⟨hstate, hclosed, (hkept.trans hcause).trans ?_⟩
  cases u.htc.posValid <;> rfl

/-- What step 6 makes of a hitch in HELD or START_LOCK that found no press. -/
theorem acts_of_left {w : State} (hstill : w.htc.state = .held ∨ w.htc.state = .startLock)
    (hpress : NoPress w.pins.fenderLeft w.pins.fenderRight w.htc) :
    (actHitch (settleFenders (sourceTest (cabLossTest w)))).htc.faultCause = w.htc.faultCause ∧
    (w.htc.state = .held → (actHitch (settleFenders (sourceTest (cabLossTest w)))).htc.state = .held ∧
      (actHitch (settleFenders (sourceTest (cabLossTest w)))).htc.holdCause = w.htc.holdCause ∧
      ValvesAt 0 0 (actHitch (settleFenders (sourceTest (cabLossTest w))))) ∧
    (w.htc.state = .startLock → w.lc.cabHitch.isFresh = false →
      (actHitch (settleFenders (sourceTest (cabLossTest w)))).htc.state = .startLock ∧
      ValvesAt 0 0 (actHitch (settleFenders (sourceTest (cabLossTest w))))) := by
  rw [settled_of_still hstill hpress]
  have hstate : (buttonsRead (sourceChosen w)).htc.state = w.htc.state := rfl
  have hcauses : (buttonsRead (sourceChosen w)).htc.faultCause = w.htc.faultCause ∧
      (buttonsRead (sourceChosen w)).htc.holdCause = w.htc.holdCause := ⟨rfl, rfl⟩
  have hlc : (buttonsRead (sourceChosen w)).lc = w.lc := rfl
  generalize buttonsRead (sourceChosen w) = v at *
  rw [← hstate] at hstill ⊢
  rw [← hlc]
  rcases hstill with hheld | hlock
  · obtain ⟨hclosed, hhtc⟩ := still_spec (.inl hheld)
    rw [hhtc]
    exact ⟨hcauses.1, fun _ => ⟨hheld, hcauses.2, hclosed⟩, fun k => by simp [hheld] at k⟩
  · have hact := actHitch_of_startLock hlock
    refine ⟨?_, fun k => by simp [hlock] at k, fun _ hstale => ?_⟩
    · rw [hact, actStartLock_faultCause]
      exact hcauses.1
    · rw [hact, actStartLock_of_stale (s := cleared v) hstale, setValves_htc]
      exact ⟨hlock, setValves_at _ _ _⟩

/-- A hitch in FAULT_HOLD whose position and valves are good again leaves it (R120, R142). -/
theorem interval_leaves_fault (hstate : s.htc.state = .faultHold) (hvalid : s.sfe.posValid = true)
    (hsound : s.hitchFaulted = false) (hpress : NoPress l r s.htc) :
    (actHitch (hitchSettled l r s)).htc.faultCause = none ∧
    (s.mc.mode = .stopping → (actHitch (hitchSettled l r s)).htc.state = .held ∧
      (actHitch (hitchSettled l r s)).htc.holdCause = some .stop ∧ ValvesAt 0 0 (actHitch (hitchSettled l r s))) ∧
    (s.mc.mode = .operating → s.htc.lockReleased = true → (actHitch (hitchSettled l r s)).htc.state = .held ∧
      (actHitch (hitchSettled l r s)).htc.holdCause = some .fault ∧ ValvesAt 0 0 (actHitch (hitchSettled l r s))) ∧
    (s.mc.mode = .operating → s.htc.lockReleased = false → s.lc.cabHitch.fresh ≠ .fresh →
      (actHitch (hitchSettled l r s)).htc.state = .startLock ∧ ValvesAt 0 0 (actHitch (hitchSettled l r s))) := by
  have hnotFreed : ¬ Freed s := fun k => by
    have hheld := (freed_iff.mp k).1
    simp [hstate] at hheld
  have hrecord := taken_of_not_freed (l := l) (r := r) hnotFreed
  obtain ⟨hfault, hlock, -, -⟩ := filedRec_keeps s
  rw [← hrecord] at hfault hlock
  obtain ⟨hleft, hright⟩ := taken_buttons l r s
  obtain ⟨hl, hr⟩ := taken_pins l r s
  have hpos := taken_posValid l r s
  have hvalves := taken_faulted l r s
  have hmode := taken_mode l r s
  have hlc : (hitchInputsTaken l r s).lc = s.lc := touches_taken l r s .lc (by decide)
  unfold hitchSettled
  generalize hitchInputsTaken l r s = u at *
  rw [hitchFaultTest_of_left (hpos.trans hvalid) (hvalves.trans hsound) (hfault.trans hstate)]
  obtain ⟨hcause, hstopping, hreleased, hlocked, hstill, hkleft, hkright⟩ := leaveHitchFault_spec u
  have hleave := touches_leaveHitchFault u
  have hpins : (leaveHitchFault u).pins = u.pins := hleave .pins (by decide)
  have hwlc : (leaveHitchFault u).lc = s.lc := (hleave .lc (by decide)).trans hlc
  generalize leaveHitchFault u = w at *
  have hnoPress : NoPress w.pins.fenderLeft w.pins.fenderRight w.htc := by
    rw [NoPress, hpins, hl, hr, hkleft, hkright, hleft, hright]
    exact hpress
  rw [hmode, hlock] at *
  obtain ⟨hacause, hheld, hstart⟩ := acts_of_left hstill hnoPress
  refine ⟨hacause.trans hcause, fun hm => ?_, fun hm hrel => ?_, fun hm hrel hstale => ?_⟩
  · obtain ⟨hw, hwcause⟩ := hstopping hm
    exact ⟨(hheld hw).1, (hheld hw).2.1.trans hwcause, (hheld hw).2.2⟩
  · obtain ⟨hw, hwcause⟩ := hreleased (by simp [hm]) hrel
    exact ⟨(hheld hw).1, (hheld hw).2.1.trans hwcause, (hheld hw).2.2⟩
  · exact hstart (hlocked (by simp [hm]) hrel) (by simpa [hwlc, Peer.isFresh] using hstale)

/-- DRAFT_UNAVAILABLE at an interval (R136). -/
theorem interval_draftFault {failed valid : Prop}
    (hfailed : failed ↔ s.sfe.chans.drl.state = .failed ∨ s.sfe.chans.drr.state = .failed)
    (hvalid : valid ↔ s.sfe.chans.drl.state = .valid ∧ s.sfe.chans.drr.state = .valid) :
    ((actHitch (hitchSettled l r s)).htc.pinFailed = true ↔ failed) ∧
    (failed → s.htc.pinFailed = false → (actHitch (hitchSettled l r s)).mc = (raise .draftUnavailable s).mc) ∧
    (valid → (actHitch (hitchSettled l r s)).mc = (clearFault .draftUnavailable s).mc) ∧
    (¬ valid → ¬ failed ∨ s.htc.pinFailed = true → (actHitch (hitchSettled l r s)).mc = s.mc) := by
  obtain ⟨-, hmc, hinputs, -, -⟩ := interval_keeps l r s
  have hpinFailed := (congrArg HitchInputs.pinFailed hinputs).trans (filedRec_keeps s).2.2.2
  change (actHitch (hitchSettled l r s)).htc.pinFailed = _ at hpinFailed
  generalize actHitch (hitchSettled l r s) = t at *
  obtain ⟨hraise, hclear, hkept⟩ := readHitch_mc (presentButtons l r s)
  have hfailed' : pinsFailed s = true ↔ failed := (pinsFailed_iff s).trans hfailed.symm
  have hvalid' : pinsValid s = true ↔ valid := (pinsValid_iff s).trans hvalid.symm
  rw [hmc, hpinFailed]
  refine ⟨hfailed', fun hf hseen => ?_, fun hv => ?_, fun hv hf => ?_⟩
  · exact (hraise (hfailed'.mpr hf) hseen).trans (raise_mc_congr _ rfl)
  · exact (hclear (hvalid'.mpr hv)).trans (clearFault_mc_congr _ rfl)
  · refine hkept (Bool.eq_false_iff.mpr fun k => hv (hvalid'.mp k)) (hf.imp_left fun hf => ?_)
    exact Bool.eq_false_iff.mpr fun k => hf (hfailed'.mp k)

end

/-- Settles O40. -/
theorem hitchTakesSfeEvents : Obligations.HitchTakesSfeEvents := by
  intro ev rest s hruns
  refine ⟨fun p hold => ?draft, fun hold => ?hps, fun l r => ⟨_, exec_htcInterval hruns, interval_of_faulted,
    interval_leaves_fault, fun failed valid hfailed hvalid => interval_draftFault hfailed hvalid⟩⟩
  case draft =>
    have h := draftTaken p ev (s.withEvents rest)
    refine ⟨_, exec_htcDraftEvent hruns hold, h.touches .events (by decide),
      also ((touches_withEvents s rest).mono (by decide)) h.touches, h.state, fun mine other mine' other' hpins => ?_⟩
    have hmatch : mine = pinOf p s.htc ∧ other = otherPin p s.htc ∧
        mine' = pinOf p (takeDraft p ev (s.withEvents rest)).htc ∧
        other' = otherPin p (takeDraft p ev (s.withEvents rest)).htc := by
      cases p <;> exact hpins
    obtain ⟨rfl, rfl, rfl, rfl⟩ := hmatch
    exact ⟨h.other, h.high, h.low, h.idle, h.relieved, h.noted, fun hev => ⟨h.ended hev, h.stands hev⟩⟩
  case hps =>
    obtain ⟨htouches, hsame, hfailed⟩ := takeHps_spec ev (s.withEvents rest)
    refine ⟨_, exec_htcHpsFailed hruns hold, htouches .events (by decide),
      also ((touches_withEvents s rest).mono (by decide)) htouches, fun hev => ?_, hfailed⟩
    rw [hsame hev]
    exact ⟨rfl, rfl⟩

end Sys2Proof.Proofs
end

