-- ==== Sys2Proof/Proofs/HitchStates.lean ====
section
/-! SUPPORT. The control interval of a hitch with a valid position and no faulted valve: the tests between its inputs and
step 6, and what WORKING, RAISING and TRANSPORT leave (R124 to R126, R131 to R140). -/

namespace Sys2Proof.Proofs

open Sys2Proof Sys2Proof.Machine

/-! ## The interval behind its inputs -/

/-- The state after an interval. -/
def hitchAfter (l r : Bool) (s : State) : State := actHitch (hitchSettled l r s)

/-- The steps between the inputs and step 6. -/
def hitchTested (u : State) : State := settleFenders (sourceTest (cabLossTest (hitchFaultTest u)))

/-- What the first two steps leave of a sound hitch's surroundings. -/
structure InputsRead (l r : Bool) (s u : State) : Prop where
  valid : u.htc.posValid = true
  valves : u.hitchFaulted = false
  lc : u.lc = s.lc
  scu : u.scu = s.scu
  cfg : u.cfg = s.cfg
  mode : u.mc.mode = s.mc.mode
  press : NoPress u.pins.fenderLeft u.pins.fenderRight u.htc ↔ NoPress l r s.htc
  pinLeft : u.htc.pinLeft = (s.sfe.chans.drl.cmp == .high)
  pinRight : u.htc.pinRight = (s.sfe.chans.drr.cmp == .high)

/-- The fields of the record that no input writes stand. -/
structure RecordStands (h k : Htc) : Prop where
  state : k.state = h.state
  holdCause : k.holdCause = h.holdCause
  overload : k.overload = h.overload
  lockReleased : k.lockReleased = h.lockReleased
  source : k.source = h.source
  dAvg : k.dAvg = h.dAvg
  reload : k.reload = h.reload

section
variable {l r : Bool} {s u v : State}

theorem filedRec_stands (s : State) : RecordStands s.htc (filedRec s) := by
  rcases hcab : s.lc.cabHitch.current with _ | f
  · rw [filedRec_of_none hcab]
    exact ⟨rfl, rfl, rfl, rfl, rfl, rfl, rfl⟩
  · rw [filedRec_of_current hcab]
    exact ⟨rfl, rfl, rfl, rfl, rfl, rfl, rfl⟩

theorem filedRec_pins (s : State) : (filedRec s).pinLeft = (s.sfe.chans.drl.cmp == .high) ∧
    (filedRec s).pinRight = (s.sfe.chans.drr.cmp == .high) := by
  rcases hcab : s.lc.cabHitch.current with _ | f
  · rw [filedRec_of_none hcab]
    exact ⟨rfl, rfl⟩
  · rw [filedRec_of_current hcab]
    exact ⟨rfl, rfl⟩

/-- The interval of a sound hitch, from the state that its inputs leave. -/
theorem interval_from_inputs (l r : Bool) (hsound : HitchSound s) : ∃ u : State, InputsRead l r s u ∧
    hitchAfter l r s = actHitch (hitchTested u) ∧ (¬ Freed s → RecordStands s.htc u.htc) ∧
    (Freed s → u.htc.state = .working ∧ u.htc.holdCause = none ∧ u.htc.overload = pinsHigh u.htc ∧
      u.htc.source = s.htc.source ∧ u.htc.lockReleased = s.htc.lockReleased) := by
  have htouches := touches_taken l r s
  have hinputs := taken_inputs l r s
  obtain ⟨hl, hr⟩ := taken_pins l r s
  obtain ⟨hleft, hright⟩ := taken_buttons l r s
  obtain ⟨hpinLeft, hpinRight⟩ := filedRec_pins s
  refine ⟨hitchInputsTaken l r s, ?_, rfl, fun h => ?_, fun h => ?_⟩
  · exact {
      valid := (taken_posValid l r s).trans hsound.position
      valves := (taken_faulted l r s).trans hsound.valves
      lc := htouches .lc (by decide)
      scu := htouches .scu (by decide)
      cfg := htouches .cfg (by decide)
      mode := taken_mode l r s
      press := by rw [NoPress, NoPress, hl, hr, hleft, hright]
      pinLeft := (congrArg HitchInputs.pinLeft hinputs).trans hpinLeft
      pinRight := (congrArg HitchInputs.pinRight hinputs).trans hpinRight }
  · rw [taken_of_not_freed h]
    exact filedRec_stands s
  · obtain ⟨mixed, hrv, hlv, hhtc⟩ := taken_of_freed (l := l) (r := r) h
    have hstands := filedRec_stands s
    have hpins : pinsHigh (hitchRead s) = pinsHigh (filedRec s) := by
      rw [pinsHigh, pinsHigh, hpinLeft, hpinRight]
      rfl
    rw [hhtc]
    exact ⟨rfl, rfl, hpins, hstands.source, hstands.lockReleased⟩

/-! ### The steps between -/

/-- Nothing found: the source chosen and the buttons read. -/
theorem settled_of_kept (hu : InputsRead l r s u) (hpress : NoPress l r s.htc) (hstate : u.htc.state ≠ .faultHold)
    (hcab : s.lc.cabHitch.isFresh = true ∨
      (u.htc.state ≠ .working ∧ u.htc.state ≠ .raising ∧ u.htc.state ≠ .transport))
    (hsource : u.htc.source = .implement → u.htc.state = .working → s.lc.implement.isFresh = true) :
    hitchTested u = buttonsRead (sourceChosen u) := by
  rw [hitchTested, hitchFaultTest_of_sound hu.valid hu.valves hstate, cabLossTest_of_kept (by rwa [hu.lc]),
    sourceTest_of_kept (by rwa [hu.lc])]
  exact settleFenders_of_noPress (s := sourceChosen u) (hu.press.mpr hpress)

/-- The cab lost (R124). -/
theorem settled_of_cabLost (hu : InputsRead l r s u) (hpress : NoPress l r s.htc)
    (hstate : u.htc.state = .working ∨ u.htc.state = .raising ∨ u.htc.state = .transport)
    (hstale : s.lc.cabHitch.isFresh = false) : hitchTested u = buttonsRead (sourceChosen (enterHeld .cabLost u)) := by
  have hhtc := enterHeld_htc u .cabLost
  have hpins : (enterHeld .cabLost u).pins = u.pins := touches_enterHeld u _ .pins (by decide)
  have hnoPress : NoPress (enterHeld .cabLost u).pins.fenderLeft (enterHeld .cabLost u).pins.fenderRight
      (enterHeld .cabLost u).htc := by
    rw [NoPress, hpins, hhtc]
    exact hu.press.mpr hpress
  rw [hitchTested, hitchFaultTest_of_sound hu.valid hu.valves (by rcases hstate with h | h | h <;> simp [h]),
    cabLossTest_of_lost (by rwa [hu.lc]) hstate, sourceTest_of_kept (fun _ k => by simp [hhtc] at k)]
  exact settleFenders_of_noPress (s := sourceChosen (enterHeld .cabLost u)) hnoPress

/-- The implement lost that was the source in WORKING (R125). -/
theorem settled_of_sourceLost (hu : InputsRead l r s u) (hpress : NoPress l r s.htc) (hstate : u.htc.state = .working)
    (hfresh : s.lc.cabHitch.isFresh = true) (hsource : u.htc.source = .implement)
    (hstale : s.lc.implement.isFresh = false) :
    hitchTested u = buttonsRead (sourceChosen (enterHeld .sourceLost u)) := by
  have hhtc := enterHeld_htc u .sourceLost
  have hpins : (enterHeld .sourceLost u).pins = u.pins := touches_enterHeld u _ .pins (by decide)
  have hnoPress : NoPress (enterHeld .sourceLost u).pins.fenderLeft (enterHeld .sourceLost u).pins.fenderRight
      (enterHeld .sourceLost u).htc := by
    rw [NoPress, hpins, hhtc]
    exact hu.press.mpr hpress
  rw [hitchTested, hitchFaultTest_of_sound hu.valid hu.valves (by simp [hstate]),
    cabLossTest_of_kept (.inl (by rwa [hu.lc])), sourceTest_of_lost hsource hstate (by rwa [hu.lc])]
  exact settleFenders_of_noPress (s := sourceChosen (enterHeld .sourceLost u)) hnoPress

/-! ### The source of the depth (R125, R126) -/

theorem chosenDepth_implement {i : ImplementFields} (hcurrent : u.lc.implement.current = some i)
    (hmode : i.positionMode = true) (hauthority : u.htc.cab.authority = true) :
    chosenDepth u = (.implement, min 1000 i.position) := by
  simp [chosenDepth, implementDepth, hcurrent, hmode, hauthority]

theorem chosenDepth_cab (h : u.lc.implement.current = none ∨ u.htc.cab.authority = false ∨
    ∃ i : ImplementFields, u.lc.implement.current = some i ∧ i.positionMode = false) :
    chosenDepth u = (.cab, u.htc.cab.lever) := by
  rcases h with h | h | ⟨i, hi, hmode⟩
  · cases hauthority : u.htc.cab.authority <;> simp [chosenDepth, implementDepth, h, hauthority]
  · simp [chosenDepth, implementDepth, h]
  · cases hauthority : u.htc.cab.authority <;> simp [chosenDepth, implementDepth, hi, hmode, hauthority]

/-! ### WORKING (R133 to R138) -/

/-- Relief at an interval in WORKING. -/
theorem working_relief (hstate : v.htc.state = .working)
    (h : v.htc.overload = true ∨ v.htc.pinLeft = true ∨ v.htc.pinRight = true) :
    (actHitch v).htc.state = .working ∧ (actHitch v).htc.holdCause = v.htc.holdCause ∧
    (actHitch v).htc.overload = true ∧ (actHitch v).htc.mixed = none ∧ (actHitch v).htc.slipOverride = false ∧
    ValvesAt (if ((actHitch v).htc.cab.upper : Int) ≤ (actHitch v).htc.position then 0 else 1200) 0 (actHitch v) := by
  have hvalves := beginRelief_at (cleared v)
  rw [raiseCurrent_eq] at hvalves
  rw [actHitch_of_working hstate, actWorking_of_relief (s := cleared v) h, beginRelief_htc]
  exact ⟨hstate, rfl, rfl, rfl, rfl, hvalves⟩

/-- The law at an interval in WORKING, read from the record it leaves. -/
theorem working_law (hstate : v.htc.state = .working) (h : v.htc.overload = false) (hl : v.htc.pinLeft = false)
    (hr : v.htc.pinRight = false) :
    (actHitch v).htc.state = .working ∧ (actHitch v).htc.holdCause = v.htc.holdCause ∧
    (actHitch v).htc.overload = false ∧ (actHitch v).htc.mixed.isSome = true ∧
    (actHitch v).htc.lockReleased = v.htc.lockReleased ∧
    ((actHitch v).htc.source, (actHitch v).htc.depth, (actHitch v).htc.cab) = (v.htc.source, v.htc.depth, v.htc.cab) ∧
    ∀ span m e0 e : Int, span = v.cfg.draftSpan →
      m = (if (actHitch v).htc.draftValid = true then (actHitch v).htc.cab.mix else 0) →
      e0 = Int.tdiv ((100 - m) * ((actHitch v).htc.depth - (actHitch v).htc.position) +
        m * Int.tdiv (((actHitch v).htc.draft - Int.tdiv (span * (1000 - (actHitch v).htc.depth)) 1000) * 1000) span) 100 →
      e = (if (actHitch v).htc.slipOn = true ∧ v.scu.motion.slipVal = .valid ∧
          ((actHitch v).htc.cab.slipLimit : Int) < v.scu.motion.filtered
        then max e0 ((v.scu.motion.filtered - (actHitch v).htc.cab.slipLimit) * 4) else e0) →
      (actHitch v).htc.mixed = some e ∧ ((actHitch v).htc.slipOverride = true ↔ e0 < e) ∧
      (e.natAbs ≤ 10 → ValvesAt 0 0 (actHitch v)) ∧
      (10 < e → ValvesAt (if ((actHitch v).htc.cab.upper : Int) ≤ (actHitch v).htc.position then 0
        else min 1200 (380 + (e.natAbs - 10) * 6)) 0 (actHitch v)) ∧
      (e < -10 → ValvesAt 0 (min (350 + (actHitch v).htc.cab.dropRate * 65) (350 + (e.natAbs - 10) * 5)) (actHitch v)) := by
  have hact : actHitch v = actLaw (cleared v) :=
    (actHitch_of_working hstate).trans (actWorking_of_law (s := cleared v) h hl hr)
  obtain ⟨hrv, hlv, hhtc⟩ := actLaw_htc (cleared v)
  rw [hact]
  refine ⟨by rw [hhtc]; exact hstate, by rw [hhtc]; rfl, by rw [hhtc]; exact h, by rw [hhtc]; rfl, by rw [hhtc]; rfl,
    by rw [hhtc]; rfl, fun span m e0 e hspan hm he0 he => ?_⟩
  rw [hhtc] at hm he0 he
  have hspec := actLaw_spec (s := cleared v) hspan (hm.trans (Nat.cast_ite _ _ _)) he0 he
  rw [hhtc] at hspec ⊢
  exact hspec

/-! ### RAISING and TRANSPORT (R131, R132, R139, R140) -/

theorem raising_acts (hstate : v.htc.state = .raising) :
    (((actHitch v).htc.cab.upper : Int) ≤ (actHitch v).htc.position → (actHitch v).htc.state = .transport ∧
      ValvesAt 0 0 (actHitch v) ∧ (actHitch v).htc.reload = !(actHitch v).htc.draftValid ∧
      (actHitch v).htc.dAvg = if (actHitch v).htc.draftValid = true then (actHitch v).htc.draft else v.htc.dAvg) ∧
    ((actHitch v).htc.position < (actHitch v).htc.cab.upper → (actHitch v).htc.state = .raising ∧
      ValvesAt 1200 0 (actHitch v)) := by
  have hact : actHitch v = if atUpper v.htc = true then enterTransport (cleared v) else setValves fullRaise 0 (cleared v) :=
    actHitch_of_raising hstate
  rw [hact]
  by_cases hup : (v.htc.cab.upper : Int) ≤ v.htc.position
  · rw [if_pos (show atUpper v.htc = true from decide_eq_true hup)]
    have hhtc : (enterTransport (cleared v)).htc = { v.htc with
        mixed := none, damping := false, slipOverride := false, state := .transport, reload := !v.htc.draftValid
        dAvg := if v.htc.draftValid then v.htc.draft else v.htc.dAvg, hrv := 0, hlv := 0 } := setValves_htc _ _ _
    rw [hhtc]
    exact ⟨fun _ => ⟨rfl, setValves_at _ _ _, rfl, rfl⟩, fun hlow => absurd hup (not_le.mpr hlow)⟩
  · rw [if_neg (show ¬ atUpper v.htc = true by simpa [atUpper] using hup), setValves_htc]
    exact ⟨fun h => absurd h hup, fun _ => ⟨hstate, setValves_at _ _ _⟩⟩

theorem dampingActs_iff (s : State) : dampingActs s = true ↔ s.htc.cab.damping = true ∧
    2200 < s.scu.motion.vGround ∧ s.htc.draftValid = true ∧ s.htc.reload = false := by
  simp [dampingActs, and_assoc]

/-- The error of the draft under ride damping, and the valves it asks for (R140). -/
def dampError (s : State) : Int := Int.tdiv (-(s.htc.draft - s.htc.dAvg) * 1000) s.cfg.draftSpan

def dampValves (s : State) : Nat × Nat :=
  lawValves (dampError s) (atUpper s.htc) (decide (s.htc.position ≤ (s.htc.cab.upper : Int) - 30)) s.htc.cab.dropRate

theorem actDamping_eq (s : State) : actDamping s = setValves (dampValves s).1 (dampValves s).2
    (s.withHtc { s.htc with mixed := some (dampError s), damping := true }) := rfl

/-- D_avg after an interval that stays in TRANSPORT (R139). -/
def avgAfter (h : Htc) : Int :=
  if h.draftValid = true then (if h.reload = true then h.draft else h.dAvg + Int.tdiv (h.draft - h.dAvg) 64) else h.dAvg

theorem followDraft_eq (h : Htc) : followDraft h = { h with dAvg := avgAfter h, reload := !h.draftValid } := by
  unfold followDraft avgAfter
  by_cases hvalid : h.draftValid = true
  · rw [if_pos hvalid, if_pos hvalid, hvalid]
    by_cases hreload : h.reload = true
    · rw [if_pos hreload, if_pos hreload]
      rfl
    · rw [if_neg hreload, if_neg hreload, Bool.not_eq_true] at *
      rw [hreload]
      rfl
  · rw [if_neg hvalid, if_neg hvalid, Bool.not_eq_true] at *
    rw [hvalid]
    rfl

/-- The record after an interval that stays in TRANSPORT. -/
theorem transport_stays (hstate : v.htc.state = .transport)
    (hup : (v.htc.cab.upper : Int) ≤ v.htc.position + 50) : ∃ (hrv hlv : Nat) (mixed : Option Int) (damps : Bool),
    (actHitch v).htc = { v.htc with
      mixed := mixed, damping := damps, slipOverride := false, hrv := hrv, hlv := hlv, dAvg := avgAfter v.htc
      reload := !v.htc.draftValid } ∧
    (dampingActs v = false → damps = false ∧ mixed = none ∧ ValvesAt 0 0 (actHitch v)) ∧
    (dampingActs v = true → damps = true ∧ mixed = some (dampError v) ∧
      ValvesAt (dampValves v).1 (dampValves v).2 (actHitch v)) := by
  have hact : actHitch v = (if dampingActs v = true then actDamping (cleared v) else setValves 0 0 (cleared v)).withHtc
      (followDraft (if dampingActs v = true then actDamping (cleared v) else setValves 0 0 (cleared v)).htc) :=
    (actHitch_of_transport hstate).trans (if_neg (not_lt.mpr hup))
  rw [hact]
  cases hdamps : dampingActs v with
  | false =>
    rw [if_neg Bool.false_ne_true, State.withHtc_htc, followDraft_eq, setValves_htc]
    exact ⟨0, 0, none, false, rfl, fun _ => ⟨rfl, rfl, setValves_at 0 0 (cleared v)⟩, nofun⟩
  | true =>
    rw [if_pos rfl, State.withHtc_htc, followDraft_eq, actDamping_eq, setValves_htc]
    exact ⟨_, _, _, true, rfl, nofun, fun _ => ⟨rfl, rfl, setValves_at _ _ _⟩⟩

theorem transport_acts (hstate : v.htc.state = .transport) :
    ((actHitch v).htc.position + 50 < (actHitch v).htc.cab.upper → (actHitch v).htc.state = .raising ∧
      ValvesAt 1200 0 (actHitch v)) ∧
    (((actHitch v).htc.cab.upper : Int) ≤ (actHitch v).htc.position + 50 → (actHitch v).htc.state = .transport ∧
      ((actHitch v).htc.draftValid = false → (actHitch v).htc.reload = true ∧ (actHitch v).htc.dAvg = v.htc.dAvg) ∧
      ((actHitch v).htc.draftValid = true → (actHitch v).htc.reload = false ∧ (actHitch v).htc.dAvg =
        (if v.htc.reload = true then (actHitch v).htc.draft
          else v.htc.dAvg + Int.tdiv ((actHitch v).htc.draft - v.htc.dAvg) 64)) ∧
      ∀ (acts : Prop) (e : Int),
        (acts ↔ (actHitch v).htc.cab.damping = true ∧ 2200 < v.scu.motion.vGround ∧
          (actHitch v).htc.draftValid = true ∧ v.htc.reload = false) →
        e = Int.tdiv (-((actHitch v).htc.draft - v.htc.dAvg) * 1000) v.cfg.draftSpan →
        (¬ acts → (actHitch v).htc.damping = false ∧ (actHitch v).htc.mixed = none ∧ ValvesAt 0 0 (actHitch v)) ∧
        (acts → (actHitch v).htc.damping = true ∧ (actHitch v).htc.mixed = some e ∧
          (e.natAbs ≤ 10 → ValvesAt 0 0 (actHitch v)) ∧
          (10 < e → ValvesAt (if ((actHitch v).htc.cab.upper : Int) ≤ (actHitch v).htc.position then 0
            else min 1200 (380 + (e.natAbs - 10) * 6)) 0 (actHitch v)) ∧
          (e < -10 → ValvesAt 0 (if (actHitch v).htc.position ≤ ((actHitch v).htc.cab.upper : Int) - 30 then 0
            else min (350 + (actHitch v).htc.cab.dropRate * 65) (350 + (e.natAbs - 10) * 5)) (actHitch v)))) := by
  by_cases hlow : v.htc.position + 50 < v.htc.cab.upper
  · have hact : actHitch v = enterRaising (cleared v) :=
      (actHitch_of_transport hstate).trans (if_pos hlow)
    rw [hact, enterRaising_htc]
    exact ⟨fun _ => ⟨rfl, setValves_at _ _ _⟩, fun h => absurd hlow (not_lt.mpr h)⟩
  · obtain ⟨hrv, hlv, mixed, damps, hhtc, hidle, hdamps⟩ := transport_stays hstate (not_lt.mp hlow)
    rw [hhtc]
    refine ⟨fun h => absurd h hlow, fun _ => ⟨hstate, fun h : v.htc.draftValid = false => ?_,
      fun h : v.htc.draftValid = true => ?_, fun acts e hacts he => ?_⟩⟩
    · exact ⟨by simp [h], if_neg (by simp [h])⟩
    · exact ⟨by simp [h], if_pos h⟩
    · have hiff : dampingActs v = true ↔ acts := (dampingActs_iff v).trans hacts.symm
      refine ⟨fun hno => hidle (Bool.eq_false_iff.mpr fun k => hno (hiff.mp k)), fun h => ?_⟩
      obtain ⟨hdamping, hmixed, hat⟩ := hdamps (hiff.mpr h)
      obtain rfl : e = dampError v := he
      obtain ⟨hnone, hraise, hlower⟩ := lawValves_at hat
      refine ⟨hdamping, hmixed, hnone, fun hpos => ?_, fun hneg => ?_⟩
      · simpa only [atUpper, decide_eq_true_eq] using hraise hpos
      · simpa only [decide_eq_true_eq] using hlower hneg

end

end Sys2Proof.Proofs
end

