-- ==== Sys2Proof/Proofs/HitchButtons.lean ====
section
/-! PROOF. O38: the hitch's control interval with a valid position and no faulted valve (R116 to R142). -/

namespace Sys2Proof.Proofs

open Sys2Proof Sys2Proof.Machine

/-! ## START_LOCK and FENDER (R118, R128) -/

section
variable {v : State}

theorem leverMatches_iff (s : State) : leverMatches s = true ↔
    s.lc.cabHitch.fresh = .fresh ∧ ((s.htc.cab.lever : Int) - s.htc.position).natAbs ≤ 50 := by
  simp [leverMatches, Peer.isFresh]

/-- The interval keeps the cab's fields and the position of the record. -/
theorem actHitch_keeps (v : State) : (actHitch v).htc.cab = v.htc.cab ∧ (actHitch v).htc.position = v.htc.position ∧
    (actHitch v).htc.left = v.htc.left ∧ (actHitch v).htc.right = v.htc.right := by
  obtain ⟨-, hinputs, hbuttons⟩ := (HitchKeeps.refl v).actHitch
  exact ⟨congrArg HitchInputs.cab hinputs, congrArg HitchInputs.position hinputs, (Prod.mk.inj hbuttons).1,
    (Prod.mk.inj hbuttons).2⟩

theorem actWorking_spec {w : State} (hstate : w.htc.state = .working) : (actWorking w).htc.state = .working ∧
    (actWorking w).htc.lockReleased = w.htc.lockReleased ∧
    (w.htc.overload = false → w.htc.pinLeft = false → w.htc.pinRight = false →
      (actWorking w).htc.overload = false ∧ (actWorking w).htc.mixed.isSome = true) := by
  by_cases h : w.htc.overload = true ∨ w.htc.pinLeft = true ∨ w.htc.pinRight = true
  · rw [actWorking_of_relief h, beginRelief_htc]
    exact ⟨hstate, rfl, fun h1 h2 h3 => by simp [h1, h2, h3] at h⟩
  · simp only [not_or, Bool.not_eq_true] at h
    obtain ⟨hoverload, hl, hr⟩ := h
    obtain ⟨hrv, hlv, hhtc⟩ := actLaw_htc w
    rw [actWorking_of_law hoverload hl hr, hhtc]
    exact ⟨hstate, rfl, fun _ _ _ => ⟨hoverload, rfl⟩⟩

/-- START_LOCK released. -/
def lockOpened (s : State) : State := s.withHtc { s.htc with lockReleased := true }

theorem startLock_acts (hstate : v.htc.state = .startLock) :
    (v.lc.cabHitch.fresh = .fresh → (((actHitch v).htc.cab.lever : Int) - (actHitch v).htc.position).natAbs ≤ 50 →
      (actHitch v).htc.state = .working ∧ (actHitch v).htc.lockReleased = true ∧
      (v.htc.pinLeft = false → v.htc.pinRight = false →
        (actHitch v).htc.overload = false ∧ (actHitch v).htc.mixed.isSome = true)) ∧
    (v.lc.cabHitch.fresh ≠ .fresh ∨ 50 < (((actHitch v).htc.cab.lever : Int) - (actHitch v).htc.position).natAbs →
      (actHitch v).htc.state = .startLock ∧ (actHitch v).htc.lockReleased = v.htc.lockReleased ∧
      ValvesAt 0 0 (actHitch v)) := by
  obtain ⟨hcab, hposition, -, -⟩ := actHitch_keeps v
  rw [hcab, hposition, actHitch_of_startLock hstate]
  have hact : actStartLock (cleared v) = if leverMatches (cleared v) = true then
      actWorking (enterWorking (lockOpened (cleared v))) else setValves 0 0 (cleared v) := rfl
  rw [hact]
  by_cases hmatch : v.lc.cabHitch.fresh = .fresh ∧ ((v.htc.cab.lever : Int) - v.htc.position).natAbs ≤ 50
  · rw [if_pos ((leverMatches_iff (cleared v)).mpr hmatch)]
    refine ⟨fun _ _ => ?_, fun hno => ?_⟩
    · obtain ⟨hworking, hlock, hfree, -⟩ := enterWorking_spec (lockOpened (cleared v))
      obtain ⟨hstate', hlock', hlaw⟩ := actWorking_spec hworking
      refine ⟨hstate', hlock'.trans hlock, fun hl hr => ?_⟩
      have hhtc := (hfree (pinsHigh_false_iff.mpr ⟨hl, hr⟩)).1
      exact hlaw (by rw [hhtc]) (by rw [hhtc]; exact hl) (by rw [hhtc]; exact hr)
    · exact (hno.elim (fun k => k hmatch.1) fun k => absurd hmatch.2 (not_le.mpr k)).elim
  · rw [if_neg fun k => hmatch ((leverMatches_iff (cleared v)).mp k), setValves_htc]
    exact ⟨fun h1 h2 => absurd ⟨h1, h2⟩ hmatch, fun _ => ⟨hstate, rfl, setValves_at _ _ _⟩⟩

/-- The hitch held by the fender buttons. -/
theorem heldByFender (h : v.htc.state = .fender) : (enterHeld .fender (cleared v)).htc = { v.htc with
    mixed := none, damping := false, slipOverride := false, state := .held, overload := false, hrv := 0, hlv := 0
    holdCause := some .fender } := by
  have hne : ¬ (cleared v).htc.state = .held := by
    rw [cleared_htc]
    simp [h]
  rw [enterHeld_htc, if_neg hne]
  rfl

theorem fender_rolls (hstate : v.htc.state = .fender) (hroll : v.scu.motion.standstill = false) :
    (actHitch v).htc.state = .held ∧ (actHitch v).htc.holdCause = some .fender ∧ (actHitch v).htc.refused = true ∧
    ValvesAt 0 0 (actHitch v) := by
  have hact : actHitch v = (enterHeld .fender (cleared v)).withHtc
      { (enterHeld .fender (cleared v)).htc with refused := true } :=
    (actHitch_of_fender hstate).trans (if_pos (show (!v.scu.motion.standstill) = true by simp [hroll]))
  have hheld := heldByFender hstate
  have hat : ValvesAt 0 0 (enterHeld .fender (cleared v)) := setValves_at _ _ _
  rw [hact, State.withHtc_htc]
  exact ⟨by rw [hheld], by rw [hheld], rfl, hat⟩

/-- FENDER at standstill with the buttons as they are settled. -/
theorem fender_stands (hstate : v.htc.state = .fender) (hstill : v.scu.motion.standstill = true) :
    (v.htc.left.settled = some false → v.htc.right.settled = some false →
      actHitch v = enterHeld .fender (cleared v)) ∧
    (v.htc.left.settled = some true → v.htc.right.settled ≠ some true →
      actHitch v = setValves (raiseCurrent v.htc fenderRaise) 0 (cleared v)) ∧
    (v.htc.left.settled ≠ some true → v.htc.right.settled = some true →
      actHitch v = setValves 0 fenderLower (cleared v)) ∧
    (v.htc.left.settled = some true → v.htc.right.settled = some true → actHitch v = setValves 0 0 (cleared v)) := by
  have hact : actHitch v = if bothReleased (cleared v).htc = true then enterHeld .fender (cleared v)
      else match (cleared v).htc.left.isPressed, (cleared v).htc.right.isPressed with
        | true, false => setValves (if atUpper (cleared v).htc then 0 else fenderRaise) 0 (cleared v)
        | false, true => setValves 0 fenderLower (cleared v)
        | _, _ => setValves 0 0 (cleared v) :=
    (actHitch_of_fender hstate).trans (if_neg (show ¬ (!v.scu.motion.standstill) = true by simp [hstill]))
  have hreleased : bothReleased (cleared v).htc =
      (v.htc.left.settled == some false && v.htc.right.settled == some false) := rfl
  have hleft : (cleared v).htc.left.isPressed = (v.htc.left.settled == some true) := rfl
  have hright : (cleared v).htc.right.isPressed = (v.htc.right.settled == some true) := rfl
  rw [hact, hreleased, hleft, hright]
  refine ⟨fun hl hr => ?_, fun hl hr => ?_, fun hl hr => ?_, fun hl hr => ?_⟩
  · rw [if_pos (by simp [hl, hr])]
  · have hr' : (v.htc.right.settled == some true) = false := by simp [hr]
    rw [if_neg (by simp [hl]), hr', hl]
    rfl
  · have hl' : (v.htc.left.settled == some true) = false := by simp [hl]
    rw [if_neg (by simp [hr]), hl', hr]
    rfl
  · rw [if_neg (by simp [hl]), hl, hr]
    rfl

/-- The fender buttons move the hitch at standstill, and a tractor that rolls holds it (R128). -/
theorem fender_acts (hstate : v.htc.state = .fender) :
    (v.scu.motion.standstill = false → (actHitch v).htc.state = .held ∧ (actHitch v).htc.holdCause = some .fender ∧
      (actHitch v).htc.refused = true ∧ ValvesAt 0 0 (actHitch v)) ∧
    ((actHitch v).htc.left.settled = some false → (actHitch v).htc.right.settled = some false →
      (actHitch v).htc.state = .held ∧ (actHitch v).htc.holdCause = some .fender ∧ ValvesAt 0 0 (actHitch v)) ∧
    (v.scu.motion.standstill = true → (actHitch v).htc.left.settled = some true →
      (actHitch v).htc.right.settled ≠ some true → (actHitch v).htc.state = .fender ∧
      ValvesAt (if ((actHitch v).htc.cab.upper : Int) ≤ (actHitch v).htc.position then 0 else 700) 0 (actHitch v)) ∧
    (v.scu.motion.standstill = true → (actHitch v).htc.left.settled ≠ some true →
      (actHitch v).htc.right.settled = some true → (actHitch v).htc.state = .fender ∧ ValvesAt 0 500 (actHitch v)) ∧
    (v.scu.motion.standstill = true → (actHitch v).htc.left.settled = some true →
      (actHitch v).htc.right.settled = some true → (actHitch v).htc.state = .fender ∧ ValvesAt 0 0 (actHitch v)) := by
  obtain ⟨hcab, hposition, hleft, hright⟩ := actHitch_keeps v
  rw [hcab, hposition, hleft, hright]
  refine ⟨fender_rolls hstate, fun hl hr => ?_, fun hstill hl hr => ?_, fun hstill hl hr => ?_, fun hstill hl hr => ?_⟩
  · cases hstill : v.scu.motion.standstill with
    | false =>
      obtain ⟨h1, h2, -, h4⟩ := fender_rolls hstate hstill
      exact ⟨h1, h2, h4⟩
    | true =>
      rw [(fender_stands hstate hstill).1 hl hr, heldByFender hstate]
      exact ⟨rfl, rfl, setValves_at _ _ _⟩
  · rw [(fender_stands hstate hstill).2.1 hl hr, setValves_htc]
    have hat := setValves_at (raiseCurrent v.htc fenderRaise) 0 (cleared v)
    rw [raiseCurrent_eq] at hat
    rw [raiseCurrent_eq]
    exact ⟨hstate, hat⟩
  · rw [(fender_stands hstate hstill).2.2.1 hl hr, setValves_htc]
    exact ⟨hstate, setValves_at _ _ _⟩
  · rw [(fender_stands hstate hstill).2.2.2 hl hr, setValves_htc]
    exact ⟨hstate, setValves_at _ _ _⟩

/-- A button that is pressed at standstill keeps the hitch in FENDER. -/
theorem fender_kept (hstate : v.htc.state = .fender) (hstill : v.scu.motion.standstill = true)
    (hpressed : v.htc.left.settled = some true ∨ v.htc.right.settled = some true) :
    (actHitch v).htc.state = .fender ∧ (actHitch v).htc.lockReleased = v.htc.lockReleased := by
  obtain ⟨-, hl, hr, hboth⟩ := fender_stands hstate hstill
  by_cases hleft : v.htc.left.settled = some true
  · by_cases hright : v.htc.right.settled = some true
    · rw [hboth hleft hright, setValves_htc]
      exact ⟨hstate, rfl⟩
    · rw [hl hleft hright, setValves_htc]
      exact ⟨hstate, rfl⟩
  · rw [hr hleft (hpressed.resolve_left hleft), setValves_htc]
    exact ⟨hstate, rfl⟩

/-! ## Presses (R127) -/

/-- A press settles its button PRESSED. -/
theorem pressed_of_press {s : State} (h : ¬ NoPress s.pins.fenderLeft s.pins.fenderRight s.htc) :
    (s.htc.left.read s.pins.fenderLeft).settled = some true ∨ (s.htc.right.read s.pins.fenderRight).settled = some true := by
  rw [NoPress, not_and_or] at h
  simp only [Bool.not_eq_false, Button.pressed, Bool.and_eq_true, beq_iff_eq] at h
  exact h.imp And.right And.right

end

end Sys2Proof.Proofs
end

