-- ==== Sys2Proof/Proofs/HitchInputs.lean ====
section
/-! PROOF. O38: what an interval of a sound hitch reads, and what it does in each state with and without a press (R116 to
R142). -/

namespace Sys2Proof.Proofs

open Sys2Proof Sys2Proof.Machine

section
variable {l r : Bool} {s : State}

/-! ## The inputs (R116, R122, R127, R130) -/

theorem isFresh_iff {α : Type} {p : Peer α} : p.isFresh = true ↔ p.fresh = .fresh := by simp [Peer.isFresh]

theorem isFresh_of_current {α : Type} {p : Peer α} {f : α} (h : p.current = some f) : p.isFresh = true := by
  unfold Peer.current at h
  split at h
  · assumption
  · cases h

theorem cabValuesOf_eq (f : CabHitchFields) : cabValuesOf f =
    { lever := min 1000 f.lever, mix := min 100 f.mix, dropRate := max 1 (min 10 f.dropRate)
      upper := max 100 (min 1000 f.upper), slipLimit := max 50 (min 400 f.slipLimit)
      slipControl := decide (f.slipControl = 1), damping := decide (f.damping = 1)
      authority := decide (f.authority = 1) } := by
  simp [cabValuesOf, clampNat, onOfCode, beq_eq_decide]

/-- What the interval reads of the cab stands in the record it leaves. -/
theorem interval_cab {t : State} (h : hitchInputs t.htc = hitchInputs (filedRec s)) :
    (s.lc.cabHitch.current = none → t.htc.cab = s.htc.cab) ∧
    (∀ f : CabHitchFields, s.lc.cabHitch.current = some f → t.htc.cab = cabValuesOf f) ∧
    (s.lc.cabHitch.current = none → t.htc.cabFresh = false ∧ t.htc.leverRef = s.htc.leverRef ∧
      t.htc.slipOn = s.htc.slipOn ∧ t.htc.slipSource = s.htc.slipSource) ∧
    (∀ (f : CabHitchFields) (lever : Nat) (slip : Bool), s.lc.cabHitch.current = some f →
      lever = min 1000 f.lever → slip = decide (f.slipControl = 1) →
      t.htc.cabFresh = true ∧
      (∀ ref : Nat, s.htc.leverRef = some ref → s.htc.cabFresh = true →
        ((lever : Int) - ref).natAbs < 10 → t.htc.leverRef = some ref) ∧
      (s.htc.leverRef = none ∨ s.htc.cabFresh = false ∨
          (∃ ref : Nat, s.htc.leverRef = some ref ∧ 10 ≤ ((lever : Int) - ref).natAbs) →
        t.htc.leverRef = some lever) ∧
      t.htc.cabSlipSeen = some slip ∧
      (s.htc.cabSlipSeen = some slip → t.htc.slipOn = s.htc.slipOn ∧ t.htc.slipSource = s.htc.slipSource) ∧
      (s.htc.cabSlipSeen ≠ some slip → t.htc.slipOn = slip ∧ t.htc.slipSource = .cab)) := by
  have hcab : t.htc.cab = (filedRec s).cab := congrArg HitchInputs.cab h
  have hfresh : t.htc.cabFresh = (filedRec s).cabFresh := congrArg HitchInputs.cabFresh h
  have href : t.htc.leverRef = (filedRec s).leverRef := congrArg HitchInputs.leverRef h
  have hslip : t.htc.slipOn = (filedRec s).slipOn := congrArg HitchInputs.slipOn h
  have hsource : t.htc.slipSource = (filedRec s).slipSource := congrArg HitchInputs.slipSource h
  have hseen : t.htc.cabSlipSeen = (filedRec s).cabSlipSeen := congrArg HitchInputs.cabSlipSeen h
  rw [hcab, hfresh, href, hslip, hsource, hseen]
  refine ⟨fun hnone => ?_, fun f hf => ?_, fun hnone => ?_, fun f lever slip hf hlever hfield => ?_⟩
  · rw [filedRec_of_none hnone]
    rfl
  · rw [filedRec_of_current hf]
    rfl
  · rw [filedRec_of_none hnone]
    exact ⟨rfl, rfl, rfl, rfl⟩
  · have hvalues := cabValuesOf_eq f
    have hcontrol : (cabValuesOf f).slipControl = slip := by rw [hvalues, hfield]
    have hposition : (cabValuesOf f).lever = lever := by rw [hvalues, hlever]
    have hreference : (filedRec s).leverRef = leverRefAfter s.htc lever := by
      rw [filedRec_of_current hf, ← hposition]
      rfl
    have hrec : (filedRec s).cabFresh = true ∧ (filedRec s).cabSlipSeen = some slip ∧
        (filedRec s).slipOn = (if s.htc.cabSlipSeen = some slip then s.htc.slipOn else slip) ∧
        (filedRec s).slipSource = (if s.htc.cabSlipSeen = some slip then s.htc.slipSource else .cab) := by
      rw [filedRec_of_current hf, ← hcontrol]
      exact ⟨rfl, rfl, rfl, rfl⟩
    obtain ⟨hfiled, hfiledSeen, hfiledOn, hfiledSource⟩ := hrec
    rw [hreference, hfiledOn, hfiledSource]
    refine ⟨hfiled, fun ref hr hwas hnear => ?_, fun hnew => ?_, hfiledSeen, fun hsame => ?_, fun hnew => ?_⟩
    · have hstill : leverMoved ref lever = false := decide_eq_false (not_le.mpr hnear)
      simp [leverRefAfter, hr, hwas, hstill]
    · unfold leverRefAfter
      rcases hnew with hnew | hnew | ⟨ref, hr, hmoved⟩
      · rw [hnew]
      · rw [hnew]
        split <;> rfl
      · have hchanged : leverMoved ref lever = true := decide_eq_true hmoved
        rw [hr]
        simp [hchanged]
    · rw [if_pos hsame, if_pos hsame]
      exact ⟨rfl, rfl⟩
    · rw [if_neg hnew, if_neg hnew]
      exact ⟨rfl, rfl⟩

/-! ## Without a press -/

theorem not_freed_of {x : HitchState} (h : s.htc.state = x) (hx : x ≠ .held) : ¬ Freed s := fun k =>
  hx (h.symm.trans (freed_iff.mp k).1)

/-- A hitch in WORKING or at a freed hold, with its sources there (R121, R133, R138). -/
theorem working_kept {u : State} (hu : InputsRead l r s u) (hpress : NoPress l r s.htc) (hstate : u.htc.state = .working)
    (hcab : s.lc.cabHitch.isFresh = true) (hsource : u.htc.source = .implement → s.lc.implement.fresh = .fresh) :
    hitchTested u = buttonsRead (sourceChosen u) :=
  settled_of_kept hu hpress (by simp [hstate]) (.inl hcab) fun h _ => isFresh_iff.mpr (hsource h)

theorem pins_of_free {u : State} (hu : InputsRead l r s u) (hl : s.sfe.chans.drl.cmp ≠ .high)
    (hr : s.sfe.chans.drr.cmp ≠ .high) : u.htc.pinLeft = false ∧ u.htc.pinRight = false := by
  rw [hu.pinLeft, hu.pinRight]
  exact ⟨beq_false_of_ne hl, beq_false_of_ne hr⟩

theorem pins_of_high {u : State} (hu : InputsRead l r s u)
    (h : s.sfe.chans.drl.cmp = .high ∨ s.sfe.chans.drr.cmp = .high) : u.htc.pinLeft = true ∨ u.htc.pinRight = true := by
  rw [hu.pinLeft, hu.pinRight]
  exact h.imp (by simp [·]) (by simp [·])

/-- HELD stays with its cause, or is left for WORKING by the lever (R121, R142). -/
theorem held_interval (hsound : HitchSound s) (hstate : s.htc.state = .held) (hpress : NoPress l r s.htc) (acts : Prop)
    (hacts : acts ↔ LeverMovedFresh s ∧ s.mc.mode ≠ .stopping ∧
      (s.htc.holdCause = some .cabLost ∨ s.htc.holdCause = some .sourceLost)) :
    (¬ acts → (hitchAfter l r s).htc.state = .held ∧ (hitchAfter l r s).htc.holdCause = s.htc.holdCause ∧
      (hitchAfter l r s).htc.mixed = none ∧ ValvesAt 0 0 (hitchAfter l r s)) ∧
    (acts → (s.htc.source = .implement → s.lc.implement.fresh = .fresh) →
      (hitchAfter l r s).htc.state = .working ∧ (hitchAfter l r s).htc.holdCause = none ∧
      (s.sfe.chans.drl.cmp ≠ .high → s.sfe.chans.drr.cmp ≠ .high →
        (hitchAfter l r s).htc.overload = false ∧ (hitchAfter l r s).htc.mixed.isSome = true) ∧
      (s.sfe.chans.drl.cmp = .high ∨ s.sfe.chans.drr.cmp = .high →
        (hitchAfter l r s).htc.overload = true ∧ (hitchAfter l r s).htc.mixed = none ∧
        ValvesAt (if ((hitchAfter l r s).htc.cab.upper : Int) ≤ (hitchAfter l r s).htc.position then 0 else 1200) 0
          (hitchAfter l r s))) := by
  have hiff : Freed s ↔ acts := by
    rw [freed_iff, hacts]
    exact and_iff_right hstate
  obtain ⟨u, hu, hafter, hstands, hfreed⟩ := interval_from_inputs l r hsound
  rw [hafter]
  refine ⟨fun hno => ?_, fun hact hsource => ?_⟩
  · have hs := hstands fun k => hno (hiff.mp k)
    have hheld : u.htc.state = .held := hs.state.trans hstate
    rw [settled_of_kept hu hpress (by simp [hheld]) (.inr (by simp [hheld])) (fun _ k => by simp [hheld] at k)]
    obtain ⟨hat, hhtc⟩ := still_spec (s := buttonsRead (sourceChosen u)) (.inl hheld)
    rw [hhtc]
    exact ⟨hheld, hs.holdCause, rfl, hat⟩
  · obtain ⟨hworking, hcause, hoverload, hkept, -⟩ := hfreed (hiff.mpr hact)
    obtain ⟨f, hf, -⟩ := hiff.mpr hact
    rw [working_kept hu hpress hworking (isFresh_of_current hf) (by rwa [hkept])]
    by_cases hhigh : s.sfe.chans.drl.cmp = .high ∨ s.sfe.chans.drr.cmp = .high
    · have hpins := pins_of_high hu hhigh
      obtain ⟨h1, h2, h3, h4, -, h6⟩ := working_relief (v := buttonsRead (sourceChosen u)) hworking (.inr hpins)
      exact ⟨h1, h2.trans hcause, fun hl hr => (hhigh.elim hl hr).elim, fun _ => ⟨h3, h4, h6⟩⟩
    · obtain ⟨hl, hr⟩ := not_or.mp hhigh
      obtain ⟨hpl, hpr⟩ := pins_of_free hu hl hr
      have hfree : u.htc.overload = false := hoverload.trans (pinsHigh_false_iff.mpr ⟨hpl, hpr⟩)
      obtain ⟨h1, h2, h3, h4, -⟩ := working_law (v := buttonsRead (sourceChosen u)) hworking hfree hpl hpr
      exact ⟨h1, h2.trans hcause, fun _ _ => ⟨h3, h4⟩, fun h => absurd h hhigh⟩

/-- WORKING under relief (R138). -/
theorem relief_interval (hsound : HitchSound s) (hstate : s.htc.state = .working) (hpress : NoPress l r s.htc)
    (hcab : ∃ f : CabHitchFields, s.lc.cabHitch.current = some f)
    (hsource : s.htc.source = .implement → s.lc.implement.fresh = .fresh)
    (hhigh : s.htc.overload = true ∨ s.sfe.chans.drl.cmp = .high ∨ s.sfe.chans.drr.cmp = .high) :
    (hitchAfter l r s).htc.state = .working ∧ (hitchAfter l r s).htc.overload = true ∧
    (hitchAfter l r s).htc.mixed = none ∧ (hitchAfter l r s).htc.slipOverride = false ∧
    ValvesAt (if ((hitchAfter l r s).htc.cab.upper : Int) ≤ (hitchAfter l r s).htc.position then 0 else 1200) 0
      (hitchAfter l r s) := by
  obtain ⟨f, hf⟩ := hcab
  obtain ⟨u, hu, hafter, hstands, -⟩ := interval_from_inputs l r hsound
  have hs := hstands (not_freed_of hstate (by decide))
  have hworking : u.htc.state = .working := hs.state.trans hstate
  rw [hafter, working_kept hu hpress hworking (isFresh_of_current hf) (by rwa [hs.source])]
  have hrelief : u.htc.overload = true ∨ u.htc.pinLeft = true ∨ u.htc.pinRight = true :=
    hhigh.imp hs.overload.trans (pins_of_high hu)
  obtain ⟨h1, -, h3, h4, h5, h6⟩ := working_relief (v := buttonsRead (sourceChosen u)) hworking hrelief
  exact ⟨h1, h3, h4, h5, h6⟩

/-- WORKING under the law (R125, R126, R133 to R135). -/
theorem law_interval (hsound : HitchSound s) (hstate : s.htc.state = .working) (hpress : NoPress l r s.htc)
    (hoverload : s.htc.overload = false) (hcab : ∃ f : CabHitchFields, s.lc.cabHitch.current = some f)
    (hl : s.sfe.chans.drl.cmp ≠ .high) (hr : s.sfe.chans.drr.cmp ≠ .high)
    (hsource : s.htc.source = .implement → s.lc.implement.fresh = .fresh) :
    (hitchAfter l r s).htc.state = .working ∧ (hitchAfter l r s).htc.overload = false ∧
    (∀ i : ImplementFields, s.lc.implement.current = some i → i.positionMode = true →
      (hitchAfter l r s).htc.cab.authority = true →
      (hitchAfter l r s).htc.source = .implement ∧ (hitchAfter l r s).htc.depth = min 1000 i.position) ∧
    (s.lc.implement.current = none ∨ (hitchAfter l r s).htc.cab.authority = false ∨
        (∃ i : ImplementFields, s.lc.implement.current = some i ∧ i.positionMode = false) →
      (hitchAfter l r s).htc.source = .cab ∧ (hitchAfter l r s).htc.depth = (hitchAfter l r s).htc.cab.lever) ∧
    ∀ (span m e0 e : Int), span = s.cfg.draftSpan →
      m = (if (hitchAfter l r s).htc.draftValid = true then (hitchAfter l r s).htc.cab.mix else 0) →
      e0 = Int.tdiv ((100 - m) * ((hitchAfter l r s).htc.depth - (hitchAfter l r s).htc.position) +
        m * Int.tdiv (((hitchAfter l r s).htc.draft -
          Int.tdiv (span * (1000 - (hitchAfter l r s).htc.depth)) 1000) * 1000) span) 100 →
      e = (if (hitchAfter l r s).htc.slipOn = true ∧ s.scu.motion.slipVal = .valid ∧
          ((hitchAfter l r s).htc.cab.slipLimit : Int) < s.scu.motion.filtered
        then max e0 ((s.scu.motion.filtered - (hitchAfter l r s).htc.cab.slipLimit) * 4) else e0) →
      (hitchAfter l r s).htc.mixed = some e ∧ ((hitchAfter l r s).htc.slipOverride = true ↔ e0 < e) ∧
      (e.natAbs ≤ 10 → ValvesAt 0 0 (hitchAfter l r s)) ∧
      (10 < e → ValvesAt (if ((hitchAfter l r s).htc.cab.upper : Int) ≤ (hitchAfter l r s).htc.position then 0
        else min 1200 (380 + (e.natAbs - 10) * 6)) 0 (hitchAfter l r s)) ∧
      (e < -10 → ValvesAt 0 (min (350 + (hitchAfter l r s).htc.cab.dropRate * 65) (350 + (e.natAbs - 10) * 5))
        (hitchAfter l r s)) := by
  obtain ⟨f, hf⟩ := hcab
  obtain ⟨u, hu, hafter, hstands, -⟩ := interval_from_inputs l r hsound
  have hs := hstands (not_freed_of hstate (by decide))
  have hworking : u.htc.state = .working := hs.state.trans hstate
  obtain ⟨hpl, hpr⟩ := pins_of_free hu hl hr
  rw [hafter, working_kept hu hpress hworking (isFresh_of_current hf) (by rwa [hs.source])]
  obtain ⟨h1, -, h3, -, -, hchoice, hlaw⟩ := working_law (v := buttonsRead (sourceChosen u)) hworking
    (hs.overload.trans hoverload) hpl hpr
  obtain ⟨hsrc, hdepth, hcab⟩ : _ ∧ _ ∧ _ := by simpa only [Prod.mk.injEq] using hchoice
  have hchosen : (buttonsRead (sourceChosen u)).htc.source = (chosenDepth u).1 ∧
      (buttonsRead (sourceChosen u)).htc.depth = (chosenDepth u).2 ∧
      (buttonsRead (sourceChosen u)).htc.cab = u.htc.cab := ⟨rfl, rfl, rfl⟩
  obtain ⟨hcsource, hcdepth, hccab⟩ := hchosen
  have hscu : (buttonsRead (sourceChosen u)).scu = s.scu := hu.scu
  have hcfg : (buttonsRead (sourceChosen u)).cfg = s.cfg := hu.cfg
  rw [hscu, hcfg] at hlaw
  generalize buttonsRead (sourceChosen u) = v at *
  refine ⟨h1, h3, fun i hi hmode hauthority => ?_, fun hother => ?_, hlaw⟩
  · have hd := chosenDepth_implement (u := u) (by rw [hu.lc]; exact hi) hmode (by rw [← hccab, ← hcab]; exact hauthority)
    rw [hsrc, hdepth, hcsource, hcdepth, hd]
    exact ⟨rfl, rfl⟩
  · rw [hcab, hccab, ← hu.lc] at hother
    have hd := chosenDepth_cab hother
    rw [hsrc, hdepth, hcab, hcsource, hcdepth, hccab, hd]
    exact ⟨rfl, rfl⟩

/-- A lost cab holds the hitch (R124). -/
theorem cabLost_interval (hsound : HitchSound s)
    (hstate : s.htc.state = .working ∨ s.htc.state = .raising ∨ s.htc.state = .transport)
    (hstale : s.lc.cabHitch.fresh ≠ .fresh) (hpress : NoPress l r s.htc) :
    (hitchAfter l r s).htc.state = .held ∧ (hitchAfter l r s).htc.holdCause = some .cabLost ∧
    (hitchAfter l r s).htc.overload = false ∧ (hitchAfter l r s).htc.mixed = none ∧
    ValvesAt 0 0 (hitchAfter l r s) := by
  obtain ⟨u, hu, hafter, hstands, -⟩ := interval_from_inputs l r hsound
  have hnot : ¬ Freed s := by rcases hstate with h | h | h <;> exact not_freed_of h (by decide)
  have hs := hstands hnot
  have hnotHeld : u.htc.state ≠ .held := by
    rw [hs.state]
    rcases hstate with h | h | h <;> simp [h]
  rw [hafter, settled_of_cabLost hu hpress (by rwa [hs.state]) (Bool.eq_false_iff.mpr fun k => hstale (isFresh_iff.mp k))]
  have hheld := enterHeld_htc u .cabLost
  rw [if_neg hnotHeld] at hheld
  have hv : (buttonsRead (sourceChosen (enterHeld .cabLost u))).htc.state = .held ∧
      (buttonsRead (sourceChosen (enterHeld .cabLost u))).htc.holdCause = some .cabLost ∧
      (buttonsRead (sourceChosen (enterHeld .cabLost u))).htc.overload = false := by
    generalize enterHeld .cabLost u = w at *
    exact ⟨congrArg Htc.state hheld, congrArg Htc.holdCause hheld, congrArg Htc.overload hheld⟩
  obtain ⟨h1, h2, h3⟩ := hv
  generalize buttonsRead (sourceChosen (enterHeld .cabLost u)) = v at *
  obtain ⟨hat, hhtc⟩ := still_spec (.inl h1)
  rw [hhtc]
  exact ⟨h1, h2, h3, rfl, hat⟩

/-- A lost implement that was the source holds the hitch (R125). -/
theorem sourceLost_interval (hsound : HitchSound s) (hstate : s.htc.state = .working)
    (hfresh : s.lc.cabHitch.fresh = .fresh) (hsource : s.htc.source = .implement)
    (hstale : s.lc.implement.fresh ≠ .fresh) (hpress : NoPress l r s.htc) :
    (hitchAfter l r s).htc.state = .held ∧ (hitchAfter l r s).htc.holdCause = some .sourceLost ∧
    (hitchAfter l r s).htc.source = .cab ∧ (hitchAfter l r s).htc.depth = (hitchAfter l r s).htc.cab.lever ∧
    ValvesAt 0 0 (hitchAfter l r s) := by
  obtain ⟨u, hu, hafter, hstands, -⟩ := interval_from_inputs l r hsound
  have hs := hstands (not_freed_of hstate (by decide))
  have hworking : u.htc.state = .working := hs.state.trans hstate
  have hlost : s.lc.implement.isFresh = false := Bool.eq_false_iff.mpr fun k => hstale (isFresh_iff.mp k)
  rw [hafter, settled_of_sourceLost hu hpress hworking (isFresh_iff.mpr hfresh) (hs.source.trans hsource) hlost]
  have hheld := enterHeld_htc u .sourceLost
  rw [if_neg (by simp [hworking])] at hheld
  have hlc : (enterHeld .sourceLost u).lc = s.lc := (touches_enterHeld u _ .lc (by decide)).trans hu.lc
  generalize enterHeld .sourceLost u = w at *
  have hchosen : chosenDepth w = (.cab, w.htc.cab.lever) :=
    chosenDepth_cab (.inl (by rw [hlc, Peer.current, hlost]; rfl))
  have hv : (buttonsRead (sourceChosen w)).htc.state = .held ∧
      (buttonsRead (sourceChosen w)).htc.holdCause = some .sourceLost ∧
      (buttonsRead (sourceChosen w)).htc.source = (chosenDepth w).1 ∧
      (buttonsRead (sourceChosen w)).htc.depth = (chosenDepth w).2 ∧
      (buttonsRead (sourceChosen w)).htc.cab = w.htc.cab :=
    ⟨congrArg Htc.state hheld, congrArg Htc.holdCause hheld, rfl, rfl, rfl⟩
  obtain ⟨h1, h2, h3, h4, h5⟩ := hv
  rw [hchosen] at h3 h4
  generalize buttonsRead (sourceChosen w) = v at *
  obtain ⟨hat, hhtc⟩ := still_spec (.inl h1)
  rw [hhtc]
  exact ⟨h1, h2, h3, h4.trans (by rw [← h5]), hat⟩

end

end Sys2Proof.Proofs
end

