-- ==== Sys2Proof/Proofs/HitchStatement.lean ====
section
/-! PROOF. O38: an interval of a sound hitch in START_LOCK, RAISING, TRANSPORT and FENDER and at a press, and the
statement. -/

namespace Sys2Proof.Proofs

open Sys2Proof Sys2Proof.Machine

section
variable {l r : Bool} {s : State}

/-! ## START_LOCK, RAISING and TRANSPORT (R118, R131, R132) -/

theorem startLock_interval (hsound : HitchSound s) (hstate : s.htc.state = .startLock) (hpress : NoPress l r s.htc) :
    (s.lc.cabHitch.fresh = .fresh →
      (((hitchAfter l r s).htc.cab.lever : Int) - (hitchAfter l r s).htc.position).natAbs ≤ 50 →
      (hitchAfter l r s).htc.state = .working ∧ (hitchAfter l r s).htc.lockReleased = true ∧
      (s.sfe.chans.drl.cmp ≠ .high → s.sfe.chans.drr.cmp ≠ .high → (hitchAfter l r s).htc.overload = false ∧
        (hitchAfter l r s).htc.mixed.isSome = true)) ∧
    (s.lc.cabHitch.fresh ≠ .fresh ∨
        50 < (((hitchAfter l r s).htc.cab.lever : Int) - (hitchAfter l r s).htc.position).natAbs →
      (hitchAfter l r s).htc.state = .startLock ∧ (hitchAfter l r s).htc.lockReleased = s.htc.lockReleased ∧
      ValvesAt 0 0 (hitchAfter l r s)) := by
  obtain ⟨u, hu, hafter, hstands, -⟩ := interval_from_inputs l r hsound
  have hs := hstands (not_freed_of hstate (by decide))
  have hlock : u.htc.state = .startLock := hs.state.trans hstate
  rw [hafter, settled_of_kept hu hpress (by simp [hlock]) (.inr (by simp [hlock])) (fun _ k => by simp [hlock] at k)]
  have hlc : (buttonsRead (sourceChosen u)).lc = s.lc := hu.lc
  obtain ⟨hmatches, hwaits⟩ := startLock_acts (v := buttonsRead (sourceChosen u)) hlock
  rw [hlc] at hmatches hwaits
  refine ⟨fun hfresh hnear => ?_, fun hfar => ?_⟩
  · obtain ⟨h1, h2, h3⟩ := hmatches hfresh hnear
    refine ⟨h1, h2, fun hl hr => ?_⟩
    obtain ⟨hpl, hpr⟩ := pins_of_free hu hl hr
    exact h3 hpl hpr
  · obtain ⟨h1, h2, h3⟩ := hwaits hfar
    exact ⟨h1, h2.trans hs.lockReleased, h3⟩

theorem raising_interval (hsound : HitchSound s) (hstate : s.htc.state = .raising)
    (hfresh : s.lc.cabHitch.fresh = .fresh) (hpress : NoPress l r s.htc) :
    (((hitchAfter l r s).htc.cab.upper : Int) ≤ (hitchAfter l r s).htc.position →
      (hitchAfter l r s).htc.state = .transport ∧ ValvesAt 0 0 (hitchAfter l r s) ∧
      (hitchAfter l r s).htc.reload = !(hitchAfter l r s).htc.draftValid ∧
      (hitchAfter l r s).htc.dAvg = (if (hitchAfter l r s).htc.draftValid = true then (hitchAfter l r s).htc.draft
        else s.htc.dAvg)) ∧
    ((hitchAfter l r s).htc.position < (hitchAfter l r s).htc.cab.upper →
      (hitchAfter l r s).htc.state = .raising ∧ ValvesAt 1200 0 (hitchAfter l r s)) := by
  obtain ⟨u, hu, hafter, hstands, -⟩ := interval_from_inputs l r hsound
  have hs := hstands (not_freed_of hstate (by decide))
  have hraising : u.htc.state = .raising := hs.state.trans hstate
  rw [hafter, settled_of_kept hu hpress (by simp [hraising]) (.inl (isFresh_iff.mpr hfresh))
    (fun _ k => by simp [hraising] at k), ← hs.dAvg]
  exact raising_acts (v := buttonsRead (sourceChosen u)) hraising

theorem transport_interval (hsound : HitchSound s) (hstate : s.htc.state = .transport)
    (hfresh : s.lc.cabHitch.fresh = .fresh) (hpress : NoPress l r s.htc) :
    ((hitchAfter l r s).htc.position + 50 < (hitchAfter l r s).htc.cab.upper →
      (hitchAfter l r s).htc.state = .raising ∧ ValvesAt 1200 0 (hitchAfter l r s)) ∧
    (((hitchAfter l r s).htc.cab.upper : Int) ≤ (hitchAfter l r s).htc.position + 50 →
      (hitchAfter l r s).htc.state = .transport ∧
      ((hitchAfter l r s).htc.draftValid = false →
        (hitchAfter l r s).htc.reload = true ∧ (hitchAfter l r s).htc.dAvg = s.htc.dAvg) ∧
      ((hitchAfter l r s).htc.draftValid = true → (hitchAfter l r s).htc.reload = false ∧
        (hitchAfter l r s).htc.dAvg = (if s.htc.reload = true then (hitchAfter l r s).htc.draft
          else s.htc.dAvg + Int.tdiv ((hitchAfter l r s).htc.draft - s.htc.dAvg) 64)) ∧
      ∀ (acts : Prop) (e : Int),
        (acts ↔ (hitchAfter l r s).htc.cab.damping = true ∧ 2200 < s.scu.motion.vGround ∧
          (hitchAfter l r s).htc.draftValid = true ∧ s.htc.reload = false) →
        e = Int.tdiv (-((hitchAfter l r s).htc.draft - s.htc.dAvg) * 1000) s.cfg.draftSpan →
        (¬ acts → (hitchAfter l r s).htc.damping = false ∧ (hitchAfter l r s).htc.mixed = none ∧
          ValvesAt 0 0 (hitchAfter l r s)) ∧
        (acts → (hitchAfter l r s).htc.damping = true ∧ (hitchAfter l r s).htc.mixed = some e ∧
          (e.natAbs ≤ 10 → ValvesAt 0 0 (hitchAfter l r s)) ∧
          (10 < e → ValvesAt (if ((hitchAfter l r s).htc.cab.upper : Int) ≤ (hitchAfter l r s).htc.position then 0
            else min 1200 (380 + (e.natAbs - 10) * 6)) 0 (hitchAfter l r s)) ∧
          (e < -10 → ValvesAt 0 (if (hitchAfter l r s).htc.position ≤ ((hitchAfter l r s).htc.cab.upper : Int) - 30 then 0
            else min (350 + (hitchAfter l r s).htc.cab.dropRate * 65) (350 + (e.natAbs - 10) * 5)) (hitchAfter l r s)))) := by
  obtain ⟨u, hu, hafter, hstands, -⟩ := interval_from_inputs l r hsound
  have hs := hstands (not_freed_of hstate (by decide))
  have htransport : u.htc.state = .transport := hs.state.trans hstate
  have hacts := transport_acts (v := buttonsRead (sourceChosen u)) htransport
  have hscu : (buttonsRead (sourceChosen u)).scu = s.scu := hu.scu
  have hcfg : (buttonsRead (sourceChosen u)).cfg = s.cfg := hu.cfg
  have hdAvg : (buttonsRead (sourceChosen u)).htc.dAvg = s.htc.dAvg := hs.dAvg
  have hreload : (buttonsRead (sourceChosen u)).htc.reload = s.htc.reload := hs.reload
  rw [hscu, hcfg, hdAvg, hreload] at hacts
  rw [hafter, settled_of_kept hu hpress (by simp [htransport]) (.inl (isFresh_iff.mpr hfresh))
    (fun _ k => by simp [htransport] at k)]
  exact hacts

/-! ## FENDER and presses (R127, R128) -/

/-- The interval in FENDER, whatever the buttons do. -/
theorem fender_interval (hsound : HitchSound s) (hstate : s.htc.state = .fender) :
    ∃ v : State, hitchAfter l r s = actHitch v ∧ v.htc.state = .fender ∧ v.scu = s.scu ∧
      v.htc.lockReleased = s.htc.lockReleased ∧
      (¬ NoPress l r s.htc → v.htc.left.settled = some true ∨ v.htc.right.settled = some true) := by
  obtain ⟨u, hu, hafter, hstands, -⟩ := interval_from_inputs l r hsound
  have hs := hstands (not_freed_of hstate (by decide))
  have hfender : u.htc.state = .fender := hs.state.trans hstate
  have htested : hitchTested u = buttonsRead (sourceChosen u) := by
    rw [hitchTested, hitchFaultTest_of_sound hu.valid hu.valves (by simp [hfender]),
      cabLossTest_of_kept (.inr (by simp [hfender])), sourceTest_of_kept (fun _ k => by simp [hfender] at k)]
    exact settleFenders_of_fender (s := sourceChosen u) hfender
  rw [hafter, htested]
  exact ⟨_, rfl, hfender, hu.scu, hs.lockReleased, fun hpress => pressed_of_press (s := u) (mt hu.press.mp hpress)⟩

/-- The states between the inputs and the buttons of a sound hitch that is not in FENDER. -/
theorem tests_spec {u : State} (hu : InputsRead l r s u) (hfault : u.htc.state ≠ .faultHold)
    (hfender : u.htc.state ≠ .fender) : ∃ w : State, hitchTested u = settleFenders w ∧ HitchKeeps u w ∧
      w.htc.lockReleased = u.htc.lockReleased ∧ w.htc.state ≠ .fender ∧ w.htc.state.takesPress = true ∧
      (u.htc.state = .held → w.htc.state = .held ∧ w.htc.holdCause = u.htc.holdCause) := by
  have hkeeps : HitchKeeps u (sourceTest (cabLossTest u)) := (HitchKeeps.refl u).cabLossTest.sourceTest
  have hcab : (cabLossTest u).htc.state ≠ .fender ∧ (cabLossTest u).htc.state.takesPress = true ∧
      (cabLossTest u).htc.lockReleased = u.htc.lockReleased ∧
      (u.htc.state = .held → (cabLossTest u).htc.state = .held ∧ (cabLossTest u).htc.holdCause = u.htc.holdCause) := by
    unfold cabLossTest
    split
    next hlost =>
      rw [enterHeld_htc]
      refine ⟨by simp, rfl, rfl, fun k => by simp [k] at hlost⟩
    next =>
      refine ⟨hfender, ?_, rfl, fun k => ⟨k, rfl⟩⟩
      cases hstate : u.htc.state
      case fender => exact absurd hstate hfender
      case faultHold => exact absurd hstate hfault
      all_goals rfl
  refine ⟨sourceTest (cabLossTest u), ?_, hkeeps, ?_⟩
  · rw [hitchTested, hitchFaultTest_of_sound hu.valid hu.valves hfault]
  · obtain ⟨hnot, htakes, hlock, hheld⟩ := hcab
    generalize cabLossTest u = c at *
    rw [sourceTest_eq]
    have hchosen (x : State) : (sourceChosen x).htc.lockReleased = x.htc.lockReleased ∧
        (sourceChosen x).htc.state = x.htc.state ∧ (sourceChosen x).htc.holdCause = x.htc.holdCause := ⟨rfl, rfl, rfl⟩
    obtain ⟨h1, h2, h3⟩ := hchosen (if sourceLost c = true then enterHeld .sourceLost c else c)
    rw [h1, h2, h3]
    split
    next hlost =>
      rw [enterHeld_htc]
      refine ⟨hlock, by simp, rfl, fun k => ?_⟩
      simp [sourceLost, (hheld k).1] at hlost
    next => exact ⟨hlock, hnot, htakes, hheld⟩

theorem state_not_fault {u : State} (hstands : ¬ Freed s → RecordStands s.htc u.htc)
    (hfreed : Freed s → u.htc.state = .working) {x : HitchState} (hs : s.htc.state ≠ x) (hx : x ≠ .working) :
    u.htc.state ≠ x := by
  by_cases h : Freed s
  · rw [hfreed h]
    exact hx.symm
  · rwa [(hstands h).state]

/-- A press that is taken (R127). -/
theorem press_interval (hsound : HitchSound s) (hpress : ¬ NoPress l r s.htc) (hstill : s.scu.motion.standstill = true)
    (hmode : s.mc.mode = .operating) (hstate : s.htc.state ≠ .faultHold) :
    (hitchAfter l r s).htc.state = .fender ∧
    (hitchAfter l r s).htc.lockReleased = (s.htc.lockReleased || s.htc.state != .fender) := by
  by_cases hfender : s.htc.state = .fender
  · obtain ⟨v, hafter, hv, hscu, hlock, hpressed⟩ := fender_interval (l := l) (r := r) hsound hfender
    obtain ⟨h1, h2⟩ := fender_kept hv (by rw [hscu]; exact hstill) (hpressed hpress)
    rw [hafter, h1, h2, hlock, hfender]
    simp
  · obtain ⟨u, hu, hafter, hstands, hfreed⟩ := interval_from_inputs l r hsound
    have hworking (h : Freed s) : u.htc.state = .working := (hfreed h).1
    obtain ⟨w, htested, hkeeps, hlock, hnot, htakes, -⟩ := tests_spec hu
      (state_not_fault hstands hworking hstate (by decide))
      (state_not_fault hstands hworking hfender (by decide))
    have hscu : w.scu = s.scu := (hkeeps.touches .scu (by decide)).trans hu.scu
    have hmc : w.mc = u.mc := hkeeps.touches .mc (by decide)
    have hpins : w.pins = u.pins := hkeeps.touches .pins (by decide)
    obtain ⟨hleft, hright⟩ := Prod.mk.inj hkeeps.buttons
    have hwpress : ¬ NoPress w.pins.fenderLeft w.pins.fenderRight w.htc := by
      rw [NoPress, hpins, hleft, hright]
      exact mt hu.press.mp hpress
    have hwstill : w.scu.motion.standstill = true := by rw [hscu]; exact hstill
    have hwmode : w.mc.mode = .operating := by rw [hmc, hu.mode]; exact hmode
    rw [hafter, htested, settleFenders_of_taken hwpress hnot hwstill hwmode htakes]
    obtain ⟨h1, h2⟩ := fender_kept (v := fenderBegun (buttonsRead w)) rfl hwstill (pressed_of_press hwpress)
    rw [h1, h2]
    have hopen : (fenderBegun (buttonsRead w)).htc.lockReleased = true := rfl
    rw [hopen]
    simp [hfender]

/-- A press that is refused in HELD (R127). -/
theorem refused_interval (hsound : HitchSound s) (hpress : ¬ NoPress l r s.htc)
    (hno : s.scu.motion.standstill = false ∨ s.mc.mode ≠ .operating) (hstate : s.htc.state = .held)
    (hcause : s.htc.holdCause = some .fender) :
    (hitchAfter l r s).htc.state = .held ∧ (hitchAfter l r s).htc.refused = true ∧ ValvesAt 0 0 (hitchAfter l r s) := by
  obtain ⟨u, hu, hafter, hstands, -⟩ := interval_from_inputs l r hsound
  have hnot : ¬ Freed s := fun k => by
    have hfrees := (freed_iff.mp k).2.2.2
    simp [hcause] at hfrees
  have hs := hstands hnot
  have hheld : u.htc.state = .held := hs.state.trans hstate
  obtain ⟨w, htested, hkeeps, -, hnotFender, -, hkept⟩ := tests_spec hu (by simp [hheld]) (by simp [hheld])
  have hscu : w.scu = s.scu := (hkeeps.touches .scu (by decide)).trans hu.scu
  have hmc : w.mc = u.mc := hkeeps.touches .mc (by decide)
  have hpins : w.pins = u.pins := hkeeps.touches .pins (by decide)
  obtain ⟨hleft, hright⟩ := Prod.mk.inj hkeeps.buttons
  have hwpress : ¬ NoPress w.pins.fenderLeft w.pins.fenderRight w.htc := by
    rw [NoPress, hpins, hleft, hright]
    exact mt hu.press.mp hpress
  have hwno : w.scu.motion.standstill = false ∨ w.mc.mode ≠ .operating ∨ w.htc.state.takesPress = false := by
    rw [hscu, hmc, hu.mode]
    exact hno.imp_right .inl
  rw [hafter, htested, settleFenders_of_refused hwpress hnotFender hwno]
  obtain ⟨hat, hhtc⟩ := still_spec (s := pressRefused (buttonsRead w)) (.inl (hkept hheld).1)
  rw [hhtc]
  exact ⟨(hkept hheld).1, rfl, hat⟩

/-- No state but FENDER refuses a request at step 6. -/
theorem actHitch_refused {v : State} (h : v.htc.state ≠ .fender) : (actHitch v).htc.refused = v.htc.refused := by
  have hworking (w : State) : (actWorking w).htc.refused = w.htc.refused := by
    unfold actWorking
    split
    · rw [beginRelief_htc]
    · obtain ⟨hrv, hlv, hhtc⟩ := actLaw_htc w
      rw [hhtc]
  have henter (w : State) : (enterWorking w).htc.refused = w.htc.refused := by
    obtain ⟨-, -, hfree, hhigh⟩ := enterWorking_spec w
    cases hpins : pinsHigh w.htc with
    | true => rw [(hhigh hpins).1]
    | false => rw [(hfree hpins).1]
  cases hstate : v.htc.state
  case fender => exact absurd hstate h
  case startLock =>
    rw [actHitch_of_startLock hstate, actStartLock]
    split
    · rw [hworking, henter]
      rfl
    · rw [setValves_htc]
      rfl
  case held | faultHold => rw [(still_spec (by simp [hstate])).2]
  case working =>
    rw [actHitch_of_working hstate, hworking]
    rfl
  case raising =>
    rw [actHitch_of_raising hstate, actRaising]
    split
    · exact (congrArg Htc.refused (setValves_htc 0 0 _)).trans rfl
    · rw [setValves_htc]
      rfl
  case transport =>
    by_cases hup : (v.htc.cab.upper : Int) ≤ v.htc.position + 50
    · obtain ⟨hrv, hlv, mixed, damps, hhtc, -, -⟩ := transport_stays hstate hup
      rw [hhtc]
    · have hact : actHitch v = enterRaising (cleared v) :=
        (actHitch_of_transport hstate).trans (if_pos (not_le.mp hup))
      rw [hact, enterRaising_htc]
      rfl

/-- Released buttons clear a refusal (R127). -/
theorem released_interval (hsound : HitchSound s) (hpress : NoPress l r s.htc)
    (hleft : (hitchAfter l r s).htc.left.settled = some false)
    (hright : (hitchAfter l r s).htc.right.settled = some false) (hstate : s.htc.state ≠ .fender) :
    (hitchAfter l r s).htc.refused = false := by
  obtain ⟨u, hu, hafter, hstands, hfreed⟩ := interval_from_inputs l r hsound
  have hufender := state_not_fault hstands (fun h => (hfreed h).1) hstate (by decide)
  rw [hafter] at hleft hright ⊢
  obtain ⟨w, htested, hwkeeps, hnot⟩ : ∃ w : State, hitchTested u = settleFenders w ∧ HitchKeeps u w ∧
      w.htc.state ≠ .fender := by
    by_cases hfault : u.htc.state = .faultHold
    · refine ⟨sourceTest (cabLossTest (hitchFaultTest u)), rfl, keeps_tests u, ?_⟩
      obtain ⟨-, -, -, -, hstill, -, -⟩ := leaveHitchFault_spec u
      rw [hitchFaultTest_of_left hu.valid hu.valves hfault]
      generalize leaveHitchFault u = c at *
      have hcab : cabLossTest c = c := cabLossTest_of_kept (.inr (by rcases hstill with h | h <;> simp [h]))
      have hsource : sourceTest c = sourceChosen c :=
        sourceTest_of_kept fun _ k => by rcases hstill with h | h <;> simp [h] at k
      rw [hcab, hsource]
      have hsame : (sourceChosen c).htc.state = c.htc.state := rfl
      rw [hsame]
      rcases hstill with h | h <;> simp [h]
    · obtain ⟨w, htested, hkeeps, -, hnot, -, -⟩ := tests_spec hu hfault hufender
      exact ⟨w, htested, hkeeps, hnot⟩
  have hpins : w.pins = u.pins := hwkeeps.touches .pins (by decide)
  obtain ⟨hkleft, hkright⟩ := Prod.mk.inj hwkeeps.buttons
  have hwpress : NoPress w.pins.fenderLeft w.pins.fenderRight w.htc := by
    rw [NoPress, hpins, hkleft, hkright]
    exact hu.press.mpr hpress
  rw [htested, settleFenders_of_noPress hwpress] at hleft hright ⊢
  obtain ⟨-, -, hal, har⟩ := actHitch_keeps (buttonsRead w)
  rw [hal] at hleft
  rw [har] at hright
  rw [actHitch_refused (v := buttonsRead w) hnot]
  exact if_pos ⟨hleft, hright⟩

/-- What an interval reads stands in the record it leaves (R116). -/
theorem interval_reads (l r : Bool) (s : State) : Touches [.pins, .vdb, .htc, .mc] s (hitchAfter l r s) ∧
    hitchInputs (hitchAfter l r s).htc = hitchInputs (filedRec s) ∧
    (hitchAfter l r s).htc.left = s.htc.left.read l ∧ (hitchAfter l r s).htc.right = s.htc.right.read r := by
  obtain ⟨htouches, -, hinputs, hleft, hright⟩ := interval_keeps l r s
  exact ⟨htouches, hinputs, hleft, hright⟩

theorem interval_measures {t : State} (h : hitchInputs t.htc = hitchInputs (filedRec s)) :
    t.htc.position = s.sfe.chans.hps.value ∧ t.htc.posValid = s.sfe.posValid ∧
    t.htc.draft = s.sfe.chans.drl.value + s.sfe.chans.drr.value ∧
    t.htc.draftValid = (s.sfe.chans.drl.state == .valid && s.sfe.chans.drr.state == .valid &&
      !s.sfe.chans.drl.atLimit && !s.sfe.chans.drr.atLimit) := by
  have hposition : t.htc.position = (filedRec s).position := congrArg HitchInputs.position h
  have hvalid : t.htc.posValid = (filedRec s).posValid := congrArg HitchInputs.posValid h
  have hdraft : t.htc.draft = (filedRec s).draft := congrArg HitchInputs.draft h
  have hdraftValid : t.htc.draftValid = (filedRec s).draftValid := congrArg HitchInputs.draftValid h
  rw [hposition, hvalid, hdraft, hdraftValid]
  rcases hcab : s.lc.cabHitch.current with _ | f
  · rw [filedRec_of_none hcab]
    exact ⟨rfl, rfl, rfl, rfl⟩
  · rw [filedRec_of_current hcab]
    exact ⟨rfl, rfl, rfl, rfl⟩

end

/-- Settles O38. -/
theorem hitchInterval : Obligations.HitchInterval := by
  intro l r s hsound
  have hexec : exec (.htcControlInterval l r) s = .next (hitchAfter l r s) := exec_htcInterval hsound.runs
  obtain ⟨htouches, hinputs, hleft, hright⟩ := interval_reads l r s
  obtain ⟨hposition, hvalid, hdraft, hdraftValid⟩ := interval_measures hinputs
  obtain ⟨hcabNone, hcabSome, hnone, hsome⟩ := interval_cab hinputs
  refine ⟨hitchAfter l r s, hexec, htouches, hposition, hvalid.trans hsound.position, hdraft, hdraftValid, hleft, hright,
    hcabNone, fun f hf => (hcabSome f hf).trans (cabValuesOf_eq f), hnone, hsome, fun h hh => ?_⟩
  subst hh
  refine ⟨held_interval hsound, relief_interval hsound, law_interval hsound,
    fun hstate _ hstale hpress => cabLost_interval hsound hstate hstale hpress,
    sourceLost_interval hsound, startLock_interval hsound, raising_interval hsound, transport_interval hsound,
    press_interval hsound, refused_interval hsound, fun hstate => ?_, released_interval hsound⟩
  obtain ⟨v, hafter, hv, hscu, -, -⟩ := fender_interval (l := l) (r := r) hsound hstate
  rw [hafter, ← hscu]
  exact fender_acts hv

end Sys2Proof.Proofs
end

