-- ==== Sys2Proof/Proofs/SteadyIntervals.lean ====
section
/-! SUPPORT. An SHC interval that finds nothing new (R68): the record at the end of step 2, the steps that then do nothing,
and what the end of the interval leaves of the record step 5 left. -/

namespace Sys2Proof.Proofs

open Sys2Proof Sys2Proof.Machine

/-! ## Steps 1 and 2 (R68, R90, R94, R96) -/

/-- The levels step 1 takes where nothing is new, and the pending park it leaves. -/
structure Levels where
  pedal : Nat
  auto : Bool
  rate : Nat
  hold : Option Nat
  fresh : Bool
  pendingPark : Bool

/-- The state with the levels taken. -/
def levelsTaken (s : State) (i : Levels) : State := s.withShc { s.shc with
  starting := false, pedal := i.pedal, auto := i.auto, rate := i.rate, pedalHold := i.hold, cabFresh := i.fresh
  speedLost := false, parkForce := parkRequested s, pendingPark := i.pendingPark }

/-- The levels are those of the cab record, and a pending park stands while the park request does. -/
structure LevelsOf (s : State) (i : Levels) : Prop where
  pedal : ∀ d : CabDriveFields, s.lc.cabDrive.current = some d → i.pedal = min 100 d.pedal
  kept : s.lc.cabDrive.current = none → i.pedal = s.shc.pedal
  pendingPark : i.pendingPark = (parkRequested s && s.shc.pendingPark)

section
variable {s : State}

theorem shc_levelsTaken (i : Levels) : (levelsTaken s i).shc = { s.shc with
    starting := false, pedal := i.pedal, auto := i.auto, rate := i.rate, pedalHold := i.hold, cabFresh := i.fresh
    speedLost := false, parkForce := parkRequested s, pendingPark := i.pendingPark } := rfl

theorem firstInterval_of_started (h : s.shc.starting = false) : firstInterval s = s := if_neg (h ▸ Bool.false_ne_true)

/-- The record as step 1 leaves it where the cab record brings nothing new. -/
theorem takeCab_of_steady (h : CabSteady s) : ∃ i : Levels, takeCab s = (s.withShc { s.shc with
      pedal := i.pedal, auto := i.auto, rate := i.rate, pedalHold := i.hold, cabFresh := i.fresh }, false) ∧
    (∀ d : CabDriveFields, s.lc.cabDrive.current = some d → i.pedal = min 100 d.pedal) ∧
    (s.lc.cabDrive.current = none → i.pedal = s.shc.pedal) := by
  rcases h with ⟨hnone, hfresh⟩ | ⟨d, hd, hlever, hfresh⟩
  · refine ⟨⟨s.shc.pedal, s.shc.auto, s.shc.rate, s.shc.pedalHold, s.shc.cabFresh, false⟩, ?_, fun d hd => ?_, fun _ => rfl⟩
    · exact takeCab_of_absent hnone hfresh
    · simp [hnone] at hd
  · refine ⟨⟨min 100 d.pedal, d.auto, shuttleRate d.aggressiveness, none, true, false⟩, ?_, fun d' hd' => ?_, fun hnone => ?_⟩
    · exact takeCab_of_same hd hfresh hlever
    · rw [hd] at hd'
      cases hd'
      rfl
    · simp [hd] at hnone

theorem takeSpeedLoss_of_sound (h : s.speedsLost = false) :
    takeSpeedLoss s = s.withShc { s.shc with speedLost := false } := by
  simp only [takeSpeedLoss, h, Bool.false_and]
  rfl

/-- A park request that stands as it stood takes nothing, and its absence ends a pending park (R90). -/
theorem followParkRequest_of_same (h : s.shc.parkForce = parkRequested s) : followParkRequest s = s.withShc { s.shc with
    parkForce := parkRequested s, pendingPark := parkRequested s && s.shc.pendingPark } := by
  unfold followParkRequest
  dsimp only
  rw [h]
  cases parkRequested s <;> rfl

/-- Steps 1 and 2 of an interval that finds nothing new take the levels alone. -/
theorem steady_inputs (h : SteadyGearbox s) : ∃ i : Levels, LevelsOf s i ∧
    inputsTaken s = faultHoldTest (levelsTaken s i) ∧ (takeCab (firstInterval s)).2 = false := by
  obtain ⟨i, hcab, hpedal, hkept⟩ := takeCab_of_steady h.cab
  have hfirst := firstInterval_of_started h.started
  refine ⟨{ i with pendingPark := parkRequested s && s.shc.pendingPark }, ⟨hpedal, hkept, rfl⟩, ?_, ?_⟩
  · have hspeeds := takeSpeedLoss_of_sound (s := s.withShc { s.shc with
      pedal := i.pedal, auto := i.auto, rate := i.rate, pedalHold := i.hold, cabFresh := i.fresh }) h.speeds
    have hpark := followParkRequest_of_same (s := s.withShc { s.shc with
      pedal := i.pedal, auto := i.auto, rate := i.rate, pedalHold := i.hold, cabFresh := i.fresh
      speedLost := false }) h.park
    unfold inputsTaken cabTaken
    rw [hfirst, hcab]
    dsimp only
    rw [hspeeds]
    refine congrArg faultHoldTest (hpark.trans ?_)
    unfold levelsTaken
    rw [← h.started]
    rfl
  · rw [hfirst, hcab]

/-- Step 2 lets a sound gearbox be. -/
theorem faultHoldTest_of_sound (hstate : s.shc.state ≠ .faultHold) (hfault : s.gearboxFaulted = false) :
    faultHoldTest s = s := by
  simp [faultHoldTest, hstate, hfault]

/-! ## Steps 3 to 5 where they do nothing (R72, R90, R91) -/

/-- A request is taken in gear only. -/
theorem takeHead_of_not_inGear (h : s.shc.state ≠ .inGear) : takeHead s = s := by
  have hcan : canTake s = false := by simp [canTake, h]
  unfold takeHead
  split
  · simp [hcan]
  · rfl

theorem takeHead_of_empty (h : s.shc.queue = []) : takeHead s = s := by
  unfold takeHead
  rw [h]

theorem parkTest_of_busy {ended : Bool} (h : s.shc.state.busy) : parkTest ended s = s := by
  have hstate : s.shc.state ≠ .neutral ∧ s.shc.state ≠ .faultHold ∧ s.shc.state ≠ .parked := by
    rcases h with h | h | h | h <;> simp [h]
  obtain ⟨hneutral, hfault, hparked⟩ := hstate
  simp [parkTest, canPark, hneutral, hfault, hparked]

end

/-! ## The end of the interval (R66, R68) -/

/-- The interval of `s` ends in `t` after step 5 has left `v`. -/
structure Finished (s v t : State) : Prop where
  shc : ∃ (overrun : Nat) (k : ClutchTable ClutchRec), t.shc = { v.shc with overrun := overrun, clutches := k }
  clutch : ∀ x : Clutch, t.clutch x = finishedRec (drainingClutches s) v.cfg v.shc x
  apart : ∀ o : Output, o = .pkv ∨ o = .fdv ∨ o = .hrv ∨ o = .hlv ∨ o = .tcv ∨ o = .tsv → t.out o = v.out o
  touches : Touches [.vdb, .shc] v t

theorem finished (s v : State) : Finished s v (finishInterval (drainingClutches s) v) where
  shc := ⟨_, _, finishInterval_shc (drainingClutches_nodup s)⟩
  clutch := finishInterval_clutch (drainingClutches_nodup s)
  apart _ := finishInterval_apart (drainingClutches_nodup s)
  touches := touches_finishInterval (drainingClutches_nodup s)

namespace Finished

variable {s v t : State} (h : Finished s v t)
include h

/-- A field of the SHC's record that the end of an interval does not write. -/
theorem same {α : Sort _} (f : Shc → α) (hf : ∀ (k : Shc) (n : Nat) (c : ClutchTable ClutchRec),
    f { k with overrun := n, clutches := c } = f k) : f t.shc = f v.shc := by
  obtain ⟨n, c, hshc⟩ := h.shc
  rw [hshc, hf]

theorem state : t.shc.state = v.shc.state := h.same Shc.state fun _ _ _ => rfl
theorem phase : t.shc.phase = v.shc.phase := h.same Shc.phase fun _ _ _ => rfl
theorem kind : t.shc.kind = v.shc.kind := h.same Shc.kind fun _ _ _ => rfl
theorem current : t.shc.current = v.shc.current := h.same Shc.current fun _ _ _ => rfl
theorem target : t.shc.target = v.shc.target := h.same Shc.target fun _ _ _ => rfl
theorem queue : t.shc.queue = v.shc.queue := h.same Shc.queue fun _ _ _ => rfl
theorem interval : t.shc.interval = v.shc.interval := h.same Shc.interval fun _ _ _ => rfl
theorem torque : t.shc.torque = v.shc.torque := h.same Shc.torque fun _ _ _ => rfl
theorem torqueLen : t.shc.torqueLen = v.shc.torqueLen := h.same Shc.torqueLen fun _ _ _ => rfl
theorem torqueFixed : t.shc.torqueFixed = v.shc.torqueFixed := h.same Shc.torqueFixed fun _ _ _ => rfl
theorem echoSeen : t.shc.echoSeen = v.shc.echoSeen := h.same Shc.echoSeen fun _ _ _ => rfl
theorem sync : t.shc.sync = v.shc.sync := h.same Shc.sync fun _ _ _ => rfl
theorem pendingShuttle : t.shc.pendingShuttle = v.shc.pendingShuttle := h.same Shc.pendingShuttle fun _ _ _ => rfl
theorem pendingPark : t.shc.pendingPark = v.shc.pendingPark := h.same Shc.pendingPark fun _ _ _ => rfl
theorem lever : t.shc.lever = v.shc.lever := h.same Shc.lever fun _ _ _ => rfl
theorem ignored : t.shc.ignored = v.shc.ignored := h.same Shc.ignored fun _ _ _ => rfl
theorem refusals : t.shc.refusals = v.shc.refusals := h.same Shc.refusals fun _ _ _ => rfl
theorem lastRefusal : t.shc.lastRefusal = v.shc.lastRefusal := h.same Shc.lastRefusal fun _ _ _ => rfl

/-- The end of an interval keeps each clutch's working values. -/
theorem working (x : Clutch) : (t.clutch x).held = (v.clutch x).held ∧ (t.clutch x).adapted = (v.clutch x).adapted ∧
    (t.clutch x).mark = (v.clutch x).mark ∧ (t.clutch x).learned = (v.clutch x).learned ∧
    (t.clutch x).fillTime = (v.clutch x).fillTime ∧ (t.clutch x).entryValue = (v.clutch x).entryValue := by
  rw [h.clutch, finishedRec_eq]
  exact ⟨rfl, rfl, rfl, rfl, rfl, rfl⟩

theorem command (x : Clutch) : (t.clutch x).command = commandFor v.cfg v.shc x := by rw [h.clutch, finishedRec_command]

/-- A speed or range clutch is commanded its value. -/
theorem gearCommand {x : Clutch} (hx : x ≠ .fwd ∧ x ≠ .rev) : (t.clutch x).command = (v.clutch x).value := by
  rw [h.command, commandFor_of_gear hx]
  rfl

/-- A clutch that neither is LOCKED nor ramps is commanded its value. -/
theorem freeCommand {x : Clutch} (hlocked : (v.clutch x).state ≠ .locked) (hramping : (v.clutch x).state ≠ .ramping) :
    (t.clutch x).command = (v.clutch x).value := (h.command x).trans (commandFor_of_other hlocked hramping)

/-- A clutch that does not drain keeps state and value. -/
theorem still {x : Clutch} (hx : (v.clutch x).state ≠ .draining) :
    (t.clutch x).state = (v.clutch x).state ∧ (t.clutch x).value = (v.clutch x).value := by
  rw [h.clutch]
  exact finishedRec_of_other hx

/-- A clutch whose drain timer did not run keeps state and value. -/
theorem untimed {x : Clutch} (hx : (s.clutch x).drain = none) :
    (t.clutch x).state = (v.clutch x).state ∧ (t.clutch x).value = (v.clutch x).value := by
  rw [h.clutch, finishedRec_of_not_running fun k => by simp [mem_drainingClutches, hx] at k]
  exact ⟨rfl, rfl⟩

end Finished

/-! ## A whole interval -/

section
variable {s : State}

/-- An interval with an operation in progress that goes on or arrives in gear advances it by one interval. -/
theorem steady_operation (h : SteadyGearbox s) (hfault : s.gearboxFaulted = false)
    (hstate : s.shc.state = .shifting ∨ s.shc.state = .engaging ∨ s.shc.state = .shuttling)
    (hbusy : ∀ i : Levels, LevelsOf s i → (advance (levelsTaken s i)).shc.state.busy) :
    ∃ (i : Levels) (t : State), LevelsOf s i ∧ exec .shcControlInterval s = .next t ∧
      Finished s (advance (levelsTaken s i)) t := by
  obtain ⟨i, hi, hinputs, hmoved⟩ := steady_inputs h
  have hne : s.shc.state ≠ .faultHold ∧ s.shc.state ≠ .inGear := by rcases hstate with h | h | h <;> simp [h]
  have hsound := faultHoldTest_of_sound (s := levelsTaken s i) hne.1 hfault
  have hhead := takeHead_of_not_inGear (s := levelsTaken s i) hne.2
  have hadvance : advanceFrom s.shc.state (levelsTaken s i) = advance (levelsTaken s i) := if_pos (.inl rfl)
  have hacted : intervalActed s = advance (levelsTaken s i) := by
    rw [intervalActed, hinputs, hsound, hhead, hadvance, parkTest_of_busy (hbusy i hi)]
  refine ⟨i, _, hi, exec_shcControlInterval h.runs, ?_⟩
  rw [hacted]
  exact finished s _

end

end Sys2Proof.Proofs
end

