-- ==== Sys2Proof/Proofs/FillIntervals.lean ====
section
/-! SUPPORT. The fills of an interval (R73, R84, R86, R89): each counts, and ends where it is due. -/

namespace Sys2Proof.Proofs

open Sys2Proof Sys2Proof.Machine

/-! ## One clutch -/

/-- The fill of a clutch ends at the interval that counts 10 ms more. -/
def fillEnds (r : ClutchRec) : Bool := r.state == .filling && decide (r.fillTime ≤ r.held + 10)

/-- A clutch at an interval, before its fill ends. -/
def fillHeld (r : ClutchRec) : ClutchRec := if r.state = .filling then { r with held := r.held + 10 } else r

/-- A clutch at an interval: its fill counts, or ends. -/
def fillDone (locks : Bool) (c : ClutchCfg) (r : ClutchRec) : ClutchRec :=
  if fillEnds r = true then fillEnded locks c (fillHeld r) else fillHeld r

theorem fillEnds_iff {r : ClutchRec} : fillEnds r = true ↔ r.state = .filling ∧ r.fillTime ≤ r.held + 10 := by
  simp [fillEnds]

section
variable {locks : Bool} {c : ClutchCfg} {r : ClutchRec}

theorem fillDone_of_other (h : r.state ≠ .filling) : fillDone locks c r = r := by
  rw [fillDone, if_neg fun k => h (fillEnds_iff.mp k).1, fillHeld, if_neg h]

theorem fillDone_of_going (h : r.state = .filling) (hheld : r.held + 10 < r.fillTime) :
    fillDone locks c r = { r with held := r.held + 10 } := by
  rw [fillDone, if_neg fun k => by have := (fillEnds_iff.mp k).2; omega, fillHeld, if_pos h]

theorem fillDone_of_ended (h : r.state = .filling) (hheld : r.fillTime ≤ r.held + 10) :
    fillDone locks c r = fillEnded locks c { r with held := r.held + 10 } := by
  rw [fillDone, if_pos (fillEnds_iff.mpr ⟨h, hheld⟩), fillHeld, if_pos h]

/-- An interval of fills leaves the marks and the learned fill time. -/
theorem fillDone_learned : (fillDone locks c r).learned = r.learned ∧ (fillDone locks c r).adapted = r.adapted ∧
    (fillDone locks c r).mark = r.mark := by
  by_cases hstate : r.state = .filling
  · by_cases hheld : r.fillTime ≤ r.held + 10
    · rw [fillDone_of_ended hstate hheld]
      cases locks <;> exact ⟨rfl, rfl, rfl⟩
    · rw [fillDone_of_going hstate (not_le.mp hheld)]
      exact ⟨rfl, rfl, rfl⟩
  · rw [fillDone_of_other hstate]
    exact ⟨rfl, rfl, rfl⟩

end

/-! ## The table -/

/-- The clutch table after an interval of fills. -/
def fillTable (s : State) : ClutchTable ClutchRec :=
  s.shc.clutches.map fun x r => fillDone (locksAtOnce s.shc) (s.cfg.clutches.get x) r

section
variable {s : State}

theorem fillTable_get (x : Clutch) :
    (fillTable s).get x = fillDone (locksAtOnce s.shc) (s.cfg.clutches.get x) (s.clutch x) := ClutchTable.get_map _ _ _

theorem holdFill_clutch (s : State) (x : Clutch) : holdFill s x = s.withClutch x (fillHeld (s.clutch x)) := by
  unfold holdFill fillHeld
  split
  · rfl
  · exact (withClutch_same s x).symm

theorem fillDue_fillsSet {k : ClutchTable ClutchRec} {n : Nat} {x : Clutch} : fillDue (fillsSet s k n) x = true ↔
    (k.get x).state = .filling ∧ (k.get x).fillTime ≤ (k.get x).held := by
  unfold fillDue
  rw [Bool.and_eq_true, beq_iff_eq, decide_eq_true_iff]
  rfl

theorem settleDue_fillsSet (s : State) (k : ClutchTable ClutchRec) (n : Nat) (x : Clutch) :
    ∃ m : Nat, settleDue (fillsSet s k n) x = fillsSet s (k.set x (if (k.get x).state = .filling ∧
        (k.get x).fillTime ≤ (k.get x).held then fillEnded (locksAtOnce s.shc) (s.cfg.clutches.get x) (k.get x)
      else k.get x)) m ∧ (rampBegins s.shc = false → m = n) ∧
      ((k.get x).state ≠ .filling ∨ (k.get x).held < (k.get x).fillTime → m = n) ∧
      ((k.get x).state = .filling → (k.get x).fillTime ≤ (k.get x).held → rampBegins s.shc = true → m = 0) ∧
      (n = 0 → m = 0) := by
  unfold settleDue
  by_cases hdue : (k.get x).state = .filling ∧ (k.get x).fillTime ≤ (k.get x).held
  · rw [if_pos (fillDue_fillsSet.mpr hdue), if_pos hdue]
    refine ⟨_, settleFill_fillsSet, fun h => by simp [h], fun h => ?_, fun _ _ h => by simp [h], fun h => by simp [h]⟩
    rcases h with h | h
    · exact absurd hdue.1 h
    · omega
  · rw [if_neg (mt fillDue_fillsSet.mp hdue), if_neg hdue, set_get_same]
    exact ⟨n, rfl, fun _ => rfl, fun _ => rfl, fun h1 h2 => absurd ⟨h1, h2⟩ hdue, id⟩

/-- A fill that is due ends, in a record whose fill has been counted. -/
def dueEnded (s : State) (x : Clutch) (r : ClutchRec) : ClutchRec :=
  if r.state = .filling ∧ r.fillTime ≤ r.held then fillEnded (locksAtOnce s.shc) (s.cfg.clutches.get x) r else r

theorem dueEnded_fillHeld (x : Clutch) (r : ClutchRec) :
    dueEnded s x (fillHeld r) = fillDone (locksAtOnce s.shc) (s.cfg.clutches.get x) r := by
  unfold dueEnded fillDone
  refine if_congr ?_ rfl rfl
  rw [fillEnds_iff]
  unfold fillHeld
  split
  · rfl
  next h => simp [h]

/-- The fills that are due end, one by one; in the ramp of an engagement the first makes the interval count 0. -/
theorem settleAll_eq {l : List Clutch} (hl : l.Nodup) (k : ClutchTable ClutchRec) (n : Nat) :
    ∃ m : Nat, overClutches settleDue l (fillsSet s k n) = fillsSet s (mapOn l (dueEnded s) k) m ∧
      (rampBegins s.shc = false → m = n) ∧
      ((∀ x ∈ l, (k.get x).state ≠ .filling ∨ (k.get x).held < (k.get x).fillTime) → m = n) ∧
      ((∃ x ∈ l, (k.get x).state = .filling ∧ (k.get x).fillTime ≤ (k.get x).held) → rampBegins s.shc = true → m = 0) ∧
      (n = 0 → m = 0) := by
  induction l generalizing k n with
  | nil => exact ⟨n, by rw [mapOn_nil]; rfl, fun _ => rfl, fun _ => rfl, fun ⟨x, hx, _⟩ => absurd hx List.not_mem_nil, id⟩
  | cons y l ih =>
    obtain ⟨hy, hl⟩ := List.nodup_cons.mp hl
    obtain ⟨m, hstep, hkept, hstill, hreset, hzero⟩ := settleDue_fillsSet s k n y
    obtain ⟨m', hrest, hkept', hstill', hreset', hzero'⟩ := ih hl (k.set y (dueEnded s y (k.get y))) m
    have hother (x : Clutch) (hx : x ∈ l) : (k.set y (dueEnded s y (k.get y))).get x = k.get x := by
      rw [ClutchTable.get_set, if_neg fun h : x = y => hy (h ▸ hx)]
    refine ⟨m', ?_, fun h => (hkept' h).trans (hkept h), fun h => ?_, fun ⟨x, hx, hdue⟩ hramp => ?_, fun h => hzero' (hzero h)⟩
    · calc overClutches settleDue (y :: l) (fillsSet s k n)
          = overClutches settleDue l (settleDue (fillsSet s k n) y) := rfl
        _ = fillsSet s (mapOn (y :: l) (dueEnded s) k) m' := by
          rw [hstep, ← mapOn_cons hy]
          exact hrest
    · refine (hstill' fun x hx => ?_).trans (hstill (h y List.mem_cons_self))
      rw [hother x hx]
      exact h x (List.mem_cons_of_mem _ hx)
    · rcases List.mem_cons.mp hx with rfl | hx
      · exact hzero' (hreset hdue.1 hdue.2 hramp)
      · exact hreset' ⟨x, hx, by rw [hother x hx]; exact hdue⟩ hramp

/-- An interval of fills maps the table, and begins the ramp of an engagement where one ends (R84). -/
theorem fillStep_eq (s : State) : ∃ n : Nat, fillStep s = fillsSet s (fillTable s) n ∧
    (rampBegins s.shc = false → n = s.shc.interval) ∧
    ((∀ x, fillEnds (s.clutch x) = false) → n = s.shc.interval) ∧
    ((∃ x, fillEnds (s.clutch x) = true) → rampBegins s.shc = true → n = 0) := by
  have hheld : overClutches holdFill Clutch.all s =
      fillsSet s (mapOn Clutch.all (fun _ r => fillHeld r) s.shc.clutches) s.shc.interval :=
    overClutches_eq (fun _ _ => holdFill_clutch _ _) clutch_all_nodup
  have hget (x : Clutch) : (mapOn Clutch.all (fun _ r => fillHeld r) s.shc.clutches).get x = fillHeld (s.clutch x) :=
    (mapOn_get x).trans (if_pos (Clutch.mem_all x))
  have hends (x : Clutch) : fillEnds (s.clutch x) = true ↔
      (fillHeld (s.clutch x)).state = .filling ∧ (fillHeld (s.clutch x)).fillTime ≤ (fillHeld (s.clutch x)).held := by
    rw [fillEnds_iff]
    unfold fillHeld
    split
    · rfl
    next h => simp [h]
  obtain ⟨n, hsettle, hkept, hstill, hreset, -⟩ := settleAll_eq (s := s) clutch_all_nodup
    (mapOn Clutch.all (fun _ r => fillHeld r) s.shc.clutches) s.shc.interval
  have htable : mapOn Clutch.all (dueEnded s) (mapOn Clutch.all (fun _ r => fillHeld r) s.shc.clutches) = fillTable s :=
    ClutchTable.ext_get _ _ fun x => by
      rw [mapOn_get, if_pos (Clutch.mem_all x), hget, dueEnded_fillHeld, fillTable_get]
  refine ⟨n, ?_, hkept, fun h => hstill fun x _ => ?_, fun ⟨x, hx⟩ hramp => hreset ⟨x, Clutch.mem_all x, ?_⟩ hramp⟩
  · rw [fillStep, hheld, hsettle, htable]
  · rw [hget]
    have := h x
    by_contra hcon
    rw [not_or, not_not, not_lt] at hcon
    simp [(hends x).mpr hcon] at this
  · rw [hget]
    exact (hends x).mp hx

/-- Outside an engagement an interval of fills changes the clutch table alone. -/
theorem fillStep_of_other (h : s.shc.state ≠ .engaging) : fillStep s = clutchesSet s (fillTable s) := by
  obtain ⟨n, hstep, hkept, -, -⟩ := fillStep_eq s
  rw [hstep, hkept (by simp [rampBegins, h])]
  rfl

theorem fillStep_of_preselect (hstate : s.shc.state = .engaging) (hphase : s.shc.phase = some .preselect) :
    fillStep s = clutchesSet s (fillTable s) := by
  obtain ⟨n, hstep, hkept, -, -⟩ := fillStep_eq s
  rw [hstep, hkept (by simp [rampBegins, locksAtOnce, hstate, hphase])]
  rfl

/-! ## NEUTRAL (R89) -/

theorem advance_of_neutral (h : s.shc.state = .neutral) : advance s = afterFills (fillStep s) := by
  unfold advance
  rw [h]

/-- An interval in NEUTRAL: the fills, and the gear of a PRESELECT whose pair is then LOCKED. -/
theorem advance_neutral (h : s.shc.state = .neutral) : ∃ (current preselect : Option Gear),
    advance s = s.withShc { s.shc with clutches := fillTable s, current := current, preselect := preselect } ∧
    (∀ g, s.shc.preselect = some g → allIn (clutchesSet s (fillTable s)) .locked (gearPair s.cfg g) = true →
      current = some g ∧ preselect = none) ∧
    ((∀ g, s.shc.preselect = some g → allIn (clutchesSet s (fillTable s)) .locked (gearPair s.cfg g) = false) →
      current = s.shc.current ∧ preselect = s.shc.preselect) := by
  obtain ⟨current, preselect, hafter, hmade, hkept⟩ := afterFills_of_neutral (s := clutchesSet s (fillTable s)) h
  refine ⟨current, preselect, ?_, hmade, hkept⟩
  rw [advance_of_neutral h, fillStep_of_other (by simp [h]), hafter]
  rfl

end

end Sys2Proof.Proofs
end

