-- ==== Sys2Proof/Proofs/Engagements.lean ====
section
/-! SUPPORT. An engagement as it begins (R83, R84), the parking of a gearbox and the release of park (R90, R91), and the
entry to FAULT_HOLD (R96). -/

namespace Sys2Proof.Proofs

open Sys2Proof Sys2Proof.Machine

/-! ## PRESELECT and RAMP as they begin (R84) -/

theorem gearPair_apart {c : Image} {g : Gear} {x y : Clutch} (hx : x ∈ gearPair c g) (hy : y ∈ gearPair c g) :
    y ∉ othersOf x ∨ x = y := by
  rcases hentry : c.entryOf g with _ | e
  · simp [gearPair, hentry] at hx
  simp only [gearPair, hentry, List.mem_cons, List.not_mem_nil, or_false] at hx hy
  have hgroups : e.range.clutch ∉ othersOf e.speed.clutch ∧ e.speed.clutch ∉ othersOf e.range.clutch := by
    cases e.speed <;> cases e.range <;> decide
  rcases hx with rfl | rfl <;> rcases hy with rfl | rfl
  · exact .inr rfl
  · exact .inl hgroups.1
  · exact .inl hgroups.2
  · exact .inr rfl

section
variable {s : State}

/-- Clutches of different groups that are not LOCKED begin to fill, one after the other. -/
theorem preselectAll_eq {l : List Clutch} (hl : l.Nodup) (hapart : ∀ x ∈ l, ∀ y ∈ l, y ∉ othersOf x ∨ x = y)
    (k : ClutchTable ClutchRec) : ∃ q : ClutchTable ClutchRec,
    overClutches preselectClutch l (clutchesSet s k) = clutchesSet s q ∧
    (∀ x ∈ l, q.get x = if (k.get x).state = .locked then k.get x else filling s x (k.get x)) ∧
    ∀ x, x ∉ l → (∀ y ∈ l, x ∉ othersOf y) → q.get x = k.get x := by
  induction l generalizing k with
  | nil => exact ⟨k, rfl, nofun, fun _ _ _ => rfl⟩
  | cons y l ih =>
    obtain ⟨hy, hl⟩ := List.nodup_cons.mp hl
    have hstep : ∃ k' : ClutchTable ClutchRec, preselectClutch (clutchesSet s k) y = clutchesSet s k' ∧
        k'.get y = (if (k.get y).state = .locked then k.get y else filling s y (k.get y)) ∧
        ∀ x, x ≠ y → x ∉ othersOf y → k'.get x = k.get x := by
      by_cases hlocked : (k.get y).state = .locked
      · exact ⟨k, if_pos hlocked, (if_pos hlocked).symm, fun _ _ _ => rfl⟩
      · refine ⟨aloneTable s y k, (if_neg hlocked).trans (fillAlone_eq (clutchesSet s k) y), ?_, fun x hx hother => ?_⟩
        · rw [aloneTable_get, if_pos rfl, if_neg hlocked]
        · rw [aloneTable_get, if_neg hx, if_neg hother]
    obtain ⟨k', hfirst, hown, hother⟩ := hstep
    obtain ⟨q, hrest, hget, hkept⟩ := ih hl (fun x hx z hz => hapart x (List.mem_cons_of_mem _ hx) z
      (List.mem_cons_of_mem _ hz)) k'
    have hne (x : Clutch) (hx : x ∈ l) : x ≠ y := fun h => hy (h ▸ hx)
    refine ⟨q, ?_, fun x hx => ?_, fun x hx hothers => ?_⟩
    · calc overClutches preselectClutch (y :: l) (clutchesSet s k)
          = overClutches preselectClutch l (preselectClutch (clutchesSet s k) y) := rfl
        _ = clutchesSet s q := by rw [hfirst, hrest]
    · rcases List.mem_cons.mp hx with rfl | hx
      · rw [hkept x hy fun z hz => (hapart z (List.mem_cons_of_mem _ hz) x List.mem_cons_self).resolve_right (hne z hz)]
        exact hown
      · rw [hget x hx, hother x (hne x hx)
          ((hapart y List.mem_cons_self x (List.mem_cons_of_mem _ hx)).resolve_right (hne x hx).symm)]
    · rw [hkept x (fun h => hx (List.mem_cons_of_mem _ h)) fun z hz => hothers z (List.mem_cons_of_mem _ hz)]
      exact hother x (fun h => hx (h ▸ List.mem_cons_self)) (hothers y List.mem_cons_self)

/-- The state in which an engagement begins its PRESELECT. -/
def engagingSet (t : Gear) (s : State) : State := s.withShc { s.shc with
  target := some t, phase := some .preselect, interval := 0, preselect := none }

theorem beginEngaging_of_locked {t : Gear} (h : ∀ x ∈ gearPair s.cfg t, (s.clutch x).state = .locked) :
    beginEngaging t s = enterGearbox .engaging (beginRamp t (engagingSet t s)) :=
  congrArg (enterGearbox .engaging) (if_pos (allIn_iff.mpr h))

theorem beginEngaging_of_unlocked {t : Gear} (h : ∃ x ∈ gearPair s.cfg t, (s.clutch x).state ≠ .locked) :
    beginEngaging t s =
      enterGearbox .engaging (overClutches preselectClutch (gearPair s.cfg t) (engagingSet t s)) :=
  congrArg (enterGearbox .engaging) (if_neg (by
    rw [Bool.not_eq_true]
    exact allIn_false_iff.mpr h))

/-- The record of an engagement as it begins: in RAMP with the direction clutch filling where the gear's clutches are
LOCKED, and else in PRESELECT with those that are not LOCKED filling. -/
theorem beginEngaging_spec (t : Gear) (s : State) : ∃ (k : ClutchTable ClutchRec) (p : Phase) (c : Option Gear),
    (beginEngaging t s).shc = { s.shc with
      state := .engaging, target := some t, phase := some p, interval := 0, preselect := none, current := c, clutches := k } ∧
    ((∀ x ∈ gearPair s.cfg t, (s.clutch x).state = .locked) → p = .ramp ∧ c = some t ∧
      k.get t.dir.clutch = filling s t.dir.clutch (s.clutch t.dir.clutch)) ∧
    ((∃ x ∈ gearPair s.cfg t, (s.clutch x).state ≠ .locked) → p = .preselect ∧ c = s.shc.current ∧
      ∀ x ∈ gearPair s.cfg t, (s.clutch x).state ≠ .locked → k.get x = filling s x (s.clutch x)) := by
  by_cases hlocked : ∀ x ∈ gearPair s.cfg t, (s.clutch x).state = .locked
  · refine ⟨aloneTable s t.dir.clutch s.shc.clutches, .ramp, some t, ?_, fun _ => ⟨rfl, rfl, ?_⟩, fun ⟨x, hx, h⟩ =>
      absurd (hlocked x hx) h⟩
    · rw [beginEngaging_of_locked hlocked, enterGearbox_shc, beginRamp_eq]
      rfl
    · rw [aloneTable_get, if_pos rfl]
      rfl
  · push Not at hlocked
    obtain ⟨q, hall, hget, -⟩ := preselectAll_eq (s := engagingSet t s) (gearPair_nodup s.cfg t)
      (fun _ hx _ hy => gearPair_apart hx hy) s.shc.clutches
    have hset : overClutches preselectClutch (gearPair s.cfg t) (engagingSet t s) = clutchesSet (engagingSet t s) q := hall
    refine ⟨q, .preselect, s.shc.current, ?_, fun h => ?_, fun _ => ⟨rfl, rfl, fun x hx h => ?_⟩⟩
    · rw [beginEngaging_of_unlocked hlocked, hset, enterGearbox_shc]
      rfl
    · obtain ⟨x, hx, hne⟩ := hlocked
      exact absurd (h x hx) hne
    · rw [hget x hx]
      exact if_neg h

theorem touches_beginEngaging (t : Gear) (s : State) : Touches [.shc, .lc] s (beginEngaging t s) :=
  ((Moves.refl (by decide) (by decide) s).beginEngaging t).touches

/-! ## An engagement request (R83) -/

/-- The gear a lever direction engages: the selected one, or its partner of that direction. -/
theorem gearToEngage_of_selected {d : Dir} {g : Gear} (h : s.shc.selected = some g) (hdir : g.dir = d) :
    gearToEngage s d = some g := by
  unfold gearToEngage
  rw [h]
  exact if_pos hdir

theorem gearToEngage_of_partner {d : Dir} {g h : Gear} (hselected : s.shc.selected = some h) (hdir : h.dir ≠ d)
    (hpartner : s.shc.partner h = some g) : gearToEngage s d = some g := by
  unfold gearToEngage
  rw [hselected]
  exact (if_neg hdir).trans hpartner

theorem startable_of_entry {c : Image} {g : Gear} {e : GearEntry} (he : c.entryOf g = some e) (hstart : e.start = true) :
    Image.startable c g = true ∧ c.ratioOf g = e.ratio := by
  unfold Image.startable Image.ratioOf
  rw [he]
  exact ⟨hstart, rfl⟩

/-- A start-permitted gear is refused for charge in doubt or for overspeed alone. -/
theorem engageRefusal_eq {g : Gear} {e : GearEntry} (he : s.cfg.entryOf g = some e) (hstart : e.start = true)
    (hcharge : s.chargeDoubt = false) :
    engageRefusal s g = if 2400 < s.scu.motion.outRpm * e.ratio / 1000 then some .overspeed else none := by
  obtain ⟨hstartable, hratio⟩ := startable_of_entry he hstart
  unfold engageRefusal
  rw [hstartable, hcharge, hratio]
  rfl

theorem engageRequest_of_taken {d : Dir} {g : Gear} (hgear : gearToEngage s d = some g)
    (hrefusal : engageRefusal s g = none) : engageRequest d s = beginEngaging g s := by
  unfold engageRequest
  rw [hgear]
  dsimp only
  rw [hrefusal]

theorem engageRequest_of_refused {d : Dir} {g : Gear} {why : ShcReason} (hgear : gearToEngage s d = some g)
    (hrefusal : engageRefusal s g = some why) : engageRequest d s = refuseLever why s := by
  unfold engageRequest
  rw [hgear]
  dsimp only
  rw [hrefusal]

/-- Whatever a lever direction asks, the lock of the parking brake stays as it is. -/
theorem engageRequest_parkReleased (d : Dir) : (engageRequest d s).shc.parkReleased = s.shc.parkReleased := by
  unfold engageRequest
  split
  next g _ =>
    split
    · rfl
    · obtain ⟨k, p, c, hshc, -, -⟩ := beginEngaging_spec g s
      rw [hshc]
  · rfl

theorem engageLever_parkReleased : (engageLever s).shc.parkReleased = s.shc.parkReleased := by
  unfold engageLever
  split
  · exact engageRequest_parkReleased _
  · exact engageRequest_parkReleased _
  · rfl
  · rfl

theorem touches_engageLever (s : State) : Touches [.shc, .lc] s (engageLever s) :=
  (Moves.refl (by decide) (by decide) s).engageLever.touches

/-- The lever of a gear's direction asks for an engagement in that direction. -/
theorem engageLever_of_dir {d : Dir} (h : s.shc.lever = Dir.lever d) : engageLever s = engageRequest d s := by
  unfold engageLever
  rw [h]
  cases d <;> rfl

/-! ## Parking and the release of park (R90, R91) -/

theorem writePkv_shc (released : Bool) : (writePkv released s).shc = { s.shc with parkReleased := released } :=
  touches_writeCommand .pkv _ (s.withShc { s.shc with parkReleased := released }) .shc (by decide)

theorem touches_writePkv (released : Bool) : Touches [.vdb, .shc] s (writePkv released s) :=
  also ((touches_withShc s _).mono (by decide)) (touches_writeCommand _ _ _)

theorem writePkv_command (released : Bool) : ((writePkv released s).out .pkv).command = if released then 1 else 0 := by
  unfold writePkv
  rw [writeCommand_command]
  cases released <;> rfl

/-- The park order to the trailer commands the trailer valves alone. -/
theorem trailerParkOrder_spec (s : State) : (s.tbc.state ≠ .breakaway → (trailerParkOrder s).tbc.state = .parked) ∧
    (s.tbc.state = .breakaway → (trailerParkOrder s).tbc = s.tbc) ∧
    ((trailerParkOrder s).out .pkv).command = (s.out .pkv).command := by
  cases hparks : s.tbc.state.parks with
  | true =>
    have horder : trailerParkOrder s = enterTrailerParked s := if_pos hparks
    rw [horder]
    refine ⟨fun _ => by rw [enterTrailerParked_tbc], fun h => ?_, enterIdle_command _ (by decide) (by decide)⟩
    simp [h, TrailerState.parks] at hparks
  | false =>
    have horder : trailerParkOrder s = s := if_neg (by simp [hparks])
    rw [horder]
    refine ⟨fun hne => ?_, fun _ => rfl, rfl⟩
    cases hstate : s.tbc.state
    case breakaway => exact absurd hstate hne
    case parked => rfl
    all_goals simp [hstate, TrailerState.parks] at hparks

/-- The gearbox parked, before the trailer takes its order. -/
def gearboxParked (s : State) : State :=
  let u := overClutches drainClutch gearClutches (writePkv false s)
  enterGearbox .parked (u.withShc { u.shc with current := none, pendingPark := false, preselect := none })

theorem gearboxParked_shc (s : State) : (gearboxParked s).shc = { s.shc with
    state := .parked, parkReleased := false, current := none, pendingPark := false, preselect := none
    clutches := mapOn gearClutches (fun _ c => c.drainTo 0) s.shc.clutches } := by
  have hdrain := drainAll_eq (s := writePkv false s) (l := gearClutches) (by decide)
  rw [writePkv_shc] at hdrain
  unfold gearboxParked
  rw [enterGearbox_shc, hdrain]
  simp only [State.withShc_shc, shc_clutchesSet, writePkv_shc]

theorem gearboxParked_command (s : State) : ((gearboxParked s).out .pkv).command = 0 := by
  have hdrain := drainAll_eq (s := writePkv false s) (l := gearClutches) (by decide)
  have hout (u : State) (st : GearState) : (enterGearbox st u).out .pkv = u.out .pkv :=
    out_of_vdb (touches_enterGearbox u st .vdb (by decide)) _
  unfold gearboxParked
  rw [hout, hdrain]
  exact writePkv_command false

theorem touches_gearboxParked (s : State) : Touches [.vdb, .shc, .lc] s (gearboxParked s) := by
  have hdrain := drainAll_eq (s := writePkv false s) (l := gearClutches) (by decide)
  unfold gearboxParked
  rw [hdrain]
  exact also (also ((touches_writePkv false).mono (by decide)) (touches_withShc _ _)) (touches_enterGearbox _ _)

theorem applyPark_shc (s : State) : (applyPark s).shc = (gearboxParked s).shc :=
  touches_trailerParkOrder (gearboxParked s) .shc (by decide)

/-- A refused release leaves park as it is. -/
theorem tryRelease_of_refused {ended : Bool} {why : ShcReason} (h : releaseRefusal s = some why) :
    tryRelease ended s = refuseLever why s := by
  unfold tryRelease
  rw [h]

/-- The gearbox released into NEUTRAL. -/
def parkLeft (s : State) : State := enterGearbox .neutral (writePkv true s)

theorem tryRelease_of_released {ended : Bool} (h : releaseRefusal s = none) :
    tryRelease ended s = if ended then engageLever (parkLeft s) else parkLeft s := by
  unfold tryRelease
  rw [h]
  rfl

theorem parkLeft_shc (s : State) : (parkLeft s).shc = { s.shc with state := .neutral, parkReleased := true } := by
  rw [parkLeft, enterGearbox_shc, writePkv_shc]

theorem parkLeft_command (s : State) : ((parkLeft s).out .pkv).command = 1 := by
  have hout : (parkLeft s).out .pkv = (writePkv true s).out .pkv :=
    out_of_vdb (touches_enterGearbox (writePkv true s) .neutral .vdb (by decide)) _
  rw [hout]
  exact writePkv_command true

theorem touches_parkLeft (s : State) : Touches [.vdb, .shc, .lc] s (parkLeft s) :=
  also ((touches_writePkv true).mono (by decide)) (touches_enterGearbox _ _)

/-- The refusal of a release as the statements give it. -/
theorem releaseRefusal_eq (s : State) : releaseRefusal s = releaseWhy s := by
  have hengine : (match s.engineSpeed with
      | some n => decide (n ≤ 500)
      | none => true) = decide (s.engineSpeed.getD 0 ≤ 500) := by
    cases s.engineSpeed <;> rfl
  have hcharge : (s.chargeDoubt = true ∨ s.sfe.chans.chg.value < 140) ↔
      (s.sfe.chans.chg.cmp = .low ∨ s.sfe.chans.chg.state ≠ .valid ∨ s.sfe.chans.chg.value < 140) := by
    rw [chargeDoubt_iff, or_assoc]
  unfold releaseRefusal releaseWhy
  refine if_congr Iff.rfl rfl (if_congr ?_ rfl (if_congr hcharge rfl rfl))
  exact (Bool.eq_iff_iff.mp hengine).trans decide_eq_true_iff

/-! ## FAULT_HOLD (R96) -/

/-- The table at the entry to FAULT_HOLD. -/
def carryingDrained (s : State) : ClutchTable ClutchRec := mapOn Clutch.all
  (fun _ c => if c.command ≠ 0 ∨ c.value ≠ 0 then c.drainTo 0 else c) s.shc.clutches

theorem drainCarrying_eq (s : State) (x : Clutch) : drainCarrying s x =
    s.withClutch x (if (s.clutch x).command ≠ 0 ∨ (s.clutch x).value ≠ 0 then (s.clutch x).drainTo 0 else s.clutch x) := by
  unfold drainCarrying
  split
  · rfl
  · exact (withClutch_same s x).symm

theorem enterFaultHold_shc (s : State) : (enterFaultHold s).shc = { s.shc with
    state := .faultHold, phase := none, kind := none, target := none, shiftOrigin := none, interval := 0
    queue := [], pendingShuttle := false, current := none, preselect := none, torque := none
    clutches := carryingDrained s } := by
  have hdrain : overClutches drainCarrying Clutch.all s = clutchesSet s (carryingDrained s) :=
    overClutches_eq (fun _ _ => drainCarrying_eq _ _) clutch_all_nodup
  have htorque := withdrawTorque_shc (clutchesSet s (carryingDrained s))
  unfold enterFaultHold
  rw [hdrain, enterGearbox_shc, dropOperation_shc]
  simp only [State.withShc_shc]
  rw [htorque, shc_clutchesSet]

theorem touches_enterFaultHold (s : State) : Touches [.shc, .lc] s (enterFaultHold s) :=
  (Moves.refl (by decide) (by decide) s).enterFaultHold.touches

end

end Sys2Proof.Proofs
end

