-- ==== Sys2Proof/Proofs/ParkAndFaultHold.lean ====
section
/-! PROOF. O34: the SHC interval parks the gearbox, releases park or refuses it, and enters and leaves FAULT_HOLD (R83,
R90, R91, R96, R157). -/

namespace Sys2Proof.Proofs

open Sys2Proof Sys2Proof.Machine

/-! ## Parking (R90) -/

section
variable {s w : State}

theorem canPark_iff : canPark w = true ↔ (w.shc.state = .neutral ∨ w.shc.state = .faultHold) ∧
    w.shc.pendingPark = true ∧ parkRequested w = true ∧ w.scu.motion.standstill = true ∧
    (w.clutch .fwd).state = .off ∧ (w.clutch .rev).state = .off := by
  unfold canPark
  simp only [Bool.and_eq_true, Bool.or_eq_true, beq_iff_eq, and_assoc, allIn_iff]
  simp [directionClutches]

/-- Step 4 of a gearbox in NEUTRAL or FAULT_HOLD changes clutches that fill, the current gear and the gear whose
PRESELECT goes on. -/
theorem advance_of_rest (h : w.shc.state = .neutral ∨ w.shc.state = .faultHold) :
    ∃ (k : ClutchTable ClutchRec) (c p : Option Gear),
      advance w = w.withShc { w.shc with clutches := k, current := c, preselect := p } ∧
      ∀ x, (w.clutch x).state ≠ .filling → k.get x = w.clutch x := by
  rcases h with h | h
  · obtain ⟨c, p, hadvance, -, -⟩ := advance_neutral h
    refine ⟨_, c, p, hadvance, fun x hx => ?_⟩
    rw [fillTable_get, fillDone_of_other hx]
  · refine ⟨w.shc.clutches, w.shc.current, w.shc.preselect, ?_, fun _ _ => rfl⟩
    unfold advance
    rw [h]
    rfl

/-- A gearbox that can park at the end of step 2 parks at step 5. -/
theorem parks_at_interval {before : GearState} {ended : Bool} (hbefore : w.shc.state = before ∨ w.shc.state = .neutral)
    (h : canPark w = true) : ∃ v : State, parkTest ended (advanceFrom before (takeHead w)) = applyPark v ∧
      v.tbc = w.tbc := by
  obtain ⟨hstate, hpending, hrequested, hstandstill, hfwd, hrev⟩ := canPark_iff.mp h
  obtain ⟨k, c, p, hadvance, hkept⟩ := advance_of_rest hstate
  have hhead : takeHead w = w := takeHead_of_not_inGear (by rcases hstate with h | h <;> simp [h])
  have hfrom : advanceFrom before w = advance w := if_pos hbefore
  have hcan : canPark (advance w) = true := by
    rw [hadvance]
    refine canPark_iff.mpr ⟨hstate, hpending, hrequested, hstandstill, ?_, ?_⟩
    · exact (congrArg ClutchRec.state (hkept .fwd (by simp [hfwd]))).trans hfwd
    · exact (congrArg ClutchRec.state (hkept .rev (by simp [hrev]))).trans hrev
  refine ⟨advance w, ?_, by rw [hadvance]; rfl⟩
  rw [hhead, hfrom]
  exact if_pos hcan

/-- What an interval that parks leaves. -/
theorem parked_at_end {v t : State} (h : Finished s (applyPark v) t) : t.shc.state = .parked ∧
    t.shc.parkReleased = false ∧ (t.out .pkv).command = 0 ∧ t.shc.current = none ∧ t.shc.pendingPark = false ∧
    (∀ x ∈ gearClutches, (t.clutch x).command = 0) ∧ (v.tbc.state ≠ .breakaway → t.tbc.state = .parked) ∧
    (v.tbc.state = .breakaway → t.tbc = v.tbc) := by
  have hshc := applyPark_shc v
  rw [gearboxParked_shc] at hshc
  obtain ⟨hparked, hbreakaway, hpkv⟩ := trailerParkOrder_spec (gearboxParked v)
  have htbc : (gearboxParked v).tbc = v.tbc := touches_gearboxParked v .tbc (by decide)
  have htend : t.tbc = (trailerParkOrder (gearboxParked v)).tbc := h.touches .tbc (by decide)
  rw [htbc] at hparked hbreakaway
  refine ⟨?_, ?_, ?_, ?_, ?_, fun x hx => ?_, fun hne => ?_, fun heq => htend.trans (hbreakaway heq)⟩
  · rw [h.state, hshc]
  · rw [h.same Shc.parkReleased fun _ _ _ => rfl, hshc]
  · rw [h.apart .pkv (.inl rfl)]
    exact hpkv.trans (gearboxParked_command v)
  · rw [h.current, hshc]
  · rw [h.pendingPark, hshc]
  · have hgear : x ≠ .fwd ∧ x ≠ .rev := by
      constructor <;> rintro rfl <;> exact absurd hx (by decide)
    rw [h.gearCommand hgear, State.clutch, hshc]
    exact congrArg ClutchRec.value ((mapOn_get x).trans (if_pos hx))
  · rw [htend]
    exact hparked hne

/-! ## FAULT_HOLD (R96) -/

theorem faultHoldTest_of_faulted (hparked : s.shc.state ≠ .parked) (hhold : s.shc.state ≠ .faultHold)
    (hfault : s.gearboxFaulted = true) : faultHoldTest s = enterFaultHold s := by
  unfold faultHoldTest
  rw [if_neg hhold, if_neg hparked, if_pos hfault]

/-- FAULT_HOLD ends in NEUTRAL with the lever at N and no faulted output. -/
theorem faultHoldTest_of_hold (h : s.shc.state = .faultHold) : faultHoldTest s =
    if s.shc.lever = .n ∧ s.gearboxFaulted = false then enterGearbox .neutral s else s := if_pos h

theorem parkTest_of_not_pending {ended : Bool} (hpending : s.shc.pendingPark = false) (hparked : s.shc.state ≠ .parked) :
    parkTest ended s = s := by
  simp [parkTest, canPark, hpending, hparked]

theorem advanceFrom_of_other {before : GearState} (h : s.shc.state ≠ before) (hneutral : s.shc.state ≠ .neutral) :
    advanceFrom before s = s := if_neg (not_or.mpr ⟨h, hneutral⟩)

/-- What an interval that enters FAULT_HOLD leaves. -/
theorem faultHold_at_end {u t : State} (h : Finished s (enterFaultHold u) t) (hclutches : u.shc.clutches = s.shc.clutches) :
    t.shc.state = .faultHold ∧ t.shc.queue = [] ∧ t.shc.torque = none ∧ t.shc.current = none ∧ t.shc.target = none ∧
    t.shc.phase = none ∧ t.shc.pendingShuttle = false ∧
    ∀ x : Clutch, (s.clutch x).command ≠ 0 → (t.clutch x).command = 0 ∧
      ((s.clutch x).drain = none → (t.clutch x).state = .draining) := by
  have hshc := enterFaultHold_shc u
  refine ⟨?_, ?_, ?_, ?_, ?_, ?_, ?_, fun x hx => ?_⟩
  · rw [h.state, hshc]
  · rw [h.queue, hshc]
  · rw [h.torque, hshc]
  · rw [h.current, hshc]
  · rw [h.target, hshc]
  · rw [h.phase, hshc]
  · rw [h.pendingShuttle, hshc]
  · have hclutch : (enterFaultHold u).clutch x = (s.clutch x).drainTo 0 := by
      rw [State.clutch, hshc]
      change (carryingDrained u).get x = _
      rw [carryingDrained, mapOn_get, if_pos (Clutch.mem_all x), hclutches]
      exact if_pos (.inl hx)
    have hdraining : ((enterFaultHold u).clutch x).state = .draining := congrArg ClutchRec.state hclutch
    refine ⟨?_, fun hdrain => (h.untimed hdrain).1.trans hdraining⟩
    rw [h.freeCommand (by simp [hdraining]) (by simp [hdraining])]
    exact congrArg ClutchRec.value hclutch

end

/-! ## The release of park (R91) -/

/-- A PARKED gearbox at the end of step 2, whose lever stands at `l` and whose park request has gone. -/
structure ReleaseAsked (s w : State) (l : Lever) : Prop where
  touches : Touches [.shc, .mc] s w
  state : w.shc.state = .parked
  lever : w.shc.lever = l
  ignored : w.shc.ignored = none
  requested : parkRequested w = false
  refusals : w.shc.refusals = s.shc.refusals
  selected : w.shc.selected = s.shc.selected
  map : w.shc.shuttleMap = s.shc.shuttleMap

section
variable {s w : State} {l : Lever}

/-- Of a PARKED gearbox whose park request has gone the rest of steps 1 and 2 clears the request. -/
theorem restInputs_of_parked {c : State} (hparked : c.shc.state = .parked) (hrequested : parkRequested c = false) :
    ∃ (q : List QueueEntry) (b : Bool), faultHoldTest (followParkRequest (takeSpeedLoss c)) =
      c.withShc { c.shc with queue := q, speedLost := b, parkForce := false, pendingPark := false } := by
  have hspeed : ∃ (q : List QueueEntry) (b : Bool),
      takeSpeedLoss c = c.withShc { c.shc with queue := q, speedLost := b } := by
    unfold takeSpeedLoss
    dsimp only
    split
    · exact ⟨[], _, rfl⟩
    · exact ⟨_, _, rfl⟩
  obtain ⟨q, b, hspeed⟩ := hspeed
  have hfollow (u : State) (hu : parkRequested u = false) :
      followParkRequest u = u.withShc { u.shc with parkForce := false, pendingPark := false } := by
    unfold followParkRequest
    dsimp only
    rw [hu]
    rfl
  have hhold (u : State) (hu : u.shc.state = .parked) : faultHoldTest u = u := by simp [faultHoldTest, hu]
  refine ⟨q, b, ?_⟩
  rw [hspeed, hfollow (c.withShc { c.shc with queue := q, speedLost := b }) hrequested]
  exact hhold _ hparked

theorem releaseAsked_of_cab (h : ReleaseAsked s (cabTaken s) l) : ReleaseAsked s (inputsTaken s) l := by
  obtain ⟨htouches, hstate, hlever, hignored, hrequested, hrefusals, hselected, hmap⟩ := h
  obtain ⟨q, b, hrest⟩ := restInputs_of_parked hstate hrequested
  have hinputs : inputsTaken s = faultHoldTest (followParkRequest (takeSpeedLoss (cabTaken s))) := rfl
  rw [hinputs, hrest]
  generalize cabTaken s = c at *
  exact ⟨htouches.trans ((touches_withShc c _).mono (by decide)), hstate, hlever, hignored, hrequested, hrefusals,
    hselected, hmap⟩

theorem releaseAsked_acts (h : ReleaseAsked s (inputsTaken s) l) : intervalActed s =
    tryRelease (leverParks s.shc && (takeCab (firstInterval s)).2) (inputsTaken s) := by
  have hhead : takeHead (inputsTaken s) = inputsTaken s := takeHead_of_not_inGear (by simp [h.state])
  have hadvance : advanceFrom s.shc.state (inputsTaken s) = inputsTaken s := by
    have hstill : advance (inputsTaken s) = inputsTaken s := by
      unfold advance
      rw [h.state]
    unfold advanceFrom
    rw [hstill, ite_self]
  have hcan : ¬ canPark (inputsTaken s) = true := by simp [canPark, h.state]
  unfold intervalActed parkTest
  rw [hhead, hadvance, if_neg hcan, if_pos ⟨h.state, h.requested⟩]

theorem releaseWhy_of_asked (h : ReleaseAsked s w l) : releaseRefusal w = releaseWhy s := by
  have hvdb : w.vdb = s.vdb := h.touches .vdb (by decide)
  have hlc : w.lc = s.lc := h.touches .lc (by decide)
  have hsfe : w.sfe = s.sfe := h.touches .sfe (by decide)
  rw [releaseRefusal_eq]
  unfold releaseWhy State.gearboxFaulted State.engineSpeed
  rw [hvdb, hlc, hsfe]

/-- The release refused. -/
theorem release_refused {t : State} {why : ShcReason} (h : ReleaseAsked s w l) (ht : Finished s (refuseLever why w) t) :
    t.shc.lever = l ∧ t.tbc = s.tbc ∧ t.shc.state = .parked ∧ t.shc.ignored = some l ∧
    t.shc.lastRefusal = some (why, .cab) ∧ t.shc.refusals = s.shc.refusals + 1 ∧
    (t.out .pkv).command = (s.out .pkv).command := by
  have htouches := h.touches.trans ((touches_withShc w (refuseLever why w).shc).mono (by decide))
  have htbc : t.tbc = s.tbc := (ht.touches .tbc (by decide)).trans (htouches .tbc (by decide))
  refine ⟨ht.lever.trans h.lever, htbc, ht.state.trans h.state, ht.ignored.trans ?_, ht.lastRefusal, ?_, ?_⟩
  · exact congrArg some h.lever
  · rw [ht.refusals, ← h.refusals]
    rfl
  · rw [ht.apart .pkv (.inl rfl)]
    exact congrArg OutRec.command (out_of_vdb (htouches .vdb (by decide)) .pkv)

/-- The release granted, before a lever that asks for an engagement acts. -/
theorem parkLeft_of_asked (h : ReleaseAsked s w l) : (parkLeft w).shc.state = .neutral ∧ (parkLeft w).shc.lever = l ∧
    (parkLeft w).shc.ignored = none ∧ (parkLeft w).shc.parkReleased = true ∧
    (parkLeft w).shc.refusals = s.shc.refusals ∧ (parkLeft w).shc.selected = s.shc.selected ∧
    (parkLeft w).shc.partner = s.shc.partner ∧ ((parkLeft w).out .pkv).command = 1 ∧
    Touches [.vdb, .shc, .lc, .mc] s (parkLeft w) := by
  have hshc := parkLeft_shc w
  refine ⟨by rw [hshc], by rw [hshc]; exact h.lever, by rw [hshc]; exact h.ignored, by rw [hshc],
    by rw [hshc]; exact h.refusals, by rw [hshc]; exact h.selected, ?_, parkLeft_command w,
    (h.touches.mono (by decide)).trans ((touches_parkLeft w).mono (by decide))⟩
  funext g
  unfold Shc.partner
  rw [hshc]
  exact congrArg (fun m => (List.find? (fun p => decide (p.1 = g)) m).map fun p => p.2) h.map

end

/-! ## The statement's clauses -/

section
variable {s : State}

/-- The interval of a PARKED gearbox that asks for its release. -/
theorem exec_of_asked {l : Lever} (hruns : s.mc.mode.controllersRun = true) (h : ReleaseAsked s (inputsTaken s) l) :
    ∃ t, exec .shcControlInterval s = .next t ∧
      Finished s (tryRelease (leverParks s.shc && (takeCab (firstInterval s)).2) (inputsTaken s)) t := by
  refine ⟨_, exec_shcControlInterval hruns, ?_⟩
  rw [releaseAsked_acts h]
  exact finished s _

/-- A park request gone without a lever change: the release alone. -/
theorem release_without_move {l : Lever} (hruns : s.mc.mode.controllersRun = true)
    (h : ReleaseAsked s (inputsTaken s) l) (hended : (leverParks s.shc && (takeCab (firstInterval s)).2) = false) :
    ∃ t : State, exec .shcControlInterval s = .next t ∧ t.shc.lever = l ∧ t.tbc = s.tbc ∧
      (∀ why : ShcReason, releaseWhy s = some why →
        t.shc.state = .parked ∧ t.shc.ignored = some l ∧ t.shc.lastRefusal = some (why, .cab) ∧
        t.shc.refusals = s.shc.refusals + 1 ∧ (t.out .pkv).command = (s.out .pkv).command) ∧
      (releaseWhy s = none → t.shc.state = .neutral ∧ t.shc.parkReleased = true ∧
        t.shc.refusals = s.shc.refusals ∧ (t.out .pkv).command = 1) := by
  obtain ⟨t, hexec, ht⟩ := exec_of_asked hruns h
  have hwhy := releaseWhy_of_asked h
  rw [hended] at ht
  refine ⟨t, hexec, ?_⟩
  cases hrelease : releaseWhy s with
  | some why =>
    rw [tryRelease_of_refused (hwhy.trans hrelease)] at ht
    obtain ⟨hlever, htbc, hstate, hignored, hlast, hrefusals, hpkv⟩ := release_refused h ht
    refine ⟨hlever, htbc, fun why' hwhy' => ?_, nofun⟩
    cases hwhy'
    exact ⟨hstate, hignored, hlast, hrefusals, hpkv⟩
  | none =>
    rw [tryRelease_of_released (hwhy.trans hrelease)] at ht
    obtain ⟨hstate, hlever, -, hreleased, hrefusals, -, -, hpkv, htouches⟩ := parkLeft_of_asked h
    have hend : Finished s (parkLeft (inputsTaken s)) t := ht
    refine ⟨hend.lever.trans hlever, (hend.touches .tbc (by decide)).trans (htouches .tbc (by decide)), nofun, fun _ =>
      ⟨hend.state.trans hstate, (hend.same Shc.parkReleased fun _ _ _ => rfl).trans hreleased,
        hend.refusals.trans hrefusals, ?_⟩⟩
    rw [hend.apart .pkv (.inl rfl)]
    exact hpkv

/-- A PARKED gearbox whose lever has left PARK without a change at this interval asks for its release. -/
theorem asked_of_brake (hparked : s.shc.state = .parked) (horder : s.shc.parkOrder = false)
    (hbrake : s.brakeParkRequest = false) (hlever : s.shc.lever ≠ .park) (hignored : s.shc.ignored = none)
    (hcab : ∀ d : CabDriveFields, s.lc.cabDrive.current = some d → d.lever = s.shc.lever) :
    ReleaseAsked s (cabTaken s) s.shc.lever ∧ (takeCab (firstInterval s)).2 = false := by
  have hshc := firstInterval_shc s
  have hlc : (firstInterval s).lc = s.lc := touches_firstInterval s .lc (by decide)
  have hfirst := touches_firstInterval s
  unfold cabTaken
  generalize firstInterval s = f at *
  have hbase (k : Shc) (hk : k.state = s.shc.state ∧ k.lever = s.shc.lever ∧ k.ignored = s.shc.ignored ∧
      k.parkOrder = s.shc.parkOrder ∧ k.refusals = s.shc.refusals ∧ k.selected = s.shc.selected ∧
      k.shuttleMap = s.shc.shuttleMap) : ReleaseAsked s (f.withShc k) s.shc.lever := by
    obtain ⟨hstate', hlever', hignored', horder', hrefusals', hselected', hmap'⟩ := hk
    have hbrake' : (f.withShc k).brakeParkRequest = s.brakeParkRequest := by
      change f.brakeParkRequest = _
      unfold State.brakeParkRequest
      rw [hlc]
    refine ⟨hfirst.trans ((touches_withShc f k).mono (by decide)), hstate'.trans hparked, hlever',
      hignored'.trans hignored, ?_, hrefusals', hselected', hmap'⟩
    unfold parkRequested
    rw [hbrake', hbrake, State.withShc_shc, hlever', hignored', hignored, horder', horder]
    simp [hlever]
  have hsame : ReleaseAsked s f s.shc.lever := by
    have h := hbase f.shc (by rw [hshc]; exact ⟨rfl, rfl, rfl, rfl, rfl, rfl, rfl⟩)
    exact h
  cases hcurrent : f.lc.cabDrive.current with
  | none =>
    cases hfresh : f.shc.cabFresh with
    | true =>
      rw [takeCab_of_lost hcurrent hfresh]
      refine ⟨hbase (cabLost f).shc ?_, rfl⟩
      unfold cabLost flushQueue
      rw [hshc]
      exact ⟨rfl, rfl, rfl, rfl, rfl, rfl, rfl⟩
    | false =>
      rw [takeCab_of_absent hcurrent hfresh]
      exact ⟨hsame, rfl⟩
  | some d =>
    have hstays : d.lever = f.shc.lever := by
      rw [hcab d (by rw [← hlc]; exact hcurrent), hshc]
    have hlevels : ReleaseAsked s (takeLevels d f) s.shc.lever :=
      hbase (takeLevels d f).shc (by unfold takeLevels; rw [hshc]; exact ⟨rfl, rfl, rfl, rfl, rfl, rfl, rfl⟩)
    cases hfresh : f.shc.cabFresh with
    | true =>
      rw [takeCab_of_same hcurrent hfresh hstays]
      exact ⟨hlevels, rfl⟩
    | false =>
      have hcompare : compareLever d.lever (takeLevels d f) = takeLevels d f := if_pos hstays
      rw [takeCab_of_returned hcurrent hfresh, hcompare]
      exact ⟨hlevels, rfl⟩

/-- A lever change acts on a PARKED gearbox by being taken alone, unless it asks for park. -/
theorem changeLever_of_parked {l : Lever} (hparked : s.shc.state = .parked) : changeLever l s = leverSet l s := by
  have hset : (leverSet l s).shc.state = .parked := hparked
  have hneutral : neutralize (leverSet l s) = leverSet l s := neutralize_of_rest (.inl hset)
  have hmove (old : Lever) : moveToDirection old (leverSet l s) = leverSet l s := by
    unfold moveToDirection
    rw [hset]
  cases l
  case n => exact hneutral
  case f | r => exact hmove _
  case park => exact takePark_of_parked hset

/-- A PARKED gearbox whose lever leaves PARK, or an ignored position, at this interval asks for its release. -/
theorem asked_of_lever {d : CabDriveFields} (hparked : s.shc.state = .parked) (horder : s.shc.parkOrder = false)
    (hbrake : s.brakeParkRequest = false) (hfresh : s.shc.cabFresh = true) (hcab : s.lc.cabDrive.current = some d)
    (hmoved : d.lever ≠ s.shc.lever) (hpark : d.lever ≠ .park) :
    ReleaseAsked s (cabTaken s) d.lever ∧ (takeCab (firstInterval s)).2 = true := by
  have hshc := firstInterval_shc s
  have hlc : (firstInterval s).lc = s.lc := touches_firstInterval s .lc (by decide)
  have hfirst := touches_firstInterval s
  unfold cabTaken
  generalize firstInterval s = f at *
  rw [takeCab_of_changed (by rw [hlc]; exact hcab) (by rw [hshc]; exact hfresh) (by rw [hshc]; exact hmoved),
    changeLever_of_parked (s := takeLevels d f) (by rw [takeLevels, State.withShc_shc, hshc]; exact hparked)]
  refine ⟨⟨?_, ?_, rfl, rfl, ?_, ?_, ?_, ?_⟩, rfl⟩
  · exact hfirst.trans (((touches_withShc f (takeLevels d f).shc).trans
      (touches_withShc _ (leverSet d.lever (takeLevels d f)).shc)).mono (by decide))
  · change f.shc.state = _
    rw [hshc]
    exact hparked
  · have hbrake' : f.brakeParkRequest = false := by
      unfold State.brakeParkRequest at hbrake ⊢
      rw [hlc]
      exact hbrake
    change (d.lever == .park || (f.shc.state == .parked && false) || f.brakeParkRequest || f.shc.parkOrder) = false
    rw [hbrake', hshc]
    simp [hpark, horder]
  · change f.shc.refusals = _
    rw [hshc]
  · change f.shc.selected = _
    rw [hshc]
  · change f.shc.shuttleMap = _
    rw [hshc]

/-- A lever that moves to a direction while park is released engages the selected gear of that direction, or its
partner, unless it would overspeed (R83, R91, log 80). -/
theorem engage_of_released {w : State} {l : Lever} {g : Gear} {e : GearEntry} (h : ReleaseAsked s w l)
    (hrelease : releaseWhy s = none) (hl : l = Dir.lever g.dir) (he : s.cfg.entryOf g = some e) (hstart : e.start = true)
    (hselected : s.shc.selected = some g ∨
      ∃ h : Gear, s.shc.selected = some h ∧ h.dir ≠ g.dir ∧ s.shc.partner h = some g) :
    engageLever (parkLeft w) = if 2400 < s.scu.motion.outRpm * e.ratio / 1000 then refuseLever .overspeed (parkLeft w)
      else beginEngaging g (parkLeft w) := by
  obtain ⟨-, hlever, -, -, -, hselect, hpartner, -, htouches⟩ := parkLeft_of_asked h
  have hcfg : (parkLeft w).cfg = s.cfg := htouches .cfg (by decide)
  have hscu : (parkLeft w).scu = s.scu := htouches .scu (by decide)
  have hsfe : (parkLeft w).sfe = s.sfe := htouches .sfe (by decide)
  have hcharge : (parkLeft w).chargeDoubt = false := by
    rw [Bool.eq_false_iff]
    intro hdoubt
    rw [chargeDoubt_iff, hsfe] at hdoubt
    unfold releaseWhy at hrelease
    split_ifs at hrelease with h1 h2 h3
    exact h3 (or_assoc.mp (.inl hdoubt))
  have hgear : gearToEngage (parkLeft w) g.dir = some g := by
    rcases hselected with hg | ⟨p, hp, hdir, hpg⟩
    · exact gearToEngage_of_selected (hselect.trans hg) rfl
    · exact gearToEngage_of_partner (hselect.trans hp) hdir ((congrFun hpartner p).trans hpg)
  have hrefusal := engageRefusal_eq (s := parkLeft w) (by rw [hcfg]; exact he) hstart hcharge
  rw [hscu] at hrefusal
  rw [engageLever_of_dir (hlever.trans hl)]
  by_cases hspeed : 2400 < s.scu.motion.outRpm * e.ratio / 1000
  · rw [if_pos hspeed] at hrefusal ⊢
    exact engageRequest_of_refused hgear hrefusal
  · rw [if_neg hspeed] at hrefusal ⊢
    exact engageRequest_of_taken hgear hrefusal

/-- A lever change that ends the park request: the release, and the engagement the lever asks for. -/
theorem release_with_move {d : CabDriveFields} (hruns : s.mc.mode.controllersRun = true)
    (h : ReleaseAsked s (inputsTaken s) d.lever) (hended : (leverParks s.shc && (takeCab (firstInterval s)).2) = true) :
    ∃ t : State, exec .shcControlInterval s = .next t ∧ t.shc.lever = d.lever ∧ t.tbc = s.tbc ∧
      (∀ why : ShcReason, releaseWhy s = some why →
        t.shc.state = .parked ∧ t.shc.ignored = some d.lever ∧ t.shc.lastRefusal = some (why, .cab) ∧
        t.shc.refusals = s.shc.refusals + 1 ∧ (t.out .pkv).command = (s.out .pkv).command) ∧
      (releaseWhy s = none → t.shc.parkReleased = true ∧ (t.out .pkv).command = 1) ∧
      (releaseWhy s = none → d.lever = .n → t.shc.state = .neutral ∧ t.shc.ignored = none) ∧
      (∀ (g : Gear) (e : GearEntry), releaseWhy s = none → d.lever = Dir.lever g.dir →
        s.cfg.entryOf g = some e → e.start = true →
        s.shc.selected = some g ∨
          (∃ h : Gear, s.shc.selected = some h ∧ h.dir ≠ g.dir ∧ s.shc.partner h = some g) →
        (s.scu.motion.outRpm * e.ratio / 1000 ≤ 2400 →
          t.shc.state = .engaging ∧ t.shc.target = some g ∧ t.shc.ignored = none) ∧
        (2400 < s.scu.motion.outRpm * e.ratio / 1000 →
          t.shc.state = .neutral ∧ t.shc.ignored = some d.lever ∧ t.shc.lastRefusal = some (.overspeed, .cab))) := by
  obtain ⟨t, hexec, ht⟩ := exec_of_asked hruns h
  have hwhy := releaseWhy_of_asked h
  rw [hended] at ht
  refine ⟨t, hexec, ?_⟩
  cases hrelease : releaseWhy s with
  | some why =>
    rw [tryRelease_of_refused (hwhy.trans hrelease)] at ht
    obtain ⟨hlever, htbc, hstate, hignored, hlast, hrefusals, hpkv⟩ := release_refused h ht
    refine ⟨hlever, htbc, fun why' hwhy' => ?_, nofun, nofun, nofun⟩
    cases hwhy'
    exact ⟨hstate, hignored, hlast, hrefusals, hpkv⟩
  | none =>
    rw [tryRelease_of_released (hwhy.trans hrelease)] at ht
    have hend : Finished s (engageLever (parkLeft (inputsTaken s))) t := ht
    obtain ⟨hstate, hlever, hignored, hreleased, -, -, -, hpkv, htouches⟩ := parkLeft_of_asked h
    have hengage := fun g e => engage_of_released (g := g) (e := e) h hrelease
    have hacts := touches_engageLever (parkLeft (inputsTaken s))
    have hmoves : (engageLever (parkLeft (inputsTaken s))).shc.lever = d.lever :=
      ((Moves.refl (by decide : Part.shc ∈ [Part.shc, .lc]) (by decide) _).engageLever.lever).trans hlever
    have hlock := engageLever_parkReleased (s := parkLeft (inputsTaken s))
    have hstill (hn : d.lever = .n) : engageLever (parkLeft (inputsTaken s)) = parkLeft (inputsTaken s) := by
      unfold engageLever
      rw [hlever, hn]
    generalize parkLeft (inputsTaken s) = v at *
    have htbc : (engageLever v).tbc = v.tbc := hacts .tbc (by decide)
    have hvdb : (engageLever v).vdb = v.vdb := hacts .vdb (by decide)
    refine ⟨hend.lever.trans hmoves, ?_, nofun, fun _ => ⟨?_, ?_⟩, fun _ hn => ?_, fun g e _ hl he hstart hselected => ?_⟩
    · rw [hend.touches .tbc (by decide), htbc, htouches .tbc (by decide)]
    · rw [hend.same Shc.parkReleased fun _ _ _ => rfl, hlock]
      exact hreleased
    · rw [hend.apart .pkv (.inl rfl)]
      exact (congrArg OutRec.command (out_of_vdb hvdb .pkv)).trans hpkv
    · rw [hstill hn] at hend
      exact ⟨hend.state.trans hstate, hend.ignored.trans hignored⟩
    · rw [hengage g e hl he hstart hselected] at hend
      refine ⟨fun hslow => ?_, fun hfast => ?_⟩
      · rw [if_neg (not_lt.mpr hslow)] at hend
        obtain ⟨k, p, c, hshc, -, -⟩ := beginEngaging_spec g v
        refine ⟨?_, ?_, ?_⟩
        · rw [hend.state, hshc]
        · rw [hend.target, hshc]
        · rw [hend.ignored, hshc]
          exact hignored
      · rw [if_pos hfast] at hend
        exact ⟨hend.state.trans hstate, hend.ignored.trans (congrArg some hlever), hend.lastRefusal⟩

end

theorem brakeParkRequest_enterGearbox (st : GearState) (s : State) :
    (enterGearbox st s).brakeParkRequest = s.brakeParkRequest := by
  have hlc := publish_lc .gearbox (s.withShc { s.shc with state := st })
  unfold enterGearbox State.brakeParkRequest
  rw [hlc]
  rfl

/-- A gearbox in FAULT_HOLD that can park can park in NEUTRAL. -/
theorem canPark_enterNeutral {s : State} (hhold : s.shc.state = .faultHold) (h : canPark s = true) :
    canPark (enterGearbox .neutral s) = true := by
  obtain ⟨-, hpending, hrequested, hstandstill, hfwd, hrev⟩ := canPark_iff.mp h
  have hshc := enterGearbox_shc s .neutral
  have hscu : (enterGearbox .neutral s).scu = s.scu := touches_enterGearbox s .neutral .scu (by decide)
  refine canPark_iff.mpr ⟨.inl (by rw [hshc]), by rw [hshc]; exact hpending, ?_, by rw [hscu]; exact hstandstill,
    by rw [State.clutch, hshc]; exact hfwd, by rw [State.clutch, hshc]; exact hrev⟩
  unfold parkRequested at hrequested ⊢
  rw [brakeParkRequest_enterGearbox, hshc]
  simpa [hhold] using hrequested

/-- A steady interval of a gearbox that can park parks it. -/
theorem parks_of_steady {s : State} (h : SteadyGearbox s)
    (hstate : (s.shc.state = .neutral ∧ s.gearboxFaulted = false) ∨ s.shc.state = .faultHold)
    (hpending : s.shc.pendingPark = true) (hrequested : parkRequested s = true)
    (hstandstill : s.scu.motion.standstill = true) (hfwd : (s.clutch .fwd).state = .off)
    (hrev : (s.clutch .rev).state = .off) :
    ∃ v t : State, exec .shcControlInterval s = .next t ∧ Finished s (applyPark v) t ∧ v.tbc = s.tbc := by
  obtain ⟨i, hi, hinputs, -⟩ := steady_inputs h
  have hpark : i.pendingPark = true := by rw [hi.pendingPark, hrequested, hpending, Bool.true_and]
  have hcan : canPark (levelsTaken s i) = true :=
    canPark_iff.mpr ⟨hstate.imp And.left id, hpark, hrequested, hstandstill, hfwd, hrev⟩
  have htaken : canPark (inputsTaken s) = true ∧ (inputsTaken s).tbc = s.tbc ∧
      ((inputsTaken s).shc.state = s.shc.state ∨ (inputsTaken s).shc.state = .neutral) := by
    rw [hinputs]
    rcases hstate with ⟨hneutral, hfault⟩ | hhold
    · have hne : s.shc.state ≠ .faultHold := by simp [hneutral]
      rw [faultHoldTest_of_sound (s := levelsTaken s i) hne hfault]
      exact ⟨hcan, rfl, .inl rfl⟩
    · rw [faultHoldTest_of_hold (s := levelsTaken s i) hhold]
      split
      · exact ⟨canPark_enterNeutral hhold hcan, touches_enterGearbox (levelsTaken s i) .neutral .tbc (by decide),
          .inr (by rw [enterGearbox_shc])⟩
      · exact ⟨hcan, rfl, .inl rfl⟩
  obtain ⟨htaken, htbc, hbefore⟩ := htaken
  obtain ⟨v, hacts, hvtbc⟩ := parks_at_interval
    (ended := leverParks s.shc && (takeCab (firstInterval s)).2) hbefore htaken
  refine ⟨v, _, exec_shcControlInterval h.runs, ?_, hvtbc.trans htbc⟩
  rw [intervalActed, hacts]
  exact finished s _

/-- A steady interval in FAULT_HOLD without a pending park stays there or leads to NEUTRAL. -/
theorem holds_of_steady {s : State} (h : SteadyGearbox s) (hhold : s.shc.state = .faultHold)
    (hpending : s.shc.pendingPark = false) : ∃ t : State, exec .shcControlInterval s = .next t ∧
    (s.shc.lever = .n → s.gearboxFaulted = false → t.shc.state = .neutral) ∧
    (s.shc.lever ≠ .n ∨ s.gearboxFaulted = true → t.shc.state = .faultHold) := by
  obtain ⟨i, hi, hinputs, -⟩ := steady_inputs h
  have hpark : i.pendingPark = false := by rw [hi.pendingPark, hpending, Bool.and_false]
  have hacts (w : State) (hstate : w.shc.state = .neutral ∨ w.shc.state = .faultHold) (hw : w.shc.pendingPark = false)
      (ended : Bool) : ∃ v : State, parkTest ended (advanceFrom s.shc.state (takeHead w)) = v ∧
      v.shc.state = w.shc.state := by
    obtain ⟨k, c, p, hadvance, -⟩ := advance_of_rest hstate
    have hhead : takeHead w = w := takeHead_of_not_inGear (by rcases hstate with h | h <;> simp [h])
    have hfrom : advanceFrom s.shc.state w = advance w := if_pos (hstate.symm.imp_left (·.trans hhold.symm))
    have hnot : w.shc.state ≠ .parked := by rcases hstate with h | h <;> simp [h]
    have htest : parkTest ended (advance w) = advance w :=
      parkTest_of_not_pending (by rw [hadvance]; exact hw) (by rw [hadvance]; exact hnot)
    refine ⟨_, rfl, ?_⟩
    rw [hhead, hfrom, htest, hadvance]
    rfl
  have hend := fun v => (finished s v).state
  by_cases hleaves : s.shc.lever = .n ∧ s.gearboxFaulted = false
  · obtain ⟨v, hv, hstate⟩ := hacts (enterGearbox .neutral (levelsTaken s i)) (.inl (by rw [enterGearbox_shc]))
      (by rw [enterGearbox_shc]; exact hpark) (leverParks s.shc && (takeCab (firstInterval s)).2)
    rw [enterGearbox_shc] at hstate
    have htest : faultHoldTest (levelsTaken s i) = enterGearbox .neutral (levelsTaken s i) :=
      (faultHoldTest_of_hold (s := levelsTaken s i) hhold).trans (if_pos hleaves)
    have hacted : intervalActed s = v := by rw [intervalActed, hinputs, htest, hv]
    refine ⟨_, exec_shcControlInterval h.runs, fun _ _ => ?_, fun hne => ?_⟩
    · rw [hend, hacted]
      exact hstate
    · rcases hne with hne | hne
      · exact absurd hleaves.1 hne
      · simp [hleaves.2] at hne
  · obtain ⟨v, hv, hstate⟩ := hacts (levelsTaken s i) (.inr hhold) hpark (leverParks s.shc && (takeCab (firstInterval s)).2)
    have htest : faultHoldTest (levelsTaken s i) = levelsTaken s i :=
      (faultHoldTest_of_hold (s := levelsTaken s i) hhold).trans (if_neg hleaves)
    have hacted : intervalActed s = v := by rw [intervalActed, hinputs, htest, hv]
    refine ⟨_, exec_shcControlInterval h.runs, fun h1 h2 => absurd ⟨h1, h2⟩ hleaves, fun _ => ?_⟩
    rw [hend, hacted]
    exact hstate.trans hhold

/-- Settles O34. -/
theorem parkReleaseAndFaultHold : Obligations.ParkReleaseAndFaultHold := by
  refine ⟨fun s h => ⟨fun hstate hpending hrequested hstandstill hfwd hrev => ?_,
    fun hparked hhold hfault hpending => ?_, fun hhold hpending => ?_⟩, fun s hruns hparked horder hbrake =>
    ⟨fun hlever hignored hcab => ?_, fun d hpark hfresh hcab hmoved hleft => ?_⟩⟩
  · obtain ⟨v, t, hexec, ht, htbc⟩ := parks_of_steady h hstate hpending hrequested hstandstill hfwd hrev
    rw [← htbc]
    exact ⟨t, hexec, parked_at_end ht⟩
  · obtain ⟨i, hi, hinputs, hmoved⟩ := steady_inputs h
    have hstill : (enterFaultHold (levelsTaken s i)).shc.state = .faultHold := by rw [enterFaultHold_shc]
    have hpend : (enterFaultHold (levelsTaken s i)).shc.pendingPark = false := by
      rw [enterFaultHold_shc, shc_levelsTaken]
      change i.pendingPark = false
      rw [hi.pendingPark, hpending, Bool.and_false]
    have hpkv : (enterFaultHold (levelsTaken s i)).out .pkv = s.out .pkv :=
      out_of_vdb (touches_enterFaultHold (levelsTaken s i) .vdb (by decide)) .pkv
    have hacted : intervalActed s = enterFaultHold (levelsTaken s i) := by
      rw [intervalActed, hinputs, faultHoldTest_of_faulted (s := levelsTaken s i) hparked hhold hfault,
        takeHead_of_not_inGear (by rw [hstill]; nofun), advanceFrom_of_other (by rw [hstill]; exact hhold.symm)
        (by rw [hstill]; nofun), parkTest_of_not_pending hpend (by rw [hstill]; nofun)]
    refine ⟨_, exec_shcControlInterval h.runs, ?_⟩
    rw [hacted]
    have hend := finished s (enterFaultHold (levelsTaken s i))
    generalize finishInterval (drainingClutches s) (enterFaultHold (levelsTaken s i)) = t at *
    obtain ⟨h1, h2, h3, h4, h5, h6, h7, h8⟩ := faultHold_at_end (s := s) hend rfl
    exact ⟨h1, h2, h3, h4, h5, h6, h7, by rw [hend.apart .pkv (.inl rfl), hpkv], h8⟩
  · exact holds_of_steady h hhold hpending
  · obtain ⟨hasked, hstill⟩ := asked_of_brake hparked horder hbrake hlever hignored hcab
    exact release_without_move hruns (releaseAsked_of_cab hasked) (by rw [hstill, Bool.and_false])
  · obtain ⟨hasked, hmoves⟩ := asked_of_lever hparked horder hbrake hfresh hcab hmoved hleft
    refine release_with_move hruns (releaseAsked_of_cab hasked) ?_
    rw [hmoves, Bool.and_true, leverParks]
    rcases hpark with h | h
    · simp [h]
    · simp [Option.isSome_iff_ne_none.mpr h]

end Sys2Proof.Proofs
end

