-- ==== Sys2Proof/Proofs/OperationIntervals.lean ====
section
/-! SUPPORT. One interval of an engagement and of a shuttle (R84, R86) as an equation for each phase. -/

namespace Sys2Proof.Proofs

open Sys2Proof Sys2Proof.Machine

/-- An operation one interval on, with another clutch table. -/
def stepSet (s : State) (k : ClutchTable ClutchRec) : State :=
  s.withShc { s.shc with clutches := k, interval := s.shc.interval + 1 }

section
variable (s : State)

theorem shc_stepSet (k : ClutchTable ClutchRec) :
    (stepSet s k).shc = { s.shc with clutches := k, interval := s.shc.interval + 1 } := rfl

theorem countInterval_eq : countInterval s = stepSet s s.shc.clutches := rfl

/-- The clutches of a list changed at an interval. -/
theorem overClutches_counted {f : State → Clutch → State} {r : Clutch → ClutchRec → ClutchRec} {l : List Clutch}
    (hl : l.Nodup) (hf : ∀ (k : ClutchTable ClutchRec) (x : Clutch),
      f (clutchesSet (countInterval s) k) x = clutchesSet (countInterval s) (k.set x (r x (k.get x)))) :
    overClutches f l (countInterval s) = stepSet s (mapOn l r s.shc.clutches) :=
  overClutches_eq (s := countInterval s) hf hl

/-! ## REVERSE_BRAKE and DRIVE_AWAY (R86) -/

/-- The on-coming direction clutch at an interval of REVERSE_BRAKE. -/
def brakeTable : ClutchTable ClutchRec := mapOn (dirClutchOf s.shc.target)
  (fun x c => c.ramp (min (s.cfg.clutches.get x).hold (c.value + s.shc.rate))) s.shc.clutches

/-- The state in which DRIVE_AWAY begins, from one of REVERSE_BRAKE. -/
def driveAwayBegun (k : ClutchTable ClutchRec) : State := s.withShc { s.shc with
  clutches := mapOn (dirClutchOf s.shc.target) (fun _ c => { c with entryValue := c.value }) k
  phase := some .driveAway, interval := 0 }

theorem reverseBrakeStep_eq : reverseBrakeStep s =
    if brakeOver s = true then driveAwayBegun s (brakeTable s) else stepSet s (brakeTable s) := by
  have hramp := overClutches_counted s (f := fun s x => s.withClutch x
    ((s.clutch x).ramp (min (s.clutchCfg x).hold ((s.clutch x).value + s.shc.rate))))
    (r := fun x c => c.ramp (min (s.cfg.clutches.get x).hold (c.value + s.shc.rate)))
    (dirClutchOf_nodup s.shc.target) fun _ _ => rfl
  have hbegin : beginDriveAway (stepSet s (brakeTable s)) = driveAwayBegun s (brakeTable s) :=
    overClutches_eq (s := (stepSet s (brakeTable s)).withPhase (some .driveAway)) (fun _ _ => rfl)
      (dirClutchOf_nodup s.shc.target)
  have hstep : reverseBrakeStep s = if brakeOver (stepSet s (brakeTable s)) = true
      then beginDriveAway (stepSet s (brakeTable s)) else stepSet s (brakeTable s) :=
    congrArg (fun u => if brakeOver u = true then beginDriveAway u else u) hramp
  rw [hstep, hbegin]
  rfl

/-- The on-coming direction clutch at an interval of DRIVE_AWAY. -/
def awayTable : ClutchTable ClutchRec := mapOn (dirClutchOf s.shc.target) (fun x c => c.ramp
  (alongLine c.entryValue (s.cfg.clutches.get x).hold (s.shc.interval + 1) (rampIntervals s))) s.shc.clutches

variable {s}

theorem driveAwayStep_eq (hstate : s.shc.state = .shuttling) (hphase : s.shc.phase = some .driveAway) :
    driveAwayStep s = if rampIntervals s ≤ s.shc.interval + 1 then endDirectionRamp (stepSet s (awayTable s))
      else stepSet s (awayTable s) := by
  have hramp := overClutches_counted s (f := fun s x => s.withClutch x ((s.clutch x).ramp
    (alongLine (s.clutch x).entryValue (s.clutchCfg x).hold s.shc.interval (rampIntervals s))))
    (r := fun x c => c.ramp
      (alongLine c.entryValue (s.cfg.clutches.get x).hold (s.shc.interval + 1) (rampIntervals s)))
    (dirClutchOf_nodup s.shc.target) fun _ _ => rfl
  have hstep : driveAwayStep s = if driveAwayOver (stepSet s (awayTable s)) = true
      then endDirectionRamp (stepSet s (awayTable s)) else stepSet s (awayTable s) :=
    congrArg (fun u => if driveAwayOver u = true then endDirectionRamp u else u) hramp
  have hover : driveAwayOver (stepSet s (awayTable s)) = true ↔ rampIntervals s ≤ s.shc.interval + 1 := by
    unfold driveAwayOver
    rw [shc_stepSet, hstate, hphase]
    simp only [beq_self_eq_true, Bool.true_and, decide_eq_true_iff]
    rfl
  rw [hstep]
  exact if_congr hover rfl rfl

/-! ## RAMP (R84) -/

variable (s)

/-- The direction clutch at an interval of its ramp. -/
def rampTable : ClutchTable ClutchRec := mapOn (dirClutchOf s.shc.target) (fun x c => c.ramp
  (alongLine (s.cfg.clutches.get x).touch (s.cfg.clutches.get x).hold (s.shc.interval + 1) (rampIntervals s)))
  s.shc.clutches

variable {s}

theorem rampStep_eq (hstate : s.shc.state = .engaging) (hphase : s.shc.phase = some .ramp) : rampStep s =
    if rampIntervals s ≤ s.shc.interval + 1 then endDirectionRamp (stepSet s (rampTable s))
      else stepSet s (rampTable s) := by
  have hramp := overClutches_counted s (f := fun s x => s.withClutch x ((s.clutch x).ramp
    (alongLine (s.clutchCfg x).touch (s.clutchCfg x).hold s.shc.interval (rampIntervals s))))
    (r := fun x c => c.ramp (alongLine (s.cfg.clutches.get x).touch (s.cfg.clutches.get x).hold
      (s.shc.interval + 1) (rampIntervals s)))
    (dirClutchOf_nodup s.shc.target) fun _ _ => rfl
  have hstep : rampStep s = if rampOver (stepSet s (rampTable s)) = true
      then endDirectionRamp (stepSet s (rampTable s)) else stepSet s (rampTable s) :=
    congrArg (fun u => if rampOver u = true then endDirectionRamp u else u) hramp
  have hall : allIn (stepSet s (rampTable s)) .ramping (dirClutchOf s.shc.target) = true :=
    allIn_iff.mpr fun x hx => congrArg ClutchRec.state ((mapOn_get x).trans (if_pos hx))
  have hover : rampOver (stepSet s (rampTable s)) = true ↔ rampIntervals s ≤ s.shc.interval + 1 := by
    have hdir : dirClutchOf (stepSet s (rampTable s)).shc.target = dirClutchOf s.shc.target := rfl
    unfold rampOver
    rw [hdir, hall, shc_stepSet, hstate, hphase]
    simp only [beq_self_eq_true, Bool.true_and, decide_eq_true_iff]
    rfl
  rw [hstep]
  exact if_congr hover rfl rfl

/-! ## PRESELECT (R84) -/

theorem advance_preselect {g : Gear} (hstate : s.shc.state = .engaging) (hphase : s.shc.phase = some .preselect)
    (htarget : s.shc.target = some g) : advance s =
      if allIn (clutchesSet s (fillTable s)) .locked (gearPair s.cfg g) then beginRamp g (clutchesSet s (fillTable s))
      else clutchesSet s (fillTable s) := by
  have hadvance : advance s = afterFills (fillStep s) := by
    unfold advance
    rw [hstate, hphase]
  rw [hadvance, fillStep_of_preselect hstate hphase]
  exact afterFills_of_preselect (s := clutchesSet s (fillTable s)) hstate hphase htarget

/-! ## DRAIN (R86) -/

variable (s)

/-- The off-going clutches of a shuttle at an interval of DRAIN. -/
def fallingTable : ClutchTable ClutchRec :=
  if s.shc.interval + 1 ≤ 10 then mapOn (dirClutchOf s.shc.current ++ offGoing s)
    (fun x c => c.drainTo ((s.cfg.clutches.get x).hold * (10 - (s.shc.interval + 1)) / 10)) s.shc.clutches
  else s.shc.clutches

/-- Both sides of a shuttle at an interval of DRAIN, before the swap is completed. -/
def drainTable : ClutchTable ClutchRec := fillTable (stepSet s (fallingTable s))

variable {s}

theorem shuttleOffGoing_nodup (s : State) : (dirClutchOf s.shc.current ++ offGoing s).Nodup :=
  List.nodup_append.mpr ⟨dirClutchOf_nodup _, offGoing_nodup s, fun x hx y hy h => by
    obtain ⟨hfwd, hrev⟩ := offGoing_gear hy
    exact (dirClutchOf_direction hx).elim (fun k => hfwd (h ▸ k)) fun k => hrev (h ▸ k)⟩

theorem advance_drain (hstate : s.shc.state = .shuttling) (hphase : s.shc.phase = some .drain) : advance s =
    if drainOver (stepSet s (drainTable s)) then endDrain (stepSet s (drainTable s)) else stepSet s (drainTable s) := by
  have hadvance : advance s = drainStep s := by
    unfold advance
    rw [hstate, hphase]
  have hoff : drainOffGoing (countInterval s).shc.interval (countInterval s) = stepSet s (fallingTable s) := by
    unfold drainOffGoing fallingTable
    have hcount : (countInterval s).shc.interval = s.shc.interval + 1 := rfl
    rw [hcount, drainIntervals]
    by_cases h : s.shc.interval + 1 ≤ 10
    · rw [if_pos h, if_pos h]
      exact overClutches_counted s (f := torqueOff fun c => c.hold * (10 - (s.shc.interval + 1)) / 10)
        (r := fun x c => c.drainTo ((s.cfg.clutches.get x).hold * (10 - (s.shc.interval + 1)) / 10))
        (shuttleOffGoing_nodup s) fun _ _ => rfl
    · rw [if_neg h, if_neg h]
      exact countInterval_eq s
  have hfill : fillStep (stepSet s (fallingTable s)) = stepSet s (drainTable s) :=
    fillStep_of_other (s := stepSet s (fallingTable s)) (by rw [shc_stepSet, hstate]; nofun)
  rw [hadvance, drainStep, hoff, hfill]
  exact afterFills_of_drain (s := stepSet s (drainTable s)) hstate hphase

/-- A clutch at an interval of DRAIN: an off-going one falls in ten steps, and any other goes on filling. -/
theorem drainTable_get (hstate : s.shc.state = .shuttling) (x : Clutch) : (drainTable s).get x =
    if x ∈ dirClutchOf s.shc.current ++ offGoing s ∧ s.shc.interval + 1 ≤ 10 then
      (s.clutch x).drainTo ((s.cfg.clutches.get x).hold * (10 - (s.shc.interval + 1)) / 10)
    else fillDone false (s.cfg.clutches.get x) (s.clutch x) := by
  have hlocks : locksAtOnce (stepSet s (fallingTable s)).shc = false := by
    rw [shc_stepSet]
    simp [locksAtOnce, hstate]
  have hget : (drainTable s).get x = fillDone false (s.cfg.clutches.get x) ((fallingTable s).get x) := by
    rw [← hlocks]
    exact fillTable_get (s := stepSet s (fallingTable s)) x
  rw [hget]
  unfold fallingTable
  by_cases hinterval : s.shc.interval + 1 ≤ 10
  · rw [if_pos hinterval, mapOn_get]
    by_cases hx : x ∈ dirClutchOf s.shc.current ++ offGoing s
    · rw [if_pos hx, if_pos ⟨hx, hinterval⟩]
      exact fillDone_of_other nofun
    · rw [if_neg hx, if_neg fun h => hx h.1]
      rfl
  · rw [if_neg hinterval, if_neg fun h => hinterval h.2]
    rfl

theorem drainOver_stepSet (hstate : s.shc.state = .shuttling) (hphase : s.shc.phase = some .drain) :
    drainOver (stepSet s (drainTable s)) = true ↔ 10 ≤ s.shc.interval + 1 ∧
      ∀ x ∈ dirClutchOf s.shc.target ++ onComing s, ((drainTable s).get x).state = .ramping := by
  have hlist : shuttleOnComing (stepSet s (drainTable s)) = dirClutchOf s.shc.target ++ onComing s := rfl
  unfold drainOver
  rw [hlist, shc_stepSet, hstate, hphase, Bool.and_eq_true, Bool.and_eq_true, allIn_iff, decide_eq_true_iff]
  simp only [beq_self_eq_true, Bool.true_and, true_and]
  rfl

end

end Sys2Proof.Proofs
end

