-- ==== Sys2Proof/Proofs/DirectionRamps.lean ====
section
/-! PROOF. O30: the direction clutch takes over: the ends of its ramps and of DRAIN, and the intervals of PRESELECT, RAMP,
DRAIN, REVERSE_BRAKE and DRIVE_AWAY (R84, R86, R88). -/

namespace Sys2Proof.Proofs

open Sys2Proof Sys2Proof.Machine

/-! ## The rows where they are due -/

section
variable {s t u : State}

/-- The end of a direction clutch's ramp without a pending shuttle. -/
theorem endDirectionRamp_shc (h : s.shc.pendingShuttle = false) : (endDirectionRamp s).shc = { s.shc with
    clutches := directionLocked s, state := .inGear, phase := none, kind := none, target := none
    shiftOrigin := none, interval := 0 } := by
  rw [endDirectionRamp_eq]
  exact arriveInGear_shc (s := clutchesSet s (directionLocked s)) h

theorem touches_endDirectionRamp (s : State) : Touches [.shc, .lc] s (endDirectionRamp s) :=
  (Moves.refl (by decide) (by decide) s).endDirectionRamp.touches

theorem directionLocked_get {x : Clutch} (hx : x ∈ dirClutchOf s.shc.target) :
    (directionLocked s).get x = (s.clutch x).lock (s.cfg.clutches.get x).hold := (mapOn_get x).trans (if_pos hx)

theorem directionLocked_get_of_not {x : Clutch} (hx : x ∉ dirClutchOf s.shc.target) :
    (directionLocked s).get x = s.clutch x := (mapOn_get x).trans (if_neg hx)

theorem settled_directionRamp (h : Settled (endDirectionRamp s) t) (hidle : s.shc.pendingShuttle = false) :
    t.shc.state = .inGear ∧ t.shc.phase = none ∧ t.shc.target = none ∧ t.shc.current = s.shc.current ∧
    (∀ x ∈ dirClutchOf s.shc.target, (t.clutch x).state = .locked ∧ (t.clutch x).value = (s.cfg.clutches.get x).hold) ∧
    (∀ x : Clutch, x ∉ dirClutchOf s.shc.target →
      (t.clutch x).state = (s.clutch x).state ∧ (t.clutch x).value = (s.clutch x).value) ∧
    Touches [.vdb, .shc, .lc] s t := by
  have hshc := h.shc
  have hend := endDirectionRamp_shc hidle
  have htable (x : Clutch) : (endDirectionRamp s).clutch x = (directionLocked s).get x := by rw [State.clutch, hend]
  rw [hend] at hshc
  refine ⟨by rw [hshc], by rw [hshc], by rw [hshc], by rw [hshc], fun x hx => ?_, fun x hx => ?_,
    ((touches_endDirectionRamp s).mono (by decide)).trans (h.touches.mono (by decide))⟩
  · have hclutch := (htable x).trans (directionLocked_get hx)
    exact ⟨(h.kept x).1.trans (congrArg ClutchRec.state hclutch), (h.kept x).2.trans (congrArg ClutchRec.value hclutch)⟩
  · have hclutch := (htable x).trans (directionLocked_get_of_not hx)
    exact ⟨(h.kept x).1.trans (congrArg ClutchRec.state hclutch), (h.kept x).2.trans (congrArg ClutchRec.value hclutch)⟩

/-- ENGAGE_RAMP_END and DRIVE_AWAY_END (R84, R86). -/
theorem directionRamp_ends {c : Instr} (hruns : s.mc.mode.controllersRun = true)
    (hc : (c = .engageRampEnd ∧ s.shc.state = .engaging ∧ s.shc.phase = some .ramp ∧
        ∀ x ∈ dirClutchOf s.shc.target, (s.clutch x).state = .ramping) ∨
      (c = .driveAwayEnd ∧ s.shc.state = .shuttling ∧ s.shc.phase = some .driveAway))
    (hinterval : max 1 (s.cfg.engageRamp / 10) ≤ s.shc.interval) :
    ∃ t, exec c s = .next t ∧ Settled (endDirectionRamp s) t := by
  have hlong : decide (rampIntervals s ≤ s.shc.interval) = true := decide_eq_true hinterval
  rcases hc with ⟨rfl, hstate, hphase, hramping⟩ | ⟨rfl, hstate, hphase⟩
  · have hdue : rampOver s = true := by simp [rampOver, hstate, hphase, allIn_iff.mpr hramping, hlong]
    exact exec_of_due (c := .engageRampEnd) rfl hruns hdue
  · have hdue : driveAwayOver s = true := by simp [driveAwayOver, hstate, hphase, hlong]
    exact exec_of_due (c := .driveAwayEnd) rfl hruns hdue

/-- SHUTTLE_DRAIN_END (R86). -/
theorem settled_endDrain (h : Settled (endDrain s) t) (hstate : s.shc.state = .shuttling)
    (hramping : ∀ x ∈ dirClutchOf s.shc.target ++ onComing s, (s.clutch x).state = .ramping) :
    t.shc.state = .shuttling ∧ t.shc.phase = some .reverseBrake ∧ t.shc.current = s.shc.target ∧
    (∀ x ∈ onComing s, (t.clutch x).state = .locked ∧ (t.clutch x).value = (s.cfg.clutches.get x).hold) ∧
    (∀ x ∈ dirClutchOf s.shc.target, (t.clutch x).state = .ramping) ∧ Touches [.vdb, .shc] s t := by
  have hshc := h.shc
  have hend := congrArg State.shc (endDrain_eq s)
  have htouches : Touches [.shc] s (endDrain s) := by
    rw [endDrain_eq]
    exact touches_withShc s _
  have htable (x : Clutch) : (endDrain s).clutch x = (onLocked s s.shc.clutches).get x := by rw [State.clutch, hend]; rfl
  rw [hend] at hshc
  refine ⟨by rw [hshc]; exact hstate, by rw [hshc]; rfl, by rw [hshc]; rfl, fun x hx => ?_, fun x hx => ?_,
    (htouches.mono (by decide)).trans h.touches⟩
  · have hclutch := (htable x).trans (onLocked_get hx _)
    exact ⟨(h.kept x).1.trans (congrArg ClutchRec.state hclutch), (h.kept x).2.trans (congrArg ClutchRec.value hclutch)⟩
  · have hgear : x ∉ onComing s := fun k => by
      obtain ⟨hfwd, hrev⟩ := onComing_gear k
      exact (dirClutchOf_direction hx).elim hfwd hrev
    have hclutch := (htable x).trans (onLocked_get_of_not hgear _)
    exact ((h.kept x).1.trans (congrArg ClutchRec.state hclutch)).trans (hramping x (List.mem_append_left _ hx))

/-! ## REVERSE_BRAKE and DRIVE_AWAY -/

/-- A direction clutch that is capped is commanded its value under the pedal's cap (R88). -/
theorem Finished.cappedCommand {v : State} (h : Finished s v t) {x : Clutch} (hx : x = .fwd ∨ x = .rev)
    (hcapped : (v.clutch x).state = .locked ∨ ((v.clutch x).state = .ramping ∧ rampCapped v.shc = true)) :
    (t.clutch x).command = min (t.clutch x).value (if t.shc.pedal ≤ 10 then (v.cfg.clutches.get x).hold
      else if t.shc.pedal < 95 then (v.cfg.clutches.get x).hold * (100 - t.shc.pedal) / 90 else 0) := by
  have hpedal : t.shc.pedal = v.shc.pedal := h.same Shc.pedal fun _ _ _ => rfl
  have hvalue : (t.clutch x).value = (v.clutch x).value := by
    refine (h.still ?_).2
    rcases hcapped with hstate | ⟨hstate, -⟩ <;> simp [hstate]
  rw [h.command, hvalue, hpedal, ← pedalCap_eq]
  rcases hcapped with hstate | ⟨hstate, hramp⟩
  · exact commandFor_of_locked hx hstate
  · exact commandFor_of_ramping hx hstate hramp

theorem singleton_direction {g : Option Gear} {x : Clutch} (h : dirClutchOf g = [x]) : x = .fwd ∨ x = .rev :=
  dirClutchOf_direction (h ▸ List.mem_singleton_self x)

theorem advance_reverseBrake (hstate : u.shc.state = .shuttling) (hphase : u.shc.phase = some .reverseBrake) :
    advance u = if brakeOver u = true then driveAwayBegun u (brakeTable u) else stepSet u (brakeTable u) := by
  have hadvance : advance u = reverseBrakeStep u := by
    unfold advance
    rw [hstate, hphase]
  rw [hadvance, reverseBrakeStep_eq]

theorem advance_driveAway (hstate : u.shc.state = .shuttling) (hphase : u.shc.phase = some .driveAway) :
    advance u = if rampIntervals u ≤ u.shc.interval + 1 then endDirectionRamp (stepSet u (awayTable u))
      else stepSet u (awayTable u) := by
  have hadvance : advance u = driveAwayStep u := by
    unfold advance
    rw [hstate, hphase]
  rw [hadvance, driveAwayStep_eq hstate hphase]

/-- An interval of REVERSE_BRAKE (R86, R88). -/
theorem reverseBrake_interval {x : Clutch} (h : Finished s (advance u) t) (hstate : u.shc.state = .shuttling)
    (hphase : u.shc.phase = some .reverseBrake) (hx : dirClutchOf u.shc.target = [x]) :
    (t.clutch x).command = min (t.clutch x).value (if t.shc.pedal ≤ 10 then (u.cfg.clutches.get x).hold
      else if t.shc.pedal < 95 then (u.cfg.clutches.get x).hold * (100 - t.shc.pedal) / 90 else 0) ∧
    (t.clutch x).state = .ramping ∧
    (t.clutch x).value = min (u.cfg.clutches.get x).hold ((u.clutch x).value + t.shc.rate) ∧
    t.shc.state = .shuttling ∧ t.shc.current = u.shc.current ∧
    (brakeOver u = true → t.shc.phase = some .driveAway ∧ t.shc.interval = 0 ∧
      (t.clutch x).entryValue = (t.clutch x).value) ∧
    (brakeOver u = false → t.shc.phase = some .reverseBrake) := by
  have hdir := singleton_direction hx
  have hmem : x ∈ dirClutchOf u.shc.target := hx ▸ List.mem_singleton_self x
  have hget : (brakeTable u).get x = (u.clutch x).ramp (min (u.cfg.clutches.get x).hold ((u.clutch x).value + u.shc.rate)) :=
    (mapOn_get x).trans (if_pos hmem)
  have hadvance := advance_reverseBrake hstate hphase
  have hrate : t.shc.rate = (advance u).shc.rate := h.same Shc.rate fun _ _ _ => rfl
  cases hover : brakeOver u with
  | true =>
    rw [hover, if_pos rfl] at hadvance
    rw [hadvance] at h hrate
    have hclutch : (driveAwayBegun u (brakeTable u)).clutch x = { (u.clutch x).ramp
        (min (u.cfg.clutches.get x).hold ((u.clutch x).value + u.shc.rate)) with
        entryValue := min (u.cfg.clutches.get x).hold ((u.clutch x).value + u.shc.rate) } := by
      refine ((mapOn_get x).trans (if_pos hmem)).trans ?_
      rw [hget]
      rfl
    have hramping : ((driveAwayBegun u (brakeTable u)).clutch x).state = .ramping := congrArg ClutchRec.state hclutch
    have hcapped : rampCapped (driveAwayBegun u (brakeTable u)).shc = true := by
      simp [rampCapped, driveAwayBegun, hstate]
    obtain ⟨hstill, hvalue⟩ := h.still (x := x) (by rw [hramping]; nofun)
    have hvalue' := hvalue.trans (congrArg ClutchRec.value hclutch)
    refine ⟨h.cappedCommand hdir (.inr ⟨hramping, hcapped⟩), hstill.trans hramping, ?_, h.state.trans hstate, h.current,
      fun _ => ⟨h.phase, h.interval, ?_⟩, nofun⟩
    · rw [hvalue', hrate]
      rfl
    · obtain ⟨-, -, -, -, -, hentry⟩ := h.working x
      rw [hvalue', hentry, hclutch]
      rfl
  | false =>
    rw [hover, if_neg Bool.false_ne_true] at hadvance
    rw [hadvance] at h hrate
    have hclutch : (stepSet u (brakeTable u)).clutch x = _ := hget
    have hramping : ((stepSet u (brakeTable u)).clutch x).state = .ramping := congrArg ClutchRec.state hclutch
    have hcapped : rampCapped (stepSet u (brakeTable u)).shc = true := by
      simp [rampCapped, shc_stepSet, hstate, hphase]
    obtain ⟨hstill, hvalue⟩ := h.still (x := x) (by rw [hramping]; nofun)
    refine ⟨h.cappedCommand hdir (.inr ⟨hramping, hcapped⟩), hstill.trans hramping, ?_, h.state.trans hstate, h.current,
      nofun, fun _ => h.phase.trans hphase⟩
    rw [hvalue.trans (congrArg ClutchRec.value hclutch), hrate]
    rfl

/-- An interval of a direction clutch's ramp to hold, in DRIVE_AWAY or in RAMP. -/
theorem directionRamp_interval {x : Clutch} {k : ClutchTable ClutchRec} {n value : Nat}
    (h : Finished s (if n ≤ u.shc.interval + 1 then endDirectionRamp (stepSet u k) else stepSet u k) t)
    (hx : dirClutchOf u.shc.target = [x]) (hidle : u.shc.pendingShuttle = false) (hcapped : rampCapped u.shc = true)
    (hk : k.get x = (u.clutch x).ramp value) :
    (t.clutch x).command = min (t.clutch x).value (if t.shc.pedal ≤ 10 then (u.cfg.clutches.get x).hold
      else if t.shc.pedal < 95 then (u.cfg.clutches.get x).hold * (100 - t.shc.pedal) / 90 else 0) ∧
    t.shc.current = u.shc.current ∧
    (u.shc.interval + 1 < n → t.shc.state = u.shc.state ∧ t.shc.phase = u.shc.phase ∧
      t.shc.interval = u.shc.interval + 1 ∧ (t.clutch x).state = .ramping ∧ (t.clutch x).value = value) ∧
    (n ≤ u.shc.interval + 1 → t.shc.state = .inGear ∧ t.shc.phase = none ∧ t.shc.target = none ∧
      (t.clutch x).state = .locked ∧ (t.clutch x).value = (u.cfg.clutches.get x).hold) := by
  have hdir := singleton_direction hx
  by_cases hn : n ≤ u.shc.interval + 1
  · rw [if_pos hn] at h
    have hend := endDirectionRamp_shc (s := stepSet u k) hidle
    have hcfg : (endDirectionRamp (stepSet u k)).cfg = u.cfg := touches_endDirectionRamp (stepSet u k) .cfg (by decide)
    have hclutch : (endDirectionRamp (stepSet u k)).clutch x = (k.get x).lock (u.cfg.clutches.get x).hold := by
      rw [State.clutch, hend]
      exact directionLocked_get (s := stepSet u k) (hx ▸ List.mem_singleton_self x)
    have hlocked : ((endDirectionRamp (stepSet u k)).clutch x).state = .locked := congrArg ClutchRec.state hclutch
    have hcommand := h.cappedCommand hdir (.inl hlocked)
    obtain ⟨hstill, hvalue⟩ := h.still (x := x) (by rw [hlocked]; nofun)
    rw [hcfg] at hcommand
    refine ⟨hcommand, by rw [h.current, hend]; rfl, fun hlt => absurd hlt (not_lt.mpr hn), fun _ => ⟨?_, ?_, ?_, hstill.trans hlocked,
      hvalue.trans (congrArg ClutchRec.value hclutch)⟩⟩
    · rw [h.state, hend]
    · rw [h.phase, hend]
    · rw [h.target, hend]
  · rw [if_neg hn] at h
    have hclutch : (stepSet u k).clutch x = (u.clutch x).ramp value := hk
    have hramping : ((stepSet u k).clutch x).state = .ramping := congrArg ClutchRec.state hclutch
    have hcapped' : rampCapped (stepSet u k).shc = true := hcapped
    obtain ⟨hstill, hvalue⟩ := h.still (x := x) (by rw [hramping]; nofun)
    exact ⟨h.cappedCommand hdir (.inr ⟨hramping, hcapped'⟩), h.current, fun _ => ⟨h.state, h.phase, h.interval,
      hstill.trans hramping, hvalue.trans (congrArg ClutchRec.value hclutch)⟩, fun hge => absurd hge hn⟩

theorem driveAway_interval {x : Clutch} (h : Finished s (advance u) t) (hstate : u.shc.state = .shuttling)
    (hphase : u.shc.phase = some .driveAway) (hx : dirClutchOf u.shc.target = [x])
    (hidle : u.shc.pendingShuttle = false) :
    (t.clutch x).command = min (t.clutch x).value (if t.shc.pedal ≤ 10 then (u.cfg.clutches.get x).hold
      else if t.shc.pedal < 95 then (u.cfg.clutches.get x).hold * (100 - t.shc.pedal) / 90 else 0) ∧
    t.shc.current = u.shc.current ∧
    (u.shc.interval + 1 < rampIntervals u → t.shc.state = u.shc.state ∧ t.shc.phase = u.shc.phase ∧
      t.shc.interval = u.shc.interval + 1 ∧ (t.clutch x).state = .ramping ∧ (t.clutch x).value =
        alongLine (u.clutch x).entryValue (u.cfg.clutches.get x).hold (u.shc.interval + 1) (rampIntervals u)) ∧
    (rampIntervals u ≤ u.shc.interval + 1 → t.shc.state = .inGear ∧ t.shc.phase = none ∧ t.shc.target = none ∧
      (t.clutch x).state = .locked ∧ (t.clutch x).value = (u.cfg.clutches.get x).hold) := by
  rw [advance_driveAway hstate hphase] at h
  exact directionRamp_interval h hx hidle (by simp [rampCapped, hstate, hphase])
    ((mapOn_get x).trans (if_pos (hx ▸ List.mem_singleton_self x)))

theorem arrival_busy {k : ClutchTable ClutchRec} {n : Nat} (hidle : u.shc.pendingShuttle = false)
    (hbusy : u.shc.state.busy) :
    (if n ≤ u.shc.interval + 1 then endDirectionRamp (stepSet u k) else stepSet u k).shc.state.busy := by
  split
  · rw [endDirectionRamp_shc (s := stepSet u k) hidle]
    exact .inl rfl
  · exact hbusy

end

end Sys2Proof.Proofs
end

