-- ==== Sys2Proof/Proofs/DrainAndPreselect.lean ====
section
/-! PROOF. O30, continued: DRAIN, PRESELECT and RAMP at an interval (R84, R86), and the statement. -/

namespace Sys2Proof.Proofs

open Sys2Proof Sys2Proof.Machine

section
variable {s t u : State}

/-! ## DRAIN (R86) -/

/-- The swap of a shuttle completed after an interval of DRAIN. -/
def drainEnded (u : State) : State := (stepSet u (drainTable u)).withShc { (stepSet u (drainTable u)).shc with
  clutches := onLocked u (drainTable u), current := u.shc.target, phase := some .reverseBrake, interval := 0 }

/-- All on-coming clutches of a shuttle have filled at the tenth interval of DRAIN or later. -/
def drainDone (u : State) : Prop :=
  10 ≤ u.shc.interval + 1 ∧ ∀ x ∈ dirClutchOf u.shc.target ++ onComing u, ((drainTable u).get x).state = .ramping

/-- The state at the end of an interval of DRAIN. -/
theorem advance_drain_eq (hstate : u.shc.state = .shuttling) (hphase : u.shc.phase = some .drain) :
    (drainDone u → advance u = drainEnded u) ∧ (¬ drainDone u → advance u = stepSet u (drainTable u)) := by
  have hadvance := advance_drain hstate hphase
  have hover := drainOver_stepSet hstate hphase
  refine ⟨fun h => ?_, fun h => ?_⟩
  · rw [hadvance, if_pos (hover.mpr h)]
    exact endDrain_eq (stepSet u (drainTable u))
  · rw [hadvance, if_neg fun k => h (hover.mp k)]

/-- A clutch outside the swap, and one that swaps before its end, is as the interval of DRAIN leaves it. -/
theorem advance_drain_clutch (hstate : u.shc.state = .shuttling) (hphase : u.shc.phase = some .drain) {x : Clutch}
    (hx : x ∉ onComing u ∨ ¬ drainDone u) : (advance u).clutch x = (drainTable u).get x := by
  obtain ⟨hdone, hgoes⟩ := advance_drain_eq hstate hphase
  by_cases h : drainDone u
  · rw [hdone h]
    exact onLocked_get_of_not (hx.resolve_right fun k => k h) _
  · rw [hgoes h]
    rfl

theorem advance_drain_shc (hstate : u.shc.state = .shuttling) (hphase : u.shc.phase = some .drain) :
    (advance u).shc.state = .shuttling ∧ (advance u).shc.target = u.shc.target ∧
    (¬ drainDone u → (advance u).shc.phase = some .drain ∧ (advance u).shc.interval = u.shc.interval + 1 ∧
      (advance u).shc.current = u.shc.current) ∧
    (drainDone u → (advance u).shc.phase = some .reverseBrake ∧ (advance u).shc.interval = 0 ∧
      (advance u).shc.current = u.shc.target) := by
  obtain ⟨hdone, hgoes⟩ := advance_drain_eq hstate hphase
  by_cases h : drainDone u
  · rw [hdone h]
    exact ⟨hstate, rfl, fun k => absurd h k, fun _ => ⟨rfl, rfl, rfl⟩⟩
  · rw [hgoes h]
    exact ⟨hstate, rfl, fun _ => ⟨hphase, rfl, rfl⟩, fun k => absurd k h⟩

/-- The on-coming clutches of a shuttle are none of its off-going ones. -/
theorem shuttle_sides {g h : Gear} (hcurrent : u.shc.current = some g) (hdir : g.dir ≠ h.dir) {x : Clutch} (hx : x ∈ h.dir.clutch :: onComing u) :
    x ∉ dirClutchOf u.shc.current ++ offGoing u := by
  rw [hcurrent]
  simp only [dirClutchOf, List.mem_append, List.mem_singleton, not_or]
  have hgear : ∀ y, y ∈ onComing u ∨ y ∈ offGoing u → ∀ d : Dir, y ≠ d.clutch := fun y hy d => by
    obtain ⟨hfwd, hrev⟩ := hy.elim onComing_gear offGoing_gear
    cases d
    · exact hfwd
    · exact hrev
  rcases List.mem_cons.mp hx with rfl | hx
  · refine ⟨fun heq => hdir ?_, fun hoff => hgear _ (.inr hoff) _ rfl⟩
    revert heq
    cases g.dir <;> cases h.dir <;> decide
  · exact ⟨hgear x (.inl hx) _, offGoing_of_onComing hx⟩

/-- An on-coming clutch at an interval of DRAIN. -/
theorem drainTable_onComing {g h : Gear} (hstate : u.shc.state = .shuttling) (hcurrent : u.shc.current = some g)
    (hdir : g.dir ≠ h.dir) {x : Clutch} (hx : x ∈ h.dir.clutch :: onComing u) :
    (drainTable u).get x = fillDone false (u.cfg.clutches.get x) (u.clutch x) := by
  rw [drainTable_get hstate, if_neg fun k => shuttle_sides hcurrent hdir hx k.1]

theorem fillDone_ramps {c : ClutchCfg} {r : ClutchRec} (h : r.state = .filling ∧ r.fillTime ≤ r.held + 10) :
    (fillDone false c r).state = .ramping ∧ (fillDone false c r).value = c.touch := by
  rw [fillDone_of_ended h.1 h.2]
  exact ⟨rfl, rfl⟩

theorem fillDone_locks {c : ClutchCfg} {r : ClutchRec} (h : r.state = .filling ∧ r.fillTime ≤ r.held + 10) :
    (fillDone true c r).state = .locked ∧ (fillDone true c r).value = c.hold := by
  rw [fillDone_of_ended h.1 h.2]
  exact ⟨rfl, rfl⟩

theorem fillDone_goes {locks : Bool} {c : ClutchCfg} {r : ClutchRec} (h : r.state = .filling ∧ r.held + 10 < r.fillTime) :
    (fillDone locks c r).state = .filling ∧ (fillDone locks c r).held = r.held + 10 ∧
      (fillDone locks c r).value = r.value := by
  rw [fillDone_of_going h.1 h.2]
  exact ⟨h.1, rfl, rfl⟩

/-- A clutch that ramped, or whose fill has ended, ramps. -/
theorem fillDone_ramping {c : ClutchCfg} {r : ClutchRec}
    (h : r.state = .ramping ∨ (r.state = .filling ∧ r.fillTime ≤ r.held + 10)) : (fillDone false c r).state = .ramping := by
  rcases h with h | h
  · rw [fillDone_of_other (by simp [h])]
    exact h
  · exact (fillDone_ramps h).1

/-- An interval of DRAIN (R86). -/
theorem drain_interval {g h : Gear} (ht : Finished s (advance u) t) (hclutch : s.shc.clutches = u.shc.clutches)
    (hstate : u.shc.state = .shuttling) (hphase : u.shc.phase = some .drain) (hcurrent : u.shc.current = some g)
    (htarget : u.shc.target = some h) (hdir : g.dir ≠ h.dir) : t.shc.state = .shuttling ∧ t.shc.target = some h ∧
    ∀ j : Nat, j = u.shc.interval + 1 →
      (∀ x ∈ g.dir.clutch :: offGoing u,
        (j ≤ 10 → (t.clutch x).command = (u.cfg.clutches.get x).hold * (10 - j) / 10 ∧
          ((u.clutch x).drain = none → (t.clutch x).state = .draining)) ∧
        (10 < j → (u.clutch x).state = .draining → (t.clutch x).command = (u.clutch x).value)) ∧
      (∀ x ∈ h.dir.clutch :: onComing u, FillGoesOn u x →
        (t.clutch x).state = .filling ∧ (t.clutch x).held = (u.clutch x).held + 10) ∧
      (FillEnds u h.dir.clutch → (t.clutch h.dir.clutch).state = .ramping ∧
        (t.clutch h.dir.clutch).value = (u.cfg.clutches.get h.dir.clutch).touch) ∧
      (j < 10 ∨ (∃ x ∈ h.dir.clutch :: onComing u, FillGoesOn u x) →
        t.shc.phase = some .drain ∧ t.shc.interval = j ∧ t.shc.current = some g ∧
        ∀ x ∈ onComing u, FillEnds u x → (t.clutch x).state = .ramping ∧
          (t.clutch x).command = (u.cfg.clutches.get x).touch) ∧
      (10 ≤ j → (∀ x ∈ h.dir.clutch :: onComing u, (u.clutch x).state = .ramping ∨ FillEnds u x) →
        t.shc.phase = some .reverseBrake ∧ t.shc.interval = 0 ∧ t.shc.current = some h ∧
        ∀ x ∈ onComing u, (t.clutch x).state = .locked ∧
          (t.clutch x).command = (u.cfg.clutches.get x).hold) := by
  obtain ⟨hvstate, hvtarget, hgoing, hended⟩ := advance_drain_shc hstate hphase
  have hkept {x : Clutch} (hx : x ∉ onComing u ∨ ¬ drainDone u) := advance_drain_clutch hstate hphase hx
  have hdoneEq := (advance_drain_eq hstate hphase).1
  have hon {x : Clutch} (hx : x ∈ h.dir.clutch :: onComing u) := drainTable_onComing hstate hcurrent hdir hx
  have hlist : dirClutchOf u.shc.target ++ onComing u = h.dir.clutch :: onComing u := by rw [htarget]; rfl
  have hlist' : dirClutchOf u.shc.current ++ offGoing u = g.dir.clutch :: offGoing u := by rw [hcurrent]; rfl
  have hgoes {x : Clutch} (hx : x ∈ h.dir.clutch :: onComing u) (hfill : FillGoesOn u x) : ¬ drainDone u := fun hd => by
    have hramping := hd.2 x (hlist ▸ hx)
    rw [hon hx, (fillDone_goes hfill).1] at hramping
    cases hramping
  have hdirGear : h.dir.clutch ∉ onComing u := fun k => by
    obtain ⟨hfwd, hrev⟩ := onComing_gear k
    exact (dirClutch_direction h.dir).elim hfwd hrev
  refine ⟨ht.state.trans hvstate, ht.target.trans (hvtarget.trans htarget), fun j hj => ⟨fun x hx => ⟨fun hj10 => ?_,
    fun hj10 hdraining => ?_⟩, fun x hx hfill => ?_, fun hfill => ?_, fun hgo => ?_, fun hj10 hall => ?_⟩⟩
  · have hnot : x ∉ onComing u := by
      rcases List.mem_cons.mp hx with rfl | hx
      · intro k
        obtain ⟨hfwd, hrev⟩ := onComing_gear k
        exact (dirClutch_direction g.dir).elim hfwd hrev
      · exact onComing_of_offGoing hx
    have hv : (advance u).clutch x = (u.clutch x).drainTo ((u.cfg.clutches.get x).hold * (10 - j) / 10) := by
      rw [hkept (.inl hnot), drainTable_get hstate, hlist', if_pos ⟨hx, hj ▸ hj10⟩, hj]
    have hdraining : ((advance u).clutch x).state = .draining := congrArg ClutchRec.state hv
    refine ⟨?_, fun hdrain => ?_⟩
    · rw [ht.freeCommand (by simp [hdraining]) (by simp [hdraining]), hv]
      rfl
    · exact (ht.untimed (by rw [State.clutch, hclutch]; exact hdrain)).1.trans hdraining
  · have hnot : x ∉ onComing u := by
      rcases List.mem_cons.mp hx with rfl | hx
      · intro k
        obtain ⟨hfwd, hrev⟩ := onComing_gear k
        exact (dirClutch_direction g.dir).elim hfwd hrev
      · exact onComing_of_offGoing hx
    have hv : (advance u).clutch x = u.clutch x := by
      rw [hkept (.inl hnot), drainTable_get hstate, if_neg (by omega), fillDone_of_other (by simp [hdraining])]
    rw [ht.freeCommand (by simp [hv, hdraining]) (by simp [hv, hdraining]), hv]
  · have hv := (hkept (.inr (hgoes hx hfill))).trans (hon hx)
    obtain ⟨hfilling, hheld, -⟩ := fillDone_goes (locks := false) (c := u.cfg.clutches.get x) hfill
    rw [← hv] at hfilling hheld
    exact ⟨(ht.still (by simp [hfilling])).1.trans hfilling, (ht.working x).1.trans hheld⟩
  · have hv := (hkept (.inl hdirGear)).trans (hon List.mem_cons_self)
    obtain ⟨hramping, htouch⟩ := fillDone_ramps (c := u.cfg.clutches.get h.dir.clutch) hfill
    rw [← hv] at hramping htouch
    obtain ⟨hstill, hvalue⟩ := ht.still (x := h.dir.clutch) (by simp [hramping])
    exact ⟨hstill.trans hramping, hvalue.trans htouch⟩
  · have hnot : ¬ drainDone u := by
      rcases hgo with hlt | ⟨x, hx, hfill⟩
      · exact fun hd => absurd hd.1 (by omega)
      · exact hgoes hx hfill
    obtain ⟨hp, hi, hc⟩ := hgoing hnot
    refine ⟨ht.phase.trans hp, ht.interval.trans (hi.trans hj.symm), ht.current.trans (hc.trans hcurrent), fun x hx hfill => ?_⟩
    have hv := (hkept (x := x) (.inr hnot)).trans (hon (List.mem_cons_of_mem _ hx))
    obtain ⟨hramping, htouch⟩ := fillDone_ramps (c := u.cfg.clutches.get x) hfill
    rw [← hv] at hramping htouch
    exact ⟨(ht.still (by simp [hramping])).1.trans hramping, (ht.gearCommand (onComing_gear hx)).trans htouch⟩
  · have hdone : drainDone u := by
      refine ⟨hj ▸ hj10, fun x hx => ?_⟩
      rw [hlist] at hx
      rw [hon hx]
      exact fillDone_ramping (hall x hx)
    obtain ⟨hp, hi, hc⟩ := hended hdone
    refine ⟨ht.phase.trans hp, ht.interval.trans hi, ht.current.trans (hc.trans htarget), fun x hx => ?_⟩
    have hv : (advance u).clutch x = ((drainTable u).get x).lock (u.cfg.clutches.get x).hold := by
      rw [hdoneEq hdone]
      exact onLocked_get hx _
    have hlocked : ((advance u).clutch x).state = .locked := congrArg ClutchRec.state hv
    exact ⟨(ht.still (by simp [hlocked])).1.trans hlocked,
      (ht.gearCommand (onComing_gear hx)).trans (congrArg ClutchRec.value hv)⟩

/-! ## PRESELECT (R84) -/

/-- The fills of PRESELECT, of NEUTRAL and of a shift read the gear's pair. -/
theorem fillTable_locks {x : Clutch} (hlocks : locksAtOnce u.shc = true) :
    (fillTable u).get x = fillDone true (u.cfg.clutches.get x) (u.clutch x) := by rw [fillTable_get, hlocks]

theorem fillTable_ramps {x : Clutch} (hlocks : locksAtOnce u.shc = false) :
    (fillTable u).get x = fillDone false (u.cfg.clutches.get x) (u.clutch x) := by rw [fillTable_get, hlocks]

/-- A clutch that was LOCKED, or whose fill of PRESELECT has ended, is LOCKED. -/
theorem fillDone_locked {c : ClutchCfg} {r : ClutchRec}
    (h : r.state = .locked ∨ (r.state = .filling ∧ r.fillTime ≤ r.held + 10)) : (fillDone true c r).state = .locked := by
  rcases h with h | h
  · rw [fillDone_of_other (by simp [h])]
    exact h
  · exact (fillDone_locks h).1

theorem beginRamp_clutch (g : Gear) (u : State) (x : Clutch) : (beginRamp g u).clutch x =
    if x = g.dir.clutch then filling u g.dir.clutch (u.clutch x)
    else if x ∈ othersOf g.dir.clutch then (u.clutch x).drainTo 0 else u.clutch x := by
  rw [beginRamp_eq]
  exact aloneTable_get

theorem preselect_interval {g : Gear} (ht : Finished s (advance u) t) (hstate : u.shc.state = .engaging)
    (hphase : u.shc.phase = some .preselect) (htarget : u.shc.target = some g) : t.shc.state = .engaging ∧
    t.shc.target = some g ∧
    (∀ x ∈ gearPair u.cfg g,
      (FillGoesOn u x → (t.clutch x).state = .filling ∧ (t.clutch x).held = (u.clutch x).held + 10) ∧
      (FillEnds u x → (t.clutch x).state = .locked ∧ (t.clutch x).command = (u.cfg.clutches.get x).hold)) ∧
    ((∃ x ∈ gearPair u.cfg g, FillGoesOn u x) →
      t.shc.phase = some .preselect ∧ t.shc.current = u.shc.current) ∧
    ((∀ x ∈ gearPair u.cfg g, (u.clutch x).state = .locked ∨ FillEnds u x) →
      t.shc.phase = some .ramp ∧ t.shc.current = some g ∧
      (t.clutch g.dir.clutch).state = .filling ∧ (t.clutch g.dir.clutch).held = 0 ∧
      (t.clutch g.dir.clutch).command = (u.cfg.clutches.get g.dir.clutch).fillCurrent) := by
  have hadvance := advance_preselect hstate hphase htarget
  have hlocks : locksAtOnce u.shc = true := by simp [locksAtOnce, hstate, hphase]
  have hfill (x : Clutch) : (clutchesSet u (fillTable u)).clutch x = fillDone true (u.cfg.clutches.get x) (u.clutch x) :=
    fillTable_locks hlocks
  have hgear {x : Clutch} (hx : x ∈ gearPair u.cfg g) :
      (advance u).clutch x = fillDone true (u.cfg.clutches.get x) (u.clutch x) := by
    obtain ⟨hne, hothers⟩ := othersOf_direction g.dir (gearPair_gear hx)
    rw [hadvance, ← hfill]
    split
    · rw [beginRamp_clutch, if_neg hne, if_neg hothers]
    · rfl
  have hvstate : (advance u).shc.state = .engaging ∧ (advance u).shc.target = some g := by
    rw [hadvance]
    split
    · rw [beginRamp_eq]
      exact ⟨hstate, htarget⟩
    · exact ⟨hstate, htarget⟩
  refine ⟨ht.state.trans hvstate.1, ht.target.trans hvstate.2, fun x hx => ⟨fun hgo => ?_, fun hend => ?_⟩,
    fun ⟨x, hx, hgo⟩ => ?_, fun hall => ?_⟩
  · obtain ⟨hfilling, hheld, -⟩ := fillDone_goes (locks := true) (c := u.cfg.clutches.get x) hgo
    rw [← hgear hx] at hfilling hheld
    exact ⟨(ht.still (by simp [hfilling])).1.trans hfilling, (ht.working x).1.trans hheld⟩
  · obtain ⟨hlocked, hhold⟩ := fillDone_locks (c := u.cfg.clutches.get x) hend
    rw [← hgear hx] at hlocked hhold
    exact ⟨(ht.still (by simp [hlocked])).1.trans hlocked, (ht.gearCommand (gearPair_gear hx)).trans hhold⟩
  · have hnot : ¬ allIn (clutchesSet u (fillTable u)) .locked (gearPair u.cfg g) = true := fun hall => by
      have hlocked := allIn_iff.mp hall x hx
      rw [hfill, (fillDone_goes hgo).1] at hlocked
      cases hlocked
    rw [hadvance, if_neg hnot] at ht
    exact ⟨ht.phase.trans hphase, ht.current⟩
  · have hyes : allIn (clutchesSet u (fillTable u)) .locked (gearPair u.cfg g) = true := allIn_iff.mpr fun x hx => by
      rw [hfill]
      exact fillDone_locked (hall x hx)
    rw [hadvance, if_pos hyes] at ht
    have hv := beginRamp_clutch g (clutchesSet u (fillTable u)) g.dir.clutch
    rw [if_pos rfl] at hv
    have hshc := congrArg State.shc (beginRamp_eq g (clutchesSet u (fillTable u)))
    have hcfg : (beginRamp g (clutchesSet u (fillTable u))).cfg = u.cfg := by rw [beginRamp_eq]; rfl
    generalize beginRamp g (clutchesSet u (fillTable u)) = v at *
    have hfilling : (v.clutch g.dir.clutch).state = .filling := congrArg ClutchRec.state hv
    refine ⟨by rw [ht.phase, hshc]; rfl, by rw [ht.current, hshc]; rfl,
      (ht.still (by simp [hfilling])).1.trans hfilling, (ht.working _).1.trans (congrArg ClutchRec.held hv), ?_⟩
    rw [ht.freeCommand (by simp [hfilling]) (by simp [hfilling])]
    exact congrArg ClutchRec.value hv

end

end Sys2Proof.Proofs
end

