-- ==== Sys2Proof/Proofs/DirectionTakesOver.lean ====
section
/-! PROOF. O30, concluded: RAMP at an interval (R84, R88), and the statement. -/

namespace Sys2Proof.Proofs

open Sys2Proof Sys2Proof.Machine

section
variable {s t u : State}

theorem advance_ramp (hstate : u.shc.state = .engaging) (hphase : u.shc.phase = some .ramp) : advance u =
    if allIn u .filling (dirClutchOf u.shc.target) = true then fillStep u else rampStep u := by
  unfold advance
  rw [hstate, hphase]

/-- The fills of RAMP: the direction clutch goes on filling, or begins to ramp at touch with the interval count 0. -/
theorem rampFill_interval {x : Clutch} (ht : Finished s (fillStep u) t) (hstate : u.shc.state = .engaging)
    (hphase : u.shc.phase = some .ramp) (hx : x = .fwd ∨ x = .rev) (hfilling : (u.clutch x).state = .filling) :
    t.shc.current = u.shc.current ∧ t.shc.phase = some .ramp ∧
    ((t.clutch x).state ≠ .filling →
      (t.clutch x).command = min (t.clutch x).value (if t.shc.pedal ≤ 10 then (u.cfg.clutches.get x).hold
        else if t.shc.pedal < 95 then (u.cfg.clutches.get x).hold * (100 - t.shc.pedal) / 90 else 0)) ∧
    (FillGoesOn u x → (t.clutch x).state = .filling ∧ (t.clutch x).held = (u.clutch x).held + 10 ∧
      (t.clutch x).command = (u.clutch x).value) ∧
    (FillEnds u x → t.shc.interval = 0 ∧ (t.clutch x).state = .ramping ∧
      (t.clutch x).value = (u.cfg.clutches.get x).touch) := by
  obtain ⟨n, hstep, -, -, hreset⟩ := fillStep_eq u
  have hlocks : locksAtOnce u.shc = false := by simp [locksAtOnce, hstate, hphase]
  have hbegins : rampBegins u.shc = true := by simp [rampBegins, hlocks, hstate]
  rw [hstep] at ht
  have hv : (fillsSet u (fillTable u) n).clutch x = fillDone false (u.cfg.clutches.get x) (u.clutch x) :=
    fillTable_ramps hlocks
  have hcapped : rampCapped (fillsSet u (fillTable u) n).shc = true := by simp [rampCapped, shc_fillsSet, hstate, hphase]
  have hends (h : FillEnds u x) : n = 0 := hreset ⟨x, fillEnds_iff.mpr h⟩ hbegins
  have hgoesOrEnds : FillGoesOn u x ∨ FillEnds u x := by
    rcases lt_or_ge ((u.clutch x).held + 10) (u.clutch x).fillTime with h | h
    · exact .inl ⟨hfilling, h⟩
    · exact .inr ⟨hfilling, h⟩
  have hgoing (h : FillGoesOn u x) : (t.clutch x).state = .filling ∧ (t.clutch x).held = (u.clutch x).held + 10 ∧
      (t.clutch x).command = (u.clutch x).value := by
    obtain ⟨hstill, hheld, hvalue⟩ := fillDone_goes (locks := false) (c := u.cfg.clutches.get x) h
    rw [← hv] at hstill hheld hvalue
    exact ⟨(ht.still (by simp [hstill])).1.trans hstill, (ht.working x).1.trans hheld,
      (ht.freeCommand (by simp [hstill]) (by simp [hstill])).trans hvalue⟩
  have hended (h : FillEnds u x) : ((fillsSet u (fillTable u) n).clutch x).state = .ramping ∧
      ((fillsSet u (fillTable u) n).clutch x).value = (u.cfg.clutches.get x).touch := by
    rw [hv]
    exact fillDone_ramps h
  refine ⟨ht.current, ht.phase.trans hphase, fun hne => ?_, hgoing, fun h => ?_⟩
  · rcases hgoesOrEnds with h | h
    · exact absurd (hgoing h).1 hne
    · exact ht.cappedCommand hx (.inr ⟨(hended h).1, hcapped⟩)
  · obtain ⟨hramping, htouch⟩ := hended h
    obtain ⟨hstill, hvalue⟩ := ht.still (x := x) (by rw [hramping]; nofun)
    exact ⟨ht.interval.trans (hends h), hstill.trans hramping, hvalue.trans htouch⟩

/-- An interval of the direction clutch's own ramp. -/
theorem ramp_interval {x : Clutch} (ht : Finished s (rampStep u) t) (hstate : u.shc.state = .engaging)
    (hphase : u.shc.phase = some .ramp) (hx : dirClutchOf u.shc.target = [x]) (hidle : u.shc.pendingShuttle = false) :
    (t.clutch x).command = min (t.clutch x).value (if t.shc.pedal ≤ 10 then (u.cfg.clutches.get x).hold
      else if t.shc.pedal < 95 then (u.cfg.clutches.get x).hold * (100 - t.shc.pedal) / 90 else 0) ∧
    t.shc.current = u.shc.current ∧
    (u.shc.interval + 1 < rampIntervals u → t.shc.state = u.shc.state ∧ t.shc.phase = u.shc.phase ∧
      t.shc.interval = u.shc.interval + 1 ∧ (t.clutch x).state = .ramping ∧ (t.clutch x).value =
        alongLine (u.cfg.clutches.get x).touch (u.cfg.clutches.get x).hold (u.shc.interval + 1) (rampIntervals u)) ∧
    (rampIntervals u ≤ u.shc.interval + 1 → t.shc.state = .inGear ∧ t.shc.phase = none ∧ t.shc.target = none ∧
      (t.clutch x).state = .locked ∧ (t.clutch x).value = (u.cfg.clutches.get x).hold) := by
  rw [rampStep_eq hstate hphase] at ht
  exact directionRamp_interval ht hx hidle (by simp [rampCapped, hstate, hphase])
    ((mapOn_get x).trans (if_pos (hx ▸ List.mem_singleton_self x)))

end

/-! ## The clauses of the statement -/

section
variable {s : State}

/-- REVERSE_BRAKE and DRIVE_AWAY of a shuttle (R86, R88). -/
theorem shuttle_clauses (x : Clutch) (r : ClutchRec) (hold : Nat) (h : SteadyGearbox s)
    (hfault : s.gearboxFaulted = false) (hstate : s.shc.state = .shuttling) (hidle : s.shc.pendingShuttle = false)
    (hx : dirClutchOf s.shc.target = [x]) (hr : r = s.clutch x) (hhold : hold = (s.cfg.clutches.get x).hold) :
    ∃ t : State, exec .shcControlInterval s = .next t ∧
      (∀ p cap : Nat, p = t.shc.pedal →
        cap = (if p ≤ 10 then hold else if p < 95 then hold * (100 - p) / 90 else 0) →
        s.shc.phase = some .reverseBrake ∨ s.shc.phase = some .driveAway →
        (t.clutch x).command = min (t.clutch x).value cap) ∧
      (s.shc.phase = some .reverseBrake →
        (t.clutch x).state = .ramping ∧ (t.clutch x).value = min hold (r.value + t.shc.rate) ∧
        t.shc.state = .shuttling ∧ t.shc.current = s.shc.current ∧
        (s.scu.motion.outRpm < 30 ∨ s.scu.motion.standstill = true →
          t.shc.phase = some .driveAway ∧ t.shc.interval = 0 ∧
          (t.clutch x).entryValue = (t.clutch x).value) ∧
        (30 ≤ s.scu.motion.outRpm → s.scu.motion.standstill = false →
          t.shc.phase = some .reverseBrake)) ∧
      (s.shc.phase = some .driveAway → ∀ j n : Nat, j = s.shc.interval + 1 →
        n = max 1 (s.cfg.engageRamp / 10) →
        (j < n → t.shc.phase = some .driveAway ∧ t.shc.interval = j ∧
          (t.clutch x).state = .ramping ∧
          (t.clutch x).value = ((r.entryValue : Int) +
            Int.tdiv (((hold : Int) - r.entryValue) * j) n).toNat) ∧
        (n ≤ j → t.shc.state = .inGear ∧ t.shc.phase = none ∧
          t.shc.target = none ∧ t.shc.current = s.shc.current ∧
          (t.clutch x).state = .locked ∧ (t.clutch x).value = hold)) := by
  subst hr hhold
  by_cases hbrake : s.shc.phase = some .reverseBrake
  · obtain ⟨i, t, -, hexec, ht⟩ := steady_operation h hfault (.inr (.inr hstate)) fun i _ => by
      rw [advance_reverseBrake (u := levelsTaken s i) hstate hbrake]
      split <;> exact .inr (.inr (.inr hstate))
    obtain ⟨hcommand, hramping, hvalue, hshuttling, hcurrent, hover, hgoes⟩ :=
      reverseBrake_interval (u := levelsTaken s i) ht hstate hbrake hx
    have hbrakeOver : brakeOver (levelsTaken s i) = true ↔ s.scu.motion.outRpm < 30 ∨ s.scu.motion.standstill = true := by
      change (decide (s.scu.motion.outRpm < 30) || s.scu.motion.standstill) = true ↔ _
      rw [Bool.or_eq_true, decide_eq_true_iff]
    refine ⟨t, hexec, fun p cap hp hcap _ => ?_, fun _ => ⟨hramping, hvalue, hshuttling, hcurrent, fun hslow =>
      hover (hbrakeOver.mpr hslow), fun hfast hrolls => hgoes ?_⟩, fun haway => ?_⟩
    · rw [hcap, hp]
      exact hcommand
    · rw [Bool.eq_false_iff, Ne, hbrakeOver]
      rintro (hlt | hstands)
      · omega
      · simp [hrolls] at hstands
    · simp [hbrake] at haway
  · by_cases haway : s.shc.phase = some .driveAway
    · obtain ⟨i, t, -, hexec, ht⟩ := steady_operation h hfault (.inr (.inr hstate)) fun i _ => by
        rw [advance_driveAway (u := levelsTaken s i) hstate haway]
        exact arrival_busy (u := levelsTaken s i) hidle (.inr (.inr (.inr hstate)))
      obtain ⟨hcommand, hcurrent, hgoes, hends⟩ := driveAway_interval (u := levelsTaken s i) ht hstate haway hx hidle
      refine ⟨t, hexec, fun p cap hp hcap _ => ?_, fun hphase => absurd hphase hbrake, fun _ j n hj hn => ?_⟩
      · rw [hcap, hp]
        exact hcommand
      · subst hj hn
        refine ⟨fun hlt => ?_, fun hge => ?_⟩
        · obtain ⟨-, hphase, hinterval, hramping, hvalue⟩ := hgoes hlt
          exact ⟨hphase.trans haway, hinterval, hramping, hvalue⟩
        · obtain ⟨hgear, hphase, htarget, hlocked, hvalue⟩ := hends hge
          exact ⟨hgear, hphase, htarget, hcurrent, hlocked, hvalue⟩
    · exact ⟨_, exec_shcControlInterval h.runs, fun _ _ _ _ hphase => absurd hphase (not_or.mpr ⟨hbrake, haway⟩),
        fun hphase => absurd hphase hbrake, fun hphase => absurd hphase haway⟩

/-- RAMP of an engagement (R84, R88). -/
theorem ramp_clauses (g : Gear) (x : Clutch) (touch hold : Nat) (h : SteadyGearbox s)
    (hfault : s.gearboxFaulted = false) (hstate : s.shc.state = .engaging) (hphase : s.shc.phase = some .ramp)
    (htarget : s.shc.target = some g) (hx : x = g.dir.clutch) (hidle : s.shc.pendingShuttle = false)
    (htouch : touch = (s.cfg.clutches.get x).touch) (hhold : hold = (s.cfg.clutches.get x).hold) :
    ∃ t : State, exec .shcControlInterval s = .next t ∧ t.shc.current = s.shc.current ∧
      (∀ p cap : Nat, p = t.shc.pedal →
        cap = (if p ≤ 10 then hold else if p < 95 then hold * (100 - p) / 90 else 0) →
        (t.clutch x).state ≠ .filling → (t.clutch x).command = min (t.clutch x).value cap) ∧
      (FillGoesOn s x → t.shc.phase = some .ramp ∧ (t.clutch x).state = .filling ∧
        (t.clutch x).held = (s.clutch x).held + 10 ∧ (t.clutch x).command = (s.clutch x).value) ∧
      (FillEnds s x → t.shc.phase = some .ramp ∧ t.shc.interval = 0 ∧
        (t.clutch x).state = .ramping ∧ (t.clutch x).value = touch) ∧
      ((s.clutch x).state = .ramping → ∀ j n : Nat, j = s.shc.interval + 1 →
        n = max 1 (s.cfg.engageRamp / 10) →
        (j < n → t.shc.state = .engaging ∧ t.shc.phase = some .ramp ∧ t.shc.interval = j ∧
          (t.clutch x).state = .ramping ∧
          (t.clutch x).value = ((touch : Int) + Int.tdiv (((hold : Int) - touch) * j) n).toNat) ∧
        (n ≤ j → t.shc.state = .inGear ∧ t.shc.phase = none ∧ t.shc.target = none ∧
          (t.clutch x).state = .locked ∧ (t.clutch x).value = hold)) := by
  subst htouch hhold
  have hdir : dirClutchOf s.shc.target = [x] := by rw [htarget, hx]; rfl
  have hall (i : Levels) : allIn (levelsTaken s i) .filling (dirClutchOf (levelsTaken s i).shc.target) = true ↔
      (s.clutch x).state = .filling := by
    have hlist : dirClutchOf (levelsTaken s i).shc.target = [x] := hdir
    rw [allIn_iff, hlist]
    exact List.forall_mem_singleton
  by_cases hfilling : (s.clutch x).state = .filling
  · have hadvance (i : Levels) : advance (levelsTaken s i) = fillStep (levelsTaken s i) := by
      rw [advance_ramp (u := levelsTaken s i) hstate hphase, if_pos ((hall i).mpr hfilling)]
    obtain ⟨i, t, -, hexec, ht⟩ := steady_operation h hfault (.inr (.inl hstate)) fun i _ => by
      obtain ⟨n, hstep, -⟩ := fillStep_eq (levelsTaken s i)
      rw [hadvance, hstep]
      exact .inr (.inr (.inl hstate))
    rw [hadvance] at ht
    obtain ⟨hcurrent, hramp, hcommand, hgoes, hends⟩ :=
      rampFill_interval (u := levelsTaken s i) ht hstate hphase (singleton_direction hdir) hfilling
    refine ⟨t, hexec, hcurrent, fun p cap hp hcap hne => ?_, fun hgo => ⟨hramp, hgoes hgo⟩, fun hend => ⟨hramp, hends hend⟩,
      fun hramping => ?_⟩
    · rw [hcap, hp]
      exact hcommand hne
    · simp [hfilling] at hramping
  · have hadvance (i : Levels) : advance (levelsTaken s i) = rampStep (levelsTaken s i) := by
      rw [advance_ramp (u := levelsTaken s i) hstate hphase, if_neg fun k => hfilling ((hall i).mp k)]
    obtain ⟨i, t, -, hexec, ht⟩ := steady_operation h hfault (.inr (.inl hstate)) fun i _ => by
      rw [hadvance, rampStep_eq (s := levelsTaken s i) hstate hphase]
      exact arrival_busy (u := levelsTaken s i) hidle (.inr (.inr (.inl hstate)))
    rw [hadvance] at ht
    obtain ⟨hcommand, hcurrent, hgoes, hends⟩ := ramp_interval (u := levelsTaken s i) ht hstate hphase hdir hidle
    refine ⟨t, hexec, hcurrent, fun p cap hp hcap _ => ?_, fun hgo => absurd hgo.1 hfilling,
      fun hend => absurd hend.1 hfilling, fun _ j n hj hn => ?_⟩
    · rw [hcap, hp]
      exact hcommand
    · subst hj hn
      refine ⟨fun hlt => ?_, hends⟩
      obtain ⟨hengaging, hramp, hinterval, hramping, hvalue⟩ := hgoes hlt
      exact ⟨hengaging.trans hstate, hramp.trans hphase, hinterval, hramping, hvalue⟩

end

/-- Settles O30. -/
theorem directionClutchTakesOver : Obligations.DirectionClutchTakesOver := by
  intro s hruns
  refine ⟨fun c hc hinterval hidle => ?rows, fun hstate hphase hinterval hramping => ?drained,
    shuttle_clauses, fun g h hs hfault hstate hphase hcurrent htarget hdir => ?drain,
    fun g hs hfault hstate hphase htarget => ?preselect, ramp_clauses⟩
  case rows =>
    obtain ⟨t, hexec, ht⟩ := directionRamp_ends hruns hc hinterval
    exact ⟨t, hexec, settled_directionRamp ht hidle⟩
  case drained =>
    have hdue : drainOver s = true := by
      have hlist : allIn s .ramping (shuttleOnComing s) = true := allIn_iff.mpr hramping
      simp [drainOver, hstate, hphase, drainIntervals, hinterval, hlist]
    obtain ⟨t, hexec, ht⟩ := exec_of_due (c := .shuttleDrainEnd) rfl hruns hdue
    exact ⟨t, hexec, settled_endDrain ht hstate hramping⟩
  case drain =>
    obtain ⟨i, t, -, hexec, ht⟩ := steady_operation hs hfault (.inr (.inr hstate)) fun i _ =>
      .inr (.inr (.inr (advance_drain_shc (u := levelsTaken s i) hstate hphase).1))
    exact ⟨t, hexec, drain_interval (u := levelsTaken s i) ht rfl hstate hphase hcurrent htarget hdir⟩
  case preselect =>
    obtain ⟨i, t, -, hexec, ht⟩ := steady_operation hs hfault (.inr (.inl hstate)) fun i _ => by
      rw [advance_preselect (s := levelsTaken s i) hstate hphase htarget]
      split
      · rw [beginRamp_eq]
        exact .inr (.inr (.inl hstate))
      · exact .inr (.inr (.inl hstate))
    exact ⟨t, hexec, preselect_interval (u := levelsTaken s i) ht hstate hphase htarget⟩

end Sys2Proof.Proofs
end

