-- ==== Sys2Proof/Proofs/ShiftFills.lean ====
section
/-! SUPPORT. The marks of an upshift (R81) and an interval of FILL (R73, R74, R77). -/

namespace Sys2Proof.Proofs

open Sys2Proof Sys2Proof.Machine

/-! ## Marks (R81) -/

/-- A clutch with a mark tested: a first mark is kept. -/
def marked (m : Option Mark) (r : ClutchRec) : ClutchRec :=
  if r.adapted = false ∧ m.isSome = true then { r with adapted := true, mark := m } else r

/-- The mark an interval gives the on-coming clutches of a shift. -/
def testedMark (s : State) : Option Mark :=
  if s.shc.kind = some .up ∧ (s.shc.phase = some .fill ∨ s.shc.phase = some .torque) ∧ s.oilAdapts = true then
    markOf s (inFirstHalf s.shc)
  else none

/-- The clutch table with the marks tested. -/
def markTable (s : State) : ClutchTable ClutchRec :=
  mapOn (onComing s) (fun _ c => marked (testedMark s) c) s.shc.clutches

section
variable {s t u : State}

theorem marked_none (r : ClutchRec) : marked none r = r := if_neg (by simp)

/-- A mark tested changes the marks alone. -/
theorem marked_eq (m : Option Mark) (r : ClutchRec) :
    marked m r = { r with adapted := (marked m r).adapted, mark := (marked m r).mark } := by
  unfold marked
  split <;> rfl

theorem markClutch_eq (m : Option Mark) (s : State) (x : Clutch) :
    markClutch m s x = s.withClutch x (marked m (s.clutch x)) := by
  unfold markClutch marked
  split
  · rfl
  · exact (withClutch_same s x).symm

theorem adaptTests_eq (s : State) : adaptTests s = clutchesSet s (markTable s) := by
  have hmark (m : Option Mark) : overClutches (markClutch m) (onComing s) s =
      clutchesSet s (mapOn (onComing s) (fun _ c => marked m c) s.shc.clutches) :=
    overClutches_eq (fun _ _ => markClutch_eq m _ _) (onComing_nodup s)
  unfold adaptTests markTable testedMark
  split
  · exact hmark _
  · have hsame : mapOn (onComing s) (fun _ c => marked none c) s.shc.clutches = s.shc.clutches :=
      ClutchTable.ext_get _ _ fun x => by rw [mapOn_get, marked_none, ite_self]
    rw [hsame]
    rfl

theorem adaptTests_of_not_up (h : s.shc.kind ≠ some .up) : adaptTests s = s := if_neg fun k => h k.1

/-- The record of a clutch with the marks tested is its own but for the marks. -/
theorem markTable_get (s : State) (x : Clutch) : ∃ (a : Bool) (m : Option Mark),
    (markTable s).get x = { s.clutch x with adapted := a, mark := m } ∧
    (x ∈ onComing s → a = (marked (testedMark s) (s.clutch x)).adapted ∧
      m = (marked (testedMark s) (s.clutch x)).mark) := by
  by_cases hx : x ∈ onComing s
  · exact ⟨_, _, ((mapOn_get x).trans (if_pos hx)).trans (marked_eq _ _), fun _ => ⟨rfl, rfl⟩⟩
  · exact ⟨(s.clutch x).adapted, (s.clutch x).mark, (mapOn_get x).trans (if_neg hx), fun h => absurd h hx⟩

theorem markTable_get_of_not {x : Clutch} (hx : x ∉ onComing s) : (markTable s).get x = s.clutch x :=
  (mapOn_get x).trans (if_neg hx)

/-- What the tests of R81 make of a clutch's marks, by the speeds. -/
theorem marked_tested {g : Gear} {old : Nat} (hkind : s.shc.kind = some .up)
    (hphase : s.shc.phase = some .fill ∨ s.shc.phase = some .torque) (hcurrent : s.shc.current = some g)
    (hold : old = s.scu.motion.outRpm * s.cfg.ratioOf g / 1000) (r : ClutchRec) :
    (s.sfe.chans.oil.state = .valid ∧ 40 ≤ s.sfe.chans.oil.value →
      MarkTested s.scu.motion.inpRpm old (s.shc.phase = some .torque ∧ 2 * (s.shc.interval + 1) ≤ s.shc.torqueFixed)
        r (marked (testedMark s) r)) ∧
    (s.sfe.chans.oil.state ≠ .valid ∨ s.sfe.chans.oil.value < 40 → marked (testedMark s) r = r) := by
  have hoil : s.oilAdapts = true ↔ s.sfe.chans.oil.state = .valid ∧ 40 ≤ s.sfe.chans.oil.value := by
    simp [State.oilAdapts]
  have hhalf : inFirstHalf s.shc = true ↔ s.shc.phase = some .torque ∧ 2 * (s.shc.interval + 1) ≤ s.shc.torqueFixed := by
    unfold inFirstHalf
    rw [Bool.and_eq_true, beq_iff_eq, decide_eq_true_iff]
    exact and_congr_right fun _ => by omega
  have hmark : markOf s (inFirstHalf s.shc) = if old + 50 < s.scu.motion.inpRpm then some .flare
      else if inFirstHalf s.shc = true ∧ s.scu.motion.inpRpm + 50 < old then some .tieUp else none := by
    unfold markOf
    rw [hcurrent]
    simp only [syncSpeed, ← hold, Bool.and_eq_true, decide_eq_true_iff]
  refine ⟨fun hwarm => ?_, fun hcold => ?_⟩
  · have htested : testedMark s = markOf s (inFirstHalf s.shc) := if_pos ⟨hkind, hphase, hoil.mpr hwarm⟩
    rw [htested, hmark, ← hhalf]
    generalize s.scu.motion.inpRpm = inp
    generalize inFirstHalf s.shc = first
    refine ⟨fun hadapted => ?_, fun hfresh hflare => ?_, fun hfresh hfirst htie => ?_, fun hfresh hlow hfirst => ?_⟩
    · rw [marked, if_neg (by simp [hadapted])]
      exact ⟨hadapted, rfl⟩
    · rw [marked, if_pos ⟨hfresh, by rw [if_pos hflare]; rfl⟩, if_pos hflare]
      exact ⟨rfl, rfl⟩
    · have hnot : ¬ old + 50 < inp := by omega
      rw [if_neg hnot, if_pos ⟨hfirst, htie⟩, marked, if_pos ⟨hfresh, rfl⟩]
      exact ⟨rfl, rfl⟩
    · have hnot : ¬ (first = true ∧ inp + 50 < old) := fun ⟨hf, hlt⟩ => by
        have := hfirst hf
        omega
      rw [if_neg (not_lt.mpr hlow), if_neg hnot, marked_none]
      exact ⟨hfresh, rfl⟩
  · have hnot : ¬ s.oilAdapts = true := fun h => by
      obtain ⟨hvalid, hwarm⟩ := hoil.mp h
      exact hcold.elim (fun k => k hvalid) fun k => by omega
    have htested : testedMark s = none := if_neg fun k => hnot k.2.2
    rw [htested, marked_none]

/-! ## FILL at an interval (R73) -/

/-- The clutch table after the marks and the fills of an interval. -/
def filledTable (s : State) : ClutchTable ClutchRec := fillTable (clutchesSet s (markTable s))

/-- Fills and marks do not meet. -/
theorem fillDone_marks (c : ClutchCfg) (r : ClutchRec) (a : Bool) (m : Option Mark) :
    fillDone false c { r with adapted := a, mark := m } = { fillDone false c r with adapted := a, mark := m } := by
  by_cases hstate : r.state = .filling
  · by_cases hheld : r.fillTime ≤ r.held + 10
    · rw [fillDone_of_ended hstate hheld, fillDone_of_ended (r := { r with adapted := a, mark := m }) hstate hheld]
      rfl
    · rw [fillDone_of_going hstate (not_le.mp hheld),
        fillDone_of_going (r := { r with adapted := a, mark := m }) hstate (not_le.mp hheld)]
  · rw [fillDone_of_other hstate, fillDone_of_other (r := { r with adapted := a, mark := m }) hstate]

theorem filledTable_get (hstate : s.shc.state = .shifting) (x : Clutch) : ∃ (a : Bool) (m : Option Mark),
    (filledTable s).get x = { fillDone false (s.cfg.clutches.get x) (s.clutch x) with adapted := a, mark := m } ∧
    (x ∈ onComing s → a = (marked (testedMark s) (s.clutch x)).adapted ∧
      m = (marked (testedMark s) (s.clutch x)).mark) := by
  obtain ⟨a, m, hget, hmarks⟩ := markTable_get s x
  refine ⟨a, m, ?_, hmarks⟩
  have hlocks : locksAtOnce (clutchesSet s (markTable s)).shc = false := by simp [locksAtOnce, shc_clutchesSet, hstate]
  have hfill := fillTable_ramps (u := clutchesSet s (markTable s)) (x := x) hlocks
  rw [clutch_clutchesSet, hget, fillDone_marks] at hfill
  exact hfill

/-- All on-coming clutches of a shift have filled. -/
def fillsDone (s : State) : Prop := ∀ x ∈ onComing s, ((filledTable s).get x).state = .ramping

/-- The state at the end of an interval of FILL. -/
theorem advance_fill (hstate : s.shc.state = .shifting) (hphase : s.shc.phase = some .fill) :
    (fillsDone s → advance s = endFill (clutchesSet s (filledTable s))) ∧
    (¬ fillsDone s → advance s = clutchesSet s (filledTable s)) := by
  have hadvance : advance s = afterFills (fillStep (adaptTests s)) := by
    unfold advance
    rw [hstate, hphase]
  have hfill : fillStep (clutchesSet s (markTable s)) = clutchesSet s (filledTable s) :=
    fillStep_of_other (s := clutchesSet s (markTable s)) (by rw [shc_clutchesSet, hstate]; nofun)
  have hafter := afterFills_of_fill (s := clutchesSet s (filledTable s)) hstate hphase
  have hall : allIn (clutchesSet s (filledTable s)) .ramping (onComing (clutchesSet s (filledTable s))) = true ↔
      fillsDone s := allIn_iff
  rw [hadvance, adaptTests_eq, hfill, hafter]
  exact ⟨fun h => if_pos (hall.mpr h), fun h => if_neg fun k => h (hall.mp k)⟩

/-- The record at the start of TORQUE of an upshift (R74). -/
theorem beginTorqueUp_shc (s : State) : (beginTorqueUp s).shc = { s.shc with
    clutches := offHeld s, phase := some .torque, interval := 0, echoSeen := false
    torqueFixed := (if asksTorque s = true then 12 else 18), torqueLen := (if asksTorque s = true then 12 else 18)
    torque := (if asksTorque s = true then some s.cfg.torqueLimit else s.shc.torque) } := by
  rw [beginTorqueUp_eq]
  by_cases hasks : asksTorque s = true
  · rw [if_pos hasks, if_pos hasks, if_pos hasks, askTorque_shc]
    rfl
  · rw [if_neg hasks, if_neg hasks, if_neg hasks]
    rfl

/-- A clutch about to fall from its hold current, whose drain timer did not run, still drains at the end of the
interval. -/
theorem Finished.fallingState {v : State} (h : Finished s v t) {x : Clutch} {r : ClutchRec} {n : Nat}
    (hr : r.state ≠ .draining) (hv : v.clutch x = r.drainTo n) : (t.clutch x).state = .draining := by
  have hnotBoth : ¬ (r.state = .draining ∧ r.drain.isSome = true) := fun k => hr k.1
  have hdrain : ((v.clutch x).drain = none ∨ (v.clutch x).drain = some 0) := by
    rw [hv]
    by_cases hn : n = 0
    · exact .inr ((if_pos hn).trans (if_neg hnotBoth))
    · exact .inl (if_neg hn)
  have hdraining : (v.clutch x).state = .draining := congrArg ClutchRec.state hv
  have hcounted (q : ClutchRec) (hq : q.state = .draining) (hqd : q.drain = none ∨ q.drain = some 0) :
      (drainCounted q).state = .draining := by
    unfold drainCounted
    rcases hqd with hqd | hqd <;> rw [hqd]
    · exact hq
    · dsimp only
      rw [if_neg (by omega)]
      exact hq
  rw [h.clutch]
  unfold finishedRec
  split
  · exact hcounted _ hdraining hdrain
  · exact hdraining

theorem asksTorque_iff (s : State) : asksTorque s = true ↔ s.lc.engine.fresh = .fresh ∧ s.lc.link = .active := by
  simp [asksTorque, Peer.isFresh]

/-- An on-coming clutch at the end of an interval of FILL, whether or not FILL ends. -/
theorem advance_fill_onComing (hstate : u.shc.state = .shifting) (hphase : u.shc.phase = some .fill) {x : Clutch}
    (hx : x ∈ onComing u) : (advance u).clutch x = (filledTable u).get x := by
  obtain ⟨hdone, hgoes⟩ := advance_fill hstate hphase
  by_cases h : fillsDone u
  · rw [hdone h]
    exact endFill_of_not_offGoing (s := clutchesSet u (filledTable u)) (offGoing_of_onComing hx)
  · rw [hgoes h]
    rfl

/-- An off-going clutch that does not fill is left by the fills as it was. -/
theorem filledTable_offGoing (hstate : u.shc.state = .shifting) {x : Clutch} (hx : x ∈ offGoing u)
    (hlocked : (u.clutch x).state = .locked) : (filledTable u).get x = u.clutch x := by
  have hmark := markTable_get_of_not (onComing_of_offGoing hx)
  have hlocks : locksAtOnce (clutchesSet u (markTable u)).shc = false := by simp [locksAtOnce, shc_clutchesSet, hstate]
  have hfill := fillTable_ramps (u := clutchesSet u (markTable u)) (x := x) hlocks
  rw [clutch_clutchesSet, hmark, fillDone_of_other (by simp [hlocked])] at hfill
  exact hfill

/-- The end of FILL keeps the operation, its gears and the queue. -/
theorem endFill_shc (s : State) : (endFill s).shc.state = s.shc.state ∧ (endFill s).shc.queue = s.shc.queue ∧
    (endFill s).shc.current = s.shc.current ∧ (endFill s).shc.target = s.shc.target ∧ (endFill s).shc.interval = 0 := by
  unfold endFill
  split
  · rw [beginTorqueUp_shc]
    exact ⟨rfl, rfl, rfl, rfl, rfl⟩
  · rw [beginInertiaDown_eq]
    exact ⟨rfl, rfl, rfl, rfl, rfl⟩

theorem advance_fill_shc (hstate : u.shc.state = .shifting) (hphase : u.shc.phase = some .fill) :
    (advance u).shc.state = u.shc.state ∧ (advance u).shc.queue = u.shc.queue ∧
    (advance u).shc.current = u.shc.current ∧ (advance u).shc.target = u.shc.target := by
  obtain ⟨hdone, hgoes⟩ := advance_fill hstate hphase
  by_cases h : fillsDone u
  · rw [hdone h]
    obtain ⟨h1, h2, h3, h4, -⟩ := endFill_shc (clutchesSet u (filledTable u))
    exact ⟨h1, h2, h3, h4⟩
  · rw [hgoes h]
    exact ⟨rfl, rfl, rfl, rfl⟩

/-- FILL has ended for an upshift: TORQUE begins (R74). -/
theorem torqueUp_begins {w : State} (ht : Finished s (beginTorqueUp w) t) : t.shc.phase = some .torque ∧
    (∀ x ∈ offGoing w, (w.clutch x).state = .locked → (t.clutch x).state = .draining ∧
      (t.clutch x).command = (w.cfg.clutches.get x).hold) ∧
    (w.lc.engine.fresh = .fresh ∧ w.lc.link = .active →
      t.shc.torqueFixed = 12 ∧ t.shc.torqueLen = 12 ∧ t.shc.echoSeen = false ∧
      t.shc.torque = some w.cfg.torqueLimit) ∧
    (¬(w.lc.engine.fresh = .fresh ∧ w.lc.link = .active) →
      t.shc.torqueFixed = 18 ∧ t.shc.torqueLen = 18 ∧ t.shc.torque = w.shc.torque) := by
  obtain ⟨-, hoff, -⟩ := beginTorqueUp_spec w
  have hshc := beginTorqueUp_shc w
  have hphase := ht.phase
  have hfixed := ht.torqueFixed
  have hlen := ht.torqueLen
  have hecho := ht.echoSeen
  have htorque := ht.torque
  rw [hshc] at hphase hfixed hlen hecho htorque
  refine ⟨hphase, fun x hx hlocked => ⟨ht.fallingState (by simp [hlocked]) (hoff x hx), ?_⟩, fun hasks => ?_, fun hnot => ?_⟩
  · rw [ht.gearCommand (offGoing_gear hx), hoff x hx]
    rfl
  · rw [← asksTorque_iff] at hasks
    exact ⟨hfixed.trans (if_pos hasks), hlen.trans (if_pos hasks), hecho, htorque.trans (if_pos hasks)⟩
  · rw [← asksTorque_iff] at hnot
    exact ⟨hfixed.trans (if_neg hnot), hlen.trans (if_neg hnot), htorque.trans (if_neg hnot)⟩

/-- FILL has ended for a downshift: INERTIA begins (R77). -/
theorem inertiaDown_begins {w : State} (ht : Finished s (beginInertiaDown w) t) : t.shc.phase = some .inertia ∧
    t.shc.sync = 0 ∧ ∀ x ∈ offGoing w, (t.clutch x).state = .ramping ∧
      (t.clutch x).command = (w.cfg.clutches.get x).touch := by
  have hclutch {x : Clutch} (hx : x ∈ offGoing w) :
      (beginInertiaDown w).clutch x = (w.clutch x).ramp (w.cfg.clutches.get x).touch := by
    rw [beginInertiaDown_eq]
    exact (mapOn_get x).trans (if_pos hx)
  have hphase := ht.phase
  have hsync := ht.sync
  rw [beginInertiaDown_eq] at hphase hsync
  refine ⟨hphase, hsync, fun x hx => ?_⟩
  have hramping : ((beginInertiaDown w).clutch x).state = .ramping := congrArg ClutchRec.state (hclutch hx)
  exact ⟨(ht.still (by simp [hramping])).1.trans hramping,
    (ht.gearCommand (offGoing_gear hx)).trans (congrArg ClutchRec.value (hclutch hx))⟩

/-- An interval of FILL (R73, R74, R77). -/
theorem fill_interval (ht : Finished s (advance u) t) (hstate : u.shc.state = .shifting)
    (hphase : u.shc.phase = some .fill) : t.shc.state = .shifting ∧
    t.shc.queue = u.shc.queue ∧ t.shc.current = u.shc.current ∧ t.shc.target = u.shc.target ∧
    (∀ x ∈ onComing u,
      (FillGoesOn u x → (t.clutch x).state = .filling ∧ (t.clutch x).held = (u.clutch x).held + 10 ∧
        (t.clutch x).command = (u.clutch x).value) ∧
      (FillEnds u x → (t.clutch x).state = .ramping ∧
        (t.clutch x).command = (u.cfg.clutches.get x).touch)) ∧
    ((∃ x ∈ onComing u, FillGoesOn u x) → t.shc.phase = some .fill ∧
      ∀ x ∈ offGoing u, (u.clutch x).state = .locked →
        (t.clutch x).state = .locked ∧ (t.clutch x).command = (u.clutch x).value) ∧
    ((∀ x ∈ onComing u, (u.clutch x).state = .ramping ∨ FillEnds u x) →
      t.shc.interval = 0 ∧
      (u.shc.kind = some .up → t.shc.phase = some .torque ∧
        (∀ x ∈ offGoing u, (u.clutch x).state = .locked → (t.clutch x).state = .draining ∧
          (t.clutch x).command = (u.cfg.clutches.get x).hold) ∧
        (u.lc.engine.fresh = .fresh ∧ u.lc.link = .active →
          t.shc.torqueFixed = 12 ∧ t.shc.torqueLen = 12 ∧ t.shc.echoSeen = false ∧
          t.shc.torque = some u.cfg.torqueLimit) ∧
        (¬(u.lc.engine.fresh = .fresh ∧ u.lc.link = .active) →
          t.shc.torqueFixed = 18 ∧ t.shc.torqueLen = 18 ∧ t.shc.torque = u.shc.torque)) ∧
      (u.shc.kind = some .down → t.shc.phase = some .inertia ∧ t.shc.sync = 0 ∧
        ∀ x ∈ offGoing u, (t.clutch x).state = .ramping ∧
          (t.clutch x).command = (u.cfg.clutches.get x).touch)) := by
  obtain ⟨hvstate, hqueue, hcurrent, htarget⟩ := advance_fill_shc hstate hphase
  obtain ⟨hdone, hgoes⟩ := advance_fill hstate hphase
  have hget := filledTable_get hstate
  refine ⟨ht.state.trans (hvstate.trans hstate), ht.queue.trans hqueue, ht.current.trans hcurrent,
    ht.target.trans htarget, fun x hx => ?_, fun ⟨x, hx, hgo⟩ => ?_, fun hall => ?_⟩
  · obtain ⟨a, m, hfill, -⟩ := hget x
    have hv := (advance_fill_onComing hstate hphase hx).trans hfill
    refine ⟨fun hgo => ?_, fun hend => ?_⟩
    · obtain ⟨hfilling, hheld, hvalue⟩ := fillDone_goes (locks := false) (c := u.cfg.clutches.get x) hgo
      have hvfilling : ((advance u).clutch x).state = .filling := (congrArg ClutchRec.state hv).trans hfilling
      exact ⟨(ht.still (by simp [hvfilling])).1.trans hvfilling,
        (ht.working x).1.trans ((congrArg ClutchRec.held hv).trans hheld),
        (ht.gearCommand (onComing_gear hx)).trans ((congrArg ClutchRec.value hv).trans hvalue)⟩
    · obtain ⟨hramping, htouch⟩ := fillDone_ramps (c := u.cfg.clutches.get x) hend
      have hvramping : ((advance u).clutch x).state = .ramping := (congrArg ClutchRec.state hv).trans hramping
      exact ⟨(ht.still (by simp [hvramping])).1.trans hvramping,
        (ht.gearCommand (onComing_gear hx)).trans ((congrArg ClutchRec.value hv).trans htouch)⟩
  · have hnot : ¬ fillsDone u := fun hd => by
      obtain ⟨a, m, hfill, -⟩ := hget x
      have hramping := hd x hx
      rw [hfill, show ({ fillDone false (u.cfg.clutches.get x) (u.clutch x) with adapted := a, mark := m } : ClutchRec).state
        = .filling from (fillDone_goes hgo).1] at hramping
      cases hramping
    rw [hgoes hnot] at ht
    refine ⟨ht.phase.trans hphase, fun y hy hlocked => ?_⟩
    have hv : (clutchesSet u (filledTable u)).clutch y = u.clutch y := filledTable_offGoing hstate hy hlocked
    exact ⟨(ht.still (by simp [hv, hlocked])).1.trans (by rw [hv, hlocked]),
      (ht.gearCommand (offGoing_gear hy)).trans (congrArg ClutchRec.value hv)⟩
  · have hyes : fillsDone u := fun x hx => by
      obtain ⟨a, m, hfill, -⟩ := hget x
      rw [hfill]
      exact fillDone_ramping (hall x hx)
    rw [hdone hyes] at ht
    have hoffLocked {x : Clutch} (hx : x ∈ offGoing u) (hlocked : (u.clutch x).state = .locked) :
        ((clutchesSet u (filledTable u)).clutch x).state = .locked :=
      (congrArg ClutchRec.state (filledTable_offGoing hstate hx hlocked)).trans hlocked
    refine ⟨ht.interval.trans (endFill_shc _).2.2.2.2, fun hkind => ?_, fun hkind => ?_⟩
    · have hup : endFill (clutchesSet u (filledTable u)) = beginTorqueUp (clutchesSet u (filledTable u)) := if_pos hkind
      rw [hup] at ht
      obtain ⟨hp, hoff, hasks, hnot⟩ := torqueUp_begins ht
      exact ⟨hp, fun x hx hlocked => hoff x hx (hoffLocked hx hlocked), hasks, hnot⟩
    · have hdown : endFill (clutchesSet u (filledTable u)) = beginInertiaDown (clutchesSet u (filledTable u)) :=
        if_neg (show ¬ u.shc.kind = some .up by simp [hkind])
      rw [hdown] at ht
      exact inertiaDown_begins (w := clutchesSet u (filledTable u)) ht

end

end Sys2Proof.Proofs
end

