-- ==== Sys2Proof/Proofs/TorqueIntervals.lean ====
section
/-! SUPPORT. An interval of TORQUE (R74, R77): of an upshift, with the echo of the torque limit, and of a downshift. -/

namespace Sys2Proof.Proofs

open Sys2Proof Sys2Proof.Machine

section
variable (s : State)

/-- The echo of the torque limit has been seen, with this interval's. -/
def echoAfter : Bool := s.shc.torque.elim s.shc.echoSeen fun limit => s.shc.echoSeen || s.engineEcho == some limit

/-- The length of TORQUE with the lengthening that this interval may bring. -/
def lenAfter : Nat := s.shc.torque.elim s.shc.torqueLen fun _ =>
  if !echoAfter s && s.shc.interval + 1 == 12 then 18 else s.shc.torqueLen

/-- The echo compared at the interval that is counted. -/
def echoCompared : State := s.withShc { s.shc with
  interval := s.shc.interval + 1, echoSeen := echoAfter s, torqueLen := lenAfter s }

theorem compareEcho_eq : compareEcho (countInterval s) = echoCompared s := by
  unfold compareEcho echoCompared lenAfter echoAfter
  have htorque : (countInterval s).shc.torque = s.shc.torque := rfl
  rw [htorque]
  cases s.shc.torque with
  | none => rfl
  | some limit => rfl

/-- The swap's clutches at an interval of TORQUE: on-coming ones at `on`, off-going ones at `off`. -/
def torqueTable (on off : ClutchCfg → Nat) : ClutchTable ClutchRec :=
  mapOn (offGoing s) (fun x c => c.drainTo (off (s.cfg.clutches.get x)))
    (mapOn (onComing s) (fun x c => c.ramp (on (s.cfg.clutches.get x))) s.shc.clutches)

variable {s}

theorem torqueTable_eq (on off : ClutchCfg → Nat) :
    overClutches (torqueOff off) (offGoing s) (overClutches (torqueOn on) (onComing s) s) =
      clutchesSet s (torqueTable s on off) := by
  rw [torqueOn_eq on (onComing_nodup s)]
  exact torqueOff_eq (s := clutchesSet s (mapOn (onComing s) (fun x c => c.ramp (on (s.cfg.clutches.get x))) s.shc.clutches))
    off (offGoing_nodup s)

theorem torqueTable_onComing {on off : ClutchCfg → Nat} {x : Clutch} (hx : x ∈ onComing s) :
    (torqueTable s on off).get x = (s.clutch x).ramp (on (s.cfg.clutches.get x)) := by
  rw [torqueTable, mapOn_get, if_neg (offGoing_of_onComing hx), mapOn_get, if_pos hx]
  rfl

theorem torqueTable_offGoing {on off : ClutchCfg → Nat} {x : Clutch} (hx : x ∈ offGoing s) :
    (torqueTable s on off).get x = (s.clutch x).drainTo (off (s.cfg.clutches.get x)) := by
  rw [torqueTable, mapOn_get, if_pos hx, mapOn_get, if_neg (onComing_of_offGoing hx)]
  rfl

variable (s)

/-- The commands of an upshift's TORQUE at the interval that is counted. -/
def upValues (c : ClutchCfg) : Nat × Nat := torqueUpValues c c
  (lenAfter s != s.shc.torqueFixed && decide (12 ≤ s.shc.interval + 1)) (lenAfter s) (s.shc.interval + 1)

/-- TORQUE of an upshift one interval on. -/
def torqueUpStepped : State := (echoCompared s).withShc { (echoCompared s).shc with
  clutches := torqueTable s (fun c => (upValues s c).1) (fun c => (upValues s c).2) }

/-- TORQUE of a downshift one interval on. -/
def torqueDownStepped : State := stepSet s (torqueTable s
  (fun c => c.touch + (c.hold - c.touch) * (s.shc.interval + 1) / 8) (fun c => c.touch * (8 - (s.shc.interval + 1)) / 8))

variable {s}

theorem torqueStep_of_up (hstate : s.shc.state = .shifting) (hphase : s.shc.phase = some .torque)
    (hkind : s.shc.kind = some .up) : torqueStep s =
      if lenAfter s ≤ s.shc.interval + 1 then endTorque (torqueUpStepped s) else torqueUpStepped s := by
  have hcounted : (if (countInterval s).shc.kind = some .up then compareEcho (countInterval s) else countInterval s) =
      echoCompared s := (if_pos hkind).trans (compareEcho_eq s)
  have htable : overClutches (torqueOff fun c => (upValues s c).2) (offGoing (echoCompared s))
      (overClutches (torqueOn fun c => (upValues s c).1) (onComing (echoCompared s)) (echoCompared s)) =
      torqueUpStepped s := torqueTable_eq (s := echoCompared s) _ _
  have hover : torqueOver (torqueUpStepped s) = true ↔ lenAfter s ≤ s.shc.interval + 1 := by
    have hshc : (torqueUpStepped s).shc.state = s.shc.state ∧ (torqueUpStepped s).shc.phase = s.shc.phase ∧
        (torqueUpStepped s).shc.torqueLen = lenAfter s ∧ (torqueUpStepped s).shc.interval = s.shc.interval + 1 :=
      ⟨rfl, rfl, rfl, rfl⟩
    obtain ⟨h1, h2, h3, h4⟩ := hshc
    simp [torqueOver, h1, h2, h3, h4, hstate, hphase]
  have hkind' : (echoCompared s).shc.kind = some .up := hkind
  have hstep : torqueStep s = if torqueOver (torqueUpStepped s) = true then endTorque (torqueUpStepped s)
      else torqueUpStepped s := by
    unfold torqueStep
    dsimp only
    rw [hcounted, if_pos hkind']
    exact congrArg (fun w => if torqueOver w = true then endTorque w else w) htable
  rw [hstep]
  exact if_congr hover rfl rfl

theorem torqueStep_of_down (hstate : s.shc.state = .shifting) (hphase : s.shc.phase = some .torque)
    (hkind : s.shc.kind ≠ some .up) : torqueStep s =
      if s.shc.torqueLen ≤ s.shc.interval + 1 then endTorque (torqueDownStepped s) else torqueDownStepped s := by
  have hcounted : (if (countInterval s).shc.kind = some .up then compareEcho (countInterval s) else countInterval s) =
      countInterval s := if_neg hkind
  have htable : overClutches (torqueOff fun c => c.touch * (8 - (s.shc.interval + 1)) / 8) (offGoing (countInterval s))
      (overClutches (torqueOn fun c => c.touch + (c.hold - c.touch) * (s.shc.interval + 1) / 8)
        (onComing (countInterval s)) (countInterval s)) = torqueDownStepped s := torqueTable_eq (s := countInterval s) _ _
  have hover : torqueOver (torqueDownStepped s) = true ↔ s.shc.torqueLen ≤ s.shc.interval + 1 := by
    have hshc : (torqueDownStepped s).shc.state = s.shc.state ∧ (torqueDownStepped s).shc.phase = s.shc.phase ∧
        (torqueDownStepped s).shc.torqueLen = s.shc.torqueLen ∧
        (torqueDownStepped s).shc.interval = s.shc.interval + 1 := ⟨rfl, rfl, rfl, rfl⟩
    obtain ⟨h1, h2, h3, h4⟩ := hshc
    simp [torqueOver, h1, h2, h3, h4, hstate, hphase]
  have hkind' : ¬ (countInterval s).shc.kind = some .up := hkind
  have hstep : torqueStep s = if torqueOver (torqueDownStepped s) = true then endTorque (torqueDownStepped s)
      else torqueDownStepped s := by
    unfold torqueStep
    dsimp only
    rw [hcounted, if_neg hkind']
    exact congrArg (fun w => if torqueOver w = true then endTorque w else w) htable
  rw [hstep]
  exact if_congr hover rfl rfl

theorem advance_torque (hstate : s.shc.state = .shifting) (hphase : s.shc.phase = some .torque) :
    advance s = torqueStep (clutchesSet s (markTable s)) := by
  rw [← adaptTests_eq]
  unfold advance
  rw [hstate, hphase]

/-! ## The echo (R74) -/

/-- Without a lengthening TORQUE keeps its length. -/
theorem lenAfter_of_kept (h : s.shc.torque = none ∨ s.shc.echoSeen = true ∨ s.engineEcho = s.shc.torque ∨
    s.shc.interval + 1 ≠ 12) : lenAfter s = s.shc.torqueLen := by
  unfold lenAfter echoAfter
  cases htorque : s.shc.torque with
  | none => rfl
  | some limit =>
    rw [htorque] at h
    refine if_neg ?_
    rcases h with h | h | h | h
    · cases h
    · simp [h]
    · simp [h]
    · rw [beq_false_of_ne h, Bool.and_false]
      exact Bool.false_ne_true

/-- The twelfth interval without an echo lengthens TORQUE to 18. -/
theorem lenAfter_of_lengthened {limit : Nat} (htorque : s.shc.torque = some limit) (hseen : s.shc.echoSeen = false)
    (hecho : s.engineEcho ≠ some limit) (hinterval : s.shc.interval + 1 = 12) : lenAfter s = 18 := by
  unfold lenAfter echoAfter
  rw [htorque]
  exact if_pos (by simp [hseen, hecho, hinterval])

theorem echoAfter_iff {limit : Nat} (htorque : s.shc.torque = some limit) :
    echoAfter s = true ↔ s.shc.echoSeen = true ∨ s.engineEcho = some limit := by
  unfold echoAfter
  rw [htorque]
  simp

/-- The values of an upshift's TORQUE that has not been lengthened. -/
theorem upValues_of_short {n : Nat} (hfixed : s.shc.torqueFixed = n) (hlen : lenAfter s = n) (c : ClutchCfg) :
    upValues s c = (c.touch + (c.take - c.touch) * (s.shc.interval + 1) / n,
      c.hold * (n - (s.shc.interval + 1)) / n) := by
  unfold upValues torqueUpValues
  rw [hfixed, hlen]
  simp

/-- The values of a lengthened TORQUE from its twelfth interval on. -/
theorem upValues_of_long (hfixed : s.shc.torqueFixed = 12) (hlen : lenAfter s = 18) (hinterval : 12 ≤ s.shc.interval + 1)
    (c : ClutchCfg) : upValues s c = (c.touch + (c.take - c.touch) * 11 / 12 +
        (c.take - (c.touch + (c.take - c.touch) * 11 / 12)) * (s.shc.interval + 1 - 11) / 7,
      c.hold * 1 / 12 * (18 - (s.shc.interval + 1)) / 7) := by
  unfold upValues torqueUpValues
  rw [hfixed, hlen, if_pos (by simp [hinterval])]
  rfl

end

/-! ## TORQUE of an upshift at an interval (R74) -/

section
variable {s t u : State}

/-- A clutch left with a record that does not drain keeps its state and value. -/
theorem Finished.stillAs {v : State} (h : Finished s v t) {x : Clutch} {r : ClutchRec} (hv : v.clutch x = r)
    (hr : r.state ≠ .draining) : (t.clutch x).state = r.state ∧ (t.clutch x).value = r.value :=
  hv ▸ h.still (hv ▸ hr)

/-- What an interval of an upshift's TORQUE leaves, by the length of TORQUE and the values it then has. -/
structure TorqueUp (u t : State) : Prop where
  torque : t.shc.torque = u.shc.torque
  state : t.shc.state = .shifting
  queue : t.shc.queue = u.shc.queue
  current : t.shc.current = u.shc.current
  echo : t.shc.echoSeen = echoAfter u
  len : t.shc.torqueLen = lenAfter u
  onComing : ∀ x ∈ onComing u, (t.clutch x).state = .ramping ∧ (t.clutch x).command = (upValues u (u.cfg.clutches.get x)).1
  offGoing : ∀ x ∈ offGoing u, (t.clutch x).command =
    if lenAfter u ≤ u.shc.interval + 1 then 0 else (upValues u (u.cfg.clutches.get x)).2
  goes : u.shc.interval + 1 < lenAfter u → t.shc.phase = some .torque ∧ t.shc.interval = u.shc.interval + 1
  ends : lenAfter u ≤ u.shc.interval + 1 → t.shc.phase = some .inertia

/-- An interval of an upshift's TORQUE, from a state with the marks tested. -/
theorem torqueUp_interval {w : State} (ht : Finished s (torqueStep w) t) (hstate : w.shc.state = .shifting)
    (hphase : w.shc.phase = some .torque) (hkind : w.shc.kind = some .up) : TorqueUp w t := by
  have hstep := torqueStep_of_up hstate hphase hkind
  have hon {x : Clutch} (hx : x ∈ onComing w) :
      (torqueUpStepped w).clutch x = (w.clutch x).ramp (upValues w (w.cfg.clutches.get x)).1 :=
    torqueTable_onComing (on := fun c => (upValues w c).1) hx
  have hoff {x : Clutch} (hx : x ∈ offGoing w) :
      (torqueUpStepped w).clutch x = (w.clutch x).drainTo (upValues w (w.cfg.clutches.get x)).2 :=
    torqueTable_offGoing (off := fun c => (upValues w c).2) hx
  by_cases hover : lenAfter w ≤ w.shc.interval + 1
  · rw [hstep, if_pos hover, endTorque_of_up (s := torqueUpStepped w) hkind] at ht
    have hvon {x : Clutch} (hx : x ∈ onComing w) : (offDrained (torqueUpStepped w)).get x =
        (w.clutch x).ramp (upValues w (w.cfg.clutches.get x)).1 :=
      (offDrained_get_onComing (s := torqueUpStepped w) hx).trans (hon hx)
    have hvoff {x : Clutch} (hx : x ∈ offGoing w) : (offDrained (torqueUpStepped w)).get x =
        ((torqueUpStepped w).clutch x).drainTo 0 := offDrained_get (s := torqueUpStepped w) hx
    refine ⟨ht.torque, ht.state.trans hstate, ht.queue, ht.current, ht.echoSeen, ht.torqueLen, fun x hx => ⟨?_, ?_⟩,
      fun x hx => ?_, fun hlt => absurd hlt (not_lt.mpr hover), fun _ => ht.phase⟩
    · exact (ht.stillAs (hvon hx) nofun).1
    · exact (ht.gearCommand (onComing_gear hx)).trans (congrArg ClutchRec.value (hvon hx))
    · rw [if_pos hover]
      exact (ht.gearCommand (offGoing_gear hx)).trans (congrArg ClutchRec.value (hvoff hx))
  · rw [hstep, if_neg hover] at ht
    refine ⟨ht.torque, ht.state.trans hstate, ht.queue, ht.current, ht.echoSeen, ht.torqueLen, fun x hx => ⟨?_, ?_⟩,
      fun x hx => ?_, fun _ => ⟨ht.phase.trans hphase, ht.interval⟩, fun hge => absurd hge hover⟩
    · exact (ht.stillAs (hon hx) nofun).1
    · exact (ht.gearCommand (onComing_gear hx)).trans (congrArg ClutchRec.value (hon hx))
    · rw [if_neg hover]
      exact (ht.gearCommand (offGoing_gear hx)).trans (congrArg ClutchRec.value (hoff hx))

theorem torqueUp_of_steady (ht : Finished s (advance u) t) (hstate : u.shc.state = .shifting)
    (hphase : u.shc.phase = some .torque) (hkind : u.shc.kind = some .up) : TorqueUp u t := by
  rw [advance_torque hstate hphase] at ht
  obtain ⟨h1, h2, h3, h4, h5, h6, h7, h8, h9, h10⟩ :=
    torqueUp_interval (w := clutchesSet u (markTable u)) ht hstate hphase hkind
  exact ⟨h1, h2, h3, h4, h5, h6, h7, h8, h9, h10⟩

/-- The clause on TORQUE of an upshift. -/
theorem torqueUp_clause (h : TorqueUp u t) : t.shc.torque = u.shc.torque ∧
    t.shc.state = .shifting ∧ t.shc.queue = u.shc.queue ∧
    (∀ limit : Nat, u.shc.torque = some limit →
      (t.shc.echoSeen = true ↔ u.shc.echoSeen = true ∨ u.engineEcho = some limit)) ∧
    ∀ j : Nat, j = u.shc.interval + 1 →
      (∀ n : Nat, u.shc.torqueFixed = n → u.shc.torqueLen = n → n = 12 ∨ n = 18 → j ≤ n →
        (u.shc.torque = none ∨ u.shc.echoSeen = true ∨ u.engineEcho = u.shc.torque ∨ j < 12) →
        (∀ x ∈ onComing u, ∀ k : ClutchCfg, k = u.cfg.clutches.get x →
          (t.clutch x).command = k.touch + (k.take - k.touch) * j / n ∧
          (t.clutch x).state = .ramping) ∧
        (∀ x ∈ offGoing u, (t.clutch x).command = (u.cfg.clutches.get x).hold * (n - j) / n) ∧
        (j < n → t.shc.phase = some .torque ∧ t.shc.interval = j) ∧
        (j = n → t.shc.phase = some .inertia)) ∧
      (∀ limit : Nat, u.shc.torqueFixed = 12 → u.shc.torqueLen = 12 → j = 12 →
        u.shc.torque = some limit → u.shc.echoSeen = false → u.engineEcho ≠ some limit →
        t.shc.torqueLen = 18 ∧ t.shc.phase = some .torque ∧
        (∀ x ∈ onComing u, ∀ (k : ClutchCfg) (on : Nat), k = u.cfg.clutches.get x →
          on = k.touch + (k.take - k.touch) * 11 / 12 →
          (t.clutch x).command = on + (k.take - on) / 7) ∧
        (∀ x ∈ offGoing u, (t.clutch x).command =
          (u.cfg.clutches.get x).hold * 1 / 12 * 6 / 7)) ∧
      (u.shc.torqueFixed = 12 → u.shc.torqueLen = 18 → 12 < j → j ≤ 18 →
        (∀ x ∈ onComing u, ∀ (k : ClutchCfg) (on : Nat), k = u.cfg.clutches.get x →
          on = k.touch + (k.take - k.touch) * 11 / 12 →
          (t.clutch x).command = on + (k.take - on) * (j - 11) / 7 ∧
          (t.clutch x).state = .ramping) ∧
        (∀ x ∈ offGoing u, (t.clutch x).command =
          (u.cfg.clutches.get x).hold * 1 / 12 * (18 - j) / 7) ∧
        (j < 18 → t.shc.phase = some .torque ∧ t.shc.interval = j ∧ t.shc.torqueLen = 18) ∧
        (j = 18 → t.shc.phase = some .inertia)) := by
  refine ⟨h.torque, h.state, h.queue, fun limit htorque => by rw [h.echo, echoAfter_iff htorque], fun j hj => ?_⟩
  subst hj
  refine ⟨fun n hfixed hlen hn hj hkept => ?_, fun limit hfixed hlen hj htorque hseen hecho => ?_,
    fun hfixed hlen hlow hhigh => ?_⟩
  · have hafter : lenAfter u = n := (lenAfter_of_kept (by
      rcases hkept with h | h | h | h
      · exact .inl h
      · exact .inr (.inl h)
      · exact .inr (.inr (.inl h))
      · exact .inr (.inr (.inr (by omega))))).trans hlen
    have hvalues := upValues_of_short hfixed hafter
    have hgoes := h.goes
    have hends := h.ends
    rw [hafter] at hgoes hends
    refine ⟨fun x hx k hk => ?_, fun x hx => ?_, hgoes, fun heq => hends heq.ge⟩
    · obtain ⟨hramping, hcommand⟩ := h.onComing x hx
      rw [hvalues] at hcommand
      subst hk
      exact ⟨hcommand, hramping⟩
    · rw [h.offGoing x hx, hafter, hvalues]
      split
      next hge =>
        have heq : u.shc.interval + 1 = n := by omega
        rw [heq, Nat.sub_self, Nat.mul_zero, Nat.zero_div]
      next => rfl
  · have hafter := lenAfter_of_lengthened htorque hseen hecho hj
    have hvalues := upValues_of_long hfixed hafter (by omega)
    refine ⟨h.len.trans hafter, (h.goes (by omega)).1, fun x hx k on hk hon => ?_, fun x hx => ?_⟩
    · rw [(h.onComing x hx).2, hvalues, hj]
      subst hk hon
      dsimp only
      rw [Nat.mul_one]
    · rw [h.offGoing x hx, if_neg (by omega), hvalues, hj]
  · have hafter : lenAfter u = 18 := (lenAfter_of_kept (.inr (.inr (.inr (by omega))))).trans hlen
    have hvalues := upValues_of_long hfixed hafter (by omega)
    have hgoes := h.goes
    have hends := h.ends
    rw [hafter] at hgoes hends
    refine ⟨fun x hx k on hk hon => ?_, fun x hx => ?_, fun hlt => ?_, fun heq => hends heq.ge⟩
    · obtain ⟨hramping, hcommand⟩ := h.onComing x hx
      rw [hvalues] at hcommand
      subst hk hon
      exact ⟨hcommand, hramping⟩
    · rw [h.offGoing x hx, hafter, hvalues]
      split
      next hge =>
        have heq : u.shc.interval + 1 = 18 := by omega
        rw [heq, Nat.sub_self, Nat.mul_zero, Nat.zero_div]
      next => rfl
    · obtain ⟨hp, hi⟩ := hgoes hlt
      exact ⟨hp, hi, h.len.trans hafter⟩

/-! ## TORQUE of a downshift at an interval (R77) -/

theorem torqueDown_interval (ht : Finished s (advance u) t) (hstate : u.shc.state = .shifting)
    (hphase : u.shc.phase = some .torque) (hkind : u.shc.kind = some .down) (hlen : u.shc.torqueLen = 8) {j : Nat}
    (hj : j = u.shc.interval + 1) (hj8 : j ≤ 8) : t.shc.state = .shifting ∧
    (∀ x ∈ onComing u, ∀ k : ClutchCfg, k = u.cfg.clutches.get x →
      (j < 8 → (t.clutch x).state = .ramping ∧
        (t.clutch x).command = k.touch + (k.hold - k.touch) * j / 8) ∧
      (j = 8 → (t.clutch x).state = .locked ∧ (t.clutch x).command = k.hold)) ∧
    (∀ x ∈ offGoing u,
      (t.clutch x).command = (u.cfg.clutches.get x).touch * (8 - j) / 8 ∧
      ((s.clutch x).drain = none → (t.clutch x).state = .draining)) ∧
    (j < 8 → t.shc.phase = some .torque ∧ t.shc.interval = j) ∧
    (j = 8 → t.shc.phase = some .lockup) := by
  subst hj
  have hnot : u.shc.kind ≠ some .up := by simp [hkind]
  have hmarks : adaptTests u = u := adaptTests_of_not_up hnot
  rw [advance_torque hstate hphase, ← adaptTests_eq, hmarks, torqueStep_of_down hstate hphase hnot, hlen] at ht
  have hon {x : Clutch} (hx : x ∈ onComing u) : (torqueDownStepped u).clutch x = (u.clutch x).ramp
      ((u.cfg.clutches.get x).touch + ((u.cfg.clutches.get x).hold - (u.cfg.clutches.get x).touch) *
        (u.shc.interval + 1) / 8) :=
    torqueTable_onComing (on := fun c => c.touch + (c.hold - c.touch) * (u.shc.interval + 1) / 8) hx
  have hoff {x : Clutch} (hx : x ∈ offGoing u) : (torqueDownStepped u).clutch x =
      (u.clutch x).drainTo ((u.cfg.clutches.get x).touch * (8 - (u.shc.interval + 1)) / 8) :=
    torqueTable_offGoing (off := fun c => c.touch * (8 - (u.shc.interval + 1)) / 8) hx
  by_cases hover : 8 ≤ u.shc.interval + 1
  · have hlast : u.shc.interval + 1 = 8 := by omega
    rw [if_pos hover, endTorque_of_down (s := torqueDownStepped u) hnot] at ht
    have hvon {x : Clutch} (hx : x ∈ onComing u) : (onLocked (torqueDownStepped u) (offDrained (torqueDownStepped u))).get x =
        ((offDrained (torqueDownStepped u)).get x).lock (u.cfg.clutches.get x).hold :=
      onLocked_get (s := torqueDownStepped u) hx _
    have hvoff {x : Clutch} (hx : x ∈ offGoing u) :
        (onLocked (torqueDownStepped u) (offDrained (torqueDownStepped u))).get x =
          ((torqueDownStepped u).clutch x).drainTo 0 :=
      (onLocked_get_of_not (s := torqueDownStepped u) (onComing_of_offGoing hx) _).trans
        (offDrained_get (s := torqueDownStepped u) hx)
    refine ⟨ht.state.trans hstate, fun x hx k hk => ⟨fun hlt => absurd hlt (not_lt.mpr hover), fun _ => ?_⟩, fun x hx => ⟨?_, fun hdrain => ?_⟩,
      fun hlt => absurd hlt (not_lt.mpr hover), fun _ => ht.phase⟩
    · exact ⟨(ht.stillAs (hvon hx) nofun).1,
        (ht.gearCommand (onComing_gear hx)).trans ((congrArg ClutchRec.value (hvon hx)).trans (by rw [hk]; rfl))⟩
    · rw [hlast, Nat.sub_self, Nat.mul_zero, Nat.zero_div]
      exact (ht.gearCommand (offGoing_gear hx)).trans (congrArg ClutchRec.value (hvoff hx))
    · exact (ht.untimed hdrain).1.trans (congrArg ClutchRec.state (hvoff hx))
  · rw [if_neg hover] at ht
    refine ⟨ht.state.trans hstate, fun x hx k hk => ⟨fun _ => ?_, fun heq => absurd heq.ge hover⟩,
      fun x hx => ⟨?_, fun hdrain => ?_⟩, fun _ => ⟨ht.phase.trans hphase, ht.interval⟩, fun heq => absurd heq.ge hover⟩
    · exact ⟨(ht.stillAs (hon hx) nofun).1,
        (ht.gearCommand (onComing_gear hx)).trans ((congrArg ClutchRec.value (hon hx)).trans (by rw [hk]; rfl))⟩
    · exact (ht.gearCommand (offGoing_gear hx)).trans (congrArg ClutchRec.value (hoff hx))
    · exact (ht.untimed hdrain).1.trans (congrArg ClutchRec.state (hoff hx))

end

end Sys2Proof.Proofs
end

