-- ==== Sys2Proof/Proofs/InertiaIntervals.lean ====
section
/-! SUPPORT. The marks an interval of FILL or TORQUE gives (R81), and an interval of INERTIA (R75, R77, R79) and of LOCKUP
(R76). -/

namespace Sys2Proof.Proofs

open Sys2Proof Sys2Proof.Machine

section
variable {s t u : State}

/-! ## Marks at an interval (R81) -/

/-- At an interval of FILL or TORQUE of an upshift each on-coming clutch has the marks the tests give it. -/
theorem advance_marks (hstate : u.shc.state = .shifting) (hphase : u.shc.phase = some .fill ∨ u.shc.phase = some .torque)
    (hkind : u.shc.kind = some .up) {x : Clutch} (hx : x ∈ onComing u) :
    ((advance u).clutch x).adapted = (marked (testedMark u) (u.clutch x)).adapted ∧
      ((advance u).clutch x).mark = (marked (testedMark u) (u.clutch x)).mark := by
  rcases hphase with hphase | hphase
  · obtain ⟨a, m, hget, hmarks⟩ := filledTable_get hstate x
    obtain ⟨ha, hm⟩ := hmarks hx
    rw [advance_fill_onComing hstate hphase hx, hget, ← ha, ← hm]
    exact ⟨rfl, rfl⟩
  · obtain ⟨a, m, hget, hmarks⟩ := markTable_get u x
    obtain ⟨ha, hm⟩ := hmarks hx
    have hstep := torqueStep_of_up (s := clutchesSet u (markTable u)) hstate hphase hkind
    have hon : (torqueUpStepped (clutchesSet u (markTable u))).clutch x =
        ((markTable u).get x).ramp (upValues u (u.cfg.clutches.get x)).1 :=
      torqueTable_onComing (s := clutchesSet u (markTable u)) (on := fun c => (upValues u c).1) hx
    have hv : (advance u).clutch x = ((markTable u).get x).ramp (upValues u (u.cfg.clutches.get x)).1 := by
      rw [advance_torque hstate hphase, hstep]
      split
      · rw [endTorque_of_up (s := torqueUpStepped (clutchesSet u (markTable u))) hkind]
        exact (offDrained_get_onComing (s := torqueUpStepped (clutchesSet u (markTable u))) hx).trans hon
      · exact hon
    rw [hv, hget, ← ha, ← hm]
    exact ⟨rfl, rfl⟩

/-- The marks an interval leaves. -/
theorem marks_clause {g : Gear} {old : Nat} (ht : Finished s (advance u) t) (hstate : u.shc.state = .shifting)
    (hphase : u.shc.phase = some .fill ∨ u.shc.phase = some .torque) (hkind : u.shc.kind = some .up)
    (hcurrent : u.shc.current = some g) (hold : old = u.scu.motion.outRpm * u.cfg.ratioOf g / 1000) {x : Clutch}
    (hx : x ∈ onComing u) :
    (u.sfe.chans.oil.state = .valid ∧ 40 ≤ u.sfe.chans.oil.value →
      MarkTested u.scu.motion.inpRpm old
        (u.shc.phase = some .torque ∧ 2 * (u.shc.interval + 1) ≤ u.shc.torqueFixed) (u.clutch x) (t.clutch x)) ∧
    (u.sfe.chans.oil.state ≠ .valid ∨ u.sfe.chans.oil.value < 40 →
      (t.clutch x).adapted = (u.clutch x).adapted ∧ (t.clutch x).mark = (u.clutch x).mark) := by
  obtain ⟨hadapted, hmark⟩ := advance_marks hstate hphase hkind hx
  obtain ⟨-, hadapted', hmark', -⟩ := ht.working x
  rw [hadapted] at hadapted'
  rw [hmark] at hmark'
  obtain ⟨hwarm, hcold⟩ := marked_tested hkind hphase hcurrent hold (u.clutch x)
  refine ⟨fun hoil => ?_, fun hoil => ?_⟩
  · obtain ⟨hkept, hflare, htie, hunmarked⟩ := hwarm hoil
    refine ⟨?_, ?_, ?_, ?_⟩ <;> rw [hadapted', hmark']
    · exact hkept
    · exact hflare
    · exact htie
    · exact hunmarked
  · rw [hadapted', hmark', hcold hoil]
    exact ⟨rfl, rfl⟩

/-! ## LOCKUP (R76) -/

theorem advance_lockup (hstate : u.shc.state = .shifting) (hphase : u.shc.phase = some .lockup) :
    advance u = finishShift u := by
  unfold advance
  rw [hstate, hphase]

theorem finishShift_shc (hidle : u.shc.pendingShuttle = false) : (finishShift u).shc = { u.shc with
    current := u.shc.target, state := .inGear, phase := none, kind := none, target := none, shiftOrigin := none
    interval := 0 } :=
  arriveInGear_shc (s := u.withShc { u.shc with current := u.shc.target }) hidle

theorem lockup_interval (ht : Finished s (advance u) t) (hstate : u.shc.state = .shifting)
    (hphase : u.shc.phase = some .lockup) (hidle : u.shc.pendingShuttle = false) : t.shc.state = .inGear ∧
    t.shc.current = u.shc.target ∧ t.shc.target = none ∧ t.shc.phase = none ∧ t.shc.kind = none ∧
    t.shc.queue = u.shc.queue := by
  have hshc := finishShift_shc hidle
  rw [advance_lockup hstate hphase] at ht
  refine ⟨?_, ?_, ?_, ?_, ?_, ?_⟩
  · rw [ht.state, hshc]
  · rw [ht.current, hshc]
  · rw [ht.target, hshc]
  · rw [ht.phase, hshc]
  · rw [ht.kind, hshc]
  · rw [ht.queue, hshc]

/-! ## INERTIA (R75, R77, R79) -/

/-- The clutch table at an interval of INERTIA: on-coming clutches of an upshift rise by 15 mA. -/
def inertiaTable (u : State) : ClutchTable ClutchRec :=
  if u.shc.kind = some .up then mapOn (onComing u)
    (fun x c => c.ramp (min (u.cfg.clutches.get x).hold (c.value + 15))) u.shc.clutches
  else u.shc.clutches

/-- The count of intervals in sync. -/
def syncAfter (u : State) : Nat := if inSync u then u.shc.sync + 1 else 0

/-- INERTIA one interval on. -/
def inertiaStepped (u : State) : State := (stepSet u (inertiaTable u)).withShc { (stepSet u (inertiaTable u)).shc with
  sync := syncAfter u }

theorem inertiaStepped_shc (u : State) : (inertiaStepped u).shc = { u.shc with
    clutches := inertiaTable u, interval := u.shc.interval + 1, sync := syncAfter u } := rfl

/-- An interval of INERTIA ends in sync, times out, or goes on. -/
theorem advance_inertia (hstate : u.shc.state = .shifting) (hphase : u.shc.phase = some .inertia) :
    (3 ≤ syncAfter u → advance u = syncPoint (inertiaStepped u)) ∧
    (syncAfter u < 3 → 150 ≤ u.shc.interval + 1 → advance u = timeOutShift (inertiaStepped u)) ∧
    (syncAfter u < 3 → u.shc.interval + 1 < 150 → advance u = inertiaStepped u) := by
  have hadvance : advance u = inertiaStep u := by
    unfold advance
    rw [hstate, hphase]
  have hrisen : (if (countInterval u).shc.kind = some .up then overClutches (fun s x => s.withClutch x
      ((s.clutch x).ramp (min (s.clutchCfg x).hold ((s.clutch x).value + 15)))) (onComing (countInterval u))
      (countInterval u) else countInterval u) = stepSet u (inertiaTable u) := by
    have hkind : (countInterval u).shc.kind = u.shc.kind := rfl
    unfold inertiaTable
    rw [hkind]
    by_cases hup : u.shc.kind = some .up
    · rw [if_pos hup, if_pos hup]
      exact overClutches_counted u (f := fun s x => s.withClutch x
        ((s.clutch x).ramp (min (s.clutchCfg x).hold ((s.clutch x).value + 15))))
        (r := fun x c => c.ramp (min (u.cfg.clutches.get x).hold (c.value + 15))) (onComing_nodup u) fun _ _ => rfl
    · rw [if_neg hup, if_neg hup]
      exact countInterval_eq u
  have hstep : inertiaStep u = if syncDue (inertiaStepped u) = true then syncPoint (inertiaStepped u)
      else if timeoutDue (inertiaStepped u) = true then timeOutShift (inertiaStepped u) else inertiaStepped u := by
    have hsync : (stepSet u (inertiaTable u)).withShc { (stepSet u (inertiaTable u)).shc with
        sync := if inSync (stepSet u (inertiaTable u)) then (stepSet u (inertiaTable u)).shc.sync + 1 else 0 } =
        inertiaStepped u := rfl
    rw [← hsync]
    unfold inertiaStep
    dsimp only
    rw [hrisen]
  have hdue : syncDue (inertiaStepped u) = decide (3 ≤ syncAfter u) := by
    unfold syncDue
    rw [inertiaStepped_shc, hstate, hphase]
    rfl
  have htimeout : timeoutDue (inertiaStepped u) = (decide (syncAfter u < 3) && decide (150 ≤ u.shc.interval + 1)) := by
    unfold timeoutDue
    rw [inertiaStepped_shc, hstate, hphase]
    rfl
  rw [hadvance, hstep, hdue, htimeout]
  refine ⟨fun h => if_pos (decide_eq_true h), fun h h150 => ?_, fun h h150 => ?_⟩
  · rw [if_neg (by simpa using h), if_pos (by simp [h, h150])]
  · rw [if_neg (by simpa using h), if_neg (by
      rw [Bool.and_eq_true, decide_eq_true_iff, decide_eq_true_iff]
      omega)]

theorem inertiaTable_onComing {x : Clutch} (hkind : u.shc.kind = some .up) (hx : x ∈ onComing u) :
    (inertiaStepped u).clutch x = (u.clutch x).ramp (min (u.cfg.clutches.get x).hold ((u.clutch x).value + 15)) := by
  change (inertiaTable u).get x = _
  unfold inertiaTable
  rw [if_pos hkind, mapOn_get, if_pos hx]
  rfl

theorem inertiaTable_of_not_up {x : Clutch} (hkind : u.shc.kind ≠ some .up) :
    (inertiaStepped u).clutch x = u.clutch x := by
  change (inertiaTable u).get x = _
  unfold inertiaTable
  rw [if_neg hkind]
  rfl

/-- INERTIA goes on. -/
theorem inertia_goes (ht : Finished s (inertiaStepped u) t) (hphase : u.shc.phase = some .inertia) :
    t.shc.phase = some .inertia ∧ t.shc.interval = u.shc.interval + 1 ∧ t.shc.sync = syncAfter u ∧
    t.shc.torque = u.shc.torque ∧
    (u.shc.kind = some .up → ∀ x ∈ onComing u, (t.clutch x).state = .ramping ∧
      (t.clutch x).command = min (u.cfg.clutches.get x).hold ((u.clutch x).value + 15)) ∧
    (u.shc.kind = some .down → ∀ x ∈ onComing u, (u.clutch x).state = .ramping →
      (t.clutch x).state = .ramping ∧ (t.clutch x).command = (u.clutch x).value) := by
  refine ⟨ht.phase.trans hphase, ht.interval, ht.sync, ht.torque, fun hkind x hx => ?_, fun hkind x hx hramping => ?_⟩
  · have hv := inertiaTable_onComing hkind hx
    exact ⟨(ht.stillAs hv nofun).1, (ht.gearCommand (onComing_gear hx)).trans (congrArg ClutchRec.value hv)⟩
  · have hv := inertiaTable_of_not_up (u := u) (x := x) (by simp [hkind])
    exact ⟨(ht.stillAs hv (by simp [hramping])).1.trans hramping,
      (ht.gearCommand (onComing_gear hx)).trans (congrArg ClutchRec.value hv)⟩

/-- INERTIA ends in sync for an upshift. -/
theorem inertia_syncs_up (ht : Finished s (syncPoint (inertiaStepped u)) t) (hkind : u.shc.kind = some .up) :
    t.shc.phase = some .lockup ∧ t.shc.torque = none ∧ ∀ x ∈ onComing u, (t.clutch x).state = .locked ∧
      (t.clutch x).command = (u.cfg.clutches.get x).hold := by
  have hup : syncPoint (inertiaStepped u) = beginLockupUp (inertiaStepped u) := if_pos hkind
  have hshc := beginLockupUp_shc (inertiaStepped u)
  rw [hup] at ht
  refine ⟨by rw [ht.phase, hshc], by rw [ht.torque, hshc], fun x hx => ?_⟩
  have hv : (beginLockupUp (inertiaStepped u)).clutch x = corrected (u.cfg.clutches.get x)
      (((inertiaStepped u).clutch x).lock (u.cfg.clutches.get x).hold) := by
    rw [State.clutch, hshc]
    exact lockupTable_get (s := inertiaStepped u) hx
  obtain ⟨hlocked, hvalue, -⟩ := corrected_spec (u.cfg.clutches.get x)
    (((inertiaStepped u).clutch x).lock (u.cfg.clutches.get x).hold)
  exact ⟨(ht.stillAs hv (by rw [hlocked]; nofun)).1.trans hlocked,
    (ht.gearCommand (onComing_gear hx)).trans ((congrArg ClutchRec.value hv).trans hvalue)⟩

/-- INERTIA ends in sync for a downshift. -/
theorem inertia_syncs_down (ht : Finished s (syncPoint (inertiaStepped u)) t) (hkind : u.shc.kind = some .down) :
    t.shc.phase = some .torque ∧ t.shc.torqueLen = 8 ∧ t.shc.interval = 0 ∧
    ∀ x ∈ offGoing u, (t.clutch x).command = (u.cfg.clutches.get x).touch := by
  have hdown : syncPoint (inertiaStepped u) = beginTorqueDown (inertiaStepped u) :=
    if_neg (show ¬ u.shc.kind = some .up by simp [hkind])
  rw [hdown, beginTorqueDown_eq] at ht
  refine ⟨ht.phase, ht.torqueLen, ht.interval, fun x hx => ?_⟩
  have hv : (mapOn (offGoing u) (fun x c => c.drainTo (u.cfg.clutches.get x).touch) (inertiaStepped u).shc.clutches).get x =
      ((inertiaStepped u).clutch x).drainTo (u.cfg.clutches.get x).touch := (mapOn_get x).trans (if_pos hx)
  exact (ht.gearCommand (offGoing_gear hx)).trans (congrArg ClutchRec.value hv)

/-- INERTIA times out. -/
theorem inertia_times_out (ht : Finished s (timeOutShift (inertiaStepped u)) t) : t.shc.phase = some .abort ∧
    t.shc.queue = [] ∧ t.shc.torque = none ∧
    t.mc = (clearFault .shiftTimeout (raiseLatched .shiftTimeout u)).mc := by
  have hshc := beginAbort_shc (shiftFlushed (inertiaStepped u))
  rw [← timeOutShift_eq] at hshc
  refine ⟨by rw [ht.phase, hshc], by rw [ht.queue, hshc]; rfl, by rw [ht.torque, hshc], ?_⟩
  rw [ht.touches .mc (by decide), timeOutShift_mc]
  exact clearFault_mc_congr _ (raiseLatched_mc_congr _ rfl)

/-- Of the operation INERTIA keeps the shift and its current gear. -/
theorem advance_inertia_shc (hstate : u.shc.state = .shifting) (hphase : u.shc.phase = some .inertia) :
    (advance u).shc.state = .shifting ∧ (advance u).shc.current = u.shc.current := by
  obtain ⟨hsync, htimeout, hgoes⟩ := advance_inertia hstate hphase
  rcases lt_or_ge (syncAfter u) 3 with h | h
  · rcases lt_or_ge (u.shc.interval + 1) 150 with h150 | h150
    · rw [hgoes h h150]
      exact ⟨hstate, rfl⟩
    · rw [htimeout h h150, timeOutShift_eq, beginAbort_shc]
      have hflushed : (shiftFlushed (inertiaStepped u)).shc.state = (inertiaStepped u).shc.state ∧
          (shiftFlushed (inertiaStepped u)).shc.current = (inertiaStepped u).shc.current := by
        have hfaults : (clearFault .shiftTimeout (raiseLatched .shiftTimeout (inertiaStepped u))).shc =
            (inertiaStepped u).shc :=
          ((touches_raiseLatched .shiftTimeout (inertiaStepped u)).trans (touches_clearFault _ _)) .shc (by decide)
        have hflush (w : State) : (flushQueue w).shc = { w.shc with queue := [] } := rfl
        rw [shiftFlushed, hflush, hfaults]
        exact ⟨rfl, rfl⟩
      exact ⟨hflushed.1.trans hstate, hflushed.2⟩
  · rw [hsync h]
    unfold syncPoint
    split
    · rw [beginLockupUp_shc]
      exact ⟨hstate, rfl⟩
    · rw [beginTorqueDown_eq]
      exact ⟨hstate, rfl⟩

theorem syncAfter_eq {g : Gear} (htarget : u.shc.target = some g) : syncAfter u =
    if ((u.scu.motion.inpRpm : Int) - (u.scu.motion.outRpm * u.cfg.ratioOf g / 1000 : Nat)).natAbs ≤ 30
      then u.shc.sync + 1 else 0 := by
  unfold syncAfter inSync
  rw [htarget]
  simp only [decide_eq_true_iff]
  rfl

end

end Sys2Proof.Proofs
end

