-- ==== Sys2Proof/Proofs/AbortIntervals.lean ====
section
/-! SUPPORT. The arrival in gear with a pending shuttle (R76, R80, R85), an interval of ABORT (R80), and the taking of the
head request (R72, R73). -/

namespace Sys2Proof.Proofs

open Sys2Proof Sys2Proof.Machine

/-! ## A shuttle as it begins (R85, R86) -/

section
variable {s t u : State}

/-- The clutch table of a shuttle as it begins: the off-going side about to fall from hold, the on-coming side filling. -/
def shuttleTable (g x : Gear) (s : State) : ClutchTable ClutchRec :=
  mapOn (x.dir.clutch :: swapped s.cfg s.shc.current (some x)) (filling s)
    (mapOn (g.dir.clutch :: swapped s.cfg (some x) s.shc.current)
      (fun y c => c.drainTo (s.cfg.clutches.get y).hold) s.shc.clutches)

theorem side_nodup (d : Dir) (c : Image) (old new : Option Gear) : (d.clutch :: swapped c old new).Nodup :=
  List.nodup_cons.mpr ⟨fun h => by
    obtain ⟨hfwd, hrev⟩ := swapped_gear h
    exact (dirClutch_direction d).elim hfwd hrev, swapped_nodup _ _ _⟩

/-- The state in which a shuttle begins, before its clutches move. -/
def shuttleSet (x : Gear) (s : State) : State := s.withShc { s.shc with
  pendingShuttle := false, queue := [], target := some x, phase := some .drain, interval := 0 }

theorem beginShuttle_eq (g x : Gear) (s : State) :
    beginShuttle g x s = enterGearbox .shuttling (clutchesSet (shuttleSet x s) (shuttleTable g x s)) := by
  have hoff : overClutches (fun s y => s.withClutch y ((s.clutch y).drainTo (s.clutchCfg y).hold))
      (g.dir.clutch :: offGoing (shuttleSet x s)) (shuttleSet x s) = clutchesSet (shuttleSet x s)
        (mapOn (g.dir.clutch :: swapped s.cfg (some x) s.shc.current)
          (fun y c => c.drainTo (s.cfg.clutches.get y).hold) s.shc.clutches) :=
    torqueOff_eq (s := shuttleSet x s) ClutchCfg.hold (side_nodup _ _ _ _)
  have hon : overClutches startFill (x.dir.clutch :: swapped s.cfg s.shc.current (some x))
      (clutchesSet (shuttleSet x s) (mapOn (g.dir.clutch :: swapped s.cfg (some x) s.shc.current)
          (fun y c => c.drainTo (s.cfg.clutches.get y).hold) s.shc.clutches)) =
      clutchesSet (shuttleSet x s) (shuttleTable g x s) :=
    fillAll_eq (s := clutchesSet (shuttleSet x s) (mapOn (g.dir.clutch :: swapped s.cfg (some x) s.shc.current)
      (fun y c => c.drainTo (s.cfg.clutches.get y).hold) s.shc.clutches)) (side_nodup _ _ _ _)
  have hstep : beginShuttle g x s = enterGearbox .shuttling (overClutches startFill
      (x.dir.clutch :: onComing (overClutches (fun s y => s.withClutch y ((s.clutch y).drainTo (s.clutchCfg y).hold))
        (g.dir.clutch :: offGoing (shuttleSet x s)) (shuttleSet x s)))
      (overClutches (fun s y => s.withClutch y ((s.clutch y).drainTo (s.clutchCfg y).hold))
        (g.dir.clutch :: offGoing (shuttleSet x s)) (shuttleSet x s))) := rfl
  rw [hstep, hoff]
  exact congrArg (enterGearbox .shuttling) hon

theorem beginShuttle_shc (g x : Gear) (s : State) : (beginShuttle g x s).shc = { s.shc with
    state := .shuttling, pendingShuttle := false, queue := [], target := some x, phase := some .drain, interval := 0
    clutches := shuttleTable g x s } := by
  rw [beginShuttle_eq, enterGearbox_shc]
  rfl

/-! ## A shuttle request (R85) -/

theorem shuttleRequest_of_fast (h : 3333 ≤ s.scu.motion.vGround) : shuttleRequest s = refuse .speed .cab
    (s.withShc { s.shc with pendingShuttle := false, ignored := some s.shc.lever }) := if_neg (not_lt.mpr h)

theorem shuttleRequest_of_partner {g x : Gear} (h : s.scu.motion.vGround < 3333) (hcurrent : s.shc.current = some g)
    (hpartner : s.shc.partner g = some x) : shuttleRequest s = beginShuttle g x s := by
  unfold shuttleRequest
  rw [if_pos (show s.scu.motion.vGround < shuttleSpeed from h), hcurrent]
  dsimp only
  rw [hpartner]

theorem shuttleRequest_of_alone {g : Gear} (h : s.scu.motion.vGround < 3333) (hcurrent : s.shc.current = some g)
    (hpartner : s.shc.partner g = none) : shuttleRequest s = s := by
  unfold shuttleRequest
  rw [if_pos (show s.scu.motion.vGround < shuttleSpeed from h), hcurrent]
  dsimp only
  rw [hpartner]

theorem leverOpposes_iff {l : Lever} {g : Gear} :
    leverOpposes l (some g) = true ↔ (l = .f ∨ l = .r) ∧ l ≠ Dir.lever g.dir := by simp [leverOpposes]

theorem tryShuttle_of_same (hpending : s.shc.pendingShuttle = true)
    (hsame : leverOpposes s.shc.lever s.shc.current = false) :
    tryShuttle s = s.withShc { s.shc with pendingShuttle := false } := by
  unfold tryShuttle
  rw [if_pos hpending, if_neg (by simp [hsame])]

theorem tryShuttle_of_opposed (hpending : s.shc.pendingShuttle = true)
    (hopposed : leverOpposes s.shc.lever s.shc.current = true) : tryShuttle s = shuttleRequest s := by
  unfold tryShuttle
  rw [if_pos hpending, if_pos hopposed]

/-- A shuttle tried keeps the current gear, and the gearbox stays in its state or shuttles. -/
theorem tryShuttle_keeps (s : State) : (tryShuttle s).shc.current = s.shc.current ∧
    ((tryShuttle s).shc.state = s.shc.state ∨ (tryShuttle s).shc.state = .shuttling) := by
  unfold tryShuttle shuttleRequest
  split
  · split
    · split
      · split
        next g _ =>
          split
          · rw [beginShuttle_shc]
            exact ⟨rfl, .inr rfl⟩
          · exact ⟨rfl, .inl rfl⟩
        next => exact ⟨rfl, .inl rfl⟩
      · exact ⟨rfl, .inl rfl⟩
    · exact ⟨rfl, .inl rfl⟩
  · exact ⟨rfl, .inl rfl⟩

/-! ## ABORT (R80) -/

/-- The off-going clutches at an interval of ABORT. -/
def abortingTable (u : State) : ClutchTable ClutchRec := mapOn (offGoing u)
  (fun x c => c.ramp (alongLine c.entryValue (u.cfg.clutches.get x).hold (u.shc.interval + 1) 20)) u.shc.clutches

theorem advance_abort (hstate : u.shc.state = .shifting) (hphase : u.shc.phase = some .abort) : advance u =
    if 20 ≤ u.shc.interval + 1 then endAbort (stepSet u (abortingTable u)) else stepSet u (abortingTable u) := by
  have hadvance : advance u = abortStep u := by
    unfold advance
    rw [hstate, hphase]
  have hramp := overClutches_counted u (f := fun s x => s.withClutch x ((s.clutch x).ramp
    (alongLine (s.clutch x).entryValue (s.clutchCfg x).hold s.shc.interval abortLimit)))
    (r := fun x c => c.ramp (alongLine c.entryValue (u.cfg.clutches.get x).hold (u.shc.interval + 1) 20))
    (offGoing_nodup u) fun _ _ => rfl
  have hstep : abortStep u = if abortOver (stepSet u (abortingTable u)) = true
      then endAbort (stepSet u (abortingTable u)) else stepSet u (abortingTable u) :=
    congrArg (fun w => if abortOver w = true then endAbort w else w) hramp
  have hover : abortOver (stepSet u (abortingTable u)) = true ↔ 20 ≤ u.shc.interval + 1 := by
    unfold abortOver
    rw [shc_stepSet, hstate, hphase]
    simp only [beq_self_eq_true, Bool.true_and, decide_eq_true_iff]
    rfl
  rw [hadvance, hstep]
  exact if_congr hover rfl rfl

/-- ABORT has ended and the gearbox is back in gear, before a pending shuttle is tried. -/
def abortArrived (u : State) : State :=
  enterGearbox .inGear (dropOperation (clutchesSet (stepSet u (abortingTable u))
    (offLocked (stepSet u (abortingTable u)) (abortingTable u))))

theorem endAbort_stepSet (u : State) : endAbort (stepSet u (abortingTable u)) = tryShuttle (abortArrived u) :=
  endAbort_eq (stepSet u (abortingTable u))

theorem abortArrived_shc (u : State) : (abortArrived u).shc = { u.shc with
    clutches := offLocked (stepSet u (abortingTable u)) (abortingTable u), state := .inGear, phase := none, kind := none
    target := none, shiftOrigin := none, interval := 0 } := by
  rw [abortArrived, enterGearbox_shc]
  rfl

theorem touches_abortArrived (u : State) : Touches [.shc, .lc] u (abortArrived u) := by
  unfold abortArrived
  exact also ((((touches_withShc u (stepSet u (abortingTable u)).shc).trans (touches_withShc _ _)).trans
    (touches_withShc _ _)).mono (by decide)) (touches_enterGearbox _ _)

theorem abortArrived_offGoing {x : Clutch} (hx : x ∈ offGoing u) : (abortArrived u).clutch x =
    ((abortingTable u).get x).lock (u.cfg.clutches.get x).hold := by
  rw [State.clutch, abortArrived_shc]
  exact offLocked_get (s := stepSet u (abortingTable u)) hx _

/-- The end of ABORT with a shuttle pending (R80, R85, log 84). -/
theorem abort_shuttles {g : Gear} (ht : Finished s (tryShuttle (abortArrived u)) t)
    (hpending : u.shc.pendingShuttle = true) (hcurrent : u.shc.current = some g) : t.shc.current = u.shc.current ∧
    t.shc.kind = none ∧
    (t.shc.state = .inGear → t.shc.phase = none ∧ t.shc.target = none ∧
      ∀ x ∈ offGoing u, (t.clutch x).state = .locked ∧
        (t.clutch x).command = (u.cfg.clutches.get x).hold) ∧
    (u.shc.lever ≠ .f ∧ u.shc.lever ≠ .r ∨ u.shc.lever = Dir.lever g.dir →
      t.shc.state = .inGear ∧ t.shc.pendingShuttle = false ∧ t.shc.queue = u.shc.queue ∧
      t.shc.refusals = u.shc.refusals) ∧
    (u.shc.lever = .f ∨ u.shc.lever = .r → u.shc.lever ≠ Dir.lever g.dir →
      (3333 ≤ u.scu.motion.vGround →
        t.shc.state = .inGear ∧ t.shc.pendingShuttle = false ∧ t.shc.queue = u.shc.queue ∧
        t.shc.ignored = some u.shc.lever ∧ t.shc.lastRefusal = some (.speed, .cab) ∧
        t.shc.refusals = u.shc.refusals + 1) ∧
      (u.scu.motion.vGround < 3333 → ∀ x : Gear, u.shc.partner g = some x →
        t.shc.state = .shuttling ∧ t.shc.phase = some .drain ∧ t.shc.target = some x ∧
        t.shc.pendingShuttle = false ∧ t.shc.queue = [] ∧
        t.shc.refusals = u.shc.refusals)) := by
  have hshc := abortArrived_shc u
  have hscu : (abortArrived u).scu = u.scu := touches_abortArrived u .scu (by decide)
  have hoff {x : Clutch} (hx : x ∈ offGoing u) := abortArrived_offGoing hx
  have hlocked {v : State} (hv : Finished s v t) (hsame : v.shc.clutches = (abortArrived u).shc.clutches) :
      ∀ x ∈ offGoing u, (t.clutch x).state = .locked ∧ (t.clutch x).command = (u.cfg.clutches.get x).hold := fun x hx => by
    have hvx : v.clutch x = ((abortingTable u).get x).lock (u.cfg.clutches.get x).hold := by
      rw [State.clutch, hsame]
      exact hoff hx
    exact ⟨(hv.stillAs hvx nofun).1, (hv.gearCommand (offGoing_gear hx)).trans (congrArg ClutchRec.value hvx)⟩
  have hpend : (abortArrived u).shc.pendingShuttle = true := by rw [hshc]; exact hpending
  have hcur : (abortArrived u).shc.current = some g := by rw [hshc]; exact hcurrent
  have hlever : (abortArrived u).shc.lever = u.shc.lever := by rw [hshc]
  have hpartner : (abortArrived u).shc.partner g = u.shc.partner g := by rw [hshc]; rfl
  have hopposes : leverOpposes (abortArrived u).shc.lever (abortArrived u).shc.current = true ↔
      (u.shc.lever = .f ∨ u.shc.lever = .r) ∧ u.shc.lever ≠ Dir.lever g.dir := by rw [hlever, hcur, leverOpposes_iff]
  have hrecord : (abortArrived u).shc.state = .inGear ∧ (abortArrived u).shc.phase = none ∧
      (abortArrived u).shc.kind = none ∧ (abortArrived u).shc.target = none ∧
      (abortArrived u).shc.queue = u.shc.queue ∧ (abortArrived u).shc.refusals = u.shc.refusals := by
    rw [hshc]
    exact ⟨rfl, rfl, rfl, rfl, rfl, rfl⟩
  obtain ⟨hstate, hphase, hkind, htarget, hqueue, hrefusals⟩ := hrecord
  rw [hcurrent]
  generalize abortArrived u = v at *
  cases hopp : leverOpposes v.shc.lever v.shc.current with
  | false =>
    rw [tryShuttle_of_same hpend hopp] at ht
    have hnot := mt hopposes.mpr (Bool.eq_false_iff.mp hopp)
    refine ⟨ht.current.trans hcur, ht.kind.trans hkind, fun _ => ⟨ht.phase.trans hphase, ht.target.trans htarget, hlocked ht rfl⟩,
      fun _ => ⟨ht.state.trans hstate, ht.pendingShuttle, ht.queue.trans hqueue, ht.refusals.trans hrefusals⟩,
      fun hl hne => absurd ⟨hl, hne⟩ hnot⟩
  | true =>
    rw [tryShuttle_of_opposed hpend hopp] at ht
    obtain ⟨hmoves, hne⟩ := hopposes.mp hopp
    have hnotSame (h : u.shc.lever ≠ .f ∧ u.shc.lever ≠ .r ∨ u.shc.lever = Dir.lever g.dir) : False := by
      rcases h with ⟨hf, hr⟩ | h
      · exact hmoves.elim hf hr
      · exact hne h
    rcases lt_or_ge u.scu.motion.vGround 3333 with hslow | hfast
    · have hslow' : v.scu.motion.vGround < 3333 := by rw [hscu]; exact hslow
      cases hpair : u.shc.partner g with
      | none =>
        rw [shuttleRequest_of_alone hslow' hcur (hpartner.trans hpair)] at ht
        exact ⟨ht.current.trans hcur, ht.kind.trans hkind, fun _ => ⟨ht.phase.trans hphase, ht.target.trans htarget,
          hlocked ht rfl⟩, fun h => (hnotSame h).elim, fun _ _ => ⟨fun h => absurd hslow (not_lt.mpr h), fun _ x hx => by
            cases hx⟩⟩
      | some p =>
        rw [shuttleRequest_of_partner hslow' hcur (hpartner.trans hpair)] at ht
        have hbegun := beginShuttle_shc g p v
        generalize beginShuttle g p v = w at *
        have hshuttling : t.shc.state = .shuttling := by rw [ht.state, hbegun]
        refine ⟨by rw [ht.current, hbegun]; exact hcur, by rw [ht.kind, hbegun]; exact hkind, fun h => ?_,
          fun h => (hnotSame h).elim, fun _ _ => ⟨fun h => absurd hslow (not_lt.mpr h), fun _ x hx => ?_⟩⟩
        · rw [hshuttling] at h
          cases h
        · cases hx
          exact ⟨hshuttling, by rw [ht.phase, hbegun], by rw [ht.target, hbegun], by rw [ht.pendingShuttle, hbegun],
            by rw [ht.queue, hbegun], by rw [ht.refusals, hbegun]; exact hrefusals⟩
    · have hfast' : 3333 ≤ v.scu.motion.vGround := by rw [hscu]; exact hfast
      rw [shuttleRequest_of_fast hfast'] at ht
      refine ⟨ht.current.trans hcur, ht.kind.trans hkind, fun _ => ⟨ht.phase.trans hphase, ht.target.trans htarget,
        hlocked ht rfl⟩, fun h => (hnotSame h).elim, fun _ _ => ⟨fun _ => ⟨ht.state.trans hstate, ht.pendingShuttle,
          ht.queue.trans hqueue, ht.ignored.trans (congrArg some hlever), ht.lastRefusal, ?_⟩,
          fun h => absurd h (not_lt.mpr hfast)⟩⟩
      rw [ht.refusals, ← hrefusals]
      rfl

/-- An interval of ABORT (R80). -/
theorem abort_interval (ht : Finished s (advance u) t) (hstate : u.shc.state = .shifting)
    (hphase : u.shc.phase = some .abort) : t.shc.current = u.shc.current ∧
    ∀ k : Nat, k = u.shc.interval + 1 →
      (k < 20 ∨ u.shc.pendingShuttle = false → t.shc.queue = u.shc.queue) ∧
      (k < 20 → t.shc.state = .shifting ∧ t.shc.phase = some .abort ∧ t.shc.interval = k ∧
        ∀ x ∈ offGoing u, ∀ (hold : Nat) (r : ClutchRec), hold = (u.cfg.clutches.get x).hold →
          r = u.clutch x →
          (t.clutch x).state = .ramping ∧ (t.clutch x).entryValue = r.entryValue ∧
          (t.clutch x).command = ((r.entryValue : Int) +
            Int.tdiv (((hold : Int) - r.entryValue) * k) 20).toNat) ∧
      (20 ≤ k → u.shc.pendingShuttle = false → t.shc.state = .inGear ∧ t.shc.phase = none ∧
        t.shc.target = none ∧ t.shc.kind = none ∧
        ∀ x ∈ offGoing u, (t.clutch x).state = .locked ∧
          (t.clutch x).command = (u.cfg.clutches.get x).hold) ∧
      (20 ≤ k → u.shc.pendingShuttle = true → Finished s (tryShuttle (abortArrived u)) t) := by
  have hadvance := advance_abort hstate hphase
  by_cases hover : 20 ≤ u.shc.interval + 1
  · rw [hadvance, if_pos hover, endAbort_stepSet] at ht
    have hshc := abortArrived_shc u
    have hcurrent : (tryShuttle (abortArrived u)).shc.current = u.shc.current := by
      rw [(tryShuttle_keeps _).1, hshc]
    refine ⟨ht.current.trans hcurrent, fun k hk => ?_⟩
    subst hk
    have hidleShc (hidle : u.shc.pendingShuttle = false) : tryShuttle (abortArrived u) = abortArrived u :=
      tryShuttle_of_idle (by rw [hshc]; exact hidle)
    refine ⟨fun h => ?_, fun h => absurd h (not_lt.mpr hover), fun _ hidle => ?_, fun _ _ => ht⟩
    · rw [hidleShc (h.resolve_left (not_lt.mpr hover))] at ht
      rw [ht.queue, hshc]
    · rw [hidleShc hidle] at ht
      refine ⟨by rw [ht.state, hshc], by rw [ht.phase, hshc], by rw [ht.target, hshc], by rw [ht.kind, hshc], fun x hx => ?_⟩
      exact ⟨(ht.stillAs (abortArrived_offGoing hx) nofun).1,
        (ht.gearCommand (offGoing_gear hx)).trans (congrArg ClutchRec.value (abortArrived_offGoing hx))⟩
  · rw [hadvance, if_neg hover] at ht
    refine ⟨ht.current, fun k hk => ?_⟩
    subst hk
    refine ⟨fun _ => ht.queue, fun _ => ⟨ht.state.trans hstate, ht.phase.trans hphase, ht.interval, fun x hx hold r hhold hr => ?_⟩,
      fun h => absurd h hover, fun h => absurd h hover⟩
    subst hhold hr
    have hv : (stepSet u (abortingTable u)).clutch x = (u.clutch x).ramp
        (alongLine (u.clutch x).entryValue (u.cfg.clutches.get x).hold (u.shc.interval + 1) 20) :=
      (mapOn_get x).trans (if_pos hx)
    obtain ⟨-, -, -, -, -, hentry⟩ := ht.working x
    rw [hv] at hentry
    exact ⟨(ht.stillAs hv nofun).1, hentry,
      (ht.gearCommand (offGoing_gear hx)).trans (congrArg ClutchRec.value hv)⟩

end

end Sys2Proof.Proofs
end

