-- ==== Sys2Proof/Proofs/HeadRequests.lean ====
section
/-! SUPPORT. The taking of the head request (R72, R73): the gear an entry chooses, and the shift as it begins. -/

namespace Sys2Proof.Proofs

open Sys2Proof Sys2Proof.Machine

/-! ## The gear an entry chooses (R72) -/

/-- The gears of an entry, the farthest first; an AUTO entry passes over those not released for automatic shifting. -/
def listedGears (c : Image) (e : QueueEntry) (g : Gear) : List GearEntry :=
  if e.origin = .auto then (stepsFrom c e.kind g e.steps).dropWhile fun x => !x.auto else stepsFrom c e.kind g e.steps

/-- A gear on the way that the overspeed or the lugging test refuses. -/
def refusedGear (s : State) (k : ShiftKind) (x : GearEntry) : Bool :=
  if k = .down then decide (2400 < syncSpeed s.scu.motion.outRpm x.ratio)
  else lugging s && decide (syncSpeed s.scu.motion.outRpm x.ratio < 900)

/-- The refusal where every gear on the way is refused. -/
def refusalOf (k : ShiftKind) : ShcReason := if k = .down then .overspeed else .lugging

section
variable {s t : State} {e : QueueEntry} {g : Gear}

/-- The first gear that passes, or the refusal. -/
theorem chooseTarget_eq (s : State) (e : QueueEntry) (g : Gear) : chooseTarget s e g =
    if listedGears s.cfg e g = [] then .inl .noGear
    else (((listedGears s.cfg e g).dropWhile (refusedGear s e.kind)).head?).elim (.inl (refusalOf e.kind))
      fun x => .inr x.gear := by
  have hlist : (if e.origin = .auto then (stepsFrom s.cfg e.kind g e.steps).dropWhile fun x => !x.auto
      else stepsFrom s.cfg e.kind g e.steps) = listedGears s.cfg e g := rfl
  unfold chooseTarget
  dsimp only
  rw [hlist]
  generalize listedGears s.cfg e g = l
  rcases l with _ | ⟨x, l⟩
  · rfl
  rw [if_neg (List.cons_ne_nil x l)]
  cases e.kind with
  | down =>
    have hp : refusedGear s .down = fun x => decide (2400 < syncSpeed s.scu.motion.outRpm x.ratio) := rfl
    rw [hp]
    cases (x :: l).dropWhile fun x => decide (2400 < syncSpeed s.scu.motion.outRpm x.ratio) <;> rfl
  | up =>
    have hp : refusedGear s .up = fun x => lugging s && decide (syncSpeed s.scu.motion.outRpm x.ratio < 900) := rfl
    rw [hp]
    cases (x :: l).dropWhile fun x => lugging s && decide (syncSpeed s.scu.motion.outRpm x.ratio < 900) <;> rfl

theorem lugging_iff : lugging s = true ↔ ∃ load : Nat, s.engineTorque = some load ∧ 80 < load := by
  unfold lugging
  cases s.engineTorque <;> simp

/-- The tests as the statement gives them. -/
theorem refusedGear_iff (x : GearEntry) {k : ShiftKind} : refusedGear s k x = false ↔ match k with
    | .down => s.scu.motion.outRpm * x.ratio / 1000 ≤ 2400
    | .up => ∀ load : Nat, s.engineTorque = some load → 80 < load → 900 ≤ s.scu.motion.outRpm * x.ratio / 1000 := by
  cases k with
  | down =>
    have hp : refusedGear s .down x = decide (2400 < syncSpeed s.scu.motion.outRpm x.ratio) := rfl
    rw [hp, decide_eq_false_iff_not, not_lt]
    rfl
  | up =>
    have hp : refusedGear s .up x = (lugging s && decide (syncSpeed s.scu.motion.outRpm x.ratio < 900)) := rfl
    rw [hp, Bool.eq_false_iff, Ne, Bool.and_eq_true, lugging_iff, decide_eq_true_iff]
    constructor
    · intro h load htorque hload
      by_contra hlow
      exact h ⟨⟨load, htorque, hload⟩, not_le.mp hlow⟩
    · rintro h ⟨⟨load, htorque, hload⟩, hlow⟩
      exact absurd (h load htorque hload) (not_le.mpr hlow)

theorem chooseTarget_of_none (h : ∀ x ∈ listedGears s.cfg e g, refusedGear s e.kind x = true) : chooseTarget s e g =
    .inl (if listedGears s.cfg e g = [] then .noGear else refusalOf e.kind) := by
  have hdrop := List.dropWhile_eq_nil_iff.mpr h
  rw [chooseTarget_eq]
  split
  · rfl
  · rw [hdrop]
    rfl

theorem chooseTarget_of_first {x : GearEntry} {front back : List GearEntry} (hl : listedGears s.cfg e g = front ++ x :: back)
    (hfront : ∀ y ∈ front, refusedGear s e.kind y = true) (hx : refusedGear s e.kind x = false) :
    chooseTarget s e g = .inr x.gear := by
  have hdrop : (listedGears s.cfg e g).dropWhile (refusedGear s e.kind) = x :: back := by
    rw [hl, List.dropWhile_append_of_pos hfront, List.dropWhile_cons_of_neg (by simp [hx])]
  rw [chooseTarget_eq, if_neg (by rw [hl]; simp), hdrop]
  rfl

/-! ## A shift as it begins (R73) -/

/-- The clutch table of a shift as it begins: every mark forgotten, the on-coming clutches filling. -/
def shiftTable (s : State) (x : Gear) : ClutchTable ClutchRec :=
  mapOn (swapped s.cfg s.shc.current (some x)) (filling s)
    (mapOn Clutch.all (fun _ c => { c with adapted := false, mark := none }) s.shc.clutches)

theorem beginShift_shc (kind : ShiftKind) (who : Origin) (x : Gear) (s : State) : (beginShift kind who x s).shc = { s.shc with
    state := .shifting, phase := some .fill, kind := some kind, target := some x, shiftOrigin := some who
    interval := 0, sync := 0, clutches := shiftTable s x } := by
  have hforget : overClutches forgetMark Clutch.all s = clutchesSet s
      (mapOn Clutch.all (fun _ c => { c with adapted := false, mark := none }) s.shc.clutches) :=
    overClutches_eq (fun _ _ => rfl) clutch_all_nodup
  unfold beginShift
  rw [hforget, enterGearbox_shc]
  dsimp only
  rw [fillAll_eq (onComing_nodup _)]
  rfl

theorem shiftTable_get {x : Gear} {y : Clutch} (hy : y ∈ swapped s.cfg s.shc.current (some x)) :
    (shiftTable s x).get y = filling s y { s.clutch y with adapted := false, mark := none } := by
  rw [shiftTable, mapOn_get, if_pos hy, mapOn_get, if_pos (Clutch.mem_all y)]
  rfl

/-! ## The head request (R72) -/

theorem canTake_iff : canTake s = true ↔ s.shc.state = .inGear ∧ s.shc.pendingShuttle = false ∧ s.shc.pedal < 95 ∧
    ∃ x ∈ dirClutchOf s.shc.current, (s.clutch x).state = .locked := by
  unfold canTake
  simp only [Bool.and_eq_true, beq_iff_eq, Bool.not_eq_true', decide_eq_true_iff, List.any_eq_true, and_assoc]

/-- The queue without its head. -/
def headTaken (s : State) (rest : List QueueEntry) : State := s.withShc { s.shc with queue := rest }

theorem takeHead_of_refused {rest : List QueueEntry} {why : ShcReason} (hqueue : s.shc.queue = e :: rest)
    (hcurrent : s.shc.current = some g) (hcan : canTake s = true) (hchoice : chooseTarget s e g = .inl why) :
    takeHead s = refuse why e.origin (headTaken s rest) := by
  have hchoice' : chooseTarget (headTaken s rest) e g = .inl why := hchoice
  unfold takeHead
  rw [hqueue, hcurrent]
  dsimp only
  rw [if_pos hcan]
  change (match chooseTarget (headTaken s rest) e g with
    | .inl why => refuse why e.origin (headTaken s rest)
    | .inr x => beginShift e.kind e.origin x (headTaken s rest)) = _
  rw [hchoice']

theorem takeHead_of_chosen {rest : List QueueEntry} {x : Gear} (hqueue : s.shc.queue = e :: rest)
    (hcurrent : s.shc.current = some g) (hcan : canTake s = true) (hchoice : chooseTarget s e g = .inr x) :
    takeHead s = beginShift e.kind e.origin x (headTaken s rest) := by
  have hchoice' : chooseTarget (headTaken s rest) e g = .inr x := hchoice
  unfold takeHead
  rw [hqueue, hcurrent]
  dsimp only
  rw [if_pos hcan]
  change (match chooseTarget (headTaken s rest) e g with
    | .inl why => refuse why e.origin (headTaken s rest)
    | .inr x => beginShift e.kind e.origin x (headTaken s rest)) = _
  rw [hchoice']

/-- An interval of a gearbox IN_GEAR takes the head request and no more. -/
theorem inGear_interval (h : SteadyGearbox s) (hfault : s.gearboxFaulted = false) (hstate : s.shc.state = .inGear) :
    ∃ (i : Levels) (t : State), LevelsOf s i ∧ exec .shcControlInterval s = .next t ∧
      ((takeHead (levelsTaken s i)).shc.state = .inGear ∨ (takeHead (levelsTaken s i)).shc.state = .shifting →
        Finished s (takeHead (levelsTaken s i)) t) := by
  obtain ⟨i, hi, hinputs, -⟩ := steady_inputs h
  have hsound := faultHoldTest_of_sound (s := levelsTaken s i) (by
    change s.shc.state ≠ .faultHold
    simp [hstate]) hfault
  refine ⟨i, _, hi, exec_shcControlInterval h.runs, fun htaken => ?_⟩
  have hadvance : advanceFrom s.shc.state (takeHead (levelsTaken s i)) = takeHead (levelsTaken s i) := by
    rcases htaken with hgear | hshift
    · have hstill : advance (takeHead (levelsTaken s i)) = takeHead (levelsTaken s i) := by
        unfold advance
        rw [hgear]
      unfold advanceFrom
      rw [hstill, ite_self]
    · exact advanceFrom_of_other (by rw [hshift, hstate]; nofun) (by rw [hshift]; nofun)
  have hacted : intervalActed s = takeHead (levelsTaken s i) := by
    rw [intervalActed, hinputs, hsound, hadvance, parkTest_of_busy (htaken.imp_right .inl)]
  rw [hacted]
  exact finished s _

/-- The clause on the head request. -/
theorem head_clause (h : SteadyGearbox s) (hfault : s.gearboxFaulted = false) {rest : List QueueEntry}
    {l : List GearEntry} (hstate : s.shc.state = .inGear)
    (hqueue : s.shc.queue = e :: rest) (hcurrent : s.shc.current = some g) (hidle : s.shc.pendingShuttle = false)
    (hlocked : (s.clutch g.dir.clutch).state = .locked)
    (hpedal : ∀ d : CabDriveFields, s.lc.cabDrive.current = some d → min 100 d.pedal < 95)
    (hpedal' : s.lc.cabDrive.current = none → s.shc.pedal < 95) (hl : l = listedGears s.cfg e g) {passes : GearEntry → Prop}
    (hpasses : ∀ x : GearEntry, passes x ↔ refusedGear s e.kind x = false) :
    ∃ t : State, exec .shcControlInterval s = .next t ∧ t.shc.queue = rest ∧ t.shc.current = some g ∧
      ((∀ x ∈ l, ¬ passes x) →
        t.shc.state = .inGear ∧ t.shc.refusals = s.shc.refusals + 1 ∧
        (l = [] → t.shc.lastRefusal = some (.noGear, e.origin)) ∧
        (l ≠ [] → e.kind = .down → t.shc.lastRefusal = some (.overspeed, e.origin)) ∧
        (l ≠ [] → e.kind = .up → t.shc.lastRefusal = some (.lugging, e.origin))) ∧
      (∀ (x : GearEntry) (front back : List GearEntry), l = front ++ x :: back →
        (∀ y ∈ front, ¬ passes y) → passes x →
        t.shc.state = .shifting ∧ t.shc.phase = some .fill ∧ t.shc.kind = some e.kind ∧
        t.shc.target = some x.gear ∧ t.shc.refusals = s.shc.refusals ∧
        t.shc.shiftOrigin = some e.origin ∧
        ∀ y ∈ swapped s.cfg (some g) (some x.gear), (t.clutch y).state = .filling ∧
          (t.clutch y).command = (s.cfg.clutches.get y).fillCurrent ∧
          (t.clutch y).fillTime = (if s.oilCold = true
            then (s.clutch y).learned + (s.clutch y).learned / 4 else (s.clutch y).learned)) := by
  obtain ⟨i, t, hi, hexec, hend⟩ := inGear_interval h hfault hstate
  have hcan : canTake (levelsTaken s i) = true := by
    refine canTake_iff.mpr ⟨hstate, hidle, ?_, g.dir.clutch, ?_, hlocked⟩
    · change i.pedal < 95
      cases hcab : s.lc.cabDrive.current with
      | none => rw [hi.kept hcab]; exact hpedal' hcab
      | some d => rw [hi.pedal d hcab]; exact hpedal d hcab
    · change g.dir.clutch ∈ dirClutchOf s.shc.current
      rw [hcurrent]
      exact List.mem_singleton_self _
  have hrefused {x : GearEntry} : ¬ passes x ↔ refusedGear s e.kind x = true := by
    rw [hpasses, Bool.not_eq_false]
  have hfirst {x : GearEntry} {front back : List GearEntry} (hlist : l = front ++ x :: back)
      (hfront : ∀ y ∈ front, ¬ passes y) (hx : passes x) : chooseTarget (levelsTaken s i) e g = .inr x.gear :=
    chooseTarget_of_first (s := levelsTaken s i) (hl.symm.trans hlist) (fun y hy => hrefused.mp (hfront y hy)) ((hpasses x).mp hx)
  have hnone (hall : ∀ x ∈ l, ¬ passes x) : chooseTarget (levelsTaken s i) e g =
      .inl (if l = [] then .noGear else refusalOf e.kind) := by
    have hchoice := chooseTarget_of_none (s := levelsTaken s i) (e := e) (g := g) fun x hx =>
      hrefused.mp (hall x (hl ▸ hx))
    rw [hchoice, hl]
    rfl
  cases hchoice : chooseTarget (levelsTaken s i) e g with
  | inl why =>
    have htaken := takeHead_of_refused (s := levelsTaken s i) hqueue hcurrent hcan hchoice
    rw [htaken] at hend
    have ht := hend (.inl hstate)
    refine ⟨t, hexec, ht.queue, ht.current.trans hcurrent, fun hall => ?_, fun x front back hlist hfront hx => ?_⟩
    · have hwhy : why = if l = [] then .noGear else refusalOf e.kind := by
        have hsum := hchoice.symm.trans (hnone hall)
        exact Sum.inl.inj hsum
      have hlast : t.shc.lastRefusal = some (why, e.origin) := ht.lastRefusal
      refine ⟨ht.state.trans hstate, ht.refusals, fun hempty => ?_, fun hsome hkind => ?_, fun hsome hkind => ?_⟩
      · rw [hlast, hwhy, if_pos hempty]
      · rw [hlast, hwhy, if_neg hsome, hkind]
        rfl
      · rw [hlast, hwhy, if_neg hsome, hkind]
        rfl
    · rw [hfirst hlist hfront hx] at hchoice
      cases hchoice
  | inr x =>
    have htaken := takeHead_of_chosen (s := levelsTaken s i) hqueue hcurrent hcan hchoice
    have hshc := beginShift_shc e.kind e.origin x (headTaken (levelsTaken s i) rest)
    have hget {y : Clutch} (hy : y ∈ swapped s.cfg (some g) (some x)) :
        (shiftTable (headTaken (levelsTaken s i) rest) x).get y =
          filling s y { s.clutch y with adapted := false, mark := none } := by
      have hmem : y ∈ swapped (headTaken (levelsTaken s i) rest).cfg (headTaken (levelsTaken s i) rest).shc.current (some x) := by
        rw [show (headTaken (levelsTaken s i) rest).shc.current = some g from hcurrent]
        exact hy
      exact shiftTable_get hmem
    rw [htaken] at hend
    generalize beginShift e.kind e.origin x (headTaken (levelsTaken s i) rest) = v at *
    have ht := hend (.inr (by rw [hshc]))
    refine ⟨t, hexec, by rw [ht.queue, hshc]; rfl, by rw [ht.current, hshc]; exact hcurrent, fun hall => ?_,
      fun y front back hlist hfront hy => ?_⟩
    · rw [hnone hall] at hchoice
      cases hchoice
    · have hsame : x = y.gear := by
        rw [hfirst hlist hfront hy] at hchoice
        exact (Sum.inr.inj hchoice).symm
      subst hsame
      refine ⟨by rw [ht.state, hshc], by rw [ht.phase, hshc], by rw [ht.kind, hshc], by rw [ht.target, hshc],
        by rw [ht.refusals, hshc]; rfl, by rw [ht.same Shc.shiftOrigin fun _ _ _ => rfl, hshc], fun z hz => ?_⟩
      have hv : v.clutch z = filling s z { s.clutch z with adapted := false, mark := none } := by
        rw [State.clutch, hshc]
        exact hget hz
      obtain ⟨-, -, -, -, htime, -⟩ := ht.working z
      rw [hv] at htime
      exact ⟨(ht.stillAs hv nofun).1, (ht.gearCommand (swapped_gear hz)).trans (congrArg ClutchRec.value hv), htime⟩

end

end Sys2Proof.Proofs
end

