-- ==== Sys2Proof/Proofs/ShiftIntervals.lean ====
section
/-! PROOF. O27: the intervals of a shift, and the taking of the head request (R72 to R81). -/

namespace Sys2Proof.Proofs

open Sys2Proof Sys2Proof.Machine

section
variable {s : State}

/-- A steady interval of a shift. -/
theorem steady_shift (h : SteadyGearbox s) (hfault : s.gearboxFaulted = false) (hstate : s.shc.state = .shifting)
    (hbusy : ∀ i : Levels, (advance (levelsTaken s i)).shc.state.busy) : ∃ (i : Levels) (t : State),
    exec .shcControlInterval s = .next t ∧ Finished s (advance (levelsTaken s i)) t := by
  obtain ⟨i, t, -, hexec, ht⟩ := steady_operation h hfault (.inl hstate) fun i _ => hbusy i
  exact ⟨i, t, hexec, ht⟩

/-- An upshift's TORQUE goes on shifting. -/
theorem torqueStep_state {w : State} (hstate : w.shc.state = .shifting) (hphase : w.shc.phase = some .torque) :
    (torqueStep w).shc.state.busy := by
  by_cases hkind : w.shc.kind = some .up
  · rw [torqueStep_of_up hstate hphase hkind]
    split
    · rw [endTorque_of_up (s := torqueUpStepped w) hkind]
      exact .inr (.inl hstate)
    · exact .inr (.inl hstate)
  · rw [torqueStep_of_down hstate hphase hkind]
    split
    · rw [endTorque_of_down (s := torqueDownStepped w) hkind]
      exact .inr (.inl hstate)
    · exact .inr (.inl hstate)

theorem advance_torque_busy (hstate : s.shc.state = .shifting) (hphase : s.shc.phase = some .torque) :
    (advance s).shc.state.busy := by
  rw [advance_torque hstate hphase]
  exact torqueStep_state (w := clutchesSet s (markTable s)) hstate hphase

theorem advance_fill_busy (hstate : s.shc.state = .shifting) (hphase : s.shc.phase = some .fill) :
    (advance s).shc.state.busy := .inr (.inl ((advance_fill_shc hstate hphase).1.trans hstate))

theorem advance_abort_busy (hstate : s.shc.state = .shifting) (hphase : s.shc.phase = some .abort) :
    (advance s).shc.state.busy := by
  rw [advance_abort hstate hphase]
  split
  · rw [endAbort_stepSet]
    rcases (tryShuttle_keeps (abortArrived s)).2 with h | h
    · exact .inl (by rw [h, abortArrived_shc])
    · exact .inr (.inr (.inr h))
  · exact .inr (.inl hstate)

end

/-- Settles O27. -/
theorem shiftIntervals : Obligations.ShiftIntervals := by
  intro s h hfault
  refine ⟨fun hstate hphase hkind => ?torqueUp, fun hstate hphase => ?fill,
    fun hstate hphase hkind g old hcurrent hold => ?marks, fun hstate hphase hkind hlen j hj hj8 => ?torqueDown,
    fun hstate hphase hidle => ?lockup, fun hstate hphase => ?abort, fun hstate hphase => ?inertia,
    fun e rest g l hstate hqueue hcurrent hidle hlocked hpedal hpedal' hl passes hpasses => ?head⟩
  case torqueUp =>
    obtain ⟨i, t, hexec, ht⟩ := steady_shift h hfault hstate fun i => advance_torque_busy (s := levelsTaken s i) hstate hphase
    exact ⟨t, hexec, torqueUp_clause (u := levelsTaken s i)
      (torqueUp_of_steady (u := levelsTaken s i) ht hstate hphase hkind)⟩
  case fill =>
    obtain ⟨i, t, hexec, ht⟩ := steady_shift h hfault hstate fun i => advance_fill_busy (s := levelsTaken s i) hstate hphase
    exact ⟨t, hexec, fill_interval (u := levelsTaken s i) ht hstate hphase⟩
  case marks =>
    obtain ⟨i, t, hexec, ht⟩ := steady_shift h hfault hstate fun i => hphase.elim
      (advance_fill_busy (s := levelsTaken s i) hstate) (advance_torque_busy (s := levelsTaken s i) hstate)
    exact ⟨t, hexec, fun x hx => marks_clause (u := levelsTaken s i) ht hstate hphase hkind hcurrent hold hx⟩
  case torqueDown =>
    obtain ⟨i, t, hexec, ht⟩ := steady_shift h hfault hstate fun i => advance_torque_busy (s := levelsTaken s i) hstate hphase
    exact ⟨t, hexec, torqueDown_interval (u := levelsTaken s i) ht hstate hphase hkind hlen hj hj8⟩
  case lockup =>
    obtain ⟨i, t, hexec, ht⟩ := steady_shift h hfault hstate fun i => by
      rw [advance_lockup (u := levelsTaken s i) hstate hphase, finishShift_shc (u := levelsTaken s i) hidle]
      exact .inl rfl
    exact ⟨t, hexec, lockup_interval (u := levelsTaken s i) ht hstate hphase hidle⟩
  case abort =>
    obtain ⟨i, t, hexec, ht⟩ := steady_shift h hfault hstate fun i => advance_abort_busy (s := levelsTaken s i) hstate hphase
    obtain ⟨hcurrent, hinterval⟩ := abort_interval (u := levelsTaken s i) ht hstate hphase
    refine ⟨t, hexec, hcurrent, fun k hk => ?_⟩
    obtain ⟨hqueue, hgoes, hends, hshuttles⟩ := hinterval k hk
    refine ⟨hqueue, hgoes, hends, fun hover hpending g hg => ?_⟩
    exact (abort_shuttles (u := levelsTaken s i) (hshuttles hover hpending) hpending hg).2
  case inertia =>
    obtain ⟨i, t, hexec, ht⟩ := steady_shift h hfault hstate fun i =>
      .inr (.inl (advance_inertia_shc (u := levelsTaken s i) hstate hphase).1)
    obtain ⟨hshifting, hcurrent⟩ := advance_inertia_shc (u := levelsTaken s i) hstate hphase
    obtain ⟨hsyncs, htimeout, hgoes⟩ := advance_inertia (u := levelsTaken s i) hstate hphase
    refine ⟨t, hexec, ht.state.trans hshifting, ht.current.trans hcurrent, fun g j sync htarget hj hsync => ?_⟩
    have hafter : sync = syncAfter (levelsTaken s i) := hsync.trans (syncAfter_eq (u := levelsTaken s i) htarget).symm
    subst hafter hj
    refine ⟨fun hlow hshort => ?_, fun hdue hkind => ?_, fun hdue hkind => ?_, fun hlow hlong => ?_⟩
    · exact inertia_goes (u := levelsTaken s i) (hgoes hlow hshort ▸ ht) hphase
    · exact inertia_syncs_up (u := levelsTaken s i) (hsyncs hdue ▸ ht) hkind
    · exact inertia_syncs_down (u := levelsTaken s i) (hsyncs hdue ▸ ht) hkind
    · obtain ⟨h1, h2, h3, h4⟩ := inertia_times_out (u := levelsTaken s i) (htimeout hlow hlong ▸ ht)
      exact ⟨h1, h2, h3, h4.trans (clearFault_mc_congr _ (raiseLatched_mc_congr _ rfl))⟩
  case head =>
    exact head_clause h hfault hstate hqueue hcurrent hidle hlocked hpedal hpedal' hl fun x =>
      (hpasses x).trans (refusedGear_iff x).symm

end Sys2Proof.Proofs
end

