-- ==== Sys2Proof/Proofs/NeutralIntervals.lean ====
section
/-! SUPPORT. The interval that puts a gearbox with a gear or an operation in NEUTRAL (R87, R89). -/

namespace Sys2Proof.Proofs

open Sys2Proof Sys2Proof.Machine

/-! ## What is left for neutral -/

/-- Steps 1 and 2 of an interval have left the gearbox of `s` in NEUTRAL in `w`. -/
structure LeftForNeutral (s w : State) : Prop where
  state : w.shc.state = .neutral
  dropped : w.shc.queue = [] ∧ w.shc.torque = none ∧ w.shc.pendingShuttle = false ∧ w.shc.phase = none ∧
    w.shc.kind = none ∧ w.shc.target = none
  clutches : w.shc.clutches = mapOn directionClutches (fun _ c => c.drainTo 0) (leftClutches s)
  current : w.shc.current = leftCurrent s.shc
  preselect : w.shc.preselect = leftPreselect s.shc
  selected : w.shc.selected = reselected s.cfg (leftCurrent s.shc) s.shc.selected
  cfg : w.cfg = s.cfg

section
variable {s t u v w : State}

theorem leftForNeutral_of_rec {b : State} (h : w.shc = neutralRec b) (hcfg : w.cfg = s.cfg)
    (hclutches : leftClutches b = leftClutches s) (hcurrent : leftCurrent b.shc = leftCurrent s.shc)
    (hpreselect : leftPreselect b.shc = leftPreselect s.shc) (hbcfg : b.cfg = s.cfg)
    (hselected : b.shc.selected = s.shc.selected) : LeftForNeutral s w := by
  refine ⟨by rw [h]; rfl, ?_, ?_, ?_, ?_, ?_, hcfg⟩
  · rw [h]
    exact ⟨rfl, rfl, rfl, rfl, rfl, rfl⟩
  · rw [h, ← hclutches]
    rfl
  · rw [h, ← hcurrent]
    rfl
  · rw [h, ← hpreselect]
    rfl
  · rw [h, ← hcurrent, ← hbcfg, ← hselected]
    rfl

/-- Flags of the record that the way into neutral does not read may change. -/
theorem LeftForNeutral.withFlags {b f p : Bool} (h : LeftForNeutral s w) : LeftForNeutral s (w.withShc { w.shc with
    speedLost := b, parkForce := f, pendingPark := p }) :=
  ⟨h.state, h.dropped, h.clutches, h.current, h.preselect, h.selected, h.cfg⟩

/-! ## The learned fill times -/

theorem mapOn_learned {l : List Clutch} {r : Clutch → ClutchRec → ClutchRec} {k : ClutchTable ClutchRec}
    (hr : ∀ x c, (r x c).learned = c.learned) (x : Clutch) : ((mapOn l r k).get x).learned = (k.get x).learned := by
  rw [mapOn_get]
  split
  · exact hr x _
  · rfl

theorem drained_learned {l : List Clutch} {k : ClutchTable ClutchRec} (x : Clutch) :
    ((mapOn l (fun _ c => c.drainTo 0) k).get x).learned = (k.get x).learned :=
  mapOn_learned (r := fun _ c => c.drainTo 0) (fun _ _ => rfl) x

theorem locked_learned {l : List Clutch} {k : ClutchTable ClutchRec} (hold : Clutch → Nat) (x : Clutch) :
    ((mapOn l (fun y c => c.lock (hold y)) k).get x).learned = (k.get x).learned :=
  mapOn_learned (r := fun y c => c.lock (hold y)) (fun _ _ => rfl) x

theorem swapBack_learned (x : Clutch) : ((swapBack s).get x).learned = (s.clutch x).learned := by
  rw [swapBack, offLocked, locked_learned fun y => (s.cfg.clutches.get y).hold, onDrained, drained_learned]
  rfl

theorem swapDone_learned (x : Clutch) : ((swapDone s).get x).learned = (s.clutch x).learned := by
  rw [swapDone, drained_learned, onLocked, locked_learned fun y => (s.cfg.clutches.get y).hold]
  rfl

theorem leftClutches_learned (x : Clutch) : ((leftClutches s).get x).learned = (s.clutch x).learned := by
  unfold leftClutches
  split
  · exact swapBack_learned x
  · split
    · exact swapBack_learned x
    · exact swapDone_learned x
  · exact swapDone_learned x
  · exact swapDone_learned x
  · exact locked_learned (fun y => (s.cfg.clutches.get y).hold) x
  · exact swapBack_learned x
  · rfl

/-- A clutch that drains, or is LOCKED, has no fill. -/
theorem fillDone_drainTo {locks : Bool} {c : ClutchCfg} {r : ClutchRec} {n : Nat} :
    fillDone locks c (r.drainTo n) = r.drainTo n := fillDone_of_other nofun

theorem fillDone_lock {locks : Bool} {c : ClutchCfg} {r : ClutchRec} {n : Nat} :
    fillDone locks c (r.lock n) = r.lock n := fillDone_of_other nofun

/-! ## The swaps taken back and completed -/

theorem swapBack_onComing {x : Clutch} (hx : x ∈ onComing s) : (swapBack s).get x = (s.clutch x).drainTo 0 :=
  (offLocked_get_of_not (offGoing_of_onComing hx) _).trans ((mapOn_get x).trans (if_pos hx))

theorem swapBack_offGoing {x : Clutch} (hx : x ∈ offGoing s) :
    (swapBack s).get x = (s.clutch x).lock (s.cfg.clutches.get x).hold := by
  rw [swapBack, offLocked_get hx, onDrained, mapOn_get, if_neg (onComing_of_offGoing hx)]
  rfl

theorem swapDone_onComing {x : Clutch} (hx : x ∈ onComing s) :
    (swapDone s).get x = (s.clutch x).lock (s.cfg.clutches.get x).hold := by
  rw [swapDone, mapOn_get, if_neg (offGoing_of_onComing hx), onLocked_get hx]
  rfl

theorem swapDone_offGoing {x : Clutch} (hx : x ∈ offGoing s) : (swapDone s).get x = (s.clutch x).drainTo 0 := by
  rw [swapDone, mapOn_get, if_pos hx, onLocked_get_of_not (onComing_of_offGoing hx)]
  rfl

theorem leftClutches_of_abandoned
    (h : ShiftAbandoned s.shc ∨ (s.shc.state = .shuttling ∧ s.shc.phase = some .drain)) : leftClutches s = swapBack s := by
  unfold leftClutches
  rcases h with ⟨hstate, hphase | ⟨hphase, hkind⟩⟩ | ⟨hstate, hphase⟩
  · rw [hstate, hphase]
  · rw [hstate, hphase]
    exact if_pos hkind
  · rw [hstate, hphase]

theorem leftClutches_of_completed (h : ShiftCompleted s.shc) :
    leftClutches s = swapDone s ∧ leftCurrent s.shc = s.shc.target := by
  unfold leftClutches leftCurrent
  obtain ⟨hstate, hphase | hphase | ⟨hphase, hkind⟩⟩ := h
  · rw [hstate, hphase]
    exact ⟨rfl, rfl⟩
  · rw [hstate, hphase]
    exact ⟨rfl, rfl⟩
  · rw [hstate, hphase]
    exact ⟨if_neg hkind, if_neg hkind⟩

theorem leftCurrent_of_kept (h : ¬ ShiftCompleted s.shc) : leftCurrent s.shc = s.shc.current := by
  unfold leftCurrent
  split
  next hstate hphase =>
    split
    · rfl
    next hkind => exact absurd ⟨hstate, .inr (.inr ⟨hphase, hkind⟩)⟩ h
  next hstate hphase => exact absurd ⟨hstate, .inl hphase⟩ h
  next hstate hphase => exact absurd ⟨hstate, .inr (.inl hphase)⟩ h
  next => rfl

theorem leftPreselect_of_not (h : ¬ Preselecting s.shc) : leftPreselect s.shc = s.shc.preselect := by
  unfold leftPreselect
  split
  next hstate hphase => exact absurd ⟨hstate, hphase⟩ h
  next => rfl

theorem left_of_preselecting (h : Preselecting s.shc) : leftClutches s = s.shc.clutches ∧
    leftCurrent s.shc = s.shc.current ∧ leftPreselect s.shc = s.shc.target := by
  obtain ⟨hstate, hphase⟩ := h
  unfold leftClutches leftCurrent leftPreselect
  rw [hstate, hphase]
  exact ⟨rfl, rfl, rfl⟩

/-- The last listed start-permitted gear at or below the current one is selected. -/
theorem reselected_spec {c : Image} {base selected : Option Gear} : (base = none → reselected c base selected = selected) ∧
    ∀ (g : Gear) (l : List GearEntry), base = some g →
      l = ((c.gearsOf g.dir).filter fun e => e.start && decide (e.gear.num ≤ g.num)) →
      (l = [] → reselected c base selected = selected) ∧
      ∀ (below : List GearEntry) (e : GearEntry), l = below ++ [e] → reselected c base selected = some e.gear := by
  refine ⟨fun h => by rw [h]; rfl, fun g l hbase hl => ?_⟩
  have hlast : reselected c base selected = l.getLast?.elim selected fun e => some e.gear := by rw [hbase, hl]; rfl
  rw [hlast]
  exact ⟨fun h => by rw [h]; rfl, fun below e h => by rw [h, List.getLast?_append]; rfl⟩

/-! ## Clutches at the end of the interval -/

theorem Finished.emptied (h : Finished s v t) {x : Clutch} {r : ClutchRec} (hv : v.clutch x = r.drainTo 0) :
    Emptied t x := by
  have hdraining : (v.clutch x).state = .draining := congrArg ClutchRec.state hv
  refine ⟨?_, ?_⟩
  · rw [h.freeCommand (by simp [hdraining]) (by simp [hdraining]), hv]
    rfl
  · rw [h.clutch]
    exact finishedRec_of_draining hdraining

theorem Finished.cfg (h : Finished s v t) : t.cfg = v.cfg := h.touches .cfg (by decide)

theorem Finished.heldLocked (h : Finished s v t) {x : Clutch} {r : ClutchRec} (hx : x ≠ .fwd ∧ x ≠ .rev)
    (hv : v.clutch x = r.lock (v.cfg.clutches.get x).hold) : HeldLocked t x := by
  refine ⟨(h.stillAs hv nofun).1, ?_⟩
  rw [h.gearCommand hx, hv, h.cfg]
  rfl

/-! ## The interval -/

/-- A speed or range clutch of a gearbox left for neutral. -/
theorem LeftForNeutral.gear (h : LeftForNeutral s w) {x : Clutch} (hx : x ≠ .fwd ∧ x ≠ .rev) :
    w.clutch x = (leftClutches s).get x := by
  obtain ⟨hfwd, hrev⟩ := hx
  rw [State.clutch, h.clutches, mapOn_get, if_neg (by simp [directionClutches, hfwd, hrev])]

theorem LeftForNeutral.direction (h : LeftForNeutral s w) {x : Clutch} (hx : x = .fwd ∨ x = .rev) :
    w.clutch x = ((leftClutches s).get x).drainTo 0 := by
  rw [State.clutch, h.clutches, mapOn_get, if_pos (by rcases hx with rfl | rfl <;> decide)]

/-- The state an interval that leaves the gearbox in NEUTRAL comes to at the end of step 5. -/
structure NeutralActed (w v : State) : Prop where
  shc : ∃ (c p : Option Gear), v.shc = { w.shc with clutches := fillTable w, current := c, preselect := p }
  made : ∀ g, w.shc.preselect = some g → allIn (clutchesSet w (fillTable w)) .locked (gearPair w.cfg g) = true →
    v.shc.current = some g ∧ v.shc.preselect = none
  kept : (∀ g, w.shc.preselect = some g → allIn (clutchesSet w (fillTable w)) .locked (gearPair w.cfg g) = false) →
    v.shc.current = w.shc.current ∧ v.shc.preselect = w.shc.preselect
  cfg : v.cfg = w.cfg

theorem neutralActed (h : w.shc.state = .neutral) : NeutralActed w (advance w) := by
  obtain ⟨c, p, hadvance, hmade, hkept⟩ := advance_neutral h
  rw [hadvance]
  exact ⟨⟨c, p, rfl⟩, hmade, hkept, rfl⟩

/-- A gearbox left for neutral, with its direction clutches just drained, goes through steps 3 to 5 in NEUTRAL. -/
theorem LeftForNeutral.acts (h : LeftForNeutral s w) (hinputs : inputsTaken s = w) : intervalActed s = advance w := by
  have hhead : takeHead w = w := takeHead_of_not_inGear (by simp [h.state])
  have hfrom : advanceFrom s.shc.state w = advance w := if_pos (.inr h.state)
  obtain ⟨c, p, hadvance, -, -⟩ := advance_neutral h.state
  have hfwd : ((advance w).clutch .fwd).state = .draining := by
    have hv : (advance w).clutch .fwd = fillDone (locksAtOnce w.shc) (w.cfg.clutches.get .fwd) (w.clutch .fwd) := by
      rw [hadvance]
      exact fillTable_get .fwd
    rw [hv, h.direction (.inl rfl), fillDone_drainTo]
    rfl
  have hstate : (advance w).shc.state = .neutral := by
    rw [hadvance]
    exact h.state
  have htest (ended : Bool) : parkTest ended (advance w) = advance w := by
    have hcan : ¬ canPark (advance w) = true := fun k => by
      obtain ⟨-, -, -, -, hoff, -⟩ := canPark_iff.mp k
      simp [hfwd] at hoff
    unfold parkTest
    rw [if_neg hcan, if_neg (by simp [hstate])]
  rw [intervalActed, hinputs, hhead, hfrom, htest]

namespace LeftForNeutral

variable (h : LeftForNeutral s w) (ht : Finished s (advance w) t)
include h

/-- A clutch at the end of step 5, its fill completed where it is. -/
theorem clutchAfter (x : Clutch) : (advance w).clutch x = fillDone true (s.cfg.clutches.get x) (w.clutch x) := by
  obtain ⟨⟨c, p, hshc⟩, -, -, -⟩ := neutralActed h.state
  have hlocks : locksAtOnce w.shc = true := by simp [locksAtOnce, h.state]
  rw [State.clutch, hshc, ← h.cfg]
  exact fillTable_locks hlocks

theorem gearAfter {x : Clutch} (hx : x ≠ .fwd ∧ x ≠ .rev) :
    (advance w).clutch x = fillDone true (s.cfg.clutches.get x) ((leftClutches s).get x) := by
  rw [h.clutchAfter, h.gear hx]

theorem fillsAfter (x : Clutch) : (clutchesSet w (fillTable w)).clutch x = (advance w).clutch x := by
  obtain ⟨⟨c, p, hshc⟩, -, -, -⟩ := neutralActed h.state
  rw [State.clutch, State.clutch, hshc]
  rfl

theorem selectedAfter : (advance w).shc.selected = reselected s.cfg (leftCurrent s.shc) s.shc.selected := by
  obtain ⟨⟨c, p, hshc⟩, -, -, -⟩ := neutralActed h.state
  rw [hshc]
  exact h.selected

include ht

theorem drainedAfter {x : Clutch} {r : ClutchRec} (hx : x ≠ .fwd ∧ x ≠ .rev) (hr : (leftClutches s).get x = r.drainTo 0) :
    Emptied t x := by
  have hv := h.gearAfter hx
  rw [hr, fillDone_drainTo] at hv
  exact ht.emptied hv

/-- What the end of the interval holds a speed or range clutch at. -/
theorem lockedAfter {x : Clutch} {r : ClutchRec} (hx : x ≠ .fwd ∧ x ≠ .rev)
    (hv : (advance w).clutch x = r.lock (s.cfg.clutches.get x).hold) : HeldLocked t x := by
  obtain ⟨-, -, -, hcfg⟩ := neutralActed h.state
  rw [← h.cfg, ← hcfg] at hv
  exact ht.heldLocked hx hv

theorem heldAfter {x : Clutch} {r : ClutchRec} (hx : x ≠ .fwd ∧ x ≠ .rev)
    (hr : (leftClutches s).get x = r.lock (s.cfg.clutches.get x).hold) : HeldLocked t x := by
  have hv := h.gearAfter hx
  rw [hr, fillDone_lock] at hv
  exact h.lockedAfter ht hx hv

theorem directionAfter {x : Clutch} (hx : x = .fwd ∨ x = .rev) : Emptied t x := by
  have hv := h.clutchAfter x
  rw [h.direction hx, fillDone_drainTo] at hv
  exact ht.emptied hv

theorem droppedAfter : t.shc.queue = [] ∧ t.shc.torque = none ∧ t.shc.pendingShuttle = false ∧ t.shc.phase = none ∧
    t.shc.kind = none ∧ t.shc.target = none := by
  obtain ⟨⟨c, p, hshc⟩, -, -, -⟩ := neutralActed h.state
  rw [ht.queue, ht.torque, ht.pendingShuttle, ht.phase, ht.kind, ht.target, hshc]
  exact h.dropped

theorem learnedAfter (x : Clutch) : (t.clutch x).learned = (s.clutch x).learned := by
  obtain ⟨-, -, -, hlearned, -⟩ := ht.working x
  rw [hlearned, h.clutchAfter, fillDone_learned.1, State.clutch, h.clutches, drained_learned, leftClutches_learned]

/-- Without a PRESELECT the current gear is the one that was left. -/
theorem settledAfter (hbusy : s.shc.state.busy) (hpre : PreselectOnlyInNeutral s) (hnot : ¬ Preselecting s.shc) :
    t.shc.current = leftCurrent s.shc := by
  have hnone : s.shc.preselect = none := by
    by_contra hsome
    have hneutral := hpre hsome
    rcases hbusy with k | k | k | k <;> simp [k] at hneutral
  have hpreselect : w.shc.preselect = none := by rw [h.preselect, leftPreselect_of_not hnot, hnone]
  obtain ⟨-, -, hkept, -⟩ := neutralActed h.state
  obtain ⟨hcurrent, -⟩ := hkept fun g hg => by rw [hpreselect] at hg; cases hg
  exact (ht.current.trans hcurrent).trans h.current

/-- The pair of a PRESELECT that goes on in NEUTRAL. -/
theorem preselectAfter (hpreselecting : Preselecting s.shc) {g : Gear} (htarget : s.shc.target = some g) :
    (∀ x ∈ gearPair s.cfg g,
      ((s.clutch x).state = .locked → (t.clutch x).state = .locked) ∧
      (FillEnds s x → HeldLocked t x) ∧
      (FillGoesOn s x → (t.clutch x).state = .filling ∧ (t.clutch x).held = (s.clutch x).held + 10)) ∧
    ((∀ x ∈ gearPair s.cfg g, (s.clutch x).state = .locked ∨ FillEnds s x) →
      t.shc.current = some g ∧ t.shc.preselect = none) ∧
    ((∃ x ∈ gearPair s.cfg g, FillGoesOn s x) → t.shc.current = s.shc.current ∧ t.shc.preselect = some g) := by
  obtain ⟨hleft, hcurrent, hpreselect⟩ := left_of_preselecting hpreselecting
  obtain ⟨-, hmade, hkept, -⟩ := neutralActed h.state
  have hsame : t.shc.preselect = (advance w).shc.preselect := ht.same Shc.preselect fun _ _ _ => rfl
  have hv {x : Clutch} (hx : x ∈ gearPair s.cfg g) :
      (advance w).clutch x = fillDone true (s.cfg.clutches.get x) (s.clutch x) := by
    rw [h.gearAfter (gearPair_gear hx), hleft]
    rfl
  have hwpre : w.shc.preselect = some g := by rw [h.preselect, hpreselect, htarget]
  refine ⟨fun x hx => ⟨fun hlocked => ?_, fun hends => ?_, fun hgoes => ?_⟩, fun hall => ?_, fun ⟨x, hx, hgoes⟩ => ?_⟩
  · have hvx := hv hx
    rw [fillDone_of_other (by simp [hlocked])] at hvx
    exact (ht.stillAs hvx (by simp [hlocked])).1.trans hlocked
  · have hvx := hv hx
    rw [fillDone_of_ended hends.1 hends.2] at hvx
    exact h.lockedAfter ht (gearPair_gear hx) hvx
  · obtain ⟨hfilling, hheld, -⟩ := fillDone_goes (locks := true) (c := s.cfg.clutches.get x) hgoes
    rw [← hv hx] at hfilling hheld
    obtain ⟨hheld', -⟩ := ht.working x
    exact ⟨(ht.still (by simp [hfilling])).1.trans hfilling, hheld'.trans hheld⟩
  · obtain ⟨hmadeCurrent, hmadePreselect⟩ := hmade g hwpre (allIn_iff.mpr fun x hx => by
      rw [h.cfg] at hx
      rw [h.fillsAfter, hv hx]
      exact fillDone_locked (hall x hx))
    exact ⟨ht.current.trans hmadeCurrent, hsame.trans hmadePreselect⟩
  · obtain ⟨hkeptCurrent, hkeptPreselect⟩ := hkept fun g' hg' => by
      rw [hwpre] at hg'
      cases hg'
      refine allIn_false_iff.mpr ⟨x, by rw [h.cfg]; exact hx, ?_⟩
      rw [h.fillsAfter, hv hx, (fillDone_goes hgoes).1]
      nofun
    exact ⟨((ht.current.trans hkeptCurrent).trans h.current).trans hcurrent,
      (hsame.trans hkeptPreselect).trans hwpre⟩

/-- An interval that leaves the gearbox in NEUTRAL puts it in neutral. -/
theorem putIn (hbusy : s.shc.state.busy) (hpre : PreselectOnlyInNeutral s) : PutInNeutral s t := by
  constructor
  case state =>
    obtain ⟨⟨c, p, hshc⟩, -, -, -⟩ := neutralActed h.state
    rw [ht.state, hshc]
    exact h.state
  case dropped => exact h.droppedAfter ht
  case directions => exact ⟨h.directionAfter ht (.inl rfl), h.directionAfter ht (.inr rfl)⟩
  case kept =>
    intro hcompleted hnot
    rw [h.settledAfter ht hbusy hpre hnot, leftCurrent_of_kept hcompleted]
  case pairKept =>
    intro hstate g _ x hx hlocked
    have hleft : leftClutches s = s.shc.clutches := by simp [leftClutches, hstate]
    have hsame : s.shc.clutches.get x = s.clutch x := rfl
    have hv := h.gearAfter (gearPair_gear hx)
    rw [hleft, hsame, fillDone_of_other (by simp [hlocked])] at hv
    exact ⟨(ht.stillAs hv (by simp [hlocked])).1.trans hlocked,
      (ht.gearCommand (gearPair_gear hx)).trans (congrArg ClutchRec.value hv)⟩
  case abandoned =>
    intro hleft
    have hback := leftClutches_of_abandoned hleft
    exact ⟨fun x hx => h.drainedAfter ht (onComing_gear hx) (by rw [hback]; exact swapBack_onComing hx),
      fun x hx => h.heldAfter ht (offGoing_gear hx) (by rw [hback]; exact swapBack_offGoing hx)⟩
  case aborted =>
    intro hstate hphase x hx
    have hleft : leftClutches s = offLocked s s.shc.clutches := by simp [leftClutches, hstate, hphase]
    exact h.heldAfter ht (offGoing_gear hx) (by rw [hleft]; exact offLocked_get hx _)
  case completed =>
    intro hcompleted
    obtain ⟨hdone, hcurrent⟩ := leftClutches_of_completed hcompleted
    have hnot : ¬ Preselecting s.shc := fun k => by
      have hstate := hcompleted.1
      rw [k.1] at hstate
      cases hstate
    exact ⟨(h.settledAfter ht hbusy hpre hnot).trans hcurrent,
      fun x hx => h.heldAfter ht (onComing_gear hx) (by rw [hdone]; exact swapDone_onComing hx),
      fun x hx => h.drainedAfter ht (offGoing_gear hx) (by rw [hdone]; exact swapDone_offGoing hx)⟩
  case fills => exact fun hpreselecting g htarget => h.preselectAfter ht hpreselecting htarget
  case selected =>
    intro base hpreBase hnotBase
    have hbase : base = leftCurrent s.shc := by
      by_cases hp : Preselecting s.shc
      · rw [hpreBase hp, (left_of_preselecting hp).2.1]
      · rw [hnotBase hp, h.settledAfter ht hbusy hpre hp]
    rw [ht.same Shc.selected fun _ _ _ => rfl, h.selectedAfter, ← hbase]
    exact reselected_spec
  case learned => exact h.learnedAfter ht

end LeftForNeutral

end

end Sys2Proof.Proofs
end

