-- ==== Sys2Proof/Proofs/LeverToNeutral.lean ====
section
/-! PROOF. O35, first part: the levers N and PARK, and the brake station's park request, put the gearbox in neutral (R87,
R89, R90, log 83). -/

namespace Sys2Proof.Proofs

open Sys2Proof Sys2Proof.Machine

/-! ## The brake station's request through the moves of the gearbox -/

section
variable {s : State}

theorem brakeParkRequest_publish (g : Group) (s : State) : (publish g s).brakeParkRequest = s.brakeParkRequest := by
  have hlc := publish_lc g s
  unfold State.brakeParkRequest
  rw [hlc]

theorem brakeParkRequest_withdrawTorque (s : State) : (withdrawTorque s).brakeParkRequest = s.brakeParkRequest := by
  unfold withdrawTorque
  split
  · exact brakeParkRequest_publish _ _
  · rfl

theorem brakeParkRequest_dropToNeutral (s : State) : (dropToNeutral s).brakeParkRequest = s.brakeParkRequest := by
  have hdrain : overClutches drainClutch directionClutches s = clutchesSet s (directionDrained s) := drainAll_eq (by decide)
  have htorque := brakeParkRequest_withdrawTorque (clutchesSet s (directionDrained s))
  unfold dropToNeutral
  rw [hdrain, brakeParkRequest_enterGearbox]
  exact htorque

theorem brakeParkRequest_neutralize (h : s.shc.state.busy) : (neutralize s).brakeParkRequest = s.brakeParkRequest := by
  rw [neutralize_of_busy h, brakeParkRequest_dropToNeutral, reselect_eq]
  rfl

theorem brakeParkRequest_beginEngaging (g : Gear) (s : State) :
    (beginEngaging g s).brakeParkRequest = s.brakeParkRequest := by
  by_cases hlocked : ∀ x ∈ gearPair s.cfg g, (s.clutch x).state = .locked
  · rw [beginEngaging_of_locked hlocked, brakeParkRequest_enterGearbox, beginRamp_eq]
    rfl
  · push Not at hlocked
    obtain ⟨q, hall, -, -⟩ := preselectAll_eq (s := engagingSet g s) (gearPair_nodup s.cfg g)
      (fun _ hx _ hy => gearPair_apart hx hy) s.shc.clutches
    have hset : overClutches preselectClutch (gearPair s.cfg g) (engagingSet g s) = clutchesSet (engagingSet g s) q := hall
    rw [beginEngaging_of_unlocked hlocked, hset, brakeParkRequest_enterGearbox]
    rfl

theorem brakeParkRequest_beginShuttle (g x : Gear) (s : State) :
    (beginShuttle g x s).brakeParkRequest = s.brakeParkRequest := by
  rw [beginShuttle_eq, brakeParkRequest_enterGearbox]
  rfl

/-! ## The rest of step 1 and step 2 (R90, R95, R96) -/

theorem followParkRequest_of_free (h : parkRequested s = false) :
    followParkRequest s = s.withShc { s.shc with parkForce := false, pendingPark := false } := by
  unfold followParkRequest
  dsimp only
  rw [h]
  rfl

/-- Without a park request the rest of steps 1 and 2 of a sound gearbox clears the request's flags. -/
theorem restInputs_of_free {c : State} (hspeeds : c.speedsLost = false) (hrequested : parkRequested c = false)
    (hfault : c.gearboxFaulted = false) (hstate : c.shc.state ≠ .faultHold) :
    faultHoldTest (followParkRequest (takeSpeedLoss c)) =
      c.withShc { c.shc with speedLost := false, parkForce := false, pendingPark := false } := by
  rw [takeSpeedLoss_of_sound hspeeds,
    followParkRequest_of_free (s := c.withShc { c.shc with speedLost := false }) hrequested]
  exact faultHoldTest_of_sound (s := c.withShc
    { c.shc with speedLost := false, parkForce := false, pendingPark := false }) hstate hfault

/-- A park request that comes into force in a NEUTRAL gearbox sets the pending park alone. -/
theorem restInputs_of_park {c : State} (hspeeds : c.speedsLost = false) (hrequested : parkRequested c = true)
    (hfault : c.gearboxFaulted = false) (hstate : c.shc.state = .neutral) (hforce : c.shc.parkForce = false) :
    faultHoldTest (followParkRequest (takeSpeedLoss c)) =
      c.withShc { c.shc with speedLost := false, parkForce := true, pendingPark := true } := by
  have htaken : takePark ((c.withShc { c.shc with speedLost := false }).withShc
      { c.shc with speedLost := false, parkForce := true }) =
      c.withShc { c.shc with speedLost := false, parkForce := true, pendingPark := true } := by
    have hnot : ¬ c.shc.state = .parked := by simp [hstate]
    exact (if_neg hnot).trans (neutralize_of_rest (s := c.withShc
      { c.shc with speedLost := false, parkForce := true, pendingPark := true }) (.inr (.inl hstate)))
  have hfollow := followParkRequest_of_now (s := c.withShc { c.shc with speedLost := false }) hrequested
  rw [takeSpeedLoss_of_sound hspeeds, hfollow, if_neg (by
    change ¬ c.shc.parkForce = true
    simp [hforce])]
  exact (congrArg faultHoldTest htaken).trans (faultHoldTest_of_sound (s := c.withShc
    { c.shc with speedLost := false, parkForce := true, pendingPark := true }) (by
      change c.shc.state ≠ .faultHold
      simp [hstate]) hfault)

/-! ## The lever moved -/

/-- A changed lever of a FRESH cab record acts, and nothing else is new. -/
structure LeverMoves (s : State) (d : CabDriveFields) : Prop where
  runs : s.mc.mode.controllersRun = true
  started : s.shc.starting = false
  cab : s.lc.cabDrive.current = some d
  fresh : s.shc.cabFresh = true
  moved : d.lever ≠ s.shc.lever
  sound : s.gearboxFaulted = false
  speeds : s.speedsLost = false
  order : s.shc.parkOrder = false
  brake : s.brakeParkRequest = false
  force : s.shc.parkForce = false

/-- The state with levels and lever taken. -/
def leverTaken (d : CabDriveFields) (s : State) : State := leverSet d.lever (takeLevels d s)

theorem cabTaken_of_moved {d : CabDriveFields} (h : LeverMoves s d) :
    cabTaken s = changeLever d.lever (takeLevels d s) := by
  rw [cabTaken, firstInterval_of_started h.started, takeCab_of_changed h.cab h.fresh h.moved]

theorem inputsTaken_eq (s : State) : inputsTaken s = faultHoldTest (followParkRequest (takeSpeedLoss (cabTaken s))) := rfl

theorem leftForNeutral_taken {w : State} {d : CabDriveFields} (h : w.shc = neutralRec (leverTaken d s)) (hcfg : w.cfg = s.cfg) :
    LeftForNeutral s w :=
  leftForNeutral_of_rec h hcfg rfl rfl rfl rfl rfl

/-- What a state keeps whose vehicle inputs and valves stand. -/
theorem sound_of_touches {l : List Part} {w : State} (h : Touches l s w) (hvdb : Part.vdb ∉ l) (hscu : Part.scu ∉ l) :
    w.gearboxFaulted = s.gearboxFaulted ∧ w.speedsLost = s.speedsLost := by
  unfold State.gearboxFaulted State.speedsLost
  rw [h .vdb hvdb, h .scu hscu]
  exact ⟨rfl, rfl⟩

/-- An interval that leaves the gearbox in NEUTRAL, with the record's inputs. -/
theorem neutral_interval {w : State} (hruns : s.mc.mode.controllersRun = true) (hbusy : s.shc.state.busy)
    (hpre : PreselectOnlyInNeutral s) (h : LeftForNeutral s w) (hinputs : inputsTaken s = w) :
    ∃ t : State, exec .shcControlInterval s = .next t ∧ PutInNeutral s t ∧ t.shc.lever = w.shc.lever ∧
      t.shc.ignored = w.shc.ignored ∧ t.shc.parkForce = w.shc.parkForce ∧ t.shc.pendingPark = w.shc.pendingPark := by
  have hend := finished s (advance w)
  rw [← h.acts hinputs] at hend
  obtain ⟨⟨c, p, hshc⟩, -, -, -⟩ := neutralActed h.state
  refine ⟨_, exec_shcControlInterval hruns, ?_⟩
  rw [h.acts hinputs] at hend ⊢
  generalize finishInterval (drainingClutches s) (advance w) = t at *
  refine ⟨h.putIn hend hbusy hpre, ?_, ?_, ?_, ?_⟩
  · rw [hend.lever, hshc]
  · rw [hend.ignored, hshc]
  · rw [hend.same Shc.parkForce fun _ _ _ => rfl, hshc]
  · rw [hend.pendingPark, hshc]

/-- The lever moved to N (R89). -/
theorem lever_to_neutral {d : CabDriveFields} (h : LeverMoves s d) (hbusy : s.shc.state.busy)
    (hpre : PreselectOnlyInNeutral s) (hn : d.lever = .n) : ∃ t : State, exec .shcControlInterval s = .next t ∧
    PutInNeutral s t ∧ t.shc.lever = .n ∧ t.shc.ignored = none ∧ t.shc.parkForce = false ∧ t.shc.pendingPark = false := by
  have hbase : (leverTaken d s).shc.state.busy := hbusy
  have hchange : changeLever d.lever (takeLevels d s) = neutralize (leverTaken d s) := by
    unfold changeLever leverTaken
    rw [hn]
    rfl
  have htouches : Touches [.shc, .lc] s (neutralize (leverTaken d s)) :=
    (((touches_withShc s (takeLevels d s).shc).trans (touches_withShc _ (leverTaken d s).shc)).mono (by decide)).trans
      (touches_neutralize _)
  obtain ⟨hsound, hspeeds⟩ := sound_of_touches htouches (by decide) (by decide)
  have hbrake := brakeParkRequest_neutralize hbase
  have hshc := neutralize_shc hbase
  have hcab := (cabTaken_of_moved h).trans hchange
  have hlever : (neutralRec (leverTaken d s)).lever = .n := hn
  generalize neutralize (leverTaken d s) = c at *
  have hleft : LeftForNeutral s c := leftForNeutral_taken hshc (htouches .cfg (by decide))
  have hrequested : parkRequested c = false := by
    unfold parkRequested
    rw [hbrake, show (leverTaken d s).brakeParkRequest = false from h.brake, hleft.state, hshc, hlever,
      show (neutralRec (leverTaken d s)).parkOrder = false from h.order]
    rfl
  have hrest := restInputs_of_free (hspeeds.trans h.speeds) hrequested (hsound.trans h.sound) (by simp [hleft.state])
  have hinputs : inputsTaken s = c.withShc { c.shc with speedLost := false, parkForce := false, pendingPark := false } := by
    rw [inputsTaken_eq, hcab, hrest]
  obtain ⟨t, hexec, hput, hl, hi, hf, hp⟩ := neutral_interval h.runs hbusy hpre hleft.withFlags hinputs
  refine ⟨t, hexec, hput, hl.trans ?_, hi.trans ?_, hf, hp⟩
  · exact (congrArg Shc.lever hshc).trans hlever
  · exact congrArg Shc.ignored hshc

/-- The lever moved to PARK (R89, R90). -/
theorem lever_to_park {d : CabDriveFields} (h : LeverMoves s d) (hbusy : s.shc.state.busy)
    (hpre : PreselectOnlyInNeutral s) (hn : d.lever = .park) : ∃ t : State, exec .shcControlInterval s = .next t ∧
    PutInNeutral s t ∧ t.shc.lever = .park ∧ t.shc.ignored = none ∧ t.shc.parkForce = true ∧ t.shc.pendingPark = true := by
  have hnotParked : ¬ (leverTaken d s).shc.state = .parked := by
    change ¬ s.shc.state = .parked
    rcases hbusy with k | k | k | k <;> simp [k]
  have hbase : ((leverTaken d s).withShc { (leverTaken d s).shc with pendingPark := true }).shc.state.busy := hbusy
  have hchange : changeLever d.lever (takeLevels d s) =
      neutralize ((leverTaken d s).withShc { (leverTaken d s).shc with pendingPark := true }) := by
    have hpark : changeLever d.lever (takeLevels d s) = takePark (leverTaken d s) := by
      unfold changeLever leverTaken
      rw [hn]
      rfl
    exact hpark.trans (if_neg hnotParked)
  have htouches : Touches [.shc, .lc] s
      (neutralize ((leverTaken d s).withShc { (leverTaken d s).shc with pendingPark := true })) :=
    ((((touches_withShc s (takeLevels d s).shc).trans (touches_withShc _ (leverTaken d s).shc)).trans
      (touches_withShc _ _)).mono (by decide)).trans (touches_neutralize _)
  obtain ⟨hsound, hspeeds⟩ := sound_of_touches htouches (by decide) (by decide)
  have hshc := neutralize_shc hbase
  have hcab := (cabTaken_of_moved h).trans hchange
  have hfields : (neutralRec ((leverTaken d s).withShc { (leverTaken d s).shc with pendingPark := true })).lever = .park ∧
      (neutralRec ((leverTaken d s).withShc { (leverTaken d s).shc with pendingPark := true })).ignored = none ∧
      (neutralRec ((leverTaken d s).withShc { (leverTaken d s).shc with pendingPark := true })).parkForce = false :=
    ⟨hn, rfl, h.force⟩
  obtain ⟨hlever, hignored, hforce⟩ := hfields
  generalize neutralize ((leverTaken d s).withShc { (leverTaken d s).shc with pendingPark := true }) = c at *
  have hleft : LeftForNeutral s c := leftForNeutral_of_rec hshc (htouches .cfg (by decide)) rfl rfl rfl rfl rfl
  have hrequested : parkRequested c = true := by
    unfold parkRequested
    rw [hshc, hlever]
    simp
  have hrest := restInputs_of_park (hspeeds.trans h.speeds) hrequested (hsound.trans h.sound) hleft.state
    (by rw [hshc, hforce])
  have hinputs : inputsTaken s = c.withShc { c.shc with speedLost := false, parkForce := true, pendingPark := true } := by
    rw [inputsTaken_eq, hcab, hrest]
  obtain ⟨t, hexec, hput, hl, hi, hf, hp⟩ := neutral_interval h.runs hbusy hpre hleft.withFlags hinputs
  refine ⟨t, hexec, hput, hl.trans ?_, hi.trans ?_, hf, hp⟩
  · exact (congrArg Shc.lever hshc).trans hlever
  · exact (congrArg Shc.ignored hshc).trans hignored

/-- The state with the levels of step 1 taken. -/
def cabLevels (s : State) (i : Levels) : State := s.withShc { s.shc with
  pedal := i.pedal, auto := i.auto, rate := i.rate, pedalHold := i.hold, cabFresh := i.fresh }

/-- The state in which a park request that comes into force acts. -/
def parkAsked (s : State) (i : Levels) : State := (cabLevels s i).withShc { (cabLevels s i).shc with
  speedLost := false, parkForce := true, pendingPark := true }

/-- A park request that comes into force in a gearbox that is not PARKED acts as N. -/
theorem followParkRequest_of_asked {i : Levels} (hparked : s.shc.state ≠ .parked) (hrequested : parkRequested s = true)
    (hforce : s.shc.parkForce = false) (hspeeds : s.speedsLost = false) :
    followParkRequest (takeSpeedLoss (cabLevels s i)) = neutralize (parkAsked s i) := by
  have hread : parkRequested ((cabLevels s i).withShc { (cabLevels s i).shc with speedLost := false }) = true := hrequested
  have hfollow := followParkRequest_of_now hread
  have hnot : ¬ ((cabLevels s i).withShc { (cabLevels s i).shc with speedLost := false }).shc.parkForce = true := by
    change ¬ s.shc.parkForce = true
    simp [hforce]
  have hspeed : takeSpeedLoss (cabLevels s i) = (cabLevels s i).withShc { (cabLevels s i).shc with speedLost := false } :=
    takeSpeedLoss_of_sound (s := cabLevels s i) hspeeds
  rw [hspeed, hfollow, if_neg hnot]
  exact if_neg hparked

/-- The brake station's park request comes into force (R90, log 83). -/
theorem brake_parks (hpre : PreselectOnlyInNeutral s) (hruns : s.mc.mode.controllersRun = true)
    (hstarted : s.shc.starting = false) (hcab : CabSteady s) (hsound : s.gearboxFaulted = false)
    (hspeeds : s.speedsLost = false) (hforce : s.shc.parkForce = false) (hbrake : s.brakeParkRequest = true)
    (hbusy : s.shc.state.busy) : ∃ t : State, exec .shcControlInterval s = .next t ∧ PutInNeutral s t ∧
    t.shc.lever = s.shc.lever ∧ t.shc.parkForce = true ∧ t.shc.pendingPark = true := by
  obtain ⟨i, htaken, -, -⟩ := takeCab_of_steady hcab
  have hlevels : cabTaken s = cabLevels s i := by
    rw [cabTaken, firstInterval_of_started hstarted, htaken]
    rfl
  have hnotParked : s.shc.state ≠ .parked := by rcases hbusy with k | k | k | k <;> simp [k]
  have hfollow := followParkRequest_of_asked (i := i) hnotParked (by simp [parkRequested, hbrake]) hforce hspeeds
  have hbase : (parkAsked s i).shc.state.busy := hbusy
  have hshc := neutralize_shc hbase
  have htouches : Touches [.shc, .lc] s (neutralize (parkAsked s i)) :=
    (((touches_withShc s (cabLevels s i).shc).trans (touches_withShc _ (parkAsked s i).shc)).mono (by decide)).trans
      (touches_neutralize _)
  obtain ⟨hsound', -⟩ := sound_of_touches htouches (by decide) (by decide)
  have hinputs : inputsTaken s = faultHoldTest (neutralize (parkAsked s i)) := by rw [inputsTaken_eq, hlevels, hfollow]
  have hfields : (neutralRec (parkAsked s i)).lever = s.shc.lever ∧ (neutralRec (parkAsked s i)).parkForce = true ∧
      (neutralRec (parkAsked s i)).pendingPark = true := ⟨rfl, rfl, rfl⟩
  obtain ⟨hlever, hforce', hpending⟩ := hfields
  generalize neutralize (parkAsked s i) = w at *
  have hleft : LeftForNeutral s w := leftForNeutral_of_rec hshc (htouches .cfg (by decide)) rfl rfl rfl rfl rfl
  rw [faultHoldTest_of_sound (by simp [hleft.state]) (hsound'.trans hsound)] at hinputs
  obtain ⟨t, hexec, hput, hl, -, hf, hp⟩ := neutral_interval hruns hbusy hpre hleft hinputs
  rw [hshc] at hl hf hp
  exact ⟨t, hexec, hput, hl.trans hlever, hf.trans hforce', hp.trans hpending⟩

end

end Sys2Proof.Proofs
end

