-- ==== Sys2Proof/Proofs/LeverInOperation.lean ====
section
/-! PROOF. O35, second part: a lever direction in an operation, in gear and in NEUTRAL (R83 to R85). -/

namespace Sys2Proof.Proofs

open Sys2Proof Sys2Proof.Machine

section
variable {s u t : State}

/-! ## An operation that goes on -/

/-- The state, the pending shuttle and the ignored position of the one record are those of the other. -/
def SameAsked (k l : Shc) : Prop :=
  l.state = k.state ∧ l.pendingShuttle = k.pendingShuttle ∧ l.ignored = k.ignored

theorem fill_sameAsked (hstate : u.shc.state = .shifting) (hphase : u.shc.phase = some .fill) :
    SameAsked u.shc (advance u).shc := by
  obtain ⟨hdone, hgoes⟩ := advance_fill hstate hphase
  by_cases hfilled : fillsDone u
  · rw [hdone hfilled]
    unfold endFill
    split
    · rw [beginTorqueUp_shc]
      exact ⟨rfl, rfl, rfl⟩
    · rw [beginInertiaDown_eq]
      exact ⟨rfl, rfl, rfl⟩
  · rw [hgoes hfilled]
    exact ⟨rfl, rfl, rfl⟩

theorem torque_sameAsked (hstate : u.shc.state = .shifting) (hphase : u.shc.phase = some .torque) :
    SameAsked u.shc (advance u).shc := by
  rw [advance_torque hstate hphase]
  by_cases hkind : u.shc.kind = some .up
  · have hstepped : SameAsked u.shc (torqueUpStepped (clutchesSet u (markTable u))).shc := ⟨rfl, rfl, rfl⟩
    have hup : (torqueUpStepped (clutchesSet u (markTable u))).shc.kind = some .up := hkind
    rw [torqueStep_of_up (s := clutchesSet u (markTable u)) hstate hphase hkind]
    generalize torqueUpStepped (clutchesSet u (markTable u)) = v at *
    split
    · rw [endTorque_of_up hup]
      exact hstepped
    · exact hstepped
  · have hstepped : SameAsked u.shc (torqueDownStepped (clutchesSet u (markTable u))).shc := ⟨rfl, rfl, rfl⟩
    have hdown : (torqueDownStepped (clutchesSet u (markTable u))).shc.kind ≠ some .up := hkind
    rw [torqueStep_of_down (s := clutchesSet u (markTable u)) hstate hphase hkind]
    generalize torqueDownStepped (clutchesSet u (markTable u)) = v at *
    split
    · rw [endTorque_of_down hdown]
      exact hstepped
    · exact hstepped

theorem inertia_sameAsked (hstate : u.shc.state = .shifting) (hphase : u.shc.phase = some .inertia) :
    SameAsked u.shc (advance u).shc := by
  obtain ⟨hsync, htimeout, hgoes⟩ := advance_inertia hstate hphase
  rcases lt_or_ge (syncAfter u) 3 with hlow | hdue
  · rcases lt_or_ge (u.shc.interval + 1) 150 with h150 | h150
    · rw [hgoes hlow h150]
      exact ⟨rfl, rfl, rfl⟩
    · have hfaults : (clearFault .shiftTimeout (raiseLatched .shiftTimeout (inertiaStepped u))).shc =
          (inertiaStepped u).shc :=
        ((touches_raiseLatched .shiftTimeout (inertiaStepped u)).trans (touches_clearFault _ _)) .shc (by decide)
      have hflush (w : State) : (flushQueue w).shc = { w.shc with queue := [] } := rfl
      rw [htimeout hlow h150, timeOutShift_eq, beginAbort_shc, shiftFlushed, hflush, hfaults]
      exact ⟨rfl, rfl, rfl⟩
  · rw [hsync hdue]
    unfold syncPoint
    split
    · rw [beginLockupUp_shc]
      exact ⟨rfl, rfl, rfl⟩
    · rw [beginTorqueDown_eq]
      exact ⟨rfl, rfl, rfl⟩

theorem abort_sameAsked (hstate : u.shc.state = .shifting) (hphase : u.shc.phase = some .abort)
    (hshort : u.shc.interval + 1 < 20) :
    SameAsked u.shc (advance u).shc := by
  rw [advance_abort hstate hphase, if_neg (by omega)]
  exact ⟨rfl, rfl, rfl⟩

theorem preselect_sameAsked (hstate : u.shc.state = .engaging) (hphase : u.shc.phase = some .preselect) :
    SameAsked u.shc (advance u).shc := by
  cases htarget : u.shc.target with
  | some g =>
    rw [advance_preselect hstate hphase htarget]
    split
    · rw [beginRamp_eq]
      exact ⟨rfl, rfl, rfl⟩
    · exact ⟨rfl, rfl, rfl⟩
  | none =>
    have hadvance : advance u = afterFills (fillStep u) := by
      unfold advance
      rw [hstate, hphase]
    rw [hadvance, fillStep_of_preselect hstate hphase,
      afterFills_of_no_target (s := clutchesSet u (fillTable u)) hstate hphase htarget]
    exact ⟨rfl, rfl, rfl⟩

theorem ramp_sameAsked (hstate : u.shc.state = .engaging) (hphase : u.shc.phase = some .ramp)
    (hshort : u.shc.interval + 1 < max 1 (u.cfg.engageRamp / 10)) :
    SameAsked u.shc (advance u).shc := by
  rw [advance_ramp hstate hphase]
  split
  · obtain ⟨n, hstep, -⟩ := fillStep_eq u
    rw [hstep]
    exact ⟨rfl, rfl, rfl⟩
  · rw [rampStep_eq hstate hphase, if_neg (show ¬ rampIntervals u ≤ u.shc.interval + 1 from not_le.mpr hshort)]
    exact ⟨rfl, rfl, rfl⟩

theorem drain_sameAsked (hstate : u.shc.state = .shuttling) (hphase : u.shc.phase = some .drain) :
    SameAsked u.shc (advance u).shc := by
  obtain ⟨hdone, hgoes⟩ := advance_drain_eq hstate hphase
  by_cases hdrained : drainDone u
  · rw [hdone hdrained]
    exact ⟨rfl, rfl, rfl⟩
  · rw [hgoes hdrained]
    exact ⟨rfl, rfl, rfl⟩

theorem reverseBrake_sameAsked (hstate : u.shc.state = .shuttling) (hphase : u.shc.phase = some .reverseBrake) :
    SameAsked u.shc (advance u).shc := by
  rw [advance_reverseBrake hstate hphase]
  split <;> exact ⟨rfl, rfl, rfl⟩

theorem driveAway_sameAsked (hstate : u.shc.state = .shuttling) (hphase : u.shc.phase = some .driveAway)
    (hshort : u.shc.interval + 1 < max 1 (u.cfg.engageRamp / 10)) :
    SameAsked u.shc (advance u).shc := by
  rw [advance_driveAway hstate hphase, if_neg (show ¬ rampIntervals u ≤ u.shc.interval + 1 from not_le.mpr hshort)]
  exact ⟨rfl, rfl, rfl⟩

/-- One interval of an operation that does not arrive in gear keeps its state, the pending shuttle and the ignored
position. -/
theorem advance_goes_on (h : OperationGoesOn u) : SameAsked u.shc (advance u).shc := by
  rcases h with ⟨hstate, hphase | hphase | hphase | ⟨hphase, hshort⟩⟩ | ⟨hstate, hphase | ⟨hphase, hshort⟩⟩ |
    ⟨hstate, hphase | hphase | ⟨hphase, hshort⟩⟩
  · exact fill_sameAsked hstate hphase
  · exact torque_sameAsked hstate hphase
  · exact inertia_sameAsked hstate hphase
  · exact abort_sameAsked hstate hphase hshort
  · exact preselect_sameAsked hstate hphase
  · exact ramp_sameAsked hstate hphase hshort
  · exact drain_sameAsked hstate hphase
  · exact reverseBrake_sameAsked hstate hphase
  · exact driveAway_sameAsked hstate hphase hshort

/-! ## A lever change that leaves a gear or an operation -/

/-- The state at the end of step 2 where no park request stands. -/
def freed (c : State) : State :=
  c.withShc { c.shc with speedLost := false, parkForce := false, pendingPark := false }

theorem inputs_of_moved {d : CabDriveFields} {c : State} (h : LeverMoves s d)
    (hc : changeLever d.lever (takeLevels d s) = c) (htouches : Touches [.shc, .lc] s c)
    (hbrake : c.brakeParkRequest = s.brakeParkRequest) (hlever : c.shc.lever ≠ .park) (hbusy : c.shc.state.busy)
    (horder : c.shc.parkOrder = s.shc.parkOrder) : inputsTaken s = freed c := by
  obtain ⟨hsound, hspeeds⟩ := sound_of_touches htouches (by decide) (by decide)
  have hnot : c.shc.state ≠ .parked ∧ c.shc.state ≠ .faultHold := by rcases hbusy with k | k | k | k <;> simp [k]
  obtain ⟨hparked, hhold⟩ := hnot
  have hrequested : parkRequested c = false := by
    unfold parkRequested
    rw [hbrake, h.brake, horder, h.order]
    simp [hlever, hparked]
  rw [inputsTaken_eq, cabTaken_of_moved h, hc,
    restInputs_of_free (hspeeds.trans h.speeds) hrequested (hsound.trans h.sound) hhold]
  rfl

/-- The interval in which a lever change begins an operation does no more. -/
theorem interval_of_begun {c : State} (hruns : s.mc.mode.controllersRun = true) (hinputs : inputsTaken s = freed c)
    (hstate : c.shc.state = .engaging ∨ c.shc.state = .shuttling) (hbefore : c.shc.state ≠ s.shc.state) :
    ∃ t : State, exec .shcControlInterval s = .next t ∧ Finished s (freed c) t := by
  have hgear : (freed c).shc.state ≠ .inGear ∧ (freed c).shc.state ≠ .neutral := by
    change c.shc.state ≠ _ ∧ c.shc.state ≠ _
    rcases hstate with k | k <;> simp [k]
  have hbusy : (freed c).shc.state.busy := hstate.elim (fun k => .inr (.inr (.inl k))) fun k => .inr (.inr (.inr k))
  have hacted : intervalActed s = freed c := by
    rw [intervalActed, hinputs, takeHead_of_not_inGear hgear.1, advanceFrom_of_other (s := freed c) hbefore hgear.2, parkTest_of_busy hbusy]
  refine ⟨_, exec_shcControlInterval hruns, ?_⟩
  rw [hacted]
  exact finished s _

/-- The interval of a gearbox that stays IN_GEAR with an empty queue does no more. -/
theorem interval_of_inGear {w : State} (hruns : s.mc.mode.controllersRun = true) (hinputs : inputsTaken s = w)
    (hstate : w.shc.state = .inGear) (hqueue : w.shc.queue = []) :
    ∃ t : State, exec .shcControlInterval s = .next t ∧ Finished s w t := by
  have hstill : advanceFrom s.shc.state w = w := by
    have hadvance : advance w = w := by
      unfold advance
      rw [hstate]
    unfold advanceFrom
    rw [hadvance, ite_self]
  have hacted : intervalActed s = w := by
    rw [intervalActed, hinputs, takeHead_of_empty hqueue, hstill, parkTest_of_busy (.inl hstate)]
  refine ⟨_, exec_shcControlInterval hruns, ?_⟩
  rw [hacted]
  exact finished s _

theorem touches_leverTaken (d : CabDriveFields) (s : State) : Touches [.shc, .lc] s (leverTaken d s) :=
  ((touches_withShc s (takeLevels d s).shc).trans (touches_withShc _ (leverTaken d s).shc)).mono (by decide)

theorem changeLever_of_drive {d : CabDriveFields} (h : d.lever = .f ∨ d.lever = .r) :
    changeLever d.lever (takeLevels d s) = moveToDirection s.shc.lever (leverTaken d s) := by
  unfold changeLever leverTaken
  rcases h with h | h <;> rw [h] <;> rfl

theorem drive_ne_park {l : Lever} (h : l = .f ∨ l = .r) : l ≠ .park := by rcases h with rfl | rfl <;> nofun

/-! ## An operation in progress (R85, R87) -/

/-- The interval of an operation that goes on keeps what the lever change wrote. -/
theorem interval_of_goes_on {w : State} (hruns : s.mc.mode.controllersRun = true) (hinputs : inputsTaken s = w)
    (hstates : s.shc.state = .shifting ∨ s.shc.state = .engaging ∨ s.shc.state = .shuttling)
    (hstate : w.shc.state = s.shc.state) (hgoes : OperationGoesOn w) :
    ∃ t : State, exec .shcControlInterval s = .next t ∧ t.shc.state = s.shc.state ∧ t.shc.lever = w.shc.lever ∧
      t.shc.ignored = w.shc.ignored ∧ t.shc.pendingShuttle = w.shc.pendingShuttle := by
  obtain ⟨hkept, hpending, hignored⟩ := advance_goes_on hgoes
  have hlever := ((Moves.refl (l := [.shc, .lc, .mc]) (by decide) (by decide) w).advance (by decide)).lever
  have hnot : w.shc.state ≠ .inGear := by
    rw [hstate]
    rcases hstates with k | k | k <;> simp [k]
  have hbusy : (advance w).shc.state.busy := by
    rw [hkept, hstate]
    exact .inr hstates
  have hacted : intervalActed s = advance w := by
    have hfrom : advanceFrom s.shc.state w = advance w := if_pos (.inl hstate)
    rw [intervalActed, hinputs, takeHead_of_not_inGear hnot, hfrom, parkTest_of_busy hbusy]
  have hend := finished s (advance w)
  refine ⟨_, exec_shcControlInterval hruns, ?_⟩
  rw [hacted]
  generalize finishInterval (drainingClutches s) (advance w) = t at *
  exact ⟨(hend.state.trans hkept).trans hstate, hend.lever.trans hlever, hend.ignored.trans hignored,
    (hend.same Shc.pendingShuttle fun _ _ _ => rfl).trans hpending⟩

/-- The state with the pending shuttle written. -/
def shuttleAsked (p : Bool) (s : State) : State := s.withShc { s.shc with pendingShuttle := p }

/-- In an operation a lever direction writes the pending shuttle alone. -/
theorem moveToDirection_of_operation {old : Lever} {g : Gear} (h : (s.shc.state = .shifting ∧ s.shc.current = some g) ∨
    ((s.shc.state = .engaging ∨ s.shc.state = .shuttling) ∧ s.shc.target = some g)) :
    moveToDirection old s = shuttleAsked (leverOpposes s.shc.lever (some g)) s := by
  have hgear : gearboxGear s = some g := by
    unfold gearboxGear
    rcases h with ⟨hstate, hgear⟩ | ⟨hstate | hstate, hgear⟩ <;> rw [hstate] <;> exact hgear
  unfold moveToDirection
  rw [hgear]
  rcases h with ⟨hstate, -⟩ | ⟨hstate | hstate, -⟩ <;> rw [hstate] <;> rfl

theorem lever_in_operation {d : CabDriveFields} {g : Gear} (h : LeverMoves s d)
    (hgear : (s.shc.state = .shifting ∧ s.shc.current = some g) ∨
      ((s.shc.state = .engaging ∨ s.shc.state = .shuttling) ∧ s.shc.target = some g))
    (hdrive : d.lever = .f ∨ d.lever = .r) (hgoes : OperationGoesOn s) :
    ∃ t : State, exec .shcControlInterval s = .next t ∧ t.shc.state = s.shc.state ∧
      t.shc.lever = d.lever ∧ t.shc.ignored = none ∧
      (t.shc.pendingShuttle = true ↔ d.lever ≠ Dir.lever g.dir) := by
  have hmove : moveToDirection s.shc.lever (leverTaken d s) =
      shuttleAsked (leverOpposes d.lever (some g)) (leverTaken d s) := moveToDirection_of_operation (s := leverTaken d s) hgear
  have hstates : s.shc.state = .shifting ∨ s.shc.state = .engaging ∨ s.shc.state = .shuttling := by
    rcases hgear with ⟨hstate, -⟩ | ⟨hstate | hstate, -⟩
    · exact .inl hstate
    · exact .inr (.inl hstate)
    · exact .inr (.inr hstate)
  have hinputs := inputs_of_moved h ((changeLever_of_drive (s := s) hdrive).trans hmove)
    (also (touches_leverTaken d s) (touches_withShc _ (shuttleAsked (leverOpposes d.lever (some g)) (leverTaken d s)).shc))
    rfl (drive_ne_park hdrive) (.inr hstates) rfl
  obtain ⟨t, hexec, hstate, hlever, hignored, hpending⟩ := interval_of_goes_on h.runs hinputs hstates rfl hgoes
  refine ⟨t, hexec, hstate, hlever, hignored, ?_⟩
  rw [hpending]
  exact leverOpposes_iff.trans (and_iff_right hdrive)

end

end Sys2Proof.Proofs
end

