-- ==== Sys2Proof/Proofs/LeverInGear.lean ====
section
/-! PROOF. O35, third part: a lever direction in gear and in NEUTRAL (R83 to R85). -/

namespace Sys2Proof.Proofs

open Sys2Proof Sys2Proof.Machine

section
variable {s u t : State}

/-! ## What a lever direction asks -/

/-- From N the direction of the gear itself takes a pending shuttle back. -/
theorem moveToDirection_of_own {old : Lever} (hstate : s.shc.state = .inGear) (hold : old.drives = false)
    (hsame : leverOpposes s.shc.lever s.shc.current = false) : moveToDirection old s = shuttleAsked false s := by
  unfold moveToDirection
  rw [hstate]
  exact if_neg (by simp [hold, hsame])

theorem moveToDirection_of_opposed {old : Lever} (hstate : s.shc.state = .inGear)
    (h : old.drives = true ∨ leverOpposes s.shc.lever s.shc.current = true) : moveToDirection old s = shuttleRequest s := by
  unfold moveToDirection
  rw [hstate]
  exact if_pos h

theorem moveToDirection_of_neutral {old : Lever} (hstate : s.shc.state = .neutral) :
    moveToDirection old s = engageLever s := by
  unfold moveToDirection
  rw [hstate]

theorem dirLever_drives (d : Dir) : Dir.lever d = .f ∨ Dir.lever d = .r := by cases d <;> simp [Dir.lever]

/-- A lever direction in gear that is not the gear's own after N, or that is moved between F and R, asks for a shuttle. -/
theorem leverTaken_opposed {d : CabDriveFields} {g : Gear} (hcurrent : s.shc.current = some g)
    (hmove : (s.shc.lever = .f ∧ d.lever = .r) ∨ (s.shc.lever = .r ∧ d.lever = .f) ∨
      (s.shc.lever = .n ∧ (d.lever = .f ∨ d.lever = .r) ∧ d.lever ≠ Dir.lever g.dir)) :
    (d.lever = .f ∨ d.lever = .r) ∧ (s.shc.lever.drives = true ∨ leverOpposes d.lever s.shc.current = true) := by
  rcases hmove with ⟨hold, hnew⟩ | ⟨hold, hnew⟩ | ⟨-, hnew, hne⟩
  · exact ⟨.inr hnew, .inl (by rw [hold]; rfl)⟩
  · exact ⟨.inl hnew, .inl (by rw [hold]; rfl)⟩
  · exact ⟨hnew, .inr (by rw [hcurrent]; exact leverOpposes_iff.mpr ⟨hnew, hne⟩)⟩

/-! ## In gear (R85) -/

/-- The gear's own direction after N. -/
theorem lever_own_direction {d : CabDriveFields} {g : Gear} (h : LeverMoves s d) (hstate : s.shc.state = .inGear)
    (hold : s.shc.lever = .n) (hcurrent : s.shc.current = some g) (hown : d.lever = Dir.lever g.dir)
    (hqueue : s.shc.queue = []) :
    ∃ t : State, exec .shcControlInterval s = .next t ∧ t.shc.state = .inGear ∧ t.shc.current = some g ∧
      t.shc.pendingShuttle = false ∧ t.shc.lever = d.lever ∧ t.shc.ignored = none ∧ t.shc.refusals = s.shc.refusals := by
  have hdrive : d.lever = .f ∨ d.lever = .r := by
    rw [hown]
    exact dirLever_drives g.dir
  have hsame : leverOpposes d.lever s.shc.current = false := by
    rw [hcurrent, Bool.eq_false_iff]
    exact fun k => (leverOpposes_iff.mp k).2 hown
  have hmove : moveToDirection s.shc.lever (leverTaken d s) = shuttleAsked false (leverTaken d s) :=
    moveToDirection_of_own (s := leverTaken d s) hstate (by rw [hold]; rfl) hsame
  have hinputs := inputs_of_moved h ((changeLever_of_drive (s := s) hdrive).trans hmove)
    (also (touches_leverTaken d s) (touches_withShc _ (shuttleAsked false (leverTaken d s)).shc))
    rfl (drive_ne_park hdrive) (.inl hstate) rfl
  obtain ⟨t, hexec, hend⟩ := interval_of_inGear h.runs hinputs hstate hqueue
  exact ⟨t, hexec, hend.state.trans hstate, hend.current.trans hcurrent, hend.pendingShuttle, hend.lever, hend.ignored,
    hend.refusals⟩

/-- The lever change of `d` has asked for a shuttle in `s`, and `c` has refused it with SPEED. -/
structure ShuttleRefused (s : State) (d : CabDriveFields) (c : State) : Prop where
  touches : Touches [.shc, .lc] s c
  brake : c.brakeParkRequest = s.brakeParkRequest
  state : c.shc.state = .inGear
  lever : c.shc.lever = d.lever
  ignored : c.shc.ignored = some d.lever
  last : c.shc.lastRefusal = some (.speed, .cab)
  count : c.shc.refusals = s.shc.refusals + 1
  pending : c.shc.pendingShuttle = false
  current : c.shc.current = s.shc.current
  queue : c.shc.queue = []
  order : c.shc.parkOrder = s.shc.parkOrder

/-- A shuttle asked for at speed is refused. -/
theorem lever_refused_at_speed {d : CabDriveFields} {g : Gear} (h : LeverMoves s d) (hstate : s.shc.state = .inGear)
    (hcurrent : s.shc.current = some g) (hdrive : d.lever = .f ∨ d.lever = .r)
    (hopposed : s.shc.lever.drives = true ∨ leverOpposes d.lever s.shc.current = true)
    (hfast : 3333 ≤ s.scu.motion.vGround) (hqueue : s.shc.queue = []) :
    ∃ t : State, exec .shcControlInterval s = .next t ∧ t.shc.state = .inGear ∧ t.shc.lever = d.lever ∧
      t.shc.ignored = some d.lever ∧ t.shc.lastRefusal = some (.speed, .cab) ∧
      t.shc.refusals = s.shc.refusals + 1 ∧ t.shc.pendingShuttle = false ∧ t.shc.current = some g := by
  have hmove := (moveToDirection_of_opposed (s := leverTaken d s) hstate hopposed).trans
    (shuttleRequest_of_fast (s := leverTaken d s) hfast)
  have hchange := (changeLever_of_drive (s := s) hdrive).trans hmove
  have hfields : ShuttleRefused s d (refuse .speed .cab ((leverTaken d s).withShc
      { (leverTaken d s).shc with pendingShuttle := false, ignored := some (leverTaken d s).shc.lever })) :=
    ⟨also (touches_leverTaken d s) (touches_withShc _ _), rfl, hstate, rfl, rfl, rfl, rfl, rfl, rfl, hqueue, rfl⟩
  generalize refuse .speed .cab ((leverTaken d s).withShc
    { (leverTaken d s).shc with pendingShuttle := false, ignored := some (leverTaken d s).shc.lever }) = c at *
  have hinputs := inputs_of_moved h hchange hfields.touches hfields.brake
    (by rw [hfields.lever]; exact drive_ne_park hdrive) (.inl hfields.state) hfields.order
  obtain ⟨t, hexec, hend⟩ := interval_of_inGear h.runs hinputs hfields.state hfields.queue
  exact ⟨t, hexec, hend.state.trans hfields.state, hend.lever.trans hfields.lever, hend.ignored.trans hfields.ignored,
    hend.lastRefusal.trans hfields.last, hend.refusals.trans hfields.count, hend.pendingShuttle.trans hfields.pending,
    hend.current.trans (hfields.current.trans hcurrent)⟩

/-! ## The clutches of a shuttle that begins -/

theorem shuttleTable_onComing {g p : Gear} {x : Clutch} (hx : x ∈ p.dir.clutch :: swapped s.cfg s.shc.current (some p))
    (hoff : x ∉ g.dir.clutch :: swapped s.cfg (some p) s.shc.current) :
    (shuttleTable g p s).get x = filling s x (s.clutch x) := by
  rw [shuttleTable, mapOn_get, if_pos hx, mapOn_get, if_neg hoff]
  rfl

theorem shuttleTable_offGoing {g p : Gear} {x : Clutch} (hon : x ∉ p.dir.clutch :: swapped s.cfg s.shc.current (some p))
    (hx : x ∈ g.dir.clutch :: swapped s.cfg (some p) s.shc.current) :
    (shuttleTable g p s).get x = (s.clutch x).drainTo (s.cfg.clutches.get x).hold := by
  rw [shuttleTable, mapOn_get, if_neg hon, mapOn_get, if_pos hx]
  rfl

/-- The clutches that a shuttle's two sides move are different ones. -/
theorem sides_disjoint {c : Image} {d e : Dir} {old new : Option Gear} (hdir : d ≠ e) {x : Clutch}
    (hx : x ∈ d.clutch :: swapped c old new) : x ∉ e.clutch :: swapped c new old := by
  have hdirs : d.clutch ≠ e.clutch := by cases d <;> cases e <;> simp_all [Dir.clutch]
  have hside {q r : Option Gear} (f : Dir) (h : f.clutch ∈ swapped c q r) : False := by
    obtain ⟨hfwd, hrev⟩ := swapped_gear h
    exact (dirClutch_direction f).elim hfwd hrev
  rw [List.mem_cons] at hx ⊢
  rintro (hy | hy) <;> rcases hx with hx | hx
  · exact hdirs (hx.symm.trans hy)
  · exact hside e (hy ▸ hx)
  · exact hside d (hx ▸ hy)
  · exact swapped_disjoint hx hy

theorem touches_beginShuttle (g p : Gear) (s : State) : Touches [.shc, .lc] s (beginShuttle g p s) := by
  rw [beginShuttle_eq]
  exact (((touches_withShc s (shuttleSet p s).shc).trans (touches_withShc _ _)).mono (by decide)).trans
    (touches_enterGearbox _ _)

/-- A shuttle asked for below the speed begins. -/
theorem lever_begins_shuttle {d : CabDriveFields} {g p : Gear} (h : LeverMoves s d) (hstate : s.shc.state = .inGear)
    (hcurrent : s.shc.current = some g) (hpartner : s.shc.partner g = some p) (hdrive : d.lever = .f ∨ d.lever = .r)
    (hopposed : s.shc.lever.drives = true ∨ leverOpposes d.lever s.shc.current = true)
    (hlocked : ∀ x ∈ g.dir.clutch :: gearPair s.cfg g, (s.clutch x).state = .locked)
    (hslow : s.scu.motion.vGround < 3333) (hdir : p.dir ≠ g.dir) :
    ∃ t : State, exec .shcControlInterval s = .next t ∧ t.shc.state = .shuttling ∧
      t.shc.phase = some .drain ∧ t.shc.target = some p ∧ t.shc.current = some g ∧
      t.shc.queue = [] ∧ t.shc.pendingShuttle = false ∧ t.shc.lever = d.lever ∧
      (∀ x ∈ g.dir.clutch :: swapped s.cfg (some p) (some g), (t.clutch x).state = .draining ∧
        (t.clutch x).command = (s.cfg.clutches.get x).hold) ∧
      (∀ x ∈ p.dir.clutch :: swapped s.cfg (some g) (some p), (t.clutch x).state = .filling ∧
        (t.clutch x).command = (s.cfg.clutches.get x).fillCurrent) := by
  have hmove := (moveToDirection_of_opposed (s := leverTaken d s) hstate hopposed).trans
    (shuttleRequest_of_partner (s := leverTaken d s) hslow hcurrent hpartner)
  have hchange := (changeLever_of_drive (s := s) hdrive).trans hmove
  have htouches := (touches_leverTaken d s).trans (touches_beginShuttle g p (leverTaken d s))
  have hbrake := brakeParkRequest_beginShuttle g p (leverTaken d s)
  have hshc := beginShuttle_shc g p (leverTaken d s)
  have hrecord : (leverTaken d s).shc.lever = d.lever ∧ (leverTaken d s).shc.parkOrder = s.shc.parkOrder ∧
      (leverTaken d s).shc.current = some g ∧ (leverTaken d s).brakeParkRequest = s.brakeParkRequest := ⟨rfl, rfl, hcurrent, rfl⟩
  have hon {x : Clutch} (hx : x ∈ p.dir.clutch :: swapped s.cfg (some g) (some p)) :
      (shuttleTable g p (leverTaken d s)).get x = filling s x (s.clutch x) := by
    rw [← hcurrent] at hx
    exact shuttleTable_onComing (s := leverTaken d s) hx (sides_disjoint hdir hx)
  have hoff {x : Clutch} (hx : x ∈ g.dir.clutch :: swapped s.cfg (some p) (some g)) :
      (shuttleTable g p (leverTaken d s)).get x = (s.clutch x).drainTo (s.cfg.clutches.get x).hold := by
    rw [← hcurrent] at hx
    exact shuttleTable_offGoing (s := leverTaken d s) (sides_disjoint hdir.symm hx) hx
  obtain ⟨hlever, horder, hgear, hread⟩ := hrecord
  clear hmove
  generalize shuttleTable g p (leverTaken d s) = k at *
  generalize beginShuttle g p (leverTaken d s) = c at *
  generalize leverTaken d s = b at *
  have hcstate : c.shc.state = .shuttling := by rw [hshc]
  have hinputs := inputs_of_moved h hchange htouches (hbrake.trans hread)
    (by rw [hshc, hlever]; exact drive_ne_park hdrive) (.inr (.inr (.inr hcstate))) (by rw [hshc]; exact horder)
  obtain ⟨t, hexec, hend⟩ := interval_of_begun h.runs hinputs (.inr hcstate) (by simp [hcstate, hstate])
  have hclutch (x : Clutch) : (freed c).clutch x = k.get x := by
    change c.shc.clutches.get x = k.get x
    rw [hshc]
  refine ⟨t, hexec, hend.state.trans hcstate, hend.phase.trans ?_, hend.target.trans ?_, hend.current.trans ?_,
    hend.queue.trans ?_, hend.pendingShuttle.trans ?_, hend.lever.trans ?_, fun x hx => ?_, fun x hx => ?_⟩
  · exact congrArg Shc.phase hshc
  · exact congrArg Shc.target hshc
  · exact (congrArg Shc.current hshc).trans hgear
  · exact congrArg Shc.queue hshc
  · exact congrArg Shc.pendingShuttle hshc
  · exact (congrArg Shc.lever hshc).trans hlever
  · have hv := (hclutch x).trans (hoff hx)
    have hdraining : ((freed c).clutch x).state = .draining := congrArg ClutchRec.state hv
    have hbefore : (s.clutch x).state ≠ .draining := by
      have hused : x ∈ g.dir.clutch :: gearPair s.cfg g := by
        rw [List.mem_cons] at hx ⊢
        exact hx.imp_right fun h => (mem_swapped.mp h).1
      simp [hlocked x hused]
    exact ⟨hend.fallingState hbefore hv,
      (hend.freeCommand (by simp [hdraining]) (by simp [hdraining])).trans (congrArg ClutchRec.value hv)⟩
  · have hv := (hclutch x).trans (hon hx)
    have hfilling : ((freed c).clutch x).state = .filling := congrArg ClutchRec.state hv
    exact ⟨(hend.stillAs hv nofun).1,
      (hend.freeCommand (by simp [hfilling]) (by simp [hfilling])).trans (congrArg ClutchRec.value hv)⟩

/-! ## In NEUTRAL (R83) -/

/-- The selected gear's own direction in NEUTRAL begins its engagement. -/
theorem lever_engages {d : CabDriveFields} {g : Gear} {e : GearEntry} (h : LeverMoves s d) (hstate : s.shc.state = .neutral)
    (hselected : s.shc.selected = some g) (hown : d.lever = Dir.lever g.dir) (he : s.cfg.entryOf g = some e)
    (hstart : e.start = true) (hcharge : s.chargeDoubt = false) (hspeed : s.scu.motion.outRpm * e.ratio / 1000 ≤ 2400) :
    ∃ t : State, exec .shcControlInterval s = .next t ∧ t.shc.state = .engaging ∧
      t.shc.target = some g ∧ t.shc.lever = d.lever ∧ t.shc.ignored = none ∧
      ((∀ x ∈ gearPair s.cfg g, (s.clutch x).state = .locked) →
        t.shc.phase = some .ramp ∧ t.shc.current = some g ∧ (t.clutch g.dir.clutch).state = .filling) ∧
      ((∃ x ∈ gearPair s.cfg g, (s.clutch x).state ≠ .locked) →
        t.shc.phase = some .preselect ∧
        ∀ x ∈ gearPair s.cfg g, (s.clutch x).state ≠ .locked → (t.clutch x).state = .filling) := by
  have hdrive : d.lever = .f ∨ d.lever = .r := by
    rw [hown]
    exact dirLever_drives g.dir
  have hrefusal : engageRefusal (leverTaken d s) g = none := by
    rw [engageRefusal_eq (s := leverTaken d s) he hstart hcharge]
    exact if_neg (not_lt.mpr hspeed)
  have hmove := ((moveToDirection_of_neutral (s := leverTaken d s) (old := s.shc.lever) hstate).trans
    (engageLever_of_dir (s := leverTaken d s) hown)).trans
    (engageRequest_of_taken (gearToEngage_of_selected (s := leverTaken d s) hselected rfl) hrefusal)
  have hchange := (changeLever_of_drive (s := s) hdrive).trans hmove
  have htouches := (touches_leverTaken d s).trans (touches_beginEngaging g (leverTaken d s))
  have hbrake := brakeParkRequest_beginEngaging g (leverTaken d s)
  obtain ⟨k, p, n, hshc, hramp, hpreselect⟩ := beginEngaging_spec g (leverTaken d s)
  have hrecord : (leverTaken d s).shc.lever = d.lever ∧ (leverTaken d s).shc.ignored = none ∧
      (leverTaken d s).shc.parkOrder = s.shc.parkOrder ∧ (leverTaken d s).brakeParkRequest = s.brakeParkRequest ∧
      (leverTaken d s).cfg = s.cfg ∧ ∀ x, (leverTaken d s).clutch x = s.clutch x := ⟨rfl, rfl, rfl, rfl, rfl, fun _ => rfl⟩
  obtain ⟨hlever, hignored, horder, hread, hcfg, hclutches⟩ := hrecord
  clear hmove
  generalize beginEngaging g (leverTaken d s) = c at *
  generalize leverTaken d s = b at *
  have hcstate : c.shc.state = .engaging := by rw [hshc]
  have hinputs := inputs_of_moved h hchange htouches (hbrake.trans hread)
    (by rw [hshc, hlever]; exact drive_ne_park hdrive) (.inr (.inr (.inl hcstate))) (by rw [hshc]; exact horder)
  obtain ⟨t, hexec, hend⟩ := interval_of_begun h.runs hinputs (.inl hcstate) (by simp [hcstate, hstate])
  have hclutch (x : Clutch) : (freed c).clutch x = k.get x := by
    change c.shc.clutches.get x = k.get x
    rw [hshc]
  have hphase : (freed c).shc.phase = some p := congrArg Shc.phase hshc
  have hcurrent : (freed c).shc.current = n := congrArg Shc.current hshc
  have hfills {x : Clutch} (hx : k.get x = filling b x (b.clutch x)) : (t.clutch x).state = .filling :=
    (hend.stillAs ((hclutch x).trans hx) nofun).1
  refine ⟨t, hexec, hend.state.trans hcstate, hend.target.trans ?_, hend.lever.trans ?_, hend.ignored.trans ?_,
    fun hall => ?_, fun hsome => ?_⟩
  · exact congrArg Shc.target hshc
  · exact (congrArg Shc.lever hshc).trans hlever
  · exact (congrArg Shc.ignored hshc).trans hignored
  · obtain ⟨hp, hn, hfill⟩ := hramp (by simpa only [hcfg, hclutches] using hall)
    exact ⟨(hend.phase.trans hphase).trans (congrArg some hp),
      (hend.current.trans hcurrent).trans hn, hfills hfill⟩
  · obtain ⟨hp, -, hfill⟩ := hpreselect (by simpa only [hcfg, hclutches] using hsome)
    refine ⟨(hend.phase.trans hphase).trans (congrArg some hp), fun x hx hnot => hfills (hfill x ?_ ?_)⟩
    · rw [hcfg]
      exact hx
    · rw [hclutches]
      exact hnot

end

end Sys2Proof.Proofs
end

