-- ==== Sys2Proof/Proofs/LeverMovesGearbox.lean ====
section
/-! PROOF. O35: the cab record at an interval (R68, R94), and the statement. -/

namespace Sys2Proof.Proofs

open Sys2Proof Sys2Proof.Machine

section
variable {s t : State} {d : CabDriveFields}

/-! ## The cab record taken -/

/-- What the interval leaves of the inputs is what the taking of the cab record left. -/
theorem inputs_at_end (h : Finished s (intervalActed s) t) : inputsOf t.shc = inputsOf (cabTaken s).shc :=
  (h.same inputsOf fun _ _ _ => rfl).trans (moves_intervalActed s).inputs

theorem firstInterval_lc (s : State) : (firstInterval s).lc = s.lc := touches_firstInterval s .lc (by decide)

theorem cabTaken_inputs (hcab : s.lc.cabDrive.current = some d) : inputsOf (cabTaken s).shc =
    (false, d.lever, min 100 d.pedal, d.auto, shuttleRate d.aggressiveness, none, true) := by
  have h := takeCab_inputs (s := firstInterval s) (d := d) (by rw [firstInterval_lc]; exact hcab)
  rw [show (firstInterval s).shc.starting = false from congrArg Shc.starting (firstInterval_shc s)] at h
  exact h

/-- A record that was not FRESH at the interval before, with its lever changed, is compared alone. -/
theorem cabTaken_of_returned (hcab : s.lc.cabDrive.current = some d) (hfresh : s.shc.cabFresh = false)
    (hlever : d.lever ≠ s.shc.lever) : (cabTaken s).lc = s.lc ∧ (cabTaken s).shc = { (takeLevels d s).shc with
      starting := false, lever := d.lever, ignored := some d.lever } := by
  have hfirst := firstInterval_shc s
  have hlc := firstInterval_lc s
  have hcab' : (firstInterval s).lc.cabDrive.current = some d := by rw [firstInterval_lc]; exact hcab
  unfold cabTaken
  generalize firstInterval s = u at *
  have hmoved : ¬ d.lever = (takeLevels d u).shc.lever := by
    change ¬ d.lever = u.shc.lever
    rw [hfirst]
    exact hlever
  have hcompared : compareLever d.lever (takeLevels d u) = (takeLevels d u).withShc
      { (takeLevels d u).shc with lever := d.lever, ignored := some d.lever } := if_neg hmoved
  rw [takeCab_of_returned hcab' (by rw [hfirst]; exact hfresh), hcompared]
  refine ⟨hlc, ?_⟩
  change { (takeLevels d u).shc with lever := d.lever, ignored := some d.lever } = _
  unfold takeLevels
  rw [State.withShc_shc, State.withShc_shc, hfirst]

theorem cabTaken_of_lost (hcab : s.lc.cabDrive.current = none) (hfresh : s.shc.cabFresh = true) : (cabTaken s).shc =
    { s.shc with starting := false, cabFresh := false, pedalHold := some 0, queue := [] } := by
  have hfirst := firstInterval_shc s
  have hcab' : (firstInterval s).lc.cabDrive.current = none := by rw [firstInterval_lc]; exact hcab
  unfold cabTaken
  generalize firstInterval s = u at *
  rw [takeCab_of_lost hcab' (by rw [hfirst]; exact hfresh)]
  change { u.shc with cabFresh := false, pedalHold := some 0, queue := [] } = _
  rw [hfirst]

theorem cabTaken_of_absent (hcab : s.lc.cabDrive.current = none) (hfresh : s.shc.cabFresh = false) :
    (cabTaken s).shc = { s.shc with starting := false } := by
  unfold cabTaken
  rw [takeCab_of_absent (by rw [firstInterval_lc]; exact hcab) (by rw [firstInterval_shc]; exact hfresh), firstInterval_shc]

/-! ## A returned record in gear (R94) -/

/-- The state at the end of step 2 in which nothing has acted but a test on the speeds. -/
def quietSet (c : State) : State := c.withShc { c.shc with
  queue := [], speedLost := c.speedsLost, parkForce := false, pendingPark := false }

/-- Steps 1 and 2 of a gearbox IN_GEAR that nothing parks and no output faults. -/
theorem restInputs_inGear {c : State} (hrequested : parkRequested c = false) (hfault : c.gearboxFaulted = false)
    (hstate : c.shc.state = .inGear) (hqueue : c.shc.queue = []) :
    ∃ w : State, faultHoldTest (followParkRequest (takeSpeedLoss c)) = w ∧ w.shc.state = .inGear ∧
      w.shc.current = c.shc.current ∧ w.shc.queue = [] := by
  have hspeed : takeSpeedLoss c = c.withShc { c.shc with queue := [], speedLost := c.speedsLost } := by
    have hsame : c.withShc { c.shc with speedLost := c.speedsLost } =
        c.withShc { c.shc with queue := [], speedLost := c.speedsLost } := by rw [← hqueue]
    unfold takeSpeedLoss
    dsimp only
    split
    · rfl
    · exact hsame
  refine ⟨_, rfl, ?_⟩
  have hsound := faultHoldTest_of_sound (s := quietSet c) (by
    change c.shc.state ≠ .faultHold
    simp [hstate]) hfault
  rw [hspeed, followParkRequest_of_free (s := c.withShc { c.shc with queue := [], speedLost := c.speedsLost }) hrequested]
  change (faultHoldTest (quietSet c)).shc.state = .inGear ∧ (faultHoldTest (quietSet c)).shc.current = _ ∧
    (faultHoldTest (quietSet c)).shc.queue = []
  rw [hsound]
  exact ⟨hstate, rfl, rfl⟩

/-- A record that comes back with another lever leaves the gear in. -/
theorem returned_inGear (hruns : s.mc.mode.controllersRun = true) (hcab : s.lc.cabDrive.current = some d)
    (hfresh : s.shc.cabFresh = false) (hlever : d.lever ≠ s.shc.lever) (hstate : s.shc.state = .inGear)
    (hpark : d.lever ≠ .park) (hfault : s.gearboxFaulted = false) (hqueue : s.shc.queue = [])
    (hbrake : s.brakeParkRequest = false) (horder : s.shc.parkOrder = false) :
    ∃ t : State, exec .shcControlInterval s = .next t ∧ t.shc.state = .inGear ∧ t.shc.current = s.shc.current := by
  obtain ⟨hlc, hshc⟩ := cabTaken_of_returned hcab hfresh hlever
  have htouches := touches_cabTaken s
  have hread : (cabTaken s).brakeParkRequest = s.brakeParkRequest := by
    unfold State.brakeParkRequest
    rw [hlc]
  have hinputs := inputsTaken_eq s
  generalize cabTaken s = c at *
  have hrequested : parkRequested c = false := by
    have hnot : c.shc.state = .inGear := by rw [hshc]; exact hstate
    unfold parkRequested
    rw [hread, hbrake, hnot, show c.shc.lever = d.lever by rw [hshc],
      show c.shc.parkOrder = s.shc.parkOrder by rw [hshc]; rfl, horder]
    simp [hpark]
  have hsound : c.gearboxFaulted = false := by
    unfold State.gearboxFaulted
    rw [htouches .vdb (by decide)]
    exact hfault
  obtain ⟨w, hw, hwstate, hcurrent, hwqueue⟩ := restInputs_inGear hrequested hsound (by rw [hshc]; exact hstate)
    (by rw [hshc]; exact hqueue)
  obtain ⟨t, hexec, hend⟩ := interval_of_inGear hruns (hinputs.trans hw) hwstate hwqueue
  refine ⟨t, hexec, hend.state.trans hwstate, (hend.current.trans hcurrent).trans ?_⟩
  rw [hshc]
  rfl

/-! ## The record at an interval -/

theorem cab_read (hruns : s.mc.mode.controllersRun = true) (hcab : s.lc.cabDrive.current = some d) :
    ∃ t : State, exec .shcControlInterval s = .next t ∧ t.shc.lever = d.lever ∧
      t.shc.pedal = min 100 d.pedal ∧ t.shc.auto = d.auto ∧ t.shc.pedalHold = none ∧
      t.shc.cabFresh = true ∧ t.shc.rate = 2 + 2 * max 1 (min 5 d.aggressiveness) ∧
      (s.shc.cabFresh = false → d.lever ≠ s.shc.lever → t.shc.ignored = some d.lever ∧
        (s.shc.state = .inGear → d.lever ≠ .park → s.gearboxFaulted = false → s.shc.queue = [] →
          s.brakeParkRequest = false → s.shc.parkOrder = false →
          t.shc.state = .inGear ∧ t.shc.current = s.shc.current)) := by
  have hexec := exec_shcControlInterval hruns
  have hend := finished s (intervalActed s)
  have hmoves := moves_intervalActed s
  refine ⟨_, hexec, ?_⟩
  have hgear := returned_inGear hruns hcab
  rw [hexec] at hgear
  generalize finishInterval (drainingClutches s) (intervalActed s) = t at *
  have hinputs := (inputs_at_end hend).trans (cabTaken_inputs hcab)
  simp only [inputsOf, Prod.mk.injEq] at hinputs
  obtain ⟨-, hlever, hpedal, hauto, hrate, hhold, hfresh⟩ := hinputs
  refine ⟨hlever, hpedal, hauto, hhold, hfresh, hrate, fun hwas hmoved => ⟨hend.ignored.trans ?_, ?_⟩⟩
  · obtain ⟨-, hshc⟩ := cabTaken_of_returned hcab hwas hmoved
    have hignored := hmoves.ignored
    rw [hshc] at hignored
    exact hignored.elim id id
  · intro hstate hpark hfault hqueue hbrake horder
    obtain ⟨t', hnext, hkept⟩ := hgear hwas hmoved hstate hpark hfault hqueue hbrake horder
    cases hnext
    exact hkept

theorem cab_absent (hruns : s.mc.mode.controllersRun = true) (hcab : s.lc.cabDrive.current = none) :
    ∃ t : State, exec .shcControlInterval s = .next t ∧ t.shc.lever = s.shc.lever ∧
      t.shc.pedal = s.shc.pedal ∧ t.shc.auto = s.shc.auto ∧ t.shc.rate = s.shc.rate ∧
      t.shc.cabFresh = false ∧
      (s.shc.cabFresh = true → t.shc.queue = [] ∧ t.shc.pedalHold = some 0) ∧
      (s.shc.cabFresh = false → t.shc.pedalHold = s.shc.pedalHold) := by
  have hend := finished s (intervalActed s)
  have hmoves := moves_intervalActed s
  refine ⟨_, exec_shcControlInterval hruns, ?_⟩
  generalize finishInterval (drainingClutches s) (intervalActed s) = t at *
  have hinputs := inputs_at_end hend
  cases hfresh : s.shc.cabFresh with
  | true =>
    have hshc := cabTaken_of_lost hcab hfresh
    rw [hshc] at hinputs
    simp only [inputsOf, Prod.mk.injEq] at hinputs
    obtain ⟨-, hlever, hpedal, hauto, hrate, hhold, hnow⟩ := hinputs
    have hqueue := hend.queue.trans (hmoves.queue (by rw [hshc]))
    exact ⟨hlever, hpedal, hauto, hrate, hnow, fun _ => ⟨hqueue, hhold⟩, nofun⟩
  | false =>
    rw [cabTaken_of_absent hcab hfresh] at hinputs
    simp only [inputsOf, Prod.mk.injEq] at hinputs
    obtain ⟨-, hlever, hpedal, hauto, hrate, hhold, hnow⟩ := hinputs
    exact ⟨hlever, hpedal, hauto, hrate, hnow.trans hfresh, nofun, fun _ => hhold⟩

end

/-- Settles O35. -/
theorem leverMovesGearbox : Obligations.LeverMovesGearbox := by
  refine ⟨fun s d hpre hruns hstarted hfresh hvalues hwas hmoved hfault hspeeds horder hbrake hforce => ?_,
    fun s hpre hruns hstarted hcab hfault hspeeds hforce hbrake hbusy =>
      brake_parks hpre hruns hstarted hcab hfault hspeeds hforce hbrake hbusy,
    fun s hruns => ⟨fun d hcab => cab_read hruns hcab, fun hcab => cab_absent hruns hcab⟩⟩
  have hcab : s.lc.cabDrive.current = some d := by
    have hread : s.lc.cabDrive.isFresh = true := by simp [Peer.isFresh, hfresh]
    exact (if_pos hread).trans hvalues
  have h : LeverMoves s d := ⟨hruns, hstarted, hcab, hwas, hmoved, hfault, hspeeds, horder, hbrake, hforce⟩
  refine ⟨fun hstate hn => ?_, fun hbusy hlever => ?_, fun g hgear hdrive hgoes => lever_in_operation h hgear hdrive hgoes,
    fun g hstate hold hcurrent hown hqueue => lever_own_direction h hstate hold hcurrent hown hqueue,
    fun hstate g e hselected hown he hstart hcharge hspeed =>
      lever_engages h hstate hselected hown he hstart hcharge hspeed,
    fun g p hstate hcurrent hpartner hmove hlocked => ?_⟩
  · obtain ⟨t, hexec, hput, hlever, hignored, -, -⟩ := lever_to_neutral h (.inl hstate) hpre hn
    obtain ⟨hqueue, htorque, hpending, -, -, -⟩ := hput.dropped
    obtain ⟨⟨hfwd, -⟩, ⟨hrev, -⟩⟩ := hput.directions
    have hshifting : s.shc.state ≠ .shifting := by simp [hstate]
    have hengaging : s.shc.state ≠ .engaging := by simp [hstate]
    exact ⟨t, hexec, hput.state, hqueue, htorque, hpending, hlever, hignored,
      hput.kept (fun k => hshifting k.1) (fun k => hengaging k.1), hfwd, hrev⟩
  · rcases hlever with hn | hpark
    · obtain ⟨t, hexec, hput, hl, hi, hf, hp⟩ := lever_to_neutral h hbusy hpre hn
      exact ⟨t, hexec, hput, hl.trans hn.symm, hi, by simp [hf, hn], by simp [hp, hn]⟩
    · obtain ⟨t, hexec, hput, hl, hi, hf, hp⟩ := lever_to_park h hbusy hpre hpark
      exact ⟨t, hexec, hput, hl.trans hpark.symm, hi, by simp [hf, hpark], by simp [hp, hpark]⟩
  · obtain ⟨hdrive, hopposed⟩ := leverTaken_opposed hcurrent hmove
    exact ⟨fun hslow hdir => lever_begins_shuttle h hstate hcurrent hpartner hdrive hopposed hlocked hslow hdir,
      fun hfast hqueue => lever_refused_at_speed h hstate hcurrent hdrive hopposed hfast hqueue⟩

end Sys2Proof.Proofs
end

