-- ==== Sys2Proof/Proofs/HeadlandSteps.lean ====
section
/-! SUPPORT. One step of a headland run at its target (R106, R129, R130, R173, R174), and steps one after another. -/

namespace Sys2Proof.Proofs

open Sys2Proof Sys2Proof.Machine

/-! ## The functions an action uses (R176) -/

section
variable {a : HAction}

theorem usesHitch_iff : usesHitch a = true ↔ a = .hitchRaise ∨ a = .hitchWork := by cases a <;> simp [usesHitch]

theorem usesShift_iff : usesShift a = true ↔ ∃ n : Nat, a = .shiftUp n ∨ a = .shiftDown n := by
  cases a <;> simp [usesShift]

theorem usesFront_iff : usesFront a = true ↔ ∃ m : FrontMode, a = .frontMode m := by cases a <;> simp [usesFront]

theorem usesSlip_iff : usesSlip a = true ↔ ∃ on : Bool, a = .slipControl on := by cases a <;> simp [usesSlip]

theorem usesHitch_eq_false (h : a ≠ .hitchRaise ∧ a ≠ .hitchWork) : usesHitch a = false :=
  Bool.eq_false_iff.mpr fun k => (usesHitch_iff.mp k).elim h.1 h.2

theorem usesShift_eq_false (h : ∀ n : Nat, a ≠ .shiftUp n ∧ a ≠ .shiftDown n) : usesShift a = false :=
  Bool.eq_false_iff.mpr fun k => by
    obtain ⟨n, hup | hdown⟩ := usesShift_iff.mp k
    · exact (h n).1 hup
    · exact (h n).2 hdown

theorem usesFront_eq_false (h : ∀ m : FrontMode, a ≠ .frontMode m) : usesFront a = false :=
  Bool.eq_false_iff.mpr fun k => by
    obtain ⟨m, hm⟩ := usesFront_iff.mp k
    exact h m hm

theorem usesSlip_eq_false (h : ∀ on : Bool, a ≠ .slipControl on) : usesSlip a = false :=
  Bool.eq_false_iff.mpr fun k => by
    obtain ⟨on, hon⟩ := usesSlip_iff.mp k
    exact h on hon

end

/-! ## The parts that a step may change -/

/-- The parts of the targets and of the sequencer. -/
def stepParts : List Part := [.vdb, .shc, .fdc, .htc, .hsq]

section
variable {s t : State}

theorem touches_recordRefusal (r : StepRef) (why : StepReason) (s : State) : Touches [.hsq] s (recordRefusal r why s) :=
  touches_withHsq s _

theorem issueHitch_of_refused {up : Bool} {why : HtcReason} (h : hitchRefusal s = some why) :
    issueHitch up s = recordRefusal (stepRef (if up = true then .hitchRaise else .hitchWork) s) (.htc why) s := by
  unfold issueHitch
  rw [h]

theorem issueHitch_of_taken {up : Bool} (h : hitchRefusal s = none) :
    issueHitch up s = if up = true then hitchUp s else hitchDown s := by
  unfold issueHitch
  rw [h]

theorem touches_issueHitch (up : Bool) (s : State) : Touches [.vdb, .htc, .hsq] s (issueHitch up s) := by
  cases h : hitchRefusal s with
  | some why =>
    rw [issueHitch_of_refused h]
    exact (touches_recordRefusal _ _ s).mono (by decide)
  | none =>
    rw [issueHitch_of_taken h]
    exact (touches_ite _ (touches_hitchUp s) (touches_hitchDown s)).mono (by decide)

theorem touches_shiftRequests (kind : ShiftKind) (n : Nat) (s : State) : Touches [.shc] s (shiftRequests kind n s) := by
  induction n generalizing s with
  | zero => exact .refl _ s
  | succ n ih => exact (touches_shiftRequest kind .headland s).trans (ih _)

/-- The requests of a shift step are made, and the sequencer's record of the step written (R173, R174). -/
theorem issueShift_eq (kind : ShiftKind) (a : HAction) (n : Nat) (s : State) : issueShift kind a n s =
    (shiftRequests kind n s).withHsq { s.hsq with
      lastRefused := if (shiftRequests kind n s).shc.refusals ≠ s.shc.refusals then
        some (stepRef a s, .shc (lastReason (shiftRequests kind n s))) else s.hsq.lastRefused
      refusalsSeen := (shiftRequests kind n s).shc.refusals
      lastShift := some (stepRef a s) } := by
  have hhsq : (shiftRequests kind n s).hsq = s.hsq := touches_shiftRequests kind n s .hsq (by decide)
  unfold issueShift
  dsimp only
  rw [← hhsq]
  split
  · rfl
  · rfl

theorem touches_issueShift (kind : ShiftKind) (a : HAction) (n : Nat) (s : State) :
    Touches [.shc, .hsq] s (issueShift kind a n s) := by
  rw [issueShift_eq]
  exact also ((touches_shiftRequests kind n s).mono (by decide)) (touches_withHsq _ _)

theorem acceptFrontMode_of_runs (h : s.mc.mode.controllersRun = true) (m : FrontMode) :
    acceptFrontMode m s = s.withFdc { s.fdc with mode := m, source := .headland } := if_pos h

theorem acceptSlipControl_of_runs (h : s.mc.mode.controllersRun = true) (on : Bool) :
    acceptSlipControl on s = s.withHtc { s.htc with slipOn := on, slipSource := .headland } := if_pos h

theorem touches_issueAction (a : HAction) (s : State) : Touches stepParts s (issueAction a s) := by
  cases a with
  | hitchRaise => exact (touches_issueHitch true s).mono (by decide)
  | hitchWork => exact (touches_issueHitch false s).mono (by decide)
  | frontMode m => exact (touches_ite _ (touches_withFdc s _) (.refl _ s)).mono (by decide)
  | shiftUp n => exact (touches_issueShift .up _ n s).mono (by decide)
  | shiftDown n => exact (touches_issueShift .down _ n s).mono (by decide)
  | slipControl on => exact (touches_ite _ (touches_withHtc s _) (.refl _ s)).mono (by decide)
  | wait => exact .refl _ s

/-! ## A step issued (R170) -/

/-- An action goes to its target, and the index moves on. -/
def issueOne (a : HAction) (s : State) : State :=
  (issueAction a s).withHsq { (issueAction a s).hsq with index := (issueAction a s).hsq.index + 1 }

theorem touches_issueOne (a : HAction) (s : State) : Touches stepParts s (issueOne a s) :=
  also (touches_issueAction a s) (touches_withHsq _ _)

/-- The sequencer's record without its index and what the steps record of shifts and refusals. -/
def runRest (h : Hsq) : Hsq := { h with index := 0, lastRefused := none, lastShift := none, refusalsSeen := 0 }

theorem hitch_hsq (up : Bool) (s : State) : (if up = true then hitchUp s else hitchDown s).hsq = s.hsq :=
  touches_ite _ (touches_hitchUp s) (touches_hitchDown s) .hsq (by decide)

/-- An action writes no more of the sequencer's record than what it records of shifts and refusals. -/
theorem issueAction_run (a : HAction) (s : State) :
    runRest (issueAction a s).hsq = runRest s.hsq ∧ (issueAction a s).hsq.index = s.hsq.index := by
  have hhitch (up : Bool) : runRest (issueHitch up s).hsq = runRest s.hsq ∧ (issueHitch up s).hsq.index = s.hsq.index := by
    cases h : hitchRefusal s with
    | some why =>
      rw [issueHitch_of_refused h]
      exact ⟨rfl, rfl⟩
    | none =>
      rw [issueHitch_of_taken h, hitch_hsq]
      exact ⟨rfl, rfl⟩
  have hshift (kind : ShiftKind) (b : HAction) (n : Nat) : runRest (issueShift kind b n s).hsq = runRest s.hsq ∧
      (issueShift kind b n s).hsq.index = s.hsq.index := by
    rw [issueShift_eq]
    exact ⟨rfl, rfl⟩
  have hkept {u : State} (h : u.hsq = s.hsq) : runRest u.hsq = runRest s.hsq ∧ u.hsq.index = s.hsq.index := by
    rw [h]
    exact ⟨rfl, rfl⟩
  cases a with
  | hitchRaise => exact hhitch true
  | hitchWork => exact hhitch false
  | frontMode m => exact hkept (touches_ite _ (touches_withFdc s _) (.refl _ s) .hsq (by decide))
  | shiftUp n => exact hshift .up _ n
  | shiftDown n => exact hshift .down _ n
  | slipControl on => exact hkept (touches_ite _ (touches_withHtc s _) (.refl _ s) .hsq (by decide))
  | wait => exact ⟨rfl, rfl⟩

theorem issueOne_run (a : HAction) (s : State) :
    runRest (issueOne a s).hsq = runRest s.hsq ∧ (issueOne a s).hsq.index = s.hsq.index + 1 := by
  obtain ⟨hrest, hindex⟩ := issueAction_run a s
  exact ⟨hrest, congrArg (· + 1) hindex⟩

/-! ## What a step leaves of a target that it does not use -/

theorem issueOne_fdc {a : HAction} (h : usesFront a = false) : (issueOne a s).fdc = s.fdc := by
  have hkept {l : List Part} {u : State} (hu : Touches l s u) (hl : Part.fdc ∉ l) : u.fdc = s.fdc := hu .fdc hl
  change (issueAction a s).fdc = s.fdc
  cases a with
  | hitchRaise => exact hkept (touches_issueHitch true s) (by decide)
  | hitchWork => exact hkept (touches_issueHitch false s) (by decide)
  | frontMode m => cases h
  | shiftUp n => exact hkept (touches_issueShift .up _ n s) (by decide)
  | shiftDown n => exact hkept (touches_issueShift .down _ n s) (by decide)
  | slipControl on => exact hkept (touches_ite _ (touches_withHtc s _) (.refl _ s)) (by decide)
  | wait => rfl

theorem issueOne_frontMode (h : s.mc.mode.controllersRun = true) (m : FrontMode) :
    (issueOne (.frontMode m) s).fdc = { s.fdc with mode := m, source := .headland } :=
  congrArg State.fdc (acceptFrontMode_of_runs h m)

/-- What a step that does not use the gearbox leaves of it, and of the record of the last shift. -/
theorem issueOne_shc {a : HAction} (h : usesShift a = false) : (issueOne a s).shc = s.shc ∧
    (issueOne a s).hsq.lastShift = s.hsq.lastShift ∧ (issueOne a s).hsq.refusalsSeen = s.hsq.refusalsSeen := by
  change (issueAction a s).shc = s.shc ∧ (issueAction a s).hsq.lastShift = s.hsq.lastShift ∧
    (issueAction a s).hsq.refusalsSeen = s.hsq.refusalsSeen
  have hhitch (up : Bool) : (issueHitch up s).shc = s.shc ∧ (issueHitch up s).hsq.lastShift = s.hsq.lastShift ∧
      (issueHitch up s).hsq.refusalsSeen = s.hsq.refusalsSeen := by
    refine ⟨touches_issueHitch up s .shc (by decide), ?_⟩
    cases hr : hitchRefusal s with
    | some why =>
      rw [issueHitch_of_refused hr]
      exact ⟨rfl, rfl⟩
    | none =>
      rw [issueHitch_of_taken hr, hitch_hsq]
      exact ⟨rfl, rfl⟩
  have hkept {u : State} (hshc : u.shc = s.shc) (hhsq : u.hsq = s.hsq) :
      u.shc = s.shc ∧ u.hsq.lastShift = s.hsq.lastShift ∧ u.hsq.refusalsSeen = s.hsq.refusalsSeen := by
    rw [hhsq]
    exact ⟨hshc, rfl, rfl⟩
  cases a with
  | hitchRaise => exact hhitch true
  | hitchWork => exact hhitch false
  | frontMode m =>
    have ht : Touches [.fdc] s (acceptFrontMode m s) := touches_ite _ (touches_withFdc s _) (.refl _ s)
    exact hkept (ht .shc (by decide)) (ht .hsq (by decide))
  | shiftUp n => cases h
  | shiftDown n => cases h
  | slipControl on =>
    have ht : Touches [.htc] s (acceptSlipControl on s) := touches_ite _ (touches_withHtc s _) (.refl _ s)
    exact hkept (ht .shc (by decide)) (ht .hsq (by decide))
  | wait => exact ⟨rfl, rfl, rfl⟩

/-- A step that uses neither the hitch nor slip control leaves the hitch's record. -/
theorem issueOne_htc {a : HAction} (h : usesHitch a = false) (hslip : usesSlip a = false) :
    (issueOne a s).htc = s.htc := by
  change (issueAction a s).htc = s.htc
  cases a with
  | hitchRaise => cases h
  | hitchWork => cases h
  | frontMode m => exact touches_ite _ (touches_withFdc s _) (.refl _ s) .htc (by decide)
  | shiftUp n => exact touches_issueShift .up _ n s .htc (by decide)
  | shiftDown n => exact touches_issueShift .down _ n s .htc (by decide)
  | slipControl on => cases hslip
  | wait => rfl

/-! ## The hitch's steps (R129, R130) -/

theorem issueOne_slipControl (h : s.mc.mode.controllersRun = true) (on : Bool) :
    (issueOne (.slipControl on) s).htc = { s.htc with slipOn := on, slipSource := .headland } :=
  congrArg State.htc (acceptSlipControl_of_runs h on)

/-- The hitch takes steps (R129). -/
def HitchTakes (h : HitchState) : Prop := h = .held ∨ h = .raising ∨ h = .transport ∨ h = .working

theorem hitchRefusal_of_takes (h : HitchTakes s.htc.state) :
    hitchRefusal s = if s.lc.cabHitch.fresh = .fresh then none else some .stale := by
  have hstale : hitchRefusal s = if s.lc.cabHitch.isFresh = true then none else some .stale := by
    unfold hitchRefusal
    rcases h with h | h | h | h <;> rw [h]
  rw [hstale]
  simp [Peer.isFresh]

/-- The hitch after a step of the hitch that it takes. -/
theorem hitchUp_state (h : HitchTakes s.htc.state) :
    (hitchUp s).htc.state = .raising ∨ (hitchUp s).htc.state = .transport := by
  rcases h with h | h | h | h
  · exact .inl (hitchUp_spec (.inr (.inl h))).1
  · rw [hitchUp_of_other (.inl h)]
    exact .inl h
  · rw [hitchUp_of_other (.inr (.inl h))]
    exact .inr h
  · exact .inl (hitchUp_spec (.inr (.inr h))).1

theorem hitchDown_state (h : HitchTakes s.htc.state) : (hitchDown s).htc.state = .working := by
  rcases h with h | h | h | h
  · exact (hitchDown_spec (.inr (.inl h))).1
  · exact (hitchDown_spec (.inr (.inr (.inl h)))).1
  · exact (hitchDown_spec (.inr (.inr (.inr h)))).1
  · rw [hitchDown_of_other (.inl h)]
    exact h

/-- A step of the hitch, UP for RAISE, leaves slip control as it is. -/
theorem hitchKeeps_lockLeft (s : State) : HitchKeeps s (lockLeft s) :=
  .ite ((HitchKeeps.refl s).withHtc _ (by rfl) (by rfl)) (.refl s)

theorem hitchKeeps_hitchUp (s : State) : HitchKeeps s (hitchUp s) := by
  cases hstate : s.htc.state
  case startLock | held | working =>
    rw [hitchUp_of_takes (by simp [hstate])]
    exact (hitchKeeps_lockLeft s).enterRaising
  all_goals
    rw [hitchUp_of_other (by simp [hstate])]
    exact .refl s

theorem hitchKeeps_hitchDown (s : State) : HitchKeeps s (hitchDown s) := by
  cases hstate : s.htc.state
  case startLock | held | raising | transport =>
    rw [hitchDown_of_takes (by simp [hstate])]
    exact (hitchKeeps_lockLeft s).enterWorking
  all_goals
    rw [hitchDown_of_other (by simp [hstate])]
    exact .refl s

/-- Slip control as the hitch holds it. -/
def slipOf (h : Htc) : Bool × ModeSource := (h.slipOn, h.slipSource)

theorem issueHitch_slip (up : Bool) (s : State) : slipOf (issueHitch up s).htc = slipOf s.htc := by
  cases hr : hitchRefusal s with
  | some why =>
    rw [issueHitch_of_refused hr]
    rfl
  | none =>
    have hkeeps : HitchKeeps s (if up = true then hitchUp s else hitchDown s) :=
      .ite (hitchKeeps_hitchUp s) (hitchKeeps_hitchDown s)
    rw [issueHitch_of_taken hr]
    exact congrArg (fun i : HitchInputs => (i.slipOn, i.slipSource)) hkeeps.inputs

theorem issueOne_slip {a : HAction} (h : usesSlip a = false) : slipOf (issueOne a s).htc = slipOf s.htc := by
  cases ha : usesHitch a with
  | false => rw [issueOne_htc ha h]
  | true =>
    rcases usesHitch_iff.mp ha with rfl | rfl
    · exact issueHitch_slip true s
    · exact issueHitch_slip false s

/-- A step of the hitch with a FRESH cab record, at a hitch that takes steps. -/
theorem issueHitch_state {up : Bool} (h : HitchTakes s.htc.state) (hfresh : s.lc.cabHitch.fresh = .fresh) :
    (up = true → (issueHitch up s).htc.state = .raising ∨ (issueHitch up s).htc.state = .transport) ∧
    (up = false → (issueHitch up s).htc.state = .working) := by
  rw [issueHitch_of_taken (by rw [hitchRefusal_of_takes h, if_pos hfresh])]
  refine ⟨fun hup => ?_, fun hup => ?_⟩
  · rw [if_pos hup]
    exact hitchUp_state h
  · rw [if_neg (by simp [hup])]
    exact hitchDown_state h

theorem issueOne_hitchState {a : HAction} (h : usesHitch a = false) : (issueOne a s).htc.state = s.htc.state := by
  change (issueAction a s).htc.state = s.htc.state
  cases a with
  | hitchRaise => cases h
  | hitchWork => cases h
  | slipControl on =>
    unfold issueAction acceptSlipControl
    dsimp only
    split
    · rfl
    · rfl
  | frontMode m => exact congrArg Htc.state (issueOne_htc (a := .frontMode m) rfl rfl)
  | shiftUp n => exact congrArg Htc.state (issueOne_htc (a := .shiftUp n) rfl rfl)
  | shiftDown n => exact congrArg Htc.state (issueOne_htc (a := .shiftDown n) rfl rfl)
  | wait => rfl

/-- A hitch that takes steps goes on to take them. -/
theorem issueOne_takes {a : HAction} (h : HitchTakes s.htc.state) : HitchTakes (issueOne a s).htc.state := by
  cases ha : usesHitch a with
  | false =>
    rw [issueOne_hitchState ha]
    exact h
  | true =>
    have hissued (up : Bool) : HitchTakes (issueHitch up s).htc.state := by
      by_cases hfresh : s.lc.cabHitch.fresh = .fresh
      · obtain ⟨hup, hdown⟩ := issueHitch_state (up := up) h hfresh
        cases up with
        | true => exact .inr ((hup rfl).imp_right .inl)
        | false => exact .inr (.inr (.inr (hdown rfl)))
      · rw [issueHitch_of_refused (by rw [hitchRefusal_of_takes h, if_neg hfresh])]
        exact h
    rcases usesHitch_iff.mp ha with rfl | rfl
    · exact hissued true
    · exact hissued false

/-! ## The gearbox's steps (R70, R173) -/

/-- Requests that one entry takes. -/
theorem shiftRequests_merged {kind : ShiftKind} (n j : Nat) {s : State} (hrefusal : requestRefusal s = none)
    (hj : 1 ≤ j) (hn : j + n ≤ 3) (hqueue : s.shc.queue = [⟨kind, j, .headland⟩]) :
    shiftRequests kind n s = s.withShc { s.shc with queue := [⟨kind, j + n, .headland⟩] } := by
  induction n generalizing j s with
  | zero =>
    rw [Nat.add_zero, ← hqueue]
    rfl
  | succ n ih =>
    have hoffer : offer kind .headland s.shc.queue = some [⟨kind, j + 1, .headland⟩] := by
      rw [hqueue]
      exact offer_of_room (l := []) (tail := ⟨kind, j, .headland⟩) rfl (by change j < 3; omega)
    change shiftRequests kind n (shiftRequest kind .headland s) = _
    rw [shiftRequest_of_placed hrefusal hoffer,
      ih (j + 1) (s := s.withShc { s.shc with queue := [⟨kind, j + 1, .headland⟩] }) hrefusal (by omega) (by omega) rfl,
      show j + 1 + n = j + (n + 1) by omega]
    rfl

/-- Requests in an empty queue. -/
theorem shiftRequests_placed {kind : ShiftKind} {n : Nat} (hrefusal : requestRefusal s = none) (hn : 1 ≤ n) (hle : n ≤ 3)
    (hqueue : s.shc.queue = []) :
    shiftRequests kind n s = s.withShc { s.shc with queue := [⟨kind, n, .headland⟩] } := by
  obtain ⟨m, rfl⟩ : ∃ m, n = m + 1 := ⟨n - 1, by omega⟩
  have hoffer : offer kind .headland s.shc.queue = some [⟨kind, 1, .headland⟩] := by
    rw [hqueue]
    rfl
  change shiftRequests kind m (shiftRequest kind .headland s) = _
  rw [shiftRequest_of_placed hrefusal hoffer,
    shiftRequests_merged m 1 (s := s.withShc { s.shc with queue := [⟨kind, 1, .headland⟩] }) hrefusal (by omega) (by omega) rfl,
    Nat.add_comm 1 m]
  rfl

/-- A step of UP or DOWN. -/
def shiftAction (up : Bool) (n : Nat) : HAction := if up = true then .shiftUp n else .shiftDown n

/-- The kind of its requests. -/
def shiftOf (up : Bool) : ShiftKind := if up = true then .up else .down

theorem issueAction_shift (up : Bool) (n : Nat) (s : State) :
    issueAction (shiftAction up n) s = issueShift (shiftOf up) (shiftAction up n) n s := by cases up <;> rfl

/-- A shift step that an empty queue takes (R70, R173). -/
theorem issueOne_shift_placed {up : Bool} {n : Nat} (hrefusal : requestRefusal s = none) (hn : 1 ≤ n) (hle : n ≤ 3)
    (hqueue : s.shc.queue = []) :
    (issueOne (shiftAction up n) s).shc = { s.shc with queue := [⟨shiftOf up, n, .headland⟩] } ∧
    (issueOne (shiftAction up n) s).hsq.lastShift = some (stepRef (shiftAction up n) s) ∧
    (issueOne (shiftAction up n) s).hsq.refusalsSeen = s.shc.refusals := by
  unfold issueOne
  rw [issueAction_shift, issueShift_eq, shiftRequests_placed hrefusal hn hle hqueue]
  exact ⟨rfl, rfl, rfl⟩

/-- A shift step of one step that the gearbox refuses (R69, R70, R174). -/
theorem issueOne_shift_refused {up : Bool} {why : ShcReason}
    (h : (shiftRequest (shiftOf up) .headland s).shc = { s.shc with
      lastRefusal := some (why, .headland), refusals := s.shc.refusals + 1 }) :
    (issueOne (shiftAction up 1) s).shc = { s.shc with
      lastRefusal := some (why, .headland), refusals := s.shc.refusals + 1 } ∧
    (issueOne (shiftAction up 1) s).hsq.lastShift = some (stepRef (shiftAction up 1) s) ∧
    (issueOne (shiftAction up 1) s).hsq.lastRefused = some (stepRef (shiftAction up 1) s, .shc why) := by
  have hone : shiftRequests (shiftOf up) 1 s = shiftRequest (shiftOf up) .headland s := rfl
  unfold issueOne
  rw [issueAction_shift, issueShift_eq, hone]
  generalize shiftRequest (shiftOf up) .headland s = w at *
  have hcounted : w.shc.refusals ≠ s.shc.refusals := by
    rw [h]
    change s.shc.refusals + 1 ≠ s.shc.refusals
    bv_omega
  have hreason : lastReason w = why := by
    unfold lastReason
    rw [h]
  refine ⟨h, rfl, ?_⟩
  change (if w.shc.refusals ≠ s.shc.refusals then some (stepRef (shiftAction up 1) s, StepReason.shc (lastReason w))
    else s.hsq.lastRefused) = _
  rw [if_pos hcounted, hreason]

end

end Sys2Proof.Proofs
end

