-- ==== Sys2Proof/Proofs/StepsCarriedOut.lean ====
section
/-! PROOF. Steps of a headland run that are issued one after another (R170, R173, R174). -/

namespace Sys2Proof.Proofs

open Sys2Proof Sys2Proof.Machine

/-- Actions go to their targets one after another. -/
def carryOut (todo : List HAction) (s : State) : State := todo.foldl (fun u a => issueOne a u) s

section
variable {s t u : State} {todo before after : List HAction}

theorem carryOut_split (a : HAction) : carryOut (before ++ a :: after) s = carryOut after (issueOne a (carryOut before s)) := by
  simp [carryOut]

/-- What each of the steps keeps, all of them keep. -/
theorem carryOut_kept {α : Sort _} (f : State → α) (h : ∀ a ∈ todo, ∀ v : State, f (issueOne a v) = f v) (s : State) :
    f (carryOut todo s) = f s := by
  induction todo generalizing s with
  | nil => rfl
  | cons a todo ih => exact (ih (fun b hb => h b (List.mem_cons_of_mem _ hb)) _).trans (h a List.mem_cons_self s)

theorem carryOut_holds (p : State → Prop) (h : ∀ (a : HAction) (v : State), p v → p (issueOne a v)) (hs : p s) :
    p (carryOut todo s) := by
  induction todo generalizing s with
  | nil => exact hs
  | cons a todo ih => exact ih (h a s hs)

theorem touches_carryOut_of {l : List Part} (h : ∀ a ∈ todo, ∀ v : State, Touches l v (issueOne a v)) (s : State) :
    Touches l s (carryOut todo s) := by
  induction todo generalizing s with
  | nil => exact .refl _ s
  | cons a todo ih => exact (h a List.mem_cons_self s).trans (ih (fun b hb => h b (List.mem_cons_of_mem _ hb)) _)

theorem touches_carryOut (todo : List HAction) (s : State) : Touches stepParts s (carryOut todo s) :=
  touches_carryOut_of (fun a _ v => touches_issueOne a v) s

theorem carryOut_runRest (todo : List HAction) (s : State) : runRest (carryOut todo s).hsq = runRest s.hsq :=
  carryOut_kept (fun v => runRest v.hsq) (fun a _ v => (issueOne_run a v).1) s

theorem carryOut_index (todo : List HAction) (s : State) :
    (carryOut todo s).hsq.index = s.hsq.index + todo.length := by
  induction todo generalizing s with
  | nil => rfl
  | cons a todo ih =>
    have hstep : carryOut (a :: todo) s = carryOut todo (issueOne a s) := rfl
    rw [hstep, ih, (issueOne_run a s).2, List.length_cons]
    omega

/-! ## The steps as they are carried out -/

/-- The actions of `todo` are carried out from `u`, which differs from `s` in the run alone, and `t` differs from what
they leave in the run alone. -/
structure CarriedOut (k : SeqKind) (i : Nat) (todo : List HAction) (s u t : State) : Prop where
  runs : s.mc.mode.controllersRun = true
  before : Touches [.hsq] s u
  kind : u.hsq.kind = some k
  index : u.hsq.index = i
  lastShift : u.hsq.lastShift = s.hsq.lastShift
  after : Touches [.hsq] (carryOut todo u) t
  lastRefused : t.hsq.lastRefused = (carryOut todo u).hsq.lastRefused
  shiftAfter : t.hsq.lastShift = (carryOut todo u).hsq.lastShift
  refusalsSeen : t.hsq.refusalsSeen = (carryOut todo u).hsq.refusalsSeen

namespace CarriedOut

variable {k : SeqKind} {i : Nat} (h : CarriedOut k i todo s u t)
include h

theorem runsWithin {v : State} (hv : Touches stepParts u v) : v.mc.mode.controllersRun = true := by
  rw [hv .mc (by decide), h.before .mc (by decide)]
  exact h.runs

theorem fdc : t.fdc = (carryOut todo u).fdc := h.after .fdc (by decide)
theorem htc : t.htc = (carryOut todo u).htc := h.after .htc (by decide)
theorem shc : t.shc = (carryOut todo u).shc := h.after .shc (by decide)
theorem fdcBefore : u.fdc = s.fdc := h.before .fdc (by decide)
theorem htcBefore : u.htc = s.htc := h.before .htc (by decide)
theorem shcBefore : u.shc = s.shc := h.before .shc (by decide)

/-- The step whose action comes first. -/
theorem stepRef_first (a : HAction) : stepRef a u = ⟨k, i, a⟩ := by
  unfold stepRef
  rw [h.kind, h.index]
  rfl

theorem wait (hall : ∀ a ∈ todo, a = .wait) : Touches [.hsq] s t := by
  have hsteps : Touches [.hsq] u (carryOut todo u) := touches_carryOut_of (fun a ha v => by
    rw [hall a ha]
    exact touches_withHsq v _) u
  exact (h.before.trans hsteps).trans h.after

theorem front {m : FrontMode} {first last : List HAction} (htodo : todo = first ++ .frontMode m :: last)
    (hlast : ∀ a ∈ last, ∀ n : FrontMode, a ≠ .frontMode n) : t.fdc = { s.fdc with mode := m, source := .headland } := by
  have hrest : ({ (carryOut first u).fdc with mode := m, source := .headland } : Fdc) =
      { u.fdc with mode := m, source := .headland } := by
    have hstep (a : HAction) (v : State) (hv : v.mc.mode.controllersRun = true) :
        ({ (issueOne a v).fdc with mode := m, source := .headland } : Fdc) =
          { v.fdc with mode := m, source := .headland } := by
      cases ha : usesFront a with
      | false => rw [issueOne_fdc ha]
      | true =>
        obtain ⟨n, rfl⟩ := usesFront_iff.mp ha
        rw [issueOne_frontMode hv]
    have hboth := carryOut_holds (todo := first) (s := u) (fun v => v.mc.mode.controllersRun = true ∧
      ({ v.fdc with mode := m, source := .headland } : Fdc) = { u.fdc with mode := m, source := .headland })
      (fun a v hv => ⟨by rw [touches_issueOne a v .mc (by decide)]; exact hv.1, (hstep a v hv.1).trans hv.2⟩)
      ⟨h.runsWithin (.refl _ u), rfl⟩
    exact hboth.2
  have hback := carryOut_kept State.fdc (fun a ha v => issueOne_fdc (usesFront_eq_false (hlast a ha)))
    (issueOne (.frontMode m) (carryOut first u))
  rw [h.fdc, htodo, carryOut_split, hback, issueOne_frontMode (h.runsWithin (touches_carryOut first u)), hrest, h.fdcBefore]

theorem noFront (hnone : ∀ a ∈ todo, ∀ n : FrontMode, a ≠ .frontMode n) : t.fdc = s.fdc := by
  rw [h.fdc, carryOut_kept State.fdc (fun a ha v => issueOne_fdc (usesFront_eq_false (hnone a ha))), h.fdcBefore]

theorem slip {on : Bool} {first last : List HAction} (htodo : todo = first ++ .slipControl on :: last)
    (hlast : ∀ a ∈ last, ∀ b : Bool, a ≠ .slipControl b) : t.htc.slipOn = on ∧ t.htc.slipSource = .headland := by
  have hback := carryOut_kept (fun v => slipOf v.htc) (fun a ha v => issueOne_slip (usesSlip_eq_false (hlast a ha)))
    (issueOne (.slipControl on) (carryOut first u))
  have hslip : slipOf t.htc = (on, .headland) := by
    rw [h.htc, htodo, carryOut_split, hback, issueOne_slipControl (h.runsWithin (touches_carryOut first u))]
    rfl
  exact ⟨congrArg Prod.fst hslip, congrArg Prod.snd hslip⟩

theorem noSlip (hnone : ∀ a ∈ todo, ∀ b : Bool, a ≠ .slipControl b) :
    t.htc.slipOn = s.htc.slipOn ∧ t.htc.slipSource = s.htc.slipSource := by
  have hslip : slipOf t.htc = slipOf s.htc := by
    rw [h.htc, carryOut_kept (fun v => slipOf v.htc) (fun a ha v => issueOne_slip (usesSlip_eq_false (hnone a ha))), h.htcBefore]
  exact ⟨congrArg Prod.fst hslip, congrArg Prod.snd hslip⟩

theorem hitch {up : Bool} {first last : List HAction}
    (htodo : todo = first ++ (if up = true then .hitchRaise else .hitchWork) :: last)
    (hlast : ∀ a ∈ last, a ≠ .hitchRaise ∧ a ≠ .hitchWork) (hfresh : s.lc.cabHitch.fresh = .fresh)
    (htakes : HitchTakes s.htc.state) :
    (up = true → t.htc.state = .raising ∨ t.htc.state = .transport) ∧ (up = false → t.htc.state = .working) := by
  have hfirst : HitchTakes (carryOut first u).htc.state :=
    carryOut_holds (fun v => HitchTakes v.htc.state) (fun a v hv => issueOne_takes hv) (by rw [h.htcBefore]; exact htakes)
  have hlc : (carryOut first u).lc = s.lc :=
    (touches_carryOut first u .lc (by decide)).trans (h.before .lc (by decide))
  have hissued : (issueOne (if up = true then .hitchRaise else .hitchWork) (carryOut first u)).htc =
      (issueHitch up (carryOut first u)).htc := by cases up <;> rfl
  have hback := carryOut_kept (fun v => v.htc.state)
    (fun a ha v => issueOne_hitchState (usesHitch_eq_false (hlast a ha)))
    (issueOne (if up = true then .hitchRaise else .hitchWork) (carryOut first u))
  rw [h.htc, htodo, carryOut_split, hback, hissued]
  exact issueHitch_state hfirst (by rw [hlc]; exact hfresh)

theorem noHitch (hnone : ∀ a ∈ todo, a ≠ .hitchRaise ∧ a ≠ .hitchWork ∧ ∀ b : Bool, a ≠ .slipControl b) :
    t.htc = s.htc := by
  rw [h.htc, carryOut_kept State.htc (fun a ha v => ?_), h.htcBefore]
  obtain ⟨hraise, hwork, hslip⟩ := hnone a ha
  exact issueOne_htc (usesHitch_eq_false ⟨hraise, hwork⟩) (usesSlip_eq_false hslip)

theorem hitchRefused {a : HAction} {why : HtcReason} (htodo : todo = [a]) (ha : a = .hitchRaise ∨ a = .hitchWork)
    (hrefused : hitchRefusal s = some why) : t.htc = s.htc ∧ t.hsq.lastRefused = some (⟨k, i, a⟩, .htc why) := by
  have hread : hitchRefusal u = some why := by
    rw [← hrefused]
    unfold hitchRefusal
    rw [h.htcBefore, h.before .lc (by decide)]
  have hstep := h.stepRef_first a
  have hissued : issueAction a u = recordRefusal (stepRef a u) (.htc why) u := by
    rcases ha with rfl | rfl
    · exact issueHitch_of_refused (up := true) hread
    · exact issueHitch_of_refused (up := false) hread
  have hone : carryOut todo u = issueOne a u := by rw [htodo]; rfl
  rw [h.htc, h.lastRefused, hone, ← hstep]
  unfold issueOne
  rw [hissued]
  exact ⟨h.htcBefore, rfl⟩

/-- What the gearbox's test on a request reads is what it was. -/
theorem requestRefusal_within {v : State} (hv : Touches stepParts u v) (hshc : v.shc = s.shc) :
    requestRefusal v = requestRefusal s := by
  have hsfe : v.sfe = s.sfe := (hv .sfe (by decide)).trans (h.before .sfe (by decide))
  have hlc : v.lc = s.lc := (hv .lc (by decide)).trans (h.before .lc (by decide))
  have hscu : v.scu = s.scu := (hv .scu (by decide)).trans (h.before .scu (by decide))
  rw [requestRefusal_eq, requestRefusal_eq, hshc, hsfe, hlc, hscu]

theorem shift {up : Bool} {n : Nat} {first last : List HAction} (htodo : todo = first ++ shiftAction up n :: last)
    (hothers : ∀ b ∈ first ++ last, ∀ j : Nat, b ≠ .shiftUp j ∧ b ≠ .shiftDown j) (hn : 1 ≤ n) (hle : n ≤ 3)
    (hrefusal : requestRefusal s = none) (hqueue : s.shc.queue = []) :
    t.shc = { s.shc with queue := [⟨shiftOf up, n, .headland⟩] } ∧
      t.hsq.lastShift = some ⟨k, i + first.length, shiftAction up n⟩ ∧ t.hsq.refusalsSeen = s.shc.refusals := by
  have hfirst (a : HAction) (ha : a ∈ first) : usesShift a = false :=
    usesShift_eq_false (hothers a (List.mem_append_left _ ha))
  have hshc : (carryOut first u).shc = s.shc :=
    (carryOut_kept State.shc (fun a ha v => (issueOne_shc (hfirst a ha)).1) u).trans h.shcBefore
  have hrest := carryOut_runRest first u
  have hkind : (carryOut first u).hsq.kind = some k := (congrArg Hsq.kind hrest).trans h.kind
  have hindex : (carryOut first u).hsq.index = i + first.length := by rw [carryOut_index, h.index]
  have hread := h.requestRefusal_within (touches_carryOut first u) hshc
  obtain ⟨hplaced, hshift, hseen⟩ := issueOne_shift_placed (up := up) (s := carryOut first u) (hread.trans hrefusal) hn hle
    (by rw [hshc]; exact hqueue)
  have hback := carryOut_kept (fun v => (v.shc, v.hsq.lastShift, v.hsq.refusalsSeen)) (todo := last) (fun a ha v => by
    obtain ⟨hs, hl, hr⟩ := issueOne_shc (s := v) (usesShift_eq_false (hothers a (List.mem_append_right _ ha)))
    rw [hs, hl, hr]) (issueOne (shiftAction up n) (carryOut first u))
  simp only [Prod.mk.injEq] at hback
  obtain ⟨hs, hl, hr⟩ := hback
  rw [h.shc, h.shiftAfter, h.refusalsSeen, htodo, carryOut_split, hs, hl, hr, hplaced, hshift, hseen, hshc]
  refine ⟨rfl, ?_, rfl⟩
  unfold stepRef
  rw [hkind, hindex]
  rfl

theorem noShift (hnone : ∀ a ∈ todo, ∀ j : Nat, a ≠ .shiftUp j ∧ a ≠ .shiftDown j) :
    t.shc = s.shc ∧ t.hsq.lastShift = s.hsq.lastShift := by
  have hkept := carryOut_kept (fun v => (v.shc, v.hsq.lastShift)) (fun a ha v => by
    obtain ⟨hs, hl, -⟩ := issueOne_shc (s := v) (usesShift_eq_false (hnone a ha))
    rw [hs, hl]) u
  simp only [Prod.mk.injEq] at hkept
  obtain ⟨hs, hl⟩ := hkept
  exact ⟨h.shc.trans (hs.trans h.shcBefore), h.shiftAfter.trans (hl.trans h.lastShift)⟩

theorem shiftRefused {up : Bool} {why : ShcReason} (htodo : todo = [shiftAction up 1])
    (hwhy : (if s.shc.state = .faultHold then some .fault
      else if s.shc.state = .neutral ∨ s.shc.state = .parked then some .noGear
      else if s.sfe.chans.chg.cmp = .low ∨ s.sfe.chans.chg.state ≠ .valid then some .noCharge
      else if s.lc.cabDrive.fresh ≠ .fresh ∨ s.speedsLost = true then some .fault
      else if offer (shiftOf up) .headland s.shc.queue = none then some .full
      else none) = some why) :
    t.shc = { s.shc with lastRefusal := some (why, .headland), refusals := s.shc.refusals + 1 } ∧
      t.hsq.lastShift = some ⟨k, i, shiftAction up 1⟩ ∧
      t.hsq.lastRefused = some (⟨k, i, shiftAction up 1⟩, .shc why) := by
  have hsfe : u.sfe = s.sfe := h.before .sfe (by decide)
  have hlc : u.lc = s.lc := h.before .lc (by decide)
  have hscu : u.scu = s.scu := h.before .scu (by decide)
  have hrefused := (shiftRequest_reason (s := u) (kind := shiftOf up) (who := .headland) (why := some why) (by
    rw [← hwhy, h.shcBefore, hsfe, hlc, hscu]
    simp only [State.speedsLost, Bool.or_eq_true, beq_iff_eq])).1 why rfl
  have hone : carryOut todo u = issueOne (shiftAction up 1) u := by rw [htodo]; rfl
  obtain ⟨hshc, hshift, hrecorded⟩ := issueOne_shift_refused hrefused
  rw [h.shc, h.shiftAfter, h.lastRefused, hone, hshc, hshift, hrecorded, h.stepRef_first, h.shcBefore]
  exact ⟨rfl, rfl, rfl⟩

end CarriedOut

end

end Sys2Proof.Proofs
end

