-- ==== Sys2Proof/Proofs/HeadlandStarts.lean ====
section
/-! PROOF. O45: HEADLAND_START and HEADLAND_CANCEL (R170, R173, R176, R177). -/

namespace Sys2Proof.Proofs

open Sys2Proof Sys2Proof.Machine

/-- A field that steps do not write. -/
theorem of_runRest {α : Sort _} {f : Hsq → α} {h k : Hsq} (hf : ∀ x : Hsq, f (runRest x) = f x)
    (heq : runRest h = runRest k) : f h = f k := by rw [← hf h, heq, hf k]

/-! ## The end of an issue (R170 to R172) -/

/-- A step that is issued without waiting. -/
def isImmediate (x : HStep) : Bool := decide (x.trigger = .immediate)

/-- The actions of the leading IMMEDIATE steps. -/
def leading (l : List HStep) : List HAction := (l.takeWhile isImmediate).map fun x => x.action

section
variable {s t : State} {l : List HStep}

theorem issueFrom_eq (l : List HStep) (s : State) :
    issueFrom l s = issueFrom (l.dropWhile isImmediate) (carryOut (leading l) s) := by
  induction l generalizing s with
  | nil => rfl
  | cons x l ih =>
    by_cases hx : x.trigger = .immediate
    · have himm : isImmediate x = true := decide_eq_true hx
      have hstep : issueFrom (x :: l) s = issueFrom l (issueStep x s) := by
        rw [issueFrom, hx]
      rw [hstep, ih, List.dropWhile_cons_of_pos himm, leading, leading, List.takeWhile_cons_of_pos himm]
      rfl
    · have himm : ¬ isImmediate x = true := fun h => hx (of_decide_eq_true h)
      rw [List.dropWhile_cons_of_neg himm, leading, List.takeWhile_cons_of_neg himm]
      rfl

/-- The steps `l` wait, or none is left: what the end of an issue writes of the run. -/
structure IssueEnds (l : List HStep) (s t : State) : Prop where
  touches : Touches [.hsq] s t
  kept : t.hsq = { s.hsq with state := t.hsq.state, trigStart := t.hsq.trigStart, progress := t.hsq.progress }
  finished : l = [] → t.hsq.state = .done ∧ t.hsq.trigStart = none
  waits : l ≠ [] → t.hsq.state = s.hsq.state
  distance : ∀ (x : HStep) (d : Nat), l.head? = some x → x.trigger = .distance d →
    t.hsq.trigStart = some s.scu.motion.travel ∧ t.hsq.progress = 0
  time : ∀ (x : HStep) (d : Nat), l.head? = some x → x.trigger = .time d → t.hsq.trigStart = some s.now
  counted : t.hsq.progress = s.hsq.progress ∨ t.hsq.progress = 0

theorem issueEnds (h : ∀ x : HStep, l.head? = some x → x.trigger ≠ .immediate) (s : State) :
    IssueEnds l s (issueFrom l s) := by
  cases l with
  | nil => exact ⟨touches_withHsq s _, rfl, fun _ => ⟨rfl, rfl⟩, fun k => absurd rfl k, nofun, nofun, .inl rfl⟩
  | cons x l =>
    cases hx : x.trigger with
    | immediate => exact absurd hx (h x rfl)
    | distance d =>
      have hwait : issueFrom (x :: l) s = s.withHsq { s.hsq with trigStart := some s.scu.motion.travel, progress := 0 } := by
        rw [issueFrom, hx]
      rw [hwait]
      refine ⟨touches_withHsq s _, rfl, nofun, fun _ => rfl, fun y e _ _ => ⟨rfl, rfl⟩, fun y e hy he => ?_, .inr rfl⟩
      cases hy
      rw [hx] at he
      cases he
    | time d =>
      have hwait : issueFrom (x :: l) s = s.withHsq { s.hsq with trigStart := some s.now } := by
        rw [issueFrom, hx]
      rw [hwait]
      refine ⟨touches_withHsq s _, rfl, nofun, fun _ => rfl, fun y e hy he => ?_, fun y e _ _ => rfl, .inl rfl⟩
      cases hy
      rw [hx] at he
      cases he

theorem dropWhile_waits {x : HStep} (h : (l.dropWhile isImmediate).head? = some x) : x.trigger ≠ .immediate := fun k => by
  have hnot := List.head?_dropWhile_not isImmediate l
  rw [h] at hnot
  simp [isImmediate, k] at hnot

theorem getElem?_takeWhile_length (l : List HStep) :
    l[(l.takeWhile isImmediate).length]? = (l.dropWhile isImmediate).head? := by
  have h := List.getElem?_append_right (l₁ := l.takeWhile isImmediate) (l₂ := l.dropWhile isImmediate) (le_refl _)
  rw [List.takeWhile_append_dropWhile, Nat.sub_self] at h
  rw [h, List.head?_eq_getElem?]

/-- The leading IMMEDIATE steps of a list, issued from `u` in a run, lead to `t`. -/
structure Issued (l : List HStep) (u t : State) : Prop where
  touches : Touches stepParts u t
  rest : runRest t.hsq = { runRest u.hsq with
    state := t.hsq.state, trigStart := t.hsq.trigStart, progress := t.hsq.progress }
  index : t.hsq.index = u.hsq.index + (l.takeWhile isImmediate).length
  finished : l.takeWhile isImmediate = l → t.hsq.state = .done ∧ t.hsq.trigStart = none
  waits : ∀ x : HStep, l[(l.takeWhile isImmediate).length]? = some x → t.hsq.state = u.hsq.state ∧
    (∀ d : Nat, x.trigger = .distance d → t.hsq.trigStart = some u.scu.motion.travel ∧ t.hsq.progress = 0) ∧
    (∀ d : Nat, x.trigger = .time d → t.hsq.trigStart = some u.now)
  counted : t.hsq.progress = u.hsq.progress ∨ t.hsq.progress = 0
  after : Touches [.hsq] (carryOut (leading l) u) t
  recorded : t.hsq.lastRefused = (carryOut (leading l) u).hsq.lastRefused ∧
    t.hsq.lastShift = (carryOut (leading l) u).hsq.lastShift ∧
    t.hsq.refusalsSeen = (carryOut (leading l) u).hsq.refusalsSeen

theorem issued (l : List HStep) (u : State) : Issued l u (issueFrom l u) := by
  have hends := issueEnds (l := l.dropWhile isImmediate) (fun x hx => dropWhile_waits hx) (carryOut (leading l) u)
  have hsteps := touches_carryOut (leading l) u
  have hrest := carryOut_runRest (leading l) u
  have hindex := carryOut_index (leading l) u
  have hstate : (carryOut (leading l) u).hsq.state = u.hsq.state := of_runRest (f := Hsq.state) (fun _ => rfl) hrest
  have hprogress : (carryOut (leading l) u).hsq.progress = u.hsq.progress := of_runRest (f := Hsq.progress) (fun _ => rfl) hrest
  rw [← issueFrom_eq] at hends
  have hlength : (leading l).length = (l.takeWhile isImmediate).length := List.length_map _
  have hparts : l.takeWhile isImmediate ++ l.dropWhile isImmediate = l := List.takeWhile_append_dropWhile
  have hscu : (carryOut (leading l) u).scu = u.scu := hsteps .scu (by decide)
  have hnow : (carryOut (leading l) u).now = u.now := hsteps .now (by decide)
  generalize issueFrom l u = t at *
  have hkept := hends.kept
  refine ⟨also hsteps hends.touches, ?_, ?_, fun hall => ?_, fun x hx => ?_, ?_, hends.touches, ?_⟩
  · rw [← hrest, hkept]
    rfl
  · rw [hkept, ← hlength]
    exact hindex
  · rw [hall] at hparts
    exact hends.finished (List.append_cancel_left (hparts.trans (List.append_nil l).symm))
  · have hhead : (l.dropWhile isImmediate).head? = some x := (getElem?_takeWhile_length l).symm.trans hx
    have hne : l.dropWhile isImmediate ≠ [] := fun k => by simp [k] at hhead
    rw [← hscu, ← hnow]
    exact ⟨(hends.waits hne).trans hstate, fun d hd => hends.distance x d hhead hd,
      fun d hd => hends.time x d hhead hd⟩
  · exact hends.counted.imp_left fun h => h.trans hprogress
  · rw [hkept]
    exact ⟨rfl, rfl, rfl⟩

/-! ## The start of a run (R170, R176) -/

theorem takeHeadland_oldest {start : Bool} {rest : List Request}
    (h : OldestRequest Request.isHeadland (.headland start) rest s) :
    takeHeadland start s = some (s.withRequests rest) := by simp [takeHeadland, takeRequest_oldest h]

/-- The record of a run that begins, with its copies of the cab's fields. -/
def runBegun (s : State) : State := s.withHsq { s.hsq with
  state := .running, kind := some s.hsq.nextKind, stepCount := (listOf s.cfg s.hsq.nextKind).length, index := 0, cause := none
  progress := 0, trigStart := none, nextKind := otherKind s.hsq.nextKind
  frontSeen := s.lc.cabDrive.current.map fun d => frontOfCode d.front
  slipSeen := s.lc.cabHitch.current.map fun f => onOfCode f.slipControl
  leverRef := s.lc.cabHitch.current.map fun f => min 1000 f.lever
  hitchFresh := s.lc.cabHitch.isFresh }

theorem exec_headlandStart {rest : List Request} (hmode : s.mc.mode = .operating)
    (h : OldestRequest Request.isHeadland (.headland true) rest s) : exec .headlandStart s = .next
      (if s.hsq.state = .running then s.withRequests rest else startRun (s.withRequests rest)) := by
  have hruns : (s.withRequests rest).mc.mode.headlandRuns = true := by
    change s.mc.mode.headlandRuns = true
    rw [hmode]
    rfl
  have hrunning : (s.withRequests rest).running = (s.hsq.state == .running) := rfl
  simp only [exec, execHeadlandStart, takeHeadland_oldest h, hruns, hrunning]
  by_cases hs : s.hsq.state = .running
  · simp [hs]
  · simp [hs]

theorem exec_headlandCancel {rest : List Request} (hmode : s.mc.mode = .operating)
    (h : OldestRequest Request.isHeadland (.headland false) rest s) :
    exec .headlandCancel s = .next (abortRun .cancel (s.withRequests rest)) := by
  have hruns : (s.withRequests rest).mc.mode.headlandRuns = true := by
    change s.mc.mode.headlandRuns = true
    rw [hmode]
    rfl
  simp only [exec, execHeadlandCancel, takeHeadland_oldest h, hruns]
  rfl

end

end Sys2Proof.Proofs
end

