-- ==== Sys2Proof/Proofs/HeadlandStart.lean ====
section
/-! PROOF. O45: what a run that begins leaves (R106, R129, R130, R170, R173, R176), and the statement. -/

namespace Sys2Proof.Proofs

open Sys2Proof Sys2Proof.Machine

section
variable {s u t : State} {l : List HStep}

theorem Issued.field {α : Sort _} (h : Issued l u t) (f : Hsq → α) (hf : ∀ (x : Hsq) (a : RunState)
    (b : Option (BitVec 32)) (c : Nat), f { runRest x with state := a, trigStart := b, progress := c } = f x) :
    f t.hsq = f u.hsq :=
  calc f t.hsq = f (runRest t.hsq) := (hf t.hsq t.hsq.state t.hsq.trigStart t.hsq.progress).symm
    _ = f u.hsq := by rw [h.rest, hf]

theorem leading_split {a : HAction} {front back : List HStep}
    (h : l.takeWhile isImmediate = front ++ ⟨a, .immediate⟩ :: back) :
    leading l = front.map (fun x => x.action) ++ a :: back.map fun x => x.action := by
  rw [leading, h]
  simp

theorem requestRefusal_of_sound (hstate : s.shc.state = .inGear) (hcmp : s.sfe.chans.chg.cmp ≠ .low)
    (hvalid : s.sfe.chans.chg.state = .valid) (hfresh : s.lc.cabDrive.fresh = .fresh) (hspeeds : s.speedsLost = false) :
    requestRefusal s = none := by
  simp [requestRefusal, State.chargeDoubt, Peer.isFresh, hstate, hcmp, hvalid, hfresh, hspeeds]

theorem issued_startRun (s : State) : Issued (listOf s.cfg s.hsq.nextKind) (runBegun s) (startRun s) := issued _ _

/-- The parts that a START may change. -/
def startParts : List Part := [.vdb, .shc, .fdc, .htc, .hsq, .lc]

theorem touches_startRun (s : State) : Touches startParts s (startRun s) :=
  ((touches_withHsq s (runBegun s).hsq).mono (by decide)).trans ((issued_startRun s).touches.mono (by decide))

theorem frontOfCode_ite (n : Nat) : frontOfCode n = if n = 0 then .off else if n = 2 then .auto else .on := by
  unfold frontOfCode
  split <;> simp_all

/-! ## The run that begins -/

/-- What a START leaves of the run's record. -/
structure RunStarts (s t : State) (k : SeqKind) (l imm : List HStep) : Prop where
  kind : t.hsq.kind = some k
  stepCount : t.hsq.stepCount = l.length
  index : t.hsq.index = imm.length
  nextKind : t.hsq.nextKind = otherKind k
  cause : t.hsq.cause = none
  progress : t.hsq.progress = 0
  front : t.hsq.frontSeen = s.lc.cabDrive.current.map fun d => frontOfCode d.front
  slip : t.hsq.slipSeen = s.lc.cabHitch.current.map fun f => onOfCode f.slipControl
  lever : t.hsq.leverRef = s.lc.cabHitch.current.map fun f => min 1000 f.lever
  hitchFresh : t.hsq.hitchFresh = s.lc.cabHitch.isFresh

theorem runStarts (h : Issued (listOf s.cfg s.hsq.nextKind) (runBegun s) t) :
    RunStarts s t s.hsq.nextKind (listOf s.cfg s.hsq.nextKind) ((listOf s.cfg s.hsq.nextKind).takeWhile isImmediate) where
  kind := h.field Hsq.kind fun _ _ _ _ => rfl
  stepCount := h.field Hsq.stepCount fun _ _ _ _ => rfl
  index := h.index.trans (Nat.zero_add _)
  nextKind := h.field Hsq.nextKind fun _ _ _ _ => rfl
  cause := h.field Hsq.cause fun _ _ _ _ => rfl
  progress := h.counted.elim id id
  front := h.field Hsq.frontSeen fun _ _ _ _ => rfl
  slip := h.field Hsq.slipSeen fun _ _ _ _ => rfl
  lever := h.field Hsq.leverRef fun _ _ _ _ => rfl
  hitchFresh := h.field Hsq.hitchFresh fun _ _ _ _ => rfl

theorem runBegun_carried (hmode : s.mc.mode = .operating) (h : Issued l (runBegun s) t) :
    CarriedOut s.hsq.nextKind 0 (leading l) s (runBegun s) t where
  runs := by
    rw [hmode]
    rfl
  before := touches_withHsq s _
  kind := rfl
  index := rfl
  lastShift := rfl
  after := h.after
  lastRefused := h.recorded.1
  shiftAfter := h.recorded.2.1
  refusalsSeen := h.recorded.2.2

/-- The only step RAISE at a HELD hitch. -/
theorem CarriedOut.raised {k : SeqKind} {i : Nat} (h : CarriedOut k i [.hitchRaise] s u t) (hheld : s.htc.state = .held)
    (hfresh : s.lc.cabHitch.fresh = .fresh) : t.htc.state = .raising := by
  have hu : u.htc.state = .held := by rw [h.htcBefore, hheld]
  have htakes : HitchTakes u.htc.state := .inl hu
  have hfreshAfter : u.lc.cabHitch.fresh = .fresh := by rw [h.before .lc (by decide), hfresh]
  have hissued : (carryOut [.hitchRaise] u).htc = (issueHitch true u).htc := rfl
  rw [h.htc, hissued, issueHitch_of_taken (by rw [hitchRefusal_of_takes htakes, if_pos hfreshAfter]), if_pos rfl]
  exact (hitchUp_spec (.inr (.inl hu))).1

end

/-- Settles O45. -/
theorem headlandStartAndCancel : Obligations.HeadlandStartAndCancel := by
  intro rest s hmode
  refine ⟨fun hrequest => ?_, fun hrequest => ?_⟩
  · refine ⟨_, exec_headlandStart hmode hrequest, ?_⟩
    by_cases hrunning : s.hsq.state = .running
    · rw [if_pos hrunning]
      exact ⟨rfl, (touches_withRequests s rest).mono (by decide), fun _ => ⟨rfl, touches_withRequests s rest⟩,
        fun h => absurd hrunning h⟩
    · rw [if_neg hrunning]
      have hissued := issued_startRun (s.withRequests rest)
      have hstarts := runStarts hissued
      have hcarried := runBegun_carried (s := s.withRequests rest) hmode hissued
      have hstarted := touches_startRun (s.withRequests rest)
      generalize startRun (s.withRequests rest) = t at *
      refine ⟨hstarted .requests (by decide), ((touches_withRequests s rest).mono (by decide)).trans
        (hstarted.mono (by decide)), fun h => absurd h hrunning, fun _ k l imm hk hl himm => ?_⟩
      have hkind : k = (s.withRequests rest).hsq.nextKind := hk
      have hlist : l = listOf (s.withRequests rest).cfg k := by rw [hl]; cases k <;> rfl
      have hlead : imm = l.takeWhile isImmediate := himm
      rw [hkind] at hlist
      rw [← hlist] at hissued hstarts hcarried
      rw [← hkind, ← hlead] at hstarts
      rw [← hkind] at hcarried
      have hsplit {a : HAction} {front back : List HStep} (h : imm = front ++ ⟨a, .immediate⟩ :: back) :=
        leading_split (hlead.symm.trans h)
      have hactions {p : HAction → Prop} (h : ∀ y ∈ imm, p y.action) : ∀ a ∈ leading l, p a := by
        rw [leading, ← hlead]
        exact List.forall_mem_map.mpr h
      refine ⟨hstarts.kind, hstarts.stepCount, hstarts.index, ?_, hstarts.cause, hstarts.progress, fun d hd => ?_,
        fun hnone => ?_, fun f hf => ⟨?_, ?_⟩, fun hnone => ⟨?_, ?_⟩, ?_, fun hall => ?_, fun x hx => ?_,
        fun m front back hm hback => ?_, fun hnone => ?_, fun on front back hon hback => ?_, fun hnone => ?_,
        fun up front back hup hback hfresh htakes => ?_, fun n front back hn hothers hone hle hstate hcmp hvalid hfresh
          hspeeds hqueue => ?_, fun honly hheld => ⟨fun hfresh => ?_, fun hstale => ?_⟩, fun honly hneutral => ?_⟩
      · rw [hstarts.nextKind]
        cases k <;> rfl
      · exact hstarts.front.trans ((congrArg _ hd).trans (congrArg some (frontOfCode_ite d.front)))
      · exact hstarts.front.trans (congrArg _ hnone)
      · exact hstarts.slip.trans (congrArg _ hf)
      · exact hstarts.lever.trans (congrArg _ hf)
      · exact hstarts.slip.trans (congrArg _ hnone)
      · exact hstarts.lever.trans (congrArg _ hnone)
      · rw [hstarts.hitchFresh]
        exact beq_iff_eq
      · exact hissued.finished (hlead.symm.trans hall)
      · obtain ⟨hstate, hdistance, htime⟩ := hissued.waits x (by rw [← hlead]; exact hx)
        exact ⟨hstate, fun d hd => (hdistance d hd).1, htime⟩
      · exact hcarried.front (hsplit hm) (List.forall_mem_map.mpr hback)
      · exact hcarried.noFront (hactions hnone)
      · exact hcarried.slip (hsplit hon) (List.forall_mem_map.mpr hback)
      · exact hcarried.noSlip (hactions hnone)
      · exact hcarried.hitch (hsplit hup) (List.forall_mem_map.mpr hback) hfresh htakes
      · have hshift := hcarried.shift (up := true) (n := n) (hsplit hn)
          (by rw [← List.map_append]; exact List.forall_mem_map.mpr hothers) hone hle
          (requestRefusal_of_sound (s := s.withRequests rest) hstate hcmp hvalid hfresh hspeeds) hqueue
        rw [List.length_map, Nat.zero_add] at hshift
        exact hshift
      · have htodo : leading l = [.hitchRaise] := by rw [honly]; rfl
        rw [htodo] at hcarried
        exact hcarried.raised hheld hfresh
      · have htodo : leading l = [.hitchRaise] := by rw [honly]; rfl
        exact hcarried.hitchRefused htodo (.inl rfl)
          ((hitchRefusal_of_takes (s := s.withRequests rest) (.inl hheld)).trans (if_neg hstale))
      · have htodo : leading l = [shiftAction true 1] := by rw [honly]; rfl
        obtain ⟨hshc, -, hrefused⟩ := hcarried.shiftRefused (why := .noGear) htodo (by
          change (if s.shc.state = .faultHold then _ else if s.shc.state = .neutral ∨ s.shc.state = .parked then _ else _) = _
          rw [if_neg (by simp [hneutral]), if_pos (.inl hneutral)])
        exact ⟨hshc, hrefused⟩
  · refine ⟨_, exec_headlandCancel hmode hrequest, ?_⟩
    have htouches : Touches [.hsq, .requests] s (abortRun .cancel (s.withRequests rest)) :=
      ((touches_withRequests s rest).mono (by decide)).trans ((touches_abortRun .cancel _).mono (by decide))
    have hrequests : (abortRun .cancel (s.withRequests rest)).requests = rest :=
      touches_abortRun .cancel (s.withRequests rest) .requests (by decide)
    refine ⟨hrequests, htouches, fun hrunning => ?_, fun hidle => ?_⟩
    · rw [abortRun_of_running (s := s.withRequests rest) hrunning]
      rfl
    · rw [abortRun_of_idle (s := s.withRequests rest) hidle]
      rfl

end Sys2Proof.Proofs
end

