-- ==== Sys2Proof/Proofs/HeadlandIntervals.lean ====
section
/-! SUPPORT. What a control interval of the headland sequencer finds before its trigger (R169, R174, R176, R177). -/

namespace Sys2Proof.Proofs

open Sys2Proof Sys2Proof.Machine

section
variable {s t v w : State}

/-! ## The remaining steps -/

theorem remaining_congr (hcfg : t.cfg = s.cfg) (hkind : t.hsq.kind = s.hsq.kind) (hindex : t.hsq.index = s.hsq.index) :
    remaining t = remaining s := by
  unfold remaining
  rw [hcfg, hkind, hindex]

theorem remainingUses_congr (f : HAction → Bool) (h : remaining t = remaining s) : remainingUses f t = remainingUses f s := by
  unfold remainingUses
  rw [h]

theorem remainingUses_iff {f : HAction → Bool} : remainingUses f s = true ↔ ∃ x ∈ remaining s, f x.action = true := by
  simp [remainingUses]

/-! ## The level fields (R176) -/

/-- The sequencer's record without its copies of the cab's fields. -/
def copiesLeft (h : Hsq) : Hsq := { h with frontSeen := none, slipSeen := none, leverRef := none, hitchFresh := false }

/-- The state with the copies of the cab's fields taken. -/
def fieldsTaken (s : State) : State := (takeDepth (takeSlip (takeFront s).1).1).1

/-- A copy taken is written into the record alone. -/
structure CopyTaken (s t : State) : Prop where
  touches : Touches [.hsq] s t
  left : copiesLeft t.hsq = copiesLeft s.hsq

theorem CopyTaken.trans (h : CopyTaken s t) (k : CopyTaken t v) : CopyTaken s v :=
  ⟨h.touches.trans k.touches, k.left.trans h.left⟩

theorem CopyTaken.refl (s : State) : CopyTaken s s := ⟨.refl _ s, rfl⟩

theorem CopyTaken.withHsq {x : Hsq} (h : copiesLeft x = copiesLeft s.hsq) : CopyTaken s (s.withHsq x) :=
  ⟨touches_withHsq s x, h⟩

theorem takeFront_taken (s : State) : CopyTaken s (takeFront s).1 := by
  unfold takeFront
  split
  · exact .withHsq rfl
  · exact .refl s

theorem takeSlip_taken (s : State) : CopyTaken s (takeSlip s).1 := by
  unfold takeSlip
  split
  · exact .withHsq rfl
  · exact .refl s

theorem takeDepth_taken (s : State) : CopyTaken s (takeDepth s).1 := by
  unfold takeDepth
  split
  · exact .withHsq rfl
  · exact .withHsq rfl

theorem fieldsTaken_taken (s : State) : CopyTaken s (fieldsTaken s) :=
  ((takeFront_taken s).trans (takeSlip_taken _)).trans (takeDepth_taken _)

/-- A field that the copies do not write. -/
theorem CopyTaken.field {α : Sort _} {f : Hsq → α} (h : CopyTaken s t) (hf : ∀ x : Hsq, f (copiesLeft x) = f x) :
    f t.hsq = f s.hsq := by rw [← hf t.hsq, h.left, hf]

theorem CopyTaken.remaining (h : CopyTaken s t) : remaining t = remaining s :=
  remaining_congr (h.touches .cfg (by decide)) (h.field (f := Hsq.kind) fun _ => rfl) (h.field (f := Hsq.index) fun _ => rfl)

theorem takeFront_changed : (takeFront s).2 = true ↔ ∃ (d : CabDriveFields) (m : FrontMode),
    s.lc.cabDrive.current = some d ∧ s.hsq.frontSeen = some m ∧ frontOfCode d.front ≠ m := by
  unfold takeFront
  cases s.lc.cabDrive.current with
  | none => simp
  | some d =>
    change (s.hsq.frontSeen.isSome && s.hsq.frontSeen != some (frontOfCode d.front)) = true ↔ _
    cases s.hsq.frontSeen with
    | none => simp
    | some m => simpa using ne_comm

theorem takeSlip_changed : (takeSlip s).2 = true ↔ ∃ (f : CabHitchFields) (b : Bool),
    s.lc.cabHitch.current = some f ∧ s.hsq.slipSeen = some b ∧ onOfCode f.slipControl ≠ b := by
  unfold takeSlip
  cases s.lc.cabHitch.current with
  | none => simp
  | some f =>
    change (s.hsq.slipSeen.isSome && s.hsq.slipSeen != some (onOfCode f.slipControl)) = true ↔ _
    cases s.hsq.slipSeen with
    | none => simp
    | some b => simpa using ne_comm

theorem takeDepth_changed : (takeDepth s).2 = true ↔ ∃ (f : CabHitchFields) (ref : Nat),
    s.lc.cabHitch.current = some f ∧ s.hsq.leverRef = some ref ∧ s.hsq.hitchFresh = true ∧
    10 ≤ ((min 1000 f.lever : Int) - ref).natAbs := by
  unfold takeDepth
  cases s.lc.cabHitch.current with
  | none => simp
  | some f =>
    cases href : s.hsq.leverRef with
    | none => simp
    | some ref =>
      change (s.hsq.hitchFresh && leverMoved ref (min 1000 f.lever)) = true ↔ _
      simp [leverMoved, leverStep]

theorem takeFront_hsq (s : State) : ∃ m : Option FrontMode, (takeFront s).1.hsq = { s.hsq with frontSeen := m } := by
  unfold takeFront
  split
  · exact ⟨_, rfl⟩
  · exact ⟨s.hsq.frontSeen, rfl⟩

theorem takeSlip_hsq (s : State) : ∃ b : Option Bool, (takeSlip s).1.hsq = { s.hsq with slipSeen := b } := by
  unfold takeSlip
  split
  · exact ⟨_, rfl⟩
  · exact ⟨s.hsq.slipSeen, rfl⟩

/-- The slip control copy is compared whatever the front drive's was, and the lever whatever both were. -/
theorem takeSlip_after : (takeSlip (takeFront s).1).2 = (takeSlip s).2 := by
  obtain ⟨m, hhsq⟩ := takeFront_hsq s
  have hlc := (takeFront_taken s).touches .lc (by decide)
  rw [Bool.eq_iff_iff, takeSlip_changed, takeSlip_changed, hhsq, hlc]

theorem takeDepth_after : (takeDepth (takeSlip (takeFront s).1).1).2 = (takeDepth s).2 := by
  obtain ⟨m, hfront⟩ := takeFront_hsq s
  obtain ⟨b, hslip⟩ := takeSlip_hsq (takeFront s).1
  have hlc := ((takeFront_taken s).trans (takeSlip_taken _)).touches .lc (by decide)
  rw [Bool.eq_iff_iff, takeDepth_changed, takeDepth_changed, hslip, hfront, hlc]

/-! ## The aborts (R176, R177) -/

/-- A change of a field touches the remaining steps. -/
def touchStep (changed : Bool) (f : HAction → Bool) (s : State) : State := if changed = true then cabTouches f s else s

theorem compareFields_eq (s : State) : compareFields s = touchStep (takeDepth s).2 usesHitch
    (touchStep (takeSlip s).2 usesSlip (touchStep (takeFront s).2 usesFront (fieldsTaken s))) := by
  rw [← takeDepth_after, ← takeSlip_after (s := s)]
  rfl

theorem touchStep_eq (changed : Bool) (f : HAction → Bool) (s : State) : touchStep changed f s =
    if changed = true ∧ remainingUses f s = true then abortRun .cabRequest s else s := by
  unfold touchStep cabTouches
  rw [ite_and]

theorem touchStep_of_idle (changed : Bool) (f : HAction → Bool) (h : s.hsq.state ≠ .running) : touchStep changed f s = s := by
  rw [touchStep_eq, abortRun_of_idle h, ite_self]

theorem fieldTouched_iff : FieldTouched (remaining s) s ↔
    ((takeFront s).2 = true ∧ remainingUses usesFront s = true) ∨
    ((takeSlip s).2 = true ∧ remainingUses usesSlip s = true) ∨
    ((takeDepth s).2 = true ∧ remainingUses usesHitch s = true) := by
  rw [takeFront_changed, takeSlip_changed, takeDepth_changed]
  simp only [remainingUses_iff, usesFront_iff, usesSlip_iff, usesHitch_iff]
  unfold FieldTouched
  constructor
  · rintro (⟨d, m, hcab, hseen, hne, huse⟩ | ⟨f, b, hcab, hseen, hne, huse⟩ | ⟨f, ref, hcab, href, hfresh, hmoved, huse⟩)
    · exact .inl ⟨⟨d, m, hcab, hseen, hne⟩, huse⟩
    · exact .inr (.inl ⟨⟨f, b, hcab, hseen, hne⟩, huse⟩)
    · exact .inr (.inr ⟨⟨f, ref, hcab, href, hfresh, hmoved⟩, huse⟩)
  · rintro (⟨⟨d, m, hcab, hseen, hne⟩, huse⟩ | ⟨⟨f, b, hcab, hseen, hne⟩, huse⟩ | ⟨⟨f, ref, hcab, href, hfresh, hmoved⟩, huse⟩)
    · exact .inl ⟨d, m, hcab, hseen, hne, huse⟩
    · exact .inr (.inl ⟨f, b, hcab, hseen, hne, huse⟩)
    · exact .inr (.inr ⟨f, ref, hcab, href, hfresh, hmoved, huse⟩)

/-- A run that is RUNNING with a touched field is aborted, and any other goes on with its copies. -/
theorem compareFields_spec (hrun : s.hsq.state = .running) :
    (FieldTouched (remaining s) s → compareFields s = abortRun .cabRequest (fieldsTaken s)) ∧
    (¬ FieldTouched (remaining s) s → compareFields s = fieldsTaken s) := by
  have htaken := fieldsTaken_taken s
  have huses (f : HAction → Bool) : remainingUses f (fieldsTaken s) = remainingUses f s :=
    remainingUses_congr f htaken.remaining
  have hrunning : (fieldsTaken s).hsq.state = .running := (htaken.field (f := Hsq.state) fun _ => rfl).trans hrun
  have haborted : (abortRun .cabRequest (fieldsTaken s)).hsq.state ≠ .running := by
    rw [(abortRun_hsq hrunning).1]
    nofun
  rw [compareFields_eq, fieldTouched_iff, touchStep_eq (takeFront s).2, huses]
  by_cases hfront : (takeFront s).2 = true ∧ remainingUses usesFront s = true
  · rw [if_pos hfront, touchStep_of_idle _ _ haborted, touchStep_of_idle _ _ haborted]
    exact ⟨fun _ => rfl, fun h => absurd (.inl hfront) h⟩
  · rw [if_neg hfront, touchStep_eq (takeSlip s).2, huses]
    by_cases hslip : (takeSlip s).2 = true ∧ remainingUses usesSlip s = true
    · rw [if_pos hslip, touchStep_of_idle _ _ haborted]
      exact ⟨fun _ => rfl, fun h => absurd (.inr (.inl hslip)) h⟩
    · rw [if_neg hslip, touchStep_eq (takeDepth s).2, huses]
      by_cases hhitch : (takeDepth s).2 = true ∧ remainingUses usesHitch s = true
      · rw [if_pos hhitch]
        exact ⟨fun _ => rfl, fun h => absurd (.inr (.inr hhitch)) h⟩
      · rw [if_neg hhitch]
        refine ⟨fun h => ?_, fun _ => rfl⟩
        rcases h with h | h | h
        · exact absurd h hfront
        · exact absurd h hslip
        · exact absurd h hhitch

theorem testGearbox_of_idle (h : s.hsq.state ≠ .running) : testGearbox s = s := by
  unfold testGearbox
  rw [abortRun_of_idle h, abortRun_of_idle h, ite_self, ite_self]

theorem testGearbox_of_lever (h : s.shc.lever = .n ∨ s.shc.lever = .park) : testGearbox s = abortRun .lever s := if_pos h

theorem testGearbox_of_shuttle (hlever : s.shc.lever = .f ∨ s.shc.lever = .r)
    (h : s.shc.state = .shuttling ∨ s.shc.pendingShuttle = true) : testGearbox s = abortRun .shuttle s := by
  unfold testGearbox
  rw [if_neg (by rcases hlever with k | k <;> simp [k]), if_pos h]

theorem testGearbox_of_quiet (hlever : s.shc.lever = .f ∨ s.shc.lever = .r) (hstate : s.shc.state ≠ .shuttling)
    (hpending : s.shc.pendingShuttle = false) : testGearbox s = s := by
  unfold testGearbox
  rw [if_neg (by rcases hlever with k | k <;> simp [k]), if_neg (by simp [hstate, hpending])]

/-! ## A late refusal (R174) -/

/-- What the test on the SHC's refusal count writes. -/
structure RefusalsChecked (s t : State) : Prop where
  touches : Touches [.hsq] s t
  kept : t.hsq = { s.hsq with lastRefused := t.hsq.lastRefused, refusalsSeen := s.shc.refusals }
  seen : s.shc.refusals = s.hsq.refusalsSeen → t.hsq.lastRefused = s.hsq.lastRefused
  late : ∀ (r : StepRef) (why : ShcReason) (who : Origin), s.shc.refusals ≠ s.hsq.refusalsSeen →
    s.shc.lastRefusal = some (why, who) → s.hsq.lastShift = some r →
    t.hsq.lastRefused = if who = .headland then some (r, .shc why) else s.hsq.lastRefused

theorem refusalsChecked (s : State) : RefusalsChecked s (checkRefusals s) := by
  by_cases hseen : s.shc.refusals = s.hsq.refusalsSeen
  · have hsame : checkRefusals s = s := if_pos hseen
    rw [hsame]
    refine ⟨.refl _ s, ?_, fun _ => rfl, fun _ _ _ h => absurd hseen h⟩
    rw [hseen]
  · unfold checkRefusals
    rw [if_neg hseen]
    dsimp only
    split
    next why r hrefusal hshift =>
      refine ⟨(touches_withHsq s _).trans (touches_withHsq _ _), rfl, fun h => absurd h hseen, fun r' why' who' _ hr hs => ?_⟩
      change s.shc.lastRefusal = _ at hrefusal
      change s.hsq.lastShift = _ at hshift
      rw [hrefusal] at hr
      rw [hshift] at hs
      cases hr
      cases hs
      rfl
    next hnot =>
      refine ⟨touches_withHsq s _, rfl, fun h => absurd h hseen, fun r' why' who' _ hr hs => ?_⟩
      have hwho : who' ≠ .headland := fun k => hnot why' r' (k ▸ hr) hs
      rw [if_neg hwho]
      rfl

theorem RefusalsChecked.field {α : Sort _} {f : Hsq → α} (h : RefusalsChecked s t)
    (hf : ∀ (x : Hsq) (r : Option (StepRef × StepReason)) (n : BitVec 8),
      f { x with lastRefused := r, refusalsSeen := n } = f x) : f t.hsq = f s.hsq := by rw [h.kept, hf]

/-! ## The interval before its trigger (R169) -/

/-- A run that an abort ends within the interval. -/
theorem hsqInterval_of_aborted {cause : AbortCause} (hrun : s.hsq.state = .running)
    (h : testGearbox (compareFields s) = abortRun cause (fieldsTaken s)) :
    (hsqInterval s).hsq.state = .aborted ∧ (hsqInterval s).hsq.cause = some cause ∧
    (hsqInterval s).hsq.index = s.hsq.index ∧ Touches [.hsq] s (hsqInterval s) := by
  have htaken := fieldsTaken_taken s
  have hrunning : (fieldsTaken s).hsq.state = .running := (htaken.field (f := Hsq.state) fun _ => rfl).trans hrun
  have hindex := htaken.field (f := Hsq.index) fun _ => rfl
  have hchecked := refusalsChecked (abortRun cause (fieldsTaken s))
  rw [abortRun_of_running hrunning] at h hchecked
  have hstate := hchecked.field (f := Hsq.state) fun _ _ _ => rfl
  have hcause := hchecked.field (f := Hsq.cause) fun _ _ _ => rfl
  have hplace := hchecked.field (f := Hsq.index) fun _ _ _ => rfl
  have hinterval : hsqInterval s = checkRefusals ((fieldsTaken s).withHsq { (fieldsTaken s).hsq with
      state := .aborted, cause := some cause, trigStart := none }) := by
    unfold hsqInterval
    rw [h, if_pos (by simp [State.running, hrun])]
    exact if_neg (by simp [State.running, hstate])
  rw [hinterval]
  exact ⟨hstate, hcause, hplace.trans hindex, (htaken.touches.trans (touches_withHsq _ _)).trans hchecked.touches⟩

/-- The state in which the trigger of a run that goes on is tested. -/
def stepTested (s : State) : State := checkRefusals (fieldsTaken s)

/-- A run that goes on: what the interval has written before its trigger. -/
structure GoesOnRunning (s c : State) : Prop where
  touches : Touches [.hsq] s c
  run : (c.hsq.state, c.hsq.kind, c.hsq.stepCount, c.hsq.index, c.hsq.trigStart, c.hsq.progress, c.hsq.lastShift) =
    (s.hsq.state, s.hsq.kind, s.hsq.stepCount, s.hsq.index, s.hsq.trigStart, s.hsq.progress, s.hsq.lastShift)
  refusalsSeen : c.hsq.refusalsSeen = s.shc.refusals
  seen : s.shc.refusals = s.hsq.refusalsSeen → c.hsq.lastRefused = s.hsq.lastRefused
  late : ∀ (r : StepRef) (why : ShcReason), s.shc.refusals ≠ s.hsq.refusalsSeen →
    s.shc.lastRefusal = some (why, .headland) → s.hsq.lastShift = some r → c.hsq.lastRefused = some (r, .shc why)

theorem goesOnRunning (s : State) : GoesOnRunning s (stepTested s) := by
  have htaken := fieldsTaken_taken s
  have hchecked := refusalsChecked (fieldsTaken s)
  have hshc : (fieldsTaken s).shc = s.shc := htaken.touches .shc (by decide)
  have hseen := htaken.field (f := Hsq.refusalsSeen) fun _ => rfl
  have hlast := htaken.field (f := Hsq.lastRefused) fun _ => rfl
  have hshift := htaken.field (f := Hsq.lastShift) fun _ => rfl
  have hrun := htaken.field (f := fun h : Hsq => (h.state, h.kind, h.stepCount, h.index, h.trigStart, h.progress, h.lastShift))
    fun _ => rfl
  have hafter := hchecked.field
    (f := fun h : Hsq => (h.state, h.kind, h.stepCount, h.index, h.trigStart, h.progress, h.lastShift)) fun _ _ _ => rfl
  refine ⟨htaken.touches.trans hchecked.touches, hafter.trans hrun, ?_, fun h => ?_, fun r why hne hrefusal hr => ?_⟩
  · rw [stepTested, hchecked.kept, hshc]
  · exact (hchecked.seen (by rw [hshc, hseen]; exact h)).trans hlast
  · exact (hchecked.late r why .headland (by rw [hshc, hseen]; exact hne) (by rw [hshc]; exact hrefusal)
      (hshift.trans hr)).trans (if_pos rfl)

theorem hsqInterval_of_running (hrun : s.hsq.state = .running) (hfields : ¬ FieldTouched (remaining s) s)
    (hlever : s.shc.lever = .f ∨ s.shc.lever = .r) (hstate : s.shc.state ≠ .shuttling)
    (hpending : s.shc.pendingShuttle = false) : hsqInterval s = followTrigger (stepTested s) := by
  have hshc : (fieldsTaken s).shc = s.shc := (fieldsTaken_taken s).touches .shc (by decide)
  have htest : testGearbox (compareFields s) = fieldsTaken s := by
    rw [(compareFields_spec hrun).2 hfields]
    exact testGearbox_of_quiet (by rw [hshc]; exact hlever) (by rw [hshc]; exact hstate) (by rw [hshc]; exact hpending)
  have hstill : (stepTested s).hsq.state = .running := (congrArg Prod.fst (goesOnRunning s).run).trans hrun
  unfold hsqInterval
  rw [htest, if_pos (by simp [State.running, hrun])]
  exact if_pos (beq_iff_eq.mpr hstill)

end

end Sys2Proof.Proofs
end

