-- ==== Sys2Proof/Proofs/HeadlandTriggers.lean ====
section
/-! PROOF. O46: the triggers of a waiting step, and the steps issued when they are due (R169 to R174, log 35, 58). -/

namespace Sys2Proof.Proofs

open Sys2Proof Sys2Proof.Machine

section
variable {s t u c w : State} {x : HStep} {rest : List HStep}

/-! ## The triggers (R171, R172) -/

/-- The distance progress with the travel since the last count (R171, log 58). -/
def travelCounted (s : State) : Nat := s.hsq.trigStart.elim s.hsq.progress fun t0 =>
  if s.scu.motion.standstill = true then s.hsq.progress
  else min 500000000 (s.hsq.progress + elapsed s.scu.motion.travel t0)

theorem waitingTrigger_eq (h : remaining s = x :: rest) : waitingTrigger s = some x.trigger := by
  unfold waitingTrigger
  rw [h]
  rfl

/-- Travel is counted toward a distance alone. -/
theorem countTravel_of_other (h : remaining s = x :: rest) (hx : ∀ d : Nat, x.trigger ≠ .distance d) : countTravel s = s := by
  unfold countTravel
  rw [waitingTrigger_eq h]
  split
  next d t0 htrigger _ => exact absurd (Option.some.inj htrigger) (hx d)
  next => rfl

theorem countTravel_of_distance {d : Nat} (h : remaining s = x :: rest) (hx : x.trigger = .distance d) :
    countTravel s = s.withHsq { s.hsq with
      trigStart := s.hsq.trigStart.map fun _ => s.scu.motion.travel, progress := travelCounted s } := by
  unfold countTravel travelCounted
  rw [waitingTrigger_eq h, hx]
  cases hstart : s.hsq.trigStart with
  | none =>
    change s = s.withHsq { s.hsq with trigStart := none, progress := s.hsq.progress }
    rw [← hstart]
    rfl
  | some t0 => rfl

theorem touches_countTravel (s : State) : Touches [.hsq] s (countTravel s) := by
  unfold countTravel
  split
  · exact touches_withHsq s _
  · exact .refl _ s

/-- What the counting of travel keeps of the run. -/
theorem countTravel_kept (s : State) : (countTravel s).hsq = { s.hsq with
    trigStart := (countTravel s).hsq.trigStart, progress := (countTravel s).hsq.progress } := by
  unfold countTravel
  split
  · rfl
  · rfl

theorem remaining_countTravel (s : State) : remaining (countTravel s) = remaining s :=
  remaining_congr (touches_countTravel s .cfg (by decide)) (by rw [countTravel_kept]) (by rw [countTravel_kept])

/-- The waiting step's trigger is satisfied as travel and time stand. -/
def TriggerDue (x : HStep) (s : State) : Prop :=
  (∃ d : Nat, x.trigger = .distance d ∧ d * 100000 ≤ travelCounted s) ∨
  ∃ (d : Nat) (t0 : Stamp), x.trigger = .time d ∧ s.hsq.trigStart = some t0 ∧ d * 100000 ≤ elapsed s.now t0

theorem distanceDue_iff (hrun : s.hsq.state = .running) (h : remaining s = x :: rest) :
    distanceDue (countTravel s) = true ↔ ∃ d : Nat, x.trigger = .distance d ∧ d * 100000 ≤ travelCounted s := by
  have hwaiting : waitingTrigger (countTravel s) = some x.trigger := waitingTrigger_eq ((remaining_countTravel s).trans h)
  have hrunning : (countTravel s).running = true := by
    unfold State.running
    rw [countTravel_kept]
    exact beq_iff_eq.mpr hrun
  unfold distanceDue
  rw [hwaiting, hrunning]
  cases hx : x.trigger with
  | immediate => simp
  | distance d =>
    rw [countTravel_of_distance h hx]
    change (true && decide (d * 100000 ≤ travelCounted s)) = true ↔ _
    rw [Bool.true_and, decide_eq_true_iff]
    refine ⟨fun k => ⟨d, rfl, k⟩, fun ⟨e, he, k⟩ => ?_⟩
    cases he
    exact k
  | time d => simp

theorem timeDue_iff (hrun : s.hsq.state = .running) (h : remaining s = x :: rest) : timeDue s = true ↔
    ∃ (d : Nat) (t0 : Stamp), x.trigger = .time d ∧ s.hsq.trigStart = some t0 ∧ d * 100000 ≤ elapsed s.now t0 := by
  have hrunning : s.running = true := beq_iff_eq.mpr hrun
  unfold timeDue
  rw [waitingTrigger_eq h, hrunning]
  cases hx : x.trigger with
  | immediate => simp
  | distance d => simp
  | time d =>
    cases hstart : s.hsq.trigStart with
    | none => simp
    | some t0 =>
      change (true && decide (d * 100000 ≤ elapsed s.now t0)) = true ↔ _
      rw [Bool.true_and, decide_eq_true_iff]
      refine ⟨fun k => ⟨d, t0, rfl, rfl, k⟩, fun ⟨e, t1, he, ht, k⟩ => ?_⟩
      cases he
      cases ht
      exact k

/-- A time trigger is not tested otherwise with the travel counted. -/
theorem timeDue_countTravel (hrun : s.hsq.state = .running) (h : remaining s = x :: rest) :
    timeDue (countTravel s) = timeDue s := by
  by_cases hx : ∃ d : Nat, x.trigger = .distance d
  · have hrunning : (countTravel s).hsq.state = .running := by
      rw [countTravel_kept]
      exact hrun
    obtain ⟨d, hd⟩ := hx
    rw [Bool.eq_iff_iff, timeDue_iff hrunning ((remaining_countTravel s).trans h), timeDue_iff hrun h, hd]
    simp
  · rw [countTravel_of_other h fun d hd => hx ⟨d, hd⟩]

theorem triggerDue_iff (hrun : s.hsq.state = .running) (h : remaining s = x :: rest) :
    (distanceDue (countTravel s) || timeDue (countTravel s)) = true ↔ TriggerDue x s := by
  rw [Bool.or_eq_true, timeDue_countTravel hrun h, distanceDue_iff hrun h, timeDue_iff hrun h]
  rfl

/-! ## The waiting step is issued (R170) -/

theorem issueWaiting_eq (h : remaining w = x :: rest) : issueWaiting w = issueFrom rest (issueOne x.action w) := by
  unfold issueWaiting
  rw [h]
  rfl

/-- What is left when the waiting step has been issued with the IMMEDIATE steps behind it. -/
structure TriggerIssued (k : SeqKind) (x : HStep) (rest : List HStep) (s t : State) : Prop where
  touches : Touches [.vdb, .shc, .fdc, .htc, .hsq] s t
  kind : t.hsq.kind = some k
  stepCount : t.hsq.stepCount = s.hsq.stepCount
  carried : ∃ u : State, CarriedOut k s.hsq.index (x.action :: leading rest) s u t
  index : t.hsq.index = s.hsq.index + 1 + (rest.takeWhile isImmediate).length
  finished : rest.takeWhile isImmediate = rest → t.hsq.state = .done ∧ t.hsq.trigStart = none
  waits : ∀ y : HStep, rest[(rest.takeWhile isImmediate).length]? = some y → t.hsq.state = .running ∧
    (∀ d : Nat, y.trigger = .distance d → t.hsq.trigStart = some s.scu.motion.travel ∧ t.hsq.progress = 0) ∧
    (∀ d : Nat, y.trigger = .time d → t.hsq.trigStart = some s.now)

/-- The waiting step issued from `w`, whose run is that of `s` but for the count and the refusals. -/
theorem triggerIssued {k : SeqKind} (hruns : s.mc.mode.controllersRun = true) (hw : Touches [.hsq] s w)
    (hrun : (w.hsq.state, w.hsq.kind, w.hsq.stepCount, w.hsq.index, w.hsq.lastShift) =
      (.running, some k, s.hsq.stepCount, s.hsq.index, s.hsq.lastShift))
    (h : remaining w = x :: rest) : TriggerIssued k x rest s (issueWaiting w) := by
  simp only [Prod.mk.injEq] at hrun
  obtain ⟨hstate, hkind, hcount, hindex, hshift⟩ := hrun
  have hissued := issued rest (issueOne x.action w)
  obtain ⟨hone, hnext⟩ := issueOne_run x.action w
  have htouches := touches_issueOne x.action w
  have hscu : (issueOne x.action w).scu = s.scu := (htouches .scu (by decide)).trans (hw .scu (by decide))
  have hnow : (issueOne x.action w).now = s.now := (htouches .now (by decide)).trans (hw .now (by decide))
  rw [issueWaiting_eq h]
  have hcarried : CarriedOut k s.hsq.index (x.action :: leading rest) s w (issueFrom rest (issueOne x.action w)) :=
    ⟨hruns, hw, hkind, hindex, hshift, hissued.after, hissued.recorded.1, hissued.recorded.2.1, hissued.recorded.2.2⟩
  generalize issueFrom rest (issueOne x.action w) = t at *
  refine ⟨((hw.mono (by decide)).trans htouches).trans hissued.touches, ?_, ?_, ⟨w, hcarried⟩, ?_, hissued.finished,
    fun y hy => ?_⟩
  · exact ((hissued.field Hsq.kind fun _ _ _ _ => rfl).trans (of_runRest (f := Hsq.kind) (fun _ => rfl) hone)).trans hkind
  · exact ((hissued.field Hsq.stepCount fun _ _ _ _ => rfl).trans
      (of_runRest (f := Hsq.stepCount) (fun _ => rfl) hone)).trans hcount
  · rw [hissued.index, hnext, hindex]
  · obtain ⟨hwaits, hdistance, htime⟩ := hissued.waits y hy
    rw [hscu] at hdistance
    rw [hnow] at htime
    exact ⟨(hwaits.trans (of_runRest (f := Hsq.state) (fun _ => rfl) hone)).trans hstate, hdistance, htime⟩

/-! ## An interval of a run that goes on (R169) -/

/-- What an interval reads of its trigger, as the state before stands. -/
theorem triggerDue_stepTested (s : State) : TriggerDue x (stepTested s) ↔ TriggerDue x s := by
  have hgoes := goesOnRunning s
  have hrun := hgoes.run
  simp only [Prod.mk.injEq] at hrun
  obtain ⟨-, -, -, -, hstart, hprogress, -⟩ := hrun
  unfold TriggerDue travelCounted
  rw [hstart, hprogress, hgoes.touches .scu (by decide), hgoes.touches .now (by decide)]

theorem travelCounted_stepTested (s : State) : travelCounted (stepTested s) = travelCounted s := by
  have hgoes := goesOnRunning s
  have hrun := hgoes.run
  simp only [Prod.mk.injEq] at hrun
  obtain ⟨-, -, -, -, hstart, hprogress, -⟩ := hrun
  unfold travelCounted
  rw [hstart, hprogress, hgoes.touches .scu (by decide)]

theorem remaining_stepTested (s : State) : remaining (stepTested s) = remaining s := by
  have hgoes := goesOnRunning s
  have hrun := hgoes.run
  simp only [Prod.mk.injEq] at hrun
  obtain ⟨-, hkind, -, hindex, -, -, -⟩ := hrun
  exact remaining_congr (hgoes.touches .cfg (by decide)) hkind hindex

/-- Nothing but the trigger acts at the interval. -/
structure RunSteady (x : HStep) (rest : List HStep) (s : State) : Prop where
  mode : s.mc.mode = .operating
  run : s.hsq.state = .running
  steps : remaining s = x :: rest
  fields : ¬ FieldTouched (x :: rest) s
  lever : s.shc.lever = .f ∨ s.shc.lever = .r
  state : s.shc.state ≠ .shuttling
  pending : s.shc.pendingShuttle = false

theorem hsqInterval_of_steady (h : RunSteady x rest s) : hsqInterval s = followTrigger (stepTested s) :=
  hsqInterval_of_running h.run (by rw [h.steps]; exact h.fields) h.lever h.state h.pending

theorem followTrigger_eq (hrun : c.hsq.state = .running) (h : remaining c = x :: rest) :
    (TriggerDue x c → followTrigger c = issueWaiting (countTravel c)) ∧
    (¬ TriggerDue x c → followTrigger c = countTravel c) := by
  have hdue := triggerDue_iff hrun h
  unfold followTrigger
  exact ⟨fun k => if_pos (hdue.mpr k), fun k => if_neg fun l => k (hdue.mp l)⟩

theorem stepTested_running (h : s.hsq.state = .running) : (stepTested s).hsq.state = .running :=
  (congrArg Prod.fst (goesOnRunning s).run).trans h

/-- An interval with a due trigger. -/
theorem hsqInterval_due {k : SeqKind} (h : RunSteady x rest s) (hkind : s.hsq.kind = some k) (hdue : TriggerDue x s) :
    TriggerIssued k x rest s (hsqInterval s) := by
  have hgoes := goesOnRunning s
  have hrun := hgoes.run
  have hsteps := (remaining_stepTested s).trans h.steps
  rw [hsqInterval_of_steady h,
    (followTrigger_eq (stepTested_running h.run) hsteps).1 ((triggerDue_stepTested s).mpr hdue)]
  generalize stepTested s = c at *
  simp only [Prod.mk.injEq] at hrun
  obtain ⟨hstate, hkindAfter, hcount, hindex, -, -, hshift⟩ := hrun
  refine triggerIssued ?_ (hgoes.touches.trans (touches_countTravel c)) ?_ ((remaining_countTravel c).trans hsteps)
  · rw [h.mode]
    rfl
  · rw [countTravel_kept]
    simp only [Prod.mk.injEq]
    exact ⟨hstate.trans h.run, hkindAfter.trans hkind, hcount, hindex, hshift⟩

/-- What an interval without a due trigger leaves. -/
structure TriggerWaits (x : HStep) (s t : State) : Prop where
  touches : Touches [.hsq] s t
  state : t.hsq.state = .running
  index : t.hsq.index = s.hsq.index
  refusalsSeen : t.hsq.refusalsSeen = s.shc.refusals
  counted : ∀ d : Nat, x.trigger = .distance d → s.hsq.trigStart.isSome = true →
    t.hsq.progress = travelCounted s ∧ t.hsq.trigStart = some s.scu.motion.travel
  late : ∀ (r : StepRef) (why : ShcReason), s.shc.refusals ≠ s.hsq.refusalsSeen →
    s.shc.lastRefusal = some (why, .headland) → s.hsq.lastShift = some r → t.hsq.lastRefused = some (r, .shc why)
  seen : s.shc.refusals = s.hsq.refusalsSeen → t.hsq.lastRefused = s.hsq.lastRefused

theorem hsqInterval_waits (h : RunSteady x rest s) (hdue : ¬ TriggerDue x s) : TriggerWaits x s (hsqInterval s) := by
  have hgoes := goesOnRunning s
  have hrun := hgoes.run
  have hsteps := (remaining_stepTested s).trans h.steps
  have hcounted := travelCounted_stepTested s
  rw [hsqInterval_of_steady h,
    (followTrigger_eq (stepTested_running h.run) hsteps).2 (mt (triggerDue_stepTested s).mp hdue)]
  generalize stepTested s = c at *
  simp only [Prod.mk.injEq] at hrun
  obtain ⟨hstate, -, -, hindex, hstart, -, -⟩ := hrun
  have hkept := countTravel_kept c
  refine ⟨hgoes.touches.trans (touches_countTravel c), ?_, ?_, ?_, fun d hd hsome => ?_, fun r why hne hrefusal hr => ?_,
    fun hseen => ?_⟩
  · rw [hkept]
    exact hstate.trans h.run
  · rw [hkept]
    exact hindex
  · rw [hkept]
    exact hgoes.refusalsSeen
  · obtain ⟨t0, ht0⟩ := Option.isSome_iff_exists.mp hsome
    rw [countTravel_of_distance hsteps hd, State.withHsq_hsq, hcounted, hstart, ht0, hgoes.touches .scu (by decide)]
    exact ⟨rfl, rfl⟩
  · rw [hkept]
    exact hgoes.late r why hne hrefusal hr
  · rw [hkept]
    exact hgoes.seen hseen

end

end Sys2Proof.Proofs
end

