-- ==== Sys2Proof/Proofs/HeadlandRun.lean ====
section
/-! PROOF. O46: the rows of the triggers, the aborts of a run, and the statement (R169 to R177, log 35, 51, 58). -/

namespace Sys2Proof.Proofs

open Sys2Proof Sys2Proof.Machine

section
variable {s t u : State} {x : HStep} {rest : List HStep}

/-! ## The steps at their targets -/

theorem hitchRefusal_of_state {why : HtcReason}
    (h : (s.htc.state = .faultHold ∧ why = .fault) ∨ (s.htc.state = .startLock ∧ why = .locked) ∨
      (s.htc.state = .fender ∧ why = .busyLocal) ∨
      ((s.htc.state = .held ∨ s.htc.state = .raising ∨ s.htc.state = .transport ∨ s.htc.state = .working) ∧
        s.lc.cabHitch.fresh ≠ .fresh ∧ why = .stale)) : hitchRefusal s = some why := by
  rcases h with ⟨hstate, rfl⟩ | ⟨hstate, rfl⟩ | ⟨hstate, rfl⟩ | ⟨htakes, hstale, rfl⟩
  · unfold hitchRefusal
    rw [hstate]
  · unfold hitchRefusal
    rw [hstate]
  · unfold hitchRefusal
    rw [hstate]
  · exact (hitchRefusal_of_takes htakes).trans (if_neg hstale)

theorem CarriedOut.stepsCarriedOut {k : SeqKind} {i : Nat} {todo : List HAction} (h : CarriedOut k i todo s u t) :
    StepsCarriedOut k i todo s t where
  wait := h.wait
  front _ _ _ htodo hafter := h.front htodo hafter
  noFront := h.noFront
  slip _ _ _ htodo hafter := h.slip htodo hafter
  noSlip := h.noSlip
  hitch _ _ _ htodo hafter hfresh htakes := h.hitch htodo hafter hfresh htakes
  noHitch := h.noHitch
  hitchRefused _ _ htodo ha hwhy := h.hitchRefused htodo ha (hitchRefusal_of_state hwhy)
  shift up n a before after ha htodo hothers hn hle hstate hcmp hvalid hfresh hspeeds hqueue := by
    subst ha
    exact h.shift (up := up) htodo hothers hn hle (requestRefusal_of_sound hstate hcmp hvalid hfresh hspeeds) hqueue
  noShift := h.noShift
  shiftRefused up a why htodo ha hwhy := by
    subst ha
    exact h.shiftRefused (up := up) htodo hwhy

/-! ## The rows -/

theorem headlandRuns_of_operating (h : s.mc.mode = .operating) : s.mc.mode.headlandRuns = true := by
  rw [h]
  rfl

theorem exec_hsqControlInterval (h : s.mc.mode = .operating) : exec .hsqControlInterval s = .next (hsqInterval s) :=
  congrArg Host.Outcome.next (if_pos (headlandRuns_of_operating h))

theorem exec_distanceTrigger (h : s.mc.mode = .operating) : exec .distanceTrigger s =
    .next (if distanceDue (countTravel s) = true then hsqInterval s else s) := by
  simp only [exec, execDistanceTrigger, headlandRuns_of_operating h, Bool.true_and]

theorem exec_timeTrigger (h : s.mc.mode = .operating) : exec .timeTrigger s =
    .next (if timeDue s = true then hsqInterval s else s) := by
  simp only [exec, execTimeTrigger, headlandRuns_of_operating h, Bool.true_and]

/-- The interval, and the row of a due trigger, are the interval. -/
theorem exec_due {c : Instr} (hmode : s.mc.mode = .operating) (hrun : s.hsq.state = .running) (h : remaining s = x :: rest)
    (hc : c = .hsqControlInterval ∨ (c = .distanceTrigger ∧ ∃ d : Nat, x.trigger = .distance d) ∨
      (c = .timeTrigger ∧ ∃ d : Nat, x.trigger = .time d)) (hdue : TriggerDue x s) : exec c s = .next (hsqInterval s) := by
  rcases hc with rfl | ⟨rfl, d, hd⟩ | ⟨rfl, d, hd⟩
  · exact exec_hsqControlInterval hmode
  · rw [exec_distanceTrigger hmode, if_pos ((distanceDue_iff hrun h).mpr (hdue.resolve_right ?_))]
    rintro ⟨e, t0, he, -⟩
    rw [hd] at he
    cases he
  · rw [exec_timeTrigger hmode, if_pos ((timeDue_iff hrun h).mpr (hdue.resolve_left ?_))]
    rintro ⟨e, he, -⟩
    rw [hd] at he
    cases he

/-- The row of a trigger that is not due changes nothing (log 35). -/
theorem exec_not_due {c : Instr} (hmode : s.mc.mode = .operating) (hrun : s.hsq.state = .running)
    (h : remaining s = x :: rest) (hc : c = .distanceTrigger ∨ c = .timeTrigger) (hdue : ¬ TriggerDue x s) :
    exec c s = .next s := by
  rcases hc with rfl | rfl
  · rw [exec_distanceTrigger hmode, if_neg fun k => hdue (.inl ((distanceDue_iff hrun h).mp k))]
  · rw [exec_timeTrigger hmode, if_neg fun k => hdue (.inr ((timeDue_iff hrun h).mp k))]

/-! ## Aborts by the cab (R176, R177) -/

/-- A touched field aborts before the lever and the shuttle do (log 51). -/
theorem run_aborts (hrun : s.hsq.state = .running) (h : remaining s = x :: rest) :
    (FieldTouched (x :: rest) s → testGearbox (compareFields s) = abortRun .cabRequest (fieldsTaken s)) ∧
    (¬ FieldTouched (x :: rest) s → s.shc.lever = .n ∨ s.shc.lever = .park →
      testGearbox (compareFields s) = abortRun .lever (fieldsTaken s)) ∧
    (¬ FieldTouched (x :: rest) s → s.shc.lever = .f ∨ s.shc.lever = .r →
      s.shc.state = .shuttling ∨ s.shc.pendingShuttle = true →
      testGearbox (compareFields s) = abortRun .shuttle (fieldsTaken s)) := by
  have htaken := fieldsTaken_taken s
  have hshc : (fieldsTaken s).shc = s.shc := htaken.touches .shc (by decide)
  have hrunning : (fieldsTaken s).hsq.state = .running := (htaken.field (f := Hsq.state) fun _ => rfl).trans hrun
  obtain ⟨htouched, hfree⟩ := compareFields_spec hrun
  rw [h] at htouched hfree
  refine ⟨fun k => ?_, fun k hlever => ?_, fun k hlever hshuttle => ?_⟩
  · rw [htouched k]
    exact testGearbox_of_idle (by rw [(abortRun_hsq hrunning).1]; nofun)
  · rw [hfree k]
    exact testGearbox_of_lever (by rw [hshc]; exact hlever)
  · rw [hfree k]
    exact testGearbox_of_shuttle (by rw [hshc]; exact hlever) (by rw [hshc]; exact hshuttle)

/-- The notice of a cab's edge aborts a run whose remaining steps use its function. -/
theorem notice_hsq {f : HAction → Bool} {uses : Prop} {l : List Part} (hmode : s.mc.mode = .operating)
    (hrun : s.hsq.state = .running) (hu : Touches l s u) (hhsq : Part.hsq ∉ l) (hmc : Part.mc ∉ l) (hcfg : Part.cfg ∉ l)
    (huses : uses ↔ ∃ y ∈ remaining s, f y.action = true) :
    (uses → (notice f u).hsq = { s.hsq with state := .aborted, cause := some .cabRequest, trigStart := none }) ∧
    (¬ uses → (notice f u).hsq = s.hsq) := by
  have hsame : u.hsq = s.hsq := hu .hsq hhsq
  have hruns : u.mc.mode.headlandRuns = true := by
    rw [hu .mc hmc]
    exact headlandRuns_of_operating hmode
  have hremaining : remaining u = remaining s := remaining_congr (hu .cfg hcfg) (by rw [hsame]) (by rw [hsame])
  have hread : remainingUses f u = true ↔ uses := by rw [remainingUses_iff, hremaining, huses]
  have hnotice : notice f u = if remainingUses f u = true then abortRun .cabRequest u else u := if_pos hruns
  rw [hnotice]
  refine ⟨fun k => ?_, fun k => ?_⟩
  · rw [if_pos (hread.mpr k), abortRun_of_running (by rw [hsame]; exact hrun), State.withHsq_hsq, hsame]
  · rw [if_neg (mt hread.mp k), hsame]

/-- A cab's shift command or switch edge in a run. -/
theorem cab_edge_in_run {c : Instr} {r : Request} {others : List Request} {uses : Prop} (hmode : s.mc.mode = .operating)
    (hrun : s.hsq.state = .running) (h : remaining s = x :: rest)
    (hedge : (((c = .cabShiftUp ∧ r = .shift .up) ∨ (c = .cabShiftDown ∧ r = .shift .down) ∨
          (c = .cabSelect ∧ ∃ g : Option Gear, r = .shift (.select g))) ∧
        OldestRequest Request.isShift r others s ∧
        (uses ↔ ∃ y ∈ x :: rest, ∃ n : Nat, y.action = .shiftUp n ∨ y.action = .shiftDown n)) ∨
      (((c = .switchUp ∧ r = .hitchSwitch true) ∨ (c = .switchDown ∧ r = .hitchSwitch false)) ∧
        OldestRequest Request.isSwitch r others s ∧
        (uses ↔ ∃ y ∈ x :: rest, y.action = .hitchRaise ∨ y.action = .hitchWork))) :
    ∃ t : State, exec c s = .next t ∧
      (uses → t.hsq = { s.hsq with state := .aborted, cause := some .cabRequest, trigStart := none }) ∧
      (¬ uses → t.hsq = s.hsq) := by
  have hcontrollers : s.mc.mode.controllersRun = true := by
    rw [hmode]
    rfl
  have hrequests : Touches [.requests, .vdb, .shc, .htc] s (s.withRequests others) :=
    (touches_withRequests s others).mono (by decide)
  rw [← h] at hedge
  rcases hedge with ⟨hc, hrequest, huses⟩ | ⟨hc, hrequest, huses⟩
  · obtain ⟨cmd, rfl, hcmd⟩ : ∃ cmd : ShiftCmd, r = .shift cmd ∧ ((c = .cabShiftUp ∧ cmd = .up) ∨
        (c = .cabShiftDown ∧ cmd = .down) ∨ (c = .cabSelect ∧ ∃ g : Option Gear, cmd = .select g)) := by
      rcases hc with ⟨hc, rfl⟩ | ⟨hc, rfl⟩ | ⟨hc, g, rfl⟩
      · exact ⟨_, rfl, .inl ⟨hc, rfl⟩⟩
      · exact ⟨_, rfl, .inr (.inl ⟨hc, rfl⟩)⟩
      · exact ⟨_, rfl, .inr (.inr ⟨hc, g, rfl⟩)⟩
    refine ⟨_, exec_cabShift hcmd hrequest hcontrollers, notice_hsq hmode hrun
      (also hrequests (touches_shiftCommand cmd (s.withRequests others))) (by decide) (by decide) (by decide) ?_⟩
    simp only [usesShift_iff]
    exact huses
  · obtain ⟨up, rfl, hup⟩ : ∃ up : Bool, r = .hitchSwitch up ∧
        ((c = .switchUp ∧ up = true) ∨ (c = .switchDown ∧ up = false)) := by
      rcases hc with ⟨hc, rfl⟩ | ⟨hc, rfl⟩
      · exact ⟨_, rfl, .inl ⟨hc, rfl⟩⟩
      · exact ⟨_, rfl, .inr ⟨hc, rfl⟩⟩
    refine ⟨_, exec_switch hup hrequest hcontrollers, notice_hsq hmode hrun
      (also hrequests (touches_hitchSwitch up (s.withRequests others))) (by decide) (by decide) (by decide) ?_⟩
    simp only [usesHitch_iff]
    exact huses

/-- An interval out of a run records a late refusal alone (R174). -/
theorem hsqInterval_of_idle (h : s.hsq.state ≠ .running) : hsqInterval s = checkRefusals s :=
  if_neg (by simpa [State.running] using h)

end

/-- Settles O46. -/
theorem headlandTriggersIssue : Obligations.HeadlandTriggersIssue := by
  refine ⟨fun k x rest s hmode hrun hkind hlist => ?_, fun r why who s hmode hidle hne hrefusal hshift => ?_⟩
  · have hsteps : remaining s = x :: rest := by
      unfold remaining
      rw [hkind, ← hlist]
      cases k <;> rfl
    have hnext := exec_hsqControlInterval hmode
    obtain ⟨htouched, hlever, hshuttle⟩ := run_aborts hrun hsteps
    refine ⟨fun c done due hdone hdue hfields hdrive hstate hpending => ?_, ⟨_, hnext, fun k => ?_, fun k hl => ?_, fun k hl hs => ?_⟩,
      fun c r others uses hedge => cab_edge_in_run hmode hrun hsteps hedge⟩
    · have hcounted : done = travelCounted s := by
        rw [hdone]
        unfold travelCounted
        cases s.hsq.trigStart <;> rfl
      have hread : due ↔ TriggerDue x s := by rw [hdue, hcounted]; rfl
      have hsteady : RunSteady x rest s := ⟨hmode, hrun, hsteps, hfields, hdrive, hstate, hpending⟩
      rw [hread]
      refine ⟨fun hc hnow => ?_, fun hc hnot => exec_not_due hmode hrun hsteps hc hnot, fun hc hnot => ?_⟩
      · have hissued := hsqInterval_due hsteady hkind hnow
        refine ⟨_, exec_due hmode hrun hsteps hc hnow, hissued.touches.mono (by decide), hissued.kind, hissued.stepCount,
          fun imm todo himm htodo => ?_⟩
        obtain ⟨u, hcarried⟩ := hissued.carried
        subst himm htodo
        exact ⟨hcarried.stepsCarriedOut, hissued.index, hissued.finished, hissued.waits⟩
      · have hwaits := hsqInterval_waits hsteady hnot
        rw [hc, hcounted]
        exact ⟨_, hnext, hwaits.touches, hwaits.state, hwaits.index, hwaits.refusalsSeen, hwaits.counted, hwaits.late,
          hwaits.seen⟩
    · exact hsqInterval_of_aborted hrun (htouched k)
    · exact hsqInterval_of_aborted hrun (hlever k hl)
    · exact hsqInterval_of_aborted hrun (hshuttle k hl hs)
  · have hchecked := refusalsChecked s
    have hrecorded := hchecked.late r why who hne hrefusal hshift
    refine ⟨_, exec_hsqControlInterval hmode, ?_⟩
    rw [hsqInterval_of_idle hidle]
    refine ⟨hchecked.touches, fun hwho => ?_, fun hwho => ?_⟩
    · rw [hchecked.kept, hrecorded, if_pos hwho]
    · rw [hchecked.kept, hrecorded, if_neg hwho]

end Sys2Proof.Proofs
end
